-- ==== Sys2Proof/Word.lean ====
section
/-! DEFINITION. Words and bytes: the plain types every other file uses, and nothing a repair could need to mend. -/

namespace Sys2Proof

/-- A 64-bit register value or address (R17, R18). -/
abbrev Word := BitVec 64

/-- The smallest addressable unit (R17). -/
abbrev Byte := BitVec 8

end Sys2Proof
end

