-- ==== Sys2Proof/Syntax.lean ====
section
/-! DEFINITION. The syntax of Karhorn: operand types and the one inductive `Instr`, one constructor for each row of the
table of operations and events. The first 268 rows are instruction words (spec/02 R23 to R34); the last 114 rows are the
events of the module, which have no encoding (spec/95: each row is one whole, indivisible step). -/

namespace Sys2Proof

/-- A scalar register g0 to g31 (R19). -/
abbrev GReg := Fin 32
/-- A vector register v0 to v15, or one of g0 to g15 in the forms that say so (R23). -/
abbrev VReg := Fin 16
/-- A mask m0 to m7 (R142). -/
abbrev MReg := Fin 8
/-- An accumulator tile a0 to a7 (R178). -/
abbrev Tile := Fin 8
/-- A copy channel 0 to 3 (R224). -/
abbrev Chan := Fin 4

/-- Access sizes of R24; code 7 is reserved and has no constructor. -/
inductive Sz where
  | b | h | w | d | bn | hn | wn
  deriving DecidableEq, Repr

/-- The wait field of R24. -/
inductive Wt where
  | no | cluster | hearth | all
  deriving DecidableEq, Repr

/-- Source widths of sext and zext (R27); code 3 is unassigned. -/
inductive XWidth where
  | byte | half | word
  deriving DecidableEq, Repr

/-- Element types of R32; the reserved codes have no constructor. -/
inductive VType where
  | i32 | n32 | i16 | n16 | i8 | n8 | f32 | f16 | bf16 | e4m3 | e5m2 | e2m1x
  deriving DecidableEq, Repr

/-- Barrier scopes of R247. -/
inductive Scope where
  | core | cluster | pod
  deriving DecidableEq, Repr

/-- Conditions of `waitw` (R252); codes 6 and 7 are unassigned. -/
inductive WCond where
  | eq | ne | lt | ge | ltn | gen
  deriving DecidableEq, Repr

/-- The fl field of `qput` (R247): blocking, `.nb`, `.cl`; 3 is unassigned. -/
inductive QMode where
  | block | nb | close
  deriving DecidableEq, Repr

/-- One row of the table of operations and events each. -/
inductive Instr where
  /-- R92. Adds ga and gb modulo 2^64 into gd. -/
  | add (d : GReg) (a : GReg) (b : GReg)
  /-- R92. Subtracts gb from ga modulo 2^64 into gd. -/
  | sub (d : GReg) (a : GReg) (b : GReg)
  /-- R92. Writes the low 64 bits of ga times gb to gd. -/
  | mul (d : GReg) (a : GReg) (b : GReg)
  /-- R92. Writes the high 64 bits of the signed 128-bit product to gd. -/
  | mulh (d : GReg) (a : GReg) (b : GReg)
  /-- R92. Writes the high 64 bits of the unsigned 128-bit product to gd. -/
  | mulhn (d : GReg) (a : GReg) (b : GReg)
  /-- R93. Starts a signed division on the divide unit and blocks the thread. -/
  | div (d : GReg) (a : GReg) (b : GReg)
  /-- R93. Starts an unsigned division on the divide unit and blocks the thread. -/
  | divn (d : GReg) (a : GReg) (b : GReg)
  /-- R93. Starts a signed remainder on the divide unit and blocks the thread. -/
  | rem (d : GReg) (a : GReg) (b : GReg)
  /-- R93. Starts an unsigned remainder on the divide unit and blocks the thread. -/
  | remn (d : GReg) (a : GReg) (b : GReg)
  /-- R92. Writes ga AND gb to gd. -/
  | and (d : GReg) (a : GReg) (b : GReg)
  /-- R92. Writes ga OR gb to gd. -/
  | or (d : GReg) (a : GReg) (b : GReg)
  /-- R92. Writes ga XOR gb to gd. -/
  | xor (d : GReg) (a : GReg) (b : GReg)
  /-- R92. Writes ga AND NOT gb to gd. -/
  | andn (d : GReg) (a : GReg) (b : GReg)
  /-- R92. Writes ga OR NOT gb to gd. -/
  | orn (d : GReg) (a : GReg) (b : GReg)
  /-- R92. Shifts ga left by gb[5:0] into gd. -/
  | sll (d : GReg) (a : GReg) (b : GReg)
  /-- R92. Shifts ga right logically by gb[5:0] into gd. -/
  | srl (d : GReg) (a : GReg) (b : GReg)
  /-- R92. Shifts ga right arithmetically by gb[5:0] into gd. -/
  | sra (d : GReg) (a : GReg) (b : GReg)
  /-- R92. Rotates ga left by gb[5:0] into gd. -/
  | rol (d : GReg) (a : GReg) (b : GReg)
  /-- R92. Rotates ga right by gb[5:0] into gd. -/
  | ror (d : GReg) (a : GReg) (b : GReg)
  /-- R92. Sets gd to 1 when ga is less than gb, signed. -/
  | slt (d : GReg) (a : GReg) (b : GReg)
  /-- R92. Sets gd to 1 when ga is less than gb, unsigned. -/
  | sltn (d : GReg) (a : GReg) (b : GReg)
  /-- R92. Sets gd to 1 when ga equals gb. -/
  | seq (d : GReg) (a : GReg) (b : GReg)
  /-- R92. Sets gd to 1 when ga differs from gb. -/
  | sne (d : GReg) (a : GReg) (b : GReg)
  /-- R92. Writes the signed minimum of ga and gb to gd. -/
  | min (d : GReg) (a : GReg) (b : GReg)
  /-- R92. Writes the signed maximum of ga and gb to gd. -/
  | max (d : GReg) (a : GReg) (b : GReg)
  /-- R92. Writes the unsigned minimum of ga and gb to gd. -/
  | minn (d : GReg) (a : GReg) (b : GReg)
  /-- R92. Writes the unsigned maximum of ga and gb to gd. -/
  | maxn (d : GReg) (a : GReg) (b : GReg)
  /-- R94. Counts the leading zero bits of ga into gd. -/
  | clz (d : GReg) (a : GReg)
  /-- R94. Counts the trailing zero bits of ga into gd. -/
  | ctz (d : GReg) (a : GReg)
  /-- R94. Counts the one bits of ga into gd. -/
  | pop (d : GReg) (a : GReg)
  /-- R94. Reverses the byte order of ga into gd. -/
  | bswap (d : GReg) (a : GReg)
  /-- R94. Reverses the bit order of ga into gd. -/
  | brev (d : GReg) (a : GReg)
  /-- R94. Sign-extends the low byte, half or word of ga into gd. -/
  | sext (d : GReg) (a : GReg) (w : XWidth)
  /-- R94. Zero-extends the low byte, half or word of ga into gd. -/
  | zext (d : GReg) (a : GReg) (w : XWidth)
  /-- R92. Writes ga to gd when the old gd is nonzero, otherwise gb. -/
  | sel (d : GReg) (a : GReg) (b : GReg)
  /-- R94. Extracts the bit field of ga that gb describes into gd. -/
  | bfx (d : GReg) (a : GReg) (b : GReg)
  /-- R94. Inserts the low bits of ga into the field of gd that gb describes. -/
  | bfi (d : GReg) (a : GReg) (b : GReg)
  /-- R95. Adds the sign-extended immediate to ga into gd. -/
  | addi (d : GReg) (a : GReg) (i : BitVec 16)
  /-- R95. ANDs ga with the zero-extended immediate into gd. -/
  | andi (d : GReg) (a : GReg) (i : BitVec 16)
  /-- R95. ORs ga with the zero-extended immediate into gd. -/
  | ori (d : GReg) (a : GReg) (i : BitVec 16)
  /-- R95. XORs ga with the zero-extended immediate into gd. -/
  | xori (d : GReg) (a : GReg) (i : BitVec 16)
  /-- R95. Shifts ga left by an immediate amount into gd. -/
  | shiSll (d : GReg) (a : GReg) (n : BitVec 6)
  /-- R95. Shifts ga right logically by an immediate amount into gd. -/
  | shiSrl (d : GReg) (a : GReg) (n : BitVec 6)
  /-- R95. Shifts ga right arithmetically by an immediate amount into gd. -/
  | shiSra (d : GReg) (a : GReg) (n : BitVec 6)
  /-- R95. Rotates ga left by an immediate amount into gd. -/
  | shiRol (d : GReg) (a : GReg) (n : BitVec 6)
  /-- R95. Rotates ga right by an immediate amount into gd. -/
  | shiRor (d : GReg) (a : GReg) (n : BitVec 6)
  /-- R95. Sets gd to 1 when ga is below the sign-extended immediate, signed. -/
  | slti (d : GReg) (a : GReg) (i : BitVec 16)
  /-- R95. Sets gd to 1 when ga is below the sign-extended immediate, unsigned. -/
  | sltni (d : GReg) (a : GReg) (i : BitVec 16)
  /-- R95. Writes the sign-extended 21-bit immediate to gd. -/
  | li (d : GReg) (i : BitVec 21)
  /-- R95. Shifts ga left by 16 and ORs in the immediate into gd. -/
  | lsh (d : GReg) (a : GReg) (i : BitVec 16)
  /-- R96. Branches when ga equals gb. -/
  | bEq (a : GReg) (b : GReg) (o : BitVec 13)
  /-- R96. Branches when ga differs from gb. -/
  | bNe (a : GReg) (b : GReg) (o : BitVec 13)
  /-- R96. Branches when ga is below gb, signed. -/
  | bLt (a : GReg) (b : GReg) (o : BitVec 13)
  /-- R96. Branches when ga is at least gb, signed. -/
  | bGe (a : GReg) (b : GReg) (o : BitVec 13)
  /-- R96. Branches when ga is below gb, unsigned. -/
  | bLtn (a : GReg) (b : GReg) (o : BitVec 13)
  /-- R96. Branches when ga is at least gb, unsigned. -/
  | bGen (a : GReg) (b : GReg) (o : BitVec 13)
  /-- R96. Branches when bit gb[5:0] of ga is 1. -/
  | bBs (a : GReg) (b : GReg) (o : BitVec 13)
  /-- R97. Jumps to a PC-relative target. -/
  | j (o : BitVec 26)
  /-- R97. Jumps to a PC-relative target and links in g31. -/
  | jal (o : BitVec 26)
  /-- R98. Jumps to the address in ga. -/
  | jr (a : GReg)
  /-- R98. Jumps to the address in ga and links in gd. -/
  | jalr (d : GReg) (a : GReg)
  /-- R125. Loads a datum of the given size from ga plus a scaled offset into gd. -/
  | ld (d : GReg) (a : GReg) (z : Sz) (w : Wt) (o : BitVec 11)
  /-- R125. Stores gd of the given size to ga plus a scaled offset. -/
  | st (d : GReg) (a : GReg) (z : Sz) (w : Wt) (o : BitVec 11)
  /-- R126. Loads from ga plus gb scaled by the size into gd. -/
  | ldx (d : GReg) (a : GReg) (b : GReg) (z : Sz) (w : Wt)
  /-- R126. Stores gd to ga plus gb scaled by the size. -/
  | stx (d : GReg) (a : GReg) (b : GReg) (z : Sz) (w : Wt)
  /-- R127. Atomically adds gb to the location and returns the old value. -/
  | amoAdd (d : GReg) (a : GReg) (b : GReg) (z : Sz) (w : Wt)
  /-- R127. Atomically ANDs gb into the location and returns the old value. -/
  | amoAnd (d : GReg) (a : GReg) (b : GReg) (z : Sz) (w : Wt)
  /-- R127. Atomically ORs gb into the location and returns the old value. -/
  | amoOr (d : GReg) (a : GReg) (b : GReg) (z : Sz) (w : Wt)
  /-- R127. Atomically XORs gb into the location and returns the old value. -/
  | amoXor (d : GReg) (a : GReg) (b : GReg) (z : Sz) (w : Wt)
  /-- R127. Atomically takes the signed minimum with gb and returns the old value. -/
  | amoMin (d : GReg) (a : GReg) (b : GReg) (z : Sz) (w : Wt)
  /-- R127. Atomically takes the signed maximum with gb and returns the old value. -/
  | amoMax (d : GReg) (a : GReg) (b : GReg) (z : Sz) (w : Wt)
  /-- R127. Atomically takes the unsigned minimum with gb and returns the old value. -/
  | amoMinn (d : GReg) (a : GReg) (b : GReg) (z : Sz) (w : Wt)
  /-- R127. Atomically takes the unsigned maximum with gb and returns the old value. -/
  | amoMaxn (d : GReg) (a : GReg) (b : GReg) (z : Sz) (w : Wt)
  /-- R127. Atomically writes gb to the location and returns the old value. -/
  | amoSwap (d : GReg) (a : GReg) (b : GReg) (z : Sz) (w : Wt)
  /-- R127. Atomically writes gb when the location equals gd, returning the old value. -/
  | amoCas (d : GReg) (a : GReg) (b : GReg) (z : Sz) (w : Wt)
  /-- R128. Sends a fire-and-forget update adding gb to the location. -/
  | redAdd (a : GReg) (b : GReg) (z : Sz) (w : Wt)
  /-- R128. Sends an update ANDing gb into the location. -/
  | redAnd (a : GReg) (b : GReg) (z : Sz) (w : Wt)
  /-- R128. Sends an update ORing gb into the location. -/
  | redOr (a : GReg) (b : GReg) (z : Sz) (w : Wt)
  /-- R128. Sends an update XORing gb into the location. -/
  | redXor (a : GReg) (b : GReg) (z : Sz) (w : Wt)
  /-- R128. Sends an update taking the signed minimum with gb. -/
  | redMin (a : GReg) (b : GReg) (z : Sz) (w : Wt)
  /-- R128. Sends an update taking the signed maximum with gb. -/
  | redMax (a : GReg) (b : GReg) (z : Sz) (w : Wt)
  /-- R128. Sends an update adding the 128-bit register pair to a 16-byte location modulo 2^128. -/
  | redAddW128 (a : GReg) (b : GReg) (w : Wt)
  /-- R129. Migrates the thread to the home of the writable address in ga. -/
  | mig (d : GReg) (a : GReg)
  /-- R129. Migrates the thread to the core named by ga[13:0]. -/
  | migc (d : GReg) (a : GReg)
  /-- R130. Core-scope fence that waits for nothing. -/
  | fenceCore
  /-- R130. Blocks until PCNT.C is zero. -/
  | fenceCluster
  /-- R130. Blocks until PCNT.C and PCNT.H are zero. -/
  | fenceHearth
  /-- R130. Blocks until all three posted counters are zero. -/
  | fenceModule
  /-- R131. Hints a prefetch of the line holding ga. -/
  | pfl (a : GReg)
  /-- R132. Translates ga as a load and writes the translation result to gd. -/
  | xlat (d : GReg) (a : GReg)
  /-- R101. FP32 addition of ga and gb into gd. -/
  | fadd (d : GReg) (a : GReg) (b : GReg)
  /-- R101. FP32 subtraction of gb from ga into gd. -/
  | fsub (d : GReg) (a : GReg) (b : GReg)
  /-- R101. FP32 multiplication of ga and gb into gd. -/
  | fmul (d : GReg) (a : GReg) (b : GReg)
  /-- R101. FP32 fused ga times gb plus gd into gd. -/
  | fma (d : GReg) (a : GReg) (b : GReg)
  /-- R101. FP32 fused gd minus ga times gb into gd. -/
  | fnma (d : GReg) (a : GReg) (b : GReg)
  /-- R101. Starts an FP32 division on the divide unit and blocks the thread. -/
  | fdiv (d : GReg) (a : GReg) (b : GReg)
  /-- R101. Starts an FP32 square root on the divide unit and blocks the thread. -/
  | fsqrt (d : GReg) (a : GReg)
  /-- R101. FP32 minimum of ga and gb into gd. -/
  | fmin (d : GReg) (a : GReg) (b : GReg)
  /-- R101. FP32 maximum of ga and gb into gd. -/
  | fmax (d : GReg) (a : GReg) (b : GReg)
  /-- R102. Writes 1 when ga equals gb, neither a NaN. -/
  | fcmpEq (d : GReg) (a : GReg) (b : GReg)
  /-- R102. Writes 1 when ga is below gb, neither a NaN. -/
  | fcmpLt (d : GReg) (a : GReg) (b : GReg)
  /-- R102. Writes 1 when ga is at most gb, neither a NaN. -/
  | fcmpLe (d : GReg) (a : GReg) (b : GReg)
  /-- R102. Writes 1 when ga or gb is a NaN. -/
  | fcmpUn (d : GReg) (a : GReg) (b : GReg)
  /-- R103. Writes a one-hot class code of ga to gd. -/
  | fclass (d : GReg) (a : GReg)
  /-- R104. Converts signed 64-bit ga to FP32. -/
  | fcvtF32I64 (d : GReg) (a : GReg)
  /-- R104. Converts unsigned 64-bit ga to FP32. -/
  | fcvtF32N64 (d : GReg) (a : GReg)
  /-- R104. Converts FP32 to signed 64-bit by FRM. -/
  | fcvtI64F32 (d : GReg) (a : GReg)
  /-- R104. Converts FP32 to unsigned 64-bit by FRM. -/
  | fcvtN64F32 (d : GReg) (a : GReg)
  /-- R104. Converts FP32 to signed 64-bit toward zero. -/
  | fcvtI64F32Rtz (d : GReg) (a : GReg)
  /-- R104. Converts FP32 to unsigned 64-bit toward zero. -/
  | fcvtN64F32Rtz (d : GReg) (a : GReg)
  /-- R104. Converts signed 32-bit ga to FP32. -/
  | fcvtF32I32 (d : GReg) (a : GReg)
  /-- R104. Converts FP32 to a saturated signed 32-bit value, sign-extended. -/
  | fcvtI32F32 (d : GReg) (a : GReg)
  /-- R104. Converts FP32 to FP16. -/
  | fcvtF16F32 (d : GReg) (a : GReg)
  /-- R104. Converts FP16 to FP32. -/
  | fcvtF32F16 (d : GReg) (a : GReg)
  /-- R104. Converts FP32 to BF16. -/
  | fcvtBf16F32 (d : GReg) (a : GReg)
  /-- R104. Converts BF16 to FP32. -/
  | fcvtF32Bf16 (d : GReg) (a : GReg)
  /-- R105. Writes ga with the sign of gb. -/
  | fsgnj (d : GReg) (a : GReg) (b : GReg)
  /-- R105. Writes ga with the inverted sign of gb. -/
  | fsgnjN (d : GReg) (a : GReg) (b : GReg)
  /-- R105. Writes ga with the XOR of both signs. -/
  | fsgnjX (d : GReg) (a : GReg) (b : GReg)
  /-- R158. Vector integer addition per sub-element. -/
  | vadd (d : VReg) (a : VReg) (b : VReg) (k : MReg) (t : VType)
  /-- R158. Vector integer subtraction per sub-element. -/
  | vsub (d : VReg) (a : VReg) (b : VReg) (k : MReg) (t : VType)
  /-- R158. Vector integer multiplication, low half. -/
  | vmul (d : VReg) (a : VReg) (b : VReg) (k : MReg) (t : VType)
  /-- R158. Vector integer multiplication, high half. -/
  | vmulh (d : VReg) (a : VReg) (b : VReg) (k : MReg) (t : VType)
  /-- R158. Vector integer minimum by type. -/
  | vmin (d : VReg) (a : VReg) (b : VReg) (k : MReg) (t : VType)
  /-- R158. Vector integer maximum by type. -/
  | vmax (d : VReg) (a : VReg) (b : VReg) (k : MReg) (t : VType)
  /-- R158. Vector bitwise AND. -/
  | vand (d : VReg) (a : VReg) (b : VReg) (k : MReg)
  /-- R158. Vector bitwise OR. -/
  | vor (d : VReg) (a : VReg) (b : VReg) (k : MReg)
  /-- R158. Vector bitwise XOR. -/
  | vxor (d : VReg) (a : VReg) (b : VReg) (k : MReg)
  /-- R158. Vector shift left per sub-element. -/
  | vsll (d : VReg) (a : VReg) (b : VReg) (k : MReg) (t : VType)
  /-- R158. Vector logical shift right per sub-element. -/
  | vsrl (d : VReg) (a : VReg) (b : VReg) (k : MReg) (t : VType)
  /-- R158. Vector arithmetic shift right per sub-element. -/
  | vsra (d : VReg) (a : VReg) (b : VReg) (k : MReg) (t : VType)
  /-- R158. Vector saturating addition. -/
  | vadds (d : VReg) (a : VReg) (b : VReg) (k : MReg) (t : VType)
  /-- R158. Vector saturating subtraction. -/
  | vsubs (d : VReg) (a : VReg) (b : VReg) (k : MReg) (t : VType)
  /-- R160. Writes a mask of integer equality. -/
  | vcmpEq (d : MReg) (a : VReg) (b : VReg) (k : MReg) (t : VType)
  /-- R160. Writes a mask of integer inequality. -/
  | vcmpNe (d : MReg) (a : VReg) (b : VReg) (k : MReg) (t : VType)
  /-- R160. Writes a mask of integer less-than. -/
  | vcmpLt (d : MReg) (a : VReg) (b : VReg) (k : MReg) (t : VType)
  /-- R160. Writes a mask of integer less-or-equal. -/
  | vcmpLe (d : MReg) (a : VReg) (b : VReg) (k : MReg) (t : VType)
  /-- R160. Selects va or vb per element by a mask. -/
  | vsel (d : VReg) (a : VReg) (b : VReg) (k : MReg)
  /-- R161. Mask AND. -/
  | vmand (d : MReg) (a : MReg) (b : MReg)
  /-- R161. Mask OR. -/
  | vmor (d : MReg) (a : MReg) (b : MReg)
  /-- R161. Mask XOR. -/
  | vmxor (d : MReg) (a : MReg) (b : MReg)
  /-- R161. Mask AND NOT. -/
  | vmandn (d : MReg) (a : MReg) (b : MReg)
  /-- R170. Integer tree sum of active elements into element 0. -/
  | vrsum (d : VReg) (a : VReg) (k : MReg) (t : VType)
  /-- R170. Integer tree maximum of active elements into element 0. -/
  | vrmax (d : VReg) (a : VReg) (k : MReg) (t : VType)
  /-- R173. Permutes va by the indices in vb. -/
  | vperm (d : VReg) (a : VReg) (b : VReg) (k : MReg)
  /-- R159. Vector floating-point addition. -/
  | vfadd (d : VReg) (a : VReg) (b : VReg) (k : MReg) (t : VType)
  /-- R159. Vector floating-point subtraction. -/
  | vfsub (d : VReg) (a : VReg) (b : VReg) (k : MReg) (t : VType)
  /-- R159. Vector floating-point multiplication. -/
  | vfmul (d : VReg) (a : VReg) (b : VReg) (k : MReg) (t : VType)
  /-- R159. Vector fused multiply-add into vd. -/
  | vfma (d : VReg) (a : VReg) (b : VReg) (k : MReg) (t : VType)
  /-- R159. Vector floating-point minimum. -/
  | vfmin (d : VReg) (a : VReg) (b : VReg) (k : MReg) (t : VType)
  /-- R159. Vector floating-point maximum. -/
  | vfmax (d : VReg) (a : VReg) (b : VReg) (k : MReg) (t : VType)
  /-- R160. Writes a mask of FP32 equality. -/
  | vfcmpEq (d : MReg) (a : VReg) (b : VReg) (k : MReg)
  /-- R160. Writes a mask of FP32 less-than. -/
  | vfcmpLt (d : MReg) (a : VReg) (b : VReg) (k : MReg)
  /-- R160. Writes a mask of FP32 less-or-equal. -/
  | vfcmpLe (d : MReg) (a : VReg) (b : VReg) (k : MReg)
  /-- R160. Writes a mask of FP32 unordered. -/
  | vfcmpUn (d : MReg) (a : VReg) (b : VReg) (k : MReg)
  /-- R162. Converts and widens source sub-elements into 32-bit elements. -/
  | vcvt (d : VReg) (a : VReg) (z : VType) (k : MReg) (t : VType)
  /-- R163. Converts and packs 32-bit elements into narrower sub-elements. -/
  | vpk (d : VReg) (a : VReg) (z : VType) (k : MReg) (t : VType)
  /-- R164. Vector 2^x. -/
  | vex2 (d : VReg) (a : VReg) (k : MReg) (t : VType)
  /-- R164. Vector log2 x. -/
  | vlg2 (d : VReg) (a : VReg) (k : MReg) (t : VType)
  /-- R164. Vector reciprocal. -/
  | vrcp (d : VReg) (a : VReg) (k : MReg) (t : VType)
  /-- R164. Vector reciprocal square root. -/
  | vrsq (d : VReg) (a : VReg) (k : MReg) (t : VType)
  /-- R164. Vector square root. -/
  | vsqrt (d : VReg) (a : VReg) (k : MReg) (t : VType)
  /-- R164. Vector sin of pi x. -/
  | vsin (d : VReg) (a : VReg) (k : MReg) (t : VType)
  /-- R164. Vector cos of pi x. -/
  | vcos (d : VReg) (a : VReg) (k : MReg) (t : VType)
  /-- R170. FP32 tree sum of active elements into element 0. -/
  | vrsumF32 (d : VReg) (a : VReg) (k : MReg)
  /-- R170. FP32 tree maximum of active elements into element 0. -/
  | vrmaxF32 (d : VReg) (a : VReg) (k : MReg)
  /-- R175. Contiguous vector load from own LM. -/
  | vld (d : VReg) (a : GReg) (k : MReg) (t : VType)
  /-- R175. Contiguous vector store to own LM. -/
  | vst (d : VReg) (a : GReg) (k : MReg) (t : VType)
  /-- R175. Strided vector load from own LM. -/
  | vlds (d : VReg) (a : GReg) (i : VReg) (k : MReg) (t : VType)
  /-- R175. Strided vector store to own LM. -/
  | vsts (d : VReg) (a : GReg) (i : VReg) (k : MReg) (t : VType)
  /-- R175. Gather vector load from own LM. -/
  | vldg (d : VReg) (a : GReg) (i : VReg) (k : MReg) (t : VType)
  /-- R175. Scatter vector store to own LM. -/
  | vstg (d : VReg) (a : GReg) (i : VReg) (k : MReg) (t : VType)
  /-- R177. Claims a vector context if one is free. -/
  | vclaim (a : GReg)
  /-- R177. Waits for the thread's vector commands and returns its context. -/
  | vrel
  /-- R177. Sets VL from ga and returns the new VL. -/
  | vsetl (a : GReg)
  /-- R174. Broadcasts ga[31:0] to every active element. -/
  | vbc (d : VReg) (a : GReg) (k : MReg)
  /-- R174. Writes ga[31:0] into one element of vd. -/
  | vmovgv (d : VReg) (a : GReg) (i : VReg)
  /-- R174. Moves one element of vi into gd, blocking the thread. -/
  | vmovvg (a : GReg) (i : VReg) (t : VType)
  /-- R174. Moves an element pair of vi into gd as a doubleword. -/
  | vmovvgD (a : GReg) (i : VReg)
  /-- R169. Writes the starter mix of each counter element under STARTER. -/
  | vrng (d : VReg) (i : VReg) (k : MReg) (t : VType)
  /-- R171. Adds converted values into a 128-bit fixed-point accumulator. -/
  | vfix (d : VReg) (a : GReg) (i : VReg) (k : MReg)
  /-- R172. Converts a 128-bit fixed-point value to FP32. -/
  | vunfix (d : VReg) (a : GReg) (i : VReg)
  /-- R173. Slides vi by the signed amount in ga. -/
  | vslide (d : VReg) (a : GReg) (i : VReg) (k : MReg)
  /-- R161. Counts mask bits below VL into ga, blocking the thread. -/
  | vmpop (a : GReg) (i : MReg)
  /-- R176. Reads a row group of an accumulator tile into vd after the tile interlock. -/
  | vacc (d : VReg) (a : GReg) (i : Tile) (k : MReg) (t : VType)
  /-- R201. Claims the named tiles all or nothing. -/
  | mclaim (a : GReg) (d : GReg)
  /-- R202. Waits for commands on the named tiles and releases them. -/
  | mrel (a : GReg)
  /-- R203. Loads the six shadow format registers from own LM. -/
  | mset (a : GReg)
  /-- R203. Stores the six shadow format registers to own LM. -/
  | mget (a : GReg)
  /-- R204. Queues a command that zeroes a tile after its gate. -/
  | mzero (d : GReg) (t : Tile)
  /-- R205. Queues a command adding a bias vector to every tile row. -/
  | mbias (a : GReg) (d : GReg) (t : Tile)
  /-- R206. Queues a bit-plane matrix multiply accumulating into a tile. -/
  | mmul (a : GReg) (b : GReg) (d : GReg) (t : Tile)
  /-- R206. Gathers A rows into the operand latch and queues a multiply. -/
  | mmulg (a : GReg) (b : GReg) (d : GReg) (t : Tile)
  /-- R207. Queues a requantisation of a tile into LM. -/
  | mdrain (a : GReg) (b : GReg) (d : VType) (t : Tile)
  /-- R208. Blocks until the thread's matrix commands are done, then returns MSTAT. -/
  | mwait (d : GReg)
  /-- R208. Cancels the thread's unretired matrix commands. -/
  | mstop (d : GReg)
  /-- R232. Loads the seven copy registers from own LM. -/
  | xset (a : GReg)
  /-- R234. Issues a linear copy on a channel. -/
  | xcopy (a : GReg) (d : GReg) (c : Chan)
  /-- R234. Issues a strided row copy on a channel. -/
  | xstr (a : GReg) (d : GReg) (c : Chan)
  /-- R234. Issues an indexed gather copy on a channel. -/
  | xgat (a : GReg) (b : GReg) (d : GReg) (c : Chan)
  /-- R235. Issues a multicast copy to LMs of the cluster. -/
  | xmc (a : GReg) (d : GReg) (c : Chan)
  /-- R237. Waits for counters and engines, then sends an arrival to a core barrier. -/
  | xack (a : GReg) (b : GReg) (d : GReg)
  /-- R238. Blocks until a channel's write pointer reaches ga. -/
  | xwp (a : GReg) (d : GReg) (c : Chan)
  /-- R239. Blocks until a transfer ends and returns its status. -/
  | xwait (a : GReg) (d : GReg)
  /-- R239. Stops a transfer and returns its status. -/
  | xkill (a : GReg) (d : GReg)
  /-- R248. Sets a barrier's target and clears its count and poison. -/
  | bset (a : GReg) (b : GReg) (z : Scope)
  /-- R249. Waits for counters and arrives at a barrier. -/
  | barr (a : GReg) (d : GReg) (z : Scope)
  /-- R242. Waits until a barrier phase completes. -/
  | barw (a : GReg) (d : GReg) (z : Scope)
  /-- R242. Waits for a barrier phase or a TIME limit. -/
  | barwT (a : GReg) (b : GReg) (d : GReg) (z : Scope)
  /-- R250. Returns a barrier's state. -/
  | bstat (a : GReg) (d : GReg) (z : Scope)
  /-- R237. Waits for counters and sends an arrival to a remote core barrier. -/
  | rarr (a : GReg) (b : GReg) (d : GReg)
  /-- R251. Arrives at a pod barrier and blocks until it completes. -/
  | pbar (a : GReg) (d : GReg)
  /-- R252. Registers a waiter until a doubleword meets a condition. -/
  | waitw (a : GReg) (b : GReg) (d : GReg) (c : WCond)
  /-- R255. Appends an item to, or closes, a hardware queue. -/
  | qput (a : GReg) (b : GReg) (d : GReg) (f : QMode)
  /-- R255. Removes the head item of a hardware queue. -/
  | qget (a : GReg) (b : GReg) (d : GReg) (n : Bool)
  /-- R255. Reads a queue's state. -/
  | qstat (a : GReg) (d : GReg)
  /-- R329. Looks up or allocates a leaf crumb for 256 LM bytes. -/
  | cput (a : GReg) (b : GReg) (d : GReg)
  /-- R330. Copies a crumb's bytes into own LM. -/
  | cget (a : GReg) (b : GReg) (d : GReg)
  /-- R329. Looks up or allocates a node crumb of 16 child names. -/
  | cnode (a : GReg) (b : GReg) (d : GReg)
  /-- R331. Raises a crumb's count. -/
  | cref (b : GReg) (d : GReg)
  /-- R331. Lowers a crumb's count, possibly starting its free. -/
  | cdrop (b : GReg) (d : GReg)
  /-- R332. Reads a root cell and takes a reference on its name. -/
  | croot (a : GReg) (b : GReg) (d : GReg)
  /-- R333. Compares and swaps a root cell with reference counting. -/
  | cswap (a : GReg) (b : GReg) (d : GReg)
  /-- R334. Copies a crumb tree out through a copy channel. -/
  | cout (a : GReg) (b : GReg) (d : GReg) (c : Chan)
  /-- R335. Returns the state of a crumb name. -/
  | cstat (b : GReg) (d : GReg)
  /-- R335. Returns the free slots and entries of a crumb home. -/
  | cstatHome (a : GReg) (d : GReg)
  /-- R285. Waits for counters and requests the nest placer to apply an entry. -/
  | apply (a : GReg) (d : GReg)
  /-- R285. Applies an entry, waiting instead of failing for lack of resources. -/
  | applyW (a : GReg) (d : GReg)
  /-- R286. Writes an ARG word of a callable entry. -/
  | patch (a : GReg) (b : GReg) (d : GReg)
  /-- R287. Loads a doubleword of a callable entry. -/
  | cread (a : GReg) (d : GReg)
  /-- R288. Blocks until a nest completes and returns its outcome. -/
  | join (a : GReg) (d : GReg)
  /-- R289. Sends an active-message handler parcel to a core. -/
  | send (a : GReg) (b : GReg) (d : GReg) (n : Fin 5)
  /-- R290. Ends a handler thread in slot 15. -/
  | hret
  /-- R290. Ends a thread, counting down its join words. -/
  | exit
  /-- R291. Coroutine puts a value out and takes the next input. -/
  | yield (a : GReg) (b : GReg) (d : GReg)
  /-- R291. Feeds a root coroutine and takes its next output. -/
  | resume (a : GReg) (b : GReg) (d : GReg)
  /-- R292. Reads a thread or team identity value selected by fl. -/
  | tid (d : GReg) (z : Fin 8)
  /-- R292. Reads the stage number or a stage queue handle. -/
  | stage (d : GReg) (z : Fin 3)
  /-- R293. Applies the balancing check at once. -/
  | bal (d : GReg)
  /-- R294. Sleeps until a wake or a TIME limit. -/
  | sleep (a : GReg) (d : GReg)
  /-- R294. Sends a wake to a thread. -/
  | wake (a : GReg) (d : GReg)
  /-- R356. Opens or restarts a job on the owner's meter. -/
  | jbeg
  /-- R356. Waits for the thread's engine work and closes the job. -/
  | jend (d : GReg)
  /-- R357. Ends the thread's shed handling. -/
  | shdone
  /-- R357. Ends the thread's resume handling. -/
  | rsdone
  /-- R358. Adds an explicit charge to an open job's meter. -/
  | uchg (a : GReg) (d : GReg)
  /-- R359. Moves the thread to another owner. -/
  | uown (a : GReg) (d : GReg)
  /-- R359. Makes the thread its owner's steward. -/
  | uownSt (d : GReg)
  /-- R360. Writes an owner record from an LM descriptor via the arbiter. -/
  | ucfgOwn (a : GReg) (b : GReg) (d : GReg)
  /-- R360. Writes a charge table from LM. -/
  | ucfgTab (a : GReg) (b : GReg) (d : GReg)
  /-- R360. Sets the arbiter's DWELL. -/
  | ucfgArb (a : GReg) (d : GReg)
  /-- R313. Reads a state register into gd. -/
  | csrr (d : GReg) (n : BitVec 12)
  /-- R313. Writes a state register from ga. -/
  | csrw (a : GReg) (n : BitVec 12)
  /-- R313. Exchanges a state register with ga. -/
  | csrx (d : GReg) (a : GReg) (n : BitVec 12)
  /-- R314. Raises a TRAP user-level trap with the code. -/
  | trap (c : BitVec 12)
  /-- R314. Returns from a user-level trap handler. -/
  | tret
  /-- R302. Posts a system call to the service core and blocks. -/
  | sysc (a : GReg)
  /-- R302. Posts a system call, returning BUSY when the ring is full. -/
  | syscNb (a : GReg)
  /-- R314. Raises BREAK or takes a debug stop. -/
  | brk (c : BitVec 12)
  /-- R315. Stages a couche image on a core. -/
  | cch (a : GReg) (b : GReg) (d : GReg)
  /-- R309. Saves a thread to a context image and removes it. -/
  | csave (a : GReg) (b : GReg) (d : GReg)
  /-- R310. Restores a context image as a thread on a core. -/
  | crest (a : GReg) (b : GReg) (d : GReg)
  /-- R316. Invalidates the translations and L1 lines of one page. -/
  | tlbi (a : GReg)
  /-- R316. Invalidates every translation of the partition. -/
  | tlbiAll
  /-- R317. Resets a partition and returns drain and end counts. -/
  | prst (a : GReg) (d : GReg)
  /-- R411. Adds a mark to the next score-pulse record. -/
  | mark (a : GReg)
  /-- R411. Stops the thread when breaks are armed. -/
  | dbrk (d : GReg)
  /-- R411. Reads a counter cell or bin. -/
  | smpl (a : GReg) (d : GReg)
  /-- R36. A word with an unassigned major, selector or bad field raises ILLEGAL. -/
  | unassignedEncoding (w : BitVec 32)
  /-- R85. The divide unit delivers a result and the thread becomes ready. -/
  | divideResult (tid : Nat)
  /-- R85. A load or atomic reply arrives and the blocked thread becomes ready. -/
  | replyArrival (tid : Nat)
  /-- R81. A staged couche comes into force at the rotation boundary after barrier 63 completes. -/
  | coucheInForce (core : Nat)
  /-- R122. An access or update parcel reaches its target and is performed once and acknowledged. -/
  | accessParcel (src seq : Nat)
  /-- R117. A target's acknowledgement lowers the posted counter, possibly with an error mark. -/
  | acknowledgement (src seq : Nat)
  /-- R122. An unacknowledged parcel is resent after 20 microseconds. -/
  | parcelResend (src seq : Nat)
  /-- R123. A parcel refused for lack of window state is resent after 2 microseconds. -/
  | parcelRefusedResend (src seq : Nat)
  /-- R119. A target not reached within 100 microseconds is marked as an error. -/
  | targetUnreachable (src seq : Nat)
  /-- R114. A page walk finishes and all merged threads receive its result. -/
  | walkComplete (hearth k : Nat)
  /-- R120. A target core grants or refuses a slot to a migrating thread. -/
  | migrationRequest (tid : Nat)
  /-- R120. A thread state parcel arrives and the thread becomes ready in the granted slot. -/
  | migrationParcel (tid : Nat)
  /-- R121. An atomic request parcel is performed at the home and replied to. -/
  | atomicRequestParcel (src seq : Nat)
  /-- R150. The vector engine processes one beat of 16 elements of the head command. -/
  | vectorBeat (core : Nat)
  /-- R193. The matrix engine runs one plane pass of a multiply command. -/
  | matrixPlanePass (core : Nat)
  /-- R206. The gather unit finishes filling the mmulg operand latch and the command issues. -/
  | operandLatchFilled (core : Nat)
  /-- R224. The copy queue dispatches its oldest entry whose channel is idle. -/
  | copyDispatch (core : Nat)
  /-- R225. The copy engine grants one beat of up to 64 bytes to a ready channel. -/
  | copyBeat (core ch : Nat)
  /-- R225. A granule is performed at its destination, advancing XWP, shrinking locks and charging. -/
  | granuleComplete (core ch : Nat)
  /-- R228. A pending COPYDONE trap is taken at an issue boundary. -/
  | copydone (tid : Nat)
  /-- R237. An arrival parcel from rarr or xack is applied to a core barrier. -/
  | arrivalParcel (src seq : Nat)
  /-- R242. A barw.t reaches its TIME limit before completion and returns 1. -/
  | barwTimeout (tid : Nat)
  /-- R244. A cluster barrier arrival is applied about 12 cc after it leaves the core. -/
  | clusterBarrierArrival (src seq : Nat)
  /-- R252. A join-word wake carrying the value arrives and the waiter becomes ready. -/
  | waitwWake (tid : Nat)
  /-- R252. A waiter registration refused for lack of entries is sent again after 1 microsecond. -/
  | waitwRetry (tid : Nat)
  /-- R254. A store setting LIVE in a queue descriptor creates an empty open queue. -/
  | queueCreate (part q : Nat)
  /-- R254. A store clearing LIVE removes a queue and wakes its waiters with status 2. -/
  | queueRemove (part q : Nat)
  /-- R265. The nest placer reads, checks, places and reserves an applied tree. -/
  | nestPlacerRequest (part : Nat)
  /-- R265. Waiting apply.w requests are retried when a reservation is released. -/
  | applyWRetry (part : Nat)
  /-- R270. The placer loads a LOOP's verdict and completes or reruns the body. -/
  | loopVerdictLoad (part nest : Nat)
  /-- R274. A pending CHILDFAULT trap is taken by the applier. -/
  | childfault (tid : Nat)
  /-- R277. An active-message parcel is queued for slot 15 or refused. -/
  | handlerParcel (src seq : Nat)
  /-- R277. A refused handler parcel is resent after 2 microseconds. -/
  | handlerResend (src seq : Nat)
  /-- R280. KLOAD is refreshed every 128 cc. -/
  | kloadRefresh (cluster : Nat)
  /-- R281. A core's periodic balancing check may migrate a ready light thread. -/
  | balanceCheck (core : Nat)
  /-- R294. A wake arrives, completing a sleep or setting EP. -/
  | wakeParcel (src seq : Nat)
  /-- R363. A sleep ends when TIME reaches its limit, with gd := 1. -/
  | sleepTimeout (tid : Nat)
  /-- R300. A fault record number is put into the fault queue once record and room are available. -/
  | faultQueuePut (part : Nat)
  /-- R301. A parked thread acts on the VERDICT stored in its fault record. -/
  | verdictAction (part record : Nat)
  /-- R302. The service core's STATE := 2 wakes the caller with results. -/
  | syscallComplete (part entry : Nat)
  /-- R306. The service core takes DEADLOCK when every partition thread is parked. -/
  | deadlock (part : Nat)
  /-- R307. An uncorrectable core error freezes it and the spare takes over. -/
  | coreFreeze (core : Nat) (lostSlots lostLines lostEngines : List Nat)
  /-- R325. A crumb unit frees a DYING crumb in the background. -/
  | crumbFree (part k : Nat)
  /-- R321. A store setting EN captures the crumb store descriptor and empties the store. -/
  | crumbStoreEnable (part : Nat)
  /-- R321. A store clearing EN disables the crumb store. -/
  | crumbStoreDisable (part : Nat)
  /-- R343. The arbiter applies raise signals, raising MODE and shedding lower owners. -/
  | raise
  /-- R349. At each 1,024 ns the arbiter checks and may step MODE down. -/
  | fallCheck
  /-- R347. The arbiter sets a resuming owner ADMITTED, possibly ending FALLING. -/
  | readmissionReport (owner : Nat)
  /-- R344. A core applies the shedding of an owner at an issue boundary. -/
  | shedApply (core : Nat)
  /-- R362. A core applies an owner's readmission and restart records re-enter. -/
  | readmissionApply (core : Nat)
  /-- R346. A steward takes its pending SHED trap. -/
  | shed (tid : Nat)
  /-- R347. A steward takes its pending RESUME trap. -/
  | resumeTrap (tid : Nat)
  /-- R346. The 256-instruction allowance ends shed or resume handling. -/
  | allowanceExpiry (tid : Nat)
  /-- R342. A pending BUDGET service trap is taken and parks the thread. -/
  | budget (tid : Nat)
  /-- R379. Module reset releases hearth 0, which verifies a configuration table and boots. -/
  | moduleReset
  /-- R369. The board controller reports the thermal limit in THERM. -/
  | boardThermalLimit (hot : Bool)
  /-- R366. A host access through the HDM range is performed at its home or refused. -/
  | hdmAccess (host addr n : Nat) (data : Option (List Byte))
  /-- R373. A NOTIFY write makes the command processor read commands up to the producer index. -/
  | notify (host vf : Nat) (p : BitVec 16)
  /-- R368. Writing RUN := 1 starts the command processor. -/
  | runStart (host vf : Nat)
  /-- R368. Writing RUN := 0 stops the command processor after the command in progress. -/
  | runStop (host vf : Nat)
  /-- R371. Writing FLOCK := 1 locks the accepted feature word. -/
  | flock (host vf : Nat)
  /-- R370. A CLAIM write elects the controlling host when none exists. -/
  | claim (host : Nat)
  /-- R370. The controlling host hands control to another host. -/
  | handover (host dest : Nat)
  /-- R370. After 100 ms with the controlling host's links down, CTL := 0. -/
  | controlLoss
  /-- R368. A host write to a function register that has no row of its own. -/
  | registerWrite (host vf off : Nat) (v : Word)
  /-- R377. Writes a population of threads into free slots. -/
  | launch (part : Nat)
  /-- R377. Applies a callable entry on behalf of the host. -/
  | applyCommand (part : Nat)
  /-- R377. Sets the partition's STARTER for later launches. -/
  | setstarter (part : Nat)
  /-- R377. Moves bytes by the firmware column's copy engine. -/
  | copy (part : Nat)
  /-- R377. SIGNAL kind 0 wakes a thread. -/
  | signalWake (part : Nat)
  /-- R377. SIGNAL kind 1 arrives at a core barrier. -/
  | signalArrival (part : Nat)
  /-- R377. SIGNAL kind 2 stores a doubleword as a release. -/
  | signalStore (part : Nat)
  /-- R378. Arms a host wake on a doubleword condition. -/
  | wakeCommand (part : Nat)
  /-- R378. An armed host wake's condition holds and the WAKE command completes. -/
  | hostWakeComplete (part k : Nat)
  /-- R387. Checkpoints the partition into the reserve. -/
  | checkpoint (part : Nat)
  /-- R377. Resets the partition at monitor privilege and restarts its kernel. -/
  | reset (part : Nat)
  /-- R311. A PCIe function-level reset stops the command processor and acts as RESET. -/
  | functionLevelReset (part : Nat)
  /-- R382. Builds a partition descriptor and starts its service core. -/
  | pcreate
  /-- R385. Adds or removes clusters of a partition, moving threads out. -/
  | presize
  /-- R381. Resets a partition and frees its clusters. -/
  | pdestroy
  /-- R381. Writes an owner record as ucfg.own would. -/
  | owner
  /-- R387. Checkpoints every partition of the module. -/
  | moduleCheckpoint
  /-- R388. Resets all partitions and restores the valid checkpoint slot. -/
  | restore
  /-- R394. The fabric unit takes a send descriptor from a TXQ and sends its message or trigger. -/
  | sendDescriptor (part endpoint : Nat)
  /-- R395. A received packet is placed into the endpoint's buffer. -/
  | packetPlacement (sender msg part ep roff len tag off : Nat) (data : List Byte)
  /-- R394. The receiver's report ends a message, writing STATUS and the completion word. -/
  | messageStatus (msg code : Nat)
  /-- R394. A message without acknowledgement within 1 ms ends with LINK. -/
  | linkTimeout (msg : Nat)
  /-- R398. A trigger head and tail pair arrives and starts the endpoint's handler. -/
  | triggerFlits (head tail : Word)
  /-- R399. A pod barrier arrival flit is combined toward the root or completes the barrier. -/
  | barrierArrivalFlit (link : Nat) (flit : Word)
  /-- R399. A release flit releases local waiters and passes down the tree. -/
  | barrierReleaseFlit (link : Nat) (flit : Word)
  /-- R399. A link-down flit makes waiting pbar forms return 2. -/
  | linkDown (link : Nat) (flit : Word)
  /-- R400. A received time flit sets or rate-corrects the module's TIME. -/
  | timeFlit (link : Nat) (flit : Word)
  /-- R400. A received time-high flit supplies TIME[63:16] of the master. -/
  | timeHighFlit (link : Nat) (flit : Word)
  /-- R400. Each link sends a time flit every 1,024 ns. -/
  | timeFlitSend (link : Nat)
  /-- R405. A STOP write with GO = 1 stops the named thread. -/
  | debugStop (tid : Nat)
  /-- R405. A STOP write with GO = 0 releases the named thread. -/
  | debugRelease (tid : Nat)
  /-- R405. A PC matching a valid breakpoint stops the thread before issue. -/
  | breakpoint (tid : Nat)
  /-- R406. HALT := 1 stops every slot and optionally holds the engines. -/
  | coreHalt (core : Nat)
  /-- R406. HALT := 0 clears SETTLED and resumes held engine work. -/
  | coreUnhalt (core : Nat)
  /-- R406. SETTLED becomes 1 once the halted core's threads and engines are quiet. -/
  | settled (core : Nat)
  /-- R404. RDATA reads or writes a register of a stopped thread. -/
  | debugRegisterAccess (host core : Nat) (data : Option Word)
  /-- R407. At each tick every core latches the PC and run state of its slots. -/
  | scorePulseTick
  /-- R194. The matrix engine runs a cycle of an mzero, mbias or mdrain command, writing the tile or LM and retiring at its end. -/
  | matrixCommandCycle (core : Nat)
  /-- R343. A core applies a MODE change carried by the hearth relays at its next issue boundary, updating UMODE, clearing RSENT and entering resume handling for a steward whose owner became RESUMING. -/
  | modeChangeApply (core : Nat)
  /-- R122. A correctable link error makes the source resend an unacknowledged parcel at once. -/
  | correctableLinkError (src seq : Nat)
  /-- R399. A module detects that one of its signal-fabric links has gone down, sends a link-down flit and fails its waiting pod barriers. -/
  | signalFabricLinkFailure (link : Nat)
  /-- R400. A signal-fabric link trains, measuring its delay and sending a time-high flit. -/
  | linkTraining (link delay : Nat)
  /-- R400. Each link sends a time-high flit carrying TIME[63:16] every 2^20 ns. -/
  | timeHighFlitSend (link : Nat)
  /-- R111. A far-tier port or host link goes down, so accesses to its pages fault with reason BACKING. -/
  | backingLinkDown (port : Nat)
  /-- R111. A far-tier port or host link returns, so accesses to its pages translate again. -/
  | backingLinkUp (port : Nat)
  /-- R367. A host access to a host-memory line cached by a home snoops that home's L1 through CXL.cache. -/
  | hostSnoop (host addr : Nat)
  /-- R392. The Ethernet transport resends a lost packet, which is placed at most once. -/
  | packetLossResend (msg off : Nat)
  /-- R409. In every cc each enabled counter cell evaluates its signals and counts, ends runs and fills bins. -/
  | counterCellCycle (core : Nat) (activity : BitVec 32)
  /-- R403. The controlling host writes a debug control register such as SPCTL, a breakpoint, CELLk, CNTk, a bin or SRRD, with its side effects. -/
  | debugControlWrite (host off : Nat) (v : Word)
  deriving DecidableEq, Repr

end Sys2Proof
end

