-- ==== Sys2Proof/WellFormed.lean ====
section
/-! DEFINITION. The operand rules of the entries that the encoding alone does not say: the types and sizes an entry allows
(R36 step 3) and the register choices it allows (R36 step 5; R19, R157, R328). -/

namespace Sys2Proof

/-- The integer types I6 of R156. -/
def VType.isI6 : VType → Bool
  | .i32 | .n32 | .i16 | .n16 | .i8 | .n8 => true
  | _ => false

/-- The floating-point types F5 of R156. -/
def VType.isF5 : VType → Bool
  | .f32 | .f16 | .bf16 | .e4m3 | .e5m2 => true
  | _ => false

/-- The types of the vector memory forms (R156). -/
def VType.isMem : VType → Bool
  | .i32 | .n32 | .f32 | .i16 | .n16 | .i8 | .n8 => true
  | _ => false

/-- .i32 or .n32. -/
def VType.is32 : VType → Bool
  | .i32 | .n32 => true
  | _ => false

/-- The pairs destination, source of `vcvt` (R162). -/
def vcvtPair : VType → VType → Bool
  | .f32, .i32 | .f32, .n32 | .i32, .f32 | .n32, .f32 => true
  | .f32, .f16 | .f32, .bf16 | .f32, .e4m3 | .f32, .e5m2 | .f32, .e2m1x => true
  | .i32, .i16 | .i32, .i8 | .n32, .n16 | .n32, .n8 => true
  | _, _ => false

/-- The pairs destination, source of `vpk` (R163). -/
def vpkPair : VType → VType → Bool
  | .f16, .f32 | .bf16, .f32 | .e4m3, .f32 | .e5m2, .f32 | .e2m1x, .f32 => true
  | .i16, .i32 | .i8, .i32 | .n16, .n32 | .n8, .n32 => true
  | _, _ => false

/-- The packing factor of a type: sub-elements in a 32-bit element (R154). -/
def VType.pack : VType → Nat
  | .i32 | .n32 | .f32 => 1
  | .i16 | .n16 | .f16 | .bf16 => 2
  | .i8 | .n8 | .e4m3 | .e5m2 => 4
  | .e2m1x => 8

/-- Store forms do not allow bn, hn or wn (R24, R125). -/
def Sz.isStore : Sz → Bool
  | .b | .h | .w | .d => true
  | _ => false

/-- The sizes of amo and red (R127, R128). -/
def Sz.isAtomic : Sz → Bool
  | .w | .d => true
  | _ => false

/-- The scopes of barr, barw and barw.t (R247). -/
def Scope.isLocal : Scope → Bool
  | .core | .cluster => true
  | .pod => false

/-- R36 step 3: the size, type or scope code is one that the entry allows. -/
def Instr.typesOk : Instr → Bool
  | .st _ _ z _ _ | .stx _ _ _ z _ => z.isStore
  | .amoAdd _ _ _ z _ | .amoAnd _ _ _ z _ | .amoOr _ _ _ z _ | .amoXor _ _ _ z _ | .amoMin _ _ _ z _
  | .amoMax _ _ _ z _ | .amoMinn _ _ _ z _ | .amoMaxn _ _ _ z _ | .amoSwap _ _ _ z _ | .amoCas _ _ _ z _ => z.isAtomic
  | .redAdd _ _ z _ | .redAnd _ _ z _ | .redOr _ _ z _ | .redXor _ _ z _ | .redMin _ _ z _ | .redMax _ _ z _ => z.isAtomic
  | .vadd _ _ _ _ t | .vsub _ _ _ _ t | .vmul _ _ _ _ t | .vmulh _ _ _ _ t | .vmin _ _ _ _ t | .vmax _ _ _ _ t
  | .vsll _ _ _ _ t | .vsrl _ _ _ _ t | .vsra _ _ _ _ t | .vadds _ _ _ _ t | .vsubs _ _ _ _ t => t.isI6
  | .vcmpEq _ _ _ _ t | .vcmpNe _ _ _ _ t | .vcmpLt _ _ _ _ t | .vcmpLe _ _ _ _ t | .vrsum _ _ _ t | .vrmax _ _ _ t => t.is32
  | .vfadd _ _ _ _ t | .vfsub _ _ _ _ t | .vfmul _ _ _ _ t | .vfma _ _ _ _ t | .vfmin _ _ _ _ t | .vfmax _ _ _ _ t => t.isF5
  | .vcvt _ _ z _ t => vcvtPair t z
  | .vpk _ _ z _ t => vpkPair t z
  | .vex2 _ _ _ t | .vlg2 _ _ _ t | .vrcp _ _ _ t | .vrsq _ _ _ t | .vsqrt _ _ _ t | .vsin _ _ _ t | .vcos _ _ _ t => t.isF5
  | .vld _ _ _ t | .vst _ _ _ t | .vlds _ _ _ _ t | .vsts _ _ _ _ t | .vldg _ _ _ _ t | .vstg _ _ _ _ t => t.isMem
  | .vmovvg _ _ t => t.is32
  | .vrng _ _ _ t => t == .n32 || t == .f32
  | .vacc _ _ _ _ t => t == .i32 || t == .f32
  | .mdrain _ _ t _ => t.isI6
  | .barr _ _ z | .barw _ _ z | .barwT _ _ _ z => z.isLocal
  | _ => true

/-- A crumb name or a 128-bit operand: an even register other than g0 (R19). -/
def isPair (r : GReg) : Bool := r.val % 2 == 0 && r.val != 0

/-- r is one of the two registers of the pair p. -/
def inPair (r p : GReg) : Bool := r.val == p.val || r.val == p.val + 1

/-- R36 step 5: the register operands obey R19 and the entry's rules on register choice (R157, R328). -/
def Instr.regsOk : Instr → Bool
  | .redAddW128 _ b _ => isPair b
  | .vcmpEq d _ _ _ _ | .vcmpNe d _ _ _ _ | .vcmpLt d _ _ _ _ | .vcmpLe d _ _ _ _ => d != 0
  | .vfcmpEq d _ _ _ | .vfcmpLt d _ _ _ | .vfcmpLe d _ _ _ | .vfcmpUn d _ _ _ => d != 0
  | .vmand d _ _ | .vmor d _ _ | .vmxor d _ _ | .vmandn d _ _ => d != 0
  | .vcvt d a z _ _ => z.pack == 1 || d != a
  | .vpk d a _ _ _ => d != a
  | .cput _ b d | .cget _ b d | .cnode _ b d | .cref b d | .cdrop b d | .croot _ b d => isPair d && !inPair b d
  | .cswap _ b d => isPair d && isPair b
  | .cout _ b _ _ => isPair b
  | .cstat b _ => isPair b
  | _ => true

/-- Every rule on the operands holds. -/
def Instr.wf (i : Instr) : Bool := i.typesOk && i.regsOk

end Sys2Proof
end

