-- ==== Sys2Proof/Decode.lean ====
section
/-! DEFINITION. Decoding of an instruction word (spec/02 R23 to R36) and, after it, the encoder written from the same
tables. Decoding is total: a word that is no instruction is rejected by the step of R36 that rejects it.
Some definitions are marked noncomputable: the code generator of Lean allows at most 245 constructors with fields in one
type, and the table has more rows; the kernel evaluates them all. -/

namespace Sys2Proof

/-- Why a word is no instruction: steps 2 to 5 of R36. Each raises ILLEGAL with the word in TVAL. -/
inductive Reject where
  | unassignedMajor
  | unassignedSelector
  | mustBeZero
  | badRegister
  deriving DecidableEq, Repr

/-- Bits lo + len - 1 down to lo of w. -/
def fld (w lo len : Nat) : Nat := w / 2 ^ lo % 2 ^ len

/-- The g register named by the five bits from lo. -/
def gAt (w lo : Nat) : GReg := ⟨fld w lo 5, Nat.mod_lt _ (by decide)⟩
/-- The v register, or g0 to g15, named by the four bits from lo. -/
def vAt (w lo : Nat) : VReg := ⟨fld w lo 4, Nat.mod_lt _ (by decide)⟩
/-- The mask, tile or three-bit selector in the three bits from lo. -/
def mAt (w lo : Nat) : Fin 8 := ⟨fld w lo 3, Nat.mod_lt _ (by decide)⟩
/-- The copy channel in the two bits from lo. -/
def cAt (w lo : Nat) : Chan := ⟨fld w lo 2, Nat.mod_lt _ (by decide)⟩

/-- R24: access sizes. -/
def szOf? : Nat → Option Sz
  | 0 => some .b | 1 => some .h | 2 => some .w | 3 => some .d | 4 => some .bn | 5 => some .hn | 6 => some .wn | _ => none
/-- R24: access sizes. -/
def szCode : Sz → Nat
  | .b => 0 | .h => 1 | .w => 2 | .d => 3 | .bn => 4 | .hn => 5 | .wn => 6
/-- R24: wait field. -/
def wtOf? : Nat → Option Wt
  | 0 => some .no | 1 => some .cluster | 2 => some .hearth | 3 => some .all | _ => none
/-- R24: wait field. -/
def wtCode : Wt → Nat
  | .no => 0 | .cluster => 1 | .hearth => 2 | .all => 3
/-- R27: source widths of sext and zext. -/
def xwOf? : Nat → Option XWidth
  | 0 => some .byte | 1 => some .half | 2 => some .word | _ => none
/-- R27: source widths of sext and zext. -/
def xwCode : XWidth → Nat
  | .byte => 0 | .half => 1 | .word => 2
/-- R32: element types. -/
def vtOf? : Nat → Option VType
  | 0x00 => some .i32 | 0x01 => some .n32 | 0x02 => some .i16 | 0x03 => some .n16 | 0x04 => some .i8 | 0x05 => some .n8
  | 0x08 => some .f32 | 0x09 => some .f16 | 0x0A => some .bf16 | 0x0B => some .e4m3 | 0x0C => some .e5m2
  | 0x0D => some .e2m1x | _ => none
/-- R32: element types. -/
def vtCode : VType → Nat
  | .i32 => 0x00 | .n32 => 0x01 | .i16 => 0x02 | .n16 => 0x03 | .i8 => 0x04 | .n8 => 0x05
  | .f32 => 0x08 | .f16 => 0x09 | .bf16 => 0x0A | .e4m3 => 0x0B | .e5m2 => 0x0C | .e2m1x => 0x0D
/-- R247: barrier scopes. -/
def scopeOf? : Nat → Option Scope
  | 0 => some .core | 1 => some .cluster | 2 => some .pod | _ => none
/-- R247: barrier scopes. -/
def scopeCode : Scope → Nat
  | .core => 0 | .cluster => 1 | .pod => 2
/-- R252: conditions of waitw. -/
def wcondOf? : Nat → Option WCond
  | 0 => some .eq | 1 => some .ne | 2 => some .lt | 3 => some .ge | 4 => some .ltn | 5 => some .gen | _ => none
/-- R252: conditions of waitw. -/
def wcondCode : WCond → Nat
  | .eq => 0 | .ne => 1 | .lt => 2 | .ge => 3 | .ltn => 4 | .gen => 5
/-- R247: forms of qput. -/
def qmodeOf? : Nat → Option QMode
  | 0 => some .block | 1 => some .nb | 2 => some .close | _ => none
/-- R247: forms of qput. -/
def qmodeCode : QMode → Nat
  | .block => 0 | .nb => 1 | .close => 2
/-- R247: the .nb bit of qget. -/
def boolOf? : Nat → Option Bool
  | 0 => some false | 1 => some true | _ => none
/-- R247: the .nb bit of qget. -/
def boolCode : Bool → Nat
  | false => 0 | true => 1
/-- R284: the argument count of send. -/
def fin5Of? : Nat → Option (Fin 5)
  | 0 => some 0 | 1 => some 1 | 2 => some 2 | 3 => some 3 | 4 => some 4 | _ => none
/-- R284: the selector of stage. -/
def fin3Of? : Nat → Option (Fin 3)
  | 0 => some 0 | 1 => some 1 | 2 => some 2 | _ => none

/-- R36 step 4: the fields that must be zero are zero. -/
def zero (n : Nat) (i : Instr) : Except Reject Instr := if n = 0 then .ok i else .error .mustBeZero

/-- R36 step 3: an operand code that the tables do not assign is an unassigned selector. -/
def sel {α : Type} (o : Option α) (k : α → Except Reject Instr) : Except Reject Instr :=
  match o with
  | some x => k x
  | none => .error .unassignedSelector

/-- Major 0x01 (R26). -/
def decInt (w : Nat) : Except Reject Instr :=
  match fld w 5 6 with
  | 0 => zero (fld w 0 5) (.add (gAt w 21) (gAt w 16) (gAt w 11))
  | 1 => zero (fld w 0 5) (.sub (gAt w 21) (gAt w 16) (gAt w 11))
  | 2 => zero (fld w 0 5) (.mul (gAt w 21) (gAt w 16) (gAt w 11))
  | 3 => zero (fld w 0 5) (.mulh (gAt w 21) (gAt w 16) (gAt w 11))
  | 4 => zero (fld w 0 5) (.mulhn (gAt w 21) (gAt w 16) (gAt w 11))
  | 5 => zero (fld w 0 5) (.div (gAt w 21) (gAt w 16) (gAt w 11))
  | 6 => zero (fld w 0 5) (.divn (gAt w 21) (gAt w 16) (gAt w 11))
  | 7 => zero (fld w 0 5) (.rem (gAt w 21) (gAt w 16) (gAt w 11))
  | 8 => zero (fld w 0 5) (.remn (gAt w 21) (gAt w 16) (gAt w 11))
  | 9 => zero (fld w 0 5) (.and (gAt w 21) (gAt w 16) (gAt w 11))
  | 10 => zero (fld w 0 5) (.or (gAt w 21) (gAt w 16) (gAt w 11))
  | 11 => zero (fld w 0 5) (.xor (gAt w 21) (gAt w 16) (gAt w 11))
  | 12 => zero (fld w 0 5) (.andn (gAt w 21) (gAt w 16) (gAt w 11))
  | 13 => zero (fld w 0 5) (.orn (gAt w 21) (gAt w 16) (gAt w 11))
  | 14 => zero (fld w 0 5) (.sll (gAt w 21) (gAt w 16) (gAt w 11))
  | 15 => zero (fld w 0 5) (.srl (gAt w 21) (gAt w 16) (gAt w 11))
  | 16 => zero (fld w 0 5) (.sra (gAt w 21) (gAt w 16) (gAt w 11))
  | 17 => zero (fld w 0 5) (.rol (gAt w 21) (gAt w 16) (gAt w 11))
  | 18 => zero (fld w 0 5) (.ror (gAt w 21) (gAt w 16) (gAt w 11))
  | 19 => zero (fld w 0 5) (.slt (gAt w 21) (gAt w 16) (gAt w 11))
  | 20 => zero (fld w 0 5) (.sltn (gAt w 21) (gAt w 16) (gAt w 11))
  | 21 => zero (fld w 0 5) (.seq (gAt w 21) (gAt w 16) (gAt w 11))
  | 22 => zero (fld w 0 5) (.sne (gAt w 21) (gAt w 16) (gAt w 11))
  | 23 => zero (fld w 0 5) (.min (gAt w 21) (gAt w 16) (gAt w 11))
  | 24 => zero (fld w 0 5) (.max (gAt w 21) (gAt w 16) (gAt w 11))
  | 25 => zero (fld w 0 5) (.minn (gAt w 21) (gAt w 16) (gAt w 11))
  | 26 => zero (fld w 0 5) (.maxn (gAt w 21) (gAt w 16) (gAt w 11))
  | 27 => zero (fld w 0 5 + fld w 11 5) (.clz (gAt w 21) (gAt w 16))
  | 28 => zero (fld w 0 5 + fld w 11 5) (.ctz (gAt w 21) (gAt w 16))
  | 29 => zero (fld w 0 5 + fld w 11 5) (.pop (gAt w 21) (gAt w 16))
  | 30 => zero (fld w 0 5 + fld w 11 5) (.bswap (gAt w 21) (gAt w 16))
  | 31 => zero (fld w 0 5 + fld w 11 5) (.brev (gAt w 21) (gAt w 16))
  | 32 => sel (xwOf? (fld w 0 2)) fun wt => zero (fld w 2 3 + fld w 11 5) (.sext (gAt w 21) (gAt w 16) wt)
  | 33 => sel (xwOf? (fld w 0 2)) fun wt => zero (fld w 2 3 + fld w 11 5) (.zext (gAt w 21) (gAt w 16) wt)
  | 34 => zero (fld w 0 5) (.sel (gAt w 21) (gAt w 16) (gAt w 11))
  | 35 => zero (fld w 0 5) (.bfx (gAt w 21) (gAt w 16) (gAt w 11))
  | 36 => zero (fld w 0 5) (.bfi (gAt w 21) (gAt w 16) (gAt w 11))
  | _ => .error .unassignedSelector

/-- Major 0x02 (R26). -/
def decAddi (w : Nat) : Except Reject Instr :=
  .ok (.addi (gAt w 21) (gAt w 16) (BitVec.ofNat 16 (fld w 0 16)))

/-- Major 0x03 (R26). -/
def decAndi (w : Nat) : Except Reject Instr :=
  .ok (.andi (gAt w 21) (gAt w 16) (BitVec.ofNat 16 (fld w 0 16)))

/-- Major 0x04 (R26). -/
def decOri (w : Nat) : Except Reject Instr :=
  .ok (.ori (gAt w 21) (gAt w 16) (BitVec.ofNat 16 (fld w 0 16)))

/-- Major 0x05 (R26). -/
def decXori (w : Nat) : Except Reject Instr :=
  .ok (.xori (gAt w 21) (gAt w 16) (BitVec.ofNat 16 (fld w 0 16)))

/-- Major 0x06 (R26). -/
def decShi (w : Nat) : Except Reject Instr :=
  match fld w 8 3 with
  | 0 => zero (fld w 6 2 + fld w 11 5) (.shiSll (gAt w 21) (gAt w 16) (BitVec.ofNat 6 (fld w 0 6)))
  | 1 => zero (fld w 6 2 + fld w 11 5) (.shiSrl (gAt w 21) (gAt w 16) (BitVec.ofNat 6 (fld w 0 6)))
  | 2 => zero (fld w 6 2 + fld w 11 5) (.shiSra (gAt w 21) (gAt w 16) (BitVec.ofNat 6 (fld w 0 6)))
  | 3 => zero (fld w 6 2 + fld w 11 5) (.shiRol (gAt w 21) (gAt w 16) (BitVec.ofNat 6 (fld w 0 6)))
  | 4 => zero (fld w 6 2 + fld w 11 5) (.shiRor (gAt w 21) (gAt w 16) (BitVec.ofNat 6 (fld w 0 6)))
  | _ => .error .unassignedSelector

/-- Major 0x07 (R26). -/
def decSlti (w : Nat) : Except Reject Instr :=
  .ok (.slti (gAt w 21) (gAt w 16) (BitVec.ofNat 16 (fld w 0 16)))

/-- Major 0x08 (R26). -/
def decSltni (w : Nat) : Except Reject Instr :=
  .ok (.sltni (gAt w 21) (gAt w 16) (BitVec.ofNat 16 (fld w 0 16)))

/-- Major 0x09 (R26). -/
def decLi (w : Nat) : Except Reject Instr :=
  .ok (.li (gAt w 21) (BitVec.ofNat 21 (fld w 0 21)))

/-- Major 0x0A (R26). -/
def decLsh (w : Nat) : Except Reject Instr :=
  .ok (.lsh (gAt w 21) (gAt w 16) (BitVec.ofNat 16 (fld w 0 16)))

/-- Major 0x0C (R26). -/
def decB (w : Nat) : Except Reject Instr :=
  match fld w 23 3 with
  | 0 => .ok (.bEq (gAt w 18) (gAt w 13) (BitVec.ofNat 13 (fld w 0 13)))
  | 1 => .ok (.bNe (gAt w 18) (gAt w 13) (BitVec.ofNat 13 (fld w 0 13)))
  | 2 => .ok (.bLt (gAt w 18) (gAt w 13) (BitVec.ofNat 13 (fld w 0 13)))
  | 3 => .ok (.bGe (gAt w 18) (gAt w 13) (BitVec.ofNat 13 (fld w 0 13)))
  | 4 => .ok (.bLtn (gAt w 18) (gAt w 13) (BitVec.ofNat 13 (fld w 0 13)))
  | 5 => .ok (.bGen (gAt w 18) (gAt w 13) (BitVec.ofNat 13 (fld w 0 13)))
  | 6 => .ok (.bBs (gAt w 18) (gAt w 13) (BitVec.ofNat 13 (fld w 0 13)))
  | _ => .error .unassignedSelector

/-- Major 0x0D (R26). -/
def decJ (w : Nat) : Except Reject Instr :=
  .ok (.j (BitVec.ofNat 26 (fld w 0 26)))

/-- Major 0x0E (R26). -/
def decJal (w : Nat) : Except Reject Instr :=
  .ok (.jal (BitVec.ofNat 26 (fld w 0 26)))

/-- Major 0x0F (R26). -/
def decJr (w : Nat) : Except Reject Instr :=
  match fld w 0 11 with
  | 0 => zero (fld w 11 5 + fld w 21 5) (.jr (gAt w 16))
  | 1 => zero (fld w 11 5) (.jalr (gAt w 21) (gAt w 16))
  | _ => .error .unassignedSelector

/-- Major 0x10 (R26). -/
def decLd (w : Nat) : Except Reject Instr :=
  sel (szOf? (fld w 13 3)) fun z => sel (wtOf? (fld w 11 2)) fun wt => .ok (.ld (gAt w 21) (gAt w 16) z wt (BitVec.ofNat 11 (fld w 0 11)))

/-- Major 0x11 (R26). -/
def decSt (w : Nat) : Except Reject Instr :=
  sel (szOf? (fld w 13 3)) fun z => sel (wtOf? (fld w 11 2)) fun wt => .ok (.st (gAt w 21) (gAt w 16) z wt (BitVec.ofNat 11 (fld w 0 11)))

/-- Major 0x12 (R26). -/
def decLdx (w : Nat) : Except Reject Instr :=
  match fld w 10 1 with
  | 0 => sel (szOf? (fld w 7 3)) fun z => sel (wtOf? (fld w 5 2)) fun wt => zero (fld w 0 5) (.ldx (gAt w 21) (gAt w 16) (gAt w 11) z wt)
  | 1 => sel (szOf? (fld w 7 3)) fun z => sel (wtOf? (fld w 5 2)) fun wt => zero (fld w 0 5) (.stx (gAt w 21) (gAt w 16) (gAt w 11) z wt)
  | _ => .error .unassignedSelector

/-- Major 0x13 (R26). -/
def decAmo (w : Nat) : Except Reject Instr :=
  match fld w 7 4 with
  | 0 => sel (szOf? (fld w 4 3)) fun z => sel (wtOf? (fld w 2 2)) fun wt => zero (fld w 0 2) (.amoAdd (gAt w 21) (gAt w 16) (gAt w 11) z wt)
  | 1 => sel (szOf? (fld w 4 3)) fun z => sel (wtOf? (fld w 2 2)) fun wt => zero (fld w 0 2) (.amoAnd (gAt w 21) (gAt w 16) (gAt w 11) z wt)
  | 2 => sel (szOf? (fld w 4 3)) fun z => sel (wtOf? (fld w 2 2)) fun wt => zero (fld w 0 2) (.amoOr (gAt w 21) (gAt w 16) (gAt w 11) z wt)
  | 3 => sel (szOf? (fld w 4 3)) fun z => sel (wtOf? (fld w 2 2)) fun wt => zero (fld w 0 2) (.amoXor (gAt w 21) (gAt w 16) (gAt w 11) z wt)
  | 4 => sel (szOf? (fld w 4 3)) fun z => sel (wtOf? (fld w 2 2)) fun wt => zero (fld w 0 2) (.amoMin (gAt w 21) (gAt w 16) (gAt w 11) z wt)
  | 5 => sel (szOf? (fld w 4 3)) fun z => sel (wtOf? (fld w 2 2)) fun wt => zero (fld w 0 2) (.amoMax (gAt w 21) (gAt w 16) (gAt w 11) z wt)
  | 6 => sel (szOf? (fld w 4 3)) fun z => sel (wtOf? (fld w 2 2)) fun wt => zero (fld w 0 2) (.amoMinn (gAt w 21) (gAt w 16) (gAt w 11) z wt)
  | 7 => sel (szOf? (fld w 4 3)) fun z => sel (wtOf? (fld w 2 2)) fun wt => zero (fld w 0 2) (.amoMaxn (gAt w 21) (gAt w 16) (gAt w 11) z wt)
  | 8 => sel (szOf? (fld w 4 3)) fun z => sel (wtOf? (fld w 2 2)) fun wt => zero (fld w 0 2) (.amoSwap (gAt w 21) (gAt w 16) (gAt w 11) z wt)
  | 9 => sel (szOf? (fld w 4 3)) fun z => sel (wtOf? (fld w 2 2)) fun wt => zero (fld w 0 2) (.amoCas (gAt w 21) (gAt w 16) (gAt w 11) z wt)
  | _ => .error .unassignedSelector

/-- Major 0x14 (R26). -/
def decRed (w : Nat) : Except Reject Instr :=
  match fld w 8 3 with
  | 0 => sel (szOf? (fld w 5 3)) fun z => sel (wtOf? (fld w 3 2)) fun wt => zero (fld w 0 3 + fld w 21 5) (.redAdd (gAt w 16) (gAt w 11) z wt)
  | 1 => sel (szOf? (fld w 5 3)) fun z => sel (wtOf? (fld w 3 2)) fun wt => zero (fld w 0 3 + fld w 21 5) (.redAnd (gAt w 16) (gAt w 11) z wt)
  | 2 => sel (szOf? (fld w 5 3)) fun z => sel (wtOf? (fld w 3 2)) fun wt => zero (fld w 0 3 + fld w 21 5) (.redOr (gAt w 16) (gAt w 11) z wt)
  | 3 => sel (szOf? (fld w 5 3)) fun z => sel (wtOf? (fld w 3 2)) fun wt => zero (fld w 0 3 + fld w 21 5) (.redXor (gAt w 16) (gAt w 11) z wt)
  | 4 => sel (szOf? (fld w 5 3)) fun z => sel (wtOf? (fld w 3 2)) fun wt => zero (fld w 0 3 + fld w 21 5) (.redMin (gAt w 16) (gAt w 11) z wt)
  | 5 => sel (szOf? (fld w 5 3)) fun z => sel (wtOf? (fld w 3 2)) fun wt => zero (fld w 0 3 + fld w 21 5) (.redMax (gAt w 16) (gAt w 11) z wt)
  | 6 =>
    match fld w 5 3 with
    | 3 => sel (wtOf? (fld w 3 2)) fun wt => zero (fld w 0 3 + fld w 21 5) (.redAddW128 (gAt w 16) (gAt w 11) wt)
    | _ => .error .unassignedSelector
  | _ => .error .unassignedSelector

/-- Major 0x15 (R26). -/
def decMemc (w : Nat) : Except Reject Instr :=
  match fld w 4 7 with
  | 0 => zero (fld w 0 4 + fld w 11 5) (.mig (gAt w 21) (gAt w 16))
  | 1 => zero (fld w 0 4 + fld w 11 5) (.migc (gAt w 21) (gAt w 16))
  | 2 =>
    match fld w 0 4 with
    | 0 => zero (fld w 11 15) (.fenceCore)
    | 1 => zero (fld w 11 15) (.fenceCluster)
    | 2 => zero (fld w 11 15) (.fenceHearth)
    | 3 => zero (fld w 11 15) (.fenceModule)
    | _ => .error .unassignedSelector
  | 3 => zero (fld w 0 4 + fld w 11 5 + fld w 21 5) (.pfl (gAt w 16))
  | 4 => zero (fld w 0 4 + fld w 11 5) (.xlat (gAt w 21) (gAt w 16))
  | _ => .error .unassignedSelector

/-- Major 0x16 (R26). -/
def decFps (w : Nat) : Except Reject Instr :=
  match fld w 6 5 with
  | 0 => zero (fld w 0 6) (.fadd (gAt w 21) (gAt w 16) (gAt w 11))
  | 1 => zero (fld w 0 6) (.fsub (gAt w 21) (gAt w 16) (gAt w 11))
  | 2 => zero (fld w 0 6) (.fmul (gAt w 21) (gAt w 16) (gAt w 11))
  | 3 => zero (fld w 0 6) (.fma (gAt w 21) (gAt w 16) (gAt w 11))
  | 4 => zero (fld w 0 6) (.fnma (gAt w 21) (gAt w 16) (gAt w 11))
  | 5 => zero (fld w 0 6) (.fdiv (gAt w 21) (gAt w 16) (gAt w 11))
  | 6 => zero (fld w 0 6 + fld w 11 5) (.fsqrt (gAt w 21) (gAt w 16))
  | 7 => zero (fld w 0 6) (.fmin (gAt w 21) (gAt w 16) (gAt w 11))
  | 8 => zero (fld w 0 6) (.fmax (gAt w 21) (gAt w 16) (gAt w 11))
  | 9 =>
    match fld w 2 4 with
    | 0 => zero (fld w 0 2) (.fcmpEq (gAt w 21) (gAt w 16) (gAt w 11))
    | 1 => zero (fld w 0 2) (.fcmpLt (gAt w 21) (gAt w 16) (gAt w 11))
    | 2 => zero (fld w 0 2) (.fcmpLe (gAt w 21) (gAt w 16) (gAt w 11))
    | 3 => zero (fld w 0 2) (.fcmpUn (gAt w 21) (gAt w 16) (gAt w 11))
    | _ => .error .unassignedSelector
  | 10 => zero (fld w 0 6 + fld w 11 5) (.fclass (gAt w 21) (gAt w 16))
  | 11 =>
    match fld w 2 4 with
    | 0 => zero (fld w 0 2 + fld w 11 5) (.fcvtF32I64 (gAt w 21) (gAt w 16))
    | 1 => zero (fld w 0 2 + fld w 11 5) (.fcvtF32N64 (gAt w 21) (gAt w 16))
    | 2 => zero (fld w 0 2 + fld w 11 5) (.fcvtI64F32 (gAt w 21) (gAt w 16))
    | 3 => zero (fld w 0 2 + fld w 11 5) (.fcvtN64F32 (gAt w 21) (gAt w 16))
    | 4 => zero (fld w 0 2 + fld w 11 5) (.fcvtI64F32Rtz (gAt w 21) (gAt w 16))
    | 5 => zero (fld w 0 2 + fld w 11 5) (.fcvtN64F32Rtz (gAt w 21) (gAt w 16))
    | 6 => zero (fld w 0 2 + fld w 11 5) (.fcvtF32I32 (gAt w 21) (gAt w 16))
    | 7 => zero (fld w 0 2 + fld w 11 5) (.fcvtI32F32 (gAt w 21) (gAt w 16))
    | 8 => zero (fld w 0 2 + fld w 11 5) (.fcvtF16F32 (gAt w 21) (gAt w 16))
    | 9 => zero (fld w 0 2 + fld w 11 5) (.fcvtF32F16 (gAt w 21) (gAt w 16))
    | 10 => zero (fld w 0 2 + fld w 11 5) (.fcvtBf16F32 (gAt w 21) (gAt w 16))
    | 11 => zero (fld w 0 2 + fld w 11 5) (.fcvtF32Bf16 (gAt w 21) (gAt w 16))
    | _ => .error .unassignedSelector
  | 12 =>
    match fld w 2 4 with
    | 0 => zero (fld w 0 2) (.fsgnj (gAt w 21) (gAt w 16) (gAt w 11))
    | 1 => zero (fld w 0 2) (.fsgnjN (gAt w 21) (gAt w 16) (gAt w 11))
    | 2 => zero (fld w 0 2) (.fsgnjX (gAt w 21) (gAt w 16) (gAt w 11))
    | _ => .error .unassignedSelector
  | _ => .error .unassignedSelector

/-- Major 0x18 (R26). -/
def decVint (w : Nat) : Except Reject Instr :=
  match fld w 5 6 with
  | 0 => sel (vtOf? (fld w 0 5)) fun t => .ok (.vadd (vAt w 22) (vAt w 18) (vAt w 14) (mAt w 11) t)
  | 1 => sel (vtOf? (fld w 0 5)) fun t => .ok (.vsub (vAt w 22) (vAt w 18) (vAt w 14) (mAt w 11) t)
  | 2 => sel (vtOf? (fld w 0 5)) fun t => .ok (.vmul (vAt w 22) (vAt w 18) (vAt w 14) (mAt w 11) t)
  | 3 => sel (vtOf? (fld w 0 5)) fun t => .ok (.vmulh (vAt w 22) (vAt w 18) (vAt w 14) (mAt w 11) t)
  | 4 => sel (vtOf? (fld w 0 5)) fun t => .ok (.vmin (vAt w 22) (vAt w 18) (vAt w 14) (mAt w 11) t)
  | 5 => sel (vtOf? (fld w 0 5)) fun t => .ok (.vmax (vAt w 22) (vAt w 18) (vAt w 14) (mAt w 11) t)
  | 6 => zero (fld w 0 5) (.vand (vAt w 22) (vAt w 18) (vAt w 14) (mAt w 11))
  | 7 => zero (fld w 0 5) (.vor (vAt w 22) (vAt w 18) (vAt w 14) (mAt w 11))
  | 8 => zero (fld w 0 5) (.vxor (vAt w 22) (vAt w 18) (vAt w 14) (mAt w 11))
  | 9 => sel (vtOf? (fld w 0 5)) fun t => .ok (.vsll (vAt w 22) (vAt w 18) (vAt w 14) (mAt w 11) t)
  | 10 => sel (vtOf? (fld w 0 5)) fun t => .ok (.vsrl (vAt w 22) (vAt w 18) (vAt w 14) (mAt w 11) t)
  | 11 => sel (vtOf? (fld w 0 5)) fun t => .ok (.vsra (vAt w 22) (vAt w 18) (vAt w 14) (mAt w 11) t)
  | 12 => sel (vtOf? (fld w 0 5)) fun t => .ok (.vadds (vAt w 22) (vAt w 18) (vAt w 14) (mAt w 11) t)
  | 13 => sel (vtOf? (fld w 0 5)) fun t => .ok (.vsubs (vAt w 22) (vAt w 18) (vAt w 14) (mAt w 11) t)
  | 16 => sel (vtOf? (fld w 0 5)) fun t => zero (fld w 25 1) (.vcmpEq (mAt w 22) (vAt w 18) (vAt w 14) (mAt w 11) t)
  | 17 => sel (vtOf? (fld w 0 5)) fun t => zero (fld w 25 1) (.vcmpNe (mAt w 22) (vAt w 18) (vAt w 14) (mAt w 11) t)
  | 18 => sel (vtOf? (fld w 0 5)) fun t => zero (fld w 25 1) (.vcmpLt (mAt w 22) (vAt w 18) (vAt w 14) (mAt w 11) t)
  | 19 => sel (vtOf? (fld w 0 5)) fun t => zero (fld w 25 1) (.vcmpLe (mAt w 22) (vAt w 18) (vAt w 14) (mAt w 11) t)
  | 20 => zero (fld w 0 5) (.vsel (vAt w 22) (vAt w 18) (vAt w 14) (mAt w 11))
  | 24 => zero (fld w 0 5 + fld w 11 3 + fld w 17 1 + fld w 21 1 + fld w 25 1) (.vmand (mAt w 22) (mAt w 18) (mAt w 14))
  | 25 => zero (fld w 0 5 + fld w 11 3 + fld w 17 1 + fld w 21 1 + fld w 25 1) (.vmor (mAt w 22) (mAt w 18) (mAt w 14))
  | 26 => zero (fld w 0 5 + fld w 11 3 + fld w 17 1 + fld w 21 1 + fld w 25 1) (.vmxor (mAt w 22) (mAt w 18) (mAt w 14))
  | 27 => zero (fld w 0 5 + fld w 11 3 + fld w 17 1 + fld w 21 1 + fld w 25 1) (.vmandn (mAt w 22) (mAt w 18) (mAt w 14))
  | 32 => sel (vtOf? (fld w 0 5)) fun t => zero (fld w 14 4) (.vrsum (vAt w 22) (vAt w 18) (mAt w 11) t)
  | 33 => sel (vtOf? (fld w 0 5)) fun t => zero (fld w 14 4) (.vrmax (vAt w 22) (vAt w 18) (mAt w 11) t)
  | 36 => zero (fld w 0 5) (.vperm (vAt w 22) (vAt w 18) (vAt w 14) (mAt w 11))
  | _ => .error .unassignedSelector

/-- Major 0x19 (R26). -/
def decVfp (w : Nat) : Except Reject Instr :=
  match fld w 5 6 with
  | 0 => sel (vtOf? (fld w 0 5)) fun t => .ok (.vfadd (vAt w 22) (vAt w 18) (vAt w 14) (mAt w 11) t)
  | 1 => sel (vtOf? (fld w 0 5)) fun t => .ok (.vfsub (vAt w 22) (vAt w 18) (vAt w 14) (mAt w 11) t)
  | 2 => sel (vtOf? (fld w 0 5)) fun t => .ok (.vfmul (vAt w 22) (vAt w 18) (vAt w 14) (mAt w 11) t)
  | 3 => sel (vtOf? (fld w 0 5)) fun t => .ok (.vfma (vAt w 22) (vAt w 18) (vAt w 14) (mAt w 11) t)
  | 4 => sel (vtOf? (fld w 0 5)) fun t => .ok (.vfmin (vAt w 22) (vAt w 18) (vAt w 14) (mAt w 11) t)
  | 5 => sel (vtOf? (fld w 0 5)) fun t => .ok (.vfmax (vAt w 22) (vAt w 18) (vAt w 14) (mAt w 11) t)
  | 8 =>
    match fld w 0 5 with
    | 8 => zero (fld w 25 1) (.vfcmpEq (mAt w 22) (vAt w 18) (vAt w 14) (mAt w 11))
    | _ => .error .unassignedSelector
  | 9 =>
    match fld w 0 5 with
    | 8 => zero (fld w 25 1) (.vfcmpLt (mAt w 22) (vAt w 18) (vAt w 14) (mAt w 11))
    | _ => .error .unassignedSelector
  | 10 =>
    match fld w 0 5 with
    | 8 => zero (fld w 25 1) (.vfcmpLe (mAt w 22) (vAt w 18) (vAt w 14) (mAt w 11))
    | _ => .error .unassignedSelector
  | 11 =>
    match fld w 0 5 with
    | 8 => zero (fld w 25 1) (.vfcmpUn (mAt w 22) (vAt w 18) (vAt w 14) (mAt w 11))
    | _ => .error .unassignedSelector
  | 16 => sel (vtOf? (fld w 14 4)) fun z => sel (vtOf? (fld w 0 5)) fun t => .ok (.vcvt (vAt w 22) (vAt w 18) z (mAt w 11) t)
  | 17 => sel (vtOf? (fld w 14 4)) fun z => sel (vtOf? (fld w 0 5)) fun t => .ok (.vpk (vAt w 22) (vAt w 18) z (mAt w 11) t)
  | 24 => sel (vtOf? (fld w 0 5)) fun t => zero (fld w 14 4) (.vex2 (vAt w 22) (vAt w 18) (mAt w 11) t)
  | 25 => sel (vtOf? (fld w 0 5)) fun t => zero (fld w 14 4) (.vlg2 (vAt w 22) (vAt w 18) (mAt w 11) t)
  | 26 => sel (vtOf? (fld w 0 5)) fun t => zero (fld w 14 4) (.vrcp (vAt w 22) (vAt w 18) (mAt w 11) t)
  | 27 => sel (vtOf? (fld w 0 5)) fun t => zero (fld w 14 4) (.vrsq (vAt w 22) (vAt w 18) (mAt w 11) t)
  | 28 => sel (vtOf? (fld w 0 5)) fun t => zero (fld w 14 4) (.vsqrt (vAt w 22) (vAt w 18) (mAt w 11) t)
  | 29 => sel (vtOf? (fld w 0 5)) fun t => zero (fld w 14 4) (.vsin (vAt w 22) (vAt w 18) (mAt w 11) t)
  | 30 => sel (vtOf? (fld w 0 5)) fun t => zero (fld w 14 4) (.vcos (vAt w 22) (vAt w 18) (mAt w 11) t)
  | 32 =>
    match fld w 0 5 with
    | 8 => zero (fld w 14 4) (.vrsumF32 (vAt w 22) (vAt w 18) (mAt w 11))
    | _ => .error .unassignedSelector
  | 33 =>
    match fld w 0 5 with
    | 8 => zero (fld w 14 4) (.vrmaxF32 (vAt w 22) (vAt w 18) (mAt w 11))
    | _ => .error .unassignedSelector
  | _ => .error .unassignedSelector

/-- Major 0x1A (R26). -/
def decVmem (w : Nat) : Except Reject Instr :=
  match fld w 5 5 with
  | 0 => sel (vtOf? (fld w 0 5)) fun t => zero (fld w 13 4) (.vld (vAt w 22) (gAt w 17) (mAt w 10) t)
  | 1 => sel (vtOf? (fld w 0 5)) fun t => zero (fld w 13 4) (.vst (vAt w 22) (gAt w 17) (mAt w 10) t)
  | 2 => sel (vtOf? (fld w 0 5)) fun t => .ok (.vlds (vAt w 22) (gAt w 17) (vAt w 13) (mAt w 10) t)
  | 3 => sel (vtOf? (fld w 0 5)) fun t => .ok (.vsts (vAt w 22) (gAt w 17) (vAt w 13) (mAt w 10) t)
  | 4 => sel (vtOf? (fld w 0 5)) fun t => .ok (.vldg (vAt w 22) (gAt w 17) (vAt w 13) (mAt w 10) t)
  | 5 => sel (vtOf? (fld w 0 5)) fun t => .ok (.vstg (vAt w 22) (gAt w 17) (vAt w 13) (mAt w 10) t)
  | _ => .error .unassignedSelector

/-- Major 0x1B (R26). -/
def decVspc (w : Nat) : Except Reject Instr :=
  match fld w 5 5 with
  | 0 => zero (fld w 0 5 + fld w 10 7 + fld w 22 4) (.vclaim (gAt w 17))
  | 1 => zero (fld w 0 5 + fld w 10 16) (.vrel)
  | 2 => zero (fld w 0 5 + fld w 10 7 + fld w 22 4) (.vsetl (gAt w 17))
  | 3 => zero (fld w 0 5 + fld w 13 4) (.vbc (vAt w 22) (gAt w 17) (mAt w 10))
  | 4 => zero (fld w 0 5 + fld w 10 3) (.vmovgv (vAt w 22) (gAt w 17) (vAt w 13))
  | 5 => sel (vtOf? (fld w 0 5)) fun t => zero (fld w 10 3 + fld w 22 4) (.vmovvg (gAt w 17) (vAt w 13) t)
  | 6 => zero (fld w 0 5 + fld w 10 3 + fld w 22 4) (.vmovvgD (gAt w 17) (vAt w 13))
  | 8 => sel (vtOf? (fld w 0 5)) fun t => zero (fld w 17 5) (.vrng (vAt w 22) (vAt w 13) (mAt w 10) t)
  | 9 =>
    match fld w 0 5 with
    | 8 => .ok (.vfix (vAt w 22) (gAt w 17) (vAt w 13) (mAt w 10))
    | _ => .error .unassignedSelector
  | 10 =>
    match fld w 0 5 with
    | 8 => zero (fld w 10 3) (.vunfix (vAt w 22) (gAt w 17) (vAt w 13))
    | _ => .error .unassignedSelector
  | 11 => zero (fld w 0 5) (.vslide (vAt w 22) (gAt w 17) (vAt w 13) (mAt w 10))
  | 12 => zero (fld w 0 5 + fld w 10 3 + fld w 16 1 + fld w 22 4) (.vmpop (gAt w 17) (mAt w 13))
  | 13 => sel (vtOf? (fld w 0 5)) fun t => zero (fld w 16 1) (.vacc (vAt w 22) (gAt w 17) (mAt w 13) (mAt w 10) t)
  | _ => .error .unassignedSelector

/-- Major 0x1C (R26). -/
def decMat (w : Nat) : Except Reject Instr :=
  match fld w 18 8 with
  | 0 => zero (fld w 0 3 + fld w 8 5) (.mclaim (gAt w 13) (gAt w 3))
  | 1 => zero (fld w 0 13) (.mrel (gAt w 13))
  | 2 => zero (fld w 0 13) (.mset (gAt w 13))
  | 3 => zero (fld w 0 13) (.mget (gAt w 13))
  | 4 => zero (fld w 8 10) (.mzero (gAt w 3) (mAt w 0))
  | 5 => zero (fld w 8 5) (.mbias (gAt w 13) (gAt w 3) (mAt w 0))
  | 6 => .ok (.mmul (gAt w 13) (gAt w 8) (gAt w 3) (mAt w 0))
  | 7 => .ok (.mmulg (gAt w 13) (gAt w 8) (gAt w 3) (mAt w 0))
  | 8 => sel (vtOf? (fld w 3 5)) fun d => .ok (.mdrain (gAt w 13) (gAt w 8) d (mAt w 0))
  | 9 => zero (fld w 0 3 + fld w 8 10) (.mwait (gAt w 3))
  | 10 => zero (fld w 0 3 + fld w 8 10) (.mstop (gAt w 3))
  | _ => .error .unassignedSelector

/-- Major 0x1D (R26). -/
def decCopy (w : Nat) : Except Reject Instr :=
  match fld w 18 8 with
  | 0 => zero (fld w 0 13) (.xset (gAt w 13))
  | 1 => zero (fld w 2 1 + fld w 8 5) (.xcopy (gAt w 13) (gAt w 3) (cAt w 0))
  | 2 => zero (fld w 2 1 + fld w 8 5) (.xstr (gAt w 13) (gAt w 3) (cAt w 0))
  | 3 => zero (fld w 2 1) (.xgat (gAt w 13) (gAt w 8) (gAt w 3) (cAt w 0))
  | 4 => zero (fld w 2 1 + fld w 8 5) (.xmc (gAt w 13) (gAt w 3) (cAt w 0))
  | 5 => zero (fld w 0 3) (.xack (gAt w 13) (gAt w 8) (gAt w 3))
  | 6 => zero (fld w 2 1 + fld w 8 5) (.xwp (gAt w 13) (gAt w 3) (cAt w 0))
  | 7 => zero (fld w 0 3 + fld w 8 5) (.xwait (gAt w 13) (gAt w 3))
  | 8 => zero (fld w 0 3 + fld w 8 5) (.xkill (gAt w 13) (gAt w 3))
  | _ => .error .unassignedSelector

/-- Major 0x1E (R26). -/
def decSync (w : Nat) : Except Reject Instr :=
  match fld w 18 8 with
  | 0 => sel (scopeOf? (fld w 0 2)) fun z => zero (fld w 2 6) (.bset (gAt w 13) (gAt w 8) z)
  | 1 => sel (scopeOf? (fld w 0 2)) fun z => zero (fld w 2 1 + fld w 8 5) (.barr (gAt w 13) (gAt w 3) z)
  | 2 => sel (scopeOf? (fld w 0 2)) fun z => zero (fld w 2 1 + fld w 8 5) (.barw (gAt w 13) (gAt w 3) z)
  | 3 => sel (scopeOf? (fld w 0 2)) fun z => zero (fld w 2 1) (.barwT (gAt w 13) (gAt w 8) (gAt w 3) z)
  | 4 => sel (scopeOf? (fld w 0 2)) fun z => zero (fld w 2 1 + fld w 8 5) (.bstat (gAt w 13) (gAt w 3) z)
  | 5 => zero (fld w 0 3) (.rarr (gAt w 13) (gAt w 8) (gAt w 3))
  | 6 => zero (fld w 0 3 + fld w 8 5) (.pbar (gAt w 13) (gAt w 3))
  | 7 => sel (wcondOf? (fld w 0 3)) fun c => .ok (.waitw (gAt w 13) (gAt w 8) (gAt w 3) c)
  | 8 => sel (qmodeOf? (fld w 0 2)) fun f => zero (fld w 2 1) (.qput (gAt w 13) (gAt w 8) (gAt w 3) f)
  | 9 => sel (boolOf? (fld w 0 1)) fun n => zero (fld w 1 2) (.qget (gAt w 13) (gAt w 8) (gAt w 3) n)
  | 10 => zero (fld w 0 3 + fld w 8 5) (.qstat (gAt w 13) (gAt w 3))
  | _ => .error .unassignedSelector

/-- Major 0x1F (R26). -/
def decCrumb (w : Nat) : Except Reject Instr :=
  match fld w 18 8 with
  | 0 => zero (fld w 0 3) (.cput (gAt w 13) (gAt w 8) (gAt w 3))
  | 1 => zero (fld w 0 3) (.cget (gAt w 13) (gAt w 8) (gAt w 3))
  | 2 => zero (fld w 0 3) (.cnode (gAt w 13) (gAt w 8) (gAt w 3))
  | 3 => zero (fld w 0 3 + fld w 13 5) (.cref (gAt w 8) (gAt w 3))
  | 4 => zero (fld w 0 3 + fld w 13 5) (.cdrop (gAt w 8) (gAt w 3))
  | 5 => zero (fld w 0 3) (.croot (gAt w 13) (gAt w 8) (gAt w 3))
  | 6 => zero (fld w 0 3) (.cswap (gAt w 13) (gAt w 8) (gAt w 3))
  | 7 => zero (fld w 2 1) (.cout (gAt w 13) (gAt w 8) (gAt w 3) (cAt w 0))
  | 8 =>
    match fld w 0 3 with
    | 0 => zero (fld w 13 5) (.cstat (gAt w 8) (gAt w 3))
    | 1 => zero (fld w 8 5) (.cstatHome (gAt w 13) (gAt w 3))
    | _ => .error .unassignedSelector
  | _ => .error .unassignedSelector

/-- Major 0x20 (R26). -/
def decThrd (w : Nat) : Except Reject Instr :=
  match fld w 18 8 with
  | 0 =>
    match fld w 0 3 with
    | 0 => zero (fld w 8 5) (.apply (gAt w 13) (gAt w 3))
    | 1 => zero (fld w 8 5) (.applyW (gAt w 13) (gAt w 3))
    | _ => .error .unassignedSelector
  | 1 => zero (fld w 0 3) (.patch (gAt w 13) (gAt w 8) (gAt w 3))
  | 2 => zero (fld w 0 3 + fld w 8 5) (.cread (gAt w 13) (gAt w 3))
  | 3 => zero (fld w 0 3 + fld w 8 5) (.join (gAt w 13) (gAt w 3))
  | 4 => sel (fin5Of? (fld w 0 3)) fun n => .ok (.send (gAt w 13) (gAt w 8) (gAt w 3) n)
  | 5 => zero (fld w 0 18) (.hret)
  | 6 => zero (fld w 0 18) (.exit)
  | 7 => zero (fld w 0 3) (.yield (gAt w 13) (gAt w 8) (gAt w 3))
  | 8 => zero (fld w 0 3) (.resume (gAt w 13) (gAt w 8) (gAt w 3))
  | 9 => zero (fld w 8 10) (.tid (gAt w 3) (mAt w 0))
  | 10 => sel (fin3Of? (fld w 0 3)) fun z => zero (fld w 8 10) (.stage (gAt w 3) z)
  | 11 => zero (fld w 0 3 + fld w 8 10) (.bal (gAt w 3))
  | 12 => zero (fld w 0 3 + fld w 8 5) (.sleep (gAt w 13) (gAt w 3))
  | 13 => zero (fld w 0 3 + fld w 8 5) (.wake (gAt w 13) (gAt w 3))
  | _ => .error .unassignedSelector

/-- Major 0x21 (R26). -/
noncomputable def decUrg (w : Nat) : Except Reject Instr :=
  match fld w 18 8 with
  | 0 => zero (fld w 0 18) (.jbeg)
  | 1 => zero (fld w 0 3 + fld w 8 10) (.jend (gAt w 3))
  | 2 => zero (fld w 0 18) (.shdone)
  | 3 => zero (fld w 0 18) (.rsdone)
  | 4 => zero (fld w 0 3 + fld w 8 5) (.uchg (gAt w 13) (gAt w 3))
  | 5 =>
    match fld w 0 3 with
    | 0 => zero (fld w 8 5) (.uown (gAt w 13) (gAt w 3))
    | 1 => zero (fld w 8 10) (.uownSt (gAt w 3))
    | _ => .error .unassignedSelector
  | 6 =>
    match fld w 0 3 with
    | 0 => .ok (.ucfgOwn (gAt w 13) (gAt w 8) (gAt w 3))
    | 1 => .ok (.ucfgTab (gAt w 13) (gAt w 8) (gAt w 3))
    | 2 => zero (fld w 8 5) (.ucfgArb (gAt w 13) (gAt w 3))
    | _ => .error .unassignedSelector
  | _ => .error .unassignedSelector

/-- Major 0x22 (R26). -/
noncomputable def decSys (w : Nat) : Except Reject Instr :=
  match fld w 0 4 with
  | 0 => zero (fld w 16 5) (.csrr (gAt w 21) (BitVec.ofNat 12 (fld w 4 12)))
  | 1 => zero (fld w 21 5) (.csrw (gAt w 16) (BitVec.ofNat 12 (fld w 4 12)))
  | 2 => .ok (.csrx (gAt w 21) (gAt w 16) (BitVec.ofNat 12 (fld w 4 12)))
  | 3 => zero (fld w 16 10) (.trap (BitVec.ofNat 12 (fld w 4 12)))
  | 4 => zero (fld w 4 22) (.tret)
  | 5 => zero (fld w 4 12 + fld w 21 5) (.sysc (gAt w 16))
  | 6 => zero (fld w 4 12 + fld w 21 5) (.syscNb (gAt w 16))
  | 7 => zero (fld w 16 10) (.brk (BitVec.ofNat 12 (fld w 4 12)))
  | _ => .error .unassignedSelector

/-- Major 0x23 (R26). -/
noncomputable def decPriv (w : Nat) : Except Reject Instr :=
  match fld w 18 8 with
  | 0 => zero (fld w 0 3) (.cch (gAt w 13) (gAt w 8) (gAt w 3))
  | 1 => zero (fld w 0 3) (.csave (gAt w 13) (gAt w 8) (gAt w 3))
  | 2 => zero (fld w 0 3) (.crest (gAt w 13) (gAt w 8) (gAt w 3))
  | 3 =>
    match fld w 0 3 with
    | 0 => zero (fld w 3 10) (.tlbi (gAt w 13))
    | 1 => zero (fld w 3 15) (.tlbiAll)
    | _ => .error .unassignedSelector
  | 4 => zero (fld w 0 3 + fld w 8 5) (.prst (gAt w 13) (gAt w 3))
  | _ => .error .unassignedSelector

/-- Major 0x24 (R26). -/
noncomputable def decDbg (w : Nat) : Except Reject Instr :=
  match fld w 18 8 with
  | 0 => zero (fld w 0 13) (.mark (gAt w 13))
  | 1 => zero (fld w 0 3 + fld w 8 10) (.dbrk (gAt w 3))
  | 2 => zero (fld w 0 3 + fld w 8 5) (.smpl (gAt w 13) (gAt w 3))
  | _ => .error .unassignedSelector

/-- The instruction word w, a number below 2^32, read by its major opcode alone: the selector, the must-be-zero fields
and the operand codes of R36 steps 2 to 4; the rules of WellFormed are applied in `decodeNat`. -/
noncomputable def rawDecode (w : Nat) : Except Reject Instr :=
  match fld w 26 6 with
  | 1 => decInt w
  | 2 => decAddi w
  | 3 => decAndi w
  | 4 => decOri w
  | 5 => decXori w
  | 6 => decShi w
  | 7 => decSlti w
  | 8 => decSltni w
  | 9 => decLi w
  | 10 => decLsh w
  | 12 => decB w
  | 13 => decJ w
  | 14 => decJal w
  | 15 => decJr w
  | 16 => decLd w
  | 17 => decSt w
  | 18 => decLdx w
  | 19 => decAmo w
  | 20 => decRed w
  | 21 => decMemc w
  | 22 => decFps w
  | 24 => decVint w
  | 25 => decVfp w
  | 26 => decVmem w
  | 27 => decVspc w
  | 28 => decMat w
  | 29 => decCopy w
  | 30 => decSync w
  | 31 => decCrumb w
  | 32 => decThrd w
  | 33 => decUrg w
  | 34 => decSys w
  | 35 => decPriv w
  | 36 => decDbg w
  | _ => .error .unassignedMajor

/-- Fields of R23, each added at its place to the word m that holds the major and the selector. -/
def encA (m d a b x : Nat) : Nat := m + 2 ^ 21 * d + 2 ^ 16 * a + 2 ^ 11 * b + x
/-- Format I of R23. -/
def encI (m d a x : Nat) : Nat := m + 2 ^ 21 * d + 2 ^ 16 * a + x
/-- Format L of R23. -/
def encL (m d x : Nat) : Nat := m + 2 ^ 21 * d + x
/-- Format M of R23. -/
def encM (m d a z w x : Nat) : Nat := m + 2 ^ 21 * d + 2 ^ 16 * a + 2 ^ 13 * z + 2 ^ 11 * w + x
/-- Format C of R23. -/
def encC (m d a n x : Nat) : Nat := m + 2 ^ 21 * d + 2 ^ 16 * a + 2 ^ 4 * n + x
/-- Format V of R23. -/
def encV (m d a b k x : Nat) : Nat := m + 2 ^ 22 * d + 2 ^ 18 * a + 2 ^ 14 * b + 2 ^ 11 * k + x
/-- Format VM of R23. -/
def encVM (m d a i k x : Nat) : Nat := m + 2 ^ 22 * d + 2 ^ 17 * a + 2 ^ 13 * i + 2 ^ 10 * k + x
/-- Format E of R23. -/
def encE (m a b d x : Nat) : Nat := m + 2 ^ 13 * a + 2 ^ 8 * b + 2 ^ 3 * d + x
/-- Format B of R23. -/
def encB (m a b x : Nat) : Nat := m + 2 ^ 18 * a + 2 ^ 13 * b + x
/-- Format J of R23. -/
def encJ (m x : Nat) : Nat := m + x

/-- The number of the word of an instruction, from the fields of R23; an event has no encoding. -/
def encodeNat : Instr → Option Nat
  | .add d a b => some (encA 0x04000000 d.val a.val b.val 0)
  | .sub d a b => some (encA 0x04000020 d.val a.val b.val 0)
  | .mul d a b => some (encA 0x04000040 d.val a.val b.val 0)
  | .mulh d a b => some (encA 0x04000060 d.val a.val b.val 0)
  | .mulhn d a b => some (encA 0x04000080 d.val a.val b.val 0)
  | .div d a b => some (encA 0x040000A0 d.val a.val b.val 0)
  | .divn d a b => some (encA 0x040000C0 d.val a.val b.val 0)
  | .rem d a b => some (encA 0x040000E0 d.val a.val b.val 0)
  | .remn d a b => some (encA 0x04000100 d.val a.val b.val 0)
  | .and d a b => some (encA 0x04000120 d.val a.val b.val 0)
  | .or d a b => some (encA 0x04000140 d.val a.val b.val 0)
  | .xor d a b => some (encA 0x04000160 d.val a.val b.val 0)
  | .andn d a b => some (encA 0x04000180 d.val a.val b.val 0)
  | .orn d a b => some (encA 0x040001A0 d.val a.val b.val 0)
  | .sll d a b => some (encA 0x040001C0 d.val a.val b.val 0)
  | .srl d a b => some (encA 0x040001E0 d.val a.val b.val 0)
  | .sra d a b => some (encA 0x04000200 d.val a.val b.val 0)
  | .rol d a b => some (encA 0x04000220 d.val a.val b.val 0)
  | .ror d a b => some (encA 0x04000240 d.val a.val b.val 0)
  | .slt d a b => some (encA 0x04000260 d.val a.val b.val 0)
  | .sltn d a b => some (encA 0x04000280 d.val a.val b.val 0)
  | .seq d a b => some (encA 0x040002A0 d.val a.val b.val 0)
  | .sne d a b => some (encA 0x040002C0 d.val a.val b.val 0)
  | .min d a b => some (encA 0x040002E0 d.val a.val b.val 0)
  | .max d a b => some (encA 0x04000300 d.val a.val b.val 0)
  | .minn d a b => some (encA 0x04000320 d.val a.val b.val 0)
  | .maxn d a b => some (encA 0x04000340 d.val a.val b.val 0)
  | .clz d a => some (encA 0x04000360 d.val a.val 0 0)
  | .ctz d a => some (encA 0x04000380 d.val a.val 0 0)
  | .pop d a => some (encA 0x040003A0 d.val a.val 0 0)
  | .bswap d a => some (encA 0x040003C0 d.val a.val 0 0)
  | .brev d a => some (encA 0x040003E0 d.val a.val 0 0)
  | .sext d a w => some (encA 0x04000400 d.val a.val 0 (xwCode w))
  | .zext d a w => some (encA 0x04000420 d.val a.val 0 (xwCode w))
  | .sel d a b => some (encA 0x04000440 d.val a.val b.val 0)
  | .bfx d a b => some (encA 0x04000460 d.val a.val b.val 0)
  | .bfi d a b => some (encA 0x04000480 d.val a.val b.val 0)
  | .addi d a i => some (encI 0x08000000 d.val a.val i.toNat)
  | .andi d a i => some (encI 0x0C000000 d.val a.val i.toNat)
  | .ori d a i => some (encI 0x10000000 d.val a.val i.toNat)
  | .xori d a i => some (encI 0x14000000 d.val a.val i.toNat)
  | .shiSll d a n => some (encI 0x18000000 d.val a.val n.toNat)
  | .shiSrl d a n => some (encI 0x18000100 d.val a.val n.toNat)
  | .shiSra d a n => some (encI 0x18000200 d.val a.val n.toNat)
  | .shiRol d a n => some (encI 0x18000300 d.val a.val n.toNat)
  | .shiRor d a n => some (encI 0x18000400 d.val a.val n.toNat)
  | .slti d a i => some (encI 0x1C000000 d.val a.val i.toNat)
  | .sltni d a i => some (encI 0x20000000 d.val a.val i.toNat)
  | .li d i => some (encL 0x24000000 d.val i.toNat)
  | .lsh d a i => some (encI 0x28000000 d.val a.val i.toNat)
  | .bEq a b o => some (encB 0x30000000 a.val b.val o.toNat)
  | .bNe a b o => some (encB 0x30800000 a.val b.val o.toNat)
  | .bLt a b o => some (encB 0x31000000 a.val b.val o.toNat)
  | .bGe a b o => some (encB 0x31800000 a.val b.val o.toNat)
  | .bLtn a b o => some (encB 0x32000000 a.val b.val o.toNat)
  | .bGen a b o => some (encB 0x32800000 a.val b.val o.toNat)
  | .bBs a b o => some (encB 0x33000000 a.val b.val o.toNat)
  | .j o => some (encJ 0x34000000 o.toNat)
  | .jal o => some (encJ 0x38000000 o.toNat)
  | .jr a => some (encA 0x3C000000 0 a.val 0 0)
  | .jalr d a => some (encA 0x3C000001 d.val a.val 0 0)
  | .ld d a z w o => some (encM 0x40000000 d.val a.val (szCode z) (wtCode w) o.toNat)
  | .st d a z w o => some (encM 0x44000000 d.val a.val (szCode z) (wtCode w) o.toNat)
  | .ldx d a b z w => some (encA 0x48000000 d.val a.val b.val (2 ^ 7 * (szCode z) + 2 ^ 5 * (wtCode w)))
  | .stx d a b z w => some (encA 0x48000400 d.val a.val b.val (2 ^ 7 * (szCode z) + 2 ^ 5 * (wtCode w)))
  | .amoAdd d a b z w => some (encA 0x4C000000 d.val a.val b.val (2 ^ 4 * (szCode z) + 2 ^ 2 * (wtCode w)))
  | .amoAnd d a b z w => some (encA 0x4C000080 d.val a.val b.val (2 ^ 4 * (szCode z) + 2 ^ 2 * (wtCode w)))
  | .amoOr d a b z w => some (encA 0x4C000100 d.val a.val b.val (2 ^ 4 * (szCode z) + 2 ^ 2 * (wtCode w)))
  | .amoXor d a b z w => some (encA 0x4C000180 d.val a.val b.val (2 ^ 4 * (szCode z) + 2 ^ 2 * (wtCode w)))
  | .amoMin d a b z w => some (encA 0x4C000200 d.val a.val b.val (2 ^ 4 * (szCode z) + 2 ^ 2 * (wtCode w)))
  | .amoMax d a b z w => some (encA 0x4C000280 d.val a.val b.val (2 ^ 4 * (szCode z) + 2 ^ 2 * (wtCode w)))
  | .amoMinn d a b z w => some (encA 0x4C000300 d.val a.val b.val (2 ^ 4 * (szCode z) + 2 ^ 2 * (wtCode w)))
  | .amoMaxn d a b z w => some (encA 0x4C000380 d.val a.val b.val (2 ^ 4 * (szCode z) + 2 ^ 2 * (wtCode w)))
  | .amoSwap d a b z w => some (encA 0x4C000400 d.val a.val b.val (2 ^ 4 * (szCode z) + 2 ^ 2 * (wtCode w)))
  | .amoCas d a b z w => some (encA 0x4C000480 d.val a.val b.val (2 ^ 4 * (szCode z) + 2 ^ 2 * (wtCode w)))
  | .redAdd a b z w => some (encA 0x50000000 0 a.val b.val (2 ^ 5 * (szCode z) + 2 ^ 3 * (wtCode w)))
  | .redAnd a b z w => some (encA 0x50000100 0 a.val b.val (2 ^ 5 * (szCode z) + 2 ^ 3 * (wtCode w)))
  | .redOr a b z w => some (encA 0x50000200 0 a.val b.val (2 ^ 5 * (szCode z) + 2 ^ 3 * (wtCode w)))
  | .redXor a b z w => some (encA 0x50000300 0 a.val b.val (2 ^ 5 * (szCode z) + 2 ^ 3 * (wtCode w)))
  | .redMin a b z w => some (encA 0x50000400 0 a.val b.val (2 ^ 5 * (szCode z) + 2 ^ 3 * (wtCode w)))
  | .redMax a b z w => some (encA 0x50000500 0 a.val b.val (2 ^ 5 * (szCode z) + 2 ^ 3 * (wtCode w)))
  | .redAddW128 a b w => some (encA 0x50000660 0 a.val b.val (2 ^ 3 * (wtCode w)))
  | .mig d a => some (encA 0x54000000 d.val a.val 0 0)
  | .migc d a => some (encA 0x54000010 d.val a.val 0 0)
  | .fenceCore => some (encA 0x54000020 0 0 0 0)
  | .fenceCluster => some (encA 0x54000021 0 0 0 0)
  | .fenceHearth => some (encA 0x54000022 0 0 0 0)
  | .fenceModule => some (encA 0x54000023 0 0 0 0)
  | .pfl a => some (encA 0x54000030 0 a.val 0 0)
  | .xlat d a => some (encA 0x54000040 d.val a.val 0 0)
  | .fadd d a b => some (encA 0x58000000 d.val a.val b.val 0)
  | .fsub d a b => some (encA 0x58000040 d.val a.val b.val 0)
  | .fmul d a b => some (encA 0x58000080 d.val a.val b.val 0)
  | .fma d a b => some (encA 0x580000C0 d.val a.val b.val 0)
  | .fnma d a b => some (encA 0x58000100 d.val a.val b.val 0)
  | .fdiv d a b => some (encA 0x58000140 d.val a.val b.val 0)
  | .fsqrt d a => some (encA 0x58000180 d.val a.val 0 0)
  | .fmin d a b => some (encA 0x580001C0 d.val a.val b.val 0)
  | .fmax d a b => some (encA 0x58000200 d.val a.val b.val 0)
  | .fcmpEq d a b => some (encA 0x58000240 d.val a.val b.val 0)
  | .fcmpLt d a b => some (encA 0x58000244 d.val a.val b.val 0)
  | .fcmpLe d a b => some (encA 0x58000248 d.val a.val b.val 0)
  | .fcmpUn d a b => some (encA 0x5800024C d.val a.val b.val 0)
  | .fclass d a => some (encA 0x58000280 d.val a.val 0 0)
  | .fcvtF32I64 d a => some (encA 0x580002C0 d.val a.val 0 0)
  | .fcvtF32N64 d a => some (encA 0x580002C4 d.val a.val 0 0)
  | .fcvtI64F32 d a => some (encA 0x580002C8 d.val a.val 0 0)
  | .fcvtN64F32 d a => some (encA 0x580002CC d.val a.val 0 0)
  | .fcvtI64F32Rtz d a => some (encA 0x580002D0 d.val a.val 0 0)
  | .fcvtN64F32Rtz d a => some (encA 0x580002D4 d.val a.val 0 0)
  | .fcvtF32I32 d a => some (encA 0x580002D8 d.val a.val 0 0)
  | .fcvtI32F32 d a => some (encA 0x580002DC d.val a.val 0 0)
  | .fcvtF16F32 d a => some (encA 0x580002E0 d.val a.val 0 0)
  | .fcvtF32F16 d a => some (encA 0x580002E4 d.val a.val 0 0)
  | .fcvtBf16F32 d a => some (encA 0x580002E8 d.val a.val 0 0)
  | .fcvtF32Bf16 d a => some (encA 0x580002EC d.val a.val 0 0)
  | .fsgnj d a b => some (encA 0x58000300 d.val a.val b.val 0)
  | .fsgnjN d a b => some (encA 0x58000304 d.val a.val b.val 0)
  | .fsgnjX d a b => some (encA 0x58000308 d.val a.val b.val 0)
  | .vadd d a b k t => some (encV 0x60000000 d.val a.val b.val k.val (vtCode t))
  | .vsub d a b k t => some (encV 0x60000020 d.val a.val b.val k.val (vtCode t))
  | .vmul d a b k t => some (encV 0x60000040 d.val a.val b.val k.val (vtCode t))
  | .vmulh d a b k t => some (encV 0x60000060 d.val a.val b.val k.val (vtCode t))
  | .vmin d a b k t => some (encV 0x60000080 d.val a.val b.val k.val (vtCode t))
  | .vmax d a b k t => some (encV 0x600000A0 d.val a.val b.val k.val (vtCode t))
  | .vand d a b k => some (encV 0x600000C0 d.val a.val b.val k.val 0)
  | .vor d a b k => some (encV 0x600000E0 d.val a.val b.val k.val 0)
  | .vxor d a b k => some (encV 0x60000100 d.val a.val b.val k.val 0)
  | .vsll d a b k t => some (encV 0x60000120 d.val a.val b.val k.val (vtCode t))
  | .vsrl d a b k t => some (encV 0x60000140 d.val a.val b.val k.val (vtCode t))
  | .vsra d a b k t => some (encV 0x60000160 d.val a.val b.val k.val (vtCode t))
  | .vadds d a b k t => some (encV 0x60000180 d.val a.val b.val k.val (vtCode t))
  | .vsubs d a b k t => some (encV 0x600001A0 d.val a.val b.val k.val (vtCode t))
  | .vcmpEq d a b k t => some (encV 0x60000200 d.val a.val b.val k.val (vtCode t))
  | .vcmpNe d a b k t => some (encV 0x60000220 d.val a.val b.val k.val (vtCode t))
  | .vcmpLt d a b k t => some (encV 0x60000240 d.val a.val b.val k.val (vtCode t))
  | .vcmpLe d a b k t => some (encV 0x60000260 d.val a.val b.val k.val (vtCode t))
  | .vsel d a b k => some (encV 0x60000280 d.val a.val b.val k.val 0)
  | .vmand d a b => some (encV 0x60000300 d.val a.val b.val 0 0)
  | .vmor d a b => some (encV 0x60000320 d.val a.val b.val 0 0)
  | .vmxor d a b => some (encV 0x60000340 d.val a.val b.val 0 0)
  | .vmandn d a b => some (encV 0x60000360 d.val a.val b.val 0 0)
  | .vrsum d a k t => some (encV 0x60000400 d.val a.val 0 k.val (vtCode t))
  | .vrmax d a k t => some (encV 0x60000420 d.val a.val 0 k.val (vtCode t))
  | .vperm d a b k => some (encV 0x60000480 d.val a.val b.val k.val 0)
  | .vfadd d a b k t => some (encV 0x64000000 d.val a.val b.val k.val (vtCode t))
  | .vfsub d a b k t => some (encV 0x64000020 d.val a.val b.val k.val (vtCode t))
  | .vfmul d a b k t => some (encV 0x64000040 d.val a.val b.val k.val (vtCode t))
  | .vfma d a b k t => some (encV 0x64000060 d.val a.val b.val k.val (vtCode t))
  | .vfmin d a b k t => some (encV 0x64000080 d.val a.val b.val k.val (vtCode t))
  | .vfmax d a b k t => some (encV 0x640000A0 d.val a.val b.val k.val (vtCode t))
  | .vfcmpEq d a b k => some (encV 0x64000108 d.val a.val b.val k.val 0)
  | .vfcmpLt d a b k => some (encV 0x64000128 d.val a.val b.val k.val 0)
  | .vfcmpLe d a b k => some (encV 0x64000148 d.val a.val b.val k.val 0)
  | .vfcmpUn d a b k => some (encV 0x64000168 d.val a.val b.val k.val 0)
  | .vcvt d a z k t => some (encV 0x64000200 d.val a.val (vtCode z) k.val (vtCode t))
  | .vpk d a z k t => some (encV 0x64000220 d.val a.val (vtCode z) k.val (vtCode t))
  | .vex2 d a k t => some (encV 0x64000300 d.val a.val 0 k.val (vtCode t))
  | .vlg2 d a k t => some (encV 0x64000320 d.val a.val 0 k.val (vtCode t))
  | .vrcp d a k t => some (encV 0x64000340 d.val a.val 0 k.val (vtCode t))
  | .vrsq d a k t => some (encV 0x64000360 d.val a.val 0 k.val (vtCode t))
  | .vsqrt d a k t => some (encV 0x64000380 d.val a.val 0 k.val (vtCode t))
  | .vsin d a k t => some (encV 0x640003A0 d.val a.val 0 k.val (vtCode t))
  | .vcos d a k t => some (encV 0x640003C0 d.val a.val 0 k.val (vtCode t))
  | .vrsumF32 d a k => some (encV 0x64000408 d.val a.val 0 k.val 0)
  | .vrmaxF32 d a k => some (encV 0x64000428 d.val a.val 0 k.val 0)
  | .vld d a k t => some (encVM 0x68000000 d.val a.val 0 k.val (vtCode t))
  | .vst d a k t => some (encVM 0x68000020 d.val a.val 0 k.val (vtCode t))
  | .vlds d a i k t => some (encVM 0x68000040 d.val a.val i.val k.val (vtCode t))
  | .vsts d a i k t => some (encVM 0x68000060 d.val a.val i.val k.val (vtCode t))
  | .vldg d a i k t => some (encVM 0x68000080 d.val a.val i.val k.val (vtCode t))
  | .vstg d a i k t => some (encVM 0x680000A0 d.val a.val i.val k.val (vtCode t))
  | .vclaim a => some (encVM 0x6C000000 0 a.val 0 0 0)
  | .vrel => some (encVM 0x6C000020 0 0 0 0 0)
  | .vsetl a => some (encVM 0x6C000040 0 a.val 0 0 0)
  | .vbc d a k => some (encVM 0x6C000060 d.val a.val 0 k.val 0)
  | .vmovgv d a i => some (encVM 0x6C000080 d.val a.val i.val 0 0)
  | .vmovvg a i t => some (encVM 0x6C0000A0 0 a.val i.val 0 (vtCode t))
  | .vmovvgD a i => some (encVM 0x6C0000C0 0 a.val i.val 0 0)
  | .vrng d i k t => some (encVM 0x6C000100 d.val 0 i.val k.val (vtCode t))
  | .vfix d a i k => some (encVM 0x6C000128 d.val a.val i.val k.val 0)
  | .vunfix d a i => some (encVM 0x6C000148 d.val a.val i.val 0 0)
  | .vslide d a i k => some (encVM 0x6C000160 d.val a.val i.val k.val 0)
  | .vmpop a i => some (encVM 0x6C000180 0 a.val i.val 0 0)
  | .vacc d a i k t => some (encVM 0x6C0001A0 d.val a.val i.val k.val (vtCode t))
  | .mclaim a d => some (encE 0x70000000 a.val 0 d.val 0)
  | .mrel a => some (encE 0x70040000 a.val 0 0 0)
  | .mset a => some (encE 0x70080000 a.val 0 0 0)
  | .mget a => some (encE 0x700C0000 a.val 0 0 0)
  | .mzero d t => some (encE 0x70100000 0 0 d.val t.val)
  | .mbias a d t => some (encE 0x70140000 a.val 0 d.val t.val)
  | .mmul a b d t => some (encE 0x70180000 a.val b.val d.val t.val)
  | .mmulg a b d t => some (encE 0x701C0000 a.val b.val d.val t.val)
  | .mdrain a b d t => some (encE 0x70200000 a.val b.val (vtCode d) t.val)
  | .mwait d => some (encE 0x70240000 0 0 d.val 0)
  | .mstop d => some (encE 0x70280000 0 0 d.val 0)
  | .xset a => some (encE 0x74000000 a.val 0 0 0)
  | .xcopy a d c => some (encE 0x74040000 a.val 0 d.val c.val)
  | .xstr a d c => some (encE 0x74080000 a.val 0 d.val c.val)
  | .xgat a b d c => some (encE 0x740C0000 a.val b.val d.val c.val)
  | .xmc a d c => some (encE 0x74100000 a.val 0 d.val c.val)
  | .xack a b d => some (encE 0x74140000 a.val b.val d.val 0)
  | .xwp a d c => some (encE 0x74180000 a.val 0 d.val c.val)
  | .xwait a d => some (encE 0x741C0000 a.val 0 d.val 0)
  | .xkill a d => some (encE 0x74200000 a.val 0 d.val 0)
  | .bset a b z => some (encE 0x78000000 a.val b.val 0 (scopeCode z))
  | .barr a d z => some (encE 0x78040000 a.val 0 d.val (scopeCode z))
  | .barw a d z => some (encE 0x78080000 a.val 0 d.val (scopeCode z))
  | .barwT a b d z => some (encE 0x780C0000 a.val b.val d.val (scopeCode z))
  | .bstat a d z => some (encE 0x78100000 a.val 0 d.val (scopeCode z))
  | .rarr a b d => some (encE 0x78140000 a.val b.val d.val 0)
  | .pbar a d => some (encE 0x78180000 a.val 0 d.val 0)
  | .waitw a b d c => some (encE 0x781C0000 a.val b.val d.val (wcondCode c))
  | .qput a b d f => some (encE 0x78200000 a.val b.val d.val (qmodeCode f))
  | .qget a b d n => some (encE 0x78240000 a.val b.val d.val (boolCode n))
  | .qstat a d => some (encE 0x78280000 a.val 0 d.val 0)
  | .cput a b d => some (encE 0x7C000000 a.val b.val d.val 0)
  | .cget a b d => some (encE 0x7C040000 a.val b.val d.val 0)
  | .cnode a b d => some (encE 0x7C080000 a.val b.val d.val 0)
  | .cref b d => some (encE 0x7C0C0000 0 b.val d.val 0)
  | .cdrop b d => some (encE 0x7C100000 0 b.val d.val 0)
  | .croot a b d => some (encE 0x7C140000 a.val b.val d.val 0)
  | .cswap a b d => some (encE 0x7C180000 a.val b.val d.val 0)
  | .cout a b d c => some (encE 0x7C1C0000 a.val b.val d.val c.val)
  | .cstat b d => some (encE 0x7C200000 0 b.val d.val 0)
  | .cstatHome a d => some (encE 0x7C200001 a.val 0 d.val 0)
  | .apply a d => some (encE 0x80000000 a.val 0 d.val 0)
  | .applyW a d => some (encE 0x80000001 a.val 0 d.val 0)
  | .patch a b d => some (encE 0x80040000 a.val b.val d.val 0)
  | .cread a d => some (encE 0x80080000 a.val 0 d.val 0)
  | .join a d => some (encE 0x800C0000 a.val 0 d.val 0)
  | .send a b d n => some (encE 0x80100000 a.val b.val d.val n.val)
  | .hret => some (encE 0x80140000 0 0 0 0)
  | .exit => some (encE 0x80180000 0 0 0 0)
  | .yield a b d => some (encE 0x801C0000 a.val b.val d.val 0)
  | .resume a b d => some (encE 0x80200000 a.val b.val d.val 0)
  | .tid d z => some (encE 0x80240000 0 0 d.val z.val)
  | .stage d z => some (encE 0x80280000 0 0 d.val z.val)
  | .bal d => some (encE 0x802C0000 0 0 d.val 0)
  | .sleep a d => some (encE 0x80300000 a.val 0 d.val 0)
  | .wake a d => some (encE 0x80340000 a.val 0 d.val 0)
  | .jbeg => some (encE 0x84000000 0 0 0 0)
  | .jend d => some (encE 0x84040000 0 0 d.val 0)
  | .shdone => some (encE 0x84080000 0 0 0 0)
  | .rsdone => some (encE 0x840C0000 0 0 0 0)
  | .uchg a d => some (encE 0x84100000 a.val 0 d.val 0)
  | .uown a d => some (encE 0x84140000 a.val 0 d.val 0)
  | .uownSt d => some (encE 0x84140001 0 0 d.val 0)
  | .ucfgOwn a b d => some (encE 0x84180000 a.val b.val d.val 0)
  | .ucfgTab a b d => some (encE 0x84180001 a.val b.val d.val 0)
  | .ucfgArb a d => some (encE 0x84180002 a.val 0 d.val 0)
  | .csrr d n => some (encC 0x88000000 d.val 0 n.toNat 0)
  | .csrw a n => some (encC 0x88000001 0 a.val n.toNat 0)
  | .csrx d a n => some (encC 0x88000002 d.val a.val n.toNat 0)
  | .trap c => some (encC 0x88000003 0 0 c.toNat 0)
  | .tret => some (encC 0x88000004 0 0 0 0)
  | .sysc a => some (encC 0x88000005 0 a.val 0 0)
  | .syscNb a => some (encC 0x88000006 0 a.val 0 0)
  | .brk c => some (encC 0x88000007 0 0 c.toNat 0)
  | .cch a b d => some (encE 0x8C000000 a.val b.val d.val 0)
  | .csave a b d => some (encE 0x8C040000 a.val b.val d.val 0)
  | .crest a b d => some (encE 0x8C080000 a.val b.val d.val 0)
  | .tlbi a => some (encE 0x8C0C0000 a.val 0 0 0)
  | .tlbiAll => some (encE 0x8C0C0001 0 0 0 0)
  | .prst a d => some (encE 0x8C100000 a.val 0 d.val 0)
  | .mark a => some (encE 0x90000000 a.val 0 0 0)
  | .dbrk d => some (encE 0x90040000 0 0 d.val 0)
  | .smpl a d => some (encE 0x90080000 a.val 0 d.val 0)
  | _ => none

/-- The instruction of the word w, or the step of R36 that rejects it. -/
noncomputable def decodeNat (w : Nat) : Except Reject Instr :=
  match rawDecode w with
  | .ok i =>
    if i.typesOk then
      if i.regsOk then .ok i else .error .badRegister
    else .error .unassignedSelector
  | .error e => .error e

/-- The instruction of a 32-bit word. -/
noncomputable def decode (w : BitVec 32) : Except Reject Instr := decodeNat w.toNat

/-- The vector or matrix form of a word of the majors 0x18 to 0x1C, by the same checks: what a restart record holds. -/
def decodeEngine (w : BitVec 32) : Option Instr :=
  let n := w.toNat
  let r := match fld n 26 6 with
    | 24 => decVint n
    | 25 => decVfp n
    | 26 => decVmem n
    | 27 => decVspc n
    | 28 => decMat n
    | _ => .error .unassignedMajor
  match r with
  | .ok i => if i.typesOk && i.regsOk then some i else none
  | .error _ => none

/-- R17: an instruction word is stored little-endian. -/
def wordOfBytes (a b c d : Byte) : BitVec 32 := d ++ c ++ b ++ a

/-- The first instruction of a list of bytes with the bytes after it; fewer than four bytes hold no word. -/
noncomputable def decodeBytes : List Byte → Except Reject (Instr × List Byte)
  | a :: b :: c :: d :: rest =>
    match decode (wordOfBytes a b c d) with
    | .ok i => .ok (i, rest)
    | .error e => .error e
  | _ => .error .unassignedMajor

/-- The words of an instruction: one for an instruction word, none for an event. -/
def encode (i : Instr) : List (BitVec 32) :=
  match encodeNat i with
  | some n => [BitVec.ofNat 32 n]
  | none => []

/-- R17: the bytes of a word in the order memory holds them. -/
def bytesOfWord (w : BitVec 32) : List Byte :=
  [w.extractLsb' 0 8, w.extractLsb' 8 8, w.extractLsb' 16 8, w.extractLsb' 24 8]

/-- The instruction the decoder reads from a word numbered as the table of operations numbers it. -/
noncomputable def decodeTableWord (nbits w : Nat) : Option Instr :=
  if nbits ≤ 32 then
    match decodeBytes (bytesOfWord (BitVec.ofNat 32 (w % 2 ^ nbits))) with
    | .ok (i, _) => some i
    | .error _ => none
  else none

end Sys2Proof
end

