-- ==== Sys2Proof/Config.lean ====
section
/-! DEFINITION. The values the spec leaves open, as constants without a body: nothing can be proved of what they are. -/

namespace Sys2Proof

/-- The byte that byte k of a failing granule holds when the spec says each byte may or may not be written (R229): true
means written. The argument is the index of the free value. -/
opaque Config.byteWritten : Nat → Bool

/-- The result code of a form whose exact result is infinite in E4M3, which has no infinity (R55, R164): operation number,
operand code and SATF. -/
opaque Config.e4m3Infinite : Nat → Nat → Bool → BitVec 8

/-- The flags beside DZ of such a form. -/
opaque Config.e4m3InfiniteFlags : Nat → Nat → Bool → BitVec 5

/-- The public key whose digest is fused into hearth 0 (R379), as the coordinates of a point: the spec does not give it. -/
opaque Config.bootKey : Nat × Nat

/-- Whole ns by which a core's sample of TIME lags the module's count, and the 18th of a ns of TIME in which the core samples the new
count, before the reduction to the 2 ns of R9: the arguments are the core and the count. -/
opaque Config.timeLag : Nat → Nat
opaque Config.timePhase : Nat → Nat → Nat

/-- TVAL of a machine check for state lost at a freeze or a lost core, which R307 and R297 do not state: the index of the free
value. -/
opaque Config.lostValue : Nat → Word

/-- Bytes of hearth 0's pantry that the firmware column holds (R382). -/
opaque Config.columnPantry : Nat

/-- The handler address of the message by which the firmware tells a service core of a PRESIZE's images (R385): the index of
the free value. -/
opaque Config.resizeHandler : Nat → Word

/-- Doubleword k of the shadow copy in a command page (R372), whose layout the spec does not give: PART, SVC, SEC and NCL. -/
opaque Config.shadowWord : Nat → Nat → Bool → Nat → Nat → Word

/-- Whether a cget of a DYING name, whose hearth holds a copy of its mapping, is served from that copy (R330): the index of the free
value. -/
opaque Config.servedCopy : Nat → Bool

/-- The PC field of a score-pulse entry for a slot that has become empty (R408): an empty slot has no next instruction. The
argument is the thread ID that names the slot. -/
opaque Config.emptySlotPc : Nat → Word

end Sys2Proof
end

