-- ==== Sys2Proof/Machine/State.lean ====
section
/-! DEFINITION. The state of an Effiro E16 module as plain data, the reasons a step can stop, and the state after module
reset. Tables that are sparse in practice are held as lists of keys and values in ascending key order; a key that is not
listed stands for the value after reset. -/

namespace Sys2Proof.Machine

/-- A sparse table: keys strictly rising. -/
abbrev Map (α : Type) := List (Nat × α)

/-- Bytes by address: addresses strictly rising, no byte equal to 0, which an unlisted address reads as. -/
abbrev Memory := List Host.Cell

/-- Where a byte lies: an LM, a partition's share of a hearth's pantry, or physical memory of a tier (0 HBM, 1 far tier,
2 host memory; R109). -/
inductive Space where
  | lm (core : Nat)
  | share (part hearth : Nat)
  | phys (tier : Nat)
  deriving DecidableEq, Repr

/-- A byte of a space. -/
structure Loc where
  space : Space
  off : Nat
  deriving DecidableEq, Repr

/-- The one place that performs an access (R115): a core's LM pipe, a hearth's pantry pipe, a home's memory pipe. -/
inductive Place where
  | lm (core : Nat)
  | pantry (hearth : Nat)
  | home (core : Nat)
  deriving DecidableEq, Repr

/-- The trap registers of R295. -/
structure TrapRegs where
  tpc : Word := 0
  tcause : Word := 0
  tval : Word := 0
  tvec : Word := 0
  tstat2 : Word := 0
  deriving DecidableEq, Repr

/-- The V-class registers of R144 to R148. -/
structure VecRegs where
  vl : Word := 64
  vpos : Word := 0
  frm : Word := 8
  fflags : Word := 0
  starter : Word := 0
  deriving DecidableEq, Repr

/-- The shadow format registers (0x200 to 0x205) of R181 to R186. -/
structure MatRegs where
  mprec : Word := 0x7700
  mfmt : Word := 0x0707
  mgeom : Word := 0x00401010
  mblk : Word := 0x40
  mscale : Word := 0
  macc : Word := 0x300
  deriving DecidableEq, Repr

/-- The copy registers of R217 to R222. -/
structure CopyRegs where
  xsrc : Word := 0
  xdst : Word := 0
  xlen : Word := 0
  xstride : Word := 0
  xdim : Word := 0
  xhnd : Word := 0
  xmask : Word := 0
  deriving DecidableEq, Repr

/-- An error mark on a posted counter (R119): the failed access's VA and the sub-cause of R297. -/
structure ErrMark where
  va : Word
  sub : Nat
  deriving DecidableEq, Repr

/-- Membership of a team (R256, R292): the nest record number, the team's node in the nest, and what `tid` and `stage` read. -/
structure TeamRef where
  nest : Nat
  node : Nat
  record : Nat
  rank : Nat
  size : Nat
  entry : Nat
  iter : Nat
  bar : Nat
  inq : Word
  outq : Word
  coro : Bool
  deriving DecidableEq, Repr

/-- Membership of a population (R258, R290, R377): rank, size and the join word or 0. -/
structure PopRef where
  rank : Nat
  size : Nat
  join : Word
  deriving DecidableEq, Repr

/-- A pending asynchronous user-level trap other than SHED and RESUME (R298). -/
inductive Pending where
  | copydone (id : Word) (handler : Word)
  | childfault (tval : Word)
  deriving DecidableEq, Repr

/-- The handling a steward is in (R346, R347). -/
inductive Handling where
  | none | shed | resume
  deriving DecidableEq, Repr

/-- Which user-level handler the thread runs while UT = 1. -/
inductive Running where
  | none | other | shed | resume
  deriving DecidableEq, Repr

/-- What a blocked thread that awaits a reply is waiting in (R306 asks). -/
inductive WaitKind where
  | load | atomic | request
  /-- A form of class wait that waits for a unit only shortly: `apply`, `mstop`, `sysc.nb`, `cch`. -/
  | unit
  | waitw | join | applyW | pbar | qput | qget | yield | resume | sysc | ringFull | ucfg | reset
  deriving DecidableEq, Repr

/-- A condition that a waiting instruction waits for. -/
inductive Cond where
  /-- The named posted counters are zero (R118). -/
  | counters (c h m : Bool)
  /-- Posted counter k (0 C, 1 H, 2 M) is below 1,024 (R117). -/
  | room (k : Nat)
  /-- No parcel of the thread to the place is still to be performed (R116). -/
  | clear (p : Place)
  /-- Every vector command of the thread is complete or recorded (R149). -/
  | vdone
  /-- Every vector command of the thread is complete (R177). -/
  | vgone
  /-- Every matrix command of the thread on the tiles of the mask is retired (R202, R208). -/
  | mdone (tiles : Nat)
  /-- Every matrix command of the thread is retired or recorded (R180). -/
  | mrec
  /-- Every transfer of the thread has ended (R230). -/
  | transfers
  /-- Every vector and matrix command of the thread is retired (R237). -/
  | engines
  /-- Every engine command and transfer of the thread has retired, ended or been recorded (R356). -/
  | job
  /-- The named thread can be saved (R309). -/
  | quiet (tid : Nat)
  /-- The core is no longer frozen (R307). -/
  | thawed (core : Nat)
  /-- No access of a partition to a page that meets n bytes from an address is on its way to a home (R113). -/
  | homed (part lo n : Nat)
  /-- The request of the instruction has come to its place with the data it carries and is performed there (R116), once the home that it
  names, if it names one, is no longer frozen (R307). -/
  | here (p : Place) (l : Loc) (data : List Nat) (home : Option Nat)
  /-- The events of the cc are over (R242). -/
  | soon
  deriving DecidableEq, Repr

/-- What a migration belongs to (R120): a form that writes 0 to a register at the target and charges an entry, an atomic that
is presented again at its home (R121), or balancing (R281). -/
inductive MigWhy where
  | form (d : GReg) (entry : Nat)
  | atomic
  | balance
  deriving DecidableEq, Repr

/-- Why a thread is out of rotation (R83, R85). -/
inductive Block where
  | none
  /-- The instruction at the pc has not issued: it is presented again at a position of the slot after the cc in which the condition
  comes to hold (R118). -/
  | until (c : Cond)
  /-- The instruction, with its word, has issued and completes in the cc in which the condition comes to hold (R85, R341). -/
  | await (c : Cond) (insn : BitVec 32)
  /-- A reply or wake completes the instruction. -/
  | reply (k : WaitKind)
  /-- The divide unit delivers v to gd and the flags in the cc `due` (R85), and charges the entry. -/
  | divide (due : Nat) (d : GReg) (v : Word) (flags entry : Nat)
  /-- A walk of the page number is in progress, or the thread is in walk-wait (R114). -/
  | walk (page : Nat)
  | walkWait (page : Nat)
  /-- `barw` and `barw.t` (R242): cluster scope or not, the core or cluster, barrier, phase, limit, destination and word. -/
  | barw (cluster : Bool) (unit bar : Nat) (phase : Bool) (limit : Option Word) (d : GReg) (insn : BitVec 32)
  /-- `barr.cl` until the arrival is applied (R249). -/
  | barr (d : GReg)
  | sleep (limit : Word) (d : GReg)
  | xwp (ch : Nat) (ptr : Word) (d : GReg)
  | xwait (ch seq : Nat) (d : GReg)
  /-- A vector command of the thread delivers a g register (R150). -/
  | vvalue
  /-- The gather unit fills the operand latch (R206). -/
  | latch
  /-- A migration whose request is on its way: the target core and what it belongs to (R120). -/
  | migrate (dest : Nat) (why : MigWhy)
  /-- Parked by a service trap in a fault record (R299). -/
  | parked (record : Nat)
  /-- No fault record was free (R300): the trap, its TPC and TSTAT2. -/
  | faultWait (code sub : Nat) (tval tpc tstat2 : Word)
  /-- A DOUBLE at service or monitor privilege (R301). -/
  | halted
  /-- Left rotation for `csave` or a resize (R309). -/
  | saving
  deriving DecidableEq, Repr

/-- A debug stop (R405). -/
inductive Stop where
  | none
  /-- By STOP, a breakpoint or an armed break. -/
  | stopped
  /-- By HALT alone (R406). -/
  | halted
  deriving DecidableEq, Repr

/-- The item a worker holds from a FARM's feed queue (R269). -/
structure HeldItem where
  queue : Nat
  item : Word
  requeued : Bool
  deriving DecidableEq, Repr

/-- A command of the vector engine with what it captured at issue (R150). -/
structure VCmd where
  ins : Instr
  word : BitVec 32
  uid : Nat
  tid : Nat
  owner : Nat
  priv : Nat
  x : Word := 0
  y : Word := 0
  vl : Nat := 64
  frm : Word := 8
  starter : Word := 0
  pos : Nat := 0
  beats : Nat := 0
  begun : Bool := false
  /-- uid of the matrix commands on its tile that entered before a `vacc` (R176). -/
  after : List Nat := []
  /-- The cc in which it entered the queue: its first beat comes in a later one (R150, R362). -/
  entered : Nat := 0
  /-- It goes to its thread's restart record once the beat in progress is done (R152). -/
  halting : Bool := false
  deriving DecidableEq, Repr

/-- A gate of a matrix command (R198): barrier and the phase in progress at issue. -/
structure Gate where
  bar : Nat
  phase : Bool
  deriving DecidableEq, Repr

/-- A command of the matrix engine with what it captured at issue (R191) and how far it has run. -/
structure MCmd where
  ins : Instr
  word : BitVec 32
  uid : Nat
  tid : Nat
  owner : Nat
  priv : Nat
  tile : Nat
  ga : Word := 0
  gb : Word := 0
  gd : Word := 0
  regs : MatRegs := {}
  gate : Option Gate := none
  /-- The gated phase has completed poisoned (some true) or clean (some false). -/
  opened : Option Bool := none
  begun : Bool := false
  blk : Nat := 0
  pa : Nat := 0
  pb : Nat := 0
  ea : Nat := 0
  eb : Nat := 0
  done : Nat := 0
  t : Map Int := []
  s : Map Int := []
  /-- Cycles left of the pass in progress, whose result `t`, `s` and `done` hold already (R193). -/
  left : Nat := 0
  /-- The pass in progress is the last one, and `t` holds the totals of every block. -/
  fin : Bool := false
  /-- The cc in which it entered the queue: its first pass or cycle comes in a later one (R194, R362). -/
  entered : Nat := 0
  /-- `mstop` waits for the end of its pass: the register it writes and how many others it cancelled (R208). -/
  stopping : Option (GReg × Nat) := none
  /-- Re-entered from a restart record, whose totals stand in the tile's continuation store (R199). -/
  resumed : Bool := false
  /-- It goes to its thread's restart record at the end of the pass in progress (R199). -/
  halting : Bool := false
  deriving DecidableEq, Repr

/-- The operand latch (R206): the command, the offsets of its gathered rows and, once filled, their bytes. -/
structure Latch where
  cmd : MCmd
  rows : List Nat
  data : Option (List Byte) := none
  deriving DecidableEq, Repr

/-- A receiver of an `xmc` (R235): core, bytes granted to beats, bytes whose granules are complete. -/
structure Receiver where
  core : Nat
  moved : Nat := 0
  comp : Nat := 0
  deriving DecidableEq, Repr

/-- Words of a transfer that have been read and not yet written (R136, R225): the receiver of an `xmc`, the place of the first byte,
each word with where it goes. With `granted` they are a beat on its way to a destination that is not the own LM; without, they have
come from another place, one access after another, for a beat that is still to be granted. -/
structure Flight where
  recv : Option Nat
  place : Nat
  words : List (Loc × Nat)
  granted : Bool
  /-- The home that a beat on its way goes to, and the first address and the size of the page (R113). -/
  home : Option (Nat × Nat × Nat) := none
  deriving DecidableEq, Repr

/-- A copy command with what it captured at issue (R224) and, once dispatched, how far the transfer has run. -/
structure Xfer where
  ins : Instr
  uid : Nat
  ch : Nat
  seq : Nat
  tid : Nat
  owner : Nat
  part : Nat
  sec : Bool
  priv : Nat
  regs : CopyRegs
  cw : Word
  idx : Word := 0
  root : Nat := 0
  /-- Bytes granted to beats, in the transfer's order, and bytes whose granules are complete. -/
  moved : Nat := 0
  comp : Nat := 0
  recv : List Receiver := []
  /-- Words read and not yet written, in the order of reading. -/
  flights : List Flight := []
  /-- `cout`: the slots of the leaves still to write, in the tree's byte order. -/
  leaves : List Nat := []
  total : Nat := 0
  kill : Bool := false
  /-- The R111 reason for which a node of the tree could not be read after those leaves. -/
  leafFail : Option Nat := none
  /-- A failure met at a granule: status and R111 reason; and the receiver of an `xmc` whose granule it is. -/
  fail : Option (Nat × Nat) := none
  failRecv : Option Nat := none
  /-- The cc of its dispatch or readmission: beats come in later ones (R225, R226). -/
  entered : Nat := 0
  /-- TIME of its latest beat or granule, or of the latest cc in which it waited for no other place (R229). -/
  at_ : Nat := 0
  deriving DecidableEq, Repr

/-- A core or cluster barrier (R240). -/
structure Barrier where
  lpois : Bool := false
  poison : Bool := false
  phase : Bool := false
  orph : Bool := false
  count : Nat := 0
  target : Nat := 0
  /-- The cc in which the nest placer has set it: a `bset` of that cc came before (R241). -/
  setAt : Option Nat := none
  deriving DecidableEq, Repr

/-- The address space of a range lock (R211). -/
inductive LockSpace where
  | lm (core : Nat)
  | pantry (hearth : Nat)
  | global
  deriving DecidableEq, Repr

/-- A registered range [lo, hi) (R211), in the order of registration. -/
structure Lock where
  space : LockSpace
  lo : Nat
  hi : Nat
  w : Bool
  uid : Nat
  /-- The cc of the last change and the bounds at its start, which checks in that cc still see (R214). -/
  at_ : Nat := 0
  lo0 : Nat := 0
  hi0 : Nat := 0
  /-- Which range of its command it belongs to, the cc of its registration, and its place among those of one cc. -/
  rng : Nat := 0
  reg : Nat := 0
  ord : Nat := 0
  deriving DecidableEq, Repr

/-- An owner meter (R340). -/
structure Meter where
  owner : Nat
  /-- Which of the core's 8 meters it is (R409). -/
  no : Nat := 0
  job : Bool := false
  rsent : Bool := false
  bsent : Bool := false
  meter : Nat := 0
  /-- The cc of the latest charge, for the counter signals of R409. -/
  last : Option Nat := none
  deriving DecidableEq, Repr

/-- A vector context (R142): element i of vk at 64k + i; m1 to m7. Unlisted is 0. -/
structure VCtx where
  holder : Option Nat := none
  v : Map (BitVec 32) := []
  m : Map Word := []
  deriving DecidableEq, Repr

/-- An accumulator tile (R178): element (i, n) at 16i + n; unlisted is 0. The continuation store holds T and S. -/
structure TileSt where
  holder : Option Nat := none
  el : Map Word := []
  eacc : Nat := 0
  mode : Nat := 3
  contT : Map Int := []
  contS : Map Int := []
  deriving DecidableEq, Repr

/-- A copy channel (R224, R227). -/
structure Channel where
  cur : Option Xfer := none
  xwp : Word := 0
  nextSeq : Nat := 1
  /-- The last eight transfers' SEQ and recorded status, latest first. -/
  hist : List (Nat × Nat) := []
  deriving DecidableEq, Repr

/-- A leaf page-table entry as a TLB holds it (R109, R112). -/
structure Leaf where
  part : Nat
  home : Nat
  tier : Nat
  cls : Nat
  r : Bool
  w : Bool
  x : Bool
  sec : Bool
  pa : Nat
  size : Nat
  deriving DecidableEq, Repr

/-- A cached translation of a partition: the first address of the page and its leaf. -/
structure TlbEntry where
  part : Nat
  base : Nat
  leaf : Leaf
  deriving DecidableEq, Repr

/-- A line of an L1 (R6, R115): its tier and its physical address, and the pages that it was brought in or reached for, each by its
partition, its first address and its size. -/
structure Line where
  tier : Nat
  pa : Nat
  pages : List (Nat × Nat × Nat)
  deriving DecidableEq, Repr

/-- A handler parcel (R277, R289, R396). -/
structure HandlerParcel where
  handler : Word
  args : List Word
  sender : Word
  starter : Word
  owner : Nat
  part : Nat
  sec : Bool
  /-- The handler's privilege: its creator's (R296). -/
  priv : Nat := 0
  deriving DecidableEq, Repr

/-- Standing of an owner on a core, as the core has applied it (R344, R351). -/
inductive OState where
  | admitted | suspended | degraded
  /-- RESUMING; the owner's work other than its steward keeps its shed state: suspended or, for false, degraded. -/
  | resuming (sus : Bool)
  deriving DecidableEq, Repr

/-- A counter cell (R409). -/
structure Cell where
  cfg : Word := 0
  cnt : Word := 0
  bins : List Nat := [0, 0, 0, 0, 0, 0, 0, 0]
  run : Nat := 0
  deriving DecidableEq, Repr

/-- The debug block of a core (R404). -/
structure Debug where
  halt : Bool := false
  /-- The cc of the HALT write, and whether HOLDENG was 1 then: the engines are held. -/
  haltAt : Nat := 0
  held : Bool := false
  /-- Slots named by STOP and the cc of the write, until they are released: a thread ID names a slot (R405). -/
  stops : Map Nat := []
  holdeng : Bool := false
  settled : Bool := false
  uread : Bool := false
  armbrk : Bool := false
  bp : List Word := [0, 0, 0, 0]
  sel : Word := 0
  /-- What the last read of RDATA gave. -/
  rdata : Word := 0
  cells : List Cell := List.replicate 16 {}
  deriving DecidableEq, Repr

/-- The reset couche of R80. -/
def resetCouche : List (Option Nat) :=
  [some 0, some 1, some 2, some 15, some 3, some 4, some 5, some 6, some 7, some 8, some 9, some 15, some 10, some 11,
   some 12, some 13, some 0, some 1, some 2, some 15, some 3, some 4, some 5, some 6, some 7, some 8, some 9, some 15,
   some 10, some 11, some 12, some 14]

/-- What `jbeg`, or `jend` with the register it writes, does to a meter at the end of its cc (R356). -/
structure JobOp where
  owner : Nat
  tid : Nat
  close : Option GReg
  deriving DecidableEq, Repr

/-- A core (R6). -/
structure Core where
  base : Nat := 0
  lastIssue : Option Nat := none
  lm : Memory := []
  poisoned : List Nat := []
  couche : List (Option Nat) := resetCouche
  /-- A staged couche and the cc in which barrier 63 has completed for it (R81). -/
  staged : Option (List (Option Nat) × Option Nat) := none
  bars : Map Barrier := []
  locks : List Lock := []
  vctx : List VCtx := List.replicate 4 {}
  vq : List VCmd := []
  /-- The latest cc in which the vector engine ran a beat, and the matrix engine a pass or a cycle: one each in a cc (R150, R193). -/
  vrun : Option Nat := none
  mrun : Option Nat := none
  tiles : List TileSt := List.replicate 8 {}
  mq : List MCmd := []
  /-- A cc, and how many entries of the matrix queue commands freed by being cancelled or discarded in it (R209). -/
  mqGone : Nat × Nat := (0, 0)
  latch : Option Latch := none
  xq : List Xfer := []
  chans : List Channel := List.replicate 4 {}
  lastCh : Nat := 3
  /-- The latest cc in which the copy engine granted a beat: one in a cc (R225). -/
  xrun : Option Nat := none
  meters : List Meter := []
  /-- Owner and thread of each instruction or engine command that has retired in this cc (R342), and the jobs that `jbeg` opens
  and `jend` closes at its end (R356). -/
  retired : List (Nat × Nat) := []
  jobs : List JobOp := []
  mode : Nat := 0
  fall : Bool := false
  from_ : Nat := 0
  ostate : Map OState := []
  tables : List (List Nat) := List.replicate 4 [0, 0, 1, 1, 4, 1, 1, 8]
  /-- How many changes of the arbiter the core has applied. -/
  applied : Nat := 0
  tlb : List TlbEntry := []
  /-- The lines of the L1, the one brought in or reached last at the head (R115, R131). -/
  l1 : List Line := []
  handlers : List HandlerParcel := []
  lastBal : Option Nat := none
  dbg : Debug := {}
  marks : List (Nat × BitVec 32) := []
  /-- The latest score-pulse tick that the core has latched, with run state and PC of its slots and the marks of that tick (R407). -/
  spTick : Nat := 0
  spSlots : Map (Nat × Word) := []
  spMarks : List (Nat × BitVec 32) := []
  mdrop : Nat := 0
  frozen : Bool := false
  lost : Bool := false
  /-- A CHECKPOINT has stopped the core's threads and engines (R387). -/
  ckpt : Bool := false
  deriving DecidableEq, Repr

/-- A cluster (R6). -/
structure Cluster where
  bars : Map Barrier := []
  tlb : List TlbEntry := []
  kload : Word := 0
  spareUsed : Bool := false
  deriving DecidableEq, Repr

/-- A page walk in progress (R114): the partition, the 64 KiB page number and the threads merged into it. -/
structure Walk where
  part : Nat
  page : Nat
  tids : List Nat
  deriving DecidableEq, Repr

/-- A hearth (R6) and its score-pulse block (R403). -/
structure Hearth where
  walks : List Walk := []
  srbase : Word := 0
  srlen : Nat := 0
  srwr : Nat := 0
  srrd : Nat := 0
  drops : Nat := 0
  /-- The latest tick of which the collector has made a record, or dropped it. -/
  spDone : Nat := 0
  /-- The crumb index cache: partition, name and slot of each copy of a mapping (R322). -/
  crumbs : List (Nat × Nat × Nat) := []
  /-- The previous record written: state and PC by core and slot. -/
  prev : Map (Nat × Word) := []
  full : Bool := true
  deriving DecidableEq, Repr

/-- Kinds of an atomic (R127). -/
inductive AmoKind where
  | add | and | or | xor | min | max | minn | maxn | swap | cas
  deriving DecidableEq, Repr

/-- Kinds of a reduction (R128). -/
inductive RedKind where
  | add | and | or | xor | min | max
  deriving DecidableEq, Repr

/-- What a parcel does at its target. -/
inductive Access where
  | store (n v : Nat)
  | red (k : RedKind) (n v : Nat)
  | load (n : Nat) (z : Sz) (d : GReg)
  | amo (k : AmoKind) (n b e : Nat) (d : GReg)
  | arrive (core bar : Nat)
  | clArrive (cluster bar : Nat)
  | handler (core : Nat) (h : HandlerParcel)
  | wake (tid : Nat)
  /-- The instruction of the word that the parcel carries acts at the place: a queue, a callable entry, a ring entry, a waiter, a root
  cell or a crumb unit (R252 to R259, R303, R326). It takes n bytes for the checks at the place, writes or not, and carries words read at
  its issue. -/
  | op (n : Nat) (write : Bool) (data : List Nat)
  deriving DecidableEq, Repr

/-- A synchronous trap's code, value and sub-cause (R297). -/
structure TrapInfo where
  code : Nat
  sub : Nat := 0
  tval : Word
  deriving DecidableEq, Repr

/-- A reply or wake on its way to a blocked thread: g registers to write, or a trap to raise; then the instruction
retires and charges the named entry of the charge table. -/
structure Reply where
  tid : Nat
  writes : List (Nat × Word) := []
  trap : Option TrapInfo := none
  insn : BitVec 32 := 0
  entry : Nat := 0
  held : Option HeldItem := none
  /-- It answers an access that the thread's own core performs, which no parcel has carried (R37, R115). -/
  own : Bool := false
  deriving DecidableEq, Repr

/-- Who a waiter wakes (R252, R378). -/
inductive Waker where
  | thread (tid : Nat) (d : GReg)
  | host (part slot : Nat)
  deriving DecidableEq, Repr

/-- A waiter on a doubleword (R252); refused when the place had no entry. -/
structure Waiter where
  who : Waker
  part : Nat
  place : Place
  loc : Loc
  cond : WCond
  operand : Word
  refused : Bool := false
  /-- TIME of its latest sending. -/
  sentAt : Nat := 0
  /-- A host wake whose condition has held, with the value (R378). -/
  fired : Option Word := none
  deriving DecidableEq, Repr

/-- A putter or getter waiting at a queue (R255), with what it does next (R291). -/
structure QWait where
  tid : Nat
  item : Word := 0
  d : GReg := 0
  b : GReg := 0
  /-- Queue to take from once the item is put: `yield` and `resume`. -/
  next : Option Nat := none
  kind : WaitKind
  deriving DecidableEq, Repr

/-- A hardware queue (R253, R254). -/
structure Queue where
  live : Bool := false
  nest : Bool := false
  closed : Bool := false
  depth : Nat := 0
  items : List Word := []
  putters : List QWait := []
  getters : List QWait := []
  /-- The thread that put each item; 2^18 for a unit. -/
  senders : List Nat := []
  /-- Items put back once by RETRY (R269). -/
  requeued : List Word := []
  deriving DecidableEq, Repr

/-- Standing of a node of a nest (R266). -/
inductive NodeSt where
  | waiting | running | done | failed
  deriving DecidableEq, Repr

/-- An armed host wake's command (R378), or any host command not yet complete: slot address and command D0. -/
structure HostWake where
  slot : Nat
  d0 : Word
  deriving DecidableEq, Repr

/-- An entry of an applied tree (R263 to R272), with the sixteen doublewords read at `apply`. A FARM holds one team node for
each worker. -/
structure Node where
  parent : Option Nat
  entry : Nat
  words : List Nat
  starter : Word := 0
  mprec : Word := 0x7700
  mfmt : Word := 0x0707
  mscale : Word := 0
  children : List Nat := []
  st : NodeSt := .waiting
  iter : Nat := 0
  stage : Nat := 0
  inq : Word := 0
  outq : Word := 0
  /-- The team's slots in rank order, its barrier and its record. -/
  place : List Nat := []
  bar : Nat := 0
  record : Nat := 0
  /-- The queues of a PIPE, a root FARM or a root CORO, in the order of their numbers under R268. -/
  queues : List Nat := []
  /-- A thread of the team has failed (R273). -/
  bad : Bool := false
  deriving DecidableEq, Repr

/-- A nest (R256) with what it reserved (R264), and the threads in `join` on it. -/
structure Nest where
  record : Nat
  applier : Option Nat
  owner : Nat
  sec : Bool
  nodes : List Node
  slots : List Nat := []
  bars : List (Nat × Nat) := []
  records : List Nat := []
  queues : List Nat := []
  failed : Nat := 0
  aborted : Bool := false
  complete : Bool := false
  /-- LOOPs whose verdict is to be loaded (R270). -/
  verdicts : List Nat := []
  joiners : List (Nat × GReg) := []
  /-- Items that workers held when `csave` saved them: the team's node, the rank and the item (R269). -/
  saved : List (Nat × Nat × HeldItem) := []
  host : Option HostWake := none
  deriving DecidableEq, Repr

/-- A request to the nest placer (R265): from a thread, or from a host command. A waiting one keeps the tree it read. -/
structure ApplyReq where
  tid : Option Nat
  host : Option HostWake := none
  waitDone : Bool := false
  entry : Nat
  wait : Bool := false
  d : GReg := 0
  owner : Nat
  sec : Bool
  start : Nat
  starter : Word
  mprec : Word := 0x7700
  mfmt : Word := 0x0707
  mscale : Word := 0
  tree : List Node := []
  deriving DecidableEq, Repr

/-- A crumb's index entry (R322, R323): the slot, class (1 leaf, 2 node), depth, count; LIVE or DYING. -/
structure Crumb where
  name : Nat
  slot : Nat
  cls : Nat
  depth : Nat
  count : Nat
  live : Bool
  deriving DecidableEq, Repr

/-- The crumb store of a partition as captured (R320, R321). -/
structure CrumbStore where
  en : Bool := false
  sbase : Nat := 0
  nslot : Nat := 0
  ipa : Nat := 0
  homes : List Nat := []
  ib : Nat := 0
  crumbs : List Crumb := []
  deriving DecidableEq, Repr

/-- A virtual or physical function's command registers (R368, R373). -/
structure VF where
  vcpaddr : Word := 0
  run : Bool := false
  ovr : Bool := false
  pgerr : Bool := false
  cidx : Nat := 0
  pidx : Nat := 0
  /-- Commands accepted whose RESULT is still to be written, WAKE aside, in the order of their starts, with status and detail of those
  that have ended (R376). -/
  opened : List (HostWake × Option (Nat × Nat)) := []
  deriving DecidableEq, Repr

/-- A partition (R382), with the state of its placing hearth's units. -/
structure Partition where
  sec : Bool
  clusters : List Nat
  svc : Nat
  root : Nat
  kernel : Word
  /-- Share size in bytes by hearth; not listed: no share. -/
  shares : Map Nat
  starter : Word := 0
  balancing : Bool := false
  podIds : List Nat := []
  facc : Word := 0
  flock : Bool := false
  queues : Map Queue := []
  /-- Fault records in use and by whom; numbers still to put into the fault queue; threads in fault-wait, in order. -/
  faults : Map Nat := []
  faultPut : List Nat := []
  faultWait : List Nat := []
  /-- Ring entries in use and by whom; callers parked for want of an entry, in order, with call number. -/
  ring : Map Nat := []
  /-- Ring entries whose numbers are still to be put into the system-call queue. -/
  ringPut : List Nat := []
  ringWait : List (Nat × Word) := []
  nests : List Nest := []
  /-- Requests on their way to the placer, and `apply.w` requests that wait, in arrival order. -/
  applies : List ApplyReq := []
  waiting : List ApplyReq := []
  released : Bool := false
  store : CrumbStore := {}
  wakes : Map HostWake := []
  /-- DEADLOCK has been raised and no thread has been ready since; and its TVAL while no thread of the service core has taken it. -/
  deadRaised : Bool := false
  deadlock : Option Word := none
  /-- A CHECKPOINT with HALT keeps the threads stopped until RESET (R387). -/
  halted : Bool := false
  /-- Size of the largest .pantry image loaded (R385). -/
  pantryImage : Nat := 0
  deriving DecidableEq, Repr

/-- State of an owner at the arbiter (R343). -/
inductive AState where
  | admitted | shed | resuming
  deriving DecidableEq, Repr

/-- An owner record (R336) with the owner's state at the arbiter. -/
structure OwnerRec where
  level : Nat := 0
  pol : Bool := false
  share : Nat := 1
  xbw : Nat := 4
  mcap : Nat := 4
  live : Bool := false
  part : Nat := 0
  table : Nat := 0
  c : List Nat := [0, 0, 0, 0]
  shpc : Word := 0
  sv : Bool := false
  stid : Nat := 0
  st : AState := .admitted
  deriving DecidableEq, Repr

/-- A change of the arbiter as the hearth relays carry it, in the arbiter's order (R343). -/
inductive Change where
  | mode (m : Nat) (fall : Bool) (from_ : Nat)
  | shed (owner raiser : Nat) (cfg : Bool)
  | resume (owner : Nat) (cfg : Bool)
  | readmit (owner : Nat)
  | table (k : Nat) (w : List Nat)
  | own (owner : Nat)
  | dwell
  deriving DecidableEq, Repr

/-- A `ucfg` change on its way to the arbiter (R360): the issuing thread and the register it writes, or the command of a host (R381). -/
inductive UcfgWho where
  | thread (tid : Nat) (d : GReg)
  | host (w : HostWake)
  deriving DecidableEq, Repr

/-- What a `ucfg` change changes: an owner's record by its descriptor, a charge table, DWELL. -/
inductive UcfgWhat where
  | own (owner : Nat) (d : List Word)
  | table (k : Nat) (w : List Nat)
  | arb (dwell : Nat)
  deriving DecidableEq, Repr

/-- A `ucfg` change. -/
structure UcfgReq where
  who : UcfgWho
  what : UcfgWhat
  deriving DecidableEq, Repr

/-- A meter as the arbiter's fall check sees it, stamped with TIME (R349). -/
structure MeterMark where
  time : Nat
  core : Nat
  owner : Nat
  job : Bool
  meter : Nat
  deriving DecidableEq, Repr

/-- The urgency arbiter (R343). -/
structure Arbiter where
  mode : Nat := 0
  falling : Bool := false
  from_ : Nat := 0
  traise : Nat := 0
  dwell : Nat := 10000
  owners : Map OwnerRec := []
  /-- Raise signals on their way: core, owner, mode. -/
  raises : List (Nat × Nat × Nat) := []
  /-- Readmission reports on their way. -/
  reports : List Nat := []
  /-- `ucfg` changes that the arbiter has answered: the issuer, the length of the log that every core has to have applied before the
  form completes, and its code (R360). -/
  relay : List (UcfgWho × Nat × Nat) := []
  /-- Every change made, oldest first: what one event of the arbiter changes is one entry, which a core applies whole. -/
  log : List (List Change) := []
  /-- `ucfg` changes on their way (R360). -/
  ucfg : List UcfgReq := []
  /-- TIME of the latest fall check. -/
  lastCheck : Option Nat := none
  /-- TIME at which a raise was last signalled. -/
  lastRaise : Option Nat := none
  /-- Owners readmitted or RESUMING at the last fall step (R352). -/
  step : List Nat := []
  hist : List MeterMark := []
  deriving DecidableEq, Repr

/-- A pod barrier of the module (R245, R399). -/
structure PodBar where
  target : Nat := 0
  count : Nat := 0
  local_ : Bool := false
  sent : Bool := false
  /-- Threads in `pbar` and the register each writes. -/
  waiting : List (Nat × GReg) := []
  /-- Member modules, by pod configuration; none listed: this module alone. -/
  members : List Nat := []
  /-- Members whose forwarded arrival has come. -/
  arrived : List Nat := []
  deriving DecidableEq, Repr

/-- A signal-fabric link (R397, R400). -/
structure Link where
  up : Bool := false
  delay : Nat := 0
  high : Option Word := none
  /-- The ns at which the latest time flit and time-high flit were sent. -/
  lowAt : Nat := 0
  highAt : Nat := 0
  /-- Flits sent, latest last. -/
  out : List Word := []
  deriving DecidableEq, Repr

/-- An Ethernet message or a trigger (R394): one that this module sends, from its descriptor's taking to its end, or one that
it receives, from its first packet to its last. -/
structure Message where
  sending : Bool
  /-- Number that the sender gave it, and the module at the other end. -/
  id : Nat
  peer : Nat
  /-- The partition and endpoint on this module; for a message sent, also those of the destination. -/
  part : Nat
  ep : Nat
  dstPart : Nat := 0
  dstEp : Nat := 0
  /-- Of a message sent: the VA of its descriptor, the core of the sending thread, the completion doubleword, the bytes. -/
  desc : Word := 0
  core : Nat := 0
  cw : Word := 0
  bytes : List Byte := []
  sentAt : Nat := 0
  /-- What the receiver has reported, for a message to this module itself. -/
  code : Option Nat := none
  /-- The source and the number of the handler parcel whose queueing that report still waits for (R398). -/
  trig : Option (Nat × Nat) := none
  len : Nat
  tag : Nat
  roff : Nat
  sigf : Bool := false
  /-- Of a message received: offset and length of each packet placed. -/
  placed : List (Nat × Nat) := []
  deriving DecidableEq, Repr

/-- A checkpoint slot (R386): a TIME stamp, a valid bit, the page map and the images. -/
structure CkptSlot where
  valid : Bool := false
  time : Nat := 0
  /-- The partitions with what their pantry regions hold beside bytes: queues, records, entries, nests, crumbs. -/
  parts : Map Partition := []
  /-- Context images by thread ID. -/
  threads : Map (List Word) := []
  lms : Map Memory := []
  shares : List ((Nat × Nat) × Memory) := []
  /-- The page map: first byte and size of each HBM page, and the bytes of those pages. -/
  map : List (Nat × Nat) := []
  pages : Memory := []
  deriving DecidableEq, Repr

/-- A checkpoint in progress (R387): its command, the reserve slot, HALT and the partitions in scope. -/
structure CkptReq where
  fn : Nat
  w : HostWake
  slot : Nat
  halt : Bool
  parts : List Nat
  deriving DecidableEq, Repr

/-- A COPY in progress (R377): its command, addresses, length and the bytes moved. -/
structure HostCopy where
  part : Nat
  w : HostWake
  src : Word
  dst : Word
  len : Nat
  srcHost : Bool
  dstHost : Bool
  moved : Nat := 0
  /-- Bytes that have been read and are still to be written (R136). -/
  flight : Option (List Nat) := none
  deriving DecidableEq, Repr

/-- A PRESIZE in progress (R385): its command, the new clusters and shares, the TIME of its start, and the images written. -/
structure Resize where
  part : Nat
  w : HostWake
  clusters : List Nat
  shares : Map Nat
  start : Nat
  images : Nat := 0
  /-- Offset of the lowest image, or the share's end. -/
  low : Nat
  deriving DecidableEq, Repr

/-- The firmware column and the physical function (R365 to R380). -/
structure Firmware where
  ctl : Option Nat := none
  boot : Nat := 0
  hdmerr : Bool := false
  therm : Bool := false
  hosts : List Nat := []
  /-- The host links, 16 and 17, that each host is on; a host that is not listed is on both (R365). -/
  hostLinks : Map (List Nat) := []
  lossAt : Option Nat := none
  /-- Module flash: the configuration tables of slots A and B. -/
  flashA : List Byte := []
  flashB : List Byte := []
  version : Nat := 0
  width : Nat := 1
  roles : List Nat := []
  imgbase : Nat := 0
  rsvbase : Nat := 0
  rsvsize : Nat := 0
  foffer : Word := 1
  /-- Exported 2 MiB granules of the HDM range and the host each is exported to (R366). -/
  exports : List (Nat × Nat) := []
  hdmbase : Nat := 0
  vfs : Map VF := []
  pf : VF := {}
  /-- Interrupts sent: function and vector. -/
  irqs : List (Nat × Nat) := []
  /-- Reports of halted threads (R301): thread and whether to the board controller. -/
  reports : List (Nat × Bool) := []
  slots : List CkptSlot := [{}, {}]
  ckpts : List CkptReq := []
  copies : List HostCopy := []
  resizes : List Resize := []
  /-- What the last host read through the HDM range returned, none for a byte marked poisoned (R366). -/
  hdmRead : Option (List (Option Byte)) := none
  deriving DecidableEq, Repr

/-- A thread: the program state resident in one slot (R2, R257). -/
structure Thread where
  g : Vector Word 32 := Vector.replicate 32 0
  pc : Word := 0
  part : Nat := 0
  owner : Nat := 0
  sec : Bool := false
  ut : Bool := false
  priv : Nat := 0
  trap : TrapRegs := {}
  fp : VecRegs := {}
  mat : MatRegs := {}
  mstat : Word := 0
  cp : CopyRegs := {}
  pcntC : Nat := 0
  pcntH : Nat := 0
  pcntM : Nat := 0
  errC : Option ErrMark := none
  errH : Option ErrMark := none
  errM : Option ErrMark := none
  seq : Nat := 0
  stageNo : Nat := 0
  ep : Bool := false
  /-- The cc in which a `sleep` took EP: a wake of that cc came before it (R294). -/
  sleptAt : Option Nat := none
  team : Option TeamRef := none
  pop : Option PopRef := none
  pend : List Pending := []
  shedPend : Option Word := none
  resumePend : Option Word := none
  superPend : Option Word := none
  /-- TPC and TSTAT2 as they were saved at the latest RESUME entry (R352). -/
  saved : Word × Word := (0, 0)
  budgetPend : Option Word := none
  poison : List Nat := []
  /-- Machine checks that the thread takes at its next instructions, in order (R307, R310). -/
  mcheck : List TrapInfo := []
  handling : Handling := .none
  counted : Nat := 0
  alwx : Bool := false
  running : Running := .none
  block : Block := .none
  stop : Stop := .none
  readyAt : Nat := 0
  held : Option HeldItem := none
  /-- A walk's failing result for a page (R114): page number and reason. -/
  walkRes : Option (Nat × Nat) := none
  /-- The home has refused the migration of the atomic at the pc, which goes as a request parcel (R121). -/
  noMig : Bool := false
  vrec : List VCmd := []
  mrec : List MCmd := []
  deriving DecidableEq, Repr

/-- A parcel that has left its source and is not yet acknowledged (R122). Sources from 2^18 up are not threads. `seq` counts the parcels of
a source; the number that a parcel carries is its 16 low bits (log 90). -/
structure Parcel where
  src : Nat
  seq : Nat
  part : Nat
  place : Place
  loc : Loc
  acc : Access
  /-- Counter raised: 0 C, 1 H, 2 M, 3 none. -/
  ctr : Nat
  va : Word
  /-- The word of the instruction that waits for the reply. -/
  insn : BitVec 32 := 0
  /-- The page of an access at a home: its first address and size. -/
  page : Nat × Nat := (0, 0)
  /-- Copies and acknowledgements on their way; TIME of the first and of the latest sending. -/
  copies : Nat := 1
  acks : Nat := 0
  firstAt : Nat := 0
  lastAt : Nat := 0
  performed : Bool := false
  held : Bool := false
  refused : Bool := false
  err : Option Nat := none
  /-- The thread that has issued a request to a unit and has ended since (R273, R141). -/
  ended : Option Thread := none
  deriving DecidableEq, Repr

/-- An effect that a store performed at a pantry pipe has in the same cc; the step runs its row before the next turn. -/
inductive Urgent where
  | queueCreate (part q : Nat)
  | queueRemove (part q : Nat)
  | verdict (part record : Nat)
  | syscall (part entry : Nat)
  | crumbOn (part : Nat)
  | crumbOff (part : Nat)
  deriving DecidableEq, Repr

/-- What a turn of a cc does: the slot that a core's couche names issues; an event of the table happens; an awaiting instruction
completes; the request of an ended thread has acted; the conditions that instructions wait for are looked at; the arrivals of the cc are
applied; what awaits the events of the cc goes on; the counter cells of a core count; the arbiter makes the `ucfg` changes that have come; the
cc ends. -/
inductive Act where
  | issue (core : Nat)
  | event (i : Instr)
  | await (tid : Nat)
  | gone (tid : Nat)
  /-- A row that resets a partition, once the requests on their way have acted: RESET, FUNCTION_LEVEL_RESET or PDESTROY. -/
  | again (part : Nat) (k : Fin 3)
  | waits
  | arrivals
  | soon
  | cells (core : Nat)
  | ucfg
  | tick
  deriving DecidableEq, Repr

/-- A thread on its way to the slot it was granted (R120), and the slot that it has left. -/
structure Move where
  t : Thread
  why : MigWhy
  slot : Nat
  origin : Nat
  deriving DecidableEq, Repr

/-- The whole module. -/
structure State where
  /-- Core cycles since module reset. -/
  cc : Nat := 0
  /-- TIME (R9). -/
  time : Nat := 0
  /-- 18ths of the ns in progress: 18 cc are 5 ns (R9). -/
  tphase : Nat := 0
  /-- Events whose moment the spec leaves free, as they come in each cc from the next on. With none laid down, everything that is
  on its way comes. -/
  agenda : List (List Instr) := []
  /-- What is left of this cc, in the order of R116, R241 and R343. -/
  turns : List Act := []
  urgent : List Urgent := []
  /-- Arrivals of copies, parcels and units in this cc that are to be applied (R241): place in its order, core, barrier, poison. -/
  arrs : List (Nat × Nat × Nat × Bool) := []
  /-- Teams, by partition, nest record and node, whose barriers and threads are written at the start of the next cc (R241, R267). -/
  starts : List (Nat × Nat × Nat) := []
  /-- Cores that a `cch` has reached, with the TARGET of barrier 63, set and arrived at, at the start of the next cc (R241, R315). -/
  sets : List (Nat × Nat) := []
  /-- Decrements, by partition and name, that are held for a frozen home (R307, R325). -/
  drops : List (Nat × Nat) := []
  /-- The thread whose instruction is being executed, and the word it is. -/
  cur : Nat := 0x1F0
  ir : BitVec 32 := 0
  /-- What has happened in this cc on the cores, by core and raw signal of R409, for their counter cells. -/
  signals : List (Nat × Nat) := []
  /-- Index of the next free value. -/
  fresh : Nat := 0
  /-- Number of the next engine command. -/
  uid : Nat := 0
  threads : Map Thread := []
  moving : List Move := []
  cores : Map Core := []
  clusters : Map Cluster := []
  hearths : Map Hearth := []
  parts : Map Partition := []
  hbm : Memory := []
  far : Memory := []
  host : Memory := []
  shares : List ((Nat × Nat) × Memory) := []
  parcels : List Parcel := []
  /-- 64-byte lines, by their first byte, in which an uncorrectable error stands (R119): an input, which no row changes. -/
  errors : List Loc := []
  replies : List Reply := []
  waiters : List Waiter := []
  /-- Wakes of `waitw` on their way (R252). -/
  wakes : List Reply := []
  arb : Arbiter := {}
  fw : Firmware := {}
  pods : Map PodBar := []
  links : List Link := List.replicate 6 {}
  timeSet : Bool := false
  /-- The next count of TIME is omitted; TIME of the latest correction (R400). -/
  timeOmit : Bool := false
  timeAdj : Nat := 0
  /-- The ns in progress follows an omitted count, so that no core's sample of TIME goes back in it (R9, R400). -/
  timeHeld : Bool := false
  /-- ns since module reset, whatever TIME is set to. -/
  ns : Nat := 0
  /-- Pod configuration: the time master, this module, and the modules in each dimension of the torus (R16, R399). -/
  master : Nat := 0
  modId : Nat := 0
  dims : List Nat := [16, 16, 8]
  msgs : List Message := []
  /-- Sender and number of each message received whole or refused: a packet that is sent again is not placed (R392). -/
  heard : List (Nat × Nat) := []
  spEn : Bool := false
  spP : Nat := 16
  /-- Ticks up to here do not count: they came before EN or the period was written (R407). -/
  spLast : Nat := 0
  /-- Far-tier ports and the host link (port 16) that are down (R111). -/
  down : List Nat := []
  deriving DecidableEq, Repr

/-- The reasons a step can stop with a fault. -/
inductive Fault where
  /-- Raised by the meaning of an instruction word when the slot named by `cur` holds no thread. Safe: no hardware slot
  issues without a thread. -/
  | noThread
  /-- Raised by an access to physical memory beyond the capacities of R8, which the module does not have. Safe. -/
  | noMemory (tier pa : Nat)
  deriving DecidableEq, Repr

/-- The reasons a step can be refused. -/
inductive Refusal where
  /-- Raised by an arm of the dispatch whose instruction has no meaning yet. Safe. -/
  | notModelled (mnemonic : String)
  deriving DecidableEq, Repr

/-- The answer of a step. -/
abbrev Out := Host.Outcome State Fault Refusal

/-- The module right after reset: every structure at the reset value its fields name, no partition, no thread. -/
def State.reset : State := {}

end Sys2Proof.Machine
end

