-- ==== Sys2Proof/Machine/Ops.lean ====
section
/-! DEFINITION. The named operations over tables, memory, registers, meters, posted counters and blocked threads, and
taking a trap and returning from one, each once for every instruction that uses it. -/

namespace Sys2Proof.Machine

/-! ### Tables -/

/-- The value listed for a key. -/
def Map.look {α : Type} : Map α → Nat → Option α
  | [], _ => none
  | (k, v) :: m, a => if k = a then some v else Map.look m a

/-- Lists a value for a key, in key order. -/
def Map.put {α : Type} : Map α → Nat → α → Map α
  | [], a, x => [(a, x)]
  | (k, v) :: m, a, x => if a < k then (a, x) :: (k, v) :: m else if k = a then (a, x) :: m else (k, v) :: Map.put m a x

/-- Unlists a key. -/
def Map.drop {α : Type} : Map α → Nat → Map α
  | [], _ => []
  | (k, v) :: m, a => if k = a then Map.drop m a else (k, v) :: Map.drop m a

/-- Lists a value, or unlists the key when the value is the one an unlisted key stands for. -/
def Map.store {α : Type} [DecidableEq α] (m : Map α) (a : Nat) (x zero : α) : Map α :=
  if x = zero then Map.drop m a else Map.put m a x

/-- Replaces every value. -/
def Map.over {α : Type} (m : Map α) (f : Nat → α → α) : Map α := m.map fun p => (p.1, f p.1 p.2)

/-- The first n numbers from a. -/
def numsFrom : Nat → Nat → List Nat
  | _, 0 => []
  | a, n + 1 => a :: numsFrom (a + 1) n

/-- The lowest number from a below a + n that the list does not hold. -/
def lowestFree (used : List Nat) : Nat → Nat → Option Nat
  | _, 0 => none
  | a, n + 1 => if used.contains a then lowestFree used (a + 1) n else some a

/-- Replaces element n of a list. -/
def setAt {α : Type} : List α → Nat → α → List α
  | [], _, _ => []
  | _ :: l, 0, x => x :: l
  | y :: l, n + 1, x => y :: setAt l n x

/-! ### Memory -/

/-- The byte at an address; a byte that nothing has written reads 0. -/
def Memory.byte (m : Memory) (a : Nat) : Byte := (Map.look m a).getD 0

/-- Writes one byte, keeping the canonical form. -/
def Memory.setByte (m : Memory) (a : Nat) (b : Byte) : Memory := Map.store m a b 0

/-- The n bytes from a as a little-endian number (R17). -/
def Memory.read (m : Memory) (a : Nat) : Nat → Nat
  | 0 => 0
  | n + 1 => (m.byte a).toNat + 256 * Memory.read m (a + 1) n

/-- Writes the n low bytes of v from a, little-endian (R17). -/
def Memory.write (m : Memory) (a : Nat) : Nat → Nat → Memory
  | 0, _ => m
  | n + 1, v => Memory.write (m.setByte a (BitVec.ofNat 8 v)) (a + 1) n (v / 256)

/-- The canonical form: addresses strictly rising and no byte that an unlisted address reads as. -/
def Memory.wf : Memory → Bool
  | [] => true
  | [(_, b)] => b != 0
  | (a, b) :: (a', b') :: m => b != 0 && decide (a < a') && Memory.wf ((a', b') :: m)

/-- Drops every byte from the limit on. -/
def Memory.below (m : Memory) (limit : Nat) : Memory := m.filter fun c => decide (c.1 < limit)

/-- The memory of a partition's share of a hearth's pantry. -/
def shareMem : List ((Nat × Nat) × Memory) → Nat × Nat → Memory
  | [], _ => []
  | (k, m) :: l, a => if k = a then m else shareMem l a

/-- Replaces the memory of a share. -/
def setShareMem : List ((Nat × Nat) × Memory) → Nat × Nat → Memory → List ((Nat × Nat) × Memory)
  | [], a, x => [(a, x)]
  | (k, m) :: l, a, x => if k = a then (k, x) :: l else (k, m) :: setShareMem l a x

/-! ### Identifiers (R10, R11) -/

/-- Core of a thread ID. -/
def coreOf (tid : Nat) : Nat := tid / 16
/-- Slot of a thread ID. -/
def slotOf (tid : Nat) : Nat := tid % 16
/-- Cluster of a core ID, numbered over the module. -/
def clusterOf (core : Nat) : Nat := core / 16
/-- Hearth of a core ID. -/
def hearthOf (core : Nat) : Nat := core / 1024

/-! ### Parts of the state -/

/-- A core; one that is not listed is as after reset. -/
def State.core (s : State) (c : Nat) : Core := (s.cores.look c).getD {}
/-- Replaces a core. -/
def State.setCore (s : State) (c : Nat) (x : Core) : State := { s with cores := s.cores.put c x }
/-- A cluster. -/
def State.cluster (s : State) (c : Nat) : Cluster := (s.clusters.look c).getD {}
/-- Replaces a cluster. -/
def State.setCluster (s : State) (c : Nat) (x : Cluster) : State := { s with clusters := s.clusters.put c x }
/-- A hearth. -/
def State.hearth (s : State) (h : Nat) : Hearth := (s.hearths.look h).getD {}
/-- Replaces a hearth. -/
def State.setHearth (s : State) (h : Nat) (x : Hearth) : State := { s with hearths := s.hearths.put h x }
/-- A partition, if it exists. -/
def State.part (s : State) (p : Nat) : Option Partition := s.parts.look p
/-- Replaces a partition. -/
def State.setPart (s : State) (p : Nat) (x : Partition) : State := { s with parts := s.parts.put p x }
/-- The thread in a slot, if there is one. -/
def State.thread (s : State) (tid : Nat) : Option Thread := s.threads.look tid
/-- Writes a thread into a slot. -/
def State.setThread (s : State) (tid : Nat) (t : Thread) : State := { s with threads := s.threads.put tid t }
/-- Changes the thread in a slot; an empty slot stays empty. -/
def State.modThread (s : State) (tid : Nat) (f : Thread → Thread) : State :=
  match s.thread tid with
  | some t => s.setThread tid (f t)
  | none => s
/-- Changes a core. -/
def State.modCore (s : State) (c : Nat) (f : Core → Core) : State := s.setCore c (f (s.core c))
/-- Changes a partition; a number that names none is left. -/
def State.modPart (s : State) (p : Nat) (f : Partition → Partition) : State :=
  match s.part p with
  | some x => s.setPart p (f x)
  | none => s
/-- Changes the arbiter. -/
def State.modArb (s : State) (f : Arbiter → Arbiter) : State := { s with arb := f s.arb }
/-- Changes the firmware column. -/
def State.modFw (s : State) (f : Firmware → Firmware) : State := { s with fw := f s.fw }
/-- The number of the next engine command. -/
def State.nextUid (s : State) : State := { s with uid := s.uid + 1 }
/-- Changes every thread. -/
def State.allThreads (s : State) (f : Nat → Thread → Thread) : State := { s with threads := s.threads.over f }

/-- The memory of a space. -/
def State.mem (s : State) : Space → Memory
  | .lm c => (s.core c).lm
  | .share p h => shareMem s.shares (p, h)
  | .phys t => if t = 0 then s.hbm else if t = 1 then s.far else s.host

/-- Replaces the memory of a space. -/
def State.setMem (s : State) (sp : Space) (m : Memory) : State :=
  match sp with
  | .lm c => s.modCore c fun x => { x with lm := m }
  | .share p h => { s with shares := setShareMem s.shares (p, h) m }
  | .phys t => if t = 0 then { s with hbm := m } else if t = 1 then { s with far := m } else { s with host := m }

/-- A core of the partition (R12). -/
def Partition.hasCore (p : Partition) (c : Nat) : Bool := p.clusters.contains (clusterOf c) && decide (c < 16384)

/-- A core of the partition other than its service core. -/
def Partition.worker (p : Partition) (c : Nat) : Bool := p.hasCore c && c != p.svc

/-- The partition's placing hearth (R259). -/
def Partition.placing (p : Partition) : Nat := hearthOf p.svc

/-- The partition's cores in ascending ID, without the service core: partition core indices (R377). -/
def Partition.coreList (p : Partition) : List Nat :=
  ((p.clusters.map fun c => numsFrom (16 * c) 16).flatten).filter fun c => c != p.svc

/-- Threads in the slots of a core, by thread ID. -/
def State.onCore (s : State) (c : Nat) : List (Nat × Thread) := s.threads.filter fun p => coreOf p.1 == c

/-- Threads of a partition. -/
def State.ofPart (s : State) (p : Nat) : List (Nat × Thread) := s.threads.filter fun q => q.2.part == p

/-! ### Registers -/

/-- g0 reads as zero (R19). -/
def Thread.rd (t : Thread) (r : GReg) : Word := if r = 0 then 0 else t.g[r]
/-- A value written to g0 is discarded (R19). -/
def Thread.wr (t : Thread) (r : GReg) (v : Word) : Thread := if r = 0 then t else { t with g := t.g.set r v }
/-- A g register by number. -/
def Thread.rdN (t : Thread) (r : Nat) : Word := t.rd ⟨r % 32, Nat.mod_lt _ (by decide)⟩
/-- Writes a g register by number. -/
def Thread.wrN (t : Thread) (r : Nat) (v : Word) : Thread := t.wr ⟨r % 32, Nat.mod_lt _ (by decide)⟩ v
/-- The register after an even register: the high half of a pair (R19). -/
def hiReg (r : GReg) : GReg := ⟨(r.val + 1) % 32, Nat.mod_lt _ (by decide)⟩
/-- The 128-bit value of a pair: bits 63:0 in the even register. -/
def Thread.pair (t : Thread) (r : GReg) : Nat := (t.rd r).toNat + 2 ^ 64 * (t.rd (hiReg r)).toNat
/-- The two register writes of a 128-bit value. -/
def pairWrites (r : GReg) (v : Nat) : List (Nat × Word) :=
  [(r.val, BitVec.ofNat 64 v), ((hiReg r).val, BitVec.ofNat 64 (v / 2 ^ 64))]
/-- Several register writes in order. -/
def Thread.wrs (t : Thread) : List (Nat × Word) → Thread
  | [] => t
  | (r, v) :: l => Thread.wrs (t.wrN r v) l

/-- The thread holds a vector context. -/
def holdsCtx (c : Core) (tid : Nat) : Bool := c.vctx.any fun v => v.holder == some tid
/-- The thread holds a tile. -/
def holdsTile (c : Core) (tid : Nat) : Bool := c.tiles.any fun v => v.holder == some tid
/-- HEAVY (R2, R296). -/
def State.heavy (s : State) (tid : Nat) : Bool := holdsCtx (s.core (coreOf tid)) tid || holdsTile (s.core (coreOf tid)) tid

/-- A raw signal of R409 is raised on a core in this cc. -/
def State.sig (s : State) (core k : Nat) : State := { s with signals := s.signals ++ [(core, k)] }

/-- An entry of a TLB translates an address of a partition. -/
def TlbEntry.hits (part va : Nat) (e : TlbEntry) : Bool := e.part == part && decide (e.base ≤ va) && decide (va < e.base + e.leaf.size)

/-- A cached translation of an address for a core of a partition: in the core TLB, else in the cluster TLB (R112, R114). -/
def State.tlbFind (s : State) (core part va : Nat) : Option TlbEntry :=
  match (s.core core).tlb.find? (TlbEntry.hits part va) with
  | some e => some e
  | none => (s.cluster (clusterOf core)).tlb.find? (TlbEntry.hits part va)

/-- The state after a look for a translation: a miss in the core TLB that the cluster TLB serves fills the core TLB (R114). -/
def State.looked (s : State) (core part va : Nat) : State :=
  match (s.core core).tlb.find? (TlbEntry.hits part va), (s.cluster (clusterOf core)).tlb.find? (TlbEntry.hits part va) with
  | none, some e => (s.modCore core fun c => { c with tlb := (e :: c.tlb).take 256 }).sig core 22
  | _, _ => s

/-- The page, by its first address and size, in which an access of a core to physical memory lies. -/
def State.pageOf (s : State) (core part : Nat) (l : Loc) (va : Word) : Nat × Nat :=
  match l.space, s.tlbFind core part va.toNat with
  | .phys _, some e => (e.base, e.leaf.size)
  | _, _ => (0, 0)

/-- The line that a byte of physical memory lies in, for a page. -/
def lineIn (part : Nat) (page : Nat × Nat) (l : Loc) : Option Line :=
  match l.space with
  | .phys t => some ⟨t, l.off / 64 * 64, [(part, page)]⟩
  | _ => none

/-- Two lines are one line of memory. -/
def Line.same (l x : Line) : Bool := x.tier == l.tier && x.pa == l.pa

/-- The L1 holds a line. -/
def Core.holdsLine (c : Core) (l : Line) : Bool := c.l1.any l.same

/-- A line comes into the L1 of 8,192 lines, or is reached in it (R6): it belongs then to every page that it has been reached through. -/
def Core.fillLine (c : Core) (l : Line) : Core :=
  { c with l1 := ({ l with pages := (l.pages ++ (c.l1.filter l.same).flatMap Line.pages).eraseDups } :: c.l1.filter fun x => !l.same x).take 8192 }

/-- An access of a page goes through a core's L1: a miss fills the line (R115). -/
def State.throughL1 (s : State) (core part : Nat) (page : Nat × Nat) (l : Loc) : State :=
  match lineIn part page l with
  | some x => (if (s.core core).holdsLine x then s else s.sig core 21).modCore core fun c => c.fillLine x
  | none => s

/-- A thread's access is performed at issue: at the own LM, or through the own L1. -/
def State.reach (s : State) (t : Thread) (va : Word) (l : Loc) : State :=
  match l.space with
  | .lm c => s.sig c 31
  | _ => s.throughL1 (coreOf s.cur) t.part (s.pageOf (coreOf s.cur) t.part l va) l

/-- A flag as a word. -/
def bit (b : Bool) : Nat := if b then 1 else 0

/-- TSTAT of R296. -/
def State.tstat (s : State) (tid : Nat) (t : Thread) : Word :=
  BitVec.ofNat 64 (t.part * 2 ^ 16 + t.owner * 2 ^ 8 + bit t.sec * 32 + bit t.ut * 16 + bit (s.heavy tid) * 8 + t.priv)

/-- Bits lo + len - 1 down to lo of a word, as a number. -/
def bits (w : Word) (lo len : Nat) : Nat := w.toNat / 2 ^ lo % 2 ^ len

/-! ### Meters and charges (R340 to R342) -/

/-- The owner's record at the arbiter. -/
def State.owner (s : State) (o : Nat) : OwnerRec := (s.arb.owners.look o).getD {}

/-- The meter of an owner on a core. -/
def Core.meterOf (c : Core) (o : Nat) : Option Meter := c.meters.find? fun m => m.owner == o

/-- Replaces the meter of an owner. -/
def Core.setMeter (c : Core) (m : Meter) : Core :=
  { c with meters := c.meters.map fun x => if x.owner = m.owner then m else x }

/-- Budget C[k] of a record. -/
def OwnerRec.budget (r : OwnerRec) (k : Nat) : Nat := r.c.getD k 0

/-- Owners whose nests have slots reserved on a core (R264): their later teams find a meter there. -/
def State.reservedBy (s : State) (core : Nat) : List Nat :=
  (s.parts.flatMap fun p => (p.2.nests.filter fun n => n.slots.any fun t => t / 16 == core).map Nest.owner).eraseDups

/-- A core has, or can allocate, a meter for a LIVE owner (R340, R337): at most 8 owners are on a core at a time (R12). -/
def State.canMeter (s : State) (core o : Nat) : Bool :=
  let held := ((s.core core).meters.map Meter.owner ++ s.reservedBy core).eraseDups
  (s.owner o).live && (held.contains o || decide (held.length < 8))

/-- The lowest-numbered meter that is free. DESIGN CHOICE: R340 names no order (log 107). -/
def Core.freeMeter (c : Core) : Nat := ((numsFrom 0 8).find? fun k => !c.meters.any fun m => m.no == k).getD 0

/-- Allocates the meter of an owner on a core if it has none and one of the eight is free. -/
def State.allocMeter (s : State) (core o : Nat) : State :=
  if ((s.core core).meterOf o).isSome || decide (8 ≤ (s.core core).meters.length) then s
  else s.modCore core fun c => { c with meters := c.meters ++ [{ owner := o, no := c.freeMeter }] }

/-- Work of the owner on the core that keeps its meter (R340). -/
def State.metered (s : State) (core o : Nat) : Bool :=
  let c := s.core core
  (s.onCore core).any (fun p => p.2.owner == o) ||
  c.handlers.any (fun h => h.owner == o) || s.moving.any (fun m => m.t.owner == o && coreOf m.slot == core) ||
  c.vq.any (fun x => x.owner == o) || c.mq.any (fun x => x.owner == o) || c.xq.any (fun x => x.owner == o) ||
  c.chans.any (fun x => match x.cur with | some y => y.owner == o | none => false) ||
  (s.onCore core).any (fun p => p.2.vrec.any (fun x => x.owner == o) || p.2.mrec.any (fun x => x.owner == o))

/-- The arbiter's note of a meter for the fall check (R349). -/
def State.noteMeter (s : State) (core : Nat) (m : Meter) : State :=
  s.modArb fun a => { a with hist := a.hist ++ [⟨s.time, core, m.owner, m.job, m.meter⟩] }

/-- Frees the meters of a core that no work keeps, closing their jobs (R340). -/
def State.sweepMeters (s : State) (core : Nat) : State :=
  let gone := (s.core core).meters.filter fun m => !s.metered core m.owner
  let s := gone.foldl (fun s m => if m.job then s.noteMeter core { m with job := false } else s) s
  if gone.isEmpty then s
  else s.modCore core fun c => { c with meters := c.meters.filter fun m => !gone.any fun g => g.owner == m.owner }

/-- The weight of an entry of the charge table of an owner, as the core has applied the tables (R339). -/
def State.weight (s : State) (core o entry : Nat) : Nat :=
  (((s.core core).tables.getD (s.owner o).table []).getD entry 0)

/-- Adds n units to the meter of an owner on a core while its job is open; METER saturates (R341). Nothing accrues while a
checkpoint has the core stopped (R387). -/
def State.accrue (s : State) (core o n : Nat) : State :=
  match (s.core core).meterOf o with
  | some m =>
    if m.job && n != 0 && !(s.core core).ckpt then
      let m' := { m with meter := min (m.meter + n) (2 ^ 48 - 1), last := some s.cc }
      (s.modCore core fun c => c.setMeter m').noteMeter core m'
    else s
  | none => s

/-- Charges an entry n times, unless the work is at service or monitor privilege (R341, R413). -/
def State.charge (s : State) (core o priv entry n : Nat) : State :=
  if priv = 0 then s.accrue core o (s.weight core o entry * n) else s

/-- The smallest level k with m < k ≤ L and C[k] at least M (R342). -/
def raiseLevel (r : OwnerRec) (M : Nat) : Nat → Nat → Nat
  | k, 0 => k
  | k, n + 1 => if M ≤ r.budget k then k else raiseLevel r M (k + 1) n

/-- The check of a meter at the end of a cc, with the lowest thread that has retired in it (R342). -/
def State.checkMeter (s : State) (core o tid : Nat) : State :=
  match (s.core core).meterOf o with
  | none => s
  | some m =>
    if m.job then
      let r := s.owner o
      let mode := (s.core core).mode
      if r.budget r.level < m.meter then
        if m.bsent then s
        else
          (s.modCore core fun c => c.setMeter { m with bsent := true }).modThread tid fun t =>
            { t with budgetPend := some (BitVec.ofNat 64 (m.meter + r.level * 2 ^ 48)) }
      else if mode < r.level ∧ r.budget mode < m.meter ∧ m.rsent = false then
        (s.modCore core fun c => c.setMeter { m with rsent := true }).modArb fun a =>
          { a with raises := a.raises ++ [(core, o, raiseLevel r m.meter (mode + 1) (r.level - mode - 1))],
                   lastRaise := some s.time }
      else s
    else s

/-- A retirement on the core of work of the owner by the thread, for the check at the end of the cc (R342); work at service or
monitor privilege is not metered (R413). -/
def State.noteRetired (s : State) (core o priv tid : Nat) : State :=
  if priv = 0 then s.modCore core fun c => { c with retired := c.retired ++ [(o, tid)] } else s

/-- The retirement of an instruction of a thread: its charge, and the note for the check (R341, R342). -/
def State.retireN (s : State) (tid entry n : Nat) : State :=
  match s.thread tid with
  | some t => (s.charge (coreOf tid) t.owner t.priv entry n).noteRetired (coreOf tid) t.owner t.priv tid
  | none => s

/-- One unit of an entry. -/
def State.retire (s : State) (tid entry : Nat) : State := s.retireN tid entry 1

/-! ### Completing an instruction -/

/-- The meaning of an instruction word acts on the thread in the slot `cur`. -/
def State.onThread (s : State) (k : Thread → Out) : Out :=
  match s.thread s.cur with
  | some t => k t
  | none => .fault .noThread

/-- The instruction has issued already and is completing. -/
def Block.isAwait : Block → Bool
  | .await _ _ => true
  | _ => false

/-- The thread has issued one more instruction while it is in shed or resume handling (R346, R347); one that completes after a
wait was counted when it issued. -/
def Thread.issued (t : Thread) : Thread :=
  if t.handling = .none || t.block.isAwait then t else { t with counted := t.counted + 1 }

/-- The instruction retires with the thread as t, the pc at the next instruction, and charges an entry once. -/
def State.finish (s : State) (t : Thread) (entry : Nat) : Out :=
  .next ((s.setThread s.cur { t.issued with pc := t.pc + 4, block := .none, walkRes := none, noMig := false }).retire s.cur entry)

/-- The instruction writes one register and retires. -/
def State.write (s : State) (t : Thread) (d : GReg) (v : Word) (entry : Nat) : Out := s.finish (t.wr d v) entry

/-- The instruction retires with the pc at a target: branches, jumps and returns. -/
def State.jump (s : State) (t : Thread) (pc : Word) : Out :=
  .next ((s.setThread s.cur { t.issued with pc := pc, block := .none, walkRes := none, noMig := false }).retire s.cur 0)

/-- The thread leaves rotation with its pc at the waiting instruction. -/
def State.wait (s : State) (t : Thread) (b : Block) : Out := .next (s.setThread s.cur { t.issued with block := b })

/-- The position in which an instruction is presented that does not issue is a bubble (R86); one that has issued already has no position. -/
def State.noIssue (s : State) (t : Thread) : State := if t.block.isAwait then s else s.sig (coreOf s.cur) 16

/-- The thread leaves rotation and the instruction is presented again afterwards. -/
def State.hold (s : State) (t : Thread) (b : Block) : Out := .next ((s.noIssue t).setThread s.cur { t with block := b })

/-- The instruction does not issue until a condition holds: the thread leaves rotation, and it is then presented again. -/
def State.until (s : State) (t : Thread) (c : Cond) : Out := s.hold t (.until c)

/-- The instruction has issued, and completes in the cc in which a condition comes to hold (R85, R341). -/
def State.await (s : State) (t : Thread) (c : Cond) : Out := s.wait t (.await c s.ir)

/-- The instruction does not issue; its position is a bubble and it is presented again (R86). -/
def State.bubble (s : State) : Out := .next (s.sig (coreOf s.cur) 16)

/-- What happens after an instruction has retired and its check is made. -/
def afterRetire (o : Out) (f : State → State) : Out :=
  match o with
  | .next s => .next (f s)
  | .fault x => .fault x
  | .refused r => .refused r

/-- Completes a blocked instruction of a thread: registers, pc, ready from the next cc, charge (R85). -/
def State.complete (s : State) (tid : Nat) (entry : Nat) (f : Thread → Thread) : State :=
  match s.thread tid with
  | some t =>
    let t := f t
    (s.setThread tid { t with block := .none, pc := t.pc + 4, readyAt := s.cc + 1, walkRes := none, noMig := false }).retire tid entry
  | none => s

/-- A blocked thread becomes ready from the next cc with its pc where it is. -/
def State.unblock (s : State) (tid : Nat) : State :=
  s.modThread tid fun t => { t with block := .none, readyAt := s.cc + 1 }

/-- One more machine check at the thread's next instructions, unless one of the kind is pending. -/
def Thread.addMcheck (t : Thread) (i : TrapInfo) : Thread :=
  { t with mcheck := if t.mcheck.any fun x => x.sub == i.sub then t.mcheck else t.mcheck ++ [i] }

/-- Sends a reply to a blocked thread. -/
def State.reply (s : State) (r : Reply) : State := { s with replies := s.replies ++ [r] }

/-- A load performed at issue (R115): what it reads it reads now, and the thread is out of rotation until its reply, which brings
the registers written. -/
def State.loadHere (s : State) (t : Thread) (writes : List (Nat × Word)) : Out :=
  (s.reply { tid := s.cur, writes := writes, insn := s.ir, entry := 1, own := true }).wait t (.reply .load)

/-! ### Taking a trap and returning from one (R297 to R301) -/

/-- Codes of R297 that are user-level traps. -/
def userCode (code : Nat) : Bool := decide (code < 0x10)

/-- TSTAT2 (R295): the word and AFTER. -/
def tstat2Of (insn : BitVec 32) (after : Bool) : Word := BitVec.ofNat 64 (insn.toNat + bit after * 2 ^ 33)

/-- TCAUSE (R295). -/
def tcauseOf (code sub : Nat) (refl : Bool) : Word := BitVec.ofNat 64 (code % 256 + 256 * (sub % 256) + bit refl * 2 ^ 16)

/-- Entry to a user-level handler (R298): the trap registers, UT and the pc. It charges nothing. -/
def Thread.enter (t : Thread) (handler tpc : Word) (tcause tval tstat2 : Word) (r : Running) : Thread :=
  { t with trap := { t.trap with tpc := tpc, tcause := tcause, tval := tval, tstat2 := tstat2 },
           ut := true, pc := handler, running := r, block := .none, walkRes := none, noMig := false }

/-- Return from a user-level handler (R314): UT := 0 and PC := TPC; no other register is restored. -/
def Thread.leave (t : Thread) : Thread := { t with ut := false, running := .none, pc := t.trap.tpc }

/-- The handler address in TVEC (R295). -/
def Thread.handler (t : Thread) : Word := t.trap.tvec &&& 0xFFFFFFFFFFFFFFFC#64

/-- Offset of a fault record in the placing hearth's share (R299). -/
def faultOff (f : Nat) : Nat := 0xC0000 + 128 * f

/-- The condition of a `waitw` (R252). -/
def condHolds (c : WCond) (v operand : Word) : Bool :=
  match c with
  | .eq => v == operand
  | .ne => v != operand
  | .lt => v.slt operand
  | .ge => !v.slt operand
  | .ltn => v.ult operand
  | .gen => !v.ult operand

/-- A doubleword at l overlaps the n bytes at l'. -/
def overlaps (l l' : Loc) (n : Nat) : Bool :=
  l.space == l'.space && decide (l.off < l'.off + n) && decide (l'.off < l.off + 8)

/-- The place evaluates its waiters on a doubleword after an access (R252): satisfied ones send their wake. `read` gives the
doubleword at a location. -/
def State.fireBy (s : State) (read : Loc → Nat) (l : Loc) (n : Nat) : State :=
  let value := fun (w : Waiter) => BitVec.ofNat 64 (read w.loc)
  let sat := fun (w : Waiter) => !w.refused && w.fired.isNone && overlaps w.loc l n && condHolds w.cond (value w) w.operand
  { s with
    wakes := s.wakes ++ ((s.waiters.filter sat).filterMap fun w =>
      match w.who with
      | .thread tid d => some { tid := tid, writes := [(d.val, value w)] }
      | .host _ _ => none)
    waiters := (s.waiters.map fun w =>
      if sat w then { w with fired := some (value w) } else w).filter fun w =>
        match w.who, w.fired with
        | .thread _ _, some _ => false
        | _, _ => true }

/-- Writes the fields of fault record f, with the waiters on it (R300). -/
def State.writeFault (s : State) (p : Nat) (x : Partition) (f tid : Nat) (t : Thread) (code sub : Nat)
    (tval tpc tstat2 : Word) : State :=
  let sp := Space.share p x.placing
  let words : List Word := [0, BitVec.ofNat 64 tid, tpc, tcauseOf code sub false, tval, s.tstat tid t, tstat2, tpc,
    t.rdN 1, t.rdN 2, t.rdN 3, t.rdN 4, t.rdN 5, t.rdN 6, 0, 0]
  let m := words.foldl (fun (q : Memory × Nat) w => (q.1.write q.2 8 w.toNat, q.2 + 8)) (s.mem sp, faultOff f)
  let s := s.setMem sp m.1
  s.fireBy (fun l => (s.mem l.space).read l.off 8) ⟨sp, faultOff f⟩ 128

/-- Parks a thread at user privilege with a service trap (R299, R300): the lowest free record, or fault-wait. -/
def State.park (s : State) (tid : Nat) (t : Thread) (code sub : Nat) (tval tpc tstat2 : Word) : State :=
  match s.part t.part with
  | none => s.setThread tid { t with block := .faultWait code sub tval tpc tstat2 }
  | some x =>
    match lowestFree (x.faults.map Prod.fst) 0 4096 with
    | none =>
      (s.setThread tid { t with block := .faultWait code sub tval tpc tstat2 }).setPart t.part
        { x with faultWait := x.faultWait ++ [tid] }
    | some f =>
      ((s.setPart t.part { x with faults := x.faults.put f tid, faultPut := x.faultPut ++ [f] }).writeFault t.part x f tid t
        code sub tval tpc tstat2).setThread tid { t with block := .parked f }

/-- A service trap (R299, R301): parks a user thread; at service or monitor privilege it enters TVEC, or, with no handler
or with UT = 1, is a DOUBLE that halts the thread and reports it. -/
def State.serviceTrap (s : State) (tid : Nat) (t : Thread) (code sub : Nat) (tval tpc tstat2 : Word) : State :=
  if t.priv = 0 then s.park tid t code sub tval tpc tstat2
  else if t.handler ≠ 0 ∧ t.ut = false then
    s.setThread tid (t.enter t.handler tpc (tcauseOf code sub false) tval tstat2 .other)
  else
    let second := if code = 0x17 then sub else code
    let regs := { t.trap with tpc := tpc, tcause := tcauseOf 0x17 second false, tval := tval, tstat2 := tstat2 }
    (s.setThread tid { t with block := .halted, trap := regs }).modFw fun f =>
      { f with reports := f.reports ++ [(tid, decide (t.priv = 2))] }

/-- A thread that takes a LOCKHIT raises the signal of R409 on its core. -/
def State.noteTrap (s : State) (tid code : Nat) : State := if code = 2 then s.sig (coreOf tid) 20 else s

/-- Taking a synchronous trap (R297, R298), with its resume address, word and AFTER. -/
def State.trapAt (s : State) (tid : Nat) (t : Thread) (i : TrapInfo) (tpc : Word) (insn : BitVec 32) (after : Bool) : State :=
  let s := s.noteTrap tid i.code
  if userCode i.code then
    if t.ut then s.serviceTrap tid t 0x17 i.code i.tval tpc (tstat2Of insn after)
    else if t.handler = 0 then s.serviceTrap tid t i.code i.sub i.tval tpc (tstat2Of insn after)
    else s.setThread tid (t.enter t.handler tpc (tcauseOf i.code i.sub false) i.tval (tstat2Of insn after) .other)
  else s.serviceTrap tid t i.code i.sub i.tval tpc (tstat2Of insn after)

/-- A precise trap at the instruction being issued: TPC is its address and AFTER is 0. -/
def State.trap (s : State) (t : Thread) (code : Nat) (tval : Word) (sub : Nat := 0) : Out :=
  .next (s.trapAt s.cur { t.issued with block := .none, walkRes := none, noMig := false } ⟨code, sub, tval⟩ t.pc s.ir false)

/-- ILLEGAL (R36): TVAL is the word. -/
def State.illegal (s : State) (t : Thread) : Out := s.trap t 0x10 (s.ir.zeroExtend 64)
/-- PRIV (R36): TVAL is the word. -/
def State.priv (s : State) (t : Thread) : Out := s.trap t 0x11 (s.ir.zeroExtend 64)
/-- ADDR (R106, R107): TVAL is the address. -/
def State.addr (s : State) (t : Thread) (a : Word) : Out := s.trap t 0x12 a
/-- PAGE (R111): TVAL is the VA, SUB the reason. -/
def State.pageFault (s : State) (t : Thread) (a : Word) (reason : Nat) : Out := s.trap t 0x13 a reason

/-! ### Posted counters (R117 to R119) -/

/-- Counter k: 0 C, 1 H, 2 M. -/
def Thread.pcnt (t : Thread) (k : Nat) : Nat := if k = 0 then t.pcntC else if k = 1 then t.pcntH else t.pcntM

/-- Changes counter k. -/
def Thread.setPcnt (t : Thread) (k v : Nat) : Thread :=
  if k = 0 then { t with pcntC := v } else if k = 1 then { t with pcntH := v } else { t with pcntM := v }

/-- The named counters are zero. -/
def Thread.zeroed (t : Thread) (c h m : Bool) : Bool :=
  (!c || t.pcntC == 0) && (!h || t.pcntH == 0) && (!m || t.pcntM == 0)

/-- The first error mark among the named counters, and the thread with it taken. -/
def Thread.takeMark (t : Thread) (c h m : Bool) : Option (ErrMark × Thread) :=
  match c, t.errC with
  | true, some e => some (e, { t with errC := none })
  | _, _ =>
    match h, t.errH with
    | true, some e => some (e, { t with errH := none })
    | _, _ =>
      match m, t.errM with
      | true, some e => some (e, { t with errM := none })
      | _, _ => none

/-- A wait for the named counters before the instruction (R118): a machine check for an error mark, a wait while one is
not zero, else the instruction goes on. -/
def State.waitCounters (s : State) (t : Thread) (c h m : Bool) (k : Thread → Out) : Out :=
  match t.takeMark c h m with
  | some (e, t) => s.trap t 0x15 e.va e.sub
  | none => if t.zeroed c h m then k t else s.until t (.counters c h m)

/-- The wait for all three counters of the forms that are releases. -/
def State.release (s : State) (t : Thread) (k : Thread → Out) : Out := s.waitCounters t true true true k

/-- The wt field (R24, R118). -/
def State.waitWt (s : State) (t : Thread) (w : Wt) (k : Thread → Out) : Out :=
  match w with
  | .no => k t
  | .cluster => s.waitCounters t true false false k
  | .hearth => s.waitCounters t false true false k
  | .all => s.release t k

/-- The counter that a target at a core raises (R115): its cluster, its hearth, or another hearth. -/
def ctrFor (own target : Nat) : Nat :=
  if clusterOf own = clusterOf target then 0 else if hearthOf own = hearthOf target then 1 else 2

/-- The next parcel of the thread: to a place, with what it does there and the counter it raises. -/
def State.parcelOf (s : State) (t : Thread) (place : Place) (loc : Loc) (acc : Access) (k : Nat) (va : Word) : Parcel :=
  { src := s.cur, seq := t.seq, part := t.part, place := place, loc := loc, acc := acc, ctr := k, va := va, insn := s.ir,
    page := s.pageOf (coreOf s.cur) t.part loc va, firstAt := s.time, lastAt := s.time }

/-- A parcel leaves the core of the thread in `cur`. -/
def State.emit (s : State) (p : Parcel) : State := { s with parcels := s.parcels ++ [p] }.sig (coreOf s.cur) 25

/-- Sends a counted parcel of the thread, raising counter k, and retires the instruction as `fin` does; a full counter
blocks the thread first (R117). -/
def State.post (s : State) (t : Thread) (place : Place) (loc : Loc) (acc : Access) (k : Nat) (va : Word)
    (fin : Thread → State → Out) : Out :=
  if t.pcnt k < 1024 then
    fin ({ t with seq := t.seq + 1 }.setPcnt k (t.pcnt k + 1)) (s.emit (s.parcelOf t place loc acc k va))
  else s.until t (.room k)

/-- Sends a request parcel of the thread, which leaves rotation for the reason given. -/
def State.ask (s : State) (t : Thread) (place : Place) (loc : Loc) (acc : Access) (va : Word) (b : Block) : Out :=
  (s.emit (s.parcelOf t place loc acc 3 va)).wait { t with seq := t.seq + 1 } b

/-- Sends a request parcel of the thread, which blocks for the reply. -/
def State.request (s : State) (t : Thread) (place : Place) (loc : Loc) (acc : Access) (va : Word) (k : WaitKind) : Out :=
  s.ask t place loc acc va (.reply k)

/-- The instruction acts at a place: its request parcel leaves, and when it has come there the instruction goes on with the location and the
data that it carries (R116, R326). -/
def State.atPlace (s : State) (t : Thread) (place : Place) (loc : Loc) (acc : Access) (va : Word) (k : WaitKind)
    (go : Loc → List Nat → Out) : Out :=
  match t.block with
  | .await (.here _ l data _) _ => go l data
  | _ => s.request t place loc acc va k

/-- A parcel of the source to the place is still to be performed (R116). -/
def State.pendingTo (s : State) (src : Nat) (place : Place) : Bool :=
  s.parcels.any fun p => p.src == src && p.place == place && !p.performed

/-- A form that is performed at a place waits until the thread's earlier parcels to it are performed (R116). -/
def State.inOrder (s : State) (t : Thread) (place : Place) (k : Out) : Out :=
  if s.pendingTo s.cur place then s.until t (.clear place) else k

/-! ### Range locks (R211 to R214) -/

/-- The bounds of a lock that a check in this cc sees. -/
def Lock.seen (l : Lock) (cc : Nat) : Nat × Nat := if l.at_ = cc then (l.lo0, l.hi0) else (l.lo, l.hi)

/-- A thread access of [lo, hi) meets the lock: W always, R when the access writes. -/
def Lock.meets (l : Lock) (cc : Nat) (space : LockSpace) (lo hi : Nat) (write : Bool) : Bool :=
  let b := l.seen cc
  l.space == space && (l.w || write) && decide (lo < b.2) && decide (b.1 < hi)

/-- A thread access meets a range of the core's table (R213). -/
def State.lockHit (s : State) (core : Nat) (space : LockSpace) (lo hi : Nat) (write : Bool) : Bool :=
  (s.core core).locks.any fun l => l.meets s.cc space lo hi write

/-- Entries that ranges take: one for each range of a command, which may lie in several LMs or pantries (R216). -/
def lockEntries (ls : List Lock) : Nat :=
  ((ls.filter fun l => decide (l.lo < l.hi)).foldl (fun (acc : List (Nat × Nat)) l =>
    if acc.contains (l.uid, l.rng) then acc else (l.uid, l.rng) :: acc) []).length

/-- The ranges of a command, each one numbered. -/
def numbered (ls : List Lock) : List Lock := (ls.zip (numsFrom 0 ls.length)).map fun q => { q.1 with rng := q.2 }

/-- Entries of a table in use. -/
def Core.lockCount (c : Core) : Nat := lockEntries c.locks

/-- A range takes its place in the order of registration: after every earlier one, and by `ord` among those of one cc (R214). -/
def insertLock (x : Lock) : List Lock → List Lock
  | [] => [x]
  | y :: l => if y.reg = x.reg ∧ x.ord < y.ord then x :: y :: l else y :: insertLock x l

/-- Registers ranges of a command in the core's table, after dropping entries that no check sees any more. Accesses checked in this cc
do not meet them (R214). -/
def State.addLocks (s : State) (core ord : Nat) (ls : List Lock) : State :=
  s.modCore core fun c =>
    let old := c.locks.filter fun l => decide (l.lo < l.hi) || l.at_ == s.cc
    let new := (ls.filter fun l => decide (l.lo < l.hi)).map fun l => { l with at_ := s.cc, lo0 := 0, hi0 := 0, reg := s.cc, ord := ord }
    { c with locks := new.foldl (fun acc l => insertLock l acc) old }

/-- Changes the bounds of a command's ranges, keeping what checks in this cc see. -/
def State.moveLocks (s : State) (core uid : Nat) (f : Lock → Nat × Nat) : State :=
  s.modCore core fun c =>
    { c with locks := c.locks.map fun l =>
        if l.uid = uid then
          let b := l.seen s.cc
          { l with lo := (f l).1, hi := (f l).2, at_ := s.cc, lo0 := b.1, hi0 := b.2 }
        else l }

/-- Releases a command's ranges (R216). -/
def State.freeLocks (s : State) (core uid : Nat) : State := s.moveLocks core uid fun _ => (0, 0)

/-- Two ranges overlap and one of them is W. -/
def Lock.conflict (a b : Lock) (cc : Nat) : Bool :=
  let p := b.seen cc
  a.space == b.space && (a.w || b.w) && decide (a.lo < p.2) && decide (p.1 < a.hi)

/-- A range of the command overlaps one registered earlier by other unfinished work (R213). -/
def conflictIn (cc uid : Nat) : List Lock → List Lock → Bool
  | _, [] => false
  | before, l :: rest =>
    (l.uid == uid && before.any fun b => b.uid != uid && l.conflict b cc) || conflictIn cc uid (before ++ [l]) rest

/-- The command of the core must wait for a range (R213). -/
def State.mustWait (s : State) (core uid : Nat) : Bool := conflictIn s.cc uid [] (s.core core).locks

/-! ### Barriers (R241) -/

/-- Barrier b of a core. -/
def State.bar (s : State) (core b : Nat) : Barrier := ((s.core core).bars.look b).getD {}
/-- Barrier b of a cluster. -/
def State.clBar (s : State) (cl b : Nat) : Barrier := ((s.cluster cl).bars.look b).getD {}
/-- Replaces a core barrier. -/
def State.setBar (s : State) (core b : Nat) (x : Barrier) : State := s.modCore core fun c => { c with bars := c.bars.put b x }
/-- Replaces a cluster barrier. -/
def State.setClBar (s : State) (cl b : Nat) (x : Barrier) : State :=
  s.setCluster cl { s.cluster cl with bars := (s.cluster cl).bars.put b x }

/-- `bset` (R248): target, count 0, flags cleared; the phase is unchanged. -/
def Barrier.set (b : Barrier) (target : Nat) : Barrier := { phase := b.phase, target := target }

/-- One arrival (R241), and whether it completes the phase. -/
def Barrier.arrive (b : Barrier) (p : Bool) : Barrier × Bool :=
  if b.target = 0 then ({ b with orph := true }, false)
  else
    let poison := b.poison || p
    if b.count + 1 = b.target then
      ({ b with count := 0, lpois := poison, poison := false, phase := !b.phase }, true)
    else ({ b with count := b.count + 1, poison := poison }, false)

/-- The state word of R240. -/
def Barrier.word (b : Barrier) : Word :=
  BitVec.ofNat 64 (bit b.lpois * 2 ^ 63 + bit b.poison * 2 ^ 62 + bit b.phase * 2 ^ 61 + bit b.orph * 2 ^ 60 +
    b.count * 2 ^ 32 + b.target)

/-- Completes a `barw` of a thread with a result; a poisoned phase then takes POISON after the instruction (R243). -/
def State.endBarw (s : State) (tid : Nat) (d : GReg) (v : Word) (poison : Option Nat) (insn : BitVec 32) : State :=
  let s := s.complete tid 0 fun t => t.wr d v
  match poison, s.thread tid with
  | some b, some t => s.trapAt tid t ⟨0x06, 0, BitVec.ofNat 64 b⟩ t.pc insn true
  | _, _ => s

/-- Wakes the waiters on the phase of a barrier that has just completed (R241), given as the threads to look at. -/
def wakeBarw (cl : Bool) (unit b : Nat) (oldPhase lpois : Bool) : List (Nat × Thread) → State → State
  | [], s => s
  | (tid, t) :: l, s =>
    wakeBarw cl unit b oldPhase lpois l <|
      match t.block with
      | .barw c u b' ph _ d insn =>
        if c = cl ∧ u = unit ∧ b' = b ∧ ph = oldPhase then s.endBarw tid d 0 (if lpois then some b else none) insn else s
      | _ => s

/-- The gates that name a completed phase of barrier b open, clean or poisoned (R198). -/
def MCmd.openGate (b : Nat) (phase lpois : Bool) (m : MCmd) : MCmd :=
  match m.gate, m.opened with
  | some g, none => if g.bar = b ∧ g.phase = phase then { m with opened := some lpois } else m
  | _, _ => m

/-- A command whose gate opened poisoned. -/
def MCmd.poisoned (m : MCmd) : Bool := m.opened == some true

/-- The barrier that a command's gate names; b for one without a gate. -/
def MCmd.gateBar (b : Nat) (m : MCmd) : Nat := (m.gate.map Gate.bar).getD b

/-- Entries of the matrix queue that commands cancelled or discarded in this cc hold until its end (R209). -/
def Core.mqFreed (c : Core) (cc : Nat) : Nat := if c.mqGone.1 = cc then c.mqGone.2 else 0

/-- n more entries of the matrix queue are freed by a cancelling or discarding in this cc. -/
def Core.freeM (c : Core) (cc n : Nat) : Core := { c with mqGone := (cc, c.mqFreed cc + n) }

/-- Discards the gated commands of a core whose phase completed poisoned (R198): MSTAT.POISON and a pending POISON trap
of each issuing thread, their ranges freed. -/
def State.discardPoisoned (s : State) (core b : Nat) : State :=
  let gone := ((s.core core).mq.filter MCmd.poisoned) ++ ((s.onCore core).map fun p => p.2.mrec.filter MCmd.poisoned).flatten
  if gone.isEmpty then s
  else
    let s := s.modCore core fun c =>
      ({ c with mq := c.mq.filter fun m => !m.poisoned } : Core).freeM s.cc (c.mq.filter MCmd.poisoned).length
    let s := s.allThreads fun tid t => if coreOf tid = core then { t with mrec := t.mrec.filter fun m => !m.poisoned } else t
    (gone.foldl (fun s m => (s.freeLocks core m.uid).modThread m.tid fun t =>
      { t with mstat := t.mstat ||| 0x40, poison := t.poison ++ [m.gateBar b] }) s).sweepMeters core

/-- One arrival at a core barrier, with its waiters woken and gates opened; a completion of barrier 63 releases a staged
couche (R81). -/
def State.arriveBar (s : State) (core b : Nat) (poison : Bool) : State :=
  let old := s.bar core b
  let r := old.arrive poison
  let s := s.setBar core b r.1
  if r.2 then
    let s := s.sig core 27
    let s := if b = 63 then s.modCore core fun c => { c with staged := c.staged.map fun x => (x.1, some s.cc) } else s
    let s := s.modCore core fun c => { c with mq := c.mq.map (MCmd.openGate b old.phase r.1.lpois) }
    let s := s.allThreads fun tid t =>
      if coreOf tid = core then { t with mrec := t.mrec.map (MCmd.openGate b old.phase r.1.lpois) } else t
    let s := s.discardPoisoned core b
    wakeBarw false core b old.phase r.1.lpois s.threads s
  else s

/-- An arrival comes in this cc that is applied with the others of the cc, in the order of R241. -/
def State.noteArrival (s : State) (order core b : Nat) (poison : Bool) : State :=
  { s with arrs := s.arrs ++ [(order, core, b, poison)] }

/-- The place of a copy's arrival among those of its cc: ascending core and channel (R241). -/
def copyOrder (core ch : Nat) : Nat := 4 * core + ch

/-- The place of an arrival parcel: behind those of copies, threads in ascending ID, then what is no thread (R241). -/
def parcelOrder (src : Nat) : Nat := 2 ^ 20 + src % 2 ^ 20

/-- Takes its place behind those of no later order. -/
def insertArrival (x : Nat × Nat × Nat × Bool) : List (Nat × Nat × Nat × Bool) → List (Nat × Nat × Nat × Bool)
  | [] => [x]
  | y :: l => if x.1 < y.1 then x :: y :: l else y :: insertArrival x l

/-- The arrivals of the cc are applied: of copies, of parcels, of units (R241). -/
def State.applyArrivals (s : State) : State :=
  (s.arrs.foldl (fun acc x => insertArrival x acc) []).foldl (fun s a => s.arriveBar a.2.1 a.2.2.1 a.2.2.2) { s with arrs := [] }

/-- One arrival at a cluster barrier; it has no poisoned arrivals (R240). -/
def State.arriveClBar (s : State) (cl b : Nat) : State :=
  let old := s.clBar cl b
  let r := old.arrive false
  let s := s.setClBar cl b r.1
  if r.2 then wakeBarw true cl b old.phase false s.threads s else s

/-! ### Freeing a slot -/

/-- A transfer of the thread is queued, running or paused. -/
def State.xbusy (s : State) (tid : Nat) : Bool :=
  let c := s.core (coreOf tid)
  c.xq.any (fun x => x.tid == tid) || c.chans.any fun k => match k.cur with
    | some x => x.tid == tid
    | none => false

/-- Discards what waits for a thread ID: replies, wakes, waiters, queue waits, requests at the placer and walk merges. -/
def State.unwait (s : State) (tid : Nat) : State :=
  { s with
    pods := s.pods.over fun _ b => { b with waiting := b.waiting.filter fun w => w.1 != tid }
    replies := s.replies.filter fun r => r.tid != tid
    wakes := s.wakes.filter fun r => r.tid != tid
    waiters := s.waiters.filter fun w => match w.who with | .thread x _ => x != tid | .host _ _ => true
    hearths := s.hearths.over fun _ h => { h with walks := h.walks.map fun w => { w with tids := w.tids.filter fun x => x != tid } }
    parts := s.parts.over fun _ p =>
      { p with
        queues := p.queues.over fun _ q =>
          { q with putters := q.putters.filter fun w => w.tid != tid, getters := q.getters.filter fun w => w.tid != tid }
        applies := p.applies.filter fun a => a.tid != some tid
        waiting := p.waiting.filter fun a => a.tid != some tid
        nests := p.nests.map fun n => { n with joiners := n.joiners.filter fun j => j.1 != tid }
        ring := p.ring.over fun _ x => if x = tid then 2 ^ 18 else x
        ringWait := p.ringWait.filter fun x => x.1 != tid } }

/-- The parcels of a thread ID go on to their end without it (R141): they answer to nobody, and the number that marks them is used once,
so that no two threads that end in one slot share it. -/
def State.orphan (s : State) (tid : Nat) : State :=
  { s with
    uid := s.uid + 1
    parcels := s.parcels.map fun p =>
      if p.src = tid then { p with src := tid + 2 ^ 20 * (s.uid + 1), ctr := 3, ended := s.thread tid } else p }

/-- Discards what waits or flies for a thread ID that becomes empty. Its parcels and transfers are still carried to their end (R141,
R230), and no other thread of its slot takes the BUDGET of what it has retired (R342). -/
def State.forget (s : State) (tid : Nat) : State :=
  let s := (s.unwait tid).orphan tid
  { s with
    cores := s.cores.over fun _ c =>
      { c with
        retired := c.retired.map fun x => if x.2 = tid then (x.1, tid + 2 ^ 20) else x
        xq := c.xq.map fun x => if x.tid = tid then { x with tid := tid + 2 ^ 20 } else x
        chans := c.chans.map fun k => { k with cur := k.cur.map fun x => if x.tid = tid then { x with tid := tid + 2 ^ 20 } else x } }
    parts := s.parts.over fun _ p =>
      { p with
        nests := p.nests.map fun n => if n.applier = some tid then { n with applier := none } else n
        faultWait := p.faultWait.filter fun x => x != tid } }

/-- Releases the vector context of a thread (R142, R177). -/
def State.freeCtx (s : State) (tid : Nat) : State :=
  s.modCore (coreOf tid) fun c => { c with vctx := c.vctx.map fun v => if v.holder = some tid then {} else v }

/-- Releases the tiles of a mask that the thread holds (R178, R202). -/
def State.freeTiles (s : State) (tid mask : Nat) : State :=
  s.modCore (coreOf tid) fun c =>
    { c with tiles := (c.tiles.zip (numsFrom 0 8)).map fun p =>
        if p.1.holder = some tid ∧ mask.testBit p.2 = true then {} else p.1 }

/-- The slot becomes empty and the core's meters are swept. -/
def State.freeSlot (s : State) (tid : Nat) : State :=
  ({ s.forget tid with threads := s.threads.drop tid }).sweepMeters (coreOf tid)

end Sys2Proof.Machine
end

