-- ==== Sys2Proof/Machine/Flags.lean ====
section
/-! DEFINITION. The floating-point flags of FFLAGS (R56, R147), the fields of FRM (R146) and the rounding of an exact value by
a mode (R54). -/

namespace Sys2Proof.Machine

/-- Invalid. -/
def fNV : Nat := 16
/-- Division by zero. -/
def fDZ : Nat := 8
/-- Overflow. -/
def fOF : Nat := 4
/-- Underflow. -/
def fUF : Nat := 2
/-- Inexact. -/
def fNX : Nat := 1

/-- A flag when a condition holds. -/
def flagIf (c : Bool) (f : Nat) : Nat := if c then f else 0

/-- FRM.RM (R146). -/
def rmOf (frm : Word) : Nat := bits frm 0 3
/-- FRM.SATF (R146). -/
def satOf (frm : Word) : Bool := bits frm 3 1 == 1

/-- FFLAGS with flags ORed in: hardware only ever sets a flag (R56). -/
def Thread.raiseF (t : Thread) (flags : Nat) : Thread :=
  { t with fp := { t.fp with fflags := t.fp.fflags ||| BitVec.ofNat 64 (flags % 32) } }

/-- The exact value ±m × 2^e rounded to a multiple of 2^q by mode rm (R54): the multiple and whether it is inexact. -/
def roundAt (rm : Nat) (neg : Bool) (m : Nat) (e q : Int) : Nat × Bool :=
  if q ≤ e then (m * 2 ^ (e - q).toNat, false)
  else
    let unit := 2 ^ (q - e).toNat
    let hi := m / unit
    let lo := m % unit
    let up := match rm with
      | 0 => decide (unit < 2 * lo) || (decide (2 * lo = unit) && decide (hi % 2 = 1))
      | 1 => false
      | 2 => neg && decide (lo ≠ 0)
      | 3 => !neg && decide (lo ≠ 0)
      | _ => decide (unit ≤ 2 * lo)
    (if up then hi + 1 else hi, decide (lo ≠ 0))

end Sys2Proof.Machine
end

