-- ==== Sys2Proof/Machine/Float.lean ====
section
/-! DEFINITION. Number formats and floating-point arithmetic (spec/03: R51 to R62, R73 to R76; R164 to R168): every result
is computed exactly and rounded once. A result is a pair: the code and the flags it raises. -/

namespace Sys2Proof.Machine

/-- A floating-point format (R51): exponent bits, fraction bits, bias, and whether all-ones exponents are infinities and
NaNs. -/
structure Fmt where
  eb : Nat
  t : Nat
  bias : Nat
  inf : Bool
  deriving DecidableEq, Repr

/-- FP32. -/
def fp32 : Fmt := ⟨8, 23, 127, true⟩
/-- FP16. -/
def fp16 : Fmt := ⟨5, 10, 15, true⟩
/-- BF16. -/
def bf16 : Fmt := ⟨8, 7, 127, true⟩
/-- E4M3. -/
def e4m3 : Fmt := ⟨4, 3, 7, false⟩
/-- E5M2. -/
def e5m2 : Fmt := ⟨5, 2, 15, true⟩

/-- The sign bit's weight. -/
def Fmt.signBit (f : Fmt) : Nat := 2 ^ (f.eb + f.t)
/-- Code bits of +∞. -/
def Fmt.infCode (f : Fmt) : Nat := (2 ^ f.eb - 1) * 2 ^ f.t
/-- The largest finite code. -/
def Fmt.maxCode (f : Fmt) : Nat := if f.inf then f.infCode - 1 else 2 ^ (f.eb + f.t) - 2
/-- The canonical NaN of R51. -/
def Fmt.nan (f : Fmt) : Nat := if f.inf then f.infCode + 2 ^ (f.t - 1) else 2 ^ (f.eb + f.t) - 1
/-- The exponent of the smallest subnormal. -/
def Fmt.qmin (f : Fmt) : Int := 1 - (f.bias : Int) - (f.t : Int)

/-- A datum: ±m × 2^e, an infinity, or a NaN (signalling or quiet, R52). -/
inductive FVal where
  | fin (neg : Bool) (m : Nat) (e : Int)
  | inf (neg : Bool)
  | nan (sig : Bool)
  deriving DecidableEq, Repr

/-- The datum of a code (R51). -/
def Fmt.unpack (f : Fmt) (c : Nat) : FVal :=
  let neg := decide (c / f.signBit % 2 = 1)
  let e := c / 2 ^ f.t % 2 ^ f.eb
  let fr := c % 2 ^ f.t
  if e = 0 then .fin neg fr f.qmin
  else if e = 2 ^ f.eb - 1 ∧ f.inf then if fr = 0 then .inf neg else .nan (decide (fr < 2 ^ (f.t - 1)))
  else if e = 2 ^ f.eb - 1 ∧ fr = 2 ^ f.t - 1 then .nan false
  else .fin neg (2 ^ f.t + fr) (f.qmin + (e - 1 : Nat))

/-- A code with a sign. -/
def Fmt.signed (f : Fmt) (neg : Bool) (c : Nat) : Nat := if neg then f.signBit + c else c

/-- What an overflow gives (R55). -/
def Fmt.overflow (f : Fmt) (frm : Word) (neg : Bool) : Nat :=
  if f.inf then
    match rmOf frm with
    | 1 => f.signed neg f.maxCode
    | 2 => f.signed neg (if neg then f.infCode else f.maxCode)
    | 3 => f.signed neg (if neg then f.maxCode else f.infCode)
    | _ => f.signed neg f.infCode
  else if satOf frm then f.signed neg f.maxCode
  else f.nan

/-- Rounds the exact value ±m × 2^e to the format (R53 to R56). -/
def Fmt.pack (f : Fmt) (frm : Word) (neg : Bool) (m : Nat) (e : Int) : Nat × Nat :=
  if m = 0 then (f.signed neg 0, 0)
  else
    let q := (Nat.log2 m : Int) + e - f.t
    let free := roundAt (rmOf frm) neg m e q
    let q' := max q f.qmin
    let r := roundAt (rmOf frm) neg m e q'
    let code := (q' - f.qmin).toNat * 2 ^ f.t + r.1
    let tiny := decide (q < f.qmin) && !(decide (q + 1 = f.qmin) && decide (2 ^ (f.t + 1) ≤ free.1))
    if f.maxCode < code then (f.overflow frm neg, fOF + fNX)
    else (f.signed neg code, flagIf r.2 fNX + flagIf (r.2 && tiny) fUF)

/-- A value known to lie strictly between m and m + 1 units of 2^e, as an exact value that rounds alike. -/
def jam (m : Nat) (e : Int) (sticky : Bool) : Nat × Int := if sticky then (4 * m + 1, e - 2) else (m, e)

/-- Rounds ±(m / d) × 2^e. -/
def Fmt.packDiv (f : Fmt) (frm : Word) (neg : Bool) (m d : Nat) (e : Int) : Nat × Nat :=
  let n := m * 2 ^ 80
  let j := jam (n / d) (e - 80) (decide (n % d ≠ 0))
  f.pack frm neg j.1 j.2

/-- The canonical NaN with NV when a condition holds. -/
def Fmt.mkNan (f : Fmt) (nv : Bool) : Nat × Nat := (f.nan, flagIf nv fNV)

/-- A signalling NaN. -/
def FVal.sig : FVal → Bool
  | .nan s => s
  | _ => false
/-- A NaN. -/
def FVal.isNan : FVal → Bool
  | .nan _ => true
  | _ => false

/-- The sum of two exact values, with the sign of an exact zero sum (R101). -/
def addExact (rm : Nat) (s1 : Bool) (m1 : Nat) (e1 : Int) (s2 : Bool) (m2 : Nat) (e2 : Int) : Bool × Nat × Int :=
  let e := min e1 e2
  let a : Int := (m1 * 2 ^ (e1 - e).toNat : Nat)
  let b : Int := (m2 * 2 ^ (e2 - e).toNat : Nat)
  let v := (if s1 then -a else a) + (if s2 then -b else b)
  if v = 0 then (if s1 = s2 then s1 else decide (rm = 2), 0, e) else (decide (v < 0), v.natAbs, e)

/-- Negates a datum. -/
def FVal.neg : FVal → FVal
  | .fin s m e => .fin (!s) m e
  | .inf s => .inf (!s)
  | .nan s => .nan s

/-- a + b (R101). -/
def Fmt.addV (f : Fmt) (frm : Word) (a b : FVal) : Nat × Nat :=
  match a, b with
  | .nan s, y => f.mkNan (s || y.sig)
  | x, .nan s => f.mkNan (s || x.sig)
  | .inf s, .inf s' => if s = s' then (f.signed s f.infCode, 0) else f.mkNan true
  | .inf s, .fin _ _ _ => (f.signed s f.infCode, 0)
  | .fin _ _ _, .inf s => (f.signed s f.infCode, 0)
  | .fin s m e, .fin s' m' e' =>
    let r := addExact (rmOf frm) s m e s' m' e'
    f.pack frm r.1 r.2.1 r.2.2

/-- a × b (R101). -/
def Fmt.mulV (f : Fmt) (frm : Word) (a b : FVal) : Nat × Nat :=
  match a, b with
  | .nan s, y => f.mkNan (s || y.sig)
  | x, .nan s => f.mkNan (s || x.sig)
  | .inf s, .inf s' => (f.signed (s != s') f.infCode, 0)
  | .inf s, .fin s' m _ => if m = 0 then f.mkNan true else (f.signed (s != s') f.infCode, 0)
  | .fin s m _, .inf s' => if m = 0 then f.mkNan true else (f.signed (s != s') f.infCode, 0)
  | .fin s m e, .fin s' m' e' => f.pack frm (s != s') (m * m') (e + e')

/-- a × b + c, rounded once (R101). -/
def Fmt.fmaV (f : Fmt) (frm : Word) (a b c : FVal) : Nat × Nat :=
  let zeroInf := match a, b with
    | .inf _, .fin _ m _ => m == 0
    | .fin _ m _, .inf _ => m == 0
    | _, _ => false
  if a.isNan || b.isNan || c.isNan then f.mkNan (a.sig || b.sig || c.sig || zeroInf)
  else if zeroInf then f.mkNan true
  else
    match a, b with
    | .fin s m e, .fin s' m' e' =>
      match c with
      | .fin s'' m'' e'' =>
        let r := addExact (rmOf frm) (s != s') (m * m') (e + e') s'' m'' e''
        f.pack frm r.1 r.2.1 r.2.2
      | .inf s'' => (f.signed s'' f.infCode, 0)
      | .nan _ => f.mkNan false
    | x, y =>
      let s := (match x with | .fin s _ _ => s | .inf s => s | .nan _ => false) !=
        (match y with | .fin s _ _ => s | .inf s => s | .nan _ => false)
      match c with
      | .inf s'' => if s = s'' then (f.signed s f.infCode, 0) else f.mkNan true
      | _ => (f.signed s f.infCode, 0)

/-- a / b (R101). -/
def Fmt.divV (f : Fmt) (frm : Word) (a b : FVal) : Nat × Nat :=
  match a, b with
  | .nan s, y => f.mkNan (s || y.sig)
  | x, .nan s => f.mkNan (s || x.sig)
  | .inf _, .inf _ => f.mkNan true
  | .inf s, .fin s' _ _ => (f.signed (s != s') f.infCode, 0)
  | .fin s _ _, .inf s' => (f.signed (s != s') 0, 0)
  | .fin s m e, .fin s' m' e' =>
    if m' = 0 then if m = 0 then f.mkNan true else (f.signed (s != s') f.infCode, fDZ)
    else f.packDiv frm (s != s') m m' (e - e')

/-- floor(√v) among numbers below 2^n, added to r. -/
def isqrt (v : Nat) : Nat → Nat → Nat
  | 0, r => r
  | n + 1, r => isqrt v n (if (r + 2 ^ n) * (r + 2 ^ n) ≤ v then r + 2 ^ n else r)

/-- √a (R101). -/
def Fmt.sqrtV (f : Fmt) (frm : Word) (a : FVal) : Nat × Nat :=
  match a with
  | .nan s => f.mkNan s
  | .inf s => if s then f.mkNan true else (f.infCode, 0)
  | .fin s m e =>
    if m = 0 then (f.signed s 0, 0)
    else if s then f.mkNan true
    else
      let odd := (e % 2).toNat
      let n := m * 2 ^ (odd + 80)
      let r := isqrt n 64 0
      let j := jam r ((e - odd) / 2 - 40) (decide (r * r ≠ n))
      f.pack frm false j.1 j.2

/-- a < b of exact values. -/
def ltExact (a b : FVal) : Bool :=
  match a, b with
  | .fin s m e, .fin s' m' e' =>
    let q := min e e'
    let x : Int := (m * 2 ^ (e - q).toNat : Nat)
    let y : Int := (m' * 2 ^ (e' - q).toNat : Nat)
    decide ((if s then -x else x) < (if s' then -y else y))
  | .inf s, .inf s' => s && !s'
  | .inf s, .fin _ _ _ => s
  | .fin _ _ _, .inf s => !s
  | _, _ => false

/-- The sign of a datum. -/
def FVal.isNeg : FVal → Bool
  | .fin s _ _ => s
  | .inf s => s
  | .nan _ => false

/-- Minimum or maximum of R52: −0 below +0, the other operand for one NaN. -/
def Fmt.minmax (f : Fmt) (isMax : Bool) (x y : Nat) : Nat × Nat :=
  let a := f.unpack x
  let b := f.unpack y
  let nv := flagIf (a.sig || b.sig) fNV
  if a.isNan then (if b.isNan then f.nan else y, nv)
  else if b.isNan then (x, nv)
  else
    let less := ltExact a b || (!ltExact b a && a.isNeg && !b.isNeg)
    (if less == isMax then y else x, 0)

/-- The four conditions of R102: 0 eq, 1 lt, 2 le, 3 un. -/
def Fmt.compare (f : Fmt) (cond x y : Nat) : Bool × Nat :=
  let a := f.unpack x
  let b := f.unpack y
  let sig := a.sig || b.sig
  if a.isNan || b.isNan then (decide (cond = 3), flagIf (sig || cond == 1 || cond == 2) fNV)
  else
    (match cond with
      | 0 => !ltExact a b && !ltExact b a
      | 1 => ltExact a b
      | 2 => !ltExact b a
      | _ => false, 0)

/-- The class code of R103. -/
def fclassOf (c : Nat) : Nat :=
  let neg := decide (c / 2 ^ 31 % 2 = 1)
  match fp32.unpack c with
  | .inf s => if s then 1 else 2 ^ 7
  | .nan s => if s then 2 ^ 8 else 2 ^ 9
  | .fin _ m _ =>
    if m = 0 then if neg then 2 ^ 3 else 2 ^ 4
    else if m < 2 ^ 23 then if neg then 2 ^ 2 else 2 ^ 5
    else if neg then 2 else 2 ^ 6

/-- A conversion between formats (R62). -/
def cvtFF (src dst : Fmt) (frm : Word) (c : Nat) : Nat × Nat :=
  match src.unpack c with
  | .nan s => dst.mkNan s
  | .inf s =>
    if dst.inf then (dst.signed s dst.infCode, 0)
    else if satOf frm then (dst.signed s dst.maxCode, fOF + fNX)
    else (dst.nan, fNV)
  | .fin s m e => dst.pack frm s m e

/-- An integer converted to a float (R62). -/
def cvtIF (dst : Fmt) (frm : Word) (v : Int) : Nat × Nat := dst.pack frm (decide (v < 0)) v.natAbs 0

/-- sat(v, lo, hi) of R18. -/
def satI (v lo hi : Int) : Int := if v < lo then lo else if hi < v then hi else v

/-- A float converted to an integer in [lo, hi] (R62): a result outside saturates and sets NV. -/
def cvtFI (src : Fmt) (rm : Nat) (lo hi : Int) (c : Nat) : Int × Nat :=
  match src.unpack c with
  | .nan _ => (0, fNV)
  | .inf s => (if s then lo else hi, fNV)
  | .fin s m e =>
    let r := roundAt rm s m e 0
    let v : Int := if s then -(r.1 : Int) else r.1
    if v < lo ∨ hi < v then (satI v lo hi, fNV) else (v, flagIf r.2 fNX)

/-! ### E2M1X (R60, R61) -/

/-- E2M1X as a 1-2-1 format with bias 1 and no special codes. -/
def e2m1 : Fmt := ⟨2, 1, 1, false⟩

/-- The datum of a code outside the matrix engine: code 8 reads as +0. -/
def unpackE2m1 (c : Nat) : FVal :=
  let m : Nat := match c % 8 with
    | 0 => 0
    | 1 => 1
    | 2 => 2
    | 3 => 3
    | 4 => 4
    | 5 => 6
    | 6 => 8
    | _ => 12
  .fin (decide (8 < c % 16)) m (-1)

/-- A conversion of an FP32 code to E2M1X (R61). -/
def toE2m1 (frm : Word) (c : Nat) : Nat × Nat :=
  match fp32.unpack c with
  | .nan _ => (0, fNV)
  | .inf s => (if s then 15 else 7, fOF + fNX)
  | .fin s m e =>
    if m = 0 then (0, 0)
    else
      let q := (Nat.log2 m : Int) + e - 1
      let q' := max q (-1)
      let r := roundAt (rmOf frm) s m e q'
      let code := (q' + 1).toNat * 2 + r.1
      let free := roundAt (rmOf frm) s m e q
      let tiny := decide (q < -1) && !(decide (q = -2) && decide (4 ≤ free.1))
      if 7 < code then (if s then 15 else 7, fOF + fNX)
      else (if code = 0 then 0 else if s then 8 + code else code, flagIf r.2 fNX + flagIf (r.2 && tiny) fUF)

/-! ### Fixed point for sums across devices (R74) -/

/-- q of an FP32 code under exponent E. DESIGN CHOICE (log 104): an inexact q raises no NX: R74 and R171 name OF and NV, R56 names NX for
every rounded result. -/
def toFix (E : Int) (c : Nat) : Int × Nat :=
  match fp32.unpack c with
  | .nan _ => (0, fNV)
  | .inf s => (if s then -(2 ^ 127 - 1) else 2 ^ 127 - 1, fOF)
  | .fin s m e =>
    if m ≠ 0 ∧ E + 1 ≤ (Nat.log2 m : Int) + e then (if s then -(2 ^ 127 - 1) else 2 ^ 127 - 1, fOF)
    else
      let r := roundAt 0 s m e (E - 96)
      (if s then -(r.1 : Int) else r.1, 0)

/-- q × 2^(E − 96) rounded to FP32. -/
def ofFix (frm : Word) (E : Int) (q : Int) : Nat × Nat := fp32.pack frm (decide (q < 0)) q.natAbs (E - 96)

/-! ### Elementary functions by fixed point -/

/-- Bits of the fixed-point evaluation: far beyond what correct rounding of a 16-bit format needs. -/
def prec : Nat := 480

/-- One in fixed point. -/
def fxOne : Nat := 2 ^ prec

/-- The sum of x^k / k! × one from the term given, n terms left. -/
def expSeries (x : Nat) : Nat → Nat → Nat → Nat
  | 0, _, _ => 0
  | n + 1, term, k => term + expSeries x n (term * x / fxOne / (k + 1)) (k + 1)

/-- The sum of y^(2k+1)/(2k+1), from the power given (y² as a fraction p/q), n terms left. -/
def atanhSeries (p q : Nat) : Nat → Nat → Nat → Nat
  | 0, _, _ => 0
  | n + 1, pow, k => pow / (2 * k + 1) + atanhSeries p q n (pow * p / q) (k + 1)

/-- The alternating sum of y^(2k+1)/(2k+1) for y = 1/d. -/
def atanSeries (d : Nat) : Nat → Nat → Nat → Int
  | 0, _, _ => 0
  | n + 1, pow, k =>
    (if k % 2 = 0 then ((pow / (2 * k + 1) : Nat) : Int) else -((pow / (2 * k + 1) : Nat) : Int)) + atanSeries d n (pow / (d * d)) (k + 1)

/-- ln 2 in fixed point: 2 artanh(1/3). -/
def ln2Fx : Nat := 2 * atanhSeries 1 9 160 (fxOne / 3) 0

/-- π in fixed point: 16 arctan(1/5) − 4 arctan(1/239). -/
def piFx : Nat := (16 * atanSeries 5 110 (fxOne / 5) 0 - 4 * atanSeries 239 40 (fxOne / 239) 0).toNat

/-- 2^(n / d) in fixed point for 0 ≤ n < d. -/
def exp2Fx (n d : Nat) : Nat := expSeries (ln2Fx * n / d) 110 fxOne 0

/-- log2(n / d) in fixed point for d ≤ n < 2d. -/
def log2Fx (n d : Nat) : Nat :=
  let p := n - d
  let q := n + d
  2 * atanhSeries (p * p) (q * q) 160 (fxOne * p / q) 0 * fxOne / ln2Fx

/-- The alternating series of sin (from x, k = 1) or cos (from one, k = 0): the term divided by (k+1)(k+2) each time. -/
def trigSeries (x : Nat) : Nat → Nat → Nat → Bool → Int
  | 0, _, _, _ => 0
  | n + 1, term, k, neg =>
    (if neg then -(term : Int) else term) + trigSeries x n (term * x / fxOne * x / fxOne / ((k + 1) * (k + 2))) (k + 2) (!neg)

/-- sin(π n / d) in fixed point for 0 ≤ n / d ≤ 1/4. -/
def sinFx (n d : Nat) : Nat := let x := piFx * n / d; (trigSeries x 60 x 1 false).toNat
/-- cos(π n / d) in fixed point for 0 ≤ n / d ≤ 1/4. -/
def cosFx (n d : Nat) : Nat := (trigSeries (piFx * n / d) 60 fxOne 0 false).toNat

/-- An irrational fixed-point value times 2^e, rounded. -/
def Fmt.packFx (f : Fmt) (frm : Word) (neg : Bool) (v : Nat) (e : Int) : Nat × Nat :=
  f.pack frm neg (4 * v + 1) (e - 2 - prec)

/-- floor and remainder of m × 2^e as a fraction of 2^k: the integer n, and the fraction over 2^k. -/
def splitInt (neg : Bool) (m : Nat) (e : Int) : Int × Nat × Nat :=
  if 0 ≤ e then ((if neg then -1 else 1) * ((m * 2 ^ e.toNat : Nat) : Int), 0, 1)
  else
    let d : Nat := 2 ^ (-e).toNat
    let v : Int := if neg then -(m : Int) else m
    (v / d, (v % d).toNat, d)

/-- The integer nearest 2x, ties to even, and x less half of it as a sign and a fraction n / d. -/
def halfTurns (neg : Bool) (m : Nat) (e : Int) : Int × Bool × Nat × Nat :=
  let s := splitInt neg m (e + 1)
  let n := s.1
  let fr := s.2.1
  let d := s.2.2
  if 2 * fr < d ∨ (2 * fr = d ∧ n % 2 = 0) then (n, false, fr, 2 * d) else (n + 1, true, d - fr, 2 * d)

/-- The seven functions in a format of at most 16 bits, and reciprocal, reciprocal square root and square root in FP32:
0 ex2, 1 lg2, 2 rcp, 3 rsq, 4 sqrt, 5 sin, 6 cos (R156 ops 24 to 30; R164, R76). -/
def Fmt.sfuExact (f : Fmt) (frm : Word) (op c : Nat) : Nat × Nat :=
  let infinite := fun (neg : Bool) (dz : Nat) =>
    if f.inf then (f.signed neg f.infCode, dz)
    else ((Config.e4m3Infinite op c (satOf frm)).toNat, dz ||| (Config.e4m3InfiniteFlags op c (satOf frm)).toNat)
  match f.unpack c with
  | .nan s => f.mkNan s
  | .inf s =>
    match op with
    | 0 => if s then (0, 0) else (f.infCode, 0)
    | 1 | 4 => if s then f.mkNan true else (f.infCode, 0)
    | 2 => (f.signed s 0, 0)
    | 3 => if s then f.mkNan true else (0, 0)
    | _ => f.mkNan true
  | .fin s m e =>
    match op with
    | 0 =>
      if m = 0 then f.pack frm false 1 0
      else if 20 < (Nat.log2 m : Int) + e then
        if s then f.pack frm false 1 (-2 ^ 20) else f.pack frm false 1 (2 ^ 20)
      else
        let p := splitInt s m e
        if p.2.1 = 0 then f.pack frm false 1 p.1 else f.packFx frm false (exp2Fx p.2.1 p.2.2) p.1
    | 1 =>
      if m = 0 then infinite true fDZ
      else if s then f.mkNan true
      else
        let k := Nat.log2 m
        let ex : Int := k + e
        if m = 2 ^ k then f.pack frm (decide (ex < 0)) ex.natAbs 0
        else
          let v : Int := ex * fxOne + log2Fx m (2 ^ k)
          if v < 0 then f.packFx frm true (v.natAbs - 1) 0 else f.packFx frm false v.natAbs 0
    | 2 => if m = 0 then infinite s fDZ else f.packDiv frm s 1 m (-e)
    | 3 =>
      if m = 0 then infinite s fDZ
      else if s then f.mkNan true
      else
        let odd := (e % 2).toNat
        let d := m * 2 ^ odd
        let n := 2 ^ 120
        let r := isqrt (n / d) 61 0
        let j := jam r (-((e - odd) / 2) - 60) (decide (r * r * d ≠ n))
        f.pack frm false j.1 j.2
    | 4 => f.sqrtV frm (.fin s m e)
    | _ =>
      if op = 5 ∧ m = 0 then (f.signed s 0, 0)
      else
        let h := halfTurns s m e
        let q := if op = 5 then h.1 % 4 else (h.1 + 1) % 4
        let even := decide (q % 2 = 0)
        let neg := decide (2 ≤ q)
        if h.2.2.1 = 0 then if even then (0, 0) else f.pack frm neg 1 0
        else if even then f.packFx frm (neg != h.2.1) (sinFx h.2.2.1 h.2.2.2) 0
        else f.packFx frm neg (cosFx h.2.2.1 h.2.2.2) 0

/-! ### FP32 evaluations of R165 to R168: each step one FP32 operation rounded by RNE -/

/-- rne(n / 10^k, FP32) of a decimal. -/
def decC (neg : Bool) (n k : Nat) : Nat := (fp32.packDiv 0 neg n (10 ^ k) 0).1

/-- One step: fma. -/
def stFma (a b c : Nat) : Nat := (fp32.fmaV 0 (fp32.unpack a) (fp32.unpack b) (fp32.unpack c)).1
/-- One step: multiplication. -/
def stMul (a b : Nat) : Nat := (fp32.mulV 0 (fp32.unpack a) (fp32.unpack b)).1
/-- One step: addition. -/
def stAdd (a b : Nat) : Nat := (fp32.addV 0 (fp32.unpack a) (fp32.unpack b)).1

/-- T[j] of R166. -/
def tabT (j : Nat) : Nat := if j = 0 then 0x3F800000 else (fp32.packFx 0 false (exp2Fx j 16) 0).1

/-- Flags of a result under R165. -/
def sfuFlags (exact : Bool) (res : Nat) : Nat :=
  if exact then 0
  else if res % 2 ^ 31 = 0x7F800000 then fOF + fNX
  else if res % 2 ^ 31 < 0x00800000 then fUF + fNX
  else fNX

/-- vex2 in FP32 (R166) of ±m × 2^e. -/
def ex2F32 (s : Bool) (m : Nat) (e : Int) : Nat × Nat :=
  let x : FVal := .fin s m e
  if !ltExact x (.fin false 128 0) then (0x7F800000, fOF + fNX)
  else if ltExact x (.fin true 150 0) then (0, fUF + fNX)
  else
    let r := roundAt 0 s m (e + 4) 0
    let n : Int := if s then -(r.1 : Int) else r.1
    let j := (n % 16).toNat
    let mm := (n - n % 16) / 16
    let d := addExact 0 s m e (decide (0 < n)) n.natAbs (-4)
    let f := (fp32.pack 0 d.1 d.2.1 d.2.2).1
    let p := stFma f (decC false 961812911 11) (decC false 555041087 10)
    let p := stFma f p (decC false 240226507 9)
    let p := stFma f p (decC false 693147182 9)
    let p := stMul f p
    let y := stFma (tabT j) p (tabT j)
    let res := match fp32.unpack y with
      | .fin s' m' e' => (fp32.pack 0 s' m' (e' + mm)).1
      | _ => y
    let sp := splitInt s m e
    (res, sfuFlags (sp.2.1 == 0 && decide (-149 ≤ sp.1) && decide (sp.1 ≤ 127)) res)

/-- Y[j] of R167. -/
def tabY (j : Nat) : Nat :=
  if j = 0 then 0x3F800000 else if j = 15 then 0x3F000000 else (fp32.packDiv 0 false 32 (33 + 2 * j) 0).1

/-- L[j] of R167. -/
def tabL (j : Nat) : Nat :=
  if j = 0 then 0 else if j = 15 then 0x3F800000
  else match fp32.unpack (tabY j) with
    | .fin _ m _ => (fp32.packFx 0 false (fxOne - log2Fx m (2 ^ 23)) 0).1
    | _ => 0

/-- vlg2 in FP32 (R167) of a positive m × 2^e. -/
def lg2F32 (m : Nat) (e : Int) : Nat × Nat :=
  let k := Nat.log2 m
  let u := m * 2 ^ (23 - k)
  let uc := 0x3F800000 + (u - 2 ^ 23)
  let j := (u - 2 ^ 23) / 2 ^ 19
  let t := stFma uc (tabY j) 0xBF800000
  let p := stFma t (decC true 240449173 9) (decC false 288539008 9)
  let p := stFma t p (decC true 360673760 9)
  let p := stFma t p (decC false 480898347 9)
  let p := stFma t p (decC true 721347520 9)
  let p := stFma t p (decC false 144269504 8)
  let p := stMul t p
  let s := stAdd (cvtIF fp32 0 ((k : Int) + e)).1 (tabL j)
  let res := stAdd s p
  (res, sfuFlags (u == 2 ^ 23) res)

/-- vsin and vcos in FP32 (R168) of ±m × 2^e. -/
def trigF32 (isCos s : Bool) (m : Nat) (e : Int) : Nat × Nat :=
  if !isCos && m == 0 then (fp32.signed s 0, 0)
  else
    let h := halfTurns s m e
    let q := if isCos then (h.1 + 1) % 4 else h.1 % 4
    let f := if h.2.2.1 = 0 then 0 else (fp32.pack 0 h.2.1 h.2.2.1 (-(Nat.log2 h.2.2.2 : Int))).1
    let g := stMul f f
    let a := stFma g (decC false 821458866 10) (decC true 599264529 9)
    let a := stFma g a (decC false 255016404 8)
    let a := stFma g a (decC true 516771278 8)
    let a := stFma g a (decC false 314159274 8)
    let S := stMul f a
    let b := stFma g (decC true 258068914 10) (decC false 235330630 9)
    let b := stFma g b (decC true 133526277 8)
    let b := stFma g b (decC false 405871213 8)
    let b := stFma g b (decC true 493480220 8)
    let C := stFma g b 0x3F800000
    let v := if q % 2 = 0 then S else C
    let v := if 2 ≤ q then (v + 2 ^ 31) % 2 ^ 32 else v
    let v := if v % 2 ^ 31 = 0 then 0 else v
    (v, sfuFlags (h.2.2.1 == 0) v)

/-- The seven functions in any F5 format. -/
def Fmt.sfu (f : Fmt) (frm : Word) (op c : Nat) : Nat × Nat :=
  if f = fp32 then
    match op, f.unpack c with
    | 0, .fin s m e => ex2F32 s m e
    | 1, .fin s m e => if m = 0 ∨ s then f.sfuExact frm op c else lg2F32 m e
    | 5, .fin s m e => trigF32 false s m e
    | 6, .fin s m e => trigF32 true s m e
    | _, _ => f.sfuExact frm op c
  else f.sfuExact frm op c

end Sys2Proof.Machine
end

