-- ==== Sys2Proof/Machine/Operands.lean ====
section
/-! DEFINITION. Operand forms: windows and their checks (R106, R107), page tables and translation (R108 to R114), the place
that performs an access (R115), and reading and writing bytes there, with the regions of a pantry share that are more than
bytes (R254, R299, R303, R320, R383). -/

namespace Sys2Proof.Machine

/-- Bytes of a size code (R24). -/
def szBytes : Sz → Nat
  | .b | .bn => 1
  | .h | .hn => 2
  | .w | .wn => 4
  | .d => 8

/-- The value of the n low bits as a two's-complement number. -/
def sx (v n : Nat) : Int := if v % 2 ^ n < 2 ^ (n - 1) then (v % 2 ^ n : Nat) else (v % 2 ^ n : Nat) - (2 ^ n : Nat)

/-- sext(v, n) as a 64-bit word (R18). -/
def sextW (v n : Nat) : Word := BitVec.ofInt 64 (sx v n)

/-- What a load of a size writes (R24, R125). -/
def loadValue (z : Sz) (v : Nat) : Word :=
  match z with
  | .b => sextW v 8
  | .h => sextW v 16
  | .w => sextW v 32
  | .d | .bn | .hn | .wn => BitVec.ofNat 64 v

/-! ### Windows -/

/-- What an address selects (R106). -/
inductive Window where
  | lm (core off : Nat)
  | pantry (hearth off : Nat)
  | global (va : Nat)
  deriving DecidableEq, Repr

/-- Size of a partition's share in a hearth; 0 when it has none. -/
def State.shareSize (s : State) (part hearth : Nat) : Nat :=
  match s.part part with
  | some p => (p.shares.look hearth).getD 0
  | none => 0

/-- The window of an address used by work of a partition from a core, or none where R106 raises ADDR. -/
def State.window (s : State) (part core : Nat) (va : Word) : Option Window :=
  let a := va.toNat
  let top := a / 2 ^ 56
  let low := a % 2 ^ 56
  if top < 0x80 then some (.global a)
  else if top = 0xC0 then if low < 2 ^ 18 then some (.lm core low) else none
  else if top = 0xC1 then
    if low < 2 ^ 22 then some (.lm (16 * clusterOf core + low / 2 ^ 18) (low % 2 ^ 18)) else none
  else if top = 0xC2 then
    if low < 2 ^ 26 ∧ low < s.shareSize part (hearthOf core) then some (.pantry (hearthOf core) low) else none
  else if top = 0xC3 then
    if low < 2 ^ 30 ∧ low % 2 ^ 26 < s.shareSize part (low / 2 ^ 26) then some (.pantry (low / 2 ^ 26) (low % 2 ^ 26)) else none
  else none

/-- The offset in the own LM of an operand of n bytes that must lie wholly there (R106), aligned to al. DESIGN CHOICE (log 60): R106
checks the address alone; the model also refuses an operand whose last bytes run past the end of the LM, a strided vector element
at a misaligned address (R155) among them. -/
def State.ownLm (s : State) (part core : Nat) (va : Word) (n al : Nat) : Option Nat :=
  match s.window part core va with
  | some (.lm c off) => if c = core ∧ off + n ≤ 2 ^ 18 ∧ off % al = 0 then some off else none
  | _ => none

/-- The partition's placing hearth, or 16 where there is no partition. -/
def State.placing (s : State) (part : Nat) : Nat :=
  match s.part part with
  | some p => p.placing
  | none => 16

/-- A user-privilege access to the fixed regions of the placing hearth's share (R254, R259, R299, R383, R393): closed,
but for loads and `waitw` of a record. -/
def State.closed (s : State) (part hearth off : Nat) (load : Bool) : Bool :=
  hearth == s.placing part && decide (off < 0x200000) && !(load && decide (0x80000 ≤ off) && decide (off < 0xC0000))

/-! ### Page tables -/

/-- Bytes of HBM (R8). -/
def hbmSize : Nat := 1536 * 2 ^ 30
/-- Bytes of the far tier (R8). -/
def farSize : Nat := 4096 * 2 ^ 30

/-- A page-table entry (R109), as its two doublewords. -/
structure Pte where
  lo : Nat
  hi : Nat
  deriving DecidableEq, Repr

/-- Bit n of a number. -/
def bitAt (v n : Nat) : Bool := decide (v / 2 ^ n % 2 = 1)

/-- The address of the next table or of the page. -/
def Pte.addr (e : Pte) : Nat := e.lo / 2 ^ 9 % 2 ^ 43 * 2 ^ 9

/-- The leaf of an entry whose page has a size. -/
def Pte.toLeaf (e : Pte) (size : Nat) : Leaf :=
  { part := e.hi / 2 ^ 14 % 128, home := e.hi % 2 ^ 14, tier := e.lo / 2 ^ 60 % 4, cls := e.lo / 2 ^ 58 % 4,
    r := bitAt e.lo 57, w := bitAt e.lo 56, x := bitAt e.lo 55, sec := bitAt e.lo 54, pa := e.addr, size := size }

/-- Level l of a walk (R108): the low bit it indexes, its index bits, its table size and its page size (0: no leaf). -/
def levelOf : Nat → Nat × Nat × Nat × Nat
  | 0 => (48, 15, 2 ^ 19, 0)
  | 1 => (39, 9, 2 ^ 13, 0)
  | 2 => (30, 9, 2 ^ 13, 2 ^ 30)
  | 3 => (21, 9, 2 ^ 13, 2 ^ 21)
  | _ => (16, 5, 2 ^ 9, 2 ^ 16)

/-- An entry of level l is malformed (R110, R111) for a walk of the partition. -/
def State.malformed (s : State) (part l : Nat) (e : Pte) : Bool :=
  let mbz := e.hi / 2 ^ 21 != 0 || e.lo / 2 ^ 52 % 4 != 0 || e.lo % 2 ^ 9 != 0
  if bitAt e.lo 62 then
    let lf := e.toLeaf (levelOf l).2.2.2
    mbz || lf.size == 0 || lf.pa % lf.size != 0 || lf.tier == 3 || lf.cls == 3 ||
      (if lf.cls = 0 then
        lf.x || (lf.part == part && !(match s.part part with | some p => p.worker lf.home | none => false))
      else lf.w || (lf.cls == 2 && lf.x))
  else mbz || l == 4 || e.hi != 0 || e.lo / 2 ^ 54 % 2 ^ 8 != 0 || (decide (l < 3) && e.addr % 2 ^ 13 != 0)

/-- The result of a walk: reason 1 or 6, or the leaf and the first address of its page. -/
inductive WalkRes where
  | bad (reason : Nat)
  | leaf (base : Nat) (l : Leaf)
  deriving DecidableEq, Repr

/-- Walks from level l with a table at an address (R111); n levels are left. -/
def State.walkFrom (s : State) (part va : Nat) : Nat → Nat → Nat → WalkRes
  | 0, _, _ => .bad 6
  | n + 1, l, table =>
    let (lo, len, size, page) := levelOf l
    if hbmSize < table + size then .bad 6
    else
      let at_ := table + 16 * (va / 2 ^ lo % 2 ^ len)
      let e : Pte := ⟨s.hbm.read at_ 8, s.hbm.read (at_ + 8) 8⟩
      if !bitAt e.lo 63 then .bad 1
      else if s.malformed part l e then .bad 6
      else if bitAt e.lo 62 then .leaf (va / page * page) (e.toLeaf page)
      else s.walkFrom part va n (l + 1) e.addr

/-- The walk of a global address in a partition's tables. -/
def State.walkTables (s : State) (part va : Nat) : WalkRes :=
  match s.part part with
  | some p => s.walkFrom part va 5 0 p.root
  | none => .bad 1

/-- Kinds of access that a translation permits. -/
inductive AccessKind where
  | load | store | fetch
  deriving DecidableEq, Repr

/-- The host links that hosts are on. -/
def Firmware.links (f : Firmware) : List Nat :=
  match f.hostLinks with
  | [] => [16, 17]
  | l => l.flatMap fun h => h.2

/-- The far-tier port or a host link behind a physical address is down: 256 GiB for each of the 16 far-tier ports; links 16 and 17 are
the host links, and one that is down makes every access to a page of host memory fail (R367). -/
def State.unreached (s : State) (l : Leaf) (off : Nat) : Bool :=
  if l.tier = 1 then s.down.contains ((l.pa + off) / 2 ^ 38)
  else if l.tier = 2 then s.fw.links.any s.down.contains
  else false

/-- The reason at the leaf (R111): PARTITION, SECURE, CLASS, PERM, BACKING in this order; 0 when none applies. -/
def State.leafReason (s : State) (part : Nat) (sec : Bool) (k : AccessKind) (l : Leaf) (off : Nat) : Nat :=
  if l.part ≠ part then 4
  else if l.sec ∧ !sec then 5
  else if k = .store ∧ l.cls ≠ 0 then 3
  else if (k = .load ∧ !l.r) ∨ (k = .store ∧ !l.w) ∨ (k = .fetch ∧ !l.x) then 2
  else if s.unreached l off then 7
  else 0

/-- The leaf is within the memory the module has (R8). -/
def Leaf.exists_ (l : Leaf) (off : Nat) : Bool :=
  if l.tier = 0 then decide (l.pa + off < hbmSize) else if l.tier = 1 then decide (l.pa + off < farSize) else true

/-- Puts a translation into the core and cluster TLBs; the oldest entry of a full one is dropped (R112). -/
def State.tlbFill (s : State) (core : Nat) (e : TlbEntry) : State :=
  let s := s.modCore core fun c => { c with tlb := (e :: c.tlb).take 256 }
  let cl := s.cluster (clusterOf core)
  s.setCluster (clusterOf core) { cl with tlb := (e :: cl.tlb).take 4096 }

/-- A translation for units that do not wait (engines, the placer, the fabric unit, hosts): a leaf or a reason. -/
def State.translateNow (s : State) (core part : Nat) (sec : Bool) (k : AccessKind) (va : Nat) : Except Nat TlbEntry :=
  let e := match s.tlbFind core part va with
    | some e => Except.ok e
    | none => match s.walkTables part va with
      | .bad r => .error r
      | .leaf b l => .ok ⟨part, b, l⟩
  match e with
  | .error r => .error r
  | .ok e => let r := s.leafReason part sec k e.leaf (va - e.base); if r = 0 then .ok e else .error r

/-- The page of a walk: what the tables give for an address, or its 64 KiB where they give none. -/
def State.walkPage (s : State) (part va : Nat) : Nat × Nat :=
  match s.walkTables part va with
  | .leaf base l => (base, l.size)
  | .bad _ => (va / 2 ^ 16 * 2 ^ 16, 2 ^ 16)

/-- A walk in progress is one for the page of an address (R114). -/
def State.walkServes (s : State) (part va : Nat) (w : Walk) : Bool :=
  let pg := s.walkPage part va
  w.part == part && decide (pg.1 ≤ w.page * 2 ^ 16) && decide (w.page * 2 ^ 16 < pg.1 + pg.2)

/-- A thread's walk begins: it merges into a walk for the page, or takes one of the hearth's 512 walks, or none is free (R114). -/
def State.joinWalk (s : State) (tid part page : Nat) : Option State :=
  let h := hearthOf (coreOf tid)
  let x := s.hearth h
  let serves := s.walkServes part (page * 2 ^ 16)
  if x.walks.any serves then
    some (s.setHearth h { x with walks := x.walks.map fun w => if serves w then { w with tids := w.tids ++ [tid] } else w })
  else if x.walks.length < 512 then
    some ((s.setHearth h { x with walks := x.walks ++ [⟨part, page, [tid]⟩] }).sig (coreOf tid) 23)
  else none

/-- Starts a walk for the thread, merges it into one of its partition for the page, or parks it in walk-wait (R114). -/
def State.startWalk (s : State) (t : Thread) (va : Nat) : Out :=
  let s := s.sig (coreOf s.cur) 22
  match s.joinWalk s.cur t.part (va / 2 ^ 16) with
  | some s => s.hold t (.walk (va / 2 ^ 16))
  | none => s.hold t (.walkWait (va / 2 ^ 16))

/-- The translation of a thread's address: goes on with the leaf, in the state after the look for it, or with the reason of a walk that has
failed, or waits. -/
def State.translate (s : State) (t : Thread) (va : Nat) (k : State → Except Nat TlbEntry → Out) : Out :=
  match s.tlbFind (coreOf s.cur) t.part va with
  | some e => k (s.looked (coreOf s.cur) t.part va) (.ok e)
  | none =>
    match t.walkRes with
    | some (page, r) => if page = va / 2 ^ 16 then k s (.error r) else s.startWalk t va
    | none => s.startWalk t va

/-! ### Pantry regions that are more than bytes -/

/-- First offset of the queue descriptors (R254). -/
def queueOff : Nat := 0x160000

/-- D0 of a queue descriptor (R254). -/
def Queue.d0 (q : Queue) : Nat := bit q.closed * 2 ^ 63 + q.depth % 512 * 2 ^ 32 + q.items.length % 512
/-- D1 of a queue descriptor (R254). -/
def Queue.d1 (q : Queue) : Nat := bit q.live * 2 ^ 63 + bit q.nest * 2 ^ 62

/-- A queue of a partition. -/
def Partition.queue (p : Partition) (q : Nat) : Queue := (p.queues.look q).getD {}

/-- Offsets below 2 MiB that R383 does not list, and the item storage: read as zero and ignore writes. -/
def reservedOff (off : Nat) : Bool :=
  (decide (0x144040 ≤ off) && decide (off < 0x150000)) || (decide (0x154000 ≤ off) && decide (off < 0x160000)) ||
  (decide (0x164000 ≤ off) && decide (off < 0x200000))

/-- Word of a queue descriptor that an offset of the descriptors' region lies in. -/
def Partition.queueWord (p : Partition) (off : Nat) : Nat :=
  let q := p.queue ((off - queueOff) / 64)
  match (off - queueOff) % 64 / 8 with
  | 0 => q.d0
  | 1 => q.d1
  | _ => 0

/-- The bits of a byte of the crumb store descriptor that are kept: the others of its doublewords 3 to 5 read as zero (R5, R320). -/
def controlMask (off : Nat) : Nat :=
  let word := fun (d : Nat) => if d = 0x144018 then 2 ^ 63 + (2 ^ 32 - 1) else if d = 0x144020 then 2 ^ 52 - 1
    else if d = 0x144028 then 0xF1F else 2 ^ 64 - 1
  word (off / 8 * 8) / 256 ^ (off % 8) % 256

/-- n bytes with the bits of the crumb store descriptor that are kept. -/
def maskedRead (m : Memory) (off : Nat) : Nat → Nat
  | 0 => 0
  | n + 1 => ((m.byte off).toNat &&& controlMask off) + 256 * maskedRead m (off + 1) n

/-- The n bytes at an offset of a share (n divides 8, or 16 aligned words), as loads see them. -/
def State.readShare (s : State) (part hearth off n : Nat) : Nat :=
  if hearth = s.placing part ∧ off < 0x200000 ∧ queueOff ≤ off ∧ off < 0x164000 then
    match s.part part with
    | some p =>
      if n ≤ 8 then p.queueWord off / 256 ^ (off % 8) % 256 ^ n
      else p.queueWord off + 2 ^ 64 * p.queueWord (off + 8)
    | none => 0
  else if hearth = s.placing part ∧ reservedOff off then 0
  else if hearth = s.placing part ∧ 0x144018 < off + n ∧ off < 0x144030 then maskedRead (s.mem (.share part hearth)) off n
  else (s.mem (.share part hearth)).read off n

/-- The n bytes at a location. -/
def State.readLoc (s : State) (l : Loc) (n : Nat) : Nat :=
  match l.space with
  | .share p h => s.readShare p h l.off n
  | sp => (s.mem sp).read l.off n

/-- The place evaluates its waiters on a doubleword after an access (R252). -/
def State.fire (s : State) (l : Loc) (n : Nat) : State := s.fireBy (fun l => s.readLoc l 8) l n

/-- The effects that a store of n bytes at a share's fixed regions has in its cc: a VERDICT (R301), a STATE (R302), EN (R321). -/
def State.afterStore (s : State) (part hearth off n : Nat) : State :=
  match s.part part with
  | none => s
  | some p =>
    if hearth ≠ p.placing ∨ 0x200000 ≤ off then s
    else
      let m := s.mem (.share part hearth)
      if 0xC0000 ≤ off ∧ off < 0x140000 then
        let f := (off - 0xC0000) / 128
        let v := m.read (faultOff f) 8
        if (p.faults.look f).isSome ∧ off % 128 < 8 ∧ 1 ≤ v ∧ v ≤ 3 then { s with urgent := s.urgent ++ [.verdict part f] } else s
      else if 0x140000 ≤ off ∧ off < 0x144000 then
        let e := (off - 0x140000) / 64
        if (p.ring.look e).isSome ∧ off % 64 < 8 ∧ m.read (0x140000 + 64 * e) 8 = 2 then
          { s with urgent := s.urgent ++ [.syscall part e] } else s
      else if 0x144018 < off + n ∧ off < 0x144020 then
        let en := bitAt (m.read 0x144018 8) 63
        if en && !p.store.en then { s with urgent := s.urgent ++ [.crumbOn part] }
        else if !en && p.store.en then { s with urgent := s.urgent ++ [.crumbOff part] }
        else s
      else s

/-- A store to a queue descriptor at service or monitor privilege (R254). -/
def State.storeQueue (s : State) (part : Nat) (p : Partition) (off n v : Nat) : State :=
  let q := (off - queueOff) / 64
  let x := p.queue q
  let old := p.queueWord off
  let sh := 256 ^ (off % 8)
  let new := old - old / sh % 256 ^ n * sh + v % 256 ^ n * sh
  match (off - queueOff) % 64 / 8 with
  | 0 => if x.live then s else s.setPart part { p with queues := p.queues.put q { x with depth := new / 2 ^ 32 % 512 } }
  | 1 =>
    if x.nest then s
    else if !x.live && bitAt new 63 && !bitAt new 62 && decide (1 ≤ x.depth) && decide (x.depth ≤ 256) then
      { s with urgent := s.urgent ++ [.queueCreate part q] }
    else if x.live && !bitAt new 63 then { s with urgent := s.urgent ++ [.queueRemove part q] }
    else s
  | _ => s

/-- Writes the n low bytes of v at a location, with the effects the place gives the store in its cc. -/
def State.writeLoc (s : State) (l : Loc) (n v : Nat) : State :=
  match l.space with
  | .share p h =>
    if h = s.placing p ∧ queueOff ≤ l.off ∧ l.off < 0x164000 then
      match s.part p with
      | some x =>
        if n ≤ 8 then (s.storeQueue p x l.off n v).fire l n
        else
          let s := s.storeQueue p x l.off 8 v
          match s.part p with
          | some x => (s.storeQueue p x (l.off + 8) 8 (v / 2 ^ 64)).fire l n
          | none => s
      | none => s
    else if h = s.placing p ∧ reservedOff l.off then s
    else (((s.setMem l.space ((s.mem l.space).write l.off n v)).fire l n).afterStore p h l.off n)
  | sp => (s.setMem sp ((s.mem sp).write l.off n v)).fire l n

/-! ### The access sequence of R124 -/

/-- Where an access goes once its checks have passed. -/
inductive Target where
  /-- Performed at issue: own LM, own home, or a replicable or crumb page through any L1. -/
  | own (l : Loc)
  /-- Performed by a parcel at the place; the counter that a posted access raises. -/
  | far (p : Place) (l : Loc) (ctr : Nat)
  deriving DecidableEq, Repr

/-- An LM line that is marked poisoned (R307). -/
def State.isPoisoned (s : State) (core off : Nat) : Bool := (s.core core).poisoned.contains (off / 64)

/-- Whether the thread's access is of a global page: lock space and address for the check of R213. -/
def State.locked (s : State) (sp : LockSpace) (lo n : Nat) (write : Bool) : Bool :=
  s.lockHit (coreOf s.cur) sp lo (lo + n) write

/-- R124: window, alignment, translation, range locks; then the access goes on with its target. `k` is the kind that the
translation must permit, `write` what the range check takes the access for, `userLoad` whether user privilege reaches the
record region. The fixed regions of the placing hearth's share are closed at user privilege. -/
def State.access (s : State) (t : Thread) (va : Word) (n : Nat) (kind : AccessKind) (write userLoad : Bool)
    (k : State → Target → Out) : Out :=
  let me := coreOf s.cur
  match s.window t.part me va with
  | none => s.addr t va
  | some w =>
    if va.toNat % n ≠ 0 then s.addr t va
    else match w with
      | .lm c off =>
        if c = me then
          if s.locked (.lm me) off n write then s.trap t 0x02 va
          else if s.isPoisoned me off then s.trap t 0x15 va 4
          else k s (.own ⟨.lm me, off⟩)
        else if s.locked (.lm c) off n write then s.trap t 0x02 va
        else if (s.core c).lost then s.trap t 0x15 va 5
        else k s (.far (.lm c) ⟨.lm c, off⟩ 0)
      | .pantry h off =>
        if t.priv = 0 ∧ s.closed t.part h off userLoad then s.addr t va
        else if s.locked (.pantry h) off n write then s.trap t 0x02 va
        else k s (.far (.pantry h) ⟨.share t.part h, off⟩ (if h = hearthOf me then 1 else 2))
      | .global a =>
        s.translate t a fun s r =>
          match r with
          | .error reason => s.pageFault t va reason
          | .ok e =>
            let reason := s.leafReason t.part t.sec kind e.leaf (a - e.base)
            if reason ≠ 0 then s.pageFault t va reason
            else if s.locked .global a n write then s.trap t 0x02 va
            else if !e.leaf.exists_ (a - e.base) then .fault (.noMemory e.leaf.tier (e.leaf.pa + (a - e.base)))
            else
              let l : Loc := ⟨.phys e.leaf.tier, e.leaf.pa + (a - e.base)⟩
              if e.leaf.cls ≠ 0 ∨ e.leaf.home = me then k s (.own l)
              else if (s.core e.leaf.home).lost then s.trap t 0x15 va 5
              else k s (.far (.home e.leaf.home) l (ctrFor me e.leaf.home))

/-- A range of LM bytes of the own core read or written by a form that reaches LM with thread accesses of doublewords
(R213): LOCKHIT names the first doubleword that meets a range. -/
def State.lmAccess (s : State) (t : Thread) (va : Word) (n al : Nat) (write : Bool) (k : State → Nat → Out) : Out :=
  match s.ownLm t.part (coreOf s.cur) va n al with
  | none => s.addr t va
  | some off =>
    match (numsFrom 0 (n / 8)).find? fun i => s.locked (.lm (coreOf s.cur)) (off + 8 * i) 8 write with
    | some i => s.trap t 0x02 (va + BitVec.ofNat 64 (8 * i))
    | none =>
      match (numsFrom 0 (n / 8)).find? fun i => s.isPoisoned (coreOf s.cur) (off + 8 * i) with
      | some i => s.trap t 0x15 (va + BitVec.ofNat 64 (8 * i)) 4
      | none => k (s.sig (coreOf s.cur) 31) off

/-! ### Reading and combining at the place -/

/-- The old and new value of an atomic of n bytes (R127). -/
def amoNew (k : AmoKind) (n a b e : Nat) : Nat :=
  let m := 2 ^ (8 * n)
  match k with
  | .add => (a + b) % m
  | .and => a &&& b % m
  | .or => a ||| b % m
  | .xor => a ^^^ b % m
  | .min => if sx a (8 * n) ≤ sx b (8 * n) then a else b % m
  | .max => if sx a (8 * n) ≤ sx b (8 * n) then b % m else a
  | .minn => Nat.min a (b % m)
  | .maxn => Nat.max a (b % m)
  | .swap => b % m
  | .cas => if a = e % m then b % m else a

/-- An atomic writes unless it is a cas that fails (R127). -/
def amoWrites (k : AmoKind) (n a e : Nat) : Bool := k != .cas || a == e % 2 ^ (8 * n)

/-- Performs an atomic at a location: the state after it and the old value. -/
def State.doAmo (s : State) (k : AmoKind) (l : Loc) (n b e : Nat) : State × Nat :=
  let a := s.readLoc l n
  (if amoWrites k n a e then s.writeLoc l n (amoNew k n a b e) else s, a)

/-- The new value of a reduction of n bytes (R128). -/
def redNew (k : RedKind) (n a b : Nat) : Nat :=
  match k with
  | .add => amoNew .add n a b 0
  | .and => amoNew .and n a b 0
  | .or => amoNew .or n a b 0
  | .xor => amoNew .xor n a b 0
  | .min => amoNew .min n a b 0
  | .max => amoNew .max n a b 0

/-- Performs a reduction at a location. -/
def State.doRed (s : State) (k : RedKind) (l : Loc) (n b : Nat) : State :=
  s.writeLoc l n (redNew k n (s.readLoc l n) b)

end Sys2Proof.Machine
end

