-- ==== Sys2Proof/Machine/Vector.lean ====
section
/-! DEFINITION. The vector engine (spec/07): contexts, commands and their issue, the element operations, beats and the
restart record (R142 to R177). -/

namespace Sys2Proof

/-- Bits of a sub-element of a type (R154). -/
def VType.bitsOf (t : VType) : Nat := 32 / t.pack
/-- A signed integer type. -/
def VType.signed : VType → Bool
  | .i32 | .i16 | .i8 => true
  | _ => false
/-- The format of a floating-point type. -/
def VType.fmt : VType → Machine.Fmt
  | .f16 => Machine.fp16
  | .bf16 => Machine.bf16
  | .e4m3 => Machine.e4m3
  | .e5m2 => Machine.e5m2
  | _ => Machine.fp32
/-- An integer sub-element by its type. -/
def VType.int (t : VType) (v : Nat) : Int := if t.signed then Machine.sx v t.bitsOf else (v % 2 ^ t.bitsOf : Nat)
/-- The range of an integer type. -/
def VType.lo (t : VType) : Int := if t.signed then -(2 ^ (t.bitsOf - 1) : Nat) else 0
/-- The range of an integer type. -/
def VType.hi (t : VType) : Int := if t.signed then (2 ^ (t.bitsOf - 1) : Nat) - 1 else (2 ^ t.bitsOf : Nat) - 1
/-- Bytes of an element in LM (R175). -/
def VType.bytes (t : VType) : Nat := t.bitsOf / 8

end Sys2Proof

namespace Sys2Proof.Machine

/-! ### Contexts (R142) -/

/-- The vector context of a thread. -/
def Core.ctx (c : Core) (tid : Nat) : VCtx := (c.vctx.find? fun v => v.holder == some tid).getD {}
/-- Replaces the vector context of a thread. -/
def Core.setCtx (c : Core) (tid : Nat) (x : VCtx) : Core :=
  { c with vctx := c.vctx.map fun v => if v.holder = some tid then x else v }
/-- Element i of vk as 32 bits. -/
def VCtx.el (x : VCtx) (k i : Nat) : Nat := ((x.v.look (64 * k + i)).getD 0).toNat
/-- Writes element i of vk. -/
def VCtx.setEl (x : VCtx) (k i v : Nat) : VCtx := { x with v := x.v.store (64 * k + i) (BitVec.ofNat 32 v) 0 }
/-- Mask mk; m0 reads as all ones. -/
def VCtx.mask (x : VCtx) (k : Nat) : Word := if k = 0 then BitVec.allOnes 64 else (x.m.look k).getD 0
/-- Writes mask mk; m0 cannot be written. -/
def VCtx.setMask (x : VCtx) (k : Nat) (w : Word) : VCtx := if k = 0 then x else { x with m := x.m.store k w 0 }

/-! ### Sub-elements (R154) -/

/-- Sub-element s of width w. -/
def sub (v w s : Nat) : Nat := v / 2 ^ (w * s) % 2 ^ w
/-- The low w bits of an integer. -/
def lowBits (v : Int) (w : Nat) : Nat := (v % (2 ^ w : Nat)).toNat
/-- An element computed sub-element by sub-element, with the flags ORed (R57). -/
def packed (t : VType) (f : Nat → Nat × Nat) : Nat × Nat :=
  (numsFrom 0 t.pack).foldl (fun acc s => let r := f s; (acc.1 + r.1 % 2 ^ t.bitsOf * 2 ^ (t.bitsOf * s), acc.2 ||| r.2)) (0, 0)

/-- An integer operation on one element (R158). -/
def intOp (t : VType) (f : Int → Int → Int) (a b : Nat) : Nat × Nat :=
  packed t fun s => (lowBits (f (t.int (sub a t.bitsOf s)) (t.int (sub b t.bitsOf s))) t.bitsOf, 0)
/-- A shift of one element (R158): the value as the shift takes it, and the amount modulo the width. -/
def shiftOp (t : VType) (f : Nat → Nat → Nat) (a b : Nat) : Nat × Nat :=
  packed t fun s => (f (sub a t.bitsOf s) (sub b t.bitsOf s % t.bitsOf), 0)
/-- A floating-point operation on one element (R159). -/
def floatOp (t : VType) (f : Fmt → Nat → Nat → Nat → Nat × Nat) (a b d : Nat) : Nat × Nat :=
  packed t fun s => f t.fmt (sub a t.bitsOf s) (sub b t.bitsOf s) (sub d t.bitsOf s)

/-- Conversion of one source sub-element to a 32-bit element (R162). -/
def vcvtOne (t z : VType) (frm : Word) (v : Nat) : Nat × Nat :=
  match t, z with
  | .f32, .i32 => cvtIF fp32 frm (sx v 32)
  | .f32, .n32 => cvtIF fp32 frm v
  | .f32, .e2m1x => match unpackE2m1 v with
    | .fin s m e => fp32.pack frm s m e
    | _ => (0, 0)
  | .f32, z => cvtFF z.fmt fp32 frm v
  | .i32, .f32 => let r := cvtFI fp32 (rmOf frm) (-2 ^ 31) (2 ^ 31 - 1) v; (lowBits r.1 32, r.2)
  | .n32, .f32 => let r := cvtFI fp32 (rmOf frm) 0 (2 ^ 32 - 1) v; (lowBits r.1 32, r.2)
  | _, z => (lowBits (z.int v) 32, 0)

/-- Conversion of a 32-bit element to a narrower sub-element (R163). -/
def vpkOne (t : VType) (frm : Word) (v : Nat) : Nat × Nat :=
  match t with
  | .e2m1x => toE2m1 frm v
  | .f16 | .bf16 | .e4m3 | .e5m2 => cvtFF fp32 t.fmt frm v
  | _ => (lowBits (satI (if t.signed then sx v 32 else (v : Int)) t.lo t.hi) t.bitsOf, 0)

/-- The starter mix (R169). -/
def starterMix (key : Word) (c : Nat) : Nat :=
  let h := c ^^^ bits key 0 32
  let h := h * 0x7FEB352D % 2 ^ 32
  let h := h ^^^ h / 2 ^ 16
  let h := h ^^^ bits key 32 32
  let h := h * 0x846CA68B % 2 ^ 32
  h ^^^ h / 2 ^ 15

/-! ### What a command is -/

/-- The governing mask of a command (R151). -/
def Instr.vmask : Instr → Nat
  | .vadd _ _ _ k _
  | .vsub _ _ _ k _
  | .vmul _ _ _ k _
  | .vmulh _ _ _ k _
  | .vmin _ _ _ k _
  | .vmax _ _ _ k _
  | .vand _ _ _ k
  | .vor _ _ _ k
  | .vxor _ _ _ k
  | .vsll _ _ _ k _
  | .vsrl _ _ _ k _
  | .vsra _ _ _ k _
  | .vadds _ _ _ k _
  | .vsubs _ _ _ k _
  | .vcmpEq _ _ _ k _
  | .vcmpNe _ _ _ k _
  | .vcmpLt _ _ _ k _
  | .vcmpLe _ _ _ k _
  | .vsel _ _ _ k
  | .vrsum _ _ k _
  | .vrmax _ _ k _
  | .vperm _ _ _ k
  | .vfadd _ _ _ k _
  | .vfsub _ _ _ k _
  | .vfmul _ _ _ k _
  | .vfma _ _ _ k _
  | .vfmin _ _ _ k _
  | .vfmax _ _ _ k _
  | .vfcmpEq _ _ _ k
  | .vfcmpLt _ _ _ k
  | .vfcmpLe _ _ _ k
  | .vfcmpUn _ _ _ k
  | .vcvt _ _ _ k _
  | .vpk _ _ _ k _
  | .vex2 _ _ k _
  | .vlg2 _ _ k _
  | .vrcp _ _ k _
  | .vrsq _ _ k _
  | .vsqrt _ _ k _
  | .vsin _ _ k _
  | .vcos _ _ k _
  | .vrsumF32 _ _ k
  | .vrmaxF32 _ _ k
  | .vld _ _ k _
  | .vst _ _ k _
  | .vlds _ _ _ k _
  | .vsts _ _ _ k _
  | .vldg _ _ _ k _
  | .vstg _ _ _ k _
  | .vbc _ _ k
  | .vrng _ _ k _
  | .vfix _ _ _ k
  | .vslide _ _ _ k
  | .vacc _ _ _ k _ => k.val
  | _ => 0

/-- How a command runs (R156): elements in a beat and beats beyond those for its elements; `none` for the fixed number of
beats of the forms that no element governs. -/
inductive VShape where
  | elems (per : Nat)
  | whole (extra : Nat)
  | fixed (beats : Nat)
  deriving DecidableEq, Repr

/-- The shape of a command. -/
def Instr.vshape : Instr → VShape
  | .vrsum _ _ _ _ | .vrmax _ _ _ _ | .vrsumF32 _ _ _ | .vrmaxF32 _ _ _ | .vfix _ _ _ _ => .whole 2
  | .vperm _ _ _ _ | .vslide _ _ _ _ => .whole 1
  | .vpk _ _ _ _ _ => .whole 0
  | .vmand _ _ _ | .vmor _ _ _ | .vmxor _ _ _ | .vmandn _ _ _ | .vmovgv _ _ _ | .vmovvg _ _ _ | .vmovvgD _ _ | .vmpop _ _ => .fixed 1
  | .vunfix _ _ _ => .fixed 2
  | .vex2 _ _ _ _ | .vlg2 _ _ _ _ | .vrcp _ _ _ _ | .vrsq _ _ _ _ | .vsqrt _ _ _ _ | .vsin _ _ _ _ | .vcos _ _ _ _
  | .vlds _ _ _ _ _ | .vsts _ _ _ _ _ | .vldg _ _ _ _ _ | .vstg _ _ _ _ _ => .elems 4
  | _ => .elems 16

/-- The entry of the charge table that a command charges (R151). -/
def Instr.vcharge : Instr → Nat
  | .vex2 _ _ _ _ | .vlg2 _ _ _ _ | .vrcp _ _ _ _ | .vrsq _ _ _ _ | .vsqrt _ _ _ _ | .vsin _ _ _ _ | .vcos _ _ _ _ => 4
  | _ => 3

/-- The tile that a `vacc` reads (R176). -/
def Instr.vaccTile : Instr → Option Nat
  | .vacc _ _ i _ _ => some i.val
  | _ => none

/-- The LM access of a memory form (R175): store, 0 contiguous 1 strided 2 by index, register, index register, type. -/
def Instr.vmem : Instr → Option (Bool × Nat × Nat × Nat × VType)
  | .vld d _ _ t => some (false, 0, d, 0, t)
  | .vst d _ _ t => some (true, 0, d, 0, t)
  | .vlds d _ i _ t => some (false, 1, d, i, t)
  | .vsts d _ i _ t => some (true, 1, d, i, t)
  | .vldg d _ i _ t => some (false, 2, d, i, t)
  | .vstg d _ i _ t => some (true, 2, d, i, t)
  | _ => none

/-- The address of element i of a contiguous or strided form (R175). -/
def vaddr (kind : Nat) (x y : Word) (t : VType) (i : Nat) : Word :=
  x + BitVec.ofNat 64 i * (if kind = 0 then BitVec.ofNat 64 t.bytes else y)

/-- The offset of element i of a gather or scatter (R175). -/
def gatherOff (x : Word) (idx : Nat) (t : VType) : Nat := (bits x 0 18 + idx * t.bytes) % 2 ^ 18

/-- Element i is active for a command (R151). -/
def VCmd.active (c : VCmd) (x : VCtx) (i : Nat) : Bool :=
  decide (i < c.vl) && (x.mask (Instr.vmask c.ins)).toNat.testBit i

/-- What a command writes to element i (R158 to R176, element by element): the register, value and flags. -/
def VCmd.elem (c : VCmd) (x : VCtx) (tile : Nat → Word) (eacc i : Nat) : Option (Nat × Nat × Nat) :=
  let e := fun (r : VReg) => x.el r i
  let put := fun (d : VReg) (r : Nat × Nat) => some (d.val, r.1, r.2)
  match c.ins with
  | .vadd d a b _ t =>
    put d (intOp t (fun p q => p + q) (e a) (e b))
  | .vsub d a b _ t =>
    put d (intOp t (fun p q => p - q) (e a) (e b))
  | .vmul d a b _ t =>
    put d (intOp t (fun p q => p * q) (e a) (e b))
  | .vmulh d a b _ t =>
    put d (intOp t (fun p q => p * q / (2 ^ t.bitsOf : Nat)) (e a) (e b))
  | .vmin d a b _ t =>
    put d (intOp t (fun p q => min p q) (e a) (e b))
  | .vmax d a b _ t =>
    put d (intOp t (fun p q => max p q) (e a) (e b))
  | .vand d a b _ =>
    put d (e a &&& e b, 0)
  | .vor d a b _ =>
    put d (e a ||| e b, 0)
  | .vxor d a b _ =>
    put d (e a ^^^ e b, 0)
  | .vsll d a b _ t =>
    put d (shiftOp t (fun v n => v * 2 ^ n) (e a) (e b))
  | .vsrl d a b _ t =>
    put d (shiftOp t (fun v n => v / 2 ^ n) (e a) (e b))
  | .vsra d a b _ t =>
    put d (shiftOp t (fun v n => lowBits (sx v t.bitsOf / (2 ^ n : Nat)) t.bitsOf) (e a) (e b))
  | .vadds d a b _ t =>
    put d (intOp t (fun p q => satI (p + q) t.lo t.hi) (e a) (e b))
  | .vsubs d a b _ t =>
    put d (intOp t (fun p q => satI (p - q) t.lo t.hi) (e a) (e b))
  | .vfadd d a b _ t =>
    put d (floatOp t (fun f p q _ => f.addV c.frm (f.unpack p) (f.unpack q)) (e a) (e b) (e d))
  | .vfsub d a b _ t =>
    put d (floatOp t (fun f p q _ => f.addV c.frm (f.unpack p) (f.unpack q).neg) (e a) (e b) (e d))
  | .vfmul d a b _ t =>
    put d (floatOp t (fun f p q _ => f.mulV c.frm (f.unpack p) (f.unpack q)) (e a) (e b) (e d))
  | .vfma d a b _ t =>
    put d (floatOp t (fun f p q r => f.fmaV c.frm (f.unpack p) (f.unpack q) (f.unpack r)) (e a) (e b) (e d))
  | .vfmin d a b _ t =>
    put d (floatOp t (fun f p q _ => f.minmax false p q) (e a) (e b) (e d))
  | .vfmax d a b _ t =>
    put d (floatOp t (fun f p q _ => f.minmax true p q) (e a) (e b) (e d))
  | .vcvt d a z _ t =>
    put d (vcvtOne t z c.frm (sub (x.el a (i / z.pack)) z.bitsOf (i % z.pack)))
  | .vex2 d a _ t =>
    put d (floatOp t (fun f p _ _ => f.sfu c.frm 0 p) (e a) 0 0)
  | .vlg2 d a _ t =>
    put d (floatOp t (fun f p _ _ => f.sfu c.frm 1 p) (e a) 0 0)
  | .vrcp d a _ t =>
    put d (floatOp t (fun f p _ _ => f.sfu c.frm 2 p) (e a) 0 0)
  | .vrsq d a _ t =>
    put d (floatOp t (fun f p _ _ => f.sfu c.frm 3 p) (e a) 0 0)
  | .vsqrt d a _ t =>
    put d (floatOp t (fun f p _ _ => f.sfu c.frm 4 p) (e a) 0 0)
  | .vsin d a _ t =>
    put d (floatOp t (fun f p _ _ => f.sfu c.frm 5 p) (e a) 0 0)
  | .vcos d a _ t =>
    put d (floatOp t (fun f p _ _ => f.sfu c.frm 6 p) (e a) 0 0)
  | .vbc d _ _ =>
    put d (bits c.x 0 32, 0)
  | .vrng d i' _ t =>
    let h := starterMix c.starter (e i'); put d (if t = .f32 then fp32.pack 0 false (h / 256) (-24) else (h, 0))
  | .vacc d _ _ _ t =>
    let A := (tile (64 * bits c.x 0 2 + i)).toInt
    put d (if t = .f32 then fp32.pack c.frm (decide (A < 0)) A.natAbs (sx eacc 8) else (lowBits (satI A (-2 ^ 31) (2 ^ 31 - 1)) 32, 0))
  | _ => none

/-- The condition of a comparison for element i, with its flags (R160). -/
def VCmd.cond (c : VCmd) (x : VCtx) (i : Nat) : Option (Nat × Bool × Nat) :=
  let e := fun (r : VReg) => x.el r i
  match c.ins with
  | .vcmpEq d a b _ t => some (d, t.int (e a) == t.int (e b), 0)
  | .vcmpNe d a b _ t => some (d, t.int (e a) != t.int (e b), 0)
  | .vcmpLt d a b _ t => some (d, decide (t.int (e a) < t.int (e b)), 0)
  | .vcmpLe d a b _ t => some (d, decide (t.int (e a) ≤ t.int (e b)), 0)
  | .vfcmpEq d a b _ => let r := fp32.compare 0 (e a) (e b); some (d, r.1, r.2)
  | .vfcmpLt d a b _ => let r := fp32.compare 1 (e a) (e b); some (d, r.1, r.2)
  | .vfcmpLe d a b _ => let r := fp32.compare 2 (e a) (e b); some (d, r.1, r.2)
  | .vfcmpUn d a b _ => let r := fp32.compare 3 (e a) (e b); some (d, r.1, r.2)
  | _ => none

/-- One level of the tree of R73: neighbours combined, an absent one passed over. DESIGN CHOICE (log 92): where one element alone is
active, its code is the result as it stands and no flag is raised, a signalling or non-canonical NaN too: R73 returns the operand, R52
speaks of operations. -/
def treeLevel (f : Nat → Nat → Nat × Nat) : List (Option Nat) → List (Option Nat) × Nat
  | some a :: some b :: l => let r := f a b; let q := treeLevel f l; (some r.1 :: q.1, r.2 ||| q.2)
  | some a :: none :: l => let q := treeLevel f l; (some a :: q.1, q.2)
  | none :: b :: l => let q := treeLevel f l; (b :: q.1, q.2)
  | l => (l, 0)

/-- The tree of R73 over n levels, with the flags of every combine. -/
def tree (f : Nat → Nat → Nat × Nat) : Nat → List (Option Nat) → Option Nat × Nat
  | 0, l => (l.headD none, 0)
  | n + 1, l => let q := treeLevel f l; let r := tree f n q.1; (r.1, q.2 ||| r.2)

/-- The reduction of a register over the active elements (R170); `dflt` stands for an absent result. -/
def VCmd.reduce (c : VCmd) (x : VCtx) (a : VReg) (f : Nat → Nat → Nat × Nat) (dflt : Nat) : Nat × Nat :=
  let r := tree f 6 ((numsFrom 0 64).map fun i => if c.active x i then some (x.el a i) else none)
  (r.1.getD dflt, r.2)

/-- The 128-bit number in elements 0 to 3. -/
def VCtx.limbs (x : VCtx) (k : Nat) : Nat :=
  x.el k 0 + 2 ^ 32 * x.el k 1 + 2 ^ 64 * x.el k 2 + 2 ^ 96 * x.el k 3
/-- Writes elements 0 to 3. -/
def VCtx.setLimbs (x : VCtx) (k v : Nat) : VCtx :=
  (((x.setEl k 0 v).setEl k 1 (v / 2 ^ 32)).setEl k 2 (v / 2 ^ 64)).setEl k 3 (v / 2 ^ 96)

/-- Packs a destination element of vpk (R163). -/
def VCmd.packEl (c : VCmd) (x : VCtx) (a : VReg) (t : VType) (j : Nat) : Nat × Nat :=
  packed t fun s => if c.active x (t.pack * j + s) then vpkOne t c.frm (x.el a (t.pack * j + s)) else (0, 0)

/-- What a form that is not run element by element does in its last beat: the context, the flags, and the value that a
blocked thread receives, with its register. -/
def VCmd.finish (c : VCmd) (x : VCtx) : VCtx × Nat × Option (GReg × Word) :=
  match c.ins with
  | .vrsum d a _ t =>
    (x.setEl d 0 (c.reduce x a (fun p q => (lowBits (t.int p + t.int q) 32, 0)) 0).1, 0, none)
  | .vrmax d a _ t =>
    (x.setEl d 0 (c.reduce x a (fun p q => (if t.int p < t.int q then q else p, 0)) (lowBits t.lo 32)).1, 0, none)
  | .vrsumF32 d a _ =>
    let r := c.reduce x a (fun p q => fp32.addV c.frm (fp32.unpack p) (fp32.unpack q)) 0
    (x.setEl d 0 r.1, r.2, none)
  | .vrmaxF32 d a _ =>
    let r := c.reduce x a (fun p q => fp32.minmax true p q) 0xFF800000
    (x.setEl d 0 r.1, r.2, none)
  | .vperm d a b _ =>
    ((numsFrom 0 64).foldl (fun y i => if c.active x i then y.setEl d i (x.el a (x.el b i % 64)) else y) x, 0, none)
  | .vslide d _ i _ =>
    ((numsFrom 0 64).foldl (fun y j =>
      if c.active x j then
        let k := (j : Int) + c.x.toInt
        y.setEl d j (if 0 ≤ k ∧ k ≤ 63 then x.el i k.toNat else 0)
      else y) x, 0, none)
  | .vpk d a _ _ t =>
    let n := (c.vl + t.pack - 1) / t.pack
    (numsFrom 0 n).foldl (fun (acc : VCtx × Nat × Option (GReg × Word)) j =>
      let r := c.packEl x a t j
      (acc.1.setEl d j r.1, acc.2.1 ||| r.2, none)) (x, 0, none)
  | .vfix d _ i _ =>
    let E := sx (bits c.x 0 16) 16
    let r := (numsFrom 0 64).foldl (fun (acc : Int × Nat) j =>
      if c.active x j then let q := toFix E (x.el i j); (acc.1 + q.1, acc.2 ||| q.2) else acc) ((x.limbs d : Int), 0)
    (x.setLimbs d (lowBits r.1 128), r.2, none)
  | .vunfix d _ i =>
    let q := sx (x.limbs i) 128
    let r := ofFix c.frm (sx (bits c.x 0 16) 16) q
    (x.setEl d 0 r.1, r.2, none)
  | .vmand d a b => (x.setMask d (x.mask a &&& x.mask b), 0, none)
  | .vmor d a b => (x.setMask d (x.mask a ||| x.mask b), 0, none)
  | .vmxor d a b => (x.setMask d (x.mask a ^^^ x.mask b), 0, none)
  | .vmandn d a b => (x.setMask d (x.mask a &&& ~~~x.mask b), 0, none)
  | .vmovgv d _ _ => (x.setEl d (bits c.y 0 6) (bits c.x 0 32), 0, none)
  | .vmovvg g i t => (x, 0, some (g, BitVec.ofInt 64 (t.int (x.el i (bits c.x 0 6)))))
  | .vmovvgD g i =>
    let k := bits c.x 0 6 / 2 * 2
    (x, 0, some (g, BitVec.ofNat 64 (x.el i k + 2 ^ 32 * x.el i (k + 1))))
  | .vmpop g i =>
    (x, 0, some (g, BitVec.ofNat 64 ((numsFrom 0 c.vl).foldl (fun n j => n + bit ((x.mask i).toNat.testBit j)) 0)))
  | _ => (x, 0, none)

/-! ### LM accesses by an engine (R307) -/

/-- An access of an engine to LM (R409); one to poisoned lines makes its thread take MCHECK at its next instruction (R307). -/
def State.engineTouch (s : State) (core tid : Nat) (ranges : List (Nat × Nat)) : State :=
  let s := if ranges.isEmpty then s else s.sig core 31
  match (s.core core).poisoned.find? fun p => ranges.any fun r => decide (r.1 < 64 * p + 64) && decide (64 * p < r.1 + r.2) with
  | some p => s.modThread tid fun t => t.addMcheck ⟨0x15, 4, BitVec.ofNat 64 (0xC0 * 2 ^ 56 + 64 * p)⟩
  | none => s

/-- Bytes of a line that ranges cover. -/
def covered (line : Nat) (ranges : List (Nat × Nat)) : Bool :=
  (numsFrom (64 * line) 64).all fun a => ranges.any fun r => decide (r.1 ≤ a) && decide (a < r.1 + r.2)

/-- Stores of an engine to LM, in order: whole lines lose their poison mark, other poisoned lines are met. -/
def State.engineStore (s : State) (core tid : Nat) (ws : List (Nat × Nat × Nat)) : State :=
  let ranges := ws.map fun w => (w.1, w.2.1)
  let s := s.modCore core fun c => { c with poisoned := c.poisoned.filter fun p => !covered p ranges }
  let s := s.engineTouch core tid ranges
  ws.foldl (fun s w => s.writeLoc ⟨.lm core, w.1⟩ w.2.1 w.2.2) s

/-! ### Beats (R150 to R153) -/

/-- Every matrix command that a `vacc` waits for has left the engine and its thread's record, and none is changing its tile
(R176). -/
def State.vaccReady (s : State) (core : Nat) (c : VCmd) : Bool :=
  let tile := (Instr.vaccTile c.ins).getD 8
  !((s.core core).mq.any fun m => c.after.contains m.uid || (m.begun && m.tile == tile)) &&
  match s.thread c.tid with
  | some t => !t.mrec.any fun m => c.after.contains m.uid
  | none => true

/-- A debugger or a checkpoint holds the core's engines (R406, R387). -/
def Core.held (c : Core) : Bool := c.dbg.held || c.ckpt

/-- The engine grants a command nothing: the core is frozen or lost (R307), or the command has not begun and the engines are
held; one that has begun and could not be recorded runs to its end (R152, R199). -/
def Core.engineHeld (c : Core) (begun : Bool) : Bool := c.frozen || c.lost || (c.held && !begun)

/-- A command has retired: its ranges are free, its meter is to be checked at the end of the cc, meters without work are freed. -/
def State.retireEngine (s : State) (core owner priv tid uid : Nat) : State :=
  ((s.freeLocks core uid).noteRetired core owner priv tid).sweepMeters core

/-- A vector command that may stop between beats (R156). -/
def VCmd.interruptible (c : VCmd) : Bool :=
  match Instr.vshape c.ins with
  | .elems _ => true
  | _ => false

/-- Moves vector commands of a thread, in queue order, into its restart record (R152); a form that has begun and may not stop stays.
The engine runs the beat of this cc of a command that has begun first, and then they go. -/
def State.recordV (s : State) (tid : Nat) (f : VCmd → Bool) : State :=
  let core := coreOf tid
  let k := s.core core
  let goes := fun (c : VCmd) => c.tid == tid && f c && (!c.begun || c.interruptible)
  let go := k.vq.filter goes
  if go.isEmpty then s
  else if (go.any fun c => c.begun) && k.vrun != some s.cc then
    s.modCore core fun k => { k with vq := k.vq.map fun c => if goes c then { c with halting := true } else c }
  else
    (s.modCore core fun k => { k with vq := k.vq.filter fun c => !goes c }).modThread tid fun t =>
      let r := t.vrec ++ go.map fun c => { c with begun := false, halting := false }
      { t with vrec := r, fp := { t.fp with vpos := match r with
          | c :: _ => BitVec.ofNat 64 (c.pos % 64)
          | [] => 0 } }

/-- Removes a command from the vector queue. -/
def Core.dropV (c : Core) (uid : Nat) : Core := { c with vq := c.vq.filter fun x => x.uid != uid }

/-- Replaces a command of the vector queue. -/
def Core.setV (c : Core) (x : VCmd) : Core := { c with vq := c.vq.map fun y => if y.uid = x.uid then x else y }

/-- Elements of a beat performed on a context: registers, mask bits and flags. -/
def VCmd.runEls (c : VCmd) (x0 : VCtx) (tile : Nat → Word) (eacc : Nat) : List Nat → VCtx × Nat → VCtx × Nat
  | [], r => r
  | i :: l, (x, fl) =>
    let act := c.active x0 i
    let r : VCtx × Nat :=
      match c.cond x0 i with
      | some (d, b, f) =>
        (x.setMask d (if act && b then x.mask d ||| BitVec.ofNat 64 (2 ^ i) else x.mask d &&& ~~~BitVec.ofNat 64 (2 ^ i)),
          fl ||| (if act then f else 0))
      | none =>
        match c.ins with
        | .vsel d a b k => (x.setEl d i (if (x0.mask k).toNat.testBit i then x0.el a i else x0.el b i), fl)
        | _ => if act then match c.elem x0 tile eacc i with
            | some (d, v, f) => (x.setEl d i v, fl ||| f)
            | none => (x, fl)
          else (x, fl)
    VCmd.runEls c x0 tile eacc l r

/-- Elements that a beat charges for (R151). -/
def VCmd.charged (c : VCmd) (x : VCtx) (els : List Nat) : Nat :=
  match c.ins with
  | .vsel _ _ _ _ => els.length
  | _ => (els.filter fun i => c.active x i).length

/-- The LM part of a beat (R175). -/
def State.vmemBeat (s : State) (core : Nat) (c : VCmd) (els : List Nat) : State :=
  match Instr.vmem c.ins with
  | none => s
  | some (store, kind, d, iv, t) =>
    let x := (s.core core).ctx c.tid
    let act := els.filter fun i => c.active x i
    let off := fun i =>
      if kind = 2 then gatherOff c.x (x.el iv i) t
      else (vaddr kind c.x c.y t i).toNat % 2 ^ 18
    if store then s.engineStore core c.tid (act.map fun i => (off i, t.bytes, x.el d i))
    else
      let s := s.engineTouch core c.tid (act.map fun i => (off i, t.bytes))
      let m := s.mem (.lm core)
      let x := act.foldl (fun x i => x.setEl d i (lowBits (t.int (m.read (off i) t.bytes)) 32)) x
      s.modCore core fun k => k.setCtx c.tid x

/-- The vector engine may run a beat of a command in this cc: it has run none, and the command did not enter in it (R150). -/
def Core.beatDue (k : Core) (cc : Nat) (c : VCmd) : Bool := k.vrun != some cc && decide (c.entered < cc)

/-- One beat of the head command (R150 to R153). -/
def State.vectorBeat (s : State) (core : Nat) : State :=
  let k := s.core core
  match k.vq with
  | [] => s
  | c :: _ =>
    if !k.beatDue s.cc c || k.engineHeld c.begun || s.mustWait core c.uid || !s.vaccReady core c then s
    else
      let s := s.modCore core fun k => { k with vrun := some s.cc }
      let x := k.ctx c.tid
      match Instr.vshape c.ins with
      | .elems per =>
        let els := numsFrom c.pos (min per (c.vl - c.pos))
        let tl := match c.ins with | .vacc _ _ i _ _ => k.tiles.getD i {} | _ => {}
        let r := c.runEls x (fun j => (tl.el.look j).getD 0) tl.eacc els (x, 0)
        let hi := c.pos + els.length
        let last := decide (c.vl ≤ hi)
        let y := match c.cond x 0 with
          | some (d, _, _) => if last then r.1.setMask d (r.1.mask d &&& BitVec.ofNat 64 (2 ^ c.vl - 1)) else r.1
          | none => r.1
        let s := s.modCore core fun k => k.setCtx c.tid y
        let s := s.vmemBeat core c els
        let s := s.modThread c.tid fun t => { t.raiseF r.2 with fp := { (t.raiseF r.2).fp with vpos := 0 } }
        let s := s.charge core c.owner c.priv (Instr.vcharge c.ins) (c.charged x els)
        let s := if last then (s.modCore core fun k => k.dropV c.uid).retireEngine core c.owner c.priv c.tid c.uid
          else s.modCore core fun k => k.setV { c with pos := hi, begun := true, beats := c.beats + 1 }
        s.recordV c.tid fun x => x.halting
      | sh =>
        let total := match sh with
          | .whole extra => (c.vl + 15) / 16 + extra
          | .fixed n => n
          | .elems _ => 1
        let els := match sh with
          | .whole _ => numsFrom (16 * c.beats) (min 16 (c.vl - 16 * c.beats))
          | _ => []
        let s := s.charge core c.owner c.priv 3 (c.charged x els)
        let s := s.modThread c.tid fun t => { t with fp := { t.fp with vpos := 0 } }
        if c.beats + 1 < total then s.modCore core fun k => k.setV { c with begun := true, beats := c.beats + 1 }
        else
          let r := c.finish x
          let s := s.modCore core fun k => (k.setCtx c.tid r.1).dropV c.uid
          let s := s.modThread c.tid fun t => t.raiseF r.2.1
          let s := match sh with
            | .fixed _ => if r.2.2.isSome then s else s.charge core c.owner c.priv 0 1
            | _ => s
          let s := s.retireEngine core c.owner c.priv c.tid c.uid
          match r.2.2 with
          | some (g, v) => s.complete c.tid 0 fun t => t.wr g v
          | none => s

/-- VECTOR_BEAT (R150): one beat of the core's vector engine. -/
def execVectorBeat (core : Nat) (s : State) : Out := .next (s.vectorBeat core)

/-! ### Issue (R150, R155) -/

/-- Entries of the vector queue in use; re-entered records count too (R362). -/
def Core.vqUsed (c : Core) : Nat := c.vq.length

/-- The lowest and highest offsets that the elements below VL of a contiguous or strided form reach (R155). -/
def vrange (off : Nat) (kind : Nat) (y : Word) (t : VType) (vl : Nat) : Nat × Nat :=
  let step : Int := if kind = 0 then t.bytes else y.toInt
  let far : Int := off + step * (vl - 1 : Nat)
  ((min (off : Int) far).toNat, (max (off : Int) far + t.bytes).toNat)

/-- The range of a vector command (R155). -/
def VCmd.locks (c : VCmd) (core : Nat) : List Lock :=
  match Instr.vmem c.ins with
  | none => []
  | some (store, kind, _, _, ty) =>
    let r := if kind = 2 then (0, 2 ^ 18) else vrange (bits c.x 0 18) kind c.y ty c.vl
    [{ space := .lm core, lo := r.1, hi := min r.2 (2 ^ 18), w := store, uid := c.uid }]

/-- The checks of R155 and the range of a memory form: an address that fails, or the range. DESIGN CHOICE (log 62): an element is
active by the mask as it stands at issue, though a command still in the queue may change it; an element that becomes active later
has its address taken modulo 2^18 at its beat. -/
def State.vcheck (s : State) (t : Thread) (x : VCtx) (ins : Instr) (a y : Word) : Except Word (Option (Bool × Nat × Nat)) :=
  match Instr.vmem ins with
  | none => .ok none
  | some (store, kind, _, _, ty) =>
    match s.ownLm t.part (coreOf s.cur) a ty.bytes ty.bytes with
    | none => .error a
    | some off =>
      if kind = 2 then .ok (some (store, 0, 2 ^ 18))
      else
        let vl := bits t.fp.vl 0 7
        let bad := (numsFrom 0 vl).find? fun i => (x.mask (Instr.vmask ins)).toNat.testBit i &&
          (s.ownLm t.part (coreOf s.cur) (vaddr kind a y ty i) ty.bytes 1).isNone
        match bad with
        | some i => .error (vaddr kind a y ty i)
        | none => let r := vrange off kind y ty vl; .ok (some (store, r.1, min r.2 (2 ^ 18)))

/-- Issue of a vector command (R143, R150, R155, R86): x and y are the g operands; a form that writes a g register
blocks its thread. -/
def State.vectorForm (s : State) (ins : Instr) (ga gi : GReg) (blocks : Bool) : Out :=
  s.onThread fun t =>
    let me := coreOf s.cur
    let k := s.core me
    if !holdsCtx k s.cur then s.illegal t
    else
      match s.vcheck t (k.ctx s.cur) ins (t.rd ga) (t.rd gi) with
      | .error a => s.addr t a
      | .ok range =>
        let locks : List Lock := match range with
          | none => []
          | some (store, lo, hi) => [{ space := .lm me, lo := lo, hi := hi, w := store, uid := s.uid }]
        if 2 ≤ k.vqUsed ∨ 32 < k.lockCount + locks.length then s.bubble
        else
          let c : VCmd :=
            { ins := ins, word := s.ir, uid := s.uid, tid := s.cur, owner := t.owner, priv := t.priv, x := t.rd ga, y := t.rd gi,
              vl := bits t.fp.vl 0 7, frm := t.fp.frm, starter := t.fp.starter,
              entered := s.cc
              after := match ins with
                | .vacc _ _ i _ _ => ((t.mrec ++ k.mq).filter fun m => m.tile == i.val).map fun m => m.uid
                | _ => [] }
          let s := ((s.addLocks me 0 locks).modCore me fun k => { k with vq := k.vq ++ [c] }).nextUid
          if blocks then s.wait t .vvalue
          else .next (s.setThread s.cur { t.issued with pc := t.pc + 4, block := .none, walkRes := none, noMig := false })

/-- vclaim (R177). -/
def execVclaim (ra : GReg) (s : State) : Out :=
  s.onThread fun t =>
    let k := s.core (coreOf s.cur)
    if holdsCtx k s.cur then s.write t ra 1 0
    else
      match k.vctx.findIdx? fun v => v.holder.isNone with
      | none => s.write t ra 0 0
      | some n =>
        (s.modCore (coreOf s.cur) fun k => { k with vctx := setAt k.vctx n { holder := some s.cur } }).write t ra 1 0

/-- Vector commands of a thread in the queue. -/
def State.vbusy (s : State) (tid : Nat) : Bool := (s.core (coreOf tid)).vq.any fun x => x.tid == tid

/-- vrel (R177). -/
def execVrel (s : State) : Out :=
  s.onThread fun t => 
    if s.vbusy s.cur || !t.vrec.isEmpty then s.await t .vgone else (s.freeCtx s.cur).finish t 0

/-- The value that a write to VL stores (R144). -/
def vlOf (v : Word) : Word := if 64 ≤ v.toNat then 64 else if v = 0 then 1 else v

/-- vsetl (R177). -/
def execVsetl (ra : GReg) (s : State) : Out :=
  s.onThread fun t =>
    let v := vlOf (t.rd ra)
    s.write { t with fp := { t.fp with vl := v } } ra v 0

/-- vadd (R158): an engine command. -/
def execVadd (rd : VReg) (ra : VReg) (rb : VReg) (k : MReg) (t : VType) (s : State) : Out :=
  s.vectorForm (.vadd rd ra rb k t) 0 0 false

/-- vsub (R158): an engine command. -/
def execVsub (rd : VReg) (ra : VReg) (rb : VReg) (k : MReg) (t : VType) (s : State) : Out :=
  s.vectorForm (.vsub rd ra rb k t) 0 0 false

/-- vmul (R158): an engine command. -/
def execVmul (rd : VReg) (ra : VReg) (rb : VReg) (k : MReg) (t : VType) (s : State) : Out :=
  s.vectorForm (.vmul rd ra rb k t) 0 0 false

/-- vmulh (R158): an engine command. -/
def execVmulh (rd : VReg) (ra : VReg) (rb : VReg) (k : MReg) (t : VType) (s : State) : Out :=
  s.vectorForm (.vmulh rd ra rb k t) 0 0 false

/-- vmin (R158): an engine command. -/
def execVmin (rd : VReg) (ra : VReg) (rb : VReg) (k : MReg) (t : VType) (s : State) : Out :=
  s.vectorForm (.vmin rd ra rb k t) 0 0 false

/-- vmax (R158): an engine command. -/
def execVmax (rd : VReg) (ra : VReg) (rb : VReg) (k : MReg) (t : VType) (s : State) : Out :=
  s.vectorForm (.vmax rd ra rb k t) 0 0 false

/-- vand (R158): an engine command. -/
def execVand (rd : VReg) (ra : VReg) (rb : VReg) (k : MReg) (s : State) : Out :=
  s.vectorForm (.vand rd ra rb k) 0 0 false

/-- vor (R158): an engine command. -/
def execVor (rd : VReg) (ra : VReg) (rb : VReg) (k : MReg) (s : State) : Out :=
  s.vectorForm (.vor rd ra rb k) 0 0 false

/-- vxor (R158): an engine command. -/
def execVxor (rd : VReg) (ra : VReg) (rb : VReg) (k : MReg) (s : State) : Out :=
  s.vectorForm (.vxor rd ra rb k) 0 0 false

/-- vsll (R158): an engine command. -/
def execVsll (rd : VReg) (ra : VReg) (rb : VReg) (k : MReg) (t : VType) (s : State) : Out :=
  s.vectorForm (.vsll rd ra rb k t) 0 0 false

/-- vsrl (R158): an engine command. -/
def execVsrl (rd : VReg) (ra : VReg) (rb : VReg) (k : MReg) (t : VType) (s : State) : Out :=
  s.vectorForm (.vsrl rd ra rb k t) 0 0 false

/-- vsra (R158): an engine command. -/
def execVsra (rd : VReg) (ra : VReg) (rb : VReg) (k : MReg) (t : VType) (s : State) : Out :=
  s.vectorForm (.vsra rd ra rb k t) 0 0 false

/-- vadds (R158): an engine command. -/
def execVadds (rd : VReg) (ra : VReg) (rb : VReg) (k : MReg) (t : VType) (s : State) : Out :=
  s.vectorForm (.vadds rd ra rb k t) 0 0 false

/-- vsubs (R158): an engine command. -/
def execVsubs (rd : VReg) (ra : VReg) (rb : VReg) (k : MReg) (t : VType) (s : State) : Out :=
  s.vectorForm (.vsubs rd ra rb k t) 0 0 false

/-- vcmpEq (R160): an engine command. -/
def execVcmpEq (rd : MReg) (ra : VReg) (rb : VReg) (k : MReg) (t : VType) (s : State) : Out :=
  s.vectorForm (.vcmpEq rd ra rb k t) 0 0 false

/-- vcmpNe (R160): an engine command. -/
def execVcmpNe (rd : MReg) (ra : VReg) (rb : VReg) (k : MReg) (t : VType) (s : State) : Out :=
  s.vectorForm (.vcmpNe rd ra rb k t) 0 0 false

/-- vcmpLt (R160): an engine command. -/
def execVcmpLt (rd : MReg) (ra : VReg) (rb : VReg) (k : MReg) (t : VType) (s : State) : Out :=
  s.vectorForm (.vcmpLt rd ra rb k t) 0 0 false

/-- vcmpLe (R160): an engine command. -/
def execVcmpLe (rd : MReg) (ra : VReg) (rb : VReg) (k : MReg) (t : VType) (s : State) : Out :=
  s.vectorForm (.vcmpLe rd ra rb k t) 0 0 false

/-- vsel (R160): an engine command. -/
def execVsel (rd : VReg) (ra : VReg) (rb : VReg) (k : MReg) (s : State) : Out :=
  s.vectorForm (.vsel rd ra rb k) 0 0 false

/-- vmand (R161): an engine command. -/
def execVmand (rd : MReg) (ra : MReg) (rb : MReg) (s : State) : Out :=
  s.vectorForm (.vmand rd ra rb) 0 0 false

/-- vmor (R161): an engine command. -/
def execVmor (rd : MReg) (ra : MReg) (rb : MReg) (s : State) : Out :=
  s.vectorForm (.vmor rd ra rb) 0 0 false

/-- vmxor (R161): an engine command. -/
def execVmxor (rd : MReg) (ra : MReg) (rb : MReg) (s : State) : Out :=
  s.vectorForm (.vmxor rd ra rb) 0 0 false

/-- vmandn (R161): an engine command. -/
def execVmandn (rd : MReg) (ra : MReg) (rb : MReg) (s : State) : Out :=
  s.vectorForm (.vmandn rd ra rb) 0 0 false

/-- vrsum (R170): an engine command. -/
def execVrsum (rd : VReg) (ra : VReg) (k : MReg) (t : VType) (s : State) : Out :=
  s.vectorForm (.vrsum rd ra k t) 0 0 false

/-- vrmax (R170): an engine command. -/
def execVrmax (rd : VReg) (ra : VReg) (k : MReg) (t : VType) (s : State) : Out :=
  s.vectorForm (.vrmax rd ra k t) 0 0 false

/-- vperm (R173): an engine command. -/
def execVperm (rd : VReg) (ra : VReg) (rb : VReg) (k : MReg) (s : State) : Out :=
  s.vectorForm (.vperm rd ra rb k) 0 0 false

/-- vfadd (R159): an engine command. -/
def execVfadd (rd : VReg) (ra : VReg) (rb : VReg) (k : MReg) (t : VType) (s : State) : Out :=
  s.vectorForm (.vfadd rd ra rb k t) 0 0 false

/-- vfsub (R159): an engine command. -/
def execVfsub (rd : VReg) (ra : VReg) (rb : VReg) (k : MReg) (t : VType) (s : State) : Out :=
  s.vectorForm (.vfsub rd ra rb k t) 0 0 false

/-- vfmul (R159): an engine command. -/
def execVfmul (rd : VReg) (ra : VReg) (rb : VReg) (k : MReg) (t : VType) (s : State) : Out :=
  s.vectorForm (.vfmul rd ra rb k t) 0 0 false

/-- vfma (R159): an engine command. -/
def execVfma (rd : VReg) (ra : VReg) (rb : VReg) (k : MReg) (t : VType) (s : State) : Out :=
  s.vectorForm (.vfma rd ra rb k t) 0 0 false

/-- vfmin (R159): an engine command. -/
def execVfmin (rd : VReg) (ra : VReg) (rb : VReg) (k : MReg) (t : VType) (s : State) : Out :=
  s.vectorForm (.vfmin rd ra rb k t) 0 0 false

/-- vfmax (R159): an engine command. -/
def execVfmax (rd : VReg) (ra : VReg) (rb : VReg) (k : MReg) (t : VType) (s : State) : Out :=
  s.vectorForm (.vfmax rd ra rb k t) 0 0 false

/-- vfcmpEq (R160): an engine command. -/
def execVfcmpEq (rd : MReg) (ra : VReg) (rb : VReg) (k : MReg) (s : State) : Out :=
  s.vectorForm (.vfcmpEq rd ra rb k) 0 0 false

/-- vfcmpLt (R160): an engine command. -/
def execVfcmpLt (rd : MReg) (ra : VReg) (rb : VReg) (k : MReg) (s : State) : Out :=
  s.vectorForm (.vfcmpLt rd ra rb k) 0 0 false

/-- vfcmpLe (R160): an engine command. -/
def execVfcmpLe (rd : MReg) (ra : VReg) (rb : VReg) (k : MReg) (s : State) : Out :=
  s.vectorForm (.vfcmpLe rd ra rb k) 0 0 false

/-- vfcmpUn (R160): an engine command. -/
def execVfcmpUn (rd : MReg) (ra : VReg) (rb : VReg) (k : MReg) (s : State) : Out :=
  s.vectorForm (.vfcmpUn rd ra rb k) 0 0 false

/-- vcvt (R162): an engine command. -/
def execVcvt (rd : VReg) (ra : VReg) (z : VType) (k : MReg) (t : VType) (s : State) : Out :=
  s.vectorForm (.vcvt rd ra z k t) 0 0 false

/-- vpk (R163): an engine command. -/
def execVpk (rd : VReg) (ra : VReg) (z : VType) (k : MReg) (t : VType) (s : State) : Out :=
  s.vectorForm (.vpk rd ra z k t) 0 0 false

/-- vex2 (R164): an engine command. -/
def execVex2 (rd : VReg) (ra : VReg) (k : MReg) (t : VType) (s : State) : Out :=
  s.vectorForm (.vex2 rd ra k t) 0 0 false

/-- vlg2 (R164): an engine command. -/
def execVlg2 (rd : VReg) (ra : VReg) (k : MReg) (t : VType) (s : State) : Out :=
  s.vectorForm (.vlg2 rd ra k t) 0 0 false

/-- vrcp (R164): an engine command. -/
def execVrcp (rd : VReg) (ra : VReg) (k : MReg) (t : VType) (s : State) : Out :=
  s.vectorForm (.vrcp rd ra k t) 0 0 false

/-- vrsq (R164): an engine command. -/
def execVrsq (rd : VReg) (ra : VReg) (k : MReg) (t : VType) (s : State) : Out :=
  s.vectorForm (.vrsq rd ra k t) 0 0 false

/-- vsqrt (R164): an engine command. -/
def execVsqrt (rd : VReg) (ra : VReg) (k : MReg) (t : VType) (s : State) : Out :=
  s.vectorForm (.vsqrt rd ra k t) 0 0 false

/-- vsin (R164): an engine command. -/
def execVsin (rd : VReg) (ra : VReg) (k : MReg) (t : VType) (s : State) : Out :=
  s.vectorForm (.vsin rd ra k t) 0 0 false

/-- vcos (R164): an engine command. -/
def execVcos (rd : VReg) (ra : VReg) (k : MReg) (t : VType) (s : State) : Out :=
  s.vectorForm (.vcos rd ra k t) 0 0 false

/-- vrsumF32 (R170): an engine command. -/
def execVrsumF32 (rd : VReg) (ra : VReg) (k : MReg) (s : State) : Out :=
  s.vectorForm (.vrsumF32 rd ra k) 0 0 false

/-- vrmaxF32 (R170): an engine command. -/
def execVrmaxF32 (rd : VReg) (ra : VReg) (k : MReg) (s : State) : Out :=
  s.vectorForm (.vrmaxF32 rd ra k) 0 0 false

/-- vld (R175): an engine command. -/
def execVld (rd : VReg) (ra : GReg) (k : MReg) (t : VType) (s : State) : Out :=
  s.vectorForm (.vld rd ra k t) ra 0 false

/-- vst (R175): an engine command. -/
def execVst (rd : VReg) (ra : GReg) (k : MReg) (t : VType) (s : State) : Out :=
  s.vectorForm (.vst rd ra k t) ra 0 false

/-- vlds (R175): an engine command. -/
def execVlds (rd : VReg) (ra : GReg) (im : VReg) (k : MReg) (t : VType) (s : State) : Out :=
  s.vectorForm (.vlds rd ra im k t) ra ⟨im.val, by omega⟩ false

/-- vsts (R175): an engine command. -/
def execVsts (rd : VReg) (ra : GReg) (im : VReg) (k : MReg) (t : VType) (s : State) : Out :=
  s.vectorForm (.vsts rd ra im k t) ra ⟨im.val, by omega⟩ false

/-- vldg (R175): an engine command. -/
def execVldg (rd : VReg) (ra : GReg) (im : VReg) (k : MReg) (t : VType) (s : State) : Out :=
  s.vectorForm (.vldg rd ra im k t) ra 0 false

/-- vstg (R175): an engine command. -/
def execVstg (rd : VReg) (ra : GReg) (im : VReg) (k : MReg) (t : VType) (s : State) : Out :=
  s.vectorForm (.vstg rd ra im k t) ra 0 false

/-- vbc (R174): an engine command. -/
def execVbc (rd : VReg) (ra : GReg) (k : MReg) (s : State) : Out :=
  s.vectorForm (.vbc rd ra k) ra 0 false

/-- vmovgv (R174): an engine command. -/
def execVmovgv (rd : VReg) (ra : GReg) (im : VReg) (s : State) : Out :=
  s.vectorForm (.vmovgv rd ra im) ra ⟨im.val, by omega⟩ false

/-- vmovvg (R174): an engine command. -/
def execVmovvg (ra : GReg) (im : VReg) (t : VType) (s : State) : Out :=
  s.vectorForm (.vmovvg ra im t) ra 0 true

/-- vmovvgD (R174): an engine command. -/
def execVmovvgD (ra : GReg) (im : VReg) (s : State) : Out :=
  s.vectorForm (.vmovvgD ra im) ra 0 true

/-- vrng (R169): an engine command. -/
def execVrng (rd : VReg) (im : VReg) (k : MReg) (t : VType) (s : State) : Out :=
  s.vectorForm (.vrng rd im k t) 0 0 false

/-- vfix (R171): an engine command. -/
def execVfix (rd : VReg) (ra : GReg) (im : VReg) (k : MReg) (s : State) : Out :=
  s.vectorForm (.vfix rd ra im k) ra 0 false

/-- vunfix (R172): an engine command. -/
def execVunfix (rd : VReg) (ra : GReg) (im : VReg) (s : State) : Out :=
  s.vectorForm (.vunfix rd ra im) ra 0 false

/-- vslide (R173): an engine command. -/
def execVslide (rd : VReg) (ra : GReg) (im : VReg) (k : MReg) (s : State) : Out :=
  s.vectorForm (.vslide rd ra im k) ra 0 false

/-- vmpop (R161): an engine command. -/
def execVmpop (ra : GReg) (im : MReg) (s : State) : Out :=
  s.vectorForm (.vmpop ra im) ra 0 true

/-- vacc (R176): an engine command. -/
def execVacc (rd : VReg) (ra : GReg) (im : Tile) (k : MReg) (t : VType) (s : State) : Out :=
  s.onThread fun th =>
    let c := s.core (coreOf s.cur)
    if holdsCtx c s.cur && (c.tiles.getD im {}).holder == some s.cur then s.vectorForm (.vacc rd ra im k t) ra 0 false
    else s.illegal th

end Sys2Proof.Machine
end

