-- ==== Sys2Proof/Machine/Matrix.lean ====
section
/-! DEFINITION. The matrix engine (spec/08, with R63 to R72 of spec/03): tiles, shadow format registers, the operands as exact
integers, plane passes, the other commands, refusals, and the forms (R178 to R208). -/

namespace Sys2Proof.Machine

/-! ### Registers (R181 to R189) -/

/-- Writable bits of shadow register k, MPREC to MACC. -/
def matMask (k : Nat) : Word :=
  match k with
  | 0 => 0xFF0F
  | 1 => 0x3FFFF
  | 2 => 0xFFFF1F1F
  | 3 => 0x1FFF
  | 4 => 0xFFFFFFFFFFFFFFFF
  | _ => 0x3FF

/-- Shadow register k. -/
def MatRegs.get (r : MatRegs) (k : Nat) : Word :=
  match k with
  | 0 => r.mprec
  | 1 => r.mfmt
  | 2 => r.mgeom
  | 3 => r.mblk
  | 4 => r.mscale
  | _ => r.macc

/-- Writes shadow register k; reserved bits are not held (R5). -/
def MatRegs.set (r : MatRegs) (k : Nat) (v : Word) : MatRegs :=
  let v := v &&& matMask k
  match k with
  | 0 => { r with mprec := v }
  | 1 => { r with mfmt := v }
  | 2 => { r with mgeom := v }
  | 3 => { r with mblk := v }
  | 4 => { r with mscale := v }
  | _ => { r with macc := v }

/-- Rows M. -/
def MatRegs.m (r : MatRegs) : Nat := bits r.mgeom 0 5
/-- Columns N. -/
def MatRegs.n (r : MatRegs) : Nat := bits r.mgeom 8 5
/-- Reduction length K. -/
def MatRegs.k (r : MatRegs) : Nat := bits r.mgeom 16 16
/-- MBLK. -/
def MatRegs.blk (r : MatRegs) : Nat := bits r.mblk 0 13
/-- Eacc. -/
def MatRegs.eacc (r : MatRegs) : Int := sx (bits r.macc 0 8) 8
/-- Accumulator mode. -/
def MatRegs.mode (r : MatRegs) : Nat := bits r.macc 8 2

/-- What one side of a multiply captures: format kind and NM1, mode, width, scales used, and the LM offsets of its scale and
spare vectors. -/
structure Side where
  kind : Nat
  nm1 : Nat
  mode : Nat
  w : Nat
  scaled : Bool
  sc : Nat
  sp : Nat
  deriving DecidableEq, Repr

/-- The A side (R181, R182, R185). -/
def MatRegs.sideA (r : MatRegs) : Side :=
  let f := bits r.mfmt 0 8
  ⟨f / 16, f % 16, bits r.mprec 0 2, bits r.mprec 8 4 + 1, f / 16 == 3 || bits r.mfmt 16 1 == 1, 4 * bits r.mscale 0 16,
    4 * bits r.mscale 32 16⟩
/-- The B side. -/
def MatRegs.sideB (r : MatRegs) : Side :=
  let f := bits r.mfmt 8 8
  ⟨f / 16, f % 16, bits r.mprec 2 2, bits r.mprec 12 4 + 1, f / 16 == 3 || bits r.mfmt 17 1 == 1, 4 * bits r.mscale 16 16,
    4 * bits r.mscale 48 16⟩

/-- Storage width in bits (R63, R182). -/
def Side.store (x : Side) : Nat :=
  match x.kind with
  | 0 | 1 => if x.nm1 = 0 then 1 else if x.nm1 = 1 then 2 else if x.nm1 < 4 then 4 else if x.nm1 < 8 then 8 else 16
  | 2 => 1
  | 3 => 4
  | 4 | 5 => 16
  | _ => 8

/-- Planes wf of the format (R67). -/
def Side.wf (x : Side) : Nat :=
  match x.kind with
  | 0 | 1 => x.nm1 + 1
  | 2 => 1
  | 3 => 4
  | _ => x.w

/-- A floating-point kind. -/
def Side.isFloat (x : Side) : Bool := decide (4 ≤ x.kind) && decide (x.kind ≤ 7)
/-- The format of a floating-point kind. -/
def Side.fmt (x : Side) : Fmt := if x.kind = 4 then fp16 else if x.kind = 5 then bf16 else if x.kind = 6 then e4m3 else e5m2

/-- Refusal FORMAT of a side (R182, R188). -/
def Side.badFormat (x : Side) : Bool :=
  decide (7 < x.kind) || (decide (2 ≤ x.kind) && x.nm1 != 0) ||
  (match x.kind with
    | 0 => x.mode != 0 && x.mode != 2
    | 1 => x.mode != 1
    | 2 => x.mode != 3
    | 3 => x.mode != 2
    | _ => x.mode != 0)
/-- Refusal WIDTH of a side (R182, R188). -/
def Side.badWidth (x : Side) : Bool := (x.mode == 3 && x.w != 1) || (x.isFloat && x.w == 1)

/-- Refusal GEOM (R188). -/
def MatRegs.badGeom (r : MatRegs) : Bool :=
  r.m == 0 || decide (16 < r.m) || r.n == 0 || decide (16 < r.n) || decide (r.k < 64) || decide (16384 < r.k) || r.k % 64 != 0
/-- Refusal BLOCK (R188). -/
def MatRegs.badBlock (r : MatRegs) : Bool :=
  decide (r.blk < 64) || decide (4096 < r.blk) || r.blk % 64 != 0 || r.k % r.blk != 0

/-- The refusal code of a multiply, 0 for none (R188, R206). -/
def MatRegs.refusal (r : MatRegs) (gather : Bool) : Nat :=
  if r.sideA.badFormat || r.sideB.badFormat then 1
  else if r.sideA.badWidth || r.sideB.badWidth then 2
  else if r.badGeom then 3
  else if r.badBlock then 4
  else if gather && decide (2048 < r.k * r.sideA.store / 8) then 5
  else 0

/-- A refusal in MSTAT (R187, R188). -/
def refuse (mstat : Word) (code : Nat) : Word :=
  if mstat &&& 0x100 = 0 then (mstat &&& ~~~(0xFF0000#64)) ||| 0x100 ||| BitVec.ofNat 64 (code * 2 ^ 16) else mstat

/-- Bits of MSTAT that are not reserved (R187). -/
def mstatMask : Word := 0xFF03FF

/-- A write to MSTAT (R187): ones clear flags, and clearing REF clears REFC. -/
def writeMstat (mstat v : Word) : Word :=
  let x := mstat &&& ~~~(v &&& 0x3FF)
  if v &&& 0x100 = 0 then x else x &&& ~~~(0xFF0000#64)

/-- MCONT (R189). -/
def Thread.mcont (t : Thread) : Word :=
  match t.mrec with
  | [] => 0
  | c :: l => BitVec.ofNat 64 (2 ^ 63 + (l.length + 1) * 2 ^ 61 + c.tile * 2 ^ 56 + c.blk * 2 ^ 48 + c.pa * 2 ^ 44 + c.pb * 2 ^ 40 +
      c.done)

/-! ### Operands (R63 to R69) -/

/-- Element j of a row whose bytes are given (R63, R64). -/
def rawEl (sb : Nat) (byte : Nat → Nat) (j : Nat) : Nat :=
  if sb = 16 then byte (2 * j) + 256 * byte (2 * j + 1)
  else if sb = 8 then byte j
  else byte (j * sb / 8) / 2 ^ (j * sb % 8) % 2 ^ sb

/-- The spare of a spare byte and whether the byte is bad (R65). -/
def spareOf (b : Nat) : Int × Bool :=
  if b / 32 ≠ 0 ∨ b = 16 then (0, true) else (sx b 5, false)

/-- The half-units of an E2M1X code (R60). -/
def halfUnits (s : Int) (c : Nat) : Int :=
  if c % 16 = 8 then s
  else
    let m : Int := match c % 8 with
      | 0 => 0
      | 1 => 1
      | 2 => 2
      | 3 => 3
      | 4 => 4
      | 5 => 6
      | 6 => 8
      | _ => 12
    if c % 16 < 8 then m else -m

/-- MSTAT flags. -/
def msSAT : Nat := 1
/-- MSTAT flags. -/
def msALIGN : Nat := 2
/-- MSTAT flags. -/
def msNONFIN : Nat := 4
/-- MSTAT flags. -/
def msBADSPARE : Nat := 8
/-- MSTAT flags. -/
def msNANSCALE : Nat := 16
/-- MSTAT flags. -/
def msCAPPED : Nat := 32
/-- MSTAT flags. -/
def msDSAT : Nat := 512

/-- E(x) of R68 for a nonzero finite datum. -/
def expOf (f : Fmt) (m : Nat) (e : Int) : Int := max (1 - (f.bias : Int)) ((Nat.log2 m : Int) + e)

/-- The exponent emax of a block of floats (R68). DESIGN CHOICE (log 63): a NaN or an infinite element, for which R68 gives no E, takes no
part in the maximum. -/
def emaxOf (f : Fmt) (vs : List FVal) : Int :=
  let es := vs.filterMap fun v => match v with
    | .fin _ m e => if m = 0 then none else some (expOf f m e)
    | _ => none
  match es with
  | [] => 1 - (f.bias : Int)
  | e :: l => l.foldl max e

/-- A float aligned at width w under exponent fa, with its flags (R68). -/
def alignOne (w : Nat) (fa : Int) (v : FVal) : Int × Nat :=
  match v with
  | .fin s m e =>
    let r := roundAt 0 s m e fa
    let q : Int := if s then -(r.1 : Int) else r.1
    let top : Int := (2 ^ (w - 1) : Nat) - 1
    if top < q then (top, msALIGN) else (q, flagIf r.2 msALIGN)
  | _ => (0, msNONFIN)

/-- The integers q of one row and block before any cap, the exponent x, whether its scale is 0xFF, and the flags met. -/
def Side.block (x : Side) (lm : Memory) (byte : Nat → Nat) (row nb j blk : Nat) : List Int × Int × Bool × Nat :=
  let raws := (numsFrom (j * blk) blk).map (rawEl x.store byte)
  let scale := (lm.byte (x.sc + row * nb + j)).toNat
  let ea : Int := if x.scaled then (scale : Int) - 127 else 0
  let nan := x.scaled && scale == 255
  let fl := flagIf nan msNANSCALE
  match x.kind with
  | 0 => (raws.map fun v => sx v (x.nm1 + 1), ea, nan, fl)
  | 1 => (raws.map fun v => ((v % 2 ^ (x.nm1 + 1) : Nat) : Int), ea, nan, fl)
  | 2 => (raws.map fun v => if v = 1 then 1 else -1, ea, nan, fl)
  | 3 =>
    let sp := spareOf (lm.byte (x.sp + row * nb + j)).toNat
    (raws.map (halfUnits sp.1), ea - 1, nan, fl + flagIf sp.2 msBADSPARE)
  | _ =>
    let vs := raws.map x.fmt.unpack
    let fa := emaxOf x.fmt vs - ((x.w : Int) - 2)
    let qs := vs.map (alignOne x.w fa)
    (qs.map Prod.fst, ea + fa, nan, fl ||| qs.foldl (fun a q => a ||| q.2) 0)

/-- Sign and plane pattern of q under e planes (R69, R193). -/
def planeOf (mode e wf : Nat) (q : Int) : Bool × Nat :=
  let unit : Nat := 2 ^ (wf - e)
  if 2 ≤ mode then (decide (q < 0), q.natAbs / unit) else (false, lowBits (q / unit) e)

/-- The weight of plane p under e planes, in units of q (R69, R193). -/
def planeWt (mode e wf p : Nat) : Int :=
  (if mode = 0 ∧ p + 1 = e then -((2 ^ p : Nat) : Int) else ((2 ^ p : Nat) : Int)) * ((2 ^ (wf - e) : Nat) : Int)

/-- pos − neg of a plane pair over a block (R193). -/
def planeDot (pa pb : Nat) : List (Bool × Nat) → List (Bool × Nat) → Int
  | (sa, a) :: l, (sb, b) :: m =>
    (if a.testBit pa && b.testBit pb then (if sa = sb then 1 else -1) else 0) + planeDot pa pb l m
  | _, _ => 0

/-- rne(S × 2^x). -/
def rneShift (S x : Int) : Int :=
  let r := roundAt 0 (decide (S < 0)) S.natAbs x 0
  if S < 0 then -(r.1 : Int) else r.1

/-- The accumulator mode function (R71) and whether saturation changed the value. -/
def accMode (mode : Nat) (total : Int) : Int × Bool :=
  match mode with
  | 0 => (sx (lowBits total 32) 32, false)
  | 1 => let v := satI total (-2 ^ 31) (2 ^ 31 - 1); (v, v != total)
  | 2 => (sx (lowBits total 64) 64, false)
  | _ => let v := satI total (-2 ^ 63) (2 ^ 63 - 1); (v, v != total)

/-! ### Commands -/

/-- A multiply command. -/
def MCmd.isMul (c : MCmd) : Bool :=
  match c.ins with
  | .mmul _ _ _ _ | .mmulg _ _ _ _ => true
  | _ => false
/-- A gathering multiply. -/
def MCmd.isGather (c : MCmd) : Bool :=
  match c.ins with
  | .mmulg _ _ _ _ => true
  | _ => false

/-- Bytes of a row of A. -/
def MCmd.ra (c : MCmd) : Nat := c.regs.k * c.regs.sideA.store / 8
/-- Bytes of a column of B. -/
def MCmd.rb (c : MCmd) : Nat := c.regs.k * c.regs.sideB.store / 8
/-- Blocks. -/
def MCmd.nb (c : MCmd) : Nat := c.regs.k / c.regs.blk

/-- The operand latch, when it is held for a command (R206). -/
def Core.latchOf (k : Core) (uid : Nat) : Option Latch :=
  match k.latch with
  | some l => if l.cmd.uid = uid then some l else none
  | none => none

/-- The bytes of row i of A: from LM, or from the operand latch. -/
def Core.rowA (k : Core) (c : MCmd) (i b : Nat) : Nat :=
  if c.isGather then
    match k.latchOf c.uid with
    | some l => ((l.data.getD []).getD (i * c.ra + b) 0).toNat
    | none => 0
  else (k.lm.byte (bits c.ga 0 18 + i * c.ra + b)).toNat
/-- The bytes of column n of B. -/
def Core.colB (k : Core) (c : MCmd) (n b : Nat) : Nat := (k.lm.byte (bits c.gb 0 18 + n * c.rb + b)).toNat

/-- The caps that MCAP shows for an owner on a core (R190): `mcap` while the owner is shed under DEGRADE, else 16. -/
def State.capShown (s : State) (core owner : Nat) : Nat :=
  match (s.core core).ostate.look owner with
  | some .degraded | some (.resuming false) => (s.owner owner).mcap
  | _ => 16

/-- The cap that applies to engine work (R69, R196): none for work at service or monitor privilege (R413), of a steward in its
handling (R346, R364), or of a handler in slot 15 (R344). -/
def State.capOf (s : State) (core owner tid priv : Nat) : Nat :=
  if priv ≠ 0 ∨ slotOf tid = 15 ∨ (match s.thread tid with | some t => t.handling != .none | none => false) = true then 16
  else s.capShown core owner

/-- The plane passes: the running totals S after one more pass. -/
def passTotals (c : MCmd) (as bs : List (List Int × Int × Bool × Nat)) : Map Int :=
  let A := c.regs.sideA
  let B := c.regs.sideB
  let pas := as.map fun a => a.1.map (planeOf A.mode c.ea A.wf)
  let pbs := bs.map fun b => b.1.map (planeOf B.mode c.eb B.wf)
  let wt := planeWt A.mode c.ea A.wf c.pa * planeWt B.mode c.eb B.wf c.pb
  ((pas.zip (numsFrom 0 16)).foldl (fun acc a =>
    (pbs.zip (numsFrom 0 16)).foldl (fun acc b =>
      let key := 16 * a.2 + b.2
      acc.store key ((acc.look key).getD 0 + wt * planeDot c.pa c.pb a.1 b.1) 0) acc) c.s)

/-- T with the contributions of a finished block (R193). -/
def blockTotals (c : MCmd) (S : Map Int) (as bs : List (List Int × Int × Bool × Nat)) : Map Int :=
  (as.zip (numsFrom 0 16)).foldl (fun acc a =>
    (bs.zip (numsFrom 0 16)).foldl (fun acc b =>
      let key := 16 * a.2 + b.2
      let v := if a.1.2.2.1 || b.1.2.2.1 then 0
        else rneShift ((S.look key).getD 0) (a.1.2.1 + b.1.2.1 - c.regs.eacc)
      acc.store key ((acc.look key).getD 0 + v) 0) acc) c.t

/-- Writes tile elements through the mode function, records exponent and mode; and the SAT flag. -/
def TileSt.accumulate (x : TileSt) (r : MatRegs) (f : Nat → Nat → Int) : TileSt × Nat :=
  let els := ((numsFrom 0 r.m).map fun i => (numsFrom 0 r.n).map fun n => (i, n)).flatten
  let q := els.foldl (fun (acc : Map Word × Nat) p =>
    let key := 16 * p.1 + p.2
    let v := accMode r.mode (((x.el.look key).getD 0).toInt + f p.1 p.2)
    (acc.1.store key (BitVec.ofInt 64 v.1) 0, acc.2 ||| flagIf v.2 msSAT)) (x.el, 0)
  ({ x with el := q.1, eacc := bits r.macc 0 8, mode := r.mode }, q.2)

/-- Replaces tile n of a core. -/
def Core.setTile (k : Core) (n : Nat) (x : TileSt) : Core := { k with tiles := setAt k.tiles n x }
/-- Replaces a command of the matrix queue. -/
def Core.setM (k : Core) (x : MCmd) : Core := { k with mq := k.mq.map fun y => if y.uid = x.uid then x else y }
/-- Removes a command from the matrix queue, and its latch. -/
def Core.dropM (k : Core) (uid : Nat) : Core :=
  { k with mq := k.mq.filter fun x => x.uid != uid,
           latch := match k.latch with | some l => if l.cmd.uid = uid then none else some l | none => none }

/-- Sets flags in a thread's MSTAT. -/
def State.mflag (s : State) (tid fl : Nat) : State := s.modThread tid fun t => { t with mstat := t.mstat ||| BitVec.ofNat 64 fl }

/-- A `vacc` holds a command on its tile back that did not enter before it (R176). -/
def Core.vaccHolds (k : Core) (c : MCmd) : Bool :=
  k.vq.any fun v => match v.ins with
    | .vacc _ _ i _ _ => i.val == c.tile && !v.after.contains c.uid
    | _ => false

/-- Offsets of the rows that an index vector names (R206). DESIGN CHOICE (log 89): an `mmulg` restored by `crest` reads its index vector
again, and a row that would now fail R106 is taken at its address modulo 2^18. -/
def Core.indexRows (k : Core) (c : MCmd) : List Nat :=
  (numsFrom 0 c.regs.m).map fun i =>
    (c.ga + BitVec.ofNat 64 (k.lm.read (bits c.gd 0 18 + 2 * i) 2 * c.ra)).toNat % 2 ^ 18

/-- Another engine's range, registered before those of a command, holds a row that its latch is to be filled with again (R206, R310). DESIGN
CHOICE (log 103): of ranges registered later the rules say nothing, and the fill does not wait for them. -/
def Core.rowsHeld (k : Core) (core cc : Nat) (c : MCmd) : Bool :=
  let rows := k.indexRows c
  (k.locks.takeWhile fun l => l.uid != c.uid).any fun x =>
    x.w && x.space == .lm core && k.mq.all (fun m => m.uid != x.uid) &&
      rows.any fun o => decide (o < (x.seen cc).2) && decide ((x.seen cc).1 < o + c.ra)

/-- A command waits on its gate or on a range (R197, R198), or, re-entered without its gathered rows, on the operand latch and the
ranges over those rows (R310). DESIGN CHOICE (log 88): one that waits for the latch is passed over as one that waits on a range is. -/
def State.mwaits (s : State) (core : Nat) (c : MCmd) : Bool :=
  (c.gate.isSome && c.opened != some false) || s.mustWait core c.uid ||
    (c.isGather && ((s.core core).latchOf c.uid).isNone && ((s.core core).latch.isSome || (s.core core).rowsHeld core s.cc c))

/-- The first command that may run, of those with no earlier command of their thread (R194): only one that waits on its gate or on a
range is passed over, so one that a `vacc` holds back, or that entered in this cc, holds back those behind it. -/
def State.mfirst (s : State) (core : Nat) : List Nat → List MCmd → Option MCmd
  | _, [] => none
  | seen, c :: l =>
    if seen.contains c.tid || s.mwaits core c then s.mfirst core (c.tid :: seen) l
    else if (s.core core).vaccHolds c || decide (s.cc ≤ c.entered) then none
    else some c

/-- The command that the engine runs next: one that has begun, else the first that may run. -/
def State.mpick (s : State) (core : Nat) : Option MCmd :=
  match (s.core core).mq.find? fun c => c.begun with
  | some c => some c
  | none => s.mfirst core [] (s.core core).mq

/-- Bytes of the gathered rows as LM holds them now. -/
def Core.gatherRows (k : Core) (ra : Nat) (rows : List Nat) : List Byte :=
  (rows.map fun o => (numsFrom o ra).map fun a => k.lm.byte a).flatten

/-- A restored `mmulg` fills the latch again before it runs (R310). -/
def Core.refill (k : Core) (c : MCmd) : Core :=
  if c.isGather && k.latch.isNone then
    let rows := k.indexRows c
    { k with latch := some { cmd := c, rows := rows, data := some (k.gatherRows c.ra rows) } }
  else k

/-- A running multiply stops at the end of its pass, but for one in its last pass or one that `mstop` cancels (R199, R208). -/
def MCmd.mayStop (c : MCmd) : Bool := c.isMul && c.stopping.isNone && !c.fin

/-- Moves matrix commands of a thread, in queue order, into its restart record (R199), the partial totals of one that has begun into
its tile's continuation store; other forms that have begun run to their end. The engine runs the pass that this cc lies in to its end
first. DESIGN CHOICE (log 105): their entries are free at once, also for a later issue of this cc: R199 frees them, and R209 names a
retirement, a cancelling and a discarding alone. -/
def State.recordM (s : State) (tid : Nat) (f : MCmd → Bool) : State :=
  let core := coreOf tid
  let k := s.core core
  let goes := fun (c : MCmd) => c.tid == tid && f c && (!c.begun || c.mayStop)
  let go := k.mq.filter goes
  if go.isEmpty then s
  else if go.any fun c => c.begun && (c.left != 0 || k.mrun != some s.cc) then
    s.modCore core fun k => { k with mq := k.mq.map fun c => if goes c then { c with halting := true } else c }
  else
    let s := go.foldl (fun s c =>
      if c.begun then s.modCore core fun k => k.setTile c.tile { k.tiles.getD c.tile {} with contT := c.t, contS := c.s } else s) s
    (s.modCore core fun k => { k with mq := k.mq.filter fun c => !goes c }).modThread tid fun t =>
      { t with mrec := t.mrec ++ go.map fun c =>
          { c with begun := false, halting := false, left := 0, t := [], s := if c.begun then [] else c.s } }

/-- The end of a command in the engine, with the `mstop` that waits for it. -/
def State.mretire (s : State) (core : Nat) (c : MCmd) (cancelled : Bool) : State :=
  let s := (s.modCore core fun k => k.dropM c.uid).retireEngine core c.owner c.priv c.tid c.uid
  match c.stopping with
  | none => s
  | some (d, n) =>
    let v := n + bit cancelled
    let s := if v = 0 then s else s.mflag c.tid 0x80
    match s.thread c.tid with
    | some t => if t.block = Block.reply .unit then s.complete c.tid 0 fun t => t.wr d (BitVec.ofNat 64 v) else s
    | none => s

/-- A command is cancelled (R208): its continuation store is cleared, its ranges and latch are freed. DESIGN CHOICE (log 105): one that
re-entered from a record counts in the queue to the end of the cc, as one with an entry does (R209). -/
def State.mcancel (s : State) (core : Nat) (c : MCmd) : State :=
  ((s.modCore core fun k => ((k.dropM c.uid).freeM s.cc (k.mq.filter fun x => x.uid == c.uid).length).setTile c.tile { k.tiles.getD c.tile {} with contT := [], contS := [] }).freeLocks
    core c.uid).sweepMeters core

/-- The end of a pass (R194, R195, R208): its charge; after the last pass the command retires with its effect on the tile, and
a command that `mstop` waits for is cancelled. -/
def State.passEnd (s : State) (core : Nat) (c : MCmd) : State :=
  let s := s.charge core c.owner c.priv 5 (c.regs.blk / 64)
  let tl := (s.core core).tiles.getD c.tile {}
  let s :=
    if c.fin then
      let r := tl.accumulate c.regs fun i n => (c.t.look (16 * i + n)).getD 0
      let s := s.modCore core fun k => k.setTile c.tile { r.1 with contT := [], contS := [] }
      (s.mflag c.tid r.2).mretire core c false
    else if c.stopping.isSome then
      (s.modCore core fun k => k.setTile c.tile { tl with contT := [], contS := [] }).mretire core c true
    else s.modCore core fun k => k.setM c
  s.recordM c.tid fun x => x.halting

/-- A pass is over when no cycle of it is left. -/
def State.passCycle (s : State) (core : Nat) (c : MCmd) : State :=
  if c.left = 0 then s.passEnd core c else s.modCore core fun k => k.setM c

/-- A command after the pass that gave the plane totals `S`: the pass that follows, or the last one done. -/
def MCmd.afterPass (c : MCmd) (S : Map Int) (as bs : List (List Int × Int × Bool × Nat)) : MCmd :=
  if c.pb + 1 < c.eb then { c with pb := c.pb + 1, s := S }
  else if c.pa + 1 < c.ea then { c with pa := c.pa + 1, pb := 0, s := S }
  else
    let T := blockTotals c S as bs
    if c.blk + 1 < c.nb then { c with blk := c.blk + 1, pa := 0, pb := 0, t := T, s := [] } else { c with t := T, s := [], fin := true }

/-- The first cycle of a pass (R193, R196): a block's first pass samples the caps, and the totals take the pass in. -/
def State.passStart (s : State) (core : Nat) (c0 : MCmd) : State :=
  let s := s.modCore core fun k => k.refill c0
  let k := s.core core
  let tl := k.tiles.getD c0.tile {}
  let A := c0.regs.sideA
  let B := c0.regs.sideB
  let c1 : MCmd := if c0.resumed && !c0.begun && c0.done != 0 then { c0 with t := tl.contT, s := tl.contS } else c0
  let fresh := c1.pa == 0 && c1.pb == 0
  let cap := s.capOf core c1.owner c1.tid c1.priv
  let c : MCmd := if fresh then { c1 with ea := min A.w cap, eb := min B.w cap, s := [] } else c1
  let as := (numsFrom 0 c.regs.m).map fun i => A.block k.lm (k.rowA c i) i c.nb c.blk c.regs.blk
  let bs := (numsFrom 0 c.regs.n).map fun n => B.block k.lm (k.colB c n) n c.nb c.blk c.regs.blk
  let fl := if fresh then
      (as.foldl (fun x a => x ||| a.2.2.2) 0) ||| (bs.foldl (fun x b => x ||| b.2.2.2) 0) |||
        flagIf (decide (cap < A.w) || decide (cap < B.w)) msCAPPED
    else 0
  let s := s.mflag c.tid fl
  let touch := (if c.isGather then [] else [(bits c.ga 0 18, c.regs.m * c.ra)]) ++ [(bits c.gb 0 18, c.regs.n * c.rb)]
  let s := if fresh then s.engineTouch core c.tid touch else s
  let cost := c.regs.blk / 64
  s.passCycle core { c.afterPass (passTotals c as bs) as bs with begun := true, done := c.done + cost, left := cost - 1 }

/-- One engine cycle of a multiply command: the first cycle of its next pass, or a later one of the pass in progress. -/
def State.planePass (s : State) (core : Nat) : State :=
  match s.mpick core with
  | none => s
  | some c =>
    if !c.isMul || (s.core core).mrun = some s.cc || (s.core core).engineHeld c.begun then s
    else
      let s := { s.modCore core fun k => { k with mrun := some s.cc } with signals := s.signals ++ [(core, 31)] }
      if c.left = 0 then s.passStart core c
      else s.passCycle core { c with left := c.left - 1 }

/-- MATRIX_PLANE_PASS (R193): the row stands in every cc of a pass. -/
def execMatrixPlanePass (core : Nat) (s : State) : Out := .next (s.planePass core)

/-- Output of one element of `mdrain` (R207): the value and whether it saturated. -/
def drainOne (t : VType) (acc bias mult : Int) (shift : Nat) (zp : Int) : Int × Bool :=
  let v := rneShift ((acc + bias) * mult) (-(shift : Int))
  let y := satI (v + zp) t.lo t.hi
  (y, y != v + zp)

/-- One row of `mdrain` (R207). -/
def State.drainRow (s : State) (core : Nat) (c : MCmd) (t : VType) (i : Nat) : State :=
  let k := s.core core
  let tl := k.tiles.getD c.tile {}
  let N := c.regs.n
  let r := (numsFrom 0 N).map fun n =>
    let d := bits c.gb 0 18 + 16 * n
    drainOne t ((tl.el.look (16 * i + n)).getD 0).toInt (sx (k.lm.read d 8) 64) (sx (k.lm.read (d + 8) 4) 32)
      (k.lm.read (d + 12) 1 % 64) (sx (k.lm.read (d + 14) 2) 16)
  let ws := (r.zip (numsFrom 0 N)).map fun p => (bits c.ga 0 18 + (i * N + p.2) * t.bytes, t.bytes, lowBits p.1.1 (8 * t.bytes))
  (s.engineStore core c.tid ws).mflag c.tid (flagIf (r.any fun p => p.2) msDSAT)

/-- One cycle of an `mzero`, `mbias` or `mdrain` (R204, R205, R207); `mdrain` leaves the tile unchanged, its recorded exponent
and mode with it (DEDUCED: R207 over R178). -/
def State.matrixCycle (s : State) (core : Nat) : State :=
  let k := s.core core
  match s.mpick core with
  | none => s
  | some c =>
    if c.isMul || k.mrun = some s.cc || k.engineHeld c.begun then s
    else
      let s := s.modCore core fun k => { k with mrun := some s.cc }
      let tl := k.tiles.getD c.tile {}
      let step := fun (s : State) => (s.charge core c.owner c.priv 5 1).modCore core fun k =>
        k.setM { c with begun := true, done := c.done + 1 }
      match c.ins with
      | .mzero _ _ =>
        ((step s).modCore core fun k =>
          k.setTile c.tile { tl with el := [], eacc := bits c.regs.macc 0 8, mode := c.regs.mode, contT := [], contS := [] }).mretire
            core c false
      | .mbias _ _ _ =>
        let s := step s
        if c.done = 0 then s
        else
          let s := s.engineTouch core c.tid [(bits c.ga 0 18, 8 * c.regs.n)]
          let r := tl.accumulate c.regs fun _ n => sx (k.lm.read (bits c.ga 0 18 + 8 * n) 8) 64
          ((s.modCore core fun k => k.setTile c.tile r.1).mflag c.tid r.2).mretire core c false
      | .mdrain _ _ t _ =>
        let s := step s
        let s := if c.done < c.regs.m then s.drainRow core c t c.done else s
        if c.done + 1 < c.regs.m + 4 then s
        else s.mretire core c false
      | _ => s

/-- MATRIX_COMMAND_CYCLE (R194). -/
def execMatrixCommandCycle (core : Nat) (s : State) : Out := .next (s.matrixCycle core)

/-! ### Issue (R191) -/

/-- Takes a pending POISON trap (R198) before a form acts. -/
def State.poisonFirst (s : State) (t : Thread) (k : Thread → Out) : Out :=
  match t.poison with
  | b :: l => s.trap { t with poison := l } 0x06 (BitVec.ofNat 64 b)
  | [] => k t

/-- A refused command (R188): its instruction retires and charges the integer entry. -/
def State.mrefuse (s : State) (t : Thread) (code : Nat) : Out := s.finish { t with mstat := refuse t.mstat code } 0

/-- A register range or vector of a command in own LM, as a lock; or the failing address. -/
def State.mrange (s : State) (t : Thread) (va : Word) (n al : Nat) (w : Bool) : Except Word Lock :=
  match s.ownLm t.part (coreOf s.cur) va n al with
  | some off => .ok { space := .lm (coreOf s.cur), lo := off, hi := off + n, w := w, uid := s.uid }
  | none => .error va

/-- The first failure of a list of ranges, or the locks. -/
def allOk : List (Except Word Lock) → Except Word (List Lock)
  | [] => .ok []
  | .error a :: _ => .error a
  | .ok l :: r => match allOk r with
    | .ok ls => .ok (numbered (l :: ls))
    | .error a => .error a

/-- An address in the own-LM window by offset. -/
def lmVa (off : Nat) : Word := BitVec.ofNat 64 (0xC0 * 2 ^ 56 + off)

/-- The vectors of R66 that a multiply reads, in the order ASC, BSC, ASP, BSP (R192, R206). -/
def State.mvectors (s : State) (t : Thread) (r : MatRegs) : List (Except Word Lock) :=
  let nb := r.k / r.blk
  let v := fun (use : Bool) (off n : Nat) => if use then [s.mrange t (lmVa off) n 4 false] else []
  v r.sideA.scaled r.sideA.sc (r.m * nb) ++ v r.sideB.scaled r.sideB.sc (r.n * nb) ++
    v (r.sideA.kind == 3) r.sideA.sp (r.m * nb) ++ v (r.sideB.kind == 3) r.sideB.sp (r.n * nb)

/-- Entries of the matrix queue in use in a cc: re-entered records count too (R362), and so do, to the end of the cc, entries freed in
it (R209). -/
def Core.mqUsed (c : Core) (cc : Nat) : Nat := c.mq.length + c.mqFreed cc

/-- The gate a register names (R198). -/
def State.gateOf (s : State) (t : Thread) (g : GReg) : Option Gate :=
  if g = 0 then none
  else
    let b := bits (t.rd g) 0 6
    some ⟨b, (s.bar (coreOf s.cur) b).phase⟩

/-- The command of an instruction (R191). -/
def State.mcmd (s : State) (t : Thread) (ins : Instr) (tile : Tile) (ga gb gd : Word) (gate : Option Gate) : MCmd :=
  { ins := ins, word := s.ir, uid := s.uid, tid := s.cur, owner := t.owner, priv := t.priv, tile := tile.val,
    ga := ga, gb := gb, gd := gd, regs := t.mat, gate := gate }

/-- Puts a command into the matrix queue with its ranges, or leaves the position a bubble (R86, R191). -/
def State.menter (s : State) (t : Thread) (c : MCmd) (locks : List Lock) : Out :=
  let me := coreOf s.cur
  let k := s.core me
  if 2 ≤ k.mqUsed s.cc ∨ 32 < k.lockCount + lockEntries locks then s.bubble
  else
    let s := (s.addLocks me 0 locks).modCore me fun k => { k with mq := k.mq ++ [{ c with entered := s.cc }] }
    .next ((s.setThread s.cur { t.issued with pc := t.pc + 4, block := .none, walkRes := none, noMig := false }).nextUid)

/-- Issue of a matrix command: tile, refusal, addresses, queue (R191). -/
def State.matrixForm (s : State) (ins : Instr) (tile : Tile) (refusal : MatRegs → Nat) (ga gb gd : GReg) (gate : Option GReg)
    (ranges : Thread → List (Except Word Lock)) : Out :=
  s.onThread fun t =>
    if ((s.core (coreOf s.cur)).tiles.getD tile {}).holder ≠ some s.cur then s.illegal t
    else if refusal t.mat ≠ 0 then s.mrefuse t (refusal t.mat)
    else
      match allOk (ranges t) with
      | .error a => s.addr t a
      | .ok locks =>
        s.menter t (s.mcmd t ins tile (t.rd ga) (t.rd gb) (t.rd gd) (match gate with | some g => s.gateOf t g | none => none)) locks

/-- mzero (R204). -/
def execMzero (rd : GReg) (t : Tile) (s : State) : Out :=
  s.matrixForm (.mzero rd t) t (fun _ => 0) 0 0 rd (some rd) fun _ => []

/-- Refusal code 3 alone (R205, R207). -/
def geomOnly (r : MatRegs) : Nat := if r.badGeom then 3 else 0

/-- mbias (R205). -/
def execMbias (ra rd : GReg) (t : Tile) (s : State) : Out :=
  s.matrixForm (.mbias ra rd t) t geomOnly ra 0 rd (some rd) fun th => [s.mrange th (th.rd ra) (8 * th.mat.n) 8 false]

/-- mmul (R206). -/
def execMmul (ra rb rd : GReg) (t : Tile) (s : State) : Out :=
  s.matrixForm (.mmul ra rb rd t) t (fun r => r.refusal false) ra rb rd (some rd) fun th =>
    let r := th.mat
    [s.mrange th (th.rd ra) (r.m * (r.k * r.sideA.store / 8)) 8 false, s.mrange th (th.rd rb) (r.n * (r.k * r.sideB.store / 8)) 8 false] ++
      s.mvectors th r

/-- mdrain (R207). -/
def execMdrain (ra rb : GReg) (rd : VType) (t : Tile) (s : State) : Out :=
  s.matrixForm (.mdrain ra rb rd t) t geomOnly ra rb 0 none fun th =>
    [s.mrange th (th.rd ra) (th.mat.m * th.mat.n * rd.bytes) 8 true, s.mrange th (th.rd rb) (16 * th.mat.n) 8 false]

/-- The rows that an `mmulg` gathers: a failing address or the offsets (R206). DESIGN CHOICE (log 64): the index vector is read when the
instruction is presented, also where another engine holds a range over it; R206 makes only the gathered rows wait. -/
def State.gatherCheck (s : State) (t : Thread) (ga gd : Word) : Except Word (List Nat) :=
  let r := t.mat
  let ra := r.k * r.sideA.store / 8
  match s.ownLm t.part (coreOf s.cur) gd (2 * r.m) 8 with
  | none => .error gd
  | some ix =>
    let vas := (numsFrom 0 r.m).map fun i =>
      ga + BitVec.ofNat 64 ((s.core (coreOf s.cur)).lm.read (ix + 2 * i) 2 * ra)
    match vas.find? fun va => (s.ownLm t.part (coreOf s.cur) va ra 8).isNone with
    | some va => .error va
    | none => .ok (vas.map fun va => va.toNat % 2 ^ 18)

/-- The latch is filled for the instruction that the thread presents again: the same word with the same operands and registers. -/
def Latch.serves (l : Latch) (c : MCmd) : Bool :=
  l.data.isSome && l.cmd.tid == c.tid && l.cmd.word == c.word && l.cmd.ga == c.ga && l.cmd.gb == c.gb && l.cmd.gd == c.gd &&
    l.cmd.regs == c.regs

/-- The latch is held by a command that has entered the queue or stands in a restart record. -/
def State.latchIssued (s : State) (core : Nat) (l : Latch) : Bool :=
  ((s.core core).mq.any fun m => m.uid == l.cmd.uid) ||
    match s.thread l.cmd.tid with
    | some t => t.mrec.any fun m => m.uid == l.cmd.uid
    | none => false

/-- The latch is busy for a thread: another thread's `mmulg` holds it, or one that has issued (R206). -/
def State.latchBusy (s : State) (core tid : Nat) : Bool :=
  match (s.core core).latch with
  | some l => l.cmd.tid != tid || s.latchIssued core l
  | none => false

/-- mmulg (R206): a busy latch makes its position a bubble; then the checks; then the latch is taken and the thread waits for the
gather unit. Presented again with the latch filled, it enters the queue with the ranges of B and the vectors, or its position is a
bubble (R86). -/
def execMmulg (ra rb rd : GReg) (t : Tile) (s : State) : Out :=
  s.onThread fun th =>
    let me := coreOf s.cur
    let c := s.mcmd th (.mmulg ra rb rd t) t (th.rd ra) (th.rd rb) (th.rd rd) none
    if ((s.core me).tiles.getD t {}).holder ≠ some s.cur then s.illegal th
    else if s.latchBusy me s.cur then s.bubble
    else
      let locks := allOk (s.mrange th (th.rd rb) (th.mat.n * (th.mat.k * th.mat.sideB.store / 8)) 8 false :: s.mvectors th th.mat)
      match (s.core me).latch.filter (fun l => l.serves c), locks with
      | some l, .ok locks => s.menter th { c with uid := l.cmd.uid } (locks.map fun x => { x with uid := l.cmd.uid })
      | _, _ =>
        if th.mat.refusal true ≠ 0 then s.mrefuse th (th.mat.refusal true)
        else
          match s.gatherCheck th (th.rd ra) (th.rd rd), locks with
          | .error a, _ => s.addr th a
          | .ok _, .error a => s.addr th a
          | .ok rows, .ok _ => (s.modCore me fun k => { k with latch := some { cmd := c, rows := rows } }).nextUid.hold th .latch

/-- OPERAND_LATCH_FILLED (R206): the rows are read once no other engine's range holds them, and the thread is in rotation again. -/
def execOperandLatchFilled (core : Nat) (s : State) : Out :=
  let k := s.core core
  match k.latch with
  | none => .next s
  | some l =>
    let meets := k.locks.any fun x => x.w && x.space == .lm core &&
      l.rows.any fun o => decide (o < (x.seen s.cc).2) && decide ((x.seen s.cc).1 < o + l.cmd.ra)
    if l.data.isSome || k.frozen || k.lost || meets then .next s
    else
      let s := s.engineTouch core l.cmd.tid (l.rows.map fun o => (o, l.cmd.ra))
      let s := s.modCore core fun k => { k with latch := some { l with data := some (k.gatherRows l.cmd.ra l.rows) } }
      .next (s.modThread l.cmd.tid fun t => if t.block = .latch then { t with block := .none, readyAt := s.cc + 1 } else t)

/-- Matrix commands of a thread in the queue on the tiles of a mask. -/
def State.mbusy (s : State) (tid mask : Nat) : Bool :=
  (s.core (coreOf tid)).mq.any fun x => x.tid == tid && mask.testBit x.tile

/-- Matrix commands of a thread on the tiles of a mask that have not retired, in the queue or in its restart record (R202, R208). -/
def State.mopen (s : State) (tid mask : Nat) : Bool :=
  s.mbusy tid mask || match s.thread tid with
    | some t => t.mrec.any fun x => mask.testBit x.tile
    | none => false

/-- mclaim (R201). -/
def execMclaim (ra rd : GReg) (s : State) : Out :=
  s.onThread fun t =>
    let want := bits (t.rd ra) 0 8
    let k := s.core (coreOf s.cur)
    let ok := (k.tiles.zip (numsFrom 0 8)).all fun p =>
      !want.testBit p.2 || p.1.holder.isNone || p.1.holder == some s.cur
    if ok then
      (s.modCore (coreOf s.cur) fun k =>
        { k with tiles := (k.tiles.zip (numsFrom 0 8)).map fun p =>
            if want.testBit p.2 && p.1.holder.isNone then { holder := some s.cur } else p.1 }).write t rd (BitVec.ofNat 64 want) 0
    else s.write t rd 0 0

/-- mrel (R202). -/
def execMrel (ra : GReg) (s : State) : Out :=
  s.onThread fun t => s.poisonFirst t fun t =>
    let mask := bits (t.rd ra) 0 8
    if s.mopen s.cur mask then s.await t (.mdone mask) else (s.freeTiles s.cur mask).finish t 0

/-- mset (R203): it blocks as a load of the own LM does. -/
def execMset (ra : GReg) (s : State) : Out :=
  s.onThread fun t =>
    s.lmAccess t (t.rd ra) 48 8 false fun s off =>
      let m := s.mem (.lm (coreOf s.cur))
      let r := (numsFrom 0 6).foldl (fun (r : MatRegs) k => r.set k (BitVec.ofNat 64 (m.read (off + 8 * k) 8))) t.mat
      s.loadHere { t with mat := r } []

/-- mget (R203). -/
def execMget (ra : GReg) (s : State) : Out :=
  s.onThread fun t =>
    s.lmAccess t (t.rd ra) 48 8 true fun s off =>
      ((numsFrom 0 6).foldl (fun (s : State) k => s.writeLoc ⟨.lm (coreOf s.cur), off + 8 * k⟩ 8 (t.mat.get k).toNat) s).finish t 1

/-- mwait (R208). -/
def execMwait (rd : GReg) (s : State) : Out :=
  s.onThread fun t => s.poisonFirst t fun t =>
    if s.mopen s.cur 0xFF then s.await t (.mdone 0xFF) else s.write t rd t.mstat 0

/-- mstop (R208): queued and recorded commands are dropped; a running one ends after its current pass, or now when that pass has ended
in this cc. DESIGN CHOICE (log 108): a running command without passes, `mbias` or `mdrain`, runs to its end and is not counted. -/
def execMstop (rd : GReg) (s : State) : Out :=
  s.onThread fun t => s.poisonFirst t fun t =>
    let me := coreOf s.cur
    let mine := (s.core me).mq.filter fun c => c.tid == s.cur
    let ended := fun (c : MCmd) => c.left == 0 && !c.fin && (s.core me).mrun == some s.cc
    let queued := t.mrec ++ mine.filter fun c => !c.begun || ended c
    let s := queued.foldl (fun s c => s.mcancel me c) s
    let t := { t with mrec := [] }
    match mine.find? fun c => c.begun && !ended c with
    | some c =>
      afterRetire ((s.modCore me fun k => k.setM { c with stopping := some (rd, queued.length) }).wait t (.reply .unit)) fun s => s.sweepMeters me
    | none =>
      let t := if queued.isEmpty then t else { t with mstat := t.mstat ||| 0x80 }
      afterRetire (s.write t rd (BitVec.ofNat 64 queued.length) 0) fun s => s.sweepMeters me

/-- The ranges of a matrix command (R191, R197). -/
def State.mlocks (s : State) (t : Thread) (c : MCmd) : List Lock :=
  let s := { s with cur := c.tid, uid := c.uid }
  let r := c.regs
  let l := match c.ins with
    | .mbias _ _ _ => [s.mrange t c.ga (8 * r.n) 8 false]
    | .mmul _ _ _ _ => [s.mrange t c.ga (r.m * c.ra) 8 false, s.mrange t c.gb (r.n * c.rb) 8 false] ++ s.mvectors t r
    | .mmulg _ _ _ _ => [s.mrange t c.gb (r.n * c.rb) 8 false] ++ s.mvectors t r
    | .mdrain _ _ z _ => [s.mrange t c.ga (r.m * r.n * z.bytes) 8 true, s.mrange t c.gb (16 * r.n) 8 false]
    | _ => []
  numbered (l.filterMap fun x => match x with
    | .ok k => some k
    | .error _ => none)

end Sys2Proof.Machine
end

