-- ==== Sys2Proof/Machine/Arbiter.lean ====
section
/-! DEFINITION. The urgency arbiter and what a core does with its changes (spec/15: R336 to R354; R152, R153, R199, R362,
R364): shed state, restart records, stewards, records of owners. -/

namespace Sys2Proof.Machine

/-! ### Shed state of work (R344, R346, R364, R413) -/

/-- The standing of an owner on a core, as the core has applied it. -/
def State.ostate (s : State) (core o : Nat) : OState := ((s.core core).ostate.look o).getD .admitted

/-- Shedding of an owner's work on a core: 0 none, 1 suspended, 2 degraded. -/
def OState.shed : OState → Nat
  | .admitted => 0
  | .suspended => 1
  | .degraded => 2
  | .resuming sus => if sus then 1 else 2

/-- The thread of an ID: in its slot, or on its way to it, whose ID it has already (R120). -/
def State.anyThread (s : State) (tid : Nat) : Option Thread :=
  match s.thread tid with
  | some t => some t
  | none => (s.moving.find? fun m => m.slot == tid).map Move.t

/-- Replaces the thread of an ID, in its slot or on its way. -/
def State.setAny (s : State) (tid : Nat) (t : Thread) : State :=
  if (s.thread tid).isSome then s.setThread tid t
  else { s with moving := s.moving.map fun m => if m.slot = tid then { m with t := t } else m }

/-- The thread is in shed or resume handling. -/
def State.inHandling (s : State) (tid : Nat) : Bool :=
  match s.anyThread tid with
  | some t => t.handling != .none
  | none => false

/-- Shedding that applies to engine work of a thread: none at service or monitor privilege, in handling, or of a handler
in slot 15 (DEDUCED: R344's row of the handlers covers the work they issue). -/
def State.workShed (s : State) (core o tid priv : Nat) : Nat :=
  if slotOf tid = 15 ∨ priv ≠ 0 ∨ s.inHandling tid = true then 0 else (s.ostate core o).shed

/-- Shedding that applies to a thread: handlers in slot 15 are unaffected. -/
def State.threadShed (s : State) (tid : Nat) (t : Thread) : Nat :=
  if slotOf tid = 15 ∨ t.priv ≠ 0 ∨ t.handling ≠ .none then 0 else (s.ostate (coreOf tid) t.owner).shed

/-- The thread is out of rotation by the urgency mode. -/
def State.isSuspended (s : State) (tid : Nat) (t : Thread) : Bool := s.threadShed tid t == 1

/-- The thread is the steward of its owner (R345). -/
def State.isSteward (s : State) (tid : Nat) (t : Thread) : Bool := (s.owner t.owner).sv && (s.owner t.owner).stid == tid

/-! ### Restart records (R152, R199, R362) -/

/-- Both engines' commands of a thread, of those that a test names by captured owner and privilege, go to its restart records. -/
def State.recordThread (s : State) (tid : Nat) (f : Nat → Nat → Bool) : State :=
  (s.recordV tid fun c => f c.owner c.priv).recordM tid fun c => f c.owner c.priv

/-- The commands of a thread whose captured owner is suspended, and that are shed with it, go to its restart records (R344). -/
def State.recordShed (s : State) (tid : Nat) : State :=
  s.recordThread tid fun o priv => s.workShed (coreOf tid) o tid priv == 1

/-- Ranges that the recorded commands of a thread, of those that a test names, have not registered on its core: `csave` has released
them (R153). -/
def State.unregistered (s : State) (tid : Nat) (t : Thread) (f : Nat → Nat → Nat → Bool) : List Lock :=
  let core := coreOf tid
  let out := fun (uid : Nat) => !(s.core core).locks.any fun l => l.uid == uid
  (t.vrec.filter fun c => f c.tid c.owner c.priv && out c.uid).flatMap (fun c => c.locks core) ++
    (t.mrec.filter fun c => f c.tid c.owner c.priv && out c.uid).flatMap (s.mlocks t)

/-- The restart records of a thread re-enter when the table has room for the ranges they register anew (R153, R216). -/
def State.registerRecords (s : State) (tid : Nat) (f : Nat → Nat → Nat → Bool) : Option State :=
  match s.thread tid with
  | none => none
  | some t =>
    let ls := s.unregistered tid t f
    if ls = [] then some s
    else if (s.core (coreOf tid)).lockCount + lockEntries ls ≤ 32 then some (s.addLocks (coreOf tid) (1 + slotOf tid) ls)
    else none

/-- Restart records of the threads of a core, given in slot order, re-enter the queues in one cc, ahead of every command that has not
begun (R362): the commands that a test names by thread, captured owner and privilege. One on its way to a record stays in its queue. Records
whose ranges find no room stay until they do. -/
def State.reenterAll (s : State) (core : Nat) (tids : List Nat) (f : Nat → Nat → Nat → Bool) : State :=
  let r := tids.foldl (fun (acc : State × List Nat) tid =>
    match acc.1.registerRecords tid f with
    | some s => (s, acc.2 ++ [tid])
    | none => acc) (s, [])
  let s := r.1
  let tids := r.2
  let ts := tids.filterMap s.thread
  let v := (ts.flatMap fun t => t.vrec.filter fun c => f c.tid c.owner c.priv).map fun c => { c with entered := s.cc }
  let m := (ts.flatMap fun t => t.mrec.filter fun c => f c.tid c.owner c.priv).map fun c =>
    { c with entered := s.cc, resumed := true, s := if c.done = 0 then [] else ((s.core core).tiles.getD c.tile {}).contS }
  let s := s.modCore core fun k =>
    let vq := k.vq.map fun c => if tids.contains c.tid && f c.tid c.owner c.priv then { c with halting := false } else c
    let mq := k.mq.map fun c => if tids.contains c.tid && f c.tid c.owner c.priv then { c with halting := false } else c
    { k with
      vq := (vq.filter fun c => c.begun) ++ v ++ vq.filter fun c => !c.begun
      mq := (mq.filter fun c => c.begun) ++ m ++ mq.filter fun c => !c.begun }
  tids.foldl (fun s tid => s.modThread tid fun t =>
    { t with vrec := t.vrec.filter (fun c => !f c.tid c.owner c.priv), mrec := t.mrec.filter fun c => !f c.tid c.owner c.priv }) s

/-- A core on which nothing is kept stopped: no debugger or checkpoint holds its engines, and it is neither frozen nor lost. -/
def Core.runs (k : Core) : Bool := !k.held && !k.frozen && !k.lost

/-- Records of threads of a core re-enter in one cc, in ascending slot order, when nothing keeps its engines stopped (R153, R362, R406);
those of a thread that is being saved stay. -/
def State.reenterOn (s : State) (core : Nat) (tids : List Nat) (f : Nat → Nat → Nat → Bool) : State :=
  if (s.core core).runs then
    s.reenterAll core (tids.filter fun tid => match s.thread tid with
      | some t => t.block != .saving
      | none => false) f
  else s

/-- Records of the threads given re-enter where nothing keeps them stopped, but for those of an owner that is still suspended: at a
debugger's release, after a checkpoint, after `crest` in its cc, and those that waited for room (R153, R310, R362). -/
def State.reenterHeld (s : State) (core : Nat) (tids : List Nat) : State :=
  s.reenterOn core tids fun tid o priv => s.workShed core o tid priv != 1

/-- Records that stand on a core re-enter. -/
def State.reenterLeft (s : State) (core : Nat) : State :=
  s.reenterHeld core (((s.onCore core).filter fun p => !p.2.vrec.isEmpty || !p.2.mrec.isEmpty).map Prod.fst)

/-- The transfers of a core that a test names by captured owner and thread resume in the next cc (R226). -/
def State.resumeCopies (s : State) (core : Nat) (f : Nat → Nat → Bool) : State :=
  s.modCore core fun k =>
    { k with chans := k.chans.map fun c => { c with cur := c.cur.map fun x => if f x.owner x.tid then { x with entered := s.cc } else x } }

/-- Records and copies of a core that has been held go on, in ascending slot order. -/
def State.resumeCore (s : State) (core : Nat) : State :=
  if (s.core core).held then s
  else (s.reenterHeld core ((s.onCore core).map Prod.fst)).resumeCopies core fun _ _ => true

/-! ### Handling (R346, R347) -/

/-- The handling of a steward ends, by the allowance or not; resume handling sends the readmission report. -/
def State.endHandling (s : State) (tid : Nat) (byAllowance : Bool) : State :=
  match s.anyThread tid with
  | none => s
  | some t =>
    if t.handling = .none then s
    else
      let s := s.setAny tid
        { t with handling := .none, counted := 0, alwx := byAllowance, shedPend := none, resumePend := none, superPend := none }
      let s := if t.handling = .resume then s.modArb fun a => { a with reports := a.reports ++ [t.owner] } else s
      s.recordShed tid

/-- A handling begins; one that it takes the place of has not ended by the allowance (R351, R352). -/
def Thread.handle (t : Thread) (h : Handling) : Thread :=
  { t with handling := h, counted := 0, alwx := t.alwx && t.handling == .none }

/-- TVAL of SHED and RESUME (R348). -/
def handlingTval (raiser : Nat) (cfg sup deg : Bool) (mode : Nat) : Word :=
  BitVec.ofNat 64 (raiser * 256 + bit cfg * 64 + bit sup * 32 + bit deg * 16 + mode)

/-- The steward of an owner, when it is on a core, or on its way there, and may be given handling (R345, R413). -/
def State.stewardOn (s : State) (core o : Nat) : Option Thread :=
  let r := s.owner o
  if r.sv && coreOf r.stid == core then (s.anyThread r.stid).filter fun t => t.priv == 0 else none

/-- A core applies the shedding of an owner (R344, R346). A steward inside its RESUME handler whose resume handling is still open is to
have that handler abandoned; one that has reported is shed as any other (R352). -/
def State.applyShed (s : State) (core o raiser : Nat) (cfg : Bool) : State :=
  let r := s.owner o
  let s := s.modCore core fun k => { k with ostate := k.ostate.put o (if r.pol then .degraded else .suspended) }
  let s : State :=
    match s.stewardOn core o with
    | none => s
    | some t =>
      let tval := fun sup => handlingTval raiser cfg sup r.pol (s.core core).mode
      let inside := t.running == .resume && t.handling == .resume
      let t : Thread := { t.handle .shed with resumePend := none }
      if r.shpc = 0 then (s.setAny r.stid t).endHandling r.stid false
      else if inside then s.setAny r.stid { t with superPend := some (tval true) }
      else s.setAny r.stid { t with shedPend := some (tval false) }
  let s := if r.pol then s else (s.onCore core).foldl (fun s p => s.recordShed p.1) s
  s.sig core 28

/-- A core applies that an owner is RESUMING (R347): its steward enters resume handling; with SHPC = 0, or a SHED still pending, the
handling ends at once with the report. A steward that is never given handling acts so too (R345, R413). -/
def State.applyResume (s : State) (core o : Nat) (cfg : Bool) : State :=
  let r := s.owner o
  let s := s.modCore core fun k => { k with ostate := k.ostate.put o (.resuming ((s.ostate core o).shed == 1)) }
  match s.stewardOn core o with
  | none => if r.sv && coreOf r.stid == core then s.modArb fun a => { a with reports := a.reports ++ [o] } else s
  | some t =>
    if t.shedPend.isSome || t.superPend.isSome || r.shpc = 0 then
      (s.setAny r.stid (t.handle .resume)).endHandling r.stid false
    else
      ((s.setAny r.stid
        { t.handle .resume with
                 readyAt := if s.isSuspended r.stid t then s.cc + 1 else t.readyAt,
                 resumePend := some (handlingTval 0 cfg false r.pol (s.core core).mode) }).reenterOn core [r.stid] fun _ x _ => x == o)
        |>.resumeCopies core fun x tid => x == o && tid == r.stid

/-- A core applies an owner's readmission: its threads are ready from the next cc, and the restart records of the owner's work
re-enter in ascending slot order (R344, R362). -/
def State.applyReadmit (s : State) (core o : Nat) : State :=
  let was := (s.ostate core o).shed
  let shed := (s.onCore core).filter fun p => p.2.owner == o && s.isSuspended p.1 p.2
  let s := s.modCore core fun k => { k with ostate := k.ostate.drop o }
  let s := shed.foldl (fun s p => s.modThread p.1 fun t => { t with readyAt := s.cc + 1 }) s
  let s := s.reenterOn core ((s.onCore core).map Prod.fst) fun _ x _ => x == o
  let s := if (s.core core).held then s else s.resumeCopies core fun x _ => x == o && was == 1
  s.sig core 29

/-- A core applies one change of the arbiter (R343). -/
def State.applyChange (s : State) (core : Nat) : Change → State
  | .mode m fall from_ => s.modCore core fun k =>
      { k with mode := m, fall := fall, from_ := from_,
               meters := if k.mode = m then k.meters else k.meters.map fun x => { x with rsent := false } }
  | .shed o raiser cfg => s.applyShed core o raiser cfg
  | .resume o cfg => s.applyResume core o cfg
  | .readmit o => s.applyReadmit core o
  | .table k w => s.modCore core fun c => { c with tables := setAt c.tables k w }
  | .own _ => s
  | .dwell => s

/-- What a core has still to apply: one entry for each event of the arbiter. -/
def State.todo (s : State) (core : Nat) : List (List Change) := s.arb.log.drop (s.core core).applied

/-- Cores on which work stands: the others apply each change as it comes. -/
def State.busyCores (s : State) : List Nat :=
  (s.cores.filter fun c => (s.threads.any fun p => coreOf p.1 == c.1) || !c.2.vq.isEmpty || !c.2.mq.isEmpty || !c.2.xq.isEmpty ||
    c.2.chans.any fun x => x.cur.isSome).map Prod.fst

/-- Every core has applied the log up to a length. -/
def State.appliedTo (s : State) (n : Nat) : Bool := s.busyCores.all fun c => decide (n ≤ (s.core c).applied)

/-- Threads whose `ucfg` change every core has now applied go on, with its code (R360). -/
def State.relayDone (s : State) : State :=
  let go := s.arb.relay.filterMap fun r => match r.1 with
    | .thread tid d => if s.appliedTo r.2.1 then some (tid, d, r.2.2) else none
    | .host _ => none
  let stay := s.arb.relay.filter fun r => match r.1 with
    | .thread _ _ => !s.appliedTo r.2.1
    | .host _ => true
  go.foldl (fun s r => s.complete r.1 0 fun t => t.wr r.2.1 (BitVec.ofNat 64 r.2.2)) (s.modArb fun a => { a with relay := stay })

/-- A core applies one entry whole. -/
def State.applyEntry (s : State) (core : Nat) (l : List Change) : State :=
  l.foldl (fun s x => s.applyChange core x) (s.modCore core fun k => { k with applied := k.applied + 1 })

/-- No steward of a lower-numbered owner that an entry makes RESUMING has still to apply it, if a steward on the core enters resume
handling by it: RESUME traps become pending in the order of owners (R350). -/
def State.resumesInOrder (s : State) (core : Nat) (l : List Change) : Bool :=
  let n := (s.core core).applied
  let os := l.filterMap fun x => match x with
    | .resume o _ => some o
    | _ => none
  os.all fun o => (s.stewardOn core o).isNone || os.all fun p =>
    decide (o ≤ p) || !(s.owner p).sv || decide (n < (s.core (coreOf (s.owner p).stid)).applied) ||
      coreOf (s.owner p).stid == core

/-- A core applies what it has to apply next. -/
def State.applyNext (s : State) (core : Nat) : State :=
  match s.todo core with
  | [] => s
  | l :: _ => if s.resumesInOrder core l then (s.applyEntry core l).relayDone else s

/-- A core without work applies what is outstanding before a thread is written to it. -/
def State.syncCore (s : State) (core : Nat) : State :=
  if s.busyCores.contains core then s else (s.todo core).foldl (fun s l => s.applyEntry core l) s

/-! ### The arbiter (R343, R349, R350, R354) -/

/-- Changes an owner's record. -/
def State.setOwner (s : State) (o : Nat) (r : OwnerRec) : State := s.modArb fun a => { a with owners := a.owners.put o r }

/-- Sends what one event of the arbiter changes to the cores. -/
def State.relayAll (s : State) (l : List Change) : State := s.modArb fun a => { a with log := a.log ++ [l] }

/-- LIVE owners that are not shed and whose level is below m, ascending. -/
def Arbiter.toShed (a : Arbiter) (m : Nat) : List Nat :=
  (a.owners.filter fun p => p.2.live && decide (p.2.level < m) && p.2.st != .shed).map Prod.fst

/-- raise(o, m') (R343, R352). -/
def State.raiseTo (s : State) (o m : Nat) : State :=
  if m ≤ s.arb.mode then s
  else
    let l := s.arb.toShed m
    let s := s.modArb fun a =>
      { a with mode := m, falling := false, traise := s.time, step := [],
               owners := a.owners.over fun p r => if l.contains p then { r with st := .shed } else r }
    s.relayAll (Change.mode m false s.arb.from_ :: l.map fun p => .shed p o false)

/-- Raise signals ordered by core ID. -/
def insertRaise (x : Nat × Nat × Nat) : List (Nat × Nat × Nat) → List (Nat × Nat × Nat)
  | [] => [x]
  | y :: l => if x.1 < y.1 then x :: y :: l else y :: insertRaise x l

/-- RAISE (R343): the raise signals that have come, in ascending core ID. -/
def execRaise (s : State) : Out :=
  let l := s.arb.raises.foldl (fun acc x => insertRaise x acc) []
  .next (l.foldl (fun s x => s.raiseTo x.2.1 x.2.2) (s.modArb fun a => { a with raises := [] }))

/-- The meters as they stood at a TIME: the latest mark of each not after it. -/
def meterAt (h : List MeterMark) (t : Nat) : List MeterMark :=
  h.foldl (fun acc x => if x.time ≤ t then acc.filter (fun y => !(y.core == x.core && y.owner == x.owner)) ++ [x] else acc) []

/-- The three conditions of R349 at the TIME of the check. -/
def State.fallPasses (s : State) : Bool :=
  let a := s.arb
  !((meterAt a.hist (s.time - 128)).any fun x => x.job && decide (a.mode ≤ (s.owner x.owner).level) &&
    decide ((s.owner x.owner).budget (a.mode - 1) < x.meter)) &&
  decide (a.dwell ≤ s.time - a.traise) &&
  (match a.lastRaise with | some t => decide (t + 128 ≤ s.time) | none => true)

/-- The fall step of R350. -/
def State.fallStep (s : State) : State :=
  let m := s.arb.mode
  let l := (s.arb.owners.filter fun p => p.2.live && p.2.level + 1 == m).map fun p => (p.1, p.2.sv)
  let res := (l.filter fun p => p.2).map Prod.fst
  let s := s.modArb fun a =>
    { a with mode := m - 1, from_ := m, falling := !res.isEmpty, step := res,
             owners := a.owners.over fun p r =>
               if l.any fun q => q.1 == p then { r with st := if r.sv then .resuming else .admitted } else r }
  s.relayAll (Change.mode (m - 1) (!res.isEmpty) m :: l.map fun p => if p.2 then .resume p.1 false else .readmit p.1)

/-- FALL_CHECK (R349): once at each TIME that is a multiple of 1,024 ns, while MODE > 0 and no fall is in progress. -/
def execFallCheck (s : State) : Out :=
  if s.time % 1024 = 0 ∧ 0 < s.arb.mode ∧ s.arb.falling = false ∧ s.arb.lastCheck ≠ some s.time then
    let s := s.modArb fun a => { a with lastCheck := some s.time }
    .next (if s.fallPasses then s.fallStep else s)
  else .next s

/-- FALLING ends once every owner of the step is admitted (R350). -/
def State.endFalling (s : State) : State :=
  if s.arb.falling && s.arb.step.all fun o => (s.owner o).st != .resuming then
    (s.modArb fun a => { a with falling := false, step := [] }).relayAll [.mode s.arb.mode false s.arb.from_]
  else s

/-- READMISSION_REPORT (R347, R353): the report of a RESUMING owner admits it; any other is ignored. -/
def execReadmissionReport (owner : Nat) (s : State) : Out :=
  if s.arb.reports.contains owner then
    let s := s.modArb fun a => { a with reports := a.reports.erase owner }
    if (s.owner owner).st = .resuming then
      .next ((s.setOwner owner { s.owner owner with st := .admitted }).relayAll [.readmit owner]).endFalling
    else .next s
  else .next s

/-- The kinds of what a core applies, by the first change of an entry. -/
inductive EntryKind where
  | shed | readmit | other
  deriving DecidableEq, Repr

/-- The kind of an entry. -/
def entryKind (l : List Change) : EntryKind :=
  match l with
  | .shed _ _ _ :: _ => .shed
  | .readmit _ :: _ => .readmit
  | _ => .other

/-- A core applies the next entry if it is of a kind. -/
def State.applyOf (s : State) (core : Nat) (k : EntryKind) : State :=
  match s.todo core with
  | l :: _ => if entryKind l = k then s.applyNext core else s
  | [] => s

/-- SHED_APPLY (R344): the shedding of an owner that no change of MODE brings (R354). -/
def execShedApply (core : Nat) (s : State) : Out := .next (s.applyOf core .shed)
/-- READMISSION_APPLY (R362). -/
def execReadmissionApply (core : Nat) (s : State) : Out := .next (s.applyOf core .readmit)
/-- MODE_CHANGE_APPLY (R343, R344): a change of MODE with all that it sheds or readmits, an owner that became RESUMING, or a changed
record, table or DWELL. -/
def execModeChangeApply (core : Nat) (s : State) : Out := .next (s.applyOf core .other)

/-! ### Owner records (R336, R337, R354) -/

/-- Bits of D0 that R336 shows. -/
def d0Mask : Word := 0x1F1F0F0103
/-- Bits of D1 that R336 shows. -/
def d1Mask : Word := 0x80000000007F0003

/-- The record that a descriptor gives; budgets above LEVEL are stored as 0 (R337). -/
def recordOf (old : OwnerRec) (d : List Word) : OwnerRec :=
  let w := fun k => d.getD k 0
  let level := bits (w 0) 0 2
  { level := level, pol := bits (w 0) 8 1 == 1, share := bits (w 0) 16 4, xbw := bits (w 0) 24 5, mcap := bits (w 0) 32 5,
    live := bits (w 1) 63 1 == 1, part := bits (w 1) 16 7, table := bits (w 1) 0 2,
    c := (numsFrom 0 4).map fun k => if k ≤ level then bits (w (2 + k)) 0 48 else 0,
    shpc := w 6, sv := bits (w 7) 63 1 == 1, stid := bits (w 7) 0 18, st := old.st }

/-- Budgets C[0] to C[LEVEL] lie in range and are non-decreasing. -/
def budgetsOk (r : OwnerRec) : Bool :=
  (numsFrom 0 (r.level + 1)).all fun k => decide (1 ≤ r.budget k) && decide (r.budget k < 2 ^ 48) &&
    (k == 0 || decide (r.budget (k - 1) ≤ r.budget k))

/-- A record with LIVE = 1 is valid (R337); its steward may be on its way to the slot (R120). -/
def State.validOwner (s : State) (o : Nat) (r : OwnerRec) : Bool :=
  !r.live || (budgetsOk r && decide (1 ≤ r.share) && decide (r.share ≤ 8) && decide (1 ≤ r.xbw) && decide (r.xbw ≤ 16) &&
    decide (1 ≤ r.mcap) && decide (r.mcap ≤ 16) && bits r.shpc 0 2 == 0 && (s.part r.part).isSome &&
    (!r.sv || (match s.anyThread r.stid with | some t => slotOf r.stid != 15 && t.owner == o | none => false)))

/-- Bits of a descriptor that R336 does not show are zero. -/
def descriptorOk (d : List Word) : Bool :=
  let w := fun k => d.getD k 0
  (w 0 &&& ~~~d0Mask) == 0 && (w 1 &&& ~~~d1Mask) == 0 && ((numsFrom 2 4).all fun k => bits (w k) 48 16 == 0) &&
    (w 7 &&& ~~~(0x800000000003FFFF#64)) == 0

/-- The owner has a meter or a thread somewhere (R360). -/
def State.ownerInUse (s : State) (o : Nat) : Bool :=
  (s.threads.any fun p => p.2.owner == o) || (s.moving.any fun m => m.t.owner == o) ||
    s.cores.any fun c => (c.2.meterOf o).isSome

/-- An owner that is RESUMING has lost the steward that was to report, or has one whose core has applied the change already: the
report is sent as though the steward had issued `rsdone` at once (R345). `ended` says that the end of its handling has sent it. -/
def State.reportFor (s : State) (o : Nat) (ended : Bool) : State :=
  let r := s.owner o
  let applied := match s.ostate (coreOf r.stid) o with
    | .resuming _ => true
    | _ => false
  if r.st = .resuming ∧ ended = false ∧ (r.sv = false ∨ applied = true) ∧
      (s.threads.any fun p => p.2.owner == o && p.2.handling == .resume) = false ∧
      (s.moving.any fun m => m.t.owner == o && m.t.handling == .resume) = false then
    s.modArb fun a => { a with reports := a.reports ++ [o] }
  else s

/-- Writes an owner record at the arbiter, with the effects of R354; an owner that is admitted may be the last of a fall step (R350). -/
def State.writeOwner (s : State) (o : Nat) (r : OwnerRec) : State :=
  let old := s.owner o
  let m := s.arb.mode
  let put := fun (st : AState) (l : List Change) => ((((s.setOwner o { r with st := st }).relayAll (l ++ [.own o])).reportFor o false).endFalling)
  if r.live && !old.live then
    if r.level < m then put .shed [.shed o o true] else put .admitted [.readmit o]
  else if r.live && r.level < m && old.st != .shed then put .shed [.shed o o true]
  else if r.live && m ≤ r.level && old.st == .shed then
    if r.sv then put .resuming [.resume o true] else put .admitted [.readmit o]
  else put old.st []

/-- `ucfg.own` at the arbiter: the state and the code of R360. -/
def State.ucfgOwner (s : State) (o : Nat) (d : List Word) : State × Nat :=
  let r := recordOf (s.owner o) d
  if !descriptorOk d || !s.validOwner o r then (s, 1)
  else if (s.owner o).live && (!r.live || r.part != (s.owner o).part) && s.ownerInUse o then (s, 2)
  else (s.writeOwner o r, 0)

/-- The arbiter's answer to a `ucfg` change: done, with the length of log that every core has to apply, or a code (R360). -/
def State.answerUcfg (s : State) (r : UcfgReq) : State :=
  let done := fun (s : State) (code : Nat) =>
    s.modArb fun a => { a with relay := a.relay ++ [(r.who, if code = 0 then a.log.length else 0, code)] }
  match r.what with
  | .own o d => let q := s.ucfgOwner o d; done q.1 q.2
  | .table k w => done (s.relayAll [.table k w]) 0
  | .arb dwell => done ((s.modArb fun a => { a with dwell := dwell }).relayAll [.dwell]) 0

/-- The `ucfg` changes that have come, in the order of their arrival (R343). -/
def State.answerAll (s : State) : State :=
  (s.arb.ucfg.foldl (fun s r => s.answerUcfg r) (s.modArb fun a => { a with ucfg := [] })).relayDone

/-! ### The end of a cc (R342, R356) -/

/-- Changes the meter of an owner on a core, noting it for the fall check. -/
def State.changeMeter (s : State) (core o : Nat) (f : Meter → Meter) : State :=
  match (s.core core).meterOf o with
  | some m => (s.modCore core fun c => c.setMeter (f m)).noteMeter core (f m)
  | none => s

/-- The METER of an owner on a core; 0 when it has no meter there. -/
def State.meterValue (s : State) (core o : Nat) : Word :=
  match (s.core core).meterOf o with
  | some m => BitVec.ofNat 64 m.meter
  | none => 0

/-- What a `jbeg` or `jend` does after the check (R356). -/
def State.jobOp (s : State) (core : Nat) (j : JobOp) : State :=
  match j.close with
  | none => s.changeMeter core j.owner fun m => { m with meter := 0, job := true, rsent := false, bsent := false }
  | some d => (s.modThread j.tid fun t => t.wr d (s.meterValue core j.owner)).changeMeter core j.owner fun m => { m with job := false }

/-- The lowest thread of an owner that has retired in this cc; one that has ended in it keeps its place, with the mark that names no
thread. -/
def lowestOf (o : Nat) (l : List (Nat × Nat)) : Nat :=
  (l.filter fun q => q.1 == o).foldl (fun acc q => if q.2 % 2 ^ 20 < acc % 2 ^ 20 then q.2 else acc) (2 ^ 18)

/-- The end of a cc on a core: each meter of an owner with a retirement is checked, then jobs are opened and closed. -/
def State.endCore (s : State) (core : Nat) : State :=
  let k := s.core core
  let s := (k.retired.map Prod.fst).eraseDups.foldl (fun s o => s.checkMeter core o (lowestOf o k.retired)) s
  let s := k.jobs.foldl (fun s j => s.jobOp core j) s
  if k.retired.isEmpty && k.jobs.isEmpty then s else s.modCore core fun k => { k with retired := [], jobs := [] }

/-- The end of a cc on every core. -/
def State.endMeters (s : State) : State := s.cores.foldl (fun s c => s.endCore c.1) s

/-! ### Writing and ending threads -/

/-- Frees the role of a steward that ends, moves to another owner or is removed (R345). -/
def State.dropSteward (s : State) (tid : Nat) : State :=
  match s.thread tid with
  | none => s
  | some t =>
    let s := s.endHandling tid false
    if s.isSteward tid t then
      (s.setOwner t.owner { s.owner t.owner with sv := false }).reportFor t.owner (t.handling == .resume)
    else s

/-- Writes a thread into a slot, with the meter that user privilege needs (R340). -/
def State.place (s : State) (tid : Nat) (t : Thread) : State :=
  let s := s.syncCore (coreOf tid)
  let s := if t.priv = 0 then s.allocMeter (coreOf tid) t.owner else s
  s.setThread tid { t with readyAt := s.cc + 1 }

end Sys2Proof.Machine
end

