-- ==== Sys2Proof/Machine/Memory.lean ====
section
/-! DEFINITION. The memory forms (spec/05: R124 to R132): loads, stores, atomics, updates, migration, fences, prefetch and
translation. Every form charges the scalar-memory entry. -/

namespace Sys2Proof.Machine

/-- A load of a size (R125). -/
def State.loadForm (s : State) (t : Thread) (d : GReg) (z : Sz) (w : Wt) (va : Word) : Out :=
  s.waitWt t w fun t =>
    s.access t va (szBytes z) .load false true fun s tg =>
      match tg with
      | .own l => (s.reach t va l).loadHere t [(d.val, loadValue z (s.readLoc l (szBytes z)))]
      | .far p l _ => s.request t p l (.load (szBytes z) z d) va .load

/-- A store of a size (R125). -/
def State.storeForm (s : State) (t : Thread) (v : Word) (z : Sz) (w : Wt) (va : Word) : Out :=
  s.waitWt t w fun t =>
    s.access t va (szBytes z) .store true false fun s tg =>
      match tg with
      | .own l => ((s.reach t va l).writeLoc l (szBytes z) v.toNat).finish t 1
      | .far p l k => s.post t p l (.store (szBytes z) v.toNat) k va fun t s => s.finish t 1

/-- The address of the displacement forms (R25, R125). -/
def dispAddr (a : Word) (o : BitVec 11) (z : Sz) : Word := a + o.signExtend 64 * BitVec.ofNat 64 (szBytes z)

/-- The address of the indexed forms (R126). -/
def indexAddr (a b : Word) (z : Sz) : Word := a + b * BitVec.ofNat 64 (szBytes z)

/-- ld (R125). -/
def execLd (rd ra : GReg) (z : Sz) (w : Wt) (o : BitVec 11) (s : State) : Out :=
  s.onThread fun t => s.loadForm t rd z w (dispAddr (t.rd ra) o z)
/-- st (R125): gd is the source. -/
def execSt (rd ra : GReg) (z : Sz) (w : Wt) (o : BitVec 11) (s : State) : Out :=
  s.onThread fun t => s.storeForm t (t.rd rd) z w (dispAddr (t.rd ra) o z)
/-- ldx (R126). -/
def execLdx (rd ra rb : GReg) (z : Sz) (w : Wt) (s : State) : Out :=
  s.onThread fun t => s.loadForm t rd z w (indexAddr (t.rd ra) (t.rd rb) z)
/-- stx (R126). -/
def execStx (rd ra rb : GReg) (z : Sz) (w : Wt) (s : State) : Out :=
  s.onThread fun t => s.storeForm t (t.rd rd) z w (indexAddr (t.rd ra) (t.rd rb) z)

/-- A slot is granted to a thread that is on its way to it (R120). -/
def State.granted (s : State) (tid : Nat) : Bool := s.moving.any fun m => m.slot == tid

/-- A slot is reserved by a nest (R264). -/
def State.reserved (s : State) (tid : Nat) : Bool := s.parts.any fun p => p.2.nests.any fun n => n.slots.contains tid

/-- The couche in force names the slot. -/
def Core.names (c : Core) (slot : Nat) : Bool := c.couche.contains (some slot)

/-- The lowest free slot of 0 to 14 that the couche in force names (R120, R258). -/
def State.freeSlotOn (s : State) (core : Nat) : Option Nat :=
  (numsFrom 0 15).find? fun k => (s.core core).names k && (s.thread (16 * core + k)).isNone &&
    !s.granted (16 * core + k) && !s.reserved (16 * core + k)

/-- The slot that a core grants a thread, if it has one, and the meter that a thread at user privilege needs (R120, R413). -/
def State.grantFor (s : State) (core : Nat) (t : Thread) : Option Nat :=
  match s.freeSlotOn core with
  | some k => if t.priv ≠ 0 ∨ s.canMeter core t.owner = true then some (16 * core + k) else none
  | none => none

/-- An atomic (R127, R121): at a home other than its own core a light thread in slots 0 to 14 migrates, unless the home has
refused; otherwise a request parcel goes to the place. A home that would refuse at issue refuses before the thread waits for its
counters, which R137 leaves unordered (log 61). -/
def State.amoForm (s : State) (k : AmoKind) (rd ra rb : GReg) (z : Sz) (w : Wt) : Out :=
  s.onThread fun t =>
    s.waitWt t w fun t =>
      let n := szBytes z
      s.access t (t.rd ra) n .store true false fun s tg =>
        match tg with
        | .own l =>
          let r := (s.reach t (t.rd ra) l).doAmo k l n (t.rd rb).toNat (t.rd rd).toNat
          r.1.write t rd (sextW r.2 (8 * n)) 1
        | .far p l _ =>
          let req := fun (t : Thread) =>
            s.request t p l (.amo k n (t.rd rb).toNat (t.rd rd).toNat rd) (t.rd ra) .atomic
          match p with
          | .home c =>
            if s.heavy s.cur || slotOf s.cur == 15 || t.noMig || (s.grantFor c t).isNone then req t
            else s.release t fun t => s.hold t (.migrate c .atomic)
          | _ => req t

/-- amo.add (R127). -/
def execAmoAdd (rd ra rb : GReg) (z : Sz) (w : Wt) (s : State) : Out := s.amoForm .add rd ra rb z w
/-- amo.and (R127). -/
def execAmoAnd (rd ra rb : GReg) (z : Sz) (w : Wt) (s : State) : Out := s.amoForm .and rd ra rb z w
/-- amo.or (R127). -/
def execAmoOr (rd ra rb : GReg) (z : Sz) (w : Wt) (s : State) : Out := s.amoForm .or rd ra rb z w
/-- amo.xor (R127). -/
def execAmoXor (rd ra rb : GReg) (z : Sz) (w : Wt) (s : State) : Out := s.amoForm .xor rd ra rb z w
/-- amo.min (R127). -/
def execAmoMin (rd ra rb : GReg) (z : Sz) (w : Wt) (s : State) : Out := s.amoForm .min rd ra rb z w
/-- amo.max (R127). -/
def execAmoMax (rd ra rb : GReg) (z : Sz) (w : Wt) (s : State) : Out := s.amoForm .max rd ra rb z w
/-- amo.minn (R127). -/
def execAmoMinn (rd ra rb : GReg) (z : Sz) (w : Wt) (s : State) : Out := s.amoForm .minn rd ra rb z w
/-- amo.maxn (R127). -/
def execAmoMaxn (rd ra rb : GReg) (z : Sz) (w : Wt) (s : State) : Out := s.amoForm .maxn rd ra rb z w
/-- amo.swap (R127). -/
def execAmoSwap (rd ra rb : GReg) (z : Sz) (w : Wt) (s : State) : Out := s.amoForm .swap rd ra rb z w
/-- amo.cas (R127): gd supplies the expected value. -/
def execAmoCas (rd ra rb : GReg) (z : Sz) (w : Wt) (s : State) : Out := s.amoForm .cas rd ra rb z w

/-- An update (R128) of n bytes. -/
def State.redForm (s : State) (k : RedKind) (t : Thread) (va : Word) (n v : Nat) (w : Wt) : Out :=
  s.waitWt t w fun t =>
    s.access t va n .store true false fun s tg =>
      match tg with
      | .own l => ((s.reach t va l).doRed k l n v).finish t 1
      | .far p l c => s.post t p l (.red k n v) c va fun t s => s.finish t 1

/-- red.add (R128). -/
def execRedAdd (ra rb : GReg) (z : Sz) (w : Wt) (s : State) : Out :=
  s.onThread fun t => s.redForm .add t (t.rd ra) (szBytes z) (t.rd rb).toNat w
/-- red.and (R128). -/
def execRedAnd (ra rb : GReg) (z : Sz) (w : Wt) (s : State) : Out :=
  s.onThread fun t => s.redForm .and t (t.rd ra) (szBytes z) (t.rd rb).toNat w
/-- red.or (R128). -/
def execRedOr (ra rb : GReg) (z : Sz) (w : Wt) (s : State) : Out :=
  s.onThread fun t => s.redForm .or t (t.rd ra) (szBytes z) (t.rd rb).toNat w
/-- red.xor (R128). -/
def execRedXor (ra rb : GReg) (z : Sz) (w : Wt) (s : State) : Out :=
  s.onThread fun t => s.redForm .xor t (t.rd ra) (szBytes z) (t.rd rb).toNat w
/-- red.min (R128). -/
def execRedMin (ra rb : GReg) (z : Sz) (w : Wt) (s : State) : Out :=
  s.onThread fun t => s.redForm .min t (t.rd ra) (szBytes z) (t.rd rb).toNat w
/-- red.max (R128). -/
def execRedMax (ra rb : GReg) (z : Sz) (w : Wt) (s : State) : Out :=
  s.onThread fun t => s.redForm .max t (t.rd ra) (szBytes z) (t.rd rb).toNat w
/-- red.add.w128 (R128): 16 bytes, the operand in a register pair. -/
def execRedAddW128 (ra rb : GReg) (w : Wt) (s : State) : Out :=
  s.onThread fun t => s.redForm .add t (t.rd ra) 16 (t.pair rb) w

/-- What mig and migc do once the target is known (R129). -/
def State.migTo (s : State) (t : Thread) (d : GReg) (target : Nat) : Out :=
  let ok := match s.part t.part with
    | some p => p.worker target
    | none => false
  if !ok then s.write t d 3 1
  else if target = coreOf s.cur then s.write t d 0 1
  else if s.heavy s.cur || slotOf s.cur == 15 then s.write t d 1 1
  else s.wait t (.migrate target (.form d 1))

/-- mig (R129). -/
def execMig (rd ra : GReg) (s : State) : Out :=
  s.onThread fun t =>
    s.release t fun t => if s.xbusy s.cur then s.until t .transfers else
      match s.window t.part (coreOf s.cur) (t.rd ra) with
      | none => s.addr t (t.rd ra)
      | some (.global a) =>
        s.translate t a fun s r =>
          match r with
          | .error reason => s.pageFault t (t.rd ra) reason
          | .ok e =>
            let reason := s.leafReason t.part t.sec .load e.leaf (a - e.base)
            if reason ≠ 0 then s.pageFault t (t.rd ra) reason
            else if e.leaf.cls ≠ 0 then s.write t rd 3 1
            else s.migTo t rd e.leaf.home
      | some _ => s.write t rd 3 1

/-- migc (R129): bits 63:14 of ga are ignored. -/
def execMigc (rd ra : GReg) (s : State) : Out :=
  s.onThread fun t => s.release t fun t =>
    if s.xbusy s.cur then s.until t .transfers else s.migTo t rd (bits (t.rd ra) 0 14)

/-- A fence (R130): completes when the counters of its scope are zero, or takes the machine check of an error mark in it. -/
def State.fenceForm (s : State) (c h m : Bool) : Out :=
  s.onThread fun t =>
    match t.takeMark c h m with
    | some (e, t) => s.trap t 0x15 e.va e.sub
    | none => if t.zeroed c h m then s.finish t 1 else s.await t (.counters c h m)

/-- fence.core (R130): waits for nothing. -/
def execFenceCore (s : State) : Out := s.onThread fun t => s.finish t 1
/-- fence.cluster (R130). -/
def execFenceCluster (s : State) : Out := s.fenceForm true false false
/-- fence.hearth (R130). -/
def execFenceHearth (s : State) : Out := s.fenceForm true true false
/-- fence.module (R130). -/
def execFenceModule (s : State) : Out := s.fenceForm true true true

/-- The line of a global address as a prefetch finds it, and the core whose L1 it goes into; none where a check of R124 fails, or a walk is needed and the hearth's walks are all busy (R131). -/
def State.lineOf (s : State) (t : Thread) (va : Word) : Option (Nat × Line) :=
  let me := coreOf s.cur
  match s.window t.part me va with
  | some (.global a) =>
    if (s.tlbFind me t.part a).isNone && decide (512 ≤ (s.hearth (hearthOf me)).walks.length) then none
    else
      match s.translateNow me t.part t.sec .load a with
      | .ok e =>
        some (if e.leaf.cls = 0 then e.leaf.home else me,
          ⟨e.leaf.tier, (e.leaf.pa + (a - e.base)) / 64 * 64, [(t.part, e.base, e.leaf.size)]⟩)
      | .error _ => none
  | _ => none

/-- A prefetch looks for a translation: a miss in the core TLB, and a walk where the cluster TLB misses too and one is free, are signals of
R409. The walk fills no TLB. -/
def State.lookedFor (s : State) (part a : Nat) : State :=
  let me := coreOf s.cur
  let s' := s.looked me part a
  if (s.tlbFind me part a).isSome then s'
  else if 512 ≤ (s.hearth (hearthOf me)).walks.length then s'.sig me 22
  else (s'.sig me 22).sig me 23

/-- pfl (R131): a hint that changes no architectural state. -/
def execPfl (ra : GReg) (s : State) : Out :=
  s.onThread fun t =>
    let s := match s.window t.part (coreOf s.cur) (t.rd ra) with
      | some (.global a) => s.lookedFor t.part a
      | _ => s
    match s.lineOf t (t.rd ra) with
    | some (c, l) => ((if (s.core c).holdsLine l then s else s.sig c 21).modCore c fun k => k.fillLine l).finish t 1
    | none => s.finish t 1

/-- The SIZE code of xlat (R132). -/
def sizeCode (size : Nat) : Nat := if size = 2 ^ 16 then 0 else if size = 2 ^ 21 then 1 else 2

/-- The result of xlat for an address whose walk reaches a leaf (R132). -/
def xlatWord (priv reason : Nat) (e : TlbEntry) : Word :=
  let l := e.leaf
  let pfn := if priv = 0 then 0 else l.pa / 2 ^ 16 % 2 ^ 36
  BitVec.ofNat 64 (bit (reason == 0) * 2 ^ 63 + reason * 2 ^ 60 + l.cls * 2 ^ 58 + l.tier * 2 ^ 56 + bit l.r * 2 ^ 55 +
    bit l.w * 2 ^ 54 + bit l.x * 2 ^ 53 + bit l.sec * 2 ^ 52 + pfn * 2 ^ 16 + sizeCode l.size * 2 ^ 14 +
    (if l.cls = 0 then l.home else 0))

/-- xlat (R132). -/
def execXlat (rd ra : GReg) (s : State) : Out :=
  s.onThread fun t =>
    match s.window t.part (coreOf s.cur) (t.rd ra) with
    | none => s.write t rd 0 1
    | some (.global a) =>
      s.translate t a fun s r =>
        match r with
        | .error reason => s.write t rd (BitVec.ofNat 64 (reason * 2 ^ 60)) 1
        | .ok e => s.write t rd (xlatWord t.priv (s.leafReason t.part t.sec .load e.leaf (a - e.base)) e) 1
    | some _ => s.write t rd (BitVec.ofNat 64 (2 ^ 63)) 1

end Sys2Proof.Machine
end

