-- ==== Sys2Proof/Machine/Csr.lean ====
section
/-! DEFINITION. State registers (spec/02 R20 to R22, with the field maps of the chapters that R22 names), and the forms that
read and write them (R313). -/

namespace Sys2Proof.Machine

/-- TIME as a core samples it (R9): within 2 ns of the module's count. The core takes a new count in a part of the ns that is a free value
for each core and ns, and may lag by a further ns (log 65). -/
def State.timeAt (s : State) (core : Nat) : Nat :=
  s.time - Config.timeLag core % 2 - (if s.timeHeld || decide (Config.timePhase core s.time % 18 ≤ s.tphase) then 0 else 1)

/-- How an access to a number is performed (R149, R180, R313). -/
inductive CsrWait where
  | now | vector | matrix
  deriving DecidableEq, Repr

/-- A state register of R22: whether all its fields are RO, and how it is accessed. -/
structure Csr where
  ro : Bool
  how : CsrWait
  deriving DecidableEq, Repr

/-- The register that a number names, if any (R22). -/
def csrOf (n : Nat) : Option Csr :=
  if n ≤ 0x004 ∨ n = 0x040 then some ⟨false, .now⟩
  else if n = 0x005 ∨ n = 0x006 ∨ n = 0x007 then some ⟨true, .now⟩
  else if (0x100 ≤ n ∧ n ≤ 0x103) ∨ n = 0x140 then some ⟨false, .vector⟩
  else if 0x200 ≤ n ∧ n ≤ 0x205 then some ⟨false, .now⟩
  else if n = 0x206 then some ⟨false, .matrix⟩
  else if n = 0x207 then some ⟨true, .matrix⟩
  else if n = 0x208 then some ⟨true, .now⟩
  else if 0x300 ≤ n ∧ n ≤ 0x306 then some ⟨false, .now⟩
  else if 0x308 ≤ n ∧ n ≤ 0x30B then some ⟨true, .now⟩
  else if 0x400 ≤ n ∧ n ≤ 0x402 then some ⟨true, .now⟩
  else if n = 0x480 ∨ n = 0x481 ∨ (0x484 ≤ n ∧ n ≤ 0x487) then some ⟨false, .now⟩
  else if n = 0x500 ∨ n = 0x5C0 ∨ n = 0x600 ∨ n = 0x601 then some ⟨true, .now⟩
  else none

/-- The least privilege that ACC lets read or write (R20). -/
def accLevel (n : Nat) (write : Bool) : Nat :=
  match n / 64 % 4 with
  | 0 => 0
  | 1 => if write then 1 else 0
  | 2 => if write then 2 else 0
  | _ => 1

/-- TPCNT (R117). -/
def Thread.tpcnt (t : Thread) : Word := BitVec.ofNat 64 (t.pcntM * 2 ^ 32 + t.pcntH * 2 ^ 16 + t.pcntC)

/-- ULVL of a record (R338). -/
def OwnerRec.ulvl (r : OwnerRec) : Word :=
  BitVec.ofNat 64 (r.mcap * 2 ^ 32 + r.xbw * 2 ^ 24 + r.share * 2 ^ 16 + bit r.pol * 2 ^ 8 + r.level)

/-- UMTR of a meter (R340). -/
def Meter.umtr (m : Meter) : Word :=
  BitVec.ofNat 64 (bit m.job * 2 ^ 63 + bit m.rsent * 2 ^ 62 + bit m.bsent * 2 ^ 61 + m.meter % 2 ^ 48)

/-- OST of UMODE (R351). -/
def OState.code : OState → Nat
  | .admitted => 0
  | .suspended => 1
  | .degraded => 2
  | .resuming _ => 3

/-- UMODE (R351). -/
def State.umode (s : State) (tid : Nat) (t : Thread) : Word :=
  let hnd := match t.handling with
    | .none => 0
    | .shed => 1
    | .resume => 2
  BitVec.ofNat 64 (bit t.alwx * 2 ^ 11 + bit (s.isSteward tid t) * 2 ^ 10 + hnd * 2 ^ 8 +
    (s.ostate (coreOf tid) t.owner).code * 2 ^ 6 + (s.core (coreOf tid)).mode)

/-- UFALL (R351). -/
def Core.ufall (c : Core) : Word := BitVec.ofNat 64 (c.from_ * 16 + bit c.fall)

/-- KCOUCHE (R82): positions that name each slot. -/
def Core.kcouche (c : Core) : Word :=
  BitVec.ofNat 64 ((numsFrom 0 16).foldl (fun acc k => acc + (c.couche.filter fun x => x == some k).length % 16 * 16 ^ k) 0)

/-- MCAP (R190): the caps of the thread's owner, also where the thread's own work runs uncapped. -/
def State.mcapReg (s : State) (tid : Nat) (t : Thread) : Word :=
  let cap := s.capShown (coreOf tid) t.owner
  BitVec.ofNat 64 (cap * 32 + cap)

/-- What a read of a state register gives (R22 and the field maps it names). -/
def State.csrRead (s : State) (tid : Nat) (t : Thread) (n : Nat) : Word :=
  let core := s.core (coreOf tid)
  match n with
  | 0x000 => t.trap.tpc
  | 0x001 => t.trap.tcause
  | 0x002 => t.trap.tval
  | 0x003 => t.trap.tvec
  | 0x004 => t.trap.tstat2
  | 0x005 => BitVec.ofNat 64 tid
  | 0x006 => BitVec.ofNat 64 t.stageNo
  | 0x007 => t.tpcnt
  | 0x040 => s.tstat tid t
  | 0x100 => t.fp.vl
  | 0x101 => t.fp.vpos
  | 0x102 => t.fp.frm
  | 0x103 => t.fp.fflags
  | 0x140 => t.fp.starter
  | 0x200 | 0x201 | 0x202 | 0x203 | 0x204 | 0x205 => t.mat.get (n - 0x200)
  | 0x206 => t.mstat
  | 0x207 => t.mcont
  | 0x208 => s.mcapReg tid t
  | 0x300 => t.cp.xsrc
  | 0x301 => t.cp.xdst
  | 0x302 => t.cp.xlen
  | 0x303 => t.cp.xstride
  | 0x304 => t.cp.xdim
  | 0x305 => t.cp.xhnd
  | 0x306 => t.cp.xmask
  | 0x308 | 0x309 | 0x30A | 0x30B => (core.chans.getD (n - 0x308) {}).xwp
  | 0x400 => s.umode tid t
  | 0x401 => core.ufall
  | 0x402 => match core.meterOf t.owner with
    | some m => m.umtr
    | none => 0
  | 0x480 => (s.owner t.owner).ulvl
  | 0x481 => BitVec.ofNat 64 (s.owner t.owner).table
  | 0x484 | 0x485 | 0x486 | 0x487 => BitVec.ofNat 64 ((s.owner t.owner).budget (n - 0x484))
  | 0x500 => (s.cluster (clusterOf (coreOf tid))).kload
  | 0x5C0 => core.kcouche
  | 0x600 => BitVec.ofNat 64 (s.timeAt (coreOf tid))
  | 0x601 => BitVec.ofNat 64 s.modId
  | _ => 0

/-- A write to FRM (R146): RM codes 5 to 7 leave RM. -/
def frmWrite (old v : Word) : Word :=
  if 5 ≤ bits v 0 3 then (v &&& 8) ||| (old &&& 7) else v &&& 15

/-- A write to VPOS (R145): the restart element of the record held, if there is one. -/
def Thread.writeVpos (t : Thread) (v : Word) : Thread :=
  match t.vrec with
  | [] => t
  | c :: l => { t with vrec := { c with pos := bits v 0 6 } :: l, fp := { t.fp with vpos := v &&& 63 } }

/-- The record that a write to ULVL, UCHG or UBUD0 to UBUD3 gives (R338, R337). -/
def OwnerRec.writeReg (r : OwnerRec) (n : Nat) (v : Word) : OwnerRec :=
  let trim := fun (level : Nat) (c : List Nat) => (numsFrom 0 4).map fun k => if k ≤ level then c.getD k 0 else 0
  match n with
  | 0x480 =>
    { r with level := bits v 0 2, pol := bits v 8 1 == 1, share := bits v 16 4, xbw := bits v 24 5, mcap := bits v 32 5,
             c := trim (bits v 0 2) r.c }
  | 0x481 => { r with table := bits v 0 2 }
  | _ => { r with c := trim r.level (setAt r.c (n - 0x484) (bits v 0 48)) }

/-- A write to a register of the thread's owner: as `ucfg.own` would change it; ignored whole when it would be invalid. -/
def State.writeOwnerReg (s : State) (o n : Nat) (v : Word) : State :=
  let r := (s.owner o).writeReg n v
  if s.validOwner o r then s.writeOwner o r else s

/-- A write to TSTAT (R296): PRIV may fall; at user privilege the thread needs its owner's meter (R340). Where none of the eight is free
its work goes unmetered (log 76). -/
def State.writePriv (s : State) (t : Thread) (v : Word) : State × Thread :=
  let p := bits v 0 2
  if t.priv < p then (s, t)
  else (if p = 0 ∧ t.priv ≠ 0 ∧ s.canMeter (coreOf s.cur) t.owner = true then s.allocMeter (coreOf s.cur) t.owner else s, { t with priv := p })

/-- What a write of a state register does (R313): reserved bits are not held (R5), RO fields are left. -/
def State.csrWrite (s : State) (t : Thread) (n : Nat) (v : Word) : State × Thread :=
  match n with
  | 0x000 => (s, { t with trap := { t.trap with tpc := v } })
  | 0x001 => (s, { t with trap := { t.trap with tcause := v &&& 0x1FFFF } })
  | 0x002 => (s, { t with trap := { t.trap with tval := v } })
  | 0x003 => (s, { t with trap := { t.trap with tvec := v &&& 0xFFFFFFFFFFFFFFFC#64 } })
  | 0x004 => (s, { t with trap := { t.trap with tstat2 := v &&& 0x2FFFFFFFF } })
  | 0x040 => s.writePriv t v
  | 0x100 => (s, { t with fp := { t.fp with vl := vlOf v } })
  | 0x101 => (s, t.writeVpos v)
  | 0x102 => (s, { t with fp := { t.fp with frm := frmWrite t.fp.frm v } })
  | 0x103 => (s, { t with fp := { t.fp with fflags := v &&& 31 } })
  | 0x140 => (s, { t with fp := { t.fp with starter := v } })
  | 0x200 | 0x201 | 0x202 | 0x203 | 0x204 | 0x205 => (s, { t with mat := t.mat.set (n - 0x200) v })
  | 0x206 => (s, { t with mstat := writeMstat t.mstat v })
  | 0x300 => (s, { t with cp := { t.cp with xsrc := v } })
  | 0x301 => (s, { t with cp := { t.cp with xdst := v } })
  | 0x302 => (s, { t with cp := { t.cp with xlen := v &&& 0xFFFFFFFF } })
  | 0x303 => (s, { t with cp := { t.cp with xstride := v } })
  | 0x304 => (s, { t with cp := { t.cp with xdim := v &&& 0xFFFFF } })
  | 0x305 => (s, { t with cp := { t.cp with xhnd := v } })
  | 0x306 => (s, { t with cp := { t.cp with xmask := v &&& 0xFFFF } })
  | 0x480 | 0x481 | 0x484 | 0x485 | 0x486 | 0x487 => (s.writeOwnerReg t.owner n v, t)
  | _ => (s, t)

/-- The checks of R21 and the waits of R149 and R180, then the access. -/
def State.csrAccess (s : State) (n : Nat) (write : Bool) (k : Thread → Out) : Out :=
  s.onThread fun t =>
    match csrOf n with
    | none => s.illegal t
    | some r =>
      if write && r.ro then s.illegal t
      else if t.priv < accLevel n write then s.priv t
      else
        match r.how with
        | .now => k t
        | .vector => if s.vbusy s.cur then s.await t .vdone else k t
        | .matrix => s.poisonFirst t fun t => if s.mbusy s.cur 0xFF then s.await t .mrec else k t

/-- csrr (R313). -/
def execCsrr (rd : GReg) (n : BitVec 12) (s : State) : Out :=
  s.csrAccess n.toNat false fun t => s.write t rd (s.csrRead s.cur t n.toNat) 0

/-- csrw (R313). -/
def execCsrw (ra : GReg) (n : BitVec 12) (s : State) : Out :=
  s.csrAccess n.toNat true fun t =>
    let r := s.csrWrite t n.toNat (t.rd ra)
    r.1.finish r.2 0

/-- csrx (R313): the old value is read and ga is written as one access. -/
def execCsrx (rd : GReg) (ra : GReg) (n : BitVec 12) (s : State) : Out :=
  s.csrAccess n.toNat true fun t =>
    let r := s.csrWrite t n.toNat (t.rd ra)
    r.1.write r.2 rd (s.csrRead s.cur t n.toNat) 0

end Sys2Proof.Machine
end

