-- ==== Sys2Proof/Machine/Ready.lean ====
section
/-! DEFINITION. When a thread is ready (R83), when a waiting instruction is presented again, and when a thread can be saved
(R309). -/

namespace Sys2Proof.Machine

/-- A transfer that its owner's suspension on the core has paused: at a granule boundary (R226). -/
def State.pausedXfer (s : State) (core : Nat) (x : Xfer) : Bool :=
  s.workShed core x.owner x.tid x.priv == 1 && x.moved == x.comp

/-- The thread awaits the reply of a load, an atomic or another request that has left it, or is leaving the core. -/
def Block.awaiting : Block → Bool
  | .reply .load | .reply .atomic | .reply .request | .reply .unit | .reply .ucfg | .divide _ _ _ _ _ | .barr _ => true
  | _ => false

/-- The thread's counters are zero and its transfers have ended but for paused ones (R309, R230). -/
def State.drained (s : State) (tid : Nat) (t : Thread) : Bool :=
  let c := s.core (coreOf tid)
  t.zeroed true true true &&
  c.xq.all (fun x => x.tid != tid || s.pausedXfer (coreOf tid) x) &&
  c.chans.all (fun k => match k.cur with
    | some x => x.tid != tid || s.pausedXfer (coreOf tid) x
    | none => true)

/-- No engine command of the thread is in a queue of its core. -/
def State.noWork (s : State) (tid : Nat) : Bool :=
  let c := s.core (coreOf tid)
  c.vq.all (fun x => x.tid != tid) && c.mq.all fun x => x.tid != tid

/-- A command of the thread can be stopped and has not been told to (R152, R199). -/
def State.stoppable (s : State) (tid : Nat) : Bool :=
  let c := s.core (coreOf tid)
  c.vq.any (fun x => x.tid == tid && !x.halting && (!x.begun || x.interruptible)) ||
    c.mq.any fun x => x.tid == tid && !x.halting && (!x.begun || x.mayStop)

/-- A request to a unit. -/
def Access.isOp : Access → Bool
  | .op _ _ _ => true
  | _ => false

/-- The wait of `csave` for a thread may be looked at again. -/
def State.quiet (s : State) (tid : Nat) : Bool :=
  match s.thread tid with
  | none => true
  | some t =>
    let next := s.drained tid t && (s.noWork tid || s.stoppable tid)
    match t.block with
    | .saving => next
    | .await (.quiet x) _ => x != tid || next
    | .vvalue => (s.core (coreOf tid)).vq.all fun x => x.tid != tid || !x.begun
    | b => !b.awaiting && s.parcels.all (fun p => p.src != tid || !p.acc.isOp) && s.replies.all (fun r => r.tid != tid) && s.wakes.all fun r => r.tid != tid

/-- No access of a partition to a page that meets n bytes from an address is on its way to a home: no parcel that is not performed and
acknowledged, and no beat of a copy that is granted and not yet written (R113). -/
def State.homesQuiet (s : State) (part lo n : Nat) : Bool :=
  let meets := fun (page : Nat × Nat) => decide (page.1 < lo + n) && decide (lo < page.1 + page.2)
  (s.parcels.all fun p => match p.place with
    | .home _ => p.part != part || !meets p.page
    | _ => true) &&
  s.cores.all fun c => c.2.chans.all fun k => match k.cur with
    | some x => x.part != part || x.flights.all fun f => match f.home with
      | some h => !f.granted || !meets h.2
      | none => true
    | none => true

/-- The condition that an instruction waits for. A machine check that is marked on a counter while the thread of a fence is suspended is
taken after it resumes (R141). -/
def State.condMet (s : State) (tid : Nat) (t : Thread) : Cond → Bool
  | .counters c h m => if (t.takeMark c h m).isSome then !(t.block.isAwait && s.isSuspended tid t) else t.zeroed c h m
  | .room k => decide (t.pcnt k < 1024)
  | .clear p => !s.pendingTo tid p
  | .vdone => !s.vbusy tid
  | .vgone => !s.vbusy tid && t.vrec.isEmpty
  | .mdone tiles => !t.poison.isEmpty || !s.mopen tid tiles
  | .mrec => !t.poison.isEmpty || !s.mbusy tid 0xFF
  | .transfers => !s.xbusy tid
  | .engines => !s.vbusy tid && !s.mbusy tid 0xFF && t.vrec.isEmpty && t.mrec.isEmpty
  | .job => !s.vbusy tid && !s.mbusy tid 0xFF && !s.xbusy tid
  | .quiet x => s.quiet x
  | .thawed c => !(s.core c).frozen
  | .homed part lo n => s.homesQuiet part lo n
  | .here _ _ _ home => match home with
    | some c => !(s.core c).frozen
    | none => true
  | .soon => true

/-- Commands of the thread's restart record wait only for room in the range table (R153, R216). -/
def State.recordLeft (s : State) (tid : Nat) (t : Thread) : Bool :=
  t.vrec.any (fun c => s.workShed (coreOf tid) c.owner tid c.priv != 1) || t.mrec.any fun c => s.workShed (coreOf tid) c.owner tid c.priv != 1

/-- A ready thread (R83), at a core that issues. One whose restart record still waits for room in the range table becomes ready when the
record re-enters (R153, R199, R362). -/
def State.ready (s : State) (tid : Nat) (t : Thread) : Bool :=
  t.block == .none && t.stop == .none && !s.recordLeft tid t && !(s.core (coreOf tid)).ckpt && !s.isSuspended tid t && decide (t.readyAt ≤ s.cc) &&
  !(s.core (coreOf tid)).frozen && !(s.core (coreOf tid)).lost

end Sys2Proof.Machine
end

