-- ==== Sys2Proof/Machine/Urgency.lean ====
section
/-! DEFINITION. The urgency forms (R356 to R360) and the traps of the urgency chapter: SHED, RESUME, the allowance and BUDGET
(R342, R346 to R348, R352). -/

namespace Sys2Proof.Machine

/-- jbeg (R356): the job opens at the end of its cc, after the check. -/
def execJbeg (s : State) : Out :=
  s.onThread fun t =>
    (s.modCore (coreOf s.cur) fun c => { c with jobs := c.jobs ++ [⟨t.owner, s.cur, none⟩] }).finish t 0

/-- jend (R356): waits for the thread's engine work; at the end of its cc, after the check, METER is read and the job closed. -/
def execJend (rd : GReg) (s : State) : Out :=
  s.onThread fun t =>
    if s.vbusy s.cur || s.mbusy s.cur 0xFF || s.xbusy s.cur then s.await t .job
    else (s.modCore (coreOf s.cur) fun c => { c with jobs := c.jobs ++ [⟨t.owner, s.cur, some rd⟩] }).finish t 0

/-- shdone (R357). -/
def execShdone (s : State) : Out :=
  s.onThread fun t =>
    afterRetire (s.finish t 0) fun s => if t.handling = .shed then s.endHandling s.cur false else s

/-- rsdone (R357). -/
def execRsdone (s : State) : Out :=
  s.onThread fun t =>
    afterRetire (s.finish t 0) fun s => if t.handling = .resume then s.endHandling s.cur false else s

/-- uchg (R358): an explicit charge without a weight. -/
def execUchg (ra rd : GReg) (s : State) : Out :=
  s.onThread fun t =>
    let core := coreOf s.cur
    let s := if t.priv = 0 then s.accrue core t.owner (bits (t.rd ra) 0 32) else s
    s.write t rd (s.meterValue core t.owner) 0

/-- uown (R359): the new owner's meter is allocated, and the old one's freed when no more work keeps it (R340). DESIGN
CHOICE (log 100): where several codes hold, 3 comes before 2 and 2 before 1. -/
def execUown (ra rd : GReg) (s : State) : Out :=
  s.onThread fun t =>
    if t.priv < 1 then s.priv t
    else
      let o := bits (t.rd ra) 0 8
      if slotOf s.cur = 15 ∨ s.isSteward s.cur t = true then s.write t rd 3 0
      else if (s.owner o).live = false ∨ (s.owner o).part ≠ t.part then s.write t rd 2 0
      else if s.canMeter (coreOf s.cur) o then
        afterRetire ((s.allocMeter (coreOf s.cur) o).write { t with owner := o } rd 0 0) fun s => s.sweepMeters (coreOf s.cur)
      else s.write t rd 1 0

/-- uown.st (R359). DESIGN CHOICE (log 100): where several codes hold, 3 comes before 2 and 2 before 4. -/
def execUownSt (rd : GReg) (s : State) : Out :=
  s.onThread fun t =>
    let r := s.owner t.owner
    if slotOf s.cur = 15 then s.write t rd 3 0
    else if r.live = false ∨ r.part ≠ t.part then s.write t rd 2 0
    else if r.sv = true ∧ s.inHandling r.stid = true then s.write t rd 4 0
    else ((s.setOwner t.owner { r with sv := true, stid := s.cur }).reportFor t.owner false).write t rd 0 0

/-- A `ucfg` form sends its change to the arbiter and waits until every core has applied it (R360). -/
def State.sendUcfg (s : State) (t : Thread) (d : GReg) (w : UcfgWhat) : Out :=
  (s.modArb fun a => { a with ucfg := a.ucfg ++ [⟨.thread s.cur d, w⟩] }).wait t (.reply .ucfg)

/-- ucfg.own (R360): the descriptor is eight doublewords in own LM. -/
def execUcfgOwn (ra rb rd : GReg) (s : State) : Out :=
  s.onThread fun t =>
    if t.priv < 2 then s.priv t
    else
      s.lmAccess t (t.rd ra) 64 8 false fun s off =>
        let m := s.mem (.lm (coreOf s.cur))
        s.sendUcfg t rd (.own (bits (t.rd rb) 0 8) ((numsFrom 0 8).map fun k => BitVec.ofNat 64 (m.read (off + 8 * k) 8)))

/-- ucfg.tab (R360): eight weights in own LM. -/
def execUcfgTab (ra rb rd : GReg) (s : State) : Out :=
  s.onThread fun t =>
    if t.priv < 2 then s.priv t
    else
      s.lmAccess t (t.rd ra) 8 8 false fun s off =>
        if bits (t.rd rb) 2 62 ≠ 0 then s.write t rd 1 0
        else
          let m := s.mem (.lm (coreOf s.cur))
          s.sendUcfg t rd (.table (bits (t.rd rb) 0 2) ((numsFrom 0 8).map fun k => (m.byte (off + k)).toNat))

/-- ucfg.arb (R360). -/
def execUcfgArb (ra rd : GReg) (s : State) : Out :=
  s.onThread fun t => if t.priv < 2 then s.priv t else s.sendUcfg t rd (.arb (bits (t.rd ra) 0 32))

/-! ### Traps at an issue boundary -/

/-- Entry to the SHED or RESUME handler at a boundary, with TPC and TSTAT2 (R298, R348); where SHPC is 0 by then, the trap is
discarded. -/
def State.enterHandler (s : State) (tid : Nat) (t : Thread) (code : Nat) (tpc tstat2 tval : Word) (r : Running) : State :=
  let handler := (s.owner t.owner).shpc
  s.setThread tid (if handler = 0 then t else t.enter handler tpc (tcauseOf code 0 false) tval tstat2 r)

/-- A SHED trap may be taken at the thread's boundary: in place of a running RESUME handler, or with UT = 0 (R352, R298). -/
def State.shedDue (s : State) (tid : Nat) (t : Thread) : Bool :=
  s.ready tid t && (t.superPend.isSome || (t.shedPend.isSome && !t.ut))

/-- SHED (R346, R352): in place of a RESUME handler, with TPC and TSTAT2 as they were saved at its entry. -/
def execShed (tid : Nat) (s : State) : Out :=
  match s.thread tid with
  | none => .next s
  | some t =>
    if !s.shedDue tid t then .next s
    else
      match t.superPend, t.shedPend with
      | some v, _ => .next (s.enterHandler tid { t with superPend := none } 3 t.saved.1 t.saved.2 v .shed)
      | none, some v => .next (s.enterHandler tid { t with shedPend := none } 3 t.pc (tstat2Of 0 true) v .shed)
      | none, none => .next s

/-- A RESUME trap may be taken at the thread's boundary (R347, R298). -/
def State.resumeDue (s : State) (tid : Nat) (t : Thread) : Bool := s.ready tid t && t.resumePend.isSome && !t.ut

/-- RESUME_TRAP (R347). -/
def execResumeTrap (tid : Nat) (s : State) : Out :=
  match s.thread tid with
  | none => .next s
  | some t =>
    if !s.resumeDue tid t then .next s
    else
      match t.resumePend with
      | some v =>
        .next (s.enterHandler tid { t with resumePend := none, saved := (t.pc, tstat2Of 0 true) } 4 t.pc (tstat2Of 0 true) v .resume)
      | none => .next s

/-- The handling has used its 256 instructions (R346, R347). -/
def Thread.allowanceDue (t : Thread) : Bool := t.handling != .none && decide (256 ≤ t.counted)

/-- ALLOWANCE_EXPIRY (R346, R347): ALWX := 1 and the handling ends. -/
def execAllowanceExpiry (tid : Nat) (s : State) : Out :=
  match s.thread tid with
  | none => .next s
  | some t => .next (if t.allowanceDue then s.endHandling tid true else s)

/-- BUDGET is due at the thread's boundary (R342). -/
def State.budgetDue (s : State) (tid : Nat) (t : Thread) : Bool := s.ready tid t && t.budgetPend.isSome

/-- BUDGET (R342): an asynchronous service trap, whatever UT holds. -/
def execBudget (tid : Nat) (s : State) : Out :=
  match s.thread tid with
  | none => .next s
  | some t =>
    if !s.budgetDue tid t then .next s
    else
      match t.budgetPend with
      | some v =>
        .next (s.serviceTrap tid { t with budgetPend := none, block := .none, walkRes := none, noMig := false } 0x14 0 v t.pc (tstat2Of 0 true))
      | none => .next s

end Sys2Proof.Machine
end

