-- ==== Sys2Proof/Machine/Queue.lean ====
section
/-! DEFINITION. Hardware queues (spec/10 R253 to R255): handles, putting and taking with waiting putters and getters, closing,
creating and removing, and the queue forms. -/

namespace Sys2Proof.Machine

/-- Changes a queue of a partition; the waiters on its descriptor are evaluated again (R252). -/
def State.modQueue (s : State) (part q : Nat) (f : Queue → Queue) : State :=
  (s.modPart part fun p => { p with queues := p.queues.put q (f (p.queue q)) }).fire ⟨.share part (s.placing part), queueOff + 64 * q⟩ 16

/-- A queue of a partition. -/
def State.queue (s : State) (part q : Nat) : Queue :=
  match s.part part with
  | some p => p.queue q
  | none => {}

/-- The live queue that a handle names for work of a partition on a core (R253, R254). -/
def State.queueAt (s : State) (part core : Nat) (handle : Word) : Option Nat :=
  match s.window part core handle with
  | some (.pantry h off) =>
    if h = s.placing part ∧ queueOff ≤ off ∧ off < 0x164000 ∧ off % 64 = 0 ∧ (s.queue part ((off - queueOff) / 64)).live = true
    then some ((off - queueOff) / 64) else none
  | _ => none

/-- The handle of a queue through window 0xC3 (R254). -/
def queueHandle (placing q : Nat) : Word := BitVec.ofNat 64 (0xC3 * 2 ^ 56 + placing * 2 ^ 26 + queueOff + 64 * q)

/-- The thread's request to the queue that a handle names: a live queue, no range of the core that covers D0 in the way at issue (R213);
then the form acts at the queue's pantry pipe (R116). -/
def State.atQueue (s : State) (t : Thread) (handle : Word) (write : Bool) (w : WaitKind) (k : Nat → Out) : Out :=
  match s.queueAt t.part (coreOf s.cur) handle with
  | none => s.addr t handle
  | some q =>
    if !t.block.isAwait && s.locked (.pantry (s.placing t.part)) (queueOff + 64 * q) 8 write then s.trap t 0x02 handle
    else
      s.atPlace t (.pantry (s.placing t.part)) ⟨.share t.part (s.placing t.part), queueOff + 64 * q⟩ (.op 8 write []) handle w fun _ _ => k q

/-- The reply of a waiter that ends with a status: the item and what it holds when it took one (R269). DESIGN CHOICE
(log 94): a `qget`, `yield` or `resume` whose two destinations are one register leaves the status in it, the item first and the status after. -/
def QWait.done (w : QWait) (status : Nat) (item : Option Word) (held : Option HeldItem) : Reply :=
  let st : Nat × Word := (if w.kind = .qput then w.d.val else w.b.val, BitVec.ofNat 64 status)
  { tid := w.tid, held := held,
    writes := match item with
      | some v => if w.kind = .qput then [st] else [(w.d.val, v), st]
      | none => [st] }

/-- Takes the head item: the item, whether RETRY had put it back, and the queue without it. -/
def Queue.takeHead (q : Queue) : Option (Word × Bool × Queue) :=
  match q.items with
  | [] => none
  | v :: l => some (v, !q.requeued.isEmpty, { q with items := l, senders := q.senders.drop 1, requeued := q.requeued.drop 1 })

/-- A putter whose item is in the queue: its reply, or its wait at the queue it takes from (R255, R291). -/
def State.qServed (s : State) (part : Nat) (p : QWait) : State :=
  match p.next with
  | none => s.reply (p.done 0 none none)
  | some q => s.modQueue part q fun y => { y with getters := y.getters ++ [{ p with next := none }] }

/-- What a getter holds once it has taken an item: a worker holds the last item that it took from its feed queue (R269). -/
def State.holdOf (s : State) (part q : Nat) (w : QWait) (item : Word) (requeued : Bool) : Option HeldItem :=
  match s.thread w.tid with
  | some t => match t.team with
    | some m => if w.kind = .qget ∧ m.inq = queueHandle (s.placing part) q then some ⟨q, item, requeued⟩ else none
    | none => none
  | none => none

/-- Serves waiters of a queue for as long as one can be served: putters while there is space or once the queue is closed,
getters while there are items or once it is closed and empty, each in the order of their requests (R255). n bounds the
waiters served. -/
def State.qRun : Nat → State → Nat → Nat → State
  | 0, s, _, _ => s
  | n + 1, s, part, q =>
    let x := s.queue part q
    match x.putters, x.getters, x.takeHead with
    | p :: ps, gs, h =>
      if x.closed then qRun n ((s.modQueue part q fun y => { y with putters := ps }).reply (p.done 2 none none)) part q
      else if x.items.length < x.depth then
        let s := (s.modQueue part q fun y => { y with putters := ps, items := y.items ++ [p.item], senders := y.senders ++ [p.tid] }).qServed part p
        qRun n (match p.next with
          | some q2 => qRun n s part q2
          | none => s) part q
      else
        match gs, h with
        | w :: gs, some (v, again, x') =>
          qRun n ((s.modQueue part q fun _ => { x' with getters := gs }).reply
            (w.done 0 (some v) (s.holdOf part q w v again))) part q
        | _, _ => s
    | [], w :: gs, some (v, again, x') =>
      qRun n ((s.modQueue part q fun _ => { x' with getters := gs }).reply
        (w.done 0 (some v) (s.holdOf part q w v again))) part q
    | [], w :: gs, none =>
      if x.closed then qRun n ((s.modQueue part q fun y => { y with getters := gs }).reply (w.done 2 none none)) part q else s
    | [], [], _ => s

/-- No more services than this are due in a partition at one time: each putter may get its turn as a getter afterwards. -/
def State.waits (s : State) (part : Nat) : Nat :=
  match s.part part with
  | some p => p.queues.foldl (fun n q => n + 2 * q.2.putters.length + q.2.getters.length) 2
  | none => 0

/-- Serves the waiters of a queue, and of the queues that their threads go on to (R291). -/
def State.qServe (s : State) (part q : Nat) : State := s.qRun (s.waits part) part q

/-- Closes a queue: its waiters are woken with status 2 (R255). -/
def State.qClose (s : State) (part q : Nat) : State := (s.modQueue part q fun x => { x with closed := true }).qServe part q

/-- A unit puts an item as `qput` would; none while the queue does not exist, is closed or is full. -/
def State.qPush (s : State) (part q : Nat) (item : Word) : Option State :=
  let x := s.queue part q
  if x.live && !x.closed && decide (x.items.length < x.depth) then
    some ((s.modQueue part q fun x => { x with items := x.items ++ [item], senders := x.senders ++ [2 ^ 18] }).qServe part q)
  else none

/-- A unit takes the head item of a queue. -/
def State.qPop (s : State) (part q : Nat) : Option (Word × State) :=
  match (s.queue part q).takeHead with
  | some (v, _, x) => some (v, (s.modQueue part q fun _ => x).qServe part q)
  | none => none

/-- The queue that doubleword k of the control block of R299 names. -/
def State.controlQueue (s : State) (part k : Nat) : Option Nat :=
  match s.part part with
  | some p => s.queueAt part p.svc (BitVec.ofNat 64 ((s.mem (.share part p.placing)).read (0x144000 + 8 * k) 8))
  | none => none

/-- Posted calls whose entry numbers the system-call queue had no room for are put once there is room (R302). -/
def State.ringDrain : Nat → State → Nat → State
  | 0, s, _ => s
  | n + 1, s, part =>
    match s.part part, s.controlQueue part 1 with
    | some p, some q =>
      match p.ringPut with
      | [] => s
      | e :: l =>
        match s.qPush part q (BitVec.ofNat 64 e) with
        | some s' => ringDrain n (s'.modPart part fun p => { p with ringPut := l }) part
        | none => s
    | _, _ => s

/-- The thread's request has been performed; it waits for the reply (R85). -/
def State.answer (s : State) (t : Thread) (k : WaitKind) (writes : List (Nat × Word)) : Out :=
  afterRetire (s.wait t (.reply k)) fun s => s.reply { tid := s.cur, writes := writes, own := !t.block.isAwait }

/-- qput (R255): the release first, then the queue at its pantry pipe. -/
def execQput (ra rb rd : GReg) (f : QMode) (s : State) : Out :=
  s.onThread fun t =>
    s.release t fun t =>
      s.atQueue t (t.rd ra) true (if f = .block then .qput else .request) fun q =>
        let x := s.queue t.part q
        let closed := x.closed
        let full := decide (x.depth ≤ x.items.length)
        match f with
        | .close => (if closed then s else s.qClose t.part q).answer t .request [(rd.val, if closed then 2 else 0)]
        | .nb =>
          if closed then s.answer t .request [(rd.val, 2)]
          else if full then s.answer t .request [(rd.val, 1)]
          else
            ((s.modQueue t.part q fun x =>
              { x with items := x.items ++ [t.rd rb], senders := x.senders ++ [s.cur] }).qServe t.part q).answer t .request [(rd.val, 0)]
        | .block =>
          afterRetire (s.wait t (.reply .qput)) fun s =>
            (s.modQueue t.part q fun x =>
              { x with putters := x.putters ++ [{ tid := s.cur, item := t.rd rb, d := rd, kind := .qput }] }).qServe t.part q

/-- qget (R255): a worker lets go of the item it held from this queue (R269). DESIGN CHOICE: the request of a thread that has ended takes
nothing, as one that waits at the queue does (log 91). -/
def execQget (ra rb rd : GReg) (n : Bool) (s : State) : Out :=
  s.onThread fun t =>
    s.atQueue t (t.rd ra) true (if n then .request else .qget) fun q =>
      let x := s.queue t.part q
      let t := match t.held with
        | some h => if h.queue = q then { t with held := none } else t
        | none => t
      if decide (2 ^ 18 ≤ s.cur) || (n && x.items.isEmpty) then s.answer t .request [(rb.val, if x.closed then 2 else 1)]
      else
        afterRetire (s.wait t (.reply .qget)) fun s =>
          ((s.modQueue t.part q fun x =>
            { x with getters := x.getters ++ [{ tid := s.cur, d := rd, b := rb, kind := .qget }] }).qServe t.part q).ringDrain 257 t.part

/-- qstat (R255): D0 of the queue. -/
def execQstat (ra rd : GReg) (s : State) : Out :=
  s.onThread fun t =>
    s.atQueue t (t.rd ra) false .request fun q => s.answer t .request [(rd.val, BitVec.ofNat 64 (s.queue t.part q).d0)]

/-- QUEUE_CREATE (R254): a store to D1 set LIVE: the queue is empty and open, with the depth that D0 holds. -/
def execQueueCreate (part q : Nat) (s : State) : Out :=
  let x := s.queue part q
  if x.live || x.nest || x.depth == 0 || decide (256 < x.depth) then .next s
  else .next ((s.modQueue part q fun x => { live := true, depth := x.depth }).ringDrain 257 part)

/-- QUEUE_REMOVE (R254): a store to D1 cleared LIVE: items go, and waiters are woken with status 2. DESIGN CHOICE (log 95): D0 of a removed
queue keeps its DEPTH and reads CLOSED and COUNT as 0. -/
def execQueueRemove (part q : Nat) (s : State) : Out :=
  let x := s.queue part q
  if !x.live || x.nest then .next s
  else
    let s := (s.modQueue part q fun x => { x with items := [], senders := [], requeued := [] }).qClose part q
    .next (s.modQueue part q fun x => { depth := x.depth })

end Sys2Proof.Machine
end

