-- ==== Sys2Proof/Machine/System.lean ====
section
/-! DEFINITION. The system forms and what belongs to them (spec/12, spec/04 R81, R85): `trap`, `tret`, `brk`, `sysc`, `cch`,
`tlbi`; unassigned encodings; the system-call ring, the fault queue, COPYDONE, MCHECK and DEADLOCK at a boundary; replies and
divide results. -/

namespace Sys2Proof.Machine

/-! ### trap, tret, brk (R314) -/

/-- trap (R314, R297): TRAP with TPC the next instruction. The form retires, so it charges. -/
def execTrap (c : BitVec 12) (s : State) : Out :=
  s.onThread fun t =>
    .next ((s.trapAt s.cur { t.issued with block := .none, walkRes := none, noMig := false }
      ⟨0x07, 0, c.zeroExtend 64⟩ (t.pc + 4) s.ir true).retire s.cur 0)

/-- tret (R314, R346, R347): a return from the SHED or RESUME handler first ends the handling. -/
def execTret (s : State) : Out :=
  s.onThread fun t =>
    if !t.ut then s.illegal t
    else
      afterRetire (s.jump t.leave t.trap.tpc) fun s =>
        if (t.running = .shed ∧ t.handling = .shed) ∨ (t.running = .resume ∧ t.handling = .resume) then s.endHandling s.cur false
        else s

/-- brk (R314, R405): BREAK, or a debug stop with the pc at the next instruction when breaks are armed. -/
def execBrk (c : BitVec 12) (s : State) : Out :=
  s.onThread fun t =>
    if (s.core (coreOf s.cur)).dbg.armbrk then s.finish { t with stop := .stopped } 0
    else s.trap t 0x16 (c.zeroExtend 64)

/-- UNASSIGNED_ENCODING (R36): ILLEGAL, with TVAL the word. -/
def execUnassignedEncoding (w : BitVec 32) (s : State) : Out :=
  let s := { s with ir := w }
  s.onThread fun t => s.illegal t

/-! ### System calls (R302, R303) -/

/-- Offset of ring entry e. -/
def ringOff (e : Nat) : Nat := 0x140000 + 64 * e

/-- Writes doublewords of the placing hearth's share from an offset, as its pantry pipe does. -/
def State.pipeWrite (s : State) (part off : Nat) (ws : List Word) : State :=
  (ws.foldl (fun (q : State × Nat) w =>
    (q.1.writeLoc ⟨.share part (q.1.placing part), q.2⟩ 8 w.toNat, q.2 + 8)) (s, off)).1

/-- The pipe takes ring entry e for a caller, writes it with STATE := 1 and puts its number into the system-call queue. -/
def State.postCall (s : State) (part e tid : Nat) (t : Thread) (call : Word) : State :=
  let s := s.modPart part fun p => { p with ring := p.ring.put e tid, ringPut := p.ringPut ++ [e] }
  (s.pipeWrite part (ringOff e)
    [1, BitVec.ofNat 64 tid, call, t.rdN 1, t.rdN 2, t.rdN 3, t.rdN 4, 0]).ringDrain 257 part

/-- The lowest free ring entry. -/
def Partition.freeRing (p : Partition) : Option Nat := lowestFree (p.ring.map Prod.fst) 0 256

/-- A system call (R302): the release first, then the ring at its pantry pipe; `full` says what happens when no entry is free. -/
def State.callForm (s : State) (ra : GReg) (full : Thread → Out) : Out :=
  s.onThread fun t =>
    if t.priv ≠ 0 ∧ t.block.isAwait = false then s.illegal t
    else
      s.release t fun t =>
        s.atPlace t (.pantry (s.placing t.part)) ⟨.share t.part (s.placing t.part), ringOff 0⟩ (.op 8 true []) (t.rd ra) .sysc fun _ _ =>
          match s.part t.part with
          | none => full t
          | some p =>
            match p.freeRing with
            | some e => afterRetire (s.wait t (.reply .sysc)) fun s => s.postCall t.part e s.cur t (t.rd ra)
            | none => full t

/-- sysc (R302): a caller that finds the ring full parks. -/
def execSysc (ra : GReg) (s : State) : Out :=
  s.callForm ra fun t =>
    afterRetire (s.wait t (.reply .ringFull)) fun s =>
      s.modPart t.part fun p => { p with ringWait := p.ringWait ++ [(s.cur, t.rd ra)] }

/-- sysc.nb (R302): a full ring answers BUSY, −16, in g1. -/
def execSyscNb (ra : GReg) (s : State) : Out :=
  s.callForm ra fun t => s.answer t .unit [(1, BitVec.ofInt 64 (-16))]

/-- The first parked caller takes a ring entry that has become free. -/
def State.serveRing (s : State) (part : Nat) : State :=
  match s.part part with
  | none => s
  | some p =>
    match p.ringWait, p.freeRing with
    | (tid, call) :: l, some e =>
      let s := s.setPart part { p with ringWait := l }
      match s.thread tid with
      | some t => (s.setThread tid { t with block := .reply .sysc }).postCall part e tid t call
      | none => s
    | _, _ => s

/-- SYSCALL_COMPLETE (R302): the service core stored STATE := 2; the caller is woken with G1 and G2, and STATE := 0. -/
def execSyscallComplete (part entry : Nat) (s : State) : Out :=
  match s.part part with
  | none => .next s
  | some p =>
    match p.ring.look entry with
    | none => .next s
    | some tid =>
      let m := s.mem (.share part p.placing)
      let g1 := BitVec.ofNat 64 (m.read (ringOff entry + 24) 8)
      let g2 := BitVec.ofNat 64 (m.read (ringOff entry + 32) 8)
      if m.read (ringOff entry) 8 ≠ 2 then .next s
      else
        let s := (s.setPart part { p with ring := p.ring.drop entry }).pipeWrite part (ringOff entry) [0]
        let s := match s.thread tid with
          | some t => if t.block = Block.reply .sysc then s.reply { tid := tid, writes := [(1, g1), (2, g2)] } else s
          | none => s
        .next (s.serveRing part)

/-! ### The fault queue (R300) -/

/-- FAULT_QUEUE_PUT (R300): the earliest record number goes into the fault queue when it has room. -/
def execFaultQueuePut (part : Nat) (s : State) : Out :=
  match s.part part, s.controlQueue part 0 with
  | some p, some q =>
    match p.faultPut with
    | [] => .next s
    | f :: l =>
      match s.qPush part q (BitVec.ofNat 64 f) with
      | some s' =>
        .next (s'.modPart part fun p => { p with faultPut := l })
      | none => .next s
  | _, _ => .next s

/-- A fault record is freed, and the first thread in fault-wait takes the lowest free one (R300). -/
def State.freeFault (s : State) (part f : Nat) : State :=
  match s.part part with
  | none => s
  | some p =>
    let s := s.setPart part { p with faults := p.faults.drop f, faultPut := p.faultPut.erase f, faultWait := p.faultWait.drop 1 }
    match p.faultWait with
    | [] => s
    | tid :: _ =>
      match s.thread tid with
      | some t =>
        match t.block with
        | .faultWait code sub tval tpc tstat2 => s.park tid t code sub tval tpc tstat2
        | _ => s
      | none => s

/-! ### Traps pending at a boundary -/

/-- COPYDONE or CHILDFAULT is due at the thread's boundary (R228, R274, R298). -/
def State.pendDue (s : State) (tid : Nat) (t : Thread) : Bool := s.ready tid t && !t.ut && !t.pend.isEmpty

/-- COPYDONE (R228): the earliest pending one; with no handler address it is discarded (R298). -/
def execCopydone (tid : Nat) (s : State) : Out :=
  match s.thread tid with
  | none => .next s
  | some t =>
    if !s.pendDue tid t then .next s
    else
      match t.pend with
      | .copydone id h :: l =>
        let t := { t with pend := l }
        if h = 0 then .next (s.setThread tid t)
        else .next (s.setThread tid (t.enter h t.pc (tcauseOf 1 0 false) id (tstat2Of 0 true) .other))
      | _ => .next s

/-- CHILDFAULT (R274): handler TVEC; with TVEC = 0 it is discarded (R298). -/
def execChildfault (tid : Nat) (s : State) : Out :=
  match s.thread tid with
  | none => .next s
  | some t =>
    if !s.pendDue tid t then .next s
    else
      match t.pend with
      | .childfault v :: l =>
        let t := { t with pend := l }
        if t.handler = 0 then .next (s.setThread tid t)
        else .next (s.setThread tid (t.enter t.handler t.pc (tcauseOf 5 0 false) v (tstat2Of 0 true) .other))
      | _ => .next s

/-- A pending machine check is taken at the thread's next instruction, precisely (R307, R310). -/
def State.takeMcheck (s : State) (tid : Nat) (t : Thread) (i : TrapInfo) (insn : BitVec 32) : State :=
  s.trapAt tid { t with mcheck := t.mcheck.drop 1, block := .none, walkRes := none, noMig := false } i t.pc insn false

/-- The DEADLOCK that is pending for a thread at its boundary: one of its partition's service core, with UT = 0 (R306, R297). -/
def State.deadlockFor (s : State) (tid : Nat) (t : Thread) : Option Word :=
  match s.part t.part with
  | some p => if coreOf tid == p.svc && !t.ut then p.deadlock else none
  | none => none

/-- A thread takes the DEADLOCK of its partition. -/
def State.takeDeadlock (s : State) (tid : Nat) (t : Thread) (v : Word) : State :=
  (s.modPart t.part fun p => { p with deadlock := none }).serviceTrap tid { t with block := .none, walkRes := none, noMig := false } 0x18 0 v
    t.pc (tstat2Of 0 true)

/-! ### Replies and results (R85, R252) -/

/-- Delivers a reply: the registers and the retirement, or the trap at the blocked instruction. -/
def State.deliver (s : State) (r : Reply) : State :=
  match s.thread r.tid with
  | none => s
  | some t =>
    match r.trap with
    | some i => s.trapAt r.tid { t with block := .none, walkRes := none, noMig := false, readyAt := s.cc + 1 } i t.pc r.insn false
    | none => s.complete r.tid r.entry fun t =>
        { t.wrs r.writes with held := match r.held with
            | some h => some h
            | none => t.held }

/-- REPLY_ARRIVAL (R85): the reply of a blocked thread arrives. -/
def execReplyArrival (tid : Nat) (s : State) : Out :=
  match s.replies.find? fun r => r.tid == tid with
  | none => .next s
  | some r => .next ({ s with replies := s.replies.erase r }.deliver r)

/-- WAITW_WAKE (R252): the wake of a join word arrives with the value. -/
def execWaitwWake (tid : Nat) (s : State) : Out :=
  match s.wakes.find? fun r => r.tid == tid with
  | none => .next s
  | some r => .next ({ s with wakes := s.wakes.erase r }.deliver r)

/-- DIVIDE_RESULT (R85): the divide unit delivers in the cc the form fixes. -/
def execDivideResult (tid : Nat) (s : State) : Out :=
  match s.thread tid with
  | none => .next s
  | some t =>
    match t.block with
    | .divide due d v flags entry =>
      if due ≤ s.cc then .next (s.complete tid entry fun t => (t.raiseF flags).wr d v) else .next s
    | _ => .next s

/-! ### Couches (R78, R79, R81, R315) -/

/-- A couche image of 32 bytes (R79), or none where a byte breaks the layout. -/
def coucheOf : List Nat → Option (List (Option Nat))
  | [] => some []
  | b :: l =>
    let e : Option (Option Nat) :=
      if b / 16 % 8 ≠ 0 then none
      else if 128 ≤ b then some (some (b % 16))
      else if b % 16 = 0 then some none
      else none
    match e, coucheOf l with
    | some x, some r => some (x :: r)
    | _, _ => none

/-- R78: positions of a slot at least 4 apart in either direction, slot 15 named at least 4 times. -/
def coucheValid (c : List (Option Nat)) : Bool :=
  (numsFrom 0 32).all (fun p => (numsFrom 1 3).all fun d =>
    (c.getD p none).isNone || c.getD p none != c.getD ((p + d) % 32) none) &&
  decide (4 ≤ (c.filter fun x => x == some 15).length)

/-- A couche image is staged on a core, and barrier 63 there is to be set for n further arrivals and arrived at (R315, R241). -/
def State.stage (s : State) (core : Nat) (image : List Nat) (n : Nat) : State :=
  { s.modCore core fun k => { k with staged := (coucheOf image).map fun c => (c, none) } with sets := s.sets ++ [(core, (n + 1) % 65536)] }

/-- cch (R315): the image is read and checked at issue and goes to the target core, which stages it. -/
def execCch (ra rb rd : GReg) (s : State) : Out :=
  s.onThread fun t =>
    let target := bits (t.rd rb) 0 14
    let n := bits (t.rd rb) 16 16
    match t.block with
    | .await (.here _ _ image _) _ => (s.stage target image n).answer t .unit [(rd.val, 0)]
    | _ =>
      if t.priv < 1 then s.priv t
      else
        s.lmAccess t (t.rd ra) 32 32 false fun s off =>
          let m := s.mem (.lm (coreOf s.cur))
          let image := (numsFrom 0 32).map fun k => (m.byte (off + k)).toNat
          let ours := t.priv == 2 || (match s.part t.part with
            | some p => p.hasCore target
            | none => false)
          match coucheOf image with
          | none => s.write t rd 1 0
          | some c =>
            if !coucheValid c then s.write t rd 1 0
            else if !ours then s.write t rd 3 0
            else if target = coreOf s.cur then (s.stage target image n).write t rd 0 0
            else s.request t (.lm target) ⟨.lm target, 0⟩ (.op 0 true image) (t.rd rb) .unit

/-- COUCHE_IN_FORCE (R81): at the first rotation boundary after barrier 63 completes, before the core issues in it. -/
def execCoucheInForce (core : Nat) (s : State) : Out :=
  let k := s.core core
  match k.staged with
  | some (c, some n) =>
    if (s.cc - k.base) % 32 = 0 ∧ n < s.cc ∧ k.lastIssue ≠ some s.cc then
      .next (s.modCore core fun k => { k with couche := c, staged := none })
    else .next s
  | _ => .next s

/-! ### Translations (R316) -/

/-- Removes the translations of a partition from every TLB, and the lines from every L1, of the pages that meet n bytes from an address,
at any page size (R316). -/
def State.dropPages (s : State) (part lo n : Nat) : State :=
  let meets := fun (base size : Nat) => decide (base < lo + n) && decide (lo < base + size)
  let keep := fun (l : List TlbEntry) => l.filter fun e => !(e.part == part && meets e.base e.leaf.size)
  { s with
    cores := s.cores.over fun _ c =>
      { c with tlb := keep c.tlb, l1 := c.l1.filter fun x => x.pages.all fun q => q.1 != part || !meets q.2.1 q.2.2 }
    clusters := s.clusters.over fun _ c => { c with tlb := keep c.tlb } }

/-- Translations of the thread's partition go from every TLB, and their pages' lines from every L1; the form completes once no access to
the pages is on its way to a home, whose lines are dropped then (R316, R113; log 74). -/
def State.tlbiForm (s : State) (t : Thread) (lo n : Nat) : Out :=
  match t.block with
  | .await (.homed _ _ _) _ => (s.dropPages t.part lo n).finish t 0
  | _ =>
    s.release t fun t =>
      let s := s.dropPages t.part lo n
      if s.homesQuiet t.part lo n then s.finish t 0 else s.await t (.homed t.part lo n)

/-- tlbi (R316). -/
def execTlbi (ra : GReg) (s : State) : Out :=
  s.onThread fun t => if t.priv < 1 then s.priv t else s.tlbiForm t (t.rd ra).toNat 1

/-- tlbi.all (R316). -/
def execTlbiAll (s : State) : Out :=
  s.onThread fun t => if t.priv < 1 then s.priv t else s.tlbiForm t 0 (2 ^ 63)

end Sys2Proof.Machine
end

