-- ==== Sys2Proof/Machine/Net.lean ====
section
/-! DEFINITION. Parcels between places and what they do (spec/05 R115 to R123; R213, R244, R277, R294, R307): arriving once and
in order, acknowledgements, resending, unreachable targets; walks (R114); migration (R120, R121). -/

namespace Sys2Proof.Machine

/-- The core whose pipe a place is, if it is a core's. -/
def Place.core : Place → Option Nat
  | .lm c => some c
  | .home c => some c
  | .pantry _ => none

/-- The place is a frozen core: traffic for it is held (R307). -/
def State.frozenAt (s : State) (p : Place) : Bool :=
  match p.core with
  | some c => (s.core c).frozen
  | none => false

/-- The place is a lost core (R307). -/
def State.lostAt (s : State) (p : Place) : Bool :=
  match p.core with
  | some c => (s.core c).lost
  | none => false

/-- The parcel of a source with a number. -/
def State.findParcel (s : State) (src seq : Nat) : Option Parcel := s.parcels.find? fun p => p.src == src && p.seq == seq

/-- Replaces a parcel. -/
def State.setParcel (s : State) (p : Parcel) : State :=
  { s with parcels := s.parcels.map fun q => if q.src = p.src ∧ q.seq = p.seq then p else q }

/-- Removes a parcel. -/
def State.dropParcel (s : State) (p : Parcel) : State :=
  { s with parcels := s.parcels.filter fun q => !(q.src == p.src && q.seq == p.seq) }

/-- A parcel that its source sent earlier to the same place is still to be performed (R116, R122). -/
def earlierPending (p : Parcel) : List Parcel → Bool
  | [] => false
  | q :: l =>
    if q.src = p.src ∧ q.seq = p.seq then false
    else (q.src == p.src && q.place == p.place && !q.performed) || earlierPending p l

/-- Sources that the window state of a place is kept for (R122, R123). -/
def State.windowed (s : State) (place : Place) : List Nat :=
  (s.parcels.filter fun q => q.place == place && (q.held || (q.performed && q.ctr != 3))).foldl
    (fun acc q => if acc.contains q.src then acc else q.src :: acc) []

/-- A counted parcel is performed: an acknowledgement leaves, with an error mark or not (R117, R119). -/
def State.performed (s : State) (p : Parcel) (err : Option Nat) : State :=
  if p.ctr = 3 then s.dropParcel p else s.setParcel { p with performed := true, held := false, acks := p.acks + 1, err := err }

/-- A request parcel is answered and its reply leaves for the thread. -/
def State.answered (s : State) (p : Parcel) (r : Reply) : State :=
  let s := s.dropParcel p
  if p.src < 2 ^ 18 then s.reply { r with tid := p.src, insn := p.insn } else s

/-- A parcel comes to a core (R409). -/
def State.arrived (s : State) (p : Place) : State :=
  match p.core with
  | some c => s.sig c 24
  | none => s

/-- A copy of a parcel arrives at its place (R122, R123): one already performed is acknowledged again; one of a further source than
4,096 is refused; one ahead of a missing number is held; else it is performed by k. -/
def State.arrive (s : State) (src seq : Nat) (want : Access → Bool) (k : Parcel → State → State) : Out :=
  match s.findParcel src seq with
  | none => .next s
  | some p =>
    if !want p.acc || (p.copies == 0 && !p.held) || s.frozenAt p.place then .next s
    else
      let fresh := !p.held
      let p := if p.held then p else { p with copies := p.copies - 1 }
      let s := if fresh then s.arrived p.place else s
      if p.performed then .next (s.setParcel { p with acks := p.acks + 1 })
      else if 4096 ≤ (s.windowed p.place).length ∧ (s.windowed p.place).contains src = false then
        .next (s.setParcel { p with refused := true, held := false, lastAt := s.time })
      else if earlierPending p s.parcels then .next (s.setParcel { p with held := true })
      else .next (k { p with held := false } (s.setParcel { p with held := false }))

/-- Bytes of an access. -/
def Access.size : Access → Nat
  | .store n _ => n
  | .red _ n _ => n
  | .load n _ _ => n
  | .amo _ n _ _ _ => n
  | .op n _ _ => n
  | _ => 8

/-- The access writes, as the range check takes it. -/
def Access.writes : Access → Bool
  | .load _ _ _ => false
  | .op _ w _ => w
  | _ => true

/-- An access whose thread waits for the reply. -/
def Access.isRequest : Access → Bool
  | .load _ _ _ | .amo _ _ _ _ _ | .op _ _ _ => true
  | _ => false

/-- A cluster-window access meets a range of the target core (R213). -/
def State.lmMeets (s : State) (p : Parcel) : Bool :=
  match p.place with
  | .lm c => s.lockHit c (.lm c) p.loc.off (p.loc.off + p.acc.size) p.acc.writes
  | _ => false

/-- A cluster-window access names a poisoned line (R307). -/
def State.lmPoisoned (s : State) (p : Parcel) : Bool :=
  match p.place with
  | .lm c => p.acc.size != 0 && s.isPoisoned c p.loc.off
  | _ => false

/-- A posted access finds an uncorrectable error at its place (R119): one of its bytes lies in a line that has one. -/
def State.finds (s : State) (p : Parcel) : Bool :=
  p.ctr != 3 && s.errors.any fun l =>
    l.space == p.loc.space && decide (p.loc.off < l.off + 64) && decide (l.off < p.loc.off + p.acc.size)

/-- An access passes the L1 of its home (R115), or raises the signal of an LM's access (R409). -/
def State.reachParcel (s : State) (p : Parcel) : State :=
  match p.place with
  | .home c => s.throughL1 c p.part p.page p.loc
  | .lm c => s.sig c 31
  | .pantry _ => s

/-- The thread of a request whose issuer has ended: it takes traps to itself, and goes once the request has acted. -/
def Thread.shade (t : Thread) : Thread := { t with priv := 1, ut := false, trap := { t.trap with tvec := 4 } }

/-- The instruction whose request has come to its place goes on there, as the next turn of the cc. That of an ended thread acts too, and
answers to nobody (R273, R141). -/
def State.performOp (s : State) (p : Parcel) (data : List Nat) : State :=
  let s := s.dropParcel p
  let here : Block := .await (.here p.place p.loc data none) p.insn
  match s.thread p.src with
  | some t =>
    match t.block with
    | .reply _ => { s.setThread p.src { t with block := here } with turns := .await p.src :: s.turns }
    | _ => s
  | none =>
    match p.ended with
    | some t => { s.setThread p.src { t.shade with block := here } with turns := .await p.src :: .gone p.src :: s.turns }
    | none => s

/-- Performs an access at its place. -/
def performAccess (p : Parcel) (s : State) : State :=
  let bad := fun (sub : Nat) =>
    if p.acc.isRequest then s.answered p { tid := p.src, trap := some ⟨0x15, sub, p.va⟩ } else s.performed p (some sub)
  if s.lostAt p.place then bad 5
  else if s.lmMeets p then
    if p.acc.isRequest then s.answered p { tid := p.src, trap := some ⟨0x02, 0, p.va⟩ } else s.setParcel { p with held := true }
  else if s.lmPoisoned p then bad 4
  else if s.finds p then bad 1
  else
    let s := s.reachParcel p
    match p.acc with
    | .op _ _ data => s.performOp p data
    | .store n v => (s.writeLoc p.loc n v).performed p none
    | .red k n v => (s.doRed k p.loc n v).performed p none
    | .load n z d => s.answered p { tid := p.src, writes := [(d.val, loadValue z (s.readLoc p.loc n))], entry := 1 }
    | .amo k n b e d =>
      let r := s.doAmo k p.loc n b e
      r.1.answered p { tid := p.src, writes := [(d.val, sextW r.2 (8 * n))], entry := 1 }
    | _ => s

/-- ACCESS_PARCEL (R115, R122): a load, store or update of a thread or unit arrives. -/
def execAccessParcel (src seq : Nat) (s : State) : Out :=
  s.arrive src seq (fun a => match a with
    | .store _ _ | .red _ _ _ | .load _ _ _ | .op _ _ _ => true
    | _ => false) performAccess

/-- ATOMIC_REQUEST_PARCEL (R121): an atomic is performed at its place and replied to. -/
def execAtomicRequestParcel (src seq : Nat) (s : State) : Out :=
  s.arrive src seq (fun a => match a with
    | .amo _ _ _ _ _ => true
    | _ => false) performAccess

/-- ARRIVAL_PARCEL (R237): an arrival of `rarr` or `xack` is applied, clean. -/
def execArrivalParcel (src seq : Nat) (s : State) : Out :=
  s.arrive src seq (fun a => match a with
    | .arrive _ _ => true
    | _ => false) fun p s =>
      match p.acc with
      | .arrive core bar => if s.lostAt p.place then s.performed p (some 5) else (s.noteArrival (parcelOrder p.src) core bar false).performed p none
      | _ => s

/-- CLUSTER_BARRIER_ARRIVAL (R244, R249): the arrival of `barr.cl` is applied, and its thread gets the PHASE before it. -/
def execClusterBarrierArrival (src seq : Nat) (s : State) : Out :=
  s.arrive src seq (fun a => match a with
    | .clArrive _ _ => true
    | _ => false) fun p s =>
      match p.acc with
      | .clArrive cl bar =>
        let old := (s.clBar cl bar).phase
        let s := (s.arriveClBar cl bar).dropParcel p
        match s.thread p.src with
        | some t =>
          match t.block with
          | .barr d => s.complete p.src 0 fun t => t.wr d (BitVec.ofNat 64 (bit old))
          | _ => s
        | none => s
      | _ => s

/-! ### Handlers (R277) -/

/-- The thread of a handler parcel (R257), at its creator's privilege (R296). -/
def HandlerParcel.thread (h : HandlerParcel) : Thread :=
  let t : Thread := { pc := h.handler, part := h.part, owner := h.owner, sec := h.sec, priv := h.priv, fp := { starter := h.starter } }
  ((t.wrs ((numsFrom 1 4).zip h.args)).wrN 5 h.sender)

/-- The next queued handler is written into slot 15 when it is free. -/
def State.startHandler (s : State) (core : Nat) : State :=
  match s.thread (16 * core + 15), (s.core core).handlers with
  | none, h :: l => (s.place (16 * core + 15) h.thread).modCore core fun c => { c with handlers := l }
  | _, _ => s

/-- A report that waits for a handler parcel's queueing waits no longer (R398). -/
def State.handlerQueued (s : State) (p : Parcel) : State :=
  { s with msgs := s.msgs.map fun m => if m.trig = some (p.src, p.seq) then { m with trig := none } else m }

/-- A handler parcel is queued, or refused when the queue is full or no meter is available (R277); a handler at service or monitor
privilege needs none (R413). -/
def performHandler (p : Parcel) (s : State) : State :=
  match p.acc with
  | .handler core h =>
    if s.lostAt p.place then s.performed p (some 5)
    else if 16 ≤ (s.core core).handlers.length ∨ (h.priv = 0 ∧ s.canMeter core h.owner = false) then
      s.setParcel { p with refused := true, lastAt := s.time }
    else
      let s := if h.priv = 0 then s.allocMeter core h.owner else s
      (((s.modCore core fun c => { c with handlers := c.handlers ++ [h] }).handlerQueued p).performed p none).startHandler core
  | _ => s

/-- HANDLER_PARCEL (R277). -/
def execHandlerParcel (src seq : Nat) (s : State) : Out :=
  s.arrive src seq (fun a => match a with
    | .handler _ _ => true
    | _ => false) performHandler

/-- A wake at a slot (R294): completes a sleep, or sets EP, or is discarded. One in the cc of a `sleep` is applied first. -/
def State.wakeSlot (s : State) (tid : Nat) : State :=
  match s.thread tid with
  | none => s
  | some t =>
    match t.block with
    | .sleep _ d => s.complete tid 0 fun t => t.wr d 0
    | _ => if t.sleptAt = some s.cc then s else s.setThread tid { t with ep := true }

/-- WAKE_PARCEL (R294). -/
def execWakeParcel (src seq : Nat) (s : State) : Out :=
  s.arrive src seq (fun a => match a with
    | .wake _ => true
    | _ => false) fun p s =>
      match p.acc with
      | .wake tid => if s.lostAt p.place then s.performed p (some 5) else (s.wakeSlot tid).performed p none
      | _ => s

/-! ### Acknowledging and resending (R117, R119, R122, R123, R277) -/

/-- Puts an error mark on counter k, unless it has one. -/
def Thread.mark (t : Thread) (k : Nat) (m : ErrMark) : Thread :=
  if k = 0 then { t with errC := some (t.errC.getD m) }
  else if k = 1 then { t with errH := some (t.errH.getD m) }
  else { t with errM := some (t.errM.getD m) }

/-- ACKNOWLEDGEMENT (R117, R119): the first acknowledgement of a parcel lowers the counter, with an error mark or not. -/
def execAcknowledgement (src seq : Nat) (s : State) : Out :=
  match s.findParcel src seq with
  | none => .next s
  | some p =>
    if p.acks = 0 then .next s
    else
      let s := s.dropParcel p
      .next (s.modThread src fun t =>
        let t := t.setPcnt p.ctr (t.pcnt p.ctr - 1)
        match p.err with
        | some sub => t.mark p.ctr ⟨p.va, sub⟩
        | none => t)

/-- A copy of a parcel leaves again. -/
def State.resend (s : State) (p : Parcel) : State :=
  (if p.src < 2 ^ 18 then s.sig (coreOf p.src) 25 else s).setParcel { p with copies := p.copies + 1, refused := false, lastAt := s.time }

/-- PARCEL_RESEND (R122): one not acknowledged within 20 µs. -/
def execParcelResend (src seq : Nat) (s : State) : Out :=
  match s.findParcel src seq with
  | some p => if !p.refused && decide (p.lastAt + 20000 ≤ s.time) then .next (s.resend p) else .next s
  | none => .next s

/-- CORRECTABLE_LINK_ERROR (R122): the source resends at once. -/
def execCorrectableLinkError (src seq : Nat) (s : State) : Out :=
  match s.findParcel src seq with
  | some p => if p.refused then .next s else .next (s.resend p)
  | none => .next s

/-- A handler parcel. -/
def Access.isHandler : Access → Bool
  | .handler _ _ => true
  | _ => false

/-- PARCEL_REFUSED_RESEND (R123): 2 µs after the refusal for want of window state. -/
def execParcelRefusedResend (src seq : Nat) (s : State) : Out :=
  match s.findParcel src seq with
  | some p => if p.refused && !p.acc.isHandler && decide (p.lastAt + 2000 ≤ s.time) then .next (s.resend p) else .next s
  | none => .next s

/-- HANDLER_RESEND (R277): 2 µs after the refusal of a handler parcel. -/
def execHandlerResend (src seq : Nat) (s : State) : Out :=
  match s.findParcel src seq with
  | some p => if p.refused && p.acc.isHandler && decide (p.lastAt + 2000 ≤ s.time) then .next (s.resend p) else .next s
  | none => .next s

/-- A target of a parcel not reached within 100 µs, other than a frozen one, is an error mark with SUB 2 (R119). -/
def State.lateParcel (s : State) (src seq : Nat) : Out :=
  match s.findParcel src seq with
  | some p =>
    if p.performed || p.held || p.refused || s.frozenAt p.place || decide (s.time < p.firstAt + 100000) then .next s
    else
      if p.acc.isRequest then .next (s.answered p { tid := p.src, trap := some ⟨0x15, 2, p.va⟩ })
      else .next (s.performed p (some 2))
  | none => .next s

/-! ### Walks (R111, R114) -/

/-- Threads of a hearth in walk-wait begin their walks while walk slots are free; the lowest thread ID first. -/
def State.serveWalkWait (s : State) (h : Nat) : State :=
  (s.threads.filter fun p => hearthOf (coreOf p.1) == h).foldl (fun s p =>
    match p.2.block with
    | .walkWait page =>
      match s.joinWalk p.1 p.2.part page with
      | some s => s.modThread p.1 fun t => { t with block := .walk page }
      | none => s
    | _ => s) s

/-- WALK_COMPLETE (R114): every merged thread receives the result and is presented its instruction again. -/
def execWalkComplete (hearth k : Nat) (s : State) : Out :=
  let x := s.hearth hearth
  match x.walks[k]? with
  | none => .next s
  | some w =>
    let s := s.setHearth hearth { x with walks := x.walks.take k ++ x.walks.drop (k + 1) }
    let r := s.walkTables w.part (w.page * 2 ^ 16)
    let one := fun (s : State) (tid : Nat) =>
      match s.thread tid with
      | none => s
      | some t =>
        match t.block, r with
        | .walk page, .bad reason => s.setThread tid { t with block := .none, readyAt := s.cc + 1, walkRes := some (page, reason) }
        | .walk _, .leaf base l =>
          (s.tlbFill (coreOf tid) ⟨w.part, base, l⟩).setThread tid { t with block := .none, readyAt := s.cc + 1, walkRes := none }
        | _, _ => s
    .next ((w.tids.foldl one s).serveWalkWait hearth)

/-! ### Migration (R120, R121, R345) -/

/-- The nests that a thread applied follow it to its new ID (R274). -/
def State.moveApplier (s : State) (part old new : Nat) : State :=
  s.modPart part fun p =>
    { p with nests := p.nests.map fun n => if n.applier = some old then { n with applier := some new } else n }

/-- A thread leaves for the slot it was granted (R120): its slot is free, the target has a meter for its owner at user privilege,
and what names the thread names the granted slot. MSTAT is not carried. -/
def State.leaveFor (s : State) (tid slot : Nat) (t : Thread) (why : MigWhy) : State :=
  let s := s.syncCore (coreOf slot)
  let s := if t.priv = 0 then s.allocMeter (coreOf slot) t.owner else s
  let s := if s.isSteward tid t then s.setOwner t.owner { s.owner t.owner with stid := slot } else s
  let m : Move := ⟨{ t with block := .none, mstat := 0, walkRes := none, noMig := false }, why, slot, tid⟩
  ((({ s.moveApplier t.part tid slot with moving := s.moving ++ [m] } : State).freeSlot tid).sig (coreOf tid) 26).sig (coreOf tid) 25

/-- MIGRATION_REQUEST (R120): once the thread's counters are zero and its transfers have ended (R230), the target grants its
lowest free slot and the thread leaves, or the target refuses. A machine check that is marked meanwhile is taken once the thread is not
suspended (R141). -/
def execMigrationRequest (tid : Nat) (s : State) : Out :=
  match s.thread tid with
  | none => .next s
  | some t =>
    match t.block with
    | .migrate dest why =>
      if !t.zeroed true true true || s.xbusy tid || (s.core dest).frozen || (s.core (coreOf tid)).frozen then .next s
      else if let some (e, t') := t.takeMark true true true then
        if s.isSuspended tid t then .next s
        else .next (s.trapAt tid { t' with block := .none, walkRes := none, noMig := false } ⟨0x15, e.sub, e.va⟩ t.pc 0 false)
      else
        match s.grantFor dest t, (s.core dest).lost with
        | some g, false => .next (s.leaveFor tid g t why)
        | _, _ =>
          match why with
          | .form d entry => .next (s.complete tid entry fun t => t.wr d 2)
          | .atomic => .next (s.setThread tid { t with block := .none, readyAt := s.cc + 1, noMig := true })
          | .balance => .next (s.unblock tid)
    | _ => .next s

/-- Removes the first thread on its way from a slot. -/
def dropMove (origin : Nat) : List Move → List Move
  | [] => []
  | m :: l => if m.origin = origin then l else m :: dropMove origin l

/-- A thread on its way arrives in the slot it was granted, after what its core has still to apply, and the form that moved it completes
there. -/
def State.land (s : State) (m : Move) : State :=
  let s := s.syncCore (coreOf m.slot)
  let m := (s.moving.find? fun x => x.origin == m.origin).getD m
  let s := (({ s with moving := dropMove m.origin s.moving } : State).place m.slot m.t).sig (coreOf m.slot) 24
  match m.why with
  | .form d entry => s.complete m.slot entry fun t => t.wr d 0
  | _ => s

/-- MIGRATION_PARCEL (R120): the thread that has left a slot becomes ready in the granted one; a frozen target holds it (R307). -/
def execMigrationParcel (tid : Nat) (s : State) : Out :=
  match s.moving.find? fun m => m.origin == tid with
  | some m => if (s.core (coreOf m.slot)).frozen then .next s else .next (s.land m)
  | none => .next s

end Sys2Proof.Machine
end

