-- ==== Sys2Proof/Machine/CrumbStore.lean ====
section
/-! DEFINITION. The crumb store of a partition (spec/14 R318 to R325): entries, slots, counts, trees, and freeing in the
background. -/

namespace Sys2Proof.Machine

/-- The crumb store of a partition; one that does not exist has none. -/
def State.store (s : State) (part : Nat) : CrumbStore :=
  match s.part part with
  | some p => p.store
  | none => {}

/-- Changes the crumb store of a partition. -/
def State.modStore (s : State) (part : Nat) (f : CrumbStore → CrumbStore) : State :=
  s.modPart part fun p => { p with store := f p.store }

/-- The partition has accepted a feature bit (R371). -/
def Partition.accepts (p : Partition) (k : Nat) : Bool := p.flock && (k == 0 || bits p.facc k 1 == 1)

/-- The home number of a name (R322). -/
def CrumbStore.homeNo (c : CrumbStore) (name : Nat) : Nat := name / 2 ^ 125 % 8 % c.homes.length

/-- The home core of a name. -/
def CrumbStore.homeOf (c : CrumbStore) (name : Nat) : Nat := c.homes.getD (c.homeNo name) 0

/-- The LIVE entry of a name (R323). -/
def CrumbStore.liveEntry (c : CrumbStore) (name : Nat) : Option Crumb := c.crumbs.find? fun x => x.name == name && x.live

/-- Replaces the LIVE entry of a name. -/
def CrumbStore.setEntry (c : CrumbStore) (x : Crumb) : CrumbStore :=
  { c with crumbs := c.crumbs.map fun y => if y.name = x.name ∧ y.live = true then x else y }

/-- The count at which a crumb is pinned (R324). -/
def pinned : Nat := 2 ^ 32 - 1

/-- Takes one reference on a name (R324): the state and OK, PINNED or CGONE (R327). -/
def State.crumbRef (s : State) (part name : Nat) : State × Nat :=
  match (s.store part).liveEntry name with
  | none => (s, 2)
  | some x =>
    if x.count = pinned then (s, 8) else (s.modStore part fun c => c.setEntry { x with count := x.count + 1 }, 0)

/-- Drops one reference on a name (R324, R325): a count that reaches 0 makes the entry DYING. -/
def State.crumbDrop (s : State) (part name : Nat) : State × Nat :=
  match (s.store part).liveEntry name with
  | none => (s, 2)
  | some x =>
    if x.count = pinned then (s, 8)
    else if x.count = 0 then (s, 2)
    else (s.modStore part fun c => c.setEntry { x with count := x.count - 1, live := x.count != 1 }, 0)

/-- A unit drops a reference (R325, R334): at a frozen home the decrement is held, at a lost one it is not performed (R307). -/
def State.unitDrop (s : State) (part name : Nat) : State :=
  let c := s.core ((s.store part).homeOf name)
  if c.frozen then { s with drops := s.drops ++ [(part, name)] }
  else if c.lost then s
  else (s.crumbDrop part name).1

/-- Decrements that a home held while it was frozen are performed (R307). -/
def State.heldDrops (s : State) : State := s.drops.foldl (fun s d => s.unitDrop d.1 d.2) { s with drops := [] }

/-- VA of a slot (R320). -/
def CrumbStore.slotVa (c : CrumbStore) (slot : Nat) : Nat := c.sbase * 2 ^ 16 + 256 * slot

/-- Where the bytes of a slot lie, through the partition's page tables, or the reason of R111. -/
def State.slotAt (s : State) (part slot : Nat) : Except Nat Loc :=
  match s.part part with
  | none => .error 1
  | some p =>
    let va := p.store.slotVa slot
    match s.translateNow p.svc part p.sec .load va with
    | .ok e => .ok ⟨.phys e.leaf.tier, e.leaf.pa + (va - e.base)⟩
    | .error r => .error r

/-- Where the bytes of a slot lie, if it is mapped. -/
def State.slotLoc (s : State) (part slot : Nat) : Option Loc := (s.slotAt part slot).toOption

/-- The 256 bytes of a slot, as 32 doublewords. -/
def State.slotWords (s : State) (part slot : Nat) : List Nat :=
  match s.slotLoc part slot with
  | some l => (numsFrom 0 32).map fun k => s.readLoc ⟨l.space, l.off + 8 * k⟩ 8
  | none => List.replicate 32 0

/-- The 16 child names of a node (R318, R319). -/
def childNames : List Nat → List Nat
  | lo :: hi :: l => (lo + 2 ^ 64 * hi) :: childNames l
  | _ => []

/-- The slots of a tree's leaves in its byte order (R319), up to a node that cannot be read, with the reason; a tree is at most n
deep. -/
def State.leafSlots (s : State) (part : Nat) : Nat → Nat → List Nat × Option Nat
  | 0, _ => ([], none)
  | n + 1, name =>
    match (s.store part).crumbs.find? fun x => x.name == name with
    | none => ([], none)
    | some x =>
      if x.cls = 1 then ([x.slot], none)
      else
        match s.slotAt part x.slot with
        | .error r => ([], some r)
        | .ok _ =>
          ((childNames (s.slotWords part x.slot)).filter fun c => c != 0).foldl (fun (acc : List Nat × Option Nat) c =>
            match acc.2 with
            | some _ => acc
            | none => let r := s.leafSlots part n c; (acc.1 ++ r.1, r.2)) ([], none)

/-- Non-null children of a crumb. -/
def State.kidsOf (s : State) (part : Nat) (x : Crumb) : List Nat :=
  if x.cls = 2 then (childNames (s.slotWords part x.slot)).filter fun c => c != 0 else []

/-- The lines of a slot of 256 bytes leave every L1 (R325). -/
def State.dropSlotLines (s : State) (part slot : Nat) : State :=
  match s.slotLoc part slot with
  | some l => { s with cores := s.cores.over fun _ c =>
      { c with l1 := c.l1.filter fun x => !(Space.phys x.tier == l.space && decide (l.off ≤ x.pa) && decide (x.pa < l.off + 256)) } }
  | none => s

/-- The copies of a partition's mappings, of one name or of all, leave every hearth's index cache (R322, R325). -/
def State.dropCopies (s : State) (part : Nat) (name : Option Nat) : State :=
  { s with hearths := s.hearths.over fun _ h => { h with crumbs := h.crumbs.filter fun x => x.1 != part || (name.isSome && name != some x.2.1) } }

/-- A hearth's index cache takes a copy of a mapping (R322). DESIGN CHOICE: a cget fills it, and it never overflows (log 106). -/
def State.takeCopy (s : State) (h part name slot : Nat) : State :=
  let x := s.hearth h
  if x.crumbs.contains (part, name, slot) then s else s.setHearth h { x with crumbs := x.crumbs ++ [(part, name, slot)] }

/-- Frees a DYING crumb (R325): one decrement for each non-null child in ascending order, the copies of the name and the slot's lines, then
the entry and the slot. -/
def State.freeCrumb (s : State) (part : Nat) (x : Crumb) : State :=
  let s := (s.kidsOf part x).foldl (fun s c => s.unitDrop part c) s
  ((s.dropCopies part (some x.name)).dropSlotLines part x.slot).modStore part fun c => { c with crumbs := c.crumbs.filter fun y => !(y.slot == x.slot && !y.live) }

/-- The home of one of the names is frozen: what is bound for it is held (R307). -/
def State.homeFrozen (s : State) (part : Nat) (names : List Nat) : Option Nat :=
  (names.map (s.store part).homeOf).find? fun c => (s.core c).frozen

/-- CRUMB_FREE (R325): a crumb unit frees the k-th entry, if it is DYING, its home is not lost and no home that this reaches is frozen. -/
def execCrumbFree (part k : Nat) (s : State) : Out :=
  match (s.store part).crumbs[k]? with
  | some x =>
    .next (if x.live || (s.core ((s.store part).homeOf x.name)).lost || (s.homeFrozen part (x.name :: s.kidsOf part x)).isSome then s
      else s.freeCrumb part x)
  | none => .next s

end Sys2Proof.Machine
end

