-- ==== Sys2Proof/Machine/Copy.lean ====
section
/-! DEFINITION. The copy engine (spec/10 R211 to R239, with R334 of spec/14): ranges, issue, dispatch, beats, granules, the end
of a transfer, and the copy forms. -/

namespace Sys2Proof.Machine

/-! ### Shapes (R219 to R222, R234) -/

/-- LEN. -/
def CopyRegs.len (r : CopyRegs) : Nat := bits r.xlen 0 32
/-- ROWS. -/
def CopyRegs.rows (r : CopyRegs) : Nat := bits r.xdim 0 16
/-- ESZ. -/
def CopyRegs.esz (r : CopyRegs) : Nat := bits r.xdim 16 4
/-- SSTR, signed. -/
def CopyRegs.sstr (r : CopyRegs) : Int := sx (bits r.xstride 0 32) 32
/-- DSTR, signed. -/
def CopyRegs.dstr (r : CopyRegs) : Int := sx (bits r.xstride 32 32) 32
/-- CORES as core numbers of the cluster. -/
def CopyRegs.cores (r : CopyRegs) : List Nat := (numsFrom 0 16).filter fun k => r.xmask.toNat.testBit k

/-- The forms that pass through the copy engine. -/
inductive XForm where
  | copy | str | gat | mc | out
  deriving DecidableEq, Repr

/-- The form of a transfer. -/
def Xfer.form (x : Xfer) : XForm :=
  match x.ins with
  | .xstr _ _ _ => .str
  | .xgat _ _ _ _ => .gat
  | .xmc _ _ _ => .mc
  | .cout _ _ _ _ => .out
  | _ => .copy

/-- An address as the sum of a register and a signed offset, modulo 2^64. -/
def vaPlus (a : Word) (d : Int) : Nat := (((a.toNat : Int) + d) % (2 ^ 64 : Nat)).toNat

/-- The destination address of byte i of a transfer, in its order. -/
def Xfer.dst (x : Xfer) (i : Nat) : Nat :=
  match x.form with
  | .str => vaPlus x.regs.xdst ((i / x.regs.len : Nat) * x.regs.dstr + (i % x.regs.len : Nat))
  | _ => vaPlus x.regs.xdst i

/-- The source address of byte i of a transfer, in its order. -/
def State.xsrcAt (s : State) (core : Nat) (x : Xfer) (i : Nat) : Nat :=
  match x.form with
  | .str => vaPlus x.regs.xsrc ((i / x.regs.len : Nat) * x.regs.sstr + (i % x.regs.len : Nat))
  | .gat =>
    let e := 2 ^ x.regs.esz
    let k := (s.mem (.lm core)).read (bits x.idx 0 18 + 4 * (i / e)) 4
    vaPlus x.regs.xsrc (k * e + i % e : Nat)
  | _ => vaPlus x.regs.xsrc i

/-- Bytes that a command moves, for each receiver of an `xmc`. -/
def Xfer.bytes (x : Xfer) : Nat :=
  match x.form with
  | .copy | .mc => x.regs.len
  | .str => x.regs.len * x.regs.rows
  | .gat => x.regs.rows * 2 ^ x.regs.esz
  | .out => x.total

/-- The pieces of a row of an `xstr` from byte i on that lie in one 256-byte block each: the block, the first byte and the length. -/
def Xfer.rowPieces (x : Xfer) (stop : Nat) : Nat → Nat → List (Nat × Nat × Nat)
  | 0, _ => []
  | m + 1, i =>
    if stop ≤ i then []
    else
      let n := min (stop - i) (256 - x.dst i % 256)
      (x.dst i / 256, i, n) :: x.rowPieces stop m (i + n)

/-- The granules of an `xstr` (R225): for each 256-byte block of the destination, in the order of its first byte, every piece of a
row that lies in it, in the order of the rows. -/
def Xfer.granules (x : Xfer) : List (List (Nat × Nat)) :=
  let pieces := (numsFrom 0 x.regs.rows).flatMap fun r =>
    x.rowPieces ((r + 1) * x.regs.len) (x.regs.len / 256 + 2) (r * x.regs.len)
  (pieces.map Prod.fst).eraseDups.map fun b => (pieces.filter fun p => p.1 == b).map Prod.snd

/-- Byte p of a list of pieces. -/
def pieceAt : List (Nat × Nat) → Nat → Nat
  | [], p => p
  | (i, n) :: l, p => if p < n then i + p else pieceAt l (p - n)

/-- The byte that is moved in place p of the order of moving: granule by granule for an `xstr`, else the order of the form. -/
def Xfer.at (x : Xfer) (p : Nat) : Nat :=
  match x.form with
  | .str => pieceAt x.granules.flatten p
  | _ => p

/-- Bytes of pieces. -/
def piecesLen (l : List (Nat × Nat)) : Nat := l.foldl (fun n p => n + p.2) 0

/-- The end of the granule that place p lies in, among granules that start at `from_`. -/
def granuleEnd : List (List (Nat × Nat)) → Nat → Nat → Nat
  | [], from_, _ => from_
  | g :: l, from_, p => if p < from_ + piecesLen g then from_ + piecesLen g else granuleEnd l (from_ + piecesLen g) p

/-- The end of the granule that place p lies in (R225): the 256-byte block of the destination. -/
def Xfer.granEnd (x : Xfer) (p : Nat) : Nat :=
  match x.form with
  | .str => granuleEnd x.granules 0 p
  | _ => min (p + (256 - x.dst p % 256)) x.bytes

/-- Place p starts a granule. -/
def Xfer.granStart (x : Xfer) (p : Nat) : Bool := p == 0 || x.granEnd (p - 1) == p

/-- Destination bytes of the granule of places [p, q): rows of an `xstr` may overlap. -/
def Xfer.granBytes (x : Xfer) (p q : Nat) : Nat :=
  match x.form with
  | .str => ((numsFrom 0 (q - p)).map fun k => x.dst (x.at (p + k))).eraseDups.length
  | _ => q - p

/-! ### Ranges (R211, R212, R216, R233) -/

/-- The lowest offset of [off, off + n) of the placing hearth's share that is closed to user privilege. -/
def closedIn (off n : Nat) (load : Bool) : Option Nat :=
  if 0x200000 ≤ off then none
  else if load = true ∧ 0x80000 ≤ off ∧ off < 0xC0000 then (if 0xC0000 < off + n then some 0xC0000 else none)
  else some off

/-- The lowest address of n bytes from one in window 0xC2 or 0xC3 that lies in a region of the placing hearth's share closed to user
privilege: the share starts at `base`. -/
def closedFrom (base lo n : Nat) (load : Bool) : Option Nat :=
  let from_ := max lo base
  if base + 0x200000 ≤ from_ ∨ lo + n ≤ from_ then none
  else (closedIn (from_ - base) (lo + n - from_) load).map fun o => base + o

/-- First addresses at which work of a core sees the placing hearth's share of its partition: in window 0xC3, and in window 0xC2 of that
hearth. -/
def State.placingBases (s : State) (part core : Nat) : List Nat :=
  let h := s.placing part
  (0xC3 * 2 ^ 56 + h * 2 ^ 26) :: if hearthOf core = h then [0xC2 * 2 ^ 56] else []

/-- A range of n bytes from an address passes the checks of step 2 of R233; the failing address otherwise. -/
def State.rangeOk (s : State) (part core priv lo n : Nat) (load : Bool) : Except Word Unit :=
  let first := BitVec.ofNat 64 lo
  let last := BitVec.ofNat 64 (lo + n - 1)
  match s.window part core first, s.window part core last with
  | none, _ => .error first
  | _, none => .error last
  | some (.pantry _ _), some _ =>
    match (s.placingBases part core).findSome? fun b => closedFrom b lo n load with
    | some a => if priv = 0 then .error (BitVec.ofNat 64 a) else .ok ()
    | none => .ok ()
  | _, _ => .ok ()

/-- The locks of a range: one for each LM or share that it lies in. m bounds the pieces. -/
def lockPieces (w : Bool) (uid : Nat) : Nat → Window → Nat → List Lock
  | 0, _, _ => []
  | m + 1, .lm c off, n =>
    if off + n ≤ 2 ^ 18 then [{ space := .lm c, lo := off, hi := off + n, w := w, uid := uid }]
    else { space := .lm c, lo := off, hi := 2 ^ 18, w := w, uid := uid } :: lockPieces w uid m (.lm (c + 1) 0) (off + n - 2 ^ 18)
  | m + 1, .pantry h off, n =>
    if off + n ≤ 2 ^ 26 then [{ space := .pantry h, lo := off, hi := off + n, w := w, uid := uid }]
    else { space := .pantry h, lo := off, hi := 2 ^ 26, w := w, uid := uid } :: lockPieces w uid m (.pantry (h + 1) 0) (off + n - 2 ^ 26)
  | _ + 1, .global va, n => [{ space := .global, lo := va, hi := va + n, w := w, uid := uid }]

/-- The locks of a range of addresses. -/
def State.rangeLocks (s : State) (part core lo n : Nat) (w : Bool) (uid : Nat) : List Lock :=
  match s.window part core (BitVec.ofNat 64 lo) with
  | some x => lockPieces w uid 17 x n
  | none => []

/-- A lock of a range that has shrunk to start at a window position. -/
def shrinkTo (l : Lock) (x : Window) : Nat × Nat :=
  match l.space, x with
  | .lm c, .lm c' off => if c < c' then (0, 0) else if c = c' then (max l.lo off, l.hi) else (l.lo, l.hi)
  | .pantry h, .pantry h' off => if h < h' then (0, 0) else if h = h' then (max l.lo off, l.hi) else (l.lo, l.hi)
  | .global, .global va => (max l.lo va, l.hi)
  | _, _ => (l.lo, l.hi)

/-- The bounding range of the rows of an `xstr`: first address and bytes. -/
def bounding (base : Word) (stride : Int) (rows len : Nat) : Nat × Nat :=
  let far : Int := (rows - 1 : Nat) * stride
  (vaPlus base (min 0 far), far.natAbs + len)

/-- The ranges of a command on the issuing core: address, bytes, W (R212). -/
def xranges (f : XForm) (r : CopyRegs) (idx : Word) : List (Nat × Nat × Bool) :=
  match f with
  | .copy => [(r.xsrc.toNat, r.len, false), (r.xdst.toNat, r.len, true)]
  | .str =>
    let a := bounding r.xsrc r.sstr r.rows r.len
    let b := bounding r.xdst r.dstr r.rows r.len
    [(a.1, a.2, false), (b.1, b.2, true)]
  | .gat => [(idx.toNat, 4 * r.rows, false), (r.xdst.toNat, r.rows * 2 ^ r.esz, true)]
  | .mc => [(r.xsrc.toNat, r.len, false)]
  | .out => [(r.xdst.toNat, r.len, true)]

/-- Step 1 of R233: the first failing value. -/
def State.xshape (s : State) (t : Thread) (f : XForm) (r : CopyRegs) : Option Word :=
  let al := if f = .gat ∧ (r.esz = 2 ∨ r.esz = 3) then 2 ^ r.esz else 4
  let own := match s.window t.part (coreOf s.cur) r.xdst with
    | some (.lm c _) => c == coreOf s.cur
    | _ => false
  if f ≠ .out ∧ r.xsrc.toNat % al ≠ 0 then some r.xsrc
  else if r.xdst.toNat % al ≠ 0 ∨ (f = .mc ∧ own = false) then some r.xdst
  else if r.len % 4 ≠ 0 ∨ r.len < 4 then some r.xlen
  else if f = .str ∧ (r.sstr % 4 ≠ 0 ∨ r.dstr % 4 ≠ 0) then some r.xstride
  else if (f = .str ∨ f = .gat) ∧ (r.rows = 0 ∨ (f = .gat ∧ r.esz ≠ 2 ∧ r.esz ≠ 3)) then some r.xdim
  else if f = .mc ∧ r.cores.isEmpty = true then some r.xmask
  else none

/-- Step 2 of R233 for the ranges of a command. -/
def State.xrangesOk (s : State) (t : Thread) (f : XForm) (r : CopyRegs) (idx : Word) : Except Word Unit :=
  let core := coreOf s.cur
  let idxOk : Except Word Unit :=
    if f ≠ .gat ∨ (s.ownLm t.part core idx (4 * r.rows) 4).isSome = true then .ok ()
    else if (s.ownLm t.part core idx 4 4).isNone = true then .error idx
    else .error (idx + BitVec.ofNat 64 (4 * r.rows - 1))
  let dstOk : Except Word Unit :=
    if f = .mc ∧ 2 ^ 18 < bits r.xdst 0 18 + r.len then .error (BitVec.ofNat 64 (r.xdst.toNat + r.len - 1)) else .ok ()
  ((xranges f r idx).foldl (fun (acc : Except Word Unit) (x : Nat × Nat × Bool) =>
    match acc with
    | .error a => .error a
    | .ok _ => s.rangeOk t.part core t.priv x.1 x.2.1 (!x.2.2)) idxOk).bind fun _ => dstOk

/-! ### The end of a transfer (R226, R228, R236, R238, R239) -/

/-- Replaces a channel of a core. -/
def State.modChan (s : State) (core ch : Nat) (f : Channel → Channel) : State :=
  s.modCore core fun c => { c with chans := setAt c.chans ch (f (c.chans.getD ch {})) }

/-- A channel of a core. -/
def State.chan (s : State) (core ch : Nat) : Channel := (s.core core).chans.getD ch {}

/-- The channel holds a transfer that can still advance: queued, running or paused (R238). -/
def State.chanActive (s : State) (core ch : Nat) : Bool :=
  (s.chan core ch).cur.isSome || (s.core core).xq.any fun x => x.ch == ch

/-- Threads in `xwp` whose condition holds go on (R238). -/
def State.wakeXwp (s : State) (core ch : Nat) : State :=
  let w := (s.chan core ch).xwp
  (s.onCore core).foldl (fun s p =>
    match p.2.block with
    | .xwp c ptr d =>
      if c = ch ∧ (ptr.ule w = true ∨ s.chanActive core ch = false) then s.complete p.1 0 fun t => t.wr d w else s
    | _ => s) s

/-- Threads in `xwait` or `xkill` of a transfer that has ended go on (R239). -/
def State.wakeXwait (s : State) (core ch seq code : Nat) : State :=
  (s.onCore core).foldl (fun s p =>
    match p.2.block with
    | .xwait c q d => if c = ch ∧ q = seq then s.complete p.1 0 fun t => t.wr d (BitVec.ofNat 64 code) else s
    | _ => s) s

/-- A copy of a core's channel arrives at a barrier of a core in this cc (R241). -/
def State.copyArrive (s : State) (core ch target b : Nat) (poison : Bool) : State := s.noteArrival (copyOrder core ch) target b poison

/-- A transfer ends with a status and an R111 reason: status recorded, ranges released, arrival and COPYDONE (R228), the crumb
charge of a `cout` (R328), its retirement (R226), waits answered. The root of a `cout` loses its reference (R334). DESIGN CHOICE: the
8 most recent transfers of R227 are the last 8 that have ended; those not ended are named beside them (log 69). DESIGN CHOICE: a meter that this
leaves without work is freed at the end itself, before the check of R226 at the end of the cc (log 111). -/
def State.endXfer (s : State) (core : Nat) (x : Xfer) (status reason : Nat) : State :=
  let s := s.modCore core fun c => { c with xq := c.xq.filter fun y => y.uid != x.uid }
  let s := s.modChan core x.ch fun k =>
    { k with cur := k.cur.bind fun y => if y.uid = x.uid then none else some y,
             hist := ((x.seq, status + 16 * reason) :: k.hist).take 8 }
  let s := x.recv.foldl (fun s r => s.freeLocks r.core x.uid) (s.freeLocks core x.uid)
  let s := if x.form = .out ∧ x.root ≠ 0 then s.unitDrop x.part x.root else s
  let s := if bits x.cw 6 1 = 1 ∧ (x.form ≠ .mc ∨ status ≠ 0) then s.copyArrive core x.ch core (bits x.cw 0 6) (status != 0) else s
  let id := BitVec.ofNat 64 (x.seq * 4 + x.ch)
  let s := if bits x.cw 7 1 = 1 then s.modThread x.tid fun t => { t with pend := t.pend ++ [.copydone id x.regs.xhnd] } else s
  let s := if x.form = .out then s.charge core x.owner x.priv 7 1 else s
  let s := s.noteRetired core x.owner x.priv x.tid
  ((s.wakeXwait core x.ch x.seq (status + 16 * reason)).wakeXwp core x.ch).sweepMeters core

/-! ### Issue (R216, R224, R227, R233, R246) -/

/-- The completion word names barrier 63 (R246). -/
def names63 (f : XForm) (cw : Word) : Bool :=
  (bits cw 6 1 == 1 && bits cw 0 6 == 63) || (f == .mc && bits cw 14 1 == 1 && bits cw 8 6 == 63)

/-- The receivers' W ranges of an `xmc`: the core and its lock. -/
def mcLocks (me : Nat) (r : CopyRegs) (uid : Nat) : List (Nat × Lock) :=
  r.cores.map fun k =>
    let c := 16 * clusterOf me + k
    (c, { space := .lm c, lo := bits r.xdst 0 18, hi := bits r.xdst 0 18 + r.len, w := true, uid := uid, rng := 2 })

/-- The locks of the ranges of a command on its core, the pieces of one range with its number. -/
def State.xlocks (s : State) (part core : Nat) (f : XForm) (r : CopyRegs) (idx : Word) : List Lock :=
  let rs := xranges f r idx
  (rs.zip (numsFrom 0 rs.length)).flatMap fun q =>
    (s.rangeLocks part core q.1.1 q.1.2.1 q.1.2.2 s.uid).map fun l => { l with rng := q.2 }

/-- The place of a receiver's range among those registered in one cc: with the command's own on its core, else by source core and
channel after every other (R214). -/
def mcOrd (me ch recv : Nat) : Nat := if recv = me then 0 else 32 + 4 * me + ch

/-- Issue of a command of the copy engine: checks, ranges, transfer ID, queue. -/
def State.copyForm (s : State) (f : XForm) (ins : Instr) (ra rd : GReg) (ch : Chan) (idx : Word) (root : Nat) : Out :=
  s.onThread fun t =>
    let me := coreOf s.cur
    let cw := t.rd ra
    let r := t.cp
    if t.priv = 0 ∧ names63 f cw = true then s.priv t
    else
      match s.xshape t f r with
      | some v => s.addr t v
      | none =>
        match s.xrangesOk t f r idx with
        | .error a => s.addr t a
        | .ok _ =>
          let locks := s.xlocks t.part me f r idx
          let far := if f = .mc then mcLocks me r s.uid else []
          let need := fun (c : Nat) => (far.filter fun p => p.1 == c).length + if c = me then lockEntries locks else 0
          let full := (me :: far.map Prod.fst).any fun c => decide (32 < (s.core c).lockCount + need c)
          if 2 ≤ (s.core me).xq.length ∨ full = true then s.bubble
          else
            let seq := (s.chan me ch.val).nextSeq
            let x : Xfer :=
              { ins := ins, uid := s.uid, ch := ch.val, seq := seq, tid := s.cur, owner := t.owner, part := t.part, sec := t.sec,
                priv := t.priv, regs := r, cw := cw, idx := idx, root := root, recv := far.map fun p => { core := p.1 } }
            let s := far.foldl (fun s p => s.addLocks p.1 (mcOrd me ch.val p.1) [p.2]) (s.addLocks me 0 locks)
            let s := s.modChan me ch.val fun k => { k with nextSeq := if seq = 2 ^ 30 - 1 then 1 else seq + 1 }
            let s := (s.modCore me fun c => { c with xq := c.xq ++ [x] }).nextUid
            .next (s.setThread s.cur
              { (t.wr rd (BitVec.ofNat 64 (seq * 4 + ch.val))).issued with
                pc := t.pc + 4, block := .none, walkRes := none, noMig := false })

/-- xset (R232): it blocks as a load of the own LM does. -/
def execXset (ra : GReg) (s : State) : Out :=
  s.onThread fun t =>
    s.lmAccess t (t.rd ra) 56 8 false fun s off =>
      let m := s.mem (.lm (coreOf s.cur))
      let w := fun k => BitVec.ofNat 64 (m.read (off + 8 * k) 8)
      let regs : CopyRegs :=
        { xsrc := w 0, xdst := w 1, xlen := w 2 &&& 0xFFFFFFFF, xstride := w 3, xdim := w 4 &&& 0xFFFFF, xhnd := w 5,
          xmask := w 6 &&& 0xFFFF }
      s.loadHere { t with cp := regs } []

/-- xcopy (R234). -/
def execXcopy (ra rd : GReg) (c : Chan) (s : State) : Out := s.copyForm .copy (.xcopy ra rd c) ra rd c 0 0
/-- xstr (R234). -/
def execXstr (ra rd : GReg) (c : Chan) (s : State) : Out := s.copyForm .str (.xstr ra rd c) ra rd c 0 0
/-- xgat (R234). -/
def execXgat (ra rb rd : GReg) (c : Chan) (s : State) : Out :=
  s.onThread fun t => s.copyForm .gat (.xgat ra rb rd c) ra rd c (t.rd rb) 0
/-- xmc (R235). -/
def execXmc (ra rd : GReg) (c : Chan) (s : State) : Out := s.copyForm .mc (.xmc ra rd c) ra rd c 0 0
/-- cout (R334): the root is a name in a register pair. -/
def execCout (ra rb rd : GReg) (c : Chan) (s : State) : Out :=
  s.onThread fun t => s.copyForm .out (.cout ra rb rd c) ra rd c 0 (t.pair rb)

/-! ### Dispatch (R224, R334) -/

/-- A transfer takes its channel: XWP := XDST, which may satisfy an `xwp`; its first beat comes in a later cc. -/
def State.startXfer (s : State) (core : Nat) (x : Xfer) : State :=
  let x := { x with entered := s.cc, at_ := s.time }
  (s.modChan core x.ch fun k => { k with cur := some x, xwp := x.regs.xdst }).wakeXwp core x.ch

/-- A `cout` takes its reference at dispatch, or ends with FAULT when its root has no LIVE entry (R334). -/
def State.startOut (s : State) (core : Nat) (x : Xfer) : State :=
  let refuse := fun (status : Nat) => (s.startXfer core { x with root := 0 }).endXfer core { x with root := 0 } status 0
  if (s.store x.part).en = false then refuse 1
  else if (s.core ((s.store x.part).homeOf x.root)).lost then refuse 2
  else if ((s.store x.part).liveEntry x.root).isNone then refuse 1
  else
    let leaves := s.leafSlots x.part 8 x.root
    let more := if leaves.2.isSome then 1 else 0
    let x := { x with leaves := leaves.1, leafFail := leaves.2, total := min x.regs.len (256 * (leaves.1.length + more)) }
    let s := (s.crumbRef x.part x.root).1.startXfer core x
    if x.total = 0 then s.endXfer core x 0 0 else s

/-- COPY_DISPATCH (R224): the oldest entry whose channel is idle. A `cout` waits while its root's home is frozen (R307). DESIGN CHOICE (log
110): a command that issues on an idle channel in a cc in which an older entry can go too waits for a later cc: R224 has one dispatch in a
cc, and has such a command dispatched in the cc of its issue. -/
def execCopyDispatch (core : Nat) (s : State) : Out :=
  match (s.core core).xq.find? fun x => (s.chan core x.ch).cur.isNone with
  | none => .next s
  | some x =>
    if x.form = .out ∧ (s.homeFrozen x.part [x.root]).isSome = true then .next s
    else
      let s := s.modCore core fun c => { c with xq := c.xq.filter fun y => y.uid != x.uid }
      .next (if x.form = .out then s.startOut core x else s.startXfer core x)

/-! ### Beats (R225, R226, R229) -/

/-- Where a byte of a transfer lies, or the status and reason with which the transfer fails there (R229); status 0 where
the access is held for a frozen home (R307). -/
def State.xloc (s : State) (core : Nat) (x : Xfer) (va : Nat) (k : AccessKind) : Except (Nat × Nat) Loc :=
  match s.window x.part core (BitVec.ofNat 64 va) with
  | none => .error (1, 0)
  | some (.lm c off) => if (s.core c).lost then .error (2, 0) else .ok ⟨.lm c, off⟩
  | some (.pantry h off) =>
    if x.form = .gat ∧ k = .load ∧ x.priv = 0 ∧ s.closed x.part h off true = true then .error (1, 0) else .ok ⟨.share x.part h, off⟩
  | some (.global a) =>
    match s.translateNow core x.part x.sec k a with
    | .error r => .error (1, r)
    | .ok e =>
      if e.leaf.cls = 0 ∧ (s.core e.leaf.home).frozen = true then .error (0, 0)
      else if e.leaf.cls = 0 ∧ (s.core e.leaf.home).lost = true then .error (2, 0)
      else if e.leaf.exists_ (a - e.base) then .ok ⟨.phys e.leaf.tier, e.leaf.pa + (a - e.base)⟩
      else .error (2, 0)

/-- Source of the byte in place i: a crumb's slot for `cout`, which fails where a node of the tree could not be read. -/
def State.xfrom (s : State) (core : Nat) (x : Xfer) (i : Nat) : Except (Nat × Nat) Loc :=
  match x.form with
  | .out =>
    match x.leaves[i / 256]? with
    | none => .error (1, x.leafFail.getD 1)
    | some slot =>
      match s.slotAt x.part slot with
      | .ok l => .ok ⟨l.space, l.off + i % 256⟩
      | .error r => .error (1, r)
  | _ => s.xloc core x (s.xsrcAt core x (x.at i)) .load

/-- Destination of the byte in place i, for an `xmc` at a receiver. -/
def State.xto (s : State) (core : Nat) (x : Xfer) (recv : Option Nat) (i : Nat) : Except (Nat × Nat) Loc :=
  match recv with
  | some c => if (s.core c).lost then .error (2, 0) else .ok ⟨.lm c, bits x.regs.xdst 0 18 + i⟩
  | none => s.xloc core x (x.dst (x.at i)) .store

/-- Work of another core holds a location: its core is frozen, or a range of its table meets the access (R213, R307). At a receiver of
an `xmc` the transfer has its own range, which waits for those registered earlier and for no other. -/
def State.locHeld (s : State) (core : Nat) (x : Xfer) (recv : Option Nat) (l : Loc) (write : Bool) : Bool :=
  match l.space with
  | .lm c => c != core && ((s.core c).frozen || (!(recv == some c && write) &&
      (s.core c).locks.any fun k => k.uid != x.uid && k.meets s.cc (.lm c) l.off (l.off + 4) write))
  | _ => false

/-- An LM line of the location is poisoned (R307). -/
def State.locPoisoned (s : State) (l : Loc) : Bool :=
  match l.space with
  | .lm c => s.isPoisoned c l.off
  | _ => false

/-- The whole 64-byte line of an LM location loses its poison mark. -/
def State.clearLine (s : State) (l : Loc) : State :=
  match l.space with
  | .lm c => s.modCore c fun k => { k with poisoned := k.poisoned.filter fun p => p != l.off / 64 }
  | _ => s

/-- The next place to grant, and the receiver it is for: the receiver with the lowest pointer first. A transfer that stops starts no
granule, but finishes those in progress; the granule that has failed gets no further beat. -/
def Xfer.nextByte (x : Xfer) (stop : Bool) : Option (Option Nat × Nat) :=
  let may := fun (i : Nat) => decide (i < x.bytes) && !(stop && x.granStart i)
  match x.form with
  | .mc =>
    (x.recv.foldl (fun (acc : Option Receiver) r =>
      if !may r.moved || x.failRecv == some r.core then acc else match acc with
        | some a => if r.moved < a.moved then some r else some a
        | none => some r) none).map fun r => (some r.core, r.moved)
  | _ => if may x.moved && x.fail.isNone then some (none, x.moved) else none

/-- The transfer may start no new granule: suspended, held by a debugger, failed, or to be killed (R226, R406, R229, R239). -/
def State.xpaused (s : State) (core : Nat) (x : Xfer) : Bool :=
  x.kill || x.fail.isSome || s.workShed core x.owner x.tid x.priv == 1 || (s.core core).held

/-- A word of a transfer lies in the LM of the core. -/
def ownWord (core : Nat) (r : Except (Nat × Nat) Loc) : Bool :=
  match r with
  | .ok l => l.space == .lm core
  | .error _ => false

/-- All words of [i, j) are read in the own LM. -/
def State.ownSource (s : State) (core : Nat) (x : Xfer) (i j : Nat) : Bool :=
  (numsFrom 0 ((j - i) / 4)).all fun n => ownWord core (s.xfrom core x (i + 4 * n))

/-- The word n words after one at a location is read in one access with it: both lie in the own LM; else they are one element of an
`xgat`, and of another form adjoining words of one 64-byte line. DESIGN CHOICE: the spec gives no size of the accesses with which the
engine reads another place (log 114). -/
def State.sameRead (s : State) (core : Nat) (x : Xfer) (i : Nat) (l : Loc) (n : Nat) : Bool :=
  match s.xfrom core x (i + 4 * n) with
  | .error _ => n == 0
  | .ok m =>
    if l.space = .lm core then m.space == .lm core
    else m.space == l.space && m.off == l.off + 4 * n && m.off / 64 == l.off / 64 &&
      (x.form != .gat || (i + 4 * n) / 2 ^ x.regs.esz == i / 2 ^ x.regs.esz)

/-- The end of the access that reads a beat's words from place i on; the beat ends at j. -/
def State.readEnd (s : State) (core : Nat) (x : Xfer) (i j : Nat) : Nat :=
  match s.xfrom core x i with
  | .ok l => i + 4 * ((numsFrom 0 ((j - i) / 4)).takeWhile fun n => s.sameRead core x i l n).length
  | .error _ => j

/-- The end of the beat from place i on: up to 64 bytes within one granule (R225). -/
def Xfer.beatEnd (x : Xfer) (i : Nat) : Nat := min (x.granEnd i) (i + 64)

/-- Words that have come for the beat from place i on. -/
def Xfer.come (x : Xfer) (recv : Option Nat) (i : Nat) : Option Flight :=
  x.flights.find? fun f => !f.granted && f.recv == recv && f.place == i

/-- The place up to which the words of the beat from place i on have come. -/
def Xfer.readTo (x : Xfer) (recv : Option Nat) (i : Nat) : Nat :=
  match x.come recv i with
  | some f => i + 4 * f.words.length
  | none => i

/-- The beat from place i on can be granted as far as its data goes: its words have come, or all lie in the own LM. -/
def State.dataHere (s : State) (core : Nat) (x : Xfer) (recv : Option Nat) (i : Nat) : Bool :=
  x.readTo recv i == x.beatEnd i || ((x.come recv i).isNone && s.ownSource core x i (x.beatEnd i))

/-- A granted beat that is still to be written goes to a location: the source of an `xcopy` that overlaps its destination is read after
it (R234). -/
def Xfer.pending (x : Xfer) (l : Loc) : Bool :=
  x.form == .copy && x.flights.any fun f => f.granted && f.words.any fun w => w.1 == l

/-- What a channel does next for the beat from place i on is held at its place (R213, R234, R307): an access that reads, or the beat. -/
def State.beatHeld (s : State) (core : Nat) (x : Xfer) (recv : Option Nat) (i : Nat) : Bool :=
  let held := fun (r : Except (Nat × Nat) Loc) (write : Bool) =>
    match r with
    | .ok l => s.locHeld core x recv l write || (!write && x.pending l)
    | .error (0, _) => true
    | .error _ => false
  let j := x.beatEnd i
  let k := x.readTo recv i
  ((numsFrom 0 ((s.readEnd core x k j - k) / 4)).any fun n => held (s.xfrom core x (k + 4 * n)) false) ||
    (s.dataHere core x recv i && (numsFrom 0 ((j - i) / 4)).any fun n => held (s.xto core x recv (i + 4 * n)) true)

/-- A channel has a beat to grant in this cc, or reads what one is to move. -/
def State.beatReady (s : State) (core ch : Nat) : Bool :=
  let c := s.core core
  match (s.chan core ch).cur with
  | none => false
  | some x =>
    match x.nextByte (s.xpaused core x) with
    | none => false
    | some (recv, i) =>
      !c.frozen && !c.lost && x.entered != s.cc &&
      (s.workShed core x.owner x.tid x.priv != 2 || decide ((s.cc - c.base) % 16 < (s.owner x.owner).xbw)) &&
      !s.mustWait core x.uid && !(x.recv.any fun r => s.mustWait r.core x.uid) && !s.beatHeld core x recv i

/-- The order in which round robin offers the channels a beat (R225). -/
def Core.robin (c : Core) : List Nat := (numsFrom 1 4).map fun k => (c.lastCh + k) % 4

/-- A line that an access of 4 bytes at a location touches has an uncorrectable error (R119, R229). -/
def State.erroneous (s : State) (l : Loc) : Bool := s.errors.any fun e => e.space == l.space && e.off / 64 == l.off / 64

/-- The first failure among the words of [i, j) of a transfer; at the start of a granule also a poisoned line of the
destination that the granule does not cover whole. -/
def State.xcheck (s : State) (core : Nat) (x : Xfer) (recv : Option Nat) (i j : Nat) (start : Bool) : Option (Nat × Nat) :=
  (numsFrom 0 ((j - i) / 4)).findSome? fun n =>
    let k := i + 4 * n
    match s.xfrom core x k, s.xto core x recv k with
    | .error (0, _), _ => none
    | _, .error (0, _) => none
    | .error e, _ => some e
    | _, .error e => some e
    | .ok a, .ok b =>
      if s.locPoisoned a || s.erroneous a || s.erroneous b then some (2, 0)
      else if start && s.locPoisoned b && !(decide (i + b.off % 64 ≤ k) && decide (k + 64 ≤ j + b.off % 64)) then some (2, 0)
      else none

/-- Writes words of a beat, each of which takes its line's poison mark away where it starts the line. -/
def State.writeWords (s : State) (ws : List (Loc × Nat)) : State :=
  ws.foldl (fun s w => (if w.1.off % 64 = 0 then s.clearLine w.1 else s).writeLoc w.1 4 w.2) s

/-- Raises the signal of an LM's access for the LMs of a list of locations (R409). -/
def State.sigLms (s : State) (l : List Loc) : State :=
  ((l.filterMap fun x => match x.space with
    | .lm c => some c
    | _ => none).eraseDups).foldl (fun s c => s.sig c 31) s

/-- A beat is written whole (R133): waiters look at the bytes once all of them stand there. -/
def State.landWords (s : State) (ws : List (Loc × Nat)) : State :=
  let s' := ({ s with waiters := [] } : State).writeWords ws
  ws.foldl (fun s w => s.fire w.1 4) (({ s' with waiters := s.waiters } : State).sigLms (ws.map Prod.fst))

/-- The words of [i, j), read before any of them is written, each with where it goes. -/
def State.readWords (s : State) (core : Nat) (x : Xfer) (recv : Option Nat) (i j : Nat) : List (Loc × Nat) :=
  (numsFrom 0 ((j - i) / 4)).filterMap fun n =>
    match s.xfrom core x (i + 4 * n), s.xto core x recv (i + 4 * n) with
    | .ok a, .ok b => some (b, s.readLoc a 4)
    | _, _ => none

/-- Where the words of [i, j) are read. -/
def State.sources (s : State) (core : Nat) (x : Xfer) (i j : Nat) : List Loc :=
  (numsFrom 0 ((j - i) / 4)).filterMap fun n => (s.xfrom core x (i + 4 * n)).toOption

/-- The words of a failing granule are written or not, byte by byte (R229): free values decide. -/
def State.failWords (s : State) (ws : List (Loc × Nat)) : State :=
  let put := fun (s : State) (w : Loc × Nat) =>
    let s' := if s.locPoisoned w.1 then s
      else (numsFrom 0 4).foldl (fun s k =>
        if Config.byteWritten (s.fresh + k) then s.writeLoc ⟨w.1.space, w.1.off + k⟩ 1 (w.2 / 256 ^ k) else s) s
    { s' with fresh := s'.fresh + 4 }
  ws.foldl put s

/-- The place that a transfer has been granted beats to, for an `xmc` at a receiver. -/
def Xfer.grantedTo (x : Xfer) (recv : Option Nat) : Nat :=
  match recv with
  | some c => ((x.recv.find? fun r => r.core == c).map Receiver.moved).getD 0
  | none => x.moved

/-- The granule that a transfer stops at, failing (R229): what no beat has moved yet is written or not. -/
def State.failGranule (s : State) (core : Nat) (x : Xfer) (recv : Option Nat) : State :=
  let i := x.grantedTo recv
  s.failWords (s.readWords core x recv i (x.granEnd i))

/-- Counts n granted bytes of a transfer. -/
def Xfer.grant (x : Xfer) (recv : Option Nat) (n : Nat) : Xfer :=
  { x with
    moved := x.moved + n
    recv := x.recv.map fun r => if recv = some r.core then { r with moved := r.moved + n } else r }

/-- The engine grants a channel the beat of a cc. -/
def State.grantBeat (s : State) (core ch : Nat) : State := s.modCore core fun c => { c with lastCh := ch, xrun := some s.cc }

/-- Replaces the running transfer of a channel, whose latest beat, granule or answer is of now. -/
def State.putXfer (s : State) (core : Nat) (x : Xfer) : State := s.modChan core x.ch fun k => { k with cur := some { x with at_ := s.time } }

/-- The home of a word's destination, with the first address and the size of its page (R113). -/
def State.xhome (s : State) (core : Nat) (x : Xfer) (recv : Option Nat) (i : Nat) : Option (Nat × Nat × Nat) :=
  match recv, s.window x.part core (BitVec.ofNat 64 (x.dst (x.at i))) with
  | none, some (.global a) => match s.translateNow core x.part x.sec .store a with
    | .ok e => if e.leaf.cls = 0 then some (e.leaf.home, e.base, e.leaf.size) else none
    | .error _ => none
  | _, _ => none

/-- A transfer meets a failure at the granule of its next beat, of which nothing further is read. -/
def State.failAt (s : State) (core : Nat) (x : Xfer) (recv : Option Nat) (e : Nat × Nat) : State :=
  s.modChan core x.ch fun k =>
    { k with cur := some { x with flights := x.flights.filter Flight.granted, fail := some e, failRecv := recv } }

/-- A beat of words is granted (R225): to the own LM they are written at once, and to another place they are on their way. -/
def State.moveWords (s : State) (core : Nat) (x : Xfer) (recv : Option Nat) (i : Nat) (ws : List (Loc × Nat)) : State :=
  let x := { x with flights := x.flights.filter fun f => f.granted || f.recv != recv || f.place != i }
  let x := x.grant recv (4 * ws.length)
  if ownWord core (s.xto core x recv i) then ((s.landWords ws).putXfer core x).grantBeat core x.ch
  else
    (s.putXfer core { x with flights := x.flights ++ [{ recv := recv, place := i, words := ws, granted := true, home := s.xhome core x recv i }] }).grantBeat
      core x.ch

/-- Words go to where their places now lie. -/
def State.retarget (s : State) (core : Nat) (x : Xfer) (recv : Option Nat) (i : Nat) (ws : List (Loc × Nat)) : List (Loc × Nat) :=
  (ws.zip (numsFrom 0 ws.length)).map fun q => match s.xto core x recv (i + 4 * q.2) with
    | .ok l => (l, q.1.2)
    | .error _ => q.1

/-- One access reads words of the beat from place i on (R136): they are kept until all of it have come. -/
def State.readBeat (s : State) (core : Nat) (x : Xfer) (recv : Option Nat) (i : Nat) : State :=
  let k := x.readTo recv i
  let e := s.readEnd core x k (x.beatEnd i)
  let old := match x.come recv i with
    | some f => f.words
    | none => []
  let f : Flight := { recv := recv, place := i, words := old ++ s.readWords core x recv k e, granted := false }
  (s.sigLms (s.sources core x k e)).putXfer core
    { x with flights := (x.flights.filter fun f => f.granted || f.recv != recv || f.place != i) ++ [f] }

/-- One step of the beat from place i on: up to 64 bytes within one granule, read before they are written. What lies in the own LM is
read in the beat itself; what lies elsewhere is read first, one access after another, and moves in a beat once all of it has come. -/
def State.beat (s : State) (core : Nat) (x : Xfer) (recv : Option Nat) (i : Nat) : State :=
  let j := x.beatEnd i
  let k := x.readTo recv i
  let first := k == i && x.granStart i
  match s.xcheck core x recv (if k = j then i else k) (if first then x.granEnd i else j) first with
  | some e => s.failAt core x recv e
  | none =>
    match x.come recv i with
    | some f => if k = j then s.moveWords core x recv i (s.retarget core x recv i f.words) else s.readBeat core x recv i
    | none =>
      if s.ownSource core x i j then (s.sigLms (s.sources core x i j)).moveWords core x recv i (s.readWords core x recv i j)
      else s.readBeat core x recv i

/-- COPY_BEAT (R225): a channel that has data ready moves its beat, if no other has been granted one in this cc, or reads what a beat
is to move. -/
def execCopyBeat (core ch : Nat) (s : State) : Out :=
  match s.beatReady core ch, (s.chan core ch).cur with
  | true, some x =>
    match x.nextByte (s.xpaused core x) with
    | some (recv, i) =>
      if (s.core core).xrun != some s.cc || !s.dataHere core x recv i then .next (s.beat core x recv i) else .next s
    | none => .next s
  | _, _ => .next s

/-! ### Granules (R225, R226, R235) -/

/-- The owner is charged for a granule of b bytes (R226). -/
def State.chargeGranule (s : State) (core : Nat) (x : Xfer) (b : Nat) : State := s.charge core x.owner x.priv 6 ((b + 31) / 32)

/-- The end of the first granule after comp whose beats are all granted. -/
def Xfer.doneTo (x : Xfer) (comp moved : Nat) : Option Nat :=
  if comp < moved ∧ x.granEnd comp ≤ moved then some (x.granEnd comp) else none

/-- The write pointer of a transfer whose bytes below n are complete (R225). -/
def Xfer.pointer (x : Xfer) (n : Nat) : Word :=
  match x.form with
  | .str | .gat =>
    if n = x.bytes then
      if x.form = .str then BitVec.ofNat 64 (let b := bounding x.regs.xdst x.regs.dstr x.regs.rows x.regs.len; b.1 + b.2)
      else x.regs.xdst + BitVec.ofNat 64 n
    else x.regs.xdst
  | _ => x.regs.xdst + BitVec.ofNat 64 n

/-- Source and destination locks shrink behind the pointer (R225, R235). -/
def State.shrink (s : State) (core : Nat) (x : Xfer) (n : Nat) : State :=
  let src := s.window x.part core (x.regs.xsrc + BitVec.ofNat 64 n)
  let dst := s.window x.part core (x.regs.xdst + BitVec.ofNat 64 n)
  match x.form with
  | .str | .gat => s
  | f =>
    s.moveLocks core x.uid fun l =>
      match l.w, f, src, dst with
      | true, .mc, _, _ => (l.lo, l.hi)
      | true, _, _, some w => shrinkTo l w
      | false, _, some w, _ => shrinkTo l w
      | _, _, _, _ => (l.lo, l.hi)

/-- The lowest receiver pointer. -/
def Xfer.lowest (x : Xfer) : Nat := x.recv.foldl (fun n r => min n r.comp) x.bytes

/-- One granule of a transfer that is not an `xmc` is complete. -/
def State.granuleDone (s : State) (core : Nat) (x : Xfer) (g : Nat) : State :=
  let s := s.chargeGranule core x (x.granBytes x.comp g)
  let x := { x with comp := g, at_ := s.time }
  let s := (s.modChan core x.ch fun k => { k with cur := some x, xwp := x.pointer g }).shrink core x g
  if x.kill ∧ x.moved = g then s.endXfer core x 3 0
  else if g = x.bytes then s.endXfer core x 0 0
  else s.wakeXwp core x.ch

/-- One granule of an `xmc` at a receiver is complete (R235). -/
def State.granuleDoneMc (s : State) (core : Nat) (x : Xfer) (r : Receiver) (g : Nat) : State :=
  let s := s.chargeGranule core x (g - r.comp)
  let x := { x with at_ := s.time, comp := x.comp + (g - r.comp), recv := x.recv.map fun y => if y.core = r.core then { y with comp := g } else y }
  let s := (s.modChan core x.ch fun k => { k with cur := some x, xwp := x.pointer x.lowest }).shrink core x x.lowest
  let s :=
    if g = x.bytes then
      let s := s.moveLocks r.core x.uid fun l => if l.w then (0, 0) else (l.lo, l.hi)
      if bits x.cw 14 1 = 1 then s.copyArrive core x.ch r.core (bits x.cw 8 6) false else s
    else s
  if x.kill ∧ x.moved = x.comp then s.endXfer core x 3 0
  else if x.recv.all fun y => y.comp == x.bytes then s.endXfer core x 0 0
  else s.wakeXwp core x.ch

/-- The place whose granule is the next to complete, for an `xmc` at a receiver. -/
def Xfer.doneUpTo (x : Xfer) (recv : Option Nat) : Nat :=
  match recv with
  | some c => ((x.recv.find? fun r => r.core == c).map Receiver.comp).getD 0
  | none => x.comp

/-- The next words of a transfer to come to another place: those of a later granule come once every one below it is complete (R229). -/
def Xfer.landing (x : Xfer) : Option Flight :=
  x.flights.find? fun f => f.granted && decide (f.place < x.granEnd (x.doneUpTo f.recv))

/-- The first granule after comp whose beats are all granted and have come to their destination. -/
def Xfer.doneAt (x : Xfer) (recv : Option Nat) (comp moved : Nat) : Option Nat :=
  if x.flights.any fun f => f.granted && f.recv == recv && decide (f.place < x.granEnd comp) then none else x.doneTo comp moved

/-- A transfer that has met a failure ends once no granule in progress has a beat or a completion to come (R229). -/
def State.failXfer (s : State) (core : Nat) (x : Xfer) : State :=
  match x.fail with
  | some (st, reason) =>
    if (x.nextByte true).isNone then (s.failGranule core x x.failRecv).endXfer core x st reason else s
  | none => s

/-- A location is the LM of a core that is lost, or of one that is frozen (R307). -/
def State.lmState (s : State) (l : Loc) (f : Core → Bool) : Bool :=
  match l.space with
  | .lm c => f (s.core c)
  | _ => false

/-- The place that a beat goes to answers with a property of its core: the LM's, or the page's home. -/
def State.flightCore (s : State) (f : Flight) (p : Core → Bool) : Bool :=
  (f.words.any fun w => s.lmState w.1 p) || match f.home with
    | some h => p (s.core h.1)
    | none => false

/-- The place that a beat goes to is frozen: it is slow to answer, and no unreachable target (R307). -/
def State.flightFrozen (s : State) (f : Flight) : Bool := s.flightCore f Core.frozen

/-- Something at its place holds a beat on its way (R213, R307). -/
def State.flightHeld (s : State) (core : Nat) (x : Xfer) (f : Flight) : Bool :=
  s.flightFrozen f || f.words.any fun w => s.locHeld core x f.recv w.1 true

/-- A transfer ends with ERROR at the granule in progress, of an `xmc` at a receiver (R229): what of it has not been written is written or
not, byte by byte, and later granules are untouched. -/
def State.stopGranule (s : State) (core : Nat) (x : Xfer) (recv : Option Nat) : State :=
  let g := x.granEnd (x.doneUpTo recv)
  let flying := (x.flights.filter fun f => f.recv == recv && f.granted && decide (f.place < g)).flatMap Flight.words
  let i := x.grantedTo recv
  let rest := if i < g then s.readWords core x recv i g else []
  (s.failWords (flying ++ rest)).endXfer core x 2 0

/-- Words of a transfer come to their destination, unless something there holds them; a place that is lost cannot be reached (R229). -/
def State.landFlight (s : State) (core : Nat) (x : Xfer) (f : Flight) : State :=
  if s.flightCore f Core.lost then s.stopGranule core x f.recv
  else if s.flightHeld core x f then s
  else (s.landWords f.words).putXfer core { x with flights := x.flights.filter fun y => y != f }

/-- GRANULE_COMPLETE (R225): words on their way are performed at their destination, and a granule all of whose words are is complete;
a transfer that has met a failure ends at that granule (R229). -/
def execGranuleComplete (core ch : Nat) (s : State) : Out :=
  match (s.chan core ch).cur with
  | none => .next s
  | some x =>
    match x.landing, x.form with
    | some f, _ => .next (s.landFlight core x f)
    | none, .mc =>
      match x.recv.find? fun r => (x.doneAt (some r.core) r.comp r.moved).isSome with
      | some r =>
        match x.doneAt (some r.core) r.comp r.moved with
        | some g => .next (s.granuleDoneMc core x r g)
        | none => .next s
      | none => .next (s.failXfer core x)
    | none, _ =>
      match x.doneAt none x.comp x.moved with
      | some g => .next (s.granuleDone core x g)
      | none => .next (s.failXfer core x)

/-- The number by which a row names a copy channel as a source. -/
def copySource (core ch : Nat) : Nat := 2 ^ 19 + 2 ^ 17 + 4 * core + ch

/-- A transfer waits for another place: for words on their way to it, for the acknowledgement of a granule there, or for a word that it
reads there (R229). Nothing else holds it: no pause, no lock and no frozen place (R307). -/
def State.outstanding (s : State) (core ch : Nat) : Bool :=
  match (s.chan core ch).cur with
  | none => false
  | some x =>
    match x.landing with
    | some f => !s.flightHeld core x f
    | none =>
      ((if x.recv.isEmpty then [(none, x.comp, x.moved)] else x.recv.map fun r => (some r.core, r.comp, r.moved)).any fun q =>
        (x.doneTo q.2.1 q.2.2).isSome && !ownWord core (s.xto core x q.1 q.2.1)) ||
      (s.beatReady core ch && match x.nextByte (s.xpaused core x) with
        | some (recv, i) => !s.dataHere core x recv i && !ownWord core (s.xfrom core x (x.readTo recv i))
        | none => false)

/-- The transfer of a channel that waits for no other place begins its 100 µs anew (R229). -/
def State.renewXfer (s : State) (core : Nat) (k : Channel) : Channel :=
  match k.cur with
  | some x => if s.outstanding core x.ch then k else { k with cur := some { x with at_ := s.time } }
  | none => k

/-- Every transfer that waits for no other place begins its 100 µs anew (R229). -/
def State.renewXfers (s : State) : State :=
  { s with cores := s.cores.over fun c k => { k with chans := k.chans.map fun h => s.renewXfer c h } }

/-- A transfer that has waited for another place for 100 µs ends with ERROR, of an `xmc` at the receiver with the lowest pointer (R229,
R119). -/
def State.lateXfer (s : State) (core ch : Nat) : State :=
  match (s.chan core ch).cur with
  | some x =>
    if s.outstanding core ch && x.fail.isNone && decide (x.at_ + 100000 ≤ s.time) then
      s.stopGranule core x ((x.recv.find? fun r => r.comp == x.lowest).map Receiver.core)
    else s
  | none => s

/-- TARGET_UNREACHABLE (R119, R229): of a parcel, or of a transfer. -/
def execTargetUnreachable (src seq : Nat) (s : State) : Out :=
  if 2 ^ 19 + 2 ^ 17 ≤ src ∧ src < 2 ^ 20 then .next (s.lateXfer ((src - (2 ^ 19 + 2 ^ 17)) / 4) (src % 4)) else s.lateParcel src seq

/-! ### Waiting and stopping (R238, R239) -/

/-- xwp (R238). -/
def execXwp (ra rd : GReg) (c : Chan) (s : State) : Out :=
  s.onThread fun t =>
    let w := (s.chan (coreOf s.cur) c.val).xwp
    if (t.rd ra).ule w = true ∨ s.chanActive (coreOf s.cur) c.val = false then s.write t rd w 0
    else s.wait t (.xwp c.val (t.rd ra) rd)

/-- What a transfer ID names on a core: its recorded status, an unfinished transfer, or nothing (R227, R229). -/
inductive XName where
  | ended (code : Nat)
  | live (x : Xfer) (queued : Bool)
  | unknown
  deriving DecidableEq, Repr

/-- Finds the transfer of an ID. -/
def State.xname (s : State) (core : Nat) (id : Word) : XName :=
  let ch := bits id 0 2
  let seq := bits id 2 30
  if bits id 32 32 ≠ 0 ∨ seq = 0 then .unknown
  else
    match (s.chan core ch).cur, (s.core core).xq.find? (fun x => x.ch == ch && x.seq == seq),
      (s.chan core ch).hist.find? (fun h => h.1 == seq) with
    | some x, q, h => if x.seq = seq then .live x false else match q, h with
      | some y, _ => .live y true
      | none, some e => .ended e.2
      | none, none => .unknown
    | none, some y, _ => .live y true
    | none, none, some e => .ended e.2
    | none, none, none => .unknown

/-- xwait (R239). -/
def execXwait (ra rd : GReg) (s : State) : Out :=
  s.onThread fun t =>
    match s.xname (coreOf s.cur) (t.rd ra) with
    | .ended code => s.write t rd (BitVec.ofNat 64 code) 0
    | .unknown => s.write t rd 4 0
    | .live x _ => s.wait t (.xwait x.ch x.seq rd)

/-- Stops a transfer as `xkill` does (R239): a queued one is removed, one at a granule boundary ends at once, a running one
is marked to end at its next boundary, and one whose beats are all granted ends as it would have. -/
def State.killXfer (s : State) (core : Nat) (x : Xfer) (queued : Bool) : State :=
  if queued then s.endXfer core { x with root := 0 } 3 0
  else if (x.nextByte false).isNone ∨ x.fail.isSome then s
  else if x.moved = x.comp then s.endXfer core x 3 0
  else s.modChan core x.ch fun k => { k with cur := some { x with kill := true } }

/-- xkill (R239). -/
def execXkill (ra rd : GReg) (s : State) : Out :=
  s.onThread fun t =>
    match s.xname (coreOf s.cur) (t.rd ra) with
    | .ended code => s.write t rd (BitVec.ofNat 64 code) 0
    | .unknown => s.write t rd 4 0
    | .live x queued => afterRetire (s.wait t (.xwait x.ch x.seq rd)) fun s => s.killXfer (coreOf s.cur) x queued

end Sys2Proof.Machine
end

