-- ==== Sys2Proof/Machine/Sync.lean ====
section
/-! DEFINITION. Barriers and join words (spec/10 R237, R240 to R252; pod barriers with R399 of spec/20). -/

namespace Sys2Proof.Machine

/-! ### Barrier operands (R247) -/

/-- The barrier that an operand names at core scope for the forms PEER applies to: core and number. -/
def peerBar (me : Nat) (v : Word) : Nat × Nat :=
  (if bits v 16 1 = 1 then 16 * clusterOf me + bits v 12 4 else me, bits v 0 6)

/-- The phase that an operand names. -/
def opPhase (v : Word) : Bool := bits v 8 1 == 1

/-! ### Pod barriers (R245, R251, R399) -/

/-- A pod barrier of the module. -/
def State.pod (s : State) (id : Nat) : PodBar := (s.pods.look id).getD {}
/-- Replaces a pod barrier. -/
def State.setPod (s : State) (id : Nat) (b : PodBar) : State := { s with pods := s.pods.put id b }

/-- The ID is granted to the partition (R245, R382). -/
def State.podGranted (s : State) (part id : Nat) : Bool :=
  match s.part part with
  | some p => p.podIds.contains id
  | none => false

/-- A flit (R397). -/
def flit (type modId payload : Nat) : Word := BitVec.ofNat 64 (type * 2 ^ 60 + modId * 2 ^ 48 + payload)

/-- Sends a flit over a link. -/
def State.sendFlit (s : State) (link : Nat) (f : Word) : State :=
  { s with links := setAt s.links link { s.links.getD link {} with out := (s.links.getD link {}).out ++ [f] } }

/-- The local waiters of a pod barrier are released with a result; the barrier starts anew. -/
def State.podRelease (s : State) (id : Nat) (result : Word) : State :=
  let b := s.pod id
  let s := b.waiting.foldl (fun s w => s.reply { tid := w.1, writes := [(w.2.val, result)] }) s
  s.setPod id { b with local_ := false, sent := false, arrived := [], waiting := [], count := if result = 0 then b.count else 0 }

/-- Modules in dimension d of the torus. -/
def State.dim (s : State) (d : Nat) : Nat := s.dims.getD d 1

/-- How far apart in number two neighbours in dimension d are. -/
def State.stride (s : State) (d : Nat) : Nat := (s.dims.take d).foldl (fun a n => a * n) 1

/-- Coordinate d of a module (R399). -/
def State.coord (s : State) (d m : Nat) : Nat := m / s.stride d % s.dim d

/-- The link and the neighbour by which a module moves one step toward another (R399): the first dimension in which they differ, the
shorter way round, a tie toward the increasing coordinate. DESIGN CHOICE: link 2d leads to the next higher coordinate of dimension d and
link 2d + 1 to the next lower (log 79). -/
def State.hop (s : State) (m r : Nat) : Option (Nat × Nat) :=
  match (numsFrom 0 3).find? fun d => s.coord d m != s.coord d r with
  | none => none
  | some d =>
    let n := s.dim d
    let a := s.coord d m
    let up := 2 * ((s.coord d r + n - a) % n) ≤ n
    let a' := if up then (a + 1) % n else (a + n - 1) % n
    some (if up then 2 * d else 2 * d + 1, m - a * s.stride d + a' * s.stride d)

/-- The modules that a flit from m to r reaches, m not among them; n bounds the steps. -/
def State.pathTo (s : State) (r : Nat) : Nat → Nat → List Nat
  | 0, _ => []
  | n + 1, m =>
    match s.hop m r with
    | some (_, m') => m' :: s.pathTo r n m'
    | none => []

/-- The members of a pod barrier. -/
def State.podMembers (s : State) (b : PodBar) : List Nat := if b.members = [] then [s.modId] else b.members

/-- The root of a pod barrier: the lowest module ID among its members (R399). -/
def State.podRoot (s : State) (b : PodBar) : Nat := (s.podMembers b).foldl min 4095

/-- A member's path to the root. -/
def State.podPath (s : State) (b : PodBar) (m : Nat) : List Nat := s.pathTo (s.podRoot b) 64 m

/-- Members whose arrivals a member combines: the next member on their path to the root is this one. -/
def State.podKids (s : State) (b : PodBar) (m : Nat) : List Nat :=
  (s.podMembers b).filter fun c => (s.podPath b c).find? (s.podMembers b).contains == some m

/-- The modules of the tree. -/
def State.podNodes (s : State) (b : PodBar) : List Nat :=
  ((s.podMembers b) ++ (s.podMembers b).flatMap (s.podPath b)).eraseDups

/-- The link of the other end. -/
def backLink (l : Nat) : Nat := if l % 2 = 0 then l + 1 else l - 1

/-- The links of the tree that a module has: to the modules whose next step toward the root it is. -/
def State.podDownLinks (s : State) (b : PodBar) (m : Nat) : List Nat :=
  (s.podNodes b).filterMap fun n =>
    match s.hop n (s.podRoot b) with
    | some (l, m') => if m' = m then some (backLink l) else none
    | none => none

/-- The link toward the root, unless the module is the root. -/
def State.podUpLink (s : State) (b : PodBar) (m : Nat) : Option Nat := (s.hop m (s.podRoot b)).map Prod.fst

/-- A flit goes down the tree of a pod barrier from this module (R399). -/
def State.podDown (s : State) (b : PodBar) (f : Word) : State :=
  (s.podDownLinks b s.modId).foldl (fun s l => s.sendFlit l f) s

/-- A module whose local count has completed and whose children have all arrived: the root completes the barrier, another
member forwards one arrival (R399). -/
def State.podTry (s : State) (id : Nat) : State :=
  let b := s.pod id
  if b.local_ && (s.podKids b s.modId).all (fun m => b.arrived.contains m) then
    match s.podUpLink b s.modId with
    | none => (s.podDown b (flit 2 s.modId id)).podRelease id 0
    | some l => if b.sent then s else (s.setPod id { b with sent := true }).sendFlit l (flit 1 s.modId id)
  else s

/-- One arrival at the local count (R245). DESIGN CHOICE: with a local target of 0 the count goes up and no phase completes (log 68). -/
def State.podArrive (s : State) (id : Nat) : State :=
  let b := s.pod id
  if b.count + 1 = b.target then (s.setPod id { b with count := 0, local_ := true }).podTry id
  else s.setPod id { b with count := b.count + 1 }

/-! ### The forms -/

/-- A `bset` of a core barrier (R248). One that the nest placer has set in this cc stays as it set it: the `bset` comes before (R241). -/
def State.bsetBar (s : State) (core b n : Nat) : State :=
  if (s.bar core b).setAt = some s.cc then s else s.setBar core b ((s.bar core b).set n)

/-- bset (R248). -/
def execBset (ra rb : GReg) (z : Scope) (s : State) : Out :=
  s.onThread fun t =>
    let v := t.rd ra
    let n := bits (t.rd rb) 0 16
    let me := coreOf s.cur
    match z with
    | .core =>
      if t.priv = 0 ∧ bits v 0 6 = 63 then s.priv t
      else (s.bsetBar me (bits v 0 6) n).finish t 0
    | .cluster => (s.setClBar (clusterOf me) (bits v 0 4) ((s.clBar (clusterOf me) (bits v 0 4)).set n)).finish t 0
    | .pod =>
      if t.priv = 0 then s.priv t
      else if s.podGranted t.part (bits v 0 6) || t.priv == 2 then
        (s.setPod (bits v 0 6) { s.pod (bits v 0 6) with target := n, count := 0 }).finish t 0
      else s.finish t 0

/-- barr (R249). -/
def execBarr (ra rd : GReg) (z : Scope) (s : State) : Out :=
  s.onThread fun t =>
    let v := t.rd ra
    let me := coreOf s.cur
    match z with
    | .core =>
      if t.priv = 0 ∧ bits v 0 6 = 63 then s.priv t
      else
        s.release t fun t =>
          afterRetire (s.write t rd (BitVec.ofNat 64 (bit (s.bar me (bits v 0 6)).phase)) 0) fun s => s.arriveBar me (bits v 0 6) false
    | .cluster =>
      s.release t fun t => s.ask t (.lm me) ⟨.lm me, 0⟩ (.clArrive (clusterOf me) (bits v 0 4)) v (.barr rd)
    | .pod => s.illegal t

/-- A `barw` that completes at issue: gd := 0, then POISON when the last completed phase was poisoned (R242, R243). -/
def State.barwNow (s : State) (t : Thread) (d : GReg) (poison : Option Nat) : Out :=
  afterRetire (s.write t d 0 0) fun s =>
    match poison, s.thread s.cur with
    | some b, some t => s.trapAt s.cur t ⟨0x06, 0, BitVec.ofNat 64 b⟩ t.pc s.ir true
    | _, _ => s

/-- barw and barw.t (R242): the form issues, and is evaluated after the events of its cc. Where the phase is not complete then and TIME has
reached the limit, gd := 1. -/
def State.barwForm (s : State) (t : Thread) (ra rd : GReg) (limit : Option Word) (z : Scope) : Out :=
  let v := t.rd ra
  let me := coreOf s.cur
  let late := match limit with
    | some l => decide (l.toNat ≤ s.timeAt me)
    | none => false
  match z, t.block.isAwait with
  | .pod, _ => s.illegal t
  | _, false => s.await t .soon
  | .core, true =>
    let (c, n) := peerBar me v
    let b := s.bar c n
    if b.phase ≠ opPhase v then s.barwNow t rd (if b.lpois then some n else none)
    else if late then s.write t rd 1 0
    else s.wait t (.barw false c n (opPhase v) limit rd s.ir)
  | .cluster, true =>
    let cl := clusterOf me
    if (s.clBar cl (bits v 0 4)).phase ≠ opPhase v then s.barwNow t rd none
    else if late then s.write t rd 1 0
    else s.wait t (.barw true cl (bits v 0 4) (opPhase v) limit rd s.ir)

/-- barw (R242). -/
def execBarw (ra rd : GReg) (z : Scope) (s : State) : Out := s.onThread fun t => s.barwForm t ra rd none z
/-- barw.t (R242): gb is the TIME limit. -/
def execBarwT (ra rb rd : GReg) (z : Scope) (s : State) : Out := s.onThread fun t => s.barwForm t ra rd (some (t.rd rb)) z

/-- BARW_TIMEOUT (R242): TIME has reached the limit before the completion. -/
def execBarwTimeout (tid : Nat) (s : State) : Out :=
  match s.thread tid with
  | none => .next s
  | some t =>
    match t.block with
    | .barw _ _ _ _ (some l) d _ =>
      if l.toNat ≤ s.timeAt (coreOf tid) then .next (s.complete tid 0 fun t => t.wr d 1) else .next s
    | _ => .next s

/-- bstat (R250). DESIGN CHOICE: the bits of a pod barrier that R250 does not name read 0 (log 68). -/
def execBstat (ra rd : GReg) (z : Scope) (s : State) : Out :=
  s.onThread fun t =>
    let v := t.rd ra
    let me := coreOf s.cur
    match z with
    | .core => s.write t rd (s.bar (peerBar me v).1 (peerBar me v).2).word 0
    | .cluster => s.write t rd (s.clBar (clusterOf me) (bits v 0 4)).word 0
    | .pod =>
      let b := s.pod (bits v 0 6)
      s.write t rd (BitVec.ofNat 64 (b.count * 2 ^ 32 + b.target)) 0

/-- Sends an arrival to a core barrier of another core (R237). DESIGN CHOICE (log 93): the wait for the counters comes before the test of
the target, so a core outside the partition is answered 3 after it, and an error mark is taken there. -/
def State.arrivalForm (s : State) (t : Thread) (ra rb rd : GReg) : Out :=
  let target := bits (t.rd ra) 0 14
  let n := bits (t.rd rb) 0 6
  let ours := match s.part t.part with
    | some p => p.hasCore target
    | none => false
  if !ours then s.write t rd 3 0
  else s.post t (.lm target) ⟨.lm target, 0⟩ (.arrive target n) (ctrFor (coreOf s.cur) target) (t.rd ra) fun t s => s.write t rd 0 0

/-- rarr (R237). -/
def execRarr (ra rb rd : GReg) (s : State) : Out :=
  s.onThread fun t =>
    if t.priv = 0 ∧ bits (t.rd rb) 0 6 = 63 then s.priv t
    else s.release t fun t => s.arrivalForm t ra rb rd

/-- xack (R237): also after every vector and matrix command of the thread has retired; the access behind the wait issues when the thread
issues again (R141). -/
def execXack (ra rb rd : GReg) (s : State) : Out :=
  s.onThread fun t =>
    if t.priv = 0 ∧ bits (t.rd rb) 0 6 = 63 then s.priv t
    else
      s.release t fun t =>
        if s.condMet s.cur t .engines then s.arrivalForm t ra rb rd else s.until t .engines

/-- pbar (R251). DESIGN CHOICE: the wait for the counters comes before the test of the grant (log 70). DESIGN CHOICE
(log 96): one issued while a link of the tree is already down arrives and waits, as one issued before; the next failure of a link ends it. -/
def execPbar (ra rd : GReg) (s : State) : Out :=
  s.onThread fun t =>
    s.release t fun t =>
      let id := bits (t.rd ra) 0 6
      if s.podGranted t.part id then
        afterRetire (s.wait t (.reply .pbar)) fun s =>
          (s.setPod id { s.pod id with waiting := (s.pod id).waiting ++ [(s.cur, rd)] }).podArrive id
      else s.write t rd 3 0

/-! ### waitw (R252) -/

/-- Waiter entries of a place in use: 256 at most. -/
def State.waiterCount (s : State) (p : Place) : Nat := (s.waiters.filter fun w => w.place == p && !w.refused).length

/-- Registers a waiter at its place and evaluates its condition there; with no entry free it is refused. -/
def State.register (s : State) (w : Waiter) : State :=
  if 256 ≤ s.waiterCount w.place then { s with waiters := s.waiters ++ [{ w with refused := true, sentAt := s.time }] }
  else { s with waiters := s.waiters ++ [{ w with refused := false }] }.fire w.loc 8

/-- waitw (R252): the waiter is registered at the place, at issue at the thread's own place and else by a request. -/
def execWaitw (ra rb rd : GReg) (c : WCond) (s : State) : Out :=
  s.onThread fun t =>
    let go := fun (s : State) (p : Place) (l : Loc) =>
      afterRetire (s.wait t (.reply .waitw)) fun s =>
        s.register { who := .thread s.cur rd, part := t.part, place := p, loc := l, cond := c, operand := t.rd rb }
    match t.block with
    | .await (.here p l _ _) _ => go s p l
    | _ =>
      s.access t (t.rd ra) 8 .load false true fun s tg =>
        match tg with
        | .own l => go (s.reach t (t.rd ra) l) (match l.space with
            | .lm core => .lm core
            | _ => .home (coreOf s.cur)) l
        | .far p l _ => s.request t p l (.op 8 false []) (t.rd ra) .waitw

/-- WAITW_RETRY (R252): a refused registration is sent again after 1 µs. -/
def execWaitwRetry (tid : Nat) (s : State) : Out :=
  let mine := fun (w : Waiter) => w.refused && match w.who with
    | .thread x _ => x == tid
    | .host _ _ => false
  match s.waiters.find? mine with
  | none => .next s
  | some w => if s.time < w.sentAt + 1000 then .next s else .next ({ s with waiters := s.waiters.filter fun x => !mine x }.register w)

end Sys2Proof.Machine
end

