-- ==== Sys2Proof/Machine/Nest.lean ====
section
/-! DEFINITION. Nests (spec/11 R256 to R275): callable entries and trees, placement and reservation, the kinds and how they
complete, and failures. -/

namespace Sys2Proof.Machine

/-! ### Results of host commands (R375) -/

/-- The command registers of function fn: 0 is the physical function, partition p has function p + 1 (R365). -/
def Firmware.fn (f : Firmware) (n : Nat) : VF := if n = 0 then f.pf else (f.vfs.look n).getD {}

/-- Changes the command registers of a function. -/
def State.modFn (s : State) (n : Nat) (g : VF → VF) : State :=
  s.modFw fun f => if n = 0 then { f with pf := g f.pf } else { f with vfs := f.vfs.put n (g (f.fn n)) }

/-- The firmware writes RESULT into D7 of a command's slot, then interrupts if the command asks for it. -/
def State.writeResult (s : State) (fn : Nat) (w : HostWake) (status detail : Nat) : State :=
  let s := s.writeLoc ⟨.phys 2, w.slot + 56⟩ 8 (2 ^ 63 + detail % 2 ^ 16 * 2 ^ 32 + status)
  if bits w.d0 15 1 = 1 then s.modFw fun f => { f with irqs := f.irqs ++ [(fn, 0)] } else s

/-- The commands of a list that have ended before any that has not. -/
def endedFirst : List (HostWake × Option (Nat × Nat)) → List (HostWake × Nat × Nat) × List (HostWake × Option (Nat × Nat))
  | (w, some r) :: l => let q := endedFirst l; ((w, r) :: q.1, q.2)
  | l => ([], l)

/-- The result of the first command of a list that is a given one and has none. -/
def giveResult (w : HostWake) (r : Nat × Nat) : List (HostWake × Option (Nat × Nat)) → List (HostWake × Option (Nat × Nat))
  | [] => []
  | (v, none) :: l => if v = w then (v, some r) :: l else (v, none) :: giveResult w r l
  | x :: l => x :: giveResult w r l

/-- A command ends with a status and a detail. Its RESULT is written once every command of the function that started before it has its
own, but a WAKE's at once (R375, R376). -/
def State.hostResult (s : State) (fn : Nat) (w : HostWake) (status detail : Nat) : State :=
  let l := (s.fw.fn fn).opened
  if l.any fun x => x.1 == w && x.2.isNone then
    let q := endedFirst (giveResult w (status, detail) l)
    q.1.foldl (fun s x => s.writeResult fn x.1 x.2.1 x.2.2) (s.modFn fn fun v => { v with opened := q.2 })
  else s.writeResult fn w status detail

/-! ### Callable entries (R259 to R262) -/

/-- The sixteen doublewords of entry e of a partition's callable table. -/
def State.entryWords (s : State) (part e : Nat) : List Nat :=
  (numsFrom 0 16).map fun k => s.readShare part (s.placing part) (128 * e + 8 * k) 8

/-- A bit field of doubleword k of an entry. -/
def field (w : List Nat) (k lo len : Nat) : Nat := w.getD k 0 / 2 ^ lo % 2 ^ len

/-- KIND: 1 LEAF, 2 CORO, 3 SEQ, 4 PAR, 5 PIPE, 6 FARM, 7 LOOP. -/
def Node.kind (x : Node) : Nat := field x.words 0 0 3
/-- POLICY: 0 ABORT, 1 CONTAIN, 2 RETRY. -/
def Node.policy (x : Node) : Nat := field x.words 0 4 2
/-- THREADS. -/
def Node.size (x : Node) : Nat := field x.words 0 32 16
/-- Depth of the queues that a PIPE, CORO or root FARM reserves (R268 to R271). -/
def Node.depth (x : Node) : Nat := if x.kind = 6 then 256 else field x.words 0 24 8 + 1

/-- The children that doublewords 1 and 2 name. -/
def childEntries (w : List Nat) : List Nat :=
  (numsFrom 0 (field w 1 60 3)).map fun k => if k < 5 then field w 1 (12 * k) 12 else field w 2 0 12

/-- The children of an entry as the tree has them: a LEAF or CORO has none, a FARM has its child once for each worker. -/
def treeChildren (w : List Nat) : List Nat :=
  if field w 0 0 3 ≤ 2 then []
  else if field w 0 0 3 = 6 then List.replicate (field w 0 48 12 + 1) (field w 1 0 12) else childEntries w

/-- An entry obeys R260 and R261 and has one child when it is a FARM or LOOP. DESIGN CHOICE: of the fields not used by a kind, child
fields from NCH on must be zero, while MASK may hold anything under another PLACE (log 72). -/
def entryFormed (w : List Nat) : Bool :=
  let f := field w 0
  let kind := f 0 3
  let nch := field w 1 60 3
  f 60 4 == 0 && f 20 4 == 0 && f 13 3 == 0 && f 10 2 == 0 && f 6 2 == 0 && f 3 1 == 0 && kind != 0 &&
  (numsFrom 4 4).all (fun k => w.getD k 0 == 0) &&
  (kind == 6 || f 48 12 == 0) && (kind == 5 || kind == 2 || f 24 8 == 0) &&
  if kind = 1 ∨ kind = 2 then
    f 4 2 == 0 && f 32 16 != 0 && f 16 4 != 0 && f 8 2 != 3 && w.getD 1 0 % 4 == 0 && w.getD 3 0 % 8 == 0
  else
    f 32 16 == 0 && f 16 4 == 0 && f 12 1 == 0 && f 8 2 == 0 && f 4 2 != 3 && (kind == 6 || f 4 2 != 2) &&
    field w 1 63 1 == 0 && decide (1 ≤ nch) && decide (nch ≤ 6) && (decide (kind < 6) || nch == 1) &&
    (decide (5 ≤ nch) || field w 1 0 60 / 2 ^ (12 * nch) == 0) && w.getD 2 0 / (if nch = 6 then 2 ^ 12 else 1) == 0 &&
    (if kind = 7 then w.getD 3 0 % 8 == 0 else w.getD 3 0 == 0)

/-- A kind may stand as child k of a node (R262). -/
def childOk (nodes : List Node) (parent : Option Nat) (k kind : Nat) : Bool :=
  match parent.bind fun p => nodes[p]? with
  | none => true
  | some x =>
    match x.kind with
    | 3 | 4 | 7 => kind == 1 || kind == 3 || kind == 4 || kind == 5 || kind == 7
    | 5 => kind == 1 || kind == 2 || (kind == 6 && (k != 0 || x.parent.isNone))
    | 6 => kind == 1
    | _ => false

/-- A doubleword of global memory that the placer loads for a partition: its leaf and value, or the reason it cannot. -/
def State.placerLoad (s : State) (part : Nat) (sec : Bool) (va : Nat) : Except Nat (Leaf × Word) :=
  match s.part part with
  | none => .error 1
  | some p =>
    match s.translateNow p.svc part sec .load va with
    | .error r => .error r
    | .ok e => .ok (e.leaf, BitVec.ofNat 64 (s.readLoc ⟨.phys e.leaf.tier, e.leaf.pa + (va - e.base)⟩ 8))

/-- MPREC, MFMT and MSCALE of a format descriptor, in replicable pages (R261, R283). -/
def State.formatDesc (s : State) (part : Nat) (sec : Bool) (va : Nat) : Option MatRegs :=
  if 2 ^ 63 ≤ va then none
  else
    match s.placerLoad part sec va, s.placerLoad part sec (va + 8), s.placerLoad part sec (va + 16) with
    | .ok (l, a), .ok (_, b), .ok (l', c) =>
      if l.cls = 1 ∧ l'.cls = 1 then some ((((({} : MatRegs).set 0 a).set 1 b)).set 4 c) else none
    | _, _, _ => none

/-- What else `apply` checks of an entry: a format descriptor, a LOOP's verdict in a writable page (R261, R265); the format
registers that its threads start with. -/
def State.entryRegs (s : State) (part : Nat) (q : ApplyReq) (w : List Nat) : Option MatRegs :=
  let own : MatRegs := { mprec := q.mprec, mfmt := q.mfmt, mscale := q.mscale }
  let va := w.getD 3 0
  match field w 0 0 3 with
  | 1 | 2 => if va = 0 then some own else s.formatDesc part q.sec va
  | 7 =>
    if 2 ^ 63 ≤ va then none
    else
      match s.placerLoad part q.sec va with
      | .ok (l, _) => if l.cls = 0 then some own else none
      | .error _ => none
  | _ => some own

/-- Adds a node under its parent. -/
def addNode (nodes : List Node) (x : Node) : List Node :=
  match x.parent with
  | none => nodes ++ [x]
  | some p =>
    match nodes[p]? with
    | some y => setAt nodes p { y with children := y.children ++ [nodes.length] } ++ [x]
    | none => nodes ++ [x]

/-- Reads the tree under entry e depth-first (R285): a path that repeats an entry or is longer than 8 is 6, any other check 5.
n is how many entries the path may still take. -/
def State.readTree (s : State) (part : Nat) (q : ApplyReq) :
    Nat → List Nat → Option Nat → Nat → Nat → List Node → Except Nat (List Node)
  | 0, _, _, _, _, _ => .error 6
  | n + 1, path, parent, k, e, nodes =>
    if path.contains e then .error 6
    else
      let w := s.entryWords part e
      if !entryFormed w || !childOk nodes parent k (field w 0 0 3) then .error 5
      else
        match s.entryRegs part q w with
        | none => .error 5
        | some r =>
          let starter := if field w 0 12 1 = 1 then (match s.part part with | some p => p.starter | none => 0) else q.starter
          let x : Node := { parent := parent, entry := e, words := w, starter := starter, mprec := r.mprec, mfmt := r.mfmt, mscale := r.mscale }
          let kids := treeChildren w
          (kids.zip (numsFrom 0 kids.length)).foldl (fun acc c =>
            acc.bind fun l => s.readTree part q n (e :: path) (some nodes.length) c.2 c.1 l) (.ok (addNode nodes x))

/-! ### Placement and reservation (R263, R264) -/

/-- What a placed subtree takes: slots by thread ID, pool barriers by core, records and queues, and the nodes with their
places; records and queues are numbered from 0 within the nest. -/
structure Need where
  slots : List Nat := []
  bars : List (Nat × Nat) := []
  recs : Nat := 0
  queues : Nat := 0
  nodes : List Node
  deriving DecidableEq, Repr

/-- Available slots of a core (R263). -/
def State.availSlots (s : State) (core : Nat) : List Nat :=
  (numsFrom 0 15).filter fun k => (s.core core).names k && (s.thread (16 * core + k)).isNone &&
    !s.granted (16 * core + k) && !s.reserved (16 * core + k)

/-- The candidate cores of a request, from the applier's core on, with their available slots (R263). DESIGN CHOICE (log 98): a lost core
stays a candidate. -/
def State.candidates (s : State) (p : Partition) (q : ApplyReq) : List (Nat × List Nat) :=
  let l := p.coreList.filter fun c => s.canMeter c q.owner
  ((l.filter fun c => decide (q.start ≤ c)) ++ l.filter fun c => decide (c < q.start)).map fun c => (c, s.availSlots c)

/-- MASK selects the core's cluster (R261). -/
def inMask (clusters : List Nat) (mask core : Nat) : Bool :=
  let i := clusters.findIdx fun c => c == clusterOf core
  decide (i < 64) && bitAt mask i

/-- Places a team: its slots in rank order and its pool barrier, or the code of R265. DESIGN CHOICE: PLACE = mask places compact
within the clusters that MASK selects (log 71). -/
def placeTeam (clusters : List Nat) (cores : List (Nat × List Nat)) (us : List Nat) (ub : List (Nat × Nat)) (x : Node) :
    Except Nat (List Nat × Nat) :=
  let mode := field x.words 0 8 2
  let quota := field x.words 0 16 4
  let av := (cores.filter fun c => mode != 2 || inMask clusters (x.words.getD 2 0) c.1).map fun c =>
    (c.1, (c.2.filter fun k => !us.contains (16 * c.1 + k)).take quota)
  let order :=
    if mode = 1 then ((numsFrom 0 quota).map fun j => av.filterMap fun c => (c.2[j]?).map fun k => 16 * c.1 + k).flatten
    else (av.map fun c => c.2.map fun k => 16 * c.1 + k).flatten
  let place := order.take x.size
  if place.length < x.size then .error 1
  else
    match (numsFrom 48 15).find? fun b => place.all fun t => !ub.contains (coreOf t, b) with
    | none => .error 2
    | some b => .ok (place, b)

/-- Queues that a node itself reserves (R268, R269, R271). -/
def Node.ownQueues (x : Node) : Nat :=
  match x.kind, x.parent with
  | 5, none => x.children.length + 1
  | 5, some _ => x.children.length - 1
  | 6, none => 1
  | 2, none => 2
  | _, _ => 0

/-- The union of two lists. -/
def unionOf {α : Type} [DecidableEq α] (a b : List α) : List α := a ++ b.filter fun x => !a.contains x

/-- Places the subtree at node i against used slots and barriers, taking records and queues from given numbers on (R263,
R264). -/
def placeNode (clusters : List Nat) (cores : List (Nat × List Nat)) :
    Nat → Nat → List Nat → List (Nat × Nat) → Nat → Nat → List Node → Except Nat Need
  | 0, _, _, _, _, _, nodes => .ok { nodes := nodes }
  | n + 1, i, us, ub, r0, q0, nodes =>
    match nodes[i]? with
    | none => .ok { nodes := nodes }
    | some x =>
      let own := x.ownQueues
      let x := { x with queues := numsFrom q0 own }
      if x.kind ≤ 2 then
        match placeTeam clusters cores us ub x with
        | .error c => .error c
        | .ok (place, b) =>
          .ok { slots := place, bars := (place.map fun t => (coreOf t, b)).eraseDups, recs := 1, queues := own,
                nodes := setAt nodes i { x with place := place, bar := b, record := r0 } }
      else
        let same := x.kind == 3 || x.kind == 7
        x.children.foldl (fun acc c =>
          acc.bind fun (a : Need) =>
            if same then
              (placeNode clusters cores n c us ub r0 (q0 + own) a.nodes).map fun d =>
                { slots := unionOf a.slots d.slots, bars := unionOf a.bars d.bars, recs := max a.recs d.recs,
                  queues := max a.queues (own + d.queues), nodes := d.nodes }
            else
              (placeNode clusters cores n c (us ++ a.slots) (ub ++ a.bars) (r0 + a.recs) (q0 + a.queues) a.nodes).map fun d =>
                { slots := a.slots ++ d.slots, bars := a.bars ++ d.bars, recs := a.recs + d.recs,
                  queues := a.queues + d.queues, nodes := d.nodes })
          (.ok { queues := own, nodes := setAt nodes i x })

/-- The n lowest numbers of [a, a + m) that are not used. -/
def freeNumbers (used : Nat → Bool) : Nat → Nat → Nat → List Nat
  | _, 0, _ => []
  | _, _, 0 => []
  | a, m + 1, n + 1 => if used a then freeNumbers used (a + 1) m (n + 1) else a :: freeNumbers used (a + 1) m n

/-! ### Nests in the state -/

/-- A nest of a partition by its record. -/
def State.nest (s : State) (part rec : Nat) : Option Nest :=
  (s.part part).bind fun p => p.nests.find? fun n => n.record == rec

/-- Changes a nest. -/
def State.modNest (s : State) (part rec : Nat) (f : Nest → Nest) : State :=
  s.modPart part fun p => { p with nests := p.nests.map fun n => if n.record = rec then f n else n }

/-- A node of a nest. -/
def State.node (s : State) (part rec i : Nat) : Option Node := (s.nest part rec).bind fun n => n.nodes[i]?

/-- Changes a node of a nest. -/
def State.modNode (s : State) (part rec i : Nat) (f : Node → Node) : State :=
  s.modNest part rec fun n => { n with nodes := match n.nodes[i]? with
      | some x => setAt n.nodes i (f x)
      | none => n.nodes }

/-- Offset of a record (R259). -/
def recordOff (n : Nat) : Nat := 0x80000 + 64 * n

/-- The nest handle, and the address of a team record (R272). -/
def recordVa (placing n : Nat) : Word := BitVec.ofNat 64 (0xC3 * 2 ^ 56 + placing * 2 ^ 26 + recordOff n)

/-- The handle of the queue at a position of a node's list, or 0. -/
def State.handleOf (s : State) (part : Nat) (x : Node) (k : Nat) : Word :=
  match x.queues[k]? with
  | some q => queueHandle (s.placing part) q
  | none => 0

/-- Input or output queue of stage k of a PIPE (R268): queue 0 of a root PIPE stands first in its list. -/
def State.stageQueue (s : State) (part : Nat) (x : Node) (k : Nat) : Word :=
  match x.parent, k with
  | none, k => s.handleOf part x k
  | some _, 0 => 0
  | some _, k + 1 => s.handleOf part x k

/-- The nest's queues become live, empty and open with a depth (R254). -/
def State.openQueues (s : State) (part : Nat) (x : Node) : State :=
  x.queues.foldl (fun s q => s.modQueue part q fun _ => { live := true, nest := true, depth := x.depth }) s

/-- Writes a team (R257, R267, R283): its record, and from the next cc its barriers and its threads. -/
def State.writeTeam (s : State) (part rec i : Nat) : State :=
  match s.node part rec i with
  | some x =>
    let s := s.pipeWrite part (recordOff x.record)
      [BitVec.ofNat 64 x.size, BitVec.ofNat 64 x.entry, recordVa (s.placing part) rec, BitVec.ofNat 64 x.bar, 0, 0, 0, 0]
    { s with starts := s.starts ++ [(part, rec, i)] }
  | none => s

/-- The placer writes a team's barrier on each of its cores, then its threads in rank order (R257, R267). -/
def State.placeTeam (s : State) (part rec i : Nat) : State :=
  match s.nest part rec, s.node part rec i with
  | some n, some x =>
    if n.aborted || x.st != .running then s
    else
      let cores := (x.place.map coreOf).eraseDups
      let s := cores.foldl (fun s c =>
        s.setBar c x.bar { (s.bar c x.bar).set (x.place.filter fun t => coreOf t == c).length with setAt := some s.cc }) s
      let t : Thread :=
        { pc := BitVec.ofNat 64 (x.words.getD 1 0), part := part, owner := n.owner, sec := n.sec, fp := { starter := x.starter },
          mat := { mprec := x.mprec, mfmt := x.mfmt, mscale := x.mscale }, stageNo := x.stage }
      let t := t.wrs ((numsFrom 1 8).zip ((x.words.drop 8).map fun v => BitVec.ofNat 64 v))
      (x.place.zip (numsFrom 0 x.place.length)).foldl (fun s p =>
        let r : TeamRef :=
          { nest := rec, node := i, record := x.record, rank := p.2, size := x.size, entry := x.entry, iter := x.iter, bar := x.bar,
            inq := x.inq, outq := x.outq, coro := x.kind == 2 }
        let k := ((x.place.take p.2).filter fun t => coreOf t == coreOf p.1).length
        (s.place p.1 { t with team := some r }).modThread p.1 fun t => { t with readyAt := s.cc + 4 * k }) s
  | _, _ => s

/-- What the placer writes at the start of a cc (R241): the barriers and threads of its teams, and, after them, barrier 63 of each core that
a `cch` has reached, with its one arrival (R315). -/
def State.placerWrites (s : State) : State :=
  let s := s.starts.foldl (fun s x => s.placeTeam x.1 x.2.1 x.2.2) s
  let s := s.sets.foldl (fun s x =>
    (s.setBar x.1 63 { (s.bar x.1 63).set x.2 with setAt := some s.cc }).arriveBar x.1 63 false) s
  { s with starts := [], sets := [] }

/-- Starts a node (R266) with its iteration, stage and queues. -/
def startNode : Nat → State → Nat → Nat → Nat → Nat → Nat → Word → Word → State
  | 0, s, _, _, _, _, _, _, _ => s
  | n + 1, s, part, rec, i, iter, stage, inq, outq =>
    match s.node part rec i with
    | none => s
    | some x =>
      let s := s.openQueues part x
      let inq := if x.kind ≠ 5 ∧ x.queues ≠ [] then s.handleOf part x 0 else inq
      let outq := if x.kind = 2 ∧ x.queues ≠ [] then s.handleOf part x 1 else outq
      let s := s.modNode part rec i fun x =>
        { x with st := .running, iter := if x.kind = 7 then 0 else iter, stage := stage, inq := inq, outq := outq, bad := false }
      let s := x.children.foldl (fun s c => s.modNode part rec c fun y => { y with st := .waiting }) s
      let go := fun (s : State) (c : Nat) => startNode n s part rec c iter stage inq outq
      match x.kind with
      | 1 | 2 => s.writeTeam part rec i
      | 3 => match x.children with
        | c :: _ => go s c
        | [] => s
      | 5 => (x.children.zip (numsFrom 0 x.children.length)).foldl (fun s c =>
          startNode n s part rec c.1 iter c.2 (s.stageQueue part x c.2) (s.stageQueue part x (c.2 + 1))) s
      | 7 => match x.children with
        | c :: _ => startNode n s part rec c 0 stage inq outq
        | [] => s
      | _ => x.children.foldl go s

/-- Frees a nest's record (R272) and removes its queues (R254). -/
def State.freeNest (s : State) (part rec : Nat) : State :=
  match s.nest part rec with
  | none => s
  | some n =>
    let s := n.queues.foldl (fun s q =>
      ((s.modQueue part q fun x => { x with items := [], senders := [], requeued := [] }).qClose part q).modQueue part q fun x => { depth := x.depth }) s
    s.modPart part fun p => { p with nests := p.nests.filter (fun y => y.record != rec), released := true }

/-- The nest completes with an OUTCOME code (R272): OUTCOME, then JOIN := 0, and the reservation is released. -/
def State.nestDone (s : State) (part rec code : Nat) : State :=
  match s.nest part rec with
  | none => s
  | some n =>
    let w := BitVec.ofNat 64 (code + 2 ^ 16 * min n.failed 65535)
    let s := (s.pipeWrite part (recordOff rec + 8) [w]).pipeWrite part (recordOff rec) [0]
    let s := n.joiners.foldl (fun s j => s.reply { tid := j.1, writes := [(j.2.val, w)] }) s
    let s := match n.host with
      | some h => s.hostResult (part + 1) h 0 code
      | none => s
    let s := s.modNest part rec fun n =>
      { n with complete := true, slots := [], bars := [], records := [], joiners := [], host := none, verdicts := [] }
    let s := s.modPart part fun p => { p with released := true }
    if n.applier.isNone || !n.joiners.isEmpty then s.freeNest part rec else s

/-- Closes the queue that a handle names, as `qput.cl` does. -/
def State.closeHandle (s : State) (part : Nat) (h : Word) : State :=
  match (s.part part).bind fun p => s.queueAt part p.svc h with
  | some q => if (s.queue part q).closed then s else s.qClose part q
  | none => s

/-- A node completes, and its parent proceeds (R266, R268, R271). -/
def nodeDone : Nat → State → Nat → Nat → Nat → State
  | 0, s, _, _, _ => s
  | n + 1, s, part, rec, i =>
    match s.node part rec i with
    | none => s
    | some x =>
      let s := s.modNode part rec i fun x => { x with st := if x.bad then .failed else .done }
      let s := if x.kind = 2 then s.closeHandle part x.outq else s
      match x.parent with
      | none => s.nestDone part rec (match s.nest part rec with
          | some n => if n.failed = 0 then 0 else 1
          | none => 0)
      | some p =>
        match s.node part rec p with
        | none => s
        | some y =>
          let ended := fun (s : State) => y.children.all fun c => match s.node part rec c with
            | some z => z.st == .done || z.st == .failed
            | none => true
          match y.kind with
          | 3 =>
            match y.children[y.children.findIdx (fun c => c == i) + 1]? with
            | some c => startNode 9 s part rec c y.iter y.stage y.inq y.outq
            | none => nodeDone n s part rec p
          | 7 => s.modNest part rec fun n => { n with verdicts := n.verdicts ++ [p] }
          | 5 =>
            let s := s.closeHandle part x.outq
            if ended s then nodeDone n s part rec p else s
          | _ => if ended s then nodeDone n s part rec p else s

/-- Lowers a team's join word (R267, R290); the team completes when it reaches 0. -/
def State.countDown (s : State) (part rec i by_ : Nat) : State :=
  match s.node part rec i with
  | none => s
  | some x =>
    let v := BitVec.ofNat 64 (s.readShare part (s.placing part) (recordOff x.record) 8) - BitVec.ofNat 64 by_
    let s := s.pipeWrite part (recordOff x.record) [v]
    let aborted := match s.nest part rec with
      | some n => n.aborted
      | none => true
    if v = 0 ∧ x.st = .running ∧ aborted = false then nodeDone 9 s part rec i else s

/-! ### The placer (R265, R270, R285) -/

/-- Reserves for a request whose tree has been read and starts its root: the nest record, or a code from 1 to 4. DESIGN CHOICE (log 99):
the lowest free record numbers are taken, the nest's own first and then its teams'. -/
def State.reserve (s : State) (part : Nat) (q : ApplyReq) : Except Nat (State × Nat) :=
  match s.part part with
  | none => .error 1
  | some p =>
    let bars := (p.nests.map fun n => n.bars).flatten
    match placeNode p.clusters (s.candidates p q) 9 0 [] bars 0 0 q.tree with
    | .error c => .error c
    | .ok need =>
      let qs := freeNumbers (fun k => (p.queue k).live) 0 256 need.queues
      let rs := freeNumbers (fun k => p.nests.any fun n => n.record == k || n.records.contains k) 0 4096 (need.recs + 1)
      match rs with
      | [] => if qs.length < need.queues then .error 3 else .error 4
      | rec :: rs =>
        if qs.length < need.queues then .error 3
        else if rs.length < need.recs then .error 4
        else
          let nodes := need.nodes.map fun x =>
            { x with record := rs.getD x.record 0, queues := x.queues.map fun k => qs.getD k 0 }
          let n : Nest :=
            { record := rec, applier := q.tid, owner := q.owner, sec := q.sec, nodes := nodes, slots := need.slots, bars := need.bars,
              records := rs, queues := qs, host := if q.waitDone then q.host else none }
          let s := s.modPart part fun p => { p with nests := p.nests ++ [n] }
          let s := nodes.reverse.foldl (fun s x => s.openQueues part x) s
          let root := nodes.headD { parent := none, entry := 0, words := [] }
          let last := if root.kind = 5 ∨ root.kind = 2 then s.handleOf part root (root.queues.length - 1) else 0
          let s := s.pipeWrite part (recordOff rec) [1, 0, s.handleOf part root 0, last, BitVec.ofNat 64 q.entry, 0, 0, 0]
          .ok (startNode 9 s part rec 0 0 0 0 0, rec)

/-- Answers a request: the handle or the code, to the thread or the host command. -/
def State.applyAnswer (s : State) (part : Nat) (q : ApplyReq) (r : Except Nat Nat) : State :=
  match q.tid, q.host with
  | some t, _ => s.reply { tid := t, writes := [(q.d.val, match r with
      | .ok rec => recordVa (s.placing part) rec
      | .error c => BitVec.ofNat 64 c)] }
  | none, some h =>
    match r with
    | .ok _ => if q.waitDone then s else s.hostResult (part + 1) h 0 0
    | .error c => s.hostResult (part + 1) h 4 c
  | none, none => s

/-- Tries a request: answered, or none where it does not fit and waits. -/
def State.tryApply (s : State) (part : Nat) (q : ApplyReq) : Option State :=
  match s.reserve part q with
  | .ok (s', rec) => some (s'.applyAnswer part q (.ok rec))
  | .error c => if q.wait then none else some (s.applyAnswer part q (.error c))

/-- NEST_PLACER_REQUEST (R265): the first request that has reached the placer. -/
def execNestPlacerRequest (part : Nat) (s : State) : Out :=
  match s.part part with
  | none => .next s
  | some p =>
    match p.applies with
    | [] => .next s
    | q :: l =>
      let s := s.setPart part { p with applies := l }
      match s.readTree part q 8 [] none 0 q.entry [] with
      | .error c => .next (s.applyAnswer part q (.error c))
      | .ok tree =>
        let q := { q with tree := tree }
        let hold := s.modPart part fun p => { p with waiting := p.waiting ++ [q] }
        if q.wait && !p.waiting.isEmpty then .next hold
        else
          match s.tryApply part q with
          | some s' => .next s'
          | none => .next hold

/-- Tries waiting requests in order until one does not fit. -/
def applyRetry : Nat → State → Nat → State
  | 0, s, _ => s
  | n + 1, s, part =>
    match (s.part part).map fun p => p.waiting with
    | some (q :: l) =>
      match (s.modPart part fun p => { p with waiting := l }).tryApply part q with
      | some s' => applyRetry n s' part
      | none => s
    | _ => s

/-- APPLY_W_RETRY (R265): once a reservation has been released. -/
def execApplyWRetry (part : Nat) (s : State) : Out :=
  match s.part part with
  | none => .next s
  | some p =>
    if p.released then .next (applyRetry (p.waiting.length + 1) (s.setPart part { p with released := false }) part) else .next s

/-! ### Ending threads and failures (R141, R273, R274, R290) -/

/-- Cancels every engine command of a thread, those in its restart records too. -/
def State.cancelWork (s : State) (tid : Nat) : State :=
  let core := coreOf tid
  let recs : List Nat := match s.thread tid with
    | some t => t.vrec.map VCmd.uid ++ t.mrec.map MCmd.uid
    | none => []
  let s := recs.foldl (fun s u => s.freeLocks core u) s
  let s := ((s.core core).vq.filter fun c => c.tid == tid).foldl (fun s c => s.freeLocks core c.uid) s
  let s := ((s.core core).mq.filter fun c => c.tid == tid).foldl (fun s c => s.mcancel core c) s
  (s.modCore core fun k =>
    { k with vq := k.vq.filter (fun c => c.tid != tid),
             latch := k.latch.bind fun l => if l.cmd.tid = tid then none else some l }).modThread tid
    fun t => { t with vrec := [], mrec := [] }

/-- Kills every transfer of a thread as `xkill` does. -/
def State.killAll (s : State) (tid : Nat) : State :=
  let core := coreOf tid
  let s := ((s.core core).xq.filter fun x => x.tid == tid).foldl (fun s x => s.killXfer core x true) s
  (numsFrom 0 4).foldl (fun s c =>
    match (s.chan core c).cur with
    | some x => if x.tid = tid then s.killXfer core x false else s
    | none => s) s

/-- Nests of a partition that have completed and whose applier has ended are freed (R272). -/
def State.reap (s : State) (part : Nat) : State :=
  match s.part part with
  | none => s
  | some p => (p.nests.filter fun n => n.complete && n.applier.isNone).foldl (fun s n => s.freeNest part n.record) s

/-- The last of an end: context and tiles are released and the slot becomes free; a handler's core starts the next. -/
def State.vacate (s : State) (tid : Nat) : State :=
  match s.thread tid with
  | none => s
  | some t =>
    let s := ((((s.dropSteward tid).freeCtx tid).freeTiles tid 0xFF).freeSlot tid).reap t.part
    if slotOf tid = 15 then s.startHandler (coreOf tid) else s

/-- Ends a thread that does not reach `exit`: its engine commands are cancelled and its transfers killed. -/
def State.endThread (s : State) (tid : Nat) : State := ((s.cancelWork tid).killAll tid).vacate tid

/-- Counts a population thread's join word down (R258, R290): at issue at its own home, and else by an update parcel, which its place
performs in its own order (R116). -/
def State.popDown (s : State) (tid : Nat) (t : Thread) : State :=
  match t.pop with
  | none => s
  | some p =>
    let me := coreOf tid
    let send := fun (place : Place) (loc : Loc) (page : Nat × Nat) =>
      ({ s with parcels := s.parcels ++
          [{ src := tid, seq := t.seq, part := t.part, place := place, loc := loc, acc := .red .add 8 (2 ^ 64 - 1), ctr := 3, va := p.join,
             page := page, firstAt := s.time, lastAt := s.time }] } : State).sig me 25
    if p.join = 0 then s
    else
      match s.window t.part me p.join with
      | some (.pantry h off) => send (.pantry h) ⟨.share t.part h, off⟩ (0, 0)
      | some (.global a) =>
        match s.translateNow me t.part t.sec .store a with
        | .ok e =>
          let l : Loc := ⟨.phys e.leaf.tier, e.leaf.pa + (a - e.base)⟩
          if e.leaf.home = me then (s.throughL1 me t.part (e.base, e.leaf.size) l).doRed .add l 8 (2 ^ 64 - 1)
          else send (.home e.leaf.home) l (e.base, e.leaf.size)
        | .error _ => s
      | _ => s

/-- Threads of a nest, of one of its nodes or of all, in rank order. -/
def State.members (s : State) (part rec : Nat) (node : Option Nat) : List (Nat × Thread) :=
  let l := s.threads.filter fun p => p.2.part == part && match p.2.team with
    | some r => r.nest == rec && (match node with
      | some i => r.node == i
      | none => true)
    | none => false
  match node with
  | none => l
  | some _ => ((numsFrom 0 65536).take (l.foldl (fun n p => match p.2.team with
      | some r => max n (r.rank + 1)
      | none => n) 0)).filterMap fun k => l.find? fun p => match p.2.team with
        | some r => r.rank == k
        | none => false

/-- Threads of a nest, of one of its nodes or of all, that are on their way to a slot arrive there, to be ended with the others. -/
def State.landTeam (s : State) (part rec : Nat) (node : Option Nat) : State :=
  (s.moving.filter fun m => m.t.part == part && match m.t.team with
    | some r => r.nest == rec && (node.isNone || node == some r.node)
    | none => false).foldl (fun s m => s.land m) s

/-- Makes CHILDFAULT pending for a nest's applier, if it exists, also while it is on its way to a slot (R274, R120). -/
def State.childfault (s : State) (n : Nest) (entry tid cause : Nat) (abort requeued : Bool) : State :=
  match n.applier with
  | none => s
  | some a =>
    let v := BitVec.ofNat 64 (entry + tid * 2 ^ 12 + cause % 256 * 2 ^ 32 + bit abort * 2 ^ 40 + bit requeued * 2 ^ 41)
    let f := fun (t : Thread) => { t with pend := t.pend ++ [.childfault v] }
    let s := s.modThread a f
    { s with moving := s.moving.map fun m => if m.slot = a then { m with t := f m.t } else m }

/-- ABORT (R273): every thread of the nest is ended and the nest completes with OUTCOME 2. -/
def State.abortNest (s : State) (part rec : Nat) : State :=
  let s := (s.modNest part rec fun n => { n with aborted := true }).landTeam part rec none
  let s := (s.members part rec none).foldl (fun s p =>
    match p.2.team with
    | some r => (s.endThread p.1).countDown part rec r.node 1
    | none => s) s
  s.nestDone part rec 2

/-- The items that a team's workers held when `csave` saved them (R269). -/
def State.savedItems (s : State) (part rec i : Nat) : List HeldItem :=
  match s.nest part rec with
  | some n => (n.saved.filter fun x => x.1 == i).map fun x => x.2.2
  | none => []

/-- The workers of a team that are saved hold nothing any more. -/
def State.dropSaved (s : State) (part rec i : Nat) : State :=
  s.modNest part rec fun n => { n with saved := n.saved.filter fun x => x.1 != i }

/-- CONTAIN (R273): the team's other threads are ended and it completes failed. -/
def State.containTeam (s : State) (part rec i : Nat) : State :=
  let s := s.landTeam part rec (some i)
  let m := s.members part rec (some i)
  let s := (m.foldl (fun s p => s.endThread p.1) s).dropSaved part rec i
  ((s.modNode part rec i fun x => { x with bad := true }).modNest part rec fun n => { n with failed := n.failed + 1 }).countDown
    part rec i m.length

/-- Puts items back at the head of a queue, even beyond its depth (R269). -/
def State.requeue (s : State) (part : Nat) (items : List HeldItem) : State :=
  items.reverse.foldl (fun s h =>
    s.modQueue part h.queue fun q => { q with items := h.item :: q.items, senders := 2 ^ 18 :: q.senders, requeued := h.item :: q.requeued }) s

/-- What threads hold from a feed queue (R269), also an item that is on its way to its worker. -/
def State.heldBy (s : State) (m : List (Nat × Thread)) : List HeldItem :=
  m.flatMap fun p => p.2.held.toList ++ (s.replies.filter fun r => r.tid == p.1).filterMap fun r => r.held

/-- RETRY (R269): items held and not yet requeued go back, and the team is written anew, or, where an item fails a second
time, the failure is handled as under CONTAIN. -/
def State.retryTeam (s : State) (part rec i : Nat) (n : Nest) (entry tid cause : Nat) : State :=
  let s := s.landTeam part rec (some i)
  let m := s.members part rec (some i)
  let held := s.heldBy m ++ s.savedItems part rec i
  let fresh := held.filter fun h => !h.requeued
  let again := held.any fun h => h.requeued
  let qs := (fresh.map fun h => h.queue).eraseDups
  let s := s.childfault n entry tid cause false (!fresh.isEmpty)
  if again then qs.foldl (fun s q => s.qServe part q) ((s.requeue part fresh).containTeam part rec i)
  else
    let s := m.foldl (fun s p => s.endThread p.1) s
    qs.foldl (fun s q => s.qServe part q) (((s.requeue part fresh).dropSaved part rec i).writeTeam part rec i)

/-- A thread fails (R273), or, outside a team, ends with its join word counted once (R301). -/
def State.failThread (s : State) (tid cause : Nat) : State :=
  match s.thread tid with
  | none => s
  | some t =>
    match t.team with
    | none => (s.popDown tid t).endThread tid
    | some r =>
      match s.nest t.part r.nest, s.node t.part r.nest r.node with
      | some n, some x =>
        let policy := match x.parent.bind fun p => n.nodes[p]? with
          | some y => y.policy
          | none => 0
        match policy with
        | 1 => (s.childfault n x.entry tid cause false false).containTeam t.part r.nest r.node
        | 2 => s.retryTeam t.part r.nest r.node n x.entry tid cause
        | _ =>
          ((s.childfault n x.entry tid cause true false).modNest t.part r.nest fun n => { n with failed := n.failed + 1 }).abortNest
            t.part r.nest
      | _, _ => s.endThread tid

/-- LOOP_VERDICT_LOAD (R270): the verdict is loaded at its home; a load that fails ends the nest as under ABORT. -/
def execLoopVerdictLoad (part nest : Nat) (s : State) : Out :=
  match s.nest part nest with
  | none => .next s
  | some n =>
    match n.verdicts with
    | [] => .next s
    | i :: l =>
      match n.nodes[i]? with
      | none => .next s
      | some x =>
        let va := x.words.getD 3 0
        match s.placerLoad part n.sec va with
        | .error _ => .next ((s.childfault n x.entry 0 0x13 true false).abortNest part nest)
        | .ok (e, v) =>
          if (s.core e.home).frozen then .next s
          else
            let s := s.modNest part nest fun n => { n with verdicts := l }
            if v ≠ 0 then .next (nodeDone 9 s part nest i)
            else
              let s := s.modNode part nest i fun y => { y with iter := y.iter + 1 }
              match x.children, s.node part nest i with
              | c :: _, some y => .next (startNode 9 s part nest c y.iter y.stage y.inq y.outq)
              | _, _ => .next s

end Sys2Proof.Machine
end

