-- ==== Sys2Proof/Machine/Thread.lean ====
section
/-! DEFINITION. The thread and combinator forms (spec/11 R285 to R294), KLOAD and balancing (R280, R281), and the end of a
sleep. -/

namespace Sys2Proof.Machine

/-! ### apply, patch, cread, join (R285 to R288) -/

/-- apply and apply.w (R285): the release first, then a request to the nest placer. -/
def State.applyForm (s : State) (ra rd : GReg) (w : Bool) : Out :=
  s.onThread fun t =>
    s.release t fun t =>
      let q : ApplyReq :=
        { tid := some s.cur, entry := bits (t.rd ra) 0 12, wait := w, d := rd, owner := t.owner, sec := t.sec, start := coreOf s.cur,
          starter := t.fp.starter, mprec := t.mat.mprec, mfmt := t.mat.mfmt, mscale := t.mat.mscale }
      afterRetire (s.wait t (.reply (if w then .applyW else .unit))) fun s =>
        s.modPart t.part fun p => { p with applies := p.applies ++ [q] }

/-- apply (R285). -/
def execApply (ra rd : GReg) (s : State) : Out := s.applyForm ra rd false
/-- apply.w (R285). -/
def execApplyW (ra rd : GReg) (s : State) : Out := s.applyForm ra rd true

/-- A request to the callable entry that ga names, which reads or writes one of its doublewords at the pantry pipe (R259, R116). -/
def State.atEntry (s : State) (t : Thread) (ra : GReg) (write : Bool) (w : WaitKind) (k : Nat → Out) : Out :=
  let e := bits (t.rd ra) 0 12
  s.atPlace t (.pantry (s.placing t.part)) ⟨.share t.part (s.placing t.part), 128 * e⟩ (.op 8 write []) (t.rd ra) w fun _ _ => k e

/-- patch (R286). -/
def execPatch (ra rb rd : GReg) (s : State) : Out :=
  s.onThread fun t =>
    s.atEntry t ra true .request fun e =>
      if field (s.entryWords t.part e) 0 0 3 = 0 then s.answer t .request [(rd.val, 5)]
      else (s.pipeWrite t.part (128 * e + 64 + 8 * bits (t.rd ra) 16 3) [t.rd rb]).answer t .request [(rd.val, 0)]

/-- cread (R287): an empty entry reads as zeros. -/
def execCread (ra rd : GReg) (s : State) : Out :=
  s.onThread fun t =>
    s.atEntry t ra false .load fun e =>
      let w := s.entryWords t.part e
      s.answer t .load [(rd.val, BitVec.ofNat 64 (if field w 0 0 3 = 0 then 0 else w.getD (bits (t.rd ra) 16 4) 0))]

/-- The live nest whose record an address names (R272). -/
def State.nestAt (s : State) (part core : Nat) (va : Word) : Option Nest :=
  match s.window part core va with
  | some (.pantry h off) =>
    if h = s.placing part ∧ 0x80000 ≤ off ∧ off < 0xC0000 ∧ off % 64 = 0 then s.nest part ((off - 0x80000) / 64) else none
  | _ => none

/-- join (R288): it frees the record of a nest that has completed (R272). -/
def execJoin (ra rd : GReg) (s : State) : Out :=
  s.onThread fun t =>
    match s.nestAt t.part (coreOf s.cur) (t.rd ra) with
    | none => s.write t rd 7 0
    | some n =>
      if n.complete then
        afterRetire (s.write t rd (BitVec.ofNat 64 (s.readShare t.part (s.placing t.part) (recordOff n.record + 8) 8)) 0) fun s =>
          s.freeNest t.part n.record
      else
        afterRetire (s.wait t (.reply .join)) fun s =>
          s.modNest t.part n.record fun n => { n with joiners := n.joiners ++ [(s.cur, rd)] }

/-! ### send, hret, exit (R289, R290) -/

/-- send (R289): one counted handler parcel with g1 to gn. -/
def execSend (ra rb rd : GReg) (n : Fin 5) (s : State) : Out :=
  s.onThread fun t =>
    let target := bits (t.rd ra) 0 14
    let ours := match s.part t.part with
      | some p => p.worker target
      | none => false
    if !ours then s.write t rd 3 0
    else
      let h : HandlerParcel :=
        { handler := t.rd rb, args := (numsFrom 1 n.val).map t.rdN, sender := BitVec.ofNat 64 s.cur, starter := t.fp.starter,
          owner := t.owner, part := t.part, sec := t.sec, priv := t.priv }
      s.post t (.lm target) ⟨.lm target, 0⟩ (.handler target h) (ctrFor (coreOf s.cur) target) (t.rd ra) fun t s => s.write t rd 0 0

/-- The end of a thread by `exit` or `hret` (R290): a pending POISON trap, the context as `vrel` returns it (R142), matrix
commands as `mstop` cancels them (R178), then the slot and the join words. The instruction issues behind its waits (R141). -/
def State.endForm (s : State) (t : Thread) : Out :=
  s.poisonFirst t fun t =>
    let me := coreOf s.cur
    let mine := (s.core me).mq.filter fun c => c.tid == s.cur
    let queued := mine.filter fun c => !c.begun
    let s := queued.foldl (fun s c => s.mcancel me c) s
    if s.vbusy s.cur || !t.vrec.isEmpty then s.until t .vgone
    else
      match mine.find? fun c => c.begun with
      | some c =>
        let c := match c.stopping with
          | none => { c with stopping := some (0, queued.length) }
          | some _ => c
        (s.modCore me fun k => k.setM c).until t (.mdone 0xFF)
      | none =>
        afterRetire (s.finish t 0) fun s =>
          let s := s.popDown s.cur t
          let s := (s.cancelWork s.cur).vacate s.cur
          match t.team with
          | some r => s.countDown t.part r.nest r.node 1
          | none => s

/-- hret (R290). -/
def execHret (s : State) : Out :=
  s.onThread fun t => if slotOf s.cur ≠ 15 then s.illegal t else s.release t fun t => s.endForm t

/-- exit (R290): a population thread's join word is checked first, as `red.add.d` would. -/
def execExit (s : State) : Out :=
  s.onThread fun t =>
    if slotOf s.cur = 15 then s.illegal t
    else
      s.release t fun t =>
        match t.pop with
        | none => s.endForm t
        | some p =>
          if p.join = 0 then s.endForm t
          else
            s.access t p.join 8 .store true false fun s _ => s.endForm t

/-! ### yield and resume (R291) -/

/-- Puts an item into one queue and then takes one from another, blocking for both: one request to the pantry of both (R116). -/
def State.putTake (s : State) (t : Thread) (out inq : Nat) (item : Word) (b d : GReg) (k : WaitKind) : Out :=
  s.atPlace t (.pantry (s.placing t.part)) ⟨.share t.part (s.placing t.part), queueOff + 64 * out⟩ (.op 8 true [])
    (queueHandle (s.placing t.part) out) k fun _ _ =>
      afterRetire (s.wait t (.reply k)) fun s =>
        (s.modQueue t.part out fun x =>
          { x with putters := x.putters ++ [{ tid := s.cur, item := item, d := d, b := b, next := some inq, kind := k }] }).qServe t.part out

/-- yield (R291). -/
def execYield (ra rb rd : GReg) (s : State) : Out :=
  s.onThread fun t =>
    match t.team with
    | none => s.write t rb 3 0
    | some r =>
      if !r.coro then s.write t rb 3 0
      else
        s.release t fun t =>
          match s.queueAt t.part (coreOf s.cur) r.outq, s.queueAt t.part (coreOf s.cur) r.inq with
          | none, _ => s.addr t r.outq
          | _, none => s.addr t r.inq
          | some o, some i => s.putTake t o i (t.rd ra) rb rd .yield

/-- resume (R291). -/
def execResume (ra rb rd : GReg) (s : State) : Out :=
  s.onThread fun t =>
    match (s.nestAt t.part (coreOf s.cur) (t.rd ra)).bind fun n => n.nodes.head? with
    | none => s.write t rb 3 0
    | some x =>
      match x.kind, x.queues with
      | 2, [i, o] => s.release t fun t => s.putTake t i o (t.rd rb) rb rd .resume
      | _, _ => s.write t rb 3 0

/-! ### tid and stage (R292) -/

/-- What `tid` reads by selector. -/
def State.tidValue (s : State) (tid : Nat) (t : Thread) (z : Nat) : Word :=
  let rec_ := fun (n : Nat) => recordVa (s.placing t.part) n
  match t.team, z with
  | _, 0 => BitVec.ofNat 64 tid
  | some r, 1 => BitVec.ofNat 64 r.rank
  | some r, 2 => BitVec.ofNat 64 r.size
  | some r, 3 => rec_ r.nest
  | some r, 4 => rec_ r.record
  | some r, 5 => BitVec.ofNat 64 r.bar
  | some r, 6 => BitVec.ofNat 64 r.iter
  | some r, _ => BitVec.ofNat 64 r.entry
  | none, 1 => match t.pop with
    | some p => BitVec.ofNat 64 p.rank
    | none => 0
  | none, 2 => match t.pop with
    | some p => BitVec.ofNat 64 p.size
    | none => 0
  | none, 7 => BitVec.allOnes 64
  | none, _ => 0

/-- tid (R292). -/
def execTid (rd : GReg) (z : Fin 8) (s : State) : Out := s.onThread fun t => s.write t rd (s.tidValue s.cur t z.val) 0

/-- What `stage` reads by selector. -/
def Thread.stageValue (t : Thread) (z : Nat) : Word :=
  match z, t.team with
  | 0, _ => BitVec.ofNat 64 t.stageNo
  | 1, some r => r.inq
  | _, some r => r.outq
  | _, none => 0

/-- stage (R292). -/
def execStage (rd : GReg) (z : Fin 3) (s : State) : Out := s.onThread fun t => s.write t rd (t.stageValue z.val) 0

/-! ### Balancing (R280, R281, R293) -/

/-- Ready threads in slots 0 to 14 of a core. -/
def State.readyCount (s : State) (core : Nat) : Nat :=
  ((s.onCore core).filter fun p => slotOf p.1 != 15 && s.ready p.1 p.2).length

/-- RDYc of KLOAD for core k of a cluster (R280). -/
def State.rdy (s : State) (cl k : Nat) : Nat :=
  let core := 16 * cl + k
  if s.parts.any fun p => p.2.svc == core then 15 else min (s.readyCount core) 15

/-- KLOAD_REFRESH (R280): every 128 cc. -/
def execKloadRefresh (cluster : Nat) (s : State) : Out :=
  if s.cc % 128 ≠ 0 then .next s
  else
    .next (s.setCluster cluster { s.cluster cluster with
      kload := BitVec.ofNat 64 ((numsFrom 0 16).foldl (fun acc k => acc + s.rdy cluster k * 16 ^ k) 0) })

/-- The core to balance to: the lowest count in KLOAD among the cluster's other cores, ties to the lowest number, when it is
at least 2 below the core's own count (R281). -/
def State.balanceTo (s : State) (core : Nat) : Option Nat :=
  let cl := clusterOf core
  let w := (s.cluster cl).kload
  let best := (numsFrom 0 16).foldl (fun (acc : Option (Nat × Nat)) k =>
    if 16 * cl + k = core then acc
    else match acc with
      | none => some (k, bits w (4 * k) 4)
      | some (j, n) => if bits w (4 * k) 4 < n then some (k, bits w (4 * k) 4) else some (j, n)) none
  match best with
  | some (k, n) => if 2 ≤ s.readyCount core ∧ n + 2 ≤ s.readyCount core then some (16 * cl + k) else none
  | none => none

/-- 2 µs have passed since the core's last check. -/
def State.balanceDue (s : State) (core : Nat) : Bool :=
  match (s.core core).lastBal with
  | some t => decide (t + 2000 ≤ s.time)
  | none => true

/-- The core's interval restarts. -/
def State.balanced (s : State) (core : Nat) : State := s.modCore core fun c => { c with lastBal := some s.time }

/-- bal (R293). -/
def execBal (rd : GReg) (s : State) : Out :=
  s.onThread fun t =>
    let me := coreOf s.cur
    if !s.balanceDue me then s.write t rd 5 0
    else
      match s.balanceTo me with
      | none => (s.balanced me).write t rd 4 0
      | some dest =>
        if s.heavy s.cur || slotOf s.cur == 15 then (s.balanced me).write t rd 1 0
        else s.release t fun t => (s.balanced me).wait t (.migrate dest (.form rd 0))

/-- BALANCE_CHECK (R281): at a rotation boundary, when the partition's balancing policy is on. -/
def execBalanceCheck (core : Nat) (s : State) : Out :=
  let on := s.parts.any fun p => p.2.hasCore core && p.2.balancing
  if !on || (s.cc - (s.core core).base) % 32 != 0 || !s.balanceDue core then .next s
  else
    let can := fun (p : Nat × Thread) =>
      slotOf p.1 != 15 && s.ready p.1 p.2 && !s.heavy p.1 && s.threadShed p.1 p.2 == 0
    match s.balanceTo core, (s.onCore core).find? can with
    | some dest, some (tid, t) => .next ((s.balanced core).setThread tid { t with block := .migrate dest .balance })
    | _, _ => .next (s.balanced core)

/-! ### sleep and wake (R294) -/

/-- sleep (R294). -/
def execSleep (ra rd : GReg) (s : State) : Out :=
  s.onThread fun t => if t.ep then s.write { t with ep := false, sleptAt := some s.cc } rd 0 0 else s.wait t (.sleep (t.rd ra) rd)

/-- SLEEP_TIMEOUT (R294, R363): gd := 1 when TIME has reached a nonzero limit. -/
def execSleepTimeout (tid : Nat) (s : State) : Out :=
  match s.thread tid with
  | none => .next s
  | some t =>
    match t.block with
    | .sleep l d => if l ≠ 0 ∧ l.toNat ≤ s.timeAt (coreOf tid) then .next (s.complete tid 0 fun t => t.wr d 1) else .next s
    | _ => .next s

/-- wake (R294): applied at issue on the issuer's own core, else a counted parcel. -/
def execWake (ra rd : GReg) (s : State) : Out :=
  s.onThread fun t =>
    let target := bits (t.rd ra) 0 18
    let core := coreOf target
    let ours := match s.part t.part with
      | some p => p.hasCore core
      | none => false
    if !ours then s.write t rd 3 0
    else if core = coreOf s.cur then afterRetire (s.write t rd 0 0) fun s => s.wakeSlot target
    else s.post t (.lm core) ⟨.lm core, 0⟩ (.wake target) (ctrFor (coreOf s.cur) core) (t.rd ra) fun t s => s.write t rd 0 0

end Sys2Proof.Machine
end

