-- ==== Sys2Proof/Machine/Fault.lean ====
section
/-! DEFINITION. Verdicts on fault records (spec/12 R301), deadlock (R306) and core freeze (R307). -/

namespace Sys2Proof.Machine

/-! ### Verdicts (R301) -/

/-- Doubleword k of fault record f. -/
def State.faultWord (s : State) (part f k : Nat) : Word :=
  BitVec.ofNat 64 ((s.mem (.share part (s.placing part))).read (faultOff f + 8 * k) 8)

/-- REFLECT: entry to the TVEC handler with the record's TCAUSE, TPC, TVAL and TSTAT2, and REFL (R301). -/
def State.reflect (s : State) (part f tid : Nat) (t : Thread) : State :=
  s.setThread tid { t.enter t.handler (s.faultWord part f 2) ((s.faultWord part f 3 &&& 0xFFFF) ||| 0x10000) (s.faultWord part f 4)
    (s.faultWord part f 6 &&& 0x2FFFFFFFF) .other with readyAt := s.cc + 1 }

/-- RESUME: g1 to g6 and the pc from the record (R301). -/
def State.resumeFrom (s : State) (part f tid : Nat) (t : Thread) : State :=
  let t := t.wrs ((numsFrom 1 6).map fun k => (k, s.faultWord part f (7 + k)))
  s.setThread tid { t with pc := s.faultWord part f 7, block := .none, readyAt := s.cc + 1, walkRes := none, noMig := false }

/-- VERDICT_ACTION (R301): the parked thread acts and the record is freed; a record of a lost core acts as END (R307). -/
def execVerdictAction (part record : Nat) (s : State) : Out :=
  match (s.part part).bind fun p => p.faults.look record with
  | none => .next s
  | some tid =>
    match s.thread tid with
    | none => .next s
    | some t =>
      let v := s.faultWord part record 0
      if t.block ≠ .parked record ∨ v = 0 ∨ 3 < v.toNat then .next s
      else
        let cause := bits (s.faultWord part record 3) 0 8
        let lost := (s.core (coreOf tid)).lost
        let s' :=
          if v = 3 ∨ lost = true then s.failThread tid cause
          else if v = 1 then s.resumeFrom part record tid t
          else if t.handler = 0 ∨ t.ut = true then s.failThread tid cause
          else s.reflect part record tid t
        .next (s'.freeFault part record)

/-! ### Deadlock (R306) -/

/-- The kinds of wait of R306 that end by a reply. -/
def WaitKind.parks : WaitKind → Bool
  | .waitw | .join | .applyW | .pbar | .qput | .qget | .yield | .resume | .sysc | .ringFull => true
  | _ => false

/-- A thread is parked (R306). -/
def Block.parks : Block → Bool
  | .reply k => k.parks
  | .barw _ _ _ _ l _ _ => l.isNone
  | .sleep l _ => l == 0
  | .xwait _ _ _ => true
  | .await (.mdone _) _ => true
  | .parked _ | .faultWait _ _ _ _ _ => true
  | _ => false

/-- Worker threads of a partition: those not on its service core. -/
def State.workers (s : State) (part : Nat) (p : Partition) : List (Nat × Thread) :=
  (s.ofPart part).filter fun q => coreOf q.1 != p.svc

/-- No engine of the partition's cores holds a command that is queued or running. -/
def State.enginesIdle (s : State) (p : Partition) : Bool :=
  s.cores.all fun c => !p.hasCore c.1 ||
    (c.2.vq.isEmpty && c.2.mq.isEmpty && c.2.latch.isNone && c.2.xq.isEmpty && c.2.chans.all fun k => match k.cur with
      | some x => s.pausedXfer c.1 x
      | none => true)

/-- Nothing of the partition is on its way: requests, replies, parcels, walks, threads, and numbers still to put into its queues. -/
def State.partQuiet (s : State) (part : Nat) (p : Partition) : Bool :=
  let mine := fun (tid : Nat) => match s.thread tid with
    | some t => t.part == part
    | none => false
  s.parcels.all (fun q => q.part != part) && s.replies.all (fun r => !mine r.tid) && s.wakes.all (fun r => !mine r.tid) &&
  s.hearths.all (fun h => h.2.walks.all fun w => w.part != part) && p.applies.isEmpty && p.faultPut.isEmpty && p.ringPut.isEmpty &&
  p.nests.all (fun n => n.verdicts.isEmpty) && !p.released && s.starts.all (fun x => x.1 != part) && s.moving.all fun m => m.t.part != part

/-- The fault and system-call queues are empty and no ring entry is posted. -/
def State.serviceQuiet (s : State) (part : Nat) (p : Partition) : Bool :=
  let empty := fun (k : Nat) => match s.controlQueue part k with
    | some q => (p.queue q).items.isEmpty
    | none => true
  empty 0 && empty 1 && p.ring.all fun e => (s.mem (.share part p.placing)).read (ringOff e.1) 8 != 1

/-- The partition is deadlocked (R306): every thread off the service core is parked, and there may be none. -/
def State.deadlocked (s : State) (part : Nat) (p : Partition) : Bool :=
  let w := s.workers part p
  w.all (fun q => q.2.block.parks) && s.enginesIdle p && s.partQuiet part p && s.serviceQuiet part p &&
    p.wakes.isEmpty && (s.ofPart part).all fun q => !s.isSuspended q.1 q.2 && q.2.stop == .none

/-- DEADLOCK (R306): it is pending on the service core, whose first thread at a boundary takes it; once until some thread of the partition
has been ready again. -/
def execDeadlock (part : Nat) (s : State) : Out :=
  match s.part part with
  | none => .next s
  | some p =>
    if p.deadRaised || !s.deadlocked part p then .next s
    else
      .next (s.setPart part
        { p with deadRaised := true, deadlock := some (BitVec.ofNat 64 (min (s.workers part p).length (2 ^ 32 - 1))) })

/-- Some thread of the partition has been ready since the last DEADLOCK. -/
def State.watchReady (s : State) : State :=
  { s with parts := s.parts.over fun part p =>
      if p.deadRaised && (s.ofPart part).any fun q => s.ready q.1 q.2 then { p with deadRaised := false } else p }

/-! ### Core freeze (R307) -/

/-- A machine check to be taken at the thread's next instruction. -/
def State.pendMcheck (s : State) (tid sub : Nat) : State :=
  { s.modThread tid fun t =>
      { t.addMcheck ⟨0x15, sub, Config.lostValue s.fresh⟩ with
               block := match t.block with
                 | .vvalue | .latch => .none
                 | b => b } with fresh := s.fresh + 1 }

/-- A transfer whose state held the error is discarded: its ranges are released, and its ID names nothing any more (log 80). -/
def State.loseXfer (s : State) (core : Nat) (x : Xfer) : State :=
  let s := x.recv.foldl (fun s r => s.freeLocks r.core x.uid) (s.freeLocks core x.uid)
  let s := s.modCore core fun c => { c with xq := c.xq.filter fun y => y.uid != x.uid }
  let s := s.modChan core x.ch fun k => { k with cur := k.cur.bind fun y => if y.uid = x.uid then none else some y }
  let s := if x.form = .out ∧ x.root ≠ 0 then s.unitDrop x.part x.root else s
  (s.wakeXwait core x.ch x.seq 4).wakeXwp core x.ch

/-- Engine commands and transfers whose state held the error are discarded, with the meters that nothing else keeps (R340). -/
def State.loseCommands (s : State) (core : Nat) (uids : List Nat) : State :=
  let k := s.core core
  let lostV := k.vq.filter fun c => uids.contains c.uid
  let lostM := k.mq.filter fun c => uids.contains c.uid
  let lostX := (k.chans.filterMap (fun c => c.cur) ++ k.xq).filter fun x => uids.contains x.uid
  let latched := match k.latch with
    | some l => if uids.contains l.cmd.uid then [l.cmd.tid] else []
    | none => []
  let s := lostV.foldl (fun s c => s.freeLocks core c.uid) s
  let s := lostM.foldl (fun s c => s.mcancel core c) s
  let s := lostX.foldl (fun s x => s.loseXfer core x) s
  let s := s.modCore core fun k =>
    { k with vq := k.vq.filter (fun c => !uids.contains c.uid),
             latch := k.latch.bind fun l => if uids.contains l.cmd.uid then none else some l }
  (((lostV.map VCmd.tid ++ lostM.map MCmd.tid ++ lostX.map Xfer.tid ++ latched).eraseDups).foldl (fun s t => s.pendMcheck t 6) s).sweepMeters core

/-- A thread of a lost core is reported through a fault record (R307): a record it is parked in takes the new report. -/
def State.loseThread (s : State) (tid : Nat) : State :=
  match s.thread tid with
  | none => s
  | some t =>
    let v := Config.lostValue s.fresh
    let s := ({ s with fresh := s.fresh + 1 } : State).unwait tid |>.orphan tid
    match t.block, s.part t.part with
    | .parked f, some x => s.writeFault t.part x f tid t 0x15 5 v t.pc (tstat2Of 0 false)
    | .faultWait _ _ _ _ _, _ => s.setThread tid { t with block := .faultWait 0x15 5 v t.pc (tstat2Of 0 false) }
    | _, _ => s.park tid { t with mcheck := [] } 0x15 5 v t.pc (tstat2Of 0 false)

/-- The core is lost (R307): threads on their way to it arrive, and every thread of it is reported. -/
def State.loseCore (s : State) (core : Nat) : State :=
  let s := (s.moving.filter fun m => coreOf m.slot == core).foldl (fun s m => s.land m) (s.modCore core fun k => { k with lost := true })
  (s.onCore core).foldl (fun s p => s.loseThread p.1) s

/-- CORE_FREEZE (R307), in two turns of the row. The first freezes the core: it issues nothing, its engines grant nothing and
traffic for it is held. The second is the takeover: the spare has the core's state with the lost state marked, or, in a
cluster whose spare has already taken over, the core is lost. -/
def execCoreFreeze (core : Nat) (lostSlots lostLines lostEngines : List Nat) (s : State) : Out :=
  let cl := clusterOf core
  if (s.core core).lost then .next s
  else if (s.core core).frozen = false then .next (s.modCore core fun k => { k with frozen := true })
  else
    let s := s.modCore core fun k => { k with frozen := false }
    if (s.cluster cl).spareUsed then
      .next (s.loseCore core)
    else
      let s := s.setCluster cl { s.cluster cl with spareUsed := true }
      let s := (lostSlots.filter fun k => decide (k < 16)).foldl (fun s k => s.pendMcheck (16 * core + k) 3) s
      let s := s.loseCommands core lostEngines
      .next (s.modCore core fun k =>
        { k with tlb := [], l1 := [], poisoned := (k.poisoned ++ lostLines.filter fun l => decide (l < 4096)).eraseDups })

end Sys2Proof.Machine
end

