-- ==== Sys2Proof/Machine/Context.lean ====
section
/-! DEFINITION. Context images (spec/12 R308), `csave` (R309) and `crest` (R310). -/

namespace Sys2Proof.Machine

/-! ### The image (R308) -/

/-- The largest image. -/
def imageMax : Nat := 107520

/-- A list of words cut or filled with zeros to n. -/
def padTo (n : Nat) (l : List Word) : List Word := l.take n ++ List.replicate (n - l.length) 0

/-- Splits a number into n words of 64 bits, lowest first. -/
def wordsOf : Nat → Nat → List Word
  | 0, _ => []
  | n + 1, v => BitVec.ofNat 64 v :: wordsOf n (v / 2 ^ 64)

/-- The number that words give, lowest first. -/
def numOf : List Word → Nat
  | [] => 0
  | w :: l => w.toNat + 2 ^ 64 * numOf l

/-- A matrix command of the restart record: the word, bit 32 the gate phase and bit 33 whether the gate has opened; the
captured registers. -/
def MCmd.image (c : MCmd) : List Word :=
  let phase := match c.gate with
    | some g => bit g.phase + 2 * bit (c.opened == some false)
    | none => 0
  [BitVec.ofNat 64 (c.word.toNat + 2 ^ 32 * phase), c.ga, c.gb, c.gd, c.regs.mprec, c.regs.mfmt, c.regs.mgeom, c.regs.mblk,
    c.regs.mscale, c.regs.macc]

/-- A vector command of the restart record: the word, the captured g values, VL, FRM, STARTER and VPOS. -/
def VCmd.image (c : VCmd) : List Word :=
  padTo 8 [BitVec.ofNat 64 c.word.toNat, c.x, c.y, BitVec.ofNat 64 c.vl, c.frm, c.starter, BitVec.ofNat 64 c.pos]

/-- COPYDONE transfer IDs and CHILDFAULT values pending, earliest first. -/
def copydones (l : List Pending) : List Word := l.filterMap fun p => match p with
  | .copydone id _ => some id
  | .childfault _ => none
/-- The CHILDFAULT values. -/
def childfaults (l : List Pending) : List Word := l.filterMap fun p => match p with
  | .childfault v => some v
  | .copydone _ _ => none

/-- Team and population fields of the header; a population's join word stands in the place of the team record. -/
def Thread.standing (t : Thread) (placing : Nat) : List Word :=
  let n := fun (k : Nat) => BitVec.ofNat 64 k
  match t.team, t.pop with
  | some r, _ => [recordVa placing r.nest, recordVa placing r.record, n r.rank, n r.size, n r.entry, n r.iter, n r.bar, n t.stageNo]
  | none, some p => [0, p.join, n p.rank, n p.size, 0, 0, 0, n t.stageNo]
  | none, none => [0, 0, 0, 0, 0, 0, 0, n t.stageNo]

/-- The tiles that a thread holds, as a mask. -/
def Core.tileMask (c : Core) (tid : Nat) : Nat :=
  (c.tiles.zip (numsFrom 0 8)).foldl (fun m p => if p.1.holder = some tid then m + 2 ^ p.2 else m) 0

/-- Tile numbers of a mask. -/
def tilesOf (mask : Nat) : List Nat := (numsFrom 0 8).filter fun k => mask.testBit k

/-- SIZE of an image. -/
def imageSize (vec : Bool) (mask : Nat) : Nat := 1024 + 8192 * bit vec + 12288 * (tilesOf mask).length

/-- The header of an image. -/
def State.header (s : State) (tid : Nat) (t : Thread) (vec : Bool) (mask : Nat) : List Word :=
  let mark : Option Word := match t.takeMark true true true with
    | some (e, _) => some e.va
    | none => t.mcheck.head?.map TrapInfo.tval
  let cd := copydones t.pend
  let cf := childfaults t.pend
  let hdr := 1 + 2 ^ 8 * bit vec + 2 ^ 9 * bit mark.isSome + 2 ^ 10 * bit (!t.poison.isEmpty) + 2 ^ 11 * bit t.ep +
    2 ^ 13 * bit (decide (8 < cd.length) || decide (4 < cf.length)) + 2 ^ 16 * mask + 2 ^ 32 * imageSize vec mask
  padTo 128 <|
    [BitVec.ofNat 64 hdr, BitVec.ofNat 64 tid, t.pc, s.tstat tid t, t.trap.tpc, t.trap.tcause, t.trap.tval, t.trap.tvec, t.trap.tstat2,
      mark.getD 0] ++
    ((numsFrom 1 31).map t.rdN) ++ [t.fp.vl, t.fp.vpos, t.fp.frm, t.fp.fflags, t.fp.starter] ++
    ((numsFrom 0 6).map t.mat.get) ++ [t.mstat, t.mcont] ++
    [t.cp.xsrc, t.cp.xdst, t.cp.xlen, t.cp.xstride, t.cp.xdim, t.cp.xhnd, t.cp.xmask] ++ t.standing (s.placing t.part) ++
    padTo 8 cd ++ padTo 4 cf ++ padTo 20 (t.mrec.map MCmd.image).flatten

/-- Pairs of 32-bit elements as words. -/
def pairUp : List (BitVec 32) → List Word
  | a :: b :: l => BitVec.ofNat 64 (a.toNat + 2 ^ 32 * b.toNat) :: pairUp l
  | _ => []

/-- The vector section: registers, masks and the vector restart record. -/
def vectorSection (x : VCtx) (rec_ : List VCmd) : List Word :=
  padTo 1024 <|
    pairUp ((numsFrom 0 1024).map fun k => (x.v.look k).getD 0) ++ padTo 8 ((numsFrom 1 7).map fun k => (x.m.look k).getD 0) ++
    padTo 16 (rec_.map VCmd.image).flatten

/-- Two's complement of an integer in 128 bits. -/
def wide (v : Int) : List Word := wordsOf 2 (v % (2 ^ 128 : Nat)).toNat

/-- A tile section: elements, recorded exponent and mode, and the continuation store. -/
def tileSection (x : TileSt) : List Word :=
  padTo 1536 <|
    ((numsFrom 0 256).map fun k => (x.el.look k).getD 0) ++ padTo 32 [BitVec.ofNat 64 (x.eacc % 256 + 256 * x.mode)] ++
    ((numsFrom 0 256).map fun k => wide ((x.contT.look k).getD 0)).flatten ++
    ((numsFrom 0 256).map fun k => wide ((x.contS.look k).getD 0)).flatten

/-- The image of a thread whose commands stand in its restart records. -/
def State.image (s : State) (tid : Nat) (t : Thread) : List Word :=
  let c := s.core (coreOf tid)
  let vec := holdsCtx c tid
  let mask := c.tileMask tid
  s.header tid t vec mask ++
    (if vec then vectorSection ((c.vctx.find? fun v => v.holder == some tid).getD {}) t.vrec else []) ++
    ((tilesOf mask).map fun k => tileSection (c.tiles.getD k {})).flatten

/-! ### Addresses of an image (R309) -/

/-- Where a byte of a window or page lies, translated at once. -/
def State.vaLoc (s : State) (core : Nat) (t : Thread) (k : AccessKind) (va : Nat) : Option Loc :=
  match s.window t.part core (BitVec.ofNat 64 va) with
  | some (.pantry h off) => some ⟨.share t.part h, off⟩
  | some (.global a) =>
    match s.translateNow core t.part t.sec k a with
    | .ok e => some ⟨.phys e.leaf.tier, e.leaf.pa + (a - e.base)⟩
    | .error _ => none
  | _ => none

/-- Addresses of a range of n bytes at which a 64 KiB page may begin: its start and each multiple of 64 KiB inside. -/
def pageStarts (va n : Nat) : List Nat :=
  va :: (numsFrom (va / 2 ^ 16 + 1) 2).filterMap fun p => if p * 2 ^ 16 < va + n then some (p * 2 ^ 16) else none

/-- Translates each page of a list, with the walks and faults of the issuing thread. -/
def State.pagesOk (s : State) (t : Thread) (kind : AccessKind) (k : Out) : List Nat → Out
  | [] => k
  | a :: l =>
    s.translate t a fun s r =>
      match r with
      | .error reason => s.pageFault t (BitVec.ofNat 64 a) reason
      | .ok e =>
        let reason := s.leafReason t.part t.sec kind e.leaf (a - e.base)
        if reason ≠ 0 then s.pageFault t (BitVec.ofNat 64 a) reason
        else if !e.leaf.exists_ (a - e.base) then .fault (.noMemory e.leaf.tier (e.leaf.pa + (a - e.base)))
        else s.pagesOk t kind k l

/-- The check of an image's range: aligned to 1,024, in a pantry window or in pages translated for the kind of access. -/
def State.imageRange (s : State) (t : Thread) (va : Word) (n : Nat) (kind : AccessKind) (k : Out) : Out :=
  if bits va 0 10 ≠ 0 then s.addr t va
  else
    match s.window t.part (coreOf s.cur) va with
    | some (.pantry h off) =>
      let size := min (s.shareSize t.part h) (2 ^ 26)
      if off + n ≤ size then k else s.addr t (va + BitVec.ofNat 64 (size - off))
    | some (.global a) => if a + n ≤ 2 ^ 63 then s.pagesOk t kind k (pageStarts a n) else s.addr t (BitVec.ofNat 64 (2 ^ 63))
    | _ => s.addr t va

/-- Writes an image's words from an address. -/
def State.writeImage (s : State) (core : Nat) (t : Thread) (va : Nat) : List Word → State
  | [] => s
  | w :: l =>
    (match s.vaLoc core t .store va with
      | some loc => s.writeLoc loc 8 w.toNat
      | none => s).writeImage core t (va + 8) l

/-- Reads n words of an image. -/
def State.readImage (s : State) (core : Nat) (t : Thread) (va n : Nat) : List Word :=
  (numsFrom 0 n).map fun k =>
    match s.vaLoc core t .load (va + 8 * k) with
    | some l => BitVec.ofNat 64 (s.readLoc l 8)
    | none => 0

/-! ### csave (R309) -/

/-- The command that is to deliver a register to a thread in `vvalue`: its latest one, in the queue or in its record. -/
def State.valueCmd (s : State) (tid : Nat) (t : Thread) : Option VCmd :=
  (t.vrec ++ (s.core (coreOf tid)).vq.filter fun c => c.tid == tid).getLast?

/-- Drops what a thread waits for, and the command that would deliver to it: its instruction issues again after a restore. -/
def State.dropWait (s : State) (tid : Nat) (t : Thread) : State :=
  let core := coreOf tid
  let s :=
    match t.block, s.valueCmd tid t with
    | .vvalue, some c =>
      ((s.freeLocks core c.uid).modCore core fun k => k.dropV c.uid).modThread tid fun t => { t with vrec := t.vrec.filter fun x => x.uid != c.uid }
    | .latch, _ => s.modCore core fun k => { k with latch := none }
    | _, _ => s
  s.unwait tid

/-- Paused transfers of a thread are killed (R230). DESIGN CHOICE (log 109): a queued one is killed as a paused one while its owner's work is
suspended, and is waited for otherwise: R230 names paused and running ones. -/
def State.killPaused (s : State) (tid : Nat) : State :=
  let core := coreOf tid
  let paused := (s.core core).chans.filterMap fun k => k.cur.bind fun x => if x.tid = tid ∧ s.pausedXfer core x = true then some x else none
  let queued := (s.core core).xq.filter fun x => x.tid == tid && s.pausedXfer core x
  queued.foldl (fun s x => s.endXfer core { x with root := 0 } 3 0) (paused.foldl (fun s x => s.endXfer core x 3 0) s)

/-- The thread leaves rotation, and its paused transfers are killed. -/
def State.startSaving (s : State) (tid : Nat) (t : Thread) : State :=
  ((s.dropWait tid t).modThread tid fun t => { t with block := .saving, walkRes := none, noMig := false }).killPaused tid

/-- Releases what a saved thread holds and frees its slot; a recorded `mmulg` gives back the operand latch (R206). -/
def State.unload (s : State) (tid : Nat) (t : Thread) : State :=
  let core := coreOf tid
  let s := (t.vrec.map VCmd.uid ++ t.mrec.map MCmd.uid).foldl (fun s u => s.freeLocks core u) s
  let s := s.modCore core fun k => { k with latch := k.latch.filter fun l => l.cmd.tid != tid }
  (((s.freeCtx tid).freeTiles tid 0xFF).moveApplier t.part tid (tid + 2 ^ 21)).freeSlot tid

/-- The stop of a save (R309): paused transfers are killed, handling ends, and the thread's commands go to its restart records. -/
def State.stopWork (s : State) (tid : Nat) : State := ((s.killPaused tid).dropSteward tid).recordThread tid fun _ _ => true

/-- The item that a worker holds stays its own while it is saved (R269): its nest keeps it, by the worker's node and rank. -/
def State.keepHeld (s : State) (t : Thread) : State :=
  match t.team, t.held with
  | some r, some h => s.modNest t.part r.nest fun n => { n with saved := n.saved ++ [(r.node, r.rank, h)] }
  | _, _ => s

/-- A restored worker holds the item that its nest has kept for it (R269). -/
def State.takeHeld (s : State) (t : Thread) : State × Thread :=
  match t.team with
  | none => (s, t)
  | some r =>
    match (s.nest t.part r.nest).bind fun n => n.saved.find? fun x => x.1 == r.node && x.2.1 == r.rank with
    | some x => (s.modNest t.part r.nest fun n => { n with saved := n.saved.erase x }, { t with held := some x.2.2 })
    | none => (s, t)

/-- The last step of a save: the image is taken and the slot freed. -/
def State.saveThread (s : State) (tid : Nat) : State × List Word :=
  match s.thread tid with
  | some t => ((s.unload tid t).keepHeld t, s.image tid t)
  | none => (s, [])

/-- A save goes on (R309): once the thread's accesses and transfers have ended its commands are stopped, and once they stand in its
records the image is written. -/
def State.saveOn (s : State) (t : Thread) (x : Nat) (u : Thread) (va : Word) (done : State → Nat → Out) : Out :=
  if !s.drained x u then s.await t (.quiet x)
  else
    let s := s.stopWork x
    match s.noWork x, s.thread s.cur with
    | true, some t =>
      let r := s.saveThread x
      done (r.1.writeImage (coreOf s.cur) t va.toNat r.2) (8 * r.2.length)
    | _, some t => s.await t (.quiet x)
    | _, none => .next s

/-- csave (R309). A thread that names itself leaves its slot with its image written and the pc at the form; no register is left to write. -/
def execCsave (ra rb rd : GReg) (s : State) : Out :=
  s.onThread fun t =>
    if t.priv < 1 then s.priv t
    else
      let x := bits (t.rd rb) 0 18
      match s.thread x with
      | none => s.write t rd 1 0
      | some u =>
        if u.part ≠ t.part ∨ slotOf x = 15 then s.write t rd 1 0
        else
          s.imageRange t (t.rd ra) imageMax .store <|
            let stays : Bool := match u.block with
              | .parked _ | .faultWait _ _ _ _ _ | .halted => true
              | _ => u.stop != Stop.none
            if stays then s.write t rd 2 0
            else if x = s.cur then s.saveOn t x u (t.rd ra) fun s _ => .next s
            else if u.block = Block.saving then s.saveOn t x u (t.rd ra) fun s n => s.write t rd (BitVec.ofNat 64 n) 0
            else if s.quiet x then (s.startSaving x u).await t (.quiet x)
            else s.await t (.quiet x)

/-! ### crest (R310) -/

/-- Words of an image that must be zero: reserved header bits, and what lies between or after the fields of a section or record. -/
def imageClean (hdr : Nat) (vec : Bool) (tiles : Nat) (w : List Word) : Bool :=
  let zero := fun (a n : Nat) => (numsFrom a n).all fun k => w.getD k 0 == 0
  let base := 128 + 1024 * bit vec
  hdr / 2 ^ 12 % 2 == 0 && hdr / 2 ^ 14 % 4 == 0 && hdr / 2 ^ 24 % 256 == 0 && zero 101 27 &&
  [81, 91].all (fun k => (w.getD k 0).toNat / 2 ^ 34 == 0) &&
  (!vec || (zero (128 + 519) 1 && zero (128 + 527) 1 && zero (128 + 535) 489)) &&
  (numsFrom 0 tiles).all fun k =>
    let b := base + 1536 * k
    (w.getD (b + 256) 0).toNat / 2 ^ 10 == 0 && zero (b + 257) 31 && zero (b + 1312) 224

/-- The thread that an image describes, without its records and its place in a nest. Reserved bits of its registers are not held (R5). -/
def threadOf (w : List Word) (fresh : Nat) : Thread :=
  let g := fun k => w.getD k 0
  let hdr := (g 0).toNat
  let tstat := g 3
  let t : Thread :=
    { pc := g 2, part := bits tstat 16 7, owner := bits tstat 8 8, sec := bits tstat 5 1 == 1, ut := bits tstat 4 1 == 1,
      priv := bits tstat 0 2, trap := { tpc := g 4, tcause := g 5 &&& 0x1FFFF, tval := g 6, tvec := g 7 &&& 0xFFFFFFFFFFFFFFFC#64, tstat2 := g 8 &&& 0x2FFFFFFFF },
      fp := { vl := vlOf (g 41), vpos := g 42 &&& 63, frm := frmWrite 8 (g 43), fflags := g 44 &&& 31, starter := g 45 },
      mat := (numsFrom 0 6).foldl (fun (r : MatRegs) k => r.set k (g (46 + k))) {}, mstat := g 52 &&& mstatMask,
      cp := { xsrc := g 54, xdst := g 55, xlen := g 56 &&& 0xFFFFFFFF, xstride := g 57, xdim := g 58 &&& 0xFFFFF, xhnd := g 59, xmask := g 60 &&& 0xFFFF },
      stageNo := (g 68).toNat % 8, ep := bitAt hdr 11,
      running := if bits tstat 4 1 = 1 then .other else .none,
      mcheck := if bitAt hdr 9 then [⟨0x15, 1, g 9⟩] else [],
      poison := if bitAt hdr 10 then [(Config.lostValue fresh).toNat % 64] else [],
      pend := ((w.drop 69).take 8).filterMap (fun v => if v = 0 then none else some (.copydone v (g 59))) ++
        ((w.drop 77).take 4).filterMap fun v => if v = 0 then none else some (.childfault v) }
  t.wrs ((numsFrom 1 31).map fun k => (k, g (9 + k)))

/-- The number of the record that an address in window 0xC3 names. -/
def recordOf_ (va : Word) : Nat := (va.toNat % 2 ^ 26 - 0x80000) / 64

/-- Team or population of a restored thread (R279). -/
def State.restand (s : State) (t : Thread) (w : List Word) : Thread :=
  let n := fun k => (w.getD k 0).toNat
  if w.getD 61 0 = 0 then
    if n 64 = 0 then t else { t with pop := some { rank := n 63, size := n 64, join := w.getD 62 0 } }
  else
    let nest := recordOf_ (w.getD 61 0)
    let rec_ := recordOf_ (w.getD 62 0)
    let nodes := match s.nest t.part nest with
      | some x => x.nodes
      | none => []
    let i := nodes.findIdx fun x => x.kind ≤ 2 && x.record == rec_ && x.entry == n 65 && x.st == .running
    let x := (nodes[i]?).getD { parent := none, entry := n 65, words := [] }
    { t with team := some { nest := nest, node := i, record := rec_, rank := n 63, size := n 64, entry := n 65, iter := n 66,
                            bar := n 67, inq := x.inq, outq := x.outq, coro := x.kind == 2 } }

/-- The tile that a matrix form names. -/
def tileOf (i : Instr) : Option Nat :=
  match i with
  | .mzero _ k => some k.val
  | .mbias _ _ k => some k.val
  | .mmul _ _ _ k => some k.val
  | .mmulg _ _ _ k => some k.val
  | .mdrain _ _ _ k => some k.val
  | _ => none

/-- The register field of a form's gate (R198). -/
def gateReg (i : Instr) : GReg :=
  match i with
  | .mzero d _ => d
  | .mbias _ d _ => d
  | .mmul _ _ d _ => d
  | _ => 0

/-- A matrix command of an image's restart record; the first continues from the pass that MCONT names. DESIGN CHOICE (log 67): a gate
waits on the barrier of the core it is restored to, and counts as open when that barrier's phase is not the one recorded. DESIGN CHOICE
(log 87): the image holds no owner or privilege of a recorded command; it has those of the restored thread. -/
def State.mcmdOf (s : State) (tid : Nat) (t : Thread) (first : Bool) (mcont : Word) (uid : Nat) (w : List Word) : Option MCmd :=
  let g := fun k => w.getD k 0
  if g 0 = 0 then none
  else
    let word := BitVec.ofNat 32 (g 0).toNat
    match decodeEngine word with
    | none => none
    | some i =>
      match tileOf i with
      | none => none
      | some tile =>
        let regs := (numsFrom 0 6).foldl (fun (r : MatRegs) k => r.set k (g (4 + k))) ({} : MatRegs)
        let gate : Option Gate := if gateReg i = 0 then none else some ⟨bits (g 3) 0 6, bits (g 0) 32 1 == 1⟩
        let b := s.bar (coreOf tid) (bits (g 3) 0 6)
        let opened : Option Bool := gate.bind fun x =>
          if bits (g 0) 33 1 = 1 then some false else if b.phase = x.phase then none else some b.lpois
        let cap := s.capOf (coreOf tid) t.owner tid t.priv
        some { ins := i, word := word, uid := uid, tid := tid, owner := t.owner, priv := t.priv, tile := tile, ga := g 1, gb := g 2, gd := g 3,
               regs := regs, gate := gate, opened := opened, resumed := true,
               blk := if first then bits mcont 48 8 else 0, pa := if first then bits mcont 44 4 else 0,
               pb := if first then bits mcont 40 4 else 0, done := if first then bits mcont 0 32 else 0,
               ea := min regs.sideA.w cap, eb := min regs.sideB.w cap }

/-- A vector command of an image's restart record. A `vacc` that had begun waits for no matrix command of the record: all that came
before it had retired (R176). DESIGN CHOICE (log 86): the image says nothing of the order between a `vacc` that had not begun (VPOS 0) and
the matrix commands recorded with it on its tile; the model takes all of them as issued before it. -/
def vcmdOf (tid : Nat) (t : Thread) (uid : Nat) (m : List MCmd) (w : List Word) : Option VCmd :=
  let g := fun k => w.getD k 0
  if g 0 = 0 then none
  else
    let word := BitVec.ofNat 32 (g 0).toNat
    match decodeEngine word with
    | none => none
    | some i =>
      some { ins := i, word := word, uid := uid, tid := tid, owner := t.owner, priv := t.priv, x := g 1, y := g 2, vl := (g 3).toNat,
             frm := g 4, starter := g 5, pos := (g 6).toNat % 64,
             after := if (g 6).toNat % 64 = 0 then (m.filter fun c => Instr.vaccTile i == some c.tile).map MCmd.uid else [] }

/-- The vector context of an image. -/
def ctxOf (tid : Nat) (w : List Word) : VCtx :=
  let els := (numsFrom 0 1024).filterMap fun k =>
    let v := BitVec.ofNat 32 ((w.getD (128 + k / 2) 0).toNat / 2 ^ (32 * (k % 2)))
    if v = 0 then none else some (k, v)
  let ms := (numsFrom 1 7).filterMap fun k => let v := w.getD (128 + 511 + k) 0; if v = 0 then none else some (k, v)
  { holder := some tid, v := els, m := ms }

/-- A 128-bit two's-complement number of an image. -/
def intAt (w : List Word) (k : Nat) : Int :=
  let v := numOf [w.getD k 0, w.getD (k + 1) 0]
  if v < 2 ^ 127 then (v : Int) else (v : Int) - (2 ^ 128 : Nat)

/-- The tile of a section that starts at word b. -/
def tileFrom (tid : Nat) (w : List Word) (b : Nat) : TileSt :=
  let cont := fun (a : Nat) => (numsFrom 0 256).filterMap fun k => let v := intAt w (a + 2 * k); if v = 0 then none else some (k, v)
  { holder := some tid,
    el := (numsFrom 0 256).filterMap fun k => let v := w.getD (b + k) 0; if v = 0 then none else some (k, v),
    eacc := bits (w.getD (b + 256) 0) 0 8, mode := bits (w.getD (b + 256) 0) 8 2, contT := cont (b + 288), contS := cont (b + 800) }

/-- Writes the thread of an image into a slot of a core, with its context, tiles and records; the records re-enter at the end of the cc,
unless the owner is suspended. A recorded command whose gate's phase has completed poisoned is discarded (R198). -/
def State.loadImage (s : State) (tid : Nat) (w : List Word) (vec : Bool) (mask : Nat) : State :=
  let core := coreOf tid
  let (s, t) := s.takeHeld (s.restand (threadOf w s.fresh) w)
  let s := { s with fresh := s.fresh + 1 }
  let s := if vec then s.modCore core fun k =>
      { k with vctx := match k.vctx.findIdx? fun v => v.holder.isNone with
          | some n => setAt k.vctx n (ctxOf tid w)
          | none => k.vctx }
    else s
  let s := ((tilesOf mask).zip (numsFrom 0 8)).foldl (fun s p =>
    s.modCore core fun k => k.setTile p.1 (tileFrom tid w (128 + 1024 * bit vec + 1536 * p.2))) s
  let m := ((numsFrom 0 2).filterMap fun k => s.mcmdOf tid t (k == 0) (w.getD 53 0) (s.uid + k) ((w.drop (81 + 10 * k)).take 10))
  let v := if vec then (numsFrom 0 2).filterMap fun k => vcmdOf tid t (s.uid + 2 + k) m ((w.drop (128 + 520 + 8 * k)).take 8) else []
  let s := { s with uid := s.uid + 4 }
  let s := s.moveApplier t.part ((w.getD 1 0).toNat + 2 ^ 21) tid
  (s.place tid { t with vrec := v, mrec := m }).discardPoisoned core 0

/-- crest (R310). A core that is lost takes no thread: MCHECK with SUB 5, whose TVAL is a free value (R307, log 81). -/
def execCrest (ra rb rd : GReg) (s : State) : Out :=
  s.onThread fun t =>
    if t.priv < 1 then s.priv t
    else
      s.imageRange t (t.rd ra) 1024 .load <|
        let me := coreOf s.cur
        let va := (t.rd ra).toNat
        let hdr := ((s.readImage me t va 1).getD 0 0).toNat
        let vec := bitAt hdr 8
        let mask := hdr / 2 ^ 16 % 256
        let size := hdr / 2 ^ 32
        if hdr % 256 ≠ 1 ∨ size ≠ imageSize vec mask then s.write t rd 3 0
        else
          s.imageRange t (t.rd ra) size .load <|
            let w := s.readImage me t va (size / 8)
            let target := bits (t.rd rb) 0 14
            let u := threadOf w 0
            let ours := match s.part t.part with
              | some p => p.worker target
              | none => false
            if !imageClean hdr vec (tilesOf mask).length w then s.write t rd 3 0
            else if !ours then s.write t rd 4 0
            else if (s.core target).frozen then s.until t (.thawed target)
            else if (s.core target).lost then { s with fresh := s.fresh + 1 }.trap t 0x15 (Config.lostValue s.fresh) 5
            else
              match s.grantFor target u with
              | some g =>
                let c := s.core target
                let noVec := vec && c.vctx.all fun v => v.holder.isSome
                let noTile := (tilesOf mask).any fun n => (c.tiles.getD n {}).holder.isSome
                if noVec || noTile then s.write t rd 2 0
                else
                  (s.loadImage g w vec mask).write t rd (BitVec.ofNat 64 (2 ^ 63 + g)) 0
              | none => s.write t rd 1 0

end Sys2Proof.Machine
end

