-- ==== Sys2Proof/Machine/Reset.lean ====
section
/-! DEFINITION. Partition reset (spec/12 R311, R317, with R354, R383 and R389 to R391): stop, drain, scrub, cores and owners. -/

namespace Sys2Proof.Machine

/-! ### Which threads and cores -/

/-- Cores of a partition that a reset scrubs: all, or all but the service core. -/
def Partition.resetCores (p : Partition) (monitor : Bool) : List Nat :=
  ((p.clusters.map fun c => numsFrom (16 * c) 16).flatten).filter fun c => monitor || c != p.svc

/-- Threads that a reset ends. -/
def State.resetThreads (s : State) (part : Nat) (p : Partition) (monitor : Bool) : List (Nat × Thread) :=
  (s.ofPart part).filter fun q => monitor || coreOf q.1 != p.svc

/-! ### Drain (R311 step 2, R390) -/

/-- A parcel of the partition that the drain carries to its end: those of the spared service core are left. -/
def drains (part : Nat) (ended : Nat → Bool) (q : Parcel) : Bool :=
  q.part == part && (ended q.src || decide (2 ^ 18 ≤ q.src))

/-- Copy beats of a core that are granted and whose writes are still to be performed at another place; a beat within the own LM is
performed in its cc (R225). -/
def State.beatsOut (s : State) (core : Nat) : Nat :=
  ((s.core core).chans.filterMap fun k => k.cur).foldl (fun n x => n + (x.flights.filter Flight.granted).length) 0

/-- Granted beats are carried to their end. -/
def State.drainBeats (s : State) (core : Nat) : State :=
  ((s.core core).chans.filterMap fun k => k.cur).foldl (fun s x =>
    (x.flights.filter Flight.granted).foldl (fun s f => s.landWords f.words) s) s

/-- A waiter of the partition that the reset removes. -/
def waiterGoes (part : Nat) (ended : Nat → Bool) (w : Waiter) : Bool :=
  w.part == part && match w.who with
    | .thread x _ => ended x
    | .host _ _ => true

/-- DYING entries: frees in progress. -/
def CrumbStore.dying (c : CrumbStore) : List Crumb := c.crumbs.filter fun x => !x.live

/-- A request of a load or an atomic form (R247, R284, R328), whose parcel or reply the drain counts (R390). -/
def WaitKind.drains : WaitKind → Bool
  | .load | .atomic | .request | .qput | .qget => true
  | _ => false

/-- The thread waits for the answer to a load, an atomic or the like that a parcel has carried, and no parcel still carries it: its reply
has not come (R390). One that its own core performs has no parcel (R37, R115). -/
def State.answerOut (s : State) (tid : Nat) (k : WaitKind) : Bool :=
  k.drains && s.parcels.all (fun p => p.src != tid || !p.acc.isRequest) && s.replies.all fun r => r.tid != tid || !r.own

/-- A request to a unit on its way that the drain counts: that of a load or an atomic form. -/
def State.opCounts (s : State) (q : Parcel) : Bool :=
  match (match q.ended with
    | some t => some t
    | none => s.thread q.src) with
  | some t => match t.block with
    | .reply k => k.drains
    | _ => false
  | none => false

/-- The drain count (R390). A waiter that its place has refused is not registered; a request of a wait form is none of the things that
count. -/
def State.drainCount (s : State) (part : Nat) (p : Partition) (monitor : Bool) (gone : List (Nat × Thread)) : Nat :=
  let ended := fun (x : Nat) => gone.any fun q => q.1 == x
  (s.parcels.filter fun q => drains part ended q && (!q.acc.isOp || s.opCounts q)).length +
  (gone.filter fun q => match q.2.block with
    | .reply k => s.answerOut q.1 k
    | .migrate _ _ | .await (.here _ _ _ _) _ => true
    | _ => false).length +
  (s.moving.filter fun m => m.t.part == part).length +
  (s.waiters.filter fun w => waiterGoes part ended w && !w.refused).length +
  ((p.resetCores monitor).map s.beatsOut).foldl (· + ·) 0 +
  ((s.hearths.map fun h => (h.2.walks.filter fun w => w.part == part && (w.tids.isEmpty || w.tids.any ended)).length).foldl (· + ·) 0) +
  p.store.dying.length

/-- A parcel is performed at its place; its reply is discarded. -/
def State.drainParcel (s : State) (q : Parcel) : State :=
  if q.performed || s.lostAt q.place then s
  else
    match q.acc with
    | .store n v => s.writeLoc q.loc n v
    | .red k n v => s.doRed k q.loc n v
    | .amo k n b e _ => (s.doAmo k q.loc n b e).1
    | .load _ _ _ => s
    | .arrive core bar => s.noteArrival (parcelOrder q.src) core bar false
    | .clArrive cl bar => s.arriveClBar cl bar
    | .handler _ _ => s
    | .wake tid => s.wakeSlot tid
    | .op _ _ _ => s

/-- A request to a unit that can still be performed: its place is not frozen. -/
def State.opLeft (s : State) (part : Nat) (ended : Nat → Bool) (q : Parcel) : Bool :=
  drains part ended q && q.acc.isOp && !s.frozenAt q.place

/-- Requests to units are carried to their end before the reset itself, each behind its source's earlier accesses of the place (R311 step 2,
R116); then the turn given. None when there are none. -/
def State.carryOps (s : State) (part : Nat) (ended : Nat → Bool) (again : Act) : Option State :=
  let ops := s.parcels.filter (s.opLeft part ended)
  if ops.isEmpty then none
  else
    let before := s.parcels.filter fun q => !q.acc.isOp && !q.performed && ops.any fun p => p.src == q.src && p.place == q.place
    let s := before.foldl (fun s q => performAccess q s) { s with turns := again :: s.turns }
    some (ops.reverse.foldl (fun s q => performAccess q s) s)

/-- Frees in progress are carried to their end (R325). -/
def freeDying : Nat → State → Nat → State
  | 0, s, _ => s
  | n + 1, s, part =>
    match (s.store part).dying with
    | [] => s
    | x :: _ => freeDying n (s.freeCrumb part x) part

/-! ### Scrub and cores (R311 steps 3 and 4) -/

/-- The transfers of a core become KILLED, with no arrival and no trap; their ranges on other cores are released too. -/
def State.stopTransfers (s : State) (core : Nat) : State :=
  let c := s.core core
  let running := c.chans.filterMap fun k => k.cur
  let live := running ++ c.xq
  let s := live.foldl (fun s x => x.recv.foldl (fun s r => s.freeLocks r.core x.uid) s) s
  let s := running.foldl (fun s x => if x.form = .out ∧ x.root ≠ 0 then s.unitDrop x.part x.root else s) s
  live.foldl (fun s x => s.modChan core x.ch fun k => { k with cur := none, hist := ((x.seq, 3) :: k.hist).take 8 }) s

/-- A core reset by a partition reset: LM zero, the reset couche, barriers, ranges, contexts and tiles free, engines empty. -/
def State.resetCore (s : State) (core : Nat) : State :=
  let s := (s.core core).meters.foldl (fun s m => if m.job then s.noteMeter core { m with job := false } else s) (s.stopTransfers core)
  ({ s with arrs := s.arrs.filter fun a => a.2.1 != core } : State).modCore core fun c =>
    { c with
      lm := []
      poisoned := []
      couche := resetCouche
      staged := none
      bars := []
      locks := []
      vctx := List.replicate 4 {}
      vq := []
      tiles := List.replicate 8 {}
      mq := []
      latch := none
      xq := []
      chans := c.chans.map fun k => { k with nextSeq := 1 }
      lastCh := 3
      meters := []
      retired := []
      jobs := []
      l1 := []
      handlers := []
      ckpt := false }

/-- Bytes of a memory outside [lo, hi). -/
def Memory.clear (m : Memory) (lo hi : Nat) : Memory := m.filter fun c => decide (c.1 < lo) || decide (hi ≤ c.1)

/-- The shares of a partition as a reset leaves them (R383). -/
def State.scrubShares (s : State) (part : Nat) (p : Partition) (monitor : Bool) : State :=
  (p.shares.map Prod.fst).foldl (fun s h =>
    let m := s.mem (.share part h)
    let m' :=
      if h ≠ p.placing then []
      else
        let m := m.below 0x200000
        if monitor then (m.clear 0 0xC0000).clear 0x150000 0x154000 else m
    s.setMem (.share part h) m') s

/-- Queue q after a monitor-privilege reset: queues 0 and 1 live and empty, every other one removed. -/
def resetQueue (q : Nat) (x : Queue) : Queue := if q < 2 then { live := true, depth := if x.depth = 0 then 256 else x.depth } else {}

/-- Numbers of ended threads leave a queue that the control block names. -/
def State.dropNumbers (s : State) (part k : Nat) (gone : List Nat) : State :=
  match s.controlQueue part k with
  | some q => (s.modQueue part q fun x =>
      { x with items := x.items.filter fun v => !gone.contains v.toNat,
               senders := List.replicate (x.items.filter fun v => !gone.contains v.toNat).length (2 ^ 18) }).qServe part q
  | none => s

/-- Host commands of the partition that are in progress complete with FAIL (spec/18 R378, case 5): copies, a checkpoint of the
partition, a resize; a checkpoint of the module goes on without it. -/
def State.dropHostWork (s : State) (part : Nat) : State :=
  let s := (s.fw.copies.filter fun x => x.part == part).foldl (fun s x => s.hostResult (part + 1) x.w 4 0) s
  let s := (s.fw.ckpts.filter fun x => x.fn == part + 1).foldl (fun s x => s.hostResult (part + 1) x.w 4 0) s
  let s := (s.fw.resizes.filter fun x => x.part == part).foldl (fun s x => s.hostResult 0 x.w 4 0) s
  s.modFw fun f =>
    { f with
      copies := f.copies.filter fun x => x.part != part
      ckpts := (f.ckpts.filter fun x => x.fn != part + 1).map fun x => { x with parts := x.parts.filter fun p => p != part }
      resizes := f.resizes.filter fun x => x.part != part }

/-- The receiver's report on a message of this module to itself. -/
def State.report (s : State) (sender id code : Nat) : State :=
  if sender = s.modId then
    { s with msgs := s.msgs.map fun m => if m.sending = true ∧ m.id = id then { m with code := some code } else m }
  else s

/-- Messages of a partition that a reset ends (R311, R395): one that it was receiving is answered NOEP. Those that a spared service core
sends go on (R389). -/
def State.dropMessages (s : State) (part : Nat) (goes : Nat → Bool) : State :=
  let mine := s.msgs.filter fun m => !m.sending && m.part == part
  let s := mine.foldl (fun (s : State) m => s.report m.peer m.id 1) { s with heard := s.heard ++ mine.map fun m => (m.peer, m.id) }
  { s with msgs := s.msgs.filter fun m => m.part != part || (m.sending && !goes m.core) }

/-- Fault records, ring entries and nests after a reset (R383, R391). -/
def State.scrubTables (s : State) (part : Nat) (p : Partition) (monitor : Bool) (ended : Nat → Bool) : State :=
  let goneF := (p.faults.filter fun f => monitor || ended f.2).map Prod.fst
  let goneR := (p.ring.filter fun e => monitor || ended e.2 || decide (2 ^ 18 ≤ e.2)).map Prod.fst
  let s := p.nests.foldl (fun s n =>
    let s := match n.host with
      | some h => s.hostResult (part + 1) h 4 0
      | none => s
    s.freeNest part n.record) s
  let s := (p.applies.filter fun a => a.tid.isNone).foldl (fun s a => match a.host with
      | some h => s.hostResult (part + 1) h 4 0
      | none => s) s
  let s := goneR.foldl (fun s e => s.pipeWrite part (ringOff e) [0]) s
  let s := (s.dropNumbers part 0 goneF).dropNumbers part 1 goneR
  let s := s.modPart part fun p =>
    { p with
      faults := p.faults.filter fun f => !goneF.contains f.1
      faultPut := p.faultPut.filter fun f => !goneF.contains f
      faultWait := p.faultWait.filter fun x => !ended x
      ring := p.ring.filter fun e => !goneR.contains e.1
      ringPut := p.ringPut.filter fun e => !goneR.contains e
      ringWait := p.ringWait.filter fun x => !ended x.1
      applies := p.applies.filter fun a => match a.tid with
        | some x => !ended x
        | none => false
      waiting := p.waiting.filter fun a => match a.tid with
        | some x => !ended x
        | none => false
      queues := if monitor then (p.queues.over resetQueue).filter (fun q => decide (q.1 < 2)) else p.queues
      flock := false
      deadRaised := p.deadRaised && !monitor
      deadlock := if monitor then none else p.deadlock
      halted := false }
  (p.wakes.foldl (fun s w => s.hostResult (part + 1) w.2 4 0) (s.modPart part fun p => { p with wakes := [] })).dropHostWork part |>.dropMessages part fun c => monitor || c != p.svc

/-! ### Owners (R311 step 5, R354) -/

/-- Owners of a partition after its reset: SV := 0, no handling; a RESUMING owner becomes ADMITTED; meters 0, jobs closed. -/
def State.resetOwners (s : State) (part : Nat) (p : Partition) : State :=
  let mine := (s.arb.owners.filter fun o => o.2.part == part && o.2.live).map Prod.fst
  let s := mine.foldl (fun s o =>
    let r := s.owner o
    let s := s.setOwner o { r with sv := false, st := if r.st = .resuming then .admitted else r.st }
    if r.st = .resuming then s.relayAll [.readmit o] else s) s
  let s := (s.modArb fun a => { a with reports := a.reports.filter fun o => !mine.contains o }).endFalling
  let s := (s.core p.svc).meters.foldl (fun s m =>
    if mine.contains m.owner then s.changeMeter p.svc m.owner fun m => { m with meter := 0, job := false, rsent := false, bsent := false } else s) s
  s.allThreads fun _ t =>
    if t.part = part ∧ mine.contains t.owner = true then
      { t with handling := .none, counted := 0, shedPend := none, resumePend := none, superPend := none, budgetPend := none }
    else t

/-! ### The reset -/

/-- The service core's kernel starts (R413): slot 0 at service privilege. -/
def State.startKernel (s : State) (part : Nat) : State :=
  match s.part part with
  | none => s
  | some p => s.place (16 * p.svc) { pc := p.kernel, part := part, sec := p.sec, priv := 1 }

/-- Threads of the partition on their way arrive, as the drain carries them (R311, R390). -/
def State.landAll (s : State) (part : Nat) : State := (s.moving.filter fun m => m.t.part == part).foldl (fun s m => s.land m) s

/-- `ucfg` changes of ended threads are carried to their end, and answer to nobody. -/
def State.drainUcfg (s : State) (ended : Nat → Bool) : State :=
  let mine := fun (w : UcfgWho) => match w with
    | .thread x _ => ended x
    | .host _ => false
  let l := s.arb.ucfg.filter fun r => mine r.who
  let s := l.foldl (fun s r => s.answerUcfg r) (s.modArb fun a => { a with ucfg := a.ucfg.filter fun r => !mine r.who })
  s.modArb fun a => { a with relay := a.relay.filter fun r => !mine r.1 }

/-- R311: the state after the reset, the drain count and the number of threads ended. -/
def State.resetPart (s : State) (part : Nat) (monitor : Bool) : State × Nat × Nat :=
  match s.part part with
  | none => (s, 0, 0)
  | some p =>
    let here := s.resetThreads part p monitor
    let s' := s.landAll part
    let gone := s'.resetThreads part p monitor
    let ended := fun (x : Nat) => gone.any fun q => q.1 == x
    let count := s.drainCount part p monitor here
    let s := s'.drainUcfg ended
    let s := { s with threads := s.threads.filter fun q => !ended q.1 }
    let s := (s.parcels.filter (drains part ended)).foldl State.drainParcel s
    let s := (p.resetCores monitor).foldl State.drainBeats s
    let s := freeDying (2 * p.store.crumbs.length) s part
    let s := { s with
      parcels := s.parcels.filter fun q => !drains part ended q
      waiters := s.waiters.filter fun w => !waiterGoes part ended w }
    let s := gone.foldl (fun s q => s.unwait q.1) s
    let s := { s with
      hearths := s.hearths.over fun _ h => { h with walks := h.walks.filter fun w => w.part != part || !w.tids.isEmpty } }
    let s := (s.hearths.map Prod.fst).foldl State.serveWalkWait s
    let s := (p.resetCores monitor).foldl State.resetCore s
    let s := (p.clusters.filter fun c => monitor || c != clusterOf p.svc).foldl (fun s c => s.setCluster c { s.cluster c with bars := [] }) s
    let s := (s.scrubTables part p monitor ended).scrubShares part p monitor
    let s := { s with cores := s.cores.over fun _ c => { c with l1 := c.l1.filter fun x => x.pages.all fun q => q.1 != part } }
    (s.resetOwners part p, count, gone.length)

/-- R317: drain count and threads ended. -/
def resetResult (drain ended : Nat) : Word := BitVec.ofNat 64 (min drain (2 ^ 32 - 1) + ended % 2 ^ 16 * 2 ^ 32)

/-- prst (R317, R389): the release first; at service privilege only the issuer's own partition, sparing the service core. -/
def execPrst (ra rd : GReg) (s : State) : Out :=
  s.onThread fun t =>
    if t.priv < 1 then s.priv t
    else
      s.release t fun t =>
        let part := bits (t.rd ra) 0 7
        if (t.priv = 1 ∧ part ≠ t.part) ∨ (s.part part).isNone = true then s.write t rd (BitVec.ofNat 64 (2 ^ 63 + 3)) 0
        else
          let ended := fun (x : Nat) => match s.part part with
            | some p => (s.resetThreads part p (t.priv == 2)).any fun q => q.1 == x
            | none => false
          match s.carryOps part ended (.await s.cur) with
          | some s => s.await t .soon
          | none =>
            let r := s.resetPart part (t.priv == 2)
            let s := if t.priv = 2 then r.1.startKernel part else r.1
            match s.thread s.cur, t.priv == 2 && t.part == part with
            | some t, false => s.write t rd (resetResult r.2.1 r.2.2) 0
            | _, _ => .next s

end Sys2Proof.Machine
end

