-- ==== Sys2Proof/Machine/Sha.lean ====
section
/-! DEFINITION. SHA-384 of FIPS 180-4, which gives crumbs their names (R318). Its constants are roots of primes, and are computed
as the standard defines them. -/

namespace Sys2Proof.Machine

/-- Primes below 410: the first eighty. -/
def shaPrimes : List Nat :=
  (List.range 410).filter fun n => decide (2 ≤ n) && [2, 3, 5, 7, 11, 13, 17, 19].all fun d => n == d || n % d != 0

/-- The largest r + q, q below 2^n, whose k-th power is at most x, bit by bit from above. -/
def rootFrom (k x : Nat) : Nat → Nat → Nat
  | 0, r => r
  | n + 1, r => rootFrom k x n (if (r + 2 ^ n) ^ k ≤ x then r + 2 ^ n else r)

/-- The first 64 bits of the fraction of the k-th root of p. -/
def rootFraction (k p : Nat) : BitVec 64 := BitVec.ofNat 64 (rootFrom k (p * 2 ^ (64 * k)) 69 0)

/-- The eighty words that the rounds add: cube roots. -/
def shaConstants : List (BitVec 64) := shaPrimes.map (rootFraction 3)

/-- The chaining value that SHA-384 starts from: square roots of the ninth prime to the sixteenth. -/
def shaStart : List (BitVec 64) := ((shaPrimes.drop 8).take 8).map (rootFraction 2)

/-- The exclusive or of a word turned right by each of a list of amounts. -/
def turned (x : BitVec 64) (amounts : List Nat) : BitVec 64 := amounts.foldl (fun acc n => acc ^^^ x.rotateRight n) 0

/-- The word of the schedule sixteen after the first of a window of sixteen. -/
def shaExpand (w : List (BitVec 64)) : BitVec 64 :=
  let early := w.getD 1 0
  let late := w.getD 14 0
  w.getD 0 0 + (turned early [1, 8] ^^^ early >>> 7) + w.getD 9 0 + (turned late [19, 61] ^^^ late >>> 6)

/-- The eight variables after a round that takes a word, its constant added: all move down one place, the first is new, and the
fifth gets the new part as well. -/
def shaShift (v : List (BitVec 64)) (word : BitVec 64) : List (BitVec 64) :=
  let x := fun i => v.getD i 0
  let chosen := x 6 ^^^ (x 4 &&& (x 5 ^^^ x 6))
  let majority := (x 0 &&& x 1) ||| (x 2 &&& (x 0 ||| x 1))
  let new := word + x 7 + chosen + turned (x 4) [41, 18, 14]
  [new + majority + turned (x 0) [39, 34, 28], x 0, x 1, x 2, x 3 + new] ++ (v.drop 4).take 3

/-- The chaining value after a block of sixteen words. -/
def shaAbsorb (h block : List (BitVec 64)) : List (BitVec 64) :=
  let run := shaConstants.foldl (fun (q : List (BitVec 64) × List (BitVec 64)) k =>
    (q.1.drop 1 ++ [shaExpand q.1], shaShift q.2 (q.1.getD 0 0 + k))) (block, h)
  h.zipWith (fun a b => a + b) run.2

/-- A message padded to a whole number of blocks (FIPS 180-4, 5.1.2), as one number whose top bit comes first, and the number of
its blocks: a one, the fewest zeros that serve, and the length in 128 bits. -/
def shaPadded (l : List Byte) : Nat × Nat :=
  let n := 8 * l.length
  let zeros := (1919 - n % 1024) % 1024
  (((l.foldl (fun acc b => 256 * acc + b.toNat) 0 * 2 + 1) * 2 ^ zeros) * 2 ^ 128 + n, (n + zeros + 129) / 1024)

/-- The chaining value after a whole message. -/
def shaFinal (l : List Byte) : List (BitVec 64) :=
  let p := shaPadded l
  let word := fun i => BitVec.ofNat 64 (p.1 / 2 ^ (64 * (16 * p.2 - 1 - i)))
  (List.range p.2).foldl (fun h i => shaAbsorb h ((List.range 16).map fun j => word (16 * i + j))) shaStart

/-- The SHA-384 digest of a message, as a big-endian integer: its first six words. -/
def sha384 (l : List Byte) : Nat := ((shaFinal l).take 6).foldl (fun n w => n * 2 ^ 64 + w.toNat) 0

/-- The first 120 bits of the digest: bytes 0 to 14 as a big-endian integer. -/
def sha384Top (l : List Byte) : Nat := sha384 l / 2 ^ 264

end Sys2Proof.Machine
end

