-- ==== Sys2Proof/Machine/Crumb.lean ====
section
/-! DEFINITION. The crumb forms (spec/14 R323, R329 to R335) and the store's enabling (R320, R321). -/

namespace Sys2Proof.Machine

/-! ### Homes and slots (R322) -/

/-- Entries that a home holds. -/
def CrumbStore.atHome (c : CrumbStore) (h : Nat) : List Crumb := c.crumbs.filter fun x => c.homeNo x.name == h

/-- The lowest slot of a home, from s on, that no entry of it holds; n bounds the slots looked at. -/
def freeSlotFrom (used : List Nat) (step nslot : Nat) : Nat → Nat → Option Nat
  | _, 0 => none
  | s, n + 1 => if nslot ≤ s then none else if used.contains s then freeSlotFrom used step nslot (s + step) n else some s

/-- A free slot and room for an entry at a home. -/
def CrumbStore.room (c : CrumbStore) (h : Nat) : Option Nat :=
  let l := c.atHome h
  if 2 ^ c.ib / c.homes.length ≤ l.length then none
  else freeSlotFrom (l.map fun x => x.slot) c.homes.length c.nslot h (l.length + 1)

/-- Slots of a home. -/
def CrumbStore.slotsOf (c : CrumbStore) (h : Nat) : Nat := (c.nslot + c.homes.length - 1 - h) / c.homes.length

/-! ### Lookup or allocate (R323) -/

/-- Bytes of doublewords. -/
def bytesOf (ws : List Nat) : List Byte :=
  (ws.map fun w => (List.range 8).map fun k => BitVec.ofNat 8 (w / 256 ^ k)).flatten

/-- HASH of 256 bytes and a class byte (R318). -/
def crumbHash (ws : List Nat) (cls : Nat) : Nat := sha384Top (bytesOf ws ++ [BitVec.ofNat 8 cls])

/-- Writes doublewords from a location. -/
def State.putWords (s : State) (l : Loc) (ws : List Nat) : State :=
  (ws.foldl (fun (q : State × Nat) w => (q.1.writeLoc ⟨l.space, q.2⟩ 8 w, q.2 + 8)) (s, l.off)).1

/-- Writes the bytes of a slot. -/
def State.putSlot (s : State) (part slot : Nat) (ws : List Nat) : State :=
  match s.slotLoc part slot with
  | some l => s.putWords l ws
  | none => s

/-- The probes from p on (R323): the state, the status and the name. -/
def State.probe (s : State) (part hash : Nat) (ws : List Nat) (cls depth : Nat) : Nat → Nat → State × Nat × Nat
  | 0, _ => (s, 3, 0)
  | n + 1, p =>
    let name := hash * 256 + p
    let c := s.store part
    if name = 0 then s.probe part hash ws cls depth n (p + 1)
    else
      match c.crumbs.find? fun x => x.name == name with
      | none =>
        match c.room (c.homeNo name) with
        | none => (s, 4, 0)
        | some slot =>
          let x : Crumb := { name := name, slot := slot, cls := cls, depth := depth, count := 1, live := true }
          ((s.putSlot part slot ws).modStore part fun c => { c with crumbs := c.crumbs ++ [x] }, 0, name)
      | some x =>
        if x.live && s.slotWords part x.slot == ws then
          (s.modStore part fun c => c.setEntry { x with count := min (x.count + 1) pinned }, 1, name)
        else s.probe part hash ws cls depth n (p + 1)

/-- R323 for 256 bytes of a class and depth. -/
def State.intern (s : State) (part : Nat) (ws : List Nat) (cls depth : Nat) : State × Nat × Nat :=
  s.probe part (crumbHash ws cls) ws cls depth 255 0

/-- Takes a reference on each name in order: the state, the names taken, and whether one had no LIVE entry (R329). -/
def takeRefs (part : Nat) : List Nat → State → List Nat → State × List Nat × Bool
  | [], s, got => (s, got, false)
  | c :: l, s, got =>
    match s.crumbRef part c with
    | (_, 2) => (s, got, true)
    | (s', _) => takeRefs part l s' (got ++ [c])

/-- Drops references in order. -/
def dropRefs (part : Nat) (l : List Nat) (s : State) : State := l.foldl (fun s c => (s.crumbDrop part c).1) s

/-- Depth of a node over children (R319). -/
def CrumbStore.nodeDepth (c : CrumbStore) (kids : List Nat) : Nat :=
  if kids.isEmpty then 2
  else 1 + kids.foldl (fun d k => max d (match c.liveEntry k with
    | some x => x.depth
    | none => 0)) 0

/-- `cnode` (R329): references on the children, the depth, then R323; a node not new holds no further references. -/
def State.internNode (s : State) (part : Nat) (ws : List Nat) : State × Nat × Nat :=
  let kids := (childNames ws).filter fun c => c != 0
  let (s1, got, gone) := takeRefs part kids s []
  if gone then (dropRefs part got s1, 2, 0)
  else
    let depth := (s1.store part).nodeDepth kids
    if 8 < depth then (dropRefs part got s1, 5, 0)
    else
      let r := s1.intern part ws 2 depth
      if r.2.1 = 0 then r else (dropRefs part got r.1, r.2.1, r.2.2)

/-! ### The forms -/

/-- The form's request has been performed; its reply retires it and charges the crumb entry (R328). -/
def State.crumbAnswer (s : State) (t : Thread) (writes : List (Nat × Word)) : Out :=
  afterRetire (s.wait t (.reply .request)) fun s => s.reply { tid := s.cur, writes := writes, entry := 7, own := !t.block.isAwait }

/-- MCHECK for a home that is lost (R307). It has no address that the spec names: TVAL is a free value (log 81). -/
def State.lostHome (s : State) (t : Thread) : Out :=
  { s with fresh := s.fresh + 1 }.trap t 0x15 (Config.lostValue s.fresh) 5

/-- A form whose accesses go to some homes (R322): it waits at its place while one of them is frozen, and takes a machine check with
nothing changed when one of them is lost (R307). -/
def State.atHomes (s : State) (t : Thread) (homes : List Nat) (k : Out) : Out :=
  match homes.find? fun c => (s.core c).frozen with
  | some c => match t.block with
    | .await (.here p l data _) _ => s.await t (.here p l data (some c))
    | _ => s.until t (.thawed c)
  | none => if homes.any fun c => (s.core c).lost then s.lostHome t else k

/-- A form of some names, the null name aside; a store that is not enabled reports NOSTORE by `off`. -/
def State.withStore (s : State) (t : Thread) (names : List Nat) (off : List (Nat × Word)) (k : Out) : Out :=
  let c := s.store t.part
  if !c.en then s.crumbAnswer t off else s.atHomes t ((names.filter fun n => n != 0).map c.homeOf) k

/-- A form that acts at the crumb unit of the home of a name (R322): its request goes there with the words it carries. The home has no
address: the TVAL of a machine check is a free value (log 81). A store that is not enabled has no homes and reports NOSTORE by `off`. -/
def State.atCrumb (s : State) (t : Thread) (name : Nat) (write : Bool) (l : Loc) (data : List Nat) (off : List (Nat × Word))
    (go : Loc → List Nat → Out) : Out :=
  let c := s.store t.part
  match t.block with
  | .await (.here _ l data _) _ => go l data
  | _ =>
    if !c.en then s.crumbAnswer t off
    else
      { s with fresh := s.fresh + 1 }.atPlace t (.home (c.homeOf name)) l (.op 8 write data) (Config.lostValue s.fresh) .request go

/-- The 32 doublewords of own LM at an offset. -/
def State.lmWords (s : State) (off : Nat) : List Nat :=
  (numsFrom 0 32).map fun k => (s.mem (.lm (coreOf s.cur))).read (off + 8 * k) 8

/-- What `cput` and `cnode` answer (R329). -/
def putWrites (rd rb : GReg) (status name : Nat) : List (Nat × Word) :=
  (if status < 2 then pairWrites rd name else []) ++ [(rb.val, BitVec.ofNat 64 status)]

/-- cput (R329): the words are read at issue, and go to the home of the name they hash to. -/
def execCput (ra rb rd : GReg) (s : State) : Out :=
  s.onThread fun t =>
    let go := fun (s : State) (ws : List Nat) =>
      s.withStore t [crumbHash ws 1 * 256] [(rb.val, 6)] <|
        let r := s.intern t.part ws 1 1
        r.1.crumbAnswer t (putWrites rd rb r.2.1 r.2.2)
    match t.block with
    | .await (.here _ _ ws _) _ => go s ws
    | _ =>
      s.lmAccess t (t.rd ra) 256 8 false fun s off =>
        let ws := s.lmWords off
        s.atCrumb t (crumbHash ws 1 * 256) true ⟨.lm (coreOf s.cur), off⟩ ws [(rb.val, 6)] fun _ ws => go s ws

/-- cnode (R329). -/
def execCnode (ra rb rd : GReg) (s : State) : Out :=
  s.onThread fun t =>
    let go := fun (s : State) (ws : List Nat) =>
      s.withStore t (childNames ws ++ [crumbHash ws 2 * 256]) [(rb.val, 6)] <|
        let r := s.internNode t.part ws
        r.1.crumbAnswer t (putWrites rd rb r.2.1 r.2.2)
    match t.block with
    | .await (.here _ _ ws _) _ => go s ws
    | _ =>
      s.lmAccess t (t.rd ra) 256 8 false fun s off =>
        let ws := s.lmWords off
        s.atCrumb t (crumbHash ws 2 * 256) true ⟨.lm (coreOf s.cur), off⟩ ws [(rb.val, 6)] fun _ ws => go s ws

/-- The slot that a cget reads (R330): that of a LIVE name, of which the hearth takes a copy, or that of a copy of a DYING name from
which the hearth serves it. DESIGN CHOICE: R330 lets a DYING name with a copy give its bytes or CGONE, and a free value says which
(log 106). -/
def State.cgetSlot (s : State) (part hearth name : Nat) : State × Option Nat :=
  match (s.store part).liveEntry name, (s.hearth hearth).crumbs.find? fun x => x.1 == part && x.2.1 == name with
  | some x, _ => (s.takeCopy hearth part name x.slot, some x.slot)
  | none, some x => ({ s with fresh := s.fresh + 1 }, if Config.servedCopy s.fresh then some x.2.2 else none)
  | none, none => (s, none)

/-- cget (R330): the bytes come to the LM of a thread that still exists. -/
def execCget (ra rb rd : GReg) (s : State) : Out :=
  s.onThread fun t =>
    let go := fun (s : State) (l : Loc) =>
      s.withStore t [t.pair rd] [(rb.val, 6)] <|
        match s.cgetSlot t.part (hearthOf (coreOf (s.cur % 2 ^ 20))) (t.pair rd) with
        | (s, none) => s.crumbAnswer t [(rb.val, 2)]
        | (s, some slot) => (if s.cur < 2 ^ 18 then s.putWords l (s.slotWords t.part slot) else s).crumbAnswer t [(rb.val, 0)]
    match t.block with
    | .await (.here _ l _ _) _ => go s l
    | _ =>
      s.lmAccess t (t.rd ra) 256 8 true fun s off =>
        s.atCrumb t (t.pair rd) false ⟨.lm (coreOf s.cur), off⟩ [] [(rb.val, 6)] fun l _ => go s l

/-- cref (R331). -/
def execCref (rb rd : GReg) (s : State) : Out :=
  s.onThread fun t =>
    s.atCrumb t (t.pair rd) true ⟨.lm (coreOf s.cur), 0⟩ [] [(rb.val, 6)] fun _ _ =>
      s.withStore t [t.pair rd] [(rb.val, 6)] <|
        let r := s.crumbRef t.part (t.pair rd)
        r.1.crumbAnswer t [(rb.val, BitVec.ofNat 64 r.2)]

/-- cdrop (R331). -/
def execCdrop (rb rd : GReg) (s : State) : Out :=
  s.onThread fun t =>
    s.atCrumb t (t.pair rd) true ⟨.lm (coreOf s.cur), 0⟩ [] [(rb.val, 6)] fun _ _ =>
      s.withStore t [t.pair rd] [(rb.val, 6)] <|
        let r := s.crumbDrop t.part (t.pair rd)
        r.1.crumbAnswer t [(rb.val, BitVec.ofNat 64 r.2)]

/-- A root cell at its place (R326): checks of R124, then, at issue at the thread's own place and else when the request has come, what the
form does to the cell. -/
def State.cellForm (s : State) (t : Thread) (va : Word) (write : Bool) (k : State → Loc → Out) : Out :=
  match t.block with
  | .await (.here _ l _ _) _ => k s l
  | _ =>
    s.access t va 16 (if write then .store else .load) write (!write) fun s g =>
      match g with
      | .own l => k (s.reach t va l) l
      | .far p l _ => s.request t p l (.op 16 write []) va .request

/-- croot (R332). -/
def execCroot (ra rb rd : GReg) (s : State) : Out :=
  s.onThread fun t =>
    s.cellForm t (t.rd ra) false fun s l =>
      let v := s.readLoc l 16
      s.withStore t [v] [(rb.val, 6)] <|
        if v = 0 then s.crumbAnswer t (pairWrites rd 0 ++ [(rb.val, 7)])
        else
          let r := s.crumbRef t.part v
          if r.2 = 2 then s.crumbAnswer t [(rb.val, 2)]
          else r.1.crumbAnswer t (pairWrites rd v ++ [(rb.val, BitVec.ofNat 64 r.2)])

/-- The cell is swapped from v to w (R333): the reference on the new name first, then the cell, then the old name's. -/
def State.swapCell (s : State) (part : Nat) (l : Loc) (v w : Nat) : State × Nat :=
  let r := if w = 0 then (s, 0) else s.crumbRef part w
  if r.2 = 2 then (s, 2 ^ 128 - 1)
  else
    let s := r.1.writeLoc l 16 w
    ((if v = 0 then s else (s.crumbDrop part v).1), v)

/-- cswap (R333). -/
def execCswap (ra rb rd : GReg) (s : State) : Out :=
  s.onThread fun t =>
    s.cellForm t (t.rd ra) true fun s l =>
      let v := s.readLoc l 16
      s.withStore t (if v = t.pair rd then [t.pair rb, v] else []) (pairWrites rd (2 ^ 128 - 1)) <|
        if v ≠ t.pair rd then s.crumbAnswer t (pairWrites rd v)
        else
          let r := s.swapCell t.part l v (t.pair rb)
          r.1.crumbAnswer t (pairWrites rd r.2)

/-- State of a name (R335). -/
def CrumbStore.stat (c : CrumbStore) (name : Nat) : Word :=
  match c.crumbs.find? fun x => x.name == name with
  | some x => BitVec.ofNat 64 (bit x.live * 2 ^ 63 + bit (!x.live) * 2 ^ 62 + x.cls * 2 ^ 60 + x.depth * 2 ^ 56 + x.count)
  | none => 0

/-- State of a home (R335). -/
def CrumbStore.homeStat (c : CrumbStore) (h : Nat) : Word :=
  let n := (c.atHome h).length
  BitVec.ofNat 64 ((c.slotsOf h - n) * 2 ^ 32 + (2 ^ c.ib / c.homes.length - n))

/-- cstat (R335). -/
def execCstat (rb rd : GReg) (s : State) : Out :=
  s.onThread fun t =>
    let c := s.store t.part
    if !c.en then s.answer t .load [(rd.val, 0)]
    else
      s.atCrumb t (t.pair rb) false ⟨.lm (coreOf s.cur), 0⟩ [] [] fun _ _ =>
        s.atHomes t [c.homeOf (t.pair rb)] (s.answer t .load [(rd.val, c.stat (t.pair rb))])

/-- cstat.home (R335). -/
def execCstatHome (ra rd : GReg) (s : State) : Out :=
  s.onThread fun t =>
    let c := s.store t.part
    let h := bits (t.rd ra) 0 3
    if !c.en || decide (c.homes.length ≤ h) then s.answer t .load [(rd.val, 0)]
    else
      s.atCrumb t (h * 2 ^ 125) false ⟨.lm (coreOf s.cur), 0⟩ [] [] fun _ _ =>
        s.atHomes t [c.homes.getD h 0] (s.answer t .load [(rd.val, c.homeStat h)])

/-! ### Enabling (R320, R321) -/

/-- Doubleword k of the control block. -/
def State.controlWord (s : State) (part k : Nat) : Word :=
  BitVec.ofNat 64 ((s.mem (.share part (s.placing part))).read (0x144000 + 8 * k) 8)

/-- [va, stop) is mapped as crumb-store pages of the partition; n bounds the pages walked. -/
def State.crumbPages (s : State) (part : Nat) (p : Partition) (stop : Nat) : Nat → Nat → Bool
  | 0, _ => false
  | n + 1, va =>
    if stop ≤ va then true
    else
      match s.translateNow p.svc part p.sec .load va with
      | .ok e => e.leaf.cls == 2 && s.crumbPages part p stop n (e.base + e.leaf.size)
      | .error _ => false

/-- The store that the descriptor gives, when the capture succeeds (R321). The slots lie below the top of the global window (R106).
DESIGN CHOICE: in a partition that has not accepted CRUMB (R371) a capture fails (log 78). -/
def State.capture (s : State) (part : Nat) (p : Partition) : Option CrumbStore :=
  let w := s.controlWord part
  let hn := bits (w 5) 8 4 + 1
  let home := fun (k : Nat) => bits (w (6 + k / 4)) (16 * (k % 4)) 14
  let homes := (numsFrom 0 hn).map home
  let nslot := bits (w 3) 0 32
  let ib := bits (w 5) 0 5
  let ipa := bits (w 4) 20 32
  let sbase := bits (w 2) 16 48
  let zeros := bits (w 2) 0 16 == 0 && bits (w 4) 0 20 == 0 && (numsFrom 0 8).all fun k => bits (w (6 + k / 4)) (16 * (k % 4) + 14) 2 == 0
  let region := s.crumbPages part p (sbase * 2 ^ 16 + 256 * nslot) (nslot / 256 + 2) (sbase * 2 ^ 16)
  if p.accepts 1 && zeros && decide (sbase * 2 ^ 16 + 256 * nslot ≤ 2 ^ 63) && decide (hn ≤ 8) && homes.all (fun c => p.worker c) && decide (16 ≤ ib) && decide (ib ≤ 31) && nslot != 0 &&
      decide (ipa * 2 ^ 20 + 32 * 2 ^ ib ≤ hbmSize) && region then
    some { en := true, sbase := sbase, nslot := nslot, ipa := ipa, homes := homes, ib := ib }
  else none

/-- CRUMB_STORE_ENABLE (R321): the store is empty after the capture; a capture that fails leaves EN = 0. -/
def execCrumbStoreEnable (part : Nat) (s : State) : Out :=
  match s.part part with
  | none => .next s
  | some p =>
    if p.store.en || bits (s.controlWord part 3) 63 1 == 0 then .next s
    else
      match s.capture part p with
      | some c => .next ((s.setPart part { p with store := c }).dropCopies part none)
      | none =>
        let sp := Space.share part p.placing
        .next (s.setMem sp ((s.mem sp).write 0x144018 8 (bits (s.controlWord part 3) 0 63)))

/-- CRUMB_STORE_DISABLE (R321). -/
def execCrumbStoreDisable (part : Nat) (s : State) : Out :=
  match s.part part with
  | none => .next s
  | some p =>
    if p.store.en && bits (s.controlWord part 3) 63 1 == 0 then .next (s.setPart part { p with store := { p.store with en := false } })
    else .next s

end Sys2Proof.Machine
end

