-- ==== Sys2Proof/Machine/Debug.lean ====
section
/-! DEFINITION. Debug registers, stops, breakpoints and halts, the score pulse and the counters (spec/21: R402 to R411). -/

namespace Sys2Proof.Machine

/-- Changes the debug block of a core. -/
def State.modDbg (s : State) (core : Nat) (f : Debug → Debug) : State := s.modCore core fun k => { k with dbg := f k.dbg }

/-- A host is the controlling host (R370, R402). -/
def State.controls (s : State) (host : Nat) : Bool := s.fw.ctl == some host

/-! ### Stops and breakpoints (R405) -/

/-- A stop of the slot is due at a boundary: STOP or HALT was written at least 1 cc ago. -/
def State.stopDue (s : State) (tid : Nat) : Bool :=
  let d := (s.core (coreOf tid)).dbg
  (d.halt && decide (d.haltAt < s.cc)) || match d.stops.look (slotOf tid) with
    | some c => decide (c < s.cc)
    | none => false

/-- The stop is applied at a boundary of the thread: it leaves rotation with everything it has pending (R405, R88). -/
def State.applyStop (s : State) (tid : Nat) : State :=
  let d := (s.core (coreOf tid)).dbg
  let s := s.modThread tid fun t => { t with stop := if (d.stops.look (slotOf tid)).isSome then .stopped else .halted }
  if d.held then s.recordThread tid fun _ _ => true else s

/-- A valid breakpoint of the core matches the thread (R404). -/
def State.bpMatch (s : State) (tid : Nat) (t : Thread) : Bool :=
  (s.core (coreOf tid)).dbg.bp.any fun b =>
    bits b 63 1 == 1 && (bits b 62 1 == 1 || bits b 44 18 == tid) && bits b 0 44 == bits t.pc 2 44 && bits t.pc 46 18 == 0

/-- DEBUG_STOP (R405): STOP with GO = 1 names a slot. -/
def execDebugStop (tid : Nat) (s : State) : Out :=
  .next (s.modDbg (coreOf tid) fun d =>
    { d with stops := if (d.stops.look (slotOf tid)).isSome then d.stops else d.stops.put (slotOf tid) s.cc })

/-- DEBUG_RELEASE (R405): STOP with GO = 0 releases the slot's thread; a halted core keeps it stopped. -/
def execDebugRelease (tid : Nat) (s : State) : Out :=
  let d := (s.core (coreOf tid)).dbg
  let s := s.modDbg (coreOf tid) fun d => { d with stops := d.stops.drop (slotOf tid) }
  match s.thread tid with
  | none => .next s
  | some t =>
    if t.stop ≠ Stop.stopped then .next s
    else if d.halt then .next (s.setThread tid { t with stop := .halted })
    else .next ((s.setThread tid { t with stop := .none, readyAt := s.cc + 1 }).reenterHeld (coreOf tid) [tid])

/-- A breakpoint is due at a boundary of the thread: before a suspension that is due there too (R405, R344). -/
def State.bpDue (s : State) (tid : Nat) (t : Thread) : Bool :=
  let c := s.core (coreOf tid)
  s.bpMatch tid t && t.stop == .none && t.block == .none && decide (t.readyAt ≤ s.cc) && !c.ckpt && !c.frozen && !c.lost

/-- BREAKPOINT (R405): at an issue boundary the PC matches; the matching instruction does not issue. -/
def execBreakpoint (tid : Nat) (s : State) : Out :=
  match s.thread tid with
  | some t => if s.bpDue tid t then .next (s.setThread tid { t with stop := .stopped }) else .next s
  | none => .next s

/-! ### Halting a core (R406) -/

/-- HALT := 1 with HOLDENG as given. -/
def State.haltCore (s : State) (core : Nat) : State :=
  let d := (s.core core).dbg
  let s := s.modDbg core fun d =>
    { d with halt := true, haltAt := if d.halt then d.haltAt else s.cc, held := d.held || d.holdeng }
  if d.holdeng then (s.onCore core).foldl (fun s p => s.recordThread p.1 fun _ _ => true) s else s

/-- HALT := 0: held work resumes, and slots that HALT alone stopped are released; the others stay stopped, one that STOP has named
during the halt among them. -/
def State.unhaltCore (s : State) (core : Nat) : State :=
  let d := (s.core core).dbg
  let s := s.modDbg core fun d => { d with halt := false, held := false, settled := false }
  let s := s.allThreads fun tid t =>
    if coreOf tid = core ∧ t.stop = Stop.halted then
      if (d.stops.look (slotOf tid)).isSome then { t with stop := .stopped } else { t with stop := .none, readyAt := s.cc + 1 }
    else t
  if d.held then s.resumeCore core else s

/-- CORE_HALT (R406). -/
def execCoreHalt (core : Nat) (s : State) : Out := .next (s.haltCore core)

/-- CORE_UNHALT (R406). -/
def execCoreUnhalt (core : Nat) (s : State) : Out := .next (s.unhaltCore core)

/-- A transfer on a channel is paused: by the halt, or by its owner's suspension (R226, R406). -/
def State.chanPaused (s : State) (core : Nat) (x : Xfer) : Bool :=
  x.moved == x.comp && ((s.core core).dbg.held || s.workShed core x.owner x.tid x.priv == 1)

/-- The conditions of SETTLED (R406): a slot that holds a thread has its stop pending or applied from the cc after HALT. A copy command
that is queued for an idle channel is about to run, unless the engines are held. -/
def State.isSettled (s : State) (core : Nat) : Bool :=
  let k := s.core core
  k.dbg.halt && decide (k.dbg.haltAt < s.cc) &&
  (s.onCore core).all (fun p => p.2.block != .reply .load) && k.vq.isEmpty && k.mq.isEmpty &&
  (match k.latch with
    | some l => l.data.isSome
    | none => true) &&
  k.xq.all (fun x => k.dbg.held || (s.chan core x.ch).cur.isSome) &&
  k.chans.all fun c => match c.cur with
    | some x => s.chanPaused core x
    | none => true

/-- SETTLED (R406), at the start of a cc: its conditions hold as the cc before has left them. -/
def execSettled (core : Nat) (s : State) : Out :=
  .next (if s.isSettled core then s.modDbg core fun d => { d with settled := true } else s)

/-! ### RDATA (R404) -/

/-- A register of a thread, selected as 0x030 does: its value, or none for a number that names none. -/
def State.debugRead (s : State) (tid : Nat) (t : Thread) (csr : Bool) (idx : Nat) : Option Word :=
  if csr then (csrOf idx).map fun _ => s.csrRead tid t idx
  else if idx < 32 then some (t.rdN idx)
  else if idx = 32 then some t.pc
  else none

/-- A write of a register of a thread by a debugger: RO fields and g0 ignore it. -/
def State.debugWrite (s : State) (tid : Nat) (t : Thread) (csr : Bool) (idx : Nat) (v : Word) : State :=
  if csr then
    let r := { s with cur := tid }.csrWrite t idx v
    { r.1.setThread tid r.2 with cur := s.cur }
  else if idx < 32 then s.setThread tid (t.wrN idx v)
  else s.setThread tid { t with pc := v }

/-- An access of RDATA: a refusal reads 0, writes nothing and sets RERR. -/
def State.rdataAccess (s : State) (core : Nat) (data : Option Word) : State :=
  let d := (s.core core).dbg
  let csr := bits d.sel 31 1 == 1
  let idx := bits d.sel 16 12
  let tid := 16 * core + bits d.sel 0 4
  let refuse := s.modDbg core fun d => { d with sel := d.sel ||| 0x8000, rdata := if data.isNone then 0 else d.rdata }
  match s.thread tid with
  | none => refuse
  | some t =>
    if t.stop = Stop.none then refuse
    else
      match s.debugRead tid t csr idx with
      | none => refuse
      | some v =>
        let s := s.modDbg core fun d => { d with sel := d.sel &&& 0x8FFF000F#64, rdata := if data.isNone then v else d.rdata }
        match data with
        | some w => s.debugWrite tid t csr idx w
        | none => s

/-- DEBUG_REGISTER_ACCESS (R404): any host reads; only the controlling host writes (R402). -/
def execDebugRegisterAccess (host core : Nat) (data : Option Word) (s : State) : Out :=
  if data.isSome && !s.controls host then .next s else .next (s.rdataAccess core data)

/-! ### The score pulse (R403, R407, R408) -/

/-- The thread's next instruction to issue: a wait has issued already; what is presented again has not. -/
def Thread.nextPc (t : Thread) : Word :=
  match t.block with
  | .none | .until _ | .walk _ | .walkWait _ | .parked _ | .faultWait _ _ _ _ _ | .halted | .saving | .migrate _ .atomic |
    .migrate _ .balance => t.pc
  | _ => t.pc + 4

/-- The run state of R407 of a slot that holds a thread. -/
def State.runState (s : State) (tid : Nat) (t : Thread) : Nat :=
  if t.stop ≠ Stop.none then 5
  else
    let go := if s.isSuspended tid t then 4 else if t.ut then 6 else 1
    match t.block with
    | .none => go
    | .parked _ | .walkWait _ | .faultWait _ _ _ _ _ | .halted => 3
    | _ => 2

/-- What a core latches of a slot: run state and PC. -/
def State.latchSlot (s : State) (tid : Nat) : Nat × Word :=
  match s.thread tid with
  | some t => (s.runState tid t, t.nextPc)
  | none => (0, Config.emptySlotPc tid)

/-- The PC field of a slot entry: PC[48:2], all ones from 2^49 up. -/
def pcField (pc : Word) : Nat := if 2 ^ 49 ≤ pc.toNat then 2 ^ 47 - 1 else bits pc 2 47

/-- A slot entry of R408. -/
def slotEntry (tid : Nat) (x : Nat × Word) : Word :=
  BitVec.ofNat 64 (tid % 2 ^ 14 * 2 ^ 50 + x.1 * 2 ^ 47 + pcField x.2)

/-- A mark entry of R408. -/
def markEntry (tid : Nat) (v : BitVec 32) : Word := BitVec.ofNat 64 (tid % 2 ^ 14 * 2 ^ 50 + 7 * 2 ^ 47 + v.toNat)

/-- What stands latched of a slot on its core (R407). -/
def State.latched (s : State) (tid : Nat) : Nat × Word := ((s.core (coreOf tid)).spSlots.look tid).getD (0, Config.emptySlotPc tid)

/-- The slots of a hearth that held a thread when they were latched or stood in the previous record, in ascending core and slot order. -/
def State.pulseSlots (s : State) (h : Nat) : List Nat :=
  let x := s.hearth h
  let ids := (s.cores.flatMap (fun c => c.2.spSlots.map Prod.fst) ++ x.prev.map Prod.fst).filter fun tid => hearthOf (coreOf tid) == h
  ((ids.foldl (fun (m : Map Unit) tid => m.put tid ()) []).map Prod.fst)

/-- The entries of a record: all non-empty slots when FULL, else those that differ from the previous record; then the marks. -/
def State.pulseEntries (s : State) (h : Nat) (full : Bool) : List Word :=
  let x := s.hearth h
  let slots := (s.pulseSlots h).filter fun tid =>
    let now := s.latched tid
    if full then now.1 != 0 else (x.prev.look tid).getD (0, Config.emptySlotPc tid) != now
  let marks := (s.cores.filter fun c => hearthOf c.1 == h).flatMap fun c => c.2.spMarks.map fun m => markEntry (16 * c.1 + m.1) m.2
  slots.map (fun tid => slotEntry tid (s.latched tid)) ++ marks

/-- Doublewords of a record written to the ring from an offset, modulo SRLEN. -/
def State.ringWrite (s : State) (base len off : Nat) : List Word → State
  | [] => s
  | w :: l =>
    ((numsFrom 0 8).foldl (fun (s : State) i =>
      s.writeLoc ⟨.phys 2, base + (off + i) % len⟩ 1 (w.toNat / 256 ^ i % 256)) s).ringWrite base len (off + 8) l

/-- The collector of a hearth at a tick: a record, or a drop when the ring has no room for it. -/
def State.pulseHearth (s : State) (tick h : Nat) : State :=
  let x := s.hearth h
  if x.srlen = 0 then s
  else
    let es := s.pulseEntries h x.full
    let mdrop := (s.cores.filter fun c => hearthOf c.1 == h).foldl (fun n c => n + c.2.mdrop) 0
    let words := BitVec.ofNat 64 tick ::
      BitVec.ofNat 64 (h * 2 ^ 48 + bit x.full * 2 ^ 47 + min mdrop 0xFFFF * 2 ^ 16 + min es.length 0xFFFF) :: es
    let size := 8 * words.length
    let free := (((x.srrd : Int) - x.srwr - 1) % x.srlen).toNat
    if free < size then s.setHearth h { x with drops := min (x.drops + 1) (2 ^ 32 - 1), full := true }
    else
      let prev := (s.pulseSlots h).filterMap fun tid =>
        let now := s.latched tid
        if now.1 = 0 then none else some (tid, now)
      (s.ringWrite (x.srbase.toNat / 4096 * 4096) x.srlen x.srwr words).setHearth h
        { x with srwr := (x.srwr + size) % x.srlen, full := false, prev := prev }

/-- A core latches its slots, and the marks of the tick, once its own TIME has reached a tick that it has not latched (R407). -/
def State.latchCore (s : State) (core : Nat) : State :=
  let tick := s.timeAt core / 2 ^ s.spP * 2 ^ s.spP
  let c := s.core core
  if tick ≤ max s.spLast c.spTick then s
  else
    ({ s.modCore core fun c =>
        { c with
          spTick := tick
          spSlots := (s.onCore core).map fun p => (p.1, s.latchSlot p.1)
          spMarks := c.marks
          marks := [] } with signals := s.signals ++ [(core, 30)] })

/-- A hearth's collector makes the record of a tick once every core of the module has latched, 2 ns after it at the latest (R9, R407). -/
def State.collect (s : State) (h : Nat) : State :=
  let tick := (s.time - 2) / 2 ^ s.spP * 2 ^ s.spP
  if tick ≤ max s.spLast (s.hearth h).spDone then s
  else (s.setHearth h { s.hearth h with spDone := tick }).pulseHearth tick h

/-- Cores that have something to latch: those that hold a thread, and those with a state of their own. -/
def State.latching (s : State) : List Nat := (s.cores.map Prod.fst ++ s.threads.map fun t => coreOf t.1).eraseDups

/-- SCORE_PULSE_TICK (R407): a TIME that is a multiple of 2^P has been reached since the last one. -/
def execScorePulseTick (s : State) : Out :=
  if !s.spEn then .next s
  else
    let s := s.latching.foldl State.latchCore s
    .next ((numsFrom 0 16).foldl State.collect s)

/-! ### Counters (R409) -/

/-- The signals of a core in this cc: 0 to 31 as given, 32 to 63 from the state. -/
def State.signal (s : State) (core : Nat) (activity : BitVec 32) (k : Nat) : Bool :=
  let c := s.core core
  if k < 32 then activity.toNat.testBit k
  else if k < 48 then match s.thread (16 * core + (k - 32)) with
    | some t => !s.ready (16 * core + (k - 32)) t
    | none => false
  else if k < 56 then match c.meters.find? fun m => m.no == k - 48 with
    | some m => m.job && m.last == some s.cc
    | none => false
  else if k < 59 then decide (k - 55 ≤ c.mode)
  else if k = 59 then c.fall
  else if k = 60 then (s.onCore core).any fun p => match p.2.block with
    | .divide _ _ _ _ _ => true
    | _ => false
  else if k = 61 then decide (32 ≤ c.lockCount)
  else k == 62

/-- THR of a cell; 0 is taken as 1. -/
def Cell.thr (c : Cell) : Nat := max (bits c.cfg 32 32) 1

/-- One cc of an enabled cell with its e. -/
def Cell.cycle (c : Cell) (e : Bool) : Cell :=
  let run := if e then c.run + 1 else 0
  match bits c.cfg 30 2 with
  | 0 => { c with run := run, cnt := if e then c.cnt + 1 else c.cnt }
  | 1 => { c with run := run, cnt := if e && c.run == 0 then c.cnt + 1 else c.cnt }
  | 2 => { c with run := run, cnt := if run = c.thr then c.cnt + 1 else c.cnt }
  | _ =>
    if e || c.run == 0 then { c with run := run }
    else
      let b := min ((c.run - 1) / c.thr) 7
      { c with run := 0, cnt := c.cnt + 1, bins := setAt c.bins b (min (c.bins.getD b 0 + 1) (2 ^ 32 - 1)) }

/-- The value of e for a cell. -/
def State.cellE (s : State) (core : Nat) (activity : BitVec 32) (c : Cell) : Bool :=
  (s.signal core activity (bits c.cfg 0 6) ^^ (bits c.cfg 6 1 == 1)) &&
    (s.signal core activity (bits c.cfg 8 6) ^^ (bits c.cfg 14 1 == 1))

/-- COUNTER_CELL_CYCLE (R409). -/
def execCounterCellCycle (core : Nat) (activity : BitVec 32) (s : State) : Out :=
  .next (s.modDbg core fun d =>
    { d with cells := d.cells.map fun c => if bits c.cfg 15 1 = 1 then c.cycle (s.cellE core activity c) else c })

/-! ### Writes of debug registers (R403, R404) -/

/-- Changes a cell. -/
def State.modCell (s : State) (core k : Nat) (f : Cell → Cell) : State :=
  s.modDbg core fun d => { d with cells := setAt d.cells k (f (d.cells.getD k {})) }

/-- A write to the block of a hearth. -/
def State.hearthWrite (s : State) (h off : Nat) (v : Word) : State :=
  let x := s.hearth h
  match off with
  | 0x00 =>
    if h ≠ 0 then s
    else
      let en := bits v 63 1 == 1
      let p := bits v 0 5
      let new := if 10 ≤ p ∧ p ≤ 24 then p else s.spP
      let s := if new ≠ s.spP ∨ (en && !s.spEn) = true then { s with spP := new, spLast := s.time / 2 ^ new * 2 ^ new } else s
      let s := if en && !s.spEn then (numsFrom 0 16).foldl (fun s h => s.setHearth h { s.hearth h with full := true }) s else s
      { s with spEn := en }
  | 0x08 => s.setHearth h { x with srbase := v &&& 0xFFFFFFFFFFFFF000#64 }
  | 0x10 => s.setHearth h { x with srlen := bits v 0 32 }
  | 0x20 => s.setHearth h { x with srrd := bits v 0 32 }
  | _ => s

/-- A write to the block of a core: the control word, STOP, breakpoints, the selector, RDATA, cells, counts and bins. -/
def State.coreWrite (s : State) (core off : Nat) (v : Word) : State :=
  if off = 0 then
    let was := (s.core core).dbg.halt
    let s := s.modDbg core fun d => { d with holdeng := bits v 62 1 == 1, uread := bits v 60 1 == 1, armbrk := bits v 59 1 == 1 }
    if bits v 63 1 = 1 then s.haltCore core else if was then s.unhaltCore core else s
  else if off = 0x008 then
    let tid := bits v 0 18
    if coreOf tid ≠ core then s
    else match (if bits v 63 1 = 1 then execDebugStop tid s else execDebugRelease tid s) with
      | .next s => s
      | _ => s
  else if 0x010 ≤ off ∧ off ≤ 0x028 ∧ off % 8 = 0 then
    s.modDbg core fun d => { d with bp := setAt d.bp ((off - 0x010) / 8) v }
  else if off = 0x030 then s.modDbg core fun d => { d with sel := (v &&& 0x8FFF000F#64) ||| (d.sel &&& 0x8000#64) }
  else if off = 0x038 then s.rdataAccess core (some v)
  else if 0x040 ≤ off ∧ off < 0x0C0 ∧ off % 8 = 0 then
    s.modCell core ((off - 0x040) / 8) fun c => { c with cfg := v &&& 0xFFFFFFFFC000FF7F#64, run := 0 }
  else if 0x100 ≤ off ∧ off < 0x180 ∧ off % 8 = 0 then s.modCell core ((off - 0x100) / 8) fun c => { c with cnt := v }
  else if 0x200 ≤ off ∧ off < 0x400 ∧ off % 4 = 0 then
    s.modCell core ((off - 0x200) / 32) fun c => { c with bins := setAt c.bins ((off - 0x200) % 32 / 4) (bits v 0 32) }
  else s

/-- DEBUG_CONTROL_WRITE (R402 to R404): a write through BAR 2 of physical function 0; only the controlling host's counts. -/
def execDebugControlWrite (host off : Nat) (v : Word) (s : State) : Out :=
  if !s.controls host then .next s
  else if off < 0x10000 then .next (s.hearthWrite (off / 0x1000) (off % 0x1000) v)
  else if 0x100000 ≤ off ∧ off < 0x100000 + 0x400 * 16384 then
    .next (s.coreWrite ((off - 0x100000) / 0x400) ((off - 0x100000) % 0x400) v)
  else .next s

/-! ### Reads of debug registers (R402 to R404) -/

/-- A read of the block of hearth h. -/
def State.hearthRead (s : State) (h off : Nat) : Word :=
  let x := s.hearth h
  match off with
  | 0x00 => BitVec.ofNat 64 (bit s.spEn * 2 ^ 63 + s.spP)
  | 0x08 => x.srbase
  | 0x10 => BitVec.ofNat 64 x.srlen
  | 0x18 => BitVec.ofNat 64 x.srwr
  | 0x20 => BitVec.ofNat 64 x.srrd
  | 0x28 => BitVec.ofNat 64 x.drops
  | _ => 0

/-- STOPPED: the slots of a core whose threads are stopped. -/
def State.stoppedBits (s : State) (core : Nat) : Nat :=
  ((s.onCore core).filter fun p => p.2.stop != Stop.none).foldl (fun n p => n + 2 ^ slotOf p.1) 0

/-- A read of the block of a core. RDATA shows what its own row has read (R404); the write-only STOP reads as reserved bits do (R5). -/
def State.coreRead (s : State) (core off : Nat) : Word :=
  let d := (s.core core).dbg
  let cell := fun (k : Nat) => d.cells.getD k {}
  if off = 0 then
    BitVec.ofNat 64 (bit d.halt * 2 ^ 63 + bit d.holdeng * 2 ^ 62 + bit d.settled * 2 ^ 61 + bit d.uread * 2 ^ 60 +
      bit d.armbrk * 2 ^ 59 + s.stoppedBits core)
  else if 0x010 ≤ off ∧ off ≤ 0x028 ∧ off % 8 = 0 then d.bp.getD ((off - 0x010) / 8) 0
  else if off = 0x030 then d.sel
  else if off = 0x038 then d.rdata
  else if 0x040 ≤ off ∧ off < 0x0C0 ∧ off % 8 = 0 then (cell ((off - 0x040) / 8)).cfg
  else if 0x100 ≤ off ∧ off < 0x180 ∧ off % 8 = 0 then (cell ((off - 0x100) / 8)).cnt
  else if 0x200 ≤ off ∧ off < 0x400 ∧ off % 4 = 0 then BitVec.ofNat 64 ((cell ((off - 0x200) / 32)).bins.getD ((off - 0x200) % 32 / 4) 0)
  else 0

/-- What any host reads through BAR 2 of physical function 0 (R402). -/
def State.debugRegister (s : State) (off : Nat) : Word :=
  if off < 0x10000 then s.hearthRead (off / 0x1000) (off % 0x1000)
  else if 0x100000 ≤ off ∧ off < 0x100000 + 0x400 * 16384 then s.coreRead ((off - 0x100000) / 0x400) ((off - 0x100000) % 0x400)
  else 0

/-! ### The forms (R411) -/

/-- mark (R411): the value joins the core's marks for the next tick while the score pulse runs. -/
def execMark (ra : GReg) (s : State) : Out :=
  s.onThread fun t =>
    let v := (t.rd ra).truncate 32
    let s :=
      if !s.spEn then s
      else s.modCore (coreOf s.cur) fun k =>
        if k.marks.length < 4 then { k with marks := k.marks ++ [(slotOf s.cur, v)] } else { k with mdrop := k.mdrop + 1 }
    s.finish t 0

/-- dbrk (R411, R405): a debug stop at the boundary after it when breaks are armed. -/
def execDbrk (rd : GReg) (s : State) : Out :=
  s.onThread fun t =>
    if (s.core (coreOf s.cur)).dbg.armbrk then s.write { t with stop := .stopped } rd 1 0 else s.write t rd 0 0

/-- smpl (R411). -/
def execSmpl (ra rd : GReg) (s : State) : Out :=
  s.onThread fun t =>
    let d := (s.core (coreOf s.cur)).dbg
    let sel := t.rd ra
    let c := d.cells.getD (bits sel 0 4) {}
    if t.priv = 0 ∧ d.uread = false then s.priv t
    else s.write t rd (if bits sel 7 1 = 0 then c.cnt else BitVec.ofNat 64 (c.bins.getD (bits sel 4 3) 0)) 0

end Sys2Proof.Machine
end

