-- ==== Sys2Proof/Machine/Fabric.lean ====
section
/-! DEFINITION. The Ethernet attachment and the signal fabric (spec/20: R392 to R400): descriptors, packets, triggers, pod
barrier flits, link failures and TIME. -/

namespace Sys2Proof.Machine

/-! ### Endpoints (R393) -/

/-- An endpoint's entry in the placing hearth's share. -/
structure Endpoint where
  v : Bool
  trig : Bool
  owner : Nat
  core : Nat
  buf : Word
  blen : Nat
  hpc : Word
  txq : Word
  lo : Nat
  hi : Nat
  deriving DecidableEq, Repr

/-- Endpoint e of a partition. -/
def State.endpoint (s : State) (part e : Nat) : Endpoint :=
  let d := fun (k : Nat) => BitVec.ofNat 64 ((s.mem (.share part (s.placing part))).read (0x150000 + 64 * e + 8 * k) 8)
  { v := bits (d 0) 63 1 == 1, trig := bits (d 0) 62 1 == 1, owner := bits (d 0) 32 8, core := bits (d 0) 0 14, buf := d 1,
    blen := bits (d 2) 0 32, hpc := d 3, txq := d 4, lo := bits (d 5) 0 12, hi := bits (d 5) 16 12 }

/-- The checks of NOEP (R394): a module may send to an endpoint of a partition. -/
def State.endpointOk (s : State) (sender part e : Nat) : Bool :=
  match s.part part with
  | none => false
  | some p =>
    let x := s.endpoint part e
    decide (e < 256) && x.v && decide (x.lo ≤ sender) && decide (sender ≤ x.hi) && (!x.trig || p.accepts 3)

/-! ### Accesses of the fabric unit -/

/-- Where an address goes for the unit, on behalf of work of a partition at a core: a location of the partition (R392), or the reason of
R111 (0 where R106 fails). DEDUCED: the LM of a core outside the partition fails as R106 does (log 116). -/
def State.unitLoc (s : State) (part core : Nat) (k : AccessKind) (va : Nat) : Except Nat Loc :=
  match s.window part core (BitVec.ofNat 64 va), s.part part with
  | some (.lm c off), some p => if p.hasCore c then .ok ⟨.lm c, off⟩ else .error 0
  | some (.pantry h off), _ => .ok ⟨.share part h, off⟩
  | some (.global a), some p =>
    match s.translateNow 0 part p.sec k a with
    | .ok e => .ok ⟨.phys e.leaf.tier, e.leaf.pa + (a - e.base)⟩
    | .error r => .error r
  | _, _ => .error 0

/-- The n bytes from an address, or the reason of the first that fails. -/
def State.unitBytes (s : State) (part core : Nat) : Nat → Nat → Except Nat (List Byte)
  | _, 0 => .ok []
  | va, n + 1 =>
    match s.unitLoc part core .load va with
    | .error r => .error r
    | .ok l =>
      match s.unitBytes part core (va + 1) n with
      | .ok b => .ok (BitVec.ofNat 8 (s.readLoc l 1) :: b)
      | .error r => .error r

/-- The unit as a source of parcels of a partition (R394, R116). -/
def fabricSrc (part : Nat) : Nat := 2 ^ 19 + 2 ^ 8 + part

/-- The handler parcel of a complete message to an endpoint with TRIG = 1 (R396), which acts only where the partition has accepted
feature TRIG (R393), and what names it. DESIGN CHOICE: its handler runs at
user privilege, as the work of OWNER that the arbiter may shed (log 84). -/
def State.sendTrigger (s : State) (part e sender roff len tag : Nat) : State × Option (Nat × Nat) :=
  let x := s.endpoint part e
  match s.part part with
  | none => (s, none)
  | some p =>
    if !x.trig || !p.accepts 3 || !p.hasCore x.core then (s, none)
    else
      let h : HandlerParcel :=
        { handler := x.hpc, args := [BitVec.ofNat 64 roff, BitVec.ofNat 64 len, BitVec.ofNat 64 tag, BitVec.ofNat 64 sender],
          sender := BitVec.ofNat 64 e, starter := p.starter, owner := x.owner, part := part, sec := p.sec }
      ({ s.nextUid with parcels := s.parcels ++
          [{ src := fabricSrc part, seq := s.uid, part := part, place := .lm x.core, loc := ⟨.lm x.core, 0⟩,
             acc := .handler x.core h, ctr := 3, va := 0, firstAt := s.time, lastAt := s.time }] }, some (fabricSrc part, s.uid))

/-! ### The end of a message (R394) -/

/-- The unit writes STATUS of the descriptor at an address and then adds 1 to the completion doubleword, as `red.add.d` would. -/
def State.endMessage (s : State) (part core : Nat) (desc cw : Word) (code : Nat) : State :=
  let s := match s.unitLoc part core .store (desc.toNat + 48) with
    | .ok l => s.writeLoc l 8 (2 ^ 63 + code)
    | .error _ => s
  if cw = 0 then s
  else match s.unitLoc part core .store cw.toNat with
    | .ok l => s.doRed .add l 8 1
    | .error _ => s

/-- The message that this module sends under a number. -/
def State.sentMsg (s : State) (id : Nat) : Option Message := s.msgs.find? fun m => m.sending && m.id == id

/-- Ends a message that this module sends. -/
def State.finishMsg (s : State) (m : Message) (code : Nat) : State :=
  { s with msgs := s.msgs.filter fun x => x != m }.endMessage m.part m.core m.desc m.cw code

/-- A descriptor's must-be-zero fields and the sender's checks of RANGE. -/
def descriptorRange (d : List Word) : Bool :=
  let w := fun k => d.getD k 0
  let len := bits (w 2) 0 32
  let sigf := bits (w 5) 0 1 == 1
  bits (w 0) 12 4 != 0 || bits (w 0) 31 33 != 0 || bits (w 5) 1 63 != 0 || w 7 != 0 ||
    (if sigf then len != 0 else len == 0 || len % 4 != 0 || bits (w 3) 0 2 != 0)

/-- Sends a flit towards another module, over the first link of the path to it. -/
def State.sendTowards (s : State) (dest : Nat) (f : Word) : State :=
  match s.hop s.modId dest with
  | some (l, _) => s.sendFlit l f
  | none => s

/-- SEND_DESCRIPTOR (R394, R398): the unit takes the next descriptor of an endpoint's TXQ and reads it whole. An entry with TRIG = 1 acts
only in a partition that has accepted TRIG (R393). -/
def execSendDescriptor (part endpoint : Nat) (s : State) : Out :=
  match s.part part with
  | none => .next s
  | some p =>
    let x := s.endpoint part endpoint
    match (if x.v && (!x.trig || p.accepts 3) && x.txq != 0 && decide (endpoint < 256) then s.queueAt part p.svc x.txq else none) with
    | none => .next s
    | some q =>
      let core := coreOf ((s.queue part q).senders.headD 0)
      match s.qPop part q with
      | none => .next s
      | some (va, s) =>
        match s.unitLoc part core .store va.toNat, s.unitBytes part core va.toNat 64 with
        | .ok _, .ok b =>
          let d := (numsFrom 0 8).map fun k => BitVec.ofNat 64 (((b.drop (8 * k)).take 8).foldr (fun x acc => x.toNat + 256 * acc) 0)
          let w := fun k => d.getD k 0
          let m : Message :=
            { sending := true, id := s.uid, peer := bits (w 0) 0 12, part := part, ep := endpoint, dstPart := bits (w 0) 24 7,
              dstEp := bits (w 0) 16 8, desc := va, core := core, cw := w 4, sentAt := s.time, len := bits (w 2) 0 32,
              tag := bits (w 2) 32 32, roff := (w 3).toNat, sigf := bits (w 5) 0 1 == 1 }
          if descriptorRange d then .next (s.endMessage part core va (w 4) 2)
          else if m.sigf then
            let head := flit 4 m.peer (m.dstEp + m.dstPart * 2 ^ 8 + s.modId * 2 ^ 15)
            .next (({ s.nextUid with msgs := s.msgs ++ [m] }.sendTowards m.peer head).sendTowards m.peer (flit 6 m.peer m.tag))
          else match s.unitBytes part core (w 1).toNat m.len with
            | .error r => .next (s.endMessage part core va (w 4) (3 + 256 * r))
            | .ok bytes => .next { s.nextUid with msgs := s.msgs ++ [{ m with bytes := bytes }] }
        | _, _ => .next s

/-! ### Receiving (R395, R396) -/

/-- Where a packet's bytes may be placed (R392): LM, pantry and writable HBM pages. -/
def State.placeLoc (s : State) (part core va : Nat) : Option Loc :=
  match s.unitLoc part core .store va with
  | .ok l => if l.space = .phys 1 ∨ l.space = .phys 2 then none else some l
  | .error _ => none

/-- Bytes placed at an address of the receive buffer, each aligned group of 4 whole; none where one fails. -/
def State.placeBytes (s : State) (part core : Nat) : Nat → List Byte → Option State
  | va, a :: b :: c :: d :: l =>
    match s.placeLoc part core va with
    | some loc => (s.writeLoc loc 4 (a.toNat + 256 * b.toNat + 2 ^ 16 * c.toNat + 2 ^ 24 * d.toNat)).placeBytes part core (va + 4) l
    | none => none
  | _, _ => some s

/-- How far the bytes of packets reach without a gap, from r on; n bounds the packets looked at. -/
def reachOf (l : List (Nat × Nat)) : Nat → Nat → Nat
  | 0, r => r
  | n + 1, r =>
    match l.find? fun p => decide (p.1 ≤ r) && decide (r < p.1 + p.2) with
    | some p => reachOf l n (p.1 + p.2)
    | none => r

/-- Every byte of the message is placed. -/
def Message.whole (m : Message) : Bool := decide (m.len ≤ reachOf m.placed m.placed.length 0)

/-- A packet is placed once; the one that places the last byte completes the message: the handler parcel, then the report. -/
def State.placePacket (s : State) (m : Message) (off : Nat) (data : List Byte) : State :=
  if m.placed.any fun p => p.1 == off then s
  else
    let x := s.endpoint m.part m.ep
    match s.placeBytes m.part x.core (x.buf.toNat + m.roff + off) data with
    | none => s
    | some s' =>
      let m' := { m with placed := (off, data.length) :: m.placed }
      if m'.whole then
        (({ s' with msgs := s'.msgs.filter fun y => y != m, heard := s'.heard ++ [(m.peer, m.id)] } : State).sendTrigger
          m.part m.ep m.peer m.roff m.len m.tag).1.report m.peer m.id 0
      else { s' with msgs := s'.msgs.map fun y => if y = m then m' else y }

/-- A message is refused with a code; no packet of it is placed later. -/
def State.refuse (s : State) (sender id code : Nat) : State := { s with heard := s.heard ++ [(sender, id)] }.report sender id code

/-- A packet of a message that is to be placed under its own number and sender; its first one meets the checks of R394. -/
def State.takePacket (s : State) (m : Message) (off : Nat) (data : List Byte) : State :=
  if off % 4 ≠ 0 ∨ data.length % 4 ≠ 0 ∨ data = [] ∨ 4096 < data.length ∨ m.len < off + data.length ∨
      s.heard.contains (m.peer, m.id) = true then s
  else
    match s.msgs.find? fun y => !y.sending && y.peer == m.peer && y.id == m.id with
    | some y => s.placePacket y off data
    | none =>
      if !s.endpointOk m.peer m.part m.ep then s.refuse m.peer m.id 1
      else if (s.endpoint m.part m.ep).blen < m.roff + m.len ∨ m.roff % 4 ≠ 0 then s.refuse m.peer m.id 2
      else ({ s with msgs := s.msgs ++ [m] } : State).placePacket m off data

/-- PACKET_PLACEMENT (R395): a packet of a message from a module arrives. Of a message of this module to itself all is as its descriptor
and the source gave it. -/
def execPacketPlacement (sender msg part ep roff len tag off : Nat) (data : List Byte) (s : State) : Out :=
  if sender = s.modId then
    match s.sentMsg msg with
    | some m =>
      let r : Message :=
        { sending := false, id := msg, peer := sender, part := m.dstPart, ep := m.dstEp, len := m.len, tag := m.tag, roff := m.roff }
      .next (if m.peer = s.modId ∧ m.sigf = false then s.takePacket r off ((m.bytes.drop off).take 4096) else s)
    | none => .next s
  else
    .next (s.takePacket { sending := false, id := msg, peer := sender, part := part, ep := ep, len := len, tag := tag, roff := roff } off data)

/-- The report that this module has made on a message to itself may go back: the handler parcel of a trigger is queued (R398). -/
def Message.reported (m : Message) (code : Nat) : Bool :=
  m.code == some code && m.trig.isNone

/-- MESSAGE_STATUS (R394): the receiver's report of OK, NOEP or RANGE ends a message; from this module itself, the report made. -/
def execMessageStatus (msg code : Nat) (s : State) : Out :=
  match s.sentMsg msg with
  | none => .next s
  | some m =>
    if 2 < code ∨ (m.peer = s.modId ∧ m.reported code = false) then .next s else .next (s.finishMsg m code)

/-- LINK_TIMEOUT (R394): no acknowledgement within 1 ms. -/
def execLinkTimeout (msg : Nat) (s : State) : Out :=
  match s.sentMsg msg with
  | none => .next s
  | some m => if m.sentAt + 10 ^ 6 ≤ s.time ∧ (m.code = none ∨ m.trig.isSome) then .next (s.finishMsg m 4) else .next s

/-- PACKET_LOSS_RESEND (R392): the transport sends the packet again; it is placed at most once. -/
def execPacketLossResend (_msg _off : Nat) (s : State) : Out := .next s

/-- TRIGGER_FLITS (R397, R398): a head and its tail; another module's are forwarded as a pair, an unpaired flit is discarded. Of a message
of this module to itself, the oldest with that endpoint and TAG, the report waits until CORE has queued the handler parcel; where none is
queued no OK goes back. -/
def execTriggerFlits (head tail : Word) (s : State) : Out :=
  let dest := bits head 48 12
  if bits head 60 4 ≠ 4 ∨ bits tail 60 4 ≠ 6 ∨ bits tail 48 12 ≠ dest then .next s
  else if dest ≠ s.modId then .next ((s.sendTowards dest head).sendTowards dest tail)
  else
    let part := bits head 8 7
    let e := bits head 0 8
    let sender := bits head 15 12
    let mine := fun (m : Message) => m.sending && m.sigf && m.peer == s.modId && m.dstPart == part && m.dstEp == e &&
      m.tag == bits tail 0 32 && m.code.isNone
    let r : State × Option (Nat × Nat) := if s.endpointOk sender part e then s.sendTrigger part e sender 0 0 (bits tail 0 32) else (s, none)
    let code := if s.endpointOk sender part e then r.2.map fun _ => 0 else some 1
    .next (match (if sender = s.modId then s.msgs.find? mine else none) with
      | some m => { r.1 with msgs := r.1.msgs.map fun y => if y = m then { m with code := code, trig := r.2 } else y }
      | none => r.1)

/-! ### Pod barriers (R399) -/

/-- The module is a member of a pod barrier. -/
def State.podMember (s : State) (b : PodBar) : Bool := (s.podMembers b).contains s.modId

/-- BARRIER_ARRIVAL_FLIT (R399): a member combines the arrivals of its children, another module forwards them unchanged toward the root. -/
def execBarrierArrivalFlit (_link : Nat) (flit : Word) (s : State) : Out :=
  let id := bits flit 0 6
  let child := bits flit 48 12
  let b := s.pod id
  if bits flit 60 4 ≠ 1 then .next s
  else if !s.podMember b then .next (match s.podUpLink b s.modId with
    | some l => s.sendFlit l flit
    | none => s)
  else if !(s.podKids b s.modId).contains child then .next s
  else .next ((s.setPod id { b with arrived := if b.arrived.contains child then b.arrived else b.arrived ++ [child] }).podTry id)

/-- BARRIER_RELEASE_FLIT (R399): local waiters are released and the flit goes on down the tree. -/
def execBarrierReleaseFlit (_link : Nat) (flit : Word) (s : State) : Out :=
  let id := bits flit 0 6
  let s' := s.podDown (s.pod id) flit
  if bits flit 60 4 ≠ 2 then .next s
  else if !s.podMember (s.pod id) then .next s'
  else .next (s'.podRelease id (if bits flit 8 1 = 1 then 2 else 0))

/-- A link, named by a module that it ends at, belongs to the tree of a pod barrier. -/
def State.podHolds (s : State) (b : PodBar) (mod link : Nat) : Bool :=
  (s.podNodes b).any fun n =>
    match s.hop n (s.podRoot b) with
    | some (l, m) => (n == mod && l == link) || (m == mod && backLink l == link)
    | none => false

/-- The links of the tree of a pod barrier at this module. -/
def State.podLinks (s : State) (b : PodBar) : List Nat :=
  if (s.podNodes b).contains s.modId then (s.podUpLink b s.modId).toList ++ s.podDownLinks b s.modId else []

/-- Pod barriers whose tree holds a failed link end with 2, and the flit goes on along their trees. -/
def State.failPods (s : State) (mod link : Nat) (from_ : Option Nat) (f : Word) : State :=
  s.pods.foldl (fun s q =>
    if s.podHolds q.2 mod link then
      let out := (s.podLinks q.2).filter fun l => some l != from_ && !(mod == s.modId && l == link)
      let s := out.foldl (fun s l => s.sendFlit l f) s
      if s.podMember q.2 then s.podRelease q.1 2 else s
    else s) s

/-- LINK_DOWN (R399, R251). -/
def execLinkDown (link : Nat) (flit : Word) (s : State) : Out :=
  if bits flit 60 4 ≠ 5 then .next s else .next (s.failPods (bits flit 48 12) (bits flit 0 3) (some link) flit)

/-- SIGNAL_FABRIC_LINK_FAILURE (R399): the module finds one of its links down. -/
def execSignalFabricLinkFailure (link : Nat) (s : State) : Out :=
  let s : State := { s with links := setAt s.links link { s.links.getD link {} with up := false } }
  .next (s.failPods s.modId link none (flit 5 s.modId link))

/-! ### TIME across a pod (R400) -/

/-- TIME that a joining module takes from the latest time-high flit H and the next time flit L. -/
def joinTime (H L : Nat) : Nat := L % 2 ^ 48 + (H / 2 ^ 32 + (if L / 2 ^ 16 < H % 2 ^ 32 then 1 else 0)) % 2 ^ 16 * 2 ^ 48

/-- TIME is set; ticks of the score pulse are counted from there. -/
def State.setTime (s : State) (t : Nat) : State :=
  { s with
    time := t
    spLast := t / 2 ^ s.spP * 2 ^ s.spP
    cores := s.cores.over fun _ c => { c with spTick := 0 }
    hearths := s.hearths.over fun _ h => { h with spDone := 0 } }

/-- TIME_FLIT (R400): on the link towards the master, a joining module sets TIME once, before any partition runs; after that
it corrects by one count in 64 ns. -/
def execTimeFlit (link : Nat) (flit : Word) (s : State) : Out :=
  let x := s.links.getD link {}
  let L := (bits flit 0 48 + x.delay) % 2 ^ 48
  if bits flit 60 4 ≠ 3 ∨ s.modId = s.master ∨ (s.hop s.modId s.master).map Prod.fst ≠ some link then .next s
  else if !s.timeSet then
    match x.high with
    | some H => if s.parts.isEmpty then .next { s.setTime (joinTime (bits H 0 48) L) with timeSet := true } else .next s
    | none => .next s
  else if s.time < s.timeAdj + 64 then .next s
  else
    let ahead := (L + 2 ^ 48 - s.time % 2 ^ 48) % 2 ^ 48
    if ahead = 0 then .next s
    else if ahead < 2 ^ 47 then .next { s with time := s.time + 1, timeAdj := s.time }
    else .next { s with timeOmit := true, timeAdj := s.time }

/-- TIME_HIGH_FLIT (R400). -/
def execTimeHighFlit (link : Nat) (flit : Word) (s : State) : Out :=
  if bits flit 60 4 ≠ 7 then .next s
  else .next { s with links := setAt s.links link { s.links.getD link {} with high := some (BitVec.ofNat 64 (bits flit 0 48)) } }

/-- Changes a link. -/
def State.modLink (s : State) (link : Nat) (f : Link → Link) : State :=
  { s with links := setAt s.links link (f (s.links.getD link {})) }

/-- TIME_FLIT_SEND (R400): every 1,024 ns a link that is up carries TIME[47:0] under the master's ID. -/
def execTimeFlitSend (link : Nat) (s : State) : Out :=
  let x := s.links.getD link {}
  .next (if x.up && decide (x.lowAt + 2 ^ 10 ≤ s.ns) then
      (s.modLink link fun x => { x with lowAt := s.ns }).sendFlit link (flit 3 s.master (s.time % 2 ^ 48))
    else s)

/-- The time-high flit of a link. -/
def State.sendHigh (s : State) (link : Nat) : State :=
  (s.modLink link fun x => { x with highAt := s.ns }).sendFlit link (flit 7 s.master (s.time / 2 ^ 16 % 2 ^ 48))

/-- TIME_HIGH_FLIT_SEND (R400): every 2^20 ns from link training on. -/
def execTimeHighFlitSend (link : Nat) (s : State) : Out :=
  let x := s.links.getD link {}
  .next (if x.up && decide (x.highAt + 2 ^ 20 ≤ s.ns) then s.sendHigh link else s)

/-- LINK_TRAINING (R400): the link is up with its delay measured, and a time-high flit is sent. -/
def execLinkTraining (link delay : Nat) (s : State) : Out :=
  .next ((s.modLink link fun x => { x with up := true, delay := delay, lowAt := s.ns }).sendHigh link)

end Sys2Proof.Machine
end

