-- ==== Sys2Proof/Machine/Signature.lean ====
section
/-! DEFINITION. ECDSA over the curve brainpoolP384r1 of RFC 5639 with SHA-384, which R379 asks of a configuration table. -/

namespace Sys2Proof.Machine

/-- The prime of the field of brainpoolP384r1. -/
def curveP : Nat := 0x8CB91E82A3386D280F5D6F7E50E641DF152F7109ED5456B412B1DA197FB71123ACD3A729901D1A71874700133107EC53
/-- Coefficient A of its equation. -/
def curveA : Nat := 0x7BC382C63D8C150C3C72080ACE05AFA0C2BEA28E4FB22787139165EFBA91F90F8AA5814A503AD4EB04A8C7DD22CE2826
/-- Coefficient B of its equation. -/
def curveB : Nat := 0x04A8C7DD22CE28268B39B55416F0447C2FB77DE107DCD2A62E880EA53EEB62D57CB4390295DBC9943AB78696FA504C11
/-- The order of its base point. -/
def curveQ : Nat := 0x8CB91E82A3386D280F5D6F7E50E641DF152F7109ED5456B31F166E6CAC0425A7CF3AB6AF6B7FC3103B883202E9046565

/-- A point: its coordinates, or none for the point at infinity. -/
abbrev CurvePoint := Option (Nat × Nat)

/-- Its base point. -/
def curveG : CurvePoint :=
  some (0x1D1C64F068CF45FFA2A63A81B7C13F6B8847A3E77EF14FE3DB7FCAFE0CBD10E8E826E03436D646AAEF87B2E247D4AF1E,
    0x8ABE1D7520F9C2A45CB1EB8E95CFD55262B70B29FEEC5864E19C054FF99129280E4646217791811142820341263C5315)

/-- b to the power e modulo m, over n bits of e from the lowest. -/
def powMod (m : Nat) : Nat → Nat → Nat → Nat
  | 0, _, _ => 1 % m
  | n + 1, b, e => let r := powMod m n (b * b % m) (e / 2); if e % 2 = 1 then r * b % m else r

/-- The inverse modulo a prime of 384 bits. -/
def inverseMod (m a : Nat) : Nat := powMod m 384 (a % m) (m - 2)

/-- The third point of the line of a slope through two points, reflected. -/
def curveThird (slope : Nat) (a b : Nat × Nat) : CurvePoint :=
  let x := (slope * slope + 2 * curveP - a.1 - b.1) % curveP
  some (x, (slope * (a.1 + curveP - x) + curveP - a.2) % curveP)

/-- The sum of two points. -/
def curveAdd : CurvePoint → CurvePoint → CurvePoint
  | none, b => b
  | a, none => a
  | some a, some b =>
    if a.1 = b.1 then
      if (a.2 + b.2) % curveP = 0 then none
      else curveThird ((3 * a.1 * a.1 + curveA) * inverseMod curveP (2 * a.2) % curveP) a b
    else curveThird ((b.2 + curveP - a.2) * inverseMod curveP (b.1 + curveP - a.1) % curveP) a b

/-- The multiple k of a point, over n bits of k from the lowest. -/
def curveMul : Nat → Nat → CurvePoint → CurvePoint
  | 0, _, _ => none
  | n + 1, k, a => let r := curveMul n (k / 2) (curveAdd a a); if k % 2 = 1 then curveAdd r a else r

/-- ECDSA: whether (r, t) signs a digest under a public key. -/
def ecdsaVerifies (key : Nat × Nat) (digest r t : Nat) : Bool :=
  let w := inverseMod curveQ t
  let sum := curveAdd (curveMul 384 (digest * w % curveQ) curveG) (curveMul 384 (r * w % curveQ) (some key))
  decide (1 ≤ r) && decide (r < curveQ) && decide (1 ≤ t) && decide (t < curveQ) && match sum with
    | some q => q.1 % curveQ == r
    | none => false

end Sys2Proof.Machine
end

