-- ==== Sys2Proof/Machine/Host.lean ====
section
/-! DEFINITION. The host port, functions and their registers, the virtual command processor and its commands, boot, partitions,
resizing, checkpoint and restore (spec/18: R365 to R388, R413; R311, R345, R258). -/

namespace Sys2Proof.Machine

/-! ### Hosts and functions (R366 to R371) -/

/-- A host that reaches the module is attached to it. -/
def State.attach (s : State) (host : Nat) : State :=
  s.modFw fun f => { f with hosts := if f.hosts.contains host then f.hosts else f.hosts ++ [host] }

/-- The links of the controlling host (R365): a host that is not listed is on both. -/
def Firmware.ctlLinks (f : Firmware) : List Nat :=
  match f.ctl with
  | some h => (f.hostLinks.look h).getD [16, 17]
  | none => []

/-- The time from which all links of the controlling host have been down, if they are (R370). -/
def State.watchLinks (s : State) : State :=
  let lost := s.fw.ctl.isSome && s.fw.ctlLinks.all s.down.contains
  s.modFw fun f => { f with lossAt := if lost then some (f.lossAt.getD s.time) else none }

/-- CLAIM (R370): elects its writer while there is no controlling host. -/
def execClaim (host : Nat) (s : State) : Out :=
  .next ((s.attach host).modFw fun f => { f with ctl := if f.ctl.isNone then some host else f.ctl }).watchLinks

/-- HANDOVER (R370): the controlling host names an attached host. -/
def execHandover (host dest : Nat) (s : State) : Out :=
  let s := s.attach host
  .next (if s.controls host && s.fw.hosts.contains dest then (s.modFw fun f => { f with ctl := some dest, lossAt := none }).watchLinks else s)

/-- CONTROL_LOSS (R370): the controlling host's links have been down for 100 ms. -/
def execControlLoss (s : State) : Out :=
  .next (match s.fw.lossAt with
    | some t => if t + 10 ^ 8 ≤ s.time then s.modFw fun f => { f with ctl := none, lossAt := none } else s
    | none => s)

/-- BOARD_THERMAL_LIMIT (R369): the board controller's report in THERM. -/
def execBoardThermalLimit (hot : Bool) (s : State) : Out := .next (s.modFw fun f => { f with therm := hot })

/-- BACKING_LINK_DOWN (R111, R367): a far-tier port, or a host link (16 or 17), goes down. -/
def execBackingLinkDown (port : Nat) (s : State) : Out :=
  .next ({ s with down := if s.down.contains port then s.down else s.down ++ [port] } : State).watchLinks

/-- BACKING_LINK_UP (R111). -/
def execBackingLinkUp (port : Nat) (s : State) : Out :=
  .next ({ s with down := s.down.filter fun x => x != port } : State).watchLinks

/-! ### Commands: slots, checks and results (R372 to R376) -/

/-- A command as the processor has read its slot: the function, its D0 and place, and D0 to D7. -/
structure Cmd where
  fn : Nat
  w : HostWake
  d : List Nat
  deriving DecidableEq, Repr

/-- Operand Dk. -/
def Cmd.arg (c : Cmd) (k : Nat) : Nat := c.d.getD k 0
/-- A bit field of Dk. -/
def Cmd.bits (c : Cmd) (k lo len : Nat) : Nat := c.arg k / 2 ^ lo % 2 ^ len
/-- OP. -/
def Cmd.op (c : Cmd) : Nat := c.bits 0 0 8
/-- FLAGS bit n, n from 8 to 14. -/
def Cmd.flag (c : Cmd) (n : Nat) : Bool := c.bits 0 n 1 == 1

/-- The must-be-zero bits are zero (R375): flags and operand bits that the row does not use. -/
def Cmd.clean (c : Cmd) (flags : Nat) (used : List Nat) : Bool :=
  c.bits 0 32 32 == 0 && (c.bits 0 8 7 &&& (127 - flags)) == 0 &&
  (numsFrom 1 6).all fun k => (c.arg k &&& (2 ^ 64 - 1 - used.getD (k - 1) 0)) == 0

/-- A whole doubleword. -/
def allBits : Nat := 2 ^ 64 - 1

/-- The slot of the command that a function reads next (R373). -/
def VF.slot (v : VF) : Nat := v.vcpaddr.toNat / 4096 * 4096 + 64 * (1 + v.cidx % 63)

/-- No link to host memory stands. -/
def State.hostLost (s : State) : Bool := s.fw.links.all s.down.contains

/-- A function whose command page cannot be read stops with PGERR (R368). -/
def State.pageLost (s : State) (fn : Nat) : State :=
  let v := s.fw.fn fn
  if v.run && v.cidx != v.pidx && s.hostLost then s.modFn fn fun v => { v with pgerr := true, run := false, pidx := v.cidx }
  else s

/-- The command that a function starts next, read whole from its slot. -/
def State.head (s : State) (fn : Nat) : Option Cmd :=
  let v := s.fw.fn fn
  if v.run && v.cidx != v.pidx then
    let d := (numsFrom 0 8).map fun k => s.host.read (v.slot + 8 * k) 8
    some ⟨fn, ⟨v.slot, BitVec.ofNat 64 (d.getD 0 0)⟩, d⟩
  else none

/-- A command that completes out of order: WAKE (R377). -/
def Cmd.unordered (c : Cmd) : Bool := c.fn != 0 && c.op == 6

/-- The command at the head has been read: CIDX moves on, and its RESULT is awaited (R373, R376). -/
def State.accept (s : State) (c : Cmd) : State :=
  s.modFn c.fn fun v =>
    { v with cidx := (v.cidx + 1) % 64512, opened := if c.unordered then v.opened else v.opened ++ [(c.w, none)] }

/-- A command that the partition's standing turns away with NOTREADY (R371): before the lock, all but RESET; no partition, or a
module in recovery, all. -/
def State.notReady (s : State) (c : Cmd) : Bool :=
  if c.fn = 0 then s.fw.boot == 3
  else match s.part (c.fn - 1) with
    | some p => !p.flock && c.op != 8
    | none => true

/-- The status of a command that no row of the table takes (R377, R381). A function without a partition has no lock to await: it is denied
a monitor command. -/
def State.unowned (s : State) (c : Cmd) : Option Nat :=
  if c.fn = 0 then
    if 0x10 ≤ c.op ∧ c.op ≤ 0x15 then none else if s.notReady c then some 3 else some 1
  else if c.op = 5 then if c.bits 1 0 2 = 3 then some (if s.notReady c then 3 else 2) else none
  else if 1 ≤ c.op ∧ c.op ≤ 8 then none
  else if 0x10 ≤ c.op ∧ c.op ≤ 0x15 then some (if (s.part (c.fn - 1)).isSome && s.notReady c then 3 else 6)
  else if s.notReady c then some 3
  else some 1

/-! ### Boot (R379, R380) -/

/-- The number that n bytes give, little-endian. -/
def leBytes (l : List Byte) (off n : Nat) : Nat := ((l.drop off).take n).foldr (fun b acc => b.toNat + 256 * acc) 0

/-- A configuration table has the layout of R380 and a version not below the last taken. -/
def tableFormed (l : List Byte) (last : Nat) : Bool :=
  let width := leBytes l 8 1
  let roles := ((l.drop 16).take 64).map fun b => b.toNat
  decide (216 ≤ l.length) && leBytes l 0 4 == 0x4B434654 && decide (last ≤ leBytes l 4 2) &&
  leBytes l 9 7 == 0 && decide (1 ≤ width) && decide (width ≤ 4) && roles.all (fun r => decide (r ≤ 4)) &&
  (roles.filter fun r => r == 1).length == 1 && (roles.filter fun r => r == 3).length == 1 &&
  (roles.drop (16 * width)).all (fun r => r == 0) && leBytes l 88 8 % 2 ^ 30 == 0 && leBytes l 96 8 % 2 ^ 30 == 0 &&
  leBytes l 96 8 != 0 &&
  leBytes l 104 8 % 2 == 1 && leBytes l 104 8 / 64 == 0 && leBytes l 112 8 == 0

/-- The number that n bytes give, big-endian. -/
def beBytes (l : List Byte) (off n : Nat) : Nat := ((l.drop off).take n).foldl (fun acc b => 256 * acc + b.toNat) 0

/-- The signature of a table verifies (R379, R380): it covers every byte before it. -/
def slotVerifies (l : List Byte) : Bool :=
  ecdsaVerifies Config.bootKey (sha384 (l.take 120)) (beBytes l 120 48) (beBytes l 168 48)

/-- A slot that is taken gives the firmware column. -/
def Firmware.takeSlot (f : Firmware) (l : List Byte) (boot : Nat) : Firmware :=
  { f with
    boot := boot
    version := leBytes l 4 2
    width := leBytes l 8 1
    roles := ((l.drop 16).take 64).map fun b => b.toNat
    imgbase := leBytes l 80 8
    rsvbase := leBytes l 88 8
    rsvsize := leBytes l 96 8
    foffer := BitVec.ofNat 64 (leBytes l 104 8) }

/-- The boot: slot A, else slot B, else recovery. -/
def Firmware.bootFrom (f : Firmware) : Firmware :=
  if tableFormed f.flashA f.version && slotVerifies f.flashA then f.takeSlot f.flashA 1
  else if tableFormed f.flashB f.version && slotVerifies f.flashB then f.takeSlot f.flashB 2
  else { f with boot := 3 }

/-- MODULE_RESET (R379): everything at its reset value but flash, the checkpoint reserve, the tiers and host memory, and what stands
outside the module: its links, its place in the pod, the hosts' links, and the inputs still to come; hearth 0 boots. -/
def execModuleReset (s : State) : Out :=
  .next { State.reset with
    agenda := s.agenda
    errors := s.errors
    hbm := s.hbm
    far := s.far
    host := s.host
    down := s.down
    modId := s.modId
    master := s.master
    dims := s.dims
    pods := s.pods.over fun _ b => { members := b.members }
    fw := Firmware.bootFrom { hostLinks := s.fw.hostLinks, flashA := s.fw.flashA, flashB := s.fw.flashB, version := s.fw.version, slots := s.fw.slots } }

/-! ### The command loop -/

/-- Commands at the head that no row takes complete at once; RESET of the physical function in recovery restarts the boot. -/
def skipUnowned : Nat → State → Nat → State
  | 0, s, _ => s
  | n + 1, s, fn =>
    match s.head fn with
    | none => s
    | some c =>
      if fn = 0 ∧ s.fw.boot = 3 ∧ c.op = 8 then
        skipUnowned n
          (if c.clean 0 [] then ((s.accept c).modFw Firmware.bootFrom).hostResult fn c.w 0 0 else (s.accept c).hostResult fn c.w 2 0) fn
      else
        match s.unowned c with
        | some st => skipUnowned n ((s.accept c).hostResult fn c.w st 0) fn
        | none => s

/-- What a command's effect leaves: the state, and its status and detail, or none while it goes on. -/
abbrev Effect := State × Option (Nat × Nat)

/-- BADARG, with no effect. -/
def badArg (s : State) : Effect := (s, some (2, 0))
/-- FAIL with a detail. -/
def failed (s : State) (detail : Nat) : Effect := (s, some (4, detail))
/-- OK with a detail. -/
def okay (s : State) (detail : Nat) : Effect := (s, some (0, detail))

/-- A command row: the function's next command, when the row takes it (R373, R375, R376). RESULT follows the effects. -/
def State.command (s : State) (fn : Nat) (want : Cmd → Bool) (k : Cmd → State → Effect) : Out :=
  let s := s.pageLost fn
  match s.head fn with
  | none => .next s
  | some c =>
    if !want c then .next s
    else
      let s := s.accept c
      let r : Effect := if s.notReady c then (s, some (3, 0)) else k c s
      let s := match r.2 with
        | some (st, detail) => r.1.hostResult fn c.w st detail
        | none => r.1
      .next (skipUnowned 64 s fn)

/-- A command of a partition. -/
def State.partCommand (s : State) (part : Nat) (want : Cmd → Bool) (k : Cmd → Partition → State → Effect) : Out :=
  s.command (part + 1) want fun c s =>
    match s.part part with
    | some p => k c p s
    | none => (s, some (3, 0))

/-! ### Function registers (R368, R369, R371, R373) -/

/-- RUN := 1. -/
def State.runOn (s : State) (vf : Nat) : State := s.modFn vf fun v => { v with run := true }
/-- RUN := 0: the processor reads no further command. -/
def State.runOff (s : State) (vf : Nat) : State := s.modFn vf fun v => { v with run := false, pidx := v.cidx }

/-- A function has registers: in recovery only the physical function enumerates (R379). -/
def State.enumerates (s : State) (vf : Nat) : Bool := decide (vf ≤ 128) && (vf == 0 || s.fw.boot != 3)

/-- RUN_START (R368, R370). -/
def execRunStart (host vf : Nat) (s : State) : Out :=
  let s := s.attach host
  .next (if s.controls host && s.enumerates vf then s.runOn vf else s)

/-- RUN_STOP (R368, R370). -/
def execRunStop (host vf : Nat) (s : State) : Out :=
  let s := s.attach host
  .next (if s.controls host && s.enumerates vf then s.runOff vf else s)

/-- A NOTIFY write with P (R373): P out of range, or more than 63 ahead, sets OVR; another is acted on while the processor runs. -/
def State.notified (s : State) (vf P : Nat) : State :=
  let v := s.fw.fn vf
  if 64512 ≤ P ∨ 63 < (P + 64512 - v.cidx) % 64512 then
    s.modFn vf fun v => { v with ovr := true, run := false, pidx := v.cidx }
  else if !v.run then s
  else skipUnowned 64 ((s.modFn vf fun v => { v with pidx := P }).pageLost vf) vf

/-- NOTIFY (R373); the physical function's only by the controlling host (R369). -/
def execNotify (host vf : Nat) (p : BitVec 16) (s : State) : Out :=
  let s := s.attach host
  .next (if s.enumerates vf = false ∨ (vf = 0 ∧ s.controls host = false) then s else s.notified vf p.toNat)

/-- FLOCK := 1 (R371): the feature word is locked until the partition's next reset. -/
def State.lockFeatures (s : State) (part : Nat) : State := s.modPart part fun p => { p with flock := true }

/-- FLOCK (R370, R371). -/
def execFlock (host vf : Nat) (s : State) : Out :=
  let s := s.attach host
  .next (if s.controls host && vf != 0 && s.enumerates vf then s.lockFeatures (vf - 1) else s)

/-- A write of FACC0 (R371): taken ANDed with the offer; bit 0 is accepted whatever it holds. -/
def State.writeFacc (s : State) (part : Nat) (v : Word) : State :=
  s.modPart part fun p => if p.flock then p else { p with facc := v &&& s.fw.foffer }

/-- REGISTER_WRITE (R368, R369): a write to a register of a function's block; RO fields ignore it. -/
def execRegisterWrite (host vf off : Nat) (v : Word) (s : State) : Out :=
  let s := s.attach host
  let own := s.controls host
  if s.enumerates vf = false then .next s
  else if vf = 0 ∧ off = 0x808 then execClaim host s
  else if vf = 0 ∧ own = false then .next s
  else match off with
    | 0x000 => .next (s.modFn vf fun x => if x.run then x else { x with vcpaddr := v &&& 0xFFFFFFFFFFFFF000#64 })
    | 0x008 => .next (s.notified vf (bits v 0 16))
    | 0x010 =>
      let s := s.modFn vf fun x => { x with ovr := x.ovr && bits v 62 1 == 0, pgerr := x.pgerr && bits v 61 1 == 0 }
      .next (if !own then s else if bits v 63 1 = 1 then s.runOn vf else s.runOff vf)
    | 0x030 => .next (if own && vf != 0 then s.writeFacc (vf - 1) v else s)
    | 0x040 => .next (if own && vf != 0 && bits v 0 1 == 1 then s.lockFeatures (vf - 1) else s)
    | 0x810 => if vf = 0 then execHandover host (bits v 0 16) s else .next s
    | 0x818 => .next (if vf = 0 then s.modFw fun f => { f with hdmerr := f.hdmerr && bits v 2 1 == 0 } else s)
    | _ => .next s

/-- What host `host` reads from a register of a function's block (R368, R369): the physical function carries no partition; a write-only
register reads as reserved bits do (R5). None: the function does not enumerate. -/
def State.hostRegister (s : State) (host vf off : Nat) : Option Word :=
  if s.enumerates vf = false then none
  else
    let v := s.fw.fn vf
    let p := if vf = 0 then none else s.part (vf - 1)
    let stat := fun (p : Partition) =>
      BitVec.ofNat 64 (p.svc * 2 ^ 34 + bit p.sec * 2 ^ 33 + p.clusters.length * 2 ^ 8 + (vf - 1))
    some (match off with
      | 0x000 => v.vcpaddr
      | 0x010 => BitVec.ofNat 64 (bit v.run * 2 ^ 63 + bit v.ovr * 2 ^ 62 + bit v.pgerr * 2 ^ 61 + v.cidx)
      | 0x018 => (p.map stat).getD 0
      | 0x020 => if p.isSome then s.fw.foffer ||| 1 else 0
      | 0x030 => (p.map Partition.facc).getD 0
      | 0x040 => BitVec.ofNat 64 (bit ((p.map Partition.flock).getD false))
      | 0x800 =>
        if vf ≠ 0 then 0
        else match s.fw.ctl with
          | some h => BitVec.ofNat 64 (2 ^ 63 + bit (h == host) * 2 ^ 62 + h % 2 ^ 16)
          | none => 0
      | 0x818 => if vf ≠ 0 then 0 else BitVec.ofNat 64 (s.fw.boot * 16 + bit s.fw.hdmerr * 4 + bit s.fw.therm * 2)
      | 0x820 => if vf ≠ 0 then 0 else BitVec.ofNat 64 (s.modId % 2 ^ 12)
      | _ => 0)

/-! ### The HDM range (R366, R367, R384) -/

/-- Entries of a page table and its subtables: the leaves of a partition, with the address each maps. -/
def State.leavesFrom (s : State) (part : Nat) : Nat → Nat → Nat → Nat → List (Nat × Leaf)
  | 0, _, _, _ => []
  | n + 1, l, table, va =>
    let (lo, len, size, page) := levelOf l
    if hbmSize < table + size then []
    else (numsFrom 0 (2 ^ len)).flatMap fun k =>
      let e : Pte := ⟨s.hbm.read (table + 16 * k) 8, s.hbm.read (table + 16 * k + 8) 8⟩
      let va := va + k * 2 ^ lo
      if !bitAt e.lo 63 || s.malformed part l e then []
      else if bitAt e.lo 62 then [(va, e.toLeaf page)]
      else s.leavesFrom part n (l + 1) e.addr va

/-- The leaves that map HBM for a partition. -/
def State.hbmLeaves (s : State) (part : Nat) : List Leaf :=
  match s.part part with
  | some p => ((s.leavesFrom part 5 0 p.root 0).map Prod.snd).filter fun l => l.tier == 0 && l.part == part
  | none => []

/-- An HBM address lies in a page that is marked secure, or in a page of a secure partition. -/
def State.secureAt (s : State) (a : Nat) : Bool :=
  s.parts.any fun p => (s.hbmLeaves p.1).any fun l => decide (l.pa ≤ a) && decide (a < l.pa + l.size) && (l.sec || p.2.sec)

/-- HDM_ACCESS (R366): a read of n bytes, or a write of the given bytes, at a host physical address of the range. A byte of a granule that
is not exported to the host, or of a secure page (R384), is read poisoned and not written. -/
def execHdmAccess (host addr n : Nat) (data : Option (List Byte)) (s : State) : Out :=
  let s := s.attach host
  let a := addr - s.fw.hdmbase
  let n := match data with
    | some l => l.length
    | none => n
  if addr < s.fw.hdmbase ∨ hbmSize < a + n then .next s
  else
    let open_ := fun (i : Nat) => s.fw.exports.contains ((a + i) / 2 ^ 21, host) && !s.secureAt (a + i)
    let s' := if (numsFrom 0 n).all open_ then s else s.modFw fun f => { f with hdmerr := true }
    match data with
    | some l =>
      let bytes := (numsFrom 0 n).map fun i => if open_ i then l.getD i 0 else s.hbm.byte (a + i)
      .next (if (numsFrom 0 n).any open_ then s'.writeLoc ⟨.phys 0, a⟩ n (leBytes bytes 0 n) else s')
    | none =>
      .next (s'.modFw fun f => { f with hdmRead := some ((numsFrom 0 n).map fun i => if open_ i then some (s.hbm.byte (a + i)) else none) })

/-- HOST_SNOOP (R367): the home's L1 gives up the line; the byte has one value in the model, so nothing else changes. -/
def execHostSnoop (host addr : Nat) (s : State) : Out :=
  let s := s.attach host
  .next { s with cores := s.cores.over fun _ c => { c with l1 := c.l1.filter fun x => x.tier != 2 || x.pa != addr / 64 * 64 } }

/-! ### Addresses of host commands (R377) -/

/-- Where a host command's address goes: a place, or `none` where it is refused as an argument, or the reason of R111. -/
def State.hostTarget (s : State) (part : Nat) (p : Partition) (va : Word) (k : AccessKind) : Except (Option Nat) (Place × Loc) :=
  match s.window part p.svc va with
  | some (.global a) =>
    match s.translateNow 0 part p.sec k a with
    | .error r => .error (some r)
    | .ok e =>
      let l : Loc := ⟨.phys e.leaf.tier, e.leaf.pa + (a - e.base)⟩
      .ok (.home (if e.leaf.cls = 0 then e.leaf.home else p.svc), l)
  | some (.pantry h off) => if va.toNat / 2 ^ 56 = 0xC3 then .ok (.pantry h, ⟨.share part h, off⟩) else .error none
  | _ => .error none

/-- The page, by its first address and size, of a host command's address at a home. -/
def State.hostPage (s : State) (part : Nat) (p : Partition) (va : Word) (k : AccessKind) : Nat × Nat :=
  match s.window part p.svc va with
  | some (.global a) => match s.translateNow 0 part p.sec k a with
    | .ok e => (e.base, e.leaf.size)
    | .error _ => (0, 0)
  | _ => (0, 0)

/-- The firmware column as a source of parcels of a partition (R116). -/
def firmwareSrc (part : Nat) : Nat := 2 ^ 19 + part

/-- The firmware column sends a parcel. -/
def State.firmwareSend (s : State) (part : Nat) (place : Place) (loc : Loc) (acc : Access) (va : Word) (page : Nat × Nat := (0, 0)) :
    State :=
  { s.nextUid with parcels := s.parcels ++
      [{ src := firmwareSrc part, seq := s.uid, part := part, place := place, loc := loc, acc := acc, ctr := 3, va := va, page := page,
         firstAt := s.time, lastAt := s.time }] }

/-! ### LAUNCH, APPLY, SETSTARTER (R377, R258, R345) -/

/-- Slots of a core that the proofer may write, ascending. -/
def State.popSlots (s : State) (core : Nat) : List Nat :=
  ((numsFrom 0 15).filter fun k => (s.core core).names k && (s.thread (16 * core + k)).isNone &&
    !s.granted (16 * core + k) && !s.reserved (16 * core + k)).map fun k => 16 * core + k

/-- The thread of a population (R257). -/
def popThread (pc : Word) (part owner : Nat) (sec : Bool) (starter : Word) (seeds : List Nat) (r : PopRef) : Thread :=
  let t : Thread := { pc := pc, part := part, owner := owner, sec := sec, fp := { starter := starter }, pop := some r }
  t.wrs ((numsFrom 1 8).zip (seeds.map fun v => BitVec.ofNat 64 v))

/-- LAUNCH of a partition: all or nothing. The proofer writes one slot of a core every 4 cc, so its threads are ready one after another
(R258). DESIGN CHOICE (log 97): a core that is lost and has its slots free fails the command. -/
def State.launch (s : State) (part : Nat) (p : Partition) (c : Cmd) : Effect :=
  let first := c.bits 2 0 14
  let last := c.bits 2 16 14
  let quota := c.bits 2 32 4
  let owner := c.bits 2 40 8
  let join := BitVec.ofNat 64 (c.arg 3)
  let joinOk := c.arg 3 == 0 || (c.arg 3 % 8 == 0 && match s.hostTarget part p join .store with
    | .ok _ => true
    | .error _ => false)
  if !c.clean 0 [allBits, 0xFF0F3FFF3FFF, allBits, allBits, 0, 0] || quota == 0 || decide (last < first) ||
      decide (p.coreList.length ≤ last) || !joinOk then badArg s
  else
    let cores := (p.coreList.drop first).take (last + 1 - first)
    if cores.any fun k => decide ((s.popSlots k).length < quota) || !s.canMeter k owner || (s.core k).lost then failed s 0
    else
      let slots := cores.flatMap fun k => (s.popSlots k).take quota
      let later := cores.flatMap fun _ => (numsFrom 0 quota).map fun k => 4 * k
      let seeds := if c.arg 4 = 0 then [] else (numsFrom 0 8).map fun k => s.host.read (c.arg 4 + 8 * k) 8
      let s := (slots.zip ((numsFrom 0 slots.length).zip later)).foldl (fun s x =>
        (s.place x.1 (popThread (BitVec.ofNat 64 (c.arg 1)) part owner p.sec p.starter seeds ⟨x.2.1, slots.length, join⟩)).modThread x.1
          fun t => { t with readyAt := s.cc + x.2.2 + 1 }) s
      let r := s.owner owner
      let s := match slots with
        | tid :: _ => if r.sv then s else s.setOwner owner { r with sv := true, stid := tid }
        | [] => s
      okay s slots.length

/-- LAUNCH. -/
def execLaunch (part : Nat) (s : State) : Out :=
  s.partCommand part (fun c => c.op == 1) fun c p s => s.launch part p c

/-- APPLY: a request to the nest placer on behalf of the host. -/
def execApplyCommand (part : Nat) (s : State) : Out :=
  s.partCommand part (fun c => c.op == 2) fun c p s =>
    if !c.clean 1 [0xFFF, 0xFF, 0, 0, 0, 0] then badArg s
    else
      let q : ApplyReq :=
        { tid := none, host := some c.w, waitDone := c.flag 8, entry := c.bits 1 0 12, owner := c.bits 2 0 8, sec := p.sec,
          start := 0, starter := p.starter }
      (s.setPart part { p with applies := p.applies ++ [q] }, none)

/-- SETSTARTER. -/
def execSetstarter (part : Nat) (s : State) : Out :=
  s.partCommand part (fun c => c.op == 3) fun c p s =>
    if !c.clean 0 [allBits, 0, 0, 0, 0, 0] then badArg s
    else okay (s.setPart part { p with starter := BitVec.ofNat 64 (c.arg 1) }) 0

/-! ### COPY (R377) -/

/-- A byte address of a COPY: host memory, or the partition's. -/
def State.copyEnd (s : State) (part : Nat) (p : Partition) (host : Bool) (a : Word) (k : AccessKind) : Except (Option Nat) Loc :=
  if host then .ok ⟨.phys 2, a.toNat⟩
  else match s.hostTarget part p a k with
    | .ok r => .ok r.2
    | .error e => .error e

/-- Bytes are written whole: waiters look at them once all of them stand there (R133). -/
def State.landBytes (s : State) (l : Loc) (v : List Nat) : State :=
  let s' := ((numsFrom 0 v.length).zip v).foldl (fun (s : State) q => s.writeLoc ⟨l.space, l.off + q.1⟩ 1 q.2) { s with waiters := [] }
  ({ s' with waiters := s.waiters } : State).fire l v.length

/-- The copy engine moves what is left of a 64-byte line, which it reads in one turn and writes whole in a later one (R133, R136); the
command ends at its last byte or at a failure. -/
def State.copyStep (s : State) (p : Partition) (x : HostCopy) : State :=
  let src := x.src + BitVec.ofNat 64 x.moved
  let dst := x.dst + BitVec.ofNat 64 x.moved
  let n := min (x.len - x.moved) (min (64 - src.toNat % 64) (64 - dst.toNat % 64))
  let fin := fun (s : State) (st detail : Nat) =>
    (s.modFw fun f => { f with copies := f.copies.erase x }).hostResult (x.part + 1) x.w st detail
  match s.copyEnd x.part p x.srcHost src .load, s.copyEnd x.part p x.dstHost dst .store with
  | .ok a, .ok b =>
    match x.flight with
    | none =>
      let v := (numsFrom 0 n).map fun i => s.readLoc ⟨a.space, a.off + i⟩ 1
      s.modFw fun f => { f with copies := f.copies.replace x { x with flight := some v } }
    | some v =>
      let s := s.landBytes b v
      let y := { x with moved := x.moved + n, flight := none }
      if x.len ≤ y.moved then fin s 0 0 else s.modFw fun f => { f with copies := f.copies.replace x y }
  | .error (some r), _ => fin s 4 r
  | _, .error (some r) => fin s 4 r
  | _, _ => fin s 2 0

/-- COPY: the partition's first copy in progress goes on, and a command at the head is accepted (R376). -/
def execCopy (part : Nat) (s : State) : Out :=
  let s := match s.fw.copies.find? fun x => x.part == part, s.part part with
    | some x, some p => s.copyStep p x
    | _, _ => s
  s.partCommand part (fun c => c.op == 4) fun c _ s =>
    if !c.clean 3 [allBits, allBits, 0xFFFFFFFF, 0, 0, 0] || c.arg 3 % 4 != 0 || c.arg 3 == 0 then badArg s
    else
      let x : HostCopy :=
        { part := part, w := c.w, src := BitVec.ofNat 64 (c.arg 1), dst := BitVec.ofNat 64 (c.arg 2), len := c.arg 3,
          srcHost := c.flag 8, dstHost := c.flag 9 }
      (s.modFw fun f => { f with copies := f.copies ++ [x] }, none)

/-! ### SIGNAL and WAKE (R377, R378) -/

/-- SIGNAL kind 0: a wake of a thread (R294). -/
def execSignalWake (part : Nat) (s : State) : Out :=
  s.partCommand part (fun c => c.op == 5 && c.bits 1 0 2 == 0) fun c p s =>
    let tid := c.arg 2
    if !c.clean 0 [3, 0x3FFFF, 0, 0, 0, 0] || !p.hasCore (coreOf tid) then badArg s
    else okay (s.firmwareSend part (.lm (coreOf tid)) ⟨.lm (coreOf tid), 0⟩ (.wake tid) 0) 0

/-- SIGNAL kind 1: an arrival at a core barrier. -/
def execSignalArrival (part : Nat) (s : State) : Out :=
  s.partCommand part (fun c => c.op == 5 && c.bits 1 0 2 == 1) fun c p s =>
    match p.coreList[c.arg 3]?, c.clean 0 [3, 0x3F, 0x3FFF, 0, 0, 0] && c.arg 2 != 63 with
    | some core, true => okay (s.firmwareSend part (.lm core) ⟨.lm core, 0⟩ (.arrive core (c.arg 2)) 0) 0
    | _, _ => badArg s

/-- An access of the firmware for a partition is still to be performed. -/
def State.firmwareBusy (s : State) (part : Nat) : Bool := s.parcels.any fun q => q.src == firmwareSrc part && !q.performed

/-- SIGNAL kind 2: a store of a doubleword as `st.d.wa`: it starts once the firmware's earlier accesses for the partition are
performed. -/
def execSignalStore (part : Nat) (s : State) : Out :=
  s.partCommand part (fun c => c.op == 5 && c.bits 1 0 2 == 2 && !s.firmwareBusy part) fun c p s =>
    let va := BitVec.ofNat 64 (c.arg 2)
    if !c.clean 0 [3, allBits, allBits, 0, 0, 0] || c.arg 2 % 8 != 0 then badArg s
    else match s.hostTarget part p va .store with
      | .ok (place, l) => okay (s.firmwareSend part place l (.store 8 (c.arg 3)) va (s.hostPage part p va .store)) 0
      | .error (some r) => failed s r
      | .error none => badArg s

/-- WAKE (R378): arms a host wake; BADOP without feature HWAKE. -/
def execWakeCommand (part : Nat) (s : State) : Out :=
  s.partCommand part (fun c => c.op == 6) fun c p s =>
    let va := BitVec.ofNat 64 (c.arg 1)
    if bits p.facc 4 1 = 0 then (s, some (1, 0))
    else if !c.clean 0 [allBits, allBits, 7, 0, 0, 0] || c.arg 1 % 8 != 0 then badArg s
    else match wcondOf? (c.arg 3), s.hostTarget part p va .load with
      | none, _ => badArg s
      | _, .error none => badArg s
      | _, .error (some r) => failed s r
      | some cond, .ok (place, l) =>
        match lowestFree (p.wakes.map Prod.fst) 0 16 with
        | none => (s, some (5, 0))
        | some k =>
          ((s.setPart part { p with wakes := p.wakes.put k c.w }).register
            { who := .host part k, part := part, place := place, loc := l, cond := cond, operand := BitVec.ofNat 64 (c.arg 2) }, none)

/-- HOST_WAKE_COMPLETE (R378): the condition has held; a registration refused for want of an entry is sent again. -/
def execHostWakeComplete (part k : Nat) (s : State) : Out :=
  let mine := fun (w : Waiter) => w.who == .host part k
  match s.waiters.find? mine, (s.part part).bind fun p => p.wakes.look k with
  | some w, some h =>
    let rest : State := { s with waiters := s.waiters.filter fun x => !mine x }
    if w.refused then .next (if w.sentAt + 1000 ≤ s.time then rest.register { w with refused := false, sentAt := s.time } else s)
    else match w.fired with
      | some v => .next ((rest.modPart part fun p => { p with wakes := p.wakes.drop k }).hostResult (part + 1) h 0 (bits v 0 16))
      | none => .next s
  | _, _ => .next s

/-! ### RESET (R311, R377) -/

/-- Doublewords 1 to 3 of the command page, at partition start (R372). -/
def State.writeShadow (s : State) (part : Nat) : State :=
  match s.part part with
  | none => s
  | some p =>
    let page := (s.fw.fn (part + 1)).vcpaddr.toNat
    if page = 0 ∨ s.hostLost = true then s
    else (numsFrom 0 3).foldl (fun (s : State) k =>
      s.writeLoc ⟨.phys 2, page + 8 + 8 * k⟩ 8 (Config.shadowWord part p.svc p.sec p.clusters.length k).toNat) s

/-- A reset at monitor privilege and the restart of the kernel: the state and the threads ended. -/
def State.fullReset (s : State) (part : Nat) : State × Nat :=
  let r := s.resetPart part true
  ((r.1.startKernel part).writeShadow part, r.2.2)

/-- A row that resets a partition at monitor privilege comes after the requests to units that are on their way (R311 step 2). -/
def State.afterOps (s : State) (part : Nat) (row : Fin 3) (k : State → Out) : Out :=
  let ended := fun (x : Nat) => match s.thread x with
    | some t => t.part == part
    | none => false
  match s.carryOps part ended (.again part row) with
  | some s => .next s
  | none => k s

/-- RESET. -/
def execReset (part : Nat) (s : State) : Out :=
  s.afterOps part 0 fun s => s.partCommand part (fun c => c.op == 8) fun c _ s =>
    if !c.clean 0 [] then badArg s
    else
      let r := s.fullReset part
      okay r.1 r.2

/-- FUNCTION_LEVEL_RESET (spec/18, before R386): the function's command processor stops, then as RESET. -/
def execFunctionLevelReset (part : Nat) (s : State) : Out :=
  s.afterOps part 1 fun s => .next ((s.runOff (part + 1)).fullReset part).1

/-! ### Partitions (R381, R382, R413) -/

/-- The clusters of a mask of 128 bytes in host memory. -/
def State.maskClusters (s : State) (pa : Nat) : List Nat :=
  (numsFrom 0 1024).filter fun k => (s.host.byte (pa + k / 8)).toNat.testBit (k % 8)

/-- Clusters free for a partition: neither the column's nor another partition's. -/
def State.clustersFree (s : State) (part : Nat) (l : List Nat) : Bool :=
  l.all fun k => decide (s.fw.width ≤ k) && s.parts.all fun q => q.1 == part || !q.2.clusters.contains k

/-- The share table at a host physical address, in MiB by hearth. -/
def State.shareTable (s : State) (pa : Nat) : List Nat := (numsFrom 0 16).map fun h => s.host.read (pa + 8 * h) 8

/-- Bytes of a hearth's pantry that the firmware column holds. -/
def columnHolds (h : Nat) : Nat := if h = 0 then Config.columnPantry else 0

/-- The rules of a share table (R382). -/
def State.sharesOk (s : State) (part : Nat) (clusters : List Nat) (t : List Nat) : Bool :=
  let placing := (clusters.headD 0) / 64
  decide (4 ≤ t.getD placing 0) &&
  (numsFrom 0 16).all fun h =>
    let v : Nat := t.getD h 0
    let others : Nat := s.parts.foldl (fun (n : Nat) (q : Nat × Partition) => if q.1 = part then n else n + (q.2.shares.look h).getD 0) 0
    v == 0 || (clusters.any (fun k => k / 64 == h) &&
      decide (v * 2 ^ 20 + others + columnHolds h ≤ 2 ^ 26))

/-- Share sizes in bytes by hearth. -/
def sharesOf (t : List Nat) : Map Nat := ((numsFrom 0 16).zip t).filterMap fun x => if x.2 = 0 then none else some (x.1, x.2 * 2 ^ 20)

/-- Cores that join a partition run the reset couche (R385). -/
def State.freshCores (s : State) (clusters : List Nat) : State :=
  (clusters.flatMap fun k => numsFrom (16 * k) 16).foldl (fun s c => s.modCore c fun k => { k with couche := resetCouche, staged := none }) s

/-- The partition that PCREATE builds, with queues 0 and 1 (R254). -/
def newPartition (sec : Bool) (clusters : List Nat) (kernel : Word) (root : Nat) (shares : Map Nat) : Partition :=
  let q : Queue := { live := true, depth := 256 }
  { sec := sec, clusters := clusters, svc := 16 * clusters.headD 0 + 15, root := root, kernel := kernel, shares := shares,
    queues := [(0, q), (1, q)] }

/-- The partition starts: its control block (R299), shadow copy and kernel. -/
def State.startPartition (s : State) (part : Nat) (p : Partition) : State :=
  let s := (s.setPart part p).freshCores p.clusters
  let s := s.pipeWrite part 0x144000 [queueHandle p.placing 0, queueHandle p.placing 1]
  (s.startKernel part).writeShadow part

/-- PCREATE (R381, R382, R413). -/
def execPcreate (s : State) : Out :=
  s.command 0 (fun c => c.op == 0x10) fun c s =>
    let part := c.arg 1
    let clusters := s.maskClusters (c.arg 2)
    let t := s.shareTable (c.arg 6)
    if !c.clean 0 [0x7F, allBits, 1, allBits, allBits, allBits] || (s.part part).isSome || clusters.isEmpty ||
        !s.clustersFree part clusters || !s.sharesOk part clusters t then badArg s
    else okay (s.startPartition part
      (newPartition (c.bits 3 0 1 == 1) clusters (BitVec.ofNat 64 (c.arg 4)) (c.arg 5) (sharesOf t))) 0

/-- PDESTROY (R381): the reset, then the clusters are free. -/
def execPdestroy (s : State) : Out :=
  let part := match s.head 0 with
    | some c => if c.op = 0x12 then c.arg 1 else 128
    | none => 128
  s.afterOps part 2 fun s => s.command 0 (fun c => c.op == 0x12) fun c s =>
    let part := c.arg 1
    if !c.clean 0 [0x7F, 0, 0, 0, 0, 0] || (s.part part).isNone then badArg s
    else
      let r := s.resetPart part true
      okay { r.1 with parts := r.1.parts.drop part } r.2.2

/-- An OWNER command is on its way to the arbiter, or answered (R360). -/
def UcfgWho.isHost : UcfgWho → Bool
  | .host _ => true
  | .thread _ _ => false

/-- OWNER (R381): as `ucfg.own`. One on its way ends once every core has applied the change; the code of a refusal is the detail of a
FAIL. A command at the head is accepted (R376). -/
def execOwner (s : State) : Out :=
  let s := match s.arb.relay.find? fun r => r.1.isHost with
    | some (.host w, n, code) =>
      if s.appliedTo n then
        (s.modArb fun a => { a with relay := a.relay.erase (.host w, n, code) }).hostResult 0 w (if code = 0 then 0 else 4) code
      else s
    | _ => s
  s.command 0 (fun c => c.op == 0x13) fun c s =>
    if !c.clean 0 [0xFF, allBits, 0, 0, 0, 0] then badArg s
    else
      let d := (numsFrom 0 8).map fun k => BitVec.ofNat 64 (s.host.read (c.arg 2 + 8 * k) 8)
      (s.modArb fun a => { a with ucfg := a.ucfg ++ [⟨.host c.w, .own (c.arg 1) d⟩] }, none)

/-! ### PRESIZE (R385) -/

/-- Remaining cores that take a light thread, the lowest ready count first. -/
def State.resizeTarget (s : State) (p : Partition) (r : Resize) (t : Thread) : Option Nat :=
  let l := (p.coreList.filter fun c => r.clusters.contains (clusterOf c) && !(s.core c).lost && !(s.core c).frozen &&
    (s.freeSlotOn c).isSome && (t.priv != 0 || s.canMeter c t.owner))
  l.foldl (fun (acc : Option Nat) c => match acc with
    | some b => if s.readyCount c < s.readyCount b then some c else some b
    | none => some c) none

/-- A light thread moves to a remaining core as a migration would (R120, R279). -/
def State.resizeMove (s : State) (tid : Nat) (t : Thread) (g : Nat) : State :=
  let s := if s.isSteward tid t then s.setOwner t.owner { s.owner t.owner with stid := g } else s
  ((s.moveApplier t.part tid g).freeSlot tid).place g { t with block := .none, mstat := 0, walkRes := none, noMig := false }

/-- A thread is saved into the context area; none when its image would reach below the area. -/
def State.resizeSave (s : State) (p : Partition) (r : Resize) (tid : Nat) : Option (State × Resize) :=
  let x := s.saveThread tid
  let size := 8 * x.2.length
  let at_ := (r.low - size) / 1024 * 1024
  if r.low < size ∨ at_ < 0x200000 + p.pantryImage then none
  else some (x.1.pipeWrite r.part at_ x.2, { r with images := r.images + 1, low := at_ })

/-- A thread of a removed core leaves rotation, as `csave` asks it to. -/
def State.leaveRotation (s : State) (tid : Nat) (t : Thread) : State :=
  (s.dropWait tid t).modThread tid fun t => { t with block := .saving, walkRes := none, noMig := false }

/-- One thread of a removed core: it leaves rotation, and once it is quiet it moves or is saved. None: the area is full. -/
def State.resizeThread (s : State) (p : Partition) (r : Resize) (tid : Nat) (t : Thread) : Option (State × Resize) :=
  match t.block with
  | .parked _ | .faultWait _ _ _ _ _ | .halted => some (s, r)
  | .saving =>
    if !s.drained tid t then some (s, r)
    else
      match s.resizeTarget p r t, s.heavy tid || slotOf tid == 15 with
      | some c, false => if s.xbusy tid then some (s, r) else some (s.resizeMove tid t (16 * c + (s.freeSlotOn c).getD 0), r)
      | _, _ =>
        let s := s.stopWork tid
        if s.noWork tid then s.resizeSave p r tid else some (s, r)
  | _ => if t.stop ≠ Stop.none ∨ slotOf tid = 15 then some (s, r) else some (if s.quiet tid then s.leaveRotation tid t else s, r)

/-- The service core is told of the images by an active message to its slot 15. DESIGN CHOICE: its handler, which is to issue `crest`,
runs at service privilege (log 83). -/
def State.tellImages (s : State) (p : Partition) (r : Resize) : State :=
  if r.images = 0 then s
  else
    let h : HandlerParcel :=
      { handler := Config.resizeHandler s.fresh, args := [BitVec.ofNat 64 r.images, BitVec.ofNat 64 (0xC2 * 2 ^ 56 + r.low)],
        sender := Config.resizeHandler (s.fresh + 1), starter := 0, owner := 0, part := r.part, sec := p.sec, priv := 1 }
    { s with fresh := s.fresh + 2 }.firmwareSend r.part (.lm p.svc) ⟨.lm p.svc, 0⟩ (.handler p.svc h) 0

/-- A form that `csave` awaits holds the thread out of rotation. -/
def State.savedBy (s : State) (tid : Nat) : Bool := s.threads.any fun q => match q.2.block with
  | .await (.quiet x) _ => x == tid
  | _ => false

/-- Threads that a PRESIZE took out of rotation, and that nothing else saves, return to it. -/
def State.rejoin (s : State) (cores : List Nat) : State :=
  (cores.flatMap fun c => (s.onCore c).map Prod.fst).foldl (fun s tid =>
    if s.savedBy tid then s
    else s.modThread tid fun t => if t.block = .saving then { t with block := .none, readyAt := s.cc + 1 } else t) s

/-- The cores that a PRESIZE removes: those of clusters that neither it nor a later one of the partition keeps. -/
def State.resizeGone (s : State) (p : Partition) (r : Resize) : List Nat :=
  (p.clusters.filter fun k => (s.fw.resizes.filter fun x => x.part == r.part).all fun x => !x.clusters.contains k).flatMap
    fun k => numsFrom (16 * k) 16

/-- The end of a PRESIZE: done, or BUSY with the work already moved left moved; the threads still there return to rotation. A later
PRESIZE of the partition keeps the clusters that it names. -/
def State.endResize (s : State) (p : Partition) (r : Resize) (ok : Bool) : State :=
  let cores := s.resizeGone p r
  let s := (s.modFw fun f => { f with resizes := f.resizes.erase r }).tellImages p r
  if !ok then (s.rejoin cores).hostResult 0 r.w 5 0
  else
    let s := (p.shares.map Prod.fst).foldl (fun s h =>
      s.setMem (.share r.part h) ((s.mem (.share r.part h)).below ((r.shares.look h).getD 0))) s
    let later := s.fw.resizes.filter fun x => x.part == r.part
    let clusters := p.clusters.filter fun k => r.clusters.contains k || later.any fun x => x.clusters.contains k
    (s.modPart r.part fun p => { p with clusters := clusters, shares := r.shares }).hostResult 0 r.w 0 0

/-- A PRESIZE goes on: the first removed core that still holds work is brought out. -/
def State.resizeStep (s : State) (p : Partition) (r : Resize) : State :=
  match (s.resizeGone p r).find? fun c => !(s.onCore c).isEmpty || !(s.core c).handlers.isEmpty with
  | none => s.endResize p r true
  | some c =>
    if r.start + 10 ^ 7 ≤ s.time then s.endResize p r false
    else
      let x := (s.onCore c).foldl (fun (a : State × Resize × Bool) q =>
        if a.2.2 then a else match a.1.resizeThread p a.2.1 q.1 q.2 with
          | some (s, r) => (s, r, false)
          | none => (a.1, a.2.1, true)) (s, r, false)
      let s := x.1.modFw fun f => { f with resizes := f.resizes.replace r x.2.1 }
      if x.2.2 then s.endResize p x.2.1 false else s

/-- The PRESIZE in progress of each partition, its first accepted one, goes on. -/
def State.resizesOn (s : State) : State :=
  s.fw.resizes.foldl (fun s r =>
    if s.fw.resizes.find? (fun x => x.part == r.part) ≠ some r then s
    else match s.part r.part with
      | some p => s.resizeStep p r
      | none => s.modFw fun f => { f with resizes := f.resizes.erase r }) s

/-- PRESIZE: those in progress go on, and a command at the head is accepted, adding clusters at once (R376). DESIGN CHOICE: images start
below the end of every share that the placing hearth has or is to have (log 115). -/
def execPresize (s : State) : Out :=
  s.resizesOn.command 0 (fun c => c.op == 0x11) fun c s =>
    let part := c.arg 1
    match s.part part with
    | none => badArg s
    | some p =>
      let clusters := s.maskClusters (c.arg 2)
      let t := s.shareTable (c.arg 3)
      if !c.clean 0 [0x7F, allBits, allBits, 0, 0, 0] || !clusters.contains (clusterOf p.svc) || clusters.headD 0 != clusterOf p.svc ||
          !s.clustersFree part clusters || (c.arg 3 != 0 && !s.sharesOk part clusters t) then badArg s
      else
        let added := clusters.filter fun k => !p.clusters.contains k
        let kept := match (s.fw.resizes.filter fun x => x.part == part).getLast? with
          | some x => x.shares
          | none => p.shares
        let shares := if c.arg 3 = 0 then kept else sharesOf t
        let ends := (p.shares :: shares :: (s.fw.resizes.filter fun x => x.part == part).map Resize.shares).map fun (m : Map Nat) => (m.look p.placing).getD 0
        let s := (s.setPart part { p with clusters := (numsFrom 0 1024).filter fun k => p.clusters.contains k || added.contains k }).freshCores added
        let r : Resize :=
          { part := part, w := c.w, clusters := clusters, shares := shares, start := s.time, low := ends.foldl min (2 ^ 26) }
        (s.modFw fun f => { f with resizes := f.resizes ++ [r] }, none)

/-! ### CHECKPOINT and RESTORE (R386 to R388) -/

/-- Cores of a partition, its service core among them. -/
def Partition.allCores (p : Partition) : List Nat := p.clusters.flatMap fun k => numsFrom (16 * k) 16

/-- Every thread in scope leaves rotation and the engines stop (step 1). -/
def State.ckptStop (s : State) (part : Nat) : State :=
  match s.part part with
  | none => s
  | some p =>
    let s := p.allCores.foldl (fun s c => s.modCore c fun k => { k with ckpt := true }) s
    (s.ofPart part).foldl (fun s q => s.recordThread q.1 fun _ _ => true) s

/-- The thread has asked to move. -/
def Block.moves : Block → Bool
  | .migrate _ _ => true
  | _ => false

/-- The drain of step 2: counters are zero, nothing is on its way to a thread, no command runs, transfers are paused. -/
def State.ckptDrained (s : State) (part : Nat) : Bool :=
  match s.part part with
  | none => true
  | some p =>
    s.moving.all (fun m => m.t.part != part) && s.starts.all (fun x => x.1 != part) &&
    s.parcels.all (fun q => q.part != part || !q.acc.isOp) &&
    (s.ofPart part).all (fun q => q.2.zeroed true true true && !q.2.block.awaiting && !q.2.block.moves &&
      s.replies.all (fun r => r.tid != q.1) && s.wakes.all fun r => r.tid != q.1) &&
    p.allCores.all fun c =>
      let k := s.core c
      k.vq.isEmpty && k.mq.isEmpty && k.chans.all fun x => match x.cur with
        | some x => x.moved == x.comp
        | none => true

/-- What a slot keeps of a partition's regions: threads that wait issue again after a restore, so nothing waits for them. -/
def State.ckptPart (s : State) (part : Nat) (p : Partition) : Partition :=
  let s := (s.ofPart part).foldl (fun s q => s.unwait q.1) s
  let p := (s.part part).getD p
  { p with
    faults := []
    faultPut := []
    faultWait := []
    ring := []
    ringPut := []
    ringWait := []
    applies := []
    waiting := []
    wakes := []
    nests := p.nests.map fun n => { n with joiners := [], host := none, applier := n.applier.map fun x => x + 2 ^ 21 } }

/-- The slot that a checkpoint of the partitions writes (step 3). -/
def State.ckptSlot (s : State) (parts : List Nat) : CkptSlot :=
  let ps := parts.filterMap fun n => (s.part n).map fun p => (n, p)
  let leaves := ps.flatMap fun q => s.hbmLeaves q.1
  let inPage := fun (a : Nat) => leaves.any fun l => decide (l.pa ≤ a) && decide (a < l.pa + l.size)
  { valid := true
    time := s.time
    parts := ps.map fun q => (q.1, s.ckptPart q.1 q.2)
    threads := (s.threads.filter fun q => parts.contains q.2.part).map fun q => (q.1, s.image q.1 q.2)
    lms := (ps.flatMap fun q => q.2.allCores).map fun c => (c, (s.core c).lm)
    shares := ps.flatMap fun q => q.2.shares.map fun h => ((q.1, h.1), s.mem (.share q.1 h.1))
    map := leaves.map fun l => (l.pa, l.size)
    pages := s.hbm.filter fun c => inPage c.1 }

/-- The threads of a partition continue, unless an earlier checkpoint halted it (step 5). -/
def State.ckptContinue (s : State) (halt : Bool) (part : Nat) : State :=
  match s.part part with
  | none => s
  | some p =>
    if halt || p.halted then s.setPart part { p with halted := true }
    else if s.fw.ckpts.any fun x => x.parts.contains part then s
    else
      p.allCores.foldl (fun s c => (s.modCore c fun k => { k with ckpt := false }).resumeCore c) s

/-- A checkpoint in progress goes on: once drained it is written and validated, the other slot is not valid, and the threads
continue. -/
def State.ckptStep (s : State) (x : CkptReq) : State :=
  if !x.parts.all s.ckptDrained then s
  else
    let slot := s.ckptSlot x.parts
    let s := s.modFw fun f =>
      { f with
        ckpts := f.ckpts.erase x
        slots := if x.slot = 0 then [slot, { f.slots.getD 1 {} with valid := false }] else [{ f.slots.getD 0 {} with valid := false }, slot] }
    (x.parts.foldl (fun s p => s.ckptContinue x.halt p) s).hostResult x.fn x.w 0 0

/-- The row of a checkpoint of function fn over some partitions: its first in progress goes on, and a command at the head is accepted
(R376). INCR changes what is written anew, not what the slot holds. -/
def State.ckptRow (s : State) (fn op : Nat) (parts : State → List Nat) : Out :=
  let s := match s.fw.ckpts.find? fun x => x.fn == fn with
    | some x => s.ckptStep x
    | none => s
  s.command fn (fun c => c.op == op) fun c s =>
    if !c.clean 3 [1, 0, 0, 0, 0, 0] then badArg s
    else
      let l := parts s
      let x : CkptReq := { fn := fn, w := c.w, slot := c.bits 1 0 1, halt := c.flag 8, parts := l }
      (l.foldl (fun s p => s.ckptStop p) (s.modFw fun f => { f with ckpts := f.ckpts ++ [x] }), none)

/-- CHECKPOINT of the partition (R387). -/
def execCheckpoint (part : Nat) (s : State) : Out := s.ckptRow (part + 1) 7 fun _ => [part]

/-- CHECKPOINT of the module (R387). -/
def execModuleCheckpoint (s : State) : Out := s.ckptRow 0 0x14 fun s => s.parts.map Prod.fst

/-- The partitions of a slot still match the descriptors (R388). -/
def State.slotMatches (s : State) (x : CkptSlot) : Bool :=
  x.parts.all fun q => match s.part q.1 with
    | some p => p.clusters == q.2.clusters && p.sec == q.2.sec && p.shares == q.2.shares
    | none => false

/-- A thread of a slot is restored onto its recorded core, as `crest` writes it (R310). -/
def State.restoreThread (s : State) (tid : Nat) (w : List Word) : State :=
  let hdr := (w.getD 0 0).toNat
  let slot := if slotOf tid = 15 then 15 else (s.freeSlotOn (coreOf tid)).getD (slotOf tid)
  s.loadImage (16 * coreOf tid + slot) w (bitAt hdr 8) (hdr / 2 ^ 16 % 256)

/-- RESTORE from a valid slot: every partition is reset, then pages, LMs, shares and threads are rewritten. -/
def State.restoreSlot (s : State) (x : CkptSlot) : State :=
  let s := (s.parts.map Prod.fst).foldl (fun s p => (s.resetPart p true).1) s
  let clean := x.map.foldl (fun (m : Memory) p => m.clear p.1 (p.1 + p.2)) s.hbm
  let s : State := { s with hbm := x.pages.foldl (fun (m : Memory) c => m.setByte c.1 c.2) clean }
  let s := x.lms.foldl (fun s l => s.modCore l.1 fun k => { k with lm := l.2 }) s
  let s := x.shares.foldl (fun s l => s.setMem (.share l.1.1 l.1.2) l.2) s
  let s := x.parts.foldl (fun s q => s.modPart q.1 fun p =>
    { p with
      starter := q.2.starter
      queues := q.2.queues
      nests := q.2.nests
      store := q.2.store
      pantryImage := q.2.pantryImage }) s
  x.threads.foldl (fun s t => s.restoreThread t.1 t.2) s

/-- RESTORE (R388). -/
def execRestore (s : State) : Out :=
  s.command 0 (fun c => c.op == 0x15) fun c s =>
    if !c.clean 0 [1, 0, 0, 0, 0, 0] then badArg s
    else
      let x := s.fw.slots.getD (c.bits 1 0 1) {}
      if x.valid && s.slotMatches x then okay (s.restoreSlot x) 0 else failed s 0

end Sys2Proof.Machine
end

