-- ==== Sys2Proof/Machine/Scalar.lean ====
section
/-! DEFINITION. The scalar integer and control forms (spec/04: R91 to R98): register class, one integer charge each. -/

namespace Sys2Proof.Machine

/-- A two-source form of major INT (R91): gd := f ga gb. -/
def State.rrr (s : State) (d a b : GReg) (f : Word → Word → Word) : Out :=
  s.onThread fun t => s.write t d (f (t.rd a) (t.rd b)) 0

/-- A single-source form (R91, R95): gd := f ga. -/
def State.rr (s : State) (d a : GReg) (f : Word → Word) : Out := s.onThread fun t => s.write t d (f (t.rd a)) 0

/-- 1 or 0 in all 64 bits. -/
def flag (b : Bool) : Word := if b then 1 else 0

/-- The high half of a signed product (R92). -/
def mulHigh (a b : Word) : Word := BitVec.ofInt 64 (a.toInt * b.toInt / 2 ^ 64)
/-- The high half of an unsigned product (R92). -/
def mulHighN (a b : Word) : Word := BitVec.ofNat 64 (a.toNat * b.toNat / 2 ^ 64)
/-- The amount of a shift or rotate: bits 5:0 (R92). -/
def amt (b : Word) : Nat := b.toNat % 64

/-- Results of the division forms (R93). -/
def divW (a b : Word) : Word := if b = 0 then BitVec.allOnes 64 else BitVec.ofInt 64 (a.toInt.tdiv b.toInt)
/-- Results of the division forms (R93). -/
def remW (a b : Word) : Word := if b = 0 then a else BitVec.ofInt 64 (a.toInt.tmod b.toInt)
/-- Results of the division forms (R93). -/
def divnW (a b : Word) : Word := if b = 0 then BitVec.allOnes 64 else BitVec.ofNat 64 (a.toNat / b.toNat)
/-- Results of the division forms (R93). -/
def remnW (a b : Word) : Word := if b = 0 then a else BitVec.ofNat 64 (a.toNat % b.toNat)

/-- Starts an operation on the divide unit (R85): the thread leaves rotation and the result comes n cc after issue. -/
def State.divide (s : State) (t : Thread) (d : GReg) (v : Word) (n : Nat) : Out :=
  s.wait t (.divide (s.cc + n) d v 0 0)

/-- Leading zero bits among the n low bits (R94). -/
def clzN (v : Nat) : Nat → Nat
  | 0 => 0
  | n + 1 => if v.testBit n then 0 else 1 + clzN v n
/-- Trailing zero bits from bit i upward, n bits left (R94). -/
def ctzN (v i : Nat) : Nat → Nat
  | 0 => 0
  | n + 1 => if v.testBit i then 0 else 1 + ctzN v (i + 1) n
/-- One bits among the n low bits (R94). -/
def popN (v : Nat) : Nat → Nat
  | 0 => 0
  | n + 1 => bit (v.testBit n) + popN v n
/-- Byte i becomes byte 7 - i (R94). -/
def bswapW (w : Word) : Word :=
  BitVec.ofNat 64 ((numsFrom 0 8).foldl (fun acc i => acc * 256 + w.toNat / 256 ^ i % 256) 0)
/-- Bit i becomes bit 63 - i (R94). -/
def brevW (w : Word) : Word :=
  BitVec.ofNat 64 ((numsFrom 0 64).foldl (fun acc i => acc * 2 + w.toNat / 2 ^ i % 2) 0)
/-- Bits of a width code (R27). -/
def xwBits : XWidth → Nat
  | .byte => 8
  | .half => 16
  | .word => 32
/-- bfx (R94). -/
def bfxW (a b : Word) : Word := BitVec.ofNat 64 (a.toNat / 2 ^ (bits b 0 6) % 2 ^ (bits b 8 6 + 1))
/-- bfi (R94): the old gd is g. -/
def bfiW (g a b : Word) : Word :=
  let mask : Word := BitVec.ofNat 64 ((2 ^ (bits b 8 6 + 1) - 1) * 2 ^ (bits b 0 6))
  (g &&& ~~~mask) ||| ((a <<< bits b 0 6) &&& mask)
/-- sext of an immediate (R29). -/
def immS (i : BitVec 16) : Word := i.signExtend 64
/-- zext of an immediate (R29). -/
def immZ (i : BitVec 16) : Word := i.zeroExtend 64

/-- add (R92). -/
def execAdd (rd ra rb : GReg) (s : State) : Out := s.rrr rd ra rb fun a b => a + b
/-- sub (R92). -/
def execSub (rd ra rb : GReg) (s : State) : Out := s.rrr rd ra rb fun a b => a - b
/-- mul (R92). -/
def execMul (rd ra rb : GReg) (s : State) : Out := s.rrr rd ra rb fun a b => a * b
/-- mulh (R92). -/
def execMulh (rd ra rb : GReg) (s : State) : Out := s.rrr rd ra rb fun a b => mulHigh a b
/-- mulhn (R92). -/
def execMulhn (rd ra rb : GReg) (s : State) : Out := s.rrr rd ra rb fun a b => mulHighN a b
/-- and (R92). -/
def execAnd (rd ra rb : GReg) (s : State) : Out := s.rrr rd ra rb fun a b => a &&& b
/-- or (R92). -/
def execOr (rd ra rb : GReg) (s : State) : Out := s.rrr rd ra rb fun a b => a ||| b
/-- xor (R92). -/
def execXor (rd ra rb : GReg) (s : State) : Out := s.rrr rd ra rb fun a b => a ^^^ b
/-- andn (R92). -/
def execAndn (rd ra rb : GReg) (s : State) : Out := s.rrr rd ra rb fun a b => a &&& ~~~b
/-- orn (R92). -/
def execOrn (rd ra rb : GReg) (s : State) : Out := s.rrr rd ra rb fun a b => a ||| ~~~b
/-- sll (R92). -/
def execSll (rd ra rb : GReg) (s : State) : Out := s.rrr rd ra rb fun a b => a <<< amt b
/-- srl (R92). -/
def execSrl (rd ra rb : GReg) (s : State) : Out := s.rrr rd ra rb fun a b => a >>> amt b
/-- sra (R92). -/
def execSra (rd ra rb : GReg) (s : State) : Out := s.rrr rd ra rb fun a b => a.sshiftRight (amt b)
/-- rol (R92). -/
def execRol (rd ra rb : GReg) (s : State) : Out := s.rrr rd ra rb fun a b => a.rotateLeft (amt b)
/-- ror (R92). -/
def execRor (rd ra rb : GReg) (s : State) : Out := s.rrr rd ra rb fun a b => a.rotateRight (amt b)
/-- slt (R92). -/
def execSlt (rd ra rb : GReg) (s : State) : Out := s.rrr rd ra rb fun a b => flag (a.slt b)
/-- sltn (R92). -/
def execSltn (rd ra rb : GReg) (s : State) : Out := s.rrr rd ra rb fun a b => flag (a.ult b)
/-- seq (R92). -/
def execSeq (rd ra rb : GReg) (s : State) : Out := s.rrr rd ra rb fun a b => flag (a == b)
/-- sne (R92). -/
def execSne (rd ra rb : GReg) (s : State) : Out := s.rrr rd ra rb fun a b => flag (a != b)
/-- min (R92). -/
def execMin (rd ra rb : GReg) (s : State) : Out := s.rrr rd ra rb fun a b => if a.slt b then a else b
/-- max (R92). -/
def execMax (rd ra rb : GReg) (s : State) : Out := s.rrr rd ra rb fun a b => if a.slt b then b else a
/-- minn (R92). -/
def execMinn (rd ra rb : GReg) (s : State) : Out := s.rrr rd ra rb fun a b => if a.ult b then a else b
/-- maxn (R92). -/
def execMaxn (rd ra rb : GReg) (s : State) : Out := s.rrr rd ra rb fun a b => if a.ult b then b else a
/-- bfx (R94). -/
def execBfx (rd ra rb : GReg) (s : State) : Out := s.rrr rd ra rb fun a b => bfxW a b
/-- div (R93): 16 cc on the divide unit. -/
def execDiv (rd ra rb : GReg) (s : State) : Out :=
  s.onThread fun t => s.divide t rd (divW (t.rd ra) (t.rd rb)) 16
/-- divn (R93): 16 cc on the divide unit. -/
def execDivn (rd ra rb : GReg) (s : State) : Out :=
  s.onThread fun t => s.divide t rd (divnW (t.rd ra) (t.rd rb)) 16
/-- rem (R93): 16 cc on the divide unit. -/
def execRem (rd ra rb : GReg) (s : State) : Out :=
  s.onThread fun t => s.divide t rd (remW (t.rd ra) (t.rd rb)) 16
/-- remn (R93): 16 cc on the divide unit. -/
def execRemn (rd ra rb : GReg) (s : State) : Out :=
  s.onThread fun t => s.divide t rd (remnW (t.rd ra) (t.rd rb)) 16
/-- clz (R94). -/
def execClz (rd ra : GReg) (s : State) : Out := s.rr rd ra fun a => BitVec.ofNat 64 (clzN a.toNat 64)
/-- ctz (R94). -/
def execCtz (rd ra : GReg) (s : State) : Out := s.rr rd ra fun a => BitVec.ofNat 64 (ctzN a.toNat 0 64)
/-- pop (R94). -/
def execPop (rd ra : GReg) (s : State) : Out := s.rr rd ra fun a => BitVec.ofNat 64 (popN a.toNat 64)
/-- bswap (R94). -/
def execBswap (rd ra : GReg) (s : State) : Out := s.rr rd ra fun a => bswapW a
/-- brev (R94). -/
def execBrev (rd ra : GReg) (s : State) : Out := s.rr rd ra fun a => brevW a
/-- sext (R94). -/
def execSext (rd ra : GReg) (w : XWidth) (s : State) : Out := s.rr rd ra fun a => sextW a.toNat (xwBits w)
/-- zext (R94). -/
def execZext (rd ra : GReg) (w : XWidth) (s : State) : Out := s.rr rd ra fun a => BitVec.ofNat 64 (a.toNat % 2 ^ xwBits w)
/-- sel (R92): the old gd is the condition. -/
def execSel (rd ra rb : GReg) (s : State) : Out :=
  s.onThread fun t => s.write t rd (if t.rd rd ≠ 0 then t.rd ra else t.rd rb) 0
/-- bfi (R94). -/
def execBfi (rd ra rb : GReg) (s : State) : Out := s.onThread fun t => s.write t rd (bfiW (t.rd rd) (t.rd ra) (t.rd rb)) 0
/-- addi (R95). -/
def execAddi (rd ra : GReg) (im : BitVec 16) (s : State) : Out := s.rr rd ra fun a => a + immS im
/-- andi (R95). -/
def execAndi (rd ra : GReg) (im : BitVec 16) (s : State) : Out := s.rr rd ra fun a => a &&& immZ im
/-- ori (R95). -/
def execOri (rd ra : GReg) (im : BitVec 16) (s : State) : Out := s.rr rd ra fun a => a ||| immZ im
/-- xori (R95). -/
def execXori (rd ra : GReg) (im : BitVec 16) (s : State) : Out := s.rr rd ra fun a => a ^^^ immZ im
/-- slti (R95). -/
def execSlti (rd ra : GReg) (im : BitVec 16) (s : State) : Out := s.rr rd ra fun a => flag (a.slt (immS im))
/-- sltni (R95). -/
def execSltni (rd ra : GReg) (im : BitVec 16) (s : State) : Out := s.rr rd ra fun a => flag (a.ult (immS im))
/-- lsh (R95). -/
def execLsh (rd ra : GReg) (im : BitVec 16) (s : State) : Out := s.rr rd ra fun a => (a <<< 16) ||| immZ im
/-- shi.sll (R95). -/
def execShiSll (rd ra : GReg) (n : BitVec 6) (s : State) : Out := s.rr rd ra fun a => a <<< n.toNat
/-- shi.srl (R95). -/
def execShiSrl (rd ra : GReg) (n : BitVec 6) (s : State) : Out := s.rr rd ra fun a => a >>> n.toNat
/-- shi.sra (R95). -/
def execShiSra (rd ra : GReg) (n : BitVec 6) (s : State) : Out := s.rr rd ra fun a => a.sshiftRight n.toNat
/-- shi.rol (R95). -/
def execShiRol (rd ra : GReg) (n : BitVec 6) (s : State) : Out := s.rr rd ra fun a => a.rotateLeft n.toNat
/-- shi.ror (R95). -/
def execShiRor (rd ra : GReg) (n : BitVec 6) (s : State) : Out := s.rr rd ra fun a => a.rotateRight n.toNat
/-- li (R95). -/
def execLi (rd : GReg) (im : BitVec 21) (s : State) : Out := s.onThread fun t => s.write t rd (im.signExtend 64) 0

/-- A branch (R96): the target is the branch's address plus four times the signed offset. -/
def State.branch (s : State) (ra rb : GReg) (off : BitVec 13) (c : Word → Word → Bool) : Out :=
  s.onThread fun t =>
    s.jump t (if c (t.rd ra) (t.rd rb) then t.pc + 4 * off.signExtend 64 else t.pc + 4)

/-- b.eq (R24, R96). -/
def execBEq (ra rb : GReg) (o : BitVec 13) (s : State) : Out := s.branch ra rb o fun a b => a == b
/-- b.ne (R24, R96). -/
def execBNe (ra rb : GReg) (o : BitVec 13) (s : State) : Out := s.branch ra rb o fun a b => a != b
/-- b.lt (R24, R96). -/
def execBLt (ra rb : GReg) (o : BitVec 13) (s : State) : Out := s.branch ra rb o fun a b => a.slt b
/-- b.ge (R24, R96). -/
def execBGe (ra rb : GReg) (o : BitVec 13) (s : State) : Out := s.branch ra rb o fun a b => !a.slt b
/-- b.ltn (R24, R96). -/
def execBLtn (ra rb : GReg) (o : BitVec 13) (s : State) : Out := s.branch ra rb o fun a b => a.ult b
/-- b.gen (R24, R96). -/
def execBGen (ra rb : GReg) (o : BitVec 13) (s : State) : Out := s.branch ra rb o fun a b => !a.ult b
/-- b.bs (R24, R96). -/
def execBBs (ra rb : GReg) (o : BitVec 13) (s : State) : Out := s.branch ra rb o fun a b => a.toNat.testBit (amt b)
/-- j (R97). -/
def execJ (o : BitVec 26) (s : State) : Out := s.onThread fun t => s.jump t (t.pc + 4 * o.signExtend 64)
/-- jal (R97): the link is g31. -/
def execJal (o : BitVec 26) (s : State) : Out :=
  s.onThread fun t => s.jump (t.wr 31 (t.pc + 4)) (t.pc + 4 * o.signExtend 64)
/-- A jump to an address in a register (R98): a target that is no multiple of 4 raises ADDR at the jump. -/
def State.jumpReg (s : State) (t : Thread) (a : Word) (link : Thread → Thread) : Out :=
  if a.toNat % 4 ≠ 0 then s.addr t a else s.jump (link t) a
/-- jr (R98). -/
def execJr (ra : GReg) (s : State) : Out := s.onThread fun t => s.jumpReg t (t.rd ra) id
/-- jalr (R98): ga is read before gd is written. -/
def execJalr (rd ra : GReg) (s : State) : Out := s.onThread fun t => s.jumpReg t (t.rd ra) fun t => t.wr rd (t.pc + 4)

end Sys2Proof.Machine
end

