-- ==== Sys2Proof/Machine/ScalarFp.lean ====
section
/-! DEFINITION. The scalar FP32 forms (spec/04: R100 to R105): operands from bits 31:0, register class, one scalar FP charge
each. -/

namespace Sys2Proof.Machine

/-- Bits 31:0 of a register. -/
def lo32 (w : Word) : Nat := bits w 0 32

/-- Writes a result code and its flags. -/
def State.writeF (s : State) (t : Thread) (d : GReg) (r : Nat × Nat) : Out :=
  s.write (t.raiseF r.2) d (BitVec.ofNat 64 r.1) 2

/-- A form of two FP32 operands (R100). -/
def State.fpForm (s : State) (d a b : GReg) (f : Word → Nat → Nat → Nat × Nat) : Out :=
  s.onThread fun t => s.writeF t d (f t.fp.frm (lo32 (t.rd a)) (lo32 (t.rd b)))

/-- A conversion of one register (R104). -/
def State.cvtForm (s : State) (d a : GReg) (f : Word → Word → Nat × Nat) : Out :=
  s.onThread fun t => s.writeF t d (f t.fp.frm (t.rd a))

/-- A conversion to an integer (R104): the result is written to all 64 bits. -/
def State.cvtInt (s : State) (d a : GReg) (f : Word → Nat → Int × Nat) : Out :=
  s.onThread fun t =>
    let r := f t.fp.frm (lo32 (t.rd a))
    s.write (t.raiseF r.2) d (BitVec.ofInt 64 r.1) 2

/-- A comparison (R102). -/
def State.cmpForm (s : State) (cond : Nat) (d a b : GReg) : Out :=
  s.fpForm d a b fun _ x y => let r := fp32.compare cond x y; (bit r.1, r.2)

/-- ga[30:0] with a new sign (R105). -/
def State.signForm (s : State) (d a b : GReg) (f : Bool → Bool → Bool) : Out :=
  s.fpForm d a b fun _ x y => (x % 2 ^ 31 + bit (f (x.testBit 31) (y.testBit 31)) * 2 ^ 31, 0)

/-- fadd (R101). -/
def execFadd (rd ra rb : GReg) (s : State) : Out :=
  s.fpForm rd ra rb fun frm x y => fp32.addV frm (fp32.unpack x) (fp32.unpack y)
/-- fsub (R101). -/
def execFsub (rd ra rb : GReg) (s : State) : Out :=
  s.fpForm rd ra rb fun frm x y => fp32.addV frm (fp32.unpack x) (fp32.unpack y).neg
/-- fmul (R101). -/
def execFmul (rd ra rb : GReg) (s : State) : Out :=
  s.fpForm rd ra rb fun frm x y => fp32.mulV frm (fp32.unpack x) (fp32.unpack y)
/-- fma (R101): gd is read before it is written. -/
def execFma (rd ra rb : GReg) (s : State) : Out :=
  s.onThread fun t => s.writeF t rd (fp32.fmaV t.fp.frm (fp32.unpack (lo32 (t.rd ra))) (fp32.unpack (lo32 (t.rd rb))) (fp32.unpack (lo32 (t.rd rd))))
/-- fnma (R101): gd - ga × gb. -/
def execFnma (rd ra rb : GReg) (s : State) : Out :=
  s.onThread fun t => s.writeF t rd (fp32.fmaV t.fp.frm (fp32.unpack (lo32 (t.rd ra))).neg (fp32.unpack (lo32 (t.rd rb))) (fp32.unpack (lo32 (t.rd rd))))
/-- fdiv (R101): 12 cc on the divide unit. -/
def execFdiv (rd ra rb : GReg) (s : State) : Out :=
  s.onThread fun t =>
    let r := fp32.divV t.fp.frm (fp32.unpack (lo32 (t.rd ra))) (fp32.unpack (lo32 (t.rd rb)))
    s.wait t (.divide (s.cc + 12) rd (BitVec.ofNat 64 r.1) r.2 2)
/-- fsqrt (R101): 14 cc on the divide unit. -/
def execFsqrt (rd ra : GReg) (s : State) : Out :=
  s.onThread fun t =>
    let r := fp32.sqrtV t.fp.frm (fp32.unpack (lo32 (t.rd ra)))
    s.wait t (.divide (s.cc + 14) rd (BitVec.ofNat 64 r.1) r.2 2)
/-- fmin (R101). -/
def execFmin (rd ra rb : GReg) (s : State) : Out :=
  s.fpForm rd ra rb fun _ x y => fp32.minmax false x y
/-- fmax (R101). -/
def execFmax (rd ra rb : GReg) (s : State) : Out :=
  s.fpForm rd ra rb fun _ x y => fp32.minmax true x y
/-- fcmp.eq (R102). -/
def execFcmpEq (rd ra rb : GReg) (s : State) : Out :=
  s.cmpForm 0 rd ra rb
/-- fcmp.lt (R102). -/
def execFcmpLt (rd ra rb : GReg) (s : State) : Out :=
  s.cmpForm 1 rd ra rb
/-- fcmp.le (R102). -/
def execFcmpLe (rd ra rb : GReg) (s : State) : Out :=
  s.cmpForm 2 rd ra rb
/-- fcmp.un (R102). -/
def execFcmpUn (rd ra rb : GReg) (s : State) : Out :=
  s.cmpForm 3 rd ra rb
/-- fclass (R103). -/
def execFclass (rd ra : GReg) (s : State) : Out :=
  s.onThread fun t => s.writeF t rd (fclassOf (lo32 (t.rd ra)), 0)
/-- fcvt.f32.i64 (R104). -/
def execFcvtF32I64 (rd ra : GReg) (s : State) : Out :=
  s.cvtForm rd ra fun frm a => cvtIF fp32 frm a.toInt
/-- fcvt.f32.n64 (R104). -/
def execFcvtF32N64 (rd ra : GReg) (s : State) : Out :=
  s.cvtForm rd ra fun frm a => cvtIF fp32 frm a.toNat
/-- fcvt.i64.f32 (R104). -/
def execFcvtI64F32 (rd ra : GReg) (s : State) : Out :=
  s.cvtInt rd ra fun frm x => cvtFI fp32 (rmOf frm) (-2 ^ 63) (2 ^ 63 - 1) x
/-- fcvt.n64.f32 (R104). -/
def execFcvtN64F32 (rd ra : GReg) (s : State) : Out :=
  s.cvtInt rd ra fun frm x => cvtFI fp32 (rmOf frm) 0 (2 ^ 64 - 1) x
/-- fcvt.i64.f32.rtz (R104). -/
def execFcvtI64F32Rtz (rd ra : GReg) (s : State) : Out :=
  s.cvtInt rd ra fun _ x => cvtFI fp32 1 (-2 ^ 63) (2 ^ 63 - 1) x
/-- fcvt.n64.f32.rtz (R104). -/
def execFcvtN64F32Rtz (rd ra : GReg) (s : State) : Out :=
  s.cvtInt rd ra fun _ x => cvtFI fp32 1 0 (2 ^ 64 - 1) x
/-- fcvt.f32.i32 (R104). -/
def execFcvtF32I32 (rd ra : GReg) (s : State) : Out :=
  s.cvtForm rd ra fun frm a => cvtIF fp32 frm (sx a.toNat 32)
/-- fcvt.i32.f32 (R104). -/
def execFcvtI32F32 (rd ra : GReg) (s : State) : Out :=
  s.cvtInt rd ra fun frm x => cvtFI fp32 (rmOf frm) (-2 ^ 31) (2 ^ 31 - 1) x
/-- fcvt.f16.f32 (R104). -/
def execFcvtF16F32 (rd ra : GReg) (s : State) : Out :=
  s.cvtForm rd ra fun frm a => cvtFF fp32 fp16 frm (bits a 0 32)
/-- fcvt.f32.f16 (R104). -/
def execFcvtF32F16 (rd ra : GReg) (s : State) : Out :=
  s.cvtForm rd ra fun frm a => cvtFF fp16 fp32 frm (bits a 0 16)
/-- fcvt.bf16.f32 (R104). -/
def execFcvtBf16F32 (rd ra : GReg) (s : State) : Out :=
  s.cvtForm rd ra fun frm a => cvtFF fp32 bf16 frm (bits a 0 32)
/-- fcvt.f32.bf16 (R104). -/
def execFcvtF32Bf16 (rd ra : GReg) (s : State) : Out :=
  s.cvtForm rd ra fun frm a => cvtFF bf16 fp32 frm (bits a 0 16)
/-- fsgnj (R105). -/
def execFsgnj (rd ra rb : GReg) (s : State) : Out :=
  s.signForm rd ra rb fun _ y => y
/-- fsgnj.n (R105). -/
def execFsgnjN (rd ra rb : GReg) (s : State) : Out :=
  s.signForm rd ra rb fun _ y => !y
/-- fsgnj.x (R105). -/
def execFsgnjX (rd ra rb : GReg) (s : State) : Out :=
  s.signForm rd ra rb fun x y => x != y

end Sys2Proof.Machine
end

