-- ==== Sys2Proof/Machine/Dispatch.lean ====
section
/-! DEFINITION. The dispatch: one arm for each row of the table of operations and events. -/

namespace Sys2Proof.Machine

def exec (i : Instr) (s : State) : Host.Outcome State Fault Refusal :=
  match i with
  | .add d a b => Sys2Proof.Machine.execAdd d a b s
  | .sub d a b => Sys2Proof.Machine.execSub d a b s
  | .mul d a b => Sys2Proof.Machine.execMul d a b s
  | .mulh d a b => Sys2Proof.Machine.execMulh d a b s
  | .mulhn d a b => Sys2Proof.Machine.execMulhn d a b s
  | .div d a b => Sys2Proof.Machine.execDiv d a b s
  | .divn d a b => Sys2Proof.Machine.execDivn d a b s
  | .rem d a b => Sys2Proof.Machine.execRem d a b s
  | .remn d a b => Sys2Proof.Machine.execRemn d a b s
  | .and d a b => Sys2Proof.Machine.execAnd d a b s
  | .or d a b => Sys2Proof.Machine.execOr d a b s
  | .xor d a b => Sys2Proof.Machine.execXor d a b s
  | .andn d a b => Sys2Proof.Machine.execAndn d a b s
  | .orn d a b => Sys2Proof.Machine.execOrn d a b s
  | .sll d a b => Sys2Proof.Machine.execSll d a b s
  | .srl d a b => Sys2Proof.Machine.execSrl d a b s
  | .sra d a b => Sys2Proof.Machine.execSra d a b s
  | .rol d a b => Sys2Proof.Machine.execRol d a b s
  | .ror d a b => Sys2Proof.Machine.execRor d a b s
  | .slt d a b => Sys2Proof.Machine.execSlt d a b s
  | .sltn d a b => Sys2Proof.Machine.execSltn d a b s
  | .seq d a b => Sys2Proof.Machine.execSeq d a b s
  | .sne d a b => Sys2Proof.Machine.execSne d a b s
  | .min d a b => Sys2Proof.Machine.execMin d a b s
  | .max d a b => Sys2Proof.Machine.execMax d a b s
  | .minn d a b => Sys2Proof.Machine.execMinn d a b s
  | .maxn d a b => Sys2Proof.Machine.execMaxn d a b s
  | .clz d a => Sys2Proof.Machine.execClz d a s
  | .ctz d a => Sys2Proof.Machine.execCtz d a s
  | .pop d a => Sys2Proof.Machine.execPop d a s
  | .bswap d a => Sys2Proof.Machine.execBswap d a s
  | .brev d a => Sys2Proof.Machine.execBrev d a s
  | .sext d a w => Sys2Proof.Machine.execSext d a w s
  | .zext d a w => Sys2Proof.Machine.execZext d a w s
  | .sel d a b => Sys2Proof.Machine.execSel d a b s
  | .bfx d a b => Sys2Proof.Machine.execBfx d a b s
  | .bfi d a b => Sys2Proof.Machine.execBfi d a b s
  | .addi d a im => Sys2Proof.Machine.execAddi d a im s
  | .andi d a im => Sys2Proof.Machine.execAndi d a im s
  | .ori d a im => Sys2Proof.Machine.execOri d a im s
  | .xori d a im => Sys2Proof.Machine.execXori d a im s
  | .shiSll d a n => Sys2Proof.Machine.execShiSll d a n s
  | .shiSrl d a n => Sys2Proof.Machine.execShiSrl d a n s
  | .shiSra d a n => Sys2Proof.Machine.execShiSra d a n s
  | .shiRol d a n => Sys2Proof.Machine.execShiRol d a n s
  | .shiRor d a n => Sys2Proof.Machine.execShiRor d a n s
  | .slti d a im => Sys2Proof.Machine.execSlti d a im s
  | .sltni d a im => Sys2Proof.Machine.execSltni d a im s
  | .li d im => Sys2Proof.Machine.execLi d im s
  | .lsh d a im => Sys2Proof.Machine.execLsh d a im s
  | .bEq a b o => Sys2Proof.Machine.execBEq a b o s
  | .bNe a b o => Sys2Proof.Machine.execBNe a b o s
  | .bLt a b o => Sys2Proof.Machine.execBLt a b o s
  | .bGe a b o => Sys2Proof.Machine.execBGe a b o s
  | .bLtn a b o => Sys2Proof.Machine.execBLtn a b o s
  | .bGen a b o => Sys2Proof.Machine.execBGen a b o s
  | .bBs a b o => Sys2Proof.Machine.execBBs a b o s
  | .j o => Sys2Proof.Machine.execJ o s
  | .jal o => Sys2Proof.Machine.execJal o s
  | .jr a => Sys2Proof.Machine.execJr a s
  | .jalr d a => Sys2Proof.Machine.execJalr d a s
  | .ld d a z w o => Sys2Proof.Machine.execLd d a z w o s
  | .st d a z w o => Sys2Proof.Machine.execSt d a z w o s
  | .ldx d a b z w => Sys2Proof.Machine.execLdx d a b z w s
  | .stx d a b z w => Sys2Proof.Machine.execStx d a b z w s
  | .amoAdd d a b z w => Sys2Proof.Machine.execAmoAdd d a b z w s
  | .amoAnd d a b z w => Sys2Proof.Machine.execAmoAnd d a b z w s
  | .amoOr d a b z w => Sys2Proof.Machine.execAmoOr d a b z w s
  | .amoXor d a b z w => Sys2Proof.Machine.execAmoXor d a b z w s
  | .amoMin d a b z w => Sys2Proof.Machine.execAmoMin d a b z w s
  | .amoMax d a b z w => Sys2Proof.Machine.execAmoMax d a b z w s
  | .amoMinn d a b z w => Sys2Proof.Machine.execAmoMinn d a b z w s
  | .amoMaxn d a b z w => Sys2Proof.Machine.execAmoMaxn d a b z w s
  | .amoSwap d a b z w => Sys2Proof.Machine.execAmoSwap d a b z w s
  | .amoCas d a b z w => Sys2Proof.Machine.execAmoCas d a b z w s
  | .redAdd a b z w => Sys2Proof.Machine.execRedAdd a b z w s
  | .redAnd a b z w => Sys2Proof.Machine.execRedAnd a b z w s
  | .redOr a b z w => Sys2Proof.Machine.execRedOr a b z w s
  | .redXor a b z w => Sys2Proof.Machine.execRedXor a b z w s
  | .redMin a b z w => Sys2Proof.Machine.execRedMin a b z w s
  | .redMax a b z w => Sys2Proof.Machine.execRedMax a b z w s
  | .redAddW128 a b w => Sys2Proof.Machine.execRedAddW128 a b w s
  | .mig d a => Sys2Proof.Machine.execMig d a s
  | .migc d a => Sys2Proof.Machine.execMigc d a s
  | .fenceCore => Sys2Proof.Machine.execFenceCore s
  | .fenceCluster => Sys2Proof.Machine.execFenceCluster s
  | .fenceHearth => Sys2Proof.Machine.execFenceHearth s
  | .fenceModule => Sys2Proof.Machine.execFenceModule s
  | .pfl a => Sys2Proof.Machine.execPfl a s
  | .xlat d a => Sys2Proof.Machine.execXlat d a s
  | .fadd d a b => Sys2Proof.Machine.execFadd d a b s
  | .fsub d a b => Sys2Proof.Machine.execFsub d a b s
  | .fmul d a b => Sys2Proof.Machine.execFmul d a b s
  | .fma d a b => Sys2Proof.Machine.execFma d a b s
  | .fnma d a b => Sys2Proof.Machine.execFnma d a b s
  | .fdiv d a b => Sys2Proof.Machine.execFdiv d a b s
  | .fsqrt d a => Sys2Proof.Machine.execFsqrt d a s
  | .fmin d a b => Sys2Proof.Machine.execFmin d a b s
  | .fmax d a b => Sys2Proof.Machine.execFmax d a b s
  | .fcmpEq d a b => Sys2Proof.Machine.execFcmpEq d a b s
  | .fcmpLt d a b => Sys2Proof.Machine.execFcmpLt d a b s
  | .fcmpLe d a b => Sys2Proof.Machine.execFcmpLe d a b s
  | .fcmpUn d a b => Sys2Proof.Machine.execFcmpUn d a b s
  | .fclass d a => Sys2Proof.Machine.execFclass d a s
  | .fcvtF32I64 d a => Sys2Proof.Machine.execFcvtF32I64 d a s
  | .fcvtF32N64 d a => Sys2Proof.Machine.execFcvtF32N64 d a s
  | .fcvtI64F32 d a => Sys2Proof.Machine.execFcvtI64F32 d a s
  | .fcvtN64F32 d a => Sys2Proof.Machine.execFcvtN64F32 d a s
  | .fcvtI64F32Rtz d a => Sys2Proof.Machine.execFcvtI64F32Rtz d a s
  | .fcvtN64F32Rtz d a => Sys2Proof.Machine.execFcvtN64F32Rtz d a s
  | .fcvtF32I32 d a => Sys2Proof.Machine.execFcvtF32I32 d a s
  | .fcvtI32F32 d a => Sys2Proof.Machine.execFcvtI32F32 d a s
  | .fcvtF16F32 d a => Sys2Proof.Machine.execFcvtF16F32 d a s
  | .fcvtF32F16 d a => Sys2Proof.Machine.execFcvtF32F16 d a s
  | .fcvtBf16F32 d a => Sys2Proof.Machine.execFcvtBf16F32 d a s
  | .fcvtF32Bf16 d a => Sys2Proof.Machine.execFcvtF32Bf16 d a s
  | .fsgnj d a b => Sys2Proof.Machine.execFsgnj d a b s
  | .fsgnjN d a b => Sys2Proof.Machine.execFsgnjN d a b s
  | .fsgnjX d a b => Sys2Proof.Machine.execFsgnjX d a b s
  | .vadd d a b k t => Sys2Proof.Machine.execVadd d a b k t s
  | .vsub d a b k t => Sys2Proof.Machine.execVsub d a b k t s
  | .vmul d a b k t => Sys2Proof.Machine.execVmul d a b k t s
  | .vmulh d a b k t => Sys2Proof.Machine.execVmulh d a b k t s
  | .vmin d a b k t => Sys2Proof.Machine.execVmin d a b k t s
  | .vmax d a b k t => Sys2Proof.Machine.execVmax d a b k t s
  | .vand d a b k => Sys2Proof.Machine.execVand d a b k s
  | .vor d a b k => Sys2Proof.Machine.execVor d a b k s
  | .vxor d a b k => Sys2Proof.Machine.execVxor d a b k s
  | .vsll d a b k t => Sys2Proof.Machine.execVsll d a b k t s
  | .vsrl d a b k t => Sys2Proof.Machine.execVsrl d a b k t s
  | .vsra d a b k t => Sys2Proof.Machine.execVsra d a b k t s
  | .vadds d a b k t => Sys2Proof.Machine.execVadds d a b k t s
  | .vsubs d a b k t => Sys2Proof.Machine.execVsubs d a b k t s
  | .vcmpEq d a b k t => Sys2Proof.Machine.execVcmpEq d a b k t s
  | .vcmpNe d a b k t => Sys2Proof.Machine.execVcmpNe d a b k t s
  | .vcmpLt d a b k t => Sys2Proof.Machine.execVcmpLt d a b k t s
  | .vcmpLe d a b k t => Sys2Proof.Machine.execVcmpLe d a b k t s
  | .vsel d a b k => Sys2Proof.Machine.execVsel d a b k s
  | .vmand d a b => Sys2Proof.Machine.execVmand d a b s
  | .vmor d a b => Sys2Proof.Machine.execVmor d a b s
  | .vmxor d a b => Sys2Proof.Machine.execVmxor d a b s
  | .vmandn d a b => Sys2Proof.Machine.execVmandn d a b s
  | .vrsum d a k t => Sys2Proof.Machine.execVrsum d a k t s
  | .vrmax d a k t => Sys2Proof.Machine.execVrmax d a k t s
  | .vperm d a b k => Sys2Proof.Machine.execVperm d a b k s
  | .vfadd d a b k t => Sys2Proof.Machine.execVfadd d a b k t s
  | .vfsub d a b k t => Sys2Proof.Machine.execVfsub d a b k t s
  | .vfmul d a b k t => Sys2Proof.Machine.execVfmul d a b k t s
  | .vfma d a b k t => Sys2Proof.Machine.execVfma d a b k t s
  | .vfmin d a b k t => Sys2Proof.Machine.execVfmin d a b k t s
  | .vfmax d a b k t => Sys2Proof.Machine.execVfmax d a b k t s
  | .vfcmpEq d a b k => Sys2Proof.Machine.execVfcmpEq d a b k s
  | .vfcmpLt d a b k => Sys2Proof.Machine.execVfcmpLt d a b k s
  | .vfcmpLe d a b k => Sys2Proof.Machine.execVfcmpLe d a b k s
  | .vfcmpUn d a b k => Sys2Proof.Machine.execVfcmpUn d a b k s
  | .vcvt d a z k t => Sys2Proof.Machine.execVcvt d a z k t s
  | .vpk d a z k t => Sys2Proof.Machine.execVpk d a z k t s
  | .vex2 d a k t => Sys2Proof.Machine.execVex2 d a k t s
  | .vlg2 d a k t => Sys2Proof.Machine.execVlg2 d a k t s
  | .vrcp d a k t => Sys2Proof.Machine.execVrcp d a k t s
  | .vrsq d a k t => Sys2Proof.Machine.execVrsq d a k t s
  | .vsqrt d a k t => Sys2Proof.Machine.execVsqrt d a k t s
  | .vsin d a k t => Sys2Proof.Machine.execVsin d a k t s
  | .vcos d a k t => Sys2Proof.Machine.execVcos d a k t s
  | .vrsumF32 d a k => Sys2Proof.Machine.execVrsumF32 d a k s
  | .vrmaxF32 d a k => Sys2Proof.Machine.execVrmaxF32 d a k s
  | .vld d a k t => Sys2Proof.Machine.execVld d a k t s
  | .vst d a k t => Sys2Proof.Machine.execVst d a k t s
  | .vlds d a im k t => Sys2Proof.Machine.execVlds d a im k t s
  | .vsts d a im k t => Sys2Proof.Machine.execVsts d a im k t s
  | .vldg d a im k t => Sys2Proof.Machine.execVldg d a im k t s
  | .vstg d a im k t => Sys2Proof.Machine.execVstg d a im k t s
  | .vclaim a => Sys2Proof.Machine.execVclaim a s
  | .vrel => Sys2Proof.Machine.execVrel s
  | .vsetl a => Sys2Proof.Machine.execVsetl a s
  | .vbc d a k => Sys2Proof.Machine.execVbc d a k s
  | .vmovgv d a im => Sys2Proof.Machine.execVmovgv d a im s
  | .vmovvg a im t => Sys2Proof.Machine.execVmovvg a im t s
  | .vmovvgD a im => Sys2Proof.Machine.execVmovvgD a im s
  | .vrng d im k t => Sys2Proof.Machine.execVrng d im k t s
  | .vfix d a im k => Sys2Proof.Machine.execVfix d a im k s
  | .vunfix d a im => Sys2Proof.Machine.execVunfix d a im s
  | .vslide d a im k => Sys2Proof.Machine.execVslide d a im k s
  | .vmpop a im => Sys2Proof.Machine.execVmpop a im s
  | .vacc d a im k t => Sys2Proof.Machine.execVacc d a im k t s
  | .mclaim a d => Sys2Proof.Machine.execMclaim a d s
  | .mrel a => Sys2Proof.Machine.execMrel a s
  | .mset a => Sys2Proof.Machine.execMset a s
  | .mget a => Sys2Proof.Machine.execMget a s
  | .mzero d t => Sys2Proof.Machine.execMzero d t s
  | .mbias a d t => Sys2Proof.Machine.execMbias a d t s
  | .mmul a b d t => Sys2Proof.Machine.execMmul a b d t s
  | .mmulg a b d t => Sys2Proof.Machine.execMmulg a b d t s
  | .mdrain a b d t => Sys2Proof.Machine.execMdrain a b d t s
  | .mwait d => Sys2Proof.Machine.execMwait d s
  | .mstop d => Sys2Proof.Machine.execMstop d s
  | .xset a => Sys2Proof.Machine.execXset a s
  | .xcopy a d c => Sys2Proof.Machine.execXcopy a d c s
  | .xstr a d c => Sys2Proof.Machine.execXstr a d c s
  | .xgat a b d c => Sys2Proof.Machine.execXgat a b d c s
  | .xmc a d c => Sys2Proof.Machine.execXmc a d c s
  | .xack a b d => Sys2Proof.Machine.execXack a b d s
  | .xwp a d c => Sys2Proof.Machine.execXwp a d c s
  | .xwait a d => Sys2Proof.Machine.execXwait a d s
  | .xkill a d => Sys2Proof.Machine.execXkill a d s
  | .bset a b z => Sys2Proof.Machine.execBset a b z s
  | .barr a d z => Sys2Proof.Machine.execBarr a d z s
  | .barw a d z => Sys2Proof.Machine.execBarw a d z s
  | .barwT a b d z => Sys2Proof.Machine.execBarwT a b d z s
  | .bstat a d z => Sys2Proof.Machine.execBstat a d z s
  | .rarr a b d => Sys2Proof.Machine.execRarr a b d s
  | .pbar a d => Sys2Proof.Machine.execPbar a d s
  | .waitw a b d c => Sys2Proof.Machine.execWaitw a b d c s
  | .qput a b d f => Sys2Proof.Machine.execQput a b d f s
  | .qget a b d n => Sys2Proof.Machine.execQget a b d n s
  | .qstat a d => Sys2Proof.Machine.execQstat a d s
  | .cput a b d => Sys2Proof.Machine.execCput a b d s
  | .cget a b d => Sys2Proof.Machine.execCget a b d s
  | .cnode a b d => Sys2Proof.Machine.execCnode a b d s
  | .cref b d => Sys2Proof.Machine.execCref b d s
  | .cdrop b d => Sys2Proof.Machine.execCdrop b d s
  | .croot a b d => Sys2Proof.Machine.execCroot a b d s
  | .cswap a b d => Sys2Proof.Machine.execCswap a b d s
  | .cout a b d c => Sys2Proof.Machine.execCout a b d c s
  | .cstat b d => Sys2Proof.Machine.execCstat b d s
  | .cstatHome a d => Sys2Proof.Machine.execCstatHome a d s
  | .apply a d => Sys2Proof.Machine.execApply a d s
  | .applyW a d => Sys2Proof.Machine.execApplyW a d s
  | .patch a b d => Sys2Proof.Machine.execPatch a b d s
  | .cread a d => Sys2Proof.Machine.execCread a d s
  | .join a d => Sys2Proof.Machine.execJoin a d s
  | .send a b d n => Sys2Proof.Machine.execSend a b d n s
  | .hret => Sys2Proof.Machine.execHret s
  | .exit => Sys2Proof.Machine.execExit s
  | .yield a b d => Sys2Proof.Machine.execYield a b d s
  | .resume a b d => Sys2Proof.Machine.execResume a b d s
  | .tid d z => Sys2Proof.Machine.execTid d z s
  | .stage d z => Sys2Proof.Machine.execStage d z s
  | .bal d => Sys2Proof.Machine.execBal d s
  | .sleep a d => Sys2Proof.Machine.execSleep a d s
  | .wake a d => Sys2Proof.Machine.execWake a d s
  | .jbeg => Sys2Proof.Machine.execJbeg s
  | .jend d => Sys2Proof.Machine.execJend d s
  | .shdone => Sys2Proof.Machine.execShdone s
  | .rsdone => Sys2Proof.Machine.execRsdone s
  | .uchg a d => Sys2Proof.Machine.execUchg a d s
  | .uown a d => Sys2Proof.Machine.execUown a d s
  | .uownSt d => Sys2Proof.Machine.execUownSt d s
  | .ucfgOwn a b d => Sys2Proof.Machine.execUcfgOwn a b d s
  | .ucfgTab a b d => Sys2Proof.Machine.execUcfgTab a b d s
  | .ucfgArb a d => Sys2Proof.Machine.execUcfgArb a d s
  | .csrr d n => Sys2Proof.Machine.execCsrr d n s
  | .csrw a n => Sys2Proof.Machine.execCsrw a n s
  | .csrx d a n => Sys2Proof.Machine.execCsrx d a n s
  | .trap c => Sys2Proof.Machine.execTrap c s
  | .tret => Sys2Proof.Machine.execTret s
  | .sysc a => Sys2Proof.Machine.execSysc a s
  | .syscNb a => Sys2Proof.Machine.execSyscNb a s
  | .brk c => Sys2Proof.Machine.execBrk c s
  | .cch a b d => Sys2Proof.Machine.execCch a b d s
  | .csave a b d => Sys2Proof.Machine.execCsave a b d s
  | .crest a b d => Sys2Proof.Machine.execCrest a b d s
  | .tlbi a => Sys2Proof.Machine.execTlbi a s
  | .tlbiAll => Sys2Proof.Machine.execTlbiAll s
  | .prst a d => Sys2Proof.Machine.execPrst a d s
  | .mark a => Sys2Proof.Machine.execMark a s
  | .dbrk d => Sys2Proof.Machine.execDbrk d s
  | .smpl a d => Sys2Proof.Machine.execSmpl a d s
  | .unassignedEncoding w => Sys2Proof.Machine.execUnassignedEncoding w s
  | .divideResult tid => Sys2Proof.Machine.execDivideResult tid s
  | .replyArrival tid => Sys2Proof.Machine.execReplyArrival tid s
  | .coucheInForce core => Sys2Proof.Machine.execCoucheInForce core s
  | .accessParcel src seq => Sys2Proof.Machine.execAccessParcel src seq s
  | .acknowledgement src seq => Sys2Proof.Machine.execAcknowledgement src seq s
  | .parcelResend src seq => Sys2Proof.Machine.execParcelResend src seq s
  | .parcelRefusedResend src seq => Sys2Proof.Machine.execParcelRefusedResend src seq s
  | .targetUnreachable src seq => Sys2Proof.Machine.execTargetUnreachable src seq s
  | .walkComplete hearth k => Sys2Proof.Machine.execWalkComplete hearth k s
  | .migrationRequest tid => Sys2Proof.Machine.execMigrationRequest tid s
  | .migrationParcel tid => Sys2Proof.Machine.execMigrationParcel tid s
  | .atomicRequestParcel src seq => Sys2Proof.Machine.execAtomicRequestParcel src seq s
  | .vectorBeat core => Sys2Proof.Machine.execVectorBeat core s
  | .matrixPlanePass core => Sys2Proof.Machine.execMatrixPlanePass core s
  | .operandLatchFilled core => Sys2Proof.Machine.execOperandLatchFilled core s
  | .copyDispatch core => Sys2Proof.Machine.execCopyDispatch core s
  | .copyBeat core ch => Sys2Proof.Machine.execCopyBeat core ch s
  | .granuleComplete core ch => Sys2Proof.Machine.execGranuleComplete core ch s
  | .copydone tid => Sys2Proof.Machine.execCopydone tid s
  | .arrivalParcel src seq => Sys2Proof.Machine.execArrivalParcel src seq s
  | .barwTimeout tid => Sys2Proof.Machine.execBarwTimeout tid s
  | .clusterBarrierArrival src seq => Sys2Proof.Machine.execClusterBarrierArrival src seq s
  | .waitwWake tid => Sys2Proof.Machine.execWaitwWake tid s
  | .waitwRetry tid => Sys2Proof.Machine.execWaitwRetry tid s
  | .queueCreate part q => Sys2Proof.Machine.execQueueCreate part q s
  | .queueRemove part q => Sys2Proof.Machine.execQueueRemove part q s
  | .nestPlacerRequest part => Sys2Proof.Machine.execNestPlacerRequest part s
  | .applyWRetry part => Sys2Proof.Machine.execApplyWRetry part s
  | .loopVerdictLoad part nest => Sys2Proof.Machine.execLoopVerdictLoad part nest s
  | .childfault tid => Sys2Proof.Machine.execChildfault tid s
  | .handlerParcel src seq => Sys2Proof.Machine.execHandlerParcel src seq s
  | .handlerResend src seq => Sys2Proof.Machine.execHandlerResend src seq s
  | .kloadRefresh cluster => Sys2Proof.Machine.execKloadRefresh cluster s
  | .balanceCheck core => Sys2Proof.Machine.execBalanceCheck core s
  | .wakeParcel src seq => Sys2Proof.Machine.execWakeParcel src seq s
  | .sleepTimeout tid => Sys2Proof.Machine.execSleepTimeout tid s
  | .faultQueuePut part => Sys2Proof.Machine.execFaultQueuePut part s
  | .verdictAction part record => Sys2Proof.Machine.execVerdictAction part record s
  | .syscallComplete part entry => Sys2Proof.Machine.execSyscallComplete part entry s
  | .deadlock part => Sys2Proof.Machine.execDeadlock part s
  | .coreFreeze core lostSlots lostLines lostEngines => Sys2Proof.Machine.execCoreFreeze core lostSlots lostLines lostEngines s
  | .crumbFree part k => Sys2Proof.Machine.execCrumbFree part k s
  | .crumbStoreEnable part => Sys2Proof.Machine.execCrumbStoreEnable part s
  | .crumbStoreDisable part => Sys2Proof.Machine.execCrumbStoreDisable part s
  | .raise => Sys2Proof.Machine.execRaise s
  | .fallCheck => Sys2Proof.Machine.execFallCheck s
  | .readmissionReport owner => Sys2Proof.Machine.execReadmissionReport owner s
  | .shedApply core => Sys2Proof.Machine.execShedApply core s
  | .readmissionApply core => Sys2Proof.Machine.execReadmissionApply core s
  | .shed tid => Sys2Proof.Machine.execShed tid s
  | .resumeTrap tid => Sys2Proof.Machine.execResumeTrap tid s
  | .allowanceExpiry tid => Sys2Proof.Machine.execAllowanceExpiry tid s
  | .budget tid => Sys2Proof.Machine.execBudget tid s
  | .moduleReset => Sys2Proof.Machine.execModuleReset s
  | .boardThermalLimit hot => Sys2Proof.Machine.execBoardThermalLimit hot s
  | .hdmAccess host addr n data => Sys2Proof.Machine.execHdmAccess host addr n data s
  | .notify host vf p => Sys2Proof.Machine.execNotify host vf p s
  | .runStart host vf => Sys2Proof.Machine.execRunStart host vf s
  | .runStop host vf => Sys2Proof.Machine.execRunStop host vf s
  | .flock host vf => Sys2Proof.Machine.execFlock host vf s
  | .claim host => Sys2Proof.Machine.execClaim host s
  | .handover host dest => Sys2Proof.Machine.execHandover host dest s
  | .controlLoss => Sys2Proof.Machine.execControlLoss s
  | .registerWrite host vf off v => Sys2Proof.Machine.execRegisterWrite host vf off v s
  | .launch part => Sys2Proof.Machine.execLaunch part s
  | .applyCommand part => Sys2Proof.Machine.execApplyCommand part s
  | .setstarter part => Sys2Proof.Machine.execSetstarter part s
  | .copy part => Sys2Proof.Machine.execCopy part s
  | .signalWake part => Sys2Proof.Machine.execSignalWake part s
  | .signalArrival part => Sys2Proof.Machine.execSignalArrival part s
  | .signalStore part => Sys2Proof.Machine.execSignalStore part s
  | .wakeCommand part => Sys2Proof.Machine.execWakeCommand part s
  | .hostWakeComplete part k => Sys2Proof.Machine.execHostWakeComplete part k s
  | .checkpoint part => Sys2Proof.Machine.execCheckpoint part s
  | .reset part => Sys2Proof.Machine.execReset part s
  | .functionLevelReset part => Sys2Proof.Machine.execFunctionLevelReset part s
  | .pcreate => Sys2Proof.Machine.execPcreate s
  | .presize => Sys2Proof.Machine.execPresize s
  | .pdestroy => Sys2Proof.Machine.execPdestroy s
  | .owner => Sys2Proof.Machine.execOwner s
  | .moduleCheckpoint => Sys2Proof.Machine.execModuleCheckpoint s
  | .restore => Sys2Proof.Machine.execRestore s
  | .sendDescriptor part endpoint => Sys2Proof.Machine.execSendDescriptor part endpoint s
  | .packetPlacement sender msg part ep roff len tag off data => Sys2Proof.Machine.execPacketPlacement sender msg part ep roff len tag off data s
  | .messageStatus msg code => Sys2Proof.Machine.execMessageStatus msg code s
  | .linkTimeout msg => Sys2Proof.Machine.execLinkTimeout msg s
  | .triggerFlits head tail => Sys2Proof.Machine.execTriggerFlits head tail s
  | .barrierArrivalFlit link flit => Sys2Proof.Machine.execBarrierArrivalFlit link flit s
  | .barrierReleaseFlit link flit => Sys2Proof.Machine.execBarrierReleaseFlit link flit s
  | .linkDown link flit => Sys2Proof.Machine.execLinkDown link flit s
  | .timeFlit link flit => Sys2Proof.Machine.execTimeFlit link flit s
  | .timeHighFlit link flit => Sys2Proof.Machine.execTimeHighFlit link flit s
  | .timeFlitSend link => Sys2Proof.Machine.execTimeFlitSend link s
  | .debugStop tid => Sys2Proof.Machine.execDebugStop tid s
  | .debugRelease tid => Sys2Proof.Machine.execDebugRelease tid s
  | .breakpoint tid => Sys2Proof.Machine.execBreakpoint tid s
  | .coreHalt core => Sys2Proof.Machine.execCoreHalt core s
  | .coreUnhalt core => Sys2Proof.Machine.execCoreUnhalt core s
  | .settled core => Sys2Proof.Machine.execSettled core s
  | .debugRegisterAccess host core data => Sys2Proof.Machine.execDebugRegisterAccess host core data s
  | .scorePulseTick => Sys2Proof.Machine.execScorePulseTick s
  | .matrixCommandCycle core => Sys2Proof.Machine.execMatrixCommandCycle core s
  | .modeChangeApply core => Sys2Proof.Machine.execModeChangeApply core s
  | .correctableLinkError src seq => Sys2Proof.Machine.execCorrectableLinkError src seq s
  | .signalFabricLinkFailure link => Sys2Proof.Machine.execSignalFabricLinkFailure link s
  | .linkTraining link delay => Sys2Proof.Machine.execLinkTraining link delay s
  | .timeHighFlitSend link => Sys2Proof.Machine.execTimeHighFlitSend link s
  | .backingLinkDown port => Sys2Proof.Machine.execBackingLinkDown port s
  | .backingLinkUp port => Sys2Proof.Machine.execBackingLinkUp port s
  | .hostSnoop host addr => Sys2Proof.Machine.execHostSnoop host addr s
  | .packetLossResend msg off => Sys2Proof.Machine.execPacketLossResend msg off s
  | .counterCellCycle core activity => Sys2Proof.Machine.execCounterCellCycle core activity s
  | .debugControlWrite host off v => Sys2Proof.Machine.execDebugControlWrite host off v s

end Sys2Proof.Machine
end

