-- ==== Sys2Proof/Machine/Turn.lean ====
section
/-! DEFINITION. What a step does: the issue boundary of the slot that the couche names (R36, R77, R87, R88, R344), fetching
(R99), the rows that a store raises in its cc, and the turns of a cc in the order of R116, R241 and R343. Definitions that
name a row of the table are marked noncomputable for the reason given in Decode. -/

namespace Sys2Proof.Machine

/-! ### The slot of the position (R77, R83, R87, R371) -/

/-- The thread that the couche position of this cc names, if any. -/
def State.slotNow (s : State) (core : Nat) : Option Nat :=
  ((s.core core).couche.getD ((s.cc - (s.core core).base) % 32) none).map fun k => 16 * core + k

/-- Positions of the couche below the index that name a slot. -/
def Core.before (c : Core) (slot idx : Nat) : Nat := ((c.couche.take idx).filter fun x => x == some slot).length

/-- Under DEGRADE only the first SHARE positions of a rotation serve a thread (R87). -/
def State.withinShare (s : State) (tid : Nat) (t : Thread) : Bool :=
  let c := s.core (coreOf tid)
  s.threadShed tid t != 2 || decide (c.before (slotOf tid) ((s.cc - c.base) % 32) < (s.owner t.owner).share)

/-- Until the features are locked, only the service core's threads of a partition run (R371). -/
def State.partRuns (s : State) (tid : Nat) (t : Thread) : Bool :=
  match s.part t.part with
  | some p => p.flock || coreOf tid == p.svc
  | none => true

/-- The thread of the position may issue in this cc. -/
def State.canIssue (s : State) (tid : Nat) (t : Thread) : Bool :=
  s.ready tid t && s.withinShare tid t && s.partRuns tid t && (s.core (coreOf tid)).lastIssue != some s.cc

/-! ### The boundary (R36 step 1, R88, R344, R298) -/

/-- The event that is applied at the boundary of a ready thread before its next word, in order: the end of the allowance, BUDGET, SHED, RESUME, DEADLOCK, COPYDONE and CHILDFAULT. -/
noncomputable def State.boundary (s : State) (tid : Nat) (t : Thread) : Option Out :=
  if t.allowanceDue then some (exec (.allowanceExpiry tid) s)
  else if s.budgetDue tid t then some (exec (.budget tid) s)
  else if s.shedDue tid t then some (exec (.shed tid) s)
  else if s.resumeDue tid t then some (exec (.resumeTrap tid) s)
  else match s.deadlockFor tid t with
    | some v => some (.next (s.takeDeadlock tid t v))
    | none =>
      if s.pendDue tid t then
        match t.pend with
        | .copydone _ _ :: _ => some (exec (.copydone tid) s)
        | _ => some (exec (.childfault tid) s)
      else none

/-! ### Fetch and decode (R36, R99, R1) -/

/-- The word at the pc: from a global page mapped with X, else ADDR or PAGE at the target. DESIGN CHOICE: a pc in the global window that
is no multiple of 4, which only a written TPC, a handler address or a debugger can give, raises ADDR there with TVAL = the pc (log 66). -/
def State.fetch (s : State) (t : Thread) (k : BitVec 32 → Out) : Out :=
  match s.window t.part (coreOf s.cur) t.pc with
  | some (.global a) =>
    if a % 4 ≠ 0 then s.addr t t.pc
    else
      s.translate t a fun s r =>
        match r with
        | .error reason => s.pageFault t t.pc reason
        | .ok e =>
          let reason := s.leafReason t.part t.sec .fetch e.leaf (a - e.base)
          if reason ≠ 0 then s.pageFault t t.pc reason
          else if !e.leaf.exists_ (a - e.base) then .fault (.noMemory e.leaf.tier (e.leaf.pa + (a - e.base)))
          else k (BitVec.ofNat 32 ((s.mem (.phys e.leaf.tier)).read (e.leaf.pa + (a - e.base)) 4))
  | _ => s.addr t t.pc

/-- The form belongs to a feature, CRUMB (1) or POD (2), of R371. -/
def featureOf (i : Instr) : Nat :=
  match i with
  | .cput _ _ _ | .cget _ _ _ | .cnode _ _ _ | .cref _ _ | .cdrop _ _ | .croot _ _ _ | .cswap _ _ _ | .cout _ _ _ _ | .cstat _ _
  | .cstatHome _ _ => 1
  | .pbar _ _ => 2
  | .bset _ _ z => if z = .pod then 2 else 0
  | .bstat _ _ z => if z = .pod then 2 else 0
  | _ => 0

/-- The thread's partition has accepted the feature of a form. -/
def State.featured (s : State) (t : Thread) (i : Instr) : Bool :=
  match s.part t.part with
  | some p => featureOf i == 0 || p.accepts (featureOf i)
  | none => true

/-- The instruction of a word, as the thread's partition has it: a word that is none is UNASSIGNED_ENCODING. -/
noncomputable def State.instrOf (s : State) (t : Thread) (w : BitVec 32) : Instr :=
  match decode w with
  | .ok i => if s.featured t i then i else .unassignedEncoding w
  | .error _ => .unassignedEncoding w

/-- A word that has been fetched for the thread in the slot `cur`: a pending machine check is taken at it, else it runs. -/
noncomputable def State.runWord (s : State) (t : Thread) (w : BitVec 32) : Out :=
  match t.mcheck with
  | m :: _ => .next ({ s with ir := w }.takeMcheck s.cur t m w)
  | [] => exec (s.instrOf t w) { s with ir := w }

/-- The thread issues its next instruction in this cc. -/
noncomputable def State.issueThread (s : State) (tid : Nat) (t : Thread) : Out :=
  let s := { s.modCore (coreOf tid) fun c => { c with lastIssue := some s.cc } with cur := tid, ir := 0 }
  s.fetch t fun w => s.runWord t w

/-- A debug stop of the slot is due and its thread is at a boundary: it comes before every other event there, a suspension among them
(R88, R344). -/
def State.stopNow (s : State) (tid : Nat) (t : Thread) : Bool :=
  s.stopDue tid && t.stop == .none && t.block == .none && decide (t.readyAt ≤ s.cc)

/-- A turn in which the slot of the couche position issues (R77). An event at its boundary takes no position: the turn stays
for the instruction that follows it (R361). A position that is idle or whose thread may not issue is a bubble. -/
noncomputable def State.issue (s : State) (core : Nat) : Out :=
  match s.slotNow core with
  | none => .next s
  | some tid =>
    match s.thread tid with
    | none => .next s
    | some t =>
      if s.stopNow tid t then .next (s.applyStop tid)
      else if s.bpDue tid t then exec (.breakpoint tid) s
      else if !s.canIssue tid t then .next s
      else
        match ({ s with turns := .issue core :: s.turns } : State).boundary tid t with
        | some o => o
        | none => s.issueThread tid t

/-! ### Rows -/

/-- A row of the table that is an event and not an instruction word. -/
def isEvent (i : Instr) : Bool :=
  match i with
  | .unassignedEncoding _ => false
  | _ => (encode i).isEmpty

/-- A row whose moment the spec fixes, which the cc brings by itself: it is no free arrival of the agenda. -/
def isTimed (i : Instr) : Bool :=
  match i with
  | .coucheInForce _ | .vectorBeat _ | .matrixPlanePass _ | .matrixCommandCycle _ | .copyDispatch _ | .divideResult _ | .barwTimeout _
  | .sleepTimeout _ | .settled _ | .scorePulseTick | .fallCheck | .timeFlitSend _ | .timeHighFlitSend _ | .balanceCheck _
  | .kloadRefresh _ | .allowanceExpiry _ | .shed _ | .resumeTrap _ | .budget _ | .copydone _ | .childfault _ | .breakpoint _
  | .counterCellCycle _ _ | .queueCreate _ _ | .queueRemove _ _ | .verdictAction _ _ | .syscallComplete _ _ | .crumbStoreEnable _ | .crumbStoreDisable _ => true
  | _ => false

/-- A row that may come at any moment. -/
def isFree (i : Instr) : Bool := isEvent i && !isTimed i

/-- The arbiter takes what reaches it at the end of an ns (R343). -/
def isArbiter (i : Instr) : Bool :=
  match i with
  | .raise | .readmissionReport _ => true
  | _ => false

/-- Rank of a parcel from a source: threads in ascending ID, then the fabric unit, then the firmware column (R116); the mark of an ended
thread is no part of its ID. -/
def parcelRank (seg src : Nat) : Nat :=
  let n := src % 2 ^ 20
  if n < 2 ^ 18 then seg * 2 ^ 24 + n else if n < 2 ^ 19 + 2 ^ 8 then 15 * 2 ^ 24 + n else 14 * 2 ^ 24 + n

/-- The place of a row in its cc (R116, R241, R343, R344): changes of the arbiter and couches, then what the cores issue
(segment 4), engines, thread parcels, copies, crumb units, the placer, the fabric, hosts, what comes back to threads, limits, the arrivals of the
cc in the order of R241, what is evaluated after them (R242, R306), and the arbiter. DESIGN CHOICE (log 112): a patch that reaches the
pantry in the cc of an apply's entry read comes first, whichever thread is lower. -/
def rowRank (i : Instr) : Nat :=
  match i with
  | .settled c => c
  | .coreFreeze c _ _ _ => c
  | .shedApply c | .readmissionApply c | .modeChangeApply c => 2 ^ 24 + c
  | .coucheInForce c | .balanceCheck c => 2 * 2 ^ 24 + c
  | .vectorBeat c => 5 * 2 ^ 24 + c
  | .matrixPlanePass c => 6 * 2 ^ 24 + c
  | .matrixCommandCycle c => 7 * 2 ^ 24 + c
  | .operandLatchFilled c => 8 * 2 ^ 24 + c
  | .copyDispatch c => 9 * 2 ^ 24 + c
  | .accessParcel src _ | .atomicRequestParcel src _ | .clusterBarrierArrival src _ | .handlerParcel src _ | .wakeParcel src _ =>
    parcelRank 10 src
  | .copyBeat c _ => 11 * 2 ^ 24 + 8 * c
  | .granuleComplete c ch => 11 * 2 ^ 24 + 8 * c + 1 + ch
  | .arrivalParcel src _ => parcelRank 12 src
  | .crumbFree p _ | .faultQueuePut p => 13 * 2 ^ 24 + p
  | .nestPlacerRequest p | .applyWRetry p | .loopVerdictLoad p _ => 13 * 2 ^ 24 + 2 ^ 23 + p
  | .sendDescriptor _ _ | .packetPlacement _ _ _ _ _ _ _ _ _ | .messageStatus _ _ | .linkTimeout _ | .triggerFlits _ _
  | .barrierArrivalFlit _ _ | .barrierReleaseFlit _ _ | .linkDown _ _ | .timeFlit _ _ | .timeHighFlit _ _ => 14 * 2 ^ 24 + 2 ^ 20
  | .hdmAccess _ _ _ _ | .hostSnoop _ _ | .notify _ _ _ | .runStart _ _ | .runStop _ _ | .flock _ _ | .claim _ | .handover _ _
  | .registerWrite _ _ _ _ | .debugStop _ | .debugRelease _ | .coreHalt _ | .coreUnhalt _ | .debugRegisterAccess _ _ _
  | .debugControlWrite _ _ _ => 16 * 2 ^ 24
  | .replyArrival _ | .waitwWake _ | .acknowledgement _ _ | .divideResult _ | .walkComplete _ _ | .migrationRequest _
  | .migrationParcel _ | .parcelResend _ _ | .parcelRefusedResend _ _ | .handlerResend _ _ | .correctableLinkError _ _ =>
    17 * 2 ^ 24
  | .targetUnreachable src _ =>
    if 2 ^ 19 + 2 ^ 17 ≤ src ∧ src < 2 ^ 20 then 11 * 2 ^ 24 + 8 * ((src - (2 ^ 19 + 2 ^ 17)) / 4) + 5 else 17 * 2 ^ 24
  | .sleepTimeout tid | .waitwRetry tid => 18 * 2 ^ 24 + tid
  | .barwTimeout tid => 20 * 2 ^ 24 + 2 ^ 23 + 2 ^ 22 + tid
  | .deadlock _ => 20 * 2 ^ 24 + 2 ^ 23 + 2 ^ 22 + 2 ^ 20
  | .kloadRefresh _ | .timeFlitSend _ | .timeHighFlitSend _ => 19 * 2 ^ 24
  | .scorePulseTick => 21 * 2 ^ 24
  | .raise => 22 * 2 ^ 24
  | .readmissionReport o => 23 * 2 ^ 24 + o
  | .fallCheck => 25 * 2 ^ 24
  | _ => 15 * 2 ^ 24 + 2 ^ 20

/-- The place of a turn in its cc. -/
def Act.rank (a : Act) : Nat :=
  match a with
  | .issue c => 4 * 2 ^ 24 + c
  | .event i => rowRank i
  | .arrivals => 20 * 2 ^ 24 + 2 ^ 22
  | .soon => 20 * 2 ^ 24 + 2 ^ 23
  | .await _ | .gone _ | .again _ _ => 20 * 2 ^ 24
  | .waits => 20 * 2 ^ 24
  | .ucfg => 24 * 2 ^ 24
  | .cells c => 26 * 2 ^ 24 + c
  | .tick => 30 * 2 ^ 24

/-- A turn takes its place behind those of no higher rank. -/
def insertAct (a : Act) : List Act → List Act
  | [] => [a]
  | b :: l => if a.rank < b.rank then a :: b :: l else b :: insertAct a l

/-- Turns in the order of their ranks; those of one rank stay as they are given. -/
def inOrderOfRank (l : List Act) : List Act := l.foldl (fun acc a => insertAct a acc) []

/-- The row of an effect that a store has in its cc. -/
noncomputable def Urgent.row (u : Urgent) : Instr :=
  match u with
  | .queueCreate p q => .queueCreate p q
  | .queueRemove p q => .queueRemove p q
  | .verdict p f => .verdictAction p f
  | .syscall p e => .syscallComplete p e
  | .crumbOn p => .crumbStoreEnable p
  | .crumbOff p => .crumbStoreDisable p

/-! ### What is on its way -/

/-- The row by which a parcel arrives. -/
noncomputable def Parcel.row (p : Parcel) : Instr :=
  match p.acc with
  | .amo _ _ _ _ _ => .atomicRequestParcel p.src p.seq
  | .arrive _ _ => .arrivalParcel p.src p.seq
  | .clArrive _ _ => .clusterBarrierArrival p.src p.seq
  | .handler _ _ => .handlerParcel p.src p.seq
  | .wake _ => .wakeParcel p.src p.seq
  | _ => .accessParcel p.src p.seq

/-- Rows of a parcel: its arrival, its acknowledgement, and sending it again after a refusal (R123, R277) or 20 µs (R122). -/
noncomputable def State.parcelRows (s : State) (p : Parcel) : List Instr :=
  let again : List Instr :=
    if p.refused then
      if p.lastAt + 2000 ≤ s.time then [if p.acc.isHandler then Instr.handlerResend p.src p.seq else Instr.parcelRefusedResend p.src p.seq]
      else []
    else if p.copies != 0 || p.held then [p.row]
    else if p.lastAt + 20000 ≤ s.time && p.acks == 0 then [Instr.parcelResend p.src p.seq]
    else []
  if p.acks != 0 then Instr.acknowledgement p.src p.seq :: again else again

/-- Cores that hold a thread, ascending. -/
def State.peopled (s : State) : List Nat := (s.threads.map fun q => coreOf q.1).eraseDups

/-- Cores on which something may happen, ascending. -/
def State.awake (s : State) : List Nat :=
  (((s.cores.map Prod.fst) ++ s.peopled).foldl (fun (m : Map Unit) c => m.put c ()) []).map Prod.fst

/-- Rows of a core: changes to apply, the gather unit, beats in the order of round robin, granules. -/
noncomputable def State.coreDue (s : State) (core : Nat) : List Instr :=
  let c := s.core core
  let rows : List (List Instr) :=
    [match s.todo core with
      | [] => []
      | x :: _ => [match entryKind x with
        | .shed => .shedApply core
        | .readmit => .readmissionApply core
        | .other => .modeChangeApply core],
     if c.latch.isNone then [] else [.operandLatchFilled core],
     (c.robin.filter fun k => (c.chans.getD k {}).cur.isSome).map fun k => .copyBeat core k,
     ((numsFrom 0 4).filter fun k => (c.chans.getD k {}).cur.isSome).map fun k => .granuleComplete core k]
  rows.flatten

/-- The row of the command that a function starts next. -/
noncomputable def Cmd.row (c : Cmd) : List Instr :=
  let part := c.fn - 1
  match c.op with
  | 1 => [.launch part]
  | 2 => [.applyCommand part]
  | 3 => [.setstarter part]
  | 4 => [.copy part]
  | 5 => [match c.bits 1 0 2 with
    | 0 => .signalWake part
    | 1 => .signalArrival part
    | _ => .signalStore part]
  | 6 => [.wakeCommand part]
  | 7 => [.checkpoint part]
  | 8 => [.reset part]
  | 0x10 => [.pcreate]
  | 0x11 => [.presize]
  | 0x12 => [.pdestroy]
  | 0x13 => [.owner]
  | 0x14 => [.moduleCheckpoint]
  | 0x15 => [.restore]
  | _ => []

/-- Rows of the firmware column: commands at the head of each function and work in progress. -/
noncomputable def State.hostDue (s : State) : List Instr :=
  let rows : List (List Instr) :=
    [(0 :: s.fw.vfs.map Prod.fst).flatMap fun n => match s.head n with
      | some c => c.row
      | none => [],
     s.fw.copies.map fun x => .copy x.part,
     s.fw.ckpts.map fun x => if x.fn = 0 then .moduleCheckpoint else .checkpoint (x.fn - 1),
     if s.fw.resizes.isEmpty then [] else [.presize],
     if s.arb.relay.any fun r => r.1.isHost then [.owner] else [],
     if s.fw.lossAt.isSome then [.controlLoss] else [],
     s.waiters.filterMap fun w => match w.who with
      | .host p k => some (.hostWakeComplete p k)
      | .thread _ _ => none]
  rows.flatten

/-- Rows of a message that this module sends: to itself, its packets or its trigger and the report; where no report may come, the limit of
1 ms. -/
noncomputable def State.messageDue (s : State) (m : Message) : List Instr :=
  if !m.sending then []
  else if m.peer ≠ s.modId then [.linkTimeout m.id]
  else match m.code with
    | some c => if m.trig.isSome then [.messageStatus m.id c, .linkTimeout m.id] else [.messageStatus m.id c]
    | none =>
      if m.sigf then
        [.triggerFlits (flit 4 m.peer (m.dstEp + m.dstPart * 2 ^ 8 + s.modId * 2 ^ 15)) (flit 6 m.peer m.tag), .linkTimeout m.id]
      else (numsFrom 0 ((m.len + 4095) / 4096)).map fun k => .packetPlacement s.modId m.id 0 0 0 0 0 (4096 * k) []

/-- Rows of a partition's units: placer, fault queue, endpoints, crumb frees and DEADLOCK. -/
noncomputable def State.partDue (s : State) (n : Nat) (p : Partition) : List Instr :=
  let rows : List (List Instr) :=
    [if p.applies.isEmpty then [] else [.nestPlacerRequest n],
     if p.released then [.applyWRetry n] else [],
     if p.faultPut.isEmpty then [] else [.faultQueuePut n],
     p.nests.flatMap fun x => if x.verdicts.isEmpty then [] else [.loopVerdictLoad n x.record],
     (((numsFrom 0 p.store.crumbs.length).zip p.store.crumbs).filter fun x => !x.2.live).map fun x => .crumbFree n x.1,
     (numsFrom 0 256).flatMap fun e => if (s.endpoint n e).v then [.sendDescriptor n e] else [],
     [.deadlock n]]
  rows.flatten

/-- Free rows for everything that is on its way or under way in the module, each once. -/
noncomputable def State.due (s : State) : List Instr :=
  let rows : List (List Instr) :=
    [s.replies.map fun r => .replyArrival r.tid,
     s.wakes.map fun r => .waitwWake r.tid,
     s.parcels.flatMap s.parcelRows,
     s.hearths.flatMap fun h => (numsFrom 0 h.2.walks.length).reverse.map fun k => .walkComplete h.1 k,
     s.threads.flatMap fun q => match q.2.block with
      | .migrate _ _ => [.migrationRequest q.1]
      | .reply .waitw => [.waitwRetry q.1]
      | _ => [],
     s.moving.map fun m => .migrationParcel m.origin,
     s.awake.flatMap s.coreDue,
     s.parts.flatMap fun q => s.partDue q.1 q.2,
     s.hostDue,
     s.msgs.flatMap s.messageDue,
     .raise :: s.arb.reports.map fun o => .readmissionReport o]
  rows.flatten

/-! ### The turns of a cc -/

/-- The data of the next beat of a channel is ready in this cc: it moves within the LM of its core, or has come for it (R225). -/
def State.ownBeat (s : State) (core ch : Nat) : Bool :=
  match (s.chan core ch).cur with
  | some x =>
    match x.nextByte (s.xpaused core x) with
    | some (recv, i) => s.dataHere core x recv i && ((x.come recv i).isSome || ownWord core (s.xto core x recv i))
    | none => false
  | none => false

/-- The beats of a core, in the order of round robin: those whose data is ready, and those that come in this cc (R225). -/
noncomputable def State.beats (s : State) (core : Nat) (come : List Instr) : List Instr :=
  let named := fun (k : Nat) => come.any fun i => match i with
    | .copyBeat c n => c == core && n == k
    | _ => false
  ((s.core core).robin.filter fun k => s.ownBeat core k || named k).map fun k => .copyBeat core k

/-- The next granule of a channel lies in the LM of its core: it is complete in the cc of its last beat (R225). -/
def State.ownGranule (s : State) (core ch : Nat) : Bool :=
  match (s.chan core ch).cur with
  | some x =>
    x.form != .mc && match s.xto core x none x.comp with
      | .ok l => l.space == .lm core
      | .error _ => false
  | none => false

/-- Rows of a core whose cc the spec fixes. -/
noncomputable def State.coreTimed (s : State) (core : Nat) : List Instr :=
  let c := s.core core
  let rows : List (List Instr) :=
    [if c.dbg.halt && !c.dbg.settled then [.settled core] else [],
     if c.staged.isSome then [.coucheInForce core] else [],
     [.balanceCheck core],
     if c.vq.isEmpty then [] else [.vectorBeat core],
     if c.mq.isEmpty then [] else [.matrixPlanePass core, .matrixCommandCycle core],
     [.copyDispatch core],
     ((numsFrom 0 4).filter (s.ownGranule core)).map fun k => .granuleComplete core k]
  rows.flatten

/-- The ns in progress ends with this cc. -/
def State.nsEnds (s : State) : Bool := decide (18 ≤ s.tphase + 5)

/-- Clusters whose KLOAD is refreshed: those of a partition, and those with a state of their own (R280). -/
def State.loaded (s : State) : List Nat :=
  (s.parts.flatMap (fun p => p.2.clusters) ++ s.clusters.map Prod.fst ++ s.peopled.map clusterOf).eraseDups

/-- Rows whose cc the spec fixes. DESIGN CHOICE (log 113): KLOAD is refreshed in the cc whose number is a multiple of 128, R280 gives the
interval alone. -/
noncomputable def State.timed (s : State) : List Instr :=
  let rows : List (List Instr) :=
    [s.awake.flatMap s.coreTimed,
     s.threads.flatMap fun q => match q.2.block with
      | .divide due _ _ _ _ => if due ≤ s.cc then [.divideResult q.1] else []
      | _ => [],
     s.threads.flatMap fun q => [.barwTimeout q.1, .sleepTimeout q.1],
     if s.cc % 128 = 0 then s.loaded.map fun c => .kloadRefresh c else [],
     (numsFrom 0 6).flatMap fun l => [.timeFlitSend l, .timeHighFlitSend l],
     if s.spEn then [.scorePulseTick] else [],
     if s.nsEnds then [.fallCheck] else []]
  rows.flatten

/-- A row is a beat of a copy channel. -/
def isBeat (i : Instr) : Bool :=
  match i with
  | .copyBeat _ _ => true
  | _ => false

/-- Cores some cell of which counts (R409). -/
def State.counting (s : State) : List Nat := s.awake.filter fun c => (s.core c).dbg.cells.any fun x => bits x.cfg 15 1 == 1

/-- The turns of a cc: what the spec fixes, what the cores issue, the free rows that come in it, and its end. -/
noncomputable def State.cycle (s : State) (come : List Instr) : List Act :=
  let free := come.filter fun i => isFree i && !isBeat i && (!isArbiter i || s.nsEnds)
  let beats := s.awake.flatMap fun c => s.beats c come
  inOrderOfRank (((s.timed ++ beats ++ free).map Act.event).eraseDups ++ s.peopled.map Act.issue ++ [.waits, .arrivals, .soon] ++
    (if s.nsEnds then [.ucfg] else []) ++ s.counting.map Act.cells ++ [.tick])

/-- The turns of a new cc are laid down: with the next list of the agenda, or, without an agenda, with everything on its way. A partition
some thread of which is ready may raise DEADLOCK anew (R306). What units have to write at the start of a cc is written. -/
noncomputable def State.lay (s : State) : State :=
  let s := s.heldDrops.placerWrites.watchReady
  match s.agenda with
  | l :: rest => { s with agenda := rest, turns := s.cycle l }
  | [] => { s with turns := s.cycle s.due }

/-! ### What a turn does -/

/-- What comes to a thread of a frozen core is held (R307). -/
def State.heldRow (s : State) (i : Instr) : Bool :=
  match i with
  | .replyArrival tid | .waitwWake tid | .divideResult tid | .barwTimeout tid | .sleepTimeout tid | .waitwRetry tid =>
    (s.core (coreOf tid)).frozen
  | _ => false

/-- An instruction that has issued completes, as its condition has come to hold (R85). -/
noncomputable def State.resumeAwait (s : State) (tid : Nat) : Out :=
  match s.thread tid with
  | none => .next s
  | some t =>
    match t.block with
    | .await c w => if s.condMet tid t c then exec (s.instrOf t w) { s with cur := tid, ir := w } else .next s
    | _ => .next s

/-- A thread whose core is neither frozen nor lost. -/
def State.alive (s : State) (tid : Nat) : Bool := !(s.core (coreOf tid)).frozen && !(s.core (coreOf tid)).lost

/-- Instructions whose condition holds in this cc: one that has not issued is presented again from the next cc on (R85, R118). -/
def State.releaseWaits (s : State) : State :=
  s.allThreads fun tid t =>
    match t.block with
    | .until c => if s.alive tid && s.condMet tid t c then { t with block := .none, readyAt := s.cc + 1 } else t
    | _ => t

/-- Turns of instructions whose condition has come to hold; those that await the events of the cc (`soon`), or the others. -/
def State.awaited (s : State) (soon : Bool) : List Act :=
  (s.threads.filter fun q => s.alive q.1 && match q.2.block with
    | .await c _ => (c == .soon) == soon && s.condMet q.1 q.2 c
    | _ => false).map fun q => .await q.1

/-- The conditions that instructions wait for are looked at, handlings that end with their 256th instruction (R346), and restart records
that wait for room. -/
noncomputable def State.lookWaits (s : State) : State :=
  let l := (s.threads.filter fun q => s.alive q.1 && q.2.allowanceDue).map (fun q => Act.event (.allowanceExpiry q.1)) ++ s.awaited false
  let s := s.cores.foldl (fun s c => s.reenterLeft c.1) s.releaseWaits
  { s with turns := l ++ s.turns }

/-- The cc ends: meters are checked (R342), and TIME counts 5 ns in 18 cc (R9), a count that is to be omitted aside (R400). -/
def State.endCc (s : State) : State :=
  let s := { s.endMeters.renewXfers with signals := [] }
  if s.nsEnds then
    { s with
      cc := s.cc + 1
      tphase := s.tphase + 5 - 18
      time := if s.timeOmit then s.time else s.time + 1
      timeHeld := s.timeOmit
      timeOmit := false
      ns := s.ns + 1 }
  else { s with cc := s.cc + 1, tphase := s.tphase + 5 }

/-- Raw signals 0 to 31 of a core in this cc (R409). -/
def State.activity (s : State) (core : Nat) : BitVec 32 :=
  let c := s.core core
  let raised := fun (k : Nat) => s.signals.any fun x => x.1 == core && x.2 == k
  let issued := c.lastIssue == some s.cc && !raised 16
  let on := fun (k : Nat) =>
    if k < 16 then issued && s.slotNow core == some (16 * core + k)
    else if k = 16 then !issued
    else if k = 17 then c.vrun == some s.cc
    else if k = 18 then c.mrun == some s.cc
    else if k = 19 then c.xrun == some s.cc
    else raised k
  BitVec.ofNat 32 ((numsFrom 0 32).foldl (fun n k => n + bit (on k) * 2 ^ k) 0)

/-- A request of an ended thread has acted: nothing of the thread stays. -/
def State.goneOp (s : State) (tid : Nat) : State := { s.unwait tid with threads := s.threads.drop tid }

/-- What a turn does. -/
noncomputable def State.act (s : State) (a : Act) : Out :=
  match a with
  | .issue core => s.issue core
  | .event i => if isEvent i && !s.heldRow i then exec i s else .next s
  | .await tid => s.resumeAwait tid
  | .gone tid => .next (s.goneOp tid)
  | .again part k => exec (if k = 0 then .reset part else if k = 1 then .functionLevelReset part else .pdestroy) s
  | .waits => .next s.lookWaits
  | .soon => .next { s with turns := s.awaited true ++ s.turns }
  | .arrivals => .next s.applyArrivals
  | .cells core => exec (.counterCellCycle core (s.activity core)) s
  | .ucfg => .next s.answerAll
  | .tick => .next s.endCc

/-! ### One step -/

/-- One step: an effect that a store raised in this cc; else the next turn of the cc; else the turns of a cc are laid down. -/
noncomputable def State.stepOnce (s : State) : Out :=
  match s.urgent with
  | u :: l => exec u.row { s with urgent := l }
  | [] =>
    match s.turns with
    | a :: l => ({ s with turns := l } : State).act a
    | [] => .next s.lay

/-! ### Placing an instruction -/

/-- First address of the page that a placed instruction lies in. -/
def placedPage : Nat := 0x10000

/-- The partition that stands where none does: number 0 with cluster 1 of hearth 0, all features accepted and locked. -/
def placedPartition : Partition :=
  { newPartition false [1] 0x100000000 0 [(0, 0x400000)] with facc := 0x3F, flock := true }

/-- The thread in the slot `cur`, able to issue at once; where there is none, the service core's first thread (R413). -/
def State.placedThread (s : State) : Thread :=
  let t := (s.thread s.cur).getD { pc := 0x100000000, priv := 1 }
  { t with
    pc := if t.pc.toNat < 2 ^ 63 ∧ t.pc.toNat % 4 = 0 then t.pc else 0x100000000
    block := .none
    stop := .none
    readyAt := 0
    pend := []
    shedPend := none
    resumePend := none
    superPend := none
    budgetPend := none
    handling := if t.counted < 256 then t.handling else .none
    mcheck := []
    walkRes := none }

/-- The cc that pass before a position names the slot of `cur`. -/
def Core.untilSlot (c : Core) (slot cc : Nat) : Nat :=
  ((numsFrom 0 64).find? fun d =>
    c.couche.getD ((cc + d - c.base) % 32) none == some slot && c.lastIssue != some (cc + d)).getD 0

/-- The word laid down where the thread in the slot `cur` fetches next, at a cc whose position names the slot, as the next turn. -/
def State.placeWord (s : State) (w : BitVec 32) : State :=
  let t := s.placedThread
  let core := coreOf s.cur
  let base := t.pc.toNat / 2 ^ 16 * 2 ^ 16
  let leaf : Leaf :=
    { part := t.part, home := 0, tier := 0, cls := 1, r := true, w := false, x := true, sec := false, pa := placedPage, size := 2 ^ 16 }
  let s := if (s.part t.part).isSome then s.modPart t.part fun p => { p with flock := true } else s.setPart t.part placedPartition
  let s := s.modCore core fun c =>
    { c with
      tlb := ⟨t.part, base, leaf⟩ :: c.tlb
      ostate := c.ostate.drop t.owner
      frozen := false
      lost := false
      ckpt := false
      dbg := { c.dbg with halt := false, stops := [], bp := [0, 0, 0, 0] } }
  { s.setThread s.cur t with
    hbm := s.hbm.write (placedPage + t.pc.toNat % 2 ^ 16) 4 w.toNat
    cc := s.cc + (s.core core).untilSlot (slotOf s.cur) s.cc
    urgent := []
    turns := [.issue core] }

end Sys2Proof.Machine
end

