-- ==== Sys2Proof/Machine/Step.lean ====
section
/-! DEFINITION. One step of the machine, and the placing of an instruction where the next step fetches it. -/

namespace Sys2Proof.Machine

/-- One step (see `State.stepOnce`). -/
noncomputable def step (s : State) : Host.Outcome State Fault Refusal := s.stepOnce

/-- The instruction whose bits are w, numbered as the table of operations numbers them, placed where the next step fetches. -/
def State.withFetchWord (s : State) (nbits w : Nat) : State := s.placeWord (BitVec.ofNat 32 (w % 2 ^ nbits))

end Sys2Proof.Machine
end

