-- ==== Sys2Proof/Safety.lean ====
section
/-! DEFINITION. What counts as a safe run, and the invariants of the state that claims use. -/

namespace Sys2Proof.Machine

/-- A run of n steps that meets no fault and no refusal. -/
def safeFor : Nat → State → Prop
  | 0, _ => True
  | n + 1, s =>
    match step s with
    | .next s' => safeFor n s'
    | .fault _ => False
    | .refused _ => False

/-- Physical memory, every pantry share and every LM are in the canonical form of `Memory`, and so is what the checkpoint slots
hold of shares and LMs. -/
def State.memOk (s : State) : Prop :=
  s.hbm.wf = true ∧ s.far.wf = true ∧ s.host.wf = true ∧ (∀ x ∈ s.shares, Memory.wf x.2 = true) ∧
  (∀ x ∈ s.cores, x.2.lm.wf = true) ∧
  ∀ k ∈ s.fw.slots, (∀ x ∈ k.shares, Memory.wf x.2 = true) ∧ ∀ x ∈ k.lms, Memory.wf x.2 = true

/-- What a step answers keeps the canonical form. -/
def outOk : Out → Prop
  | .next s => s.memOk
  | _ => True

/-! ### The words of the claims -/

/-- A step, or the meaning of an instruction, answers a next state, and P holds of it. -/
def answers (o : Out) (P : State → Prop) : Prop := ∃ s', o = .next s' ∧ P s'

/-- The frame of an instruction of the thread in the slot `cur` of s: s' is s but for that thread, the meters of its core with the
note of what retires on it in this cc, and what the arbiter notes of charges. Every byte of memory reads as before. -/
structure State.elsewhere (s s' : State) : Prop where
  threads : ∀ tid, tid ≠ s.cur → s'.thread tid = s.thread tid
  cores : ∀ c, { s'.core c with meters := (s.core c).meters, retired := (s.core c).retired } = s.core c
  meters : ∀ c, c ≠ coreOf s.cur → s'.core c = s.core c
  arb : { s'.arb with hist := s.arb.hist } = s.arb
  bytes : ∀ l : Loc, s'.readLoc l 1 = s.readLoc l 1
  rest : { s' with threads := s.threads, cores := s.cores, arb := s.arb } = s

/-- t with the pc as given, ready to issue, counted as one more instruction while in shed or resume handling, unless it was counted when
it issued (R346, R347). -/
def Thread.retired (t : Thread) (pc : Word) : Thread :=
  { t with
    pc := pc
    counted := if t.handling = .none ∨ t.block.isAwait = true then t.counted else t.counted + 1
    block := .none
    walkRes := none
    noMig := false }

/-- The instruction i, issued at s, retires: the state is s1 but for the frame, and the thread is t with its pc as given. -/
def State.retiresIn (s s1 : State) (i : Instr) (t : Thread) (pc : Word) : Prop :=
  answers (exec i s) fun s' => s1.elsewhere s' ∧ s'.thread s.cur = some (t.retired pc)

/-- The instruction retires and changes nothing but its thread. -/
def State.retires (s : State) (i : Instr) (t : Thread) (pc : Word) : Prop := s.retiresIn s i t pc

/-- The instruction leaves its thread, as t, out of rotation for the reason b, and changes nothing else. -/
def State.blocks (s : State) (i : Instr) (t : Thread) (b : Block) : Prop :=
  exec i s = .next (s.setThread s.cur
    { t with counted := if t.handling = .none ∨ t.block.isAwait = true then t.counted else t.counted + 1, block := b })

end Sys2Proof.Machine
end

