-- ==== Sys2Proof/Certificates/Slice0/Obligations.lean ====
section
/-! DEFINITION. The statements for the provers. The results that they name are tables of the namespace Sys2Proof.Machine; a
statement with several parts is the conjunction of the definitions that say each part. -/

open Sys2Proof Sys2Proof.Machine

namespace Sys2Proof.Machine

/-! ### Integer forms (R91 to R95) -/

/-- Destination and value of the integer forms, as the tables of R92, R94 and R95 give them. -/
def intResult (t : Thread) : Instr → Option (GReg × Word)
  | .add d a b => some (d, t.rd a + t.rd b)
  | .sub d a b => some (d, t.rd a - t.rd b)
  | .mul d a b => some (d, t.rd a * t.rd b)
  | .mulh d a b => some (d, ((t.rd a).signExtend 128 * (t.rd b).signExtend 128).extractLsb' 64 64)
  | .mulhn d a b => some (d, ((t.rd a).setWidth 128 * (t.rd b).setWidth 128).extractLsb' 64 64)
  | .and d a b => some (d, t.rd a &&& t.rd b)
  | .or d a b => some (d, t.rd a ||| t.rd b)
  | .xor d a b => some (d, t.rd a ^^^ t.rd b)
  | .andn d a b => some (d, t.rd a &&& ~~~t.rd b)
  | .orn d a b => some (d, t.rd a ||| ~~~t.rd b)
  | .sll d a b => some (d, t.rd a <<< ((t.rd b).extractLsb' 0 6).toNat)
  | .srl d a b => some (d, t.rd a >>> ((t.rd b).extractLsb' 0 6).toNat)
  | .sra d a b => some (d, (t.rd a).sshiftRight ((t.rd b).extractLsb' 0 6).toNat)
  | .rol d a b => some (d, (t.rd a).rotateLeft ((t.rd b).extractLsb' 0 6).toNat)
  | .ror d a b => some (d, (t.rd a).rotateRight ((t.rd b).extractLsb' 0 6).toNat)
  | .slt d a b => some (d, if (t.rd a).toInt < (t.rd b).toInt then 1 else 0)
  | .sltn d a b => some (d, if (t.rd a).toNat < (t.rd b).toNat then 1 else 0)
  | .seq d a b => some (d, if t.rd a = t.rd b then 1 else 0)
  | .sne d a b => some (d, if t.rd a = t.rd b then 0 else 1)
  | .min d a b => some (d, if (t.rd a).toInt ≤ (t.rd b).toInt then t.rd a else t.rd b)
  | .max d a b => some (d, if (t.rd a).toInt ≤ (t.rd b).toInt then t.rd b else t.rd a)
  | .minn d a b => some (d, if (t.rd a).toNat ≤ (t.rd b).toNat then t.rd a else t.rd b)
  | .maxn d a b => some (d, if (t.rd a).toNat ≤ (t.rd b).toNat then t.rd b else t.rd a)
  | .sel d a b => some (d, if t.rd d = 0 then t.rd b else t.rd a)
  | .clz d a => some (d, (t.rd a).clz)
  | .ctz d a => some (d, (t.rd a).ctz)
  | .pop d a => some (d, (t.rd a).cpop)
  | .bswap d a =>
    some (d, (t.rd a).extractLsb' 0 8 ++ (t.rd a).extractLsb' 8 8 ++ (t.rd a).extractLsb' 16 8 ++ (t.rd a).extractLsb' 24 8 ++
      (t.rd a).extractLsb' 32 8 ++ (t.rd a).extractLsb' 40 8 ++ (t.rd a).extractLsb' 48 8 ++ (t.rd a).extractLsb' 56 8)
  | .brev d a => some (d, (t.rd a).reverse)
  | .sext d a n => some (d, ((t.rd a).setWidth (xwBits n)).signExtend 64)
  | .zext d a n => some (d, ((t.rd a).setWidth (xwBits n)).setWidth 64)
  | .bfx d a b =>
    some (d, (t.rd a >>> ((t.rd b).extractLsb' 0 6).toNat) &&& (BitVec.allOnes 64 >>> (63 - ((t.rd b).extractLsb' 8 6).toNat)))
  | .bfi d a b =>
    let pos := ((t.rd b).extractLsb' 0 6).toNat
    let mask : Word := (BitVec.allOnes 64 >>> (63 - ((t.rd b).extractLsb' 8 6).toNat)) <<< pos
    some (d, (t.rd d &&& ~~~mask) ||| ((t.rd a <<< pos) &&& mask))
  | .addi d a im => some (d, t.rd a + im.signExtend 64)
  | .andi d a im => some (d, t.rd a &&& im.setWidth 64)
  | .ori d a im => some (d, t.rd a ||| im.setWidth 64)
  | .xori d a im => some (d, t.rd a ^^^ im.setWidth 64)
  | .shiSll d a n => some (d, t.rd a <<< n.toNat)
  | .shiSrl d a n => some (d, t.rd a >>> n.toNat)
  | .shiSra d a n => some (d, (t.rd a).sshiftRight n.toNat)
  | .shiRol d a n => some (d, (t.rd a).rotateLeft n.toNat)
  | .shiRor d a n => some (d, (t.rd a).rotateRight n.toNat)
  | .slti d a im => some (d, if (t.rd a).toInt < (im.signExtend 64).toInt then 1 else 0)
  | .sltni d a im => some (d, if (t.rd a).toNat < (im.signExtend 64).toNat then 1 else 0)
  | .li d im => some (d, im.signExtend 64)
  | .lsh d a im => some (d, (t.rd a <<< 16) ||| im.setWidth 64)
  | _ => none

end Sys2Proof.Machine

/-- Every integer form retires with its result in its destination register, at the next word. -/
def Obligations.IntegerFormsCompute : Prop :=
  ∀ (s : State) (t : Thread) (i : Instr) (d : GReg) (v : Word),
    s.thread s.cur = some t → intResult t i = some (d, v) → s.retires i (t.wr d v) (t.pc + 4)

namespace Sys2Proof.Machine

/-! ### The divide unit (R85, R93, R101) -/

/-- Destination, value, FFLAGS, latency in cc and charge entry of the forms of the divide unit. -/
def divideResult (t : Thread) : Instr → Option (GReg × Word × Nat × Nat × Nat)
  | .div d a b => some (d, if t.rd b = 0 then BitVec.allOnes 64 else (t.rd a).sdiv (t.rd b), 0, 16, 0)
  | .divn d a b => some (d, if t.rd b = 0 then BitVec.allOnes 64 else t.rd a / t.rd b, 0, 16, 0)
  | .rem d a b => some (d, if t.rd b = 0 then t.rd a else (t.rd a).srem (t.rd b), 0, 16, 0)
  | .remn d a b => some (d, if t.rd b = 0 then t.rd a else t.rd a % t.rd b, 0, 16, 0)
  | .fdiv d a b =>
    let r := fp32.divV t.fp.frm (fp32.unpack (lo32 (t.rd a))) (fp32.unpack (lo32 (t.rd b)))
    some (d, BitVec.ofNat 64 r.1, r.2, 12, 2)
  | .fsqrt d a =>
    let r := fp32.sqrtV t.fp.frm (fp32.unpack (lo32 (t.rd a)))
    some (d, BitVec.ofNat 64 r.1, r.2, 14, 2)
  | _ => none

/-- A form of the divide unit issues: its thread leaves rotation, the result to come the form's latency after issue, and nothing
else changes. -/
def DivideFormsIssue : Prop :=
  ∀ (s : State) (t : Thread) (i : Instr) (d : GReg) (v : Word) (fl n e : Nat),
    s.thread s.cur = some t → divideResult t i = some (d, v, fl, n, e) → s.blocks i t (.divide (s.cc + n) d v fl e)

/-- The result is written in the cc it is due: destination, flags, the pc at the next word, ready from the next cc. -/
def DivideResultArrives : Prop :=
  ∀ (s : State) (t : Thread) (tid due fl e : Nat) (d : GReg) (v : Word),
    s.thread tid = some t → t.block = .divide due d v fl e → due ≤ s.cc →
    answers (exec (.divideResult tid) s) fun s' => ({ s with cur := tid } : State).elsewhere { s' with cur := tid } ∧
      s'.thread tid = some { (t.wr d v).raiseF fl with
        pc := t.pc + 4, block := .none, readyAt := s.cc + 1, walkRes := none, noMig := false }

/-! ### Control flow (R96 to R98) -/

/-- The condition of a branch, its sources and its offset. -/
def branchOf (t : Thread) : Instr → Option (Bool × BitVec 13)
  | .bEq a b o => some (decide (t.rd a = t.rd b), o)
  | .bNe a b o => some (decide (t.rd a ≠ t.rd b), o)
  | .bLt a b o => some (decide ((t.rd a).toInt < (t.rd b).toInt), o)
  | .bGe a b o => some (decide ((t.rd b).toInt ≤ (t.rd a).toInt), o)
  | .bLtn a b o => some (decide ((t.rd a).toNat < (t.rd b).toNat), o)
  | .bGen a b o => some (decide ((t.rd b).toNat ≤ (t.rd a).toNat), o)
  | .bBs a b o => some ((t.rd a).getLsbD ((t.rd b).toNat % 64), o)
  | _ => none

/-- The words of the branches, of j and jal and of jr and jalr, field by field; a jr with another gd or gb, and a jalr with
another gb, is no instruction. -/
def ControlFlowEncodings : Prop :=
  (∀ (a b : GReg) (o : BitVec 13),
    let word : BitVec 3 → BitVec 32 := fun c => (0x0C : BitVec 6) ++ c ++ BitVec.ofNat 5 a ++ BitVec.ofNat 5 b ++ o
    decode (word 0) = .ok (.bEq a b o) ∧ decode (word 1) = .ok (.bNe a b o) ∧ decode (word 2) = .ok (.bLt a b o) ∧
    decode (word 3) = .ok (.bGe a b o) ∧ decode (word 4) = .ok (.bLtn a b o) ∧ decode (word 5) = .ok (.bGen a b o) ∧
    decode (word 6) = .ok (.bBs a b o) ∧ ∀ i, decode (word 7) ≠ .ok i) ∧
  (∀ o : BitVec 26, decode ((0x0D : BitVec 6) ++ o) = .ok (.j o) ∧ decode ((0x0E : BitVec 6) ++ o) = .ok (.jal o)) ∧
  ∀ d a b : GReg,
    let word : BitVec 11 → BitVec 32 := fun fn => (0x0F : BitVec 6) ++ BitVec.ofNat 5 d ++ BitVec.ofNat 5 a ++ BitVec.ofNat 5 b ++ fn
    (decode (word 0) = .ok (.jr a) ↔ d = 0 ∧ b = 0) ∧ (decode (word 1) = .ok (.jalr d a) ↔ b = 0)

/-- A branch retires at its target, four times its signed offset from its own address, when its condition holds, and else at the
next word. It writes no register. -/
def BranchesRetire : Prop :=
  ∀ (s : State) (t : Thread) (i : Instr) (c : Bool) (o : BitVec 13),
    s.thread s.cur = some t → branchOf t i = some (c, o) →
    s.retires i t (if c then t.pc + 4 * o.signExtend 64 else t.pc + 4)

/-- j and jal retire at their target, jal with the next word's address in g31; jr and jalr at the address in a register that is
a multiple of 4, jalr with the link in its destination after the source is read. -/
def JumpsRetire : Prop :=
  ∀ (s : State) (t : Thread), s.thread s.cur = some t →
    (∀ o, s.retires (.j o) t (t.pc + 4 * o.signExtend 64)) ∧
    (∀ o, s.retires (.jal o) (t.wr 31 (t.pc + 4)) (t.pc + 4 * o.signExtend 64)) ∧
    (∀ a, (t.rd a).toNat % 4 = 0 → s.retires (.jr a) t (t.rd a)) ∧
    ∀ d a, (t.rd a).toNat % 4 = 0 → s.retires (.jalr d a) (t.wr d (t.pc + 4)) (t.rd a)

/-- A jump to an address that is no multiple of 4 takes ADDR at the jump, with the address in TVAL; no register is written. -/
def MisalignedJumpTraps : Prop :=
  ∀ (s : State) (t : Thread) (a : GReg), s.thread s.cur = some t → (t.rd a).toNat % 4 ≠ 0 →
    exec (.jr a) s = s.addr t (t.rd a) ∧ ∀ d, exec (.jalr d a) s = s.addr t (t.rd a)

/-! ### Scalar floating point (R100 to R105) -/

/-- Destination, value and FFLAGS of the scalar FP forms of register class: the operands are bits 31:0 of their registers, a
float result is written with bits 63:32 zero, an integer result to all 64 bits. -/
def fpResult (t : Thread) : Instr → Option (GReg × Word × Nat) :=
  let x := fun (r : GReg) => fp32.unpack (lo32 (t.rd r))
  let code := fun (d : GReg) (r : Nat × Nat) => some (d, BitVec.ofNat 64 r.1, r.2)
  let int := fun (d : GReg) (r : Int × Nat) => some (d, BitVec.ofInt 64 r.1, r.2)
  let sign := fun (r : GReg) => (t.rd r).getLsbD 31
  let signed := fun (d a : GReg) (b : Bool) =>
    some (d, ((t.rd a).setWidth 31).setWidth 64 ||| (if b then 0x80000000#64 else 0), 0)
  fun
  | .fadd d a b => code d (fp32.addV t.fp.frm (x a) (x b))
  | .fsub d a b => code d (fp32.addV t.fp.frm (x a) (x b).neg)
  | .fmul d a b => code d (fp32.mulV t.fp.frm (x a) (x b))
  | .fma d a b => code d (fp32.fmaV t.fp.frm (x a) (x b) (x d))
  | .fnma d a b => code d (fp32.fmaV t.fp.frm (x a).neg (x b) (x d))
  | .fmin d a b => code d (fp32.minmax false (lo32 (t.rd a)) (lo32 (t.rd b)))
  | .fmax d a b => code d (fp32.minmax true (lo32 (t.rd a)) (lo32 (t.rd b)))
  | .fcmpEq d a b => let r := fp32.compare 0 (lo32 (t.rd a)) (lo32 (t.rd b)); some (d, if r.1 then 1 else 0, r.2)
  | .fcmpLt d a b => let r := fp32.compare 1 (lo32 (t.rd a)) (lo32 (t.rd b)); some (d, if r.1 then 1 else 0, r.2)
  | .fcmpLe d a b => let r := fp32.compare 2 (lo32 (t.rd a)) (lo32 (t.rd b)); some (d, if r.1 then 1 else 0, r.2)
  | .fcmpUn d a b => let r := fp32.compare 3 (lo32 (t.rd a)) (lo32 (t.rd b)); some (d, if r.1 then 1 else 0, r.2)
  | .fclass d a => code d (fclassOf (lo32 (t.rd a)), 0)
  | .fcvtF32I64 d a => code d (cvtIF fp32 t.fp.frm (t.rd a).toInt)
  | .fcvtF32N64 d a => code d (cvtIF fp32 t.fp.frm (t.rd a).toNat)
  | .fcvtI64F32 d a => int d (cvtFI fp32 (rmOf t.fp.frm) (-2 ^ 63) (2 ^ 63 - 1) (lo32 (t.rd a)))
  | .fcvtN64F32 d a => int d (cvtFI fp32 (rmOf t.fp.frm) 0 (2 ^ 64 - 1) (lo32 (t.rd a)))
  | .fcvtI64F32Rtz d a => int d (cvtFI fp32 1 (-2 ^ 63) (2 ^ 63 - 1) (lo32 (t.rd a)))
  | .fcvtN64F32Rtz d a => int d (cvtFI fp32 1 0 (2 ^ 64 - 1) (lo32 (t.rd a)))
  | .fcvtF32I32 d a => code d (cvtIF fp32 t.fp.frm ((t.rd a).setWidth 32).toInt)
  | .fcvtI32F32 d a => int d (cvtFI fp32 (rmOf t.fp.frm) (-2 ^ 31) (2 ^ 31 - 1) (lo32 (t.rd a)))
  | .fcvtF16F32 d a => code d (cvtFF fp32 fp16 t.fp.frm (lo32 (t.rd a)))
  | .fcvtF32F16 d a => code d (cvtFF fp16 fp32 t.fp.frm (lo32 (t.rd a) % 2 ^ 16))
  | .fcvtBf16F32 d a => code d (cvtFF fp32 bf16 t.fp.frm (lo32 (t.rd a)))
  | .fcvtF32Bf16 d a => code d (cvtFF bf16 fp32 t.fp.frm (lo32 (t.rd a) % 2 ^ 16))
  | .fsgnj d a b => signed d a (sign b)
  | .fsgnjN d a b => signed d a (!sign b)
  | .fsgnjX d a b => signed d a (sign a != sign b)
  | _ => none

/-- What the five rounding modes give for the exact value m × 2^e at units of 2^q: the value lies between the two multiples
around it, an exact one is kept, and RNE, RTZ, RDN, RUP and RMM choose as R54 says. -/
def RoundingModes : Prop :=
  ∀ (neg : Bool) (m : Nat) (e q : Int), e < q →
    let u := 2 ^ (q - e).toNat
    let r := fun rm => (roundAt rm neg m e q).1
    (∀ rm, ((roundAt rm neg m e q).2 = true ↔ m % u ≠ 0) ∧ (m % u = 0 → r rm * u = m) ∧ (r rm = m / u ∨ r rm = m / u + 1)) ∧
    r 1 * u ≤ m ∧ (neg = false → r 2 = m / u) ∧ (neg = true → r 3 = m / u) ∧
    (neg = true → m ≤ r 2 * u) ∧ (neg = false → m ≤ r 3 * u) ∧
    2 * (r 0 * u) ≤ 2 * m + u ∧ 2 * m ≤ 2 * (r 0 * u) + u ∧ (2 * (m % u) = u → r 0 % 2 = 0) ∧
    2 * (r 4 * u) ≤ 2 * m + u ∧ 2 * m ≤ 2 * (r 4 * u) + u ∧ (2 * (m % u) = u → r 4 = m / u + 1)

/-- A finite code of a format is exact: rounding its datum to the format gives the code back and raises no flag. -/
def FormatCodesAreExact : Prop :=
  ∀ f ∈ [fp32, fp16, bf16, e4m3, e5m2], ∀ (c : Nat) (frm : Word) (s : Bool) (m : Nat) (e : Int),
    c < 2 * f.signBit → f.unpack c = .fin s m e → f.pack frm s m e = (c, 0)

end Sys2Proof.Machine

/-- The forms of the divide unit block for their latency and then write their result. -/
def Obligations.DivideForms : Prop :=
  Sys2Proof.Machine.DivideFormsIssue ∧
  Sys2Proof.Machine.DivideResultArrives

/-- Branches and jumps: their words, where each goes, the link, and ADDR at a target that is no multiple of 4. -/
def Obligations.ControlFlowForms : Prop :=
  Sys2Proof.Machine.ControlFlowEncodings ∧
  Sys2Proof.Machine.BranchesRetire ∧
  Sys2Proof.Machine.JumpsRetire ∧
  Sys2Proof.Machine.MisalignedJumpTraps

/-- Every scalar FP form of register class retires with its result in its destination register and its flags ORed into FFLAGS. -/
def Obligations.ScalarFpFormsCompute : Prop :=
  ∀ (s : State) (t : Thread) (i : Instr) (d : GReg) (v : Word) (fl : Nat),
    s.thread s.cur = some t → fpResult t i = some (d, v, fl) → s.retires i ((t.raiseF fl).wr d v) (t.pc + 4)

/-- What the five rounding modes give, and that rounding a datum of a format to it is exact. -/
def Obligations.FloatRounding : Prop :=
  Sys2Proof.Machine.RoundingModes ∧
  Sys2Proof.Machine.FormatCodesAreExact

namespace Sys2Proof.Machine

/-! ### Encodings (R23 to R36) -/

/-! ### The machine -/

/-- Module reset leaves TIME and the core cycle count at 0, no thread, no partition and no byte written, every core at the reset
couche with free contexts, tiles and meters, the arbiter at mode 0, and the firmware column with no boot code. -/
def ModuleResetState : Prop :=
  let s := State.reset
  s.cc = 0 ∧ s.time = 0 ∧ s.turns = [] ∧ s.threads = [] ∧ s.moving = [] ∧ s.parts = [] ∧ s.hbm = [] ∧ s.far = [] ∧ s.shares = [] ∧ s.parcels = [] ∧
  s.arb.mode = 0 ∧ s.arb.owners = [] ∧ s.fw.boot = 0 ∧ s.spEn = false ∧
  ∀ c, (s.core c).couche = resetCouche ∧ (s.core c).lm = [] ∧ (s.core c).meters = [] ∧ (s.core c).mode = 0 ∧
    (s.core c).locks = [] ∧ (∀ t, holdsCtx (s.core c) t = false ∧ holdsTile (s.core c) t = false) ∧
    ∀ b, s.bar c b = {}

/-- A thread's registers where nothing has written them. -/
def FreshThread : Prop :=
  let t : Thread := {}
  (∀ r, t.rd r = 0) ∧ t.fp.vl = 64 ∧ t.fp.vpos = 0 ∧ t.fp.frm = 8 ∧ t.fp.fflags = 0 ∧ t.mat.mprec = 0x7700 ∧
  t.mat.mfmt = 0x0707 ∧ t.mat.mgeom = 0x00401010 ∧ t.mat.mblk = 0x40 ∧ t.mat.mscale = 0 ∧ t.mat.macc = 0x300 ∧
  t.trap.tvec = 0 ∧ t.pcntC = 0 ∧ t.pcntH = 0 ∧ t.pcntM = 0

/-- g0 reads as zero whatever it holds, and a write to it changes nothing. -/
def RegisterZero : Prop :=
  ∀ (t : Thread) (r : GReg) (v : Word), t.rd 0 = 0 ∧ t.wr 0 v = t ∧ (r ≠ 0 → (t.wr r v).rd r = v) ∧
    ∀ r', r' ≠ r → (t.wr r v).rd r' = t.rd r'

/-- With a turn left in the cc and nothing that a store has raised, the step is that turn; with no turn left, the turns of a cc are laid
down: one for every core that holds a thread, and the end of the cc among them; no thread changes where the placer has nothing to
write. -/
def StepTakesTheNextTurn : Prop :=
  ∀ s : State, s.urgent = [] →
    (∀ a l, s.turns = a :: l → step s = ({ s with turns := l } : State).act a) ∧
    (s.turns = [] → answers (step s) fun s' => s'.cc = s.cc ∧ (s.starts = [] → s.sets = [] → s'.threads = s.threads) ∧
      Act.tick ∈ s'.turns ∧ ∀ core tid t, s'.thread tid = some t → coreOf tid = core → Act.issue core ∈ s'.turns)

/-- An instruction that has issued and waits completes in the turn in which its condition holds: its word runs again, in no position of
the slot. -/
def AwaitedInstructionCompletes : Prop :=
  ∀ (s : State) (tid : Nat) (t : Thread) (c : Cond) (w : BitVec 32) (i : Instr), s.thread tid = some t → t.block = .await c w →
    (s.condMet tid t c = false → State.act s (.await tid) = .next s) ∧
    (s.condMet tid t c = true → decode w = .ok i → s.featured t i = true →
      State.act s (.await tid) = exec i { s with cur := tid, ir := w })

/-- The end of a cc moves time: the next cc, and 5 ns for every 18 cc, a count that is to be omitted aside. -/
def TickMovesTime : Prop :=
  ∀ s : State, answers (State.act s .tick) fun s' => s'.cc = s.cc + 1 ∧
    (s.tphase + 5 < 18 → s'.tphase = s.tphase + 5 ∧ s'.time = s.time ∧ s'.ns = s.ns) ∧
    (18 ≤ s.tphase + 5 → s'.tphase = s.tphase + 5 - 18 ∧ (s'.time = if s.timeOmit then s.time else s.time + 1) ∧ s'.ns = s.ns + 1)

end Sys2Proof.Machine

/-- The word that the encoder writes for a well-formed instruction decodes to that instruction, with every operand. -/
def Obligations.EncodedWordDecodes : Prop := ∀ i : Instr, i.wf = true → ∀ w ∈ encode i, decode w = .ok i

/-- A word that decodes to an instruction is the one word that the encoder writes for it: every bit of it is an operand or a
bit that the encoding fixes, and the instruction obeys every rule on its operands. -/
def Obligations.DecodedWordEncodes : Prop :=
  ∀ (w : BitVec 32) (i : Instr), decode w = .ok i → encode i = [w] ∧ i.wf = true

/-- One word of each format, written out field by field. -/
def Obligations.WordsDecode : Prop :=
  decode ((1 : BitVec 6) ++ (3 : BitVec 5) ++ (4 : BitVec 5) ++ (5 : BitVec 5) ++ (1 : BitVec 6) ++ (0 : BitVec 5))
    = .ok (.sub 3 4 5) ∧
  decode ((2 : BitVec 6) ++ (1 : BitVec 5) ++ (31 : BitVec 5) ++ (0xFFF8 : BitVec 16)) = .ok (.addi 1 31 0xFFF8) ∧
  decode ((12 : BitVec 6) ++ (1 : BitVec 3) ++ (2 : BitVec 5) ++ (7 : BitVec 5) ++ (0x1FFF : BitVec 13)) = .ok (.bNe 2 7 0x1FFF) ∧
  decode ((14 : BitVec 6) ++ (0x3FFFFFE : BitVec 26)) = .ok (.jal 0x3FFFFFE) ∧
  decode ((16 : BitVec 6) ++ (9 : BitVec 5) ++ (8 : BitVec 5) ++ (3 : BitVec 3) ++ (1 : BitVec 2) ++ (0x7FF : BitVec 11))
    = .ok (.ld 9 8 .d .cluster 0x7FF) ∧
  decode ((24 : BitVec 6) ++ (1 : BitVec 4) ++ (2 : BitVec 4) ++ (3 : BitVec 4) ++ (4 : BitVec 3) ++ (0 : BitVec 6) ++
    (3 : BitVec 5)) = .ok (.vadd 1 2 3 4 .n16) ∧
  decode ((28 : BitVec 6) ++ (6 : BitVec 8) ++ (10 : BitVec 5) ++ (11 : BitVec 5) ++ (12 : BitVec 5) ++ (5 : BitVec 3))
    = .ok (.mmul 10 11 12 5) ∧
  decode ((34 : BitVec 6) ++ (6 : BitVec 5) ++ (0 : BitVec 5) ++ (0x123 : BitVec 12) ++ (0 : BitVec 4)) = .ok (.csrr 6 0x123) ∧
  decode ((9 : BitVec 6) ++ (3 : BitVec 5) ++ (0x1FFFFE : BitVec 21)) = .ok (.li 3 0x1FFFFE) ∧
  decode ((26 : BitVec 6) ++ (5 : BitVec 4) ++ (7 : BitVec 5) ++ (9 : BitVec 4) ++ (2 : BitVec 3) ++ (2 : BitVec 5) ++
    (3 : BitVec 5)) = .ok (.vlds 5 7 9 2 .n16) ∧
  decode (0 : BitVec 32) = .error .unassignedMajor

/-- What module reset leaves, the registers of a thread that nothing has written, and g0. The model's choice: what memory reads at reset,
and the reset values that no rule gives (log 4, 5). -/
def Obligations.ResetState : Prop :=
  Sys2Proof.Machine.ModuleResetState ∧
  Sys2Proof.Machine.FreshThread ∧
  Sys2Proof.Machine.RegisterZero

/-- The canonical form of every memory at reset. -/
def Obligations.ResetMemoryCanonical : Prop := State.reset.memOk

/-- Whatever row a step runs, the memories keep their canonical form, so that equal memories are equal data. -/
def Obligations.StepKeepsMemoryCanonical : Prop := ∀ s, s.memOk → outOk (step s)

/-- In the turn of a core whose couche position names a slot with a thread that may issue, with no stop and no breakpoint
due, no event at its boundary and no machine check pending, the word that the thread's pc translates to runs: the step is exec of the
instruction that it decodes to, at the state in which the position has issued, the core has looked the translation up and the word is
noted. -/
def Obligations.StepRunsTheDecodedInstruction : Prop :=
  ∀ (s s1 : State) (core tid : Nat) (l : List Act) (t : Thread) (va : Nat) (e : TlbEntry) (i : Instr) (w : BitVec 32),
    s.urgent = [] → s.turns = .issue core :: l → s1 = { s with turns := l } → s.slotNow core = some tid → s.thread tid = some t →
    s.stopNow tid t = false → s.bpDue tid t = false → s.canIssue tid t = true → s.boundary tid t = none → coreOf tid = core →
    t.mcheck = [] →
    s.window t.part core t.pc = some (.global va) → va % 4 = 0 → s.tlbFind core t.part va = some e →
    s.leafReason t.part t.sec .fetch e.leaf (va - e.base) = 0 → e.leaf.exists_ (va - e.base) = true →
    w = BitVec.ofNat 32 ((s.mem (.phys e.leaf.tier)).read (e.leaf.pa + (va - e.base)) 4) →
    decode w = .ok i → s.featured t i = true →
    let issued : State := { s1.modCore core fun c => { c with lastIssue := some s.cc } with cur := tid, ir := 0 }
    step s = exec i { issued.looked core t.part va with ir := w }

/-- The turns of a clock cycle: the next one is taken, an awaited instruction completes, TIME moves on. The model's reading: a step is one
turn, 5 ns go by in 18 cc from reset, and a wait's form is presented again or completes in its cc (log 1, 2, 36). -/
def Obligations.TurnsOfACycle : Prop :=
  Sys2Proof.Machine.StepTakesTheNextTurn ∧
  Sys2Proof.Machine.AwaitedInstructionCompletes ∧
  Sys2Proof.Machine.TickMovesTime

/-- The word of the table's row is laid down where the next step fetches it. From reset, the state so made, p, holds the one thread of the
service core's slot 0 of partition 0, at service privilege and at the kernel's address, in a page of which the word is read; the next
step runs the word's instruction at p with the turn taken, the position issued and the word noted. -/
def Obligations.PlacedWordRuns : Prop :=
  ∀ (w : BitVec 32) (i : Instr), decode w = .ok i →
    let p := State.reset.withFetchWord 32 w.toNat
    p.threads = [(0x1F0, { pc := 0x100000000, priv := 1 })] ∧ p.turns = [.issue 31] ∧ p.urgent = [] ∧ p.slotNow 31 = some 0x1F0 ∧
    p.parts.map Prod.fst = [0] ∧ p.hbm.read 0x10000 4 = w.toNat ∧
    step p = exec i { p.modCore 31 fun c => { c with lastIssue := some p.cc } with turns := [], cur := 0x1F0, ir := w }

namespace Sys2Proof.Machine

/-! ### The access sequence (R106, R107, R124) -/

/-- The state after the look for the translation of an address of the thread: one that the cluster TLB serves fills the core TLB. -/
def State.seen (s : State) (t : Thread) (va : Word) : State :=
  match s.window t.part (coreOf s.cur) va with
  | some (.global a) => s.looked (coreOf s.cur) t.part a
  | _ => s

/-- An access of the thread passes every check of R124 and goes on with the target. -/
def State.passes (s : State) (t : Thread) (va : Word) (n : Nat) (kind : AccessKind) (write user : Bool) (tg : Target) : Prop :=
  ∀ k, s.access t va n kind write user k = k (s.seen t va) tg

/-- The order of the checks: the window, then alignment, then at an LM the range locks and poison, at a pantry the fixed regions
and the range locks, and at a global address the leaf and the range locks; each failure takes its trap, and an access that passes
goes to the place that performs it. -/
def AccessSequenceOrder : Prop :=
  ∀ (s : State) (t : Thread) (va : Word) (n : Nat) (kind : AccessKind) (write user : Bool) (k : State → Target → Out),
    let me := coreOf s.cur
    let go := s.access t va n kind write user k
    (s.window t.part me va = none → go = s.addr t va) ∧
    (va.toNat % n ≠ 0 → go = s.addr t va) ∧
    (∀ off, s.window t.part me va = some (.lm me off) → va.toNat % n = 0 →
      go = if s.locked (.lm me) off n write then s.trap t 0x02 va
        else if s.isPoisoned me off then s.trap t 0x15 va 4 else k s (.own ⟨.lm me, off⟩)) ∧
    (∀ c off, c ≠ me → s.window t.part me va = some (.lm c off) → va.toNat % n = 0 →
      go = if s.locked (.lm c) off n write then s.trap t 0x02 va
        else if (s.core c).lost then s.trap t 0x15 va 5 else k s (.far (.lm c) ⟨.lm c, off⟩ 0)) ∧
    (∀ h off, s.window t.part me va = some (.pantry h off) → va.toNat % n = 0 →
      go = if t.priv = 0 ∧ s.closed t.part h off user = true then s.addr t va
        else if s.locked (.pantry h) off n write then s.trap t 0x02 va
        else k s (.far (.pantry h) ⟨.share t.part h, off⟩ (if h = hearthOf me then 1 else 2))) ∧
    (∀ a e, s.window t.part me va = some (.global a) → va.toNat % n = 0 → s.tlbFind me t.part a = some e →
      e.leaf.exists_ (a - e.base) = true →
      go =
        let s := s.seen t va
        let reason := s.leafReason t.part t.sec kind e.leaf (a - e.base)
        let l : Loc := ⟨.phys e.leaf.tier, e.leaf.pa + (a - e.base)⟩
        if reason ≠ 0 then s.pageFault t va reason
        else if s.locked .global a n write then s.trap t 0x02 va
        else if e.leaf.cls ≠ 0 ∨ e.leaf.home = me then k s (.own l)
        else if (s.core e.leaf.home).lost then s.trap t 0x15 va 5
        else k s (.far (.home e.leaf.home) l (ctrFor me e.leaf.home)))

/-- A global address with no cached translation starts a walk, or joins one of its partition that serves its page, or waits for a walk
slot. The instruction that is presented again goes on with the translation that the walk has brought, or with the reason of the failure
that it has left. -/
def MissStartsWalk : Prop :=
  ∀ (s : State) (t : Thread) (va : Nat) (k : State → Except Nat TlbEntry → Out),
    let h := hearthOf (coreOf s.cur)
    let page := va / 2 ^ 16
    (s.tlbFind (coreOf s.cur) t.part va = none → t.walkRes = none →
      answers (s.translate t va k) fun s' => ∃ t', s'.thread s.cur = some t' ∧ t'.pc = t.pc ∧ t'.g = t.g ∧
        ((t'.block = .walk page ∧ ∃ w ∈ (s'.hearth h).walks, s.walkServes t.part (page * 2 ^ 16) w = true ∧ s.cur ∈ w.tids) ∨
          (t'.block = .walkWait page ∧ s'.hearth h = s.hearth h ∧ 512 ≤ (s.hearth h).walks.length))) ∧
    (∀ e, s.tlbFind (coreOf s.cur) t.part va = some e →
      s.translate t va k = k (s.looked (coreOf s.cur) t.part va) (.ok e)) ∧
    ∀ r, s.tlbFind (coreOf s.cur) t.part va = none → t.walkRes = some (page, r) → s.translate t va k = k s (.error r)

/-! ### Loads, stores, atomics and updates (R24, R118, R125 to R128) -/

/-- The wait of the wt field is over: the named counters are zero and hold no error mark. -/
def Thread.waited (t : Thread) (w : Wt) : Prop :=
  match w with
  | .no => True
  | .cluster => t.errC = none ∧ t.pcntC = 0
  | .hearth => t.errH = none ∧ t.pcntH = 0
  | .all => t.errC = none ∧ t.errH = none ∧ t.errM = none ∧ t.pcntC = 0 ∧ t.pcntH = 0 ∧ t.pcntM = 0

/-- Bytes of an access size. -/
def accessBytes : Sz → Nat
  | .b | .bn => 1
  | .h | .hn => 2
  | .w | .wn => 4
  | .d => 8

/-- What a load of a size gives for the bytes v: b, h and w are sign-extended, the others zero-extended. -/
def loaded (z : Sz) (v : Nat) : Word :=
  match z with
  | .b => (BitVec.ofNat 8 v).signExtend 64
  | .h => (BitVec.ofNat 16 v).signExtend 64
  | .w => (BitVec.ofNat 32 v).signExtend 64
  | _ => BitVec.ofNat 64 v

/-- Destination, size, wait and address of the load forms. -/
def loadOf (t : Thread) : Instr → Option (GReg × Sz × Wt × Word)
  | .ld d a z w o => some (d, z, w, t.rd a + o.signExtend 64 * BitVec.ofNat 64 (accessBytes z))
  | .ldx d a b z w => some (d, z, w, t.rd a + t.rd b * BitVec.ofNat 64 (accessBytes z))
  | _ => none

/-- Value, size, wait and address of the store forms. -/
def storeOf (t : Thread) : Instr → Option (Word × Sz × Wt × Word)
  | .st d a z w o => some (t.rd d, z, w, t.rd a + o.signExtend 64 * BitVec.ofNat 64 (accessBytes z))
  | .stx d a b z w => some (t.rd d, z, w, t.rd a + t.rd b * BitVec.ofNat 64 (accessBytes z))
  | _ => none

/-- Kind, destination, operand, expected value, size, wait and address of the atomic forms. -/
def amoOf (t : Thread) : Instr → Option (AmoKind × GReg × Word × Word × Sz × Wt × Word)
  | .amoAdd d a b z w => some (.add, d, t.rd b, t.rd d, z, w, t.rd a)
  | .amoAnd d a b z w => some (.and, d, t.rd b, t.rd d, z, w, t.rd a)
  | .amoOr d a b z w => some (.or, d, t.rd b, t.rd d, z, w, t.rd a)
  | .amoXor d a b z w => some (.xor, d, t.rd b, t.rd d, z, w, t.rd a)
  | .amoMin d a b z w => some (.min, d, t.rd b, t.rd d, z, w, t.rd a)
  | .amoMax d a b z w => some (.max, d, t.rd b, t.rd d, z, w, t.rd a)
  | .amoMinn d a b z w => some (.minn, d, t.rd b, t.rd d, z, w, t.rd a)
  | .amoMaxn d a b z w => some (.maxn, d, t.rd b, t.rd d, z, w, t.rd a)
  | .amoSwap d a b z w => some (.swap, d, t.rd b, t.rd d, z, w, t.rd a)
  | .amoCas d a b z w => some (.cas, d, t.rd b, t.rd d, z, w, t.rd a)
  | _ => none

/-- Kind, operand, bytes, wait and address of the update forms. -/
def redOf (t : Thread) : Instr → Option (RedKind × Nat × Nat × Wt × Word)
  | .redAdd a b z w => some (.add, (t.rd b).toNat, accessBytes z, w, t.rd a)
  | .redAnd a b z w => some (.and, (t.rd b).toNat, accessBytes z, w, t.rd a)
  | .redOr a b z w => some (.or, (t.rd b).toNat, accessBytes z, w, t.rd a)
  | .redXor a b z w => some (.xor, (t.rd b).toNat, accessBytes z, w, t.rd a)
  | .redMin a b z w => some (.min, (t.rd b).toNat, accessBytes z, w, t.rd a)
  | .redMax a b z w => some (.max, (t.rd b).toNat, accessBytes z, w, t.rd a)
  | .redAddW128 a b w => some (.add, (t.rd b).toNat + 2 ^ 64 * (t.rd (hiReg b)).toNat, 16, w, t.rd a)
  | _ => none

/-- What an atomic on the n bytes a with operand b and expected value e leaves there: exact arithmetic on n bytes, signed for
min and max, unsigned for minn and maxn. -/
def atomicNew (k : AmoKind) (n a b e : Nat) : Nat :=
  let x := BitVec.ofNat (8 * n) a
  let y := BitVec.ofNat (8 * n) b
  match k with
  | .add => (x + y).toNat
  | .and => (x &&& y).toNat
  | .or => (x ||| y).toNat
  | .xor => (x ^^^ y).toNat
  | .min => if x.toInt ≤ y.toInt then x.toNat else y.toNat
  | .max => if x.toInt ≤ y.toInt then y.toNat else x.toNat
  | .minn => if x.toNat ≤ y.toNat then x.toNat else y.toNat
  | .maxn => if x.toNat ≤ y.toNat then y.toNat else x.toNat
  | .swap => y.toNat
  | .cas => if x = BitVec.ofNat (8 * n) e then y.toNat else x.toNat

/-- The update of the same name. -/
def RedKind.atomic : RedKind → AmoKind
  | .add => .add
  | .and => .and
  | .or => .or
  | .xor => .xor
  | .min => .min
  | .max => .max

/-- A parcel of the thread with its next number leaves its core: place, location, access, the counter that it raises (3: none), and the
page that its address lies in. -/
def State.sentOf (s : State) (t : Thread) (p : Place) (l : Loc) (a : Access) (k : Nat) (va : Word) : State :=
  let x : Parcel :=
    { src := s.cur, seq := t.seq, part := t.part, place := p, loc := l, acc := a, ctr := k, va := va, insn := s.ir,
      page := s.pageOf (coreOf s.cur) t.part l va, firstAt := s.time, lastAt := s.time }
  { s with parcels := s.parcels ++ [x], signals := s.signals ++ [(coreOf s.cur, 25)] }

/-- A request parcel of the thread. -/
def State.requestOf (s : State) (t : Thread) (p : Place) (l : Loc) (a : Access) (va : Word) : State := s.sentOf t p l a 3 va

/-- The thread has sent one more parcel. -/
def Thread.sent (t : Thread) : Thread := { t with seq := t.seq + 1 }

/-- Ordinary stores: from a thread in a slot, with an aligned address in the own LM that no range and no poison covers and the wait
of the form over, exec of st and of stx answers a next state, in which the bytes are stored and the thread is at the next word. -/
def StoresToOwnLm : Prop :=
  ∀ (s : State) (t : Thread) (d a b : GReg) (z : Sz) (w : Wt) (o : BitVec 11) (va : Word) (off : Nat),
    let me := coreOf s.cur
    let n := accessBytes z
    s.thread s.cur = some t → t.waited w → s.window t.part me va = some (.lm me off) → va.toNat % n = 0 →
    s.locked (.lm me) off n true = false → s.isPoisoned me off = false →
    (va = t.rd a + o.signExtend 64 * BitVec.ofNat 64 n →
      ∃ s', exec (.st d a z w o) s = .next s' ∧ (s'.core me).lm = (s.core me).lm.write off n (t.rd d).toNat ∧
        s'.thread s.cur = some (t.retired (t.pc + 4))) ∧
    (va = t.rd a + t.rd b * BitVec.ofNat 64 n →
      ∃ s', exec (.stx d a b z w) s = .next s' ∧ (s'.core me).lm = (s.core me).lm.write off n (t.rd d).toNat ∧
        s'.thread s.cur = some (t.retired (t.pc + 4)))

/-- Stores: at the own place the bytes are stored and the form retires; at another place a parcel leaves, raising the counter of
its distance, and the form retires at once; with that counter full the thread waits for room. -/
def StoresRetire : Prop :=
  ∀ (s : State) (t : Thread) (i : Instr) (v : Word) (z : Sz) (w : Wt) (va : Word),
    s.thread s.cur = some t → storeOf t i = some (v, z, w, va) → t.waited w →
    (∀ l, s.passes t va (accessBytes z) .store true false (.own l) →
      s.retiresIn (((s.seen t va).reach t va l).writeLoc l (accessBytes z) v.toNat) i t (t.pc + 4)) ∧
    ∀ p l k, s.passes t va (accessBytes z) .store true false (.far p l k) →
      (t.pcnt k < 1024 → s.retiresIn ((s.seen t va).sentOf t p l (.store (accessBytes z) v.toNat) k va) i
        (t.sent.setPcnt k (t.pcnt k + 1)) (t.pc + 4)) ∧
      (1024 ≤ t.pcnt k → exec i s = (s.seen t va).until t (.room k))

/-- Atomics: at the own place the old value is sign-extended into the destination and the new one stored; at another place that
is no home, or for a heavy thread, a handler's slot, a refused migration or a home with no slot to grant, a request parcel leaves; else
the thread leaves for the home once its counters are zero. -/
def AtomicsComplete : Prop :=
  ∀ (s : State) (t : Thread) (i : Instr) (k : AmoKind) (d : GReg) (b e : Word) (z : Sz) (w : Wt) (va : Word),
    s.thread s.cur = some t → amoOf t i = some (k, d, b, e, z, w, va) → z = .w ∨ z = .d → t.waited w →
    let n := accessBytes z
    (∀ l, s.passes t va n .store true false (.own l) →
      let old := s.readLoc l n
      let s0 := (s.seen t va).reach t va l
      let s1 := if k = .cas ∧ BitVec.ofNat (8 * n) old ≠ BitVec.ofNat (8 * n) e.toNat then s0
        else s0.writeLoc l n (atomicNew k n old b.toNat e.toNat)
      s.retiresIn s1 i (t.wr d ((BitVec.ofNat (8 * n) old).signExtend 64)) (t.pc + 4)) ∧
    (∀ p l c, s.passes t va n .store true false (.far p l c) →
      ((∀ h, p ≠ .home h) ∨ s.heavy s.cur = true ∨ slotOf s.cur = 15 ∨ t.noMig = true ∨
          (∀ h, p = .home h → s.grantFor h t = none) →
        exec i s = ((s.seen t va).requestOf t p l (.amo k n b.toNat e.toNat d) va).wait t.sent
          (.reply .atomic)) ∧
      ∀ h, p = .home h → s.heavy s.cur = false → slotOf s.cur ≠ 15 → t.noMig = false →
        s.grantFor h t ≠ none → t.waited .all → exec i s = (s.seen t va).hold t (.migrate h .atomic))

/-- Updates: at the own place the new value is stored and nothing is returned; at another place they are counted parcels like
stores. -/
def UpdatesComplete : Prop :=
  ∀ (s : State) (t : Thread) (i : Instr) (k : RedKind) (b n : Nat) (w : Wt) (va : Word),
    s.thread s.cur = some t → redOf t i = some (k, b, n, w, va) → t.waited w →
    (∀ l, s.passes t va n .store true false (.own l) →
      s.retiresIn (((s.seen t va).reach t va l).writeLoc l n (atomicNew k.atomic n (s.readLoc l n) b 0)) i t (t.pc + 4)) ∧
    ∀ p l c, s.passes t va n .store true false (.far p l c) → t.pcnt c < 1024 →
      s.retiresIn ((s.seen t va).sentOf t p l (.red k n b) c va) i (t.sent.setPcnt c (t.pcnt c + 1))
        (t.pc + 4)

/-! ### Waits, migration, fences and translation (R118, R120, R129 to R132) -/

/-- A wait for counters: an error mark takes MCHECK with its address and sub-cause; else the thread waits while a named counter
is not zero. -/
def CounterWait : Prop :=
  ∀ (s : State) (t : Thread) (c h m : Bool) (k : Thread → Out),
    (t.takeMark c h m = none → t.zeroed c h m = true → s.waitCounters t c h m k = k t) ∧
    (t.takeMark c h m = none → t.zeroed c h m = false → s.waitCounters t c h m k = s.until t (.counters c h m)) ∧
    ∀ e t', t.takeMark c h m = some (e, t') → s.waitCounters t c h m k = s.trap t' 0x15 e.va e.sub

/-- Fences: fence.core retires at once; the others retire when the counters of their scope are zero with no error mark, and else
block until they are. -/
def FencesRetire : Prop :=
  ∀ (s : State) (t : Thread), s.thread s.cur = some t →
    s.retires .fenceCore t (t.pc + 4) ∧
    ∀ i c h m, (i, c, h, m) ∈ [(Instr.fenceCluster, true, false, false), (.fenceHearth, true, true, false),
        (.fenceModule, true, true, true)] → t.takeMark c h m = none →
      (t.zeroed c h m = true → s.retires i t (t.pc + 4)) ∧ (t.zeroed c h m = false → s.blocks i t (.await (.counters c h m) s.ir))

/-- The instruction leaves its thread, as t, out of rotation for the reason b, and s1 is the state but for that. -/
def State.blocksIn (s s1 : State) (i : Instr) (t : Thread) (b : Block) : Prop :=
  exec i s = .next (s1.setThread s.cur
    { t with counted := if t.handling = .none ∨ t.block.isAwait = true then t.counted else t.counted + 1, block := b })

/-- What mig and migc do once they know their target: status 3 for a core that is no worker of the partition, 0 at the own
core, 1 for a heavy thread or a handler, and else the thread leaves for the target; s1 is the state but for that. -/
def migResult (s s1 : State) (t : Thread) (d : GReg) (i : Instr) (target : Nat) : Prop :=
  let ok := match s.part t.part with
    | some p => p.worker target
    | none => false
  if ok = false then s.retiresIn s1 i (t.wr d 3) (t.pc + 4)
  else if target = coreOf s.cur then s.retiresIn s1 i (t.wr d 0) (t.pc + 4)
  else if s.heavy s.cur = true ∨ slotOf s.cur = 15 then s.retiresIn s1 i (t.wr d 1) (t.pc + 4)
  else s.blocksIn s1 i t (.migrate target (.form d 1))

/-- migc takes its target from bits 13:0 of the source; mig takes the home of the page it names, and status 3 where that page
has none. -/
def MigrationFormsRetire : Prop :=
  ∀ (s : State) (t : Thread) (d a : GReg), s.thread s.cur = some t → t.waited .all → s.xbusy s.cur = false →
    migResult s s t d (.migc d a) ((t.rd a).toNat % 2 ^ 14) ∧
    ∀ va e, s.window t.part (coreOf s.cur) (t.rd a) = some (.global va) → s.tlbFind (coreOf s.cur) t.part va = some e →
      s.leafReason t.part t.sec .load e.leaf (va - e.base) = 0 →
      let s1 := s.seen t (t.rd a)
      if e.leaf.cls ≠ 0 then s.retiresIn s1 (.mig d a) (t.wr d 3) (t.pc + 4) else migResult s s1 t d (.mig d a) e.leaf.home

/-- pfl retires and changes nothing but the TLB that its look for a translation fills and, where the line can be read, the L1 that it goes
into, with what the counter cells see of both; xlat retires with the word of R132: 0
outside every window, bit 63 alone in an LM or pantry window, and else what the leaf says. -/
def PflXlatRetire : Prop :=
  ∀ (s : State) (t : Thread) (d a : GReg), s.thread s.cur = some t →
    (let s0 := match s.window t.part (coreOf s.cur) (t.rd a) with
      | some (.global va) => s.lookedFor t.part va
      | _ => s
    let s1 := fun (c : Nat) (l : Line) =>
      if (s0.core c).holdsLine l = true then s0 else { s0 with signals := s0.signals ++ [(c, 21)] }
    s.retiresIn (match s0.lineOf t (t.rd a) with
      | some (c, l) => (s1 c l).modCore c fun k => k.fillLine l
      | none => s0) (.pfl a) t (t.pc + 4)) ∧
    (s.window t.part (coreOf s.cur) (t.rd a) = none → s.retires (.xlat d a) (t.wr d 0) (t.pc + 4)) ∧
    (∀ c off, s.window t.part (coreOf s.cur) (t.rd a) = some (.lm c off) →
      s.retires (.xlat d a) (t.wr d 0x8000000000000000#64) (t.pc + 4)) ∧
    (∀ h off, s.window t.part (coreOf s.cur) (t.rd a) = some (.pantry h off) →
      s.retires (.xlat d a) (t.wr d 0x8000000000000000#64) (t.pc + 4)) ∧
    ∀ va e, s.window t.part (coreOf s.cur) (t.rd a) = some (.global va) → s.tlbFind (coreOf s.cur) t.part va = some e →
      s.retiresIn (s.seen t (t.rd a)) (.xlat d a)
        (t.wr d (xlatWord t.priv (s.leafReason t.part t.sec .load e.leaf (va - e.base)) e)) (t.pc + 4)

end Sys2Proof.Machine

/-- The checks of an access in their order, and a global address with no cached translation. The model's reading: a miss waits for its walk,
by which a walk of a larger page may serve it, and is presented again then (log 8, 101). -/
def Obligations.AccessSequence : Prop :=
  Sys2Proof.Machine.AccessSequenceOrder ∧
  Sys2Proof.Machine.MissStartsWalk

/-- Loads: at the own place the value is read at once and the reply that brings it is on its way; at another place a request parcel leaves.
In both cases the thread leaves rotation for the reply, and no byte changes. The model's reading: a load at its own place reads at issue,
and any other sends a request parcel, a direct window access too (log 10, 12). -/
def Obligations.LoadsComplete : Prop :=
  ∀ (s : State) (t : Thread) (i : Instr) (d : GReg) (z : Sz) (w : Wt) (va : Word),
    s.thread s.cur = some t → loadOf t i = some (d, z, w, va) → t.waited w →
    (∀ l, s.passes t va (accessBytes z) .load false true (.own l) →
      let v := loaded z (s.readLoc l (accessBytes z))
      exec i s = (((s.seen t va).reach t va l).reply { tid := s.cur, writes := [(d.val, v)], insn := s.ir, entry := 1, own := true }).wait t
        (.reply .load)) ∧
    ∀ p l k, s.passes t va (accessBytes z) .load false true (.far p l k) →
      exec i s = ((s.seen t va).requestOf t p l (.load (accessBytes z) z d) va).wait t.sent (.reply .load)

/-- Stores complete, and what they store. The model's reading: a store at another core's LM or at a pantry is a counted parcel (log 12); its
address is the model's own expression for it. -/
def Obligations.StoresComplete : Prop :=
  Sys2Proof.Machine.StoresToOwnLm ∧
  Sys2Proof.Machine.StoresRetire

/-- A store changes the bytes it stores and no other: every byte outside them reads as before, and in plain memory, outside the fixed
regions of a share that are more than bytes, they read as the low bytes of the value. -/
def Obligations.StoreFrame : Prop :=
  ∀ (s : State) (l : Loc) (n v : Nat), (∀ k, l.space = .phys k → k ≤ 2) →
    (∀ l' : Loc, (∀ k, l'.space = .phys k → k ≤ 2) → (l'.space ≠ l.space ∨ l'.off < l.off ∨ l.off + n ≤ l'.off) →
      (s.writeLoc l n v).readLoc l' 1 = s.readLoc l' 1) ∧
    ((∀ p h, l.space = .share p h → h = s.placing p →
        reservedOff l.off = false ∧ ¬(queueOff ≤ l.off ∧ l.off < 0x164000) ∧ ¬(0x144018 < l.off + n ∧ l.off < 0x144030)) →
      (s.writeLoc l n v).readLoc l n = v % 256 ^ n) ∧
    (s.writeLoc l n v).cur = s.cur ∧ (s.writeLoc l n v).threads = s.threads

/-- Atomics complete at their own place, leave a request, or migrate their thread; updates complete or are counted parcels. The model's
choice: an atomic that its home would refuse at issue goes as a request parcel at once, one that may migrate waits for its counters first,
and a direct window access is a request (log 61, 12). -/
def Obligations.AtomicForms : Prop :=
  Sys2Proof.Machine.AtomicsComplete ∧
  Sys2Proof.Machine.UpdatesComplete

/-- Waits for the posted counters, and the four fences. -/
def Obligations.FencesComplete : Prop :=
  Sys2Proof.Machine.CounterWait ∧
  Sys2Proof.Machine.FencesRetire

/-- mig, migc, pfl and xlat. The model's choice: which lines an L1 holds, and which goes when it is full (log 6). -/
def Obligations.TranslationForms : Prop :=
  Sys2Proof.Machine.MigrationFormsRetire ∧
  Sys2Proof.Machine.PflXlatRetire

namespace Sys2Proof.Machine

/-! ### Traps and returns (R297 to R301, R314) -/

/-- The thread t has entered a user-level handler: TPC, TCAUSE, TVAL, TSTAT2 and UT are written, the pc is the handler's address,
and every general register, the privilege, the owner and TVEC stand as before. -/
def Thread.entered (t t' : Thread) (handler tpc : Word) (code sub : Nat) (tval : Word) (insn : BitVec 32) (after : Bool) : Prop :=
  t'.pc = handler ∧ t'.ut = true ∧ t'.trap.tpc = tpc ∧ t'.trap.tcause = BitVec.ofNat 64 (code + 256 * sub) ∧
  t'.trap.tval = tval ∧ t'.trap.tstat2 = BitVec.ofNat 64 (insn.toNat + if after then 2 ^ 33 else 0) ∧
  t'.trap.tvec = t.trap.tvec ∧ t'.g = t.g ∧ t'.priv = t.priv ∧ t'.owner = t.owner ∧ t'.fp = t.fp ∧ t'.mat = t.mat ∧
  t'.cp = t.cp ∧ t'.block = .none

/-- The signal LOCKHIT of R409 that a trap raises on its core. -/
def State.hit (s : State) (tid code : Nat) : State :=
  { s with signals := s.signals ++ if code = 2 then [(coreOf tid, 20)] else [] }

/-- A synchronous user-level trap with a handler and UT = 0 enters the handler of TVEC and changes nothing but its thread. -/
def UserTrapEntry : Prop :=
  ∀ (s : State) (tid : Nat) (t : Thread) (code sub : Nat) (tval tpc : Word) (insn : BitVec 32) (after : Bool),
    code < 0x10 → sub < 256 → t.ut = false → t.handler ≠ 0 →
    ∃ t', s.trapAt tid t ⟨code, sub, tval⟩ tpc insn after = (s.hit tid code).setThread tid t' ∧
      t.entered t' (t.trap.tvec &&& ~~~3#64) tpc code sub tval insn after

/-- A service trap of a user thread parks it in the lowest free fault record, whose words it writes: VERDICT 0, the thread ID,
TPC, TCAUSE, TVAL, TSTAT, TSTAT2, the resume address and g1 to g6; the record's number is to go to the fault queue. A user-level
trap with UT = 1 is parked as DOUBLE with its code as SUB, and with TVEC = 0 under its own code. -/
def ServiceTrapParks : Prop :=
  ∀ (s : State) (tid : Nat) (t : Thread) (x : Partition) (f code sub : Nat) (tval tpc : Word) (insn : BitVec 32) (after : Bool),
    t.priv = 0 → s.part t.part = some x → lowestFree (x.faults.map Prod.fst) 0 4096 = some f → code < 0x18 → sub < 256 →
    let s' := s.trapAt tid t ⟨code, sub, tval⟩ tpc insn after
    let word := fun k => BitVec.ofNat 64 ((s'.mem (.share t.part x.placing)).read (0xC0000 + 128 * f + 8 * k) 8)
    let at_ := fun (c b : Nat) =>
      s'.thread tid = some { t with block := .parked f } ∧
      (∃ x', s'.part t.part = some x' ∧ x'.faults = x.faults.put f tid ∧ x'.faultPut = x.faultPut ++ [f]) ∧
      word 0 = 0 ∧ word 1 = BitVec.ofNat 64 tid ∧ word 2 = tpc ∧ word 3 = BitVec.ofNat 64 (c + 256 * b) ∧ word 4 = tval ∧
      word 5 = s.tstat tid t ∧ word 6 = BitVec.ofNat 64 (insn.toNat + if after then 2 ^ 33 else 0) ∧ word 7 = tpc ∧
      word 8 = t.rd 1 ∧ word 9 = t.rd 2 ∧ word 10 = t.rd 3 ∧ word 11 = t.rd 4 ∧ word 12 = t.rd 5 ∧ word 13 = t.rd 6
    (0x10 ≤ code → at_ code sub) ∧ (code < 0x10 → t.ut = true → at_ 0x17 code) ∧
      (code < 0x10 → t.ut = false → t.handler = 0 → at_ code sub)

/-- A service trap at service or monitor privilege enters TVEC when UT = 0 and it is not 0; else it is a DOUBLE that halts the
thread and reports it, to the service core or to the board controller; so is a user-level trap that comes while UT is 1. The sub-cause
of the DOUBLE is the code of the trap. -/
def ServiceTrapAtPrivilege : Prop :=
  ∀ (s : State) (tid : Nat) (t : Thread) (code sub : Nat) (tval tpc : Word) (insn : BitVec 32) (after : Bool),
    t.priv ≠ 0 → 0x10 ≤ code → code < 0x19 → code ≠ 0x17 → sub < 256 →
    (t.ut = false → t.handler ≠ 0 → ∃ t', s.trapAt tid t ⟨code, sub, tval⟩ tpc insn after = s.setThread tid t' ∧
      t.entered t' (t.trap.tvec &&& ~~~3#64) tpc code sub tval insn after) ∧
    ((t.ut = true ∨ t.handler = 0) → ∃ t', (s.trapAt tid t ⟨code, sub, tval⟩ tpc insn after).thread tid = some t' ∧
      t'.block = .halted ∧ t'.trap.tcause = BitVec.ofNat 64 (0x17 + 256 * code) ∧ t'.trap.tpc = tpc ∧ t'.g = t.g ∧
      (s.trapAt tid t ⟨code, sub, tval⟩ tpc insn after).fw.reports = s.fw.reports ++ [(tid, decide (t.priv = 2))]) ∧
    ∀ user, user < 0x10 → t.ut = true → ∃ t', (s.trapAt tid t ⟨user, sub, tval⟩ tpc insn after).thread tid = some t' ∧
      t'.block = .halted ∧ t'.trap.tcause = BitVec.ofNat 64 (0x17 + 256 * user) ∧ t'.trap.tval = tval

/-- The effect of trap is TRAP with the next word as its resume address, AFTER = 1 and its operand in TVAL; it retires. -/
def TrapForm : Prop :=
  ∀ (s : State) (t : Thread) (c : BitVec 12), s.thread s.cur = some t → t.ut = false → t.handler ≠ 0 →
    answers (exec (.trap c) s) fun s' => s.elsewhere s' ∧
      ∃ t', s'.thread s.cur = some t' ∧ t.entered t' (t.trap.tvec &&& ~~~3#64) (t.pc + 4) 7 0 (c.setWidth 64) s.ir true

/-- tret with UT = 1 returns to TPC with UT = 0, restoring no other register; with UT = 0 it is ILLEGAL. -/
def TretReturns : Prop :=
  ∀ (s : State) (t : Thread), s.thread s.cur = some t →
    (t.ut = true → t.handling = .none →
      s.retires .tret { t with ut := false, running := .none } t.trap.tpc) ∧
    (t.ut = false → exec .tret s = s.illegal t)

/-- brk takes BREAK with its operand in TVAL; with breaks armed it retires and stops its thread. -/
def BrkForm : Prop :=
  ∀ (s : State) (t : Thread) (c : BitVec 12), s.thread s.cur = some t →
    ((s.core (coreOf s.cur)).dbg.armbrk = false → exec (.brk c) s = s.trap t 0x16 (c.setWidth 64)) ∧
    ((s.core (coreOf s.cur)).dbg.armbrk = true → s.retires (.brk c) { t with stop := .stopped } (t.pc + 4))

/-- A word that no instruction has takes ILLEGAL with the word in TVAL. -/
def UnassignedEncodingTraps : Prop :=
  ∀ (s : State) (t : Thread) (w : BitVec 32), s.thread s.cur = some t →
    exec (.unassignedEncoding w) s = ({ s with ir := w } : State).trap t 0x10 (w.setWidth 64)

/-! ### State registers (R20 to R22, R313) -/

/-- A number that names no register, and a write of one whose fields are all read-only, are ILLEGAL; a privilege below the one
that bits 7:6 of the number ask is PRIV: none, 1 for writes, 2 for writes, 1. -/
def CsrChecks : Prop :=
  ∀ (s : State) (t : Thread) (d a : GReg) (n : BitVec 12), s.thread s.cur = some t →
    (csrOf n.toNat = none → exec (.csrr d n) s = s.illegal t ∧ exec (.csrw a n) s = s.illegal t ∧
      exec (.csrx d a n) s = s.illegal t) ∧
    ∀ r, csrOf n.toNat = some r →
      (r.ro = true → exec (.csrw a n) s = s.illegal t ∧ exec (.csrx d a n) s = s.illegal t) ∧
      (n.extractLsb' 6 2 = 3 → t.priv < 1 → exec (.csrr d n) s = s.priv t) ∧
      (r.ro = false → (n.extractLsb' 6 2 = 1 ∨ n.extractLsb' 6 2 = 3) → t.priv < 1 →
        exec (.csrw a n) s = s.priv t ∧ exec (.csrx d a n) s = s.priv t) ∧
      (r.ro = false → n.extractLsb' 6 2 = 2 → t.priv < 2 → exec (.csrw a n) s = s.priv t ∧ exec (.csrx d a n) s = s.priv t)

/-- KCOUCHE: the positions of the couche that name each slot, 4 bits a slot. -/
def couchePositions (c : List (Option Nat)) : Word :=
  BitVec.ofNat 64 ((numsFrom 0 16).foldl (fun acc k => acc + (c.filter fun x => x == some k).length % 16 * 16 ^ k) 0)

/-- UMODE: MODE and the standing of the thread's owner as its core has applied them, the handling it is in, and whether it is the
steward. -/
def modeWord (s : State) (t : Thread) : Word :=
  let hnd := match t.handling with
    | .none => 0
    | .shed => 1
    | .resume => 2
  let ost := match s.ostate (coreOf s.cur) t.owner with
    | .admitted => 0
    | .suspended => 1
    | .degraded => 2
    | .resuming _ => 3
  let o := s.owner t.owner
  BitVec.ofNat 64 ((if t.alwx then 2 ^ 11 else 0) + (if o.sv = true ∧ o.stid = s.cur then 2 ^ 10 else 0) + hnd * 2 ^ 8 + ost * 2 ^ 6 +
    (s.core (coreOf s.cur)).mode)

/-- MCAP: the owner's cap for both operands while it is shed under DEGRADE, and else 16. -/
def capWord (s : State) (t : Thread) : Word :=
  let cap := match (s.core (coreOf s.cur)).ostate.look t.owner with
    | some .degraded | some (.resuming false) => (s.owner t.owner).mcap
    | _ => 16
  BitVec.ofNat 64 (cap * 32 + cap)

/-- MCONT: what the thread's matrix restart records hold, or 0. -/
def contWord (t : Thread) : Word :=
  match t.mrec with
  | [] => 0
  | c :: l => BitVec.ofNat 64 (2 ^ 63 + (l.length + 1) * 2 ^ 61 + c.tile * 2 ^ 56 + c.blk * 2 ^ 48 + c.pa * 2 ^ 44 + c.pb * 2 ^ 40 + c.done)

/-- What the registers of the core, the cluster and the owner read as for a thread; all but the first four have their own write rules. -/
def sharedValues (s : State) (t : Thread) : List (BitVec 12 × Word) :=
  let core := s.core (coreOf s.cur)
  let o := s.owner t.owner
  [(0x308, (s.chan (coreOf s.cur) 0).xwp), (0x309, (s.chan (coreOf s.cur) 1).xwp), (0x30A, (s.chan (coreOf s.cur) 2).xwp),
   (0x30B, (s.chan (coreOf s.cur) 3).xwp), (0x207, contWord t), (0x208, capWord s t), (0x400, modeWord s t),
   (0x401, BitVec.ofNat 64 (core.from_ * 16 + if core.fall then 1 else 0)),
   (0x402, match core.meterOf t.owner with
     | some m => BitVec.ofNat 64 ((if m.job then 2 ^ 63 else 0) + (if m.rsent then 2 ^ 62 else 0) + (if m.bsent then 2 ^ 61 else 0) + m.meter % 2 ^ 48)
     | none => 0),
   (0x480, BitVec.ofNat 64 (o.mcap * 2 ^ 32 + o.xbw * 2 ^ 24 + o.share * 2 ^ 16 + (if o.pol then 2 ^ 8 else 0) + o.level)),
   (0x481, BitVec.ofNat 64 o.table), (0x484, BitVec.ofNat 64 (o.c.getD 0 0)), (0x485, BitVec.ofNat 64 (o.c.getD 1 0)),
   (0x486, BitVec.ofNat 64 (o.c.getD 2 0)), (0x487, BitVec.ofNat 64 (o.c.getD 3 0)),
   (0x500, (s.cluster (coreOf s.cur / 16)).kload), (0x5C0, couchePositions core.couche),
   (0x600, BitVec.ofNat 64 (s.timeAt (coreOf s.cur))), (0x601, BitVec.ofNat 64 s.modId)]

/-- What the registers of a thread read as. -/
def csrValues (s : State) (t : Thread) : List (BitVec 12 × Word) :=
  [(0x000, t.trap.tpc), (0x001, t.trap.tcause), (0x002, t.trap.tval), (0x003, t.trap.tvec), (0x004, t.trap.tstat2),
   (0x005, BitVec.ofNat 64 s.cur), (0x006, BitVec.ofNat 64 t.stageNo),
   (0x007, BitVec.ofNat 64 (t.pcntM * 2 ^ 32 + t.pcntH * 2 ^ 16 + t.pcntC)), (0x040, s.tstat s.cur t),
   (0x100, t.fp.vl), (0x101, t.fp.vpos), (0x102, t.fp.frm), (0x103, t.fp.fflags), (0x140, t.fp.starter),
   (0x200, t.mat.mprec), (0x201, t.mat.mfmt), (0x202, t.mat.mgeom), (0x203, t.mat.mblk), (0x204, t.mat.mscale),
   (0x205, t.mat.macc), (0x206, t.mstat), (0x300, t.cp.xsrc), (0x301, t.cp.xdst), (0x302, t.cp.xlen), (0x303, t.cp.xstride),
   (0x304, t.cp.xdim), (0x305, t.cp.xhnd), (0x306, t.cp.xmask)]

/-- csrr of any register, of the thread, its core, its cluster, its owner or the module, retires with its value, when no engine command
of the thread delays it; KCOUCHE asks service privilege. -/
def CsrReads : Prop :=
  ∀ (s : State) (t : Thread) (d : GReg) (n : BitVec 12) (v : Word), s.thread s.cur = some t →
    (n, v) ∈ csrValues s t ++ sharedValues s t → (n = 0x5C0 → 1 ≤ t.priv) →
    s.vbusy s.cur = false → s.mbusy s.cur 0xFF = false → t.poison = [] → s.retires (.csrr d n) (t.wr d v) (t.pc + 4)

/-- The owner's record after a write of v to ULVL, UCHG or UBUD0 to UBUD3: the fields of the register, and no budget above the level. -/
def ownerWritten (r : OwnerRec) (v : Word) : List (BitVec 12 × OwnerRec) :=
  let upTo := fun (level : Nat) (c : Nat → Nat) => (numsFrom 0 4).map fun k => if k ≤ level then c k else 0
  [(0x480, { r with
      level := v.toNat % 4
      pol := v.getLsbD 8
      share := (v.extractLsb' 16 4).toNat
      xbw := (v.extractLsb' 24 5).toNat
      mcap := (v.extractLsb' 32 5).toNat
      c := upTo (v.toNat % 4) fun k => r.c.getD k 0 }),
   (0x481, { r with table := v.toNat % 4 })] ++
  (numsFrom 0 4).map fun j => (BitVec.ofNat 12 (0x484 + j),
    { r with c := upTo r.level fun k => if k = j then v.toNat % 2 ^ 48 else r.c.getD k 0 })

/-- A write of the owner's registers at monitor privilege retires and gives the arbiter the changed record; one that would leave the record
invalid is ignored whole. csrx also gives the old value. -/
def OwnerRegisterWrites : Prop :=
  ∀ (s : State) (t : Thread) (a d : GReg) (n : BitVec 12) (r : OwnerRec) (v : Word), s.thread s.cur = some t → t.priv = 2 →
    (s.owner t.owner).c.length = 4 → (n, r) ∈ ownerWritten (s.owner t.owner) (t.rd a) → (n, v) ∈ sharedValues s t →
    let s1 := if s.validOwner t.owner r = true then s.writeOwner t.owner r else s
    s.retiresIn s1 (.csrw a n) t (t.pc + 4) ∧ s.retiresIn s1 (.csrx d a n) (t.wr d v) (t.pc + 4)

/-- The bits that a write of a register holds, for the registers that hold a mask of what is written. -/
def csrMasks : List (BitVec 12 × Word) :=
  [(0x000, ~~~0), (0x001, 0x1FFFF), (0x002, ~~~0), (0x003, ~~~3), (0x004, 0x2FFFFFFFF), (0x103, 0x1F), (0x140, ~~~0),
   (0x300, ~~~0), (0x301, ~~~0), (0x302, 0xFFFFFFFF), (0x303, ~~~0), (0x304, 0xFFFFF), (0x305, ~~~0), (0x306, 0xFFFF)]

/-- What the registers of a thread hold after a write of v: the masked value, or by their field rules. VL lies from 1 to 64, VPOS is held
with a restart record alone, FRM keeps RM for the codes 5 to 7, and the flags of MSTAT are cleared by ones, REFC with REF. -/
def csrSets (t : Thread) (v : Word) : List (BitVec 12 × Word) :=
  (csrMasks.map fun x => (x.1, v &&& x.2)) ++
  [(0x100, if v = 0 then 1 else if 64 ≤ v.toNat then 64 else v),
   (0x101, if t.vrec = [] then t.fp.vpos else v &&& 63),
   (0x102, if v.toNat % 8 < 5 then v &&& 15 else (v &&& 8) ||| (t.fp.frm &&& 7)),
   (0x200, v &&& 0xFF0F), (0x201, v &&& 0x3FFFF), (0x202, v &&& 0xFFFF1F1F), (0x203, v &&& 0x1FFF), (0x204, v), (0x205, v &&& 0x3FF),
   (0x206, t.mstat &&& ~~~(v &&& 0x3FF) &&& if v.getLsbD 8 then ~~~0xFF0000#64 else ~~~0)]

/-- csrw retires with the register at the written value under its mask or its field's rule, every other register of the thread as before;
csrx does the same and writes the old value to its destination. -/
def CsrWrites : Prop :=
  ∀ (s : State) (t : Thread) (d a : GReg) (n : BitVec 12) (w : Word), s.thread s.cur = some t → (n, w) ∈ csrSets t (t.rd a) →
    s.vbusy s.cur = false → s.mbusy s.cur 0xFF = false → t.poison = [] → (n = 0x140 → 1 ≤ t.priv) →
    ∃ t1 : Thread, s.csrRead s.cur t1 n.toNat = w ∧ t1.g = t.g ∧ t1.pc = t.pc ∧
      (∀ n' v, (n', v) ∈ csrValues s t → n' ≠ n → s.csrRead s.cur t1 n'.toNat = v) ∧
      s.retires (.csrw a n) t1 (t.pc + 4) ∧
      s.retires (.csrx d a n) (t1.wr d (s.csrRead s.cur t n.toNat)) (t.pc + 4)

/-- A write of TSTAT retires, and may lower PRIV and never raises it; no other register of the thread changes. -/
def PrivilegeOnlyFalls : Prop :=
  ∀ (s : State) (t : Thread) (a d : GReg), s.thread s.cur = some t → 1 ≤ t.priv →
    let r := s.csrWrite t 0x040 (t.rd a)
    let t1 := { t with priv := if t.priv < (t.rd a).toNat % 4 then t.priv else (t.rd a).toNat % 4 }
    r.2 = t1 ∧ r.1.threads = s.threads ∧ s.retiresIn r.1 (.csrw a 0x040) t1 (t.pc + 4) ∧
      s.retiresIn r.1 (.csrx d a 0x040) (t1.wr d (s.tstat s.cur t)) (t.pc + 4)

end Sys2Proof.Machine

/-- Entering a user-level trap, trap, and the return by tret. -/
def Obligations.UserTraps : Prop :=
  Sys2Proof.Machine.UserTrapEntry ∧
  Sys2Proof.Machine.TrapForm ∧
  Sys2Proof.Machine.TretReturns

/-- Where a service trap goes at each privilege, brk, and a word that no instruction has. The model's reading: TSTAT2 of a DOUBLE keeps
AFTER of the trap that was not delivered, where R297 gives AFTER 0 to other codes (log 39). -/
def Obligations.ServiceTraps : Prop :=
  Sys2Proof.Machine.ServiceTrapParks ∧
  Sys2Proof.Machine.ServiceTrapAtPrivilege ∧
  Sys2Proof.Machine.BrkForm ∧
  Sys2Proof.Machine.UnassignedEncodingTraps

/-- The checks of csrr, csrw and csrx, what they read, and what they write. -/
def Obligations.StateRegisters : Prop :=
  Sys2Proof.Machine.CsrChecks ∧
  Sys2Proof.Machine.CsrReads ∧
  Sys2Proof.Machine.CsrWrites ∧
  Sys2Proof.Machine.OwnerRegisterWrites ∧
  Sys2Proof.Machine.PrivilegeOnlyFalls

namespace Sys2Proof.Machine

/-! ### System calls (R302, R303) -/

/-- The request of the thread's instruction has come to the place at which it acts, with the data that it carries: the instruction is
presented there. -/
def Thread.there (t : Thread) (data : List Nat) : Prop := ∃ p l h w, t.block = .await (.here p l data h) w

/-- sysc and sysc.nb are ILLEGAL above user privilege. With the counters at zero a caller's request leaves for the pantry of the ring and
the thread waits; there it takes the lowest free ring entry and waits on; with none free sysc parks in order and sysc.nb answers -16 in
g1. -/
def SystemCallForms : Prop :=
  ∀ (s : State) (t : Thread) (a : GReg) (p : Partition), s.thread s.cur = some t →
    (t.priv ≠ 0 → t.block.isAwait = false → exec (.sysc a) s = s.illegal t ∧ exec (.syscNb a) s = s.illegal t) ∧
    (t.priv = 0 → t.waited .all → t.block.isAwait = false → ∀ i ∈ [Instr.sysc a, .syscNb a],
      exec i s = (s.requestOf t (.pantry (s.placing t.part)) ⟨.share t.part (s.placing t.part), 0x140000⟩ (.op 8 true []) (t.rd a)).wait
        t.sent (.reply .sysc)) ∧
    (t.priv = 0 → t.waited .all → t.there [] → s.part t.part = some p →
      (∀ e, lowestFree (p.ring.map Prod.fst) 0 256 = some e →
        answers (exec (.sysc a) s) fun s' => ∃ t', s'.thread s.cur = some t' ∧ t'.block = .reply .sysc ∧ t'.g = t.g ∧
          t'.pc = t.pc ∧ ∃ p', s'.part t.part = some p' ∧ p'.ring = p.ring.put e s.cur) ∧
      (∀ e, lowestFree (p.ring.map Prod.fst) 0 256 = some e → exec (.syscNb a) s = exec (.sysc a) s) ∧
      (lowestFree (p.ring.map Prod.fst) 0 256 = none →
        exec (.syscNb a) s = s.answer t .unit [(1, -16#64)]) ∧
      (lowestFree (p.ring.map Prod.fst) 0 256 = none →
        answers (exec (.sysc a) s) fun s' => ∃ t', s'.thread s.cur = some t' ∧ t'.block = .reply .ringFull ∧
          ∃ p', s'.part t.part = some p' ∧ p'.ringWait = p.ringWait ++ [(s.cur, t.rd a)]))

/-- A ring entry whose STATE the service core has set to 2 is freed and its caller gets G1 and G2 in g1 and g2 by a reply, when no
caller is parked for want of an entry. -/
def SyscallCompletes : Prop :=
  ∀ (s : State) (part e tid : Nat) (p : Partition) (t : Thread), s.part part = some p → p.ring.look e = some tid → e < 256 →
    p.ringWait = [] → s.thread tid = some t → t.block = .reply .sysc →
    let m := s.mem (.share part p.placing)
    m.read (0x140000 + 64 * e) 8 = 2 →
    answers (exec (.syscallComplete part e) s) fun s' =>
      (∃ p', s'.part part = some p' ∧ p'.ring = p.ring.drop e) ∧
      (s'.mem (.share part p.placing)).read (0x140000 + 64 * e) 8 = 0 ∧
      s'.replies = s.replies ++ [{ tid := tid, writes := [(1, BitVec.ofNat 64 (m.read (0x140000 + 64 * e + 24) 8)),
        (2, BitVec.ofNat 64 (m.read (0x140000 + 64 * e + 32) 8))] }]

/-- What the completion of a blocked instruction leaves of its thread: the registers written, the pc at the next word, ready from
the next cc. -/
def Thread.completed (t : Thread) (cc : Nat) : Thread :=
  { t with pc := t.pc + 4, block := .none, readyAt := cc + 1, walkRes := none, noMig := false }

/-- A reply completes the instruction of its blocked thread with the registers it carries; one that carries a trap takes it at
that instruction instead. The wake of a waitw does the same. -/
def RepliesComplete : Prop :=
  ∀ (s : State) (tid : Nat) (r : Reply) (t : Thread), s.thread tid = some t → r.tid = tid →
    let carried := { t.wrs r.writes with held := r.held.or t.held }
    let trapped := { t with block := .none, walkRes := none, noMig := false, readyAt := s.cc + 1 }
    (s.replies.find? (fun x => x.tid == tid) = some r →
      (r.trap = none → answers (exec (.replyArrival tid) s) fun s' => s'.replies = s.replies.erase r ∧
        s'.thread tid = some (carried.completed s.cc)) ∧
      ∀ i, r.trap = some i →
        exec (.replyArrival tid) s = .next (State.trapAt { s with replies := s.replies.erase r } tid trapped i t.pc r.insn false)) ∧
    (s.wakes.find? (fun x => x.tid == tid) = some r → r.trap = none →
      answers (exec (.waitwWake tid) s) fun s' => s'.wakes = s.wakes.erase r ∧
        s'.thread tid = some (carried.completed s.cc))

/-- The earliest record number goes into the fault queue when the queue is open and has room. -/
def FaultQueuePut : Prop :=
  ∀ (s : State) (part f q : Nat) (l : List Nat) (p : Partition), s.part part = some p → p.faultPut = f :: l →
    s.controlQueue part 0 = some q → (p.queue q).closed = false → (p.queue q).items.length < (p.queue q).depth →
    (p.queue q).live = true → (p.queue q).putters = [] → (p.queue q).getters = [] →
    answers (exec (.faultQueuePut part) s) fun s' => ∃ p', s'.part part = some p' ∧ p'.faultPut = l ∧
      (p'.queue q).items = (p.queue q).items ++ [BitVec.ofNat 64 f]

/-- COPYDONE and CHILDFAULT are taken at a boundary with UT = 0, in order, with AFTER = 1 and the pc as the resume address;
COPYDONE goes to the handler its copy named and CHILDFAULT to TVEC, and with no handler each is discarded. -/
def PendingTrapsTaken : Prop :=
  ∀ (s : State) (tid : Nat) (t : Thread) (l : List Pending), s.thread tid = some t → s.ready tid t = true → t.ut = false →
    (∀ id h, t.pend = .copydone id h :: l →
      (h = 0 → exec (.copydone tid) s = .next (s.setThread tid { t with pend := l })) ∧
      (h ≠ 0 → ∃ t', exec (.copydone tid) s = .next (s.setThread tid t') ∧ t'.pend = l ∧ t.entered t' h t.pc 1 0 id 0 true)) ∧
    ∀ v, t.pend = .childfault v :: l →
      (t.handler = 0 → exec (.childfault tid) s = .next (s.setThread tid { t with pend := l })) ∧
      (t.handler ≠ 0 → ∃ t', exec (.childfault tid) s = .next (s.setThread tid t') ∧ t'.pend = l ∧
        t.entered t' (t.trap.tvec &&& ~~~3#64) t.pc 5 0 v 0 true)

/-! ### Couches and translations (R78, R79, R81, R315, R316) -/

/-- A couche holds every slot's positions at least 4 apart and slot 15 at least 4 times. -/
def coucheLegal (c : List (Option Nat)) : Prop :=
  (∀ p d, p < 32 → 1 ≤ d → d ≤ 3 → c.getD p none = none ∨ c.getD p none ≠ c.getD ((p + d) % 32) none) ∧
  4 ≤ (c.filter fun x => x == some 15).length

/-- A couche that a cch has brought to a core is staged there, and barrier 63 is to be set at the start of the next cc. -/
def State.stagedAt (s : State) (core : Nat) (c : List (Option Nat)) (target : Nat) : State :=
  { s.modCore core fun k => { k with staged := some (c, none) } with sets := s.sets ++ [(core, target)] }

/-- cch at service or monitor privilege reads 32 bytes of own LM: an image that breaks R79 or R78 answers 1, a target that is not
the partition's 3, but for monitor privilege, and else the couche goes to the target, which stages it, and the answer is 0: at once at the
own core, by a reply from another. At the start of the next cc barrier 63 of the target is set for N + 1 arrivals, and one is applied.
User privilege takes PRIV. -/
def CoucheForm : Prop :=
  (∀ (s : State) (t : Thread) (a b d : GReg) (off : Nat), s.thread s.cur = some t →
    let me := coreOf s.cur
    let target := (t.rd b).toNat % 2 ^ 14
    let n := ((t.rd b).toNat / 2 ^ 16 % 2 ^ 16 + 1) % 65536
    let ours := t.priv = 2 ∨ ∃ p, s.part t.part = some p ∧ p.hasCore target = true
    (t.priv = 0 → (∀ l, ¬t.there l) → exec (.cch a b d) s = s.priv t) ∧
    (1 ≤ t.priv → (∀ l, ¬t.there l) → s.window t.part me (t.rd a) = some (.lm me off) → off + 32 ≤ 2 ^ 18 → off % 32 = 0 →
      (∀ k < 4, s.locked (.lm me) (off + 8 * k) 8 false = false ∧ s.isPoisoned me (off + 8 * k) = false) →
      let bytes := (numsFrom 0 32).map fun k => ((s.mem (.lm me)).byte (off + k)).toNat
      let s1 : State := { s with signals := s.signals ++ [(me, 31)] }
      (coucheOf bytes = none → s.retiresIn s1 (.cch a b d) (t.wr d 1) (t.pc + 4)) ∧
      ∀ c, coucheOf bytes = some c →
        (¬coucheLegal c → s.retiresIn s1 (.cch a b d) (t.wr d 1) (t.pc + 4)) ∧
        (coucheLegal c → ¬ours → s.retiresIn s1 (.cch a b d) (t.wr d 3) (t.pc + 4)) ∧
        (coucheLegal c → ours → target = me → s.retiresIn (s1.stagedAt me c n) (.cch a b d) (t.wr d 0) (t.pc + 4)) ∧
        (coucheLegal c → ours → target ≠ me → exec (.cch a b d) s =
          (s1.requestOf t (.lm target) ⟨.lm target, 0⟩ (.op 0 true bytes) (t.rd b)).wait t.sent (.reply .unit))) ∧
    ∀ bytes c, t.there bytes → coucheOf bytes = some c →
      exec (.cch a b d) s = (s.stagedAt target c n).answer t .unit [(d.val, 0)]) ∧
  ∀ (s : State) (core target : Nat), s.urgent = [] → s.turns = [] → s.starts = [] → s.sets = [(core, target)] → s.drops = [] →
    answers (step s) fun s' => s'.cc = s.cc ∧ s'.sets = [] ∧
      s'.bar core 63 = ((({ phase := (s.bar core 63).phase, target := target, setAt := some s.cc } : Barrier).arrive false).1)

/-- A staged couche comes into force at the first rotation boundary after the cc in which barrier 63 completed for it, and at no other
time; the core issues nothing before it in that cc. -/
def CoucheComesIntoForce : Prop :=
  ∀ (s : State) (core : Nat) (c : List (Option Nat)),
    ((s.core core).staged = some (c, none) → exec (.coucheInForce core) s = .next s) ∧
    ∀ n, (s.core core).staged = some (c, some n) →
      exec (.coucheInForce core) s =
        if (s.cc - (s.core core).base) % 32 = 0 ∧ n < s.cc ∧ (s.core core).lastIssue ≠ some s.cc then
          .next (s.setCore core { s.core core with couche := c, staged := none })
        else .next s

/-- tlbi and tlbi.all at service or monitor privilege, once the counters are zero, drop the named translations of the thread's partition,
and no others, from every TLB of the cores and of the clusters, and the named pages' lines from every L1. They retire where no access of
the partition to the pages is on its way to a home, neither a parcel nor a granted beat of a copy, and else wait, issued, and retire, what has come since dropped too, once none is. User
privilege takes PRIV. -/
def TlbForms : Prop :=
  ∀ (s : State) (t : Thread) (a : GReg), s.thread s.cur = some t →
    (t.priv = 0 → exec (.tlbi a) s = s.priv t ∧ exec .tlbiAll s = s.priv t) ∧
    (1 ≤ t.priv → ∀ i lo n, (i, lo, n) ∈ [(Instr.tlbi a, (t.rd a).toNat, 1), (.tlbiAll, 0, 2 ^ 63)] →
      let meets := fun (base size : Nat) => base < lo + n ∧ lo < base + size
      let quiet := (∀ p ∈ s.parcels, p.part = t.part → (∃ h, p.place = .home h) → ¬meets p.page.1 p.page.2) ∧
        ∀ c ∈ s.cores, ∀ k ∈ c.2.chans, ∀ x, k.cur = some x → x.part = t.part → ∀ f ∈ x.flights, f.granted = true →
          ∀ h, f.home = some h → ¬meets h.2.1 h.2.2
      let dropped := fun (s' : State) =>
        (∀ c e, e ∈ (s'.core c).tlb ↔ e ∈ (s.core c).tlb ∧ ¬(e.part = t.part ∧ meets e.base e.leaf.size)) ∧
        (∀ c e, e ∈ (s'.cluster c).tlb ↔ e ∈ (s.cluster c).tlb ∧ ¬(e.part = t.part ∧ meets e.base e.leaf.size)) ∧
        ∀ c x, x ∈ (s'.core c).l1 ↔ x ∈ (s.core c).l1 ∧ ∀ q ∈ x.pages, ¬(q.1 = t.part ∧ meets q.2.1 q.2.2)
      (t.waited .all → t.block = .none →
        answers (exec i s) fun s' => dropped s' ∧
          (quiet → s'.thread s.cur = some (t.retired (t.pc + 4))) ∧
          (¬quiet → s'.thread s.cur = some { t.issued with block := .await (.homed t.part lo n) s.ir })) ∧
      ∀ w, t.block = .await (.homed t.part lo n) w →
        (s.condMet s.cur t (.homed t.part lo n) = true ↔ quiet) ∧
        (quiet → answers (exec i s) fun s' => dropped s' ∧ s'.thread s.cur = some (t.retired (t.pc + 4))))

end Sys2Proof.Machine

/-- System calls, the fault queue, replies, and pending traps. -/
def Obligations.SystemCalls : Prop :=
  Sys2Proof.Machine.SystemCallForms ∧
  Sys2Proof.Machine.SyscallCompletes ∧
  Sys2Proof.Machine.FaultQueuePut ∧
  Sys2Proof.Machine.RepliesComplete ∧
  Sys2Proof.Machine.PendingTrapsTaken

/-- cch and the couche it stages, and tlbi and tlbi.all. The model's reading: what a cch and a tlbi wait for, and that an answer is a reply
which comes later (log 10, 74, 75). -/
def Obligations.CouchesAndTranslations : Prop :=
  Sys2Proof.Machine.CoucheForm ∧
  Sys2Proof.Machine.CoucheComesIntoForce ∧
  Sys2Proof.Machine.TlbForms

namespace Sys2Proof.Machine

/-! ### Meters and charges (R340 to R342, R356, R358) -/

/-- The charge of an entry at user privilege adds its weight to the meter while the job is open, METER saturating; at service or
monitor privilege, with the job closed or while a checkpoint has the core stopped it adds nothing. -/
def ChargeAdds : Prop :=
  ∀ (s : State) (core o priv entry n : Nat) (m : Meter), (s.core core).meterOf o = some m →
    let add := s.weight core o entry * n
    (priv = 0 → m.job = true → (s.core core).ckpt = false → add ≠ 0 →
      ∃ m', ((s.charge core o priv entry n).core core).meterOf o = some m' ∧ m'.meter = min (m.meter + add) (2 ^ 48 - 1) ∧
        m'.job = true ∧ m'.rsent = m.rsent ∧ m'.bsent = m.bsent) ∧
    (priv ≠ 0 ∨ m.job = false ∨ (s.core core).ckpt = true → s.charge core o priv entry n = s)

/-- The check of an open meter: above the budget of the owner's level it makes BUDGET pending once, with the meter and the level
in TVAL; below that, above the budget of the core's mode it sends one raise signal to the arbiter. -/
def MeterCheck : Prop :=
  ∀ (s : State) (core o tid : Nat) (t : Thread) (m : Meter), (s.core core).meterOf o = some m → m.job = true →
    s.thread tid = some t →
    let r := s.owner o
    let mode := (s.core core).mode
    let s' := s.checkMeter core o tid
    (r.budget r.level < m.meter → m.bsent = false →
      s'.thread tid = some { t with budgetPend := some (BitVec.ofNat 64 (m.meter + r.level * 2 ^ 48)) } ∧
      s'.arb.raises = s.arb.raises) ∧
    (r.budget r.level < m.meter → m.bsent = true → s' = s) ∧
    (m.meter ≤ r.budget r.level → mode < r.level → r.budget mode < m.meter → m.rsent = false →
      ∃ k, s'.arb.raises = s.arb.raises ++ [(core, o, k)] ∧ mode < k ∧ k ≤ r.level ∧
        (k < r.level → m.meter ≤ r.budget k) ∧ ∀ j, mode < j → j < k → r.budget j < m.meter) ∧
    (m.meter ≤ r.budget r.level → (r.level ≤ mode ∨ m.meter ≤ r.budget mode ∨ m.rsent = true) → s' = s)

/-- A meter is checked once, at the end of a cc in which work of its owner retired, for the lowest of the threads; the jobs noted in the cc
are opened and closed after the check, in their order. -/
def CheckAtEndOfCycle : Prop :=
  ∀ (s : State) (core o a b : Nat), a < 2 ^ 18 → b < 2 ^ 18 →
    let jobs := (s.core core).jobs
    let ends := fun (s1 : State) =>
      (jobs.foldl (fun s j => s.jobOp core j) s1).modCore core fun k => { k with retired := [], jobs := [] }
    ((s.core core).retired = [(o, a), (o, b)] → s.endCore core = ends (s.checkMeter core o (min a b))) ∧
    ((s.core core).retired = [(o, a)] → s.endCore core = ends (s.checkMeter core o a)) ∧
    ((s.core core).retired = [] → s.endCore core = if jobs = [] then s else ends s)

/-- jbeg and jend retire, and at the end of the cc jbeg opens the job of the owner's meter at 0 and jend closes it and returns METER; jend
first waits for the thread's engine work. uchg adds bits 31:0 of its source at user privilege and returns METER. -/
def JobForms : Prop :=
  ∀ (s : State) (t : Thread) (a d : GReg), s.thread s.cur = some t →
    let core := coreOf s.cur
    let n := (t.rd a).toNat % 2 ^ 32
    let noted := fun (c : Option GReg) => s.modCore core fun k => { k with jobs := k.jobs ++ [⟨t.owner, s.cur, c⟩] }
    s.retiresIn (noted none) .jbeg t (t.pc + 4) ∧
    (s.vbusy s.cur = false → s.mbusy s.cur 0xFF = false → s.xbusy s.cur = false →
      s.retiresIn (noted (some d)) (.jend d) t (t.pc + 4)) ∧
    (s.vbusy s.cur = true ∨ s.mbusy s.cur 0xFF = true ∨ s.xbusy s.cur = true → s.blocks (.jend d) t (.await .job s.ir)) ∧
    (∀ m, (s.core core).meterOf t.owner = some m →
      s.retiresIn (if t.priv = 0 then s.accrue core t.owner n else s) (.uchg a d)
        (t.wr d (BitVec.ofNat 64 (if t.priv = 0 ∧ m.job = true ∧ n ≠ 0 ∧ (s.core core).ckpt = false then min (m.meter + n) (2 ^ 48 - 1) else m.meter))) (t.pc + 4)) ∧
    ∀ m, (s.core core).meterOf t.owner = some m →
      (∃ m', ((s.jobOp core ⟨t.owner, s.cur, none⟩).core core).meterOf t.owner = some m' ∧ m'.meter = 0 ∧ m'.job = true ∧
        m'.rsent = false ∧ m'.bsent = false) ∧
      (∃ m', ((s.jobOp core ⟨t.owner, s.cur, some d⟩).core core).meterOf t.owner = some m' ∧ m'.meter = m.meter ∧ m'.job = false) ∧
      (s.jobOp core ⟨t.owner, s.cur, some d⟩).thread s.cur = some (t.wr d (BitVec.ofNat 64 m.meter))

/-- uown answers 3 for a handler or a steward, 2 for an owner that is not LIVE or of another partition, 1 where no meter can be
had, and else 0 with the owner changed; it asks service privilege. uown.st answers 3, 2, or 4 where the steward is in handling,
and else makes the thread its owner's steward. -/
def OwnerMoves : Prop :=
  ∀ (s : State) (t : Thread) (a d : GReg), s.thread s.cur = some t →
    let o := (t.rd a).toNat % 256
    let r := s.owner t.owner
    (t.priv = 0 → exec (.uown a d) s = s.priv t) ∧
    (1 ≤ t.priv →
      if slotOf s.cur = 15 ∨ s.isSteward s.cur t = true then s.retires (.uown a d) (t.wr d 3) (t.pc + 4)
      else if (s.owner o).live = false ∨ (s.owner o).part ≠ t.part then s.retires (.uown a d) (t.wr d 2) (t.pc + 4)
      else if s.canMeter (coreOf s.cur) o = false then s.retires (.uown a d) (t.wr d 1) (t.pc + 4)
      else s.retires (.uown a d) ({ t with owner := o }.wr d 0) (t.pc + 4)) ∧
    (if slotOf s.cur = 15 then s.retires (.uownSt d) (t.wr d 3) (t.pc + 4)
      else if r.live = false ∨ r.part ≠ t.part then s.retires (.uownSt d) (t.wr d 2) (t.pc + 4)
      else if r.sv = true ∧ s.inHandling r.stid = true then s.retires (.uownSt d) (t.wr d 4) (t.pc + 4)
      else
        let s1 := s.setOwner t.owner { r with sv := true, stid := s.cur }
        (r.st ≠ .resuming → s.retiresIn s1 (.uownSt d) (t.wr d 0) (t.pc + 4)) ∧
        s.retiresIn (s1.reportFor t.owner false) (.uownSt d) (t.wr d 0) (t.pc + 4))

/-- The ucfg forms ask monitor privilege. Each sends its change to the arbiter and waits: ucfg.own the descriptor of eight doublewords,
ucfg.tab the eight weights and ucfg.arb DWELL. A table number above 3 answers 1 at once. -/
def ConfigForms : Prop :=
  ∀ (s : State) (t : Thread) (a b d : GReg) (off : Nat), s.thread s.cur = some t →
    (t.priv < 2 → exec (.ucfgOwn a b d) s = s.priv t ∧ exec (.ucfgTab a b d) s = s.priv t ∧
      exec (.ucfgArb a d) s = s.priv t) ∧
    (t.priv = 2 →
      let sends := fun (i : Instr) (w : UcfgWhat) => answers (exec i s) fun s' =>
        s'.arb.ucfg = s.arb.ucfg ++ [⟨.thread s.cur d, w⟩] ∧ s'.thread s.cur = some { t.issued with block := .reply .ucfg }
      sends (.ucfgArb a d) (.arb ((t.rd a).toNat % 2 ^ 32)) ∧
      (s.window t.part (coreOf s.cur) (t.rd a) = some (.lm (coreOf s.cur) off) → off + 64 ≤ 2 ^ 18 → off % 8 = 0 →
        (∀ k < 8, s.locked (.lm (coreOf s.cur)) (off + 8 * k) 8 false = false ∧
          s.isPoisoned (coreOf s.cur) (off + 8 * k) = false) →
        let m := s.mem (.lm (coreOf s.cur))
        sends (.ucfgOwn a b d) (.own ((t.rd b).toNat % 256) ((numsFrom 0 8).map fun k => BitVec.ofNat 64 (m.read (off + 8 * k) 8))) ∧
        (4 ≤ (t.rd b).toNat → s.retiresIn { s with signals := s.signals ++ [(coreOf s.cur, 31)] } (.ucfgTab a b d) (t.wr d 1) (t.pc + 4)) ∧
        ((t.rd b).toNat < 4 →
          sends (.ucfgTab a b d) (.table (t.rd b).toNat ((numsFrom 0 8).map fun k => (m.byte (off + k)).toNat)))))

/-- The arbiter makes a ucfg change at the end of an ns: DWELL, a charge table, or a descriptor that R337 and R360 accept, and carries it
to the cores, with the end of a fall where the owner was the last of its step; a descriptor that they refuse changes nothing. -/
def ConfigChangesAnswered : Prop :=
  ∀ (s : State) (r : UcfgReq), s.arb.ucfg = [r] →
    answers (State.act s .ucfg) fun s' => s'.arb.ucfg = [] ∧
      (∀ v, r.what = .arb v → s'.arb.dwell = v ∧ s'.arb.log = s.arb.log ++ [[.dwell]] ∧ s'.arb.owners = s.arb.owners) ∧
      (∀ k w, r.what = .table k w → s'.arb.log = s.arb.log ++ [[.table k w]] ∧ s'.arb.owners = s.arb.owners) ∧
      ∀ o ds, r.what = .own o ds →
        let n := recordOf (s.owner o) ds
        (descriptorOk ds = false ∨ s.validOwner o n = false → s'.arb.owners = s.arb.owners ∧ s'.arb.log = s.arb.log) ∧
        (descriptorOk ds = true → s.validOwner o n = true → (s.owner o).live = true → (n.live = false ∨ n.part ≠ (s.owner o).part) →
          s.ownerInUse o = true → s'.arb.owners = s.arb.owners ∧ s'.arb.log = s.arb.log) ∧
        (descriptorOk ds = true → s.validOwner o n = true → ((s.owner o).live = false ∨ s.ownerInUse o = false ∨
            (n.live = true ∧ n.part = (s.owner o).part)) →
          ∃ st, s'.owner o = { n with st := st } ∧ ∃ l l', s'.arb.log = s.arb.log ++ [l ++ [.own o]] ++ l' ∧
            (s.arb.falling = false → l' = []))

/-! ### Shedding and readmission (R343 to R354) -/

/-- The raise signals that have come are taken; one for a mode above the arbiter's sets that mode and sheds every LIVE owner
whose level is below it, as one change that each core applies whole; one for a lower mode changes nothing. -/
def RaiseSheds : Prop :=
  ∀ (s : State) (core o m : Nat), (s.arb.owners.map Prod.fst).Nodup → s.arb.raises = [(core, o, m)] →
    answers (exec .raise s) fun s' => s'.arb.raises = [] ∧
      (m ≤ s.arb.mode → s'.arb.mode = s.arb.mode ∧ s'.arb.log = s.arb.log) ∧
      (s.arb.mode < m → s'.arb.mode = m ∧ s'.arb.falling = false ∧ s'.arb.traise = s.time ∧
        (∃ l, s'.arb.log = s.arb.log ++ [.mode m false s.arb.from_ :: l] ∧ ∀ p, Change.shed p o false ∈ l ↔
          (s.owner p).live = true ∧ (s.owner p).level < m ∧ (s.owner p).st ≠ .shed) ∧
        (∀ p, (s.owner p).live = true → (s.owner p).level < m → (s'.owner p).st = .shed) ∧
        ∀ p, m ≤ (s.owner p).level → (s'.owner p).st = (s.owner p).st)

/-- At a TIME that is a multiple of 1,024 the mode falls by one, once, when the three conditions hold: the owners of the level
that is left are RESUMING where they have a steward and else admitted. There is one check at each such TIME and none at others. -/
def FallStep : Prop :=
  ∀ (s : State), (s.arb.owners.map Prod.fst).Nodup →
    (s.time % 1024 ≠ 0 ∨ s.arb.lastCheck = some s.time → exec .fallCheck s = .next s) ∧
    (s.fallPasses = true → s.time % 1024 = 0 → 0 < s.arb.mode → s.arb.falling = false → s.arb.lastCheck ≠ some s.time →
    answers (exec .fallCheck s) fun s' => s'.arb.mode = s.arb.mode - 1 ∧ s'.arb.from_ = s.arb.mode ∧
      (∀ p, (s.owner p).live = true → (s.owner p).level + 1 = s.arb.mode →
        (s'.owner p).st = if (s.owner p).sv then .resuming else .admitted) ∧
      (s'.arb.falling = true ↔ ∃ q ∈ s.arb.owners, q.2.live = true ∧ q.2.level + 1 = s.arb.mode ∧ q.2.sv = true))

/-- The report of a RESUMING owner admits it and tells every core; a report of any other owner is ignored. -/
def ReadmissionReport : Prop :=
  ∀ (s : State) (o : Nat), o ∈ s.arb.reports →
    answers (exec (.readmissionReport o) s) fun s' => s'.arb.reports = s.arb.reports.erase o ∧
      ((s.owner o).st = .resuming → (s'.owner o).st = .admitted ∧ [Change.readmit o] ∈ s'.arb.log) ∧
      ((s.owner o).st ≠ .resuming → s'.arb.owners = s.arb.owners ∧ s'.arb.log = s.arb.log)

/-- A core applies the arbiter's next event, all of its changes at once: a shedding, a readmission, and the rest each by its row. A row of
another kind than the event does nothing. -/
def CoreAppliesChange : Prop :=
  ∀ (s : State) (core : Nat) (l : List Change) (ls : List (List Change)), s.todo core = l :: ls →
    exec (.shedApply core) s = .next (if entryKind l = .shed then s.applyNext core else s) ∧
    exec (.readmissionApply core) s = .next (if entryKind l = .readmit then s.applyNext core else s) ∧
    exec (.modeChangeApply core) s = .next (if entryKind l = .other then s.applyNext core else s) ∧
    (s.resumesInOrder core l = true → ((s.applyNext core).core core).applied = (s.core core).applied + 1) ∧
    (s.resumesInOrder core l = false → s.applyNext core = s) ∧
    (∀ o r cfg, l = [.shed o r cfg] → (s.owner o).sv = false →
      (s.applyNext core).ostate core o = if (s.owner o).pol then .degraded else .suspended) ∧
    ∀ m fall from_, l = [.mode m fall from_] → ((s.applyNext core).core core).mode = m

/-- A thread of a suspended owner at user privilege, outside handling and outside slot 15, is not ready, and a thread of a
degraded one issues only in the first SHARE positions of a rotation that name its slot. -/
def ShedThreadsDoNotIssue : Prop :=
  ∀ (s : State) (tid : Nat) (t : Thread), slotOf tid ≠ 15 → t.priv = 0 → t.handling = .none →
    (s.ostate (coreOf tid) t.owner = .suspended → s.canIssue tid t = false) ∧
    (s.ostate (coreOf tid) t.owner = .degraded →
      (s.owner t.owner).share ≤ (s.core (coreOf tid)).before (slotOf tid) ((s.cc - (s.core (coreOf tid)).base) % 32) →
      s.canIssue tid t = false) ∧
    ∀ t', t' = { t with priv := 1 } → s.threadShed tid t' = 0

/-- SHED and RESUME enter the steward's handler of SHPC at a boundary with UT = 0, with AFTER = 1, and are discarded where SHPC is 0 by
then; a SHED that supersedes a RESUME handler enters with the resume address saved at the RESUME entry. The 256th instruction ends the
handling with ALWX = 1. BUDGET is a service trap whatever UT holds. -/
def StewardTraps : Prop :=
  ∀ (s : State) (tid : Nat) (t : Thread), s.thread tid = some t → s.ready tid t = true →
    (∀ v, t.ut = false → t.superPend = none → t.shedPend = some v →
      ((s.owner t.owner).shpc = 0 → exec (.shed tid) s = .next (s.setThread tid { t with shedPend := none })) ∧
      ((s.owner t.owner).shpc ≠ 0 → ∃ t', exec (.shed tid) s = .next (s.setThread tid t') ∧ t'.shedPend = none ∧ t'.running = .shed ∧
        t.entered t' (s.owner t.owner).shpc t.pc 3 0 v 0 true)) ∧
    (∀ v, t.superPend = some v → (s.owner t.owner).shpc ≠ 0 →
      ∃ t', exec (.shed tid) s = .next (s.setThread tid t') ∧ t'.superPend = none ∧ t'.running = .shed ∧
        t'.pc = (s.owner t.owner).shpc ∧ t'.trap.tpc = t.saved.1 ∧ t'.trap.tstat2 = t.saved.2 ∧ t'.trap.tcause = 3 ∧ t'.trap.tval = v ∧
        t'.ut = true) ∧
    (∀ v, t.ut = false → t.resumePend = some v →
      ((s.owner t.owner).shpc ≠ 0 → ∃ t', exec (.resumeTrap tid) s = .next (s.setThread tid t') ∧ t'.resumePend = none ∧
        t'.running = .resume ∧ t'.saved = (t'.trap.tpc, t'.trap.tstat2) ∧ t.entered t' (s.owner t.owner).shpc t.pc 4 0 v 0 true)) ∧
    (t.handling ≠ .none → 256 ≤ t.counted → answers (exec (.allowanceExpiry tid) s) fun s' =>
      ∃ t', s'.thread tid = some t' ∧ t'.handling = .none ∧ t'.alwx = true ∧ t'.pc = t.pc ∧ t'.g = t.g) ∧
    ∀ v, t.budgetPend = some v → exec (.budget tid) s =
      .next (s.trapAt tid { t with budgetPend := none, block := .none, walkRes := none, noMig := false } ⟨0x14, 0, v⟩ t.pc 0 true)

/-- What is taken at one issue boundary of the thread whose position it is, in this order: a debug stop, a breakpoint, both ahead of a
suspension, which keeps the thread from going on; then, of a thread that may issue, the end of the allowance, BUDGET, SHED, RESUME,
DEADLOCK, and COPYDONE or CHILDFAULT, whichever was raised first. An event leaves the turn to the instruction that follows it. -/
def BoundaryOrder : Prop :=
  ∀ (s : State) (core tid : Nat) (l : List Act) (t : Thread),
    s.urgent = [] → s.turns = .issue core :: l → s.slotNow core = some tid → s.thread tid = some t →
    let taken : State := { s with turns := l }
    (s.stopNow tid t = true → step s = .next (taken.applyStop tid)) ∧
    (s.stopNow tid t = false → s.bpDue tid t = true → step s = exec (.breakpoint tid) taken) ∧
    (s.stopNow tid t = false → s.bpDue tid t = false → s.canIssue tid t = false → step s = .next taken) ∧
    (s.stopNow tid t = false → s.bpDue tid t = false → s.canIssue tid t = true →
      (t.handling ≠ .none ∧ 256 ≤ t.counted → step s = exec (.allowanceExpiry tid) s) ∧
      (¬(t.handling ≠ .none ∧ 256 ≤ t.counted) →
        (t.budgetPend ≠ none → step s = exec (.budget tid) s) ∧
        (t.budgetPend = none →
          let shed := t.superPend ≠ none ∨ (t.shedPend ≠ none ∧ t.ut = false)
          (shed → step s = exec (.shed tid) s) ∧
          (¬shed → t.ut = false →
            (t.resumePend ≠ none → step s = exec (.resumeTrap tid) s) ∧
            (t.resumePend = none →
              (∀ v, s.deadlockFor tid t = some v → step s = .next (s.takeDeadlock tid t v)) ∧
              (s.deadlockFor tid t = none →
                (∀ i h p, t.pend = .copydone i h :: p → step s = exec (.copydone tid) s) ∧
                ∀ v p, t.pend = .childfault v :: p → step s = exec (.childfault tid) s))))))

end Sys2Proof.Machine

/-- Charges, the check of a meter, and jbeg, jend and uchg. -/
def Obligations.MetersAndJobs : Prop :=
  Sys2Proof.Machine.ChargeAdds ∧
  Sys2Proof.Machine.MeterCheck ∧
  Sys2Proof.Machine.CheckAtEndOfCycle ∧
  Sys2Proof.Machine.JobForms

/-- uown, uown.st and the ucfg forms, and the arbiter's answer to them. The model's choice: the order of precedence of the codes, 3, 2, 1 of
uown and 3, 2, 4 of uown.st, where several hold (log 100). -/
def Obligations.OwnerForms : Prop :=
  Sys2Proof.Machine.OwnerMoves ∧
  Sys2Proof.Machine.ConfigForms ∧
  Sys2Proof.Machine.ConfigChangesAnswered

/-- A raise, a fall step, a report of readmission, what a core applies, the traps of a steward, and the order at a boundary. The model's
reading: how the allowance is counted, when ALWX and SUPER are set, when an idle core takes a change, and the places of the allowance and of
DEADLOCK at a boundary (log 11, 31, 32, 43). -/
def Obligations.ArbiterRows : Prop :=
  Sys2Proof.Machine.RaiseSheds ∧
  Sys2Proof.Machine.FallStep ∧
  Sys2Proof.Machine.ReadmissionReport ∧
  Sys2Proof.Machine.CoreAppliesChange ∧
  Sys2Proof.Machine.ShedThreadsDoNotIssue ∧
  Sys2Proof.Machine.StewardTraps ∧
  Sys2Proof.Machine.BoundaryOrder

/-- shdone and rsdone retire and end the handling of their kind; in none they change nothing else. -/
def Obligations.HandlingEnds : Prop :=
  ∀ (s : State) (t : Thread), s.thread s.cur = some t →
    (t.handling = .shed → answers (exec .shdone s) fun s' =>
      ∃ t', s'.thread s.cur = some t' ∧ t'.handling = .none ∧ t'.counted = 0 ∧ t'.pc = t.pc + 4 ∧ t'.g = t.g) ∧
    (t.handling ≠ .shed → s.retires .shdone t (t.pc + 4)) ∧
    (t.handling = .resume → answers (exec .rsdone s) fun s' =>
      s'.arb.reports = s.arb.reports ++ [t.owner] ∧
      ∃ t', s'.thread s.cur = some t' ∧ t'.handling = .none ∧ t'.counted = 0 ∧ t'.pc = t.pc + 4 ∧ t'.g = t.g) ∧
    (t.handling ≠ .resume → s.retires .rsdone t (t.pc + 4))

namespace Sys2Proof.Machine

/-! ### Barriers (R237, R240 to R251) -/

/-- One arrival: with target 0 it sets ORPH alone; one that reaches the target resets the count, flips PHASE and moves POISON, with
that of the arrival, to LPOIS; any other counts. -/
def BarrierArrival : Prop :=
  ∀ (b : Barrier) (p : Bool),
    (b.target = 0 → b.arrive p = ({ b with orph := true }, false)) ∧
    (b.target ≠ 0 → b.count + 1 = b.target → (b.arrive p).2 = true ∧ (b.arrive p).1.count = 0 ∧
      (b.arrive p).1.phase = !b.phase ∧ (b.arrive p).1.lpois = (b.poison || p) ∧ (b.arrive p).1.poison = false ∧
      (b.arrive p).1.target = b.target) ∧
    (b.target ≠ 0 → b.count + 1 ≠ b.target → b.arrive p = ({ b with count := b.count + 1, poison := b.poison || p }, false))

/-- The core and barrier that an operand of core scope names: a peer of the cluster when bit 16 is set. -/
def barOf (me : Nat) (v : Word) : Nat × Nat :=
  (if v.getLsbD 16 then 16 * clusterOf me + (v.extractLsb' 12 4).toNat else me, (v.extractLsb' 0 6).toNat)

/-- bset sets the target and clears the count and the flags but PHASE, unless the nest placer has set the barrier in the same cc; barrier
63 asks service privilege at core scope, and so does every pod barrier, which only a granted ID or monitor privilege sets. -/
def BsetForms : Prop :=
  ∀ (s : State) (t : Thread) (a b : GReg), s.thread s.cur = some t →
    let me := coreOf s.cur
    let n := ((t.rd b).extractLsb' 0 16).toNat
    let k := ((t.rd a).extractLsb' 0 6).toNat
    let c := ((t.rd a).extractLsb' 0 4).toNat
    (t.priv = 0 → k = 63 → exec (.bset a b .core) s = s.priv t) ∧
    (t.priv ≠ 0 ∨ k ≠ 63 →
      ((s.bar me k).setAt ≠ some s.cc →
        s.retiresIn (s.setBar me k { phase := (s.bar me k).phase, target := n }) (.bset a b .core) t (t.pc + 4)) ∧
      ((s.bar me k).setAt = some s.cc → s.retires (.bset a b .core) t (t.pc + 4))) ∧
    s.retiresIn (s.setClBar (clusterOf me) c { phase := (s.clBar (clusterOf me) c).phase, target := n }) (.bset a b .cluster) t
      (t.pc + 4) ∧
    (t.priv = 0 → exec (.bset a b .pod) s = s.priv t) ∧
    (t.priv = 2 ∨ (t.priv ≠ 0 ∧ s.podGranted t.part k = true) →
      s.retiresIn (s.setPod k { s.pod k with target := n, count := 0 }) (.bset a b .pod) t (t.pc + 4)) ∧
    (t.priv = 1 → s.podGranted t.part k = false → s.retires (.bset a b .pod) t (t.pc + 4))

/-- barr at core scope, once the counters are zero, retires with the PHASE before its arrival, which it makes; at cluster scope an
arrival parcel leaves and the thread waits for it. Barrier 63 asks service privilege. -/
def BarrForms : Prop :=
  ∀ (s : State) (t : Thread) (a d : GReg), s.thread s.cur = some t →
    let me := coreOf s.cur
    let k := ((t.rd a).extractLsb' 0 6).toNat
    (t.priv = 0 → k = 63 → exec (.barr a d .core) s = s.priv t) ∧
    (t.waited .all → (t.priv ≠ 0 ∨ k ≠ 63) → answers (exec (.barr a d .core) s) fun s' =>
      s'.bar me k = ((s.bar me k).arrive false).1 ∧
      ∃ t', s'.thread s.cur = some t' ∧ t'.pc = t.pc + 4 ∧ t'.block = .none ∧
        t'.g = (t.wr d (if (s.bar me k).phase then 1 else 0)).g) ∧
    (t.waited .all → exec (.barr a d .cluster) s =
      (s.requestOf t (.lm me) ⟨.lm me, 0⟩ (.clArrive (clusterOf me) ((t.rd a).extractLsb' 0 4).toNat) (t.rd a)).wait t.sent (.barr d))

/-- barw and barw.t issue, and are evaluated in the same cc after its events (R242): each completes with 0 when the phase it names has
completed, and else waits, barw.t with its limit; a barw.t whose limit TIME has reached by then completes with 1. A
poisoned phase is POISON after the instruction, with the barrier's number. BARW_TIMEOUT ends a wait whose limit TIME has reached
with 1. -/
def BarwForms : Prop :=
  ∀ (s : State) (t : Thread) (a b d : GReg), s.thread s.cur = some t →
    let me := coreOf s.cur
    let x := barOf me (t.rd a)
    let c := ((t.rd a).extractLsb' 0 4).toNat
    let ph := (t.rd a).getLsbD 8
    (t.block.isAwait = false → ∀ z, z = .core ∨ z = .cluster →
      s.blocks (.barw a d z) t (.await .soon s.ir) ∧ s.blocks (.barwT a b d z) t (.await .soon s.ir)) ∧
    (t.block = .await .soon s.ir →
    ((s.bar x.1 x.2).phase ≠ ph → (s.bar x.1 x.2).lpois = false →
      s.retires (.barw a d .core) (t.wr d 0) (t.pc + 4) ∧ s.retires (.barwT a b d .core) (t.wr d 0) (t.pc + 4)) ∧
    ((s.bar x.1 x.2).phase ≠ ph → (s.bar x.1 x.2).lpois = true → t.ut = false → t.handler ≠ 0 →
      answers (exec (.barw a d .core) s) fun s' => ∃ t', s'.thread s.cur = some t' ∧
        (t.wr d 0).entered t' (t.trap.tvec &&& ~~~3#64) (t.pc + 4) 6 0 (BitVec.ofNat 64 x.2) s.ir true) ∧
    ((s.bar x.1 x.2).phase = ph →
      s.blocks (.barw a d .core) t (.barw false x.1 x.2 ph none d s.ir) ∧
      (s.timeAt me < (t.rd b).toNat → s.blocks (.barwT a b d .core) t (.barw false x.1 x.2 ph (some (t.rd b)) d s.ir)) ∧
      ((t.rd b).toNat ≤ s.timeAt me → s.retires (.barwT a b d .core) (t.wr d 1) (t.pc + 4))) ∧
    ((s.clBar (clusterOf me) c).phase ≠ ph →
      s.retires (.barw a d .cluster) (t.wr d 0) (t.pc + 4) ∧ s.retires (.barwT a b d .cluster) (t.wr d 0) (t.pc + 4)) ∧
    ((s.clBar (clusterOf me) c).phase = ph →
      s.blocks (.barw a d .cluster) t (.barw true (clusterOf me) c ph none d s.ir) ∧
      (s.timeAt me < (t.rd b).toNat →
        s.blocks (.barwT a b d .cluster) t (.barw true (clusterOf me) c ph (some (t.rd b)) d s.ir)) ∧
      ((t.rd b).toNat ≤ s.timeAt me → s.retires (.barwT a b d .cluster) (t.wr d 1) (t.pc + 4)))) ∧
    ∀ cl u n p l d' w tid t', s.thread tid = some t' → t'.block = .barw cl u n p (some l) d' w →
      (l.toNat ≤ s.timeAt (coreOf tid) → answers (exec (.barwTimeout tid) s) fun s' =>
        s'.thread tid = some ((t'.wr d' 1).completed s.cc)) ∧
      (s.timeAt (coreOf tid) < l.toNat → exec (.barwTimeout tid) s = .next s)

/-- bstat retires with the state word of R240: LPOIS 63, POISON 62, PHASE 61, ORPH 60, COUNT 47:32 and TARGET 15:0; a pod
barrier's word has COUNT and TARGET alone. -/
def BstatForms : Prop :=
  ∀ (s : State) (t : Thread) (a d : GReg), s.thread s.cur = some t →
    let me := coreOf s.cur
    let x := barOf me (t.rd a)
    let flag := fun (b : Bool) (n : Nat) => if b then 2 ^ n else 0
    let word := fun (b : Barrier) => BitVec.ofNat 64 (flag b.lpois 63 + flag b.poison 62 + flag b.phase 61 + flag b.orph 60 +
      b.count * 2 ^ 32 + b.target)
    let p := s.pod ((t.rd a).extractLsb' 0 6).toNat
    s.retires (.bstat a d .core) (t.wr d (word (s.bar x.1 x.2))) (t.pc + 4) ∧
    s.retires (.bstat a d .cluster) (t.wr d (word (s.clBar (clusterOf me) ((t.rd a).extractLsb' 0 4).toNat))) (t.pc + 4) ∧
    s.retires (.bstat a d .pod) (t.wr d (BitVec.ofNat 64 (p.count * 2 ^ 32 + p.target))) (t.pc + 4)

/-- rarr, once the counters are zero, sends a counted arrival to a barrier of a core of the partition and answers 0, or answers 3
for any other core; xack does the same once the thread's engine commands have retired too. Barrier 63 asks service privilege. -/
def ArrivalForms : Prop :=
  ∀ (s : State) (t : Thread) (a b d : GReg) (i : Instr), s.thread s.cur = some t →
    i = .rarr a b d ∨ (i = .xack a b d ∧ s.vbusy s.cur = false ∧ s.mbusy s.cur 0xFF = false ∧ t.vrec = [] ∧ t.mrec = []) →
    let c := ((t.rd a).extractLsb' 0 14).toNat
    let n := ((t.rd b).extractLsb' 0 6).toNat
    let k := ctrFor (coreOf s.cur) c
    (t.priv = 0 → n = 63 → exec i s = s.priv t) ∧
    ((t.priv ≠ 0 ∨ n ≠ 63) → t.waited .all →
      ((∀ p, s.part t.part = some p → p.hasCore c = false) → s.retires i (t.wr d 3) (t.pc + 4)) ∧
      ∀ p, s.part t.part = some p → p.hasCore c = true →
        s.retiresIn (s.sentOf t (.lm c) ⟨.lm c, 0⟩ (.arrive c n) k (t.rd a)) i ((t.sent.setPcnt k 1).wr d 0) (t.pc + 4))

/-- pbar at a pod barrier that the partition has been granted counts one arrival and waits; the arrival that completes the local
count of a barrier that has no other member answers every waiter 0. An ID that is not granted answers 3. -/
def PodBarrier : Prop :=
  ∀ (s : State) (t : Thread) (a d : GReg), s.thread s.cur = some t → t.waited .all →
    let id := ((t.rd a).extractLsb' 0 6).toNat
    let b := s.pod id
    (s.podGranted t.part id = false → s.retires (.pbar a d) (t.wr d 3) (t.pc + 4)) ∧
    (s.podGranted t.part id = true → answers (exec (.pbar a d) s) fun s' =>
      (∃ t', s'.thread s.cur = some t' ∧ t'.block = .reply .pbar ∧ t'.pc = t.pc) ∧
      (b.count + 1 ≠ b.target → s'.pod id = { b with waiting := b.waiting ++ [(s.cur, d)], count := b.count + 1 } ∧
        s'.replies = s.replies) ∧
      (b.count + 1 = b.target → b.members = [] → s.modId < 4096 → (s'.pod id).waiting = [] ∧ (s'.pod id).count = 0 ∧
        ∀ w ∈ b.waiting ++ [(s.cur, d)], ∃ r ∈ s'.replies, r.tid = w.1 ∧ r.writes = [(w.2.val, 0)]))

/-! ### Join words (R252) -/

/-- waitw registers a waiter at the place of its doubleword, at issue at the thread's own place, and at another place by a request that acts
when it has come there. With a waiter entry free the thread waits; where the condition holds of what is there the wake leaves with the value,
and else the waiter stands at the place. A refused registration is sent again after 1 µs. -/
def WaitwForm : Prop :=
  ∀ (s : State) (t : Thread) (a b d : GReg) (c : WCond), s.thread s.cur = some t →
    let registers := fun (l : Loc) (s' : State) =>
      let v := BitVec.ofNat 64 (s.readLoc l 8)
      (∃ t', s'.thread s.cur = some t' ∧ t'.block = .reply .waitw ∧ t'.pc = t.pc ∧ t'.g = t.g) ∧
      (condHolds c v (t.rd b) = true → ∃ r ∈ s'.wakes, r.tid = s.cur ∧ r.writes = [(d.val, v)]) ∧
      (condHolds c v (t.rd b) = false → ∃ w ∈ s'.waiters, w.who = .thread s.cur d ∧ w.loc = l ∧ w.cond = c ∧
        w.operand = t.rd b ∧ w.refused = false)
    (∀ l, (∀ x, ¬t.there x) → s.passes t (t.rd a) 8 .load false true (.own l) → (∀ p, s.waiterCount p < 256) →
      answers (exec (.waitw a b d c) s) (registers l)) ∧
    (∀ p l k, (∀ x, ¬t.there x) → s.passes t (t.rd a) 8 .load false true (.far p l k) →
      exec (.waitw a b d c) s = ((s.seen t (t.rd a)).requestOf t p l (.op 8 false []) (t.rd a)).wait t.sent (.reply .waitw)) ∧
    (∀ p l x h w, t.block = .await (.here p l x h) w → (∀ p, s.waiterCount p < 256) →
      answers (exec (.waitw a b d c) s) (registers l)) ∧
    ∀ tid w ws, s.waiters = w :: ws → w.refused = true → w.who = .thread tid d → (∀ x ∈ ws, ∀ d', x.who ≠ .thread tid d') →
      (w.sentAt + 1000 ≤ s.time → exec (.waitwRetry tid) s = .next (State.register { s with waiters := ws } w)) ∧
      (s.time < w.sentAt + 1000 → exec (.waitwRetry tid) s = .next s)

/-! ### Queues (R253 to R255) -/

/-- A queue with no thread waiting at it. -/
def Queue.idle (q : Queue) : Prop := q.putters = [] ∧ q.getters = []

/-- The queue form i of handle va is presented: at a handle that names no live queue it takes ADDR, where a range of its core covers D0
LOCKHIT, and else its request, a write or a read of D0, leaves for the queue's pantry and the thread waits as k says. -/
def State.queueRequest (s : State) (t : Thread) (i : Instr) (va : Word) (write : Bool) (k : WaitKind) : Prop :=
  let h := s.placing t.part
  (s.queueAt t.part (coreOf s.cur) va = none → exec i s = s.addr t va) ∧
  ∀ q, s.queueAt t.part (coreOf s.cur) va = some q → t.block.isAwait = false →
    (s.locked (.pantry h) (queueOff + 64 * q) 8 write = true → exec i s = s.trap t 0x02 va) ∧
    (s.locked (.pantry h) (queueOff + 64 * q) 8 write = false → exec i s =
      (s.requestOf t (.pantry h) ⟨.share t.part h, queueOff + 64 * q⟩ (.op 8 write []) va).wait t.sent (.reply k))

/-- qput sends its request once the counters are zero. Where the request has come to the queue: .close closes the queue, or answers 2 when it
is closed; .nb answers 2 for a closed queue, 1 for a full one, and else puts the item and answers 0; the blocking form puts the item at
the tail and answers 0 where there is room, and else waits behind the putters that wait. -/
def QputForms : Prop :=
  ∀ (s : State) (t : Thread) (a b d : GReg), s.thread s.cur = some t → t.waited .all →
    (∀ f, s.queueRequest t (.qput a b d f) (t.rd a) true (if f = .block then .qput else .request)) ∧
    ∀ q, s.queueAt t.part (coreOf s.cur) (t.rd a) = some q → t.there [] →
      let x := s.queue t.part q
      (x.closed = true → exec (.qput a b d .close) s = s.answer t .request [(d.val, 2)] ∧
        exec (.qput a b d .nb) s = s.answer t .request [(d.val, 2)]) ∧
      (x.closed = false → exec (.qput a b d .close) s = (s.qClose t.part q).answer t .request [(d.val, 0)]) ∧
      (x.closed = false → x.depth ≤ x.items.length → exec (.qput a b d .nb) s = s.answer t .request [(d.val, 1)]) ∧
      (x.closed = false → x.items.length < x.depth → x.idle → ∀ f, f = .nb ∨ f = .block →
        answers (exec (.qput a b d f) s) fun s' => (s'.queue t.part q).items = x.items ++ [t.rd b] ∧
          (∃ r ∈ s'.replies, r.tid = s.cur ∧ r.writes = [(d.val, 0)]) ∧
          ∃ t', s'.thread s.cur = some t' ∧ t'.pc = t.pc ∧ t'.g = t.g) ∧
      (x.closed = false → x.depth ≤ x.items.length → x.idle → answers (exec (.qput a b d .block) s) fun s' =>
        (s'.queue t.part q).items = x.items ∧ s'.replies = s.replies ∧
          (∃ w, (s'.queue t.part q).putters = [w] ∧ w.tid = s.cur ∧ w.item = t.rd b) ∧
          ∃ t', s'.thread s.cur = some t' ∧ t'.block = .reply .qput)

/-- qget and qstat send their requests. Where it has come to the queue, qget takes the head item and answers it with status 0; with nothing
there .nb answers 1, or 2 for a closed queue, and the blocking form waits; qstat answers D0. -/
def QgetQstatForms : Prop :=
  ∀ (s : State) (t : Thread) (a b d : GReg), s.thread s.cur = some t →
    (∀ n, s.queueRequest t (.qget a b d n) (t.rd a) true (if n then .request else .qget)) ∧
    s.queueRequest t (.qstat a d) (t.rd a) false .request ∧
    ∀ q, s.queueAt t.part (coreOf s.cur) (t.rd a) = some q → t.there [] → s.cur < 2 ^ 18 →
      let x := s.queue t.part q
      exec (.qstat a d) s = s.answer t .request [(d.val,
        BitVec.ofNat 64 ((if x.closed then 2 ^ 63 else 0) + x.depth % 512 * 2 ^ 32 + x.items.length % 512))] ∧
      (∀ v l n, x.items = v :: l → x.idle → answers (exec (.qget a b d n) s) fun s' =>
        (∃ r ∈ s'.replies, r.tid = s.cur ∧ r.writes = [(d.val, v), (b.val, 0)]) ∧
        ((∀ p, s.part t.part = some p → p.ringPut = []) → (s'.queue t.part q).items = l)) ∧
      (x.items = [] → t.held = none → exec (.qget a b d true) s =
        s.answer t .request [(b.val, if x.closed then 2 else 1)]) ∧
      (x.items = [] → x.closed = false → x.idle → (∀ p, s.part t.part = some p → p.ringPut = []) →
        answers (exec (.qget a b d false) s) fun s' =>
        s'.replies = s.replies ∧ (∃ w, (s'.queue t.part q).getters = [w] ∧ w.tid = s.cur) ∧
          ∃ t', s'.thread s.cur = some t' ∧ t'.block = .reply .qget)

/-- A queue whose D1 was stored with LIVE set comes to be empty and open with the depth of D0; one whose LIVE was cleared loses its
items and is no more, every waiter answered 2. -/
def QueuesCreatedRemoved : Prop :=
  ∀ (s : State) (part q : Nat) (p : Partition), s.part part = some p →
    let x := p.queue q
    (x.live = false → x.nest = false → 1 ≤ x.depth → x.depth ≤ 256 → p.ringPut = [] →
      answers (exec (.queueCreate part q) s) fun s' => s'.queue part q = { live := true, depth := x.depth }) ∧
    (x.live = true → x.nest = false → answers (exec (.queueRemove part q) s) fun s' =>
      s'.queue part q = { depth := x.depth } ∧
      ∀ w, w ∈ x.getters ∨ w ∈ x.putters → ∃ r ∈ s'.replies, r.tid = w.tid ∧
        r.writes = [(if w.kind = .qput then w.d.val else w.b.val, 2)])

end Sys2Proof.Machine

/-- An arrival at a barrier, and bset, barr and bstat at every scope. The model's choice: the bits that bstat.pod reads as 0, and that a
bset.pod on an ID not granted does nothing (log 68, 55). -/
def Obligations.BarrierForms : Prop :=
  Sys2Proof.Machine.BarrierArrival ∧
  Sys2Proof.Machine.BsetForms ∧
  Sys2Proof.Machine.BarrForms ∧
  Sys2Proof.Machine.BstatForms

/-- barw, barw.t and waitw, and the end of their waits. The model's reading: a limit is compared with the core's sample of TIME, whose phase
is free, and waitw at its own place reads at issue (log 41, 65, 10). -/
def Obligations.BarrierWaits : Prop :=
  Sys2Proof.Machine.BarwForms ∧
  Sys2Proof.Machine.WaitwForm

/-- rarr, xack and pbar. The model's choice: the wait for the counters comes before the tests of the target and of the grant, the bits of a
pod barrier, its members, the links, and a pbar while a link of its tree is down (log 20, 52, 68, 70, 93, 96). -/
def Obligations.RemoteArrivals : Prop :=
  Sys2Proof.Machine.ArrivalForms ∧
  Sys2Proof.Machine.PodBarrier

/-- qput, qget and qstat, and a queue that is created or removed. The model's choice: the range check is on the 8 bytes of D0, the status
stands where both destinations are one register, and D0 of a removed queue (log 85, 94, 95); a form acts at its own place at issue and at
another where its request is taken (log 10). -/
def Obligations.QueueForms : Prop :=
  Sys2Proof.Machine.QputForms ∧
  Sys2Proof.Machine.QgetQstatForms ∧
  Sys2Proof.Machine.QueuesCreatedRemoved

namespace Sys2Proof.Machine

/-! ### The copy engine (R216 to R239, R334) -/

/-- The state after an access of own LM by the form in the slot `cur`, which the core's counter cells see as signal 31. -/
def State.ownLmSeen (s : State) : State := { s with signals := s.signals ++ [(coreOf s.cur, 31)] }

/-- The position of the form in the slot `cur` is a bubble: nothing changes, and the core's counter cells see signal 16. -/
def State.isBubble (s : State) (i : Instr) : Prop := exec i s = .next { s with signals := s.signals ++ [(coreOf s.cur, 16)] }

/-- xset loads XSRC, XDST, XLEN, XSTRIDE, XDIM, XHND and XMASK from seven doublewords of own LM, each under the bits its register
holds, and blocks as a load of own LM: its thread leaves rotation for the reply that is on its way. -/
def XsetLoads : Prop :=
  ∀ (s : State) (t : Thread) (a : GReg) (off : Nat), s.thread s.cur = some t →
    s.window t.part (coreOf s.cur) (t.rd a) = some (.lm (coreOf s.cur) off) → off + 56 ≤ 2 ^ 18 → off % 8 = 0 →
    (∀ k < 7, s.locked (.lm (coreOf s.cur)) (off + 8 * k) 8 false = false ∧ s.isPoisoned (coreOf s.cur) (off + 8 * k) = false) →
    let w := fun k => BitVec.ofNat 64 ((s.mem (.lm (coreOf s.cur))).read (off + 8 * k) 8)
    let cp : CopyRegs := ⟨w 0, w 1, w 2 &&& 0xFFFFFFFF, w 3, w 4 &&& 0xFFFFF, w 5, w 6 &&& 0xFFFF⟩
    exec (.xset a) s = (s.ownLmSeen.reply { tid := s.cur, writes := [], insn := s.ir, entry := 1, own := true }).wait { t with cp := cp }
      (.reply .load)

/-- Form, completion word, destination, channel, index address and root of the commands of the copy engine. -/
def copyOf (t : Thread) : Instr → Option (XForm × Word × GReg × Chan × Word × Nat)
  | .xcopy a d c => some (.copy, t.rd a, d, c, 0, 0)
  | .xstr a d c => some (.str, t.rd a, d, c, 0, 0)
  | .xgat a b d c => some (.gat, t.rd a, d, c, t.rd b, 0)
  | .xmc a d c => some (.mc, t.rd a, d, c, 0, 0)
  | .cout a b d c => some (.out, t.rd a, d, c, 0, (t.rd b).toNat + 2 ^ 64 * (t.rd (hiReg b)).toNat)
  | _ => none

/-- A copy command that passes its checks enters the core's queue with what it captured and registers its ranges; its destination
gets the transfer ID, and it does not retire for a charge until its bytes move. A full queue or range table makes the position
a bubble. A shape or range that fails takes ADDR with the failing value, and a completion word that names barrier 63 at user
privilege PRIV. -/
def CopyCommandsIssue : Prop :=
  ∀ (s : State) (t : Thread) (i : Instr) (f : XForm) (cw : Word) (d : GReg) (ch : Chan) (idx : Word) (root : Nat),
    s.thread s.cur = some t → copyOf t i = some (f, cw, d, ch, idx, root) →
    let me := coreOf s.cur
    let locks := s.xlocks t.part me f t.cp idx
    let far := if f = .mc then mcLocks me t.cp s.uid else []
    let fits := fun (c : Nat) => (c = me ∨ ∃ p ∈ far, p.1 = c) →
      (s.core c).lockCount + ((far.filter fun p => p.1 == c).length + if c = me then lockEntries locks else 0) ≤ 32
    let seq := (s.chan me ch.val).nextSeq
    (t.priv = 0 → names63 f cw = true → exec i s = s.priv t) ∧
    ((t.priv ≠ 0 ∨ names63 f cw = false) →
      (∀ v, s.xshape t f t.cp = some v → exec i s = s.addr t v) ∧
      (s.xshape t f t.cp = none →
        (∀ v, s.xrangesOk t f t.cp idx = .error v → exec i s = s.addr t v) ∧
        (s.xrangesOk t f t.cp idx = .ok () →
          (2 ≤ (s.core me).xq.length ∨ (∃ c, ¬fits c) → s.isBubble i) ∧
          ((s.core me).xq.length < 2 → (∀ c, fits c) → answers (exec i s) fun s' =>
            (∃ x, (s'.core me).xq = (s.core me).xq ++ [x] ∧ x.ins = i ∧ x.regs = t.cp ∧ x.cw = cw ∧ x.idx = idx ∧
              x.root = root ∧ x.ch = ch.val ∧ x.seq = seq ∧ x.tid = s.cur ∧ x.owner = t.owner ∧ x.part = t.part ∧
              x.priv = t.priv ∧ x.moved = 0 ∧ x.comp = 0) ∧
            (∀ l ∈ locks, l.lo < l.hi → ∃ k ∈ (s'.core me).locks, k.space = l.space ∧ k.lo = l.lo ∧ k.hi = l.hi ∧ k.w = l.w ∧
              k.uid = s.uid ∧ k.reg = s.cc) ∧
            (s'.core me).meters = (s.core me).meters ∧
            s'.thread s.cur = some ((t.wr d (BitVec.ofNat 64 (seq * 4 + ch.val))).retired (t.pc + 4))))))

/-- The oldest queued command whose channel is idle starts there, with XWP at its destination. A cout starts with a reference on its root; one
whose root has no LIVE entry, in a store that is not enabled or in one that is, ends at once with status 1, and one whose root's home is lost
with 2; none of them writes a byte. -/
def CopyDispatched : Prop :=
  ∀ (s : State) (core : Nat) (x : Xfer), (s.core core).xq.find? (fun x => (s.chan core x.ch).cur.isNone) = some x → x.ch < 4 →
    (s.core core).chans.length = 4 →
    (x.form ≠ .out → answers (exec (.copyDispatch core) s) fun s' =>
      (s'.chan core x.ch).cur = some { x with entered := s.cc, at_ := s.time } ∧
      (s'.chan core x.ch).xwp = x.regs.xdst ∧ (s'.core core).xq = (s.core core).xq.filter fun y => y.uid != x.uid) ∧
    (x.form = .out → s.homeFrozen x.part [x.root] = none →
      let ends := fun (n : Nat) => answers (exec (.copyDispatch core) s) fun s' =>
        (s'.chan core x.ch).cur = none ∧ (s'.chan core x.ch).hist.head? = some (x.seq, n) ∧ ∀ l, s'.readLoc l 1 = s.readLoc l 1
      ((s.store x.part).en = false → ends 1) ∧
      ((s.store x.part).en = true → (s.core ((s.store x.part).homeOf x.root)).lost = true → ends 2) ∧
      ((s.store x.part).en = true → (s.core ((s.store x.part).homeOf x.root)).lost = false →
        ((s.store x.part).liveEntry x.root = none → ends 1) ∧
        ∀ c, (s.store x.part).liveEntry x.root = some c → s.leafSlots x.part 8 x.root = ([c.slot], none) → 0 < x.regs.len →
          answers (exec (.copyDispatch core) s) fun s' =>
            (∃ y, (s'.chan core x.ch).cur = some y ∧ y.uid = x.uid ∧ y.leaves = [c.slot] ∧ y.total = min x.regs.len 256 ∧ y.moved = 0) ∧
            (s'.chan core x.ch).xwp = x.regs.xdst ∧
            (c.count ≠ pinned → (s'.store x.part).liveEntry x.root = some { c with count := c.count + 1 })))

/-- A beat of an xcopy within the core's own LM, the one beat of its core in the cc, moves its words, at most 64 bytes of one granule,
reading them before it writes them: the destination then holds what the source held, and the transfer has granted them. -/
def CopyBeatMoves : Prop :=
  ∀ (s : State) (core ch i : Nat) (x : Xfer) (a b : Nat), s.beatReady core ch = true →
    (s.core core).xrun ≠ some s.cc → (s.chan core ch).cur = some x → ch < 4 →
    x.ch = ch → (s.core core).chans.length = 4 → x.form = .copy → x.flights = [] →
    x.nextByte (s.xpaused core x) = some (none, i) →
    x.regs.xsrc = BitVec.ofNat 64 (0xC0 * 2 ^ 56 + a) → x.regs.xdst = BitVec.ofNat 64 (0xC0 * 2 ^ 56 + b) →
    a + x.regs.len ≤ 2 ^ 18 → b + x.regs.len ≤ 2 ^ 18 → a % 4 = 0 → b % 4 = 0 → i % 4 = 0 → x.regs.len % 4 = 0 →
    (s.core core).poisoned = [] → (s.core core).lost = false → s.errors = [] →
    let j := min (x.granEnd i) (i + 64)
    answers (exec (.copyBeat core ch) s) fun s' =>
      (∀ k, i ≤ k → k < j → (s'.core core).lm.byte (b + k) = (s.core core).lm.byte (a + k)) ∧
      (∀ k, (k < b + i ∨ b + j ≤ k) → (s'.core core).lm.byte k = (s.core core).lm.byte k) ∧
      (s'.chan core ch).cur = some { x with moved := x.moved + (j - i), at_ := s.time } ∧ (s'.core core).lastCh = ch ∧
      (s'.core core).xrun = some s.cc ∧ exec (.copyBeat core ch) s' = .next s'

/-- A beat of an xcopy from own LM to a pantry reads its words, and they are on their way there; no byte of memory changes in it. The words
come one beat after another, those of a later granule once every one below it is complete, and are then written. A frozen place holds them,
and a lost one cannot be reached: the transfer ends with ERROR. -/
def CopyBeatLeaves : Prop :=
  (∀ (s : State) (core ch i : Nat) (x : Xfer) (a h b : Nat), s.beatReady core ch = true →
    (s.core core).xrun ≠ some s.cc → (s.chan core ch).cur = some x → ch < 4 →
    x.ch = ch → (s.core core).chans.length = 4 → x.form = .copy → x.flights = [] →
    x.nextByte (s.xpaused core x) = some (none, i) → x.regs.xsrc = BitVec.ofNat 64 (0xC0 * 2 ^ 56 + a) →
    (∀ k, k < x.regs.len → s.window x.part core (x.regs.xdst + BitVec.ofNat 64 k) = some (.pantry h (b + k))) →
    a + x.regs.len ≤ 2 ^ 18 → x.regs.xdst.toNat + x.regs.len < 2 ^ 64 → a % 4 = 0 → b % 4 = 0 → i % 4 = 0 → x.regs.len % 4 = 0 →
    (s.core core).poisoned = [] → (s.core core).lost = false → s.errors = [] →
    let j := min (x.granEnd i) (i + 64)
    let words := (numsFrom 0 ((j - i) / 4)).map fun n =>
      ((⟨.share x.part h, b + i + 4 * n⟩ : Loc), s.readLoc ⟨.lm core, a + i + 4 * n⟩ 4)
    answers (exec (.copyBeat core ch) s) fun s' => (∀ l, s'.readLoc l 1 = s.readLoc l 1) ∧
      (s'.chan core ch).cur = some { x with moved := x.moved + (j - i), flights := [⟨none, i, words, true, none⟩], at_ := s.time } ∧
      (s'.core core).xrun = some s.cc) ∧
  ∀ (s : State) (core ch : Nat) (x : Xfer) (f : Flight) (l : Loc) (v : Nat), (s.chan core ch).cur = some x → x.ch = ch → ch < 4 →
    (s.core core).chans.length = 4 → x.landing = some f → f.words = [(l, v)] → f.home = none → ∀ c, l.space = .lm c →
    ((s.core c).lost = true → answers (exec (.granuleComplete core ch) s) fun s' =>
      (s'.chan core ch).cur = none ∧ (s'.chan core ch).hist.head? = some (x.seq, 2)) ∧
    ((s.core c).lost = false → (s.core c).frozen = true → exec (.granuleComplete core ch) s = .next s) ∧
    ((s.core c).lost = false → (s.core c).frozen = false → s.locHeld core x f.recv l true = false →
      answers (exec (.granuleComplete core ch) s) fun s' =>
        (s'.core c).lm.read l.off 4 = v % 2 ^ 32 ∧
        (s'.chan core ch).cur = some { x with flights := x.flights.filter fun y => y != f, at_ := s.time })

/-- What comes from another place for a beat into the own LM is read first, one access after another: an xcopy reads a line of a pantry in
one, the elements of an xgat come one by one, each for itself. The words are kept, no byte of memory changes, and the beat of the cc is not
taken. -/
def CopyReadsAhead : Prop :=
  ∀ (s : State) (core ch i : Nat) (x : Xfer) (h a b : Nat), s.beatReady core ch = true → (s.chan core ch).cur = some x → ch < 4 →
    x.ch = ch → (s.core core).chans.length = 4 → x.flights = [] → x.nextByte (s.xpaused core x) = some (none, i) →
    x.regs.xdst = BitVec.ofNat 64 (0xC0 * 2 ^ 56 + b) → b + x.bytes ≤ 2 ^ 18 → b % 4 = 0 → i % 4 = 0 →
    (s.core core).poisoned = [] → (s.core core).lost = false → s.errors = [] →
    let reads := fun (ws : List (Loc × Nat)) => answers (exec (.copyBeat core ch) s) fun s' =>
      (∀ l, s'.readLoc l 1 = s.readLoc l 1) ∧ (s'.core core).xrun = (s.core core).xrun ∧
      (s'.chan core ch).cur = some { x with flights := [⟨none, i, ws, false, none⟩], at_ := s.time }
    let j := min (x.granEnd i) (i + 64)
    (x.form = .copy → x.regs.len % 4 = 0 → x.regs.xsrc.toNat + x.regs.len < 2 ^ 64 →
      (∀ k, k < x.regs.len → s.window x.part core (x.regs.xsrc + BitVec.ofNat 64 k) = some (.pantry h (a + k))) → (a + i) % 64 = 0 →
      reads ((numsFrom 0 ((j - i) / 4)).map fun n =>
        ((⟨.lm core, b + i + 4 * n⟩ : Loc), s.readLoc ⟨.share x.part h, a + i + 4 * n⟩ 4))) ∧
    (x.form = .gat → x.regs.esz = 2 → x.priv ≠ 0 →
      (∀ k, k < x.bytes → ∃ o, s.window x.part core (BitVec.ofNat 64 (s.xsrcAt core x k)) = some (.pantry h o)) →
      s.window x.part core (BitVec.ofNat 64 (s.xsrcAt core x i)) = some (.pantry h a) →
      reads [((⟨.lm core, b + i⟩ : Loc), s.readLoc ⟨.share x.part h, a⟩ 4)])

/-- The next granule of a transfer, every beat of which has been granted and has come to its destination, completes: XWP advances to the
bytes below it for an xcopy, and the transfer ends with status 0 when it is the last, its channel idle and the status recorded, or with
3 at the first boundary after an xkill that found beats still to grant. -/
def GranuleCompletes : Prop :=
  ∀ (s : State) (core ch g : Nat) (x : Xfer), (s.chan core ch).cur = some x → x.ch = ch → ch < 4 →
    (s.core core).chans.length = 4 → x.form = .copy → x.flights = [] → x.doneTo x.comp x.moved = some g →
    answers (exec (.granuleComplete core ch) s) fun s' =>
      (s'.chan core ch).xwp = x.regs.xdst + BitVec.ofNat 64 g ∧
      (g ≠ x.regs.len → x.kill = false → (s'.chan core ch).cur = some { x with comp := g, at_ := s.time }) ∧
      (g = x.regs.len → x.kill = false → (s'.chan core ch).cur = none ∧ (s'.chan core ch).hist.head? = some (x.seq, 0)) ∧
      (x.kill = true → x.moved = g → (s'.chan core ch).cur = none ∧ (s'.chan core ch).hist.head? = some (x.seq, 3))

/-- The end of a transfer records its status, makes COPYDONE pending and arrives at the core's barrier where its completion word asks for it,
poisoned unless it is DONE, and answers the threads of the core that await it. The arrivals of a cc are applied together: those of copies
by core and channel, behind them those of parcels by source. -/
def TransferEnds : Prop :=
  (∀ (s : State) (core st r : Nat) (x : Xfer), (s.core core).chans.length = 4 → x.ch < 4 → x.form ≠ .out →
    (s.threads.map Prod.fst).Nodup →
    let s' := s.endXfer core x st r
    (s'.chan core x.ch).hist.head? = some (x.seq, st + 16 * r) ∧ (∀ y ∈ (s'.core core).xq, y.uid ≠ x.uid) ∧
    (x.form ≠ .mc → s'.arrs = s.arrs ++
      if x.cw.getLsbD 6 = true then [(4 * core + x.ch, core, (x.cw.extractLsb' 0 6).toNat, decide (st ≠ 0))] else []) ∧
    (∀ t, s.thread x.tid = some t → x.cw.getLsbD 7 = true → ∃ t', s'.thread x.tid = some t' ∧
      t'.pend = t.pend ++ [.copydone (BitVec.ofNat 64 (x.seq * 4 + x.ch)) x.regs.xhnd]) ∧
    ∀ tid t d, (tid, t) ∈ s.threads → s.thread tid = some t → coreOf tid = core → t.block = .xwait x.ch x.seq d →
      ∃ t', s'.thread tid = some t' ∧ t'.block = .none ∧ t'.pc = t.pc + 4 ∧ t'.g = (t.wr d (BitVec.ofNat 64 (st + 16 * r))).g) ∧
  ∀ (s : State) (n m core b : Nat) (p q : Bool),
    (s.arrs = [(n, core, b, p)] →
      answers (State.act s .arrivals) fun s' => s'.arrs = [] ∧ s'.bar core b = ((s.bar core b).arrive p).1) ∧
    (n < m → (s.arrs = [(n, core, b, p), (m, core, b, q)] ∨ s.arrs = [(m, core, b, q), (n, core, b, p)]) →
      answers (State.act s .arrivals) fun s' => s'.arrs = [] ∧ s'.bar core b = (((s.bar core b).arrive p).1.arrive q).1)

/-- xwp retires with XWP once it is at least its source or the channel holds no transfer that can advance, and else waits; xwait and
xkill answer the recorded status of a transfer that has ended, 4 for an ID that names none, and else wait for its end. -/
def TransferWaitForms : Prop :=
  ∀ (s : State) (t : Thread) (a d : GReg) (c : Chan), s.thread s.cur = some t →
    let me := coreOf s.cur
    let w := (s.chan me c.val).xwp
    ((t.rd a).toNat ≤ w.toNat ∨ s.chanActive me c.val = false → s.retires (.xwp a d c) (t.wr d w) (t.pc + 4)) ∧
    (w.toNat < (t.rd a).toNat → s.chanActive me c.val = true → s.blocks (.xwp a d c) t (.xwp c.val (t.rd a) d)) ∧
    (∀ code, s.xname me (t.rd a) = .ended code →
      s.retires (.xwait a d) (t.wr d (BitVec.ofNat 64 code)) (t.pc + 4) ∧
      s.retires (.xkill a d) (t.wr d (BitVec.ofNat 64 code)) (t.pc + 4)) ∧
    (s.xname me (t.rd a) = .unknown →
      s.retires (.xwait a d) (t.wr d 4) (t.pc + 4) ∧ s.retires (.xkill a d) (t.wr d 4) (t.pc + 4)) ∧
    ∀ x queued, s.xname me (t.rd a) = .live x queued →
      s.blocks (.xwait a d) t (.xwait x.ch x.seq d) ∧
      (x.nextByte false = none → queued = false → s.blocks (.xkill a d) t (.xwait x.ch x.seq d)) ∧
      (queued = false → x.nextByte false ≠ none → x.fail = none → x.moved ≠ x.comp → x.ch < 4 → (s.core me).chans.length = 4 →
        answers (exec (.xkill a d) s) fun s' => (s'.chan me x.ch).cur = some { x with kill := true } ∧
          ∃ t', s'.thread s.cur = some t' ∧ t'.block = .xwait x.ch x.seq d) ∧
      (queued = true → (s.threads.map Prod.fst).Nodup → answers (exec (.xkill a d) s) fun s' =>
        (∀ y ∈ (s'.core me).xq, y.uid ≠ x.uid) ∧
        ∃ t', s'.thread s.cur = some t' ∧ t'.block = .none ∧ t'.pc = t.pc + 4 ∧ t'.g = (t.wr d 3).g)

end Sys2Proof.Machine

/-- xset, the commands that enter the copy engine, and xwp, xwait and xkill. The model's reading: how many entries of the range table a
transfer takes (log 53). -/
def Obligations.CopyFormsIssue : Prop :=
  Sys2Proof.Machine.XsetLoads ∧
  Sys2Proof.Machine.CopyCommandsIssue ∧
  Sys2Proof.Machine.TransferWaitForms

/-- A transfer starts, moves its bytes, completes its granules and ends. The model's choice: the 8 most recent transfers of a channel, what
is read at once, when a meter is freed (log 69, 111, 114). -/
def Obligations.TransfersRun : Prop :=
  Sys2Proof.Machine.CopyDispatched ∧
  Sys2Proof.Machine.CopyBeatMoves ∧
  Sys2Proof.Machine.CopyBeatLeaves ∧
  Sys2Proof.Machine.CopyReadsAhead ∧
  Sys2Proof.Machine.GranuleCompletes ∧
  Sys2Proof.Machine.TransferEnds

namespace Sys2Proof.Machine

/-! ### Parcels (R115 to R123, R237, R244, R277, R294) -/

/-- A copy of the parcel p reaches its place in its turn and is to be performed there. -/
def State.arriving (s : State) (p : Parcel) : Prop :=
  s.findParcel p.src p.seq = some p ∧ 1 ≤ p.copies ∧ p.held = false ∧ p.performed = false ∧ s.frozenAt p.place = false ∧
  s.lostAt p.place = false ∧ earlierPending p s.parcels = false ∧ (s.windowed p.place).length < 4096

/-- A packet has come for a core, which its counter cells see as signal 24. -/
def State.came (s : State) (p : Parcel) : State :=
  match p.place with
  | .lm c | .home c => { s with signals := s.signals ++ [(c, 24)] }
  | .pantry _ => s

/-- The state in which the arrival of p is performed: one copy fewer on its way. -/
def State.landed (s : State) (p : Parcel) : State := (s.came p).setParcel { p with copies := p.copies - 1, held := false }

/-- The state after the access of p has passed the L1 of its home. -/
def State.through (s : State) (p : Parcel) : State :=
  match p.place with
  | .home c => s.throughL1 c p.part p.page p.loc
  | .lm c => { s with signals := s.signals ++ [(c, 31)] }
  | .pantry _ => s

/-- An access parcel is performed at its place: a counted store or update changes its bytes and is acknowledged, a load is
answered with its value, and an atomic is answered with the old value and stores the new one; the instruction of any other request is
presented there, as the next turn of the cc. At an LM of the target core a
range that meets the access holds a counted one and answers the others with LOCKHIT, and a poisoned line is an error of
sub-cause 4; an uncorrectable error in a line that a counted one touches is an error of sub-cause 1. -/
def AccessParcelPerformed : Prop :=
  ∀ (s : State) (p : Parcel), s.arriving p →
    let p' := { p with copies := p.copies - 1 }
    let s1 := s.landed p
    let s2 := s1.through p'
    let done := { p' with performed := true, acks := p.acks + 1 }
    let free := s1.lmMeets p' = false ∧ s1.lmPoisoned p' = false ∧ s1.finds p' = false
    (∀ n v, p.acc = .store n v → p.ctr ≠ 3 → free →
      exec (.accessParcel p.src p.seq) s = .next ((s2.writeLoc p.loc n v).setParcel { done with err := none })) ∧
    (∀ k n b, p.acc = .red k n b → p.ctr ≠ 3 → free → exec (.accessParcel p.src p.seq) s =
      .next ((s2.writeLoc p.loc n (atomicNew k.atomic n (s1.readLoc p.loc n) b 0)).setParcel { done with err := none })) ∧
    (∀ n z d, p.acc = .load n z d → p.src < 2 ^ 18 → free → exec (.accessParcel p.src p.seq) s =
      .next (State.reply (s2.dropParcel p')
        { tid := p.src, writes := [(d.val, loaded z (s1.readLoc p.loc n))], entry := 1, insn := p.insn })) ∧
    (∀ k n b e d, p.acc = .amo k n b e d → n = 4 ∨ n = 8 → p.src < 2 ^ 18 → free →
      let old := s1.readLoc p.loc n
      let s3 := if k = .cas ∧ BitVec.ofNat (8 * n) old ≠ BitVec.ofNat (8 * n) e then s2
        else s2.writeLoc p.loc n (atomicNew k n old b e)
      exec (.atomicRequestParcel p.src p.seq) s = .next (State.reply (s3.dropParcel p')
        { tid := p.src, writes := [(d.val, (BitVec.ofNat (8 * n) old).signExtend 64)], entry := 1, insn := p.insn })) ∧
    (∀ n w data t k, p.acc = .op n w data → free → s.thread p.src = some t → t.block = .reply k →
      exec (.accessParcel p.src p.seq) s = .next
        { (s2.dropParcel p').setThread p.src { t with block := .await (.here p.place p.loc data none) p.insn } with
          turns := .await p.src :: s.turns }) ∧
    (∀ n v, p.acc = .store n v → p.ctr ≠ 3 → s1.lmMeets p' = true →
      exec (.accessParcel p.src p.seq) s = .next (s1.setParcel { p' with held := true })) ∧
    (∀ n z d, p.acc = .load n z d → p.src < 2 ^ 18 → s1.lmMeets p' = true → exec (.accessParcel p.src p.seq) s =
      .next (State.reply (s1.dropParcel p') { tid := p.src, trap := some ⟨0x02, 0, p.va⟩, insn := p.insn })) ∧
    (∀ n v, p.acc = .store n v → p.ctr ≠ 3 → s1.lmMeets p' = false → s1.lmPoisoned p' = true →
      exec (.accessParcel p.src p.seq) s = .next (s1.setParcel { done with err := some 4 })) ∧
    (∀ n v, p.acc = .store n v → p.ctr ≠ 3 → s1.lmMeets p' = false → s1.lmPoisoned p' = false → s1.finds p' = true →
      exec (.accessParcel p.src p.seq) s = .next (s1.setParcel { done with err := some 1 }))

/-- A parcel that comes again after it was performed is acknowledged again and does nothing else, and one ahead of an earlier parcel
of its source to the place is held until that one is performed; one of a further source than 4,096 is refused. -/
def ParcelsOnceInOrder : Prop :=
  ∀ (s : State) (p : Parcel), s.findParcel p.src p.seq = some p → 1 ≤ p.copies → p.held = false → s.frozenAt p.place = false →
    (∃ n v, p.acc = .store n v) →
    let p' := { p with copies := p.copies - 1 }
    (p.performed = true → exec (.accessParcel p.src p.seq) s = .next ((s.came p).setParcel { p' with acks := p.acks + 1 })) ∧
    (p.performed = false → earlierPending p s.parcels = true → (s.windowed p.place).length < 4096 →
      exec (.accessParcel p.src p.seq) s = .next ((s.came p).setParcel { p' with held := true })) ∧
    (p.performed = false → 4096 ≤ (s.windowed p.place).length → (s.windowed p.place).contains p.src = false →
      exec (.accessParcel p.src p.seq) s = .next ((s.came p).setParcel { p' with refused := true, lastAt := s.time }))

/-- Arrivals, wakes and handlers sent as parcels: an arrival is noted, clean, to be applied with the others of its cc; the arrival of barr.cl completes its
thread with the PHASE before it; a wake ends a sleep with 0 or sets EP, unless a sleep has taken EP in the same cc; a handler is
queued and, slot 15 free, starts there with its arguments in g1 to g4 and its sender in g5. -/
def OtherParcelsPerformed : Prop :=
  ∀ (s : State) (p : Parcel), s.arriving p → p.ctr ≠ 3 →
    let p' := { p with copies := p.copies - 1 }
    let s1 := s.landed p
    let done := { p' with performed := true, acks := p.acks + 1, err := none }
    (∀ c b, p.acc = .arrive c b → exec (.arrivalParcel p.src p.seq) s =
      .next (({ s1 with arrs := s1.arrs ++ [(2 ^ 20 + p.src % 2 ^ 20, c, b, false)] } : State).setParcel done)) ∧
    (∀ tid, p.acc = .wake tid → exec (.wakeParcel p.src p.seq) s = .next ((s1.wakeSlot tid).setParcel done) ∧
      (∀ t, s.thread tid = some t → (∀ l d, t.block ≠ .sleep l d) →
        (s1.wakeSlot tid).thread tid = some (if t.sleptAt = some s.cc then t else { t with ep := true })) ∧
      ∀ t l d, s.thread tid = some t → t.block = .sleep l d →
        (s1.wakeSlot tid).thread tid = some ((t.wr d 0).completed s.cc)) ∧
    (∀ c h, p.acc = .handler c h → (s.core c).handlers.length < 16 → (h.priv ≠ 0 ∨ s.canMeter c h.owner = true) →
      (s.core c).handlers = [] → s.thread (16 * c + 15) = none → h.args.length = 4 →
      answers (exec (.handlerParcel p.src p.seq) s) fun s' => ∃ t, s'.thread (16 * c + 15) = some t ∧ t.pc = h.handler ∧
        t.owner = h.owner ∧ t.part = h.part ∧ t.priv = h.priv ∧ t.ut = false ∧ t.block = .none ∧ t.fp.starter = h.starter ∧
        t.rd 1 = h.args.getD 0 0 ∧ t.rd 2 = h.args.getD 1 0 ∧ t.rd 3 = h.args.getD 2 0 ∧ t.rd 4 = h.args.getD 3 0 ∧
        t.rd 5 = h.sender) ∧
    ∀ c h, p.acc = .handler c h → 16 ≤ (s.core c).handlers.length →
      exec (.handlerParcel p.src p.seq) s = .next (s1.setParcel { p' with refused := true, lastAt := s.time })

/-- The arrival of barr.cl is applied and its thread completes with the PHASE before it. -/
def ClusterArrivalPerformed : Prop :=
  ∀ (s : State) (p : Parcel) (cl b : Nat) (t : Thread) (d : GReg), s.arriving p → p.acc = .clArrive cl b →
    s.thread p.src = some t → t.block = .barr d →
    answers (exec (.clusterBarrierArrival p.src p.seq) s) fun s' => s'.clBar cl b = ((s.clBar cl b).arrive false).1 ∧
      ∃ t', s'.thread p.src = some t' ∧ t'.block = .none ∧ t'.pc = t.pc + 4 ∧
        t'.g = (t.wr d (if (s.clBar cl b).phase then 1 else 0)).g

/-- The first acknowledgement of a parcel lowers its counter and removes it, with an error mark when it failed. -/
def AcknowledgementLowersCounter : Prop :=
  ∀ (s : State) (p : Parcel) (t : Thread), s.findParcel p.src p.seq = some p → p.acks ≠ 0 → s.thread p.src = some t →
    (p.err = none → exec (.acknowledgement p.src p.seq) s =
      .next ((s.dropParcel p).setThread p.src (t.setPcnt p.ctr (t.pcnt p.ctr - 1)))) ∧
    ∀ sub, p.err = some sub → p.ctr = 0 → t.errC = none → exec (.acknowledgement p.src p.seq) s =
      .next ((s.dropParcel p).setThread p.src { t with pcntC := t.pcntC - 1, errC := some ⟨p.va, sub⟩ })

/-- A copy leaves again 20 µs after the last for want of an acknowledgement, 2 µs after a refusal, and at once after a link error;
a target not reached within 100 µs is an error of sub-cause 2. -/
def ParcelsResent : Prop :=
  ∀ (s : State) (p : Parcel), s.findParcel p.src p.seq = some p →
    let leaves : State := { s with signals := s.signals ++ if p.src < 2 ^ 18 then [(coreOf p.src, 25)] else [] }
    let again := Host.Outcome.next (leaves.setParcel { p with copies := p.copies + 1, refused := false, lastAt := s.time })
    (p.refused = false → p.lastAt + 20000 ≤ s.time → exec (.parcelResend p.src p.seq) s = again) ∧
    (p.refused = false → exec (.correctableLinkError p.src p.seq) s = again) ∧
    (p.refused = true → p.acc.isHandler = false → p.lastAt + 2000 ≤ s.time → exec (.parcelRefusedResend p.src p.seq) s = again) ∧
    (p.refused = true → p.acc.isHandler = true → p.lastAt + 2000 ≤ s.time → exec (.handlerResend p.src p.seq) s = again) ∧
    (p.performed = false → p.held = false → p.refused = false → s.frozenAt p.place = false → p.firstAt + 100000 ≤ s.time →
      p.src < 2 ^ 19 →
      (∀ n v, p.acc = .store n v → p.ctr ≠ 3 → exec (.targetUnreachable p.src p.seq) s =
        .next (s.setParcel { p with performed := true, acks := p.acks + 1, err := some 2 })) ∧
      ∀ n z d, p.acc = .load n z d → p.src < 2 ^ 18 → exec (.targetUnreachable p.src p.seq) s =
        .next (State.reply (s.dropParcel p) { tid := p.src, trap := some ⟨0x15, 2, p.va⟩, insn := p.insn }))

/-! ### Walks and migration (R114, R120) -/

/-- A completed walk, any one of its hearth's, gives every merged thread its result and presents its instruction again: a leaf goes into the
TLBs, a failure is kept as the reason for the page that the thread asked for. The hearth's other walks go on, with their threads. -/
def WalkCompletes : Prop :=
  ∀ (s : State) (h k : Nat) (w : Walk), (s.hearth h).walks[k]? = some w →
    answers (exec (.walkComplete h k) s) fun s' =>
      (∀ tid t page, tid ∈ w.tids → s.thread tid = some t → t.block = .walk page →
        ∃ t', s'.thread tid = some t' ∧ t'.block = .none ∧ t'.pc = t.pc ∧ t'.g = t.g ∧ t'.readyAt = s.cc + 1 ∧
          match s.walkTables w.part (w.page * 2 ^ 16) with
          | .bad r => t'.walkRes = some (page, r)
          | .leaf base l => t'.walkRes = none ∧ (s'.core (coreOf tid)).tlb.head? = some ⟨w.part, base, l⟩) ∧
      ∀ n v, n ≠ k → (s.hearth h).walks[n]? = some v →
        ∃ v' ∈ (s'.hearth h).walks, v'.part = v.part ∧ v'.page = v.page ∧ ∀ x ∈ v.tids, x ∈ v'.tids

/-- A migration is requested once the thread's counters are zero and its transfers have ended: where the target grants its lowest free
slot the thread leaves, its old slot free at once, and else the form completes with 2. What is carried is the thread without MSTAT. -/
def MigrationRequested : Prop :=
  ∀ (s : State) (tid dest : Nat) (t : Thread) (d : GReg) (e : Nat), s.thread tid = some t → t.block = .migrate dest (.form d e) →
    t.waited .all → s.xbusy tid = false → (s.core dest).frozen = false → (s.core (coreOf tid)).frozen = false →
    (∀ g, s.grantFor dest t = some g → (s.core dest).lost = false →
      answers (exec (.migrationRequest tid) s) fun s' => s'.thread tid = none ∧
        s'.moving = s.moving ++ [⟨{ t with block := .none, mstat := 0, walkRes := none, noMig := false }, .form d e, g, tid⟩]) ∧
    ((s.grantFor dest t = none ∨ (s.core dest).lost = true) →
      answers (exec (.migrationRequest tid) s) fun s' => s'.thread tid = some ((t.wr d 2).completed s.cc))

/-- The lowest free slot of 0 to 14 that the couche names is granted; the owner needs a meter there only at user privilege. -/
def GrantedSlot : Prop :=
  ∀ (s : State) (core : Nat) (t : Thread) (g : Nat), s.grantFor core t = some g →
    (∃ k, k < 15 ∧ g = 16 * core + k ∧ some k ∈ (s.core core).couche ∧
      ∀ j, j < k → some j ∈ (s.core core).couche → s.thread (16 * core + j) = none → s.granted (16 * core + j) = false →
        s.reserved (16 * core + j) = true) ∧
    s.thread g = none ∧ s.granted g = false ∧ s.reserved g = false ∧ (t.priv ≠ 0 ∨ s.canMeter core t.owner = true)

/-- The migration parcel makes the thread that has left its slot ready in the granted one: with 0 in the register of its form at the next
word, or at the word it left for an atomic or by balancing. -/
def MigrationArrives : Prop :=
  ∀ (s : State) (tid : Nat) (m : Move), s.moving.find? (fun m => m.origin == tid) = some m →
    (s.core (coreOf m.slot)).frozen = false →
    answers (exec (.migrationParcel tid) s) fun s' =>
      (∀ d e, m.why = .form d e → s'.thread m.slot = some ((m.t.wr d 0).completed s.cc)) ∧
      ((m.why = .atomic ∨ m.why = .balance) → s'.thread m.slot = some { m.t with readyAt := s.cc + 1 })

end Sys2Proof.Machine

/-- An access parcel is performed once, in its order, at its place; acknowledgements, and copies that leave again. The model's reading: a
poisoned line marks the counter with SUB 4, and an uncorrectable error, which is an input, with SUB 1 (log 28, 73). -/
def Obligations.AccessParcels : Prop :=
  Sys2Proof.Machine.AccessParcelPerformed ∧
  Sys2Proof.Machine.ParcelsOnceInOrder ∧
  Sys2Proof.Machine.AcknowledgementLowersCounter ∧
  Sys2Proof.Machine.ParcelsResent

/-- Arrivals, wakes and handlers that come as parcels. -/
def Obligations.OtherParcels : Prop :=
  Sys2Proof.Machine.OtherParcelsPerformed ∧
  Sys2Proof.Machine.ClusterArrivalPerformed

/-- A walk completes, and a migration is requested, granted and arrives. The model's reading: what a thread does when its walk has
completed, and that only a thread at user privilege needs a meter (log 8, 35, 101). -/
def Obligations.WalksAndMigration : Prop :=
  Sys2Proof.Machine.WalkCompletes ∧
  Sys2Proof.Machine.MigrationRequested ∧
  Sys2Proof.Machine.GrantedSlot ∧
  Sys2Proof.Machine.MigrationArrives

namespace Sys2Proof.Machine

/-! ### The vector engine (R142 to R177) -/

/-- The g operands of the vector commands, x and y, and whether the thread waits for a g register: the registers that the forms
with a base, a stride, a value or an index name. -/
def vectorOf : Instr → Option (GReg × GReg × Bool)
  | .vadd _ _ _ _ _ | .vsub _ _ _ _ _ | .vmul _ _ _ _ _ | .vmulh _ _ _ _ _ | .vmin _ _ _ _ _ | .vmax _ _ _ _ _
  | .vsll _ _ _ _ _ | .vsrl _ _ _ _ _ | .vsra _ _ _ _ _ | .vadds _ _ _ _ _ | .vsubs _ _ _ _ _
  | .vcmpEq _ _ _ _ _ | .vcmpNe _ _ _ _ _ | .vcmpLt _ _ _ _ _ | .vcmpLe _ _ _ _ _
  | .vfadd _ _ _ _ _ | .vfsub _ _ _ _ _ | .vfmul _ _ _ _ _ | .vfma _ _ _ _ _ | .vfmin _ _ _ _ _ | .vfmax _ _ _ _ _
  | .vcvt _ _ _ _ _ | .vpk _ _ _ _ _ => some (0, 0, false)
  | .vand _ _ _ _ | .vor _ _ _ _ | .vxor _ _ _ _ | .vsel _ _ _ _ | .vperm _ _ _ _ | .vrsum _ _ _ _ | .vrmax _ _ _ _
  | .vfcmpEq _ _ _ _ | .vfcmpLt _ _ _ _ | .vfcmpLe _ _ _ _ | .vfcmpUn _ _ _ _ | .vex2 _ _ _ _ | .vlg2 _ _ _ _
  | .vrcp _ _ _ _ | .vrsq _ _ _ _ | .vsqrt _ _ _ _ | .vsin _ _ _ _ | .vcos _ _ _ _ | .vrng _ _ _ _ => some (0, 0, false)
  | .vmand _ _ _ | .vmor _ _ _ | .vmxor _ _ _ | .vmandn _ _ _ | .vrsumF32 _ _ _ | .vrmaxF32 _ _ _ => some (0, 0, false)
  | .vld _ a _ _ | .vst _ a _ _ => some (a, 0, false)
  | .vlds _ a i _ _ | .vsts _ a i _ _ => some (a, ⟨i.val, by omega⟩, false)
  | .vldg _ a _ _ _ | .vstg _ a _ _ _ | .vacc _ a _ _ _ => some (a, 0, false)
  | .vbc _ a _ => some (a, 0, false)
  | .vfix _ a _ _ | .vslide _ a _ _ => some (a, 0, false)
  | .vmovgv _ a i => some (a, ⟨i.val, by omega⟩, false)
  | .vunfix _ a _ => some (a, 0, false)
  | .vmovvg a _ _ => some (a, 0, true)
  | .vmovvgD a _ | .vmpop a _ => some (a, 0, true)
  | _ => none

/-- What the thread in `cur` must hold for a vector form to be legal: a vector context, and for `vacc` its tile too. -/
def State.holdsFor (s : State) (i : Instr) : Prop :=
  holdsCtx (s.core (coreOf s.cur)) s.cur = true ∧
  ∀ d a j k ty, i = .vacc d a j k ty → ((s.core (coreOf s.cur)).tiles.getD j {}).holder = some s.cur

/-- Sub-element s of width w of a 32-bit element. -/
def subEl (v w s : Nat) : BitVec w := BitVec.ofNat w (v / 2 ^ (w * s))

/-- Saturation to w bits, signed or not. -/
def satTo (w : Nat) (signed : Bool) (v : Int) : BitVec w :=
  if signed then BitVec.ofInt w (max (-(2 ^ (w - 1) : Nat)) (min v ((2 ^ (w - 1) : Nat) - 1)))
  else BitVec.ofInt w (max 0 (min v ((2 ^ w : Nat) - 1)))

/-- A sub-element as an integer. -/
def intOf (signed : Bool) {w : Nat} (v : BitVec w) : Int := if signed then v.toInt else v.toNat

/-- What the integer forms do to each sub-element, by its type's width and sign. -/
def vecInt (signed : Bool) {w : Nat} (p q : BitVec w) : Instr → Option (VReg × VReg × VReg × VType × BitVec w)
  | .vadd d a b _ t => some (d, a, b, t, p + q)
  | .vsub d a b _ t => some (d, a, b, t, p - q)
  | .vmul d a b _ t => some (d, a, b, t, p * q)
  | .vmulh d a b _ t => some (d, a, b, t, BitVec.ofInt w (intOf signed p * intOf signed q / (2 ^ w : Nat)))
  | .vmin d a b _ t => some (d, a, b, t, if intOf signed p ≤ intOf signed q then p else q)
  | .vmax d a b _ t => some (d, a, b, t, if intOf signed p ≤ intOf signed q then q else p)
  | .vsll d a b _ t => some (d, a, b, t, p <<< (q.toNat % w))
  | .vsrl d a b _ t => some (d, a, b, t, p >>> (q.toNat % w))
  | .vsra d a b _ t => some (d, a, b, t, p.sshiftRight (q.toNat % w))
  | .vadds d a b _ t => some (d, a, b, t, satTo w signed (intOf signed p + intOf signed q))
  | .vsubs d a b _ t => some (d, a, b, t, satTo w signed (intOf signed p - intOf signed q))
  | _ => none

/-- The integer forms compute every sub-element on its own, modulo its width or saturating, and raise no flag. -/
def VectorIntegerElements : Prop :=
  ∀ (c : VCmd) (x : VCtx) (tile : Nat → Word) (eacc i s : Nat) (t : VType) (d a b : VReg) (r : BitVec t.bitsOf),
    t.isI6 = true → s < t.pack → i < 64 →
    vecInt t.signed (subEl (x.el a i) t.bitsOf s) (subEl (x.el b i) t.bitsOf s) c.ins = some (d, a, b, t, r) →
    ∃ v, c.elem x tile eacc i = some (d.val, v, 0) ∧ v < 2 ^ 32 ∧ subEl v t.bitsOf s = r

/-- The forms on one 32-bit word: AND, OR, XOR, the broadcast, the starter mix of a counter under the STARTER captured at issue, and an
accumulator element, saturated to i32 or scaled to f32. -/
def VectorWordElements : Prop :=
  ∀ (c : VCmd) (x : VCtx) (tile : Nat → Word) (eacc i : Nat),
    let is := fun (d : VReg) (v : Nat) => c.elem x tile eacc i = some (d.val, v, 0)
    let el := fun (r : VReg) => BitVec.ofNat 32 (x.el r i)
    (∀ d a b k, (c.ins = .vand d a b k → is d (el a &&& el b).toNat) ∧ (c.ins = .vor d a b k → is d (el a ||| el b).toNat) ∧
      (c.ins = .vxor d a b k → is d (el a ^^^ el b).toNat)) ∧
    (∀ d g k, c.ins = .vbc d g k → is d (c.x.setWidth 32).toNat) ∧
    (∀ d r k t, c.ins = .vrng d r k t →
      let h1 := (el r ^^^ c.starter.setWidth 32) * 0x7FEB352D#32
      let h2 := ((h1 ^^^ (h1 >>> 16)) ^^^ (c.starter >>> 32).setWidth 32) * 0x846CA68B#32
      let h := h2 ^^^ (h2 >>> 15)
      let n := (h >>> 8).toNat
      (t = .n32 → is d h.toNat) ∧
      (t = .f32 → n = 0 → is d 0) ∧
      (t = .f32 → n ≠ 0 → is d ((Nat.log2 n + 102) * 2 ^ 23 + n * 2 ^ (23 - Nat.log2 n)))) ∧
    ∀ d g j k, let A := (tile (64 * (c.x.toNat % 4) + i)).toInt
      (c.ins = .vacc d g j k .i32 → is d (satTo 32 true A).toNat) ∧
      (c.ins = .vacc d g j k .f32 →
        c.elem x tile eacc i = some (d.val, fp32.pack c.frm (decide (A < 0)) A.natAbs (BitVec.ofNat 8 eacc).toInt))

/-- Destination, sources, type, and code and flags of a sub-element of the floating-point and SFU forms. -/
def vecFloat (c : VCmd) (f : Fmt) (p q r : Nat) : Option (VReg × VReg × VReg × VType × Nat × Nat) :=
  match c.ins with
  | .vfadd d a b _ t => some (d, a, b, t, f.addV c.frm (f.unpack p) (f.unpack q))
  | .vfsub d a b _ t => some (d, a, b, t, f.addV c.frm (f.unpack p) (f.unpack q).neg)
  | .vfmul d a b _ t => some (d, a, b, t, f.mulV c.frm (f.unpack p) (f.unpack q))
  | .vfma d a b _ t => some (d, a, b, t, f.fmaV c.frm (f.unpack p) (f.unpack q) (f.unpack r))
  | .vfmin d a b _ t => some (d, a, b, t, f.minmax false p q)
  | .vfmax d a b _ t => some (d, a, b, t, f.minmax true p q)
  | .vex2 d a _ t => some (d, a, a, t, f.sfu c.frm 0 p)
  | .vlg2 d a _ t => some (d, a, a, t, f.sfu c.frm 1 p)
  | .vrcp d a _ t => some (d, a, a, t, f.sfu c.frm 2 p)
  | .vrsq d a _ t => some (d, a, a, t, f.sfu c.frm 3 p)
  | .vsqrt d a _ t => some (d, a, a, t, f.sfu c.frm 4 p)
  | .vsin d a _ t => some (d, a, a, t, f.sfu c.frm 5 p)
  | .vcos d a _ t => some (d, a, a, t, f.sfu c.frm 6 p)
  | _ => none

/-- The floating-point and SFU forms compute every sub-element on its own, rounded by the FRM captured at issue, and an element's flags
are those of its sub-elements together. -/
def VectorFloatElements : Prop :=
  ∀ (c : VCmd) (x : VCtx) (tile : Nat → Word) (eacc i : Nat) (t : VType) (d a b : VReg) (r : Nat → Nat × Nat),
    (∀ s < t.pack, vecFloat c t.fmt (subEl (x.el a i) t.bitsOf s).toNat (subEl (x.el b i) t.bitsOf s).toNat
      (subEl (x.el d i) t.bitsOf s).toNat = some (d, a, b, t, r s)) →
    ∃ v fl, c.elem x tile eacc i = some (d.val, v, fl) ∧ v < 2 ^ 32 ∧
      (∀ s < t.pack, subEl v t.bitsOf s = BitVec.ofNat t.bitsOf (r s).1) ∧
      ∀ n, fl.testBit n = true ↔ ∃ s < t.pack, (r s).2.testBit n = true

/-- The special cases of the seven functions in the formats with infinities. -/
def SfuSpecialCases : Prop :=
  ∀ f ∈ [fp32, fp16, bf16, e5m2], ∀ (frm : Word) (c : Nat),
    let is := fun op r => f.sfu frm op c = r
    let inf := fun neg => f.signed neg f.infCode
    (∀ sig, f.unpack c = .nan sig → ∀ op < 7, is op (f.nan, if sig then fNV else 0)) ∧
    (f.unpack c = .inf false → is 0 (inf false, 0) ∧ is 1 (inf false, 0) ∧ is 2 (0, 0) ∧ is 3 (0, 0) ∧ is 4 (inf false, 0) ∧
      is 5 (f.nan, fNV) ∧ is 6 (f.nan, fNV)) ∧
    (f.unpack c = .inf true → is 0 (0, 0) ∧ is 1 (f.nan, fNV) ∧ is 2 (f.signed true 0, 0) ∧ is 3 (f.nan, fNV) ∧ is 4 (f.nan, fNV) ∧
      is 5 (f.nan, fNV) ∧ is 6 (f.nan, fNV)) ∧
    (∀ neg e, f.unpack c = .fin neg 0 e → is 1 (inf true, fDZ) ∧ is 2 (inf neg, fDZ) ∧ is 3 (inf neg, fDZ) ∧
      is 4 (f.signed neg 0, 0) ∧ is 5 (f.signed neg 0, 0)) ∧
    (∀ m e, f.unpack c = .fin true m e → m ≠ 0 → is 1 (f.nan, fNV) ∧ is 3 (f.nan, fNV) ∧ is 4 (f.nan, fNV)) ∧
    (c = f.bias * 2 ^ f.t → is 1 (0, 0))

/-- A conversion to a 32-bit element reads its sub-element of the source: an integer is rounded to f32 or extended, f32 is rounded and
saturated to an integer, and widening to f32 is exact; E2M1X code 8 is +0. -/
def VectorConversions : Prop :=
  ∀ (c : VCmd) (x : VCtx) (tile : Nat → Word) (eacc i : Nat) (d a : VReg) (k : MReg) (z t : VType), c.ins = .vcvt d a z k t →
    let q := subEl (x.el a (i / z.pack)) z.bitsOf (i % z.pack)
    let is := fun (r : Nat × Nat) => c.elem x tile eacc i = some (d.val, r)
    (t = .f32 → (z = .i32 → is (cvtIF fp32 c.frm q.toInt)) ∧ (z = .n32 → is (cvtIF fp32 c.frm q.toNat)) ∧
      (z ∈ [.f16, .bf16, .e4m3, .e5m2] → is (cvtFF z.fmt fp32 c.frm q.toNat)) ∧
      (z = .e2m1x → ∃ v, is (v, 0) ∧ fp32.unpack v = match unpackE2m1 q.toNat with
        | .fin s 0 _ => .fin s 0 fp32.qmin
        | .fin s m _ => .fin s (m * 2 ^ (23 - Nat.log2 m)) ((Nat.log2 m : Int) - 24)
        | y => y)) ∧
    (z = .f32 → (t = .i32 → let r := cvtFI fp32 (rmOf c.frm) (-2 ^ 31) (2 ^ 31 - 1) q.toNat; is ((BitVec.ofInt 32 r.1).toNat, r.2)) ∧
      (t = .n32 → let r := cvtFI fp32 (rmOf c.frm) 0 (2 ^ 32 - 1) q.toNat; is ((BitVec.ofInt 32 r.1).toNat, r.2))) ∧
    (t = .i32 → z = .i16 ∨ z = .i8 → is ((q.signExtend 32).toNat, 0)) ∧
    (t = .n32 → z = .n16 ∨ z = .n8 → is ((q.setWidth 32).toNat, 0)) ∧
    ∀ f ∈ [fp16, bf16, e4m3, e5m2], ∀ (frm : Word) (n : Nat), n < 2 * f.signBit →
      (∀ s m e, f.unpack n = .fin s m e → ∃ m' e', fp32.unpack (cvtFF f fp32 frm n).1 = .fin s m' e' ∧
        (cvtFF f fp32 frm n).2 = 0 ∧ m' * 2 ^ (e' - min e e').toNat = m * 2 ^ (e - min e e').toNat) ∧
      (∀ s, f.unpack n = .inf s → cvtFF f fp32 frm n = (fp32.signed s fp32.infCode, 0)) ∧
      ∀ sig, f.unpack n = .nan sig → cvtFF f fp32 frm n = (fp32.nan, if sig then fNV else 0)

/-- A pack form writes VL over p elements, rounded up: each sub-element is its source element converted, or 0 where that is inactive.
Every other element stays. -/
def VectorPacks : Prop :=
  ∀ (c : VCmd) (x : VCtx) (d a : VReg) (z : VType) (k : MReg) (t : VType), c.vl ≤ 64 → c.ins = .vpk d a z k t →
    let n := (c.vl + t.pack - 1) / t.pack
    let of := fun (e : Nat) => match t with
      | .e2m1x => toE2m1 c.frm e
      | .f16 => cvtFF fp32 fp16 c.frm e
      | .bf16 => cvtFF fp32 bf16 c.frm e
      | .e4m3 => cvtFF fp32 e4m3 c.frm e
      | .e5m2 => cvtFF fp32 e5m2 c.frm e
      | _ => ((satTo t.bitsOf t.signed (intOf t.signed (BitVec.ofNat 32 e))).toNat, 0)
    let r := fun i => if c.active x i then of (x.el a i) else (0, 0)
    (∀ j s, j < n → s < t.pack → subEl ((c.finish x).1.el d j) t.bitsOf s = BitVec.ofNat t.bitsOf (r (t.pack * j + s)).1) ∧
    (∀ g j, j < 64 → g ≠ d.val ∨ n ≤ j → (c.finish x).1.el g j = x.el g j) ∧ (c.finish x).1.m = x.m ∧
    ∀ b, (c.finish x).2.1.testBit b = true ↔ ∃ i < n * t.pack, (r i).2.testBit b = true

/-- The pairwise tree of a reduction: position i of level n + 1 combines positions 2i and 2i + 1 of level n, one operand alone is the
result, and the flags of every combination add up. -/
def pairTree (f : Nat → Nat → Nat × Nat) (leaf : Nat → Option Nat) : Nat → Nat → Option Nat × Nat
  | 0, i => (leaf i, 0)
  | n + 1, i =>
    let p := pairTree f leaf n (2 * i)
    let q := pairTree f leaf n (2 * i + 1)
    match p.1, q.1 with
    | some a, some b => (some (f a b).1, p.2 ||| q.2 ||| (f a b).2)
    | some a, none => (some a, p.2 ||| q.2)
    | none, r => (r, p.2 ||| q.2)

/-- A reduction writes element 0 of its destination and no other: the sum modulo 2 to the 32, the greatest element or the type's least
value, and in f32 the pairwise tree over 64 positions. -/
def VectorReductions : Prop :=
  ∀ (c : VCmd) (x : VCtx) (d a : VReg) (k : MReg), c.vl ≤ 64 →
    let y := (c.finish x).1
    let others := y.m = x.m ∧ ∀ g j, j < 64 → g ≠ d.val ∨ j ≠ 0 → y.el g j = x.el g j
    let leaf := fun i => if c.active x i then some (x.el a i) else none
    let tree := fun (f : Nat → Nat → Nat × Nat) (none : Nat) => let r := pairTree f leaf 6 0
      y.el d 0 = r.1.getD none % 2 ^ 32 ∧ (c.finish x).2.1 = r.2 ∧ others
    let sum := ((List.range 64).map fun i => if c.active x i then x.el a i else 0).sum
    (∀ t, t = .i32 ∨ t = .n32 → c.ins = .vrsum d a k t → y.el d 0 = sum % 2 ^ 32 ∧ (c.finish x).2.1 = 0 ∧ others) ∧
    (∀ t, t = .i32 ∨ t = .n32 → c.ins = .vrmax d a k t →
      let int := fun n => intOf t.signed (BitVec.ofNat 32 n)
      (∀ i < 64, c.active x i = true → int (x.el a i) ≤ int (y.el d 0)) ∧ (c.finish x).2.1 = 0 ∧ others ∧
      ((∃ i < 64, c.active x i = true ∧ y.el d 0 = x.el a i) ∨
        ((∀ i < 64, c.active x i = false) ∧ y.el d 0 = if t.signed then 2 ^ 31 else 0))) ∧
    (c.ins = .vrsumF32 d a k → tree (fun p q => fp32.addV c.frm (fp32.unpack p) (fp32.unpack q)) 0) ∧
    (c.ins = .vrmaxF32 d a k → tree (fun p q => fp32.minmax true p q) 0xFF800000)

/-- vfix adds the fixed-point value of every active element to the 128-bit number in elements 0 to 3 of its destination, modulo 2 to the
128, and vunfix writes that number, times 2 to the exponent minus 96 and rounded to f32, to element 0. No other element changes. -/
def VectorFixedPoint : Prop :=
  ∀ (c : VCmd) (x : VCtx), c.vl ≤ 64 →
    let y := (c.finish x).1
    let big := fun (x : VCtx) (r : VReg) => BitVec.ofNat 32 (x.el r 3) ++ BitVec.ofNat 32 (x.el r 2) ++ BitVec.ofNat 32 (x.el r 1) ++
      BitVec.ofNat 32 (x.el r 0)
    let E := (c.x.setWidth 16).toInt
    (∀ d g a k, c.ins = .vfix d g a k →
      big y d = big x d + BitVec.ofInt 128 ((List.range 64).map fun i => if c.active x i then (toFix E (x.el a i)).1 else 0).sum ∧
      (∀ b, (c.finish x).2.1.testBit b = true ↔ ∃ i < 64, c.active x i = true ∧ (toFix E (x.el a i)).2.testBit b = true) ∧
      y.m = x.m ∧ ∀ r j, j < 64 → r ≠ d.val ∨ 4 ≤ j → y.el r j = x.el r j) ∧
    ∀ d g a, c.ins = .vunfix d g a →
      let q := (big x a).toInt
      let r := fp32.pack c.frm (decide (q < 0)) q.natAbs (E - 96)
      y.el d 0 = r.1 % 2 ^ 32 ∧ (c.finish x).2.1 = r.2 ∧ y.m = x.m ∧ ∀ n j, j < 64 → n ≠ d.val ∨ j ≠ 0 → y.el n j = x.el n j

/-- A beat of a form that writes elements one by one writes the active elements of its beat, leaves every other element, every
mask and every byte of memory as it was, and moves the restart element on; the last beat retires the command. -/
def VectorBeatWritesElements : Prop :=
  ∀ (s : State) (core per : Nat) (c : VCmd) (l : List VCmd), (s.core core).vq = c :: l →
    (s.core core).beatDue s.cc c = true → (s.core core).engineHeld c.begun = false → s.mustWait core c.uid = false → s.vaccReady core c = true →
    Instr.vshape c.ins = .elems per → Instr.vmem c.ins = none → holdsCtx (s.core core) c.tid = true → c.vl ≤ 64 → c.pos < c.vl →
    (∀ d a b k, c.ins ≠ .vsel d a b k) → c.halting = false →
    let x := (s.core core).ctx c.tid
    let tl := match c.ins with
      | .vacc _ _ i _ _ => (s.core core).tiles.getD i {}
      | _ => {}
    let result := fun i => c.elem x (fun j => (tl.el.look j).getD 0) tl.eacc i
    let hi := min (c.pos + per) c.vl
    (∀ i, c.cond x i = none) →
    answers (exec (.vectorBeat core) s) fun s' =>
      let y := (s'.core core).ctx c.tid
      (∀ i d v f, c.pos ≤ i → i < hi → c.active x i = true → result i = some (d, v, f) → d < 16 → y.el d i = v % 2 ^ 32) ∧
      (∀ k i, i < 64 → (i < c.pos ∨ hi ≤ i ∨ c.active x i = false ∨ ∀ v f, result i ≠ some (k, v, f)) → y.el k i = x.el k i) ∧
      y.m = x.m ∧ (∀ l, s'.readLoc l 1 = s.readLoc l 1) ∧
      (hi = c.vl → ∀ c' ∈ (s'.core core).vq, c'.uid ≠ c.uid) ∧
      (hi < c.vl → ∃ c' ∈ (s'.core core).vq, c'.uid = c.uid ∧ c'.pos = hi ∧ c'.begun = true)

/-- A beat of a comparison sets or clears the mask bits of its beat and no other; its last beat also clears the bits from VL on. -/
def VectorCompareBeat : Prop :=
  ∀ (s : State) (core : Nat) (c : VCmd) (l : List VCmd) (d : MReg), (s.core core).vq = c :: l → d ≠ 0 →
    (s.core core).beatDue s.cc c = true → (s.core core).engineHeld c.begun = false → s.mustWait core c.uid = false → s.vaccReady core c = true →
    Instr.vshape c.ins = .elems 16 → holdsCtx (s.core core) c.tid = true → c.vl ≤ 64 → c.pos < c.vl →
    let x := (s.core core).ctx c.tid
    let hi := min (c.pos + 16) c.vl
    (∀ i, ∃ b f, c.cond x i = some (d.val, b, f)) →
    answers (exec (.vectorBeat core) s) fun s' =>
      let y := (s'.core core).ctx c.tid
      (∀ i b f, c.pos ≤ i → i < hi → c.cond x i = some (d.val, b, f) →
        (y.mask d).toNat.testBit i = (c.active x i && b)) ∧
      (∀ i, i < 64 → (i < c.pos ∨ (hi ≤ i ∧ hi < c.vl)) → (y.mask d).toNat.testBit i = (x.mask d).toNat.testBit i) ∧
      (hi = c.vl → ∀ i, c.vl ≤ i → i < 64 → (y.mask d).toNat.testBit i = false) ∧
      (∀ k, k < 8 → k ≠ d.val → y.mask k = x.mask k) ∧ ∀ k i, y.el k i = x.el k i

/-- The result of the last beat of the forms that run whole: mask logic, moves between g registers and elements, permutation, slide
and the population count of a mask. -/
def VectorWholeForms : Prop :=
  ∀ (c : VCmd) (x : VCtx), c.vl ≤ 64 →
    (∀ d a b : MReg, d ≠ 0 →
      (c.ins = .vmand d a b → ((c.finish x).1.mask d) = x.mask a &&& x.mask b) ∧
      (c.ins = .vmor d a b → ((c.finish x).1.mask d) = x.mask a ||| x.mask b) ∧
      (c.ins = .vmxor d a b → ((c.finish x).1.mask d) = x.mask a ^^^ x.mask b) ∧
      (c.ins = .vmandn d a b → ((c.finish x).1.mask d) = x.mask a &&& ~~~x.mask b)) ∧
    (∀ d g i, c.ins = .vmovgv d g i → (c.finish x).1.el d (c.y.toNat % 64) = c.x.toNat % 2 ^ 32 ∧
      ∀ k j, j < 64 → (k ≠ d.val ∨ j ≠ c.y.toNat % 64) → (c.finish x).1.el k j = x.el k j) ∧
    (∀ g i, c.ins = .vmovvg g i .i32 →
      (c.finish x).2.2 = some (g, (BitVec.ofNat 32 (x.el i (c.x.toNat % 64))).signExtend 64)) ∧
    (∀ g i, c.ins = .vmovvg g i .n32 →
      (c.finish x).2.2 = some (g, (BitVec.ofNat 32 (x.el i (c.x.toNat % 64))).setWidth 64)) ∧
    (∀ g i, c.ins = .vmovvgD g i → (c.finish x).2.2 = some (g,
      BitVec.ofNat 32 (x.el i (c.x.toNat % 64 / 2 * 2 + 1)) ++ BitVec.ofNat 32 (x.el i (c.x.toNat % 64 / 2 * 2)))) ∧
    (∀ g m, c.ins = .vmpop g m → (c.finish x).2.2 = some (g, ((x.mask m).setWidth c.vl).setWidth 64 |>.cpop)) ∧
    (∀ d a b k i, c.ins = .vperm d a b k → i < 64 →
      (c.finish x).1.el d i = if c.active x i then x.el a (x.el b i % 64) else x.el d i) ∧
    ∀ d g a k i, c.ins = .vslide d g a k → i < 64 →
      (c.finish x).1.el d i = if c.active x i then
        (if 0 ≤ (i : Int) + c.x.toInt ∧ (i : Int) + c.x.toInt ≤ 63 then x.el a ((i : Int) + c.x.toInt).toNat else 0) else x.el d i

/-- vclaim answers 1 with a cleared free context held, 1 when one is held already, and 0 when none is free; vrel releases it once
the thread's commands are done; vsetl sets VL to its source, at least 1 and at most 64, and returns it. -/
def VectorContextForms : Prop :=
  ∀ (s : State) (t : Thread) (a : GReg), s.thread s.cur = some t →
    let me := coreOf s.cur
    let v := t.rd a
    (holdsCtx (s.core me) s.cur = true → s.retires (.vclaim a) (t.wr a 1) (t.pc + 4)) ∧
    (holdsCtx (s.core me) s.cur = false → (∀ x ∈ (s.core me).vctx, x.holder ≠ none) →
      s.retires (.vclaim a) (t.wr a 0) (t.pc + 4)) ∧
    (holdsCtx (s.core me) s.cur = false → (∃ x ∈ (s.core me).vctx, x.holder = none) →
      answers (exec (.vclaim a) s) fun s' => holdsCtx (s'.core me) s.cur = true ∧
        (s'.core me).ctx s.cur = { holder := some s.cur } ∧
        s'.thread s.cur = some ((t.wr a 1).retired (t.pc + 4))) ∧
    (s.vbusy s.cur = false → t.vrec = [] → answers (exec .vrel s) fun s' => holdsCtx (s'.core me) s.cur = false ∧
      s'.thread s.cur = some (t.retired (t.pc + 4))) ∧
    (s.vbusy s.cur = true ∨ t.vrec ≠ [] → s.blocks .vrel t (.await .vgone s.ir)) ∧
    let n : Word := if v = 0 then 1 else if 64 ≤ v.toNat then 64 else v
    s.retires (.vsetl a) ({ t with fp := { t.fp with vl := n } }.wr a n) (t.pc + 4)

end Sys2Proof.Machine

/-- From a thread that holds a context, and for vacc its tile, with room in the queue, exec of every vector form answers a next state: a
form that touches no memory always, one that does with its base aligned in own LM, its elements there and room in the range table. The
thread is at the next word, or awaits the g register that the form writes. With a full range table the latter form's position is a bubble.
The model's choice: the check of R155 takes an element as active by the mask as it stands at issue (log 62). -/
def Obligations.VectorFormsComplete : Prop :=
  ∀ (s : State) (t : Thread) (i : Instr) (a y : GReg) (blocks : Bool), s.thread s.cur = some t →
    vectorOf i = some (a, y, blocks) →
    let me := coreOf s.cur
    let after := fun (s' : State) => s'.thread s.cur =
      some (if blocks then { t.issued with block := .vvalue } else t.retired (t.pc + 4))
    s.holdsFor i → (s.core me).vq.length < 2 →
    (Instr.vmem i = none → ∃ s', exec i s = .next s' ∧ after s') ∧
    ∀ store kind d iv ty off, Instr.vmem i = some (store, kind, d, iv, ty) → s.window t.part me (t.rd a) = some (.lm me off) →
      off % ty.bytes = 0 → off + ty.bytes ≤ 2 ^ 18 →
      (kind = 2 ∨ ∀ j, j < t.fp.vl.toNat % 128 → ∃ o, s.window t.part me (vaddr kind (t.rd a) (t.rd y) ty j) = some (.lm me o) ∧
        o + ty.bytes ≤ 2 ^ 18) →
      ((s.core me).lockCount < 32 → ∃ s', exec i s = .next s' ∧ after s') ∧
      (32 ≤ (s.core me).lockCount → s.isBubble i)

/-- A vector command without a context, and a vacc without its tile, is ILLEGAL, and one whose LM range R155 refuses takes ADDR with the
failing address. Else it enters the queue with the operands, VL, FRM and STARTER it captures and its range registered, and its thread goes
on at the next word or, for a form that writes a g register, waits; a full queue, or for a form with a range a full range table, makes the
position a bubble. The model's choice: the check of R155 takes an element as active by the mask as it stands at issue (log 62). -/
def Obligations.VectorFormsIssue : Prop :=
  ∀ (s : State) (t : Thread) (i : Instr) (a y : GReg) (blocks : Bool), s.thread s.cur = some t →
    vectorOf i = some (a, y, blocks) →
    let me := coreOf s.cur
    let k := s.core me
    (¬ s.holdsFor i → exec i s = s.illegal t) ∧
    (s.holdsFor i →
      (∀ v, s.vcheck t (k.ctx s.cur) i (t.rd a) (t.rd y) = .error v → exec i s = s.addr t v) ∧
      ∀ r, s.vcheck t (k.ctx s.cur) i (t.rd a) (t.rd y) = .ok r →
        (2 ≤ k.vq.length ∨ (r ≠ none ∧ 32 ≤ k.lockCount) → s.isBubble i) ∧
        (k.vq.length < 2 → r = none ∨ k.lockCount < 32 → answers (exec i s) fun s' =>
          (∃ c, (s'.core me).vq = k.vq ++ [c] ∧ c.ins = i ∧ c.uid = s.uid ∧ c.tid = s.cur ∧ c.owner = t.owner ∧ c.priv = t.priv ∧
            c.x = t.rd a ∧ c.y = t.rd y ∧ c.vl = t.fp.vl.toNat % 128 ∧ c.frm = t.fp.frm ∧ c.starter = t.fp.starter ∧
            c.pos = 0 ∧ c.begun = false ∧ c.entered = s.cc) ∧
          (∀ w lo hi, r = some (w, lo, hi) → lo < hi → ∃ l ∈ (s'.core me).locks, l.space = .lm me ∧ l.lo = lo ∧ l.hi = hi ∧
            l.w = w ∧ l.uid = s.uid) ∧
          (s'.core me).vctx = k.vctx ∧ (s'.core me).lm = k.lm ∧
          (blocks = false → s'.thread s.cur = some (t.retired (t.pc + 4))) ∧
          (blocks = true → s'.thread s.cur = some { t.issued with block := .vvalue })))

/-- The values of the integer, floating-point, SFU, conversion, reduction and fixed-point vector forms, and the frame of a beat. The model's
choice: a sum over one active element alone is that element unchanged, with no flag, and an inexact vfix raises none (log 92, 104). -/
def Obligations.VectorElements : Prop :=
  Sys2Proof.Machine.VectorIntegerElements ∧
  Sys2Proof.Machine.VectorWordElements ∧
  Sys2Proof.Machine.VectorFloatElements ∧
  Sys2Proof.Machine.SfuSpecialCases ∧
  Sys2Proof.Machine.VectorConversions ∧
  Sys2Proof.Machine.VectorPacks ∧
  Sys2Proof.Machine.VectorReductions ∧
  Sys2Proof.Machine.VectorFixedPoint ∧
  Sys2Proof.Machine.VectorBeatWritesElements

/-- Comparisons, mask logic, moves, permutation, and the context forms. -/
def Obligations.VectorMasksAndMoves : Prop :=
  Sys2Proof.Machine.VectorCompareBeat ∧
  Sys2Proof.Machine.VectorWholeForms ∧
  Sys2Proof.Machine.VectorContextForms

/-- A beat of a load from LM gives each active element the sign- or zero-extended datum of its address, and one of a store writes the low
bytes of each active element there. The model's choice: an element that becomes active after issue has its address taken modulo 2^18 (log
62). -/
def Obligations.VectorMemoryBeat : Prop :=
  ∀ (s : State) (core per kind d iv : Nat) (c : VCmd) (l : List VCmd) (store : Bool) (t : VType),
    (s.core core).vq = c :: l → (s.core core).beatDue s.cc c = true → (s.core core).engineHeld c.begun = false → s.mustWait core c.uid = false →
    s.vaccReady core c = true → Instr.vshape c.ins = .elems per → Instr.vmem c.ins = some (store, kind, d, iv, t) →
    t.isMem = true → holdsCtx (s.core core) c.tid = true → c.vl ≤ 64 → c.pos < c.vl → (s.core core).poisoned = [] →
    let x := (s.core core).ctx c.tid
    let hi := min (c.pos + per) c.vl
    let off := fun i => if kind = 2 then ((c.x.toNat % 2 ^ 18) + x.el iv i * t.bytes) % 2 ^ 18
      else (c.x + BitVec.ofNat 64 i * (if kind = 0 then BitVec.ofNat 64 t.bytes else c.y)).toNat % 2 ^ 18
    answers (exec (.vectorBeat core) s) fun s' =>
      let y := (s'.core core).ctx c.tid
      (store = false → s'.mem (.lm core) = s.mem (.lm core) ∧
        ∀ i, c.pos ≤ i → i < hi → c.active x i = true →
          y.el d i = (if t.signed then (subEl ((s.mem (.lm core)).read (off i) t.bytes) (8 * t.bytes) 0).signExtend 32
            else (subEl ((s.mem (.lm core)).read (off i) t.bytes) (8 * t.bytes) 0).setWidth 32).toNat) ∧
      (store = true → (∀ k i, y.el k i = x.el k i) ∧
        (∀ a, (∀ i, c.pos ≤ i → i < hi → c.active x i = true → a < off i ∨ off i + t.bytes ≤ a) →
          (s'.mem (.lm core)).byte a = (s.mem (.lm core)).byte a) ∧
        ∀ i, c.pos ≤ i → i < hi → c.active x i = true →
          (∀ j, i < j → j < hi → c.active x j = true → off i + t.bytes ≤ off j ∨ off j + t.bytes ≤ off i) →
          (s'.mem (.lm core)).read (off i) t.bytes = x.el d i % 2 ^ (8 * t.bytes))

namespace Sys2Proof.Machine

/-! ### The matrix engine (R178 to R208) -/

/-- Tile, g operands, gate register and refusal of the matrix commands that enter the queue at issue. -/
def matrixOf : Instr → Option (Tile × GReg × GReg × GReg × Option GReg × (MatRegs → Nat))
  | .mzero d t => some (t, 0, 0, d, some d, fun _ => 0)
  | .mbias a d t => some (t, a, 0, d, some d, fun r => if r.badGeom then 3 else 0)
  | .mmul a b d t => some (t, a, b, d, some d, fun r => r.refusal false)
  | .mdrain a b _ t => some (t, a, b, 0, none, fun r => if r.badGeom then 3 else 0)
  | _ => none

/-- The LM ranges of a matrix command: the operands and the vectors that its formats use. -/
def matrixRanges (s : State) (t : Thread) : Instr → List (Except Word Lock)
  | .mbias a _ _ => [s.mrange t (t.rd a) (8 * t.mat.n) 8 false]
  | .mmul a b _ _ =>
    [s.mrange t (t.rd a) (t.mat.m * (t.mat.k * t.mat.sideA.store / 8)) 8 false,
      s.mrange t (t.rd b) (t.mat.n * (t.mat.k * t.mat.sideB.store / 8)) 8 false] ++ s.mvectors t t.mat
  | .mdrain a b y _ => [s.mrange t (t.rd a) (t.mat.m * t.mat.n * y.bytes) 8 true, s.mrange t (t.rd b) (16 * t.mat.n) 8 false]
  | _ => []

/-- MSTAT after a refusal with a code: REF and the code, unless REF is set already (R187, R188). -/
def refusedStat (m : Word) (code : Nat) : Word :=
  if m.getLsbD 8 then m else (m &&& ~~~0xFF0000#64) ||| 0x100#64 ||| BitVec.ofNat 64 (code * 2 ^ 16)

/-- A matrix command on a tile that its thread does not hold is ILLEGAL; one that R188 refuses retires with the refusal in MSTAT and
enters nothing; one whose ranges do not lie in own LM takes ADDR. Else it enters the queue with the operands and the shadow
registers it captures, the gate that its register names, and its ranges registered; a full queue or range table makes the position
a bubble. -/
def MatrixCommandsIssue : Prop :=
  ∀ (s : State) (t : Thread) (i : Instr) (tile : Tile) (a b d : GReg) (gate : Option GReg) (ref : MatRegs → Nat),
    s.thread s.cur = some t → matrixOf i = some (tile, a, b, d, gate, ref) →
    let me := coreOf s.cur
    let k := s.core me
    let held := (k.tiles.getD tile {}).holder = some s.cur
    (¬held → exec i s = s.illegal t) ∧
    (held → ref t.mat ≠ 0 → s.retires i { t with mstat := refusedStat t.mstat (ref t.mat) } (t.pc + 4)) ∧
    (held → ref t.mat = 0 →
      (∀ v, allOk (matrixRanges s t i) = .error v → exec i s = s.addr t v) ∧
      ∀ ls, allOk (matrixRanges s t i) = .ok ls →
        (2 ≤ k.mqUsed s.cc ∨ 32 < k.lockCount + lockEntries ls → s.isBubble i) ∧
        (k.mqUsed s.cc < 2 → k.lockCount + lockEntries ls ≤ 32 → answers (exec i s) fun s' =>
          (∃ c, (s'.core me).mq = k.mq ++ [c] ∧ c.ins = i ∧ c.uid = s.uid ∧ c.tid = s.cur ∧ c.owner = t.owner ∧ c.priv = t.priv ∧
            c.tile = tile.val ∧ c.ga = t.rd a ∧ c.gb = t.rd b ∧ c.gd = t.rd d ∧ c.regs = t.mat ∧ c.begun = false ∧ c.done = 0 ∧
            c.entered = s.cc ∧ c.gate = match gate with
              | some g => if g = 0 then none else some ⟨(t.rd g).toNat % 64, (s.bar me ((t.rd g).toNat % 64)).phase⟩
              | none => none) ∧
          (∀ l ∈ ls, l.lo < l.hi → ∃ x ∈ (s'.core me).locks, x.space = l.space ∧ x.lo = l.lo ∧ x.hi = l.hi ∧ x.w = l.w ∧ x.uid = l.uid) ∧
          (s'.core me).tiles = k.tiles ∧ (s'.core me).lm = k.lm ∧
          s'.thread s.cur = some (t.retired (t.pc + 4))))

/-- mmulg: while another thread's gathered multiply holds the operand latch, or one that has issued, its position is a bubble. Else it
passes the same checks, with the index vector and every row that it names, takes the latch, and its thread waits for the gather unit.
Presented again with the latch filled for it, the command enters the queue and the instruction issues, whatever the index vector and
the rows hold by then; a full queue or range table makes that position a bubble. -/
def GatheredMultiply : Prop :=
  ∀ (s : State) (t : Thread) (a b d : GReg) (tile : Tile), s.thread s.cur = some t →
    let me := coreOf s.cur
    let k := s.core me
    let i : Instr := .mmulg a b d tile
    let c := s.mcmd t i tile (t.rd a) (t.rd b) (t.rd d) none
    (k.tiles.getD tile {}).holder = some s.cur →
    let vectors := allOk (s.mrange t (t.rd b) (t.mat.n * (t.mat.k * t.mat.sideB.store / 8)) 8 false :: s.mvectors t t.mat)
    let filled := ∃ l, k.latch = some l ∧ l.serves c = true
    (s.latchBusy me s.cur = true → s.isBubble i) ∧
    (s.latchBusy me s.cur = false → ¬ filled → t.mat.refusal true ≠ 0 →
      s.retires i { t with mstat := refusedStat t.mstat (t.mat.refusal true) } (t.pc + 4)) ∧
    (∀ v, s.latchBusy me s.cur = false → ¬ filled → t.mat.refusal true = 0 → s.gatherCheck t (t.rd a) (t.rd d) = .error v →
      exec i s = s.addr t v) ∧
    (∀ rows ls, s.latchBusy me s.cur = false → ¬ filled → t.mat.refusal true = 0 →
      s.gatherCheck t (t.rd a) (t.rd d) = .ok rows → vectors = .ok ls → answers (exec i s) fun s' =>
        (s'.core me).latch = some { cmd := c, rows := rows } ∧ (s'.core me).mq = k.mq ∧
        s'.thread s.cur = some { t with block := .latch }) ∧
    ∀ l ls, s.latchBusy me s.cur = false → k.latch = some l → l.serves c = true → vectors = .ok ls →
      let full := 2 ≤ k.mqUsed s.cc ∨ 32 < k.lockCount + lockEntries (ls.map fun x => { x with uid := l.cmd.uid })
      (full → s.isBubble i) ∧
      (¬ full → answers (exec i s) fun s' =>
        (s'.core me).mq = k.mq ++ [{ c with uid := l.cmd.uid, entered := s.cc }] ∧ (s'.core me).latch = some l ∧
        s'.thread s.cur = some (t.retired (t.pc + 4)))

/-- The gather unit fills the latch with the rows as LM holds them, once no W range of another engine holds one, and the thread that
waits for it is in rotation again from the next cc. -/
def LatchFilled : Prop :=
  ∀ (s : State) (core : Nat) (l : Latch) (t : Thread), (s.core core).latch = some l → l.data = none →
    s.thread l.cmd.tid = some t → t.block = .latch → (s.core core).frozen = false → (s.core core).lost = false →
    (∀ x ∈ (s.core core).locks, x.w = false) → (s.core core).poisoned = [] →
    answers (exec (.operandLatchFilled core) s) fun s' => (s'.core core).mq = (s.core core).mq ∧
      (s'.core core).latch = some { l with data := some ((l.rows.map fun o =>
        (numsFrom o l.cmd.ra).map fun x => (s.core core).lm.byte x).flatten) } ∧
      s'.thread l.cmd.tid = some { t with block := .none, readyAt := s.cc + 1 }

/-- One engine cycle of a multiply in a pass with cycles left counts that cycle, at most one in a cc; the last cycle of a pass charges
the matrix entry MBLK/64 times, and the last pass of the last block adds the totals to the tile, under the mode of MACC, and
retires. -/
def PlanePassCycles : Prop :=
  ∀ (s : State) (core : Nat) (c : MCmd), s.mpick core = some c → c.isMul = true → (s.core core).engineHeld c.begun = false →
    ((s.core core).mrun = some s.cc → exec (.matrixPlanePass core) s = .next s) ∧
    ((s.core core).mrun ≠ some s.cc → c.begun = true → 1 < c.left → answers (exec (.matrixPlanePass core) s) fun s' =>
      s'.core core = ({ s.core core with mrun := some s.cc }).setM { c with left := c.left - 1 } ∧
      ∀ tid, s'.thread tid = s.thread tid) ∧
    ((s.core core).mrun ≠ some s.cc → c.begun = true → c.left = 1 → c.fin = false → c.stopping = none →
      (∀ x ∈ (s.core core).mq, x.halting = false) → answers (exec (.matrixPlanePass core) s) fun s' =>
        let run := ({ s with signals := s.signals ++ [(core, 31)] } : State).setCore core { s.core core with mrun := some s.cc }
        s'.core core = ((run.charge core c.owner c.priv 5 (c.regs.blk / 64)).core core).setM { c with left := 0 }) ∧
    ((s.core core).mrun ≠ some s.cc → c.begun = true → c.left = 1 → c.fin = true → c.stopping = none → c.tile < 8 →
      (s.core core).tiles.length = 8 → c.regs.n ≤ 16 → (∀ x ∈ (s.core core).mq, x.halting = false) →
      answers (exec (.matrixPlanePass core) s) fun s' =>
        (∀ c' ∈ (s'.core core).mq, c'.uid ≠ c.uid) ∧
        (∀ m m', (s.core core).meterOf c.owner = some m → c.priv = 0 → m.job = true → (s.core core).ckpt = false → m.meter < 2 ^ 48 →
          (s'.core core).meterOf c.owner = some m' →
          m'.meter = min (m.meter + s.weight core c.owner 5 * (c.regs.blk / 64)) (2 ^ 48 - 1)) ∧
        let tl := (s.core core).tiles.getD c.tile {}
        let tl' := (s'.core core).tiles.getD c.tile {}
        tl'.eacc = c.regs.macc.toNat % 256 ∧ tl'.mode = c.regs.macc.toNat / 256 % 4 ∧ tl'.contT = [] ∧ tl'.contS = [] ∧
        ∀ i n, i < c.regs.m → n < c.regs.n →
          ((tl'.el.look (16 * i + n)).getD 0) = BitVec.ofInt 64 (accMode c.regs.mode
            (((tl.el.look (16 * i + n)).getD 0).toInt + (c.t.look (16 * i + n)).getD 0)).1)

/-- The accumulator modes: 32 bits wrapping or saturating, 64 bits wrapping or saturating, and SAT where saturation changed the
value. -/
def AccumulatorModes : Prop :=
  ∀ (v : Int),
    (accMode 0 v).1 = (BitVec.ofInt 32 v).toInt ∧ (accMode 2 v).1 = (BitVec.ofInt 64 v).toInt ∧
    (accMode 1 v).1 = max (-2 ^ 31) (min v (2 ^ 31 - 1)) ∧ (accMode 3 v).1 = max (-2 ^ 63) (min v (2 ^ 63 - 1)) ∧
    (accMode 0 v).2 = false ∧ (accMode 2 v).2 = false ∧ ((accMode 1 v).2 = true ↔ v < -2 ^ 31 ∨ 2 ^ 31 ≤ v) ∧
    ((accMode 3 v).2 = true ↔ v < -2 ^ 63 ∨ 2 ^ 63 ≤ v)

/-- A cycle of mzero clears its tile, records the exponent and mode of MACC and retires; the second cycle of mbias adds its row to
every row of the tile under the mode; a cycle of mdrain writes the row of its number, each element biased, scaled, shifted with
ties to even, offset and saturated to the output type. -/
def MatrixCommandCycles : Prop :=
  ∀ (s : State) (core : Nat) (c : MCmd), s.mpick core = some c → (s.core core).engineHeld c.begun = false →
    (s.core core).mrun ≠ some s.cc → c.stopping = none → c.tile < 8 → (s.core core).tiles.length = 8 → (s.core core).poisoned = [] → c.regs.n ≤ 16 →
    let tl := (s.core core).tiles.getD c.tile {}
    (∀ d t, c.ins = .mzero d t → answers (exec (.matrixCommandCycle core) s) fun s' =>
      (∀ c' ∈ (s'.core core).mq, c'.uid ≠ c.uid) ∧ let tl' := (s'.core core).tiles.getD c.tile {}
      tl'.el = [] ∧ tl'.eacc = c.regs.macc.toNat % 256 ∧ tl'.mode = c.regs.macc.toNat / 256 % 4 ∧ tl'.holder = tl.holder) ∧
    (∀ a d t, c.ins = .mbias a d t → c.done = 1 → answers (exec (.matrixCommandCycle core) s) fun s' =>
      (∀ c' ∈ (s'.core core).mq, c'.uid ≠ c.uid) ∧ let tl' := (s'.core core).tiles.getD c.tile {}
      ∀ i n, i < c.regs.m → n < c.regs.n → ((tl'.el.look (16 * i + n)).getD 0) = BitVec.ofInt 64 (accMode c.regs.mode
        (((tl.el.look (16 * i + n)).getD 0).toInt +
          (BitVec.ofNat 64 ((s.mem (.lm core)).read (c.ga.toNat % 2 ^ 18 + 8 * n) 8)).toInt)).1) ∧
    ∀ a b t y, c.ins = .mdrain a b t y → t.isI6 = true → c.done < c.regs.m →
      let desc := fun n => c.gb.toNat % 2 ^ 18 + 16 * n
      let m := s.mem (.lm core)
      let bias := fun n => (BitVec.ofNat 64 (m.read (desc n) 8)).toInt
      let mult := fun n => (BitVec.ofNat 32 (m.read (desc n + 8) 4)).toInt
      let shift := fun n => m.read (desc n + 12) 1 % 64
      let zp := fun n => (BitVec.ofNat 16 (m.read (desc n + 14) 2)).toInt
      answers (exec (.matrixCommandCycle core) s) fun s' => ∀ n, n < c.regs.n →
        (s'.mem (.lm core)).read (c.ga.toNat % 2 ^ 18 + (c.done * c.regs.n + n) * t.bytes) t.bytes =
          (BitVec.ofInt (8 * t.bytes) (max t.lo (min t.hi (rneShift ((((tl.el.look (16 * c.done + n)).getD 0).toInt + bias n) *
            mult n) (-(shift n : Int)) + zp n)))).toNat

/-- mclaim takes every tile of its mask that is free, cleared, and answers the mask, when no other thread holds one; else it takes none
and answers 0. mrel releases the named tiles that the thread holds once its commands on them are done. -/
def TileClaims : Prop :=
  ∀ (s : State) (t : Thread) (a d : GReg), s.thread s.cur = some t → (s.core (coreOf s.cur)).tiles.length = 8 →
    let me := coreOf s.cur
    let mask := (t.rd a).toNat % 256
    let held := fun (k : Core) (n : Nat) => (k.tiles.getD n {}).holder
    let k := s.core me
    ((∀ n < 8, mask.testBit n = true → held k n = none ∨ held k n = some s.cur) →
      answers (exec (.mclaim a d) s) fun s' =>
        (∀ n < 8, (s'.core me).tiles.getD n {} =
          if mask.testBit n = true ∧ held k n = none then { holder := some s.cur } else k.tiles.getD n {}) ∧
        s'.thread s.cur = some ((t.wr d (BitVec.ofNat 64 mask)).retired (t.pc + 4))) ∧
    ((∃ n < 8, mask.testBit n = true ∧ held k n ≠ none ∧ held k n ≠ some s.cur) → s.retires (.mclaim a d) (t.wr d 0) (t.pc + 4)) ∧
    (t.poison = [] → s.mopen s.cur mask = false → answers (exec (.mrel a) s) fun s' =>
      (∀ n < 8, (s'.core me).tiles.getD n {} =
        if mask.testBit n = true ∧ held k n = some s.cur then {} else k.tiles.getD n {}) ∧
      s'.thread s.cur = some (t.retired (t.pc + 4))) ∧
    (t.poison = [] → s.mopen s.cur mask = true → s.blocks (.mrel a) t (.await (.mdone mask) s.ir)) ∧
    ∀ b l, t.poison = b :: l → exec (.mrel a) s = State.trap s { t with poison := l } 0x06 (BitVec.ofNat 64 b)

/-- mset loads the six shadow format registers from own LM, each under the bits it holds, and waits for the reply as a load does; mget
stores them there and retires. -/
def ShadowRegisterForms : Prop :=
  ∀ (s : State) (t : Thread) (a : GReg) (off : Nat), s.thread s.cur = some t →
    let me := coreOf s.cur
    s.window t.part me (t.rd a) = some (.lm me off) → off + 48 ≤ 2 ^ 18 → off % 8 = 0 → (s.core me).locks = [] →
    (s.core me).poisoned = [] →
    let w := fun k => BitVec.ofNat 64 ((s.mem (.lm me)).read (off + 8 * k) 8)
    let r : MatRegs := ⟨w 0 &&& 0xFF0F, w 1 &&& 0x3FFFF, w 2 &&& 0xFFFF1F1F, w 3 &&& 0x1FFF, w 4, w 5 &&& 0x3FF⟩
    exec (.mset a) s = (s.ownLmSeen.reply { tid := s.cur, writes := [], insn := s.ir, entry := 1, own := true }).wait { t with mat := r }
      (.reply .load) ∧
    answers (exec (.mget a) s) fun s' =>
      (∀ k v, (k, v) ∈ [(0, t.mat.mprec), (1, t.mat.mfmt), (2, t.mat.mgeom), (3, t.mat.mblk), (4, t.mat.mscale), (5, t.mat.macc)] →
        (s'.mem (.lm me)).read (off + 8 * k) 8 = BitVec.toNat v) ∧
      (∀ x, (x < off ∨ off + 48 ≤ x) → (s'.mem (.lm me)).byte x = (s.mem (.lm me)).byte x) ∧
      s'.thread s.cur = some (t.retired (t.pc + 4))

/-- mwait returns MSTAT once the thread's commands are done, those in its restart record with them. mstop drops the queued and recorded
commands and returns how many, with STOPPED in MSTAT when there was one; a running one is told to end after its pass and the thread
waits. A pending POISON is taken first. -/
def MatrixWaitForms : Prop :=
  ∀ (s : State) (t : Thread) (d : GReg), s.thread s.cur = some t →
    let me := coreOf s.cur
    let mine := (s.core me).mq.filter fun c => c.tid == s.cur
    (∀ b l, t.poison = b :: l →
      exec (.mwait d) s = State.trap s { t with poison := l } 0x06 (BitVec.ofNat 64 b) ∧
      exec (.mstop d) s = State.trap s { t with poison := l } 0x06 (BitVec.ofNat 64 b)) ∧
    (t.poison = [] → s.mopen s.cur 0xFF = false → s.retires (.mwait d) (t.wr d t.mstat) (t.pc + 4)) ∧
    (t.poison = [] → s.mopen s.cur 0xFF = true → s.blocks (.mwait d) t (.await (.mdone 0xFF) s.ir)) ∧
    (t.poison = [] → mine = [] → t.mrec = [] → s.retires (.mstop d) (t.wr d 0) (t.pc + 4)) ∧
    (t.poison = [] → t.mrec ++ mine ≠ [] → (∀ c ∈ mine, c.begun = false) → answers (exec (.mstop d) s) fun s' =>
      ((s'.core me).mq.filter fun c => c.tid == s.cur) = [] ∧
      s'.thread s.cur = some (({ t with mstat := t.mstat ||| 0x80, mrec := [] }.wr d
        (BitVec.ofNat 64 (t.mrec ++ mine).length)).retired (t.pc + 4))) ∧
    ∀ c l, t.poison = [] → mine = c :: l → c.begun = true → c.left ≠ 0 → (∀ x ∈ l, x.begun = false) →
      ((t.mrec ++ (s.core me).mq).map fun x => x.uid).Nodup → answers (exec (.mstop d) s) fun s' =>
        ((s'.core me).mq.filter fun x => x.tid == s.cur) = [{ c with stopping := some (d, (t.mrec ++ l).length) }] ∧
        s'.thread s.cur = some { ({ t with mrec := [] } : Thread).issued with block := .reply .unit }

end Sys2Proof.Machine

/-- What a matrix command captures as it enters the queue, and the gathered multiply. The model's choice: mmulg reads its index vector when
it is presented (log 64). -/
def Obligations.MatrixFormsIssue : Prop :=
  Sys2Proof.Machine.MatrixCommandsIssue ∧
  Sys2Proof.Machine.GatheredMultiply ∧
  Sys2Proof.Machine.LatchFilled

/-- Over all pairs of planes, a pass's plane products with their weights sum to the exact products of the elements: nothing is lost
or rounded before a block's exponent is applied. Mode 0 is two's complement, 1 unsigned, 2 and 3 sign and magnitude. -/
def Obligations.PlanesSumToExactProducts : Prop :=
  ∀ (ma mb wa wb : Nat) (qs : List (Int × Int)), ma < 4 → mb < 4 → 1 ≤ wa → 1 ≤ wb →
    let fits := fun (m w : Nat) (q : Int) =>
      if m = 0 then -(2 ^ (w - 1) : Nat) ≤ q ∧ q < (2 ^ (w - 1) : Nat)
      else if m = 1 then 0 ≤ q ∧ q < (2 ^ w : Nat) else q.natAbs < 2 ^ w
    (∀ q ∈ qs, fits ma wa q.1 ∧ fits mb wb q.2) →
    ((numsFrom 0 wa).map fun pa => ((numsFrom 0 wb).map fun pb =>
      planeWt ma wa wa pa * planeWt mb wb wb pb *
        planeDot pa pb (qs.map fun q => planeOf ma wa wa q.1) (qs.map fun q => planeOf mb wb wb q.2)).sum).sum
      = (qs.map fun q => q.1 * q.2).sum

/-- The cycles of the matrix engine, and the four accumulator modes. The model's reading: mdrain writes row i in its cycle i (log 27). -/
def Obligations.MatrixCycles : Prop :=
  Sys2Proof.Machine.PlanePassCycles ∧
  Sys2Proof.Machine.AccumulatorModes ∧
  Sys2Proof.Machine.MatrixCommandCycles

/-- mclaim, mrel, mset, mget, mwait and mstop. The model's reading: POISON is taken also by an mwait or mstop that is presented again, and
mstop leaves an mbias or mdrain to run on (log 30, 108). -/
def Obligations.TileForms : Prop :=
  Sys2Proof.Machine.TileClaims ∧
  Sys2Proof.Machine.ShadowRegisterForms ∧
  Sys2Proof.Machine.MatrixWaitForms

namespace Sys2Proof.Machine

/-! ### Nests and thread forms (R257 to R294) -/

/-- apply and apply.w, the counters at zero, send one request to the nest placer, with the thread's owner, world, generator key and
format registers, and wait for its answer. -/
def ApplyForms : Prop :=
  ∀ (s : State) (t : Thread) (a d : GReg) (p : Partition), s.thread s.cur = some t → t.waited .all → s.part t.part = some p →
    ∀ w, answers (exec (if w then .applyW a d else .apply a d) s) fun s' =>
      (∃ p', s'.part t.part = some p' ∧ p'.applies = p.applies ++
        [{ tid := some s.cur, entry := (t.rd a).toNat % 4096, wait := w, d := d, owner := t.owner, sec := t.sec,
           start := coreOf s.cur, starter := t.fp.starter, mprec := t.mat.mprec, mfmt := t.mat.mfmt, mscale := t.mat.mscale }]) ∧
      ∃ t', s'.thread s.cur = some t' ∧ t'.block = .reply (if w then .applyW else .unit) ∧ t'.pc = t.pc ∧ t'.g = t.g

/-- The placer takes the first request: it answers the code of a tree that it cannot read, or of a reservation that fails without
.w, or the nest's handle; a request with .w that does not fit, or comes behind one that waits, waits with its tree. Those that
wait are tried in order once a reservation has been released: the first that does not fit stays, and those behind it with it. -/
def PlacerAnswers : Prop :=
  ∀ (s : State) (part tid : Nat) (p : Partition) (q : ApplyReq) (l : List ApplyReq), s.part part = some p → q.tid = some tid →
    let s0 := s.setPart part { p with applies := l }
    let told := fun (s1 s' : State) (v : Word) => s'.replies = s1.replies ++ [{ tid := tid, writes := [(q.d.val, v)] }]
    let handle := fun (rec : Nat) => BitVec.ofNat 64 (0xC3 * 2 ^ 56 + s.placing part * 2 ^ 26 + 0x80000 + 64 * rec)
    (p.applies = q :: l →
      (∀ c, s0.readTree part q 8 [] none 0 q.entry [] = .error c →
        answers (exec (.nestPlacerRequest part) s) fun s' => told s s' (BitVec.ofNat 64 c)) ∧
      ∀ tree, s0.readTree part q 8 [] none 0 q.entry [] = .ok tree →
        let q' := { q with tree := tree }
        (q.wait = true → p.waiting ≠ [] → answers (exec (.nestPlacerRequest part) s) fun s' =>
          ∃ p', s'.part part = some p' ∧ p'.applies = l ∧ p'.waiting = p.waiting ++ [q'] ∧ s'.replies = s.replies) ∧
        (∀ c, s0.reserve part q' = .error c → q.wait = false →
          answers (exec (.nestPlacerRequest part) s) fun s' => told s s' (BitVec.ofNat 64 c)) ∧
        (∀ c, s0.reserve part q' = .error c → q.wait = true → answers (exec (.nestPlacerRequest part) s) fun s' =>
          ∃ p', s'.part part = some p' ∧ p'.waiting = p.waiting ++ [q'] ∧ s'.replies = s.replies) ∧
        ∀ s1 rec, s0.reserve part q' = .ok (s1, rec) → (q.wait = true → p.waiting = []) → s1.placing part = s.placing part →
          answers (exec (.nestPlacerRequest part) s) fun s' => told s1 s' (handle rec)) ∧
    (p.released = false → exec (.applyWRetry part) s = .next s) ∧
    (p.released = true → p.waiting = [q] → q.wait = true →
      let s2 := (s.setPart part { p with released := false }).setPart part { p with released := false, waiting := [] }
      ∀ s1 rec, s2.reserve part q = .ok (s1, rec) → s1.placing part = s.placing part → (∀ p1, s1.part part = some p1 → p1.waiting = []) →
        answers (exec (.applyWRetry part) s) fun s' => told s1 s' (handle rec)) ∧
    (p.released = true → q.wait = true → ∀ r l2,
      let s2 := fun (l : List ApplyReq) => (s.setPart part { p with released := false }).setPart part { p with released := false, waiting := l }
      (p.waiting = q :: l2 → ∀ c, (s2 l2).reserve part q = .error c →
        exec (.applyWRetry part) s = .next (s.setPart part { p with released := false })) ∧
      (p.waiting = q :: r :: l2 → r.wait = true → ∀ s1 rec c, (s2 (r :: l2)).reserve part q = .ok (s1, rec) →
        s1.placing part = s.placing part → (∀ p1, s1.part part = some p1 → p1.waiting = r :: l2) → (s1.part part).isSome = true →
        let s3 : State := { s1 with replies := s1.replies ++ [{ tid := tid, writes := [(q.d.val, handle rec)] }] }
        (s3.modPart part fun p => { p with waiting := l2 }).reserve part r = .error c →
        answers (exec (.applyWRetry part) s) fun s' => told s1 s' (handle rec) ∧
          ∃ p', s'.part part = some p' ∧ p'.waiting = r :: l2))

/-- patch and cread send a request to the pantry of the callable table. Where it has come there, patch writes an argument of the entry and
answers 0, or 5 for an empty entry; cread answers a doubleword of the entry as stored, and 0 for each of an empty one. -/
def TableForms : Prop :=
  ∀ (s : State) (t : Thread) (a b d : GReg), s.thread s.cur = some t →
    let e := (t.rd a).toNat % 4096
    let h := s.placing t.part
    let k := (t.rd a).toNat / 2 ^ 16 % 8
    let leaves := fun (write : Bool) (k : WaitKind) =>
      (s.requestOf t (.pantry h) ⟨.share t.part h, 128 * e⟩ (.op 8 write []) (t.rd a)).wait t.sent (.reply k)
    (t.block.isAwait = false → exec (.patch a b d) s = leaves true .request ∧ exec (.cread a d) s = leaves false .load) ∧
    (t.there [] →
    (s.readShare t.part h (128 * e) 8 % 8 = 0 → exec (.patch a b d) s = s.answer t .request [(d.val, 5)]) ∧
    (s.readShare t.part h (128 * e) 8 % 8 ≠ 0 → answers (exec (.patch a b d) s) fun s' =>
      (s'.mem (.share t.part h)).read (128 * e + 64 + 8 * k) 8 = (t.rd b).toNat ∧
      (∃ r ∈ s'.replies, r.tid = s.cur ∧ r.writes = [(d.val, 0)]) ∧
      ∃ t', s'.thread s.cur = some t' ∧ t'.block = .reply .request ∧ t'.pc = t.pc ∧ t'.g = t.g) ∧
    exec (.cread a d) s = s.answer t .load [(d.val, BitVec.ofNat 64 (if s.readShare t.part h (128 * e) 8 % 8 = 0 then 0
      else s.readShare t.part h (128 * e + 8 * ((t.rd a).toNat / 2 ^ 16 % 16)) 8))])

/-- join answers 7 where the address names no live nest, OUTCOME of a complete one, whose record it frees, and else waits among
the nest's joiners. -/
def JoinForm : Prop :=
  ∀ (s : State) (t : Thread) (a d : GReg), s.thread s.cur = some t →
    (s.nestAt t.part (coreOf s.cur) (t.rd a) = none → s.retires (.join a d) (t.wr d 7) (t.pc + 4)) ∧
    ∀ n, s.nestAt t.part (coreOf s.cur) (t.rd a) = some n →
      (n.complete = true → answers (exec (.join a d) s) fun s' => s'.nest t.part n.record = none ∧
        s'.thread s.cur = some ((t.wr d (BitVec.ofNat 64
          (s.readShare t.part (s.placing t.part) (0x80000 + 64 * n.record + 8) 8))).retired (t.pc + 4))) ∧
      (n.complete = false → answers (exec (.join a d) s) fun s' =>
        (∃ n', s'.nest t.part n.record = some n' ∧ n'.joiners = n.joiners ++ [(s.cur, d)]) ∧
        ∃ t', s'.thread s.cur = some t' ∧ t'.block = .reply .join ∧ t'.pc = t.pc ∧ t'.g = t.g)

/-- send to a worker core of the partition posts a handler parcel with g1 to gn and the thread's ID and answers 0; else 3. -/
def SendForm : Prop :=
  ∀ (s : State) (t : Thread) (a b d : GReg) (n : Fin 5), s.thread s.cur = some t →
    let c := (t.rd a).toNat % 2 ^ 14
    let k := ctrFor (coreOf s.cur) c
    let h : HandlerParcel :=
      { handler := t.rd b, args := [t.rd 1, t.rd 2, t.rd 3, t.rd 4].take n.val, sender := BitVec.ofNat 64 s.cur,
        starter := t.fp.starter, owner := t.owner, part := t.part, sec := t.sec, priv := t.priv }
    ((∀ p, s.part t.part = some p → p.worker c = false) → s.retires (.send a b d n) (t.wr d 3) (t.pc + 4)) ∧
    ∀ p, s.part t.part = some p → p.worker c = true → t.pcnt k < 1024 →
      s.retiresIn (s.sentOf t (.lm c) ⟨.lm c, 0⟩ (.handler c h) k (t.rd a)) (.send a b d n)
        ((t.sent.setPcnt k (t.pcnt k + 1)).wr d 0) (t.pc + 4)

/-- hret outside slot 15 and exit in it are ILLEGAL. Else, with counters at zero and no engine command left, queued or in a restart record,
the thread is gone and no other changed; with a vector command left the form waits. The join word of a population thread, in a
pantry, is counted down by an update that goes there. -/
def EndForms : Prop :=
  ∀ (s : State) (t : Thread), s.thread s.cur = some t →
    (slotOf s.cur ≠ 15 → exec .hret s = s.illegal t) ∧ (slotOf s.cur = 15 → exec .exit s = s.illegal t) ∧
    (t.waited .all → t.poison = [] → t.team = none → (∀ c ∈ (s.core (coreOf s.cur)).mq, c.tid ≠ s.cur) →
      let gone := fun (s' : State) => s'.thread s.cur = none ∧ ∀ tid, tid ≠ s.cur → s'.thread tid = s.thread tid
      let idle := s.vbusy s.cur = false ∧ t.vrec = []
      (t.pop = none → slotOf s.cur ≠ 15 → (idle → answers (exec .exit s) gone) ∧ (¬idle → exec .exit s = s.until t .vgone)) ∧
      (slotOf s.cur = 15 → (idle → (s.core (coreOf s.cur)).handlers = [] → answers (exec .hret s) gone) ∧
        (¬idle → exec .hret s = s.until t .vgone)) ∧
      ∀ r h off k, t.pop = some r → r.join ≠ 0 → slotOf s.cur ≠ 15 → idle →
        s.window t.part (coreOf s.cur) r.join = some (.pantry h off) →
        s.passes t r.join 8 .store true false (.far (.pantry h) ⟨.share t.part h, off⟩ k) →
        answers (exec .exit s) fun s' => gone s' ∧ ∃ q ∈ s'.parcels, q.place = .pantry h ∧ q.loc = ⟨.share t.part h, off⟩ ∧
          q.acc = .red .add 8 (2 ^ 64 - 1))

/-- yield and resume answer 3 in gb for a thread that is no CORO's and a handle that is no CORO's. Else, the counters at zero, a request
leaves for the pantry of the queues; there the item goes into one queue with room, and the other's head item comes back, status 0. -/
def CoroutineForms : Prop :=
  ∀ (s : State) (t : Thread) (a b d : GReg) (o i : Nat) (v : Word) (l : List Word), s.thread s.cur = some t →
    let me := coreOf s.cur
    let head := (s.nestAt t.part me (t.rd a)).bind fun n => n.nodes.head?
    let leaves := fun (ins : Instr) (k : WaitKind) => exec ins s =
      (s.requestOf t (.pantry (s.placing t.part)) ⟨.share t.part (s.placing t.part), 0x160000 + 64 * o⟩ (.op 8 true [])
        (BitVec.ofNat 64 (0xC3 * 2 ^ 56 + s.placing t.part * 2 ^ 26 + 0x160000 + 64 * o))).wait t.sent (.reply k)
    let ready := o ≠ i ∧ t.waited .all ∧ t.there [] ∧ (s.queue t.part o).closed = false ∧
      (s.queue t.part o).items.length < (s.queue t.part o).depth ∧ (s.queue t.part o).idle ∧ (s.queue t.part i).idle ∧
      (s.queue t.part i).items = v :: l
    let swapped := fun (item : Word) (s' : State) =>
      (s'.queue t.part o).items = (s.queue t.part o).items ++ [item] ∧ (s'.queue t.part i).items = l ∧
      ∃ r ∈ s'.replies, r.tid = s.cur ∧ r.writes = [(d.val, v), (b.val, 0)]
    ((∀ r, t.team = some r → r.coro = false) → s.retires (.yield a b d) (t.wr b 3) (t.pc + 4)) ∧
    (∀ r, t.team = some r → r.coro = true → s.queueAt t.part me r.outq = some o → s.queueAt t.part me r.inq = some i →
      (t.waited .all → t.block.isAwait = false → leaves (.yield a b d) .yield) ∧
      (ready → answers (exec (.yield a b d) s) (swapped (t.rd a)))) ∧
    (head = none → s.retires (.resume a b d) (t.wr b 3) (t.pc + 4)) ∧
    ∀ x p, head = some x → x.words.getD 0 0 % 8 = 2 → x.queues = [o, i] → s.part t.part = some p →
      (t.waited .all → t.block.isAwait = false → leaves (.resume a b d) .resume) ∧
      (ready → answers (exec (.resume a b d) s) (swapped (t.rd b)))

/-- tid reads: 0 the thread ID, and of its team 1 rank, 2 size, 3 nest handle, 4 team record, 5 team barrier, 6 iteration, 7 entry; a
population thread rank and size; one of no team reads 0, or all ones for the entry. stage reads: 0 the stage number, 1 and 2 the
queues. -/
def TeamForms : Prop :=
  ∀ (s : State) (t : Thread) (d : GReg), s.thread s.cur = some t →
    let va := fun (n : Nat) => BitVec.ofNat 64 (0xC3 * 2 ^ 56 + s.placing t.part * 2 ^ 26 + 0x80000 + 64 * n)
    let word := BitVec.ofNat 64
    let reads := fun (z : Fin 8) (v : Word) => s.retires (.tid d z) (t.wr d v) (t.pc + 4)
    let stage := fun (z : Fin 3) (v : Word) => s.retires (.stage d z) (t.wr d v) (t.pc + 4)
    reads 0 (word s.cur) ∧ stage 0 (word t.stageNo) ∧
    (∀ r, t.team = some r → reads 1 (word r.rank) ∧ reads 2 (word r.size) ∧ reads 3 (va r.nest) ∧ reads 4 (va r.record) ∧
      reads 5 (word r.bar) ∧ reads 6 (word r.iter) ∧ reads 7 (word r.entry) ∧ stage 1 r.inq ∧ stage 2 r.outq) ∧
    (t.team = none → reads 3 0 ∧ reads 4 0 ∧ reads 5 0 ∧ reads 6 0 ∧ reads 7 (BitVec.allOnes 64) ∧ stage 1 0 ∧ stage 2 0 ∧
      (t.pop = none → reads 1 0 ∧ reads 2 0) ∧ ∀ p, t.pop = some p → reads 1 (word p.rank) ∧ reads 2 (word p.size))

/-- Every 128 cc KLOAD takes a nibble for each core: its ready threads in slots 0 to 14, at most 15, and 15 for a service core. A core
balances to the other core with the lowest nibble, the lowest number among equals, when that is at least 2 below its own count. -/
def BalanceTargets : Prop :=
  (∀ (s : State) (cl : Nat), s.cc % 128 = 0 → answers (exec (.kloadRefresh cl) s) fun s' => ∀ k < 16,
    (s'.cluster cl).kload.toNat / 16 ^ k % 16 =
      if (s.parts.any fun p => p.2.svc == 16 * cl + k) = true then 15 else min (s.readyCount (16 * cl + k)) 15) ∧
  ∀ (s : State) (core : Nat),
    let n := fun (j : Nat) => (s.cluster (clusterOf core)).kload.toNat / 16 ^ j % 16
    let own := s.readyCount core
    (∀ c, s.balanceTo core = some c → ∃ k < 16, c = 16 * clusterOf core + k ∧ c ≠ core ∧ n k + 2 ≤ own ∧
      ∀ j < 16, 16 * clusterOf core + j ≠ core → n k ≤ n j ∧ (n j = n k → k ≤ j)) ∧
    (s.balanceTo core = none → ∀ j < 16, 16 * clusterOf core + j ≠ core → own < n j + 2)

/-- bal answers 5 within 2 µs of the core's last check, 4 where no core is to be balanced to, 1 for a heavy thread or a handler, and
else migrates; its own check restarts the interval. BALANCE_CHECK does the same at a rotation boundary for the first ready light
thread of a partition with the policy on. -/
def BalanceForms : Prop :=
  ∀ (s : State) (t : Thread) (d : GReg), s.thread s.cur = some t →
    let me := coreOf s.cur
    let noted := s.setCore me { s.core me with lastBal := some s.time }
    (s.balanceDue me = false → s.retires (.bal d) (t.wr d 5) (t.pc + 4)) ∧
    (s.balanceDue me = true → s.balanceTo me = none → s.retiresIn noted (.bal d) (t.wr d 4) (t.pc + 4)) ∧
    (∀ c, s.balanceDue me = true → s.balanceTo me = some c → s.heavy s.cur = true ∨ slotOf s.cur = 15 →
      s.retiresIn noted (.bal d) (t.wr d 1) (t.pc + 4)) ∧
    (∀ c, s.balanceDue me = true → s.balanceTo me = some c → s.heavy s.cur = false → slotOf s.cur ≠ 15 → t.waited .all →
      answers (exec (.bal d) s) fun s' => (s'.core me).lastBal = some s.time ∧
        ∃ t', s'.thread s.cur = some t' ∧ t'.block = .migrate c (.form d 0) ∧ t'.pc = t.pc ∧ t'.g = t.g) ∧
    ∀ (core tid c : Nat) (t2 : Thread) (l : List (Nat × Thread)), s.onCore core = (tid, t2) :: l →
      (s.parts.any fun p => p.2.hasCore core && p.2.balancing) = true → (s.cc - (s.core core).base) % 32 = 0 →
      s.balanceDue core = true → s.balanceTo core = some c → slotOf tid ≠ 15 → s.ready tid t2 = true → s.heavy tid = false →
      s.threadShed tid t2 = 0 →
      answers (exec (.balanceCheck core) s) fun s' => (s'.core core).lastBal = some s.time ∧
        s'.thread tid = some { t2 with block := .migrate c .balance }

/-- sleep with EP set clears it and answers 0, and else waits; its limit, where TIME has reached it, ends it with 1. A wake in the cc of
the sleep that took EP comes before it and sets nothing. wake of a thread
of the partition answers 0 and wakes the sleeper or sets EP, at once on its own core and else by a counted parcel; else 3. -/
def SleepForms : Prop :=
  ∀ (s : State) (t : Thread) (a d : GReg), s.thread s.cur = some t →
    let me := coreOf s.cur
    let x := (t.rd a).toNat % 2 ^ 18
    let k := ctrFor me (coreOf x)
    (t.ep = true → s.retires (.sleep a d) ({ t with ep := false, sleptAt := some s.cc }.wr d 0) (t.pc + 4)) ∧
    (t.ep = false → s.blocks (.sleep a d) t (.sleep (t.rd a) d)) ∧
    ((∀ p, s.part t.part = some p → p.hasCore (coreOf x) = false) → s.retires (.wake a d) (t.wr d 3) (t.pc + 4)) ∧
    (∀ p, s.part t.part = some p → p.hasCore (coreOf x) = true →
      (coreOf x ≠ me → t.pcnt k < 1024 →
        s.retiresIn (s.sentOf t (.lm (coreOf x)) ⟨.lm (coreOf x), 0⟩ (.wake x) k (t.rd a)) (.wake a d)
          ((t.sent.setPcnt k (t.pcnt k + 1)).wr d 0) (t.pc + 4)) ∧
      ∀ t2, coreOf x = me → x ≠ s.cur → s.thread x = some t2 → answers (exec (.wake a d) s) fun s' =>
        (s'.thread s.cur = some ((t.wr d 0).retired (t.pc + 4))) ∧
        ((∀ l e, t2.block ≠ .sleep l e) → s'.thread x = some (if t2.sleptAt = some s.cc then t2 else { t2 with ep := true })) ∧
        ∀ l e, t2.block = .sleep l e → s'.thread x = some ((t2.wr e 0).completed s.cc)) ∧
    ∀ (tid : Nat) (l : Word) (e : GReg) (t2 : Thread), s.thread tid = some t2 → t2.block = .sleep l e →
      (l ≠ 0 → l.toNat ≤ s.timeAt (coreOf tid) → answers (exec (.sleepTimeout tid) s) fun s' =>
        s'.thread tid = some ((t2.wr e 1).completed s.cc)) ∧
      (l = 0 ∨ s.timeAt (coreOf tid) < l.toNat → exec (.sleepTimeout tid) s = .next s)

/-- The verdict of a LOOP is loaded at its home. One that is not 0 ends the loop, and with it a nest whose root it is; 0 starts the
next iteration of a body that is a leaf. -/
def LoopVerdict : Prop :=
  ∀ (s : State) (part rec i : Nat) (n : Nest) (x : Node) (l : List Nat) (e : Leaf) (v : Word), s.nest part rec = some n →
    n.verdicts = i :: l → n.nodes[i]? = some x → s.placerLoad part n.sec (x.words.getD 3 0) = .ok (e, v) →
    (s.core e.home).frozen = false →
    (v ≠ 0 → x.parent = none → x.bad = false → x.words.getD 0 0 % 8 = 7 → n.failed = 0 → n.joiners = [] → n.host = none →
      n.applier ≠ none → answers (exec (.loopVerdictLoad part rec) s) fun s' =>
        ∃ n', s'.nest part rec = some n' ∧ n'.complete = true ∧ n'.slots = [] ∧ n'.bars = [] ∧ n'.records = []) ∧
    ∀ c y, v = 0 → x.children = [c] → c ≠ i → n.nodes[c]? = some y → y.words.getD 0 0 % 8 = 1 → y.children = [] →
      answers (exec (.loopVerdictLoad part rec) s) fun s' =>
        (∃ x', s'.node part rec i = some x' ∧ x'.iter = x.iter + 1) ∧
        ∃ y', s'.node part rec c = some y' ∧ y'.st = .running ∧ y'.iter = x.iter + 1

/-! ### Verdicts, deadlock and core freeze (R301, R306, R307) -/

/-- A verdict frees the record of its parked thread: RESUME continues at the record's resume address with its g1 to g6, REFLECT enters
the TVEC handler with the record's values and REFL set, and END ends the thread. -/
def VerdictActs : Prop :=
  ∀ (s : State) (part f tid : Nat) (p : Partition) (t : Thread), s.part part = some p → p.faults.look f = some tid → f < 4096 →
    p.faultWait = [] → s.thread tid = some t → t.part = part → t.block = .parked f → (s.core (coreOf tid)).lost = false →
    let word := fun k => BitVec.ofNat 64 ((s.mem (.share part p.placing)).read (0xC0000 + 128 * f + 8 * k) 8)
    let freed := fun (s' : State) => ∃ p', s'.part part = some p' ∧ p'.faults = p.faults.drop f
    (word 0 = 1 → answers (exec (.verdictAction part f) s) fun s' => freed s' ∧
      ∃ t', s'.thread tid = some t' ∧ t'.pc = word 7 ∧ t'.block = .none ∧ t'.readyAt = s.cc + 1 ∧ t'.trap = t.trap ∧
        t'.ut = t.ut ∧ (∀ k : Fin 6, t'.rd ⟨1 + k.val, by omega⟩ = word (8 + k.val)) ∧
        ∀ r : GReg, 7 ≤ r.val → t'.rd r = t.rd r) ∧
    (word 0 = 2 → t.handler ≠ 0 → t.ut = false → answers (exec (.verdictAction part f) s) fun s' => freed s' ∧
      ∃ t', s'.thread tid = some t' ∧ t'.pc = t.trap.tvec &&& ~~~3#64 ∧ t'.ut = true ∧ t'.block = .none ∧ t'.g = t.g ∧
        t'.trap.tpc = word 2 ∧ t'.trap.tcause = (word 3 &&& 0xFFFF) ||| 0x10000 ∧ t'.trap.tval = word 4 ∧
        t'.trap.tstat2 = word 6 &&& 0x2FFFFFFFF) ∧
    (word 0 = 3 → t.team = none → t.pop = none → slotOf tid ≠ 15 → answers (exec (.verdictAction part f) s) fun s' => freed s' ∧
      s'.thread tid = none) ∧
    (word 0 = 0 → exec (.verdictAction part f) s = .next s)

/-- A deadlocked partition's DEADLOCK becomes pending on its service core, with the number of its workers, once; a partition that is not
deadlocked raises none. It is due for a thread of that core outside its handler, and a thread that takes it makes it pending no more. -/
def DeadlockRaised : Prop :=
  ∀ (s : State) (part : Nat) (p : Partition), s.part part = some p →
    (p.deadRaised = false → s.deadlocked part p = true → (s.workers part p).length < 2 ^ 32 →
      answers (exec (.deadlock part) s) fun s' => (∀ tid, s'.thread tid = s.thread tid) ∧
        s'.part part = some { p with deadRaised := true, deadlock := some (BitVec.ofNat 64 (s.workers part p).length) }) ∧
    (p.deadRaised = true ∨ s.deadlocked part p = false → exec (.deadlock part) s = .next s) ∧
    ∀ (tid : Nat) (t : Thread) (v : Word), s.thread tid = some t → t.part = part → p.deadlock = some v →
      (coreOf tid = p.svc → t.ut = false → s.deadlockFor tid t = some v) ∧
      (coreOf tid ≠ p.svc ∨ t.ut = true → s.deadlockFor tid t = none) ∧
      s.takeDeadlock tid t v = (s.setPart part { p with deadlock := none }).serviceTrap tid
        { t with block := .none, walkRes := none, noMig := false } 0x18 0 v t.pc (tstat2Of 0 true)

/-- A core that fails is frozen, and then the cluster's spare takes over with its translations empty and an MCHECK pending for the slots
whose state was lost; when the spare is used already the core is lost. -/
def CoreFreezes : Prop :=
  ∀ (s : State) (core : Nat) (a b c : List Nat), (s.core core).lost = false →
    ((s.core core).frozen = false →
      exec (.coreFreeze core a b c) s = .next (s.setCore core { s.core core with frozen := true })) ∧
    ((s.core core).frozen = true → (s.cluster (clusterOf core)).spareUsed = false →
      answers (exec (.coreFreeze core a b c) s) fun s' => (s'.core core).frozen = false ∧ (s'.core core).lost = false ∧
        (s'.core core).tlb = [] ∧ (s'.cluster (clusterOf core)).spareUsed = true ∧ (s'.core core).lm = (s.core core).lm ∧
        (∀ x ∈ b, x < 4096 → x ∈ (s'.core core).poisoned) ∧
        (c = [] → ∀ k ∈ a, k < 16 → ∀ t, s.thread (16 * core + k) = some t →
          ∃ t', s'.thread (16 * core + k) = some t' ∧ t'.pc = t.pc ∧ t'.g = t.g ∧ ∃ m ∈ t'.mcheck, m.sub = 3)) ∧
    ((s.core core).frozen = true → (s.cluster (clusterOf core)).spareUsed = true → s.onCore core = [] → s.moving = [] →
      exec (.coreFreeze core a b c) s = .next (s.setCore core { s.core core with frozen := false, lost := true }))

end Sys2Proof.Machine

/-- apply, apply.w, patch, cread and join, the placer's answers, and the verdict of a LOOP. The model's reading: what a nest reads when, and
who counts as failed (log 40); patch and cread act at their own place at issue and at another where their request is taken (log 10). -/
def Obligations.NestForms : Prop :=
  Sys2Proof.Machine.ApplyForms ∧
  Sys2Proof.Machine.PlacerAnswers ∧
  Sys2Proof.Machine.TableForms ∧
  Sys2Proof.Machine.JoinForm ∧
  Sys2Proof.Machine.LoopVerdict

/-- send, hret, exit, yield, resume, tid, stage, bal, sleep and wake. The model's reading: the orders that the entries of yield, resume,
exit, bal and sleep leave open, and bal's precedence of codes (log 41, 42). -/
def Obligations.ThreadForms : Prop :=
  Sys2Proof.Machine.SendForm ∧
  Sys2Proof.Machine.EndForms ∧
  Sys2Proof.Machine.CoroutineForms ∧
  Sys2Proof.Machine.TeamForms ∧
  Sys2Proof.Machine.BalanceTargets ∧
  Sys2Proof.Machine.BalanceForms ∧
  Sys2Proof.Machine.SleepForms

/-- Verdicts on fault records, deadlock, and the freeze of a core. The model's reading: a freeze takes two turns, any thread of the service
core that is ready takes DEADLOCK, and what a reflected record delivers (log 23, 43, 58). -/
def Obligations.FaultsResolved : Prop :=
  Sys2Proof.Machine.VerdictActs ∧
  Sys2Proof.Machine.DeadlockRaised ∧
  Sys2Proof.Machine.CoreFreezes

namespace Sys2Proof.Machine

/-! ### Crumbs (R318 to R335) -/

/-- A core is neither frozen nor lost. -/
def State.homeUp (s : State) (c : Nat) : Prop := (s.core c).frozen = false ∧ (s.core c).lost = false

/-- The store of the thread's partition is enabled, and the homes of the names other than the null name are neither frozen nor lost. -/
def State.crumbReady (s : State) (t : Thread) (names : List Nat) : Prop :=
  (s.store t.part).en = true ∧ ∀ n ∈ names, n ≠ 0 → s.homeUp ((s.store t.part).homeOf n)

/-- An operand of 256 bytes of own LM at off that no range covers and no error marks. -/
def State.crumbBytes (s : State) (t : Thread) (a : GReg) (off : Nat) : Prop :=
  s.window t.part (coreOf s.cur) (t.rd a) = some (.lm (coreOf s.cur) off) ∧ off + 256 ≤ 2 ^ 18 ∧ off % 8 = 0 ∧
    (s.core (coreOf s.cur)).locks = [] ∧ (s.core (coreOf s.cur)).poisoned = []

/-- The thread waits for the one reply that the form has sent. -/
def State.crumbTold (s s' : State) (t : Thread) (ws : List (Nat × Word)) : Prop :=
  (∃ r, s'.replies = s.replies ++ [r] ∧ r.tid = s.cur ∧ r.writes = ws ∧ r.entry = 7 ∧ r.trap = none) ∧
    ∃ t', s'.thread s.cur = some t' ∧ t'.block = .reply .request ∧ t'.pc = t.pc ∧ t'.g = t.g

/-- The form's request leaves for the crumb unit of the home of a name with the words it carries, and the thread waits. -/
def State.crumbLeaves (s : State) (t : Thread) (i : Instr) (name : Nat) (write : Bool) (l : Loc) (data : List Nat) : Prop :=
  ∃ v, exec i s = (({ s with fresh := s.fresh + 1 } : State).requestOf t (.home ((s.store t.part).homeOf name)) l (.op 8 write data) v).wait
    t.sent (.reply .request)

/-- The form's request has come to a location with the words it carries. -/
def Thread.thereAt (t : Thread) (l : Loc) (data : List Nat) : Prop := ∃ p h w, t.block = .await (.here p l data h) w

/-- cref and cdrop answer 6 while the store is off, and else send a request to the name's home. There, where it is up, they answer 2 for
a name with no LIVE entry, 8 for a pinned one, and else 0 with the count one higher or one lower; a count that comes to 0 makes the
entry DYING. -/
def CountForms : Prop :=
  ∀ (s : State) (t : Thread) (b d : GReg), s.thread s.cur = some t →
    let name := (t.rd d).toNat + 2 ^ 64 * (t.rd (hiReg d)).toNat
    let live := (s.store t.part).liveEntry name
    let live' := fun (s' : State) => (s'.store t.part).liveEntry name
    let told := fun (v : Word) (s' : State) => s.crumbTold s' t [(b.val, v)]
    ((s.store t.part).en = false → answers (exec (.cref b d) s) (told 6) ∧ answers (exec (.cdrop b d) s) (told 6)) ∧
    ((s.store t.part).en = true → t.block.isAwait = false → ∀ i ∈ [Instr.cref b d, .cdrop b d],
      s.crumbLeaves t i name true ⟨.lm (coreOf s.cur), 0⟩ []) ∧
    (t.there [] → s.crumbReady t [name] →
      (live = none → answers (exec (.cref b d) s) (told 2) ∧ answers (exec (.cdrop b d) s) (told 2)) ∧
      ∀ x, live = some x →
        (x.count = 2 ^ 32 - 1 → answers (exec (.cref b d) s) (fun s' => told 8 s' ∧ live' s' = some x) ∧
          answers (exec (.cdrop b d) s) (fun s' => told 8 s' ∧ live' s' = some x)) ∧
        (x.count < 2 ^ 32 - 1 →
          answers (exec (.cref b d) s) (fun s' => told 0 s' ∧ live' s' = some { x with count := x.count + 1 })) ∧
        (1 < x.count → x.count < 2 ^ 32 - 1 →
          answers (exec (.cdrop b d) s) (fun s' => told 0 s' ∧ live' s' = some { x with count := x.count - 1 })) ∧
        (x.count = 1 → answers (exec (.cdrop b d) s) (fun s' => told 0 s' ∧ live' s' = none ∧
          { x with count := 0, live := false } ∈ (s'.store t.part).crumbs)))

/-- cput and cnode read their 256 bytes at issue, name them by the hash of R318 and send them to the name's home. There, bytes without an entry under their first name take a free slot, which then
holds them, with a count of 1, and the answer is the name and 0; a LIVE entry with the same bytes counts one more, and the answer
is its name and 1. A leaf has depth 1, a node without children 2. A child with no LIVE entry answers 2. -/
def PutForms : Prop :=
  ∀ (s : State) (t : Thread) (a b d : GReg) (cls : Nat) (ws : List Nat) (i : Instr), s.thread s.cur = some t →
    (i = .cput a b d ∧ cls = 1) ∨ (i = .cnode a b d ∧ cls = 2) →
    (∀ off, t.block.isAwait = false → s.crumbBytes t a off → (s.store t.part).en = true →
      s.ownLmSeen.crumbLeaves t i (crumbHash (s.lmWords off) cls * 256) true ⟨.lm (coreOf s.cur), off⟩ (s.lmWords off)) ∧
    (t.there ws → ws.length = 32 → (∀ w ∈ ws, w < 2 ^ 64) → (cls = 2 → ∀ c ∈ childNames ws, c = 0) →
    let name := crumbHash ws cls * 256
    let c := s.store t.part
    let named := fun (st : Word) => pairWrites d name ++ [(b.val, st)]
    s.crumbReady t [name] → name ≠ 0 →
    (∀ slot l, c.crumbs.find? (fun x => x.name == name) = none → c.room (c.homeNo name) = some slot →
      s.slotLoc t.part slot = some l → (∃ k ≤ 2, l.space = .phys k) → answers (exec i s) fun s' => s.crumbTold s' t (named 0) ∧
        (s'.store t.part).liveEntry name = some ⟨name, slot, cls, cls, 1, true⟩ ∧
        ∀ k < 32, s'.readLoc ⟨l.space, l.off + 8 * k⟩ 8 = ws.getD k 0) ∧
    ∀ x, c.crumbs.find? (fun x => x.name == name) = some x → x.live = true → s.slotWords t.part x.slot = ws →
      answers (exec i s) fun s' => s.crumbTold s' t (named 1) ∧
        (s'.store t.part).liveEntry name = some { x with count := min (x.count + 1) (2 ^ 32 - 1) })

/-- A node whose first child has no LIVE entry answers 2 and changes no count. -/
def NodeNeedsChildren : Prop :=
  ∀ (s : State) (t : Thread) (a b d : GReg) (c : Nat) (ws l : List Nat), s.thread s.cur = some t → t.there ws →
    s.crumbReady t (childNames ws ++ [crumbHash ws 2 * 256]) → (childNames ws).filter (fun c => c != 0) = c :: l →
    (s.store t.part).liveEntry c = none →
    answers (exec (.cnode a b d) s) fun s' => s.crumbTold s' t [(b.val, 2)] ∧ s'.parts = s.parts

/-- The probes go in ascending order past the null name, DYING entries and other bytes. At the first name that no entry holds the crumb is
new, or the answer is 4, with nothing changed, where its home has no free slot or entry; the first LIVE entry with the bytes counts one
more; 255 names that hold other contents answer 3. -/
def ProbeSequence : Prop :=
  ∀ (s : State) (t : Thread) (a b d : GReg) (cls : Nat) (ws : List Nat) (i : Instr), s.thread s.cur = some t →
    (i = .cput a b d ∧ cls = 1) ∨ (i = .cnode a b d ∧ cls = 2) → t.there ws → ws.length = 32 →
    (cls = 2 → ∀ c ∈ childNames ws, c = 0) →
    let name := fun (p : Nat) => crumbHash ws cls * 256 + p
    let c := s.store t.part
    let entry := fun (p : Nat) => c.crumbs.find? fun x => x.name == name p
    let other := fun (p : Nat) => name p = 0 ∨ ∃ x, entry p = some x ∧ (x.live = false ∨ s.slotWords t.part x.slot ≠ ws)
    s.crumbReady t [name 0] →
    ((∀ p, p < 255 → other p) → answers (exec i s) fun s' => s.crumbTold s' t [(b.val, 3)] ∧ s'.parts = s.parts) ∧
    ∀ p, p < 255 → name p ≠ 0 → (∀ j, j < p → other j) →
      (entry p = none → c.room (c.homeNo (name p)) = none → answers (exec i s) fun s' =>
        s.crumbTold s' t [(b.val, 4)] ∧ s'.parts = s.parts) ∧
      (∀ slot, entry p = none → c.room (c.homeNo (name p)) = some slot → answers (exec i s) fun s' =>
        s.crumbTold s' t (pairWrites d (name p) ++ [(b.val, 0)]) ∧
        (s'.store t.part).liveEntry (name p) = some ⟨name p, slot, cls, cls, 1, true⟩) ∧
      ∀ x, entry p = some x → x.live = true → s.slotWords t.part x.slot = ws → answers (exec i s) fun s' =>
        s.crumbTold s' t (pairWrites d (name p) ++ [(b.val, 1)]) ∧
        (s'.store t.part).liveEntry (name p) = some { x with count := min (x.count + 1) (2 ^ 32 - 1) }

/-- cget sends a request to the name's home. From there the bytes of a LIVE crumb come to own LM and the answer is 0, and the hearth keeps a
copy of the mapping. It is 2, with nothing written, for a name with no LIVE entry; a DYING name of which the hearth has a copy gives its
bytes or 2. -/
def GetForm : Prop :=
  ∀ (s : State) (t : Thread) (a b d : GReg) (off : Nat), s.thread s.cur = some t →
    let me := coreOf s.cur
    let name := (t.rd d).toNat + 2 ^ 64 * (t.rd (hiReg d)).toNat
    (t.block.isAwait = false → s.crumbBytes t a off → (s.store t.part).en = true →
      s.ownLmSeen.crumbLeaves t (.cget a b d) name false ⟨.lm me, off⟩ []) ∧
    (t.thereAt ⟨.lm me, off⟩ [] → off + 256 ≤ 2 ^ 18 → off % 8 = 0 → s.cur < 2 ^ 18 → s.crumbReady t [name] →
    let nothing := fun (s' : State) => s.crumbTold s' t [(b.val, 2)] ∧ s'.mem (.lm me) = s.mem (.lm me)
    let gives := fun (slot : Nat) (s' : State) => s.crumbTold s' t [(b.val, 0)] ∧
      (∀ k < 32, (s'.mem (.lm me)).read (off + 8 * k) 8 = (s.slotWords t.part slot).getD k 0) ∧
      ∀ y, (y < off ∨ off + 256 ≤ y) → (s'.mem (.lm me)).byte y = (s.mem (.lm me)).byte y
    let copy := (s.hearth (hearthOf me)).crumbs.find? fun x => x.1 == t.part && x.2.1 == name
    ((s.store t.part).liveEntry name = none →
      (copy = none → answers (exec (.cget a b d) s) nothing) ∧
      ∀ x, copy = some x → answers (exec (.cget a b d) s) fun s' => nothing s' ∨ gives x.2.2 s') ∧
    ∀ x, (s.store t.part).liveEntry name = some x → answers (exec (.cget a b d) s) fun s' => gives x.slot s' ∧
      (t.part, name, x.slot) ∈ (s'.hearth (hearthOf me)).crumbs)

/-- At the cell's place, which is the own core's or where the request has come,
croot takes a reference on the name in a root cell: 7 for a null cell, 2 for a name with no LIVE entry, and else the name and 0, or 8
where the count is saturated. cswap of a cell that holds another name than the expected one answers what it holds; else the new name,
which must have a LIVE entry, replaces the old one and counts one more, and the old one counts one less. -/
def RootForms : Prop :=
  ∀ (s : State) (t : Thread) (a b d : GReg) (l : Loc), s.thread s.cur = some t →
    let v := s.readLoc l 16
    let pair := fun (r : GReg) => (t.rd r).toNat + 2 ^ 64 * (t.rd (hiReg r)).toNat
    let away := ∀ x, ¬t.there x
    let leaves := fun (i : Instr) (p : Place) (write : Bool) =>
      exec i s = ((s.seen t (t.rd a)).requestOf t p l (.op 16 write []) (t.rd a)).wait t.sent (.reply .request)
    (∀ p k, away → s.passes t (t.rd a) 16 .load false true (.far p l k) → leaves (.croot a b d) p false) ∧
    (∀ p k, away → s.passes t (t.rd a) 16 .store true false (.far p l k) → leaves (.cswap a b d) p true) ∧
    ((away ∧ s.passes t (t.rd a) 16 .load false true (.own l)) ∨ (∃ x, t.thereAt l x) → s.crumbReady t [v] →
      (v = 0 → answers (exec (.croot a b d) s) fun s' => s.crumbTold s' t (pairWrites d 0 ++ [(b.val, 7)])) ∧
      (v ≠ 0 → (s.store t.part).liveEntry v = none → answers (exec (.croot a b d) s) fun s' => s.crumbTold s' t [(b.val, 2)]) ∧
      ∀ x, v ≠ 0 → (s.store t.part).liveEntry v = some x → x.count < 2 ^ 32 - 1 → answers (exec (.croot a b d) s) fun s' =>
        s.crumbTold s' t (pairWrites d v ++ [(b.val, 0)]) ∧
        (s'.store t.part).liveEntry v = some { x with count := x.count + 1 }) ∧
    ((away ∧ s.passes t (t.rd a) 16 .load false true (.own l)) ∨ (∃ x, t.thereAt l x) → s.crumbReady t [v] → ∀ x, v ≠ 0 →
      (s.store t.part).liveEntry v = some x → x.count = 2 ^ 32 - 1 → answers (exec (.croot a b d) s) fun s' =>
        s.crumbTold s' t (pairWrites d v ++ [(b.val, 8)]) ∧ (s'.store t.part).liveEntry v = some x) ∧
    ((away ∧ s.passes t (t.rd a) 16 .store true false (.own l)) ∨ (∃ x, t.thereAt l x) → s.crumbReady t [pair b, v] →
      (v ≠ pair d → answers (exec (.cswap a b d) s) fun s' => s.crumbTold s' t (pairWrites d v)) ∧
      (v = pair d → pair b ≠ 0 → (s.store t.part).liveEntry (pair b) = none → answers (exec (.cswap a b d) s) fun s' =>
        s.crumbTold s' t (pairWrites d (2 ^ 128 - 1)) ∧ s'.readLoc l 16 = v) ∧
      ∀ x k, v = pair d → v = 0 → pair b ≠ 0 → (s.store t.part).liveEntry (pair b) = some x → x.count < 2 ^ 32 - 1 →
        l.space = .phys k → k ≤ 2 → answers (exec (.cswap a b d) s) fun s' => s.crumbTold s' t (pairWrites d 0) ∧
          s'.readLoc l 16 = pair b ∧ (s'.store t.part).liveEntry (pair b) = some { x with count := x.count + 1 }) ∧
    ((away ∧ s.passes t (t.rd a) 16 .store true false (.own l)) ∨ (∃ x, t.thereAt l x) → s.crumbReady t [pair b, v] →
      ∀ y k, v = pair d → v ≠ 0 → pair b ≠ v → (s.store t.part).liveEntry v = some y → 1 < y.count → y.count < 2 ^ 32 - 1 →
        l.space = .phys k → k ≤ 2 →
        let swapped := fun (s' : State) => s.crumbTold s' t (pairWrites d v) ∧ s'.readLoc l 16 = pair b ∧
          (s'.store t.part).liveEntry v = some { y with count := y.count - 1 }
        (pair b = 0 → answers (exec (.cswap a b d) s) swapped) ∧
        ∀ x, pair b ≠ 0 → (s.store t.part).liveEntry (pair b) = some x → x.count < 2 ^ 32 - 1 →
          answers (exec (.cswap a b d) s) fun s' => swapped s' ∧
            (s'.store t.part).liveEntry (pair b) = some { x with count := x.count + 1 })

/-- cstat and cstat.home answer 0 while the store is off, and else send a request to the home. There cstat answers the state word of the
name, and 0 where it has no entry; cstat.home answers the free slots and the free entries. -/
def StatForms : Prop :=
  ∀ (s : State) (t : Thread) (a b d : GReg), s.thread s.cur = some t →
    let c := s.store t.part
    let name := (t.rd b).toNat + 2 ^ 64 * (t.rd (hiReg b)).toNat
    let h := (t.rd a).toNat % 8
    let flag := fun (x : Bool) (n : Nat) => if x then 2 ^ n else 0
    (c.en = false → exec (.cstat b d) s = s.answer t .load [(d.val, 0)] ∧ exec (.cstatHome a d) s = s.answer t .load [(d.val, 0)]) ∧
    (c.en = true → t.block.isAwait = false →
      s.crumbLeaves t (.cstat b d) name false ⟨.lm (coreOf s.cur), 0⟩ [] ∧
      (h < c.homes.length → s.crumbLeaves t (.cstatHome a d) (h * 2 ^ 125) false ⟨.lm (coreOf s.cur), 0⟩ [])) ∧
    (t.there [] → c.en = true → s.homeUp (c.homeOf name) →
      (c.crumbs.find? (fun x => x.name == name) = none → exec (.cstat b d) s = s.answer t .load [(d.val, 0)]) ∧
      ∀ x, c.crumbs.find? (fun x => x.name == name) = some x → exec (.cstat b d) s = s.answer t .load [(d.val,
        BitVec.ofNat 64 (flag x.live 63 + flag (!x.live) 62 + x.cls * 2 ^ 60 + x.depth * 2 ^ 56 + x.count))]) ∧
    (c.en = true → c.homes.length ≤ h → exec (.cstatHome a d) s = s.answer t .load [(d.val, 0)]) ∧
    (t.there [] → c.en = true → h < c.homes.length → s.homeUp (c.homes.getD h 0) →
      let held := (c.crumbs.filter fun x => x.name / 2 ^ 125 % 8 % c.homes.length == h).length
      exec (.cstatHome a d) s = s.answer t .load [(d.val, BitVec.ofNat 64
        (((c.nslot + c.homes.length - 1 - h) / c.homes.length - held) * 2 ^ 32 + (2 ^ c.ib / c.homes.length - held)))])

/-- The homes that a form's request comes to or changes counts at, in the order in which they are looked at: of the name that it names, of
the names in a node and of the node, of the names that a cell holds and gets. -/
def crumbCores (s : State) (t : Thread) (l : Loc) (ws : List Nat) (i : Instr) : List Nat :=
  let c := s.store t.part
  let pair := fun (r : GReg) => (t.rd r).toNat + 2 ^ 64 * (t.rd (hiReg r)).toNat
  let homes := fun (names : List Nat) => (names.filter fun n => n != 0).map c.homeOf
  match i with
  | .cref _ d | .cdrop _ d | .cget _ _ d => homes [pair d]
  | .cput _ _ _ => homes [crumbHash ws 1 * 256]
  | .cnode _ _ _ => homes (childNames ws ++ [crumbHash ws 2 * 256])
  | .croot _ _ _ => homes [s.readLoc l 16]
  | .cswap _ b d => if s.readLoc l 16 = pair d then homes [pair b, s.readLoc l 16] else []
  | .cstat b _ => [c.homeOf (pair b)]
  | .cstatHome a _ => if (t.rd a).toNat % 8 < c.homes.length then [c.homes.getD ((t.rd a).toNat % 8) 0] else []
  | _ => []

/-- A form whose request has come to its name's home or its cell's place waits there while a home that it needs is frozen, and takes MCHECK
with SUB 5, with nothing changed, where none is frozen and one is lost. croot and cswap at their own place wait to be presented again. -/
def HomeNotUp : Prop :=
  ∀ (s : State) (t : Thread) (l : Loc) (x : List Nat) (i : Instr), s.thread s.cur = some t → (s.store t.part).en = true →
    let cores := crumbCores s t l x i
    let frozen := cores.find? fun c => (s.core c).frozen
    let lost := ∃ c ∈ cores, (s.core c).lost = true
    (∀ p h w, t.block = .await (.here p l x h) w →
      (∀ c, frozen = some c → exec i s = s.await t (.here p l x (some c))) ∧
      (frozen = none → lost → ∃ v, exec i s = State.trap { s with fresh := s.fresh + 1 } t 0x15 v 5)) ∧
    ∀ a b d, (∀ y, ¬t.there y) → i = .croot a b d ∨ i = .cswap a b d →
      s.passes t (t.rd a) 16 (if i = .croot a b d then .load else .store) (i = .cswap a b d) (i = .croot a b d) (.own l) →
      let s1 := (s.seen t (t.rd a)).reach t (t.rd a) l
      (∀ c, frozen = some c → exec i s = s1.until t (.thawed c)) ∧
      (frozen = none → lost → ∃ v, exec i s = State.trap { s1 with fresh := s1.fresh + 1 } t 0x15 v 5)

/-- EN set in the descriptor empties the store that it captures, or is cleared where the capture fails; EN cleared turns the store
off. A DYING entry is freed with one decrement for each child, and the copies of its name and its slot's lines leave every hearth and every L1, unless its home is lost or a home
that this reaches is frozen. -/
def StoreRows : Prop :=
  ∀ (s : State) (part : Nat) (p : Partition), s.part part = some p →
    let m := s.mem (.share part p.placing)
    let on := m.read 0x144018 8 / 2 ^ 63 % 2 = 1
    (∀ c, on → p.store.en = false → s.capture part p = some c → c.en = true ∧ c.crumbs = [] ∧
      let s1 := (s.setPart part { p with store := c }).dropCopies part none
      exec (.crumbStoreEnable part) s = .next s1 ∧ ∀ h, ∀ x ∈ (s1.hearth h).crumbs, x.1 ≠ part) ∧
    (on → p.store.en = false → s.capture part p = none → answers (exec (.crumbStoreEnable part) s) fun s' =>
      (s'.mem (.share part p.placing)).read 0x144018 8 = m.read 0x144018 8 - 2 ^ 63 ∧ s'.part part = some p) ∧
    (¬on ∨ p.store.en = true → exec (.crumbStoreEnable part) s = .next s) ∧
    (¬on → p.store.en = true → exec (.crumbStoreDisable part) s =
      .next (s.setPart part { p with store := { p.store with en := false } })) ∧
    (on ∨ p.store.en = false → exec (.crumbStoreDisable part) s = .next s) ∧
    ∀ k x, p.store.crumbs[k]? = some x →
      (x.live = true → exec (.crumbFree part k) s = .next s) ∧
      ((∃ c ∈ x.name :: s.kidsOf part x, (s.core (p.store.homeOf c)).frozen = true) → exec (.crumbFree part k) s = .next s) ∧
      ((s.core (p.store.homeOf x.name)).lost = true → exec (.crumbFree part k) s = .next s) ∧
      (x.live = false → x.cls = 1 → s.homeUp (p.store.homeOf x.name) → answers (exec (.crumbFree part k) s) fun s' =>
        s'.part part = some { p with store :=
          { p.store with crumbs := p.store.crumbs.filter fun y => !(y.slot == x.slot && !y.live) } } ∧
        (∀ l, s'.readLoc l 1 = s.readLoc l 1) ∧
        (∀ h, ∀ y ∈ (s'.hearth h).crumbs, y.1 = part → y.2.1 ≠ x.name) ∧
        ∀ l, s.slotLoc part x.slot = some l → ∀ core, ∀ y ∈ (s'.core core).l1,
          .phys y.tier ≠ l.space ∨ y.pa < l.off ∨ l.off + 256 ≤ y.pa) ∧
      ∀ c y, x.live = false → x.cls = 2 → (childNames (s.slotWords part x.slot)).filter (fun c => c != 0) = [c] →
        s.homeUp (p.store.homeOf x.name) → s.homeUp (p.store.homeOf c) →
        p.store.liveEntry c = some y → 1 < y.count → y.count < 2 ^ 32 - 1 → answers (exec (.crumbFree part k) s) fun s' =>
          (s'.store part).liveEntry c = some { y with count := y.count - 1 } ∧
          ∀ z ∈ (s'.store part).crumbs, z.slot = x.slot → z.live = true

end Sys2Proof.Machine

/-- The crumb forms, the enabling of a crumb store, and the freeing of a crumb. The model's choice: log 10, 57, 78, 81 and 106. -/
def Obligations.CrumbForms : Prop :=
  Sys2Proof.Machine.CountForms ∧
  Sys2Proof.Machine.PutForms ∧
  Sys2Proof.Machine.ProbeSequence ∧
  Sys2Proof.Machine.NodeNeedsChildren ∧
  Sys2Proof.Machine.GetForm ∧
  Sys2Proof.Machine.RootForms ∧
  Sys2Proof.Machine.StatForms ∧
  Sys2Proof.Machine.HomeNotUp ∧
  Sys2Proof.Machine.StoreRows

namespace Sys2Proof.Machine

/-! ### Images, csave, crest and prst (R308 to R311, R317) -/

/-- The registers of a thread hold no reserved bit, and VL, VPOS and FRM a value that their writes give (R5). -/
def Thread.legal (t : Thread) : Prop :=
  t.trap.tcause &&& 0x1FFFF = t.trap.tcause ∧ t.trap.tvec &&& ~~~3#64 = t.trap.tvec ∧ t.trap.tstat2 &&& 0x2FFFFFFFF = t.trap.tstat2 ∧
  1 ≤ t.fp.vl.toNat ∧ t.fp.vl.toNat ≤ 64 ∧ t.fp.vpos.toNat < 64 ∧ t.fp.frm.toNat < 16 ∧ t.fp.frm.toNat % 8 < 5 ∧
  t.fp.fflags.toNat < 32 ∧ t.mstat &&& 0xFF03FF = t.mstat ∧ t.cp.xlen.toNat < 2 ^ 32 ∧ t.cp.xdim.toNat < 2 ^ 20 ∧
  t.cp.xmask.toNat < 2 ^ 16 ∧ t.stageNo < 8 ∧ ∀ k < 6, t.mat.get k &&& matMask k = t.mat.get k

/-- A thread that is restored from its image has the pc, every general register, the trap registers, the V-class, M-class and copy
registers, MSTAT, EP, and the privilege, partition, owner, security and UT of the saved one. -/
def ImageRestores : Prop :=
  ∀ (s : State) (tid n : Nat) (t : Thread), t.priv < 4 → t.part < 2 ^ 7 → t.owner < 2 ^ 8 → t.legal →
    let u := threadOf (s.image tid t) n
    u.pc = t.pc ∧ (∀ r : GReg, u.rd r = t.rd r) ∧ u.trap = t.trap ∧ u.fp = t.fp ∧ u.mat = t.mat ∧ u.mstat = t.mstat ∧
      u.cp = t.cp ∧ u.ep = t.ep ∧ u.stageNo = t.stageNo ∧ u.ut = t.ut ∧ u.priv = t.priv ∧ u.part = t.part ∧ u.owner = t.owner ∧ u.sec = t.sec

/-- Reserved bits of the words of an image do not reach the registers of the thread that it restores. -/
def ImageMasksReserved : Prop := ∀ (w : List Word) (n : Nat), (threadOf w n).legal

/-- An image's SIZE is the number of bytes that it has: 1,024, 8,192 for a vector context, and 12,288 for each tile. -/
def ImageSize : Prop :=
  ∀ (s : State) (tid : Nat) (t : Thread),
    let vec := holdsCtx (s.core (coreOf tid)) tid
    let mask := (s.core (coreOf tid)).tileMask tid
    let w := s.image tid t
    8 * w.length = imageSize vec mask ∧ (w.getD 0 0).toNat % 256 = 1 ∧ (w.getD 0 0).toNat / 2 ^ 32 = imageSize vec mask ∧
      (w.getD 0 0).toNat / 2 ^ 16 % 256 = mask ∧ bitAt (w.getD 0 0).toNat 8 = vec

/-- csave and crest ask service privilege. csave answers 1 for a thread that does not exist, is of another partition or is a handler,
and 2 for a parked, halted or stopped one; a quiet thread leaves rotation, and csave waits for its work. -/
def SaveChecks : Prop :=
  ∀ (s : State) (t : Thread) (a b d : GReg), s.thread s.cur = some t →
    let x := (t.rd b).toNat % 2 ^ 18
    (t.priv = 0 → exec (.csave a b d) s = s.priv t ∧ exec (.crest a b d) s = s.priv t) ∧
    (t.priv ≠ 0 → s.thread x = none → s.retires (.csave a b d) (t.wr d 1) (t.pc + 4)) ∧
    ∀ u, t.priv ≠ 0 → s.thread x = some u →
      (u.part ≠ t.part ∨ x % 16 = 15 → s.retires (.csave a b d) (t.wr d 1) (t.pc + 4)) ∧
      (u.part = t.part → x % 16 ≠ 15 → (∀ k, s.imageRange t (t.rd a) 107520 .store k = k) →
        ((∃ f, u.block = .parked f) ∨ u.block = .halted ∨ u.stop ≠ .none → s.retires (.csave a b d) (t.wr d 2) (t.pc + 4)) ∧
        (u.block = .none → u.stop = .none → x ≠ s.cur → s.quiet x = true → answers (exec (.csave a b d) s) fun s' =>
          s'.thread s.cur = some { t.issued with block := .await (.quiet x) s.ir } ∧ ∃ u', s'.thread x = some u' ∧ u'.block = .saving ∧
            u'.pc = u.pc ∧ u'.g = u.g))

/-- Once the accesses and transfers of the saved thread have ended, its paused transfers are killed and its commands go to its records;
when none is left in an engine, its image stands at the address with its pc and its general registers, its slot is
empty, and csave answers the size of the image. -/
def SaveCompletes : Prop :=
  ∀ (s : State) (t u : Thread) (a b d : GReg) (h off : Nat), s.thread s.cur = some t →
    let x := (t.rd b).toNat % 2 ^ 18
    t.priv ≠ 0 → s.thread x = some u → x ≠ s.cur → u.part = t.part → x % 16 ≠ 15 → u.block = .saving → u.stop = .none →
    s.drained x u = true → (s.stopWork x).noWork x = true → s.window t.part (coreOf s.cur) (t.rd a) = some (.pantry h off) → off % 1024 = 0 →
    off + 107520 ≤ min (s.shareSize t.part h) (2 ^ 26) → h ≠ s.placing t.part →
    answers (exec (.csave a b d) s) fun s' =>
      let word := fun k => BitVec.ofNat 64 ((s'.mem (.share t.part h)).read (off + 8 * k) 8)
      s'.thread x = none ∧ word 1 = BitVec.ofNat 64 x ∧ word 2 = u.pc ∧
      (∀ r : GReg, r ≠ 0 → word (9 + r.val) = u.rd r) ∧
      ∃ t', s'.thread s.cur = some t' ∧ t'.pc = t.pc + 4 ∧ t'.block = .none ∧
        (d ≠ 0 → t'.rd d = BitVec.ofNat 64
          (imageSize (holdsCtx (s.core (coreOf x)) x) ((s.core (coreOf x)).tileMask x)))

/-- crest answers 3 for a wrong version or size or a reserved word that is not zero, 4 for a core that is no worker of the
partition, takes MCHECK with SUB 5 for a lost core, and answers 1 where the core has no slot or no meter for the thread; else the thread stands in a free slot of the core with the
pc and the registers of its image, and the answer is 2^63 and its ID. -/
def RestoreForm : Prop :=
  ∀ (s : State) (t : Thread) (a b d : GReg), s.thread s.cur = some t → t.priv ≠ 0 →
    (∀ k, s.imageRange t (t.rd a) 1024 .load k = k) →
    let me := coreOf s.cur
    let va := (t.rd a).toNat
    let hdr := ((s.readImage me t va 1).getD 0 0).toNat
    let vec := bitAt hdr 8
    let mask := hdr / 2 ^ 16 % 256
    let size := hdr / 2 ^ 32
    let w := s.readImage me t va (size / 8)
    let target := (t.rd b).toNat % 2 ^ 14
    let grant := s.grantFor target (threadOf w 0)
    (hdr % 256 ≠ 1 ∨ size ≠ imageSize vec mask → s.retires (.crest a b d) (t.wr d 3) (t.pc + 4)) ∧
    (hdr % 256 = 1 → size = imageSize vec mask → (∀ k, s.imageRange t (t.rd a) size .load k = k) →
      (imageClean hdr vec (tilesOf mask).length w = false → s.retires (.crest a b d) (t.wr d 3) (t.pc + 4)) ∧
      (imageClean hdr vec (tilesOf mask).length w = true →
      ((∀ p, s.part t.part = some p → p.worker target = false) → s.retires (.crest a b d) (t.wr d 4) (t.pc + 4)) ∧
      ∀ p, s.part t.part = some p → p.worker target = true → (s.core target).frozen = false →
        ((s.core target).lost = true → ∃ v, exec (.crest a b d) s = State.trap { s with fresh := s.fresh + 1 } t 0x15 v 5) ∧
        ((s.core target).lost = false → grant = none → s.retires (.crest a b d) (t.wr d 1) (t.pc + 4)) ∧
        ∀ g, (s.core target).lost = false → grant = some g → vec = false → mask = 0 →
          answers (exec (.crest a b d) s) fun s' =>
            (∃ u, s'.thread g = some u ∧ u.pc = w.getD 2 0 ∧ u.block = .none ∧
              ∀ r : GReg, r ≠ 0 → u.rd r = w.getD (9 + r.val) 0) ∧
            ∃ t', s'.thread s.cur = some t' ∧ t'.pc = t.pc + 4 ∧
              (d ≠ 0 → t'.rd d = BitVec.ofNat 64 (2 ^ 63 + g))))

/-- prst asks service privilege, waits for the thread's counters, and answers 2^63 + 3 for a partition that does not exist or, at service
privilege, that is not its own. At service privilege from the service core it ends every thread of the partition on another core,
leaves those cores with LM zero and the reset couche and no L1 line of the partition, and answers the number of threads ended above the
drain count; requests on their way to units that can be performed are, before it. -/
def ResetForm : Prop :=
  ∀ (s : State) (t : Thread) (a d : GReg), s.thread s.cur = some t →
    let part := (t.rd a).toNat % 2 ^ 7
    (t.priv = 0 → exec (.prst a d) s = s.priv t) ∧
    (t.priv ≠ 0 → t.waited .all → (t.priv = 1 ∧ part ≠ t.part) ∨ s.part part = none →
      s.retires (.prst a d) (t.wr d (2 ^ 63 + 3)) (t.pc + 4)) ∧
    (∀ p s1, t.priv = 1 → t.waited .all → part = t.part → s.part part = some p →
      s.carryOps part (fun x => (s.resetThreads part p false).any fun q => q.1 == x) (.await s.cur) = some s1 →
      exec (.prst a d) s = s1.await t .soon) ∧
    ∀ p, t.priv = 1 → t.waited .all → part = t.part → t.block = .none → s.moving = [] → (∀ q ∈ s.parcels, q.acc.isOp = false) → s.part part = some p → coreOf s.cur = p.svc →
      answers (exec (.prst a d) s) fun s' =>
        (∀ x u, s.thread x = some u → u.part = part → coreOf x ≠ p.svc → s'.thread x = none) ∧
        (∀ c ∈ p.clusters, ∀ k < 16, 16 * c + k ≠ p.svc →
          (s'.core (16 * c + k)).lm = [] ∧ (s'.core (16 * c + k)).couche = resetCouche ∧ (s'.core (16 * c + k)).bars = []) ∧
        (∀ c, ∀ x ∈ (s'.core c).l1, ∀ q ∈ x.pages, q.1 ≠ part) ∧
        ∃ t', s'.thread s.cur = some t' ∧ t'.block = .none ∧
          (d ≠ 0 → t'.rd d = resetResult (s.drainCount part p false (s.resetThreads part p false)) (s.resetThreads part p false).length)

end Sys2Proof.Machine

/-- The image of a thread, csave and crest, and prst. The model's reading: fields of the image that R308 leaves short, the order of the
checks, a crest to a lost core, and what a reset does to work in flight (log 17, 18, 44, 81). -/
def Obligations.ContextForms : Prop :=
  Sys2Proof.Machine.ImageRestores ∧
  Sys2Proof.Machine.ImageMasksReserved ∧
  Sys2Proof.Machine.ImageSize ∧
  Sys2Proof.Machine.SaveChecks ∧
  Sys2Proof.Machine.SaveCompletes ∧
  Sys2Proof.Machine.RestoreForm ∧
  Sys2Proof.Machine.ResetForm

namespace Sys2Proof.Machine

/-! ### Debug, the score pulse and the counters (R402 to R411) -/

/-- mark adds its value to the marks of its core while the score pulse runs, at most four, then to the dropped count. smpl reads a count or
a bin, at user privilege where reads are allowed. dbrk stops its thread and answers 1 with breaks armed, else 0. -/
def DebugFormsRetire : Prop :=
  ∀ (s : State) (t : Thread) (a d : GReg), s.thread s.cur = some t →
    let me := coreOf s.cur
    let c := s.core me
    let cell := c.dbg.cells.getD ((t.rd a).toNat % 16) {}
    (s.spEn = false → s.retires (.mark a) t (t.pc + 4)) ∧
    (s.spEn = true → c.marks.length < 4 →
      s.retiresIn (s.setCore me { c with marks := c.marks ++ [(s.cur % 16, (t.rd a).setWidth 32)] }) (.mark a) t (t.pc + 4)) ∧
    (s.spEn = true → 4 ≤ c.marks.length → s.retiresIn (s.setCore me { c with mdrop := c.mdrop + 1 }) (.mark a) t (t.pc + 4)) ∧
    (t.priv = 0 → c.dbg.uread = false → exec (.smpl a d) s = s.priv t) ∧
    (t.priv ≠ 0 ∨ c.dbg.uread = true → (t.rd a).extractLsb' 7 1 = 0 → s.retires (.smpl a d) (t.wr d cell.cnt) (t.pc + 4)) ∧
    (t.priv ≠ 0 ∨ c.dbg.uread = true → (t.rd a).extractLsb' 7 1 = 1 →
      s.retires (.smpl a d) (t.wr d (BitVec.ofNat 64 (cell.bins.getD ((t.rd a).toNat / 16 % 8) 0))) (t.pc + 4)) ∧
    (c.dbg.armbrk = true → s.retires (.dbrk d) ({ t with stop := .stopped }.wr d 1) (t.pc + 4)) ∧
    (c.dbg.armbrk = false → s.retires (.dbrk d) (t.wr d 0) (t.pc + 4))

/-- STOP names a slot from its cc on. A release lets the slot's stopped thread run from the next cc, unless its core is halted. A breakpoint
that matches the pc of a thread at a boundary stops it, also where a suspension is due there. -/
def StopForms : Prop :=
  ∀ (s : State) (tid : Nat),
    let d := (s.core (coreOf tid)).dbg
    let k := tid % 16
    (answers (exec (.debugStop tid) s) fun s' => s'.threads = s.threads ∧
      (d.stops.look k = none → (s'.core (coreOf tid)).dbg.stops.look k = some s.cc)) ∧
    (∀ t, s.thread tid = some t → answers (exec (.debugRelease tid) s) fun s' =>
      (s'.core (coreOf tid)).dbg.stops.look k = none ∧
      (t.stop = .stopped → d.halt = true → s'.thread tid = some { t with stop := .halted }) ∧
      (t.stop = .stopped → d.halt = false → t.vrec = [] → t.mrec = [] →
        s'.thread tid = some { t with stop := .none, readyAt := s.cc + 1 }) ∧
      (t.stop ≠ .stopped → s'.threads = s.threads)) ∧
    ∀ t, s.thread tid = some t →
      (t.stop = .none → t.block = .none → t.readyAt ≤ s.cc → (s.core (coreOf tid)).ckpt = false →
          (s.core (coreOf tid)).frozen = false → (s.core (coreOf tid)).lost = false → (∃ b ∈ d.bp, b.extractLsb' 63 1 = 1 ∧ (b.extractLsb' 62 1 = 1 ∨ b.toNat / 2 ^ 44 % 2 ^ 18 = tid) ∧
          b.toNat % 2 ^ 44 = t.pc.toNat / 4 % 2 ^ 44 ∧ t.pc.toNat < 2 ^ 46) →
        exec (.breakpoint tid) s = .next (s.setThread tid { t with stop := .stopped })) ∧
      (t.stop ≠ .none ∨ t.block ≠ .none ∨ s.cc < t.readyAt ∨ (∀ b ∈ d.bp, b.extractLsb' 63 1 = 0) → exec (.breakpoint tid) s = .next s)

/-- HALT is written with HOLDENG as it stands, and its end releases the threads that HALT alone has stopped. SETTLED comes once no thread
of a halted core waits for a load and no engine runs. -/
def HaltForms : Prop :=
  ∀ (s : State) (core : Nat),
    let c := s.core core
    (c.dbg.halt = false → c.dbg.held = false → answers (exec (.coreHalt core) s) fun s' =>
      (s'.core core).dbg.halt = true ∧ (s'.core core).dbg.haltAt = s.cc ∧ (s'.core core).dbg.held = c.dbg.holdeng ∧
      (c.dbg.holdeng = false → s'.threads = s.threads)) ∧
    (c.dbg.held = false → answers (exec (.coreUnhalt core) s) fun s' =>
      (s'.core core).dbg.halt = false ∧ (s'.core core).dbg.settled = false ∧
      ∀ tid t, s.thread tid = some t →
        (coreOf tid = core → t.stop = .halted → s'.thread tid = some
          (if (c.dbg.stops.look (tid % 16)).isSome then { t with stop := .stopped } else { t with stop := .none, readyAt := s.cc + 1 })) ∧
        (coreOf tid ≠ core ∨ t.stop ≠ .halted → s'.thread tid = some t)) ∧
    (c.dbg.halt = true → c.dbg.haltAt < s.cc → (∀ p ∈ s.onCore core, p.2.block ≠ .reply .load) → c.vq = [] → c.mq = [] → c.latch = none → c.xq = [] →
      (∀ k ∈ c.chans, k.cur = none) →
      exec (.settled core) s = .next (s.setCore core { c with dbg := { c.dbg with settled := true } })) ∧
    (c.dbg.halt = false ∨ c.vq ≠ [] ∨ c.mq ≠ [] → exec (.settled core) s = .next s)

/-- A read of RDATA gives a general register or the pc of a stopped thread, and else 0 with RERR. A write changes the register, and counts
from the controlling host alone. -/
def DebugDataAccess : Prop :=
  ∀ (s : State) (host core : Nat) (v : Word),
    let d := (s.core core).dbg
    let tid := 16 * core + d.sel.toNat % 16
    let n := d.sel.toNat / 2 ^ 16 % 2 ^ 12
    let read := fun (w : Word) (err : BitVec 1) => answers (exec (.debugRegisterAccess host core none) s) fun s' =>
      s'.threads = s.threads ∧ (s'.core core).dbg.rdata = w ∧ (s'.core core).dbg.sel.extractLsb' 15 1 = err
    (s.thread tid = none → read 0 1) ∧
    (∀ t, s.thread tid = some t →
      (t.stop = .none → read 0 1) ∧
      (t.stop ≠ .none → d.sel.extractLsb' 31 1 = 0 →
        (∀ r : GReg, n = r.val → read (t.rd r) 0 ∧
          (s.fw.ctl = some host → answers (exec (.debugRegisterAccess host core (some v)) s) fun s' => s'.thread tid = some (t.wr r v))) ∧
        (n = 32 → read t.pc 0 ∧
          (s.fw.ctl = some host → answers (exec (.debugRegisterAccess host core (some v)) s) fun s' =>
            s'.thread tid = some { t with pc := v })) ∧
        (32 < n → read 0 1))) ∧
    (s.fw.ctl ≠ some host → exec (.debugRegisterAccess host core (some v)) s = .next s)

/-- On a tick each core latches its slots and marks once its own TIME has reached the tick, and 2 ns later each hearth makes its record; off,
nothing is done. A hearth without a ring writes nothing; one whose ring has no room counts a drop and marks its next record FULL; else the
record starts with its tick, and the write offset moves by its size. -/
def ScorePulse : Prop :=
  ∀ (s : State),
    let tickOf := fun (ns : Nat) => ns / 2 ^ s.spP * 2 ^ s.spP
    (s.spEn = false → exec .scorePulseTick s = .next s) ∧
    (s.spEn = true →
      exec .scorePulseTick s = .next ((List.range 16).foldl State.collect (s.latching.foldl State.latchCore s))) ∧
    (∀ tid t, s.thread tid = some t → coreOf tid ∈ s.latching) ∧
    (∀ core,
      let tick := tickOf (s.timeAt core)
      let c := s.core core
      let c' := (s.latchCore core).core core
      (tick ≤ s.spLast ∨ tick ≤ c.spTick → s.latchCore core = s) ∧
      (s.spLast < tick → c.spTick < tick → c'.spTick = tick ∧ c'.spMarks = c.marks ∧ c'.marks = [] ∧
        (∀ p ∈ s.onCore core, c'.spSlots.look p.1 = some (s.latchSlot p.1)) ∧ (s.latchCore core).threads = s.threads)) ∧
    ∀ h tick,
      (tick = tickOf (s.time - 2) →
        (tick ≤ s.spLast ∨ tick ≤ (s.hearth h).spDone → s.collect h = s) ∧
        (s.spLast < tick → (s.hearth h).spDone < tick →
          s.collect h = (s.setHearth h { s.hearth h with spDone := tick }).pulseHearth tick h)) ∧
      let x := s.hearth h
      let n := 16 + 8 * (s.pulseEntries h x.full).length
      let free := (((x.srrd : Int) - x.srwr - 1) % x.srlen).toNat
      (x.srlen = 0 → s.pulseHearth tick h = s) ∧
      (x.srlen ≠ 0 → free < n → s.pulseHearth tick h = s.setHearth h { x with drops := min (x.drops + 1) (2 ^ 32 - 1), full := true }) ∧
      (x.srwr + 8 ≤ x.srlen → n ≤ free →
        ((s.pulseHearth tick h).hearth h).srwr = (x.srwr + n) % x.srlen ∧ ((s.pulseHearth tick h).hearth h).full = false ∧
        (s.pulseHearth tick h).host.read (x.srbase.toNat / 4096 * 4096 + x.srwr) 8 = tick % 2 ^ 64)

/-- An entry of a record has the slot's number, run state and pc; a mark has run state 7 and its value. -/
def ScorePulseEntries : Prop :=
  ∀ (tid rs : Nat) (pc : Word) (v : BitVec 32), rs < 8 →
    let e := (slotEntry tid (rs, pc)).toNat
    let m := (markEntry tid v).toNat
    e / 2 ^ 50 = tid % 2 ^ 14 ∧ e / 2 ^ 47 % 8 = rs ∧ (pc.toNat < 2 ^ 49 → e % 2 ^ 47 = pc.toNat / 4) ∧
      (2 ^ 49 ≤ pc.toNat → e % 2 ^ 47 = 2 ^ 47 - 1) ∧ m / 2 ^ 50 = tid % 2 ^ 14 ∧ m / 2 ^ 47 % 8 = 7 ∧ m % 2 ^ 47 = v.toNat

/-- A cell counts in each cc: mode 0 the cc in which e is 1, mode 1 its rises, mode 2 its runs of THR cc, and mode 3 its runs, each in the
bin of its length. -/
def CounterCells : Prop :=
  ∀ (s : State) (core k : Nat) (act : BitVec 32) (c : Cell), (s.core core).dbg.cells[k]? = some c →
    let e := s.cellE core act c
    let thr := max (c.cfg.toNat / 2 ^ 32) 1
    let mode := c.cfg.toNat / 2 ^ 30 % 4
    let run := if e = true then c.run + 1 else 0
    answers (exec (.counterCellCycle core act) s) fun s' => s'.threads = s.threads ∧
      ∃ c', (s'.core core).dbg.cells[k]? = some c' ∧ c'.cfg = c.cfg ∧
        (c.cfg.extractLsb' 15 1 = 0 → c' = c) ∧
        (c.cfg.extractLsb' 15 1 = 1 → c'.run = run ∧
          (mode = 0 → c'.cnt = (if e = true then c.cnt + 1 else c.cnt) ∧ c'.bins = c.bins) ∧
          (mode = 1 → c'.cnt = (if e = true ∧ c.run = 0 then c.cnt + 1 else c.cnt) ∧ c'.bins = c.bins) ∧
          (mode = 2 → c'.cnt = (if run = thr then c.cnt + 1 else c.cnt) ∧ c'.bins = c.bins) ∧
          (mode = 3 → e = true ∨ c.run = 0 → c'.cnt = c.cnt ∧ c'.bins = c.bins) ∧
          (mode = 3 → e = false → c.run ≠ 0 → c'.cnt = c.cnt + 1 ∧ ∀ b < c.bins.length, c'.bins.getD b 0 =
            if b = min ((c.run - 1) / thr) 7 then min (c.bins.getD b 0 + 1) (2 ^ 32 - 1) else c.bins.getD b 0))

/-- The signals of a core in a cc: its slot that issued, a bubble, and a beat or pass of each engine. -/
def ActivitySignals : Prop :=
  ∀ (s : State) (core : Nat),
    let c := s.core core
    let bubble := s.signals.any fun x => x.1 == core && x.2 == 16
    let issued := c.lastIssue == some s.cc && !bubble
    let on := fun (k : Nat) => (s.activity core).getLsbD k
    (∀ k < 16, on k = (issued && s.slotNow core == some (16 * core + k))) ∧ on 16 = !issued ∧ on 17 = (c.vrun == some s.cc) ∧
      on 18 = (c.mrun == some s.cc) ∧ on 19 = (c.xrun == some s.cc) ∧
      ∀ k, 20 ≤ k → k < 32 → on k = s.signals.any fun x => x.1 == core && x.2 == k

/-- A write of a debug register sets the fields of a core's or a ring's block, from the controlling host alone. -/
def DebugWrites : Prop :=
  ∀ (s : State) (host core : Nat) (v : Word), core < 16384 →
    let at_ := fun (off : Nat) => exec (.debugControlWrite host (0x100000 + 0x400 * core + off) v) s
    let dbg := fun (s' : State) => (s'.core core).dbg
    let d := (s.core core).dbg
    (∀ off, s.fw.ctl ≠ some host → exec (.debugControlWrite host off v) s = .next s) ∧
    (s.fw.ctl = some host →
      (answers (at_ 0) fun s' => (dbg s').holdeng = (v.extractLsb' 62 1 == 1) ∧ (dbg s').uread = (v.extractLsb' 60 1 == 1) ∧
        (dbg s').armbrk = (v.extractLsb' 59 1 == 1) ∧ (dbg s').halt = (v.extractLsb' 63 1 == 1)) ∧
      (∀ k < 4, d.bp.length = 4 → answers (at_ (0x10 + 8 * k)) fun s' => (dbg s').bp[k]? = some v ∧ s'.threads = s.threads) ∧
      (∀ k < 16, d.cells.length = 16 → answers (at_ (0x40 + 8 * k)) fun s' => ∃ c, (dbg s').cells[k]? = some c ∧
        c.cfg = v &&& 0xFFFFFFFFC000FF7F#64 ∧ c.run = 0 ∧ c.cnt = (d.cells.getD k {}).cnt) ∧
      (∀ k < 16, d.cells.length = 16 → answers (at_ (0x100 + 8 * k)) fun s' => ∃ c, (dbg s').cells[k]? = some c ∧
        c.cnt = v ∧ c.cfg = (d.cells.getD k {}).cfg) ∧
      ∀ h < 16,
        let ring := fun (off : Nat) => exec (.debugControlWrite host (0x1000 * h + off) v) s
        (answers (ring 0x08) fun s' => (s'.hearth h).srbase = v &&& 0xFFFFFFFFFFFFF000#64) ∧
        (answers (ring 0x10) fun s' => (s'.hearth h).srlen = v.toNat % 2 ^ 32) ∧
        answers (ring 0x20) fun s' => (s'.hearth h).srrd = v.toNat % 2 ^ 32)

/-- A read of a core's block shows the fields that a write sets, SETTLED, and in STOPPED a bit for each slot whose thread is stopped; one of
a hearth's block shows its ring; a write-only field reads 0. -/
def DebugReads : Prop :=
  ∀ (s : State) (core : Nat), core < 16384 →
    let at_ := fun (off : Nat) => s.debugRegister (0x100000 + 0x400 * core + off)
    let d := (s.core core).dbg
    let cell := fun (k : Nat) => d.cells.getD k {}
    let flag := fun (k : Nat) (b : Bool) => (at_ 0).toNat.testBit k = b
    ((s.threads.map Prod.fst).Nodup → flag 63 d.halt ∧ flag 62 d.holdeng ∧ flag 61 d.settled ∧ flag 60 d.uread ∧ flag 59 d.armbrk ∧
      ∀ k < 16, (∀ t, s.thread (16 * core + k) = some t → flag k (t.stop != .none)) ∧ (s.thread (16 * core + k) = none → flag k false)) ∧
    at_ 8 = 0 ∧ (∀ k < 4, at_ (0x10 + 8 * k) = d.bp.getD k 0) ∧ at_ 0x30 = d.sel ∧ at_ 0x38 = d.rdata ∧
    (∀ k < 16, at_ (0x40 + 8 * k) = (cell k).cfg ∧ at_ (0x100 + 8 * k) = (cell k).cnt ∧
      ∀ b < 8, at_ (0x200 + 32 * k + 4 * b) = BitVec.ofNat 64 ((cell k).bins.getD b 0)) ∧
    ∀ h < 16,
      let ring := fun (off : Nat) => s.debugRegister (0x1000 * h + off)
      ring 0x08 = (s.hearth h).srbase ∧ ring 0x10 = BitVec.ofNat 64 (s.hearth h).srlen ∧ ring 0x18 = BitVec.ofNat 64 (s.hearth h).srwr ∧
      ring 0x20 = BitVec.ofNat 64 (s.hearth h).srrd ∧ ring 0x28 = BitVec.ofNat 64 (s.hearth h).drops ∧ ring 0x30 = 0

end Sys2Proof.Machine

/-- mark, smpl and dbrk, stops, halts, RDATA, the score pulse, counter cells, debug writes and reads. The model's reading: the order of
stops, what becomes of marks of a dropped record, and the moment in a cc at which a signal counts (log 45, 46, 47). -/
def Obligations.DebugForms : Prop :=
  Sys2Proof.Machine.DebugFormsRetire ∧
  Sys2Proof.Machine.StopForms ∧
  Sys2Proof.Machine.HaltForms ∧
  Sys2Proof.Machine.DebugDataAccess ∧
  Sys2Proof.Machine.ScorePulse ∧
  Sys2Proof.Machine.ScorePulseEntries ∧
  Sys2Proof.Machine.CounterCells ∧
  Sys2Proof.Machine.ActivitySignals ∧
  Sys2Proof.Machine.DebugWrites ∧
  Sys2Proof.Machine.DebugReads

namespace Sys2Proof.Machine

/-! ### Hosts, function registers and the HDM range (R365 to R371, R373, R379) -/

/-- claim elects its writer while no host controls; handover by the controlling host names an attached one; a loss of 100 ms on all
links of the controlling host leaves none. None of them changes anything but the firmware's registers. -/
def ControllingHost : Prop :=
  ∀ (s : State) (host dest : Nat),
    let only := fun (s' : State) => { s' with fw := s.fw } = s
    (answers (exec (.claim host) s) fun s' => only s' ∧ host ∈ s'.fw.hosts ∧
      s'.fw.ctl = some (s.fw.ctl.getD host)) ∧
    (s.fw.ctl = some host → dest = host ∨ dest ∈ s.fw.hosts → answers (exec (.handover host dest) s) fun s' =>
      only s' ∧ s'.fw.ctl = some dest) ∧
    (s.fw.ctl ≠ some host ∨ (dest ≠ host ∧ dest ∉ s.fw.hosts) → answers (exec (.handover host dest) s) fun s' =>
      only s' ∧ s'.fw.ctl = s.fw.ctl) ∧
    (∀ x, s.fw.lossAt = some x →
      (x + 100000000 ≤ s.time → exec .controlLoss s = .next { s with fw := { s.fw with ctl := none, lossAt := none } }) ∧
      (s.time < x + 100000000 → exec .controlLoss s = .next s)) ∧
    (s.fw.lossAt = none → exec .controlLoss s = .next s)

/-- The board controller's report stands in THERM. A port that goes down or comes up is noted; while all links of the controlling host are
down the time is kept from the first moment on. A snoop takes a host's line out of every L1 and changes no byte. -/
def LinksAndReports : Prop :=
  ∀ (s : State) (hot : Bool) (port host a : Nat),
    let watched := fun (s' : State) => s'.fw.lossAt =
      if (s.fw.ctl.isSome && s.fw.ctlLinks.all s'.down.contains) = true then some (s.fw.lossAt.getD s.time) else none
    exec (.boardThermalLimit hot) s = .next { s with fw := { s.fw with therm := hot } } ∧
    (answers (exec (.backingLinkDown port) s) fun s' => port ∈ s'.down ∧ (∀ x, x ≠ port → (x ∈ s'.down ↔ x ∈ s.down)) ∧ watched s') ∧
    (answers (exec (.backingLinkUp port) s) fun s' => port ∉ s'.down ∧ (∀ x, x ≠ port → (x ∈ s'.down ↔ x ∈ s.down)) ∧ watched s') ∧
    answers (exec (.hostSnoop host a) s) fun s' => { s' with fw := s.fw, cores := s.cores } = s ∧ s'.fw.ctl = s.fw.ctl ∧
      ∀ core x, x ∈ (s'.core core).l1 ↔ x ∈ (s.core core).l1 ∧ ¬(x.tier = 2 ∧ x.pa = a / 64 * 64)

/-- RUN of a function that enumerates, in recovery the physical function alone, is set and cleared by the controlling host alone; a
function that stops reads no further command. -/
def RunBits : Prop :=
  ∀ (s : State) (host n : Nat),
    let own := s.fw.ctl = some host ∧ n ≤ 128 ∧ (n = 0 ∨ s.fw.boot ≠ 3)
    let v := s.fw.fn n
    (own → (answers (exec (.runStart host n) s) fun s' => s'.fw.fn n = { v with run := true } ∧ { s' with fw := s.fw } = s) ∧
      answers (exec (.runStop host n) s) fun s' => s'.fw.fn n = { v with run := false, pidx := v.cidx } ∧ { s' with fw := s.fw } = s) ∧
    (¬ own → (answers (exec (.runStart host n) s) fun s' => s'.fw.fn n = v ∧ { s' with fw := s.fw } = s) ∧
      answers (exec (.runStop host n) s) fun s' => s'.fw.fn n = v ∧ { s' with fw := s.fw } = s)

/-- A doorbell that names a place out of range, or more than 63 ahead, sets OVR and stops the function; one in range is taken, the
command waiting for its row, or is ignored while the function does not run. -/
def Doorbell : Prop :=
  ∀ (s : State) (host n : Nat) (p : BitVec 16), 0 < n → n ≤ 128 → s.fw.boot ≠ 3 →
    let v := s.fw.fn n
    let ahead := (p.toNat + 64512 - v.cidx) % 64512
    let op := s.host.read v.slot 8 % 256
    (v.run = false → p.toNat < 64512 → ahead ≤ 63 → answers (exec (.notify host n p) s) fun s' =>
      s'.fw.fn n = v ∧ { s' with fw := s.fw } = s) ∧
    (64512 ≤ p.toNat ∨ 63 < ahead → answers (exec (.notify host n p) s) fun s' =>
      s'.fw.fn n = { v with ovr := true, run := false, pidx := v.cidx } ∧ { s' with fw := s.fw } = s) ∧
    (v.run = true → p.toNat < 64512 → ahead ≤ 63 → p.toNat ≠ v.cidx → s.hostLost = false → 1 ≤ op → op ≤ 8 → op ≠ 5 →
      answers (exec (.notify host n p) s) fun s' => s'.fw.fn n = { v with pidx := p.toNat } ∧ { s' with fw := s.fw } = s)

/-- The controlling host locks a partition's features, and writes them, ANDed with what the module offers, until they are locked;
VCPADDR is written while its function does not run. -/
def FunctionRegisters : Prop :=
  ∀ (s : State) (host n : Nat) (p : Partition) (v : Word), n < 128 → s.fw.boot ≠ 3 → s.part n = some p → s.fw.ctl = some host →
    (answers (exec (.flock host (n + 1)) s) fun s' => s'.part n = some { p with flock := true }) ∧
    (p.flock = false → answers (exec (.registerWrite host (n + 1) 0x030 v) s) fun s' =>
      s'.part n = some { p with facc := v &&& s.fw.foffer }) ∧
    (p.flock = true → answers (exec (.registerWrite host (n + 1) 0x030 v) s) fun s' => s'.part n = some p) ∧
    ((s.fw.fn (n + 1)).run = false → answers (exec (.registerWrite host (n + 1) 0 v) s) fun s' =>
      s'.fw.fn (n + 1) = { s.fw.fn (n + 1) with vcpaddr := v &&& 0xFFFFFFFFFFFFF000#64 }) ∧
    ((s.fw.fn (n + 1)).run = true → answers (exec (.registerWrite host (n + 1) 0 v) s) fun s' => s'.fw.fn (n + 1) = s.fw.fn (n + 1)) ∧
    ∀ other, other ≠ host → answers (exec (.flock other (n + 1)) s) fun s' => s'.parts = s.parts

/-- Reads of a function's block. A virtual function shows its command page; RUN, OVR, PGERR and CIDX; its partition's service core,
security, number of clusters and number; the offer with bit 0 set; the accepted features and FLOCK. The physical function shows
whether and by whom it is controlled and whether that is the reader, the boot slot with HDMERR and THERM, and the module number. In
recovery no virtual function enumerates. -/
def FunctionReads : Prop :=
  ∀ (s : State) (host n : Nat) (p : Partition), n < 128 → s.part n = some p →
    let v := s.fw.fn (n + 1)
    let reads := fun (fn off : Nat) (P : Word → Prop) => ∃ w, s.hostRegister host fn off = some w ∧ P w
    let flag := fun (b : Bool) => if b then 1#1 else 0#1
    (s.fw.boot = 3 → ∀ off, s.hostRegister host (n + 1) off = none) ∧
    (s.fw.boot ≠ 3 →
      reads (n + 1) 0 (fun w => w = v.vcpaddr) ∧
      (v.cidx < 64512 → reads (n + 1) 0x010 fun w => w.extractLsb' 63 1 = flag v.run ∧ w.extractLsb' 62 1 = flag v.ovr ∧
        w.extractLsb' 61 1 = flag v.pgerr ∧ w.toNat % 2 ^ 16 = v.cidx) ∧
      (p.svc < 2 ^ 14 → p.clusters.length < 2 ^ 10 → reads (n + 1) 0x018 fun w => w.toNat / 2 ^ 34 = p.svc ∧
        w.extractLsb' 33 1 = flag p.sec ∧ w.toNat / 2 ^ 8 % 2 ^ 10 = p.clusters.length ∧ w.toNat % 2 ^ 8 = n) ∧
      reads (n + 1) 0x020 (fun w => w = s.fw.foffer ||| 1) ∧ reads (n + 1) 0x030 (fun w => w = p.facc) ∧
      reads (n + 1) 0x040 fun w => w.toNat = if p.flock then 1 else 0) ∧
    (s.fw.ctl = none → reads 0 0x800 fun w => w = 0) ∧
    (∀ h, s.fw.ctl = some h → reads 0 0x800 fun w => w.extractLsb' 63 1 = 1 ∧ w.extractLsb' 62 1 = flag (h == host) ∧
      w.toNat % 2 ^ 16 = h % 2 ^ 16) ∧
    (s.fw.boot < 4 → reads 0 0x818 fun w => w.toNat / 16 = s.fw.boot ∧ w.extractLsb' 2 1 = flag s.fw.hdmerr ∧
      w.extractLsb' 1 1 = flag s.fw.therm) ∧
    reads 0 0x820 fun w => w.toNat = s.modId % 2 ^ 12

/-- A host reads and writes the bytes of HBM through the HDM range that lie in a granule exported to it and in no secure page; any other
byte is read poisoned and not written, and one of them sets HDMERR. -/
def HdmAccesses : Prop :=
  ∀ (s : State) (host a n : Nat) (l : List Byte),
    let at_ := s.fw.hdmbase + a
    let only := fun (s' : State) => { s' with fw := s.fw } = s
    let open_ := fun (i : Nat) => s.fw.exports.contains ((a + i) / 2 ^ 21, host) = true ∧ s.secureAt (a + i) = false
    let err := fun (m : Nat) (s' : State) => s'.fw.hdmerr = true ↔ s.fw.hdmerr = true ∨ ∃ i < m, ¬ open_ i
    (a + n ≤ hbmSize → answers (exec (.hdmAccess host at_ n none) s) fun s' => only s' ∧ err n s' ∧
      ∃ r, s'.fw.hdmRead = some r ∧ r.length = n ∧ ∀ i < n, (open_ i → r[i]? = some (some (s.hbm.byte (a + i)))) ∧
        (¬ open_ i → r[i]? = some none)) ∧
    (a + l.length ≤ hbmSize → answers (exec (.hdmAccess host at_ n (some l)) s) fun s' => err l.length s' ∧
      (∀ i < l.length, (open_ i → some (s'.hbm.byte (a + i)) = l[i]?) ∧ (¬ open_ i → s'.hbm.byte (a + i) = s.hbm.byte (a + i))) ∧
      (∀ x, (x < a ∨ a + l.length ≤ x) → s'.hbm.byte x = s.hbm.byte x) ∧
      s'.threads = s.threads ∧ s'.far = s.far ∧ s'.host = s.host)

/-- A module reset keeps the tiers, host memory, flash and the checkpoint slots, and leaves no thread and no partition; with neither slot
well formed the module is in recovery. -/
def ModuleReset : Prop :=
  ∀ (s : State), answers (exec .moduleReset s) fun s' =>
    s'.hbm = s.hbm ∧ s'.far = s.far ∧ s'.host = s.host ∧ s'.fw.flashA = s.fw.flashA ∧ s'.fw.flashB = s.fw.flashB ∧
    s'.fw.slots = s.fw.slots ∧ s'.threads = [] ∧ s'.parts = [] ∧ s'.fw.ctl = none ∧ (∀ n, (s'.fw.fn n).run = false) ∧
    (tableFormed s.fw.flashA s.fw.version = false → tableFormed s.fw.flashB s.fw.version = false → s'.fw.boot = 3)

end Sys2Proof.Machine

/-- The controlling host, function registers, doorbells, the HDM range and the module reset. The model's choice: what a module reset keeps,
bit 0 of FACC, host memory, a write-only register, a stopped function's NOTIFY in range (log 48, 49, 50, 77, 82). -/
def Obligations.HostRegisters : Prop :=
  Sys2Proof.Machine.ControllingHost ∧
  Sys2Proof.Machine.LinksAndReports ∧
  Sys2Proof.Machine.RunBits ∧
  Sys2Proof.Machine.Doorbell ∧
  Sys2Proof.Machine.FunctionRegisters ∧
  Sys2Proof.Machine.FunctionReads ∧
  Sys2Proof.Machine.HdmAccesses ∧
  Sys2Proof.Machine.ModuleReset

namespace Sys2Proof.Machine

/-! ### Commands of the hosts (R372 to R378, R381 to R388) -/

/-- Function fn runs, has no command whose result is awaited and one to read, whose slot holds the doublewords d; a host link is up. -/
def State.holdsCommand (s : State) (fn : Nat) (d : List Nat) : Prop :=
  let v := s.fw.fn fn
  v.run = true ∧ v.cidx < 64512 ∧ v.pidx = (v.cidx + 1) % 64512 ∧ v.opened = [] ∧ s.hostLost = false ∧ d.length = 8 ∧
    ∀ k < 8, s.host.read (v.slot + 8 * k) 8 = d.getD k 0

/-- RESULT has been written with a status and a detail, CIDX has moved on, and an interrupt has been sent if D0 asks one. -/
def State.toldHost (s s' : State) (fn d0 st detail : Nat) : Prop :=
  let v := s.fw.fn fn
  s'.host.read (v.slot + 56) 8 = 2 ^ 63 + detail % 2 ^ 16 * 2 ^ 32 + st ∧ (s'.fw.fn fn).cidx = (v.cidx + 1) % 64512 ∧
    (d0 / 2 ^ 15 % 2 = 1 → (fn, 0) ∈ s'.fw.irqs)

/-- A command of a partition that has not locked its features completes with NOTREADY and no effect. -/
def CommandsNotReady : Prop :=
  ∀ (s : State) (n : Nat) (p : Partition) (d : List Nat) (i : Instr), s.part n = some p → p.flock = false → s.holdsCommand (n + 1) d →
    s.fw.copies = [] → s.fw.ckpts = [] → s.fw.boot ≠ 3 →
    (i, d.getD 0 0 % 256) ∈ [(Instr.launch n, 1), (.applyCommand n, 2), (.setstarter n, 3), (.copy n, 4), (.wakeCommand n, 6),
      (.checkpoint n, 7)] →
    answers (exec i s) fun s' => s.toldHost s' (n + 1) (d.getD 0 0) 3 0 ∧ s'.parts = s.parts ∧ s'.threads = s.threads

/-- LAUNCH fills quota slots of a core with threads of the population, one every 4 cc, which start at the entry with their rank, its
size and the seeds, and names the first one steward of an owner that has none. It fails where the core has too few free slots or no
meter to give, and a quota of 0 is BADARG. -/
def LaunchCommand : Prop :=
  ∀ (s : State) (n k quota o pc seeds core d0 r : Nat) (p : Partition), s.part n = some p → p.flock = true → d0 % 2 ^ 15 = 1 → d0 < 2 ^ 32 →
    p.coreList[k]? = some core → k < 2 ^ 14 → quota < 16 → o < 2 ^ 8 → pc < 2 ^ 64 → seeds < 2 ^ 64 →
    s.holdsCommand (n + 1) [d0, pc, k + k * 2 ^ 16 + quota * 2 ^ 32 + o * 2 ^ 40, 0, seeds, 0, 0, r] →
    let slots := (s.popSlots core).take quota
    let can := quota ≤ (s.popSlots core).length ∧ s.canMeter core o = true ∧ (s.core core).lost = false
    let same := fun (s' : State) => s'.threads = s.threads ∧ s'.parts = s.parts
    (quota = 0 → answers (exec (.launch n) s) fun s' => s.toldHost s' (n + 1) d0 2 0 ∧ same s') ∧
    (quota ≠ 0 → ¬ can → answers (exec (.launch n) s) fun s' => s.toldHost s' (n + 1) d0 4 0 ∧ same s') ∧
    (quota ≠ 0 → can → answers (exec (.launch n) s) fun s' => s.toldHost s' (n + 1) d0 0 quota ∧
      (∀ j tid, slots[j]? = some tid → ∃ t, s'.thread tid = some t ∧ t.pc = BitVec.ofNat 64 pc ∧ t.part = n ∧ t.owner = o ∧
        t.priv = 0 ∧ t.pop = some ⟨j, quota, 0⟩ ∧ t.fp.starter = p.starter ∧ t.block = .none ∧ t.readyAt = s.cc + 4 * j + 1 ∧
        (seeds ≠ 0 → ∀ m : Fin 8, t.rd ⟨1 + m.val, by omega⟩ = BitVec.ofNat 64 (s.host.read (seeds + 8 * m.val) 8))) ∧
      (∀ tid, tid ∉ slots → s'.thread tid = s.thread tid) ∧ (s'.owner o).sv = true ∧
      ((s.owner o).sv = false → some (s'.owner o).stid = slots.head?))

/-- APPLY queues a request for the placer, whose completion gives the result; SETSTARTER writes the partition's starter. -/
def ApplyAndStarter : Prop :=
  ∀ (s : State) (n e o v d0 r : Nat) (p : Partition), s.part n = some p → p.flock = true → d0 < 2 ^ 32 → e < 2 ^ 12 → o < 2 ^ 8 →
    v < 2 ^ 64 →
    (d0 % 2 ^ 8 = 2 → d0 / 2 ^ 9 % 2 ^ 6 = 0 → s.holdsCommand (n + 1) [d0, e, o, 0, 0, 0, 0, r] →
      answers (exec (.applyCommand n) s) fun s' => s'.host = s.host ∧ s'.threads = s.threads ∧
        ∃ q, s'.part n = some { p with applies := p.applies ++ [q] } ∧ q.tid = none ∧ q.entry = e ∧ q.owner = o ∧ q.sec = p.sec ∧
          q.starter = p.starter ∧ (q.waitDone = true ↔ d0 / 2 ^ 8 % 2 = 1) ∧ ∃ h, q.host = some h ∧ h.slot = (s.fw.fn (n + 1)).slot) ∧
    (d0 % 2 ^ 15 = 3 → s.holdsCommand (n + 1) [d0, v, 0, 0, 0, 0, 0, r] →
      answers (exec (.setstarter n) s) fun s' => s.toldHost s' (n + 1) d0 0 0 ∧ s'.threads = s.threads ∧
        s'.part n = some { p with starter := BitVec.ofNat 64 v })

/-- COPY starts a transfer of a number of bytes that is a multiple of 4 and not 0; any other length is BADARG. A transfer between two
places of host memory reads its next bytes, at most to the end of a line, writes the bytes that it has read in a later turn, and
completes with the last one. A second COPY is accepted while the first is in progress. -/
def CopyCommand : Prop :=
  (∀ (s : State) (n src dst len d0 r : Nat) (p : Partition), s.part n = some p → p.flock = true → d0 % 2 ^ 8 = 4 →
    d0 / 2 ^ 10 % 2 ^ 5 = 0 → d0 < 2 ^ 32 → src < 2 ^ 64 → dst < 2 ^ 64 → len < 2 ^ 32 → (∀ x ∈ s.fw.copies, x.part ≠ n) →
    s.holdsCommand (n + 1) [d0, src, dst, len, 0, 0, 0, r] →
    (len = 0 ∨ len % 4 ≠ 0 → answers (exec (.copy n) s) fun s' => s.toldHost s' (n + 1) d0 2 0 ∧ s'.fw.copies = s.fw.copies) ∧
    (len ≠ 0 → len % 4 = 0 → answers (exec (.copy n) s) fun s' => s'.host = s.host ∧
      ∃ x, s'.fw.copies = s.fw.copies ++ [x] ∧ x.part = n ∧ x.src = BitVec.ofNat 64 src ∧ x.dst = BitVec.ofNat 64 dst ∧ x.len = len ∧
        x.moved = 0 ∧ x.flight = none ∧ (x.srcHost = true ↔ d0 / 2 ^ 8 % 2 = 1) ∧ (x.dstHost = true ↔ d0 / 2 ^ 9 % 2 = 1))) ∧
  (∀ (s : State) (n : Nat) (p : Partition) (x : HostCopy) (c : Cmd), s.part n = some p → s.fw.copies = [x] → x.part = n → p.flock = true →
    let s1 := s.copyStep p x
    s1.part n = some p → s1.hostLost = false → s1.head (n + 1) = some c → c.op = 4 → c.arg 0 % 2 ^ 15 = 4 → c.arg 0 < 2 ^ 32 →
    (∀ k ∈ [4, 5, 6], c.arg k = 0) → c.arg 1 < 2 ^ 64 → c.arg 2 < 2 ^ 64 → c.arg 3 < 2 ^ 32 → c.arg 3 % 4 = 0 → c.arg 3 ≠ 0 →
    answers (exec (.copy n) s) fun s' => ∃ y, s'.fw.copies = s1.fw.copies ++ [y] ∧ y.part = n ∧ y.w = c.w ∧ y.moved = 0) ∧
  ∀ (s : State) (n : Nat) (p : Partition) (x : HostCopy), s.part n = some p → s.fw.copies = [x] → x.part = n →
    (s.fw.fn (n + 1)).opened = [(x.w, none)] → (s.fw.fn (n + 1)).run = false → x.srcHost = true →
    x.dstHost = true → x.moved < x.len →
    let a := (x.src + BitVec.ofNat 64 x.moved).toNat
    let b := (x.dst + BitVec.ofNat 64 x.moved).toNat
    let m := min (x.len - x.moved) (min (64 - a % 64) (64 - b % 64))
    (x.flight = none → answers (exec (.copy n) s) fun s' => s'.host = s.host ∧ ∃ v, s'.fw.copies = [{ x with flight := some v }] ∧
      v.length = m ∧ ∀ i < m, v[i]? = some (s.host.read (a + i) 1)) ∧
    ∀ v, x.flight = some v → v.length = m → (∀ k ∈ v, k < 256) →
      (x.moved + m < x.len → answers (exec (.copy n) s) fun s' => s'.fw.copies = [{ x with moved := x.moved + m, flight := none }] ∧
        (∀ i < m, some (s'.host.read (b + i) 1) = v[i]?) ∧ ∀ y, (y < b ∨ b + m ≤ y) → s'.host.byte y = s.host.byte y) ∧
      (x.len ≤ x.moved + m → answers (exec (.copy n) s) fun s' => s'.fw.copies = [] ∧ s'.host.read (x.w.slot + 56) 8 = 2 ^ 63)

/-- SIGNAL sends one parcel of the firmware column and completes at once: a wake of a thread, an arrival at a core barrier other
than 63, or a store of a doubleword, once the earlier accesses that the column has sent for the partition are performed; another
place is BADARG, and an address that does not translate FAIL with its reason. -/
def SignalCommands : Prop :=
  ∀ (s : State) (n d0 x y r : Nat) (p : Partition), s.part n = some p → p.flock = true → d0 % 2 ^ 15 = 5 → d0 < 2 ^ 32 →
    let sent := fun (acc : Access) (place : Place) (page : Nat × Nat) (s' : State) => s.toldHost s' (n + 1) d0 0 0 ∧
      ∃ q, s'.parcels = s.parcels ++ [q] ∧ q.src = 2 ^ 19 + n ∧ q.place = place ∧ q.acc = acc ∧ q.ctr = 3 ∧
        q.page = page
    let no := fun (st detail : Nat) (s' : State) => s.toldHost s' (n + 1) d0 st detail ∧ s'.parcels = s.parcels
    (x < 2 ^ 18 → s.holdsCommand (n + 1) [d0, 0, x, 0, 0, 0, 0, r] →
      (p.hasCore (coreOf x) = true → answers (exec (.signalWake n) s) (sent (.wake x) (.lm (coreOf x)) (0, 0))) ∧
      (p.hasCore (coreOf x) = false → answers (exec (.signalWake n) s) (no 2 0))) ∧
    (x < 64 → y < 2 ^ 14 → s.holdsCommand (n + 1) [d0, 1, x, y, 0, 0, 0, r] →
      (∀ core, p.coreList[y]? = some core → x ≠ 63 → answers (exec (.signalArrival n) s) (sent (.arrive core x) (.lm core) (0, 0))) ∧
      (x = 63 ∨ p.coreList[y]? = none → answers (exec (.signalArrival n) s) (no 2 0))) ∧
    (s.holdsCommand (n + 1) [d0, 2, x, y, 0, 0, 0, r] → s.firmwareBusy n = true → exec (.signalStore n) s = .next s) ∧
    (x < 2 ^ 64 → y < 2 ^ 64 → s.holdsCommand (n + 1) [d0, 2, x, y, 0, 0, 0, r] → s.firmwareBusy n = false →
      (x % 8 ≠ 0 → answers (exec (.signalStore n) s) (no 2 0)) ∧
      (∀ place l, x % 8 = 0 → s.hostTarget n p (BitVec.ofNat 64 x) .store = .ok (place, l) →
        answers (exec (.signalStore n) s) (sent (.store 8 y) place (s.hostPage n p (BitVec.ofNat 64 x) .store))) ∧
      ∀ reason, x % 8 = 0 → s.hostTarget n p (BitVec.ofNat 64 x) .store = .error (some reason) →
        answers (exec (.signalStore n) s) (no 4 reason))

/-- WAKE is BADOP without its feature, BUSY with all sixteen wakes in use, and else arms the lowest free one with its condition. A wake
whose condition has held completes with the low 16 bits of the value, and is free. -/
def WakeCommands : Prop :=
  ∀ (s : State) (n : Nat) (p : Partition), s.part n = some p →
    (∀ (d0 va v c r : Nat) (cond : WCond) (place : Place) (l : Loc), p.flock = true → d0 % 2 ^ 15 = 6 → d0 < 2 ^ 32 → va < 2 ^ 64 →
      v < 2 ^ 64 → va % 8 = 0 → s.holdsCommand (n + 1) [d0, va, v, c, 0, 0, 0, r] → wcondOf? c = some cond → c < 8 →
      s.hostTarget n p (BitVec.ofNat 64 va) .load = .ok (place, l) →
      (p.facc.extractLsb' 4 1 = 0 → answers (exec (.wakeCommand n) s) fun s' => s.toldHost s' (n + 1) d0 1 0 ∧ s'.parts = s.parts) ∧
      (p.facc.extractLsb' 4 1 = 1 →
        (lowestFree (p.wakes.map Prod.fst) 0 16 = none → answers (exec (.wakeCommand n) s) fun s' =>
          s.toldHost s' (n + 1) d0 5 0 ∧ s'.parts = s.parts) ∧
        ∀ k, lowestFree (p.wakes.map Prod.fst) 0 16 = some k → s.waiters = [] → answers (exec (.wakeCommand n) s) fun s' =>
          s'.host = s.host ∧ (∃ h, s'.part n = some { p with wakes := p.wakes.put k h } ∧ h.slot = (s.fw.fn (n + 1)).slot) ∧
          ∃ w, s'.waiters = [w] ∧ w.who = .host n k ∧ w.loc = l ∧ w.cond = cond ∧ w.operand = BitVec.ofNat 64 v)) ∧
    ∀ (k : Nat) (h : HostWake) (w : Waiter), p.wakes.look k = some h → s.waiters = [w] → w.who = .host n k → w.refused = false →
      (s.fw.fn (n + 1)).opened = [] →
      (∀ v, w.fired = some v → answers (exec (.hostWakeComplete n k) s) fun s' =>
        s'.host.read (h.slot + 56) 8 = 2 ^ 63 + v.toNat % 2 ^ 16 * 2 ^ 32 ∧ s'.waiters = [] ∧
        s'.part n = some { p with wakes := p.wakes.drop k }) ∧
      (w.fired = none → exec (.hostWakeComplete n k) s = .next s)

/-- RESET, before the lock as well, and a function level reset end every thread of the partition and start its kernel in slot 0 of its
service core; RESET answers the number of threads ended, and a function level reset stops the function. Requests of the partition on their
way to units that can be performed are, first. -/
def ResetCommands : Prop :=
  ∀ (s : State) (n d0 r : Nat) (p : Partition), s.part n = some p →
    let ended := fun (x : Nat) => match s.thread x with
      | some t => t.part == n
      | none => false
    (∀ s1, s.carryOps n ended (.again n 0) = some s1 → exec (.reset n) s = .next s1) ∧
    (∀ s1, s.carryOps n ended (.again n 1) = some s1 → exec (.functionLevelReset n) s = .next s1) ∧
    (p.svc < 16384 → s.moving = [] → (∀ q ∈ s.parcels, q.acc.isOp = false) →
    let fresh := fun (s' : State) => (∃ p', s'.part n = some p' ∧ p'.flock = false) ∧
      (∃ t, s'.thread (16 * p.svc) = some t ∧ t.pc = p.kernel ∧ t.priv = 1 ∧ t.part = n ∧ t.block = .none) ∧
      ∀ tid t, tid ≠ 16 * p.svc → s.thread tid = some t → t.part = n → s'.thread tid = none
    (d0 % 2 ^ 15 = 8 → d0 < 2 ^ 32 → s.holdsCommand (n + 1) [d0, 0, 0, 0, 0, 0, 0, r] → answers (exec (.reset n) s) fun s' =>
      fresh s' ∧ s.toldHost s' (n + 1) d0 0 (s.ofPart n).length) ∧
    answers (exec (.functionLevelReset n) s) fun s' => fresh s' ∧ (s'.fw.fn (n + 1)).run = false)

/-- PCREATE makes the partition that its operands describe and starts its kernel; a number in use, an empty mask, clusters that are not
free or shares against the rules are BADARG. PDESTROY resets the partition and removes it; none is BADARG. -/
def PartitionCommands : Prop :=
  (∀ (s : State) (n mask kernel root shares sec d0 r : Nat), s.fw.boot ≠ 3 → d0 % 2 ^ 15 = 0x10 → d0 < 2 ^ 32 → n < 128 → sec < 2 →
    mask < 2 ^ 64 → kernel < 2 ^ 64 → root < 2 ^ 64 → shares < 2 ^ 64 →
    s.holdsCommand 0 [d0, n, mask, sec, kernel, root, shares, r] →
    let clusters := s.maskClusters mask
    let t := s.shareTable shares
    let ok := s.part n = none ∧ clusters ≠ [] ∧ s.clustersFree n clusters = true ∧ s.sharesOk n clusters t = true
    (¬ ok → answers (exec .pcreate s) fun s' => s.toldHost s' 0 d0 2 0 ∧ s'.parts = s.parts ∧ s'.threads = s.threads) ∧
    (ok → answers (exec .pcreate s) fun s' => s.toldHost s' 0 d0 0 0 ∧
      (∃ p, s'.part n = some p ∧ p.clusters = clusters ∧ p.svc = 16 * clusters.headD 0 + 15 ∧ p.kernel = BitVec.ofNat 64 kernel ∧
        p.root = root ∧ p.sec = (sec == 1) ∧ p.shares = sharesOf t ∧ p.flock = false) ∧
      ∃ th, s'.thread (16 * (16 * clusters.headD 0 + 15)) = some th ∧ th.pc = BitVec.ofNat 64 kernel ∧ th.priv = 1 ∧ th.part = n)) ∧
  ∀ (s : State) (n d0 r : Nat), s.fw.boot ≠ 3 → d0 % 2 ^ 15 = 0x12 → d0 < 2 ^ 32 → n < 128 → s.holdsCommand 0 [d0, n, 0, 0, 0, 0, 0, r] →
    s.moving = [] → (∀ q ∈ s.parcels, q.acc.isOp = false) →
    (s.part n = none → answers (exec .pdestroy s) fun s' => s.toldHost s' 0 d0 2 0 ∧ s'.parts = s.parts) ∧
    ∀ p, s.part n = some p → answers (exec .pdestroy s) fun s' => s.toldHost s' 0 d0 0 (s.ofPart n).length ∧ s'.part n = none ∧
      ∀ tid t, s.thread tid = some t → t.part = n → s'.thread tid = none

/-- A PRESIZE whose mask and shares are in order adds its clusters at once and goes on as one resize; a mask without the service core's
cluster first is BADARG. Once no removed core holds work the partition has the new clusters and shares, and the command completes. After
10 ms it completes with BUSY, and what it has taken out of rotation and not moved returns to it. -/
def ResizeCommand : Prop :=
  (∀ (s : State) (n mask d0 r : Nat) (p : Partition), s.fw.boot ≠ 3 → d0 % 2 ^ 15 = 0x11 → d0 < 2 ^ 32 → n < 128 → mask < 2 ^ 64 →
    s.fw.resizes = [] → s.part n = some p → s.holdsCommand 0 [d0, n, mask, 0, 0, 0, 0, r] →
    let clusters := s.maskClusters mask
    let ok := clusters.head? = some (clusterOf p.svc) ∧ s.clustersFree n clusters = true
    (¬ ok → answers (exec .presize s) fun s' => s.toldHost s' 0 d0 2 0 ∧ s'.parts = s.parts) ∧
    (ok → answers (exec .presize s) fun s' => s'.host = s.host ∧ s'.threads = s.threads ∧
      (∃ x, s'.fw.resizes = [x] ∧ x.part = n ∧ x.clusters = clusters ∧ x.shares = p.shares ∧ x.start = s.time ∧ x.images = 0 ∧
        x.low = min (2 ^ 26) ((p.shares.look p.placing).getD 0)) ∧
      ∃ p', s'.part n = some p' ∧ ∀ k < 1024, (k ∈ p'.clusters ↔ k ∈ p.clusters ∨ k ∈ clusters))) ∧
  ∀ (s : State) (p : Partition) (x : Resize), s.fw.resizes = [x] → s.part x.part = some p → x.images = 0 →
    (s.fw.fn 0).opened = [(x.w, none)] → (s.fw.fn 0).run = false →
    let gone := fun (c : Nat) => clusterOf c ∈ p.clusters ∧ clusterOf c ∉ x.clusters
    ((∀ c, gone c → s.onCore c = [] ∧ (s.core c).handlers = []) →
      answers (exec .presize s) fun s' => s'.fw.resizes = [] ∧ s'.host.read (x.w.slot + 56) 8 = 2 ^ 63 ∧
        s'.part x.part = some { p with clusters := p.clusters.filter fun k => x.clusters.contains k, shares := x.shares } ∧
        s'.threads = s.threads) ∧
    ((∃ c, gone c ∧ s.onCore c ≠ []) → x.start + 10 ^ 7 ≤ s.time →
      answers (exec .presize s) fun s' => s'.fw.resizes = [] ∧ s'.host.read (x.w.slot + 56) 8 = 2 ^ 63 + 5 ∧
        ∀ tid t, s.thread tid = some t → gone (coreOf tid) → t.block = .saving → s.savedBy tid = false →
          s'.thread tid = some { t with block := .none, readyAt := s.cc + 1 })

/-- OWNER sends an owner's record, eight doublewords of host memory, to the arbiter as ucfg.own does. One on its way ends, with OK or, for
a refusal, FAIL with its code, once every core has applied the changes up to its own, and not before. -/
def OwnerCommand : Prop :=
  (∀ (s : State) (o pa d0 r : Nat), s.fw.boot ≠ 3 → d0 % 2 ^ 15 = 0x13 → d0 < 2 ^ 32 → o < 256 → pa < 2 ^ 64 →
    s.holdsCommand 0 [d0, o, pa, 0, 0, 0, 0, r] → (∀ x ∈ s.arb.relay, x.1.isHost = false) →
    answers (exec .owner s) fun s' => s'.host = s.host ∧ s'.threads = s.threads ∧ (s'.fw.fn 0).cidx = ((s.fw.fn 0).cidx + 1) % 64512 ∧
      ∃ w : HostWake, w.slot = (s.fw.fn 0).slot ∧ s'.arb = { s.arb with ucfg := s.arb.ucfg ++
        [⟨.host w, .own o ((numsFrom 0 8).map fun k => BitVec.ofNat 64 (s.host.read (pa + 8 * k) 8))⟩] }) ∧
  ∀ (s : State) (w : HostWake) (n code : Nat) (l : List (UcfgWho × Nat × Nat)), s.arb.relay = (.host w, n, code) :: l →
    (s.fw.fn 0).opened = [(w, none)] → (s.fw.fn 0).run = false →
    (s.appliedTo n = false → exec .owner s = .next s) ∧
    (s.appliedTo n = true → answers (exec .owner s) fun s' => s'.arb.relay = l ∧
      s'.host.read (w.slot + 56) 8 = 2 ^ 63 + code % 2 ^ 16 * 2 ^ 32 + (if code = 0 then 0 else 4))

/-- A checkpoint stops the threads of its partitions at once. Once they are drained it writes its slot, which becomes the valid one, the
threads go on unless it halts them, and it completes. -/
def CheckpointCommands : Prop :=
  ∀ (s : State) (fn : Nat) (i : Instr), (∃ n p, i = .checkpoint n ∧ fn = n + 1 ∧ s.part n = some p ∧ p.flock = true) ∨
      (i = .moduleCheckpoint ∧ fn = 0 ∧ s.fw.boot ≠ 3) →
    let scope := if fn = 0 then s.parts.map Prod.fst else [fn - 1]
    let stopped := fun (s' : State) (b : Bool) => ∀ n ∈ scope, ∀ p, s.part n = some p → ∀ c, clusterOf c ∈ p.clusters → (s'.core c).ckpt = b
    (∀ d0 slot r, (d0 % 2 ^ 8 = if fn = 0 then 0x14 else 7) → d0 / 2 ^ 10 % 2 ^ 5 = 0 → d0 < 2 ^ 32 → slot < 2 → s.fw.ckpts = [] →
      s.holdsCommand fn [d0, slot, 0, 0, 0, 0, 0, r] → answers (exec i s) fun s' => s'.host = s.host ∧ stopped s' true ∧
        ∃ x, s'.fw.ckpts = [x] ∧ x.fn = fn ∧ x.slot = slot ∧ x.parts = scope ∧ (x.halt = true ↔ d0 / 2 ^ 8 % 2 = 1)) ∧
    ∀ x, s.fw.ckpts = [x] → x.fn = fn → x.slot < 2 → x.parts = scope → (s.fw.fn fn).opened = [(x.w, none)] →
      (s.fw.fn fn).run = false →
      ((∃ n ∈ scope, s.ckptDrained n = false) → exec i s = .next s) ∧
      ((∀ n ∈ scope, s.ckptDrained n = true) → answers (exec i s) fun s' => s'.fw.ckpts = [] ∧
        s'.host.read (x.w.slot + 56) 8 = 2 ^ 63 ∧ (s'.fw.slots.getD x.slot {}).valid = true ∧
        (s'.fw.slots.getD (1 - x.slot) {}).valid = false ∧ (s'.fw.slots.getD x.slot {}).time = s.time ∧
        (x.halt = true → ∀ n ∈ scope, ∀ p, s.part n = some p → ∃ p', s'.part n = some p' ∧ p'.halted = true) ∧
        (x.halt = false → (∀ n ∈ scope, ∀ p, s.part n = some p → p.halted = false) → stopped s' false))

/-- RESTORE fails with nothing changed where its slot is not valid or its partitions do not match; else every partition is reset and the
LMs have what the slot holds of them. -/
def RestoreCommand : Prop :=
  ∀ (s : State) (d0 slot r : Nat), s.fw.boot ≠ 3 → d0 % 2 ^ 15 = 0x15 → d0 < 2 ^ 32 → slot < 2 →
    s.holdsCommand 0 [d0, slot, 0, 0, 0, 0, 0, r] →
    let x := s.fw.slots.getD slot {}
    (x.valid = false ∨ s.slotMatches x = false → answers (exec .restore s) fun s' => s.toldHost s' 0 d0 4 0 ∧ s'.threads = s.threads ∧
      s'.parts = s.parts ∧ s'.cores = s.cores) ∧
    (x.valid = true → s.slotMatches x = true → (x.lms.map Prod.fst).Nodup → answers (exec .restore s) fun s' => s.toldHost s' 0 d0 0 0 ∧
      (∀ q ∈ x.lms, (s'.core q.1).lm = q.2) ∧ (x.threads = [] → ∀ n p, s.part n = some p → s'.ofPart n = []))

end Sys2Proof.Machine

/-- The commands of a partition's function. The model's choice: the status words and details that no row gives, and what a reset does to
work in flight, and of LAUNCH a lost core and the RESULT before its last thread is ready (log 44, 48, 82, 97). -/
def Obligations.HostCommands : Prop :=
  Sys2Proof.Machine.CommandsNotReady ∧
  Sys2Proof.Machine.LaunchCommand ∧
  Sys2Proof.Machine.ApplyAndStarter ∧
  Sys2Proof.Machine.CopyCommand ∧
  Sys2Proof.Machine.SignalCommands ∧
  Sys2Proof.Machine.WakeCommands ∧
  Sys2Proof.Machine.ResetCommands

/-- The commands of the physical function, and checkpoints. The model's choice: the status words and details that no row gives, what PCREATE
and PRESIZE keep, where PRESIZE puts images, and what a checkpoint slot holds (log 19, 48, 49, 115). -/
def Obligations.ModuleCommands : Prop :=
  Sys2Proof.Machine.PartitionCommands ∧
  Sys2Proof.Machine.ResizeCommand ∧
  Sys2Proof.Machine.OwnerCommand ∧
  Sys2Proof.Machine.CheckpointCommands ∧
  Sys2Proof.Machine.RestoreCommand

namespace Sys2Proof.Machine

/-! ### The network and the signal fabric (R392 to R400) -/

/-- A link that carries one more flit. -/
def Link.sent (x : Link) (type m payload : Nat) : Link :=
  { x with out := x.out ++ [BitVec.ofNat 64 (type * 2 ^ 60 + m * 2 ^ 48 + payload)] }

/-- s' is s but for one link. -/
def State.linkIs (s s' : State) (link : Nat) (x : Link) : Prop :=
  s'.links[link]? = some x ∧ (∀ k, k ≠ link → s'.links[k]? = s.links[k]?) ∧ { s' with links := s.links } = s

/-- A link that is up sends TIME[47:0] every 1,024 ns and TIME[63:16] every 2^20 ns from its training on, under the master's ID; it
comes up with its delay measured and a time-high flit sent, and keeps the latest time-high flit that it gets. -/
def TimeFlitsSent : Prop :=
  ∀ (s : State) (link delay : Nat) (v : Word) (x : Link), s.links[link]? = some x →
    let told := s.time / 2 ^ 16 % 2 ^ 48
    (x.up = true → x.lowAt + 2 ^ 10 ≤ s.ns → answers (exec (.timeFlitSend link) s) fun s' =>
      s.linkIs s' link (({ x with lowAt := s.ns } : Link).sent 3 s.master (s.time % 2 ^ 48))) ∧
    (x.up = false ∨ s.ns < x.lowAt + 2 ^ 10 → exec (.timeFlitSend link) s = .next s) ∧
    (x.up = true → x.highAt + 2 ^ 20 ≤ s.ns → answers (exec (.timeHighFlitSend link) s) fun s' =>
      s.linkIs s' link (({ x with highAt := s.ns } : Link).sent 7 s.master told)) ∧
    (x.up = false ∨ s.ns < x.highAt + 2 ^ 20 → exec (.timeHighFlitSend link) s = .next s) ∧
    (answers (exec (.linkTraining link delay) s) fun s' =>
      s.linkIs s' link (({ x with up := true, delay := delay, lowAt := s.ns, highAt := s.ns } : Link).sent 7 s.master told)) ∧
    (v.toNat / 2 ^ 60 = 7 → answers (exec (.timeHighFlit link v) s) fun s' =>
      s.linkIs s' link { x with high := some (BitVec.ofNat 64 (v.toNat % 2 ^ 48)) }) ∧
    (v.toNat / 2 ^ 60 ≠ 7 → exec (.timeHighFlit link v) s = .next s)

/-- A time flit on the link toward the master, its delay added: a module that has not joined takes it with the latest time-high flit,
once, while no partition runs; one that has joined adds one count or leaves one out, at most once in 64 ns. Any other flit is
discarded. -/
def TimeFollowsMaster : Prop :=
  ∀ (s : State) (link : Nat) (v : Word),
    let x := s.links.getD link {}
    let L := (v.toNat % 2 ^ 48 + x.delay) % 2 ^ 48
    let ahead := (L + 2 ^ 48 - s.time % 2 ^ 48) % 2 ^ 48
    let mine := v.toNat / 2 ^ 60 = 3 ∧ s.modId ≠ s.master ∧ (s.hop s.modId s.master).map Prod.fst = some link
    (¬ mine → exec (.timeFlit link v) s = .next s) ∧
    (mine → s.timeSet = false → s.parts ≠ [] ∨ x.high = none → exec (.timeFlit link v) s = .next s) ∧
    (∀ H, mine → s.timeSet = false → s.parts = [] → x.high = some H → H.toNat < 2 ^ 48 →
      let carry := if L / 2 ^ 16 < H.toNat % 2 ^ 32 then 1 else 0
      answers (exec (.timeFlit link v) s) fun s' => s'.timeSet = true ∧ s'.time = L + (H.toNat / 2 ^ 32 + carry) % 2 ^ 16 * 2 ^ 48 ∧
        s'.links = s.links ∧ s'.threads = s.threads ∧ s'.cc = s.cc ∧ s'.ns = s.ns) ∧
    (mine → s.timeSet = true → s.time < s.timeAdj + 64 ∨ ahead = 0 → exec (.timeFlit link v) s = .next s) ∧
    (mine → s.timeSet = true → s.timeAdj + 64 ≤ s.time → ahead ≠ 0 →
      (ahead < 2 ^ 47 → exec (.timeFlit link v) s = .next { s with time := s.time + 1, timeAdj := s.time }) ∧
      (2 ^ 47 ≤ ahead → exec (.timeFlit link v) s = .next { s with timeOmit := true, timeAdj := s.time }))

/-- The end of a message: STATUS, and then 1 added to the completion doubleword, if there is one. -/
def MessageEnds : Prop :=
  ∀ (s : State) (part core code : Nat) (desc cw : Word) (l : Loc),
    let plain := fun (l : Loc) => (∃ c, l.space = .lm c) ∨ l.space = .phys 0
    s.unitLoc part core .store (desc.toNat + 48) = .ok l → plain l → code < 2 ^ 63 →
    let s' := s.endMessage part core desc cw code
    (cw = 0 → s'.readLoc l 8 = 2 ^ 63 + code) ∧
    ∀ c, cw ≠ 0 → (s.writeLoc l 8 (2 ^ 63 + code)).unitLoc part core .store cw.toNat = .ok c → plain c → c.space ≠ l.space →
      s'.readLoc l 8 = 2 ^ 63 + code ∧ s'.readLoc c 8 = (s.readLoc c 8 + 1) % 2 ^ 64

/-- The unit takes the head item of the queue of an endpoint that may send and reads the descriptor. A field that must be zero and is
not, or a length or offset out of order, ends the message with RANGE; a source that cannot be read with FAULT and the reason. Else the
message is on its way with its bytes, or, with SIGF, two flits leave toward the destination: head and tail. -/
def DescriptorTaken : Prop :=
  ∀ (s : State) (part e : Nat) (p : Partition), s.part part = some p →
    let x := s.endpoint part e
    let may := e < 256 ∧ x.v = true ∧ (x.trig = true → p.accepts 3 = true) ∧ x.txq ≠ 0
    (¬ may → exec (.sendDescriptor part e) s = .next s) ∧
    ∀ q va s1 b l, may → s.queueAt part p.svc x.txq = some q → s.qPop part q = some (va, s1) →
      let core := coreOf ((s.queue part q).senders.headD 0)
      s1.unitLoc part core .store va.toNat = .ok l → s1.unitBytes part core va.toNat 64 = .ok b →
      let w := fun (k : Nat) => leBytes b (8 * k) 8
      let len := w 2 % 2 ^ 32
      let sigf := w 5 % 2 = 1
      let dest := w 0 % 2 ^ 12
      let bad := w 0 / 2 ^ 12 % 2 ^ 4 ≠ 0 ∨ w 0 / 2 ^ 31 ≠ 0 ∨ w 5 / 2 ≠ 0 ∨ w 7 ≠ 0 ∨ (sigf ∧ len ≠ 0) ∨
        (¬ sigf ∧ (len = 0 ∨ len % 4 ≠ 0 ∨ w 3 % 4 ≠ 0))
      let taken := fun (m : Message) => m.sending = true ∧ m.peer = dest ∧ m.part = part ∧ m.dstPart = w 0 / 2 ^ 24 % 2 ^ 7 ∧
        m.dstEp = w 0 / 2 ^ 16 % 2 ^ 8 ∧ m.desc = va ∧ m.cw = BitVec.ofNat 64 (w 4) ∧ m.len = len ∧ m.tag = w 2 / 2 ^ 32 ∧
        m.roff = w 3 ∧ m.sentAt = s.time
      (bad → exec (.sendDescriptor part e) s = .next (s1.endMessage part core va (BitVec.ofNat 64 (w 4)) 2)) ∧
      (¬ bad → ¬ sigf →
        (∀ r, s1.unitBytes part core (w 1) len = .error r → exec (.sendDescriptor part e) s =
          .next (s1.endMessage part core va (BitVec.ofNat 64 (w 4)) (3 + 256 * r))) ∧
        ∀ bytes, s1.unitBytes part core (w 1) len = .ok bytes → s1.time = s.time → answers (exec (.sendDescriptor part e) s) fun s' =>
          ∃ m, s'.msgs = s1.msgs ++ [m] ∧ taken m ∧ m.bytes = bytes) ∧
      ∀ link y, ¬ bad → sigf → s1.time = s.time → (s1.hop s1.modId dest).map Prod.fst = some link → s1.links[link]? = some y →
        answers (exec (.sendDescriptor part e) s) fun s' => (∃ m, s'.msgs = s1.msgs ++ [m] ∧ taken m) ∧
          s'.links[link]? = some ((y.sent 4 dest (w 0 / 2 ^ 16 % 2 ^ 8 + w 0 / 2 ^ 24 % 2 ^ 7 * 2 ^ 8 + s1.modId * 2 ^ 15)).sent
            6 dest (w 2 / 2 ^ 32))

/-- A packet of another module's message that is malformed or belongs to a message that has ended is not placed, nor one placed before.
The first one of a message meets the checks of its endpoint, and a message that fails them places nothing; nor does one whose bytes
would fall in a far-tier or a host page. One that passes is placed
whole at BUF + ROFF + its offset, and the one that places the last byte completes the message, with the handler parcel of its trigger. -/
def PacketsPlaced : Prop :=
  ∀ (s : State) (sender msg part ep roff len tag off : Nat) (data : List Byte), sender ≠ s.modId →
    let go := exec (.packetPlacement sender msg part ep roff len tag off data) s
    let x := s.endpoint part ep
    let found := s.msgs.find? fun y => !y.sending && y.peer == sender && y.id == msg
    let bad := off % 4 ≠ 0 ∨ data.length % 4 ≠ 0 ∨ data = [] ∨ 4096 < data.length ∨ len < off + data.length
    let told := { s with heard := s.heard ++ [(sender, msg)] }
    (bad ∨ (sender, msg) ∈ s.heard → go = .next s) ∧
    (∀ m, found = some m → (∃ n, (off, n) ∈ m.placed) → go = .next s) ∧
    (¬ bad → (sender, msg) ∉ s.heard → found = none →
      (s.endpointOk sender part ep = false → go = .next told) ∧
      (s.endpointOk sender part ep = true → x.blen < roff + len ∨ roff % 4 ≠ 0 → go = .next told) ∧
      (∀ l, s.endpointOk sender part ep = true → roff + len ≤ x.blen → roff % 4 = 0 →
        s.unitLoc part x.core .store (x.buf.toNat + roff + off) = .ok l → l.space = .phys 1 ∨ l.space = .phys 2 →
        answers go fun s' => (∀ l, s'.readLoc l 1 = s.readLoc l 1) ∧ s'.parcels = s.parcels) ∧
      ∀ c o, s.endpointOk sender part ep = true → roff + len ≤ x.blen → roff % 4 = 0 →
        (∀ i < data.length / 4, s.unitLoc part x.core .store (x.buf.toNat + roff + off + 4 * i) = .ok ⟨.lm c, o + 4 * i⟩) →
        answers go fun s' =>
          (∀ i < data.length, some ((s'.mem (.lm c)).byte (o + i)) = data[i]?) ∧
          (∀ a, (a < o ∨ o + data.length ≤ a) → (s'.mem (.lm c)).byte a = (s.mem (.lm c)).byte a) ∧
          (off + data.length < len ∨ off ≠ 0 → s'.parcels = s.parcels ∧ ∃ m, s'.msgs = s.msgs ++ [m] ∧ m.placed = [(off, data.length)] ∧
            m.peer = sender ∧ m.id = msg ∧ m.part = part ∧ m.ep = ep) ∧
          (off = 0 → data.length = len → (sender, msg) ∈ s'.heard ∧ ∀ p, s.part part = some p →
            (x.trig = false → s'.parcels = s.parcels) ∧
            (x.trig = true → p.hasCore x.core = true → ∃ q h, s'.parcels = s.parcels ++ [q] ∧ q.place = .lm x.core ∧
              q.acc = .handler x.core h ∧ h.handler = x.hpc ∧ h.owner = x.owner ∧ h.part = part ∧ h.starter = p.starter ∧
              h.args = [BitVec.ofNat 64 roff, BitVec.ofNat 64 len, BitVec.ofNat 64 tag, BitVec.ofNat 64 sender] ∧
              h.sender = BitVec.ofNat 64 ep)))

/-- A report ends a message that this module sends, from this module itself once it has been made and its handler parcel, if any, is queued;
no acknowledgement within 1 ms ends it
with LINK; a packet that is sent again changes nothing of itself. -/
def MessageReports : Prop :=
  ∀ (s : State) (id code off : Nat),
    let ended := fun (m : Message) (code : Nat) => Host.Outcome.next
      (({ s with msgs := s.msgs.filter fun x => x != m } : State).endMessage m.part m.core m.desc m.cw code)
    exec (.packetLossResend id off) s = .next s ∧
    (s.sentMsg id = none → exec (.messageStatus id code) s = .next s ∧ exec (.linkTimeout id) s = .next s) ∧
    ∀ m, s.sentMsg id = some m →
      (code ≤ 2 → m.peer ≠ s.modId → exec (.messageStatus id code) s = ended m code) ∧
      (code ≤ 2 → m.peer = s.modId → m.code = some code → m.trig = none → exec (.messageStatus id code) s = ended m code) ∧
      (2 < code ∨ (m.peer = s.modId ∧ (m.code ≠ some code ∨ m.trig ≠ none)) → exec (.messageStatus id code) s = .next s) ∧
      (m.sentAt + 1000000 ≤ s.time → m.code = none ∨ m.trig ≠ none → exec (.linkTimeout id) s = ended m 4) ∧
      (s.time < m.sentAt + 1000000 → exec (.linkTimeout id) s = .next s)

/-- A trigger's head and tail that do not pair are discarded; a pair for another module goes on toward it, the tail behind the head; one
for this module whose endpoint passes the checks sends the handler parcel with TAG, and one that fails them sends none. None is sent to
a core outside the partition either, and no report is made then. -/
def TriggersTaken : Prop :=
  ∀ (s : State) (head tail : Word),
    let dest := head.toNat / 2 ^ 48 % 2 ^ 12
    let pair := head.toNat / 2 ^ 60 = 4 ∧ tail.toNat / 2 ^ 60 = 6 ∧ tail.toNat / 2 ^ 48 % 2 ^ 12 = dest
    let part := head.toNat / 2 ^ 8 % 2 ^ 7
    let e := head.toNat % 2 ^ 8
    let sender := head.toNat / 2 ^ 15 % 2 ^ 12
    let x := s.endpoint part e
    (¬ pair → exec (.triggerFlits head tail) s = .next s) ∧
    (∀ link y, pair → dest ≠ s.modId → (s.hop s.modId dest).map Prod.fst = some link → s.links[link]? = some y →
      answers (exec (.triggerFlits head tail) s) fun s' => s.linkIs s' link { y with out := y.out ++ [head, tail] }) ∧
    (pair → dest = s.modId → s.endpointOk sender part e = false →
      answers (exec (.triggerFlits head tail) s) fun s' => s'.parcels = s.parcels ∧ s'.threads = s.threads) ∧
    (∀ p, pair → dest = s.modId → s.endpointOk sender part e = true → s.part part = some p → p.hasCore x.core = false →
      answers (exec (.triggerFlits head tail) s) fun s' => s'.parcels = s.parcels ∧ ∀ m ∈ s'.msgs, m.code = none ∨ m ∈ s.msgs) ∧
    ∀ p, pair → dest = s.modId → s.endpointOk sender part e = true → s.part part = some p → x.trig = true → p.hasCore x.core = true →
      answers (exec (.triggerFlits head tail) s) fun s' => s'.threads = s.threads ∧
        ∃ q h, s'.parcels = s.parcels ++ [q] ∧ q.place = .lm x.core ∧ q.acc = .handler x.core h ∧ h.handler = x.hpc ∧
          h.owner = x.owner ∧ h.args = [0, 0, BitVec.ofNat 64 (tail.toNat % 2 ^ 32), BitVec.ofNat 64 sender]

/-- A module that is no member of a pod barrier forwards an arrival unchanged toward the root. A member takes one of a child of its own,
once; with its local count complete and every child's arrival there it forwards one arrival, or, as the root, releases its waiters
with 0. A release ends the waits of a member, with 2 if it says FAIL. -/
def PodFlits : Prop :=
  ∀ (s : State) (link : Nat) (v : Word),
    let id := v.toNat % 64
    let child := v.toNat / 2 ^ 48 % 2 ^ 12
    let b := s.pod id
    let b' := { b with arrived := if b.arrived.contains child then b.arrived else b.arrived ++ [child] }
    let member := (s.podMembers b).contains s.modId = true
    let complete := b.local_ = true ∧ ∀ m ∈ s.podKids b s.modId, m = child ∨ m ∈ b.arrived
    let go := exec (.barrierArrivalFlit link v) s
    let kid := v.toNat / 2 ^ 60 = 1 ∧ member ∧ child ∈ s.podKids b s.modId
    let released := fun (s' : State) (w : Word) => s'.replies = s.replies ++ b.waiting.map fun x => { tid := x.1, writes := [(x.2.val, w)] }
    (v.toNat / 2 ^ 60 ≠ 1 ∨ (member ∧ child ∉ s.podKids b s.modId) → go = .next s) ∧
    (∀ l y, v.toNat / 2 ^ 60 = 1 → ¬ member → s.podUpLink b s.modId = some l → s.links[l]? = some y →
      answers go fun s' => s.linkIs s' l { y with out := y.out ++ [v] }) ∧
    (kid → ¬ complete → go = .next (s.setPod id b')) ∧
    (∀ l y, kid → complete → b.sent = false → s.podUpLink b s.modId = some l → s.links[l]? = some y → answers go fun s' =>
      s'.pod id = { b' with sent := true } ∧ s'.links[l]? = some (y.sent 1 s.modId id)) ∧
    (kid → complete → s.podUpLink b s.modId = none → answers go fun s' => released s' 0 ∧
      s'.pod id = { b with local_ := false, sent := false, arrived := [], waiting := [] }) ∧
    (v.toNat / 2 ^ 60 ≠ 2 → exec (.barrierReleaseFlit link v) s = .next s) ∧
    (v.toNat / 2 ^ 60 = 2 → member → answers (exec (.barrierReleaseFlit link v) s) fun s' =>
      released s' (if v.toNat / 2 ^ 8 % 2 = 1 then 2 else 0) ∧ (s'.pod id).waiting = [])

/-- A link that is found down is marked, and one that another module reports by a flit of its type is not; either way the waiters of
the pod barrier whose tree holds the link end with 2, and no other barrier changes. -/
def FailedLinks : Prop :=
  ∀ (s : State) (link id : Nat) (v : Word) (b : PodBar), s.pods = [(id, b)] →
    let ended := fun (s' : State) => s'.replies = (s.replies ++ b.waiting.map fun x => { tid := x.1, writes := [(x.2.val, 2)] }) ∧
      s'.pod id = { b with local_ := false, sent := false, arrived := [], waiting := [], count := 0 }
    let same := fun (s' : State) => s'.replies = s.replies ∧ s'.pods = s.pods
    let member := (s.podMembers b).contains s.modId = true
    let from_ := v.toNat / 2 ^ 48 % 2 ^ 12
    (v.toNat / 2 ^ 60 ≠ 5 → exec (.linkDown link v) s = .next s) ∧
    (v.toNat / 2 ^ 60 = 5 → answers (exec (.linkDown link v) s) fun s' =>
      (s.podHolds b from_ (v.toNat % 8) = true → member → ended s') ∧ (s.podHolds b from_ (v.toNat % 8) = false → same s')) ∧
    answers (exec (.signalFabricLinkFailure link) s) fun s' => (∀ y, s'.links[link]? = some y → y.up = false) ∧
      (s.podHolds b s.modId link = true → member → ended s') ∧ (s.podHolds b s.modId link = false → same s')

end Sys2Proof.Machine

/-- Time flits are sent, and TIME follows the master. The model's reading: the path of the flits, how fast TIME is corrected, and that the
periods of a link run in ns from its training (log 52, 79, 84). -/
def Obligations.TimeAcrossAPod : Prop :=
  Sys2Proof.Machine.TimeFlitsSent ∧
  Sys2Proof.Machine.TimeFollowsMaster

/-- Messages: the descriptor, the packets, the reports and the end. The model's reading: endpoints, the own module, and the time of a report
(log 51). -/
def Obligations.NetworkMessages : Prop :=
  Sys2Proof.Machine.DescriptorTaken ∧
  Sys2Proof.Machine.PacketsPlaced ∧
  Sys2Proof.Machine.MessageReports ∧
  Sys2Proof.Machine.MessageEnds

/-- Triggers, pod barrier flits and failed links. The model's choice: the privilege of a trigger's handler, a trigger that queues no parcel,
the members and the numbering of the links (log 52, 79, 84). -/
def Obligations.SignalFlits : Prop :=
  Sys2Proof.Machine.TriggersTaken ∧
  Sys2Proof.Machine.PodFlits ∧
  Sys2Proof.Machine.FailedLinks
end

