-- ==== Sys2Proof/Laws/State.lean ====
section
/-! SUPPORT. For each update of the state and each field: what the field holds afterwards. -/

namespace Sys2Proof.Machine

@[simp] theorem State.setCore_cc (s : State) (c : Nat) (x : Core) : (s.setCore c x).cc = s.cc := rfl
@[simp] theorem State.setCore_time (s : State) (c : Nat) (x : Core) : (s.setCore c x).time = s.time := rfl
@[simp] theorem State.setCore_tphase (s : State) (c : Nat) (x : Core) : (s.setCore c x).tphase = s.tphase := rfl
@[simp] theorem State.setCore_agenda (s : State) (c : Nat) (x : Core) : (s.setCore c x).agenda = s.agenda := rfl
@[simp] theorem State.setCore_turns (s : State) (c : Nat) (x : Core) : (s.setCore c x).turns = s.turns := rfl
@[simp] theorem State.setCore_urgent (s : State) (c : Nat) (x : Core) : (s.setCore c x).urgent = s.urgent := rfl
@[simp] theorem State.setCore_arrs (s : State) (c : Nat) (x : Core) : (s.setCore c x).arrs = s.arrs := rfl
@[simp] theorem State.setCore_starts (s : State) (c : Nat) (x : Core) : (s.setCore c x).starts = s.starts := rfl
@[simp] theorem State.setCore_sets (s : State) (c : Nat) (x : Core) : (s.setCore c x).sets = s.sets := rfl
@[simp] theorem State.setCore_drops (s : State) (c : Nat) (x : Core) : (s.setCore c x).drops = s.drops := rfl
@[simp] theorem State.setCore_cur (s : State) (c : Nat) (x : Core) : (s.setCore c x).cur = s.cur := rfl
@[simp] theorem State.setCore_ir (s : State) (c : Nat) (x : Core) : (s.setCore c x).ir = s.ir := rfl
@[simp] theorem State.setCore_signals (s : State) (c : Nat) (x : Core) : (s.setCore c x).signals = s.signals := rfl
@[simp] theorem State.setCore_fresh (s : State) (c : Nat) (x : Core) : (s.setCore c x).fresh = s.fresh := rfl
@[simp] theorem State.setCore_uid (s : State) (c : Nat) (x : Core) : (s.setCore c x).uid = s.uid := rfl
@[simp] theorem State.setCore_threads (s : State) (c : Nat) (x : Core) : (s.setCore c x).threads = s.threads := rfl
@[simp] theorem State.setCore_moving (s : State) (c : Nat) (x : Core) : (s.setCore c x).moving = s.moving := rfl
@[simp] theorem State.setCore_cores (s : State) (c : Nat) (x : Core) : (s.setCore c x).cores = s.cores.put c x := rfl
@[simp] theorem State.setCore_clusters (s : State) (c : Nat) (x : Core) : (s.setCore c x).clusters = s.clusters := rfl
@[simp] theorem State.setCore_hearths (s : State) (c : Nat) (x : Core) : (s.setCore c x).hearths = s.hearths := rfl
@[simp] theorem State.setCore_parts (s : State) (c : Nat) (x : Core) : (s.setCore c x).parts = s.parts := rfl
@[simp] theorem State.setCore_hbm (s : State) (c : Nat) (x : Core) : (s.setCore c x).hbm = s.hbm := rfl
@[simp] theorem State.setCore_far (s : State) (c : Nat) (x : Core) : (s.setCore c x).far = s.far := rfl
@[simp] theorem State.setCore_host (s : State) (c : Nat) (x : Core) : (s.setCore c x).host = s.host := rfl
@[simp] theorem State.setCore_shares (s : State) (c : Nat) (x : Core) : (s.setCore c x).shares = s.shares := rfl
@[simp] theorem State.setCore_parcels (s : State) (c : Nat) (x : Core) : (s.setCore c x).parcels = s.parcels := rfl
@[simp] theorem State.setCore_errors (s : State) (c : Nat) (x : Core) : (s.setCore c x).errors = s.errors := rfl
@[simp] theorem State.setCore_replies (s : State) (c : Nat) (x : Core) : (s.setCore c x).replies = s.replies := rfl
@[simp] theorem State.setCore_waiters (s : State) (c : Nat) (x : Core) : (s.setCore c x).waiters = s.waiters := rfl
@[simp] theorem State.setCore_wakes (s : State) (c : Nat) (x : Core) : (s.setCore c x).wakes = s.wakes := rfl
@[simp] theorem State.setCore_arb (s : State) (c : Nat) (x : Core) : (s.setCore c x).arb = s.arb := rfl
@[simp] theorem State.setCore_fw (s : State) (c : Nat) (x : Core) : (s.setCore c x).fw = s.fw := rfl
@[simp] theorem State.setCore_pods (s : State) (c : Nat) (x : Core) : (s.setCore c x).pods = s.pods := rfl
@[simp] theorem State.setCore_links (s : State) (c : Nat) (x : Core) : (s.setCore c x).links = s.links := rfl
@[simp] theorem State.setCore_timeSet (s : State) (c : Nat) (x : Core) : (s.setCore c x).timeSet = s.timeSet := rfl
@[simp] theorem State.setCore_timeOmit (s : State) (c : Nat) (x : Core) : (s.setCore c x).timeOmit = s.timeOmit := rfl
@[simp] theorem State.setCore_timeAdj (s : State) (c : Nat) (x : Core) : (s.setCore c x).timeAdj = s.timeAdj := rfl
@[simp] theorem State.setCore_timeHeld (s : State) (c : Nat) (x : Core) : (s.setCore c x).timeHeld = s.timeHeld := rfl
@[simp] theorem State.setCore_ns (s : State) (c : Nat) (x : Core) : (s.setCore c x).ns = s.ns := rfl
@[simp] theorem State.setCore_master (s : State) (c : Nat) (x : Core) : (s.setCore c x).master = s.master := rfl
@[simp] theorem State.setCore_modId (s : State) (c : Nat) (x : Core) : (s.setCore c x).modId = s.modId := rfl
@[simp] theorem State.setCore_dims (s : State) (c : Nat) (x : Core) : (s.setCore c x).dims = s.dims := rfl
@[simp] theorem State.setCore_msgs (s : State) (c : Nat) (x : Core) : (s.setCore c x).msgs = s.msgs := rfl
@[simp] theorem State.setCore_heard (s : State) (c : Nat) (x : Core) : (s.setCore c x).heard = s.heard := rfl
@[simp] theorem State.setCore_spEn (s : State) (c : Nat) (x : Core) : (s.setCore c x).spEn = s.spEn := rfl
@[simp] theorem State.setCore_spP (s : State) (c : Nat) (x : Core) : (s.setCore c x).spP = s.spP := rfl
@[simp] theorem State.setCore_spLast (s : State) (c : Nat) (x : Core) : (s.setCore c x).spLast = s.spLast := rfl
@[simp] theorem State.setCore_down (s : State) (c : Nat) (x : Core) : (s.setCore c x).down = s.down := rfl

@[simp] theorem State.setCluster_cc (s : State) (c : Nat) (x : Cluster) : (s.setCluster c x).cc = s.cc := rfl
@[simp] theorem State.setCluster_time (s : State) (c : Nat) (x : Cluster) : (s.setCluster c x).time = s.time := rfl
@[simp] theorem State.setCluster_tphase (s : State) (c : Nat) (x : Cluster) : (s.setCluster c x).tphase = s.tphase := rfl
@[simp] theorem State.setCluster_agenda (s : State) (c : Nat) (x : Cluster) : (s.setCluster c x).agenda = s.agenda := rfl
@[simp] theorem State.setCluster_turns (s : State) (c : Nat) (x : Cluster) : (s.setCluster c x).turns = s.turns := rfl
@[simp] theorem State.setCluster_urgent (s : State) (c : Nat) (x : Cluster) : (s.setCluster c x).urgent = s.urgent := rfl
@[simp] theorem State.setCluster_arrs (s : State) (c : Nat) (x : Cluster) : (s.setCluster c x).arrs = s.arrs := rfl
@[simp] theorem State.setCluster_starts (s : State) (c : Nat) (x : Cluster) : (s.setCluster c x).starts = s.starts := rfl
@[simp] theorem State.setCluster_sets (s : State) (c : Nat) (x : Cluster) : (s.setCluster c x).sets = s.sets := rfl
@[simp] theorem State.setCluster_drops (s : State) (c : Nat) (x : Cluster) : (s.setCluster c x).drops = s.drops := rfl
@[simp] theorem State.setCluster_cur (s : State) (c : Nat) (x : Cluster) : (s.setCluster c x).cur = s.cur := rfl
@[simp] theorem State.setCluster_ir (s : State) (c : Nat) (x : Cluster) : (s.setCluster c x).ir = s.ir := rfl
@[simp] theorem State.setCluster_signals (s : State) (c : Nat) (x : Cluster) : (s.setCluster c x).signals = s.signals := rfl
@[simp] theorem State.setCluster_fresh (s : State) (c : Nat) (x : Cluster) : (s.setCluster c x).fresh = s.fresh := rfl
@[simp] theorem State.setCluster_uid (s : State) (c : Nat) (x : Cluster) : (s.setCluster c x).uid = s.uid := rfl
@[simp] theorem State.setCluster_threads (s : State) (c : Nat) (x : Cluster) : (s.setCluster c x).threads = s.threads := rfl
@[simp] theorem State.setCluster_moving (s : State) (c : Nat) (x : Cluster) : (s.setCluster c x).moving = s.moving := rfl
@[simp] theorem State.setCluster_cores (s : State) (c : Nat) (x : Cluster) : (s.setCluster c x).cores = s.cores := rfl
@[simp] theorem State.setCluster_clusters (s : State) (c : Nat) (x : Cluster) : (s.setCluster c x).clusters = s.clusters.put c x := rfl
@[simp] theorem State.setCluster_hearths (s : State) (c : Nat) (x : Cluster) : (s.setCluster c x).hearths = s.hearths := rfl
@[simp] theorem State.setCluster_parts (s : State) (c : Nat) (x : Cluster) : (s.setCluster c x).parts = s.parts := rfl
@[simp] theorem State.setCluster_hbm (s : State) (c : Nat) (x : Cluster) : (s.setCluster c x).hbm = s.hbm := rfl
@[simp] theorem State.setCluster_far (s : State) (c : Nat) (x : Cluster) : (s.setCluster c x).far = s.far := rfl
@[simp] theorem State.setCluster_host (s : State) (c : Nat) (x : Cluster) : (s.setCluster c x).host = s.host := rfl
@[simp] theorem State.setCluster_shares (s : State) (c : Nat) (x : Cluster) : (s.setCluster c x).shares = s.shares := rfl
@[simp] theorem State.setCluster_parcels (s : State) (c : Nat) (x : Cluster) : (s.setCluster c x).parcels = s.parcels := rfl
@[simp] theorem State.setCluster_errors (s : State) (c : Nat) (x : Cluster) : (s.setCluster c x).errors = s.errors := rfl
@[simp] theorem State.setCluster_replies (s : State) (c : Nat) (x : Cluster) : (s.setCluster c x).replies = s.replies := rfl
@[simp] theorem State.setCluster_waiters (s : State) (c : Nat) (x : Cluster) : (s.setCluster c x).waiters = s.waiters := rfl
@[simp] theorem State.setCluster_wakes (s : State) (c : Nat) (x : Cluster) : (s.setCluster c x).wakes = s.wakes := rfl
@[simp] theorem State.setCluster_arb (s : State) (c : Nat) (x : Cluster) : (s.setCluster c x).arb = s.arb := rfl
@[simp] theorem State.setCluster_fw (s : State) (c : Nat) (x : Cluster) : (s.setCluster c x).fw = s.fw := rfl
@[simp] theorem State.setCluster_pods (s : State) (c : Nat) (x : Cluster) : (s.setCluster c x).pods = s.pods := rfl
@[simp] theorem State.setCluster_links (s : State) (c : Nat) (x : Cluster) : (s.setCluster c x).links = s.links := rfl
@[simp] theorem State.setCluster_timeSet (s : State) (c : Nat) (x : Cluster) : (s.setCluster c x).timeSet = s.timeSet := rfl
@[simp] theorem State.setCluster_timeOmit (s : State) (c : Nat) (x : Cluster) : (s.setCluster c x).timeOmit = s.timeOmit := rfl
@[simp] theorem State.setCluster_timeAdj (s : State) (c : Nat) (x : Cluster) : (s.setCluster c x).timeAdj = s.timeAdj := rfl
@[simp] theorem State.setCluster_timeHeld (s : State) (c : Nat) (x : Cluster) : (s.setCluster c x).timeHeld = s.timeHeld := rfl
@[simp] theorem State.setCluster_ns (s : State) (c : Nat) (x : Cluster) : (s.setCluster c x).ns = s.ns := rfl
@[simp] theorem State.setCluster_master (s : State) (c : Nat) (x : Cluster) : (s.setCluster c x).master = s.master := rfl
@[simp] theorem State.setCluster_modId (s : State) (c : Nat) (x : Cluster) : (s.setCluster c x).modId = s.modId := rfl
@[simp] theorem State.setCluster_dims (s : State) (c : Nat) (x : Cluster) : (s.setCluster c x).dims = s.dims := rfl
@[simp] theorem State.setCluster_msgs (s : State) (c : Nat) (x : Cluster) : (s.setCluster c x).msgs = s.msgs := rfl
@[simp] theorem State.setCluster_heard (s : State) (c : Nat) (x : Cluster) : (s.setCluster c x).heard = s.heard := rfl
@[simp] theorem State.setCluster_spEn (s : State) (c : Nat) (x : Cluster) : (s.setCluster c x).spEn = s.spEn := rfl
@[simp] theorem State.setCluster_spP (s : State) (c : Nat) (x : Cluster) : (s.setCluster c x).spP = s.spP := rfl
@[simp] theorem State.setCluster_spLast (s : State) (c : Nat) (x : Cluster) : (s.setCluster c x).spLast = s.spLast := rfl
@[simp] theorem State.setCluster_down (s : State) (c : Nat) (x : Cluster) : (s.setCluster c x).down = s.down := rfl

@[simp] theorem State.setHearth_cc (s : State) (h : Nat) (x : Hearth) : (s.setHearth h x).cc = s.cc := rfl
@[simp] theorem State.setHearth_time (s : State) (h : Nat) (x : Hearth) : (s.setHearth h x).time = s.time := rfl
@[simp] theorem State.setHearth_tphase (s : State) (h : Nat) (x : Hearth) : (s.setHearth h x).tphase = s.tphase := rfl
@[simp] theorem State.setHearth_agenda (s : State) (h : Nat) (x : Hearth) : (s.setHearth h x).agenda = s.agenda := rfl
@[simp] theorem State.setHearth_turns (s : State) (h : Nat) (x : Hearth) : (s.setHearth h x).turns = s.turns := rfl
@[simp] theorem State.setHearth_urgent (s : State) (h : Nat) (x : Hearth) : (s.setHearth h x).urgent = s.urgent := rfl
@[simp] theorem State.setHearth_arrs (s : State) (h : Nat) (x : Hearth) : (s.setHearth h x).arrs = s.arrs := rfl
@[simp] theorem State.setHearth_starts (s : State) (h : Nat) (x : Hearth) : (s.setHearth h x).starts = s.starts := rfl
@[simp] theorem State.setHearth_sets (s : State) (h : Nat) (x : Hearth) : (s.setHearth h x).sets = s.sets := rfl
@[simp] theorem State.setHearth_drops (s : State) (h : Nat) (x : Hearth) : (s.setHearth h x).drops = s.drops := rfl
@[simp] theorem State.setHearth_cur (s : State) (h : Nat) (x : Hearth) : (s.setHearth h x).cur = s.cur := rfl
@[simp] theorem State.setHearth_ir (s : State) (h : Nat) (x : Hearth) : (s.setHearth h x).ir = s.ir := rfl
@[simp] theorem State.setHearth_signals (s : State) (h : Nat) (x : Hearth) : (s.setHearth h x).signals = s.signals := rfl
@[simp] theorem State.setHearth_fresh (s : State) (h : Nat) (x : Hearth) : (s.setHearth h x).fresh = s.fresh := rfl
@[simp] theorem State.setHearth_uid (s : State) (h : Nat) (x : Hearth) : (s.setHearth h x).uid = s.uid := rfl
@[simp] theorem State.setHearth_threads (s : State) (h : Nat) (x : Hearth) : (s.setHearth h x).threads = s.threads := rfl
@[simp] theorem State.setHearth_moving (s : State) (h : Nat) (x : Hearth) : (s.setHearth h x).moving = s.moving := rfl
@[simp] theorem State.setHearth_cores (s : State) (h : Nat) (x : Hearth) : (s.setHearth h x).cores = s.cores := rfl
@[simp] theorem State.setHearth_clusters (s : State) (h : Nat) (x : Hearth) : (s.setHearth h x).clusters = s.clusters := rfl
@[simp] theorem State.setHearth_hearths (s : State) (h : Nat) (x : Hearth) : (s.setHearth h x).hearths = s.hearths.put h x := rfl
@[simp] theorem State.setHearth_parts (s : State) (h : Nat) (x : Hearth) : (s.setHearth h x).parts = s.parts := rfl
@[simp] theorem State.setHearth_hbm (s : State) (h : Nat) (x : Hearth) : (s.setHearth h x).hbm = s.hbm := rfl
@[simp] theorem State.setHearth_far (s : State) (h : Nat) (x : Hearth) : (s.setHearth h x).far = s.far := rfl
@[simp] theorem State.setHearth_host (s : State) (h : Nat) (x : Hearth) : (s.setHearth h x).host = s.host := rfl
@[simp] theorem State.setHearth_shares (s : State) (h : Nat) (x : Hearth) : (s.setHearth h x).shares = s.shares := rfl
@[simp] theorem State.setHearth_parcels (s : State) (h : Nat) (x : Hearth) : (s.setHearth h x).parcels = s.parcels := rfl
@[simp] theorem State.setHearth_errors (s : State) (h : Nat) (x : Hearth) : (s.setHearth h x).errors = s.errors := rfl
@[simp] theorem State.setHearth_replies (s : State) (h : Nat) (x : Hearth) : (s.setHearth h x).replies = s.replies := rfl
@[simp] theorem State.setHearth_waiters (s : State) (h : Nat) (x : Hearth) : (s.setHearth h x).waiters = s.waiters := rfl
@[simp] theorem State.setHearth_wakes (s : State) (h : Nat) (x : Hearth) : (s.setHearth h x).wakes = s.wakes := rfl
@[simp] theorem State.setHearth_arb (s : State) (h : Nat) (x : Hearth) : (s.setHearth h x).arb = s.arb := rfl
@[simp] theorem State.setHearth_fw (s : State) (h : Nat) (x : Hearth) : (s.setHearth h x).fw = s.fw := rfl
@[simp] theorem State.setHearth_pods (s : State) (h : Nat) (x : Hearth) : (s.setHearth h x).pods = s.pods := rfl
@[simp] theorem State.setHearth_links (s : State) (h : Nat) (x : Hearth) : (s.setHearth h x).links = s.links := rfl
@[simp] theorem State.setHearth_timeSet (s : State) (h : Nat) (x : Hearth) : (s.setHearth h x).timeSet = s.timeSet := rfl
@[simp] theorem State.setHearth_timeOmit (s : State) (h : Nat) (x : Hearth) : (s.setHearth h x).timeOmit = s.timeOmit := rfl
@[simp] theorem State.setHearth_timeAdj (s : State) (h : Nat) (x : Hearth) : (s.setHearth h x).timeAdj = s.timeAdj := rfl
@[simp] theorem State.setHearth_timeHeld (s : State) (h : Nat) (x : Hearth) : (s.setHearth h x).timeHeld = s.timeHeld := rfl
@[simp] theorem State.setHearth_ns (s : State) (h : Nat) (x : Hearth) : (s.setHearth h x).ns = s.ns := rfl
@[simp] theorem State.setHearth_master (s : State) (h : Nat) (x : Hearth) : (s.setHearth h x).master = s.master := rfl
@[simp] theorem State.setHearth_modId (s : State) (h : Nat) (x : Hearth) : (s.setHearth h x).modId = s.modId := rfl
@[simp] theorem State.setHearth_dims (s : State) (h : Nat) (x : Hearth) : (s.setHearth h x).dims = s.dims := rfl
@[simp] theorem State.setHearth_msgs (s : State) (h : Nat) (x : Hearth) : (s.setHearth h x).msgs = s.msgs := rfl
@[simp] theorem State.setHearth_heard (s : State) (h : Nat) (x : Hearth) : (s.setHearth h x).heard = s.heard := rfl
@[simp] theorem State.setHearth_spEn (s : State) (h : Nat) (x : Hearth) : (s.setHearth h x).spEn = s.spEn := rfl
@[simp] theorem State.setHearth_spP (s : State) (h : Nat) (x : Hearth) : (s.setHearth h x).spP = s.spP := rfl
@[simp] theorem State.setHearth_spLast (s : State) (h : Nat) (x : Hearth) : (s.setHearth h x).spLast = s.spLast := rfl
@[simp] theorem State.setHearth_down (s : State) (h : Nat) (x : Hearth) : (s.setHearth h x).down = s.down := rfl

@[simp] theorem State.setPart_cc (s : State) (p : Nat) (x : Partition) : (s.setPart p x).cc = s.cc := rfl
@[simp] theorem State.setPart_time (s : State) (p : Nat) (x : Partition) : (s.setPart p x).time = s.time := rfl
@[simp] theorem State.setPart_tphase (s : State) (p : Nat) (x : Partition) : (s.setPart p x).tphase = s.tphase := rfl
@[simp] theorem State.setPart_agenda (s : State) (p : Nat) (x : Partition) : (s.setPart p x).agenda = s.agenda := rfl
@[simp] theorem State.setPart_turns (s : State) (p : Nat) (x : Partition) : (s.setPart p x).turns = s.turns := rfl
@[simp] theorem State.setPart_urgent (s : State) (p : Nat) (x : Partition) : (s.setPart p x).urgent = s.urgent := rfl
@[simp] theorem State.setPart_arrs (s : State) (p : Nat) (x : Partition) : (s.setPart p x).arrs = s.arrs := rfl
@[simp] theorem State.setPart_starts (s : State) (p : Nat) (x : Partition) : (s.setPart p x).starts = s.starts := rfl
@[simp] theorem State.setPart_sets (s : State) (p : Nat) (x : Partition) : (s.setPart p x).sets = s.sets := rfl
@[simp] theorem State.setPart_drops (s : State) (p : Nat) (x : Partition) : (s.setPart p x).drops = s.drops := rfl
@[simp] theorem State.setPart_cur (s : State) (p : Nat) (x : Partition) : (s.setPart p x).cur = s.cur := rfl
@[simp] theorem State.setPart_ir (s : State) (p : Nat) (x : Partition) : (s.setPart p x).ir = s.ir := rfl
@[simp] theorem State.setPart_signals (s : State) (p : Nat) (x : Partition) : (s.setPart p x).signals = s.signals := rfl
@[simp] theorem State.setPart_fresh (s : State) (p : Nat) (x : Partition) : (s.setPart p x).fresh = s.fresh := rfl
@[simp] theorem State.setPart_uid (s : State) (p : Nat) (x : Partition) : (s.setPart p x).uid = s.uid := rfl
@[simp] theorem State.setPart_threads (s : State) (p : Nat) (x : Partition) : (s.setPart p x).threads = s.threads := rfl
@[simp] theorem State.setPart_moving (s : State) (p : Nat) (x : Partition) : (s.setPart p x).moving = s.moving := rfl
@[simp] theorem State.setPart_cores (s : State) (p : Nat) (x : Partition) : (s.setPart p x).cores = s.cores := rfl
@[simp] theorem State.setPart_clusters (s : State) (p : Nat) (x : Partition) : (s.setPart p x).clusters = s.clusters := rfl
@[simp] theorem State.setPart_hearths (s : State) (p : Nat) (x : Partition) : (s.setPart p x).hearths = s.hearths := rfl
@[simp] theorem State.setPart_parts (s : State) (p : Nat) (x : Partition) : (s.setPart p x).parts = s.parts.put p x := rfl
@[simp] theorem State.setPart_hbm (s : State) (p : Nat) (x : Partition) : (s.setPart p x).hbm = s.hbm := rfl
@[simp] theorem State.setPart_far (s : State) (p : Nat) (x : Partition) : (s.setPart p x).far = s.far := rfl
@[simp] theorem State.setPart_host (s : State) (p : Nat) (x : Partition) : (s.setPart p x).host = s.host := rfl
@[simp] theorem State.setPart_shares (s : State) (p : Nat) (x : Partition) : (s.setPart p x).shares = s.shares := rfl
@[simp] theorem State.setPart_parcels (s : State) (p : Nat) (x : Partition) : (s.setPart p x).parcels = s.parcels := rfl
@[simp] theorem State.setPart_errors (s : State) (p : Nat) (x : Partition) : (s.setPart p x).errors = s.errors := rfl
@[simp] theorem State.setPart_replies (s : State) (p : Nat) (x : Partition) : (s.setPart p x).replies = s.replies := rfl
@[simp] theorem State.setPart_waiters (s : State) (p : Nat) (x : Partition) : (s.setPart p x).waiters = s.waiters := rfl
@[simp] theorem State.setPart_wakes (s : State) (p : Nat) (x : Partition) : (s.setPart p x).wakes = s.wakes := rfl
@[simp] theorem State.setPart_arb (s : State) (p : Nat) (x : Partition) : (s.setPart p x).arb = s.arb := rfl
@[simp] theorem State.setPart_fw (s : State) (p : Nat) (x : Partition) : (s.setPart p x).fw = s.fw := rfl
@[simp] theorem State.setPart_pods (s : State) (p : Nat) (x : Partition) : (s.setPart p x).pods = s.pods := rfl
@[simp] theorem State.setPart_links (s : State) (p : Nat) (x : Partition) : (s.setPart p x).links = s.links := rfl
@[simp] theorem State.setPart_timeSet (s : State) (p : Nat) (x : Partition) : (s.setPart p x).timeSet = s.timeSet := rfl
@[simp] theorem State.setPart_timeOmit (s : State) (p : Nat) (x : Partition) : (s.setPart p x).timeOmit = s.timeOmit := rfl
@[simp] theorem State.setPart_timeAdj (s : State) (p : Nat) (x : Partition) : (s.setPart p x).timeAdj = s.timeAdj := rfl
@[simp] theorem State.setPart_timeHeld (s : State) (p : Nat) (x : Partition) : (s.setPart p x).timeHeld = s.timeHeld := rfl
@[simp] theorem State.setPart_ns (s : State) (p : Nat) (x : Partition) : (s.setPart p x).ns = s.ns := rfl
@[simp] theorem State.setPart_master (s : State) (p : Nat) (x : Partition) : (s.setPart p x).master = s.master := rfl
@[simp] theorem State.setPart_modId (s : State) (p : Nat) (x : Partition) : (s.setPart p x).modId = s.modId := rfl
@[simp] theorem State.setPart_dims (s : State) (p : Nat) (x : Partition) : (s.setPart p x).dims = s.dims := rfl
@[simp] theorem State.setPart_msgs (s : State) (p : Nat) (x : Partition) : (s.setPart p x).msgs = s.msgs := rfl
@[simp] theorem State.setPart_heard (s : State) (p : Nat) (x : Partition) : (s.setPart p x).heard = s.heard := rfl
@[simp] theorem State.setPart_spEn (s : State) (p : Nat) (x : Partition) : (s.setPart p x).spEn = s.spEn := rfl
@[simp] theorem State.setPart_spP (s : State) (p : Nat) (x : Partition) : (s.setPart p x).spP = s.spP := rfl
@[simp] theorem State.setPart_spLast (s : State) (p : Nat) (x : Partition) : (s.setPart p x).spLast = s.spLast := rfl
@[simp] theorem State.setPart_down (s : State) (p : Nat) (x : Partition) : (s.setPart p x).down = s.down := rfl

@[simp] theorem State.setThread_cc (s : State) (tid : Nat) (t : Thread) : (s.setThread tid t).cc = s.cc := rfl
@[simp] theorem State.setThread_time (s : State) (tid : Nat) (t : Thread) : (s.setThread tid t).time = s.time := rfl
@[simp] theorem State.setThread_tphase (s : State) (tid : Nat) (t : Thread) : (s.setThread tid t).tphase = s.tphase := rfl
@[simp] theorem State.setThread_agenda (s : State) (tid : Nat) (t : Thread) : (s.setThread tid t).agenda = s.agenda := rfl
@[simp] theorem State.setThread_turns (s : State) (tid : Nat) (t : Thread) : (s.setThread tid t).turns = s.turns := rfl
@[simp] theorem State.setThread_urgent (s : State) (tid : Nat) (t : Thread) : (s.setThread tid t).urgent = s.urgent := rfl
@[simp] theorem State.setThread_arrs (s : State) (tid : Nat) (t : Thread) : (s.setThread tid t).arrs = s.arrs := rfl
@[simp] theorem State.setThread_starts (s : State) (tid : Nat) (t : Thread) : (s.setThread tid t).starts = s.starts := rfl
@[simp] theorem State.setThread_sets (s : State) (tid : Nat) (t : Thread) : (s.setThread tid t).sets = s.sets := rfl
@[simp] theorem State.setThread_drops (s : State) (tid : Nat) (t : Thread) : (s.setThread tid t).drops = s.drops := rfl
@[simp] theorem State.setThread_cur (s : State) (tid : Nat) (t : Thread) : (s.setThread tid t).cur = s.cur := rfl
@[simp] theorem State.setThread_ir (s : State) (tid : Nat) (t : Thread) : (s.setThread tid t).ir = s.ir := rfl
@[simp] theorem State.setThread_signals (s : State) (tid : Nat) (t : Thread) : (s.setThread tid t).signals = s.signals := rfl
@[simp] theorem State.setThread_fresh (s : State) (tid : Nat) (t : Thread) : (s.setThread tid t).fresh = s.fresh := rfl
@[simp] theorem State.setThread_uid (s : State) (tid : Nat) (t : Thread) : (s.setThread tid t).uid = s.uid := rfl
@[simp] theorem State.setThread_threads (s : State) (tid : Nat) (t : Thread) : (s.setThread tid t).threads = s.threads.put tid t := rfl
@[simp] theorem State.setThread_moving (s : State) (tid : Nat) (t : Thread) : (s.setThread tid t).moving = s.moving := rfl
@[simp] theorem State.setThread_cores (s : State) (tid : Nat) (t : Thread) : (s.setThread tid t).cores = s.cores := rfl
@[simp] theorem State.setThread_clusters (s : State) (tid : Nat) (t : Thread) : (s.setThread tid t).clusters = s.clusters := rfl
@[simp] theorem State.setThread_hearths (s : State) (tid : Nat) (t : Thread) : (s.setThread tid t).hearths = s.hearths := rfl
@[simp] theorem State.setThread_parts (s : State) (tid : Nat) (t : Thread) : (s.setThread tid t).parts = s.parts := rfl
@[simp] theorem State.setThread_hbm (s : State) (tid : Nat) (t : Thread) : (s.setThread tid t).hbm = s.hbm := rfl
@[simp] theorem State.setThread_far (s : State) (tid : Nat) (t : Thread) : (s.setThread tid t).far = s.far := rfl
@[simp] theorem State.setThread_host (s : State) (tid : Nat) (t : Thread) : (s.setThread tid t).host = s.host := rfl
@[simp] theorem State.setThread_shares (s : State) (tid : Nat) (t : Thread) : (s.setThread tid t).shares = s.shares := rfl
@[simp] theorem State.setThread_parcels (s : State) (tid : Nat) (t : Thread) : (s.setThread tid t).parcels = s.parcels := rfl
@[simp] theorem State.setThread_errors (s : State) (tid : Nat) (t : Thread) : (s.setThread tid t).errors = s.errors := rfl
@[simp] theorem State.setThread_replies (s : State) (tid : Nat) (t : Thread) : (s.setThread tid t).replies = s.replies := rfl
@[simp] theorem State.setThread_waiters (s : State) (tid : Nat) (t : Thread) : (s.setThread tid t).waiters = s.waiters := rfl
@[simp] theorem State.setThread_wakes (s : State) (tid : Nat) (t : Thread) : (s.setThread tid t).wakes = s.wakes := rfl
@[simp] theorem State.setThread_arb (s : State) (tid : Nat) (t : Thread) : (s.setThread tid t).arb = s.arb := rfl
@[simp] theorem State.setThread_fw (s : State) (tid : Nat) (t : Thread) : (s.setThread tid t).fw = s.fw := rfl
@[simp] theorem State.setThread_pods (s : State) (tid : Nat) (t : Thread) : (s.setThread tid t).pods = s.pods := rfl
@[simp] theorem State.setThread_links (s : State) (tid : Nat) (t : Thread) : (s.setThread tid t).links = s.links := rfl
@[simp] theorem State.setThread_timeSet (s : State) (tid : Nat) (t : Thread) : (s.setThread tid t).timeSet = s.timeSet := rfl
@[simp] theorem State.setThread_timeOmit (s : State) (tid : Nat) (t : Thread) : (s.setThread tid t).timeOmit = s.timeOmit := rfl
@[simp] theorem State.setThread_timeAdj (s : State) (tid : Nat) (t : Thread) : (s.setThread tid t).timeAdj = s.timeAdj := rfl
@[simp] theorem State.setThread_timeHeld (s : State) (tid : Nat) (t : Thread) : (s.setThread tid t).timeHeld = s.timeHeld := rfl
@[simp] theorem State.setThread_ns (s : State) (tid : Nat) (t : Thread) : (s.setThread tid t).ns = s.ns := rfl
@[simp] theorem State.setThread_master (s : State) (tid : Nat) (t : Thread) : (s.setThread tid t).master = s.master := rfl
@[simp] theorem State.setThread_modId (s : State) (tid : Nat) (t : Thread) : (s.setThread tid t).modId = s.modId := rfl
@[simp] theorem State.setThread_dims (s : State) (tid : Nat) (t : Thread) : (s.setThread tid t).dims = s.dims := rfl
@[simp] theorem State.setThread_msgs (s : State) (tid : Nat) (t : Thread) : (s.setThread tid t).msgs = s.msgs := rfl
@[simp] theorem State.setThread_heard (s : State) (tid : Nat) (t : Thread) : (s.setThread tid t).heard = s.heard := rfl
@[simp] theorem State.setThread_spEn (s : State) (tid : Nat) (t : Thread) : (s.setThread tid t).spEn = s.spEn := rfl
@[simp] theorem State.setThread_spP (s : State) (tid : Nat) (t : Thread) : (s.setThread tid t).spP = s.spP := rfl
@[simp] theorem State.setThread_spLast (s : State) (tid : Nat) (t : Thread) : (s.setThread tid t).spLast = s.spLast := rfl
@[simp] theorem State.setThread_down (s : State) (tid : Nat) (t : Thread) : (s.setThread tid t).down = s.down := rfl

@[simp] theorem State.modThread_cc (s : State) (tid : Nat) (f : Thread → Thread) : (s.modThread tid f).cc = s.cc := by unfold State.modThread; split <;> rfl
@[simp] theorem State.modThread_time (s : State) (tid : Nat) (f : Thread → Thread) : (s.modThread tid f).time = s.time := by unfold State.modThread; split <;> rfl
@[simp] theorem State.modThread_tphase (s : State) (tid : Nat) (f : Thread → Thread) : (s.modThread tid f).tphase = s.tphase := by unfold State.modThread; split <;> rfl
@[simp] theorem State.modThread_agenda (s : State) (tid : Nat) (f : Thread → Thread) : (s.modThread tid f).agenda = s.agenda := by unfold State.modThread; split <;> rfl
@[simp] theorem State.modThread_turns (s : State) (tid : Nat) (f : Thread → Thread) : (s.modThread tid f).turns = s.turns := by unfold State.modThread; split <;> rfl
@[simp] theorem State.modThread_urgent (s : State) (tid : Nat) (f : Thread → Thread) : (s.modThread tid f).urgent = s.urgent := by unfold State.modThread; split <;> rfl
@[simp] theorem State.modThread_arrs (s : State) (tid : Nat) (f : Thread → Thread) : (s.modThread tid f).arrs = s.arrs := by unfold State.modThread; split <;> rfl
@[simp] theorem State.modThread_starts (s : State) (tid : Nat) (f : Thread → Thread) : (s.modThread tid f).starts = s.starts := by unfold State.modThread; split <;> rfl
@[simp] theorem State.modThread_sets (s : State) (tid : Nat) (f : Thread → Thread) : (s.modThread tid f).sets = s.sets := by unfold State.modThread; split <;> rfl
@[simp] theorem State.modThread_drops (s : State) (tid : Nat) (f : Thread → Thread) : (s.modThread tid f).drops = s.drops := by unfold State.modThread; split <;> rfl
@[simp] theorem State.modThread_cur (s : State) (tid : Nat) (f : Thread → Thread) : (s.modThread tid f).cur = s.cur := by unfold State.modThread; split <;> rfl
@[simp] theorem State.modThread_ir (s : State) (tid : Nat) (f : Thread → Thread) : (s.modThread tid f).ir = s.ir := by unfold State.modThread; split <;> rfl
@[simp] theorem State.modThread_signals (s : State) (tid : Nat) (f : Thread → Thread) : (s.modThread tid f).signals = s.signals := by unfold State.modThread; split <;> rfl
@[simp] theorem State.modThread_fresh (s : State) (tid : Nat) (f : Thread → Thread) : (s.modThread tid f).fresh = s.fresh := by unfold State.modThread; split <;> rfl
@[simp] theorem State.modThread_uid (s : State) (tid : Nat) (f : Thread → Thread) : (s.modThread tid f).uid = s.uid := by unfold State.modThread; split <;> rfl
@[simp] theorem State.modThread_moving (s : State) (tid : Nat) (f : Thread → Thread) : (s.modThread tid f).moving = s.moving := by unfold State.modThread; split <;> rfl
@[simp] theorem State.modThread_cores (s : State) (tid : Nat) (f : Thread → Thread) : (s.modThread tid f).cores = s.cores := by unfold State.modThread; split <;> rfl
@[simp] theorem State.modThread_clusters (s : State) (tid : Nat) (f : Thread → Thread) : (s.modThread tid f).clusters = s.clusters := by unfold State.modThread; split <;> rfl
@[simp] theorem State.modThread_hearths (s : State) (tid : Nat) (f : Thread → Thread) : (s.modThread tid f).hearths = s.hearths := by unfold State.modThread; split <;> rfl
@[simp] theorem State.modThread_parts (s : State) (tid : Nat) (f : Thread → Thread) : (s.modThread tid f).parts = s.parts := by unfold State.modThread; split <;> rfl
@[simp] theorem State.modThread_hbm (s : State) (tid : Nat) (f : Thread → Thread) : (s.modThread tid f).hbm = s.hbm := by unfold State.modThread; split <;> rfl
@[simp] theorem State.modThread_far (s : State) (tid : Nat) (f : Thread → Thread) : (s.modThread tid f).far = s.far := by unfold State.modThread; split <;> rfl
@[simp] theorem State.modThread_host (s : State) (tid : Nat) (f : Thread → Thread) : (s.modThread tid f).host = s.host := by unfold State.modThread; split <;> rfl
@[simp] theorem State.modThread_shares (s : State) (tid : Nat) (f : Thread → Thread) : (s.modThread tid f).shares = s.shares := by unfold State.modThread; split <;> rfl
@[simp] theorem State.modThread_parcels (s : State) (tid : Nat) (f : Thread → Thread) : (s.modThread tid f).parcels = s.parcels := by unfold State.modThread; split <;> rfl
@[simp] theorem State.modThread_errors (s : State) (tid : Nat) (f : Thread → Thread) : (s.modThread tid f).errors = s.errors := by unfold State.modThread; split <;> rfl
@[simp] theorem State.modThread_replies (s : State) (tid : Nat) (f : Thread → Thread) : (s.modThread tid f).replies = s.replies := by unfold State.modThread; split <;> rfl
@[simp] theorem State.modThread_waiters (s : State) (tid : Nat) (f : Thread → Thread) : (s.modThread tid f).waiters = s.waiters := by unfold State.modThread; split <;> rfl
@[simp] theorem State.modThread_wakes (s : State) (tid : Nat) (f : Thread → Thread) : (s.modThread tid f).wakes = s.wakes := by unfold State.modThread; split <;> rfl
@[simp] theorem State.modThread_arb (s : State) (tid : Nat) (f : Thread → Thread) : (s.modThread tid f).arb = s.arb := by unfold State.modThread; split <;> rfl
@[simp] theorem State.modThread_fw (s : State) (tid : Nat) (f : Thread → Thread) : (s.modThread tid f).fw = s.fw := by unfold State.modThread; split <;> rfl
@[simp] theorem State.modThread_pods (s : State) (tid : Nat) (f : Thread → Thread) : (s.modThread tid f).pods = s.pods := by unfold State.modThread; split <;> rfl
@[simp] theorem State.modThread_links (s : State) (tid : Nat) (f : Thread → Thread) : (s.modThread tid f).links = s.links := by unfold State.modThread; split <;> rfl
@[simp] theorem State.modThread_timeSet (s : State) (tid : Nat) (f : Thread → Thread) : (s.modThread tid f).timeSet = s.timeSet := by unfold State.modThread; split <;> rfl
@[simp] theorem State.modThread_timeOmit (s : State) (tid : Nat) (f : Thread → Thread) : (s.modThread tid f).timeOmit = s.timeOmit := by unfold State.modThread; split <;> rfl
@[simp] theorem State.modThread_timeAdj (s : State) (tid : Nat) (f : Thread → Thread) : (s.modThread tid f).timeAdj = s.timeAdj := by unfold State.modThread; split <;> rfl
@[simp] theorem State.modThread_timeHeld (s : State) (tid : Nat) (f : Thread → Thread) : (s.modThread tid f).timeHeld = s.timeHeld := by unfold State.modThread; split <;> rfl
@[simp] theorem State.modThread_ns (s : State) (tid : Nat) (f : Thread → Thread) : (s.modThread tid f).ns = s.ns := by unfold State.modThread; split <;> rfl
@[simp] theorem State.modThread_master (s : State) (tid : Nat) (f : Thread → Thread) : (s.modThread tid f).master = s.master := by unfold State.modThread; split <;> rfl
@[simp] theorem State.modThread_modId (s : State) (tid : Nat) (f : Thread → Thread) : (s.modThread tid f).modId = s.modId := by unfold State.modThread; split <;> rfl
@[simp] theorem State.modThread_dims (s : State) (tid : Nat) (f : Thread → Thread) : (s.modThread tid f).dims = s.dims := by unfold State.modThread; split <;> rfl
@[simp] theorem State.modThread_msgs (s : State) (tid : Nat) (f : Thread → Thread) : (s.modThread tid f).msgs = s.msgs := by unfold State.modThread; split <;> rfl
@[simp] theorem State.modThread_heard (s : State) (tid : Nat) (f : Thread → Thread) : (s.modThread tid f).heard = s.heard := by unfold State.modThread; split <;> rfl
@[simp] theorem State.modThread_spEn (s : State) (tid : Nat) (f : Thread → Thread) : (s.modThread tid f).spEn = s.spEn := by unfold State.modThread; split <;> rfl
@[simp] theorem State.modThread_spP (s : State) (tid : Nat) (f : Thread → Thread) : (s.modThread tid f).spP = s.spP := by unfold State.modThread; split <;> rfl
@[simp] theorem State.modThread_spLast (s : State) (tid : Nat) (f : Thread → Thread) : (s.modThread tid f).spLast = s.spLast := by unfold State.modThread; split <;> rfl
@[simp] theorem State.modThread_down (s : State) (tid : Nat) (f : Thread → Thread) : (s.modThread tid f).down = s.down := by unfold State.modThread; split <;> rfl

@[simp] theorem State.modCore_cc (s : State) (c : Nat) (f : Core → Core) : (s.modCore c f).cc = s.cc := rfl
@[simp] theorem State.modCore_time (s : State) (c : Nat) (f : Core → Core) : (s.modCore c f).time = s.time := rfl
@[simp] theorem State.modCore_tphase (s : State) (c : Nat) (f : Core → Core) : (s.modCore c f).tphase = s.tphase := rfl
@[simp] theorem State.modCore_agenda (s : State) (c : Nat) (f : Core → Core) : (s.modCore c f).agenda = s.agenda := rfl
@[simp] theorem State.modCore_turns (s : State) (c : Nat) (f : Core → Core) : (s.modCore c f).turns = s.turns := rfl
@[simp] theorem State.modCore_urgent (s : State) (c : Nat) (f : Core → Core) : (s.modCore c f).urgent = s.urgent := rfl
@[simp] theorem State.modCore_arrs (s : State) (c : Nat) (f : Core → Core) : (s.modCore c f).arrs = s.arrs := rfl
@[simp] theorem State.modCore_starts (s : State) (c : Nat) (f : Core → Core) : (s.modCore c f).starts = s.starts := rfl
@[simp] theorem State.modCore_sets (s : State) (c : Nat) (f : Core → Core) : (s.modCore c f).sets = s.sets := rfl
@[simp] theorem State.modCore_drops (s : State) (c : Nat) (f : Core → Core) : (s.modCore c f).drops = s.drops := rfl
@[simp] theorem State.modCore_cur (s : State) (c : Nat) (f : Core → Core) : (s.modCore c f).cur = s.cur := rfl
@[simp] theorem State.modCore_ir (s : State) (c : Nat) (f : Core → Core) : (s.modCore c f).ir = s.ir := rfl
@[simp] theorem State.modCore_signals (s : State) (c : Nat) (f : Core → Core) : (s.modCore c f).signals = s.signals := rfl
@[simp] theorem State.modCore_fresh (s : State) (c : Nat) (f : Core → Core) : (s.modCore c f).fresh = s.fresh := rfl
@[simp] theorem State.modCore_uid (s : State) (c : Nat) (f : Core → Core) : (s.modCore c f).uid = s.uid := rfl
@[simp] theorem State.modCore_threads (s : State) (c : Nat) (f : Core → Core) : (s.modCore c f).threads = s.threads := rfl
@[simp] theorem State.modCore_moving (s : State) (c : Nat) (f : Core → Core) : (s.modCore c f).moving = s.moving := rfl
@[simp] theorem State.modCore_cores (s : State) (c : Nat) (f : Core → Core) : (s.modCore c f).cores = s.cores.put c (f (s.core c)) := rfl
@[simp] theorem State.modCore_clusters (s : State) (c : Nat) (f : Core → Core) : (s.modCore c f).clusters = s.clusters := rfl
@[simp] theorem State.modCore_hearths (s : State) (c : Nat) (f : Core → Core) : (s.modCore c f).hearths = s.hearths := rfl
@[simp] theorem State.modCore_parts (s : State) (c : Nat) (f : Core → Core) : (s.modCore c f).parts = s.parts := rfl
@[simp] theorem State.modCore_hbm (s : State) (c : Nat) (f : Core → Core) : (s.modCore c f).hbm = s.hbm := rfl
@[simp] theorem State.modCore_far (s : State) (c : Nat) (f : Core → Core) : (s.modCore c f).far = s.far := rfl
@[simp] theorem State.modCore_host (s : State) (c : Nat) (f : Core → Core) : (s.modCore c f).host = s.host := rfl
@[simp] theorem State.modCore_shares (s : State) (c : Nat) (f : Core → Core) : (s.modCore c f).shares = s.shares := rfl
@[simp] theorem State.modCore_parcels (s : State) (c : Nat) (f : Core → Core) : (s.modCore c f).parcels = s.parcels := rfl
@[simp] theorem State.modCore_errors (s : State) (c : Nat) (f : Core → Core) : (s.modCore c f).errors = s.errors := rfl
@[simp] theorem State.modCore_replies (s : State) (c : Nat) (f : Core → Core) : (s.modCore c f).replies = s.replies := rfl
@[simp] theorem State.modCore_waiters (s : State) (c : Nat) (f : Core → Core) : (s.modCore c f).waiters = s.waiters := rfl
@[simp] theorem State.modCore_wakes (s : State) (c : Nat) (f : Core → Core) : (s.modCore c f).wakes = s.wakes := rfl
@[simp] theorem State.modCore_arb (s : State) (c : Nat) (f : Core → Core) : (s.modCore c f).arb = s.arb := rfl
@[simp] theorem State.modCore_fw (s : State) (c : Nat) (f : Core → Core) : (s.modCore c f).fw = s.fw := rfl
@[simp] theorem State.modCore_pods (s : State) (c : Nat) (f : Core → Core) : (s.modCore c f).pods = s.pods := rfl
@[simp] theorem State.modCore_links (s : State) (c : Nat) (f : Core → Core) : (s.modCore c f).links = s.links := rfl
@[simp] theorem State.modCore_timeSet (s : State) (c : Nat) (f : Core → Core) : (s.modCore c f).timeSet = s.timeSet := rfl
@[simp] theorem State.modCore_timeOmit (s : State) (c : Nat) (f : Core → Core) : (s.modCore c f).timeOmit = s.timeOmit := rfl
@[simp] theorem State.modCore_timeAdj (s : State) (c : Nat) (f : Core → Core) : (s.modCore c f).timeAdj = s.timeAdj := rfl
@[simp] theorem State.modCore_timeHeld (s : State) (c : Nat) (f : Core → Core) : (s.modCore c f).timeHeld = s.timeHeld := rfl
@[simp] theorem State.modCore_ns (s : State) (c : Nat) (f : Core → Core) : (s.modCore c f).ns = s.ns := rfl
@[simp] theorem State.modCore_master (s : State) (c : Nat) (f : Core → Core) : (s.modCore c f).master = s.master := rfl
@[simp] theorem State.modCore_modId (s : State) (c : Nat) (f : Core → Core) : (s.modCore c f).modId = s.modId := rfl
@[simp] theorem State.modCore_dims (s : State) (c : Nat) (f : Core → Core) : (s.modCore c f).dims = s.dims := rfl
@[simp] theorem State.modCore_msgs (s : State) (c : Nat) (f : Core → Core) : (s.modCore c f).msgs = s.msgs := rfl
@[simp] theorem State.modCore_heard (s : State) (c : Nat) (f : Core → Core) : (s.modCore c f).heard = s.heard := rfl
@[simp] theorem State.modCore_spEn (s : State) (c : Nat) (f : Core → Core) : (s.modCore c f).spEn = s.spEn := rfl
@[simp] theorem State.modCore_spP (s : State) (c : Nat) (f : Core → Core) : (s.modCore c f).spP = s.spP := rfl
@[simp] theorem State.modCore_spLast (s : State) (c : Nat) (f : Core → Core) : (s.modCore c f).spLast = s.spLast := rfl
@[simp] theorem State.modCore_down (s : State) (c : Nat) (f : Core → Core) : (s.modCore c f).down = s.down := rfl

@[simp] theorem State.modPart_cc (s : State) (p : Nat) (f : Partition → Partition) : (s.modPart p f).cc = s.cc := by unfold State.modPart; split <;> rfl
@[simp] theorem State.modPart_time (s : State) (p : Nat) (f : Partition → Partition) : (s.modPart p f).time = s.time := by unfold State.modPart; split <;> rfl
@[simp] theorem State.modPart_tphase (s : State) (p : Nat) (f : Partition → Partition) : (s.modPart p f).tphase = s.tphase := by unfold State.modPart; split <;> rfl
@[simp] theorem State.modPart_agenda (s : State) (p : Nat) (f : Partition → Partition) : (s.modPart p f).agenda = s.agenda := by unfold State.modPart; split <;> rfl
@[simp] theorem State.modPart_turns (s : State) (p : Nat) (f : Partition → Partition) : (s.modPart p f).turns = s.turns := by unfold State.modPart; split <;> rfl
@[simp] theorem State.modPart_urgent (s : State) (p : Nat) (f : Partition → Partition) : (s.modPart p f).urgent = s.urgent := by unfold State.modPart; split <;> rfl
@[simp] theorem State.modPart_arrs (s : State) (p : Nat) (f : Partition → Partition) : (s.modPart p f).arrs = s.arrs := by unfold State.modPart; split <;> rfl
@[simp] theorem State.modPart_starts (s : State) (p : Nat) (f : Partition → Partition) : (s.modPart p f).starts = s.starts := by unfold State.modPart; split <;> rfl
@[simp] theorem State.modPart_sets (s : State) (p : Nat) (f : Partition → Partition) : (s.modPart p f).sets = s.sets := by unfold State.modPart; split <;> rfl
@[simp] theorem State.modPart_drops (s : State) (p : Nat) (f : Partition → Partition) : (s.modPart p f).drops = s.drops := by unfold State.modPart; split <;> rfl
@[simp] theorem State.modPart_cur (s : State) (p : Nat) (f : Partition → Partition) : (s.modPart p f).cur = s.cur := by unfold State.modPart; split <;> rfl
@[simp] theorem State.modPart_ir (s : State) (p : Nat) (f : Partition → Partition) : (s.modPart p f).ir = s.ir := by unfold State.modPart; split <;> rfl
@[simp] theorem State.modPart_signals (s : State) (p : Nat) (f : Partition → Partition) : (s.modPart p f).signals = s.signals := by unfold State.modPart; split <;> rfl
@[simp] theorem State.modPart_fresh (s : State) (p : Nat) (f : Partition → Partition) : (s.modPart p f).fresh = s.fresh := by unfold State.modPart; split <;> rfl
@[simp] theorem State.modPart_uid (s : State) (p : Nat) (f : Partition → Partition) : (s.modPart p f).uid = s.uid := by unfold State.modPart; split <;> rfl
@[simp] theorem State.modPart_threads (s : State) (p : Nat) (f : Partition → Partition) : (s.modPart p f).threads = s.threads := by unfold State.modPart; split <;> rfl
@[simp] theorem State.modPart_moving (s : State) (p : Nat) (f : Partition → Partition) : (s.modPart p f).moving = s.moving := by unfold State.modPart; split <;> rfl
@[simp] theorem State.modPart_cores (s : State) (p : Nat) (f : Partition → Partition) : (s.modPart p f).cores = s.cores := by unfold State.modPart; split <;> rfl
@[simp] theorem State.modPart_clusters (s : State) (p : Nat) (f : Partition → Partition) : (s.modPart p f).clusters = s.clusters := by unfold State.modPart; split <;> rfl
@[simp] theorem State.modPart_hearths (s : State) (p : Nat) (f : Partition → Partition) : (s.modPart p f).hearths = s.hearths := by unfold State.modPart; split <;> rfl
@[simp] theorem State.modPart_hbm (s : State) (p : Nat) (f : Partition → Partition) : (s.modPart p f).hbm = s.hbm := by unfold State.modPart; split <;> rfl
@[simp] theorem State.modPart_far (s : State) (p : Nat) (f : Partition → Partition) : (s.modPart p f).far = s.far := by unfold State.modPart; split <;> rfl
@[simp] theorem State.modPart_host (s : State) (p : Nat) (f : Partition → Partition) : (s.modPart p f).host = s.host := by unfold State.modPart; split <;> rfl
@[simp] theorem State.modPart_shares (s : State) (p : Nat) (f : Partition → Partition) : (s.modPart p f).shares = s.shares := by unfold State.modPart; split <;> rfl
@[simp] theorem State.modPart_parcels (s : State) (p : Nat) (f : Partition → Partition) : (s.modPart p f).parcels = s.parcels := by unfold State.modPart; split <;> rfl
@[simp] theorem State.modPart_errors (s : State) (p : Nat) (f : Partition → Partition) : (s.modPart p f).errors = s.errors := by unfold State.modPart; split <;> rfl
@[simp] theorem State.modPart_replies (s : State) (p : Nat) (f : Partition → Partition) : (s.modPart p f).replies = s.replies := by unfold State.modPart; split <;> rfl
@[simp] theorem State.modPart_waiters (s : State) (p : Nat) (f : Partition → Partition) : (s.modPart p f).waiters = s.waiters := by unfold State.modPart; split <;> rfl
@[simp] theorem State.modPart_wakes (s : State) (p : Nat) (f : Partition → Partition) : (s.modPart p f).wakes = s.wakes := by unfold State.modPart; split <;> rfl
@[simp] theorem State.modPart_arb (s : State) (p : Nat) (f : Partition → Partition) : (s.modPart p f).arb = s.arb := by unfold State.modPart; split <;> rfl
@[simp] theorem State.modPart_fw (s : State) (p : Nat) (f : Partition → Partition) : (s.modPart p f).fw = s.fw := by unfold State.modPart; split <;> rfl
@[simp] theorem State.modPart_pods (s : State) (p : Nat) (f : Partition → Partition) : (s.modPart p f).pods = s.pods := by unfold State.modPart; split <;> rfl
@[simp] theorem State.modPart_links (s : State) (p : Nat) (f : Partition → Partition) : (s.modPart p f).links = s.links := by unfold State.modPart; split <;> rfl
@[simp] theorem State.modPart_timeSet (s : State) (p : Nat) (f : Partition → Partition) : (s.modPart p f).timeSet = s.timeSet := by unfold State.modPart; split <;> rfl
@[simp] theorem State.modPart_timeOmit (s : State) (p : Nat) (f : Partition → Partition) : (s.modPart p f).timeOmit = s.timeOmit := by unfold State.modPart; split <;> rfl
@[simp] theorem State.modPart_timeAdj (s : State) (p : Nat) (f : Partition → Partition) : (s.modPart p f).timeAdj = s.timeAdj := by unfold State.modPart; split <;> rfl
@[simp] theorem State.modPart_timeHeld (s : State) (p : Nat) (f : Partition → Partition) : (s.modPart p f).timeHeld = s.timeHeld := by unfold State.modPart; split <;> rfl
@[simp] theorem State.modPart_ns (s : State) (p : Nat) (f : Partition → Partition) : (s.modPart p f).ns = s.ns := by unfold State.modPart; split <;> rfl
@[simp] theorem State.modPart_master (s : State) (p : Nat) (f : Partition → Partition) : (s.modPart p f).master = s.master := by unfold State.modPart; split <;> rfl
@[simp] theorem State.modPart_modId (s : State) (p : Nat) (f : Partition → Partition) : (s.modPart p f).modId = s.modId := by unfold State.modPart; split <;> rfl
@[simp] theorem State.modPart_dims (s : State) (p : Nat) (f : Partition → Partition) : (s.modPart p f).dims = s.dims := by unfold State.modPart; split <;> rfl
@[simp] theorem State.modPart_msgs (s : State) (p : Nat) (f : Partition → Partition) : (s.modPart p f).msgs = s.msgs := by unfold State.modPart; split <;> rfl
@[simp] theorem State.modPart_heard (s : State) (p : Nat) (f : Partition → Partition) : (s.modPart p f).heard = s.heard := by unfold State.modPart; split <;> rfl
@[simp] theorem State.modPart_spEn (s : State) (p : Nat) (f : Partition → Partition) : (s.modPart p f).spEn = s.spEn := by unfold State.modPart; split <;> rfl
@[simp] theorem State.modPart_spP (s : State) (p : Nat) (f : Partition → Partition) : (s.modPart p f).spP = s.spP := by unfold State.modPart; split <;> rfl
@[simp] theorem State.modPart_spLast (s : State) (p : Nat) (f : Partition → Partition) : (s.modPart p f).spLast = s.spLast := by unfold State.modPart; split <;> rfl
@[simp] theorem State.modPart_down (s : State) (p : Nat) (f : Partition → Partition) : (s.modPart p f).down = s.down := by unfold State.modPart; split <;> rfl

@[simp] theorem State.modArb_cc (s : State) (f : Arbiter → Arbiter) : (s.modArb f).cc = s.cc := rfl
@[simp] theorem State.modArb_time (s : State) (f : Arbiter → Arbiter) : (s.modArb f).time = s.time := rfl
@[simp] theorem State.modArb_tphase (s : State) (f : Arbiter → Arbiter) : (s.modArb f).tphase = s.tphase := rfl
@[simp] theorem State.modArb_agenda (s : State) (f : Arbiter → Arbiter) : (s.modArb f).agenda = s.agenda := rfl
@[simp] theorem State.modArb_turns (s : State) (f : Arbiter → Arbiter) : (s.modArb f).turns = s.turns := rfl
@[simp] theorem State.modArb_urgent (s : State) (f : Arbiter → Arbiter) : (s.modArb f).urgent = s.urgent := rfl
@[simp] theorem State.modArb_arrs (s : State) (f : Arbiter → Arbiter) : (s.modArb f).arrs = s.arrs := rfl
@[simp] theorem State.modArb_starts (s : State) (f : Arbiter → Arbiter) : (s.modArb f).starts = s.starts := rfl
@[simp] theorem State.modArb_sets (s : State) (f : Arbiter → Arbiter) : (s.modArb f).sets = s.sets := rfl
@[simp] theorem State.modArb_drops (s : State) (f : Arbiter → Arbiter) : (s.modArb f).drops = s.drops := rfl
@[simp] theorem State.modArb_cur (s : State) (f : Arbiter → Arbiter) : (s.modArb f).cur = s.cur := rfl
@[simp] theorem State.modArb_ir (s : State) (f : Arbiter → Arbiter) : (s.modArb f).ir = s.ir := rfl
@[simp] theorem State.modArb_signals (s : State) (f : Arbiter → Arbiter) : (s.modArb f).signals = s.signals := rfl
@[simp] theorem State.modArb_fresh (s : State) (f : Arbiter → Arbiter) : (s.modArb f).fresh = s.fresh := rfl
@[simp] theorem State.modArb_uid (s : State) (f : Arbiter → Arbiter) : (s.modArb f).uid = s.uid := rfl
@[simp] theorem State.modArb_threads (s : State) (f : Arbiter → Arbiter) : (s.modArb f).threads = s.threads := rfl
@[simp] theorem State.modArb_moving (s : State) (f : Arbiter → Arbiter) : (s.modArb f).moving = s.moving := rfl
@[simp] theorem State.modArb_cores (s : State) (f : Arbiter → Arbiter) : (s.modArb f).cores = s.cores := rfl
@[simp] theorem State.modArb_clusters (s : State) (f : Arbiter → Arbiter) : (s.modArb f).clusters = s.clusters := rfl
@[simp] theorem State.modArb_hearths (s : State) (f : Arbiter → Arbiter) : (s.modArb f).hearths = s.hearths := rfl
@[simp] theorem State.modArb_parts (s : State) (f : Arbiter → Arbiter) : (s.modArb f).parts = s.parts := rfl
@[simp] theorem State.modArb_hbm (s : State) (f : Arbiter → Arbiter) : (s.modArb f).hbm = s.hbm := rfl
@[simp] theorem State.modArb_far (s : State) (f : Arbiter → Arbiter) : (s.modArb f).far = s.far := rfl
@[simp] theorem State.modArb_host (s : State) (f : Arbiter → Arbiter) : (s.modArb f).host = s.host := rfl
@[simp] theorem State.modArb_shares (s : State) (f : Arbiter → Arbiter) : (s.modArb f).shares = s.shares := rfl
@[simp] theorem State.modArb_parcels (s : State) (f : Arbiter → Arbiter) : (s.modArb f).parcels = s.parcels := rfl
@[simp] theorem State.modArb_errors (s : State) (f : Arbiter → Arbiter) : (s.modArb f).errors = s.errors := rfl
@[simp] theorem State.modArb_replies (s : State) (f : Arbiter → Arbiter) : (s.modArb f).replies = s.replies := rfl
@[simp] theorem State.modArb_waiters (s : State) (f : Arbiter → Arbiter) : (s.modArb f).waiters = s.waiters := rfl
@[simp] theorem State.modArb_wakes (s : State) (f : Arbiter → Arbiter) : (s.modArb f).wakes = s.wakes := rfl
@[simp] theorem State.modArb_arb (s : State) (f : Arbiter → Arbiter) : (s.modArb f).arb = f s.arb := rfl
@[simp] theorem State.modArb_fw (s : State) (f : Arbiter → Arbiter) : (s.modArb f).fw = s.fw := rfl
@[simp] theorem State.modArb_pods (s : State) (f : Arbiter → Arbiter) : (s.modArb f).pods = s.pods := rfl
@[simp] theorem State.modArb_links (s : State) (f : Arbiter → Arbiter) : (s.modArb f).links = s.links := rfl
@[simp] theorem State.modArb_timeSet (s : State) (f : Arbiter → Arbiter) : (s.modArb f).timeSet = s.timeSet := rfl
@[simp] theorem State.modArb_timeOmit (s : State) (f : Arbiter → Arbiter) : (s.modArb f).timeOmit = s.timeOmit := rfl
@[simp] theorem State.modArb_timeAdj (s : State) (f : Arbiter → Arbiter) : (s.modArb f).timeAdj = s.timeAdj := rfl
@[simp] theorem State.modArb_timeHeld (s : State) (f : Arbiter → Arbiter) : (s.modArb f).timeHeld = s.timeHeld := rfl
@[simp] theorem State.modArb_ns (s : State) (f : Arbiter → Arbiter) : (s.modArb f).ns = s.ns := rfl
@[simp] theorem State.modArb_master (s : State) (f : Arbiter → Arbiter) : (s.modArb f).master = s.master := rfl
@[simp] theorem State.modArb_modId (s : State) (f : Arbiter → Arbiter) : (s.modArb f).modId = s.modId := rfl
@[simp] theorem State.modArb_dims (s : State) (f : Arbiter → Arbiter) : (s.modArb f).dims = s.dims := rfl
@[simp] theorem State.modArb_msgs (s : State) (f : Arbiter → Arbiter) : (s.modArb f).msgs = s.msgs := rfl
@[simp] theorem State.modArb_heard (s : State) (f : Arbiter → Arbiter) : (s.modArb f).heard = s.heard := rfl
@[simp] theorem State.modArb_spEn (s : State) (f : Arbiter → Arbiter) : (s.modArb f).spEn = s.spEn := rfl
@[simp] theorem State.modArb_spP (s : State) (f : Arbiter → Arbiter) : (s.modArb f).spP = s.spP := rfl
@[simp] theorem State.modArb_spLast (s : State) (f : Arbiter → Arbiter) : (s.modArb f).spLast = s.spLast := rfl
@[simp] theorem State.modArb_down (s : State) (f : Arbiter → Arbiter) : (s.modArb f).down = s.down := rfl

@[simp] theorem State.modFw_cc (s : State) (f : Firmware → Firmware) : (s.modFw f).cc = s.cc := rfl
@[simp] theorem State.modFw_time (s : State) (f : Firmware → Firmware) : (s.modFw f).time = s.time := rfl
@[simp] theorem State.modFw_tphase (s : State) (f : Firmware → Firmware) : (s.modFw f).tphase = s.tphase := rfl
@[simp] theorem State.modFw_agenda (s : State) (f : Firmware → Firmware) : (s.modFw f).agenda = s.agenda := rfl
@[simp] theorem State.modFw_turns (s : State) (f : Firmware → Firmware) : (s.modFw f).turns = s.turns := rfl
@[simp] theorem State.modFw_urgent (s : State) (f : Firmware → Firmware) : (s.modFw f).urgent = s.urgent := rfl
@[simp] theorem State.modFw_arrs (s : State) (f : Firmware → Firmware) : (s.modFw f).arrs = s.arrs := rfl
@[simp] theorem State.modFw_starts (s : State) (f : Firmware → Firmware) : (s.modFw f).starts = s.starts := rfl
@[simp] theorem State.modFw_sets (s : State) (f : Firmware → Firmware) : (s.modFw f).sets = s.sets := rfl
@[simp] theorem State.modFw_drops (s : State) (f : Firmware → Firmware) : (s.modFw f).drops = s.drops := rfl
@[simp] theorem State.modFw_cur (s : State) (f : Firmware → Firmware) : (s.modFw f).cur = s.cur := rfl
@[simp] theorem State.modFw_ir (s : State) (f : Firmware → Firmware) : (s.modFw f).ir = s.ir := rfl
@[simp] theorem State.modFw_signals (s : State) (f : Firmware → Firmware) : (s.modFw f).signals = s.signals := rfl
@[simp] theorem State.modFw_fresh (s : State) (f : Firmware → Firmware) : (s.modFw f).fresh = s.fresh := rfl
@[simp] theorem State.modFw_uid (s : State) (f : Firmware → Firmware) : (s.modFw f).uid = s.uid := rfl
@[simp] theorem State.modFw_threads (s : State) (f : Firmware → Firmware) : (s.modFw f).threads = s.threads := rfl
@[simp] theorem State.modFw_moving (s : State) (f : Firmware → Firmware) : (s.modFw f).moving = s.moving := rfl
@[simp] theorem State.modFw_cores (s : State) (f : Firmware → Firmware) : (s.modFw f).cores = s.cores := rfl
@[simp] theorem State.modFw_clusters (s : State) (f : Firmware → Firmware) : (s.modFw f).clusters = s.clusters := rfl
@[simp] theorem State.modFw_hearths (s : State) (f : Firmware → Firmware) : (s.modFw f).hearths = s.hearths := rfl
@[simp] theorem State.modFw_parts (s : State) (f : Firmware → Firmware) : (s.modFw f).parts = s.parts := rfl
@[simp] theorem State.modFw_hbm (s : State) (f : Firmware → Firmware) : (s.modFw f).hbm = s.hbm := rfl
@[simp] theorem State.modFw_far (s : State) (f : Firmware → Firmware) : (s.modFw f).far = s.far := rfl
@[simp] theorem State.modFw_host (s : State) (f : Firmware → Firmware) : (s.modFw f).host = s.host := rfl
@[simp] theorem State.modFw_shares (s : State) (f : Firmware → Firmware) : (s.modFw f).shares = s.shares := rfl
@[simp] theorem State.modFw_parcels (s : State) (f : Firmware → Firmware) : (s.modFw f).parcels = s.parcels := rfl
@[simp] theorem State.modFw_errors (s : State) (f : Firmware → Firmware) : (s.modFw f).errors = s.errors := rfl
@[simp] theorem State.modFw_replies (s : State) (f : Firmware → Firmware) : (s.modFw f).replies = s.replies := rfl
@[simp] theorem State.modFw_waiters (s : State) (f : Firmware → Firmware) : (s.modFw f).waiters = s.waiters := rfl
@[simp] theorem State.modFw_wakes (s : State) (f : Firmware → Firmware) : (s.modFw f).wakes = s.wakes := rfl
@[simp] theorem State.modFw_arb (s : State) (f : Firmware → Firmware) : (s.modFw f).arb = s.arb := rfl
@[simp] theorem State.modFw_fw (s : State) (f : Firmware → Firmware) : (s.modFw f).fw = f s.fw := rfl
@[simp] theorem State.modFw_pods (s : State) (f : Firmware → Firmware) : (s.modFw f).pods = s.pods := rfl
@[simp] theorem State.modFw_links (s : State) (f : Firmware → Firmware) : (s.modFw f).links = s.links := rfl
@[simp] theorem State.modFw_timeSet (s : State) (f : Firmware → Firmware) : (s.modFw f).timeSet = s.timeSet := rfl
@[simp] theorem State.modFw_timeOmit (s : State) (f : Firmware → Firmware) : (s.modFw f).timeOmit = s.timeOmit := rfl
@[simp] theorem State.modFw_timeAdj (s : State) (f : Firmware → Firmware) : (s.modFw f).timeAdj = s.timeAdj := rfl
@[simp] theorem State.modFw_timeHeld (s : State) (f : Firmware → Firmware) : (s.modFw f).timeHeld = s.timeHeld := rfl
@[simp] theorem State.modFw_ns (s : State) (f : Firmware → Firmware) : (s.modFw f).ns = s.ns := rfl
@[simp] theorem State.modFw_master (s : State) (f : Firmware → Firmware) : (s.modFw f).master = s.master := rfl
@[simp] theorem State.modFw_modId (s : State) (f : Firmware → Firmware) : (s.modFw f).modId = s.modId := rfl
@[simp] theorem State.modFw_dims (s : State) (f : Firmware → Firmware) : (s.modFw f).dims = s.dims := rfl
@[simp] theorem State.modFw_msgs (s : State) (f : Firmware → Firmware) : (s.modFw f).msgs = s.msgs := rfl
@[simp] theorem State.modFw_heard (s : State) (f : Firmware → Firmware) : (s.modFw f).heard = s.heard := rfl
@[simp] theorem State.modFw_spEn (s : State) (f : Firmware → Firmware) : (s.modFw f).spEn = s.spEn := rfl
@[simp] theorem State.modFw_spP (s : State) (f : Firmware → Firmware) : (s.modFw f).spP = s.spP := rfl
@[simp] theorem State.modFw_spLast (s : State) (f : Firmware → Firmware) : (s.modFw f).spLast = s.spLast := rfl
@[simp] theorem State.modFw_down (s : State) (f : Firmware → Firmware) : (s.modFw f).down = s.down := rfl

@[simp] theorem State.nextUid_cc (s : State) : (s.nextUid).cc = s.cc := rfl
@[simp] theorem State.nextUid_time (s : State) : (s.nextUid).time = s.time := rfl
@[simp] theorem State.nextUid_tphase (s : State) : (s.nextUid).tphase = s.tphase := rfl
@[simp] theorem State.nextUid_agenda (s : State) : (s.nextUid).agenda = s.agenda := rfl
@[simp] theorem State.nextUid_turns (s : State) : (s.nextUid).turns = s.turns := rfl
@[simp] theorem State.nextUid_urgent (s : State) : (s.nextUid).urgent = s.urgent := rfl
@[simp] theorem State.nextUid_arrs (s : State) : (s.nextUid).arrs = s.arrs := rfl
@[simp] theorem State.nextUid_starts (s : State) : (s.nextUid).starts = s.starts := rfl
@[simp] theorem State.nextUid_sets (s : State) : (s.nextUid).sets = s.sets := rfl
@[simp] theorem State.nextUid_drops (s : State) : (s.nextUid).drops = s.drops := rfl
@[simp] theorem State.nextUid_cur (s : State) : (s.nextUid).cur = s.cur := rfl
@[simp] theorem State.nextUid_ir (s : State) : (s.nextUid).ir = s.ir := rfl
@[simp] theorem State.nextUid_signals (s : State) : (s.nextUid).signals = s.signals := rfl
@[simp] theorem State.nextUid_fresh (s : State) : (s.nextUid).fresh = s.fresh := rfl
@[simp] theorem State.nextUid_uid (s : State) : (s.nextUid).uid = s.uid + 1 := rfl
@[simp] theorem State.nextUid_threads (s : State) : (s.nextUid).threads = s.threads := rfl
@[simp] theorem State.nextUid_moving (s : State) : (s.nextUid).moving = s.moving := rfl
@[simp] theorem State.nextUid_cores (s : State) : (s.nextUid).cores = s.cores := rfl
@[simp] theorem State.nextUid_clusters (s : State) : (s.nextUid).clusters = s.clusters := rfl
@[simp] theorem State.nextUid_hearths (s : State) : (s.nextUid).hearths = s.hearths := rfl
@[simp] theorem State.nextUid_parts (s : State) : (s.nextUid).parts = s.parts := rfl
@[simp] theorem State.nextUid_hbm (s : State) : (s.nextUid).hbm = s.hbm := rfl
@[simp] theorem State.nextUid_far (s : State) : (s.nextUid).far = s.far := rfl
@[simp] theorem State.nextUid_host (s : State) : (s.nextUid).host = s.host := rfl
@[simp] theorem State.nextUid_shares (s : State) : (s.nextUid).shares = s.shares := rfl
@[simp] theorem State.nextUid_parcels (s : State) : (s.nextUid).parcels = s.parcels := rfl
@[simp] theorem State.nextUid_errors (s : State) : (s.nextUid).errors = s.errors := rfl
@[simp] theorem State.nextUid_replies (s : State) : (s.nextUid).replies = s.replies := rfl
@[simp] theorem State.nextUid_waiters (s : State) : (s.nextUid).waiters = s.waiters := rfl
@[simp] theorem State.nextUid_wakes (s : State) : (s.nextUid).wakes = s.wakes := rfl
@[simp] theorem State.nextUid_arb (s : State) : (s.nextUid).arb = s.arb := rfl
@[simp] theorem State.nextUid_fw (s : State) : (s.nextUid).fw = s.fw := rfl
@[simp] theorem State.nextUid_pods (s : State) : (s.nextUid).pods = s.pods := rfl
@[simp] theorem State.nextUid_links (s : State) : (s.nextUid).links = s.links := rfl
@[simp] theorem State.nextUid_timeSet (s : State) : (s.nextUid).timeSet = s.timeSet := rfl
@[simp] theorem State.nextUid_timeOmit (s : State) : (s.nextUid).timeOmit = s.timeOmit := rfl
@[simp] theorem State.nextUid_timeAdj (s : State) : (s.nextUid).timeAdj = s.timeAdj := rfl
@[simp] theorem State.nextUid_timeHeld (s : State) : (s.nextUid).timeHeld = s.timeHeld := rfl
@[simp] theorem State.nextUid_ns (s : State) : (s.nextUid).ns = s.ns := rfl
@[simp] theorem State.nextUid_master (s : State) : (s.nextUid).master = s.master := rfl
@[simp] theorem State.nextUid_modId (s : State) : (s.nextUid).modId = s.modId := rfl
@[simp] theorem State.nextUid_dims (s : State) : (s.nextUid).dims = s.dims := rfl
@[simp] theorem State.nextUid_msgs (s : State) : (s.nextUid).msgs = s.msgs := rfl
@[simp] theorem State.nextUid_heard (s : State) : (s.nextUid).heard = s.heard := rfl
@[simp] theorem State.nextUid_spEn (s : State) : (s.nextUid).spEn = s.spEn := rfl
@[simp] theorem State.nextUid_spP (s : State) : (s.nextUid).spP = s.spP := rfl
@[simp] theorem State.nextUid_spLast (s : State) : (s.nextUid).spLast = s.spLast := rfl
@[simp] theorem State.nextUid_down (s : State) : (s.nextUid).down = s.down := rfl

@[simp] theorem State.allThreads_cc (s : State) (f : Nat → Thread → Thread) : (s.allThreads f).cc = s.cc := rfl
@[simp] theorem State.allThreads_time (s : State) (f : Nat → Thread → Thread) : (s.allThreads f).time = s.time := rfl
@[simp] theorem State.allThreads_tphase (s : State) (f : Nat → Thread → Thread) : (s.allThreads f).tphase = s.tphase := rfl
@[simp] theorem State.allThreads_agenda (s : State) (f : Nat → Thread → Thread) : (s.allThreads f).agenda = s.agenda := rfl
@[simp] theorem State.allThreads_turns (s : State) (f : Nat → Thread → Thread) : (s.allThreads f).turns = s.turns := rfl
@[simp] theorem State.allThreads_urgent (s : State) (f : Nat → Thread → Thread) : (s.allThreads f).urgent = s.urgent := rfl
@[simp] theorem State.allThreads_arrs (s : State) (f : Nat → Thread → Thread) : (s.allThreads f).arrs = s.arrs := rfl
@[simp] theorem State.allThreads_starts (s : State) (f : Nat → Thread → Thread) : (s.allThreads f).starts = s.starts := rfl
@[simp] theorem State.allThreads_sets (s : State) (f : Nat → Thread → Thread) : (s.allThreads f).sets = s.sets := rfl
@[simp] theorem State.allThreads_drops (s : State) (f : Nat → Thread → Thread) : (s.allThreads f).drops = s.drops := rfl
@[simp] theorem State.allThreads_cur (s : State) (f : Nat → Thread → Thread) : (s.allThreads f).cur = s.cur := rfl
@[simp] theorem State.allThreads_ir (s : State) (f : Nat → Thread → Thread) : (s.allThreads f).ir = s.ir := rfl
@[simp] theorem State.allThreads_signals (s : State) (f : Nat → Thread → Thread) : (s.allThreads f).signals = s.signals := rfl
@[simp] theorem State.allThreads_fresh (s : State) (f : Nat → Thread → Thread) : (s.allThreads f).fresh = s.fresh := rfl
@[simp] theorem State.allThreads_uid (s : State) (f : Nat → Thread → Thread) : (s.allThreads f).uid = s.uid := rfl
@[simp] theorem State.allThreads_threads (s : State) (f : Nat → Thread → Thread) : (s.allThreads f).threads = s.threads.over f := rfl
@[simp] theorem State.allThreads_moving (s : State) (f : Nat → Thread → Thread) : (s.allThreads f).moving = s.moving := rfl
@[simp] theorem State.allThreads_cores (s : State) (f : Nat → Thread → Thread) : (s.allThreads f).cores = s.cores := rfl
@[simp] theorem State.allThreads_clusters (s : State) (f : Nat → Thread → Thread) : (s.allThreads f).clusters = s.clusters := rfl
@[simp] theorem State.allThreads_hearths (s : State) (f : Nat → Thread → Thread) : (s.allThreads f).hearths = s.hearths := rfl
@[simp] theorem State.allThreads_parts (s : State) (f : Nat → Thread → Thread) : (s.allThreads f).parts = s.parts := rfl
@[simp] theorem State.allThreads_hbm (s : State) (f : Nat → Thread → Thread) : (s.allThreads f).hbm = s.hbm := rfl
@[simp] theorem State.allThreads_far (s : State) (f : Nat → Thread → Thread) : (s.allThreads f).far = s.far := rfl
@[simp] theorem State.allThreads_host (s : State) (f : Nat → Thread → Thread) : (s.allThreads f).host = s.host := rfl
@[simp] theorem State.allThreads_shares (s : State) (f : Nat → Thread → Thread) : (s.allThreads f).shares = s.shares := rfl
@[simp] theorem State.allThreads_parcels (s : State) (f : Nat → Thread → Thread) : (s.allThreads f).parcels = s.parcels := rfl
@[simp] theorem State.allThreads_errors (s : State) (f : Nat → Thread → Thread) : (s.allThreads f).errors = s.errors := rfl
@[simp] theorem State.allThreads_replies (s : State) (f : Nat → Thread → Thread) : (s.allThreads f).replies = s.replies := rfl
@[simp] theorem State.allThreads_waiters (s : State) (f : Nat → Thread → Thread) : (s.allThreads f).waiters = s.waiters := rfl
@[simp] theorem State.allThreads_wakes (s : State) (f : Nat → Thread → Thread) : (s.allThreads f).wakes = s.wakes := rfl
@[simp] theorem State.allThreads_arb (s : State) (f : Nat → Thread → Thread) : (s.allThreads f).arb = s.arb := rfl
@[simp] theorem State.allThreads_fw (s : State) (f : Nat → Thread → Thread) : (s.allThreads f).fw = s.fw := rfl
@[simp] theorem State.allThreads_pods (s : State) (f : Nat → Thread → Thread) : (s.allThreads f).pods = s.pods := rfl
@[simp] theorem State.allThreads_links (s : State) (f : Nat → Thread → Thread) : (s.allThreads f).links = s.links := rfl
@[simp] theorem State.allThreads_timeSet (s : State) (f : Nat → Thread → Thread) : (s.allThreads f).timeSet = s.timeSet := rfl
@[simp] theorem State.allThreads_timeOmit (s : State) (f : Nat → Thread → Thread) : (s.allThreads f).timeOmit = s.timeOmit := rfl
@[simp] theorem State.allThreads_timeAdj (s : State) (f : Nat → Thread → Thread) : (s.allThreads f).timeAdj = s.timeAdj := rfl
@[simp] theorem State.allThreads_timeHeld (s : State) (f : Nat → Thread → Thread) : (s.allThreads f).timeHeld = s.timeHeld := rfl
@[simp] theorem State.allThreads_ns (s : State) (f : Nat → Thread → Thread) : (s.allThreads f).ns = s.ns := rfl
@[simp] theorem State.allThreads_master (s : State) (f : Nat → Thread → Thread) : (s.allThreads f).master = s.master := rfl
@[simp] theorem State.allThreads_modId (s : State) (f : Nat → Thread → Thread) : (s.allThreads f).modId = s.modId := rfl
@[simp] theorem State.allThreads_dims (s : State) (f : Nat → Thread → Thread) : (s.allThreads f).dims = s.dims := rfl
@[simp] theorem State.allThreads_msgs (s : State) (f : Nat → Thread → Thread) : (s.allThreads f).msgs = s.msgs := rfl
@[simp] theorem State.allThreads_heard (s : State) (f : Nat → Thread → Thread) : (s.allThreads f).heard = s.heard := rfl
@[simp] theorem State.allThreads_spEn (s : State) (f : Nat → Thread → Thread) : (s.allThreads f).spEn = s.spEn := rfl
@[simp] theorem State.allThreads_spP (s : State) (f : Nat → Thread → Thread) : (s.allThreads f).spP = s.spP := rfl
@[simp] theorem State.allThreads_spLast (s : State) (f : Nat → Thread → Thread) : (s.allThreads f).spLast = s.spLast := rfl
@[simp] theorem State.allThreads_down (s : State) (f : Nat → Thread → Thread) : (s.allThreads f).down = s.down := rfl

@[simp] theorem State.reply_cc (s : State) (r : Reply) : (s.reply r).cc = s.cc := rfl
@[simp] theorem State.reply_time (s : State) (r : Reply) : (s.reply r).time = s.time := rfl
@[simp] theorem State.reply_tphase (s : State) (r : Reply) : (s.reply r).tphase = s.tphase := rfl
@[simp] theorem State.reply_agenda (s : State) (r : Reply) : (s.reply r).agenda = s.agenda := rfl
@[simp] theorem State.reply_turns (s : State) (r : Reply) : (s.reply r).turns = s.turns := rfl
@[simp] theorem State.reply_urgent (s : State) (r : Reply) : (s.reply r).urgent = s.urgent := rfl
@[simp] theorem State.reply_arrs (s : State) (r : Reply) : (s.reply r).arrs = s.arrs := rfl
@[simp] theorem State.reply_starts (s : State) (r : Reply) : (s.reply r).starts = s.starts := rfl
@[simp] theorem State.reply_sets (s : State) (r : Reply) : (s.reply r).sets = s.sets := rfl
@[simp] theorem State.reply_drops (s : State) (r : Reply) : (s.reply r).drops = s.drops := rfl
@[simp] theorem State.reply_cur (s : State) (r : Reply) : (s.reply r).cur = s.cur := rfl
@[simp] theorem State.reply_ir (s : State) (r : Reply) : (s.reply r).ir = s.ir := rfl
@[simp] theorem State.reply_signals (s : State) (r : Reply) : (s.reply r).signals = s.signals := rfl
@[simp] theorem State.reply_fresh (s : State) (r : Reply) : (s.reply r).fresh = s.fresh := rfl
@[simp] theorem State.reply_uid (s : State) (r : Reply) : (s.reply r).uid = s.uid := rfl
@[simp] theorem State.reply_threads (s : State) (r : Reply) : (s.reply r).threads = s.threads := rfl
@[simp] theorem State.reply_moving (s : State) (r : Reply) : (s.reply r).moving = s.moving := rfl
@[simp] theorem State.reply_cores (s : State) (r : Reply) : (s.reply r).cores = s.cores := rfl
@[simp] theorem State.reply_clusters (s : State) (r : Reply) : (s.reply r).clusters = s.clusters := rfl
@[simp] theorem State.reply_hearths (s : State) (r : Reply) : (s.reply r).hearths = s.hearths := rfl
@[simp] theorem State.reply_parts (s : State) (r : Reply) : (s.reply r).parts = s.parts := rfl
@[simp] theorem State.reply_hbm (s : State) (r : Reply) : (s.reply r).hbm = s.hbm := rfl
@[simp] theorem State.reply_far (s : State) (r : Reply) : (s.reply r).far = s.far := rfl
@[simp] theorem State.reply_host (s : State) (r : Reply) : (s.reply r).host = s.host := rfl
@[simp] theorem State.reply_shares (s : State) (r : Reply) : (s.reply r).shares = s.shares := rfl
@[simp] theorem State.reply_parcels (s : State) (r : Reply) : (s.reply r).parcels = s.parcels := rfl
@[simp] theorem State.reply_errors (s : State) (r : Reply) : (s.reply r).errors = s.errors := rfl
@[simp] theorem State.reply_replies (s : State) (r : Reply) : (s.reply r).replies = s.replies ++ [r] := rfl
@[simp] theorem State.reply_waiters (s : State) (r : Reply) : (s.reply r).waiters = s.waiters := rfl
@[simp] theorem State.reply_wakes (s : State) (r : Reply) : (s.reply r).wakes = s.wakes := rfl
@[simp] theorem State.reply_arb (s : State) (r : Reply) : (s.reply r).arb = s.arb := rfl
@[simp] theorem State.reply_fw (s : State) (r : Reply) : (s.reply r).fw = s.fw := rfl
@[simp] theorem State.reply_pods (s : State) (r : Reply) : (s.reply r).pods = s.pods := rfl
@[simp] theorem State.reply_links (s : State) (r : Reply) : (s.reply r).links = s.links := rfl
@[simp] theorem State.reply_timeSet (s : State) (r : Reply) : (s.reply r).timeSet = s.timeSet := rfl
@[simp] theorem State.reply_timeOmit (s : State) (r : Reply) : (s.reply r).timeOmit = s.timeOmit := rfl
@[simp] theorem State.reply_timeAdj (s : State) (r : Reply) : (s.reply r).timeAdj = s.timeAdj := rfl
@[simp] theorem State.reply_timeHeld (s : State) (r : Reply) : (s.reply r).timeHeld = s.timeHeld := rfl
@[simp] theorem State.reply_ns (s : State) (r : Reply) : (s.reply r).ns = s.ns := rfl
@[simp] theorem State.reply_master (s : State) (r : Reply) : (s.reply r).master = s.master := rfl
@[simp] theorem State.reply_modId (s : State) (r : Reply) : (s.reply r).modId = s.modId := rfl
@[simp] theorem State.reply_dims (s : State) (r : Reply) : (s.reply r).dims = s.dims := rfl
@[simp] theorem State.reply_msgs (s : State) (r : Reply) : (s.reply r).msgs = s.msgs := rfl
@[simp] theorem State.reply_heard (s : State) (r : Reply) : (s.reply r).heard = s.heard := rfl
@[simp] theorem State.reply_spEn (s : State) (r : Reply) : (s.reply r).spEn = s.spEn := rfl
@[simp] theorem State.reply_spP (s : State) (r : Reply) : (s.reply r).spP = s.spP := rfl
@[simp] theorem State.reply_spLast (s : State) (r : Reply) : (s.reply r).spLast = s.spLast := rfl
@[simp] theorem State.reply_down (s : State) (r : Reply) : (s.reply r).down = s.down := rfl

@[simp] theorem State.unblock_cc (s : State) (tid : Nat) : (s.unblock tid).cc = s.cc := by simp [State.unblock]
@[simp] theorem State.unblock_time (s : State) (tid : Nat) : (s.unblock tid).time = s.time := by simp [State.unblock]
@[simp] theorem State.unblock_tphase (s : State) (tid : Nat) : (s.unblock tid).tphase = s.tphase := by simp [State.unblock]
@[simp] theorem State.unblock_agenda (s : State) (tid : Nat) : (s.unblock tid).agenda = s.agenda := by simp [State.unblock]
@[simp] theorem State.unblock_turns (s : State) (tid : Nat) : (s.unblock tid).turns = s.turns := by simp [State.unblock]
@[simp] theorem State.unblock_urgent (s : State) (tid : Nat) : (s.unblock tid).urgent = s.urgent := by simp [State.unblock]
@[simp] theorem State.unblock_arrs (s : State) (tid : Nat) : (s.unblock tid).arrs = s.arrs := by simp [State.unblock]
@[simp] theorem State.unblock_starts (s : State) (tid : Nat) : (s.unblock tid).starts = s.starts := by simp [State.unblock]
@[simp] theorem State.unblock_sets (s : State) (tid : Nat) : (s.unblock tid).sets = s.sets := by simp [State.unblock]
@[simp] theorem State.unblock_drops (s : State) (tid : Nat) : (s.unblock tid).drops = s.drops := by simp [State.unblock]
@[simp] theorem State.unblock_cur (s : State) (tid : Nat) : (s.unblock tid).cur = s.cur := by simp [State.unblock]
@[simp] theorem State.unblock_ir (s : State) (tid : Nat) : (s.unblock tid).ir = s.ir := by simp [State.unblock]
@[simp] theorem State.unblock_signals (s : State) (tid : Nat) : (s.unblock tid).signals = s.signals := by simp [State.unblock]
@[simp] theorem State.unblock_fresh (s : State) (tid : Nat) : (s.unblock tid).fresh = s.fresh := by simp [State.unblock]
@[simp] theorem State.unblock_uid (s : State) (tid : Nat) : (s.unblock tid).uid = s.uid := by simp [State.unblock]
@[simp] theorem State.unblock_moving (s : State) (tid : Nat) : (s.unblock tid).moving = s.moving := by simp [State.unblock]
@[simp] theorem State.unblock_cores (s : State) (tid : Nat) : (s.unblock tid).cores = s.cores := by simp [State.unblock]
@[simp] theorem State.unblock_clusters (s : State) (tid : Nat) : (s.unblock tid).clusters = s.clusters := by simp [State.unblock]
@[simp] theorem State.unblock_hearths (s : State) (tid : Nat) : (s.unblock tid).hearths = s.hearths := by simp [State.unblock]
@[simp] theorem State.unblock_parts (s : State) (tid : Nat) : (s.unblock tid).parts = s.parts := by simp [State.unblock]
@[simp] theorem State.unblock_hbm (s : State) (tid : Nat) : (s.unblock tid).hbm = s.hbm := by simp [State.unblock]
@[simp] theorem State.unblock_far (s : State) (tid : Nat) : (s.unblock tid).far = s.far := by simp [State.unblock]
@[simp] theorem State.unblock_host (s : State) (tid : Nat) : (s.unblock tid).host = s.host := by simp [State.unblock]
@[simp] theorem State.unblock_shares (s : State) (tid : Nat) : (s.unblock tid).shares = s.shares := by simp [State.unblock]
@[simp] theorem State.unblock_parcels (s : State) (tid : Nat) : (s.unblock tid).parcels = s.parcels := by simp [State.unblock]
@[simp] theorem State.unblock_errors (s : State) (tid : Nat) : (s.unblock tid).errors = s.errors := by simp [State.unblock]
@[simp] theorem State.unblock_replies (s : State) (tid : Nat) : (s.unblock tid).replies = s.replies := by simp [State.unblock]
@[simp] theorem State.unblock_waiters (s : State) (tid : Nat) : (s.unblock tid).waiters = s.waiters := by simp [State.unblock]
@[simp] theorem State.unblock_wakes (s : State) (tid : Nat) : (s.unblock tid).wakes = s.wakes := by simp [State.unblock]
@[simp] theorem State.unblock_arb (s : State) (tid : Nat) : (s.unblock tid).arb = s.arb := by simp [State.unblock]
@[simp] theorem State.unblock_fw (s : State) (tid : Nat) : (s.unblock tid).fw = s.fw := by simp [State.unblock]
@[simp] theorem State.unblock_pods (s : State) (tid : Nat) : (s.unblock tid).pods = s.pods := by simp [State.unblock]
@[simp] theorem State.unblock_links (s : State) (tid : Nat) : (s.unblock tid).links = s.links := by simp [State.unblock]
@[simp] theorem State.unblock_timeSet (s : State) (tid : Nat) : (s.unblock tid).timeSet = s.timeSet := by simp [State.unblock]
@[simp] theorem State.unblock_timeOmit (s : State) (tid : Nat) : (s.unblock tid).timeOmit = s.timeOmit := by simp [State.unblock]
@[simp] theorem State.unblock_timeAdj (s : State) (tid : Nat) : (s.unblock tid).timeAdj = s.timeAdj := by simp [State.unblock]
@[simp] theorem State.unblock_timeHeld (s : State) (tid : Nat) : (s.unblock tid).timeHeld = s.timeHeld := by simp [State.unblock]
@[simp] theorem State.unblock_ns (s : State) (tid : Nat) : (s.unblock tid).ns = s.ns := by simp [State.unblock]
@[simp] theorem State.unblock_master (s : State) (tid : Nat) : (s.unblock tid).master = s.master := by simp [State.unblock]
@[simp] theorem State.unblock_modId (s : State) (tid : Nat) : (s.unblock tid).modId = s.modId := by simp [State.unblock]
@[simp] theorem State.unblock_dims (s : State) (tid : Nat) : (s.unblock tid).dims = s.dims := by simp [State.unblock]
@[simp] theorem State.unblock_msgs (s : State) (tid : Nat) : (s.unblock tid).msgs = s.msgs := by simp [State.unblock]
@[simp] theorem State.unblock_heard (s : State) (tid : Nat) : (s.unblock tid).heard = s.heard := by simp [State.unblock]
@[simp] theorem State.unblock_spEn (s : State) (tid : Nat) : (s.unblock tid).spEn = s.spEn := by simp [State.unblock]
@[simp] theorem State.unblock_spP (s : State) (tid : Nat) : (s.unblock tid).spP = s.spP := by simp [State.unblock]
@[simp] theorem State.unblock_spLast (s : State) (tid : Nat) : (s.unblock tid).spLast = s.spLast := by simp [State.unblock]
@[simp] theorem State.unblock_down (s : State) (tid : Nat) : (s.unblock tid).down = s.down := by simp [State.unblock]

@[simp] theorem State.noteMeter_cc (s : State) (c : Nat) (m : Meter) : (s.noteMeter c m).cc = s.cc := rfl
@[simp] theorem State.noteMeter_time (s : State) (c : Nat) (m : Meter) : (s.noteMeter c m).time = s.time := rfl
@[simp] theorem State.noteMeter_tphase (s : State) (c : Nat) (m : Meter) : (s.noteMeter c m).tphase = s.tphase := rfl
@[simp] theorem State.noteMeter_agenda (s : State) (c : Nat) (m : Meter) : (s.noteMeter c m).agenda = s.agenda := rfl
@[simp] theorem State.noteMeter_turns (s : State) (c : Nat) (m : Meter) : (s.noteMeter c m).turns = s.turns := rfl
@[simp] theorem State.noteMeter_urgent (s : State) (c : Nat) (m : Meter) : (s.noteMeter c m).urgent = s.urgent := rfl
@[simp] theorem State.noteMeter_arrs (s : State) (c : Nat) (m : Meter) : (s.noteMeter c m).arrs = s.arrs := rfl
@[simp] theorem State.noteMeter_starts (s : State) (c : Nat) (m : Meter) : (s.noteMeter c m).starts = s.starts := rfl
@[simp] theorem State.noteMeter_sets (s : State) (c : Nat) (m : Meter) : (s.noteMeter c m).sets = s.sets := rfl
@[simp] theorem State.noteMeter_drops (s : State) (c : Nat) (m : Meter) : (s.noteMeter c m).drops = s.drops := rfl
@[simp] theorem State.noteMeter_cur (s : State) (c : Nat) (m : Meter) : (s.noteMeter c m).cur = s.cur := rfl
@[simp] theorem State.noteMeter_ir (s : State) (c : Nat) (m : Meter) : (s.noteMeter c m).ir = s.ir := rfl
@[simp] theorem State.noteMeter_signals (s : State) (c : Nat) (m : Meter) : (s.noteMeter c m).signals = s.signals := rfl
@[simp] theorem State.noteMeter_fresh (s : State) (c : Nat) (m : Meter) : (s.noteMeter c m).fresh = s.fresh := rfl
@[simp] theorem State.noteMeter_uid (s : State) (c : Nat) (m : Meter) : (s.noteMeter c m).uid = s.uid := rfl
@[simp] theorem State.noteMeter_threads (s : State) (c : Nat) (m : Meter) : (s.noteMeter c m).threads = s.threads := rfl
@[simp] theorem State.noteMeter_moving (s : State) (c : Nat) (m : Meter) : (s.noteMeter c m).moving = s.moving := rfl
@[simp] theorem State.noteMeter_cores (s : State) (c : Nat) (m : Meter) : (s.noteMeter c m).cores = s.cores := rfl
@[simp] theorem State.noteMeter_clusters (s : State) (c : Nat) (m : Meter) : (s.noteMeter c m).clusters = s.clusters := rfl
@[simp] theorem State.noteMeter_hearths (s : State) (c : Nat) (m : Meter) : (s.noteMeter c m).hearths = s.hearths := rfl
@[simp] theorem State.noteMeter_parts (s : State) (c : Nat) (m : Meter) : (s.noteMeter c m).parts = s.parts := rfl
@[simp] theorem State.noteMeter_hbm (s : State) (c : Nat) (m : Meter) : (s.noteMeter c m).hbm = s.hbm := rfl
@[simp] theorem State.noteMeter_far (s : State) (c : Nat) (m : Meter) : (s.noteMeter c m).far = s.far := rfl
@[simp] theorem State.noteMeter_host (s : State) (c : Nat) (m : Meter) : (s.noteMeter c m).host = s.host := rfl
@[simp] theorem State.noteMeter_shares (s : State) (c : Nat) (m : Meter) : (s.noteMeter c m).shares = s.shares := rfl
@[simp] theorem State.noteMeter_parcels (s : State) (c : Nat) (m : Meter) : (s.noteMeter c m).parcels = s.parcels := rfl
@[simp] theorem State.noteMeter_errors (s : State) (c : Nat) (m : Meter) : (s.noteMeter c m).errors = s.errors := rfl
@[simp] theorem State.noteMeter_replies (s : State) (c : Nat) (m : Meter) : (s.noteMeter c m).replies = s.replies := rfl
@[simp] theorem State.noteMeter_waiters (s : State) (c : Nat) (m : Meter) : (s.noteMeter c m).waiters = s.waiters := rfl
@[simp] theorem State.noteMeter_wakes (s : State) (c : Nat) (m : Meter) : (s.noteMeter c m).wakes = s.wakes := rfl
@[simp] theorem State.noteMeter_fw (s : State) (c : Nat) (m : Meter) : (s.noteMeter c m).fw = s.fw := rfl
@[simp] theorem State.noteMeter_pods (s : State) (c : Nat) (m : Meter) : (s.noteMeter c m).pods = s.pods := rfl
@[simp] theorem State.noteMeter_links (s : State) (c : Nat) (m : Meter) : (s.noteMeter c m).links = s.links := rfl
@[simp] theorem State.noteMeter_timeSet (s : State) (c : Nat) (m : Meter) : (s.noteMeter c m).timeSet = s.timeSet := rfl
@[simp] theorem State.noteMeter_timeOmit (s : State) (c : Nat) (m : Meter) : (s.noteMeter c m).timeOmit = s.timeOmit := rfl
@[simp] theorem State.noteMeter_timeAdj (s : State) (c : Nat) (m : Meter) : (s.noteMeter c m).timeAdj = s.timeAdj := rfl
@[simp] theorem State.noteMeter_timeHeld (s : State) (c : Nat) (m : Meter) : (s.noteMeter c m).timeHeld = s.timeHeld := rfl
@[simp] theorem State.noteMeter_ns (s : State) (c : Nat) (m : Meter) : (s.noteMeter c m).ns = s.ns := rfl
@[simp] theorem State.noteMeter_master (s : State) (c : Nat) (m : Meter) : (s.noteMeter c m).master = s.master := rfl
@[simp] theorem State.noteMeter_modId (s : State) (c : Nat) (m : Meter) : (s.noteMeter c m).modId = s.modId := rfl
@[simp] theorem State.noteMeter_dims (s : State) (c : Nat) (m : Meter) : (s.noteMeter c m).dims = s.dims := rfl
@[simp] theorem State.noteMeter_msgs (s : State) (c : Nat) (m : Meter) : (s.noteMeter c m).msgs = s.msgs := rfl
@[simp] theorem State.noteMeter_heard (s : State) (c : Nat) (m : Meter) : (s.noteMeter c m).heard = s.heard := rfl
@[simp] theorem State.noteMeter_spEn (s : State) (c : Nat) (m : Meter) : (s.noteMeter c m).spEn = s.spEn := rfl
@[simp] theorem State.noteMeter_spP (s : State) (c : Nat) (m : Meter) : (s.noteMeter c m).spP = s.spP := rfl
@[simp] theorem State.noteMeter_spLast (s : State) (c : Nat) (m : Meter) : (s.noteMeter c m).spLast = s.spLast := rfl
@[simp] theorem State.noteMeter_down (s : State) (c : Nat) (m : Meter) : (s.noteMeter c m).down = s.down := rfl

@[simp] theorem State.setBar_cc (s : State) (c b : Nat) (x : Barrier) : (s.setBar c b x).cc = s.cc := rfl
@[simp] theorem State.setBar_time (s : State) (c b : Nat) (x : Barrier) : (s.setBar c b x).time = s.time := rfl
@[simp] theorem State.setBar_tphase (s : State) (c b : Nat) (x : Barrier) : (s.setBar c b x).tphase = s.tphase := rfl
@[simp] theorem State.setBar_agenda (s : State) (c b : Nat) (x : Barrier) : (s.setBar c b x).agenda = s.agenda := rfl
@[simp] theorem State.setBar_turns (s : State) (c b : Nat) (x : Barrier) : (s.setBar c b x).turns = s.turns := rfl
@[simp] theorem State.setBar_urgent (s : State) (c b : Nat) (x : Barrier) : (s.setBar c b x).urgent = s.urgent := rfl
@[simp] theorem State.setBar_arrs (s : State) (c b : Nat) (x : Barrier) : (s.setBar c b x).arrs = s.arrs := rfl
@[simp] theorem State.setBar_starts (s : State) (c b : Nat) (x : Barrier) : (s.setBar c b x).starts = s.starts := rfl
@[simp] theorem State.setBar_sets (s : State) (c b : Nat) (x : Barrier) : (s.setBar c b x).sets = s.sets := rfl
@[simp] theorem State.setBar_drops (s : State) (c b : Nat) (x : Barrier) : (s.setBar c b x).drops = s.drops := rfl
@[simp] theorem State.setBar_cur (s : State) (c b : Nat) (x : Barrier) : (s.setBar c b x).cur = s.cur := rfl
@[simp] theorem State.setBar_ir (s : State) (c b : Nat) (x : Barrier) : (s.setBar c b x).ir = s.ir := rfl
@[simp] theorem State.setBar_signals (s : State) (c b : Nat) (x : Barrier) : (s.setBar c b x).signals = s.signals := rfl
@[simp] theorem State.setBar_fresh (s : State) (c b : Nat) (x : Barrier) : (s.setBar c b x).fresh = s.fresh := rfl
@[simp] theorem State.setBar_uid (s : State) (c b : Nat) (x : Barrier) : (s.setBar c b x).uid = s.uid := rfl
@[simp] theorem State.setBar_threads (s : State) (c b : Nat) (x : Barrier) : (s.setBar c b x).threads = s.threads := rfl
@[simp] theorem State.setBar_moving (s : State) (c b : Nat) (x : Barrier) : (s.setBar c b x).moving = s.moving := rfl
@[simp] theorem State.setBar_clusters (s : State) (c b : Nat) (x : Barrier) : (s.setBar c b x).clusters = s.clusters := rfl
@[simp] theorem State.setBar_hearths (s : State) (c b : Nat) (x : Barrier) : (s.setBar c b x).hearths = s.hearths := rfl
@[simp] theorem State.setBar_parts (s : State) (c b : Nat) (x : Barrier) : (s.setBar c b x).parts = s.parts := rfl
@[simp] theorem State.setBar_hbm (s : State) (c b : Nat) (x : Barrier) : (s.setBar c b x).hbm = s.hbm := rfl
@[simp] theorem State.setBar_far (s : State) (c b : Nat) (x : Barrier) : (s.setBar c b x).far = s.far := rfl
@[simp] theorem State.setBar_host (s : State) (c b : Nat) (x : Barrier) : (s.setBar c b x).host = s.host := rfl
@[simp] theorem State.setBar_shares (s : State) (c b : Nat) (x : Barrier) : (s.setBar c b x).shares = s.shares := rfl
@[simp] theorem State.setBar_parcels (s : State) (c b : Nat) (x : Barrier) : (s.setBar c b x).parcels = s.parcels := rfl
@[simp] theorem State.setBar_errors (s : State) (c b : Nat) (x : Barrier) : (s.setBar c b x).errors = s.errors := rfl
@[simp] theorem State.setBar_replies (s : State) (c b : Nat) (x : Barrier) : (s.setBar c b x).replies = s.replies := rfl
@[simp] theorem State.setBar_waiters (s : State) (c b : Nat) (x : Barrier) : (s.setBar c b x).waiters = s.waiters := rfl
@[simp] theorem State.setBar_wakes (s : State) (c b : Nat) (x : Barrier) : (s.setBar c b x).wakes = s.wakes := rfl
@[simp] theorem State.setBar_arb (s : State) (c b : Nat) (x : Barrier) : (s.setBar c b x).arb = s.arb := rfl
@[simp] theorem State.setBar_fw (s : State) (c b : Nat) (x : Barrier) : (s.setBar c b x).fw = s.fw := rfl
@[simp] theorem State.setBar_pods (s : State) (c b : Nat) (x : Barrier) : (s.setBar c b x).pods = s.pods := rfl
@[simp] theorem State.setBar_links (s : State) (c b : Nat) (x : Barrier) : (s.setBar c b x).links = s.links := rfl
@[simp] theorem State.setBar_timeSet (s : State) (c b : Nat) (x : Barrier) : (s.setBar c b x).timeSet = s.timeSet := rfl
@[simp] theorem State.setBar_timeOmit (s : State) (c b : Nat) (x : Barrier) : (s.setBar c b x).timeOmit = s.timeOmit := rfl
@[simp] theorem State.setBar_timeAdj (s : State) (c b : Nat) (x : Barrier) : (s.setBar c b x).timeAdj = s.timeAdj := rfl
@[simp] theorem State.setBar_timeHeld (s : State) (c b : Nat) (x : Barrier) : (s.setBar c b x).timeHeld = s.timeHeld := rfl
@[simp] theorem State.setBar_ns (s : State) (c b : Nat) (x : Barrier) : (s.setBar c b x).ns = s.ns := rfl
@[simp] theorem State.setBar_master (s : State) (c b : Nat) (x : Barrier) : (s.setBar c b x).master = s.master := rfl
@[simp] theorem State.setBar_modId (s : State) (c b : Nat) (x : Barrier) : (s.setBar c b x).modId = s.modId := rfl
@[simp] theorem State.setBar_dims (s : State) (c b : Nat) (x : Barrier) : (s.setBar c b x).dims = s.dims := rfl
@[simp] theorem State.setBar_msgs (s : State) (c b : Nat) (x : Barrier) : (s.setBar c b x).msgs = s.msgs := rfl
@[simp] theorem State.setBar_heard (s : State) (c b : Nat) (x : Barrier) : (s.setBar c b x).heard = s.heard := rfl
@[simp] theorem State.setBar_spEn (s : State) (c b : Nat) (x : Barrier) : (s.setBar c b x).spEn = s.spEn := rfl
@[simp] theorem State.setBar_spP (s : State) (c b : Nat) (x : Barrier) : (s.setBar c b x).spP = s.spP := rfl
@[simp] theorem State.setBar_spLast (s : State) (c b : Nat) (x : Barrier) : (s.setBar c b x).spLast = s.spLast := rfl
@[simp] theorem State.setBar_down (s : State) (c b : Nat) (x : Barrier) : (s.setBar c b x).down = s.down := rfl

@[simp] theorem State.setClBar_cc (s : State) (c b : Nat) (x : Barrier) : (s.setClBar c b x).cc = s.cc := rfl
@[simp] theorem State.setClBar_time (s : State) (c b : Nat) (x : Barrier) : (s.setClBar c b x).time = s.time := rfl
@[simp] theorem State.setClBar_tphase (s : State) (c b : Nat) (x : Barrier) : (s.setClBar c b x).tphase = s.tphase := rfl
@[simp] theorem State.setClBar_agenda (s : State) (c b : Nat) (x : Barrier) : (s.setClBar c b x).agenda = s.agenda := rfl
@[simp] theorem State.setClBar_turns (s : State) (c b : Nat) (x : Barrier) : (s.setClBar c b x).turns = s.turns := rfl
@[simp] theorem State.setClBar_urgent (s : State) (c b : Nat) (x : Barrier) : (s.setClBar c b x).urgent = s.urgent := rfl
@[simp] theorem State.setClBar_arrs (s : State) (c b : Nat) (x : Barrier) : (s.setClBar c b x).arrs = s.arrs := rfl
@[simp] theorem State.setClBar_starts (s : State) (c b : Nat) (x : Barrier) : (s.setClBar c b x).starts = s.starts := rfl
@[simp] theorem State.setClBar_sets (s : State) (c b : Nat) (x : Barrier) : (s.setClBar c b x).sets = s.sets := rfl
@[simp] theorem State.setClBar_drops (s : State) (c b : Nat) (x : Barrier) : (s.setClBar c b x).drops = s.drops := rfl
@[simp] theorem State.setClBar_cur (s : State) (c b : Nat) (x : Barrier) : (s.setClBar c b x).cur = s.cur := rfl
@[simp] theorem State.setClBar_ir (s : State) (c b : Nat) (x : Barrier) : (s.setClBar c b x).ir = s.ir := rfl
@[simp] theorem State.setClBar_signals (s : State) (c b : Nat) (x : Barrier) : (s.setClBar c b x).signals = s.signals := rfl
@[simp] theorem State.setClBar_fresh (s : State) (c b : Nat) (x : Barrier) : (s.setClBar c b x).fresh = s.fresh := rfl
@[simp] theorem State.setClBar_uid (s : State) (c b : Nat) (x : Barrier) : (s.setClBar c b x).uid = s.uid := rfl
@[simp] theorem State.setClBar_threads (s : State) (c b : Nat) (x : Barrier) : (s.setClBar c b x).threads = s.threads := rfl
@[simp] theorem State.setClBar_moving (s : State) (c b : Nat) (x : Barrier) : (s.setClBar c b x).moving = s.moving := rfl
@[simp] theorem State.setClBar_cores (s : State) (c b : Nat) (x : Barrier) : (s.setClBar c b x).cores = s.cores := rfl
@[simp] theorem State.setClBar_hearths (s : State) (c b : Nat) (x : Barrier) : (s.setClBar c b x).hearths = s.hearths := rfl
@[simp] theorem State.setClBar_parts (s : State) (c b : Nat) (x : Barrier) : (s.setClBar c b x).parts = s.parts := rfl
@[simp] theorem State.setClBar_hbm (s : State) (c b : Nat) (x : Barrier) : (s.setClBar c b x).hbm = s.hbm := rfl
@[simp] theorem State.setClBar_far (s : State) (c b : Nat) (x : Barrier) : (s.setClBar c b x).far = s.far := rfl
@[simp] theorem State.setClBar_host (s : State) (c b : Nat) (x : Barrier) : (s.setClBar c b x).host = s.host := rfl
@[simp] theorem State.setClBar_shares (s : State) (c b : Nat) (x : Barrier) : (s.setClBar c b x).shares = s.shares := rfl
@[simp] theorem State.setClBar_parcels (s : State) (c b : Nat) (x : Barrier) : (s.setClBar c b x).parcels = s.parcels := rfl
@[simp] theorem State.setClBar_errors (s : State) (c b : Nat) (x : Barrier) : (s.setClBar c b x).errors = s.errors := rfl
@[simp] theorem State.setClBar_replies (s : State) (c b : Nat) (x : Barrier) : (s.setClBar c b x).replies = s.replies := rfl
@[simp] theorem State.setClBar_waiters (s : State) (c b : Nat) (x : Barrier) : (s.setClBar c b x).waiters = s.waiters := rfl
@[simp] theorem State.setClBar_wakes (s : State) (c b : Nat) (x : Barrier) : (s.setClBar c b x).wakes = s.wakes := rfl
@[simp] theorem State.setClBar_arb (s : State) (c b : Nat) (x : Barrier) : (s.setClBar c b x).arb = s.arb := rfl
@[simp] theorem State.setClBar_fw (s : State) (c b : Nat) (x : Barrier) : (s.setClBar c b x).fw = s.fw := rfl
@[simp] theorem State.setClBar_pods (s : State) (c b : Nat) (x : Barrier) : (s.setClBar c b x).pods = s.pods := rfl
@[simp] theorem State.setClBar_links (s : State) (c b : Nat) (x : Barrier) : (s.setClBar c b x).links = s.links := rfl
@[simp] theorem State.setClBar_timeSet (s : State) (c b : Nat) (x : Barrier) : (s.setClBar c b x).timeSet = s.timeSet := rfl
@[simp] theorem State.setClBar_timeOmit (s : State) (c b : Nat) (x : Barrier) : (s.setClBar c b x).timeOmit = s.timeOmit := rfl
@[simp] theorem State.setClBar_timeAdj (s : State) (c b : Nat) (x : Barrier) : (s.setClBar c b x).timeAdj = s.timeAdj := rfl
@[simp] theorem State.setClBar_timeHeld (s : State) (c b : Nat) (x : Barrier) : (s.setClBar c b x).timeHeld = s.timeHeld := rfl
@[simp] theorem State.setClBar_ns (s : State) (c b : Nat) (x : Barrier) : (s.setClBar c b x).ns = s.ns := rfl
@[simp] theorem State.setClBar_master (s : State) (c b : Nat) (x : Barrier) : (s.setClBar c b x).master = s.master := rfl
@[simp] theorem State.setClBar_modId (s : State) (c b : Nat) (x : Barrier) : (s.setClBar c b x).modId = s.modId := rfl
@[simp] theorem State.setClBar_dims (s : State) (c b : Nat) (x : Barrier) : (s.setClBar c b x).dims = s.dims := rfl
@[simp] theorem State.setClBar_msgs (s : State) (c b : Nat) (x : Barrier) : (s.setClBar c b x).msgs = s.msgs := rfl
@[simp] theorem State.setClBar_heard (s : State) (c b : Nat) (x : Barrier) : (s.setClBar c b x).heard = s.heard := rfl
@[simp] theorem State.setClBar_spEn (s : State) (c b : Nat) (x : Barrier) : (s.setClBar c b x).spEn = s.spEn := rfl
@[simp] theorem State.setClBar_spP (s : State) (c b : Nat) (x : Barrier) : (s.setClBar c b x).spP = s.spP := rfl
@[simp] theorem State.setClBar_spLast (s : State) (c b : Nat) (x : Barrier) : (s.setClBar c b x).spLast = s.spLast := rfl
@[simp] theorem State.setClBar_down (s : State) (c b : Nat) (x : Barrier) : (s.setClBar c b x).down = s.down := rfl

end Sys2Proof.Machine
end

