-- ==== Sys2Proof/Laws/Memory.lean ====
section
/-! SUPPORT. Laws of the tables and of byte memory: reading after a write, and the canonical form that every operation keeps. -/

namespace Sys2Proof.Machine

/-! ### Tables -/

theorem Map.look_put {α : Type} (m : Map α) (a b : Nat) (x : α) :
    Map.look (Map.put m a x) b = if a = b then some x else Map.look m b := by
  induction m with
  | nil => simp [Map.put, Map.look]
  | cons p m ih =>
    obtain ⟨k, v⟩ := p
    simp only [Map.put]
    split
    · simp [Map.look]
    · split
      · next h => subst h; simp only [Map.look]; split <;> rfl
      · next h1 h2 =>
        simp only [Map.look, ih]
        by_cases hk : k = b
        · subst hk; simp [Ne.symm h2]
        · simp [hk]

@[simp] theorem Map.look_put_same {α : Type} (m : Map α) (a : Nat) (x : α) : Map.look (Map.put m a x) a = some x := by
  simp [Map.look_put]

theorem Map.look_put_ne {α : Type} (m : Map α) {a b : Nat} (x : α) (h : b ≠ a) :
    Map.look (Map.put m a x) b = Map.look m b := by
  simp [Map.look_put, Ne.symm h]

theorem Map.look_drop {α : Type} (m : Map α) (a b : Nat) :
    Map.look (Map.drop m a) b = if a = b then none else Map.look m b := by
  induction m with
  | nil => simp [Map.drop, Map.look]
  | cons p m ih =>
    obtain ⟨k, v⟩ := p
    simp only [Map.drop]
    split
    · next h =>
      subst h; rw [ih]; by_cases hb : k = b
      · simp [hb]
      · simp [hb, Map.look]
    · next h =>
      simp only [Map.look, ih]
      by_cases hk : k = b
      · subst hk; simp [Ne.symm h]
      · simp [hk]

theorem Map.look_store {α : Type} [DecidableEq α] (m : Map α) (a b : Nat) (x zero : α) :
    (Map.look (Map.store m a x zero) b).getD zero = if a = b then x else (Map.look m b).getD zero := by
  unfold Map.store
  split
  · next h => rw [Map.look_drop]; split <;> simp [h]
  · rw [Map.look_put]; split <;> simp

theorem Map.look_over {α : Type} (m : Map α) (f : Nat → α → α) (a : Nat) :
    Map.look (Map.over m f) a = (Map.look m a).map (f a) := by
  induction m with
  | nil => rfl
  | cons p m ih =>
    obtain ⟨k, v⟩ := p
    simp only [Map.over, List.map_cons, Map.look] at *
    split
    · next h => simp [h]
    · exact ih

/-! ### The parts of the state -/

@[simp] theorem State.core_setCore_same (s : State) (c : Nat) (x : Core) : (s.setCore c x).core c = x := by
  simp [State.core]
theorem State.core_setCore_ne (s : State) {c d : Nat} (x : Core) (h : d ≠ c) : (s.setCore c x).core d = s.core d := by
  simp [State.core, Map.look_put_ne _ _ h]
@[simp] theorem State.core_modCore_same (s : State) (c : Nat) (f : Core → Core) : (s.modCore c f).core c = f (s.core c) := by
  simp [State.modCore]
theorem State.core_modCore_ne (s : State) {c d : Nat} (f : Core → Core) (h : d ≠ c) : (s.modCore c f).core d = s.core d := by
  simp [State.modCore, State.core_setCore_ne _ _ h]
@[simp] theorem State.thread_setThread_same (s : State) (i : Nat) (t : Thread) : (s.setThread i t).thread i = some t := by
  simp [State.thread]
theorem State.thread_setThread_ne (s : State) {i j : Nat} (t : Thread) (h : j ≠ i) : (s.setThread i t).thread j = s.thread j := by
  simp [State.thread, Map.look_put_ne _ _ h]
@[simp] theorem State.part_setPart_same (s : State) (p : Nat) (x : Partition) : (s.setPart p x).part p = some x := by
  simp [State.part]
theorem State.part_setPart_ne (s : State) {p q : Nat} (x : Partition) (h : q ≠ p) : (s.setPart p x).part q = s.part q := by
  simp [State.part, Map.look_put_ne _ _ h]
@[simp] theorem State.cluster_setCluster_same (s : State) (c : Nat) (x : Cluster) : (s.setCluster c x).cluster c = x := by
  simp [State.cluster]
@[simp] theorem State.hearth_setHearth_same (s : State) (h : Nat) (x : Hearth) : (s.setHearth h x).hearth h = x := by
  simp [State.hearth]

/-! ### Registers (R19) -/

@[simp] theorem Thread.rd_zero (t : Thread) : t.rd 0 = 0 := by simp [Thread.rd]

theorem Thread.rd_wr (t : Thread) (d r : GReg) (v : Word) :
    (t.wr d v).rd r = if r = 0 then 0 else if r = d then v else t.rd r := by
  unfold Thread.rd Thread.wr
  by_cases hr : r = 0
  · simp [hr]
  · by_cases hd : d = 0
    · subst hd; simp [hr]
    · by_cases hrd : r = d
      · subst hrd; simp [hr]
      · have : d.val ≠ r.val := fun h => hrd (Fin.ext h).symm
        simp [hr, hd, hrd, this]

/-! ### Bytes -/

theorem Memory.byte_setByte (m : Memory) (a b : Nat) (x : Byte) :
    (m.setByte a x).byte b = if a = b then x else m.byte b := Map.look_store m a b x 0

theorem Memory.wf_cons {a : Nat} {x : Byte} {m : Memory} :
    Memory.wf ((a, x) :: m) = true ↔ x ≠ 0 ∧ (∀ p ∈ m, a < p.1) ∧ Memory.wf m = true := by
  induction m generalizing a x with
  | nil => simp [Memory.wf]
  | cons p m ih =>
    obtain ⟨b, y⟩ := p
    simp only [Memory.wf, Bool.and_eq_true, bne_iff_ne, decide_eq_true_eq, List.forall_mem_cons]
    constructor
    · rintro ⟨⟨hx, hab⟩, hm⟩
      refine ⟨hx, ⟨hab, ?_⟩, hm⟩
      intro q hq
      exact Nat.lt_trans hab ((ih.mp hm).2.1 q hq)
    · rintro ⟨hx, ⟨hab, _⟩, hm⟩
      exact ⟨⟨hx, hab⟩, hm⟩

theorem Map.mem_put {α : Type} {m : Map α} {a : Nat} {x : α} {p : Nat × α} (h : p ∈ Map.put m a x) : p = (a, x) ∨ p ∈ m := by
  induction m with
  | nil => simpa [Map.put] using h
  | cons q m ih =>
    obtain ⟨k, v⟩ := q
    simp only [Map.put] at h
    split at h
    · simpa using h
    · split at h
      · rcases List.mem_cons.mp h with h | h
        · exact .inl h
        · exact .inr (List.mem_cons_of_mem _ h)
      · rcases List.mem_cons.mp h with h | h
        · exact .inr (h ▸ List.mem_cons_self ..)
        · rcases ih h with h | h
          · exact .inl h
          · exact .inr (List.mem_cons_of_mem _ h)

theorem Map.mem_drop {α : Type} {m : Map α} {a : Nat} {p : Nat × α} (h : p ∈ Map.drop m a) : p ∈ m := by
  induction m with
  | nil => simp [Map.drop] at h
  | cons q m ih =>
    obtain ⟨k, v⟩ := q
    simp only [Map.drop] at h
    split at h
    · exact List.mem_cons_of_mem _ (ih h)
    · rcases List.mem_cons.mp h with h | h
      · exact h ▸ List.mem_cons_self ..
      · exact List.mem_cons_of_mem _ (ih h)

theorem Memory.wf_put {m : Memory} (a : Nat) {x : Byte} (hx : x ≠ 0) (h : Memory.wf m = true) : Memory.wf (Map.put m a x) = true := by
  induction m with
  | nil => exact Memory.wf_cons.mpr ⟨hx, by simp, rfl⟩
  | cons q m ih =>
    obtain ⟨k, v⟩ := q
    obtain ⟨hv, hk, hm⟩ := Memory.wf_cons.mp h
    simp only [Map.put]
    split
    · next hak =>
      refine Memory.wf_cons.mpr ⟨hx, ?_, h⟩
      intro p hp
      rcases List.mem_cons.mp hp with hp | hp
      · subst hp; exact hak
      · exact Nat.lt_trans hak (hk p hp)
    · split
      · next e => subst e; exact Memory.wf_cons.mpr ⟨hx, hk, hm⟩
      · next h1 h2 =>
        refine Memory.wf_cons.mpr ⟨hv, ?_, ih hm⟩
        intro p hp
        rcases Map.mem_put hp with hp | hp
        · subst hp; simp only; omega
        · exact hk p hp

theorem Memory.wf_drop {m : Memory} (a : Nat) (h : Memory.wf m = true) : Memory.wf (Map.drop m a) = true := by
  induction m with
  | nil => rfl
  | cons q m ih =>
    obtain ⟨k, v⟩ := q
    obtain ⟨hv, hk, hm⟩ := Memory.wf_cons.mp h
    simp only [Map.drop]
    split
    · exact ih hm
    · exact Memory.wf_cons.mpr ⟨hv, fun p hp => hk p (Map.mem_drop hp), ih hm⟩

theorem Memory.wf_setByte {m : Memory} (a : Nat) (x : Byte) (h : Memory.wf m = true) : Memory.wf (m.setByte a x) = true := by
  unfold Memory.setByte Map.store
  split
  · exact Memory.wf_drop a h
  · next hx => exact Memory.wf_put a hx h

/-- A write keeps the canonical form. -/
theorem Memory.wf_write {m : Memory} (a n v : Nat) (h : Memory.wf m = true) : Memory.wf (m.write a n v) = true := by
  induction n generalizing m a v with
  | zero => exact h
  | succ n ih => exact ih _ _ (Memory.wf_setByte _ _ h)

theorem Memory.wf_filter {m : Memory} (f : Host.Cell → Bool) (h : Memory.wf m = true) : Memory.wf (m.filter f) = true := by
  induction m with
  | nil => rfl
  | cons q m ih =>
    obtain ⟨k, v⟩ := q
    obtain ⟨hv, hk, hm⟩ := Memory.wf_cons.mp h
    simp only [List.filter]
    split
    · exact Memory.wf_cons.mpr ⟨hv, fun p hp => hk p (List.mem_filter.mp hp).1, ih hm⟩
    · exact ih hm

theorem Memory.wf_below {m : Memory} (n : Nat) (h : Memory.wf m = true) : Memory.wf (m.below n) = true := Memory.wf_filter _ h

/-- Two memories in canonical form that read the same are the same data. -/
theorem Memory.ext {m m' : Memory} (h : Memory.wf m = true) (h' : Memory.wf m' = true)
    (e : ∀ a, m.byte a = m'.byte a) : m = m' := by
  have absent : ∀ {m : Memory} {a : Nat}, (∀ p ∈ m, a < p.1) → m.byte a = 0 := by
    intro m a hm
    have : Map.look m a = none := by
      induction m with
      | nil => rfl
      | cons q m ih =>
        obtain ⟨k, v⟩ := q
        have hk : a < k := hm (k, v) (List.mem_cons_self ..)
        simp only [Map.look, Nat.ne_of_gt hk, if_false]
        exact ih fun p hp => hm p (List.mem_cons_of_mem _ hp)
    simp [Memory.byte, this]
  induction m generalizing m' with
  | nil =>
    cases m' with
    | nil => rfl
    | cons q m' =>
      obtain ⟨k, v⟩ := q
      have := e k
      simp [Memory.byte, Map.look] at this
      exact absurd this.symm (Memory.wf_cons.mp h').1
  | cons q m ih =>
    obtain ⟨k, v⟩ := q
    obtain ⟨hv, hk, hm⟩ := Memory.wf_cons.mp h
    cases m' with
    | nil =>
      have := e k
      simp [Memory.byte, Map.look] at this
      exact absurd this hv
    | cons q' m' =>
      obtain ⟨k', v'⟩ := q'
      obtain ⟨hv', hk', hm'⟩ := Memory.wf_cons.mp h'
      have ek : k = k' := by
        rcases Nat.lt_trichotomy k k' with hlt | heq | hgt
        · have h1 : Memory.byte ((k', v') :: m') k = 0 := absent (by
            intro p hp
            rcases List.mem_cons.mp hp with hp | hp
            · subst hp; exact hlt
            · exact Nat.lt_trans hlt (hk' p hp))
          have := e k; rw [h1] at this; simp [Memory.byte, Map.look] at this; exact absurd this hv
        · exact heq
        · have h1 : Memory.byte ((k, v) :: m) k' = 0 := absent (by
            intro p hp
            rcases List.mem_cons.mp hp with hp | hp
            · subst hp; exact hgt
            · exact Nat.lt_trans hgt (hk p hp))
          have := e k'; rw [h1] at this; simp [Memory.byte, Map.look] at this; exact absurd this.symm hv'
      subst ek
      have ev : v = v' := by have := e k; simpa [Memory.byte, Map.look] using this
      subst ev
      congr 1
      refine ih hm hm' fun a => ?_
      by_cases ha : k = a
      · subst ha; rw [absent hk, absent hk']
      · have := e a; simpa [Memory.byte, Map.look, ha] using this

/-- A byte after a write of n bytes from a. -/
theorem Memory.byte_write (m : Memory) (a n v b : Nat) :
    (m.write a n v).byte b = if a ≤ b ∧ b < a + n then BitVec.ofNat 8 (v / 256 ^ (b - a)) else m.byte b := by
  induction n generalizing m a v with
  | zero => rw [if_neg (by omega)]; rfl
  | succ n ih =>
    simp only [Memory.write, ih, Memory.byte_setByte]
    by_cases h1 : a + 1 ≤ b ∧ b < a + 1 + n
    · have h2 : a ≤ b ∧ b < a + (n + 1) := by omega
      rw [if_pos h1, if_pos h2]
      have : b - a = (b - (a + 1)) + 1 := by omega
      rw [this, Nat.pow_succ, Nat.mul_comm, Nat.div_div_eq_div_mul]
    · rw [if_neg h1]
      by_cases h3 : a = b
      · subst h3; simp
      · rw [if_neg h3, if_neg (by omega)]

/-- Reading what was written gives its low bytes. -/
theorem Memory.read_write_same (m : Memory) (a n v : Nat) : (m.write a n v).read a n = v % 256 ^ n := by
  suffices h : ∀ (m : Memory) (a n v : Nat), (∀ i, i < n → m.byte (a + i) = BitVec.ofNat 8 (v / 256 ^ i)) → m.read a n = v % 256 ^ n from
    h _ a n v fun i hi => by rw [Memory.byte_write, if_pos (by omega)]; simp
  intro m a n
  induction n generalizing a with
  | zero => intro v _; simp [Memory.read, Nat.mod_one]
  | succ n ih =>
    intro v h
    have h0 := h 0 (by omega)
    have hr := ih (a + 1) (v / 256) fun i hi => by
      have := h (i + 1) (by omega)
      rw [show a + 1 + i = a + (i + 1) by omega, this, Nat.pow_succ, Nat.mul_comm, Nat.div_div_eq_div_mul]
    simp only [Memory.read, hr]
    simp at h0
    rw [h0, BitVec.toNat_ofNat, show (256 : Nat) ^ (n + 1) = 256 * 256 ^ n from Nat.pow_succ', Nat.mod_mul]

/-- Bytes outside a write read as before. -/
theorem Memory.read_write_ne (m : Memory) (a n v b k : Nat) (h : b + k ≤ a ∨ a + n ≤ b) : (m.write a n v).read b k = m.read b k := by
  induction k generalizing b with
  | zero => rfl
  | succ k ih =>
    simp only [Memory.read]
    rw [Memory.byte_write, if_neg (by omega), ih (b + 1) (by omega)]

end Sys2Proof.Machine
end

