-- ==== Sys2Proof/Laws/Crumbs.lean ====
section
/-! SUPPORT. What the operations on a hearth's crumb index cache, and the noting of an arrival, can do. -/

namespace Sys2Proof.Machine

/-- A copy that is taken changes nothing but the hearths. -/
theorem State.takeCopy_eq (s : State) (h part name slot : Nat) :
    s.takeCopy h part name slot = { s with hearths := (s.takeCopy h part name slot).hearths } := by
  unfold State.takeCopy
  dsimp only
  split <;> rfl

/-- The hearth that takes a copy holds it. -/
theorem State.mem_takeCopy (s : State) (h part name slot : Nat) :
    (part, name, slot) ∈ ((s.takeCopy h part name slot).hearth h).crumbs := by
  unfold State.takeCopy
  dsimp only
  split
  · exact List.contains_iff_mem.mp ‹_›
  · simp [State.hearth, State.setHearth]

/-- Copies that are dropped change nothing but the hearths. -/
theorem State.dropCopies_eq (s : State) (part : Nat) (name : Option Nat) :
    s.dropCopies part name = { s with hearths := (s.dropCopies part name).hearths } := rfl

/-- What a hearth holds after a drop: what it held of other partitions, and of the partition the other names, where one is given. -/
theorem State.mem_dropCopies (s : State) (part : Nat) (name : Option Nat) (h : Nat) (x : Nat × Nat × Nat) :
    x ∈ ((s.dropCopies part name).hearth h).crumbs ↔
      x ∈ (s.hearth h).crumbs ∧ (x.1 ≠ part ∨ (name.isSome = true ∧ name ≠ some x.2.1)) := by
  unfold State.dropCopies State.hearth
  dsimp only
  rw [Map.look_over]
  cases s.hearths.look h <;> simp

/-- The slot that a cget reads leaves all but the hearths and the index of free values as it was. -/
theorem State.cgetSlot_eq (s : State) (part hearth name : Nat) :
    (s.cgetSlot part hearth name).1 =
      { s with hearths := (s.cgetSlot part hearth name).1.hearths, fresh := (s.cgetSlot part hearth name).1.fresh } := by
  unfold State.cgetSlot
  split
  · dsimp only
    rw [State.takeCopy_eq]
  · rfl
  · rfl

/-- A cget of a name that has a LIVE entry reads its slot. -/
theorem State.cgetSlot_live {s : State} {part name : Nat} {x : Crumb} (hearth : Nat) (hx : (s.store part).liveEntry name = some x) :
    (s.cgetSlot part hearth name).2 = some x.slot := by
  simp [State.cgetSlot, hx]

/-- A cget of a name that has neither a LIVE entry nor a copy reads none. -/
theorem State.cgetSlot_none {s : State} {part hearth name : Nat} (hx : (s.store part).liveEntry name = none)
    (hc : (s.hearth hearth).crumbs.find? (fun x => x.1 == part && x.2.1 == name) = none) : s.cgetSlot part hearth name = (s, none) := by
  simp [State.cgetSlot, hx, hc]

/-- An arrival that is noted changes nothing but the list of them. -/
theorem State.noteArrival_eq (s : State) (n core b : Nat) (p : Bool) :
    s.noteArrival n core b p = { s with arrs := s.arrs ++ [(n, core, b, p)] } := rfl

end Sys2Proof.Machine
end

