-- ==== Sys2Proof/Laws/Encoding.lean ====
section
/-! SUPPORT. Small lemmas of the fields and operand codes of Decode. -/

namespace Sys2Proof

theorem gAt_eq {w lo : Nat} {r : GReg} (h : fld w lo 5 = r.val) : gAt w lo = r := Fin.ext h
theorem vAt_eq {w lo : Nat} {r : VReg} (h : fld w lo 4 = r.val) : vAt w lo = r := Fin.ext h
theorem mAt_eq {w lo : Nat} {r : Fin 8} (h : fld w lo 3 = r.val) : mAt w lo = r := Fin.ext h
theorem cAt_eq {w lo : Nat} {r : Chan} (h : fld w lo 2 = r.val) : cAt w lo = r := Fin.ext h

theorem ofNat_fld {w lo len n : Nat} {v : BitVec n} (h : fld w lo len = v.toNat) : BitVec.ofNat n (fld w lo len) = v := by
  rw [h]; exact BitVec.eq_of_toNat_eq (by simp)

theorem szOf_szCode (z : Sz) : szOf? (szCode z) = some z := by cases z <;> rfl
theorem wtOf_wtCode (z : Wt) : wtOf? (wtCode z) = some z := by cases z <;> rfl
theorem xwOf_xwCode (z : XWidth) : xwOf? (xwCode z) = some z := by cases z <;> rfl
theorem vtOf_vtCode (z : VType) : vtOf? (vtCode z) = some z := by cases z <;> rfl
theorem scopeOf_scopeCode (z : Scope) : scopeOf? (scopeCode z) = some z := by cases z <;> rfl
theorem wcondOf_wcondCode (z : WCond) : wcondOf? (wcondCode z) = some z := by cases z <;> rfl
theorem qmodeOf_qmodeCode (z : QMode) : qmodeOf? (qmodeCode z) = some z := by cases z <;> rfl
theorem boolOf_boolCode (z : Bool) : boolOf? (boolCode z) = some z := by cases z <;> rfl
theorem fin5Of_val (z : Fin 5) : fin5Of? z.val = some z := by revert z; decide
theorem fin3Of_val (z : Fin 3) : fin3Of? z.val = some z := by revert z; decide

theorem szCode_lt (z : Sz) : szCode z < 7 := by cases z <;> decide
theorem wtCode_lt (z : Wt) : wtCode z < 4 := by cases z <;> decide
theorem xwCode_lt (z : XWidth) : xwCode z < 3 := by cases z <;> decide
theorem vtCode_lt (z : VType) : vtCode z < 14 := by cases z <;> decide
theorem scopeCode_lt (z : Scope) : scopeCode z < 3 := by cases z <;> decide
theorem wcondCode_lt (z : WCond) : wcondCode z < 6 := by cases z <;> decide
theorem qmodeCode_lt (z : QMode) : qmodeCode z < 3 := by cases z <;> decide
theorem boolCode_lt (z : Bool) : boolCode z < 2 := by cases z <;> decide

/-- A field of the low bits of a word is that field of their number. -/
theorem fld_low {n y : Nat} (k : Nat) {lo len : Nat} (h : n % 2 ^ k = y) (hk : lo + len ≤ k) : fld n lo len = fld y lo len := by
  subst h
  unfold fld
  obtain ⟨j, rfl⟩ := Nat.le.dest hk
  rw [← Nat.mod_mul_right_div_self, ← Nat.mod_mul_right_div_self, ← Nat.pow_add, Nat.pow_add 2 (lo + len) j, Nat.mod_mul_right_mod]

/-- The fields of a word of format A of R23. -/
theorem fieldsA {n : Nat} (m d a b x : Nat)
    (hn : n = m * 2 ^ 26 + 2 ^ 21 * d + 2 ^ 16 * a + 2 ^ 11 * b + x) (hm : m < 64)
    (hd : d < 32) (ha : a < 32) (hb : b < 32) (hx : x < 2048) :
    fld n 26 6 = m ∧ n < 2 ^ 32 ∧ n % 2 ^ 11 = x ∧ fld n 21 5 = d ∧ fld n 16 5 = a ∧ fld n 11 5 = b := by
  refine ⟨?_, ?_, ?_, ?_, ?_, ?_⟩ <;> (try simp only [fld]) <;> omega

/-- The fields of a word of format I of R23. -/
theorem fieldsI {n : Nat} (m d a x : Nat)
    (hn : n = m * 2 ^ 26 + 2 ^ 21 * d + 2 ^ 16 * a + x) (hm : m < 64)
    (hd : d < 32) (ha : a < 32) (hx : x < 65536) :
    fld n 26 6 = m ∧ n < 2 ^ 32 ∧ n % 2 ^ 16 = x ∧ fld n 21 5 = d ∧ fld n 16 5 = a := by
  refine ⟨?_, ?_, ?_, ?_, ?_⟩ <;> (try simp only [fld]) <;> omega

/-- The fields of a word of format B of R23. -/
theorem fieldsB {n : Nat} (m s a b x : Nat)
    (hn : n = m * 2 ^ 26 + s * 2 ^ 23 + 2 ^ 18 * a + 2 ^ 13 * b + x) (hm : m < 64) (hs : s < 8)
    (ha : a < 32) (hb : b < 32) (hx : x < 8192) :
    fld n 26 6 = m ∧ n < 2 ^ 32 ∧ n % 2 ^ 13 = x ∧ fld n 23 3 = s ∧ fld n 18 5 = a ∧ fld n 13 5 = b := by
  refine ⟨?_, ?_, ?_, ?_, ?_, ?_⟩ <;> (try simp only [fld]) <;> omega

/-- The fields of a word of format V of R23. -/
theorem fieldsV {n : Nat} (m d a b k x : Nat)
    (hn : n = m * 2 ^ 26 + 2 ^ 22 * d + 2 ^ 18 * a + 2 ^ 14 * b + 2 ^ 11 * k + x) (hm : m < 64)
    (hd : d < 16) (ha : a < 16) (hb : b < 16) (hk : k < 8) (hx : x < 2048) :
    fld n 26 6 = m ∧ n < 2 ^ 32 ∧ n % 2 ^ 11 = x ∧ fld n 22 4 = d ∧ fld n 18 4 = a ∧ fld n 14 4 = b ∧ fld n 11 3 = k := by
  refine ⟨?_, ?_, ?_, ?_, ?_, ?_, ?_⟩ <;> (try simp only [fld]) <;> omega

/-- The fields of a word of format VM of R23. -/
theorem fieldsVM {n : Nat} (m d a i k x : Nat)
    (hn : n = m * 2 ^ 26 + 2 ^ 22 * d + 2 ^ 17 * a + 2 ^ 13 * i + 2 ^ 10 * k + x) (hm : m < 64)
    (hd : d < 16) (ha : a < 32) (hi : i < 16) (hk : k < 8) (hx : x < 1024) :
    fld n 26 6 = m ∧ n < 2 ^ 32 ∧ n % 2 ^ 10 = x ∧ fld n 22 4 = d ∧ fld n 17 5 = a ∧ fld n 13 4 = i ∧ fld n 10 3 = k := by
  refine ⟨?_, ?_, ?_, ?_, ?_, ?_, ?_⟩ <;> (try simp only [fld]) <;> omega

/-- The fields of a word of format E of R23. -/
theorem fieldsE {n : Nat} (m s a b d x : Nat)
    (hn : n = m * 2 ^ 26 + s * 2 ^ 18 + 2 ^ 13 * a + 2 ^ 8 * b + 2 ^ 3 * d + x) (hm : m < 64) (hs : s < 256)
    (ha : a < 32) (hb : b < 32) (hd : d < 32) (hx : x < 8) :
    fld n 26 6 = m ∧ n < 2 ^ 32 ∧ n % 2 ^ 3 = x ∧ fld n 18 8 = s ∧ fld n 13 5 = a ∧ fld n 8 5 = b ∧ fld n 3 5 = d := by
  refine ⟨?_, ?_, ?_, ?_, ?_, ?_, ?_⟩ <;> (try simp only [fld]) <;> omega

/-- The fields of a word of format C of R23. -/
theorem fieldsC {n : Nat} (m d a x : Nat)
    (hn : n = m * 2 ^ 26 + 2 ^ 21 * d + 2 ^ 16 * a + x) (hm : m < 64)
    (hd : d < 32) (ha : a < 32) (hx : x < 65536) :
    fld n 26 6 = m ∧ n < 2 ^ 32 ∧ n % 2 ^ 16 = x ∧ fld n 21 5 = d ∧ fld n 16 5 = a := by
  refine ⟨?_, ?_, ?_, ?_, ?_⟩ <;> (try simp only [fld]) <;> omega

/-- Decoding is the raw decoding where every rule on the operands holds. -/
theorem decodeNat_of_raw {n : Nat} {i : Instr} (hr : rawDecode n = .ok i) (hw : i.wf = true) : decodeNat n = .ok i := by
  obtain ⟨ht, hg⟩ : i.typesOk = true ∧ i.regsOk = true := by simpa [Instr.wf] using hw
  unfold decodeNat
  rw [hr]
  simp [ht, hg]

theorem decode_of_raw {n : Nat} {i : Instr} (hn : n < 2 ^ 32) (hr : rawDecode n = .ok i) (hw : i.wf = true) :
    decode (BitVec.ofNat 32 n) = .ok i := by
  unfold decode
  rw [BitVec.toNat_ofNat, Nat.mod_eq_of_lt hn]
  exact decodeNat_of_raw hr hw

/-- What is decoded obeys every rule on the operands. -/
theorem decodeNat_wf {n : Nat} {i : Instr} (h : decodeNat n = .ok i) : i.wf = true := by
  unfold decodeNat at h
  split at h
  · split at h
    · split at h
      · injection h with h; subst h; simp_all [Instr.wf]
      · cases h
    · cases h
  · cases h

end Sys2Proof
end

