-- ==== Sys2Proof/Laws/Ops.lean ====
section
/-! SUPPORT. For each shared operation, once, everything it can do: the frame of retiring, blocking and trapping. -/

namespace Sys2Proof.Machine

/-! ### The frame -/

theorem State.elsewhere.refl (s : State) : s.elsewhere s :=
  ⟨fun _ _ => rfl, fun _ => rfl, fun _ _ => rfl, rfl, fun _ => rfl, rfl⟩

theorem State.elsewhere.cur_eq {s s' : State} (h : s.elsewhere s') : s'.cur = s.cur := by
  have := congrArg State.cur h.rest; simpa using this

theorem State.elsewhere.trans {a b c : State} (h : a.elsewhere b) (h' : b.elsewhere c) : a.elsewhere c := by
  have hc := h.cur_eq
  refine ⟨fun tid ht => ?_, fun k => ?_, fun k hk => ?_, ?_, fun l => (h'.bytes l).trans (h.bytes l), ?_⟩
  · rw [h'.threads tid (hc ▸ ht), h.threads tid ht]
  · have e1 := h.cores k
    have e2 := h'.cores k
    rw [← e1, ← e2]
  · rw [h'.meters k (hc ▸ hk), h.meters k hk]
  · have e1 := h.arb
    have e2 := h'.arb
    rw [← e1, ← e2]
  · have e1 := h.rest
    have e2 := h'.rest
    rw [← e1, ← e2]

/-- Bytes are the same where the memories and what `readShare` looks at are. -/
theorem State.readLoc_congr {s s' : State} (hl : ∀ c, (s'.core c).lm = (s.core c).lm) (hp : s'.parts = s.parts)
    (hs : s'.shares = s.shares) (h0 : s'.hbm = s.hbm) (h1 : s'.far = s.far) (h2 : s'.host = s.host) (l : Loc) (n : Nat) :
    s'.readLoc l n = s.readLoc l n := by
  have hm : ∀ sp, s'.mem sp = s.mem sp := by
    intro sp; cases sp <;> simp [State.mem, hl, hs, h0, h1, h2]
  have hq : ∀ p, s'.part p = s.part p := fun p => by simp [State.part, hp]
  have hr : ∀ p, s'.placing p = s.placing p := fun p => by simp only [State.placing, hq]
  unfold State.readLoc
  cases hsp : l.space with
  | share p h => simp only [State.readShare, hq, hr, hm]
  | lm c => simp [hm]
  | phys k => simp [hm]

/-- Changing only the thread in `cur`. -/
theorem State.elsewhere_setThread (s : State) (t : Thread) : s.elsewhere (s.setThread s.cur t) := by
  refine ⟨fun tid h => State.thread_setThread_ne s t h, fun _ => rfl, fun _ _ => rfl, rfl, fun l => ?_, rfl⟩
  exact State.readLoc_congr (fun _ => rfl) rfl rfl rfl rfl rfl l 1

/-- Changing only meters of the core and the note of what retires on it. -/
theorem State.elsewhere_core (s : State) (f : Core → Core)
    (hf : ∀ c, { f c with meters := c.meters, retired := c.retired } = c) : s.elsewhere (s.modCore (coreOf s.cur) f) := by
  have hc : ∀ c, (s.modCore (coreOf s.cur) f).core c = if c = coreOf s.cur then f (s.core c) else s.core c := by
    intro c; by_cases h : c = coreOf s.cur
    · subst h; simp
    · simp [h, State.core_modCore_ne]
  refine ⟨fun _ _ => rfl, fun c => ?_, fun c h => ?_, rfl, fun l => ?_, rfl⟩
  · rw [hc]; split
    · exact hf _
    · rfl
  · rw [hc, if_neg h]
  · refine State.readLoc_congr (s := s) (s' := s.modCore (coreOf s.cur) f) (fun c => ?_) rfl rfl rfl rfl rfl l 1
    rw [hc]; split
    · have h := congrArg Core.lm (hf (s.core c)); exact h
    · rfl

/-- Changing only what the arbiter notes. -/
theorem State.elsewhere_arb (s : State) (f : Arbiter → Arbiter)
    (hf : ∀ a, { f a with hist := a.hist } = a) : s.elsewhere (s.modArb f) := by
  refine ⟨fun _ _ => rfl, fun _ => rfl, fun _ _ => rfl, hf _, fun l => ?_, rfl⟩
  exact State.readLoc_congr (fun _ => rfl) rfl rfl rfl rfl rfl l 1

/-! ### Charging and retiring (R341, R342) -/

theorem State.accrue_elsewhere (s : State) (o n : Nat) : s.elsewhere (s.accrue (coreOf s.cur) o n) := by
  unfold State.accrue
  split
  · split
    · refine State.elsewhere.trans ?_ (State.elsewhere_arb _ _ fun _ => rfl)
      exact State.elsewhere_core s _ fun _ => rfl
    · exact .refl s
  · exact .refl s

theorem State.accrue_threads (s : State) (k o n : Nat) : (s.accrue k o n).threads = s.threads := by
  unfold State.accrue; split
  · split <;> rfl
  · rfl

theorem State.accrue_cur (s : State) (k o n : Nat) : (s.accrue k o n).cur = s.cur := by
  unfold State.accrue; split
  · split <;> rfl
  · rfl

theorem State.charge_elsewhere (s : State) (o priv e n : Nat) : s.elsewhere (s.charge (coreOf s.cur) o priv e n) := by
  unfold State.charge; split
  · exact State.accrue_elsewhere s _ _
  · exact .refl s

theorem State.charge_threads (s : State) (k o priv e n : Nat) : (s.charge k o priv e n).threads = s.threads := by
  unfold State.charge; split
  · exact State.accrue_threads s _ _ _
  · rfl

theorem State.charge_cur (s : State) (k o priv e n : Nat) : (s.charge k o priv e n).cur = s.cur := by
  unfold State.charge; split
  · exact State.accrue_cur s _ _ _
  · rfl

/-- Noting a retirement for the check at the end of the cc. -/
theorem State.noteRetired_elsewhere (s : State) (o priv tid : Nat) : s.elsewhere (s.noteRetired (coreOf s.cur) o priv tid) := by
  unfold State.noteRetired; split
  · exact State.elsewhere_core s _ fun _ => rfl
  · exact .refl s

theorem State.noteRetired_threads (s : State) (k o priv tid : Nat) : (s.noteRetired k o priv tid).threads = s.threads := by
  unfold State.noteRetired; split <;> rfl

/-- A retirement of the thread in `cur`: the frame; no thread changes. -/
theorem State.retireN_elsewhere (s : State) (e n : Nat) : s.elsewhere (s.retireN s.cur e n) := by
  unfold State.retireN
  split
  · refine (State.charge_elsewhere s (‹Thread›).owner (‹Thread›).priv e n).trans ?_
    have := State.noteRetired_elsewhere (s.charge (coreOf s.cur) (‹Thread›).owner (‹Thread›).priv e n) (‹Thread›).owner (‹Thread›).priv
      s.cur
    rwa [State.charge_cur] at this
  · exact .refl s

theorem State.retireN_threads (s : State) (tid e n : Nat) : (s.retireN tid e n).threads = s.threads := by
  unfold State.retireN; split
  · rw [State.noteRetired_threads, State.charge_threads]
  · rfl

/-- What an instruction that retires leaves of its thread. -/
theorem Thread.issued_eq (t : Thread) (pc : Word) :
    ({ t.issued with pc := pc, block := .none, walkRes := none, noMig := false } : Thread) = t.retired pc := by
  unfold Thread.issued Thread.retired
  by_cases h : t.handling = .none <;> by_cases h' : t.block.isAwait = true <;> simp [h, h']

/-- Setting the thread and retiring it. -/
theorem State.setRetire (s : State) (u : Thread) (e : Nat) :
    s.elsewhere ((s.setThread s.cur u).retire s.cur e) ∧ ((s.setThread s.cur u).retire s.cur e).thread s.cur = some u := by
  refine ⟨(State.elsewhere_setThread s u).trans (State.retireN_elsewhere (s.setThread s.cur u) e 1), ?_⟩
  unfold State.retire
  rw [State.thread, State.retireN_threads]
  exact State.thread_setThread_same _ _ _

/-- `finish`: the thread retires as t at the next word. -/
theorem State.finish_answers (s : State) (t : Thread) (e : Nat) :
    answers (s.finish t e) fun s' => s.elsewhere s' ∧ s'.thread s.cur = some (t.retired (t.pc + 4)) := by
  refine ⟨_, rfl, ?_⟩
  rw [← Thread.issued_eq]
  exact State.setRetire s _ e

/-- `write`: the same with one register written. -/
theorem State.write_answers (s : State) (t : Thread) (d : GReg) (v : Word) (e : Nat) :
    answers (s.write t d v e) fun s' => s.elsewhere s' ∧ s'.thread s.cur = some ((t.wr d v).retired (t.pc + 4)) := by
  have h : (t.wr d v).pc = t.pc := by unfold Thread.wr; split <;> rfl
  have := State.finish_answers s (t.wr d v) e
  rwa [h] at this

/-- `jump`: the thread retires as t at the target. -/
theorem State.jump_answers (s : State) (t : Thread) (pc : Word) :
    answers (s.jump t pc) fun s' => s.elsewhere s' ∧ s'.thread s.cur = some (t.retired pc) := by
  refine ⟨_, rfl, ?_⟩
  rw [← Thread.issued_eq]
  exact State.setRetire s _ 0

/-- `wait`: the thread leaves rotation and nothing else changes. -/
theorem State.wait_eq (s : State) (t : Thread) (b : Block) :
    s.wait t b = .next (s.setThread s.cur
      { t with counted := if t.handling = .none ∨ t.block.isAwait = true then t.counted else t.counted + 1, block := b }) := by
  unfold State.wait Thread.issued
  by_cases h : t.handling = .none <;> by_cases h' : t.block.isAwait = true <;> simp [h, h']

/-- The meaning of a word runs on the thread of its slot. -/
theorem State.onThread_eq {s : State} {t : Thread} (h : s.thread s.cur = some t) (k : Thread → Out) : s.onThread k = k t := by
  unfold State.onThread; rw [h]

end Sys2Proof.Machine
end

