-- ==== Sys2Proof/Laws/Engines.lean ====
section
/-! SUPPORT. What the shared issue of an engine command answers: one lemma for each engine. -/

namespace Sys2Proof.Machine

@[simp] theorem State.addLocks_threads (s : State) (c o : Nat) (l : List Lock) : (s.addLocks c o l).threads = s.threads := rfl
@[simp] theorem State.addLocks_cur (s : State) (c o : Nat) (l : List Lock) : (s.addLocks c o l).cur = s.cur := rfl
@[simp] theorem State.addLocks_vq (s : State) (c o : Nat) (l : List Lock) : ((s.addLocks c o l).core c).vq = (s.core c).vq := by
  simp [State.addLocks]
@[simp] theorem State.addLocks_mq (s : State) (c o : Nat) (l : List Lock) : ((s.addLocks c o l).core c).mq = (s.core c).mq := by
  simp [State.addLocks]
@[simp] theorem State.addLocks_vctx (s : State) (c o : Nat) (l : List Lock) : ((s.addLocks c o l).core c).vctx = (s.core c).vctx := by
  simp [State.addLocks]
@[simp] theorem State.addLocks_tiles (s : State) (c o : Nat) (l : List Lock) : ((s.addLocks c o l).core c).tiles = (s.core c).tiles := by
  simp [State.addLocks]
@[simp] theorem State.addLocks_lm (s : State) (c o : Nat) (l : List Lock) : ((s.addLocks c o l).core c).lm = (s.core c).lm := by
  simp [State.addLocks]

@[simp] theorem State.core_setThread (s : State) (tid : Nat) (t : Thread) (c : Nat) : (s.setThread tid t).core c = s.core c := rfl
@[simp] theorem State.thread_nextUid (s : State) (i : Nat) : s.nextUid.thread i = s.thread i := rfl
@[simp] theorem State.core_nextUid (s : State) (c : Nat) : s.nextUid.core c = s.core c := rfl

/-- A vector form of a thread with a context whose range is in order enters its command, with room for it. -/
theorem State.vectorForm_answers {s : State} {t : Thread} {ins : Instr} {a y : GReg} {blocks : Bool} {r : Option (Bool × Nat × Nat)}
    (ht : s.thread s.cur = some t) (hc : holdsCtx (s.core (coreOf s.cur)) s.cur = true)
    (hq : (s.core (coreOf s.cur)).vq.length < 2) (hl : (s.core (coreOf s.cur)).lockCount < 32)
    (hv : s.vcheck t ((s.core (coreOf s.cur)).ctx s.cur) ins (t.rd a) (t.rd y) = .ok r) :
    ∃ s' c, s.vectorForm ins a y blocks = .next s' ∧ (s'.core (coreOf s.cur)).vq = (s.core (coreOf s.cur)).vq ++ [c] ∧
      c.ins = ins ∧ c.tid = s.cur ∧ c.owner = t.owner ∧ c.priv = t.priv ∧ c.uid = s.uid ∧ c.x = t.rd a ∧ c.y = t.rd y ∧
      c.vl = bits t.fp.vl 0 7 ∧ c.frm = t.fp.frm ∧ c.starter = t.fp.starter ∧ c.pos = 0 ∧ c.begun = false ∧ c.entered = s.cc ∧
      (s'.core (coreOf s.cur)).vctx = (s.core (coreOf s.cur)).vctx ∧ (s'.core (coreOf s.cur)).lm = (s.core (coreOf s.cur)).lm ∧
      s'.thread s.cur = some (if blocks then { t.issued with block := .vvalue } else t.retired (t.pc + 4)) := by
  rw [State.vectorForm, State.onThread_eq ht]
  simp only [hc, Bool.not_true, Bool.false_eq_true, if_false, hv, Core.vqUsed]
  rw [if_neg (by rcases r with _ | ⟨_, _, _⟩ <;> simp <;> omega)]
  cases blocks
  · simp only [Bool.false_eq_true, if_false]
    refine ⟨_, _, rfl, by rw [State.core_setThread, State.core_nextUid, State.core_modCore_same, State.addLocks_vq], ?_⟩
    simp [Thread.issued_eq]
  · simp only [if_true, State.wait]
    refine ⟨_, _, rfl, by rw [State.core_setThread, State.core_nextUid, State.core_modCore_same, State.addLocks_vq], ?_⟩
    simp

/-- A matrix command with room for it enters its queue, and its instruction retires. -/
theorem State.menter_answers {s : State} {t : Thread} {c : MCmd} {l : List Lock} (hq : (s.core (coreOf s.cur)).mqUsed s.cc < 2)
    (hl : (s.core (coreOf s.cur)).lockCount + lockEntries l ≤ 32) :
    ∃ s', s.menter t c l = .next s' ∧ (s'.core (coreOf s.cur)).mq = (s.core (coreOf s.cur)).mq ++ [{ c with entered := s.cc }] ∧
      (s'.core (coreOf s.cur)).tiles = (s.core (coreOf s.cur)).tiles ∧ (s'.core (coreOf s.cur)).lm = (s.core (coreOf s.cur)).lm ∧
      s'.thread s.cur = some (t.retired (t.pc + 4)) := by
  unfold State.menter
  rw [if_neg (by omega)]
  exact ⟨_, rfl, by simp, by simp, by simp, by simp [Thread.issued_eq]⟩

end Sys2Proof.Machine
end

