-- ==== Sys2Proof/Laws/PerInstr.lean ====
section
/-! SUPPORT. For each instruction: decoding the word that the encoder writes gives the instruction back, with every operand. -/

namespace Sys2Proof.Laws.Encoded

/-- Decoding every word of a well-formed instruction gives the instruction back; an event has no word. -/
def Statement (i : Instr) : Prop := i.wf = true → ∀ w ∈ encode i, decode w = .ok i

theorem none_encoded {i : Instr} (h : encode i = []) : Statement i := fun _ w hw => by rw [h] at hw; cases hw

theorem of_raw {i : Instr} {n : Nat} (he : encodeNat i = some n) (hn : n < 2 ^ 32) (hr : rawDecode n = .ok i) :
    Statement i := by
  intro hw w hm
  have hm' : w ∈ [BitVec.ofNat 32 n] := by
    have : encode i = [BitVec.ofNat 32 n] := by unfold encode; rw [he]
    rw [← this]; exact hm
  rw [List.mem_singleton.mp hm']
  exact decode_of_raw hn hr hw

theorem add (d : GReg) (a : GReg) (b : GReg) : Statement (.add d a b) := by
  generalize hN : encA 0x04000000 d.val a.val b.val 0 = N
  obtain ⟨h0, hlt, hlow, r0, r1, r2⟩ := fieldsA (n := N) 1 d.val a.val b.val (0x0)
    (by rw [← hN]; simp only [encA]; omega) (by decide) d.isLt a.isLt b.isLt (by decide)
  have h1 : fld N 5 6 = 0 := fld_low 11 hlow (by decide)
  have h2 : fld N 0 5 = 0 := fld_low 11 hlow (by decide)
  have q : decInt N = .ok (.add d a b) := by
    unfold decInt; rw [h1, h2, gAt_eq r0, gAt_eq r1, gAt_eq r2]; rfl
  exact of_raw (congrArg some hN) hlt (by unfold rawDecode; rw [h0]; exact q)

theorem sub (d : GReg) (a : GReg) (b : GReg) : Statement (.sub d a b) := by
  generalize hN : encA 0x04000020 d.val a.val b.val 0 = N
  obtain ⟨h0, hlt, hlow, r0, r1, r2⟩ := fieldsA (n := N) 1 d.val a.val b.val (0x20)
    (by rw [← hN]; simp only [encA]; omega) (by decide) d.isLt a.isLt b.isLt (by decide)
  have h1 : fld N 5 6 = 1 := fld_low 11 hlow (by decide)
  have h2 : fld N 0 5 = 0 := fld_low 11 hlow (by decide)
  have q : decInt N = .ok (.sub d a b) := by
    unfold decInt; rw [h1, h2, gAt_eq r0, gAt_eq r1, gAt_eq r2]; rfl
  exact of_raw (congrArg some hN) hlt (by unfold rawDecode; rw [h0]; exact q)

theorem mul (d : GReg) (a : GReg) (b : GReg) : Statement (.mul d a b) := by
  generalize hN : encA 0x04000040 d.val a.val b.val 0 = N
  obtain ⟨h0, hlt, hlow, r0, r1, r2⟩ := fieldsA (n := N) 1 d.val a.val b.val (0x40)
    (by rw [← hN]; simp only [encA]; omega) (by decide) d.isLt a.isLt b.isLt (by decide)
  have h1 : fld N 5 6 = 2 := fld_low 11 hlow (by decide)
  have h2 : fld N 0 5 = 0 := fld_low 11 hlow (by decide)
  have q : decInt N = .ok (.mul d a b) := by
    unfold decInt; rw [h1, h2, gAt_eq r0, gAt_eq r1, gAt_eq r2]; rfl
  exact of_raw (congrArg some hN) hlt (by unfold rawDecode; rw [h0]; exact q)

theorem mulh (d : GReg) (a : GReg) (b : GReg) : Statement (.mulh d a b) := by
  generalize hN : encA 0x04000060 d.val a.val b.val 0 = N
  obtain ⟨h0, hlt, hlow, r0, r1, r2⟩ := fieldsA (n := N) 1 d.val a.val b.val (0x60)
    (by rw [← hN]; simp only [encA]; omega) (by decide) d.isLt a.isLt b.isLt (by decide)
  have h1 : fld N 5 6 = 3 := fld_low 11 hlow (by decide)
  have h2 : fld N 0 5 = 0 := fld_low 11 hlow (by decide)
  have q : decInt N = .ok (.mulh d a b) := by
    unfold decInt; rw [h1, h2, gAt_eq r0, gAt_eq r1, gAt_eq r2]; rfl
  exact of_raw (congrArg some hN) hlt (by unfold rawDecode; rw [h0]; exact q)

theorem mulhn (d : GReg) (a : GReg) (b : GReg) : Statement (.mulhn d a b) := by
  generalize hN : encA 0x04000080 d.val a.val b.val 0 = N
  obtain ⟨h0, hlt, hlow, r0, r1, r2⟩ := fieldsA (n := N) 1 d.val a.val b.val (0x80)
    (by rw [← hN]; simp only [encA]; omega) (by decide) d.isLt a.isLt b.isLt (by decide)
  have h1 : fld N 5 6 = 4 := fld_low 11 hlow (by decide)
  have h2 : fld N 0 5 = 0 := fld_low 11 hlow (by decide)
  have q : decInt N = .ok (.mulhn d a b) := by
    unfold decInt; rw [h1, h2, gAt_eq r0, gAt_eq r1, gAt_eq r2]; rfl
  exact of_raw (congrArg some hN) hlt (by unfold rawDecode; rw [h0]; exact q)

theorem div (d : GReg) (a : GReg) (b : GReg) : Statement (.div d a b) := by
  generalize hN : encA 0x040000A0 d.val a.val b.val 0 = N
  obtain ⟨h0, hlt, hlow, r0, r1, r2⟩ := fieldsA (n := N) 1 d.val a.val b.val (0xA0)
    (by rw [← hN]; simp only [encA]; omega) (by decide) d.isLt a.isLt b.isLt (by decide)
  have h1 : fld N 5 6 = 5 := fld_low 11 hlow (by decide)
  have h2 : fld N 0 5 = 0 := fld_low 11 hlow (by decide)
  have q : decInt N = .ok (.div d a b) := by
    unfold decInt; rw [h1, h2, gAt_eq r0, gAt_eq r1, gAt_eq r2]; rfl
  exact of_raw (congrArg some hN) hlt (by unfold rawDecode; rw [h0]; exact q)

theorem divn (d : GReg) (a : GReg) (b : GReg) : Statement (.divn d a b) := by
  generalize hN : encA 0x040000C0 d.val a.val b.val 0 = N
  obtain ⟨h0, hlt, hlow, r0, r1, r2⟩ := fieldsA (n := N) 1 d.val a.val b.val (0xC0)
    (by rw [← hN]; simp only [encA]; omega) (by decide) d.isLt a.isLt b.isLt (by decide)
  have h1 : fld N 5 6 = 6 := fld_low 11 hlow (by decide)
  have h2 : fld N 0 5 = 0 := fld_low 11 hlow (by decide)
  have q : decInt N = .ok (.divn d a b) := by
    unfold decInt; rw [h1, h2, gAt_eq r0, gAt_eq r1, gAt_eq r2]; rfl
  exact of_raw (congrArg some hN) hlt (by unfold rawDecode; rw [h0]; exact q)

theorem rem (d : GReg) (a : GReg) (b : GReg) : Statement (.rem d a b) := by
  generalize hN : encA 0x040000E0 d.val a.val b.val 0 = N
  obtain ⟨h0, hlt, hlow, r0, r1, r2⟩ := fieldsA (n := N) 1 d.val a.val b.val (0xE0)
    (by rw [← hN]; simp only [encA]; omega) (by decide) d.isLt a.isLt b.isLt (by decide)
  have h1 : fld N 5 6 = 7 := fld_low 11 hlow (by decide)
  have h2 : fld N 0 5 = 0 := fld_low 11 hlow (by decide)
  have q : decInt N = .ok (.rem d a b) := by
    unfold decInt; rw [h1, h2, gAt_eq r0, gAt_eq r1, gAt_eq r2]; rfl
  exact of_raw (congrArg some hN) hlt (by unfold rawDecode; rw [h0]; exact q)

theorem remn (d : GReg) (a : GReg) (b : GReg) : Statement (.remn d a b) := by
  generalize hN : encA 0x04000100 d.val a.val b.val 0 = N
  obtain ⟨h0, hlt, hlow, r0, r1, r2⟩ := fieldsA (n := N) 1 d.val a.val b.val (0x100)
    (by rw [← hN]; simp only [encA]; omega) (by decide) d.isLt a.isLt b.isLt (by decide)
  have h1 : fld N 5 6 = 8 := fld_low 11 hlow (by decide)
  have h2 : fld N 0 5 = 0 := fld_low 11 hlow (by decide)
  have q : decInt N = .ok (.remn d a b) := by
    unfold decInt; rw [h1, h2, gAt_eq r0, gAt_eq r1, gAt_eq r2]; rfl
  exact of_raw (congrArg some hN) hlt (by unfold rawDecode; rw [h0]; exact q)

theorem and (d : GReg) (a : GReg) (b : GReg) : Statement (.and d a b) := by
  generalize hN : encA 0x04000120 d.val a.val b.val 0 = N
  obtain ⟨h0, hlt, hlow, r0, r1, r2⟩ := fieldsA (n := N) 1 d.val a.val b.val (0x120)
    (by rw [← hN]; simp only [encA]; omega) (by decide) d.isLt a.isLt b.isLt (by decide)
  have h1 : fld N 5 6 = 9 := fld_low 11 hlow (by decide)
  have h2 : fld N 0 5 = 0 := fld_low 11 hlow (by decide)
  have q : decInt N = .ok (.and d a b) := by
    unfold decInt; rw [h1, h2, gAt_eq r0, gAt_eq r1, gAt_eq r2]; rfl
  exact of_raw (congrArg some hN) hlt (by unfold rawDecode; rw [h0]; exact q)

theorem or (d : GReg) (a : GReg) (b : GReg) : Statement (.or d a b) := by
  generalize hN : encA 0x04000140 d.val a.val b.val 0 = N
  obtain ⟨h0, hlt, hlow, r0, r1, r2⟩ := fieldsA (n := N) 1 d.val a.val b.val (0x140)
    (by rw [← hN]; simp only [encA]; omega) (by decide) d.isLt a.isLt b.isLt (by decide)
  have h1 : fld N 5 6 = 10 := fld_low 11 hlow (by decide)
  have h2 : fld N 0 5 = 0 := fld_low 11 hlow (by decide)
  have q : decInt N = .ok (.or d a b) := by
    unfold decInt; rw [h1, h2, gAt_eq r0, gAt_eq r1, gAt_eq r2]; rfl
  exact of_raw (congrArg some hN) hlt (by unfold rawDecode; rw [h0]; exact q)

theorem xor (d : GReg) (a : GReg) (b : GReg) : Statement (.xor d a b) := by
  generalize hN : encA 0x04000160 d.val a.val b.val 0 = N
  obtain ⟨h0, hlt, hlow, r0, r1, r2⟩ := fieldsA (n := N) 1 d.val a.val b.val (0x160)
    (by rw [← hN]; simp only [encA]; omega) (by decide) d.isLt a.isLt b.isLt (by decide)
  have h1 : fld N 5 6 = 11 := fld_low 11 hlow (by decide)
  have h2 : fld N 0 5 = 0 := fld_low 11 hlow (by decide)
  have q : decInt N = .ok (.xor d a b) := by
    unfold decInt; rw [h1, h2, gAt_eq r0, gAt_eq r1, gAt_eq r2]; rfl
  exact of_raw (congrArg some hN) hlt (by unfold rawDecode; rw [h0]; exact q)

theorem andn (d : GReg) (a : GReg) (b : GReg) : Statement (.andn d a b) := by
  generalize hN : encA 0x04000180 d.val a.val b.val 0 = N
  obtain ⟨h0, hlt, hlow, r0, r1, r2⟩ := fieldsA (n := N) 1 d.val a.val b.val (0x180)
    (by rw [← hN]; simp only [encA]; omega) (by decide) d.isLt a.isLt b.isLt (by decide)
  have h1 : fld N 5 6 = 12 := fld_low 11 hlow (by decide)
  have h2 : fld N 0 5 = 0 := fld_low 11 hlow (by decide)
  have q : decInt N = .ok (.andn d a b) := by
    unfold decInt; rw [h1, h2, gAt_eq r0, gAt_eq r1, gAt_eq r2]; rfl
  exact of_raw (congrArg some hN) hlt (by unfold rawDecode; rw [h0]; exact q)

theorem orn (d : GReg) (a : GReg) (b : GReg) : Statement (.orn d a b) := by
  generalize hN : encA 0x040001A0 d.val a.val b.val 0 = N
  obtain ⟨h0, hlt, hlow, r0, r1, r2⟩ := fieldsA (n := N) 1 d.val a.val b.val (0x1A0)
    (by rw [← hN]; simp only [encA]; omega) (by decide) d.isLt a.isLt b.isLt (by decide)
  have h1 : fld N 5 6 = 13 := fld_low 11 hlow (by decide)
  have h2 : fld N 0 5 = 0 := fld_low 11 hlow (by decide)
  have q : decInt N = .ok (.orn d a b) := by
    unfold decInt; rw [h1, h2, gAt_eq r0, gAt_eq r1, gAt_eq r2]; rfl
  exact of_raw (congrArg some hN) hlt (by unfold rawDecode; rw [h0]; exact q)

theorem sll (d : GReg) (a : GReg) (b : GReg) : Statement (.sll d a b) := by
  generalize hN : encA 0x040001C0 d.val a.val b.val 0 = N
  obtain ⟨h0, hlt, hlow, r0, r1, r2⟩ := fieldsA (n := N) 1 d.val a.val b.val (0x1C0)
    (by rw [← hN]; simp only [encA]; omega) (by decide) d.isLt a.isLt b.isLt (by decide)
  have h1 : fld N 5 6 = 14 := fld_low 11 hlow (by decide)
  have h2 : fld N 0 5 = 0 := fld_low 11 hlow (by decide)
  have q : decInt N = .ok (.sll d a b) := by
    unfold decInt; rw [h1, h2, gAt_eq r0, gAt_eq r1, gAt_eq r2]; rfl
  exact of_raw (congrArg some hN) hlt (by unfold rawDecode; rw [h0]; exact q)

theorem srl (d : GReg) (a : GReg) (b : GReg) : Statement (.srl d a b) := by
  generalize hN : encA 0x040001E0 d.val a.val b.val 0 = N
  obtain ⟨h0, hlt, hlow, r0, r1, r2⟩ := fieldsA (n := N) 1 d.val a.val b.val (0x1E0)
    (by rw [← hN]; simp only [encA]; omega) (by decide) d.isLt a.isLt b.isLt (by decide)
  have h1 : fld N 5 6 = 15 := fld_low 11 hlow (by decide)
  have h2 : fld N 0 5 = 0 := fld_low 11 hlow (by decide)
  have q : decInt N = .ok (.srl d a b) := by
    unfold decInt; rw [h1, h2, gAt_eq r0, gAt_eq r1, gAt_eq r2]; rfl
  exact of_raw (congrArg some hN) hlt (by unfold rawDecode; rw [h0]; exact q)

theorem sra (d : GReg) (a : GReg) (b : GReg) : Statement (.sra d a b) := by
  generalize hN : encA 0x04000200 d.val a.val b.val 0 = N
  obtain ⟨h0, hlt, hlow, r0, r1, r2⟩ := fieldsA (n := N) 1 d.val a.val b.val (0x200)
    (by rw [← hN]; simp only [encA]; omega) (by decide) d.isLt a.isLt b.isLt (by decide)
  have h1 : fld N 5 6 = 16 := fld_low 11 hlow (by decide)
  have h2 : fld N 0 5 = 0 := fld_low 11 hlow (by decide)
  have q : decInt N = .ok (.sra d a b) := by
    unfold decInt; rw [h1, h2, gAt_eq r0, gAt_eq r1, gAt_eq r2]; rfl
  exact of_raw (congrArg some hN) hlt (by unfold rawDecode; rw [h0]; exact q)

theorem rol (d : GReg) (a : GReg) (b : GReg) : Statement (.rol d a b) := by
  generalize hN : encA 0x04000220 d.val a.val b.val 0 = N
  obtain ⟨h0, hlt, hlow, r0, r1, r2⟩ := fieldsA (n := N) 1 d.val a.val b.val (0x220)
    (by rw [← hN]; simp only [encA]; omega) (by decide) d.isLt a.isLt b.isLt (by decide)
  have h1 : fld N 5 6 = 17 := fld_low 11 hlow (by decide)
  have h2 : fld N 0 5 = 0 := fld_low 11 hlow (by decide)
  have q : decInt N = .ok (.rol d a b) := by
    unfold decInt; rw [h1, h2, gAt_eq r0, gAt_eq r1, gAt_eq r2]; rfl
  exact of_raw (congrArg some hN) hlt (by unfold rawDecode; rw [h0]; exact q)

theorem ror (d : GReg) (a : GReg) (b : GReg) : Statement (.ror d a b) := by
  generalize hN : encA 0x04000240 d.val a.val b.val 0 = N
  obtain ⟨h0, hlt, hlow, r0, r1, r2⟩ := fieldsA (n := N) 1 d.val a.val b.val (0x240)
    (by rw [← hN]; simp only [encA]; omega) (by decide) d.isLt a.isLt b.isLt (by decide)
  have h1 : fld N 5 6 = 18 := fld_low 11 hlow (by decide)
  have h2 : fld N 0 5 = 0 := fld_low 11 hlow (by decide)
  have q : decInt N = .ok (.ror d a b) := by
    unfold decInt; rw [h1, h2, gAt_eq r0, gAt_eq r1, gAt_eq r2]; rfl
  exact of_raw (congrArg some hN) hlt (by unfold rawDecode; rw [h0]; exact q)

theorem slt (d : GReg) (a : GReg) (b : GReg) : Statement (.slt d a b) := by
  generalize hN : encA 0x04000260 d.val a.val b.val 0 = N
  obtain ⟨h0, hlt, hlow, r0, r1, r2⟩ := fieldsA (n := N) 1 d.val a.val b.val (0x260)
    (by rw [← hN]; simp only [encA]; omega) (by decide) d.isLt a.isLt b.isLt (by decide)
  have h1 : fld N 5 6 = 19 := fld_low 11 hlow (by decide)
  have h2 : fld N 0 5 = 0 := fld_low 11 hlow (by decide)
  have q : decInt N = .ok (.slt d a b) := by
    unfold decInt; rw [h1, h2, gAt_eq r0, gAt_eq r1, gAt_eq r2]; rfl
  exact of_raw (congrArg some hN) hlt (by unfold rawDecode; rw [h0]; exact q)

theorem sltn (d : GReg) (a : GReg) (b : GReg) : Statement (.sltn d a b) := by
  generalize hN : encA 0x04000280 d.val a.val b.val 0 = N
  obtain ⟨h0, hlt, hlow, r0, r1, r2⟩ := fieldsA (n := N) 1 d.val a.val b.val (0x280)
    (by rw [← hN]; simp only [encA]; omega) (by decide) d.isLt a.isLt b.isLt (by decide)
  have h1 : fld N 5 6 = 20 := fld_low 11 hlow (by decide)
  have h2 : fld N 0 5 = 0 := fld_low 11 hlow (by decide)
  have q : decInt N = .ok (.sltn d a b) := by
    unfold decInt; rw [h1, h2, gAt_eq r0, gAt_eq r1, gAt_eq r2]; rfl
  exact of_raw (congrArg some hN) hlt (by unfold rawDecode; rw [h0]; exact q)

theorem seq (d : GReg) (a : GReg) (b : GReg) : Statement (.seq d a b) := by
  generalize hN : encA 0x040002A0 d.val a.val b.val 0 = N
  obtain ⟨h0, hlt, hlow, r0, r1, r2⟩ := fieldsA (n := N) 1 d.val a.val b.val (0x2A0)
    (by rw [← hN]; simp only [encA]; omega) (by decide) d.isLt a.isLt b.isLt (by decide)
  have h1 : fld N 5 6 = 21 := fld_low 11 hlow (by decide)
  have h2 : fld N 0 5 = 0 := fld_low 11 hlow (by decide)
  have q : decInt N = .ok (.seq d a b) := by
    unfold decInt; rw [h1, h2, gAt_eq r0, gAt_eq r1, gAt_eq r2]; rfl
  exact of_raw (congrArg some hN) hlt (by unfold rawDecode; rw [h0]; exact q)

theorem sne (d : GReg) (a : GReg) (b : GReg) : Statement (.sne d a b) := by
  generalize hN : encA 0x040002C0 d.val a.val b.val 0 = N
  obtain ⟨h0, hlt, hlow, r0, r1, r2⟩ := fieldsA (n := N) 1 d.val a.val b.val (0x2C0)
    (by rw [← hN]; simp only [encA]; omega) (by decide) d.isLt a.isLt b.isLt (by decide)
  have h1 : fld N 5 6 = 22 := fld_low 11 hlow (by decide)
  have h2 : fld N 0 5 = 0 := fld_low 11 hlow (by decide)
  have q : decInt N = .ok (.sne d a b) := by
    unfold decInt; rw [h1, h2, gAt_eq r0, gAt_eq r1, gAt_eq r2]; rfl
  exact of_raw (congrArg some hN) hlt (by unfold rawDecode; rw [h0]; exact q)

theorem min (d : GReg) (a : GReg) (b : GReg) : Statement (.min d a b) := by
  generalize hN : encA 0x040002E0 d.val a.val b.val 0 = N
  obtain ⟨h0, hlt, hlow, r0, r1, r2⟩ := fieldsA (n := N) 1 d.val a.val b.val (0x2E0)
    (by rw [← hN]; simp only [encA]; omega) (by decide) d.isLt a.isLt b.isLt (by decide)
  have h1 : fld N 5 6 = 23 := fld_low 11 hlow (by decide)
  have h2 : fld N 0 5 = 0 := fld_low 11 hlow (by decide)
  have q : decInt N = .ok (.min d a b) := by
    unfold decInt; rw [h1, h2, gAt_eq r0, gAt_eq r1, gAt_eq r2]; rfl
  exact of_raw (congrArg some hN) hlt (by unfold rawDecode; rw [h0]; exact q)

theorem max (d : GReg) (a : GReg) (b : GReg) : Statement (.max d a b) := by
  generalize hN : encA 0x04000300 d.val a.val b.val 0 = N
  obtain ⟨h0, hlt, hlow, r0, r1, r2⟩ := fieldsA (n := N) 1 d.val a.val b.val (0x300)
    (by rw [← hN]; simp only [encA]; omega) (by decide) d.isLt a.isLt b.isLt (by decide)
  have h1 : fld N 5 6 = 24 := fld_low 11 hlow (by decide)
  have h2 : fld N 0 5 = 0 := fld_low 11 hlow (by decide)
  have q : decInt N = .ok (.max d a b) := by
    unfold decInt; rw [h1, h2, gAt_eq r0, gAt_eq r1, gAt_eq r2]; rfl
  exact of_raw (congrArg some hN) hlt (by unfold rawDecode; rw [h0]; exact q)

theorem minn (d : GReg) (a : GReg) (b : GReg) : Statement (.minn d a b) := by
  generalize hN : encA 0x04000320 d.val a.val b.val 0 = N
  obtain ⟨h0, hlt, hlow, r0, r1, r2⟩ := fieldsA (n := N) 1 d.val a.val b.val (0x320)
    (by rw [← hN]; simp only [encA]; omega) (by decide) d.isLt a.isLt b.isLt (by decide)
  have h1 : fld N 5 6 = 25 := fld_low 11 hlow (by decide)
  have h2 : fld N 0 5 = 0 := fld_low 11 hlow (by decide)
  have q : decInt N = .ok (.minn d a b) := by
    unfold decInt; rw [h1, h2, gAt_eq r0, gAt_eq r1, gAt_eq r2]; rfl
  exact of_raw (congrArg some hN) hlt (by unfold rawDecode; rw [h0]; exact q)

theorem maxn (d : GReg) (a : GReg) (b : GReg) : Statement (.maxn d a b) := by
  generalize hN : encA 0x04000340 d.val a.val b.val 0 = N
  obtain ⟨h0, hlt, hlow, r0, r1, r2⟩ := fieldsA (n := N) 1 d.val a.val b.val (0x340)
    (by rw [← hN]; simp only [encA]; omega) (by decide) d.isLt a.isLt b.isLt (by decide)
  have h1 : fld N 5 6 = 26 := fld_low 11 hlow (by decide)
  have h2 : fld N 0 5 = 0 := fld_low 11 hlow (by decide)
  have q : decInt N = .ok (.maxn d a b) := by
    unfold decInt; rw [h1, h2, gAt_eq r0, gAt_eq r1, gAt_eq r2]; rfl
  exact of_raw (congrArg some hN) hlt (by unfold rawDecode; rw [h0]; exact q)

theorem clz (d : GReg) (a : GReg) : Statement (.clz d a) := by
  generalize hN : encA 0x04000360 d.val a.val 0 0 = N
  obtain ⟨h0, hlt, hlow, r0, r1, r2⟩ := fieldsA (n := N) 1 d.val a.val 0 (0x360)
    (by rw [← hN]; simp only [encA]; omega) (by decide) d.isLt a.isLt (by decide) (by decide)
  have h1 : fld N 5 6 = 27 := fld_low 11 hlow (by decide)
  have h2 : fld N 0 5 = 0 := fld_low 11 hlow (by decide)
  have q : decInt N = .ok (.clz d a) := by
    unfold decInt; rw [h1, h2, r2, gAt_eq r0, gAt_eq r1]; rfl
  exact of_raw (congrArg some hN) hlt (by unfold rawDecode; rw [h0]; exact q)

theorem ctz (d : GReg) (a : GReg) : Statement (.ctz d a) := by
  generalize hN : encA 0x04000380 d.val a.val 0 0 = N
  obtain ⟨h0, hlt, hlow, r0, r1, r2⟩ := fieldsA (n := N) 1 d.val a.val 0 (0x380)
    (by rw [← hN]; simp only [encA]; omega) (by decide) d.isLt a.isLt (by decide) (by decide)
  have h1 : fld N 5 6 = 28 := fld_low 11 hlow (by decide)
  have h2 : fld N 0 5 = 0 := fld_low 11 hlow (by decide)
  have q : decInt N = .ok (.ctz d a) := by
    unfold decInt; rw [h1, h2, r2, gAt_eq r0, gAt_eq r1]; rfl
  exact of_raw (congrArg some hN) hlt (by unfold rawDecode; rw [h0]; exact q)

theorem pop (d : GReg) (a : GReg) : Statement (.pop d a) := by
  generalize hN : encA 0x040003A0 d.val a.val 0 0 = N
  obtain ⟨h0, hlt, hlow, r0, r1, r2⟩ := fieldsA (n := N) 1 d.val a.val 0 (0x3A0)
    (by rw [← hN]; simp only [encA]; omega) (by decide) d.isLt a.isLt (by decide) (by decide)
  have h1 : fld N 5 6 = 29 := fld_low 11 hlow (by decide)
  have h2 : fld N 0 5 = 0 := fld_low 11 hlow (by decide)
  have q : decInt N = .ok (.pop d a) := by
    unfold decInt; rw [h1, h2, r2, gAt_eq r0, gAt_eq r1]; rfl
  exact of_raw (congrArg some hN) hlt (by unfold rawDecode; rw [h0]; exact q)

theorem bswap (d : GReg) (a : GReg) : Statement (.bswap d a) := by
  generalize hN : encA 0x040003C0 d.val a.val 0 0 = N
  obtain ⟨h0, hlt, hlow, r0, r1, r2⟩ := fieldsA (n := N) 1 d.val a.val 0 (0x3C0)
    (by rw [← hN]; simp only [encA]; omega) (by decide) d.isLt a.isLt (by decide) (by decide)
  have h1 : fld N 5 6 = 30 := fld_low 11 hlow (by decide)
  have h2 : fld N 0 5 = 0 := fld_low 11 hlow (by decide)
  have q : decInt N = .ok (.bswap d a) := by
    unfold decInt; rw [h1, h2, r2, gAt_eq r0, gAt_eq r1]; rfl
  exact of_raw (congrArg some hN) hlt (by unfold rawDecode; rw [h0]; exact q)

theorem brev (d : GReg) (a : GReg) : Statement (.brev d a) := by
  generalize hN : encA 0x040003E0 d.val a.val 0 0 = N
  obtain ⟨h0, hlt, hlow, r0, r1, r2⟩ := fieldsA (n := N) 1 d.val a.val 0 (0x3E0)
    (by rw [← hN]; simp only [encA]; omega) (by decide) d.isLt a.isLt (by decide) (by decide)
  have h1 : fld N 5 6 = 31 := fld_low 11 hlow (by decide)
  have h2 : fld N 0 5 = 0 := fld_low 11 hlow (by decide)
  have q : decInt N = .ok (.brev d a) := by
    unfold decInt; rw [h1, h2, r2, gAt_eq r0, gAt_eq r1]; rfl
  exact of_raw (congrArg some hN) hlt (by unfold rawDecode; rw [h0]; exact q)

theorem sext (d : GReg) (a : GReg) (w : XWidth) : Statement (.sext d a w) := by
  generalize hN : encA 0x04000400 d.val a.val 0 (xwCode w) = N
  obtain ⟨h0, hlt, hlow, r0, r1, r2⟩ := fieldsA (n := N) 1 d.val a.val 0 (0x400 + (xwCode w))
    (by rw [← hN]; simp only [encA]; omega) (by decide) d.isLt a.isLt (by decide) (by have := xwCode_lt w; omega)
  have h1 : fld N 5 6 = 32 := by rw [fld_low 11 hlow (by decide)]; simp only [fld]; have := xwCode_lt w; omega
  have h2 : fld N 2 3 = 0 := by rw [fld_low 11 hlow (by decide)]; simp only [fld]; have := xwCode_lt w; omega
  have h3 : fld N 0 2 = xwCode w := by rw [fld_low 11 hlow (by decide)]; simp only [fld]; have := xwCode_lt w; omega
  have q : decInt N = .ok (.sext d a w) := by
    unfold decInt; rw [h1, h2, r2, h3, xwOf_xwCode, gAt_eq r0, gAt_eq r1]; rfl
  exact of_raw (congrArg some hN) hlt (by unfold rawDecode; rw [h0]; exact q)

theorem zext (d : GReg) (a : GReg) (w : XWidth) : Statement (.zext d a w) := by
  generalize hN : encA 0x04000420 d.val a.val 0 (xwCode w) = N
  obtain ⟨h0, hlt, hlow, r0, r1, r2⟩ := fieldsA (n := N) 1 d.val a.val 0 (0x420 + (xwCode w))
    (by rw [← hN]; simp only [encA]; omega) (by decide) d.isLt a.isLt (by decide) (by have := xwCode_lt w; omega)
  have h1 : fld N 5 6 = 33 := by rw [fld_low 11 hlow (by decide)]; simp only [fld]; have := xwCode_lt w; omega
  have h2 : fld N 2 3 = 0 := by rw [fld_low 11 hlow (by decide)]; simp only [fld]; have := xwCode_lt w; omega
  have h3 : fld N 0 2 = xwCode w := by rw [fld_low 11 hlow (by decide)]; simp only [fld]; have := xwCode_lt w; omega
  have q : decInt N = .ok (.zext d a w) := by
    unfold decInt; rw [h1, h2, r2, h3, xwOf_xwCode, gAt_eq r0, gAt_eq r1]; rfl
  exact of_raw (congrArg some hN) hlt (by unfold rawDecode; rw [h0]; exact q)

theorem sel (d : GReg) (a : GReg) (b : GReg) : Statement (.sel d a b) := by
  generalize hN : encA 0x04000440 d.val a.val b.val 0 = N
  obtain ⟨h0, hlt, hlow, r0, r1, r2⟩ := fieldsA (n := N) 1 d.val a.val b.val (0x440)
    (by rw [← hN]; simp only [encA]; omega) (by decide) d.isLt a.isLt b.isLt (by decide)
  have h1 : fld N 5 6 = 34 := fld_low 11 hlow (by decide)
  have h2 : fld N 0 5 = 0 := fld_low 11 hlow (by decide)
  have q : decInt N = .ok (.sel d a b) := by
    unfold decInt; rw [h1, h2, gAt_eq r0, gAt_eq r1, gAt_eq r2]; rfl
  exact of_raw (congrArg some hN) hlt (by unfold rawDecode; rw [h0]; exact q)

theorem bfx (d : GReg) (a : GReg) (b : GReg) : Statement (.bfx d a b) := by
  generalize hN : encA 0x04000460 d.val a.val b.val 0 = N
  obtain ⟨h0, hlt, hlow, r0, r1, r2⟩ := fieldsA (n := N) 1 d.val a.val b.val (0x460)
    (by rw [← hN]; simp only [encA]; omega) (by decide) d.isLt a.isLt b.isLt (by decide)
  have h1 : fld N 5 6 = 35 := fld_low 11 hlow (by decide)
  have h2 : fld N 0 5 = 0 := fld_low 11 hlow (by decide)
  have q : decInt N = .ok (.bfx d a b) := by
    unfold decInt; rw [h1, h2, gAt_eq r0, gAt_eq r1, gAt_eq r2]; rfl
  exact of_raw (congrArg some hN) hlt (by unfold rawDecode; rw [h0]; exact q)

theorem bfi (d : GReg) (a : GReg) (b : GReg) : Statement (.bfi d a b) := by
  generalize hN : encA 0x04000480 d.val a.val b.val 0 = N
  obtain ⟨h0, hlt, hlow, r0, r1, r2⟩ := fieldsA (n := N) 1 d.val a.val b.val (0x480)
    (by rw [← hN]; simp only [encA]; omega) (by decide) d.isLt a.isLt b.isLt (by decide)
  have h1 : fld N 5 6 = 36 := fld_low 11 hlow (by decide)
  have h2 : fld N 0 5 = 0 := fld_low 11 hlow (by decide)
  have q : decInt N = .ok (.bfi d a b) := by
    unfold decInt; rw [h1, h2, gAt_eq r0, gAt_eq r1, gAt_eq r2]; rfl
  exact of_raw (congrArg some hN) hlt (by unfold rawDecode; rw [h0]; exact q)

theorem addi (d : GReg) (a : GReg) (i : BitVec 16) : Statement (.addi d a i) := by
  generalize hN : encI 0x08000000 d.val a.val i.toNat = N
  obtain ⟨h0, hlt, hlow, r0, r1⟩ := fieldsI (n := N) 2 d.val a.val (i.toNat)
    (by rw [← hN]; simp only [encI]; omega) (by decide) d.isLt a.isLt (by have := i.isLt; omega)
  have h1 : fld N 0 16 = i.toNat := by rw [fld_low 16 hlow (by decide)]; simp only [fld]; have := i.isLt; omega
  have q : decAddi N = .ok (.addi d a i) := by
    unfold decAddi; rw [gAt_eq r0, gAt_eq r1, ofNat_fld h1]
  exact of_raw (congrArg some hN) hlt (by unfold rawDecode; rw [h0]; exact q)

theorem andi (d : GReg) (a : GReg) (i : BitVec 16) : Statement (.andi d a i) := by
  generalize hN : encI 0x0C000000 d.val a.val i.toNat = N
  obtain ⟨h0, hlt, hlow, r0, r1⟩ := fieldsI (n := N) 3 d.val a.val (i.toNat)
    (by rw [← hN]; simp only [encI]; omega) (by decide) d.isLt a.isLt (by have := i.isLt; omega)
  have h1 : fld N 0 16 = i.toNat := by rw [fld_low 16 hlow (by decide)]; simp only [fld]; have := i.isLt; omega
  have q : decAndi N = .ok (.andi d a i) := by
    unfold decAndi; rw [gAt_eq r0, gAt_eq r1, ofNat_fld h1]
  exact of_raw (congrArg some hN) hlt (by unfold rawDecode; rw [h0]; exact q)

theorem ori (d : GReg) (a : GReg) (i : BitVec 16) : Statement (.ori d a i) := by
  generalize hN : encI 0x10000000 d.val a.val i.toNat = N
  obtain ⟨h0, hlt, hlow, r0, r1⟩ := fieldsI (n := N) 4 d.val a.val (i.toNat)
    (by rw [← hN]; simp only [encI]; omega) (by decide) d.isLt a.isLt (by have := i.isLt; omega)
  have h1 : fld N 0 16 = i.toNat := by rw [fld_low 16 hlow (by decide)]; simp only [fld]; have := i.isLt; omega
  have q : decOri N = .ok (.ori d a i) := by
    unfold decOri; rw [gAt_eq r0, gAt_eq r1, ofNat_fld h1]
  exact of_raw (congrArg some hN) hlt (by unfold rawDecode; rw [h0]; exact q)

theorem xori (d : GReg) (a : GReg) (i : BitVec 16) : Statement (.xori d a i) := by
  generalize hN : encI 0x14000000 d.val a.val i.toNat = N
  obtain ⟨h0, hlt, hlow, r0, r1⟩ := fieldsI (n := N) 5 d.val a.val (i.toNat)
    (by rw [← hN]; simp only [encI]; omega) (by decide) d.isLt a.isLt (by have := i.isLt; omega)
  have h1 : fld N 0 16 = i.toNat := by rw [fld_low 16 hlow (by decide)]; simp only [fld]; have := i.isLt; omega
  have q : decXori N = .ok (.xori d a i) := by
    unfold decXori; rw [gAt_eq r0, gAt_eq r1, ofNat_fld h1]
  exact of_raw (congrArg some hN) hlt (by unfold rawDecode; rw [h0]; exact q)

theorem shiSll (d : GReg) (a : GReg) (n : BitVec 6) : Statement (.shiSll d a n) := by
  generalize hN : encI 0x18000000 d.val a.val n.toNat = N
  obtain ⟨h0, hlt, hlow, r0, r1⟩ := fieldsI (n := N) 6 d.val a.val (n.toNat)
    (by rw [← hN]; simp only [encI]; omega) (by decide) d.isLt a.isLt (by have := n.isLt; omega)
  have h1 : fld N 8 3 = 0 := by rw [fld_low 16 hlow (by decide)]; simp only [fld]; have := n.isLt; omega
  have h2 : fld N 6 2 = 0 := by rw [fld_low 16 hlow (by decide)]; simp only [fld]; have := n.isLt; omega
  have h3 : fld N 11 5 = 0 := by rw [fld_low 16 hlow (by decide)]; simp only [fld]; have := n.isLt; omega
  have h4 : fld N 0 6 = n.toNat := by rw [fld_low 16 hlow (by decide)]; simp only [fld]; have := n.isLt; omega
  have q : decShi N = .ok (.shiSll d a n) := by
    unfold decShi; rw [h1, h2, h3, gAt_eq r0, gAt_eq r1, ofNat_fld h4]; rfl
  exact of_raw (congrArg some hN) hlt (by unfold rawDecode; rw [h0]; exact q)

theorem shiSrl (d : GReg) (a : GReg) (n : BitVec 6) : Statement (.shiSrl d a n) := by
  generalize hN : encI 0x18000100 d.val a.val n.toNat = N
  obtain ⟨h0, hlt, hlow, r0, r1⟩ := fieldsI (n := N) 6 d.val a.val (0x100 + n.toNat)
    (by rw [← hN]; simp only [encI]; omega) (by decide) d.isLt a.isLt (by have := n.isLt; omega)
  have h1 : fld N 8 3 = 1 := by rw [fld_low 16 hlow (by decide)]; simp only [fld]; have := n.isLt; omega
  have h2 : fld N 6 2 = 0 := by rw [fld_low 16 hlow (by decide)]; simp only [fld]; have := n.isLt; omega
  have h3 : fld N 11 5 = 0 := by rw [fld_low 16 hlow (by decide)]; simp only [fld]; have := n.isLt; omega
  have h4 : fld N 0 6 = n.toNat := by rw [fld_low 16 hlow (by decide)]; simp only [fld]; have := n.isLt; omega
  have q : decShi N = .ok (.shiSrl d a n) := by
    unfold decShi; rw [h1, h2, h3, gAt_eq r0, gAt_eq r1, ofNat_fld h4]; rfl
  exact of_raw (congrArg some hN) hlt (by unfold rawDecode; rw [h0]; exact q)

theorem shiSra (d : GReg) (a : GReg) (n : BitVec 6) : Statement (.shiSra d a n) := by
  generalize hN : encI 0x18000200 d.val a.val n.toNat = N
  obtain ⟨h0, hlt, hlow, r0, r1⟩ := fieldsI (n := N) 6 d.val a.val (0x200 + n.toNat)
    (by rw [← hN]; simp only [encI]; omega) (by decide) d.isLt a.isLt (by have := n.isLt; omega)
  have h1 : fld N 8 3 = 2 := by rw [fld_low 16 hlow (by decide)]; simp only [fld]; have := n.isLt; omega
  have h2 : fld N 6 2 = 0 := by rw [fld_low 16 hlow (by decide)]; simp only [fld]; have := n.isLt; omega
  have h3 : fld N 11 5 = 0 := by rw [fld_low 16 hlow (by decide)]; simp only [fld]; have := n.isLt; omega
  have h4 : fld N 0 6 = n.toNat := by rw [fld_low 16 hlow (by decide)]; simp only [fld]; have := n.isLt; omega
  have q : decShi N = .ok (.shiSra d a n) := by
    unfold decShi; rw [h1, h2, h3, gAt_eq r0, gAt_eq r1, ofNat_fld h4]; rfl
  exact of_raw (congrArg some hN) hlt (by unfold rawDecode; rw [h0]; exact q)

theorem shiRol (d : GReg) (a : GReg) (n : BitVec 6) : Statement (.shiRol d a n) := by
  generalize hN : encI 0x18000300 d.val a.val n.toNat = N
  obtain ⟨h0, hlt, hlow, r0, r1⟩ := fieldsI (n := N) 6 d.val a.val (0x300 + n.toNat)
    (by rw [← hN]; simp only [encI]; omega) (by decide) d.isLt a.isLt (by have := n.isLt; omega)
  have h1 : fld N 8 3 = 3 := by rw [fld_low 16 hlow (by decide)]; simp only [fld]; have := n.isLt; omega
  have h2 : fld N 6 2 = 0 := by rw [fld_low 16 hlow (by decide)]; simp only [fld]; have := n.isLt; omega
  have h3 : fld N 11 5 = 0 := by rw [fld_low 16 hlow (by decide)]; simp only [fld]; have := n.isLt; omega
  have h4 : fld N 0 6 = n.toNat := by rw [fld_low 16 hlow (by decide)]; simp only [fld]; have := n.isLt; omega
  have q : decShi N = .ok (.shiRol d a n) := by
    unfold decShi; rw [h1, h2, h3, gAt_eq r0, gAt_eq r1, ofNat_fld h4]; rfl
  exact of_raw (congrArg some hN) hlt (by unfold rawDecode; rw [h0]; exact q)

theorem shiRor (d : GReg) (a : GReg) (n : BitVec 6) : Statement (.shiRor d a n) := by
  generalize hN : encI 0x18000400 d.val a.val n.toNat = N
  obtain ⟨h0, hlt, hlow, r0, r1⟩ := fieldsI (n := N) 6 d.val a.val (0x400 + n.toNat)
    (by rw [← hN]; simp only [encI]; omega) (by decide) d.isLt a.isLt (by have := n.isLt; omega)
  have h1 : fld N 8 3 = 4 := by rw [fld_low 16 hlow (by decide)]; simp only [fld]; have := n.isLt; omega
  have h2 : fld N 6 2 = 0 := by rw [fld_low 16 hlow (by decide)]; simp only [fld]; have := n.isLt; omega
  have h3 : fld N 11 5 = 0 := by rw [fld_low 16 hlow (by decide)]; simp only [fld]; have := n.isLt; omega
  have h4 : fld N 0 6 = n.toNat := by rw [fld_low 16 hlow (by decide)]; simp only [fld]; have := n.isLt; omega
  have q : decShi N = .ok (.shiRor d a n) := by
    unfold decShi; rw [h1, h2, h3, gAt_eq r0, gAt_eq r1, ofNat_fld h4]; rfl
  exact of_raw (congrArg some hN) hlt (by unfold rawDecode; rw [h0]; exact q)

theorem slti (d : GReg) (a : GReg) (i : BitVec 16) : Statement (.slti d a i) := by
  generalize hN : encI 0x1C000000 d.val a.val i.toNat = N
  obtain ⟨h0, hlt, hlow, r0, r1⟩ := fieldsI (n := N) 7 d.val a.val (i.toNat)
    (by rw [← hN]; simp only [encI]; omega) (by decide) d.isLt a.isLt (by have := i.isLt; omega)
  have h1 : fld N 0 16 = i.toNat := by rw [fld_low 16 hlow (by decide)]; simp only [fld]; have := i.isLt; omega
  have q : decSlti N = .ok (.slti d a i) := by
    unfold decSlti; rw [gAt_eq r0, gAt_eq r1, ofNat_fld h1]
  exact of_raw (congrArg some hN) hlt (by unfold rawDecode; rw [h0]; exact q)

theorem sltni (d : GReg) (a : GReg) (i : BitVec 16) : Statement (.sltni d a i) := by
  generalize hN : encI 0x20000000 d.val a.val i.toNat = N
  obtain ⟨h0, hlt, hlow, r0, r1⟩ := fieldsI (n := N) 8 d.val a.val (i.toNat)
    (by rw [← hN]; simp only [encI]; omega) (by decide) d.isLt a.isLt (by have := i.isLt; omega)
  have h1 : fld N 0 16 = i.toNat := by rw [fld_low 16 hlow (by decide)]; simp only [fld]; have := i.isLt; omega
  have q : decSltni N = .ok (.sltni d a i) := by
    unfold decSltni; rw [gAt_eq r0, gAt_eq r1, ofNat_fld h1]
  exact of_raw (congrArg some hN) hlt (by unfold rawDecode; rw [h0]; exact q)

theorem li (d : GReg) (i : BitVec 21) : Statement (.li d i) := by
  generalize hN : encL 0x24000000 d.val i.toNat = N
  have e : N = 0x24000000 + 2097152 * d.val + i.toNat := by rw [← hN]; simp only [encL]; omega
  have b_d := d.isLt
  have b_i := i.isLt
  have h0 : fld N 26 6 = 9 := by simp only [fld]; omega
  have h1 : fld N 21 5 = d.val := by simp only [fld]; omega
  have h2 : fld N 0 21 = i.toNat := by simp only [fld]; omega
  have q : decLi N = .ok (.li d i) := by
    unfold decLi; rw [gAt_eq h1, ofNat_fld h2]
  exact of_raw (congrArg some hN) (by omega) (by unfold rawDecode; rw [h0]; exact q)

theorem lsh (d : GReg) (a : GReg) (i : BitVec 16) : Statement (.lsh d a i) := by
  generalize hN : encI 0x28000000 d.val a.val i.toNat = N
  obtain ⟨h0, hlt, hlow, r0, r1⟩ := fieldsI (n := N) 10 d.val a.val (i.toNat)
    (by rw [← hN]; simp only [encI]; omega) (by decide) d.isLt a.isLt (by have := i.isLt; omega)
  have h1 : fld N 0 16 = i.toNat := by rw [fld_low 16 hlow (by decide)]; simp only [fld]; have := i.isLt; omega
  have q : decLsh N = .ok (.lsh d a i) := by
    unfold decLsh; rw [gAt_eq r0, gAt_eq r1, ofNat_fld h1]
  exact of_raw (congrArg some hN) hlt (by unfold rawDecode; rw [h0]; exact q)

theorem bEq (a : GReg) (b : GReg) (o : BitVec 13) : Statement (.bEq a b o) := by
  generalize hN : encB 0x30000000 a.val b.val o.toNat = N
  obtain ⟨h0, hlt, hlow, hs, r0, r1⟩ := fieldsB (n := N) 12 0 a.val b.val (o.toNat)
    (by rw [← hN]; simp only [encB]; omega) (by decide) (by decide) a.isLt b.isLt (by have := o.isLt; omega)
  have h1 : fld N 0 13 = o.toNat := by rw [fld_low 13 hlow (by decide)]; simp only [fld]; have := o.isLt; omega
  have q : decB N = .ok (.bEq a b o) := by
    unfold decB; rw [hs, gAt_eq r0, gAt_eq r1, ofNat_fld h1]; rfl
  exact of_raw (congrArg some hN) hlt (by unfold rawDecode; rw [h0]; exact q)

theorem bNe (a : GReg) (b : GReg) (o : BitVec 13) : Statement (.bNe a b o) := by
  generalize hN : encB 0x30800000 a.val b.val o.toNat = N
  obtain ⟨h0, hlt, hlow, hs, r0, r1⟩ := fieldsB (n := N) 12 1 a.val b.val (o.toNat)
    (by rw [← hN]; simp only [encB]; omega) (by decide) (by decide) a.isLt b.isLt (by have := o.isLt; omega)
  have h1 : fld N 0 13 = o.toNat := by rw [fld_low 13 hlow (by decide)]; simp only [fld]; have := o.isLt; omega
  have q : decB N = .ok (.bNe a b o) := by
    unfold decB; rw [hs, gAt_eq r0, gAt_eq r1, ofNat_fld h1]; rfl
  exact of_raw (congrArg some hN) hlt (by unfold rawDecode; rw [h0]; exact q)

theorem bLt (a : GReg) (b : GReg) (o : BitVec 13) : Statement (.bLt a b o) := by
  generalize hN : encB 0x31000000 a.val b.val o.toNat = N
  obtain ⟨h0, hlt, hlow, hs, r0, r1⟩ := fieldsB (n := N) 12 2 a.val b.val (o.toNat)
    (by rw [← hN]; simp only [encB]; omega) (by decide) (by decide) a.isLt b.isLt (by have := o.isLt; omega)
  have h1 : fld N 0 13 = o.toNat := by rw [fld_low 13 hlow (by decide)]; simp only [fld]; have := o.isLt; omega
  have q : decB N = .ok (.bLt a b o) := by
    unfold decB; rw [hs, gAt_eq r0, gAt_eq r1, ofNat_fld h1]; rfl
  exact of_raw (congrArg some hN) hlt (by unfold rawDecode; rw [h0]; exact q)

theorem bGe (a : GReg) (b : GReg) (o : BitVec 13) : Statement (.bGe a b o) := by
  generalize hN : encB 0x31800000 a.val b.val o.toNat = N
  obtain ⟨h0, hlt, hlow, hs, r0, r1⟩ := fieldsB (n := N) 12 3 a.val b.val (o.toNat)
    (by rw [← hN]; simp only [encB]; omega) (by decide) (by decide) a.isLt b.isLt (by have := o.isLt; omega)
  have h1 : fld N 0 13 = o.toNat := by rw [fld_low 13 hlow (by decide)]; simp only [fld]; have := o.isLt; omega
  have q : decB N = .ok (.bGe a b o) := by
    unfold decB; rw [hs, gAt_eq r0, gAt_eq r1, ofNat_fld h1]; rfl
  exact of_raw (congrArg some hN) hlt (by unfold rawDecode; rw [h0]; exact q)

theorem bLtn (a : GReg) (b : GReg) (o : BitVec 13) : Statement (.bLtn a b o) := by
  generalize hN : encB 0x32000000 a.val b.val o.toNat = N
  obtain ⟨h0, hlt, hlow, hs, r0, r1⟩ := fieldsB (n := N) 12 4 a.val b.val (o.toNat)
    (by rw [← hN]; simp only [encB]; omega) (by decide) (by decide) a.isLt b.isLt (by have := o.isLt; omega)
  have h1 : fld N 0 13 = o.toNat := by rw [fld_low 13 hlow (by decide)]; simp only [fld]; have := o.isLt; omega
  have q : decB N = .ok (.bLtn a b o) := by
    unfold decB; rw [hs, gAt_eq r0, gAt_eq r1, ofNat_fld h1]; rfl
  exact of_raw (congrArg some hN) hlt (by unfold rawDecode; rw [h0]; exact q)

theorem bGen (a : GReg) (b : GReg) (o : BitVec 13) : Statement (.bGen a b o) := by
  generalize hN : encB 0x32800000 a.val b.val o.toNat = N
  obtain ⟨h0, hlt, hlow, hs, r0, r1⟩ := fieldsB (n := N) 12 5 a.val b.val (o.toNat)
    (by rw [← hN]; simp only [encB]; omega) (by decide) (by decide) a.isLt b.isLt (by have := o.isLt; omega)
  have h1 : fld N 0 13 = o.toNat := by rw [fld_low 13 hlow (by decide)]; simp only [fld]; have := o.isLt; omega
  have q : decB N = .ok (.bGen a b o) := by
    unfold decB; rw [hs, gAt_eq r0, gAt_eq r1, ofNat_fld h1]; rfl
  exact of_raw (congrArg some hN) hlt (by unfold rawDecode; rw [h0]; exact q)

theorem bBs (a : GReg) (b : GReg) (o : BitVec 13) : Statement (.bBs a b o) := by
  generalize hN : encB 0x33000000 a.val b.val o.toNat = N
  obtain ⟨h0, hlt, hlow, hs, r0, r1⟩ := fieldsB (n := N) 12 6 a.val b.val (o.toNat)
    (by rw [← hN]; simp only [encB]; omega) (by decide) (by decide) a.isLt b.isLt (by have := o.isLt; omega)
  have h1 : fld N 0 13 = o.toNat := by rw [fld_low 13 hlow (by decide)]; simp only [fld]; have := o.isLt; omega
  have q : decB N = .ok (.bBs a b o) := by
    unfold decB; rw [hs, gAt_eq r0, gAt_eq r1, ofNat_fld h1]; rfl
  exact of_raw (congrArg some hN) hlt (by unfold rawDecode; rw [h0]; exact q)

theorem j (o : BitVec 26) : Statement (.j o) := by
  generalize hN : encJ 0x34000000 o.toNat = N
  have e : N = 0x34000000 + o.toNat := by rw [← hN]; simp only [encJ]
  have b_o := o.isLt
  have h0 : fld N 26 6 = 13 := by simp only [fld]; omega
  have h1 : fld N 0 26 = o.toNat := by simp only [fld]; omega
  have q : decJ N = .ok (.j o) := by
    unfold decJ; rw [ofNat_fld h1]
  exact of_raw (congrArg some hN) (by omega) (by unfold rawDecode; rw [h0]; exact q)

theorem jal (o : BitVec 26) : Statement (.jal o) := by
  generalize hN : encJ 0x38000000 o.toNat = N
  have e : N = 0x38000000 + o.toNat := by rw [← hN]; simp only [encJ]
  have b_o := o.isLt
  have h0 : fld N 26 6 = 14 := by simp only [fld]; omega
  have h1 : fld N 0 26 = o.toNat := by simp only [fld]; omega
  have q : decJal N = .ok (.jal o) := by
    unfold decJal; rw [ofNat_fld h1]
  exact of_raw (congrArg some hN) (by omega) (by unfold rawDecode; rw [h0]; exact q)

theorem jr (a : GReg) : Statement (.jr a) := by
  generalize hN : encA 0x3C000000 0 a.val 0 0 = N
  obtain ⟨h0, hlt, hlow, r0, r1, r2⟩ := fieldsA (n := N) 15 0 a.val 0 (0x0)
    (by rw [← hN]; simp only [encA]; omega) (by decide) (by decide) a.isLt (by decide) (by decide)
  have h1 : fld N 0 11 = 0 := fld_low 11 hlow (by decide)
  have q : decJr N = .ok (.jr a) := by
    unfold decJr; rw [h1, r2, r0, gAt_eq r1]; rfl
  exact of_raw (congrArg some hN) hlt (by unfold rawDecode; rw [h0]; exact q)

theorem jalr (d : GReg) (a : GReg) : Statement (.jalr d a) := by
  generalize hN : encA 0x3C000001 d.val a.val 0 0 = N
  obtain ⟨h0, hlt, hlow, r0, r1, r2⟩ := fieldsA (n := N) 15 d.val a.val 0 (0x1)
    (by rw [← hN]; simp only [encA]; omega) (by decide) d.isLt a.isLt (by decide) (by decide)
  have h1 : fld N 0 11 = 1 := fld_low 11 hlow (by decide)
  have q : decJr N = .ok (.jalr d a) := by
    unfold decJr; rw [h1, r2, gAt_eq r0, gAt_eq r1]; rfl
  exact of_raw (congrArg some hN) hlt (by unfold rawDecode; rw [h0]; exact q)

theorem ld (d : GReg) (a : GReg) (z : Sz) (w : Wt) (o : BitVec 11) : Statement (.ld d a z w o) := by
  generalize hN : encM 0x40000000 d.val a.val (szCode z) (wtCode w) o.toNat = N
  have e : N = 0x40000000 + 2097152 * d.val + 65536 * a.val + 8192 * (szCode z) + 2048 * (wtCode w) + o.toNat := by rw [← hN]; simp only [encM]; omega
  have b_d := d.isLt
  have b_a := a.isLt
  have b_z := szCode_lt z
  have b_w := wtCode_lt w
  have b_o := o.isLt
  have h0 : fld N 26 6 = 16 := by simp only [fld]; omega
  have h1 : fld N 13 3 = szCode z := by simp only [fld]; omega
  have h2 : fld N 11 2 = wtCode w := by simp only [fld]; omega
  have h3 : fld N 21 5 = d.val := by simp only [fld]; omega
  have h4 : fld N 16 5 = a.val := by simp only [fld]; omega
  have h5 : fld N 0 11 = o.toNat := by simp only [fld]; omega
  have q : decLd N = .ok (.ld d a z w o) := by
    unfold decLd; rw [h1, szOf_szCode, h2, wtOf_wtCode, gAt_eq h3, gAt_eq h4, ofNat_fld h5]; rfl
  exact of_raw (congrArg some hN) (by omega) (by unfold rawDecode; rw [h0]; exact q)

theorem st (d : GReg) (a : GReg) (z : Sz) (w : Wt) (o : BitVec 11) : Statement (.st d a z w o) := by
  generalize hN : encM 0x44000000 d.val a.val (szCode z) (wtCode w) o.toNat = N
  have e : N = 0x44000000 + 2097152 * d.val + 65536 * a.val + 8192 * (szCode z) + 2048 * (wtCode w) + o.toNat := by rw [← hN]; simp only [encM]; omega
  have b_d := d.isLt
  have b_a := a.isLt
  have b_z := szCode_lt z
  have b_w := wtCode_lt w
  have b_o := o.isLt
  have h0 : fld N 26 6 = 17 := by simp only [fld]; omega
  have h1 : fld N 13 3 = szCode z := by simp only [fld]; omega
  have h2 : fld N 11 2 = wtCode w := by simp only [fld]; omega
  have h3 : fld N 21 5 = d.val := by simp only [fld]; omega
  have h4 : fld N 16 5 = a.val := by simp only [fld]; omega
  have h5 : fld N 0 11 = o.toNat := by simp only [fld]; omega
  have q : decSt N = .ok (.st d a z w o) := by
    unfold decSt; rw [h1, szOf_szCode, h2, wtOf_wtCode, gAt_eq h3, gAt_eq h4, ofNat_fld h5]; rfl
  exact of_raw (congrArg some hN) (by omega) (by unfold rawDecode; rw [h0]; exact q)

theorem ldx (d : GReg) (a : GReg) (b : GReg) (z : Sz) (w : Wt) : Statement (.ldx d a b z w) := by
  generalize hN : encA 0x48000000 d.val a.val b.val (2 ^ 7 * (szCode z) + 2 ^ 5 * (wtCode w)) = N
  obtain ⟨h0, hlt, hlow, r0, r1, r2⟩ := fieldsA (n := N) 18 d.val a.val b.val (128 * (szCode z) + 32 * (wtCode w))
    (by rw [← hN]; simp only [encA]; omega) (by decide) d.isLt a.isLt b.isLt (by have := szCode_lt z; have := wtCode_lt w; omega)
  have h1 : fld N 10 1 = 0 := by rw [fld_low 11 hlow (by decide)]; simp only [fld]; have := szCode_lt z; have := wtCode_lt w; omega
  have h2 : fld N 0 5 = 0 := by rw [fld_low 11 hlow (by decide)]; simp only [fld]; have := szCode_lt z; have := wtCode_lt w; omega
  have h3 : fld N 7 3 = szCode z := by rw [fld_low 11 hlow (by decide)]; simp only [fld]; have := szCode_lt z; have := wtCode_lt w; omega
  have h4 : fld N 5 2 = wtCode w := by rw [fld_low 11 hlow (by decide)]; simp only [fld]; have := szCode_lt z; have := wtCode_lt w; omega
  have q : decLdx N = .ok (.ldx d a b z w) := by
    unfold decLdx; rw [h1, h2, h3, szOf_szCode, h4, wtOf_wtCode, gAt_eq r0, gAt_eq r1, gAt_eq r2]; rfl
  exact of_raw (congrArg some hN) hlt (by unfold rawDecode; rw [h0]; exact q)

theorem stx (d : GReg) (a : GReg) (b : GReg) (z : Sz) (w : Wt) : Statement (.stx d a b z w) := by
  generalize hN : encA 0x48000400 d.val a.val b.val (2 ^ 7 * (szCode z) + 2 ^ 5 * (wtCode w)) = N
  obtain ⟨h0, hlt, hlow, r0, r1, r2⟩ := fieldsA (n := N) 18 d.val a.val b.val (0x400 + 128 * (szCode z) + 32 * (wtCode w))
    (by rw [← hN]; simp only [encA]; omega) (by decide) d.isLt a.isLt b.isLt (by have := szCode_lt z; have := wtCode_lt w; omega)
  have h1 : fld N 10 1 = 1 := by rw [fld_low 11 hlow (by decide)]; simp only [fld]; have := szCode_lt z; have := wtCode_lt w; omega
  have h2 : fld N 0 5 = 0 := by rw [fld_low 11 hlow (by decide)]; simp only [fld]; have := szCode_lt z; have := wtCode_lt w; omega
  have h3 : fld N 7 3 = szCode z := by rw [fld_low 11 hlow (by decide)]; simp only [fld]; have := szCode_lt z; have := wtCode_lt w; omega
  have h4 : fld N 5 2 = wtCode w := by rw [fld_low 11 hlow (by decide)]; simp only [fld]; have := szCode_lt z; have := wtCode_lt w; omega
  have q : decLdx N = .ok (.stx d a b z w) := by
    unfold decLdx; rw [h1, h2, h3, szOf_szCode, h4, wtOf_wtCode, gAt_eq r0, gAt_eq r1, gAt_eq r2]; rfl
  exact of_raw (congrArg some hN) hlt (by unfold rawDecode; rw [h0]; exact q)

theorem amoAdd (d : GReg) (a : GReg) (b : GReg) (z : Sz) (w : Wt) : Statement (.amoAdd d a b z w) := by
  generalize hN : encA 0x4C000000 d.val a.val b.val (2 ^ 4 * (szCode z) + 2 ^ 2 * (wtCode w)) = N
  obtain ⟨h0, hlt, hlow, r0, r1, r2⟩ := fieldsA (n := N) 19 d.val a.val b.val (16 * (szCode z) + 4 * (wtCode w))
    (by rw [← hN]; simp only [encA]; omega) (by decide) d.isLt a.isLt b.isLt (by have := szCode_lt z; have := wtCode_lt w; omega)
  have h1 : fld N 7 4 = 0 := by rw [fld_low 11 hlow (by decide)]; simp only [fld]; have := szCode_lt z; have := wtCode_lt w; omega
  have h2 : fld N 0 2 = 0 := by rw [fld_low 11 hlow (by decide)]; simp only [fld]; have := szCode_lt z; have := wtCode_lt w; omega
  have h3 : fld N 4 3 = szCode z := by rw [fld_low 11 hlow (by decide)]; simp only [fld]; have := szCode_lt z; have := wtCode_lt w; omega
  have h4 : fld N 2 2 = wtCode w := by rw [fld_low 11 hlow (by decide)]; simp only [fld]; have := szCode_lt z; have := wtCode_lt w; omega
  have q : decAmo N = .ok (.amoAdd d a b z w) := by
    unfold decAmo; rw [h1, h2, h3, szOf_szCode, h4, wtOf_wtCode, gAt_eq r0, gAt_eq r1, gAt_eq r2]; rfl
  exact of_raw (congrArg some hN) hlt (by unfold rawDecode; rw [h0]; exact q)

theorem amoAnd (d : GReg) (a : GReg) (b : GReg) (z : Sz) (w : Wt) : Statement (.amoAnd d a b z w) := by
  generalize hN : encA 0x4C000080 d.val a.val b.val (2 ^ 4 * (szCode z) + 2 ^ 2 * (wtCode w)) = N
  obtain ⟨h0, hlt, hlow, r0, r1, r2⟩ := fieldsA (n := N) 19 d.val a.val b.val (0x80 + 16 * (szCode z) + 4 * (wtCode w))
    (by rw [← hN]; simp only [encA]; omega) (by decide) d.isLt a.isLt b.isLt (by have := szCode_lt z; have := wtCode_lt w; omega)
  have h1 : fld N 7 4 = 1 := by rw [fld_low 11 hlow (by decide)]; simp only [fld]; have := szCode_lt z; have := wtCode_lt w; omega
  have h2 : fld N 0 2 = 0 := by rw [fld_low 11 hlow (by decide)]; simp only [fld]; have := szCode_lt z; have := wtCode_lt w; omega
  have h3 : fld N 4 3 = szCode z := by rw [fld_low 11 hlow (by decide)]; simp only [fld]; have := szCode_lt z; have := wtCode_lt w; omega
  have h4 : fld N 2 2 = wtCode w := by rw [fld_low 11 hlow (by decide)]; simp only [fld]; have := szCode_lt z; have := wtCode_lt w; omega
  have q : decAmo N = .ok (.amoAnd d a b z w) := by
    unfold decAmo; rw [h1, h2, h3, szOf_szCode, h4, wtOf_wtCode, gAt_eq r0, gAt_eq r1, gAt_eq r2]; rfl
  exact of_raw (congrArg some hN) hlt (by unfold rawDecode; rw [h0]; exact q)

theorem amoOr (d : GReg) (a : GReg) (b : GReg) (z : Sz) (w : Wt) : Statement (.amoOr d a b z w) := by
  generalize hN : encA 0x4C000100 d.val a.val b.val (2 ^ 4 * (szCode z) + 2 ^ 2 * (wtCode w)) = N
  obtain ⟨h0, hlt, hlow, r0, r1, r2⟩ := fieldsA (n := N) 19 d.val a.val b.val (0x100 + 16 * (szCode z) + 4 * (wtCode w))
    (by rw [← hN]; simp only [encA]; omega) (by decide) d.isLt a.isLt b.isLt (by have := szCode_lt z; have := wtCode_lt w; omega)
  have h1 : fld N 7 4 = 2 := by rw [fld_low 11 hlow (by decide)]; simp only [fld]; have := szCode_lt z; have := wtCode_lt w; omega
  have h2 : fld N 0 2 = 0 := by rw [fld_low 11 hlow (by decide)]; simp only [fld]; have := szCode_lt z; have := wtCode_lt w; omega
  have h3 : fld N 4 3 = szCode z := by rw [fld_low 11 hlow (by decide)]; simp only [fld]; have := szCode_lt z; have := wtCode_lt w; omega
  have h4 : fld N 2 2 = wtCode w := by rw [fld_low 11 hlow (by decide)]; simp only [fld]; have := szCode_lt z; have := wtCode_lt w; omega
  have q : decAmo N = .ok (.amoOr d a b z w) := by
    unfold decAmo; rw [h1, h2, h3, szOf_szCode, h4, wtOf_wtCode, gAt_eq r0, gAt_eq r1, gAt_eq r2]; rfl
  exact of_raw (congrArg some hN) hlt (by unfold rawDecode; rw [h0]; exact q)

theorem amoXor (d : GReg) (a : GReg) (b : GReg) (z : Sz) (w : Wt) : Statement (.amoXor d a b z w) := by
  generalize hN : encA 0x4C000180 d.val a.val b.val (2 ^ 4 * (szCode z) + 2 ^ 2 * (wtCode w)) = N
  obtain ⟨h0, hlt, hlow, r0, r1, r2⟩ := fieldsA (n := N) 19 d.val a.val b.val (0x180 + 16 * (szCode z) + 4 * (wtCode w))
    (by rw [← hN]; simp only [encA]; omega) (by decide) d.isLt a.isLt b.isLt (by have := szCode_lt z; have := wtCode_lt w; omega)
  have h1 : fld N 7 4 = 3 := by rw [fld_low 11 hlow (by decide)]; simp only [fld]; have := szCode_lt z; have := wtCode_lt w; omega
  have h2 : fld N 0 2 = 0 := by rw [fld_low 11 hlow (by decide)]; simp only [fld]; have := szCode_lt z; have := wtCode_lt w; omega
  have h3 : fld N 4 3 = szCode z := by rw [fld_low 11 hlow (by decide)]; simp only [fld]; have := szCode_lt z; have := wtCode_lt w; omega
  have h4 : fld N 2 2 = wtCode w := by rw [fld_low 11 hlow (by decide)]; simp only [fld]; have := szCode_lt z; have := wtCode_lt w; omega
  have q : decAmo N = .ok (.amoXor d a b z w) := by
    unfold decAmo; rw [h1, h2, h3, szOf_szCode, h4, wtOf_wtCode, gAt_eq r0, gAt_eq r1, gAt_eq r2]; rfl
  exact of_raw (congrArg some hN) hlt (by unfold rawDecode; rw [h0]; exact q)

theorem amoMin (d : GReg) (a : GReg) (b : GReg) (z : Sz) (w : Wt) : Statement (.amoMin d a b z w) := by
  generalize hN : encA 0x4C000200 d.val a.val b.val (2 ^ 4 * (szCode z) + 2 ^ 2 * (wtCode w)) = N
  obtain ⟨h0, hlt, hlow, r0, r1, r2⟩ := fieldsA (n := N) 19 d.val a.val b.val (0x200 + 16 * (szCode z) + 4 * (wtCode w))
    (by rw [← hN]; simp only [encA]; omega) (by decide) d.isLt a.isLt b.isLt (by have := szCode_lt z; have := wtCode_lt w; omega)
  have h1 : fld N 7 4 = 4 := by rw [fld_low 11 hlow (by decide)]; simp only [fld]; have := szCode_lt z; have := wtCode_lt w; omega
  have h2 : fld N 0 2 = 0 := by rw [fld_low 11 hlow (by decide)]; simp only [fld]; have := szCode_lt z; have := wtCode_lt w; omega
  have h3 : fld N 4 3 = szCode z := by rw [fld_low 11 hlow (by decide)]; simp only [fld]; have := szCode_lt z; have := wtCode_lt w; omega
  have h4 : fld N 2 2 = wtCode w := by rw [fld_low 11 hlow (by decide)]; simp only [fld]; have := szCode_lt z; have := wtCode_lt w; omega
  have q : decAmo N = .ok (.amoMin d a b z w) := by
    unfold decAmo; rw [h1, h2, h3, szOf_szCode, h4, wtOf_wtCode, gAt_eq r0, gAt_eq r1, gAt_eq r2]; rfl
  exact of_raw (congrArg some hN) hlt (by unfold rawDecode; rw [h0]; exact q)

theorem amoMax (d : GReg) (a : GReg) (b : GReg) (z : Sz) (w : Wt) : Statement (.amoMax d a b z w) := by
  generalize hN : encA 0x4C000280 d.val a.val b.val (2 ^ 4 * (szCode z) + 2 ^ 2 * (wtCode w)) = N
  obtain ⟨h0, hlt, hlow, r0, r1, r2⟩ := fieldsA (n := N) 19 d.val a.val b.val (0x280 + 16 * (szCode z) + 4 * (wtCode w))
    (by rw [← hN]; simp only [encA]; omega) (by decide) d.isLt a.isLt b.isLt (by have := szCode_lt z; have := wtCode_lt w; omega)
  have h1 : fld N 7 4 = 5 := by rw [fld_low 11 hlow (by decide)]; simp only [fld]; have := szCode_lt z; have := wtCode_lt w; omega
  have h2 : fld N 0 2 = 0 := by rw [fld_low 11 hlow (by decide)]; simp only [fld]; have := szCode_lt z; have := wtCode_lt w; omega
  have h3 : fld N 4 3 = szCode z := by rw [fld_low 11 hlow (by decide)]; simp only [fld]; have := szCode_lt z; have := wtCode_lt w; omega
  have h4 : fld N 2 2 = wtCode w := by rw [fld_low 11 hlow (by decide)]; simp only [fld]; have := szCode_lt z; have := wtCode_lt w; omega
  have q : decAmo N = .ok (.amoMax d a b z w) := by
    unfold decAmo; rw [h1, h2, h3, szOf_szCode, h4, wtOf_wtCode, gAt_eq r0, gAt_eq r1, gAt_eq r2]; rfl
  exact of_raw (congrArg some hN) hlt (by unfold rawDecode; rw [h0]; exact q)

theorem amoMinn (d : GReg) (a : GReg) (b : GReg) (z : Sz) (w : Wt) : Statement (.amoMinn d a b z w) := by
  generalize hN : encA 0x4C000300 d.val a.val b.val (2 ^ 4 * (szCode z) + 2 ^ 2 * (wtCode w)) = N
  obtain ⟨h0, hlt, hlow, r0, r1, r2⟩ := fieldsA (n := N) 19 d.val a.val b.val (0x300 + 16 * (szCode z) + 4 * (wtCode w))
    (by rw [← hN]; simp only [encA]; omega) (by decide) d.isLt a.isLt b.isLt (by have := szCode_lt z; have := wtCode_lt w; omega)
  have h1 : fld N 7 4 = 6 := by rw [fld_low 11 hlow (by decide)]; simp only [fld]; have := szCode_lt z; have := wtCode_lt w; omega
  have h2 : fld N 0 2 = 0 := by rw [fld_low 11 hlow (by decide)]; simp only [fld]; have := szCode_lt z; have := wtCode_lt w; omega
  have h3 : fld N 4 3 = szCode z := by rw [fld_low 11 hlow (by decide)]; simp only [fld]; have := szCode_lt z; have := wtCode_lt w; omega
  have h4 : fld N 2 2 = wtCode w := by rw [fld_low 11 hlow (by decide)]; simp only [fld]; have := szCode_lt z; have := wtCode_lt w; omega
  have q : decAmo N = .ok (.amoMinn d a b z w) := by
    unfold decAmo; rw [h1, h2, h3, szOf_szCode, h4, wtOf_wtCode, gAt_eq r0, gAt_eq r1, gAt_eq r2]; rfl
  exact of_raw (congrArg some hN) hlt (by unfold rawDecode; rw [h0]; exact q)

theorem amoMaxn (d : GReg) (a : GReg) (b : GReg) (z : Sz) (w : Wt) : Statement (.amoMaxn d a b z w) := by
  generalize hN : encA 0x4C000380 d.val a.val b.val (2 ^ 4 * (szCode z) + 2 ^ 2 * (wtCode w)) = N
  obtain ⟨h0, hlt, hlow, r0, r1, r2⟩ := fieldsA (n := N) 19 d.val a.val b.val (0x380 + 16 * (szCode z) + 4 * (wtCode w))
    (by rw [← hN]; simp only [encA]; omega) (by decide) d.isLt a.isLt b.isLt (by have := szCode_lt z; have := wtCode_lt w; omega)
  have h1 : fld N 7 4 = 7 := by rw [fld_low 11 hlow (by decide)]; simp only [fld]; have := szCode_lt z; have := wtCode_lt w; omega
  have h2 : fld N 0 2 = 0 := by rw [fld_low 11 hlow (by decide)]; simp only [fld]; have := szCode_lt z; have := wtCode_lt w; omega
  have h3 : fld N 4 3 = szCode z := by rw [fld_low 11 hlow (by decide)]; simp only [fld]; have := szCode_lt z; have := wtCode_lt w; omega
  have h4 : fld N 2 2 = wtCode w := by rw [fld_low 11 hlow (by decide)]; simp only [fld]; have := szCode_lt z; have := wtCode_lt w; omega
  have q : decAmo N = .ok (.amoMaxn d a b z w) := by
    unfold decAmo; rw [h1, h2, h3, szOf_szCode, h4, wtOf_wtCode, gAt_eq r0, gAt_eq r1, gAt_eq r2]; rfl
  exact of_raw (congrArg some hN) hlt (by unfold rawDecode; rw [h0]; exact q)

theorem amoSwap (d : GReg) (a : GReg) (b : GReg) (z : Sz) (w : Wt) : Statement (.amoSwap d a b z w) := by
  generalize hN : encA 0x4C000400 d.val a.val b.val (2 ^ 4 * (szCode z) + 2 ^ 2 * (wtCode w)) = N
  obtain ⟨h0, hlt, hlow, r0, r1, r2⟩ := fieldsA (n := N) 19 d.val a.val b.val (0x400 + 16 * (szCode z) + 4 * (wtCode w))
    (by rw [← hN]; simp only [encA]; omega) (by decide) d.isLt a.isLt b.isLt (by have := szCode_lt z; have := wtCode_lt w; omega)
  have h1 : fld N 7 4 = 8 := by rw [fld_low 11 hlow (by decide)]; simp only [fld]; have := szCode_lt z; have := wtCode_lt w; omega
  have h2 : fld N 0 2 = 0 := by rw [fld_low 11 hlow (by decide)]; simp only [fld]; have := szCode_lt z; have := wtCode_lt w; omega
  have h3 : fld N 4 3 = szCode z := by rw [fld_low 11 hlow (by decide)]; simp only [fld]; have := szCode_lt z; have := wtCode_lt w; omega
  have h4 : fld N 2 2 = wtCode w := by rw [fld_low 11 hlow (by decide)]; simp only [fld]; have := szCode_lt z; have := wtCode_lt w; omega
  have q : decAmo N = .ok (.amoSwap d a b z w) := by
    unfold decAmo; rw [h1, h2, h3, szOf_szCode, h4, wtOf_wtCode, gAt_eq r0, gAt_eq r1, gAt_eq r2]; rfl
  exact of_raw (congrArg some hN) hlt (by unfold rawDecode; rw [h0]; exact q)

theorem amoCas (d : GReg) (a : GReg) (b : GReg) (z : Sz) (w : Wt) : Statement (.amoCas d a b z w) := by
  generalize hN : encA 0x4C000480 d.val a.val b.val (2 ^ 4 * (szCode z) + 2 ^ 2 * (wtCode w)) = N
  obtain ⟨h0, hlt, hlow, r0, r1, r2⟩ := fieldsA (n := N) 19 d.val a.val b.val (0x480 + 16 * (szCode z) + 4 * (wtCode w))
    (by rw [← hN]; simp only [encA]; omega) (by decide) d.isLt a.isLt b.isLt (by have := szCode_lt z; have := wtCode_lt w; omega)
  have h1 : fld N 7 4 = 9 := by rw [fld_low 11 hlow (by decide)]; simp only [fld]; have := szCode_lt z; have := wtCode_lt w; omega
  have h2 : fld N 0 2 = 0 := by rw [fld_low 11 hlow (by decide)]; simp only [fld]; have := szCode_lt z; have := wtCode_lt w; omega
  have h3 : fld N 4 3 = szCode z := by rw [fld_low 11 hlow (by decide)]; simp only [fld]; have := szCode_lt z; have := wtCode_lt w; omega
  have h4 : fld N 2 2 = wtCode w := by rw [fld_low 11 hlow (by decide)]; simp only [fld]; have := szCode_lt z; have := wtCode_lt w; omega
  have q : decAmo N = .ok (.amoCas d a b z w) := by
    unfold decAmo; rw [h1, h2, h3, szOf_szCode, h4, wtOf_wtCode, gAt_eq r0, gAt_eq r1, gAt_eq r2]; rfl
  exact of_raw (congrArg some hN) hlt (by unfold rawDecode; rw [h0]; exact q)

theorem redAdd (a : GReg) (b : GReg) (z : Sz) (w : Wt) : Statement (.redAdd a b z w) := by
  generalize hN : encA 0x50000000 0 a.val b.val (2 ^ 5 * (szCode z) + 2 ^ 3 * (wtCode w)) = N
  obtain ⟨h0, hlt, hlow, r0, r1, r2⟩ := fieldsA (n := N) 20 0 a.val b.val (32 * (szCode z) + 8 * (wtCode w))
    (by rw [← hN]; simp only [encA]; omega) (by decide) (by decide) a.isLt b.isLt (by have := szCode_lt z; have := wtCode_lt w; omega)
  have h1 : fld N 8 3 = 0 := by rw [fld_low 11 hlow (by decide)]; simp only [fld]; have := szCode_lt z; have := wtCode_lt w; omega
  have h2 : fld N 0 3 = 0 := by rw [fld_low 11 hlow (by decide)]; simp only [fld]; have := szCode_lt z; have := wtCode_lt w; omega
  have h3 : fld N 5 3 = szCode z := by rw [fld_low 11 hlow (by decide)]; simp only [fld]; have := szCode_lt z; have := wtCode_lt w; omega
  have h4 : fld N 3 2 = wtCode w := by rw [fld_low 11 hlow (by decide)]; simp only [fld]; have := szCode_lt z; have := wtCode_lt w; omega
  have q : decRed N = .ok (.redAdd a b z w) := by
    unfold decRed; rw [h1, h2, r0, h3, szOf_szCode, h4, wtOf_wtCode, gAt_eq r1, gAt_eq r2]; rfl
  exact of_raw (congrArg some hN) hlt (by unfold rawDecode; rw [h0]; exact q)

theorem redAnd (a : GReg) (b : GReg) (z : Sz) (w : Wt) : Statement (.redAnd a b z w) := by
  generalize hN : encA 0x50000100 0 a.val b.val (2 ^ 5 * (szCode z) + 2 ^ 3 * (wtCode w)) = N
  obtain ⟨h0, hlt, hlow, r0, r1, r2⟩ := fieldsA (n := N) 20 0 a.val b.val (0x100 + 32 * (szCode z) + 8 * (wtCode w))
    (by rw [← hN]; simp only [encA]; omega) (by decide) (by decide) a.isLt b.isLt (by have := szCode_lt z; have := wtCode_lt w; omega)
  have h1 : fld N 8 3 = 1 := by rw [fld_low 11 hlow (by decide)]; simp only [fld]; have := szCode_lt z; have := wtCode_lt w; omega
  have h2 : fld N 0 3 = 0 := by rw [fld_low 11 hlow (by decide)]; simp only [fld]; have := szCode_lt z; have := wtCode_lt w; omega
  have h3 : fld N 5 3 = szCode z := by rw [fld_low 11 hlow (by decide)]; simp only [fld]; have := szCode_lt z; have := wtCode_lt w; omega
  have h4 : fld N 3 2 = wtCode w := by rw [fld_low 11 hlow (by decide)]; simp only [fld]; have := szCode_lt z; have := wtCode_lt w; omega
  have q : decRed N = .ok (.redAnd a b z w) := by
    unfold decRed; rw [h1, h2, r0, h3, szOf_szCode, h4, wtOf_wtCode, gAt_eq r1, gAt_eq r2]; rfl
  exact of_raw (congrArg some hN) hlt (by unfold rawDecode; rw [h0]; exact q)

theorem redOr (a : GReg) (b : GReg) (z : Sz) (w : Wt) : Statement (.redOr a b z w) := by
  generalize hN : encA 0x50000200 0 a.val b.val (2 ^ 5 * (szCode z) + 2 ^ 3 * (wtCode w)) = N
  obtain ⟨h0, hlt, hlow, r0, r1, r2⟩ := fieldsA (n := N) 20 0 a.val b.val (0x200 + 32 * (szCode z) + 8 * (wtCode w))
    (by rw [← hN]; simp only [encA]; omega) (by decide) (by decide) a.isLt b.isLt (by have := szCode_lt z; have := wtCode_lt w; omega)
  have h1 : fld N 8 3 = 2 := by rw [fld_low 11 hlow (by decide)]; simp only [fld]; have := szCode_lt z; have := wtCode_lt w; omega
  have h2 : fld N 0 3 = 0 := by rw [fld_low 11 hlow (by decide)]; simp only [fld]; have := szCode_lt z; have := wtCode_lt w; omega
  have h3 : fld N 5 3 = szCode z := by rw [fld_low 11 hlow (by decide)]; simp only [fld]; have := szCode_lt z; have := wtCode_lt w; omega
  have h4 : fld N 3 2 = wtCode w := by rw [fld_low 11 hlow (by decide)]; simp only [fld]; have := szCode_lt z; have := wtCode_lt w; omega
  have q : decRed N = .ok (.redOr a b z w) := by
    unfold decRed; rw [h1, h2, r0, h3, szOf_szCode, h4, wtOf_wtCode, gAt_eq r1, gAt_eq r2]; rfl
  exact of_raw (congrArg some hN) hlt (by unfold rawDecode; rw [h0]; exact q)

theorem redXor (a : GReg) (b : GReg) (z : Sz) (w : Wt) : Statement (.redXor a b z w) := by
  generalize hN : encA 0x50000300 0 a.val b.val (2 ^ 5 * (szCode z) + 2 ^ 3 * (wtCode w)) = N
  obtain ⟨h0, hlt, hlow, r0, r1, r2⟩ := fieldsA (n := N) 20 0 a.val b.val (0x300 + 32 * (szCode z) + 8 * (wtCode w))
    (by rw [← hN]; simp only [encA]; omega) (by decide) (by decide) a.isLt b.isLt (by have := szCode_lt z; have := wtCode_lt w; omega)
  have h1 : fld N 8 3 = 3 := by rw [fld_low 11 hlow (by decide)]; simp only [fld]; have := szCode_lt z; have := wtCode_lt w; omega
  have h2 : fld N 0 3 = 0 := by rw [fld_low 11 hlow (by decide)]; simp only [fld]; have := szCode_lt z; have := wtCode_lt w; omega
  have h3 : fld N 5 3 = szCode z := by rw [fld_low 11 hlow (by decide)]; simp only [fld]; have := szCode_lt z; have := wtCode_lt w; omega
  have h4 : fld N 3 2 = wtCode w := by rw [fld_low 11 hlow (by decide)]; simp only [fld]; have := szCode_lt z; have := wtCode_lt w; omega
  have q : decRed N = .ok (.redXor a b z w) := by
    unfold decRed; rw [h1, h2, r0, h3, szOf_szCode, h4, wtOf_wtCode, gAt_eq r1, gAt_eq r2]; rfl
  exact of_raw (congrArg some hN) hlt (by unfold rawDecode; rw [h0]; exact q)

theorem redMin (a : GReg) (b : GReg) (z : Sz) (w : Wt) : Statement (.redMin a b z w) := by
  generalize hN : encA 0x50000400 0 a.val b.val (2 ^ 5 * (szCode z) + 2 ^ 3 * (wtCode w)) = N
  obtain ⟨h0, hlt, hlow, r0, r1, r2⟩ := fieldsA (n := N) 20 0 a.val b.val (0x400 + 32 * (szCode z) + 8 * (wtCode w))
    (by rw [← hN]; simp only [encA]; omega) (by decide) (by decide) a.isLt b.isLt (by have := szCode_lt z; have := wtCode_lt w; omega)
  have h1 : fld N 8 3 = 4 := by rw [fld_low 11 hlow (by decide)]; simp only [fld]; have := szCode_lt z; have := wtCode_lt w; omega
  have h2 : fld N 0 3 = 0 := by rw [fld_low 11 hlow (by decide)]; simp only [fld]; have := szCode_lt z; have := wtCode_lt w; omega
  have h3 : fld N 5 3 = szCode z := by rw [fld_low 11 hlow (by decide)]; simp only [fld]; have := szCode_lt z; have := wtCode_lt w; omega
  have h4 : fld N 3 2 = wtCode w := by rw [fld_low 11 hlow (by decide)]; simp only [fld]; have := szCode_lt z; have := wtCode_lt w; omega
  have q : decRed N = .ok (.redMin a b z w) := by
    unfold decRed; rw [h1, h2, r0, h3, szOf_szCode, h4, wtOf_wtCode, gAt_eq r1, gAt_eq r2]; rfl
  exact of_raw (congrArg some hN) hlt (by unfold rawDecode; rw [h0]; exact q)

theorem redMax (a : GReg) (b : GReg) (z : Sz) (w : Wt) : Statement (.redMax a b z w) := by
  generalize hN : encA 0x50000500 0 a.val b.val (2 ^ 5 * (szCode z) + 2 ^ 3 * (wtCode w)) = N
  obtain ⟨h0, hlt, hlow, r0, r1, r2⟩ := fieldsA (n := N) 20 0 a.val b.val (0x500 + 32 * (szCode z) + 8 * (wtCode w))
    (by rw [← hN]; simp only [encA]; omega) (by decide) (by decide) a.isLt b.isLt (by have := szCode_lt z; have := wtCode_lt w; omega)
  have h1 : fld N 8 3 = 5 := by rw [fld_low 11 hlow (by decide)]; simp only [fld]; have := szCode_lt z; have := wtCode_lt w; omega
  have h2 : fld N 0 3 = 0 := by rw [fld_low 11 hlow (by decide)]; simp only [fld]; have := szCode_lt z; have := wtCode_lt w; omega
  have h3 : fld N 5 3 = szCode z := by rw [fld_low 11 hlow (by decide)]; simp only [fld]; have := szCode_lt z; have := wtCode_lt w; omega
  have h4 : fld N 3 2 = wtCode w := by rw [fld_low 11 hlow (by decide)]; simp only [fld]; have := szCode_lt z; have := wtCode_lt w; omega
  have q : decRed N = .ok (.redMax a b z w) := by
    unfold decRed; rw [h1, h2, r0, h3, szOf_szCode, h4, wtOf_wtCode, gAt_eq r1, gAt_eq r2]; rfl
  exact of_raw (congrArg some hN) hlt (by unfold rawDecode; rw [h0]; exact q)

theorem redAddW128 (a : GReg) (b : GReg) (w : Wt) : Statement (.redAddW128 a b w) := by
  generalize hN : encA 0x50000660 0 a.val b.val (2 ^ 3 * (wtCode w)) = N
  obtain ⟨h0, hlt, hlow, r0, r1, r2⟩ := fieldsA (n := N) 20 0 a.val b.val (0x660 + 8 * (wtCode w))
    (by rw [← hN]; simp only [encA]; omega) (by decide) (by decide) a.isLt b.isLt (by have := wtCode_lt w; omega)
  have h1 : fld N 8 3 = 6 := by rw [fld_low 11 hlow (by decide)]; simp only [fld]; have := wtCode_lt w; omega
  have h2 : fld N 5 3 = 3 := by rw [fld_low 11 hlow (by decide)]; simp only [fld]; have := wtCode_lt w; omega
  have h3 : fld N 0 3 = 0 := by rw [fld_low 11 hlow (by decide)]; simp only [fld]; have := wtCode_lt w; omega
  have h4 : fld N 3 2 = wtCode w := by rw [fld_low 11 hlow (by decide)]; simp only [fld]; have := wtCode_lt w; omega
  have q : decRed N = .ok (.redAddW128 a b w) := by
    unfold decRed; rw [h1, h2, h3, r0, h4, wtOf_wtCode, gAt_eq r1, gAt_eq r2]; rfl
  exact of_raw (congrArg some hN) hlt (by unfold rawDecode; rw [h0]; exact q)

theorem mig (d : GReg) (a : GReg) : Statement (.mig d a) := by
  generalize hN : encA 0x54000000 d.val a.val 0 0 = N
  obtain ⟨h0, hlt, hlow, r0, r1, r2⟩ := fieldsA (n := N) 21 d.val a.val 0 (0x0)
    (by rw [← hN]; simp only [encA]; omega) (by decide) d.isLt a.isLt (by decide) (by decide)
  have h1 : fld N 4 7 = 0 := fld_low 11 hlow (by decide)
  have h2 : fld N 0 4 = 0 := fld_low 11 hlow (by decide)
  have q : decMemc N = .ok (.mig d a) := by
    unfold decMemc; rw [h1, h2, r2, gAt_eq r0, gAt_eq r1]; rfl
  exact of_raw (congrArg some hN) hlt (by unfold rawDecode; rw [h0]; exact q)

theorem migc (d : GReg) (a : GReg) : Statement (.migc d a) := by
  generalize hN : encA 0x54000010 d.val a.val 0 0 = N
  obtain ⟨h0, hlt, hlow, r0, r1, r2⟩ := fieldsA (n := N) 21 d.val a.val 0 (0x10)
    (by rw [← hN]; simp only [encA]; omega) (by decide) d.isLt a.isLt (by decide) (by decide)
  have h1 : fld N 4 7 = 1 := fld_low 11 hlow (by decide)
  have h2 : fld N 0 4 = 0 := fld_low 11 hlow (by decide)
  have q : decMemc N = .ok (.migc d a) := by
    unfold decMemc; rw [h1, h2, r2, gAt_eq r0, gAt_eq r1]; rfl
  exact of_raw (congrArg some hN) hlt (by unfold rawDecode; rw [h0]; exact q)

theorem fenceCore : Statement (.fenceCore) := by
  generalize hN : encA 0x54000020 0 0 0 0 = N
  obtain ⟨h0, hlt, hlow, r0, r1, r2⟩ := fieldsA (n := N) 21 0 0 0 (0x20)
    (by rw [← hN]; simp only [encA]; omega) (by decide) (by decide) (by decide) (by decide) (by decide)
  have h1 : fld N 4 7 = 2 := fld_low 11 hlow (by decide)
  have h2 : fld N 0 4 = 0 := fld_low 11 hlow (by decide)
  have h3 : fld N 11 15 = 0 := by rw [← hN]; simp only [fld, encA]; omega
  have q : decMemc N = .ok (.fenceCore) := by
    unfold decMemc; rw [h1, h2, h3]; rfl
  exact of_raw (congrArg some hN) hlt (by unfold rawDecode; rw [h0]; exact q)

theorem fenceCluster : Statement (.fenceCluster) := by
  generalize hN : encA 0x54000021 0 0 0 0 = N
  obtain ⟨h0, hlt, hlow, r0, r1, r2⟩ := fieldsA (n := N) 21 0 0 0 (0x21)
    (by rw [← hN]; simp only [encA]; omega) (by decide) (by decide) (by decide) (by decide) (by decide)
  have h1 : fld N 4 7 = 2 := fld_low 11 hlow (by decide)
  have h2 : fld N 0 4 = 1 := fld_low 11 hlow (by decide)
  have h3 : fld N 11 15 = 0 := by rw [← hN]; simp only [fld, encA]; omega
  have q : decMemc N = .ok (.fenceCluster) := by
    unfold decMemc; rw [h1, h2, h3]; rfl
  exact of_raw (congrArg some hN) hlt (by unfold rawDecode; rw [h0]; exact q)

theorem fenceHearth : Statement (.fenceHearth) := by
  generalize hN : encA 0x54000022 0 0 0 0 = N
  obtain ⟨h0, hlt, hlow, r0, r1, r2⟩ := fieldsA (n := N) 21 0 0 0 (0x22)
    (by rw [← hN]; simp only [encA]; omega) (by decide) (by decide) (by decide) (by decide) (by decide)
  have h1 : fld N 4 7 = 2 := fld_low 11 hlow (by decide)
  have h2 : fld N 0 4 = 2 := fld_low 11 hlow (by decide)
  have h3 : fld N 11 15 = 0 := by rw [← hN]; simp only [fld, encA]; omega
  have q : decMemc N = .ok (.fenceHearth) := by
    unfold decMemc; rw [h1, h2, h3]; rfl
  exact of_raw (congrArg some hN) hlt (by unfold rawDecode; rw [h0]; exact q)

theorem fenceModule : Statement (.fenceModule) := by
  generalize hN : encA 0x54000023 0 0 0 0 = N
  obtain ⟨h0, hlt, hlow, r0, r1, r2⟩ := fieldsA (n := N) 21 0 0 0 (0x23)
    (by rw [← hN]; simp only [encA]; omega) (by decide) (by decide) (by decide) (by decide) (by decide)
  have h1 : fld N 4 7 = 2 := fld_low 11 hlow (by decide)
  have h2 : fld N 0 4 = 3 := fld_low 11 hlow (by decide)
  have h3 : fld N 11 15 = 0 := by rw [← hN]; simp only [fld, encA]; omega
  have q : decMemc N = .ok (.fenceModule) := by
    unfold decMemc; rw [h1, h2, h3]; rfl
  exact of_raw (congrArg some hN) hlt (by unfold rawDecode; rw [h0]; exact q)

theorem pfl (a : GReg) : Statement (.pfl a) := by
  generalize hN : encA 0x54000030 0 a.val 0 0 = N
  obtain ⟨h0, hlt, hlow, r0, r1, r2⟩ := fieldsA (n := N) 21 0 a.val 0 (0x30)
    (by rw [← hN]; simp only [encA]; omega) (by decide) (by decide) a.isLt (by decide) (by decide)
  have h1 : fld N 4 7 = 3 := fld_low 11 hlow (by decide)
  have h2 : fld N 0 4 = 0 := fld_low 11 hlow (by decide)
  have q : decMemc N = .ok (.pfl a) := by
    unfold decMemc; rw [h1, h2, r2, r0, gAt_eq r1]; rfl
  exact of_raw (congrArg some hN) hlt (by unfold rawDecode; rw [h0]; exact q)

theorem xlat (d : GReg) (a : GReg) : Statement (.xlat d a) := by
  generalize hN : encA 0x54000040 d.val a.val 0 0 = N
  obtain ⟨h0, hlt, hlow, r0, r1, r2⟩ := fieldsA (n := N) 21 d.val a.val 0 (0x40)
    (by rw [← hN]; simp only [encA]; omega) (by decide) d.isLt a.isLt (by decide) (by decide)
  have h1 : fld N 4 7 = 4 := fld_low 11 hlow (by decide)
  have h2 : fld N 0 4 = 0 := fld_low 11 hlow (by decide)
  have q : decMemc N = .ok (.xlat d a) := by
    unfold decMemc; rw [h1, h2, r2, gAt_eq r0, gAt_eq r1]; rfl
  exact of_raw (congrArg some hN) hlt (by unfold rawDecode; rw [h0]; exact q)

theorem fadd (d : GReg) (a : GReg) (b : GReg) : Statement (.fadd d a b) := by
  generalize hN : encA 0x58000000 d.val a.val b.val 0 = N
  obtain ⟨h0, hlt, hlow, r0, r1, r2⟩ := fieldsA (n := N) 22 d.val a.val b.val (0x0)
    (by rw [← hN]; simp only [encA]; omega) (by decide) d.isLt a.isLt b.isLt (by decide)
  have h1 : fld N 6 5 = 0 := fld_low 11 hlow (by decide)
  have h2 : fld N 0 6 = 0 := fld_low 11 hlow (by decide)
  have q : decFps N = .ok (.fadd d a b) := by
    unfold decFps; rw [h1, h2, gAt_eq r0, gAt_eq r1, gAt_eq r2]; rfl
  exact of_raw (congrArg some hN) hlt (by unfold rawDecode; rw [h0]; exact q)

theorem fsub (d : GReg) (a : GReg) (b : GReg) : Statement (.fsub d a b) := by
  generalize hN : encA 0x58000040 d.val a.val b.val 0 = N
  obtain ⟨h0, hlt, hlow, r0, r1, r2⟩ := fieldsA (n := N) 22 d.val a.val b.val (0x40)
    (by rw [← hN]; simp only [encA]; omega) (by decide) d.isLt a.isLt b.isLt (by decide)
  have h1 : fld N 6 5 = 1 := fld_low 11 hlow (by decide)
  have h2 : fld N 0 6 = 0 := fld_low 11 hlow (by decide)
  have q : decFps N = .ok (.fsub d a b) := by
    unfold decFps; rw [h1, h2, gAt_eq r0, gAt_eq r1, gAt_eq r2]; rfl
  exact of_raw (congrArg some hN) hlt (by unfold rawDecode; rw [h0]; exact q)

theorem fmul (d : GReg) (a : GReg) (b : GReg) : Statement (.fmul d a b) := by
  generalize hN : encA 0x58000080 d.val a.val b.val 0 = N
  obtain ⟨h0, hlt, hlow, r0, r1, r2⟩ := fieldsA (n := N) 22 d.val a.val b.val (0x80)
    (by rw [← hN]; simp only [encA]; omega) (by decide) d.isLt a.isLt b.isLt (by decide)
  have h1 : fld N 6 5 = 2 := fld_low 11 hlow (by decide)
  have h2 : fld N 0 6 = 0 := fld_low 11 hlow (by decide)
  have q : decFps N = .ok (.fmul d a b) := by
    unfold decFps; rw [h1, h2, gAt_eq r0, gAt_eq r1, gAt_eq r2]; rfl
  exact of_raw (congrArg some hN) hlt (by unfold rawDecode; rw [h0]; exact q)

theorem fma (d : GReg) (a : GReg) (b : GReg) : Statement (.fma d a b) := by
  generalize hN : encA 0x580000C0 d.val a.val b.val 0 = N
  obtain ⟨h0, hlt, hlow, r0, r1, r2⟩ := fieldsA (n := N) 22 d.val a.val b.val (0xC0)
    (by rw [← hN]; simp only [encA]; omega) (by decide) d.isLt a.isLt b.isLt (by decide)
  have h1 : fld N 6 5 = 3 := fld_low 11 hlow (by decide)
  have h2 : fld N 0 6 = 0 := fld_low 11 hlow (by decide)
  have q : decFps N = .ok (.fma d a b) := by
    unfold decFps; rw [h1, h2, gAt_eq r0, gAt_eq r1, gAt_eq r2]; rfl
  exact of_raw (congrArg some hN) hlt (by unfold rawDecode; rw [h0]; exact q)

theorem fnma (d : GReg) (a : GReg) (b : GReg) : Statement (.fnma d a b) := by
  generalize hN : encA 0x58000100 d.val a.val b.val 0 = N
  obtain ⟨h0, hlt, hlow, r0, r1, r2⟩ := fieldsA (n := N) 22 d.val a.val b.val (0x100)
    (by rw [← hN]; simp only [encA]; omega) (by decide) d.isLt a.isLt b.isLt (by decide)
  have h1 : fld N 6 5 = 4 := fld_low 11 hlow (by decide)
  have h2 : fld N 0 6 = 0 := fld_low 11 hlow (by decide)
  have q : decFps N = .ok (.fnma d a b) := by
    unfold decFps; rw [h1, h2, gAt_eq r0, gAt_eq r1, gAt_eq r2]; rfl
  exact of_raw (congrArg some hN) hlt (by unfold rawDecode; rw [h0]; exact q)

theorem fdiv (d : GReg) (a : GReg) (b : GReg) : Statement (.fdiv d a b) := by
  generalize hN : encA 0x58000140 d.val a.val b.val 0 = N
  obtain ⟨h0, hlt, hlow, r0, r1, r2⟩ := fieldsA (n := N) 22 d.val a.val b.val (0x140)
    (by rw [← hN]; simp only [encA]; omega) (by decide) d.isLt a.isLt b.isLt (by decide)
  have h1 : fld N 6 5 = 5 := fld_low 11 hlow (by decide)
  have h2 : fld N 0 6 = 0 := fld_low 11 hlow (by decide)
  have q : decFps N = .ok (.fdiv d a b) := by
    unfold decFps; rw [h1, h2, gAt_eq r0, gAt_eq r1, gAt_eq r2]; rfl
  exact of_raw (congrArg some hN) hlt (by unfold rawDecode; rw [h0]; exact q)

theorem fsqrt (d : GReg) (a : GReg) : Statement (.fsqrt d a) := by
  generalize hN : encA 0x58000180 d.val a.val 0 0 = N
  obtain ⟨h0, hlt, hlow, r0, r1, r2⟩ := fieldsA (n := N) 22 d.val a.val 0 (0x180)
    (by rw [← hN]; simp only [encA]; omega) (by decide) d.isLt a.isLt (by decide) (by decide)
  have h1 : fld N 6 5 = 6 := fld_low 11 hlow (by decide)
  have h2 : fld N 0 6 = 0 := fld_low 11 hlow (by decide)
  have q : decFps N = .ok (.fsqrt d a) := by
    unfold decFps; rw [h1, h2, r2, gAt_eq r0, gAt_eq r1]; rfl
  exact of_raw (congrArg some hN) hlt (by unfold rawDecode; rw [h0]; exact q)

theorem fmin (d : GReg) (a : GReg) (b : GReg) : Statement (.fmin d a b) := by
  generalize hN : encA 0x580001C0 d.val a.val b.val 0 = N
  obtain ⟨h0, hlt, hlow, r0, r1, r2⟩ := fieldsA (n := N) 22 d.val a.val b.val (0x1C0)
    (by rw [← hN]; simp only [encA]; omega) (by decide) d.isLt a.isLt b.isLt (by decide)
  have h1 : fld N 6 5 = 7 := fld_low 11 hlow (by decide)
  have h2 : fld N 0 6 = 0 := fld_low 11 hlow (by decide)
  have q : decFps N = .ok (.fmin d a b) := by
    unfold decFps; rw [h1, h2, gAt_eq r0, gAt_eq r1, gAt_eq r2]; rfl
  exact of_raw (congrArg some hN) hlt (by unfold rawDecode; rw [h0]; exact q)

theorem fmax (d : GReg) (a : GReg) (b : GReg) : Statement (.fmax d a b) := by
  generalize hN : encA 0x58000200 d.val a.val b.val 0 = N
  obtain ⟨h0, hlt, hlow, r0, r1, r2⟩ := fieldsA (n := N) 22 d.val a.val b.val (0x200)
    (by rw [← hN]; simp only [encA]; omega) (by decide) d.isLt a.isLt b.isLt (by decide)
  have h1 : fld N 6 5 = 8 := fld_low 11 hlow (by decide)
  have h2 : fld N 0 6 = 0 := fld_low 11 hlow (by decide)
  have q : decFps N = .ok (.fmax d a b) := by
    unfold decFps; rw [h1, h2, gAt_eq r0, gAt_eq r1, gAt_eq r2]; rfl
  exact of_raw (congrArg some hN) hlt (by unfold rawDecode; rw [h0]; exact q)

theorem fcmpEq (d : GReg) (a : GReg) (b : GReg) : Statement (.fcmpEq d a b) := by
  generalize hN : encA 0x58000240 d.val a.val b.val 0 = N
  obtain ⟨h0, hlt, hlow, r0, r1, r2⟩ := fieldsA (n := N) 22 d.val a.val b.val (0x240)
    (by rw [← hN]; simp only [encA]; omega) (by decide) d.isLt a.isLt b.isLt (by decide)
  have h1 : fld N 6 5 = 9 := fld_low 11 hlow (by decide)
  have h2 : fld N 2 4 = 0 := fld_low 11 hlow (by decide)
  have h3 : fld N 0 2 = 0 := fld_low 11 hlow (by decide)
  have q : decFps N = .ok (.fcmpEq d a b) := by
    unfold decFps; rw [h1, h2, h3, gAt_eq r0, gAt_eq r1, gAt_eq r2]; rfl
  exact of_raw (congrArg some hN) hlt (by unfold rawDecode; rw [h0]; exact q)

theorem fcmpLt (d : GReg) (a : GReg) (b : GReg) : Statement (.fcmpLt d a b) := by
  generalize hN : encA 0x58000244 d.val a.val b.val 0 = N
  obtain ⟨h0, hlt, hlow, r0, r1, r2⟩ := fieldsA (n := N) 22 d.val a.val b.val (0x244)
    (by rw [← hN]; simp only [encA]; omega) (by decide) d.isLt a.isLt b.isLt (by decide)
  have h1 : fld N 6 5 = 9 := fld_low 11 hlow (by decide)
  have h2 : fld N 2 4 = 1 := fld_low 11 hlow (by decide)
  have h3 : fld N 0 2 = 0 := fld_low 11 hlow (by decide)
  have q : decFps N = .ok (.fcmpLt d a b) := by
    unfold decFps; rw [h1, h2, h3, gAt_eq r0, gAt_eq r1, gAt_eq r2]; rfl
  exact of_raw (congrArg some hN) hlt (by unfold rawDecode; rw [h0]; exact q)

theorem fcmpLe (d : GReg) (a : GReg) (b : GReg) : Statement (.fcmpLe d a b) := by
  generalize hN : encA 0x58000248 d.val a.val b.val 0 = N
  obtain ⟨h0, hlt, hlow, r0, r1, r2⟩ := fieldsA (n := N) 22 d.val a.val b.val (0x248)
    (by rw [← hN]; simp only [encA]; omega) (by decide) d.isLt a.isLt b.isLt (by decide)
  have h1 : fld N 6 5 = 9 := fld_low 11 hlow (by decide)
  have h2 : fld N 2 4 = 2 := fld_low 11 hlow (by decide)
  have h3 : fld N 0 2 = 0 := fld_low 11 hlow (by decide)
  have q : decFps N = .ok (.fcmpLe d a b) := by
    unfold decFps; rw [h1, h2, h3, gAt_eq r0, gAt_eq r1, gAt_eq r2]; rfl
  exact of_raw (congrArg some hN) hlt (by unfold rawDecode; rw [h0]; exact q)

theorem fcmpUn (d : GReg) (a : GReg) (b : GReg) : Statement (.fcmpUn d a b) := by
  generalize hN : encA 0x5800024C d.val a.val b.val 0 = N
  obtain ⟨h0, hlt, hlow, r0, r1, r2⟩ := fieldsA (n := N) 22 d.val a.val b.val (0x24C)
    (by rw [← hN]; simp only [encA]; omega) (by decide) d.isLt a.isLt b.isLt (by decide)
  have h1 : fld N 6 5 = 9 := fld_low 11 hlow (by decide)
  have h2 : fld N 2 4 = 3 := fld_low 11 hlow (by decide)
  have h3 : fld N 0 2 = 0 := fld_low 11 hlow (by decide)
  have q : decFps N = .ok (.fcmpUn d a b) := by
    unfold decFps; rw [h1, h2, h3, gAt_eq r0, gAt_eq r1, gAt_eq r2]; rfl
  exact of_raw (congrArg some hN) hlt (by unfold rawDecode; rw [h0]; exact q)

theorem fclass (d : GReg) (a : GReg) : Statement (.fclass d a) := by
  generalize hN : encA 0x58000280 d.val a.val 0 0 = N
  obtain ⟨h0, hlt, hlow, r0, r1, r2⟩ := fieldsA (n := N) 22 d.val a.val 0 (0x280)
    (by rw [← hN]; simp only [encA]; omega) (by decide) d.isLt a.isLt (by decide) (by decide)
  have h1 : fld N 6 5 = 10 := fld_low 11 hlow (by decide)
  have h2 : fld N 0 6 = 0 := fld_low 11 hlow (by decide)
  have q : decFps N = .ok (.fclass d a) := by
    unfold decFps; rw [h1, h2, r2, gAt_eq r0, gAt_eq r1]; rfl
  exact of_raw (congrArg some hN) hlt (by unfold rawDecode; rw [h0]; exact q)

theorem fcvtF32I64 (d : GReg) (a : GReg) : Statement (.fcvtF32I64 d a) := by
  generalize hN : encA 0x580002C0 d.val a.val 0 0 = N
  obtain ⟨h0, hlt, hlow, r0, r1, r2⟩ := fieldsA (n := N) 22 d.val a.val 0 (0x2C0)
    (by rw [← hN]; simp only [encA]; omega) (by decide) d.isLt a.isLt (by decide) (by decide)
  have h1 : fld N 6 5 = 11 := fld_low 11 hlow (by decide)
  have h2 : fld N 2 4 = 0 := fld_low 11 hlow (by decide)
  have h3 : fld N 0 2 = 0 := fld_low 11 hlow (by decide)
  have q : decFps N = .ok (.fcvtF32I64 d a) := by
    unfold decFps; rw [h1, h2, h3, r2, gAt_eq r0, gAt_eq r1]; rfl
  exact of_raw (congrArg some hN) hlt (by unfold rawDecode; rw [h0]; exact q)

theorem fcvtF32N64 (d : GReg) (a : GReg) : Statement (.fcvtF32N64 d a) := by
  generalize hN : encA 0x580002C4 d.val a.val 0 0 = N
  obtain ⟨h0, hlt, hlow, r0, r1, r2⟩ := fieldsA (n := N) 22 d.val a.val 0 (0x2C4)
    (by rw [← hN]; simp only [encA]; omega) (by decide) d.isLt a.isLt (by decide) (by decide)
  have h1 : fld N 6 5 = 11 := fld_low 11 hlow (by decide)
  have h2 : fld N 2 4 = 1 := fld_low 11 hlow (by decide)
  have h3 : fld N 0 2 = 0 := fld_low 11 hlow (by decide)
  have q : decFps N = .ok (.fcvtF32N64 d a) := by
    unfold decFps; rw [h1, h2, h3, r2, gAt_eq r0, gAt_eq r1]; rfl
  exact of_raw (congrArg some hN) hlt (by unfold rawDecode; rw [h0]; exact q)

theorem fcvtI64F32 (d : GReg) (a : GReg) : Statement (.fcvtI64F32 d a) := by
  generalize hN : encA 0x580002C8 d.val a.val 0 0 = N
  obtain ⟨h0, hlt, hlow, r0, r1, r2⟩ := fieldsA (n := N) 22 d.val a.val 0 (0x2C8)
    (by rw [← hN]; simp only [encA]; omega) (by decide) d.isLt a.isLt (by decide) (by decide)
  have h1 : fld N 6 5 = 11 := fld_low 11 hlow (by decide)
  have h2 : fld N 2 4 = 2 := fld_low 11 hlow (by decide)
  have h3 : fld N 0 2 = 0 := fld_low 11 hlow (by decide)
  have q : decFps N = .ok (.fcvtI64F32 d a) := by
    unfold decFps; rw [h1, h2, h3, r2, gAt_eq r0, gAt_eq r1]; rfl
  exact of_raw (congrArg some hN) hlt (by unfold rawDecode; rw [h0]; exact q)

theorem fcvtN64F32 (d : GReg) (a : GReg) : Statement (.fcvtN64F32 d a) := by
  generalize hN : encA 0x580002CC d.val a.val 0 0 = N
  obtain ⟨h0, hlt, hlow, r0, r1, r2⟩ := fieldsA (n := N) 22 d.val a.val 0 (0x2CC)
    (by rw [← hN]; simp only [encA]; omega) (by decide) d.isLt a.isLt (by decide) (by decide)
  have h1 : fld N 6 5 = 11 := fld_low 11 hlow (by decide)
  have h2 : fld N 2 4 = 3 := fld_low 11 hlow (by decide)
  have h3 : fld N 0 2 = 0 := fld_low 11 hlow (by decide)
  have q : decFps N = .ok (.fcvtN64F32 d a) := by
    unfold decFps; rw [h1, h2, h3, r2, gAt_eq r0, gAt_eq r1]; rfl
  exact of_raw (congrArg some hN) hlt (by unfold rawDecode; rw [h0]; exact q)

theorem fcvtI64F32Rtz (d : GReg) (a : GReg) : Statement (.fcvtI64F32Rtz d a) := by
  generalize hN : encA 0x580002D0 d.val a.val 0 0 = N
  obtain ⟨h0, hlt, hlow, r0, r1, r2⟩ := fieldsA (n := N) 22 d.val a.val 0 (0x2D0)
    (by rw [← hN]; simp only [encA]; omega) (by decide) d.isLt a.isLt (by decide) (by decide)
  have h1 : fld N 6 5 = 11 := fld_low 11 hlow (by decide)
  have h2 : fld N 2 4 = 4 := fld_low 11 hlow (by decide)
  have h3 : fld N 0 2 = 0 := fld_low 11 hlow (by decide)
  have q : decFps N = .ok (.fcvtI64F32Rtz d a) := by
    unfold decFps; rw [h1, h2, h3, r2, gAt_eq r0, gAt_eq r1]; rfl
  exact of_raw (congrArg some hN) hlt (by unfold rawDecode; rw [h0]; exact q)

theorem fcvtN64F32Rtz (d : GReg) (a : GReg) : Statement (.fcvtN64F32Rtz d a) := by
  generalize hN : encA 0x580002D4 d.val a.val 0 0 = N
  obtain ⟨h0, hlt, hlow, r0, r1, r2⟩ := fieldsA (n := N) 22 d.val a.val 0 (0x2D4)
    (by rw [← hN]; simp only [encA]; omega) (by decide) d.isLt a.isLt (by decide) (by decide)
  have h1 : fld N 6 5 = 11 := fld_low 11 hlow (by decide)
  have h2 : fld N 2 4 = 5 := fld_low 11 hlow (by decide)
  have h3 : fld N 0 2 = 0 := fld_low 11 hlow (by decide)
  have q : decFps N = .ok (.fcvtN64F32Rtz d a) := by
    unfold decFps; rw [h1, h2, h3, r2, gAt_eq r0, gAt_eq r1]; rfl
  exact of_raw (congrArg some hN) hlt (by unfold rawDecode; rw [h0]; exact q)

theorem fcvtF32I32 (d : GReg) (a : GReg) : Statement (.fcvtF32I32 d a) := by
  generalize hN : encA 0x580002D8 d.val a.val 0 0 = N
  obtain ⟨h0, hlt, hlow, r0, r1, r2⟩ := fieldsA (n := N) 22 d.val a.val 0 (0x2D8)
    (by rw [← hN]; simp only [encA]; omega) (by decide) d.isLt a.isLt (by decide) (by decide)
  have h1 : fld N 6 5 = 11 := fld_low 11 hlow (by decide)
  have h2 : fld N 2 4 = 6 := fld_low 11 hlow (by decide)
  have h3 : fld N 0 2 = 0 := fld_low 11 hlow (by decide)
  have q : decFps N = .ok (.fcvtF32I32 d a) := by
    unfold decFps; rw [h1, h2, h3, r2, gAt_eq r0, gAt_eq r1]; rfl
  exact of_raw (congrArg some hN) hlt (by unfold rawDecode; rw [h0]; exact q)

theorem fcvtI32F32 (d : GReg) (a : GReg) : Statement (.fcvtI32F32 d a) := by
  generalize hN : encA 0x580002DC d.val a.val 0 0 = N
  obtain ⟨h0, hlt, hlow, r0, r1, r2⟩ := fieldsA (n := N) 22 d.val a.val 0 (0x2DC)
    (by rw [← hN]; simp only [encA]; omega) (by decide) d.isLt a.isLt (by decide) (by decide)
  have h1 : fld N 6 5 = 11 := fld_low 11 hlow (by decide)
  have h2 : fld N 2 4 = 7 := fld_low 11 hlow (by decide)
  have h3 : fld N 0 2 = 0 := fld_low 11 hlow (by decide)
  have q : decFps N = .ok (.fcvtI32F32 d a) := by
    unfold decFps; rw [h1, h2, h3, r2, gAt_eq r0, gAt_eq r1]; rfl
  exact of_raw (congrArg some hN) hlt (by unfold rawDecode; rw [h0]; exact q)

theorem fcvtF16F32 (d : GReg) (a : GReg) : Statement (.fcvtF16F32 d a) := by
  generalize hN : encA 0x580002E0 d.val a.val 0 0 = N
  obtain ⟨h0, hlt, hlow, r0, r1, r2⟩ := fieldsA (n := N) 22 d.val a.val 0 (0x2E0)
    (by rw [← hN]; simp only [encA]; omega) (by decide) d.isLt a.isLt (by decide) (by decide)
  have h1 : fld N 6 5 = 11 := fld_low 11 hlow (by decide)
  have h2 : fld N 2 4 = 8 := fld_low 11 hlow (by decide)
  have h3 : fld N 0 2 = 0 := fld_low 11 hlow (by decide)
  have q : decFps N = .ok (.fcvtF16F32 d a) := by
    unfold decFps; rw [h1, h2, h3, r2, gAt_eq r0, gAt_eq r1]; rfl
  exact of_raw (congrArg some hN) hlt (by unfold rawDecode; rw [h0]; exact q)

theorem fcvtF32F16 (d : GReg) (a : GReg) : Statement (.fcvtF32F16 d a) := by
  generalize hN : encA 0x580002E4 d.val a.val 0 0 = N
  obtain ⟨h0, hlt, hlow, r0, r1, r2⟩ := fieldsA (n := N) 22 d.val a.val 0 (0x2E4)
    (by rw [← hN]; simp only [encA]; omega) (by decide) d.isLt a.isLt (by decide) (by decide)
  have h1 : fld N 6 5 = 11 := fld_low 11 hlow (by decide)
  have h2 : fld N 2 4 = 9 := fld_low 11 hlow (by decide)
  have h3 : fld N 0 2 = 0 := fld_low 11 hlow (by decide)
  have q : decFps N = .ok (.fcvtF32F16 d a) := by
    unfold decFps; rw [h1, h2, h3, r2, gAt_eq r0, gAt_eq r1]; rfl
  exact of_raw (congrArg some hN) hlt (by unfold rawDecode; rw [h0]; exact q)

theorem fcvtBf16F32 (d : GReg) (a : GReg) : Statement (.fcvtBf16F32 d a) := by
  generalize hN : encA 0x580002E8 d.val a.val 0 0 = N
  obtain ⟨h0, hlt, hlow, r0, r1, r2⟩ := fieldsA (n := N) 22 d.val a.val 0 (0x2E8)
    (by rw [← hN]; simp only [encA]; omega) (by decide) d.isLt a.isLt (by decide) (by decide)
  have h1 : fld N 6 5 = 11 := fld_low 11 hlow (by decide)
  have h2 : fld N 2 4 = 10 := fld_low 11 hlow (by decide)
  have h3 : fld N 0 2 = 0 := fld_low 11 hlow (by decide)
  have q : decFps N = .ok (.fcvtBf16F32 d a) := by
    unfold decFps; rw [h1, h2, h3, r2, gAt_eq r0, gAt_eq r1]; rfl
  exact of_raw (congrArg some hN) hlt (by unfold rawDecode; rw [h0]; exact q)

theorem fcvtF32Bf16 (d : GReg) (a : GReg) : Statement (.fcvtF32Bf16 d a) := by
  generalize hN : encA 0x580002EC d.val a.val 0 0 = N
  obtain ⟨h0, hlt, hlow, r0, r1, r2⟩ := fieldsA (n := N) 22 d.val a.val 0 (0x2EC)
    (by rw [← hN]; simp only [encA]; omega) (by decide) d.isLt a.isLt (by decide) (by decide)
  have h1 : fld N 6 5 = 11 := fld_low 11 hlow (by decide)
  have h2 : fld N 2 4 = 11 := fld_low 11 hlow (by decide)
  have h3 : fld N 0 2 = 0 := fld_low 11 hlow (by decide)
  have q : decFps N = .ok (.fcvtF32Bf16 d a) := by
    unfold decFps; rw [h1, h2, h3, r2, gAt_eq r0, gAt_eq r1]; rfl
  exact of_raw (congrArg some hN) hlt (by unfold rawDecode; rw [h0]; exact q)

theorem fsgnj (d : GReg) (a : GReg) (b : GReg) : Statement (.fsgnj d a b) := by
  generalize hN : encA 0x58000300 d.val a.val b.val 0 = N
  obtain ⟨h0, hlt, hlow, r0, r1, r2⟩ := fieldsA (n := N) 22 d.val a.val b.val (0x300)
    (by rw [← hN]; simp only [encA]; omega) (by decide) d.isLt a.isLt b.isLt (by decide)
  have h1 : fld N 6 5 = 12 := fld_low 11 hlow (by decide)
  have h2 : fld N 2 4 = 0 := fld_low 11 hlow (by decide)
  have h3 : fld N 0 2 = 0 := fld_low 11 hlow (by decide)
  have q : decFps N = .ok (.fsgnj d a b) := by
    unfold decFps; rw [h1, h2, h3, gAt_eq r0, gAt_eq r1, gAt_eq r2]; rfl
  exact of_raw (congrArg some hN) hlt (by unfold rawDecode; rw [h0]; exact q)

theorem fsgnjN (d : GReg) (a : GReg) (b : GReg) : Statement (.fsgnjN d a b) := by
  generalize hN : encA 0x58000304 d.val a.val b.val 0 = N
  obtain ⟨h0, hlt, hlow, r0, r1, r2⟩ := fieldsA (n := N) 22 d.val a.val b.val (0x304)
    (by rw [← hN]; simp only [encA]; omega) (by decide) d.isLt a.isLt b.isLt (by decide)
  have h1 : fld N 6 5 = 12 := fld_low 11 hlow (by decide)
  have h2 : fld N 2 4 = 1 := fld_low 11 hlow (by decide)
  have h3 : fld N 0 2 = 0 := fld_low 11 hlow (by decide)
  have q : decFps N = .ok (.fsgnjN d a b) := by
    unfold decFps; rw [h1, h2, h3, gAt_eq r0, gAt_eq r1, gAt_eq r2]; rfl
  exact of_raw (congrArg some hN) hlt (by unfold rawDecode; rw [h0]; exact q)

theorem fsgnjX (d : GReg) (a : GReg) (b : GReg) : Statement (.fsgnjX d a b) := by
  generalize hN : encA 0x58000308 d.val a.val b.val 0 = N
  obtain ⟨h0, hlt, hlow, r0, r1, r2⟩ := fieldsA (n := N) 22 d.val a.val b.val (0x308)
    (by rw [← hN]; simp only [encA]; omega) (by decide) d.isLt a.isLt b.isLt (by decide)
  have h1 : fld N 6 5 = 12 := fld_low 11 hlow (by decide)
  have h2 : fld N 2 4 = 2 := fld_low 11 hlow (by decide)
  have h3 : fld N 0 2 = 0 := fld_low 11 hlow (by decide)
  have q : decFps N = .ok (.fsgnjX d a b) := by
    unfold decFps; rw [h1, h2, h3, gAt_eq r0, gAt_eq r1, gAt_eq r2]; rfl
  exact of_raw (congrArg some hN) hlt (by unfold rawDecode; rw [h0]; exact q)

theorem vadd (d : VReg) (a : VReg) (b : VReg) (k : MReg) (t : VType) : Statement (.vadd d a b k t) := by
  generalize hN : encV 0x60000000 d.val a.val b.val k.val (vtCode t) = N
  obtain ⟨h0, hlt, hlow, r0, r1, r2, r3⟩ := fieldsV (n := N) 24 d.val a.val b.val k.val ((vtCode t))
    (by rw [← hN]; simp only [encV]; omega) (by decide) d.isLt a.isLt b.isLt k.isLt (by have := vtCode_lt t; omega)
  have h1 : fld N 5 6 = 0 := by rw [fld_low 11 hlow (by decide)]; simp only [fld]; have := vtCode_lt t; omega
  have h2 : fld N 0 5 = vtCode t := by rw [fld_low 11 hlow (by decide)]; simp only [fld]; have := vtCode_lt t; omega
  have q : decVint N = .ok (.vadd d a b k t) := by
    unfold decVint; rw [h1, h2, vtOf_vtCode, vAt_eq r0, vAt_eq r1, vAt_eq r2, mAt_eq r3]; rfl
  exact of_raw (congrArg some hN) hlt (by unfold rawDecode; rw [h0]; exact q)

theorem vsub (d : VReg) (a : VReg) (b : VReg) (k : MReg) (t : VType) : Statement (.vsub d a b k t) := by
  generalize hN : encV 0x60000020 d.val a.val b.val k.val (vtCode t) = N
  obtain ⟨h0, hlt, hlow, r0, r1, r2, r3⟩ := fieldsV (n := N) 24 d.val a.val b.val k.val (0x20 + (vtCode t))
    (by rw [← hN]; simp only [encV]; omega) (by decide) d.isLt a.isLt b.isLt k.isLt (by have := vtCode_lt t; omega)
  have h1 : fld N 5 6 = 1 := by rw [fld_low 11 hlow (by decide)]; simp only [fld]; have := vtCode_lt t; omega
  have h2 : fld N 0 5 = vtCode t := by rw [fld_low 11 hlow (by decide)]; simp only [fld]; have := vtCode_lt t; omega
  have q : decVint N = .ok (.vsub d a b k t) := by
    unfold decVint; rw [h1, h2, vtOf_vtCode, vAt_eq r0, vAt_eq r1, vAt_eq r2, mAt_eq r3]; rfl
  exact of_raw (congrArg some hN) hlt (by unfold rawDecode; rw [h0]; exact q)

theorem vmul (d : VReg) (a : VReg) (b : VReg) (k : MReg) (t : VType) : Statement (.vmul d a b k t) := by
  generalize hN : encV 0x60000040 d.val a.val b.val k.val (vtCode t) = N
  obtain ⟨h0, hlt, hlow, r0, r1, r2, r3⟩ := fieldsV (n := N) 24 d.val a.val b.val k.val (0x40 + (vtCode t))
    (by rw [← hN]; simp only [encV]; omega) (by decide) d.isLt a.isLt b.isLt k.isLt (by have := vtCode_lt t; omega)
  have h1 : fld N 5 6 = 2 := by rw [fld_low 11 hlow (by decide)]; simp only [fld]; have := vtCode_lt t; omega
  have h2 : fld N 0 5 = vtCode t := by rw [fld_low 11 hlow (by decide)]; simp only [fld]; have := vtCode_lt t; omega
  have q : decVint N = .ok (.vmul d a b k t) := by
    unfold decVint; rw [h1, h2, vtOf_vtCode, vAt_eq r0, vAt_eq r1, vAt_eq r2, mAt_eq r3]; rfl
  exact of_raw (congrArg some hN) hlt (by unfold rawDecode; rw [h0]; exact q)

theorem vmulh (d : VReg) (a : VReg) (b : VReg) (k : MReg) (t : VType) : Statement (.vmulh d a b k t) := by
  generalize hN : encV 0x60000060 d.val a.val b.val k.val (vtCode t) = N
  obtain ⟨h0, hlt, hlow, r0, r1, r2, r3⟩ := fieldsV (n := N) 24 d.val a.val b.val k.val (0x60 + (vtCode t))
    (by rw [← hN]; simp only [encV]; omega) (by decide) d.isLt a.isLt b.isLt k.isLt (by have := vtCode_lt t; omega)
  have h1 : fld N 5 6 = 3 := by rw [fld_low 11 hlow (by decide)]; simp only [fld]; have := vtCode_lt t; omega
  have h2 : fld N 0 5 = vtCode t := by rw [fld_low 11 hlow (by decide)]; simp only [fld]; have := vtCode_lt t; omega
  have q : decVint N = .ok (.vmulh d a b k t) := by
    unfold decVint; rw [h1, h2, vtOf_vtCode, vAt_eq r0, vAt_eq r1, vAt_eq r2, mAt_eq r3]; rfl
  exact of_raw (congrArg some hN) hlt (by unfold rawDecode; rw [h0]; exact q)

theorem vmin (d : VReg) (a : VReg) (b : VReg) (k : MReg) (t : VType) : Statement (.vmin d a b k t) := by
  generalize hN : encV 0x60000080 d.val a.val b.val k.val (vtCode t) = N
  obtain ⟨h0, hlt, hlow, r0, r1, r2, r3⟩ := fieldsV (n := N) 24 d.val a.val b.val k.val (0x80 + (vtCode t))
    (by rw [← hN]; simp only [encV]; omega) (by decide) d.isLt a.isLt b.isLt k.isLt (by have := vtCode_lt t; omega)
  have h1 : fld N 5 6 = 4 := by rw [fld_low 11 hlow (by decide)]; simp only [fld]; have := vtCode_lt t; omega
  have h2 : fld N 0 5 = vtCode t := by rw [fld_low 11 hlow (by decide)]; simp only [fld]; have := vtCode_lt t; omega
  have q : decVint N = .ok (.vmin d a b k t) := by
    unfold decVint; rw [h1, h2, vtOf_vtCode, vAt_eq r0, vAt_eq r1, vAt_eq r2, mAt_eq r3]; rfl
  exact of_raw (congrArg some hN) hlt (by unfold rawDecode; rw [h0]; exact q)

theorem vmax (d : VReg) (a : VReg) (b : VReg) (k : MReg) (t : VType) : Statement (.vmax d a b k t) := by
  generalize hN : encV 0x600000A0 d.val a.val b.val k.val (vtCode t) = N
  obtain ⟨h0, hlt, hlow, r0, r1, r2, r3⟩ := fieldsV (n := N) 24 d.val a.val b.val k.val (0xA0 + (vtCode t))
    (by rw [← hN]; simp only [encV]; omega) (by decide) d.isLt a.isLt b.isLt k.isLt (by have := vtCode_lt t; omega)
  have h1 : fld N 5 6 = 5 := by rw [fld_low 11 hlow (by decide)]; simp only [fld]; have := vtCode_lt t; omega
  have h2 : fld N 0 5 = vtCode t := by rw [fld_low 11 hlow (by decide)]; simp only [fld]; have := vtCode_lt t; omega
  have q : decVint N = .ok (.vmax d a b k t) := by
    unfold decVint; rw [h1, h2, vtOf_vtCode, vAt_eq r0, vAt_eq r1, vAt_eq r2, mAt_eq r3]; rfl
  exact of_raw (congrArg some hN) hlt (by unfold rawDecode; rw [h0]; exact q)

theorem vand (d : VReg) (a : VReg) (b : VReg) (k : MReg) : Statement (.vand d a b k) := by
  generalize hN : encV 0x600000C0 d.val a.val b.val k.val 0 = N
  obtain ⟨h0, hlt, hlow, r0, r1, r2, r3⟩ := fieldsV (n := N) 24 d.val a.val b.val k.val (0xC0)
    (by rw [← hN]; simp only [encV]; omega) (by decide) d.isLt a.isLt b.isLt k.isLt (by decide)
  have h1 : fld N 5 6 = 6 := fld_low 11 hlow (by decide)
  have h2 : fld N 0 5 = 0 := fld_low 11 hlow (by decide)
  have q : decVint N = .ok (.vand d a b k) := by
    unfold decVint; rw [h1, h2, vAt_eq r0, vAt_eq r1, vAt_eq r2, mAt_eq r3]; rfl
  exact of_raw (congrArg some hN) hlt (by unfold rawDecode; rw [h0]; exact q)

theorem vor (d : VReg) (a : VReg) (b : VReg) (k : MReg) : Statement (.vor d a b k) := by
  generalize hN : encV 0x600000E0 d.val a.val b.val k.val 0 = N
  obtain ⟨h0, hlt, hlow, r0, r1, r2, r3⟩ := fieldsV (n := N) 24 d.val a.val b.val k.val (0xE0)
    (by rw [← hN]; simp only [encV]; omega) (by decide) d.isLt a.isLt b.isLt k.isLt (by decide)
  have h1 : fld N 5 6 = 7 := fld_low 11 hlow (by decide)
  have h2 : fld N 0 5 = 0 := fld_low 11 hlow (by decide)
  have q : decVint N = .ok (.vor d a b k) := by
    unfold decVint; rw [h1, h2, vAt_eq r0, vAt_eq r1, vAt_eq r2, mAt_eq r3]; rfl
  exact of_raw (congrArg some hN) hlt (by unfold rawDecode; rw [h0]; exact q)

theorem vxor (d : VReg) (a : VReg) (b : VReg) (k : MReg) : Statement (.vxor d a b k) := by
  generalize hN : encV 0x60000100 d.val a.val b.val k.val 0 = N
  obtain ⟨h0, hlt, hlow, r0, r1, r2, r3⟩ := fieldsV (n := N) 24 d.val a.val b.val k.val (0x100)
    (by rw [← hN]; simp only [encV]; omega) (by decide) d.isLt a.isLt b.isLt k.isLt (by decide)
  have h1 : fld N 5 6 = 8 := fld_low 11 hlow (by decide)
  have h2 : fld N 0 5 = 0 := fld_low 11 hlow (by decide)
  have q : decVint N = .ok (.vxor d a b k) := by
    unfold decVint; rw [h1, h2, vAt_eq r0, vAt_eq r1, vAt_eq r2, mAt_eq r3]; rfl
  exact of_raw (congrArg some hN) hlt (by unfold rawDecode; rw [h0]; exact q)

theorem vsll (d : VReg) (a : VReg) (b : VReg) (k : MReg) (t : VType) : Statement (.vsll d a b k t) := by
  generalize hN : encV 0x60000120 d.val a.val b.val k.val (vtCode t) = N
  obtain ⟨h0, hlt, hlow, r0, r1, r2, r3⟩ := fieldsV (n := N) 24 d.val a.val b.val k.val (0x120 + (vtCode t))
    (by rw [← hN]; simp only [encV]; omega) (by decide) d.isLt a.isLt b.isLt k.isLt (by have := vtCode_lt t; omega)
  have h1 : fld N 5 6 = 9 := by rw [fld_low 11 hlow (by decide)]; simp only [fld]; have := vtCode_lt t; omega
  have h2 : fld N 0 5 = vtCode t := by rw [fld_low 11 hlow (by decide)]; simp only [fld]; have := vtCode_lt t; omega
  have q : decVint N = .ok (.vsll d a b k t) := by
    unfold decVint; rw [h1, h2, vtOf_vtCode, vAt_eq r0, vAt_eq r1, vAt_eq r2, mAt_eq r3]; rfl
  exact of_raw (congrArg some hN) hlt (by unfold rawDecode; rw [h0]; exact q)

theorem vsrl (d : VReg) (a : VReg) (b : VReg) (k : MReg) (t : VType) : Statement (.vsrl d a b k t) := by
  generalize hN : encV 0x60000140 d.val a.val b.val k.val (vtCode t) = N
  obtain ⟨h0, hlt, hlow, r0, r1, r2, r3⟩ := fieldsV (n := N) 24 d.val a.val b.val k.val (0x140 + (vtCode t))
    (by rw [← hN]; simp only [encV]; omega) (by decide) d.isLt a.isLt b.isLt k.isLt (by have := vtCode_lt t; omega)
  have h1 : fld N 5 6 = 10 := by rw [fld_low 11 hlow (by decide)]; simp only [fld]; have := vtCode_lt t; omega
  have h2 : fld N 0 5 = vtCode t := by rw [fld_low 11 hlow (by decide)]; simp only [fld]; have := vtCode_lt t; omega
  have q : decVint N = .ok (.vsrl d a b k t) := by
    unfold decVint; rw [h1, h2, vtOf_vtCode, vAt_eq r0, vAt_eq r1, vAt_eq r2, mAt_eq r3]; rfl
  exact of_raw (congrArg some hN) hlt (by unfold rawDecode; rw [h0]; exact q)

theorem vsra (d : VReg) (a : VReg) (b : VReg) (k : MReg) (t : VType) : Statement (.vsra d a b k t) := by
  generalize hN : encV 0x60000160 d.val a.val b.val k.val (vtCode t) = N
  obtain ⟨h0, hlt, hlow, r0, r1, r2, r3⟩ := fieldsV (n := N) 24 d.val a.val b.val k.val (0x160 + (vtCode t))
    (by rw [← hN]; simp only [encV]; omega) (by decide) d.isLt a.isLt b.isLt k.isLt (by have := vtCode_lt t; omega)
  have h1 : fld N 5 6 = 11 := by rw [fld_low 11 hlow (by decide)]; simp only [fld]; have := vtCode_lt t; omega
  have h2 : fld N 0 5 = vtCode t := by rw [fld_low 11 hlow (by decide)]; simp only [fld]; have := vtCode_lt t; omega
  have q : decVint N = .ok (.vsra d a b k t) := by
    unfold decVint; rw [h1, h2, vtOf_vtCode, vAt_eq r0, vAt_eq r1, vAt_eq r2, mAt_eq r3]; rfl
  exact of_raw (congrArg some hN) hlt (by unfold rawDecode; rw [h0]; exact q)

theorem vadds (d : VReg) (a : VReg) (b : VReg) (k : MReg) (t : VType) : Statement (.vadds d a b k t) := by
  generalize hN : encV 0x60000180 d.val a.val b.val k.val (vtCode t) = N
  obtain ⟨h0, hlt, hlow, r0, r1, r2, r3⟩ := fieldsV (n := N) 24 d.val a.val b.val k.val (0x180 + (vtCode t))
    (by rw [← hN]; simp only [encV]; omega) (by decide) d.isLt a.isLt b.isLt k.isLt (by have := vtCode_lt t; omega)
  have h1 : fld N 5 6 = 12 := by rw [fld_low 11 hlow (by decide)]; simp only [fld]; have := vtCode_lt t; omega
  have h2 : fld N 0 5 = vtCode t := by rw [fld_low 11 hlow (by decide)]; simp only [fld]; have := vtCode_lt t; omega
  have q : decVint N = .ok (.vadds d a b k t) := by
    unfold decVint; rw [h1, h2, vtOf_vtCode, vAt_eq r0, vAt_eq r1, vAt_eq r2, mAt_eq r3]; rfl
  exact of_raw (congrArg some hN) hlt (by unfold rawDecode; rw [h0]; exact q)

theorem vsubs (d : VReg) (a : VReg) (b : VReg) (k : MReg) (t : VType) : Statement (.vsubs d a b k t) := by
  generalize hN : encV 0x600001A0 d.val a.val b.val k.val (vtCode t) = N
  obtain ⟨h0, hlt, hlow, r0, r1, r2, r3⟩ := fieldsV (n := N) 24 d.val a.val b.val k.val (0x1A0 + (vtCode t))
    (by rw [← hN]; simp only [encV]; omega) (by decide) d.isLt a.isLt b.isLt k.isLt (by have := vtCode_lt t; omega)
  have h1 : fld N 5 6 = 13 := by rw [fld_low 11 hlow (by decide)]; simp only [fld]; have := vtCode_lt t; omega
  have h2 : fld N 0 5 = vtCode t := by rw [fld_low 11 hlow (by decide)]; simp only [fld]; have := vtCode_lt t; omega
  have q : decVint N = .ok (.vsubs d a b k t) := by
    unfold decVint; rw [h1, h2, vtOf_vtCode, vAt_eq r0, vAt_eq r1, vAt_eq r2, mAt_eq r3]; rfl
  exact of_raw (congrArg some hN) hlt (by unfold rawDecode; rw [h0]; exact q)

theorem vcmpEq (d : MReg) (a : VReg) (b : VReg) (k : MReg) (t : VType) : Statement (.vcmpEq d a b k t) := by
  generalize hN : encV 0x60000200 d.val a.val b.val k.val (vtCode t) = N
  obtain ⟨h0, hlt, hlow, r0, r1, r2, r3⟩ := fieldsV (n := N) 24 d.val a.val b.val k.val (0x200 + (vtCode t))
    (by rw [← hN]; simp only [encV]; omega) (by decide) (by have := d.isLt; omega) a.isLt b.isLt k.isLt (by have := vtCode_lt t; omega)
  have h1 : fld N 5 6 = 16 := by rw [fld_low 11 hlow (by decide)]; simp only [fld]; have := vtCode_lt t; omega
  have h2 : fld N 25 1 = 0 := by rw [← hN]; simp only [fld, encV]; have := d.isLt; have := a.isLt; have := b.isLt; have := k.isLt; have := vtCode_lt t; omega
  have h3 : fld N 0 5 = vtCode t := by rw [fld_low 11 hlow (by decide)]; simp only [fld]; have := vtCode_lt t; omega
  have h4 : fld N 22 3 = d.val := by rw [← hN]; simp only [fld, encV]; have := d.isLt; have := a.isLt; have := b.isLt; have := k.isLt; have := vtCode_lt t; omega
  have q : decVint N = .ok (.vcmpEq d a b k t) := by
    unfold decVint; rw [h1, h2, h3, vtOf_vtCode, mAt_eq h4, vAt_eq r1, vAt_eq r2, mAt_eq r3]; rfl
  exact of_raw (congrArg some hN) hlt (by unfold rawDecode; rw [h0]; exact q)

theorem vcmpNe (d : MReg) (a : VReg) (b : VReg) (k : MReg) (t : VType) : Statement (.vcmpNe d a b k t) := by
  generalize hN : encV 0x60000220 d.val a.val b.val k.val (vtCode t) = N
  obtain ⟨h0, hlt, hlow, r0, r1, r2, r3⟩ := fieldsV (n := N) 24 d.val a.val b.val k.val (0x220 + (vtCode t))
    (by rw [← hN]; simp only [encV]; omega) (by decide) (by have := d.isLt; omega) a.isLt b.isLt k.isLt (by have := vtCode_lt t; omega)
  have h1 : fld N 5 6 = 17 := by rw [fld_low 11 hlow (by decide)]; simp only [fld]; have := vtCode_lt t; omega
  have h2 : fld N 25 1 = 0 := by rw [← hN]; simp only [fld, encV]; have := d.isLt; have := a.isLt; have := b.isLt; have := k.isLt; have := vtCode_lt t; omega
  have h3 : fld N 0 5 = vtCode t := by rw [fld_low 11 hlow (by decide)]; simp only [fld]; have := vtCode_lt t; omega
  have h4 : fld N 22 3 = d.val := by rw [← hN]; simp only [fld, encV]; have := d.isLt; have := a.isLt; have := b.isLt; have := k.isLt; have := vtCode_lt t; omega
  have q : decVint N = .ok (.vcmpNe d a b k t) := by
    unfold decVint; rw [h1, h2, h3, vtOf_vtCode, mAt_eq h4, vAt_eq r1, vAt_eq r2, mAt_eq r3]; rfl
  exact of_raw (congrArg some hN) hlt (by unfold rawDecode; rw [h0]; exact q)

theorem vcmpLt (d : MReg) (a : VReg) (b : VReg) (k : MReg) (t : VType) : Statement (.vcmpLt d a b k t) := by
  generalize hN : encV 0x60000240 d.val a.val b.val k.val (vtCode t) = N
  obtain ⟨h0, hlt, hlow, r0, r1, r2, r3⟩ := fieldsV (n := N) 24 d.val a.val b.val k.val (0x240 + (vtCode t))
    (by rw [← hN]; simp only [encV]; omega) (by decide) (by have := d.isLt; omega) a.isLt b.isLt k.isLt (by have := vtCode_lt t; omega)
  have h1 : fld N 5 6 = 18 := by rw [fld_low 11 hlow (by decide)]; simp only [fld]; have := vtCode_lt t; omega
  have h2 : fld N 25 1 = 0 := by rw [← hN]; simp only [fld, encV]; have := d.isLt; have := a.isLt; have := b.isLt; have := k.isLt; have := vtCode_lt t; omega
  have h3 : fld N 0 5 = vtCode t := by rw [fld_low 11 hlow (by decide)]; simp only [fld]; have := vtCode_lt t; omega
  have h4 : fld N 22 3 = d.val := by rw [← hN]; simp only [fld, encV]; have := d.isLt; have := a.isLt; have := b.isLt; have := k.isLt; have := vtCode_lt t; omega
  have q : decVint N = .ok (.vcmpLt d a b k t) := by
    unfold decVint; rw [h1, h2, h3, vtOf_vtCode, mAt_eq h4, vAt_eq r1, vAt_eq r2, mAt_eq r3]; rfl
  exact of_raw (congrArg some hN) hlt (by unfold rawDecode; rw [h0]; exact q)

theorem vcmpLe (d : MReg) (a : VReg) (b : VReg) (k : MReg) (t : VType) : Statement (.vcmpLe d a b k t) := by
  generalize hN : encV 0x60000260 d.val a.val b.val k.val (vtCode t) = N
  obtain ⟨h0, hlt, hlow, r0, r1, r2, r3⟩ := fieldsV (n := N) 24 d.val a.val b.val k.val (0x260 + (vtCode t))
    (by rw [← hN]; simp only [encV]; omega) (by decide) (by have := d.isLt; omega) a.isLt b.isLt k.isLt (by have := vtCode_lt t; omega)
  have h1 : fld N 5 6 = 19 := by rw [fld_low 11 hlow (by decide)]; simp only [fld]; have := vtCode_lt t; omega
  have h2 : fld N 25 1 = 0 := by rw [← hN]; simp only [fld, encV]; have := d.isLt; have := a.isLt; have := b.isLt; have := k.isLt; have := vtCode_lt t; omega
  have h3 : fld N 0 5 = vtCode t := by rw [fld_low 11 hlow (by decide)]; simp only [fld]; have := vtCode_lt t; omega
  have h4 : fld N 22 3 = d.val := by rw [← hN]; simp only [fld, encV]; have := d.isLt; have := a.isLt; have := b.isLt; have := k.isLt; have := vtCode_lt t; omega
  have q : decVint N = .ok (.vcmpLe d a b k t) := by
    unfold decVint; rw [h1, h2, h3, vtOf_vtCode, mAt_eq h4, vAt_eq r1, vAt_eq r2, mAt_eq r3]; rfl
  exact of_raw (congrArg some hN) hlt (by unfold rawDecode; rw [h0]; exact q)

theorem vsel (d : VReg) (a : VReg) (b : VReg) (k : MReg) : Statement (.vsel d a b k) := by
  generalize hN : encV 0x60000280 d.val a.val b.val k.val 0 = N
  obtain ⟨h0, hlt, hlow, r0, r1, r2, r3⟩ := fieldsV (n := N) 24 d.val a.val b.val k.val (0x280)
    (by rw [← hN]; simp only [encV]; omega) (by decide) d.isLt a.isLt b.isLt k.isLt (by decide)
  have h1 : fld N 5 6 = 20 := fld_low 11 hlow (by decide)
  have h2 : fld N 0 5 = 0 := fld_low 11 hlow (by decide)
  have q : decVint N = .ok (.vsel d a b k) := by
    unfold decVint; rw [h1, h2, vAt_eq r0, vAt_eq r1, vAt_eq r2, mAt_eq r3]; rfl
  exact of_raw (congrArg some hN) hlt (by unfold rawDecode; rw [h0]; exact q)

theorem vmand (d : MReg) (a : MReg) (b : MReg) : Statement (.vmand d a b) := by
  generalize hN : encV 0x60000300 d.val a.val b.val 0 0 = N
  obtain ⟨h0, hlt, hlow, r0, r1, r2, r3⟩ := fieldsV (n := N) 24 d.val a.val b.val 0 (0x300)
    (by rw [← hN]; simp only [encV]; omega) (by decide) (by have := d.isLt; omega) (by have := a.isLt; omega) (by have := b.isLt; omega) (by decide) (by decide)
  have h1 : fld N 5 6 = 24 := fld_low 11 hlow (by decide)
  have h2 : fld N 0 5 = 0 := fld_low 11 hlow (by decide)
  have h3 : fld N 17 1 = 0 := by rw [← hN]; simp only [fld, encV]; have := d.isLt; have := a.isLt; have := b.isLt; omega
  have h4 : fld N 21 1 = 0 := by rw [← hN]; simp only [fld, encV]; have := d.isLt; have := a.isLt; have := b.isLt; omega
  have h5 : fld N 25 1 = 0 := by rw [← hN]; simp only [fld, encV]; have := d.isLt; have := a.isLt; have := b.isLt; omega
  have h6 : fld N 22 3 = d.val := by rw [← hN]; simp only [fld, encV]; have := d.isLt; have := a.isLt; have := b.isLt; omega
  have h7 : fld N 18 3 = a.val := by rw [← hN]; simp only [fld, encV]; have := d.isLt; have := a.isLt; have := b.isLt; omega
  have h8 : fld N 14 3 = b.val := by rw [← hN]; simp only [fld, encV]; have := d.isLt; have := a.isLt; have := b.isLt; omega
  have q : decVint N = .ok (.vmand d a b) := by
    unfold decVint; rw [h1, h2, r3, h3, h4, h5, mAt_eq h6, mAt_eq h7, mAt_eq h8]; rfl
  exact of_raw (congrArg some hN) hlt (by unfold rawDecode; rw [h0]; exact q)

theorem vmor (d : MReg) (a : MReg) (b : MReg) : Statement (.vmor d a b) := by
  generalize hN : encV 0x60000320 d.val a.val b.val 0 0 = N
  obtain ⟨h0, hlt, hlow, r0, r1, r2, r3⟩ := fieldsV (n := N) 24 d.val a.val b.val 0 (0x320)
    (by rw [← hN]; simp only [encV]; omega) (by decide) (by have := d.isLt; omega) (by have := a.isLt; omega) (by have := b.isLt; omega) (by decide) (by decide)
  have h1 : fld N 5 6 = 25 := fld_low 11 hlow (by decide)
  have h2 : fld N 0 5 = 0 := fld_low 11 hlow (by decide)
  have h3 : fld N 17 1 = 0 := by rw [← hN]; simp only [fld, encV]; have := d.isLt; have := a.isLt; have := b.isLt; omega
  have h4 : fld N 21 1 = 0 := by rw [← hN]; simp only [fld, encV]; have := d.isLt; have := a.isLt; have := b.isLt; omega
  have h5 : fld N 25 1 = 0 := by rw [← hN]; simp only [fld, encV]; have := d.isLt; have := a.isLt; have := b.isLt; omega
  have h6 : fld N 22 3 = d.val := by rw [← hN]; simp only [fld, encV]; have := d.isLt; have := a.isLt; have := b.isLt; omega
  have h7 : fld N 18 3 = a.val := by rw [← hN]; simp only [fld, encV]; have := d.isLt; have := a.isLt; have := b.isLt; omega
  have h8 : fld N 14 3 = b.val := by rw [← hN]; simp only [fld, encV]; have := d.isLt; have := a.isLt; have := b.isLt; omega
  have q : decVint N = .ok (.vmor d a b) := by
    unfold decVint; rw [h1, h2, r3, h3, h4, h5, mAt_eq h6, mAt_eq h7, mAt_eq h8]; rfl
  exact of_raw (congrArg some hN) hlt (by unfold rawDecode; rw [h0]; exact q)

theorem vmxor (d : MReg) (a : MReg) (b : MReg) : Statement (.vmxor d a b) := by
  generalize hN : encV 0x60000340 d.val a.val b.val 0 0 = N
  obtain ⟨h0, hlt, hlow, r0, r1, r2, r3⟩ := fieldsV (n := N) 24 d.val a.val b.val 0 (0x340)
    (by rw [← hN]; simp only [encV]; omega) (by decide) (by have := d.isLt; omega) (by have := a.isLt; omega) (by have := b.isLt; omega) (by decide) (by decide)
  have h1 : fld N 5 6 = 26 := fld_low 11 hlow (by decide)
  have h2 : fld N 0 5 = 0 := fld_low 11 hlow (by decide)
  have h3 : fld N 17 1 = 0 := by rw [← hN]; simp only [fld, encV]; have := d.isLt; have := a.isLt; have := b.isLt; omega
  have h4 : fld N 21 1 = 0 := by rw [← hN]; simp only [fld, encV]; have := d.isLt; have := a.isLt; have := b.isLt; omega
  have h5 : fld N 25 1 = 0 := by rw [← hN]; simp only [fld, encV]; have := d.isLt; have := a.isLt; have := b.isLt; omega
  have h6 : fld N 22 3 = d.val := by rw [← hN]; simp only [fld, encV]; have := d.isLt; have := a.isLt; have := b.isLt; omega
  have h7 : fld N 18 3 = a.val := by rw [← hN]; simp only [fld, encV]; have := d.isLt; have := a.isLt; have := b.isLt; omega
  have h8 : fld N 14 3 = b.val := by rw [← hN]; simp only [fld, encV]; have := d.isLt; have := a.isLt; have := b.isLt; omega
  have q : decVint N = .ok (.vmxor d a b) := by
    unfold decVint; rw [h1, h2, r3, h3, h4, h5, mAt_eq h6, mAt_eq h7, mAt_eq h8]; rfl
  exact of_raw (congrArg some hN) hlt (by unfold rawDecode; rw [h0]; exact q)

theorem vmandn (d : MReg) (a : MReg) (b : MReg) : Statement (.vmandn d a b) := by
  generalize hN : encV 0x60000360 d.val a.val b.val 0 0 = N
  obtain ⟨h0, hlt, hlow, r0, r1, r2, r3⟩ := fieldsV (n := N) 24 d.val a.val b.val 0 (0x360)
    (by rw [← hN]; simp only [encV]; omega) (by decide) (by have := d.isLt; omega) (by have := a.isLt; omega) (by have := b.isLt; omega) (by decide) (by decide)
  have h1 : fld N 5 6 = 27 := fld_low 11 hlow (by decide)
  have h2 : fld N 0 5 = 0 := fld_low 11 hlow (by decide)
  have h3 : fld N 17 1 = 0 := by rw [← hN]; simp only [fld, encV]; have := d.isLt; have := a.isLt; have := b.isLt; omega
  have h4 : fld N 21 1 = 0 := by rw [← hN]; simp only [fld, encV]; have := d.isLt; have := a.isLt; have := b.isLt; omega
  have h5 : fld N 25 1 = 0 := by rw [← hN]; simp only [fld, encV]; have := d.isLt; have := a.isLt; have := b.isLt; omega
  have h6 : fld N 22 3 = d.val := by rw [← hN]; simp only [fld, encV]; have := d.isLt; have := a.isLt; have := b.isLt; omega
  have h7 : fld N 18 3 = a.val := by rw [← hN]; simp only [fld, encV]; have := d.isLt; have := a.isLt; have := b.isLt; omega
  have h8 : fld N 14 3 = b.val := by rw [← hN]; simp only [fld, encV]; have := d.isLt; have := a.isLt; have := b.isLt; omega
  have q : decVint N = .ok (.vmandn d a b) := by
    unfold decVint; rw [h1, h2, r3, h3, h4, h5, mAt_eq h6, mAt_eq h7, mAt_eq h8]; rfl
  exact of_raw (congrArg some hN) hlt (by unfold rawDecode; rw [h0]; exact q)

theorem vrsum (d : VReg) (a : VReg) (k : MReg) (t : VType) : Statement (.vrsum d a k t) := by
  generalize hN : encV 0x60000400 d.val a.val 0 k.val (vtCode t) = N
  obtain ⟨h0, hlt, hlow, r0, r1, r2, r3⟩ := fieldsV (n := N) 24 d.val a.val 0 k.val (0x400 + (vtCode t))
    (by rw [← hN]; simp only [encV]; omega) (by decide) d.isLt a.isLt (by decide) k.isLt (by have := vtCode_lt t; omega)
  have h1 : fld N 5 6 = 32 := by rw [fld_low 11 hlow (by decide)]; simp only [fld]; have := vtCode_lt t; omega
  have h2 : fld N 0 5 = vtCode t := by rw [fld_low 11 hlow (by decide)]; simp only [fld]; have := vtCode_lt t; omega
  have q : decVint N = .ok (.vrsum d a k t) := by
    unfold decVint; rw [h1, r2, h2, vtOf_vtCode, vAt_eq r0, vAt_eq r1, mAt_eq r3]; rfl
  exact of_raw (congrArg some hN) hlt (by unfold rawDecode; rw [h0]; exact q)

theorem vrmax (d : VReg) (a : VReg) (k : MReg) (t : VType) : Statement (.vrmax d a k t) := by
  generalize hN : encV 0x60000420 d.val a.val 0 k.val (vtCode t) = N
  obtain ⟨h0, hlt, hlow, r0, r1, r2, r3⟩ := fieldsV (n := N) 24 d.val a.val 0 k.val (0x420 + (vtCode t))
    (by rw [← hN]; simp only [encV]; omega) (by decide) d.isLt a.isLt (by decide) k.isLt (by have := vtCode_lt t; omega)
  have h1 : fld N 5 6 = 33 := by rw [fld_low 11 hlow (by decide)]; simp only [fld]; have := vtCode_lt t; omega
  have h2 : fld N 0 5 = vtCode t := by rw [fld_low 11 hlow (by decide)]; simp only [fld]; have := vtCode_lt t; omega
  have q : decVint N = .ok (.vrmax d a k t) := by
    unfold decVint; rw [h1, r2, h2, vtOf_vtCode, vAt_eq r0, vAt_eq r1, mAt_eq r3]; rfl
  exact of_raw (congrArg some hN) hlt (by unfold rawDecode; rw [h0]; exact q)

theorem vperm (d : VReg) (a : VReg) (b : VReg) (k : MReg) : Statement (.vperm d a b k) := by
  generalize hN : encV 0x60000480 d.val a.val b.val k.val 0 = N
  obtain ⟨h0, hlt, hlow, r0, r1, r2, r3⟩ := fieldsV (n := N) 24 d.val a.val b.val k.val (0x480)
    (by rw [← hN]; simp only [encV]; omega) (by decide) d.isLt a.isLt b.isLt k.isLt (by decide)
  have h1 : fld N 5 6 = 36 := fld_low 11 hlow (by decide)
  have h2 : fld N 0 5 = 0 := fld_low 11 hlow (by decide)
  have q : decVint N = .ok (.vperm d a b k) := by
    unfold decVint; rw [h1, h2, vAt_eq r0, vAt_eq r1, vAt_eq r2, mAt_eq r3]; rfl
  exact of_raw (congrArg some hN) hlt (by unfold rawDecode; rw [h0]; exact q)

theorem vfadd (d : VReg) (a : VReg) (b : VReg) (k : MReg) (t : VType) : Statement (.vfadd d a b k t) := by
  generalize hN : encV 0x64000000 d.val a.val b.val k.val (vtCode t) = N
  obtain ⟨h0, hlt, hlow, r0, r1, r2, r3⟩ := fieldsV (n := N) 25 d.val a.val b.val k.val ((vtCode t))
    (by rw [← hN]; simp only [encV]; omega) (by decide) d.isLt a.isLt b.isLt k.isLt (by have := vtCode_lt t; omega)
  have h1 : fld N 5 6 = 0 := by rw [fld_low 11 hlow (by decide)]; simp only [fld]; have := vtCode_lt t; omega
  have h2 : fld N 0 5 = vtCode t := by rw [fld_low 11 hlow (by decide)]; simp only [fld]; have := vtCode_lt t; omega
  have q : decVfp N = .ok (.vfadd d a b k t) := by
    unfold decVfp; rw [h1, h2, vtOf_vtCode, vAt_eq r0, vAt_eq r1, vAt_eq r2, mAt_eq r3]; rfl
  exact of_raw (congrArg some hN) hlt (by unfold rawDecode; rw [h0]; exact q)

theorem vfsub (d : VReg) (a : VReg) (b : VReg) (k : MReg) (t : VType) : Statement (.vfsub d a b k t) := by
  generalize hN : encV 0x64000020 d.val a.val b.val k.val (vtCode t) = N
  obtain ⟨h0, hlt, hlow, r0, r1, r2, r3⟩ := fieldsV (n := N) 25 d.val a.val b.val k.val (0x20 + (vtCode t))
    (by rw [← hN]; simp only [encV]; omega) (by decide) d.isLt a.isLt b.isLt k.isLt (by have := vtCode_lt t; omega)
  have h1 : fld N 5 6 = 1 := by rw [fld_low 11 hlow (by decide)]; simp only [fld]; have := vtCode_lt t; omega
  have h2 : fld N 0 5 = vtCode t := by rw [fld_low 11 hlow (by decide)]; simp only [fld]; have := vtCode_lt t; omega
  have q : decVfp N = .ok (.vfsub d a b k t) := by
    unfold decVfp; rw [h1, h2, vtOf_vtCode, vAt_eq r0, vAt_eq r1, vAt_eq r2, mAt_eq r3]; rfl
  exact of_raw (congrArg some hN) hlt (by unfold rawDecode; rw [h0]; exact q)

theorem vfmul (d : VReg) (a : VReg) (b : VReg) (k : MReg) (t : VType) : Statement (.vfmul d a b k t) := by
  generalize hN : encV 0x64000040 d.val a.val b.val k.val (vtCode t) = N
  obtain ⟨h0, hlt, hlow, r0, r1, r2, r3⟩ := fieldsV (n := N) 25 d.val a.val b.val k.val (0x40 + (vtCode t))
    (by rw [← hN]; simp only [encV]; omega) (by decide) d.isLt a.isLt b.isLt k.isLt (by have := vtCode_lt t; omega)
  have h1 : fld N 5 6 = 2 := by rw [fld_low 11 hlow (by decide)]; simp only [fld]; have := vtCode_lt t; omega
  have h2 : fld N 0 5 = vtCode t := by rw [fld_low 11 hlow (by decide)]; simp only [fld]; have := vtCode_lt t; omega
  have q : decVfp N = .ok (.vfmul d a b k t) := by
    unfold decVfp; rw [h1, h2, vtOf_vtCode, vAt_eq r0, vAt_eq r1, vAt_eq r2, mAt_eq r3]; rfl
  exact of_raw (congrArg some hN) hlt (by unfold rawDecode; rw [h0]; exact q)

theorem vfma (d : VReg) (a : VReg) (b : VReg) (k : MReg) (t : VType) : Statement (.vfma d a b k t) := by
  generalize hN : encV 0x64000060 d.val a.val b.val k.val (vtCode t) = N
  obtain ⟨h0, hlt, hlow, r0, r1, r2, r3⟩ := fieldsV (n := N) 25 d.val a.val b.val k.val (0x60 + (vtCode t))
    (by rw [← hN]; simp only [encV]; omega) (by decide) d.isLt a.isLt b.isLt k.isLt (by have := vtCode_lt t; omega)
  have h1 : fld N 5 6 = 3 := by rw [fld_low 11 hlow (by decide)]; simp only [fld]; have := vtCode_lt t; omega
  have h2 : fld N 0 5 = vtCode t := by rw [fld_low 11 hlow (by decide)]; simp only [fld]; have := vtCode_lt t; omega
  have q : decVfp N = .ok (.vfma d a b k t) := by
    unfold decVfp; rw [h1, h2, vtOf_vtCode, vAt_eq r0, vAt_eq r1, vAt_eq r2, mAt_eq r3]; rfl
  exact of_raw (congrArg some hN) hlt (by unfold rawDecode; rw [h0]; exact q)

theorem vfmin (d : VReg) (a : VReg) (b : VReg) (k : MReg) (t : VType) : Statement (.vfmin d a b k t) := by
  generalize hN : encV 0x64000080 d.val a.val b.val k.val (vtCode t) = N
  obtain ⟨h0, hlt, hlow, r0, r1, r2, r3⟩ := fieldsV (n := N) 25 d.val a.val b.val k.val (0x80 + (vtCode t))
    (by rw [← hN]; simp only [encV]; omega) (by decide) d.isLt a.isLt b.isLt k.isLt (by have := vtCode_lt t; omega)
  have h1 : fld N 5 6 = 4 := by rw [fld_low 11 hlow (by decide)]; simp only [fld]; have := vtCode_lt t; omega
  have h2 : fld N 0 5 = vtCode t := by rw [fld_low 11 hlow (by decide)]; simp only [fld]; have := vtCode_lt t; omega
  have q : decVfp N = .ok (.vfmin d a b k t) := by
    unfold decVfp; rw [h1, h2, vtOf_vtCode, vAt_eq r0, vAt_eq r1, vAt_eq r2, mAt_eq r3]; rfl
  exact of_raw (congrArg some hN) hlt (by unfold rawDecode; rw [h0]; exact q)

theorem vfmax (d : VReg) (a : VReg) (b : VReg) (k : MReg) (t : VType) : Statement (.vfmax d a b k t) := by
  generalize hN : encV 0x640000A0 d.val a.val b.val k.val (vtCode t) = N
  obtain ⟨h0, hlt, hlow, r0, r1, r2, r3⟩ := fieldsV (n := N) 25 d.val a.val b.val k.val (0xA0 + (vtCode t))
    (by rw [← hN]; simp only [encV]; omega) (by decide) d.isLt a.isLt b.isLt k.isLt (by have := vtCode_lt t; omega)
  have h1 : fld N 5 6 = 5 := by rw [fld_low 11 hlow (by decide)]; simp only [fld]; have := vtCode_lt t; omega
  have h2 : fld N 0 5 = vtCode t := by rw [fld_low 11 hlow (by decide)]; simp only [fld]; have := vtCode_lt t; omega
  have q : decVfp N = .ok (.vfmax d a b k t) := by
    unfold decVfp; rw [h1, h2, vtOf_vtCode, vAt_eq r0, vAt_eq r1, vAt_eq r2, mAt_eq r3]; rfl
  exact of_raw (congrArg some hN) hlt (by unfold rawDecode; rw [h0]; exact q)

theorem vfcmpEq (d : MReg) (a : VReg) (b : VReg) (k : MReg) : Statement (.vfcmpEq d a b k) := by
  generalize hN : encV 0x64000108 d.val a.val b.val k.val 0 = N
  obtain ⟨h0, hlt, hlow, r0, r1, r2, r3⟩ := fieldsV (n := N) 25 d.val a.val b.val k.val (0x108)
    (by rw [← hN]; simp only [encV]; omega) (by decide) (by have := d.isLt; omega) a.isLt b.isLt k.isLt (by decide)
  have h1 : fld N 5 6 = 8 := fld_low 11 hlow (by decide)
  have h2 : fld N 0 5 = 8 := fld_low 11 hlow (by decide)
  have h3 : fld N 25 1 = 0 := by rw [← hN]; simp only [fld, encV]; have := d.isLt; have := a.isLt; have := b.isLt; have := k.isLt; omega
  have h4 : fld N 22 3 = d.val := by rw [← hN]; simp only [fld, encV]; have := d.isLt; have := a.isLt; have := b.isLt; have := k.isLt; omega
  have q : decVfp N = .ok (.vfcmpEq d a b k) := by
    unfold decVfp; rw [h1, h2, h3, mAt_eq h4, vAt_eq r1, vAt_eq r2, mAt_eq r3]; rfl
  exact of_raw (congrArg some hN) hlt (by unfold rawDecode; rw [h0]; exact q)

theorem vfcmpLt (d : MReg) (a : VReg) (b : VReg) (k : MReg) : Statement (.vfcmpLt d a b k) := by
  generalize hN : encV 0x64000128 d.val a.val b.val k.val 0 = N
  obtain ⟨h0, hlt, hlow, r0, r1, r2, r3⟩ := fieldsV (n := N) 25 d.val a.val b.val k.val (0x128)
    (by rw [← hN]; simp only [encV]; omega) (by decide) (by have := d.isLt; omega) a.isLt b.isLt k.isLt (by decide)
  have h1 : fld N 5 6 = 9 := fld_low 11 hlow (by decide)
  have h2 : fld N 0 5 = 8 := fld_low 11 hlow (by decide)
  have h3 : fld N 25 1 = 0 := by rw [← hN]; simp only [fld, encV]; have := d.isLt; have := a.isLt; have := b.isLt; have := k.isLt; omega
  have h4 : fld N 22 3 = d.val := by rw [← hN]; simp only [fld, encV]; have := d.isLt; have := a.isLt; have := b.isLt; have := k.isLt; omega
  have q : decVfp N = .ok (.vfcmpLt d a b k) := by
    unfold decVfp; rw [h1, h2, h3, mAt_eq h4, vAt_eq r1, vAt_eq r2, mAt_eq r3]; rfl
  exact of_raw (congrArg some hN) hlt (by unfold rawDecode; rw [h0]; exact q)

theorem vfcmpLe (d : MReg) (a : VReg) (b : VReg) (k : MReg) : Statement (.vfcmpLe d a b k) := by
  generalize hN : encV 0x64000148 d.val a.val b.val k.val 0 = N
  obtain ⟨h0, hlt, hlow, r0, r1, r2, r3⟩ := fieldsV (n := N) 25 d.val a.val b.val k.val (0x148)
    (by rw [← hN]; simp only [encV]; omega) (by decide) (by have := d.isLt; omega) a.isLt b.isLt k.isLt (by decide)
  have h1 : fld N 5 6 = 10 := fld_low 11 hlow (by decide)
  have h2 : fld N 0 5 = 8 := fld_low 11 hlow (by decide)
  have h3 : fld N 25 1 = 0 := by rw [← hN]; simp only [fld, encV]; have := d.isLt; have := a.isLt; have := b.isLt; have := k.isLt; omega
  have h4 : fld N 22 3 = d.val := by rw [← hN]; simp only [fld, encV]; have := d.isLt; have := a.isLt; have := b.isLt; have := k.isLt; omega
  have q : decVfp N = .ok (.vfcmpLe d a b k) := by
    unfold decVfp; rw [h1, h2, h3, mAt_eq h4, vAt_eq r1, vAt_eq r2, mAt_eq r3]; rfl
  exact of_raw (congrArg some hN) hlt (by unfold rawDecode; rw [h0]; exact q)

theorem vfcmpUn (d : MReg) (a : VReg) (b : VReg) (k : MReg) : Statement (.vfcmpUn d a b k) := by
  generalize hN : encV 0x64000168 d.val a.val b.val k.val 0 = N
  obtain ⟨h0, hlt, hlow, r0, r1, r2, r3⟩ := fieldsV (n := N) 25 d.val a.val b.val k.val (0x168)
    (by rw [← hN]; simp only [encV]; omega) (by decide) (by have := d.isLt; omega) a.isLt b.isLt k.isLt (by decide)
  have h1 : fld N 5 6 = 11 := fld_low 11 hlow (by decide)
  have h2 : fld N 0 5 = 8 := fld_low 11 hlow (by decide)
  have h3 : fld N 25 1 = 0 := by rw [← hN]; simp only [fld, encV]; have := d.isLt; have := a.isLt; have := b.isLt; have := k.isLt; omega
  have h4 : fld N 22 3 = d.val := by rw [← hN]; simp only [fld, encV]; have := d.isLt; have := a.isLt; have := b.isLt; have := k.isLt; omega
  have q : decVfp N = .ok (.vfcmpUn d a b k) := by
    unfold decVfp; rw [h1, h2, h3, mAt_eq h4, vAt_eq r1, vAt_eq r2, mAt_eq r3]; rfl
  exact of_raw (congrArg some hN) hlt (by unfold rawDecode; rw [h0]; exact q)

theorem vcvt (d : VReg) (a : VReg) (z : VType) (k : MReg) (t : VType) : Statement (.vcvt d a z k t) := by
  generalize hN : encV 0x64000200 d.val a.val (vtCode z) k.val (vtCode t) = N
  obtain ⟨h0, hlt, hlow, r0, r1, r2, r3⟩ := fieldsV (n := N) 25 d.val a.val (vtCode z) k.val (0x200 + (vtCode t))
    (by rw [← hN]; simp only [encV]; omega) (by decide) d.isLt a.isLt (by have := vtCode_lt z; omega) k.isLt (by have := vtCode_lt t; omega)
  have h1 : fld N 5 6 = 16 := by rw [fld_low 11 hlow (by decide)]; simp only [fld]; have := vtCode_lt t; omega
  have h2 : fld N 0 5 = vtCode t := by rw [fld_low 11 hlow (by decide)]; simp only [fld]; have := vtCode_lt t; omega
  have q : decVfp N = .ok (.vcvt d a z k t) := by
    unfold decVfp; rw [h1, r2, vtOf_vtCode, h2, vtOf_vtCode, vAt_eq r0, vAt_eq r1, mAt_eq r3]; rfl
  exact of_raw (congrArg some hN) hlt (by unfold rawDecode; rw [h0]; exact q)

theorem vpk (d : VReg) (a : VReg) (z : VType) (k : MReg) (t : VType) : Statement (.vpk d a z k t) := by
  generalize hN : encV 0x64000220 d.val a.val (vtCode z) k.val (vtCode t) = N
  obtain ⟨h0, hlt, hlow, r0, r1, r2, r3⟩ := fieldsV (n := N) 25 d.val a.val (vtCode z) k.val (0x220 + (vtCode t))
    (by rw [← hN]; simp only [encV]; omega) (by decide) d.isLt a.isLt (by have := vtCode_lt z; omega) k.isLt (by have := vtCode_lt t; omega)
  have h1 : fld N 5 6 = 17 := by rw [fld_low 11 hlow (by decide)]; simp only [fld]; have := vtCode_lt t; omega
  have h2 : fld N 0 5 = vtCode t := by rw [fld_low 11 hlow (by decide)]; simp only [fld]; have := vtCode_lt t; omega
  have q : decVfp N = .ok (.vpk d a z k t) := by
    unfold decVfp; rw [h1, r2, vtOf_vtCode, h2, vtOf_vtCode, vAt_eq r0, vAt_eq r1, mAt_eq r3]; rfl
  exact of_raw (congrArg some hN) hlt (by unfold rawDecode; rw [h0]; exact q)

theorem vex2 (d : VReg) (a : VReg) (k : MReg) (t : VType) : Statement (.vex2 d a k t) := by
  generalize hN : encV 0x64000300 d.val a.val 0 k.val (vtCode t) = N
  obtain ⟨h0, hlt, hlow, r0, r1, r2, r3⟩ := fieldsV (n := N) 25 d.val a.val 0 k.val (0x300 + (vtCode t))
    (by rw [← hN]; simp only [encV]; omega) (by decide) d.isLt a.isLt (by decide) k.isLt (by have := vtCode_lt t; omega)
  have h1 : fld N 5 6 = 24 := by rw [fld_low 11 hlow (by decide)]; simp only [fld]; have := vtCode_lt t; omega
  have h2 : fld N 0 5 = vtCode t := by rw [fld_low 11 hlow (by decide)]; simp only [fld]; have := vtCode_lt t; omega
  have q : decVfp N = .ok (.vex2 d a k t) := by
    unfold decVfp; rw [h1, r2, h2, vtOf_vtCode, vAt_eq r0, vAt_eq r1, mAt_eq r3]; rfl
  exact of_raw (congrArg some hN) hlt (by unfold rawDecode; rw [h0]; exact q)

theorem vlg2 (d : VReg) (a : VReg) (k : MReg) (t : VType) : Statement (.vlg2 d a k t) := by
  generalize hN : encV 0x64000320 d.val a.val 0 k.val (vtCode t) = N
  obtain ⟨h0, hlt, hlow, r0, r1, r2, r3⟩ := fieldsV (n := N) 25 d.val a.val 0 k.val (0x320 + (vtCode t))
    (by rw [← hN]; simp only [encV]; omega) (by decide) d.isLt a.isLt (by decide) k.isLt (by have := vtCode_lt t; omega)
  have h1 : fld N 5 6 = 25 := by rw [fld_low 11 hlow (by decide)]; simp only [fld]; have := vtCode_lt t; omega
  have h2 : fld N 0 5 = vtCode t := by rw [fld_low 11 hlow (by decide)]; simp only [fld]; have := vtCode_lt t; omega
  have q : decVfp N = .ok (.vlg2 d a k t) := by
    unfold decVfp; rw [h1, r2, h2, vtOf_vtCode, vAt_eq r0, vAt_eq r1, mAt_eq r3]; rfl
  exact of_raw (congrArg some hN) hlt (by unfold rawDecode; rw [h0]; exact q)

theorem vrcp (d : VReg) (a : VReg) (k : MReg) (t : VType) : Statement (.vrcp d a k t) := by
  generalize hN : encV 0x64000340 d.val a.val 0 k.val (vtCode t) = N
  obtain ⟨h0, hlt, hlow, r0, r1, r2, r3⟩ := fieldsV (n := N) 25 d.val a.val 0 k.val (0x340 + (vtCode t))
    (by rw [← hN]; simp only [encV]; omega) (by decide) d.isLt a.isLt (by decide) k.isLt (by have := vtCode_lt t; omega)
  have h1 : fld N 5 6 = 26 := by rw [fld_low 11 hlow (by decide)]; simp only [fld]; have := vtCode_lt t; omega
  have h2 : fld N 0 5 = vtCode t := by rw [fld_low 11 hlow (by decide)]; simp only [fld]; have := vtCode_lt t; omega
  have q : decVfp N = .ok (.vrcp d a k t) := by
    unfold decVfp; rw [h1, r2, h2, vtOf_vtCode, vAt_eq r0, vAt_eq r1, mAt_eq r3]; rfl
  exact of_raw (congrArg some hN) hlt (by unfold rawDecode; rw [h0]; exact q)

theorem vrsq (d : VReg) (a : VReg) (k : MReg) (t : VType) : Statement (.vrsq d a k t) := by
  generalize hN : encV 0x64000360 d.val a.val 0 k.val (vtCode t) = N
  obtain ⟨h0, hlt, hlow, r0, r1, r2, r3⟩ := fieldsV (n := N) 25 d.val a.val 0 k.val (0x360 + (vtCode t))
    (by rw [← hN]; simp only [encV]; omega) (by decide) d.isLt a.isLt (by decide) k.isLt (by have := vtCode_lt t; omega)
  have h1 : fld N 5 6 = 27 := by rw [fld_low 11 hlow (by decide)]; simp only [fld]; have := vtCode_lt t; omega
  have h2 : fld N 0 5 = vtCode t := by rw [fld_low 11 hlow (by decide)]; simp only [fld]; have := vtCode_lt t; omega
  have q : decVfp N = .ok (.vrsq d a k t) := by
    unfold decVfp; rw [h1, r2, h2, vtOf_vtCode, vAt_eq r0, vAt_eq r1, mAt_eq r3]; rfl
  exact of_raw (congrArg some hN) hlt (by unfold rawDecode; rw [h0]; exact q)

theorem vsqrt (d : VReg) (a : VReg) (k : MReg) (t : VType) : Statement (.vsqrt d a k t) := by
  generalize hN : encV 0x64000380 d.val a.val 0 k.val (vtCode t) = N
  obtain ⟨h0, hlt, hlow, r0, r1, r2, r3⟩ := fieldsV (n := N) 25 d.val a.val 0 k.val (0x380 + (vtCode t))
    (by rw [← hN]; simp only [encV]; omega) (by decide) d.isLt a.isLt (by decide) k.isLt (by have := vtCode_lt t; omega)
  have h1 : fld N 5 6 = 28 := by rw [fld_low 11 hlow (by decide)]; simp only [fld]; have := vtCode_lt t; omega
  have h2 : fld N 0 5 = vtCode t := by rw [fld_low 11 hlow (by decide)]; simp only [fld]; have := vtCode_lt t; omega
  have q : decVfp N = .ok (.vsqrt d a k t) := by
    unfold decVfp; rw [h1, r2, h2, vtOf_vtCode, vAt_eq r0, vAt_eq r1, mAt_eq r3]; rfl
  exact of_raw (congrArg some hN) hlt (by unfold rawDecode; rw [h0]; exact q)

theorem vsin (d : VReg) (a : VReg) (k : MReg) (t : VType) : Statement (.vsin d a k t) := by
  generalize hN : encV 0x640003A0 d.val a.val 0 k.val (vtCode t) = N
  obtain ⟨h0, hlt, hlow, r0, r1, r2, r3⟩ := fieldsV (n := N) 25 d.val a.val 0 k.val (0x3A0 + (vtCode t))
    (by rw [← hN]; simp only [encV]; omega) (by decide) d.isLt a.isLt (by decide) k.isLt (by have := vtCode_lt t; omega)
  have h1 : fld N 5 6 = 29 := by rw [fld_low 11 hlow (by decide)]; simp only [fld]; have := vtCode_lt t; omega
  have h2 : fld N 0 5 = vtCode t := by rw [fld_low 11 hlow (by decide)]; simp only [fld]; have := vtCode_lt t; omega
  have q : decVfp N = .ok (.vsin d a k t) := by
    unfold decVfp; rw [h1, r2, h2, vtOf_vtCode, vAt_eq r0, vAt_eq r1, mAt_eq r3]; rfl
  exact of_raw (congrArg some hN) hlt (by unfold rawDecode; rw [h0]; exact q)

theorem vcos (d : VReg) (a : VReg) (k : MReg) (t : VType) : Statement (.vcos d a k t) := by
  generalize hN : encV 0x640003C0 d.val a.val 0 k.val (vtCode t) = N
  obtain ⟨h0, hlt, hlow, r0, r1, r2, r3⟩ := fieldsV (n := N) 25 d.val a.val 0 k.val (0x3C0 + (vtCode t))
    (by rw [← hN]; simp only [encV]; omega) (by decide) d.isLt a.isLt (by decide) k.isLt (by have := vtCode_lt t; omega)
  have h1 : fld N 5 6 = 30 := by rw [fld_low 11 hlow (by decide)]; simp only [fld]; have := vtCode_lt t; omega
  have h2 : fld N 0 5 = vtCode t := by rw [fld_low 11 hlow (by decide)]; simp only [fld]; have := vtCode_lt t; omega
  have q : decVfp N = .ok (.vcos d a k t) := by
    unfold decVfp; rw [h1, r2, h2, vtOf_vtCode, vAt_eq r0, vAt_eq r1, mAt_eq r3]; rfl
  exact of_raw (congrArg some hN) hlt (by unfold rawDecode; rw [h0]; exact q)

theorem vrsumF32 (d : VReg) (a : VReg) (k : MReg) : Statement (.vrsumF32 d a k) := by
  generalize hN : encV 0x64000408 d.val a.val 0 k.val 0 = N
  obtain ⟨h0, hlt, hlow, r0, r1, r2, r3⟩ := fieldsV (n := N) 25 d.val a.val 0 k.val (0x408)
    (by rw [← hN]; simp only [encV]; omega) (by decide) d.isLt a.isLt (by decide) k.isLt (by decide)
  have h1 : fld N 5 6 = 32 := fld_low 11 hlow (by decide)
  have h2 : fld N 0 5 = 8 := fld_low 11 hlow (by decide)
  have q : decVfp N = .ok (.vrsumF32 d a k) := by
    unfold decVfp; rw [h1, h2, r2, vAt_eq r0, vAt_eq r1, mAt_eq r3]; rfl
  exact of_raw (congrArg some hN) hlt (by unfold rawDecode; rw [h0]; exact q)

theorem vrmaxF32 (d : VReg) (a : VReg) (k : MReg) : Statement (.vrmaxF32 d a k) := by
  generalize hN : encV 0x64000428 d.val a.val 0 k.val 0 = N
  obtain ⟨h0, hlt, hlow, r0, r1, r2, r3⟩ := fieldsV (n := N) 25 d.val a.val 0 k.val (0x428)
    (by rw [← hN]; simp only [encV]; omega) (by decide) d.isLt a.isLt (by decide) k.isLt (by decide)
  have h1 : fld N 5 6 = 33 := fld_low 11 hlow (by decide)
  have h2 : fld N 0 5 = 8 := fld_low 11 hlow (by decide)
  have q : decVfp N = .ok (.vrmaxF32 d a k) := by
    unfold decVfp; rw [h1, h2, r2, vAt_eq r0, vAt_eq r1, mAt_eq r3]; rfl
  exact of_raw (congrArg some hN) hlt (by unfold rawDecode; rw [h0]; exact q)

theorem vld (d : VReg) (a : GReg) (k : MReg) (t : VType) : Statement (.vld d a k t) := by
  generalize hN : encVM 0x68000000 d.val a.val 0 k.val (vtCode t) = N
  obtain ⟨h0, hlt, hlow, r0, r1, r2, r3⟩ := fieldsVM (n := N) 26 d.val a.val 0 k.val ((vtCode t))
    (by rw [← hN]; simp only [encVM]; omega) (by decide) d.isLt a.isLt (by decide) k.isLt (by have := vtCode_lt t; omega)
  have h1 : fld N 5 5 = 0 := by rw [fld_low 10 hlow (by decide)]; simp only [fld]; have := vtCode_lt t; omega
  have h2 : fld N 0 5 = vtCode t := by rw [fld_low 10 hlow (by decide)]; simp only [fld]; have := vtCode_lt t; omega
  have q : decVmem N = .ok (.vld d a k t) := by
    unfold decVmem; rw [h1, r2, h2, vtOf_vtCode, vAt_eq r0, gAt_eq r1, mAt_eq r3]; rfl
  exact of_raw (congrArg some hN) hlt (by unfold rawDecode; rw [h0]; exact q)

theorem vst (d : VReg) (a : GReg) (k : MReg) (t : VType) : Statement (.vst d a k t) := by
  generalize hN : encVM 0x68000020 d.val a.val 0 k.val (vtCode t) = N
  obtain ⟨h0, hlt, hlow, r0, r1, r2, r3⟩ := fieldsVM (n := N) 26 d.val a.val 0 k.val (0x20 + (vtCode t))
    (by rw [← hN]; simp only [encVM]; omega) (by decide) d.isLt a.isLt (by decide) k.isLt (by have := vtCode_lt t; omega)
  have h1 : fld N 5 5 = 1 := by rw [fld_low 10 hlow (by decide)]; simp only [fld]; have := vtCode_lt t; omega
  have h2 : fld N 0 5 = vtCode t := by rw [fld_low 10 hlow (by decide)]; simp only [fld]; have := vtCode_lt t; omega
  have q : decVmem N = .ok (.vst d a k t) := by
    unfold decVmem; rw [h1, r2, h2, vtOf_vtCode, vAt_eq r0, gAt_eq r1, mAt_eq r3]; rfl
  exact of_raw (congrArg some hN) hlt (by unfold rawDecode; rw [h0]; exact q)

theorem vlds (d : VReg) (a : GReg) (i : VReg) (k : MReg) (t : VType) : Statement (.vlds d a i k t) := by
  generalize hN : encVM 0x68000040 d.val a.val i.val k.val (vtCode t) = N
  obtain ⟨h0, hlt, hlow, r0, r1, r2, r3⟩ := fieldsVM (n := N) 26 d.val a.val i.val k.val (0x40 + (vtCode t))
    (by rw [← hN]; simp only [encVM]; omega) (by decide) d.isLt a.isLt i.isLt k.isLt (by have := vtCode_lt t; omega)
  have h1 : fld N 5 5 = 2 := by rw [fld_low 10 hlow (by decide)]; simp only [fld]; have := vtCode_lt t; omega
  have h2 : fld N 0 5 = vtCode t := by rw [fld_low 10 hlow (by decide)]; simp only [fld]; have := vtCode_lt t; omega
  have q : decVmem N = .ok (.vlds d a i k t) := by
    unfold decVmem; rw [h1, h2, vtOf_vtCode, vAt_eq r0, gAt_eq r1, vAt_eq r2, mAt_eq r3]; rfl
  exact of_raw (congrArg some hN) hlt (by unfold rawDecode; rw [h0]; exact q)

theorem vsts (d : VReg) (a : GReg) (i : VReg) (k : MReg) (t : VType) : Statement (.vsts d a i k t) := by
  generalize hN : encVM 0x68000060 d.val a.val i.val k.val (vtCode t) = N
  obtain ⟨h0, hlt, hlow, r0, r1, r2, r3⟩ := fieldsVM (n := N) 26 d.val a.val i.val k.val (0x60 + (vtCode t))
    (by rw [← hN]; simp only [encVM]; omega) (by decide) d.isLt a.isLt i.isLt k.isLt (by have := vtCode_lt t; omega)
  have h1 : fld N 5 5 = 3 := by rw [fld_low 10 hlow (by decide)]; simp only [fld]; have := vtCode_lt t; omega
  have h2 : fld N 0 5 = vtCode t := by rw [fld_low 10 hlow (by decide)]; simp only [fld]; have := vtCode_lt t; omega
  have q : decVmem N = .ok (.vsts d a i k t) := by
    unfold decVmem; rw [h1, h2, vtOf_vtCode, vAt_eq r0, gAt_eq r1, vAt_eq r2, mAt_eq r3]; rfl
  exact of_raw (congrArg some hN) hlt (by unfold rawDecode; rw [h0]; exact q)

theorem vldg (d : VReg) (a : GReg) (i : VReg) (k : MReg) (t : VType) : Statement (.vldg d a i k t) := by
  generalize hN : encVM 0x68000080 d.val a.val i.val k.val (vtCode t) = N
  obtain ⟨h0, hlt, hlow, r0, r1, r2, r3⟩ := fieldsVM (n := N) 26 d.val a.val i.val k.val (0x80 + (vtCode t))
    (by rw [← hN]; simp only [encVM]; omega) (by decide) d.isLt a.isLt i.isLt k.isLt (by have := vtCode_lt t; omega)
  have h1 : fld N 5 5 = 4 := by rw [fld_low 10 hlow (by decide)]; simp only [fld]; have := vtCode_lt t; omega
  have h2 : fld N 0 5 = vtCode t := by rw [fld_low 10 hlow (by decide)]; simp only [fld]; have := vtCode_lt t; omega
  have q : decVmem N = .ok (.vldg d a i k t) := by
    unfold decVmem; rw [h1, h2, vtOf_vtCode, vAt_eq r0, gAt_eq r1, vAt_eq r2, mAt_eq r3]; rfl
  exact of_raw (congrArg some hN) hlt (by unfold rawDecode; rw [h0]; exact q)

theorem vstg (d : VReg) (a : GReg) (i : VReg) (k : MReg) (t : VType) : Statement (.vstg d a i k t) := by
  generalize hN : encVM 0x680000A0 d.val a.val i.val k.val (vtCode t) = N
  obtain ⟨h0, hlt, hlow, r0, r1, r2, r3⟩ := fieldsVM (n := N) 26 d.val a.val i.val k.val (0xA0 + (vtCode t))
    (by rw [← hN]; simp only [encVM]; omega) (by decide) d.isLt a.isLt i.isLt k.isLt (by have := vtCode_lt t; omega)
  have h1 : fld N 5 5 = 5 := by rw [fld_low 10 hlow (by decide)]; simp only [fld]; have := vtCode_lt t; omega
  have h2 : fld N 0 5 = vtCode t := by rw [fld_low 10 hlow (by decide)]; simp only [fld]; have := vtCode_lt t; omega
  have q : decVmem N = .ok (.vstg d a i k t) := by
    unfold decVmem; rw [h1, h2, vtOf_vtCode, vAt_eq r0, gAt_eq r1, vAt_eq r2, mAt_eq r3]; rfl
  exact of_raw (congrArg some hN) hlt (by unfold rawDecode; rw [h0]; exact q)

theorem vclaim (a : GReg) : Statement (.vclaim a) := by
  generalize hN : encVM 0x6C000000 0 a.val 0 0 0 = N
  obtain ⟨h0, hlt, hlow, r0, r1, r2, r3⟩ := fieldsVM (n := N) 27 0 a.val 0 0 (0x0)
    (by rw [← hN]; simp only [encVM]; omega) (by decide) (by decide) a.isLt (by decide) (by decide) (by decide)
  have h1 : fld N 5 5 = 0 := fld_low 10 hlow (by decide)
  have h2 : fld N 0 5 = 0 := fld_low 10 hlow (by decide)
  have h3 : fld N 10 7 = 0 := by rw [← hN]; simp only [fld, encVM]; have := a.isLt; omega
  have q : decVspc N = .ok (.vclaim a) := by
    unfold decVspc; rw [h1, h2, h3, r0, gAt_eq r1]; rfl
  exact of_raw (congrArg some hN) hlt (by unfold rawDecode; rw [h0]; exact q)

theorem vrel : Statement (.vrel) := by
  generalize hN : encVM 0x6C000020 0 0 0 0 0 = N
  obtain ⟨h0, hlt, hlow, r0, r1, r2, r3⟩ := fieldsVM (n := N) 27 0 0 0 0 (0x20)
    (by rw [← hN]; simp only [encVM]; omega) (by decide) (by decide) (by decide) (by decide) (by decide) (by decide)
  have h1 : fld N 5 5 = 1 := fld_low 10 hlow (by decide)
  have h2 : fld N 0 5 = 0 := fld_low 10 hlow (by decide)
  have h3 : fld N 10 16 = 0 := by rw [← hN]; simp only [fld, encVM]; omega
  have q : decVspc N = .ok (.vrel) := by
    unfold decVspc; rw [h1, h2, h3]; rfl
  exact of_raw (congrArg some hN) hlt (by unfold rawDecode; rw [h0]; exact q)

theorem vsetl (a : GReg) : Statement (.vsetl a) := by
  generalize hN : encVM 0x6C000040 0 a.val 0 0 0 = N
  obtain ⟨h0, hlt, hlow, r0, r1, r2, r3⟩ := fieldsVM (n := N) 27 0 a.val 0 0 (0x40)
    (by rw [← hN]; simp only [encVM]; omega) (by decide) (by decide) a.isLt (by decide) (by decide) (by decide)
  have h1 : fld N 5 5 = 2 := fld_low 10 hlow (by decide)
  have h2 : fld N 0 5 = 0 := fld_low 10 hlow (by decide)
  have h3 : fld N 10 7 = 0 := by rw [← hN]; simp only [fld, encVM]; have := a.isLt; omega
  have q : decVspc N = .ok (.vsetl a) := by
    unfold decVspc; rw [h1, h2, h3, r0, gAt_eq r1]; rfl
  exact of_raw (congrArg some hN) hlt (by unfold rawDecode; rw [h0]; exact q)

theorem vbc (d : VReg) (a : GReg) (k : MReg) : Statement (.vbc d a k) := by
  generalize hN : encVM 0x6C000060 d.val a.val 0 k.val 0 = N
  obtain ⟨h0, hlt, hlow, r0, r1, r2, r3⟩ := fieldsVM (n := N) 27 d.val a.val 0 k.val (0x60)
    (by rw [← hN]; simp only [encVM]; omega) (by decide) d.isLt a.isLt (by decide) k.isLt (by decide)
  have h1 : fld N 5 5 = 3 := fld_low 10 hlow (by decide)
  have h2 : fld N 0 5 = 0 := fld_low 10 hlow (by decide)
  have q : decVspc N = .ok (.vbc d a k) := by
    unfold decVspc; rw [h1, h2, r2, vAt_eq r0, gAt_eq r1, mAt_eq r3]; rfl
  exact of_raw (congrArg some hN) hlt (by unfold rawDecode; rw [h0]; exact q)

theorem vmovgv (d : VReg) (a : GReg) (i : VReg) : Statement (.vmovgv d a i) := by
  generalize hN : encVM 0x6C000080 d.val a.val i.val 0 0 = N
  obtain ⟨h0, hlt, hlow, r0, r1, r2, r3⟩ := fieldsVM (n := N) 27 d.val a.val i.val 0 (0x80)
    (by rw [← hN]; simp only [encVM]; omega) (by decide) d.isLt a.isLt i.isLt (by decide) (by decide)
  have h1 : fld N 5 5 = 4 := fld_low 10 hlow (by decide)
  have h2 : fld N 0 5 = 0 := fld_low 10 hlow (by decide)
  have q : decVspc N = .ok (.vmovgv d a i) := by
    unfold decVspc; rw [h1, h2, r3, vAt_eq r0, gAt_eq r1, vAt_eq r2]; rfl
  exact of_raw (congrArg some hN) hlt (by unfold rawDecode; rw [h0]; exact q)

theorem vmovvg (a : GReg) (i : VReg) (t : VType) : Statement (.vmovvg a i t) := by
  generalize hN : encVM 0x6C0000A0 0 a.val i.val 0 (vtCode t) = N
  obtain ⟨h0, hlt, hlow, r0, r1, r2, r3⟩ := fieldsVM (n := N) 27 0 a.val i.val 0 (0xA0 + (vtCode t))
    (by rw [← hN]; simp only [encVM]; omega) (by decide) (by decide) a.isLt i.isLt (by decide) (by have := vtCode_lt t; omega)
  have h1 : fld N 5 5 = 5 := by rw [fld_low 10 hlow (by decide)]; simp only [fld]; have := vtCode_lt t; omega
  have h2 : fld N 0 5 = vtCode t := by rw [fld_low 10 hlow (by decide)]; simp only [fld]; have := vtCode_lt t; omega
  have q : decVspc N = .ok (.vmovvg a i t) := by
    unfold decVspc; rw [h1, r3, r0, h2, vtOf_vtCode, gAt_eq r1, vAt_eq r2]; rfl
  exact of_raw (congrArg some hN) hlt (by unfold rawDecode; rw [h0]; exact q)

theorem vmovvgD (a : GReg) (i : VReg) : Statement (.vmovvgD a i) := by
  generalize hN : encVM 0x6C0000C0 0 a.val i.val 0 0 = N
  obtain ⟨h0, hlt, hlow, r0, r1, r2, r3⟩ := fieldsVM (n := N) 27 0 a.val i.val 0 (0xC0)
    (by rw [← hN]; simp only [encVM]; omega) (by decide) (by decide) a.isLt i.isLt (by decide) (by decide)
  have h1 : fld N 5 5 = 6 := fld_low 10 hlow (by decide)
  have h2 : fld N 0 5 = 0 := fld_low 10 hlow (by decide)
  have q : decVspc N = .ok (.vmovvgD a i) := by
    unfold decVspc; rw [h1, h2, r3, r0, gAt_eq r1, vAt_eq r2]; rfl
  exact of_raw (congrArg some hN) hlt (by unfold rawDecode; rw [h0]; exact q)

theorem vrng (d : VReg) (i : VReg) (k : MReg) (t : VType) : Statement (.vrng d i k t) := by
  generalize hN : encVM 0x6C000100 d.val 0 i.val k.val (vtCode t) = N
  obtain ⟨h0, hlt, hlow, r0, r1, r2, r3⟩ := fieldsVM (n := N) 27 d.val 0 i.val k.val (0x100 + (vtCode t))
    (by rw [← hN]; simp only [encVM]; omega) (by decide) d.isLt (by decide) i.isLt k.isLt (by have := vtCode_lt t; omega)
  have h1 : fld N 5 5 = 8 := by rw [fld_low 10 hlow (by decide)]; simp only [fld]; have := vtCode_lt t; omega
  have h2 : fld N 0 5 = vtCode t := by rw [fld_low 10 hlow (by decide)]; simp only [fld]; have := vtCode_lt t; omega
  have q : decVspc N = .ok (.vrng d i k t) := by
    unfold decVspc; rw [h1, r1, h2, vtOf_vtCode, vAt_eq r0, vAt_eq r2, mAt_eq r3]; rfl
  exact of_raw (congrArg some hN) hlt (by unfold rawDecode; rw [h0]; exact q)

theorem vfix (d : VReg) (a : GReg) (i : VReg) (k : MReg) : Statement (.vfix d a i k) := by
  generalize hN : encVM 0x6C000128 d.val a.val i.val k.val 0 = N
  obtain ⟨h0, hlt, hlow, r0, r1, r2, r3⟩ := fieldsVM (n := N) 27 d.val a.val i.val k.val (0x128)
    (by rw [← hN]; simp only [encVM]; omega) (by decide) d.isLt a.isLt i.isLt k.isLt (by decide)
  have h1 : fld N 5 5 = 9 := fld_low 10 hlow (by decide)
  have h2 : fld N 0 5 = 8 := fld_low 10 hlow (by decide)
  have q : decVspc N = .ok (.vfix d a i k) := by
    unfold decVspc; rw [h1, h2, vAt_eq r0, gAt_eq r1, vAt_eq r2, mAt_eq r3]; rfl
  exact of_raw (congrArg some hN) hlt (by unfold rawDecode; rw [h0]; exact q)

theorem vunfix (d : VReg) (a : GReg) (i : VReg) : Statement (.vunfix d a i) := by
  generalize hN : encVM 0x6C000148 d.val a.val i.val 0 0 = N
  obtain ⟨h0, hlt, hlow, r0, r1, r2, r3⟩ := fieldsVM (n := N) 27 d.val a.val i.val 0 (0x148)
    (by rw [← hN]; simp only [encVM]; omega) (by decide) d.isLt a.isLt i.isLt (by decide) (by decide)
  have h1 : fld N 5 5 = 10 := fld_low 10 hlow (by decide)
  have h2 : fld N 0 5 = 8 := fld_low 10 hlow (by decide)
  have q : decVspc N = .ok (.vunfix d a i) := by
    unfold decVspc; rw [h1, h2, r3, vAt_eq r0, gAt_eq r1, vAt_eq r2]; rfl
  exact of_raw (congrArg some hN) hlt (by unfold rawDecode; rw [h0]; exact q)

theorem vslide (d : VReg) (a : GReg) (i : VReg) (k : MReg) : Statement (.vslide d a i k) := by
  generalize hN : encVM 0x6C000160 d.val a.val i.val k.val 0 = N
  obtain ⟨h0, hlt, hlow, r0, r1, r2, r3⟩ := fieldsVM (n := N) 27 d.val a.val i.val k.val (0x160)
    (by rw [← hN]; simp only [encVM]; omega) (by decide) d.isLt a.isLt i.isLt k.isLt (by decide)
  have h1 : fld N 5 5 = 11 := fld_low 10 hlow (by decide)
  have h2 : fld N 0 5 = 0 := fld_low 10 hlow (by decide)
  have q : decVspc N = .ok (.vslide d a i k) := by
    unfold decVspc; rw [h1, h2, vAt_eq r0, gAt_eq r1, vAt_eq r2, mAt_eq r3]; rfl
  exact of_raw (congrArg some hN) hlt (by unfold rawDecode; rw [h0]; exact q)

theorem vmpop (a : GReg) (i : MReg) : Statement (.vmpop a i) := by
  generalize hN : encVM 0x6C000180 0 a.val i.val 0 0 = N
  obtain ⟨h0, hlt, hlow, r0, r1, r2, r3⟩ := fieldsVM (n := N) 27 0 a.val i.val 0 (0x180)
    (by rw [← hN]; simp only [encVM]; omega) (by decide) (by decide) a.isLt (by have := i.isLt; omega) (by decide) (by decide)
  have h1 : fld N 5 5 = 12 := fld_low 10 hlow (by decide)
  have h2 : fld N 0 5 = 0 := fld_low 10 hlow (by decide)
  have h3 : fld N 16 1 = 0 := by rw [← hN]; simp only [fld, encVM]; have := a.isLt; have := i.isLt; omega
  have h4 : fld N 13 3 = i.val := by rw [← hN]; simp only [fld, encVM]; have := a.isLt; have := i.isLt; omega
  have q : decVspc N = .ok (.vmpop a i) := by
    unfold decVspc; rw [h1, h2, r3, h3, r0, gAt_eq r1, mAt_eq h4]; rfl
  exact of_raw (congrArg some hN) hlt (by unfold rawDecode; rw [h0]; exact q)

theorem vacc (d : VReg) (a : GReg) (i : Tile) (k : MReg) (t : VType) : Statement (.vacc d a i k t) := by
  generalize hN : encVM 0x6C0001A0 d.val a.val i.val k.val (vtCode t) = N
  obtain ⟨h0, hlt, hlow, r0, r1, r2, r3⟩ := fieldsVM (n := N) 27 d.val a.val i.val k.val (0x1A0 + (vtCode t))
    (by rw [← hN]; simp only [encVM]; omega) (by decide) d.isLt a.isLt (by have := i.isLt; omega) k.isLt (by have := vtCode_lt t; omega)
  have h1 : fld N 5 5 = 13 := by rw [fld_low 10 hlow (by decide)]; simp only [fld]; have := vtCode_lt t; omega
  have h2 : fld N 16 1 = 0 := by rw [← hN]; simp only [fld, encVM]; have := d.isLt; have := a.isLt; have := i.isLt; have := k.isLt; have := vtCode_lt t; omega
  have h3 : fld N 0 5 = vtCode t := by rw [fld_low 10 hlow (by decide)]; simp only [fld]; have := vtCode_lt t; omega
  have h4 : fld N 13 3 = i.val := by rw [← hN]; simp only [fld, encVM]; have := d.isLt; have := a.isLt; have := i.isLt; have := k.isLt; have := vtCode_lt t; omega
  have q : decVspc N = .ok (.vacc d a i k t) := by
    unfold decVspc; rw [h1, h2, h3, vtOf_vtCode, vAt_eq r0, gAt_eq r1, mAt_eq h4, mAt_eq r3]; rfl
  exact of_raw (congrArg some hN) hlt (by unfold rawDecode; rw [h0]; exact q)

theorem mclaim (a : GReg) (d : GReg) : Statement (.mclaim a d) := by
  generalize hN : encE 0x70000000 a.val 0 d.val 0 = N
  obtain ⟨h0, hlt, hlow, hs, r0, r1, r2⟩ := fieldsE (n := N) 28 0 a.val 0 d.val (0x0)
    (by rw [← hN]; simp only [encE]; omega) (by decide) (by decide) a.isLt (by decide) d.isLt (by decide)
  have h1 : fld N 0 3 = 0 := fld_low 3 hlow (by decide)
  have q : decMat N = .ok (.mclaim a d) := by
    unfold decMat; rw [hs, h1, r1, gAt_eq r0, gAt_eq r2]; rfl
  exact of_raw (congrArg some hN) hlt (by unfold rawDecode; rw [h0]; exact q)

theorem mrel (a : GReg) : Statement (.mrel a) := by
  generalize hN : encE 0x70040000 a.val 0 0 0 = N
  obtain ⟨h0, hlt, hlow, hs, r0, r1, r2⟩ := fieldsE (n := N) 28 1 a.val 0 0 (0x0)
    (by rw [← hN]; simp only [encE]; omega) (by decide) (by decide) a.isLt (by decide) (by decide) (by decide)
  have h1 : fld N 0 13 = 0 := by rw [← hN]; simp only [fld, encE]; have := a.isLt; omega
  have q : decMat N = .ok (.mrel a) := by
    unfold decMat; rw [hs, h1, gAt_eq r0]; rfl
  exact of_raw (congrArg some hN) hlt (by unfold rawDecode; rw [h0]; exact q)

theorem mset (a : GReg) : Statement (.mset a) := by
  generalize hN : encE 0x70080000 a.val 0 0 0 = N
  obtain ⟨h0, hlt, hlow, hs, r0, r1, r2⟩ := fieldsE (n := N) 28 2 a.val 0 0 (0x0)
    (by rw [← hN]; simp only [encE]; omega) (by decide) (by decide) a.isLt (by decide) (by decide) (by decide)
  have h1 : fld N 0 13 = 0 := by rw [← hN]; simp only [fld, encE]; have := a.isLt; omega
  have q : decMat N = .ok (.mset a) := by
    unfold decMat; rw [hs, h1, gAt_eq r0]; rfl
  exact of_raw (congrArg some hN) hlt (by unfold rawDecode; rw [h0]; exact q)

theorem mget (a : GReg) : Statement (.mget a) := by
  generalize hN : encE 0x700C0000 a.val 0 0 0 = N
  obtain ⟨h0, hlt, hlow, hs, r0, r1, r2⟩ := fieldsE (n := N) 28 3 a.val 0 0 (0x0)
    (by rw [← hN]; simp only [encE]; omega) (by decide) (by decide) a.isLt (by decide) (by decide) (by decide)
  have h1 : fld N 0 13 = 0 := by rw [← hN]; simp only [fld, encE]; have := a.isLt; omega
  have q : decMat N = .ok (.mget a) := by
    unfold decMat; rw [hs, h1, gAt_eq r0]; rfl
  exact of_raw (congrArg some hN) hlt (by unfold rawDecode; rw [h0]; exact q)

theorem mzero (d : GReg) (t : Tile) : Statement (.mzero d t) := by
  generalize hN : encE 0x70100000 0 0 d.val t.val = N
  obtain ⟨h0, hlt, hlow, hs, r0, r1, r2⟩ := fieldsE (n := N) 28 4 0 0 d.val (t.val)
    (by rw [← hN]; simp only [encE]; omega) (by decide) (by decide) (by decide) (by decide) d.isLt (by have := t.isLt; omega)
  have h1 : fld N 8 10 = 0 := by rw [← hN]; simp only [fld, encE]; have := d.isLt; have := t.isLt; omega
  have h2 : fld N 0 3 = t.val := by rw [fld_low 3 hlow (by decide)]; simp only [fld]; have := t.isLt; omega
  have q : decMat N = .ok (.mzero d t) := by
    unfold decMat; rw [hs, h1, gAt_eq r2, mAt_eq h2]; rfl
  exact of_raw (congrArg some hN) hlt (by unfold rawDecode; rw [h0]; exact q)

theorem mbias (a : GReg) (d : GReg) (t : Tile) : Statement (.mbias a d t) := by
  generalize hN : encE 0x70140000 a.val 0 d.val t.val = N
  obtain ⟨h0, hlt, hlow, hs, r0, r1, r2⟩ := fieldsE (n := N) 28 5 a.val 0 d.val (t.val)
    (by rw [← hN]; simp only [encE]; omega) (by decide) (by decide) a.isLt (by decide) d.isLt (by have := t.isLt; omega)
  have h1 : fld N 0 3 = t.val := by rw [fld_low 3 hlow (by decide)]; simp only [fld]; have := t.isLt; omega
  have q : decMat N = .ok (.mbias a d t) := by
    unfold decMat; rw [hs, r1, gAt_eq r0, gAt_eq r2, mAt_eq h1]; rfl
  exact of_raw (congrArg some hN) hlt (by unfold rawDecode; rw [h0]; exact q)

theorem mmul (a : GReg) (b : GReg) (d : GReg) (t : Tile) : Statement (.mmul a b d t) := by
  generalize hN : encE 0x70180000 a.val b.val d.val t.val = N
  obtain ⟨h0, hlt, hlow, hs, r0, r1, r2⟩ := fieldsE (n := N) 28 6 a.val b.val d.val (t.val)
    (by rw [← hN]; simp only [encE]; omega) (by decide) (by decide) a.isLt b.isLt d.isLt (by have := t.isLt; omega)
  have h1 : fld N 0 3 = t.val := by rw [fld_low 3 hlow (by decide)]; simp only [fld]; have := t.isLt; omega
  have q : decMat N = .ok (.mmul a b d t) := by
    unfold decMat; rw [hs, gAt_eq r0, gAt_eq r1, gAt_eq r2, mAt_eq h1]; rfl
  exact of_raw (congrArg some hN) hlt (by unfold rawDecode; rw [h0]; exact q)

theorem mmulg (a : GReg) (b : GReg) (d : GReg) (t : Tile) : Statement (.mmulg a b d t) := by
  generalize hN : encE 0x701C0000 a.val b.val d.val t.val = N
  obtain ⟨h0, hlt, hlow, hs, r0, r1, r2⟩ := fieldsE (n := N) 28 7 a.val b.val d.val (t.val)
    (by rw [← hN]; simp only [encE]; omega) (by decide) (by decide) a.isLt b.isLt d.isLt (by have := t.isLt; omega)
  have h1 : fld N 0 3 = t.val := by rw [fld_low 3 hlow (by decide)]; simp only [fld]; have := t.isLt; omega
  have q : decMat N = .ok (.mmulg a b d t) := by
    unfold decMat; rw [hs, gAt_eq r0, gAt_eq r1, gAt_eq r2, mAt_eq h1]; rfl
  exact of_raw (congrArg some hN) hlt (by unfold rawDecode; rw [h0]; exact q)

theorem mdrain (a : GReg) (b : GReg) (d : VType) (t : Tile) : Statement (.mdrain a b d t) := by
  generalize hN : encE 0x70200000 a.val b.val (vtCode d) t.val = N
  obtain ⟨h0, hlt, hlow, hs, r0, r1, r2⟩ := fieldsE (n := N) 28 8 a.val b.val (vtCode d) (t.val)
    (by rw [← hN]; simp only [encE]; omega) (by decide) (by decide) a.isLt b.isLt (by have := vtCode_lt d; omega) (by have := t.isLt; omega)
  have h1 : fld N 0 3 = t.val := by rw [fld_low 3 hlow (by decide)]; simp only [fld]; have := t.isLt; omega
  have q : decMat N = .ok (.mdrain a b d t) := by
    unfold decMat; rw [hs, r2, vtOf_vtCode, gAt_eq r0, gAt_eq r1, mAt_eq h1]; rfl
  exact of_raw (congrArg some hN) hlt (by unfold rawDecode; rw [h0]; exact q)

theorem mwait (d : GReg) : Statement (.mwait d) := by
  generalize hN : encE 0x70240000 0 0 d.val 0 = N
  obtain ⟨h0, hlt, hlow, hs, r0, r1, r2⟩ := fieldsE (n := N) 28 9 0 0 d.val (0x0)
    (by rw [← hN]; simp only [encE]; omega) (by decide) (by decide) (by decide) (by decide) d.isLt (by decide)
  have h1 : fld N 0 3 = 0 := fld_low 3 hlow (by decide)
  have h2 : fld N 8 10 = 0 := by rw [← hN]; simp only [fld, encE]; have := d.isLt; omega
  have q : decMat N = .ok (.mwait d) := by
    unfold decMat; rw [hs, h1, h2, gAt_eq r2]; rfl
  exact of_raw (congrArg some hN) hlt (by unfold rawDecode; rw [h0]; exact q)

theorem mstop (d : GReg) : Statement (.mstop d) := by
  generalize hN : encE 0x70280000 0 0 d.val 0 = N
  obtain ⟨h0, hlt, hlow, hs, r0, r1, r2⟩ := fieldsE (n := N) 28 10 0 0 d.val (0x0)
    (by rw [← hN]; simp only [encE]; omega) (by decide) (by decide) (by decide) (by decide) d.isLt (by decide)
  have h1 : fld N 0 3 = 0 := fld_low 3 hlow (by decide)
  have h2 : fld N 8 10 = 0 := by rw [← hN]; simp only [fld, encE]; have := d.isLt; omega
  have q : decMat N = .ok (.mstop d) := by
    unfold decMat; rw [hs, h1, h2, gAt_eq r2]; rfl
  exact of_raw (congrArg some hN) hlt (by unfold rawDecode; rw [h0]; exact q)

theorem xset (a : GReg) : Statement (.xset a) := by
  generalize hN : encE 0x74000000 a.val 0 0 0 = N
  obtain ⟨h0, hlt, hlow, hs, r0, r1, r2⟩ := fieldsE (n := N) 29 0 a.val 0 0 (0x0)
    (by rw [← hN]; simp only [encE]; omega) (by decide) (by decide) a.isLt (by decide) (by decide) (by decide)
  have h1 : fld N 0 13 = 0 := by rw [← hN]; simp only [fld, encE]; have := a.isLt; omega
  have q : decCopy N = .ok (.xset a) := by
    unfold decCopy; rw [hs, h1, gAt_eq r0]; rfl
  exact of_raw (congrArg some hN) hlt (by unfold rawDecode; rw [h0]; exact q)

theorem xcopy (a : GReg) (d : GReg) (c : Chan) : Statement (.xcopy a d c) := by
  generalize hN : encE 0x74040000 a.val 0 d.val c.val = N
  obtain ⟨h0, hlt, hlow, hs, r0, r1, r2⟩ := fieldsE (n := N) 29 1 a.val 0 d.val (c.val)
    (by rw [← hN]; simp only [encE]; omega) (by decide) (by decide) a.isLt (by decide) d.isLt (by have := c.isLt; omega)
  have h1 : fld N 2 1 = 0 := by rw [fld_low 3 hlow (by decide)]; simp only [fld]; have := c.isLt; omega
  have h2 : fld N 0 2 = c.val := by rw [fld_low 3 hlow (by decide)]; simp only [fld]; have := c.isLt; omega
  have q : decCopy N = .ok (.xcopy a d c) := by
    unfold decCopy; rw [hs, h1, r1, gAt_eq r0, gAt_eq r2, cAt_eq h2]; rfl
  exact of_raw (congrArg some hN) hlt (by unfold rawDecode; rw [h0]; exact q)

theorem xstr (a : GReg) (d : GReg) (c : Chan) : Statement (.xstr a d c) := by
  generalize hN : encE 0x74080000 a.val 0 d.val c.val = N
  obtain ⟨h0, hlt, hlow, hs, r0, r1, r2⟩ := fieldsE (n := N) 29 2 a.val 0 d.val (c.val)
    (by rw [← hN]; simp only [encE]; omega) (by decide) (by decide) a.isLt (by decide) d.isLt (by have := c.isLt; omega)
  have h1 : fld N 2 1 = 0 := by rw [fld_low 3 hlow (by decide)]; simp only [fld]; have := c.isLt; omega
  have h2 : fld N 0 2 = c.val := by rw [fld_low 3 hlow (by decide)]; simp only [fld]; have := c.isLt; omega
  have q : decCopy N = .ok (.xstr a d c) := by
    unfold decCopy; rw [hs, h1, r1, gAt_eq r0, gAt_eq r2, cAt_eq h2]; rfl
  exact of_raw (congrArg some hN) hlt (by unfold rawDecode; rw [h0]; exact q)

theorem xgat (a : GReg) (b : GReg) (d : GReg) (c : Chan) : Statement (.xgat a b d c) := by
  generalize hN : encE 0x740C0000 a.val b.val d.val c.val = N
  obtain ⟨h0, hlt, hlow, hs, r0, r1, r2⟩ := fieldsE (n := N) 29 3 a.val b.val d.val (c.val)
    (by rw [← hN]; simp only [encE]; omega) (by decide) (by decide) a.isLt b.isLt d.isLt (by have := c.isLt; omega)
  have h1 : fld N 2 1 = 0 := by rw [fld_low 3 hlow (by decide)]; simp only [fld]; have := c.isLt; omega
  have h2 : fld N 0 2 = c.val := by rw [fld_low 3 hlow (by decide)]; simp only [fld]; have := c.isLt; omega
  have q : decCopy N = .ok (.xgat a b d c) := by
    unfold decCopy; rw [hs, h1, gAt_eq r0, gAt_eq r1, gAt_eq r2, cAt_eq h2]; rfl
  exact of_raw (congrArg some hN) hlt (by unfold rawDecode; rw [h0]; exact q)

theorem xmc (a : GReg) (d : GReg) (c : Chan) : Statement (.xmc a d c) := by
  generalize hN : encE 0x74100000 a.val 0 d.val c.val = N
  obtain ⟨h0, hlt, hlow, hs, r0, r1, r2⟩ := fieldsE (n := N) 29 4 a.val 0 d.val (c.val)
    (by rw [← hN]; simp only [encE]; omega) (by decide) (by decide) a.isLt (by decide) d.isLt (by have := c.isLt; omega)
  have h1 : fld N 2 1 = 0 := by rw [fld_low 3 hlow (by decide)]; simp only [fld]; have := c.isLt; omega
  have h2 : fld N 0 2 = c.val := by rw [fld_low 3 hlow (by decide)]; simp only [fld]; have := c.isLt; omega
  have q : decCopy N = .ok (.xmc a d c) := by
    unfold decCopy; rw [hs, h1, r1, gAt_eq r0, gAt_eq r2, cAt_eq h2]; rfl
  exact of_raw (congrArg some hN) hlt (by unfold rawDecode; rw [h0]; exact q)

theorem xack (a : GReg) (b : GReg) (d : GReg) : Statement (.xack a b d) := by
  generalize hN : encE 0x74140000 a.val b.val d.val 0 = N
  obtain ⟨h0, hlt, hlow, hs, r0, r1, r2⟩ := fieldsE (n := N) 29 5 a.val b.val d.val (0x0)
    (by rw [← hN]; simp only [encE]; omega) (by decide) (by decide) a.isLt b.isLt d.isLt (by decide)
  have h1 : fld N 0 3 = 0 := fld_low 3 hlow (by decide)
  have q : decCopy N = .ok (.xack a b d) := by
    unfold decCopy; rw [hs, h1, gAt_eq r0, gAt_eq r1, gAt_eq r2]; rfl
  exact of_raw (congrArg some hN) hlt (by unfold rawDecode; rw [h0]; exact q)

theorem xwp (a : GReg) (d : GReg) (c : Chan) : Statement (.xwp a d c) := by
  generalize hN : encE 0x74180000 a.val 0 d.val c.val = N
  obtain ⟨h0, hlt, hlow, hs, r0, r1, r2⟩ := fieldsE (n := N) 29 6 a.val 0 d.val (c.val)
    (by rw [← hN]; simp only [encE]; omega) (by decide) (by decide) a.isLt (by decide) d.isLt (by have := c.isLt; omega)
  have h1 : fld N 2 1 = 0 := by rw [fld_low 3 hlow (by decide)]; simp only [fld]; have := c.isLt; omega
  have h2 : fld N 0 2 = c.val := by rw [fld_low 3 hlow (by decide)]; simp only [fld]; have := c.isLt; omega
  have q : decCopy N = .ok (.xwp a d c) := by
    unfold decCopy; rw [hs, h1, r1, gAt_eq r0, gAt_eq r2, cAt_eq h2]; rfl
  exact of_raw (congrArg some hN) hlt (by unfold rawDecode; rw [h0]; exact q)

theorem xwait (a : GReg) (d : GReg) : Statement (.xwait a d) := by
  generalize hN : encE 0x741C0000 a.val 0 d.val 0 = N
  obtain ⟨h0, hlt, hlow, hs, r0, r1, r2⟩ := fieldsE (n := N) 29 7 a.val 0 d.val (0x0)
    (by rw [← hN]; simp only [encE]; omega) (by decide) (by decide) a.isLt (by decide) d.isLt (by decide)
  have h1 : fld N 0 3 = 0 := fld_low 3 hlow (by decide)
  have q : decCopy N = .ok (.xwait a d) := by
    unfold decCopy; rw [hs, h1, r1, gAt_eq r0, gAt_eq r2]; rfl
  exact of_raw (congrArg some hN) hlt (by unfold rawDecode; rw [h0]; exact q)

theorem xkill (a : GReg) (d : GReg) : Statement (.xkill a d) := by
  generalize hN : encE 0x74200000 a.val 0 d.val 0 = N
  obtain ⟨h0, hlt, hlow, hs, r0, r1, r2⟩ := fieldsE (n := N) 29 8 a.val 0 d.val (0x0)
    (by rw [← hN]; simp only [encE]; omega) (by decide) (by decide) a.isLt (by decide) d.isLt (by decide)
  have h1 : fld N 0 3 = 0 := fld_low 3 hlow (by decide)
  have q : decCopy N = .ok (.xkill a d) := by
    unfold decCopy; rw [hs, h1, r1, gAt_eq r0, gAt_eq r2]; rfl
  exact of_raw (congrArg some hN) hlt (by unfold rawDecode; rw [h0]; exact q)

theorem bset (a : GReg) (b : GReg) (z : Scope) : Statement (.bset a b z) := by
  generalize hN : encE 0x78000000 a.val b.val 0 (scopeCode z) = N
  obtain ⟨h0, hlt, hlow, hs, r0, r1, r2⟩ := fieldsE (n := N) 30 0 a.val b.val 0 ((scopeCode z))
    (by rw [← hN]; simp only [encE]; omega) (by decide) (by decide) a.isLt b.isLt (by decide) (by have := scopeCode_lt z; omega)
  have h1 : fld N 2 6 = 0 := by rw [← hN]; simp only [fld, encE]; have := a.isLt; have := b.isLt; have := scopeCode_lt z; omega
  have h2 : fld N 0 2 = scopeCode z := by rw [fld_low 3 hlow (by decide)]; simp only [fld]; have := scopeCode_lt z; omega
  have q : decSync N = .ok (.bset a b z) := by
    unfold decSync; rw [hs, h1, h2, scopeOf_scopeCode, gAt_eq r0, gAt_eq r1]; rfl
  exact of_raw (congrArg some hN) hlt (by unfold rawDecode; rw [h0]; exact q)

theorem barr (a : GReg) (d : GReg) (z : Scope) : Statement (.barr a d z) := by
  generalize hN : encE 0x78040000 a.val 0 d.val (scopeCode z) = N
  obtain ⟨h0, hlt, hlow, hs, r0, r1, r2⟩ := fieldsE (n := N) 30 1 a.val 0 d.val ((scopeCode z))
    (by rw [← hN]; simp only [encE]; omega) (by decide) (by decide) a.isLt (by decide) d.isLt (by have := scopeCode_lt z; omega)
  have h1 : fld N 2 1 = 0 := by rw [fld_low 3 hlow (by decide)]; simp only [fld]; have := scopeCode_lt z; omega
  have h2 : fld N 0 2 = scopeCode z := by rw [fld_low 3 hlow (by decide)]; simp only [fld]; have := scopeCode_lt z; omega
  have q : decSync N = .ok (.barr a d z) := by
    unfold decSync; rw [hs, h1, r1, h2, scopeOf_scopeCode, gAt_eq r0, gAt_eq r2]; rfl
  exact of_raw (congrArg some hN) hlt (by unfold rawDecode; rw [h0]; exact q)

theorem barw (a : GReg) (d : GReg) (z : Scope) : Statement (.barw a d z) := by
  generalize hN : encE 0x78080000 a.val 0 d.val (scopeCode z) = N
  obtain ⟨h0, hlt, hlow, hs, r0, r1, r2⟩ := fieldsE (n := N) 30 2 a.val 0 d.val ((scopeCode z))
    (by rw [← hN]; simp only [encE]; omega) (by decide) (by decide) a.isLt (by decide) d.isLt (by have := scopeCode_lt z; omega)
  have h1 : fld N 2 1 = 0 := by rw [fld_low 3 hlow (by decide)]; simp only [fld]; have := scopeCode_lt z; omega
  have h2 : fld N 0 2 = scopeCode z := by rw [fld_low 3 hlow (by decide)]; simp only [fld]; have := scopeCode_lt z; omega
  have q : decSync N = .ok (.barw a d z) := by
    unfold decSync; rw [hs, h1, r1, h2, scopeOf_scopeCode, gAt_eq r0, gAt_eq r2]; rfl
  exact of_raw (congrArg some hN) hlt (by unfold rawDecode; rw [h0]; exact q)

theorem barwT (a : GReg) (b : GReg) (d : GReg) (z : Scope) : Statement (.barwT a b d z) := by
  generalize hN : encE 0x780C0000 a.val b.val d.val (scopeCode z) = N
  obtain ⟨h0, hlt, hlow, hs, r0, r1, r2⟩ := fieldsE (n := N) 30 3 a.val b.val d.val ((scopeCode z))
    (by rw [← hN]; simp only [encE]; omega) (by decide) (by decide) a.isLt b.isLt d.isLt (by have := scopeCode_lt z; omega)
  have h1 : fld N 2 1 = 0 := by rw [fld_low 3 hlow (by decide)]; simp only [fld]; have := scopeCode_lt z; omega
  have h2 : fld N 0 2 = scopeCode z := by rw [fld_low 3 hlow (by decide)]; simp only [fld]; have := scopeCode_lt z; omega
  have q : decSync N = .ok (.barwT a b d z) := by
    unfold decSync; rw [hs, h1, h2, scopeOf_scopeCode, gAt_eq r0, gAt_eq r1, gAt_eq r2]; rfl
  exact of_raw (congrArg some hN) hlt (by unfold rawDecode; rw [h0]; exact q)

theorem bstat (a : GReg) (d : GReg) (z : Scope) : Statement (.bstat a d z) := by
  generalize hN : encE 0x78100000 a.val 0 d.val (scopeCode z) = N
  obtain ⟨h0, hlt, hlow, hs, r0, r1, r2⟩ := fieldsE (n := N) 30 4 a.val 0 d.val ((scopeCode z))
    (by rw [← hN]; simp only [encE]; omega) (by decide) (by decide) a.isLt (by decide) d.isLt (by have := scopeCode_lt z; omega)
  have h1 : fld N 2 1 = 0 := by rw [fld_low 3 hlow (by decide)]; simp only [fld]; have := scopeCode_lt z; omega
  have h2 : fld N 0 2 = scopeCode z := by rw [fld_low 3 hlow (by decide)]; simp only [fld]; have := scopeCode_lt z; omega
  have q : decSync N = .ok (.bstat a d z) := by
    unfold decSync; rw [hs, h1, r1, h2, scopeOf_scopeCode, gAt_eq r0, gAt_eq r2]; rfl
  exact of_raw (congrArg some hN) hlt (by unfold rawDecode; rw [h0]; exact q)

theorem rarr (a : GReg) (b : GReg) (d : GReg) : Statement (.rarr a b d) := by
  generalize hN : encE 0x78140000 a.val b.val d.val 0 = N
  obtain ⟨h0, hlt, hlow, hs, r0, r1, r2⟩ := fieldsE (n := N) 30 5 a.val b.val d.val (0x0)
    (by rw [← hN]; simp only [encE]; omega) (by decide) (by decide) a.isLt b.isLt d.isLt (by decide)
  have h1 : fld N 0 3 = 0 := fld_low 3 hlow (by decide)
  have q : decSync N = .ok (.rarr a b d) := by
    unfold decSync; rw [hs, h1, gAt_eq r0, gAt_eq r1, gAt_eq r2]; rfl
  exact of_raw (congrArg some hN) hlt (by unfold rawDecode; rw [h0]; exact q)

theorem pbar (a : GReg) (d : GReg) : Statement (.pbar a d) := by
  generalize hN : encE 0x78180000 a.val 0 d.val 0 = N
  obtain ⟨h0, hlt, hlow, hs, r0, r1, r2⟩ := fieldsE (n := N) 30 6 a.val 0 d.val (0x0)
    (by rw [← hN]; simp only [encE]; omega) (by decide) (by decide) a.isLt (by decide) d.isLt (by decide)
  have h1 : fld N 0 3 = 0 := fld_low 3 hlow (by decide)
  have q : decSync N = .ok (.pbar a d) := by
    unfold decSync; rw [hs, h1, r1, gAt_eq r0, gAt_eq r2]; rfl
  exact of_raw (congrArg some hN) hlt (by unfold rawDecode; rw [h0]; exact q)

theorem waitw (a : GReg) (b : GReg) (d : GReg) (c : WCond) : Statement (.waitw a b d c) := by
  generalize hN : encE 0x781C0000 a.val b.val d.val (wcondCode c) = N
  obtain ⟨h0, hlt, hlow, hs, r0, r1, r2⟩ := fieldsE (n := N) 30 7 a.val b.val d.val ((wcondCode c))
    (by rw [← hN]; simp only [encE]; omega) (by decide) (by decide) a.isLt b.isLt d.isLt (by have := wcondCode_lt c; omega)
  have h1 : fld N 0 3 = wcondCode c := by rw [fld_low 3 hlow (by decide)]; simp only [fld]; have := wcondCode_lt c; omega
  have q : decSync N = .ok (.waitw a b d c) := by
    unfold decSync; rw [hs, h1, wcondOf_wcondCode, gAt_eq r0, gAt_eq r1, gAt_eq r2]; rfl
  exact of_raw (congrArg some hN) hlt (by unfold rawDecode; rw [h0]; exact q)

theorem qput (a : GReg) (b : GReg) (d : GReg) (f : QMode) : Statement (.qput a b d f) := by
  generalize hN : encE 0x78200000 a.val b.val d.val (qmodeCode f) = N
  obtain ⟨h0, hlt, hlow, hs, r0, r1, r2⟩ := fieldsE (n := N) 30 8 a.val b.val d.val ((qmodeCode f))
    (by rw [← hN]; simp only [encE]; omega) (by decide) (by decide) a.isLt b.isLt d.isLt (by have := qmodeCode_lt f; omega)
  have h1 : fld N 2 1 = 0 := by rw [fld_low 3 hlow (by decide)]; simp only [fld]; have := qmodeCode_lt f; omega
  have h2 : fld N 0 2 = qmodeCode f := by rw [fld_low 3 hlow (by decide)]; simp only [fld]; have := qmodeCode_lt f; omega
  have q : decSync N = .ok (.qput a b d f) := by
    unfold decSync; rw [hs, h1, h2, qmodeOf_qmodeCode, gAt_eq r0, gAt_eq r1, gAt_eq r2]; rfl
  exact of_raw (congrArg some hN) hlt (by unfold rawDecode; rw [h0]; exact q)

theorem qget (a : GReg) (b : GReg) (d : GReg) (n : Bool) : Statement (.qget a b d n) := by
  generalize hN : encE 0x78240000 a.val b.val d.val (boolCode n) = N
  obtain ⟨h0, hlt, hlow, hs, r0, r1, r2⟩ := fieldsE (n := N) 30 9 a.val b.val d.val ((boolCode n))
    (by rw [← hN]; simp only [encE]; omega) (by decide) (by decide) a.isLt b.isLt d.isLt (by have := boolCode_lt n; omega)
  have h1 : fld N 1 2 = 0 := by rw [fld_low 3 hlow (by decide)]; simp only [fld]; have := boolCode_lt n; omega
  have h2 : fld N 0 1 = boolCode n := by rw [fld_low 3 hlow (by decide)]; simp only [fld]; have := boolCode_lt n; omega
  have q : decSync N = .ok (.qget a b d n) := by
    unfold decSync; rw [hs, h1, h2, boolOf_boolCode, gAt_eq r0, gAt_eq r1, gAt_eq r2]; rfl
  exact of_raw (congrArg some hN) hlt (by unfold rawDecode; rw [h0]; exact q)

theorem qstat (a : GReg) (d : GReg) : Statement (.qstat a d) := by
  generalize hN : encE 0x78280000 a.val 0 d.val 0 = N
  obtain ⟨h0, hlt, hlow, hs, r0, r1, r2⟩ := fieldsE (n := N) 30 10 a.val 0 d.val (0x0)
    (by rw [← hN]; simp only [encE]; omega) (by decide) (by decide) a.isLt (by decide) d.isLt (by decide)
  have h1 : fld N 0 3 = 0 := fld_low 3 hlow (by decide)
  have q : decSync N = .ok (.qstat a d) := by
    unfold decSync; rw [hs, h1, r1, gAt_eq r0, gAt_eq r2]; rfl
  exact of_raw (congrArg some hN) hlt (by unfold rawDecode; rw [h0]; exact q)

theorem cput (a : GReg) (b : GReg) (d : GReg) : Statement (.cput a b d) := by
  generalize hN : encE 0x7C000000 a.val b.val d.val 0 = N
  obtain ⟨h0, hlt, hlow, hs, r0, r1, r2⟩ := fieldsE (n := N) 31 0 a.val b.val d.val (0x0)
    (by rw [← hN]; simp only [encE]; omega) (by decide) (by decide) a.isLt b.isLt d.isLt (by decide)
  have h1 : fld N 0 3 = 0 := fld_low 3 hlow (by decide)
  have q : decCrumb N = .ok (.cput a b d) := by
    unfold decCrumb; rw [hs, h1, gAt_eq r0, gAt_eq r1, gAt_eq r2]; rfl
  exact of_raw (congrArg some hN) hlt (by unfold rawDecode; rw [h0]; exact q)

theorem cget (a : GReg) (b : GReg) (d : GReg) : Statement (.cget a b d) := by
  generalize hN : encE 0x7C040000 a.val b.val d.val 0 = N
  obtain ⟨h0, hlt, hlow, hs, r0, r1, r2⟩ := fieldsE (n := N) 31 1 a.val b.val d.val (0x0)
    (by rw [← hN]; simp only [encE]; omega) (by decide) (by decide) a.isLt b.isLt d.isLt (by decide)
  have h1 : fld N 0 3 = 0 := fld_low 3 hlow (by decide)
  have q : decCrumb N = .ok (.cget a b d) := by
    unfold decCrumb; rw [hs, h1, gAt_eq r0, gAt_eq r1, gAt_eq r2]; rfl
  exact of_raw (congrArg some hN) hlt (by unfold rawDecode; rw [h0]; exact q)

theorem cnode (a : GReg) (b : GReg) (d : GReg) : Statement (.cnode a b d) := by
  generalize hN : encE 0x7C080000 a.val b.val d.val 0 = N
  obtain ⟨h0, hlt, hlow, hs, r0, r1, r2⟩ := fieldsE (n := N) 31 2 a.val b.val d.val (0x0)
    (by rw [← hN]; simp only [encE]; omega) (by decide) (by decide) a.isLt b.isLt d.isLt (by decide)
  have h1 : fld N 0 3 = 0 := fld_low 3 hlow (by decide)
  have q : decCrumb N = .ok (.cnode a b d) := by
    unfold decCrumb; rw [hs, h1, gAt_eq r0, gAt_eq r1, gAt_eq r2]; rfl
  exact of_raw (congrArg some hN) hlt (by unfold rawDecode; rw [h0]; exact q)

theorem cref (b : GReg) (d : GReg) : Statement (.cref b d) := by
  generalize hN : encE 0x7C0C0000 0 b.val d.val 0 = N
  obtain ⟨h0, hlt, hlow, hs, r0, r1, r2⟩ := fieldsE (n := N) 31 3 0 b.val d.val (0x0)
    (by rw [← hN]; simp only [encE]; omega) (by decide) (by decide) (by decide) b.isLt d.isLt (by decide)
  have h1 : fld N 0 3 = 0 := fld_low 3 hlow (by decide)
  have q : decCrumb N = .ok (.cref b d) := by
    unfold decCrumb; rw [hs, h1, r0, gAt_eq r1, gAt_eq r2]; rfl
  exact of_raw (congrArg some hN) hlt (by unfold rawDecode; rw [h0]; exact q)

theorem cdrop (b : GReg) (d : GReg) : Statement (.cdrop b d) := by
  generalize hN : encE 0x7C100000 0 b.val d.val 0 = N
  obtain ⟨h0, hlt, hlow, hs, r0, r1, r2⟩ := fieldsE (n := N) 31 4 0 b.val d.val (0x0)
    (by rw [← hN]; simp only [encE]; omega) (by decide) (by decide) (by decide) b.isLt d.isLt (by decide)
  have h1 : fld N 0 3 = 0 := fld_low 3 hlow (by decide)
  have q : decCrumb N = .ok (.cdrop b d) := by
    unfold decCrumb; rw [hs, h1, r0, gAt_eq r1, gAt_eq r2]; rfl
  exact of_raw (congrArg some hN) hlt (by unfold rawDecode; rw [h0]; exact q)

theorem croot (a : GReg) (b : GReg) (d : GReg) : Statement (.croot a b d) := by
  generalize hN : encE 0x7C140000 a.val b.val d.val 0 = N
  obtain ⟨h0, hlt, hlow, hs, r0, r1, r2⟩ := fieldsE (n := N) 31 5 a.val b.val d.val (0x0)
    (by rw [← hN]; simp only [encE]; omega) (by decide) (by decide) a.isLt b.isLt d.isLt (by decide)
  have h1 : fld N 0 3 = 0 := fld_low 3 hlow (by decide)
  have q : decCrumb N = .ok (.croot a b d) := by
    unfold decCrumb; rw [hs, h1, gAt_eq r0, gAt_eq r1, gAt_eq r2]; rfl
  exact of_raw (congrArg some hN) hlt (by unfold rawDecode; rw [h0]; exact q)

theorem cswap (a : GReg) (b : GReg) (d : GReg) : Statement (.cswap a b d) := by
  generalize hN : encE 0x7C180000 a.val b.val d.val 0 = N
  obtain ⟨h0, hlt, hlow, hs, r0, r1, r2⟩ := fieldsE (n := N) 31 6 a.val b.val d.val (0x0)
    (by rw [← hN]; simp only [encE]; omega) (by decide) (by decide) a.isLt b.isLt d.isLt (by decide)
  have h1 : fld N 0 3 = 0 := fld_low 3 hlow (by decide)
  have q : decCrumb N = .ok (.cswap a b d) := by
    unfold decCrumb; rw [hs, h1, gAt_eq r0, gAt_eq r1, gAt_eq r2]; rfl
  exact of_raw (congrArg some hN) hlt (by unfold rawDecode; rw [h0]; exact q)

theorem cout (a : GReg) (b : GReg) (d : GReg) (c : Chan) : Statement (.cout a b d c) := by
  generalize hN : encE 0x7C1C0000 a.val b.val d.val c.val = N
  obtain ⟨h0, hlt, hlow, hs, r0, r1, r2⟩ := fieldsE (n := N) 31 7 a.val b.val d.val (c.val)
    (by rw [← hN]; simp only [encE]; omega) (by decide) (by decide) a.isLt b.isLt d.isLt (by have := c.isLt; omega)
  have h1 : fld N 2 1 = 0 := by rw [fld_low 3 hlow (by decide)]; simp only [fld]; have := c.isLt; omega
  have h2 : fld N 0 2 = c.val := by rw [fld_low 3 hlow (by decide)]; simp only [fld]; have := c.isLt; omega
  have q : decCrumb N = .ok (.cout a b d c) := by
    unfold decCrumb; rw [hs, h1, gAt_eq r0, gAt_eq r1, gAt_eq r2, cAt_eq h2]; rfl
  exact of_raw (congrArg some hN) hlt (by unfold rawDecode; rw [h0]; exact q)

theorem cstat (b : GReg) (d : GReg) : Statement (.cstat b d) := by
  generalize hN : encE 0x7C200000 0 b.val d.val 0 = N
  obtain ⟨h0, hlt, hlow, hs, r0, r1, r2⟩ := fieldsE (n := N) 31 8 0 b.val d.val (0x0)
    (by rw [← hN]; simp only [encE]; omega) (by decide) (by decide) (by decide) b.isLt d.isLt (by decide)
  have h1 : fld N 0 3 = 0 := fld_low 3 hlow (by decide)
  have q : decCrumb N = .ok (.cstat b d) := by
    unfold decCrumb; rw [hs, h1, r0, gAt_eq r1, gAt_eq r2]; rfl
  exact of_raw (congrArg some hN) hlt (by unfold rawDecode; rw [h0]; exact q)

theorem cstatHome (a : GReg) (d : GReg) : Statement (.cstatHome a d) := by
  generalize hN : encE 0x7C200001 a.val 0 d.val 0 = N
  obtain ⟨h0, hlt, hlow, hs, r0, r1, r2⟩ := fieldsE (n := N) 31 8 a.val 0 d.val (0x1)
    (by rw [← hN]; simp only [encE]; omega) (by decide) (by decide) a.isLt (by decide) d.isLt (by decide)
  have h1 : fld N 0 3 = 1 := fld_low 3 hlow (by decide)
  have q : decCrumb N = .ok (.cstatHome a d) := by
    unfold decCrumb; rw [hs, h1, r1, gAt_eq r0, gAt_eq r2]; rfl
  exact of_raw (congrArg some hN) hlt (by unfold rawDecode; rw [h0]; exact q)

theorem apply (a : GReg) (d : GReg) : Statement (.apply a d) := by
  generalize hN : encE 0x80000000 a.val 0 d.val 0 = N
  obtain ⟨h0, hlt, hlow, hs, r0, r1, r2⟩ := fieldsE (n := N) 32 0 a.val 0 d.val (0x0)
    (by rw [← hN]; simp only [encE]; omega) (by decide) (by decide) a.isLt (by decide) d.isLt (by decide)
  have h1 : fld N 0 3 = 0 := fld_low 3 hlow (by decide)
  have q : decThrd N = .ok (.apply a d) := by
    unfold decThrd; rw [hs, h1, r1, gAt_eq r0, gAt_eq r2]; rfl
  exact of_raw (congrArg some hN) hlt (by unfold rawDecode; rw [h0]; exact q)

theorem applyW (a : GReg) (d : GReg) : Statement (.applyW a d) := by
  generalize hN : encE 0x80000001 a.val 0 d.val 0 = N
  obtain ⟨h0, hlt, hlow, hs, r0, r1, r2⟩ := fieldsE (n := N) 32 0 a.val 0 d.val (0x1)
    (by rw [← hN]; simp only [encE]; omega) (by decide) (by decide) a.isLt (by decide) d.isLt (by decide)
  have h1 : fld N 0 3 = 1 := fld_low 3 hlow (by decide)
  have q : decThrd N = .ok (.applyW a d) := by
    unfold decThrd; rw [hs, h1, r1, gAt_eq r0, gAt_eq r2]; rfl
  exact of_raw (congrArg some hN) hlt (by unfold rawDecode; rw [h0]; exact q)

theorem patch (a : GReg) (b : GReg) (d : GReg) : Statement (.patch a b d) := by
  generalize hN : encE 0x80040000 a.val b.val d.val 0 = N
  obtain ⟨h0, hlt, hlow, hs, r0, r1, r2⟩ := fieldsE (n := N) 32 1 a.val b.val d.val (0x0)
    (by rw [← hN]; simp only [encE]; omega) (by decide) (by decide) a.isLt b.isLt d.isLt (by decide)
  have h1 : fld N 0 3 = 0 := fld_low 3 hlow (by decide)
  have q : decThrd N = .ok (.patch a b d) := by
    unfold decThrd; rw [hs, h1, gAt_eq r0, gAt_eq r1, gAt_eq r2]; rfl
  exact of_raw (congrArg some hN) hlt (by unfold rawDecode; rw [h0]; exact q)

theorem cread (a : GReg) (d : GReg) : Statement (.cread a d) := by
  generalize hN : encE 0x80080000 a.val 0 d.val 0 = N
  obtain ⟨h0, hlt, hlow, hs, r0, r1, r2⟩ := fieldsE (n := N) 32 2 a.val 0 d.val (0x0)
    (by rw [← hN]; simp only [encE]; omega) (by decide) (by decide) a.isLt (by decide) d.isLt (by decide)
  have h1 : fld N 0 3 = 0 := fld_low 3 hlow (by decide)
  have q : decThrd N = .ok (.cread a d) := by
    unfold decThrd; rw [hs, h1, r1, gAt_eq r0, gAt_eq r2]; rfl
  exact of_raw (congrArg some hN) hlt (by unfold rawDecode; rw [h0]; exact q)

theorem join (a : GReg) (d : GReg) : Statement (.join a d) := by
  generalize hN : encE 0x800C0000 a.val 0 d.val 0 = N
  obtain ⟨h0, hlt, hlow, hs, r0, r1, r2⟩ := fieldsE (n := N) 32 3 a.val 0 d.val (0x0)
    (by rw [← hN]; simp only [encE]; omega) (by decide) (by decide) a.isLt (by decide) d.isLt (by decide)
  have h1 : fld N 0 3 = 0 := fld_low 3 hlow (by decide)
  have q : decThrd N = .ok (.join a d) := by
    unfold decThrd; rw [hs, h1, r1, gAt_eq r0, gAt_eq r2]; rfl
  exact of_raw (congrArg some hN) hlt (by unfold rawDecode; rw [h0]; exact q)

theorem send (a : GReg) (b : GReg) (d : GReg) (n : Fin 5) : Statement (.send a b d n) := by
  generalize hN : encE 0x80100000 a.val b.val d.val n.val = N
  obtain ⟨h0, hlt, hlow, hs, r0, r1, r2⟩ := fieldsE (n := N) 32 4 a.val b.val d.val (n.val)
    (by rw [← hN]; simp only [encE]; omega) (by decide) (by decide) a.isLt b.isLt d.isLt (by have := n.isLt; omega)
  have h1 : fld N 0 3 = n.val := by rw [fld_low 3 hlow (by decide)]; simp only [fld]; have := n.isLt; omega
  have q : decThrd N = .ok (.send a b d n) := by
    unfold decThrd; rw [hs, h1, fin5Of_val, gAt_eq r0, gAt_eq r1, gAt_eq r2]; rfl
  exact of_raw (congrArg some hN) hlt (by unfold rawDecode; rw [h0]; exact q)

theorem hret : Statement (.hret) := by
  generalize hN : encE 0x80140000 0 0 0 0 = N
  obtain ⟨h0, hlt, hlow, hs, r0, r1, r2⟩ := fieldsE (n := N) 32 5 0 0 0 (0x0)
    (by rw [← hN]; simp only [encE]; omega) (by decide) (by decide) (by decide) (by decide) (by decide) (by decide)
  have h1 : fld N 0 18 = 0 := by rw [← hN]; simp only [fld, encE]; omega
  have q : decThrd N = .ok (.hret) := by
    unfold decThrd; rw [hs, h1]; rfl
  exact of_raw (congrArg some hN) hlt (by unfold rawDecode; rw [h0]; exact q)

theorem exit : Statement (.exit) := by
  generalize hN : encE 0x80180000 0 0 0 0 = N
  obtain ⟨h0, hlt, hlow, hs, r0, r1, r2⟩ := fieldsE (n := N) 32 6 0 0 0 (0x0)
    (by rw [← hN]; simp only [encE]; omega) (by decide) (by decide) (by decide) (by decide) (by decide) (by decide)
  have h1 : fld N 0 18 = 0 := by rw [← hN]; simp only [fld, encE]; omega
  have q : decThrd N = .ok (.exit) := by
    unfold decThrd; rw [hs, h1]; rfl
  exact of_raw (congrArg some hN) hlt (by unfold rawDecode; rw [h0]; exact q)

theorem yield (a : GReg) (b : GReg) (d : GReg) : Statement (.yield a b d) := by
  generalize hN : encE 0x801C0000 a.val b.val d.val 0 = N
  obtain ⟨h0, hlt, hlow, hs, r0, r1, r2⟩ := fieldsE (n := N) 32 7 a.val b.val d.val (0x0)
    (by rw [← hN]; simp only [encE]; omega) (by decide) (by decide) a.isLt b.isLt d.isLt (by decide)
  have h1 : fld N 0 3 = 0 := fld_low 3 hlow (by decide)
  have q : decThrd N = .ok (.yield a b d) := by
    unfold decThrd; rw [hs, h1, gAt_eq r0, gAt_eq r1, gAt_eq r2]; rfl
  exact of_raw (congrArg some hN) hlt (by unfold rawDecode; rw [h0]; exact q)

theorem resume (a : GReg) (b : GReg) (d : GReg) : Statement (.resume a b d) := by
  generalize hN : encE 0x80200000 a.val b.val d.val 0 = N
  obtain ⟨h0, hlt, hlow, hs, r0, r1, r2⟩ := fieldsE (n := N) 32 8 a.val b.val d.val (0x0)
    (by rw [← hN]; simp only [encE]; omega) (by decide) (by decide) a.isLt b.isLt d.isLt (by decide)
  have h1 : fld N 0 3 = 0 := fld_low 3 hlow (by decide)
  have q : decThrd N = .ok (.resume a b d) := by
    unfold decThrd; rw [hs, h1, gAt_eq r0, gAt_eq r1, gAt_eq r2]; rfl
  exact of_raw (congrArg some hN) hlt (by unfold rawDecode; rw [h0]; exact q)

theorem tid (d : GReg) (z : Fin 8) : Statement (.tid d z) := by
  generalize hN : encE 0x80240000 0 0 d.val z.val = N
  obtain ⟨h0, hlt, hlow, hs, r0, r1, r2⟩ := fieldsE (n := N) 32 9 0 0 d.val (z.val)
    (by rw [← hN]; simp only [encE]; omega) (by decide) (by decide) (by decide) (by decide) d.isLt (by have := z.isLt; omega)
  have h1 : fld N 8 10 = 0 := by rw [← hN]; simp only [fld, encE]; have := d.isLt; have := z.isLt; omega
  have h2 : fld N 0 3 = z.val := by rw [fld_low 3 hlow (by decide)]; simp only [fld]; have := z.isLt; omega
  have q : decThrd N = .ok (.tid d z) := by
    unfold decThrd; rw [hs, h1, gAt_eq r2, mAt_eq h2]; rfl
  exact of_raw (congrArg some hN) hlt (by unfold rawDecode; rw [h0]; exact q)

theorem stage (d : GReg) (z : Fin 3) : Statement (.stage d z) := by
  generalize hN : encE 0x80280000 0 0 d.val z.val = N
  obtain ⟨h0, hlt, hlow, hs, r0, r1, r2⟩ := fieldsE (n := N) 32 10 0 0 d.val (z.val)
    (by rw [← hN]; simp only [encE]; omega) (by decide) (by decide) (by decide) (by decide) d.isLt (by have := z.isLt; omega)
  have h1 : fld N 8 10 = 0 := by rw [← hN]; simp only [fld, encE]; have := d.isLt; have := z.isLt; omega
  have h2 : fld N 0 3 = z.val := by rw [fld_low 3 hlow (by decide)]; simp only [fld]; have := z.isLt; omega
  have q : decThrd N = .ok (.stage d z) := by
    unfold decThrd; rw [hs, h1, h2, fin3Of_val, gAt_eq r2]; rfl
  exact of_raw (congrArg some hN) hlt (by unfold rawDecode; rw [h0]; exact q)

theorem bal (d : GReg) : Statement (.bal d) := by
  generalize hN : encE 0x802C0000 0 0 d.val 0 = N
  obtain ⟨h0, hlt, hlow, hs, r0, r1, r2⟩ := fieldsE (n := N) 32 11 0 0 d.val (0x0)
    (by rw [← hN]; simp only [encE]; omega) (by decide) (by decide) (by decide) (by decide) d.isLt (by decide)
  have h1 : fld N 0 3 = 0 := fld_low 3 hlow (by decide)
  have h2 : fld N 8 10 = 0 := by rw [← hN]; simp only [fld, encE]; have := d.isLt; omega
  have q : decThrd N = .ok (.bal d) := by
    unfold decThrd; rw [hs, h1, h2, gAt_eq r2]; rfl
  exact of_raw (congrArg some hN) hlt (by unfold rawDecode; rw [h0]; exact q)

theorem sleep (a : GReg) (d : GReg) : Statement (.sleep a d) := by
  generalize hN : encE 0x80300000 a.val 0 d.val 0 = N
  obtain ⟨h0, hlt, hlow, hs, r0, r1, r2⟩ := fieldsE (n := N) 32 12 a.val 0 d.val (0x0)
    (by rw [← hN]; simp only [encE]; omega) (by decide) (by decide) a.isLt (by decide) d.isLt (by decide)
  have h1 : fld N 0 3 = 0 := fld_low 3 hlow (by decide)
  have q : decThrd N = .ok (.sleep a d) := by
    unfold decThrd; rw [hs, h1, r1, gAt_eq r0, gAt_eq r2]; rfl
  exact of_raw (congrArg some hN) hlt (by unfold rawDecode; rw [h0]; exact q)

theorem wake (a : GReg) (d : GReg) : Statement (.wake a d) := by
  generalize hN : encE 0x80340000 a.val 0 d.val 0 = N
  obtain ⟨h0, hlt, hlow, hs, r0, r1, r2⟩ := fieldsE (n := N) 32 13 a.val 0 d.val (0x0)
    (by rw [← hN]; simp only [encE]; omega) (by decide) (by decide) a.isLt (by decide) d.isLt (by decide)
  have h1 : fld N 0 3 = 0 := fld_low 3 hlow (by decide)
  have q : decThrd N = .ok (.wake a d) := by
    unfold decThrd; rw [hs, h1, r1, gAt_eq r0, gAt_eq r2]; rfl
  exact of_raw (congrArg some hN) hlt (by unfold rawDecode; rw [h0]; exact q)

theorem jbeg : Statement (.jbeg) := by
  generalize hN : encE 0x84000000 0 0 0 0 = N
  obtain ⟨h0, hlt, hlow, hs, r0, r1, r2⟩ := fieldsE (n := N) 33 0 0 0 0 (0x0)
    (by rw [← hN]; simp only [encE]; omega) (by decide) (by decide) (by decide) (by decide) (by decide) (by decide)
  have h1 : fld N 0 18 = 0 := by rw [← hN]; simp only [fld, encE]; omega
  have q : decUrg N = .ok (.jbeg) := by
    unfold decUrg; rw [hs, h1]; rfl
  exact of_raw (congrArg some hN) hlt (by unfold rawDecode; rw [h0]; exact q)

theorem jend (d : GReg) : Statement (.jend d) := by
  generalize hN : encE 0x84040000 0 0 d.val 0 = N
  obtain ⟨h0, hlt, hlow, hs, r0, r1, r2⟩ := fieldsE (n := N) 33 1 0 0 d.val (0x0)
    (by rw [← hN]; simp only [encE]; omega) (by decide) (by decide) (by decide) (by decide) d.isLt (by decide)
  have h1 : fld N 0 3 = 0 := fld_low 3 hlow (by decide)
  have h2 : fld N 8 10 = 0 := by rw [← hN]; simp only [fld, encE]; have := d.isLt; omega
  have q : decUrg N = .ok (.jend d) := by
    unfold decUrg; rw [hs, h1, h2, gAt_eq r2]; rfl
  exact of_raw (congrArg some hN) hlt (by unfold rawDecode; rw [h0]; exact q)

theorem shdone : Statement (.shdone) := by
  generalize hN : encE 0x84080000 0 0 0 0 = N
  obtain ⟨h0, hlt, hlow, hs, r0, r1, r2⟩ := fieldsE (n := N) 33 2 0 0 0 (0x0)
    (by rw [← hN]; simp only [encE]; omega) (by decide) (by decide) (by decide) (by decide) (by decide) (by decide)
  have h1 : fld N 0 18 = 0 := by rw [← hN]; simp only [fld, encE]; omega
  have q : decUrg N = .ok (.shdone) := by
    unfold decUrg; rw [hs, h1]; rfl
  exact of_raw (congrArg some hN) hlt (by unfold rawDecode; rw [h0]; exact q)

theorem rsdone : Statement (.rsdone) := by
  generalize hN : encE 0x840C0000 0 0 0 0 = N
  obtain ⟨h0, hlt, hlow, hs, r0, r1, r2⟩ := fieldsE (n := N) 33 3 0 0 0 (0x0)
    (by rw [← hN]; simp only [encE]; omega) (by decide) (by decide) (by decide) (by decide) (by decide) (by decide)
  have h1 : fld N 0 18 = 0 := by rw [← hN]; simp only [fld, encE]; omega
  have q : decUrg N = .ok (.rsdone) := by
    unfold decUrg; rw [hs, h1]; rfl
  exact of_raw (congrArg some hN) hlt (by unfold rawDecode; rw [h0]; exact q)

theorem uchg (a : GReg) (d : GReg) : Statement (.uchg a d) := by
  generalize hN : encE 0x84100000 a.val 0 d.val 0 = N
  obtain ⟨h0, hlt, hlow, hs, r0, r1, r2⟩ := fieldsE (n := N) 33 4 a.val 0 d.val (0x0)
    (by rw [← hN]; simp only [encE]; omega) (by decide) (by decide) a.isLt (by decide) d.isLt (by decide)
  have h1 : fld N 0 3 = 0 := fld_low 3 hlow (by decide)
  have q : decUrg N = .ok (.uchg a d) := by
    unfold decUrg; rw [hs, h1, r1, gAt_eq r0, gAt_eq r2]; rfl
  exact of_raw (congrArg some hN) hlt (by unfold rawDecode; rw [h0]; exact q)

theorem uown (a : GReg) (d : GReg) : Statement (.uown a d) := by
  generalize hN : encE 0x84140000 a.val 0 d.val 0 = N
  obtain ⟨h0, hlt, hlow, hs, r0, r1, r2⟩ := fieldsE (n := N) 33 5 a.val 0 d.val (0x0)
    (by rw [← hN]; simp only [encE]; omega) (by decide) (by decide) a.isLt (by decide) d.isLt (by decide)
  have h1 : fld N 0 3 = 0 := fld_low 3 hlow (by decide)
  have q : decUrg N = .ok (.uown a d) := by
    unfold decUrg; rw [hs, h1, r1, gAt_eq r0, gAt_eq r2]; rfl
  exact of_raw (congrArg some hN) hlt (by unfold rawDecode; rw [h0]; exact q)

theorem uownSt (d : GReg) : Statement (.uownSt d) := by
  generalize hN : encE 0x84140001 0 0 d.val 0 = N
  obtain ⟨h0, hlt, hlow, hs, r0, r1, r2⟩ := fieldsE (n := N) 33 5 0 0 d.val (0x1)
    (by rw [← hN]; simp only [encE]; omega) (by decide) (by decide) (by decide) (by decide) d.isLt (by decide)
  have h1 : fld N 0 3 = 1 := fld_low 3 hlow (by decide)
  have h2 : fld N 8 10 = 0 := by rw [← hN]; simp only [fld, encE]; have := d.isLt; omega
  have q : decUrg N = .ok (.uownSt d) := by
    unfold decUrg; rw [hs, h1, h2, gAt_eq r2]; rfl
  exact of_raw (congrArg some hN) hlt (by unfold rawDecode; rw [h0]; exact q)

theorem ucfgOwn (a : GReg) (b : GReg) (d : GReg) : Statement (.ucfgOwn a b d) := by
  generalize hN : encE 0x84180000 a.val b.val d.val 0 = N
  obtain ⟨h0, hlt, hlow, hs, r0, r1, r2⟩ := fieldsE (n := N) 33 6 a.val b.val d.val (0x0)
    (by rw [← hN]; simp only [encE]; omega) (by decide) (by decide) a.isLt b.isLt d.isLt (by decide)
  have h1 : fld N 0 3 = 0 := fld_low 3 hlow (by decide)
  have q : decUrg N = .ok (.ucfgOwn a b d) := by
    unfold decUrg; rw [hs, h1, gAt_eq r0, gAt_eq r1, gAt_eq r2]; rfl
  exact of_raw (congrArg some hN) hlt (by unfold rawDecode; rw [h0]; exact q)

theorem ucfgTab (a : GReg) (b : GReg) (d : GReg) : Statement (.ucfgTab a b d) := by
  generalize hN : encE 0x84180001 a.val b.val d.val 0 = N
  obtain ⟨h0, hlt, hlow, hs, r0, r1, r2⟩ := fieldsE (n := N) 33 6 a.val b.val d.val (0x1)
    (by rw [← hN]; simp only [encE]; omega) (by decide) (by decide) a.isLt b.isLt d.isLt (by decide)
  have h1 : fld N 0 3 = 1 := fld_low 3 hlow (by decide)
  have q : decUrg N = .ok (.ucfgTab a b d) := by
    unfold decUrg; rw [hs, h1, gAt_eq r0, gAt_eq r1, gAt_eq r2]; rfl
  exact of_raw (congrArg some hN) hlt (by unfold rawDecode; rw [h0]; exact q)

theorem ucfgArb (a : GReg) (d : GReg) : Statement (.ucfgArb a d) := by
  generalize hN : encE 0x84180002 a.val 0 d.val 0 = N
  obtain ⟨h0, hlt, hlow, hs, r0, r1, r2⟩ := fieldsE (n := N) 33 6 a.val 0 d.val (0x2)
    (by rw [← hN]; simp only [encE]; omega) (by decide) (by decide) a.isLt (by decide) d.isLt (by decide)
  have h1 : fld N 0 3 = 2 := fld_low 3 hlow (by decide)
  have q : decUrg N = .ok (.ucfgArb a d) := by
    unfold decUrg; rw [hs, h1, r1, gAt_eq r0, gAt_eq r2]; rfl
  exact of_raw (congrArg some hN) hlt (by unfold rawDecode; rw [h0]; exact q)

theorem csrr (d : GReg) (n : BitVec 12) : Statement (.csrr d n) := by
  generalize hN : encC 0x88000000 d.val 0 n.toNat 0 = N
  obtain ⟨h0, hlt, hlow, r0, r1⟩ := fieldsC (n := N) 34 d.val 0 (16 * n.toNat)
    (by rw [← hN]; simp only [encC]; omega) (by decide) d.isLt (by decide) (by have := n.isLt; omega)
  have h1 : fld N 0 4 = 0 := by rw [fld_low 16 hlow (by decide)]; simp only [fld]; have := n.isLt; omega
  have h2 : fld N 4 12 = n.toNat := by rw [fld_low 16 hlow (by decide)]; simp only [fld]; have := n.isLt; omega
  have q : decSys N = .ok (.csrr d n) := by
    unfold decSys; rw [h1, r1, gAt_eq r0, ofNat_fld h2]; rfl
  exact of_raw (congrArg some hN) hlt (by unfold rawDecode; rw [h0]; exact q)

theorem csrw (a : GReg) (n : BitVec 12) : Statement (.csrw a n) := by
  generalize hN : encC 0x88000001 0 a.val n.toNat 0 = N
  obtain ⟨h0, hlt, hlow, r0, r1⟩ := fieldsC (n := N) 34 0 a.val (0x1 + 16 * n.toNat)
    (by rw [← hN]; simp only [encC]; omega) (by decide) (by decide) a.isLt (by have := n.isLt; omega)
  have h1 : fld N 0 4 = 1 := by rw [fld_low 16 hlow (by decide)]; simp only [fld]; have := n.isLt; omega
  have h2 : fld N 4 12 = n.toNat := by rw [fld_low 16 hlow (by decide)]; simp only [fld]; have := n.isLt; omega
  have q : decSys N = .ok (.csrw a n) := by
    unfold decSys; rw [h1, r0, gAt_eq r1, ofNat_fld h2]; rfl
  exact of_raw (congrArg some hN) hlt (by unfold rawDecode; rw [h0]; exact q)

theorem csrx (d : GReg) (a : GReg) (n : BitVec 12) : Statement (.csrx d a n) := by
  generalize hN : encC 0x88000002 d.val a.val n.toNat 0 = N
  obtain ⟨h0, hlt, hlow, r0, r1⟩ := fieldsC (n := N) 34 d.val a.val (0x2 + 16 * n.toNat)
    (by rw [← hN]; simp only [encC]; omega) (by decide) d.isLt a.isLt (by have := n.isLt; omega)
  have h1 : fld N 0 4 = 2 := by rw [fld_low 16 hlow (by decide)]; simp only [fld]; have := n.isLt; omega
  have h2 : fld N 4 12 = n.toNat := by rw [fld_low 16 hlow (by decide)]; simp only [fld]; have := n.isLt; omega
  have q : decSys N = .ok (.csrx d a n) := by
    unfold decSys; rw [h1, gAt_eq r0, gAt_eq r1, ofNat_fld h2]; rfl
  exact of_raw (congrArg some hN) hlt (by unfold rawDecode; rw [h0]; exact q)

theorem trap (c : BitVec 12) : Statement (.trap c) := by
  generalize hN : encC 0x88000003 0 0 c.toNat 0 = N
  obtain ⟨h0, hlt, hlow, r0, r1⟩ := fieldsC (n := N) 34 0 0 (0x3 + 16 * c.toNat)
    (by rw [← hN]; simp only [encC]; omega) (by decide) (by decide) (by decide) (by have := c.isLt; omega)
  have h1 : fld N 0 4 = 3 := by rw [fld_low 16 hlow (by decide)]; simp only [fld]; have := c.isLt; omega
  have h2 : fld N 16 10 = 0 := by rw [← hN]; simp only [fld, encC]; have := c.isLt; omega
  have h3 : fld N 4 12 = c.toNat := by rw [fld_low 16 hlow (by decide)]; simp only [fld]; have := c.isLt; omega
  have q : decSys N = .ok (.trap c) := by
    unfold decSys; rw [h1, h2, ofNat_fld h3]; rfl
  exact of_raw (congrArg some hN) hlt (by unfold rawDecode; rw [h0]; exact q)

theorem tret : Statement (.tret) := by
  generalize hN : encC 0x88000004 0 0 0 0 = N
  obtain ⟨h0, hlt, hlow, r0, r1⟩ := fieldsC (n := N) 34 0 0 (0x4)
    (by rw [← hN]; simp only [encC]; omega) (by decide) (by decide) (by decide) (by decide)
  have h1 : fld N 0 4 = 4 := fld_low 16 hlow (by decide)
  have h2 : fld N 4 22 = 0 := by rw [← hN]; simp only [fld, encC]; omega
  have q : decSys N = .ok (.tret) := by
    unfold decSys; rw [h1, h2]; rfl
  exact of_raw (congrArg some hN) hlt (by unfold rawDecode; rw [h0]; exact q)

theorem sysc (a : GReg) : Statement (.sysc a) := by
  generalize hN : encC 0x88000005 0 a.val 0 0 = N
  obtain ⟨h0, hlt, hlow, r0, r1⟩ := fieldsC (n := N) 34 0 a.val (0x5)
    (by rw [← hN]; simp only [encC]; omega) (by decide) (by decide) a.isLt (by decide)
  have h1 : fld N 0 4 = 5 := fld_low 16 hlow (by decide)
  have h2 : fld N 4 12 = 0 := fld_low 16 hlow (by decide)
  have q : decSys N = .ok (.sysc a) := by
    unfold decSys; rw [h1, h2, r0, gAt_eq r1]; rfl
  exact of_raw (congrArg some hN) hlt (by unfold rawDecode; rw [h0]; exact q)

theorem syscNb (a : GReg) : Statement (.syscNb a) := by
  generalize hN : encC 0x88000006 0 a.val 0 0 = N
  obtain ⟨h0, hlt, hlow, r0, r1⟩ := fieldsC (n := N) 34 0 a.val (0x6)
    (by rw [← hN]; simp only [encC]; omega) (by decide) (by decide) a.isLt (by decide)
  have h1 : fld N 0 4 = 6 := fld_low 16 hlow (by decide)
  have h2 : fld N 4 12 = 0 := fld_low 16 hlow (by decide)
  have q : decSys N = .ok (.syscNb a) := by
    unfold decSys; rw [h1, h2, r0, gAt_eq r1]; rfl
  exact of_raw (congrArg some hN) hlt (by unfold rawDecode; rw [h0]; exact q)

theorem brk (c : BitVec 12) : Statement (.brk c) := by
  generalize hN : encC 0x88000007 0 0 c.toNat 0 = N
  obtain ⟨h0, hlt, hlow, r0, r1⟩ := fieldsC (n := N) 34 0 0 (0x7 + 16 * c.toNat)
    (by rw [← hN]; simp only [encC]; omega) (by decide) (by decide) (by decide) (by have := c.isLt; omega)
  have h1 : fld N 0 4 = 7 := by rw [fld_low 16 hlow (by decide)]; simp only [fld]; have := c.isLt; omega
  have h2 : fld N 16 10 = 0 := by rw [← hN]; simp only [fld, encC]; have := c.isLt; omega
  have h3 : fld N 4 12 = c.toNat := by rw [fld_low 16 hlow (by decide)]; simp only [fld]; have := c.isLt; omega
  have q : decSys N = .ok (.brk c) := by
    unfold decSys; rw [h1, h2, ofNat_fld h3]; rfl
  exact of_raw (congrArg some hN) hlt (by unfold rawDecode; rw [h0]; exact q)

theorem cch (a : GReg) (b : GReg) (d : GReg) : Statement (.cch a b d) := by
  generalize hN : encE 0x8C000000 a.val b.val d.val 0 = N
  obtain ⟨h0, hlt, hlow, hs, r0, r1, r2⟩ := fieldsE (n := N) 35 0 a.val b.val d.val (0x0)
    (by rw [← hN]; simp only [encE]; omega) (by decide) (by decide) a.isLt b.isLt d.isLt (by decide)
  have h1 : fld N 0 3 = 0 := fld_low 3 hlow (by decide)
  have q : decPriv N = .ok (.cch a b d) := by
    unfold decPriv; rw [hs, h1, gAt_eq r0, gAt_eq r1, gAt_eq r2]; rfl
  exact of_raw (congrArg some hN) hlt (by unfold rawDecode; rw [h0]; exact q)

theorem csave (a : GReg) (b : GReg) (d : GReg) : Statement (.csave a b d) := by
  generalize hN : encE 0x8C040000 a.val b.val d.val 0 = N
  obtain ⟨h0, hlt, hlow, hs, r0, r1, r2⟩ := fieldsE (n := N) 35 1 a.val b.val d.val (0x0)
    (by rw [← hN]; simp only [encE]; omega) (by decide) (by decide) a.isLt b.isLt d.isLt (by decide)
  have h1 : fld N 0 3 = 0 := fld_low 3 hlow (by decide)
  have q : decPriv N = .ok (.csave a b d) := by
    unfold decPriv; rw [hs, h1, gAt_eq r0, gAt_eq r1, gAt_eq r2]; rfl
  exact of_raw (congrArg some hN) hlt (by unfold rawDecode; rw [h0]; exact q)

theorem crest (a : GReg) (b : GReg) (d : GReg) : Statement (.crest a b d) := by
  generalize hN : encE 0x8C080000 a.val b.val d.val 0 = N
  obtain ⟨h0, hlt, hlow, hs, r0, r1, r2⟩ := fieldsE (n := N) 35 2 a.val b.val d.val (0x0)
    (by rw [← hN]; simp only [encE]; omega) (by decide) (by decide) a.isLt b.isLt d.isLt (by decide)
  have h1 : fld N 0 3 = 0 := fld_low 3 hlow (by decide)
  have q : decPriv N = .ok (.crest a b d) := by
    unfold decPriv; rw [hs, h1, gAt_eq r0, gAt_eq r1, gAt_eq r2]; rfl
  exact of_raw (congrArg some hN) hlt (by unfold rawDecode; rw [h0]; exact q)

theorem tlbi (a : GReg) : Statement (.tlbi a) := by
  generalize hN : encE 0x8C0C0000 a.val 0 0 0 = N
  obtain ⟨h0, hlt, hlow, hs, r0, r1, r2⟩ := fieldsE (n := N) 35 3 a.val 0 0 (0x0)
    (by rw [← hN]; simp only [encE]; omega) (by decide) (by decide) a.isLt (by decide) (by decide) (by decide)
  have h1 : fld N 0 3 = 0 := fld_low 3 hlow (by decide)
  have h2 : fld N 3 10 = 0 := by rw [← hN]; simp only [fld, encE]; have := a.isLt; omega
  have q : decPriv N = .ok (.tlbi a) := by
    unfold decPriv; rw [hs, h1, h2, gAt_eq r0]; rfl
  exact of_raw (congrArg some hN) hlt (by unfold rawDecode; rw [h0]; exact q)

theorem tlbiAll : Statement (.tlbiAll) := by
  generalize hN : encE 0x8C0C0001 0 0 0 0 = N
  obtain ⟨h0, hlt, hlow, hs, r0, r1, r2⟩ := fieldsE (n := N) 35 3 0 0 0 (0x1)
    (by rw [← hN]; simp only [encE]; omega) (by decide) (by decide) (by decide) (by decide) (by decide) (by decide)
  have h1 : fld N 0 3 = 1 := fld_low 3 hlow (by decide)
  have h2 : fld N 3 15 = 0 := by rw [← hN]; simp only [fld, encE]; omega
  have q : decPriv N = .ok (.tlbiAll) := by
    unfold decPriv; rw [hs, h1, h2]; rfl
  exact of_raw (congrArg some hN) hlt (by unfold rawDecode; rw [h0]; exact q)

theorem prst (a : GReg) (d : GReg) : Statement (.prst a d) := by
  generalize hN : encE 0x8C100000 a.val 0 d.val 0 = N
  obtain ⟨h0, hlt, hlow, hs, r0, r1, r2⟩ := fieldsE (n := N) 35 4 a.val 0 d.val (0x0)
    (by rw [← hN]; simp only [encE]; omega) (by decide) (by decide) a.isLt (by decide) d.isLt (by decide)
  have h1 : fld N 0 3 = 0 := fld_low 3 hlow (by decide)
  have q : decPriv N = .ok (.prst a d) := by
    unfold decPriv; rw [hs, h1, r1, gAt_eq r0, gAt_eq r2]; rfl
  exact of_raw (congrArg some hN) hlt (by unfold rawDecode; rw [h0]; exact q)

theorem mark (a : GReg) : Statement (.mark a) := by
  generalize hN : encE 0x90000000 a.val 0 0 0 = N
  obtain ⟨h0, hlt, hlow, hs, r0, r1, r2⟩ := fieldsE (n := N) 36 0 a.val 0 0 (0x0)
    (by rw [← hN]; simp only [encE]; omega) (by decide) (by decide) a.isLt (by decide) (by decide) (by decide)
  have h1 : fld N 0 13 = 0 := by rw [← hN]; simp only [fld, encE]; have := a.isLt; omega
  have q : decDbg N = .ok (.mark a) := by
    unfold decDbg; rw [hs, h1, gAt_eq r0]; rfl
  exact of_raw (congrArg some hN) hlt (by unfold rawDecode; rw [h0]; exact q)

theorem dbrk (d : GReg) : Statement (.dbrk d) := by
  generalize hN : encE 0x90040000 0 0 d.val 0 = N
  obtain ⟨h0, hlt, hlow, hs, r0, r1, r2⟩ := fieldsE (n := N) 36 1 0 0 d.val (0x0)
    (by rw [← hN]; simp only [encE]; omega) (by decide) (by decide) (by decide) (by decide) d.isLt (by decide)
  have h1 : fld N 0 3 = 0 := fld_low 3 hlow (by decide)
  have h2 : fld N 8 10 = 0 := by rw [← hN]; simp only [fld, encE]; have := d.isLt; omega
  have q : decDbg N = .ok (.dbrk d) := by
    unfold decDbg; rw [hs, h1, h2, gAt_eq r2]; rfl
  exact of_raw (congrArg some hN) hlt (by unfold rawDecode; rw [h0]; exact q)

theorem smpl (a : GReg) (d : GReg) : Statement (.smpl a d) := by
  generalize hN : encE 0x90080000 a.val 0 d.val 0 = N
  obtain ⟨h0, hlt, hlow, hs, r0, r1, r2⟩ := fieldsE (n := N) 36 2 a.val 0 d.val (0x0)
    (by rw [← hN]; simp only [encE]; omega) (by decide) (by decide) a.isLt (by decide) d.isLt (by decide)
  have h1 : fld N 0 3 = 0 := fld_low 3 hlow (by decide)
  have q : decDbg N = .ok (.smpl a d) := by
    unfold decDbg; rw [hs, h1, r1, gAt_eq r0, gAt_eq r2]; rfl
  exact of_raw (congrArg some hN) hlt (by unfold rawDecode; rw [h0]; exact q)

theorem unassignedEncoding (w : BitVec 32) : Statement (.unassignedEncoding w) := none_encoded rfl

theorem divideResult (tid : Nat) : Statement (.divideResult tid) := none_encoded rfl

theorem replyArrival (tid : Nat) : Statement (.replyArrival tid) := none_encoded rfl

theorem coucheInForce (core : Nat) : Statement (.coucheInForce core) := none_encoded rfl

theorem accessParcel (src : Nat) (seq : Nat) : Statement (.accessParcel src seq) := none_encoded rfl

theorem acknowledgement (src : Nat) (seq : Nat) : Statement (.acknowledgement src seq) := none_encoded rfl

theorem parcelResend (src : Nat) (seq : Nat) : Statement (.parcelResend src seq) := none_encoded rfl

theorem parcelRefusedResend (src : Nat) (seq : Nat) : Statement (.parcelRefusedResend src seq) := none_encoded rfl

theorem targetUnreachable (src : Nat) (seq : Nat) : Statement (.targetUnreachable src seq) := none_encoded rfl

theorem walkComplete (hearth : Nat) (k : Nat) : Statement (.walkComplete hearth k) := none_encoded rfl

theorem migrationRequest (tid : Nat) : Statement (.migrationRequest tid) := none_encoded rfl

theorem migrationParcel (tid : Nat) : Statement (.migrationParcel tid) := none_encoded rfl

theorem atomicRequestParcel (src : Nat) (seq : Nat) : Statement (.atomicRequestParcel src seq) := none_encoded rfl

theorem vectorBeat (core : Nat) : Statement (.vectorBeat core) := none_encoded rfl

theorem matrixPlanePass (core : Nat) : Statement (.matrixPlanePass core) := none_encoded rfl

theorem operandLatchFilled (core : Nat) : Statement (.operandLatchFilled core) := none_encoded rfl

theorem copyDispatch (core : Nat) : Statement (.copyDispatch core) := none_encoded rfl

theorem copyBeat (core : Nat) (ch : Nat) : Statement (.copyBeat core ch) := none_encoded rfl

theorem granuleComplete (core : Nat) (ch : Nat) : Statement (.granuleComplete core ch) := none_encoded rfl

theorem copydone (tid : Nat) : Statement (.copydone tid) := none_encoded rfl

theorem arrivalParcel (src : Nat) (seq : Nat) : Statement (.arrivalParcel src seq) := none_encoded rfl

theorem barwTimeout (tid : Nat) : Statement (.barwTimeout tid) := none_encoded rfl

theorem clusterBarrierArrival (src : Nat) (seq : Nat) : Statement (.clusterBarrierArrival src seq) := none_encoded rfl

theorem waitwWake (tid : Nat) : Statement (.waitwWake tid) := none_encoded rfl

theorem waitwRetry (tid : Nat) : Statement (.waitwRetry tid) := none_encoded rfl

theorem queueCreate (part : Nat) (q : Nat) : Statement (.queueCreate part q) := none_encoded rfl

theorem queueRemove (part : Nat) (q : Nat) : Statement (.queueRemove part q) := none_encoded rfl

theorem nestPlacerRequest (part : Nat) : Statement (.nestPlacerRequest part) := none_encoded rfl

theorem applyWRetry (part : Nat) : Statement (.applyWRetry part) := none_encoded rfl

theorem loopVerdictLoad (part : Nat) (nest : Nat) : Statement (.loopVerdictLoad part nest) := none_encoded rfl

theorem childfault (tid : Nat) : Statement (.childfault tid) := none_encoded rfl

theorem handlerParcel (src : Nat) (seq : Nat) : Statement (.handlerParcel src seq) := none_encoded rfl

theorem handlerResend (src : Nat) (seq : Nat) : Statement (.handlerResend src seq) := none_encoded rfl

theorem kloadRefresh (cluster : Nat) : Statement (.kloadRefresh cluster) := none_encoded rfl

theorem balanceCheck (core : Nat) : Statement (.balanceCheck core) := none_encoded rfl

theorem wakeParcel (src : Nat) (seq : Nat) : Statement (.wakeParcel src seq) := none_encoded rfl

theorem sleepTimeout (tid : Nat) : Statement (.sleepTimeout tid) := none_encoded rfl

theorem faultQueuePut (part : Nat) : Statement (.faultQueuePut part) := none_encoded rfl

theorem verdictAction (part : Nat) (record : Nat) : Statement (.verdictAction part record) := none_encoded rfl

theorem syscallComplete (part : Nat) (entry : Nat) : Statement (.syscallComplete part entry) := none_encoded rfl

theorem deadlock (part : Nat) : Statement (.deadlock part) := none_encoded rfl

theorem coreFreeze (core : Nat) (lostSlots : List Nat) (lostLines : List Nat) (lostEngines : List Nat) : Statement (.coreFreeze core lostSlots lostLines lostEngines) := none_encoded rfl

theorem crumbFree (part : Nat) (k : Nat) : Statement (.crumbFree part k) := none_encoded rfl

theorem crumbStoreEnable (part : Nat) : Statement (.crumbStoreEnable part) := none_encoded rfl

theorem crumbStoreDisable (part : Nat) : Statement (.crumbStoreDisable part) := none_encoded rfl

theorem raise : Statement (.raise) := none_encoded rfl

theorem fallCheck : Statement (.fallCheck) := none_encoded rfl

theorem readmissionReport (owner : Nat) : Statement (.readmissionReport owner) := none_encoded rfl

theorem shedApply (core : Nat) : Statement (.shedApply core) := none_encoded rfl

theorem readmissionApply (core : Nat) : Statement (.readmissionApply core) := none_encoded rfl

theorem shed (tid : Nat) : Statement (.shed tid) := none_encoded rfl

theorem resumeTrap (tid : Nat) : Statement (.resumeTrap tid) := none_encoded rfl

theorem allowanceExpiry (tid : Nat) : Statement (.allowanceExpiry tid) := none_encoded rfl

theorem budget (tid : Nat) : Statement (.budget tid) := none_encoded rfl

theorem moduleReset : Statement (.moduleReset) := none_encoded rfl

theorem boardThermalLimit (hot : Bool) : Statement (.boardThermalLimit hot) := none_encoded rfl

theorem hdmAccess (host : Nat) (addr : Nat) (n : Nat) (data : Option (List Byte)) : Statement (.hdmAccess host addr n data) := none_encoded rfl

theorem notify (host : Nat) (vf : Nat) (p : BitVec 16) : Statement (.notify host vf p) := none_encoded rfl

theorem runStart (host : Nat) (vf : Nat) : Statement (.runStart host vf) := none_encoded rfl

theorem runStop (host : Nat) (vf : Nat) : Statement (.runStop host vf) := none_encoded rfl

theorem flock (host : Nat) (vf : Nat) : Statement (.flock host vf) := none_encoded rfl

theorem claim (host : Nat) : Statement (.claim host) := none_encoded rfl

theorem handover (host : Nat) (dest : Nat) : Statement (.handover host dest) := none_encoded rfl

theorem controlLoss : Statement (.controlLoss) := none_encoded rfl

theorem registerWrite (host : Nat) (vf : Nat) (off : Nat) (v : Word) : Statement (.registerWrite host vf off v) := none_encoded rfl

theorem launch (part : Nat) : Statement (.launch part) := none_encoded rfl

theorem applyCommand (part : Nat) : Statement (.applyCommand part) := none_encoded rfl

theorem setstarter (part : Nat) : Statement (.setstarter part) := none_encoded rfl

theorem copy (part : Nat) : Statement (.copy part) := none_encoded rfl

theorem signalWake (part : Nat) : Statement (.signalWake part) := none_encoded rfl

theorem signalArrival (part : Nat) : Statement (.signalArrival part) := none_encoded rfl

theorem signalStore (part : Nat) : Statement (.signalStore part) := none_encoded rfl

theorem wakeCommand (part : Nat) : Statement (.wakeCommand part) := none_encoded rfl

theorem hostWakeComplete (part : Nat) (k : Nat) : Statement (.hostWakeComplete part k) := none_encoded rfl

theorem checkpoint (part : Nat) : Statement (.checkpoint part) := none_encoded rfl

theorem reset (part : Nat) : Statement (.reset part) := none_encoded rfl

theorem functionLevelReset (part : Nat) : Statement (.functionLevelReset part) := none_encoded rfl

theorem pcreate : Statement (.pcreate) := none_encoded rfl

theorem presize : Statement (.presize) := none_encoded rfl

theorem pdestroy : Statement (.pdestroy) := none_encoded rfl

theorem owner : Statement (.owner) := none_encoded rfl

theorem moduleCheckpoint : Statement (.moduleCheckpoint) := none_encoded rfl

theorem restore : Statement (.restore) := none_encoded rfl

theorem sendDescriptor (part : Nat) (endpoint : Nat) : Statement (.sendDescriptor part endpoint) := none_encoded rfl

theorem packetPlacement (sender : Nat) (msg : Nat) (part : Nat) (ep : Nat) (roff : Nat) (len : Nat) (tag : Nat) (off : Nat) (data : List Byte) : Statement (.packetPlacement sender msg part ep roff len tag off data) := none_encoded rfl

theorem messageStatus (msg : Nat) (code : Nat) : Statement (.messageStatus msg code) := none_encoded rfl

theorem linkTimeout (msg : Nat) : Statement (.linkTimeout msg) := none_encoded rfl

theorem triggerFlits (head : Word) (tail : Word) : Statement (.triggerFlits head tail) := none_encoded rfl

theorem barrierArrivalFlit (link : Nat) (flit : Word) : Statement (.barrierArrivalFlit link flit) := none_encoded rfl

theorem barrierReleaseFlit (link : Nat) (flit : Word) : Statement (.barrierReleaseFlit link flit) := none_encoded rfl

theorem linkDown (link : Nat) (flit : Word) : Statement (.linkDown link flit) := none_encoded rfl

theorem timeFlit (link : Nat) (flit : Word) : Statement (.timeFlit link flit) := none_encoded rfl

theorem timeHighFlit (link : Nat) (flit : Word) : Statement (.timeHighFlit link flit) := none_encoded rfl

theorem timeFlitSend (link : Nat) : Statement (.timeFlitSend link) := none_encoded rfl

theorem debugStop (tid : Nat) : Statement (.debugStop tid) := none_encoded rfl

theorem debugRelease (tid : Nat) : Statement (.debugRelease tid) := none_encoded rfl

theorem breakpoint (tid : Nat) : Statement (.breakpoint tid) := none_encoded rfl

theorem coreHalt (core : Nat) : Statement (.coreHalt core) := none_encoded rfl

theorem coreUnhalt (core : Nat) : Statement (.coreUnhalt core) := none_encoded rfl

theorem settled (core : Nat) : Statement (.settled core) := none_encoded rfl

theorem debugRegisterAccess (host : Nat) (core : Nat) (data : Option Word) : Statement (.debugRegisterAccess host core data) := none_encoded rfl

theorem scorePulseTick : Statement (.scorePulseTick) := none_encoded rfl

theorem matrixCommandCycle (core : Nat) : Statement (.matrixCommandCycle core) := none_encoded rfl

theorem modeChangeApply (core : Nat) : Statement (.modeChangeApply core) := none_encoded rfl

theorem correctableLinkError (src : Nat) (seq : Nat) : Statement (.correctableLinkError src seq) := none_encoded rfl

theorem signalFabricLinkFailure (link : Nat) : Statement (.signalFabricLinkFailure link) := none_encoded rfl

theorem linkTraining (link : Nat) (delay : Nat) : Statement (.linkTraining link delay) := none_encoded rfl

theorem timeHighFlitSend (link : Nat) : Statement (.timeHighFlitSend link) := none_encoded rfl

theorem backingLinkDown (port : Nat) : Statement (.backingLinkDown port) := none_encoded rfl

theorem backingLinkUp (port : Nat) : Statement (.backingLinkUp port) := none_encoded rfl

theorem hostSnoop (host : Nat) (addr : Nat) : Statement (.hostSnoop host addr) := none_encoded rfl

theorem packetLossResend (msg : Nat) (off : Nat) : Statement (.packetLossResend msg off) := none_encoded rfl

theorem counterCellCycle (core : Nat) (activity : BitVec 32) : Statement (.counterCellCycle core activity) := none_encoded rfl

theorem debugControlWrite (host : Nat) (off : Nat) (v : Word) : Statement (.debugControlWrite host off v) := none_encoded rfl

end Sys2Proof.Laws.Encoded
end

