-- ==== Sys2Proof/Tests/Slice0.lean ====
section
/-! SUPPORT. Tests: the refusals of well-formedness, one word of every encoded row, written out from the table of encodings field by
field, single steps on small states, and for each obligation a state and operands that meet its hypotheses. The expected results
come from the manual's tables and worked examples or by hand from them. -/

namespace Sys2Proof.Tests

set_option Elab.async false

open Sys2Proof.Machine

/-! ### Well-formedness -/

/-- A type, size or scope that the entry does not allow is refused. -/
theorem test_types_refused : ∀ i ∈ ([.st 1 2 .bn .no 0, .stx 1 2 3 .wn .no, .amoAdd 1 2 3 .b .no, .amoCas 1 2 3 .hn .no,
    .redAdd 1 2 .h .no, .vadd 1 2 3 0 .f32, .vadds 1 2 3 0 .e2m1x, .vcmpEq 1 2 3 0 .i16, .vrsum 1 2 0 .n8, .vfadd 1 2 3 0 .i32,
    .vcvt 1 2 .e4m3 0 .f16, .vpk 1 2 .i16 0 .f32, .vex2 1 2 0 .e2m1x, .vld 1 2 0 .f16, .vmovvg 1 2 .f32, .vrng 1 2 0 .i32,
    .vacc 1 2 3 0 .n32, .mdrain 1 2 .f32 0, .barr 1 2 .pod, .barw 1 2 .pod, .barwT 1 2 3 .pod] : List Instr),
    i.typesOk = false ∧ i.wf = false := by decide

/-- A register that the entry does not allow is refused: an odd or zero pair, m0 as a destination, a destination that is a packed
source, a pair that overlaps its status register. -/
theorem test_registers_refused : ∀ i ∈ ([.redAddW128 1 3 .no, .redAddW128 1 0 .no, .vcmpEq 0 1 2 0 .i32, .vfcmpUn 0 1 2 0,
    .vmand 0 1 2, .vcvt 1 1 .f16 0 .f32, .vpk 2 2 .f32 0 .f16, .cput 1 2 3, .cget 1 2 0, .cref 4 4, .croot 1 5 4, .cswap 1 3 4,
    .cout 1 3 2 0, .cstat 0 1] : List Instr), i.regsOk = false ∧ i.wf = false := by decide

/-! ### Encodings -/

/-- A word from its fields, each its width and its value, the most significant first. -/
def word (fs : List (Nat × Nat)) : BitVec 32 := BitVec.ofNat 32 (fs.foldl (fun n f => n * 2 ^ f.1 + f.2) 0)

theorem test_decode_integer_1 : ∀ x ∈ ([(word [(6, 1), (5, 19), (5, 22), (5, 29), (11, 0)], .add 19 22 29),
    (word [(6, 1), (5, 19), (5, 22), (5, 29), (11, 32)], .sub 19 22 29),
    (word [(6, 1), (5, 19), (5, 22), (5, 29), (11, 64)], .mul 19 22 29),
    (word [(6, 1), (5, 19), (5, 22), (5, 29), (11, 96)], .mulh 19 22 29),
    (word [(6, 1), (5, 19), (5, 22), (5, 29), (11, 128)], .mulhn 19 22 29),
    (word [(6, 1), (5, 19), (5, 22), (5, 29), (11, 160)], .div 19 22 29),
    (word [(6, 1), (5, 19), (5, 22), (5, 29), (11, 192)], .divn 19 22 29),
    (word [(6, 1), (5, 19), (5, 22), (5, 29), (11, 224)], .rem 19 22 29),
    (word [(6, 1), (5, 19), (5, 22), (5, 29), (11, 256)], .remn 19 22 29),
    (word [(6, 1), (5, 19), (5, 22), (5, 29), (11, 288)], .and 19 22 29),
    (word [(6, 1), (5, 19), (5, 22), (5, 29), (11, 320)], .or 19 22 29),
    (word [(6, 1), (5, 19), (5, 22), (5, 29), (11, 352)], .xor 19 22 29),
    (word [(6, 1), (5, 19), (5, 22), (5, 29), (11, 384)], .andn 19 22 29),
    (word [(6, 1), (5, 19), (5, 22), (5, 29), (11, 416)], .orn 19 22 29),
    (word [(6, 1), (5, 19), (5, 22), (5, 29), (11, 448)], .sll 19 22 29),
    (word [(6, 1), (5, 19), (5, 22), (5, 29), (11, 480)], .srl 19 22 29),
    (word [(6, 1), (5, 19), (5, 22), (5, 29), (11, 512)], .sra 19 22 29),
    (word [(6, 1), (5, 19), (5, 22), (5, 29), (11, 544)], .rol 19 22 29),
    (word [(6, 1), (5, 19), (5, 22), (5, 29), (11, 576)], .ror 19 22 29),
    (word [(6, 1), (5, 19), (5, 22), (5, 29), (11, 608)], .slt 19 22 29),
    (word [(6, 1), (5, 19), (5, 22), (5, 29), (11, 640)], .sltn 19 22 29),
    (word [(6, 1), (5, 19), (5, 22), (5, 29), (11, 672)], .seq 19 22 29),
    (word [(6, 1), (5, 19), (5, 22), (5, 29), (11, 704)], .sne 19 22 29),
    (word [(6, 1), (5, 19), (5, 22), (5, 29), (11, 736)], .min 19 22 29)] : List (BitVec 32 × Instr)), decode x.1 = .ok x.2 := by decide

theorem test_decode_integer_2 : ∀ x ∈ ([(word [(6, 1), (5, 19), (5, 22), (5, 29), (11, 768)], .max 19 22 29),
    (word [(6, 1), (5, 19), (5, 22), (5, 29), (11, 800)], .minn 19 22 29),
    (word [(6, 1), (5, 19), (5, 22), (5, 29), (11, 832)], .maxn 19 22 29),
    (word [(6, 1), (5, 19), (5, 22), (16, 864)], .clz 19 22),
    (word [(6, 1), (5, 19), (5, 22), (16, 896)], .ctz 19 22),
    (word [(6, 1), (5, 19), (5, 22), (16, 928)], .pop 19 22),
    (word [(6, 1), (5, 19), (5, 22), (16, 960)], .bswap 19 22),
    (word [(6, 1), (5, 19), (5, 22), (16, 992)], .brev 19 22),
    (word [(6, 1), (5, 19), (5, 22), (14, 256), (2, 1)], .sext 19 22 .half),
    (word [(6, 1), (5, 19), (5, 22), (14, 264), (2, 1)], .zext 19 22 .half),
    (word [(6, 1), (5, 19), (5, 22), (5, 29), (11, 1088)], .sel 19 22 29),
    (word [(6, 1), (5, 19), (5, 22), (5, 29), (11, 1120)], .bfx 19 22 29),
    (word [(6, 1), (5, 19), (5, 22), (5, 29), (11, 1152)], .bfi 19 22 29)] : List (BitVec 32 × Instr)), decode x.1 = .ok x.2 := by decide

theorem test_decode_immediate : ∀ x ∈ ([(word [(6, 2), (5, 19), (5, 22), (16, 19275)], .addi 19 22 19275),
    (word [(6, 3), (5, 19), (5, 22), (16, 19275)], .andi 19 22 19275),
    (word [(6, 4), (5, 19), (5, 22), (16, 19275)], .ori 19 22 19275),
    (word [(6, 5), (5, 19), (5, 22), (16, 19275)], .xori 19 22 19275),
    (word [(6, 6), (5, 19), (5, 22), (10, 0), (6, 11)], .shiSll 19 22 11),
    (word [(6, 6), (5, 19), (5, 22), (10, 4), (6, 11)], .shiSrl 19 22 11),
    (word [(6, 6), (5, 19), (5, 22), (10, 8), (6, 11)], .shiSra 19 22 11),
    (word [(6, 6), (5, 19), (5, 22), (10, 12), (6, 11)], .shiRol 19 22 11),
    (word [(6, 6), (5, 19), (5, 22), (10, 16), (6, 11)], .shiRor 19 22 11),
    (word [(6, 7), (5, 19), (5, 22), (16, 19275)], .slti 19 22 19275),
    (word [(6, 8), (5, 19), (5, 22), (16, 19275)], .sltni 19 22 19275),
    (word [(6, 9), (5, 19), (21, 740171)], .li 19 740171),
    (word [(6, 10), (5, 19), (5, 22), (16, 19275)], .lsh 19 22 19275)] : List (BitVec 32 × Instr)), decode x.1 = .ok x.2 := by decide

theorem test_decode_control : ∀ x ∈ ([(word [(6, 12), (3, 0), (5, 22), (5, 29), (13, 2891)], .bEq 22 29 2891),
    (word [(6, 12), (3, 1), (5, 22), (5, 29), (13, 2891)], .bNe 22 29 2891),
    (word [(6, 12), (3, 2), (5, 22), (5, 29), (13, 2891)], .bLt 22 29 2891),
    (word [(6, 12), (3, 3), (5, 22), (5, 29), (13, 2891)], .bGe 22 29 2891),
    (word [(6, 12), (3, 4), (5, 22), (5, 29), (13, 2891)], .bLtn 22 29 2891),
    (word [(6, 12), (3, 5), (5, 22), (5, 29), (13, 2891)], .bGen 22 29 2891),
    (word [(6, 12), (3, 6), (5, 22), (5, 29), (13, 2891)], .bBs 22 29 2891),
    (word [(6, 13), (26, 55266123)], .j 55266123),
    (word [(6, 14), (26, 55266123)], .jal 55266123),
    (word [(6, 15), (5, 0), (5, 22), (16, 0)], .jr 22),
    (word [(6, 15), (5, 19), (5, 22), (16, 1)], .jalr 19 22)] : List (BitVec 32 × Instr)), decode x.1 = .ok x.2 := by decide

theorem test_decode_memory_1 : ∀ x ∈ ([(word [(6, 16), (5, 19), (5, 22), (3, 5), (2, 2), (11, 843)], .ld 19 22 .hn .hearth 843),
    (word [(6, 17), (5, 19), (5, 22), (3, 1), (2, 2), (11, 843)], .st 19 22 .h .hearth 843),
    (word [(6, 18), (5, 19), (5, 22), (5, 29), (1, 0), (3, 5), (2, 2), (5, 0)], .ldx 19 22 29 .hn .hearth),
    (word [(6, 18), (5, 19), (5, 22), (5, 29), (1, 1), (3, 1), (2, 2), (5, 0)], .stx 19 22 29 .h .hearth),
    (word [(6, 19), (5, 19), (5, 22), (5, 29), (4, 0), (3, 3), (2, 2), (2, 0)], .amoAdd 19 22 29 .d .hearth),
    (word [(6, 19), (5, 19), (5, 22), (5, 29), (4, 1), (3, 3), (2, 2), (2, 0)], .amoAnd 19 22 29 .d .hearth),
    (word [(6, 19), (5, 19), (5, 22), (5, 29), (4, 2), (3, 3), (2, 2), (2, 0)], .amoOr 19 22 29 .d .hearth),
    (word [(6, 19), (5, 19), (5, 22), (5, 29), (4, 3), (3, 3), (2, 2), (2, 0)], .amoXor 19 22 29 .d .hearth),
    (word [(6, 19), (5, 19), (5, 22), (5, 29), (4, 4), (3, 3), (2, 2), (2, 0)], .amoMin 19 22 29 .d .hearth),
    (word [(6, 19), (5, 19), (5, 22), (5, 29), (4, 5), (3, 3), (2, 2), (2, 0)], .amoMax 19 22 29 .d .hearth),
    (word [(6, 19), (5, 19), (5, 22), (5, 29), (4, 6), (3, 3), (2, 2), (2, 0)], .amoMinn 19 22 29 .d .hearth),
    (word [(6, 19), (5, 19), (5, 22), (5, 29), (4, 7), (3, 3), (2, 2), (2, 0)], .amoMaxn 19 22 29 .d .hearth),
    (word [(6, 19), (5, 19), (5, 22), (5, 29), (4, 8), (3, 3), (2, 2), (2, 0)], .amoSwap 19 22 29 .d .hearth),
    (word [(6, 19), (5, 19), (5, 22), (5, 29), (4, 9), (3, 3), (2, 2), (2, 0)], .amoCas 19 22 29 .d .hearth),
    (word [(6, 20), (5, 0), (5, 22), (5, 29), (3, 0), (3, 3), (2, 2), (3, 0)], .redAdd 22 29 .d .hearth),
    (word [(6, 20), (5, 0), (5, 22), (5, 29), (3, 1), (3, 3), (2, 2), (3, 0)], .redAnd 22 29 .d .hearth),
    (word [(6, 20), (5, 0), (5, 22), (5, 29), (3, 2), (3, 3), (2, 2), (3, 0)], .redOr 22 29 .d .hearth),
    (word [(6, 20), (5, 0), (5, 22), (5, 29), (3, 3), (3, 3), (2, 2), (3, 0)], .redXor 22 29 .d .hearth),
    (word [(6, 20), (5, 0), (5, 22), (5, 29), (3, 4), (3, 3), (2, 2), (3, 0)], .redMin 22 29 .d .hearth),
    (word [(6, 20), (5, 0), (5, 22), (5, 29), (3, 5), (3, 3), (2, 2), (3, 0)], .redMax 22 29 .d .hearth),
    (word [(6, 20), (5, 0), (5, 22), (5, 26), (6, 51), (2, 2), (3, 0)], .redAddW128 22 26 .hearth),
    (word [(6, 21), (5, 19), (5, 22), (16, 0)], .mig 19 22),
    (word [(6, 21), (5, 19), (5, 22), (16, 16)], .migc 19 22),
    (word [(6, 21), (26, 32)], .fenceCore)] : List (BitVec 32 × Instr)), decode x.1 = .ok x.2 := by decide

theorem test_decode_memory_2 : ∀ x ∈ ([(word [(6, 21), (26, 33)], .fenceCluster),
    (word [(6, 21), (26, 34)], .fenceHearth),
    (word [(6, 21), (26, 35)], .fenceModule),
    (word [(6, 21), (5, 0), (5, 22), (16, 48)], .pfl 22),
    (word [(6, 21), (5, 19), (5, 22), (16, 64)], .xlat 19 22)] : List (BitVec 32 × Instr)), decode x.1 = .ok x.2 := by decide

theorem test_decode_scalar_fp_1 : ∀ x ∈ ([(word [(6, 22), (5, 19), (5, 22), (5, 29), (11, 0)], .fadd 19 22 29),
    (word [(6, 22), (5, 19), (5, 22), (5, 29), (11, 64)], .fsub 19 22 29),
    (word [(6, 22), (5, 19), (5, 22), (5, 29), (11, 128)], .fmul 19 22 29),
    (word [(6, 22), (5, 19), (5, 22), (5, 29), (11, 192)], .fma 19 22 29),
    (word [(6, 22), (5, 19), (5, 22), (5, 29), (11, 256)], .fnma 19 22 29),
    (word [(6, 22), (5, 19), (5, 22), (5, 29), (11, 320)], .fdiv 19 22 29),
    (word [(6, 22), (5, 19), (5, 22), (16, 384)], .fsqrt 19 22),
    (word [(6, 22), (5, 19), (5, 22), (5, 29), (11, 448)], .fmin 19 22 29),
    (word [(6, 22), (5, 19), (5, 22), (5, 29), (11, 512)], .fmax 19 22 29),
    (word [(6, 22), (5, 19), (5, 22), (5, 29), (11, 576)], .fcmpEq 19 22 29),
    (word [(6, 22), (5, 19), (5, 22), (5, 29), (11, 580)], .fcmpLt 19 22 29),
    (word [(6, 22), (5, 19), (5, 22), (5, 29), (11, 584)], .fcmpLe 19 22 29),
    (word [(6, 22), (5, 19), (5, 22), (5, 29), (11, 588)], .fcmpUn 19 22 29),
    (word [(6, 22), (5, 19), (5, 22), (16, 640)], .fclass 19 22),
    (word [(6, 22), (5, 19), (5, 22), (16, 704)], .fcvtF32I64 19 22),
    (word [(6, 22), (5, 19), (5, 22), (16, 708)], .fcvtF32N64 19 22),
    (word [(6, 22), (5, 19), (5, 22), (16, 712)], .fcvtI64F32 19 22),
    (word [(6, 22), (5, 19), (5, 22), (16, 716)], .fcvtN64F32 19 22),
    (word [(6, 22), (5, 19), (5, 22), (16, 720)], .fcvtI64F32Rtz 19 22),
    (word [(6, 22), (5, 19), (5, 22), (16, 724)], .fcvtN64F32Rtz 19 22),
    (word [(6, 22), (5, 19), (5, 22), (16, 728)], .fcvtF32I32 19 22),
    (word [(6, 22), (5, 19), (5, 22), (16, 732)], .fcvtI32F32 19 22),
    (word [(6, 22), (5, 19), (5, 22), (16, 736)], .fcvtF16F32 19 22),
    (word [(6, 22), (5, 19), (5, 22), (16, 740)], .fcvtF32F16 19 22)] : List (BitVec 32 × Instr)), decode x.1 = .ok x.2 := by decide

theorem test_decode_scalar_fp_2 : ∀ x ∈ ([(word [(6, 22), (5, 19), (5, 22), (16, 744)], .fcvtBf16F32 19 22),
    (word [(6, 22), (5, 19), (5, 22), (16, 748)], .fcvtF32Bf16 19 22),
    (word [(6, 22), (5, 19), (5, 22), (5, 29), (11, 768)], .fsgnj 19 22 29),
    (word [(6, 22), (5, 19), (5, 22), (5, 29), (11, 772)], .fsgnjN 19 22 29),
    (word [(6, 22), (5, 19), (5, 22), (5, 29), (11, 776)], .fsgnjX 19 22 29)] : List (BitVec 32 × Instr)), decode x.1 = .ok x.2 := by decide

theorem test_decode_vector_integer_1 : ∀ x ∈ ([(word [(6, 24), (4, 9), (4, 14), (4, 5), (3, 5), (6, 0), (5, 3)], .vadd 9 14 5 5 .n16),
    (word [(6, 24), (4, 9), (4, 14), (4, 5), (3, 5), (6, 1), (5, 3)], .vsub 9 14 5 5 .n16),
    (word [(6, 24), (4, 9), (4, 14), (4, 5), (3, 5), (6, 2), (5, 3)], .vmul 9 14 5 5 .n16),
    (word [(6, 24), (4, 9), (4, 14), (4, 5), (3, 5), (6, 3), (5, 3)], .vmulh 9 14 5 5 .n16),
    (word [(6, 24), (4, 9), (4, 14), (4, 5), (3, 5), (6, 4), (5, 3)], .vmin 9 14 5 5 .n16),
    (word [(6, 24), (4, 9), (4, 14), (4, 5), (3, 5), (6, 5), (5, 3)], .vmax 9 14 5 5 .n16),
    (word [(6, 24), (4, 9), (4, 14), (4, 5), (3, 5), (11, 192)], .vand 9 14 5 5),
    (word [(6, 24), (4, 9), (4, 14), (4, 5), (3, 5), (11, 224)], .vor 9 14 5 5),
    (word [(6, 24), (4, 9), (4, 14), (4, 5), (3, 5), (11, 256)], .vxor 9 14 5 5),
    (word [(6, 24), (4, 9), (4, 14), (4, 5), (3, 5), (6, 9), (5, 3)], .vsll 9 14 5 5 .n16),
    (word [(6, 24), (4, 9), (4, 14), (4, 5), (3, 5), (6, 10), (5, 3)], .vsrl 9 14 5 5 .n16),
    (word [(6, 24), (4, 9), (4, 14), (4, 5), (3, 5), (6, 11), (5, 3)], .vsra 9 14 5 5 .n16),
    (word [(6, 24), (4, 9), (4, 14), (4, 5), (3, 5), (6, 12), (5, 3)], .vadds 9 14 5 5 .n16),
    (word [(6, 24), (4, 9), (4, 14), (4, 5), (3, 5), (6, 13), (5, 3)], .vsubs 9 14 5 5 .n16),
    (word [(6, 24), (1, 0), (3, 6), (4, 14), (4, 5), (3, 5), (6, 16), (5, 1)], .vcmpEq 6 14 5 5 .n32),
    (word [(6, 24), (1, 0), (3, 6), (4, 14), (4, 5), (3, 5), (6, 17), (5, 1)], .vcmpNe 6 14 5 5 .n32),
    (word [(6, 24), (1, 0), (3, 6), (4, 14), (4, 5), (3, 5), (6, 18), (5, 1)], .vcmpLt 6 14 5 5 .n32),
    (word [(6, 24), (1, 0), (3, 6), (4, 14), (4, 5), (3, 5), (6, 19), (5, 1)], .vcmpLe 6 14 5 5 .n32),
    (word [(6, 24), (4, 9), (4, 14), (4, 5), (3, 5), (11, 640)], .vsel 9 14 5 5),
    (word [(6, 24), (1, 0), (3, 6), (1, 0), (3, 5), (1, 0), (3, 3), (14, 768)], .vmand 6 5 3),
    (word [(6, 24), (1, 0), (3, 6), (1, 0), (3, 5), (1, 0), (3, 3), (14, 800)], .vmor 6 5 3),
    (word [(6, 24), (1, 0), (3, 6), (1, 0), (3, 5), (1, 0), (3, 3), (14, 832)], .vmxor 6 5 3),
    (word [(6, 24), (1, 0), (3, 6), (1, 0), (3, 5), (1, 0), (3, 3), (14, 864)], .vmandn 6 5 3),
    (word [(6, 24), (4, 9), (4, 14), (4, 0), (3, 5), (6, 32), (5, 1)], .vrsum 9 14 5 .n32)] : List (BitVec 32 × Instr)), decode x.1 = .ok x.2 := by decide

theorem test_decode_vector_integer_2 : ∀ x ∈ ([(word [(6, 24), (4, 9), (4, 14), (4, 0), (3, 5), (6, 33), (5, 1)], .vrmax 9 14 5 .n32),
    (word [(6, 24), (4, 9), (4, 14), (4, 5), (3, 5), (11, 1152)], .vperm 9 14 5 5)] : List (BitVec 32 × Instr)), decode x.1 = .ok x.2 := by decide

theorem test_decode_vector_fp : ∀ x ∈ ([(word [(6, 25), (4, 9), (4, 14), (4, 5), (3, 5), (6, 0), (5, 12)], .vfadd 9 14 5 5 .e5m2),
    (word [(6, 25), (4, 9), (4, 14), (4, 5), (3, 5), (6, 1), (5, 12)], .vfsub 9 14 5 5 .e5m2),
    (word [(6, 25), (4, 9), (4, 14), (4, 5), (3, 5), (6, 2), (5, 12)], .vfmul 9 14 5 5 .e5m2),
    (word [(6, 25), (4, 9), (4, 14), (4, 5), (3, 5), (6, 3), (5, 12)], .vfma 9 14 5 5 .e5m2),
    (word [(6, 25), (4, 9), (4, 14), (4, 5), (3, 5), (6, 4), (5, 12)], .vfmin 9 14 5 5 .e5m2),
    (word [(6, 25), (4, 9), (4, 14), (4, 5), (3, 5), (6, 5), (5, 12)], .vfmax 9 14 5 5 .e5m2),
    (word [(6, 25), (1, 0), (3, 6), (4, 14), (4, 5), (3, 5), (11, 264)], .vfcmpEq 6 14 5 5),
    (word [(6, 25), (1, 0), (3, 6), (4, 14), (4, 5), (3, 5), (11, 296)], .vfcmpLt 6 14 5 5),
    (word [(6, 25), (1, 0), (3, 6), (4, 14), (4, 5), (3, 5), (11, 328)], .vfcmpLe 6 14 5 5),
    (word [(6, 25), (1, 0), (3, 6), (4, 14), (4, 5), (3, 5), (11, 360)], .vfcmpUn 6 14 5 5),
    (word [(6, 25), (4, 9), (4, 14), (4, 10), (3, 5), (6, 16), (5, 8)], .vcvt 9 14 .bf16 5 .f32),
    (word [(6, 25), (4, 9), (4, 14), (4, 1), (3, 5), (6, 17), (5, 5)], .vpk 9 14 .n32 5 .n8),
    (word [(6, 25), (4, 9), (4, 14), (4, 0), (3, 5), (6, 24), (5, 12)], .vex2 9 14 5 .e5m2),
    (word [(6, 25), (4, 9), (4, 14), (4, 0), (3, 5), (6, 25), (5, 12)], .vlg2 9 14 5 .e5m2),
    (word [(6, 25), (4, 9), (4, 14), (4, 0), (3, 5), (6, 26), (5, 12)], .vrcp 9 14 5 .e5m2),
    (word [(6, 25), (4, 9), (4, 14), (4, 0), (3, 5), (6, 27), (5, 12)], .vrsq 9 14 5 .e5m2),
    (word [(6, 25), (4, 9), (4, 14), (4, 0), (3, 5), (6, 28), (5, 12)], .vsqrt 9 14 5 .e5m2),
    (word [(6, 25), (4, 9), (4, 14), (4, 0), (3, 5), (6, 29), (5, 12)], .vsin 9 14 5 .e5m2),
    (word [(6, 25), (4, 9), (4, 14), (4, 0), (3, 5), (6, 30), (5, 12)], .vcos 9 14 5 .e5m2),
    (word [(6, 25), (4, 9), (4, 14), (4, 0), (3, 5), (11, 1032)], .vrsumF32 9 14 5),
    (word [(6, 25), (4, 9), (4, 14), (4, 0), (3, 5), (11, 1064)], .vrmaxF32 9 14 5)] : List (BitVec 32 × Instr)), decode x.1 = .ok x.2 := by decide

theorem test_decode_vector_memory : ∀ x ∈ ([(word [(6, 26), (4, 9), (5, 22), (4, 0), (3, 5), (5, 0), (5, 5)], .vld 9 22 5 .n8),
    (word [(6, 26), (4, 9), (5, 22), (4, 0), (3, 5), (5, 1), (5, 5)], .vst 9 22 5 .n8),
    (word [(6, 26), (4, 9), (5, 22), (4, 11), (3, 5), (5, 2), (5, 5)], .vlds 9 22 11 5 .n8),
    (word [(6, 26), (4, 9), (5, 22), (4, 11), (3, 5), (5, 3), (5, 5)], .vsts 9 22 11 5 .n8),
    (word [(6, 26), (4, 9), (5, 22), (4, 11), (3, 5), (5, 4), (5, 5)], .vldg 9 22 11 5 .n8),
    (word [(6, 26), (4, 9), (5, 22), (4, 11), (3, 5), (5, 5), (5, 5)], .vstg 9 22 11 5 .n8)] : List (BitVec 32 × Instr)), decode x.1 = .ok x.2 := by decide

theorem test_decode_vector_special : ∀ x ∈ ([(word [(6, 27), (4, 0), (5, 22), (17, 0)], .vclaim 22),
    (word [(6, 27), (26, 32)], .vrel),
    (word [(6, 27), (4, 0), (5, 22), (17, 64)], .vsetl 22),
    (word [(6, 27), (4, 9), (5, 22), (4, 0), (3, 5), (10, 96)], .vbc 9 22 5),
    (word [(6, 27), (4, 9), (5, 22), (4, 11), (13, 128)], .vmovgv 9 22 11),
    (word [(6, 27), (4, 0), (5, 22), (4, 11), (8, 5), (5, 1)], .vmovvg 22 11 .n32),
    (word [(6, 27), (4, 0), (5, 22), (4, 11), (13, 192)], .vmovvgD 22 11),
    (word [(6, 27), (4, 9), (5, 0), (4, 11), (3, 5), (5, 8), (5, 8)], .vrng 9 11 5 .f32),
    (word [(6, 27), (4, 9), (5, 22), (4, 11), (3, 5), (10, 296)], .vfix 9 22 11 5),
    (word [(6, 27), (4, 9), (5, 22), (4, 11), (13, 328)], .vunfix 9 22 11),
    (word [(6, 27), (4, 9), (5, 22), (4, 11), (3, 5), (10, 352)], .vslide 9 22 11 5),
    (word [(6, 27), (4, 0), (5, 22), (1, 0), (3, 4), (13, 384)], .vmpop 22 4),
    (word [(6, 27), (4, 9), (5, 22), (1, 0), (3, 6), (3, 5), (5, 13), (5, 8)], .vacc 9 22 6 5 .f32)] : List (BitVec 32 × Instr)), decode x.1 = .ok x.2 := by decide

theorem test_decode_matrix : ∀ x ∈ ([(word [(6, 28), (8, 0), (5, 22), (5, 0), (5, 19), (3, 0)], .mclaim 22 19),
    (word [(6, 28), (8, 1), (5, 22), (13, 0)], .mrel 22),
    (word [(6, 28), (8, 2), (5, 22), (13, 0)], .mset 22),
    (word [(6, 28), (8, 3), (5, 22), (13, 0)], .mget 22),
    (word [(6, 28), (18, 4096), (5, 19), (3, 6)], .mzero 19 6),
    (word [(6, 28), (8, 5), (5, 22), (5, 0), (5, 19), (3, 6)], .mbias 22 19 6),
    (word [(6, 28), (8, 6), (5, 22), (5, 29), (5, 19), (3, 6)], .mmul 22 29 19 6),
    (word [(6, 28), (8, 7), (5, 22), (5, 29), (5, 19), (3, 6)], .mmulg 22 29 19 6),
    (word [(6, 28), (8, 8), (5, 22), (5, 29), (5, 3), (3, 6)], .mdrain 22 29 .n16 6),
    (word [(6, 28), (18, 9216), (5, 19), (3, 0)], .mwait 19),
    (word [(6, 28), (18, 10240), (5, 19), (3, 0)], .mstop 19)] : List (BitVec 32 × Instr)), decode x.1 = .ok x.2 := by decide

theorem test_decode_copy : ∀ x ∈ ([(word [(6, 29), (8, 0), (5, 22), (13, 0)], .xset 22),
    (word [(6, 29), (8, 1), (5, 22), (5, 0), (5, 19), (1, 0), (2, 2)], .xcopy 22 19 2),
    (word [(6, 29), (8, 2), (5, 22), (5, 0), (5, 19), (1, 0), (2, 2)], .xstr 22 19 2),
    (word [(6, 29), (8, 3), (5, 22), (5, 29), (5, 19), (1, 0), (2, 2)], .xgat 22 29 19 2),
    (word [(6, 29), (8, 4), (5, 22), (5, 0), (5, 19), (1, 0), (2, 2)], .xmc 22 19 2),
    (word [(6, 29), (8, 5), (5, 22), (5, 29), (5, 19), (3, 0)], .xack 22 29 19),
    (word [(6, 29), (8, 6), (5, 22), (5, 0), (5, 19), (1, 0), (2, 2)], .xwp 22 19 2),
    (word [(6, 29), (8, 7), (5, 22), (5, 0), (5, 19), (3, 0)], .xwait 22 19),
    (word [(6, 29), (8, 8), (5, 22), (5, 0), (5, 19), (3, 0)], .xkill 22 19)] : List (BitVec 32 × Instr)), decode x.1 = .ok x.2 := by decide

theorem test_decode_sync : ∀ x ∈ ([(word [(6, 30), (8, 0), (5, 22), (5, 29), (6, 0), (2, 2)], .bset 22 29 .pod),
    (word [(6, 30), (8, 1), (5, 22), (5, 0), (5, 19), (1, 0), (2, 1)], .barr 22 19 .cluster),
    (word [(6, 30), (8, 2), (5, 22), (5, 0), (5, 19), (1, 0), (2, 1)], .barw 22 19 .cluster),
    (word [(6, 30), (8, 3), (5, 22), (5, 29), (5, 19), (1, 0), (2, 1)], .barwT 22 29 19 .cluster),
    (word [(6, 30), (8, 4), (5, 22), (5, 0), (5, 19), (1, 0), (2, 2)], .bstat 22 19 .pod),
    (word [(6, 30), (8, 5), (5, 22), (5, 29), (5, 19), (3, 0)], .rarr 22 29 19),
    (word [(6, 30), (8, 6), (5, 22), (5, 0), (5, 19), (3, 0)], .pbar 22 19),
    (word [(6, 30), (8, 7), (5, 22), (5, 29), (5, 19), (3, 4)], .waitw 22 29 19 .ltn),
    (word [(6, 30), (8, 8), (5, 22), (5, 29), (5, 19), (1, 0), (2, 2)], .qput 22 29 19 .close),
    (word [(6, 30), (8, 9), (5, 22), (5, 29), (5, 19), (2, 0), (1, 1)], .qget 22 29 19 true),
    (word [(6, 30), (8, 10), (5, 22), (5, 0), (5, 19), (3, 0)], .qstat 22 19)] : List (BitVec 32 × Instr)), decode x.1 = .ok x.2 := by decide

theorem test_decode_crumb : ∀ x ∈ ([(word [(6, 31), (8, 0), (5, 22), (5, 29), (5, 10), (3, 0)], .cput 22 29 10),
    (word [(6, 31), (8, 1), (5, 22), (5, 29), (5, 10), (3, 0)], .cget 22 29 10),
    (word [(6, 31), (8, 2), (5, 22), (5, 29), (5, 10), (3, 0)], .cnode 22 29 10),
    (word [(6, 31), (13, 96), (5, 29), (5, 10), (3, 0)], .cref 29 10),
    (word [(6, 31), (13, 128), (5, 29), (5, 10), (3, 0)], .cdrop 29 10),
    (word [(6, 31), (8, 5), (5, 22), (5, 29), (5, 10), (3, 0)], .croot 22 29 10),
    (word [(6, 31), (8, 6), (5, 22), (5, 26), (5, 10), (3, 0)], .cswap 22 26 10),
    (word [(6, 31), (8, 7), (5, 22), (5, 26), (5, 19), (1, 0), (2, 2)], .cout 22 26 19 2),
    (word [(6, 31), (13, 256), (5, 26), (5, 19), (3, 0)], .cstat 26 19),
    (word [(6, 31), (8, 8), (5, 22), (5, 0), (5, 19), (3, 1)], .cstatHome 22 19)] : List (BitVec 32 × Instr)), decode x.1 = .ok x.2 := by decide

theorem test_decode_thread : ∀ x ∈ ([(word [(6, 32), (8, 0), (5, 22), (5, 0), (5, 19), (3, 0)], .apply 22 19),
    (word [(6, 32), (8, 0), (5, 22), (5, 0), (5, 19), (3, 1)], .applyW 22 19),
    (word [(6, 32), (8, 1), (5, 22), (5, 29), (5, 19), (3, 0)], .patch 22 29 19),
    (word [(6, 32), (8, 2), (5, 22), (5, 0), (5, 19), (3, 0)], .cread 22 19),
    (word [(6, 32), (8, 3), (5, 22), (5, 0), (5, 19), (3, 0)], .join 22 19),
    (word [(6, 32), (8, 4), (5, 22), (5, 29), (5, 19), (3, 4)], .send 22 29 19 4),
    (word [(6, 32), (26, 1310720)], .hret),
    (word [(6, 32), (26, 1572864)], .exit),
    (word [(6, 32), (8, 7), (5, 22), (5, 29), (5, 19), (3, 0)], .yield 22 29 19),
    (word [(6, 32), (8, 8), (5, 22), (5, 29), (5, 19), (3, 0)], .resume 22 29 19),
    (word [(6, 32), (18, 9216), (5, 19), (3, 5)], .tid 19 5),
    (word [(6, 32), (18, 10240), (5, 19), (3, 2)], .stage 19 2),
    (word [(6, 32), (18, 11264), (5, 19), (3, 0)], .bal 19),
    (word [(6, 32), (8, 12), (5, 22), (5, 0), (5, 19), (3, 0)], .sleep 22 19),
    (word [(6, 32), (8, 13), (5, 22), (5, 0), (5, 19), (3, 0)], .wake 22 19)] : List (BitVec 32 × Instr)), decode x.1 = .ok x.2 := by decide

theorem test_decode_urgency : ∀ x ∈ ([(word [(6, 33), (26, 0)], .jbeg),
    (word [(6, 33), (18, 1024), (5, 19), (3, 0)], .jend 19),
    (word [(6, 33), (26, 524288)], .shdone),
    (word [(6, 33), (26, 786432)], .rsdone),
    (word [(6, 33), (8, 4), (5, 22), (5, 0), (5, 19), (3, 0)], .uchg 22 19),
    (word [(6, 33), (8, 5), (5, 22), (5, 0), (5, 19), (3, 0)], .uown 22 19),
    (word [(6, 33), (18, 5120), (5, 19), (3, 1)], .uownSt 19),
    (word [(6, 33), (8, 6), (5, 22), (5, 29), (5, 19), (3, 0)], .ucfgOwn 22 29 19),
    (word [(6, 33), (8, 6), (5, 22), (5, 29), (5, 19), (3, 1)], .ucfgTab 22 29 19),
    (word [(6, 33), (8, 6), (5, 22), (5, 0), (5, 19), (3, 2)], .ucfgArb 22 19)] : List (BitVec 32 × Instr)), decode x.1 = .ok x.2 := by decide

theorem test_decode_system : ∀ x ∈ ([(word [(6, 34), (5, 19), (5, 0), (12, 2891), (4, 0)], .csrr 19 2891),
    (word [(6, 34), (5, 0), (5, 22), (12, 2891), (4, 1)], .csrw 22 2891),
    (word [(6, 34), (5, 19), (5, 22), (12, 2891), (4, 2)], .csrx 19 22 2891),
    (word [(6, 34), (10, 0), (12, 2891), (4, 3)], .trap 2891),
    (word [(6, 34), (26, 4)], .tret),
    (word [(6, 34), (5, 0), (5, 22), (16, 5)], .sysc 22),
    (word [(6, 34), (5, 0), (5, 22), (16, 6)], .syscNb 22),
    (word [(6, 34), (10, 0), (12, 2891), (4, 7)], .brk 2891),
    (word [(6, 35), (8, 0), (5, 22), (5, 29), (5, 19), (3, 0)], .cch 22 29 19),
    (word [(6, 35), (8, 1), (5, 22), (5, 29), (5, 19), (3, 0)], .csave 22 29 19),
    (word [(6, 35), (8, 2), (5, 22), (5, 29), (5, 19), (3, 0)], .crest 22 29 19),
    (word [(6, 35), (8, 3), (5, 22), (13, 0)], .tlbi 22),
    (word [(6, 35), (26, 786433)], .tlbiAll),
    (word [(6, 35), (8, 4), (5, 22), (5, 0), (5, 19), (3, 0)], .prst 22 19)] : List (BitVec 32 × Instr)), decode x.1 = .ok x.2 := by decide

theorem test_decode_debug : ∀ x ∈ ([(word [(6, 36), (8, 0), (5, 22), (13, 0)], .mark 22),
    (word [(6, 36), (18, 1024), (5, 19), (3, 0)], .dbrk 19),
    (word [(6, 36), (8, 2), (5, 22), (5, 0), (5, 19), (3, 0)], .smpl 22 19)] : List (BitVec 32 × Instr)), decode x.1 = .ok x.2 := by decide

/-- The words that the manual writes out in hexadecimal (R97, R98 and the table of examples under R36). -/
theorem test_decode_examples : decode 0x38000028 = .ok (.jal 40) ∧ decode 0x3FE90001 = .ok (.jalr 31 9) ∧
    decode 0x31045FFD = .ok (.bLt 1 2 0x1FFD) := by decide

/-- The decoder refuses the word. -/
noncomputable def refused (w : BitVec 32) : Bool :=
  match decode w with
  | .ok _ => false
  | .error _ => true

/-- Unassigned majors, a reserved size, a nonzero field that must be zero, an unassigned operation and a reserved condition are
refused. -/
theorem test_decode_refused : ([word [(6, 0x0B), (26, 0)], word [(6, 0x17), (26, 0)], word [(6, 0x25), (26, 0)],
    word [(6, 0x3F), (26, 0)], word [(6, 16), (5, 1), (5, 2), (3, 7), (2, 0), (11, 0)],
    word [(6, 15), (5, 1), (5, 2), (5, 0), (11, 0)], word [(6, 1), (5, 1), (5, 2), (5, 3), (6, 63), (5, 0)],
    word [(6, 12), (3, 7), (5, 1), (5, 2), (13, 0)]] : List (BitVec 32)).all refused = true := by decide +kernel

/-! ### States for the witnesses -/

/-- A thread at service privilege with a program counter in the global window: g2 holds an address in its own LM, g3 one in the pantry of
its hearth, g4 one in a global page. -/
def tA : Thread :=
  { pc := 0x100000000, priv := 1, g := ((((Vector.replicate 32 (0 : Word)).set 1 7).set 2 0xC000000000000008).set 3 0xC200000000200008).set 4 0x10008 }

/-- A module in which a thread runs in slot 0 of core 17, in partition 0. -/
def sOf (t : Thread) : State := { cur := 0x110, cc := 100, time := 50, threads := [(0x110, t)], parts := [(0, placedPartition)] }

/-- The same with something of core 17 as given. -/
def sCore (t : Thread) (k : Core) : State := { sOf t with cores := [(17, k)] }

theorem test_ran : (sOf tA).thread (sOf tA).cur = some tA := by decide +kernel

/-! ### The hypotheses of each statement, met -/

theorem witness_IntegerFormsCompute :
    (sOf tA).thread (sOf tA).cur = some tA ∧ intResult tA (.addi 3 1 5) = some (3, 12) := by decide +kernel

theorem witness_DivideForms : ((sOf tA).thread (sOf tA).cur = some tA ∧ divideResult tA (.divn 3 1 1) = some (3, 1, 0, 16, 0)) ∧
    let t : Thread := { tA with block := .divide 100 3 1 0 0 }
    (sOf t).thread 0x110 = some t ∧ t.block = .divide 100 3 1 0 0 ∧ 100 ≤ (sOf t).cc := by decide +kernel

theorem witness_ControlFlowForms : (sOf tA).thread (sOf tA).cur = some tA ∧ branchOf tA (.bNe 1 2 8) = some (true, 8) ∧
    (tA.rd 2).toNat % 4 = 0 ∧ (tA.rd 1).toNat % 4 ≠ 0 := by decide +kernel

theorem witness_ScalarFpFormsCompute : (sOf tA).thread (sOf tA).cur = some tA ∧
    fpResult tA (.fsgnj 3 1 2) = some (3, 7, 0) := by decide +kernel

theorem witness_FloatRounding : (0 : Int) < 1 ∧ 3 % 2 ^ ((1 : Int) - 0).toNat ≠ 0 ∧ 2 % 2 ^ ((1 : Int) - 0).toNat = 0 ∧
    fp32 ∈ [fp32, fp16, bf16, e4m3, e5m2] ∧ 0x3F800000 < 2 * fp32.signBit ∧
    fp32.unpack 0x3F800000 = .fin false (2 ^ 23) (-23) := by decide +kernel

theorem witness_EncodedWordDecodes : (Instr.sub 3 4 5).wf = true ∧ 0x04642820 ∈ encode (Instr.sub 3 4 5) := by decide +kernel

theorem witness_DecodedWordEncodes : decode 0x04642820 = .ok (.sub 3 4 5) := by decide +kernel

theorem witness_ResetState : (5 : GReg) ≠ 0 ∧ (6 : GReg) ≠ 5 := by decide

/-- A state with a byte in an LM and one in HBM. -/
def sBytes : State := { sOf tA with cores := [(17, { lm := [(5, 1)] })], hbm := [(0x10000, 2), (0x10001, 3)] }

theorem witness_StepKeepsMemoryCanonical : sBytes.hbm.wf = true ∧ sBytes.far.wf = true ∧ sBytes.host.wf = true ∧
    (∀ x ∈ sBytes.shares, Memory.wf x.2 = true) ∧ (∀ x ∈ sBytes.cores, x.2.lm.wf = true) ∧
    ∀ k ∈ sBytes.fw.slots, (∀ x ∈ k.shares, Memory.wf x.2 = true) ∧ ∀ x ∈ k.lms, Memory.wf x.2 = true := by decide +kernel

/-- A module that is about to fetch the word of sub g3, g4, g5, with its thread and the translation of its pc. -/
def sFetch : State := State.reset.withFetchWord 32 0x04642820
def tFetch : Thread := (sFetch.thread 0x1F0).getD {}
def eFetch : TlbEntry := ((sFetch.core 31).tlb.head?).getD ⟨0, 0, ⟨0, 0, 0, 0, false, false, false, false, 0, 0⟩⟩

theorem witness_StepRunsTheDecodedInstruction : sFetch.urgent = [] ∧ sFetch.turns = [.issue 31] ∧ sFetch.slotNow 31 = some 0x1F0 ∧
    sFetch.thread 0x1F0 = some tFetch ∧ sFetch.stopNow 0x1F0 tFetch = false ∧ sFetch.bpDue 0x1F0 tFetch = false ∧
    sFetch.canIssue 0x1F0 tFetch = true ∧
    (sFetch.boundary 0x1F0 tFetch).isNone = true ∧ coreOf 0x1F0 = 31 ∧ tFetch.mcheck = [] ∧
    sFetch.window tFetch.part 31 tFetch.pc = some (.global 0x100000000) ∧ 0x100000000 % 4 = 0 ∧
    sFetch.tlbFind 31 tFetch.part 0x100000000 = some eFetch ∧
    sFetch.leafReason tFetch.part tFetch.sec .fetch eFetch.leaf (0x100000000 - eFetch.base) = 0 ∧
    eFetch.leaf.exists_ (0x100000000 - eFetch.base) = true ∧
    BitVec.ofNat 32 ((sFetch.mem (.phys eFetch.leaf.tier)).read (eFetch.leaf.pa + (0x100000000 - eFetch.base)) 4) = 0x04642820 ∧
    decode 0x04642820 = .ok (.sub 3 4 5) ∧ sFetch.featured tFetch (.sub 3 4 5) = true := by decide +kernel

/-- A thread that waits in an fence of its cluster, with and without an access on its way. -/
def tWait (n : Nat) : Thread := { tA with block := .await (.counters true false false) 0, pcntC := n }

theorem witness_TurnsOfACycle : (sOf tA).urgent = [] ∧ ({ sOf tA with turns := [.tick] } : State).turns = [.tick] ∧
    (sOf tA).turns = [] ∧ coreOf 0x110 = 17 ∧
    (sOf (tWait 1)).condMet 0x110 (tWait 1) (.counters true false false) = false ∧
    (sOf (tWait 0)).condMet 0x110 (tWait 0) (.counters true false false) = true ∧ decode 0x04642820 = .ok (.sub 3 4 5) ∧
    (sOf (tWait 0)).featured (tWait 0) (.sub 3 4 5) = true ∧ ({ sOf tA with tphase := 12 } : State).tphase + 5 < 18 ∧
    18 ≤ ({ sOf tA with tphase := 13 } : State).tphase + 5 := by decide +kernel

theorem witness_PlacedWordRuns : decode 0x04642820 = .ok (.sub 3 4 5) := by decide +kernel

/-- A translation of the page at 0x10000 to HBM at the home of core h. -/
def pageAt (h : Nat) : TlbEntry :=
  ⟨0, 0x10000, { part := 0, home := h, tier := 0, cls := 0, r := true, w := true, x := true, sec := false, pa := 0x20000, size := 2 ^ 16 }⟩

/-- A core that has it. -/
def kPage (h : Nat) : Core := { tlb := [pageAt h] }

/-- The windows of R106 at their edges: no window, the last byte of the own LM and of a peer's, of a share, and a global page. -/
theorem witness_AccessSequence : let s := sCore tA (kPage 17)
    s.window 0 17 0xC000000000040000 = none ∧ (0x10001#64).toNat % 2 ≠ 0 ∧
    s.window 0 17 0xC00000000003FFFF = some (.lm 17 0x3FFFF) ∧ s.window 0 17 0xC10000000003FFFF = some (.lm 16 0x3FFFF) ∧
    s.window 0 17 0xC2000000003FFFFF = some (.pantry 0 0x3FFFFF) ∧ s.window 0 17 0xC200000000400000 = none ∧
    s.window 0 17 0x1FFFF = some (.global 0x1FFFF) ∧ s.tlbFind 17 0 0x1FFFF = some (pageAt 17) ∧
    (pageAt 17).leaf.exists_ (0x1FFFF - 0x10000) = true ∧ s.tlbFind 17 0 0x20000 = none ∧ tA.walkRes = none := by decide +kernel

/-- Accesses that pass the checks: of 8 bytes at the own LM, and at the pantry of the own hearth. -/
theorem passes_own_load : (sOf tA).passes tA 0xC000000000000008 8 .load false true (.own ⟨.lm 17, 8⟩) := fun _ => rfl
theorem passes_pantry_load : (sOf tA).passes tA 0xC200000000200008 8 .load false true (.far (.pantry 0) ⟨.share 0 0, 0x200008⟩ 1) :=
  fun _ => rfl
theorem passes_own_store : (sOf tA).passes tA 0xC000000000000008 8 .store true false (.own ⟨.lm 17, 8⟩) := fun _ => rfl
theorem passes_pantry_store : (sOf tA).passes tA 0xC200000000200008 8 .store true false (.far (.pantry 0) ⟨.share 0 0, 0x200008⟩ 1) :=
  fun _ => rfl

theorem passes_home_store :
    (sCore tA (kPage 18)).passes tA 0x10008 8 .store true false (.far (.home 18) ⟨.phys 0, 0x20008⟩ 0) := fun _ => rfl

/-- The wait of a form without a wt field is over. -/
theorem waited_no (t : Thread) : t.waited .no := trivial

theorem witness_LoadsComplete : (sOf tA).thread (sOf tA).cur = some tA ∧
    loadOf tA (.ld 5 2 .d .no 0) = some (5, .d, .no, 0xC000000000000008) ∧
    loadOf tA (.ldx 5 3 0 .d .no) = some (5, .d, .no, 0xC200000000200008) ∧ tA.waited .no ∧
    (sOf tA).passes tA 0xC000000000000008 (accessBytes .d) .load false true (.own ⟨.lm 17, 8⟩) ∧
    (sOf tA).passes tA 0xC200000000200008 (accessBytes .d) .load false true (.far (.pantry 0) ⟨.share 0 0, 0x200008⟩ 1) :=
  ⟨by decide +kernel, by decide +kernel, by decide +kernel, trivial, passes_own_load, passes_pantry_load⟩

theorem witness_StoresComplete : ((sOf tA).thread (sOf tA).cur = some tA ∧ tA.waited .no ∧
      (sOf tA).window tA.part 17 0xC000000000000008 = some (.lm 17 8) ∧ (0xC000000000000008#64).toNat % 8 = 0 ∧
      (sOf tA).locked (.lm 17) 8 8 true = false ∧ (sOf tA).isPoisoned 17 8 = false ∧
      (0xC000000000000008 : Word) = tA.rd 2 + (0 : BitVec 11).signExtend 64 * BitVec.ofNat 64 8 ∧
      (0xC000000000000008 : Word) = tA.rd 2 + tA.rd 0 * BitVec.ofNat 64 8) ∧
    storeOf tA (.st 1 2 .d .no 0) = some (7, .d, .no, 0xC000000000000008) ∧
    storeOf tA (.stx 1 3 0 .d .no) = some (7, .d, .no, 0xC200000000200008) ∧
    (sOf tA).passes tA 0xC000000000000008 (accessBytes .d) .store true false (.own ⟨.lm 17, 8⟩) ∧
    (sOf tA).passes tA 0xC200000000200008 (accessBytes .d) .store true false (.far (.pantry 0) ⟨.share 0 0, 0x200008⟩ 1) ∧
    tA.pcnt 1 < 1024 ∧ 1024 ≤ ({ tA with pcntH := 1024 } : Thread).pcnt 1 :=
  ⟨by refine ⟨by decide +kernel, trivial, ?_⟩; decide +kernel, by decide +kernel, by decide +kernel, passes_own_store,
    passes_pantry_store, by decide +kernel, by decide +kernel⟩

/-- The byte after a store at the edge of an LM, the byte before it, and a place in a share outside its fixed regions. -/
theorem witness_StoreFrame : let l : Loc := ⟨.lm 17, 0x3FFF8⟩
    (∀ k, l.space = .phys k → k ≤ 2) ∧ (0x3FFF7 < l.off ∧ l.off + 8 ≤ 0x40000) ∧ reservedOff 0x200000 = false ∧
    ¬(queueOff ≤ 0x200000 ∧ 0x200000 < 0x164000) ∧ ¬(0x144018 < 0x200000 + 8 ∧ 0x200000 < 0x144030) := by
  refine ⟨fun k h => by simp at h, by decide +kernel⟩

theorem witness_AtomicForms : (sOf tA).thread (sOf tA).cur = some tA ∧
    amoOf tA (.amoAdd 5 2 1 .d .no) = some (.add, 5, 7, 0, .d, .no, 0xC000000000000008) ∧
    (sOf tA).passes tA 0xC000000000000008 (accessBytes .d) .store true false (.own ⟨.lm 17, 8⟩) ∧
    (sOf tA).passes tA 0xC200000000200008 (accessBytes .d) .store true false (.far (.pantry 0) ⟨.share 0 0, 0x200008⟩ 1) ∧
    (∀ h, (Place.pantry 0) ≠ .home h) ∧
    (sCore tA (kPage 18)).passes tA 0x10008 8 .store true false (.far (.home 18) ⟨.phys 0, 0x20008⟩ 0) ∧
    (sCore tA (kPage 18)).heavy 0x110 = false ∧ slotOf 0x110 ≠ 15 ∧ tA.noMig = false ∧
    (sCore tA (kPage 18)).grantFor 18 tA ≠ none ∧ tA.waited .all ∧
    redOf tA (.redAdd 2 1 .d .no) = some (.add, 7, 8, .no, 0xC000000000000008) ∧ tA.pcnt 1 < 1024 :=
  ⟨by decide +kernel, rfl, passes_own_store, passes_pantry_store, (fun _ h => nomatch h), passes_home_store, by decide +kernel,
    by decide, by decide +kernel, by decide +kernel, ⟨rfl, rfl, rfl, rfl, rfl, rfl⟩, by decide +kernel, by decide +kernel⟩

theorem witness_FencesComplete : tA.takeMark true true true = none ∧ tA.zeroed true true true = true ∧
    ({ tA with pcntH := 1 } : Thread).zeroed true true true = false ∧
    (({ tA with errH := some ⟨8, 5⟩ } : Thread).takeMark true true true).isSome = true ∧
    (sOf tA).thread (sOf tA).cur = some tA := by decide +kernel

theorem witness_TranslationForms : let s := sCore tA (kPage 18)
    s.thread s.cur = some tA ∧ tA.waited .all ∧ s.xbusy s.cur = false ∧
    s.window tA.part 17 (tA.rd 4) = some (.global 0x10008) ∧ s.tlbFind 17 0 0x10008 = some (pageAt 18) ∧
    s.leafReason tA.part tA.sec .load (pageAt 18).leaf (0x10008 - 0x10000) = 0 ∧
    s.window tA.part 17 0xFF00000000000000 = none ∧ s.window tA.part 17 (tA.rd 2) = some (.lm 17 8) ∧
    s.window tA.part 17 (tA.rd 3) = some (.pantry 0 0x200008) :=
  ⟨by decide +kernel, ⟨rfl, rfl, rfl, rfl, rfl, rfl⟩, by decide +kernel, by decide +kernel, by decide +kernel, by decide +kernel,
    by decide +kernel, by decide +kernel, by decide +kernel⟩

/-- A thread with a trap handler, outside and inside it, at a privilege. -/
def tTrap (priv : Nat) (ut : Bool) (tvec : Word) : Thread := { tA with priv := priv, ut := ut, trap := { tvec := tvec } }

theorem witness_UserTraps : (7 : Nat) < 0x10 ∧ (0 : Nat) < 256 ∧ (tTrap 0 false 8).ut = false ∧ (tTrap 0 false 8).handler ≠ 0 ∧
    (sOf (tTrap 0 false 8)).thread 0x110 = some (tTrap 0 false 8) ∧ (tTrap 0 true 8).ut = true ∧
    (tTrap 0 true 8).handling = .none := by decide +kernel

theorem witness_ServiceTraps : (tTrap 0 false 0).priv = 0 ∧ (sOf (tTrap 0 false 0)).part 0 = some placedPartition ∧
    lowestFree (placedPartition.faults.map Prod.fst) 0 4096 = some 0 ∧ (0x17 : Nat) < 0x18 ∧ (0x10 : Nat) ≤ 0x17 ∧
    (0x0F : Nat) < 0x10 ∧ (tTrap 0 true 0).ut = true ∧ (tTrap 0 false 0).handler = 0 ∧ (tTrap 1 false 8).priv ≠ 0 ∧
    (tTrap 1 false 8).handler ≠ 0 ∧ (tTrap 2 true 8).ut = true ∧ (0x18 : Nat) < 0x19 ∧
    (sOf tA).thread (sOf tA).cur = some tA ∧ ((sOf tA).core 17).dbg.armbrk = false ∧
    ((sCore tA { dbg := { armbrk := true } }).core 17).dbg.armbrk = true := by decide +kernel

theorem witness_StateRegisters : ((csrOf 0x3FF).isNone = true ∧ ((csrOf 0x005).map fun r => r.ro) = some true ∧
      ((csrOf 0x040).map fun r => r.ro) = some false ∧ (0x0C0 : BitVec 12).extractLsb' 6 2 = 3 ∧
      (0x040 : BitVec 12).extractLsb' 6 2 = 1 ∧ (0x480 : BitVec 12).extractLsb' 6 2 = 2) ∧
    (sOf tA).thread (sOf tA).cur = some tA ∧ (0x003, tA.trap.tvec) ∈ csrValues (sOf tA) tA ∧ (sOf tA).vbusy 0x110 = false ∧
    (sOf tA).mbusy 0x110 0xFF = false ∧ tA.poison = [] ∧ (0x140, (7 : Word)) ∈ csrSets tA (tA.rd 1) ∧ 1 ≤ tA.priv :=
  ⟨by decide +kernel, by decide +kernel, by decide +kernel, by decide +kernel, by decide +kernel, rfl, by decide +kernel,
    by decide +kernel⟩

/-- What csrw holds at the edges of its rules: VL from 0, 1, 64 and 65, VPOS without a restart record, FRM with the codes 4 and 5, and the
flags of MSTAT cleared by ones. -/
theorem witness_StateRegisters_fields : (0x100, (1 : Word)) ∈ csrSets tA 0 ∧ (0x100, (1 : Word)) ∈ csrSets tA 1 ∧
    (0x100, (64 : Word)) ∈ csrSets tA 64 ∧ (0x100, (64 : Word)) ∈ csrSets tA 65 ∧ (0x101, (0 : Word)) ∈ csrSets tA 5 ∧
    (0x102, (4 : Word)) ∈ csrSets tA 4 ∧ (0x102, (8 : Word)) ∈ csrSets tA 0xD ∧ (0x203, (0x1FFF : Word)) ∈ csrSets tA (~~~0) ∧
    (0x206, (0 : Word)) ∈ csrSets tA (~~~0) ∧ (0x205, (0x3FF : Word)) ∈ csrSets tA (~~~0) := by decide +kernel

/-- The service core's view of a system-call ring with one entry in use by the caller. -/
def tCall : Thread := { tA with priv := 0, block := .reply .sysc }
def pCall : Partition := { placedPartition with ring := [(0, 0x110)], faultPut := [3] }
def sCall : State := { sOf tCall with parts := [(0, pCall)], shares := [((0, 0), [(0x140000, 2), (0x144002, 0x16), (0x144007, 0xC2)])] }

theorem witness_SystemCalls : (sOf tA).thread (sOf tA).cur = some tA ∧ tA.priv ≠ 0 ∧ tCall.priv = 0 ∧ sCall.thread sCall.cur = some tCall ∧
    sCall.part tCall.part = some pCall ∧ lowestFree (pCall.ring.map Prod.fst) 0 256 = some 1 ∧
    lowestFree (numsFrom 0 256) 0 256 = none ∧ pCall.ring.look 0 = some 0x110 ∧ pCall.ringWait = [] ∧
    tCall.block = .reply .sysc ∧ (sCall.mem (.share 0 pCall.placing)).read (0x140000 + 64 * 0) 8 = 2 ∧
    ([⟨0x110, [(5, 1)], none, 0, 0, none, false⟩] : List Reply).find? (fun x => x.tid == 0x110) = some ⟨0x110, [(5, 1)], none, 0, 0, none, false⟩ ∧
    pCall.faultPut = 3 :: [] ∧ sCall.controlQueue 0 0 = some 0 ∧ (pCall.queue 0).closed = false ∧
    (pCall.queue 0).items.length < (pCall.queue 0).depth ∧ (pCall.queue 0).live = true ∧ (pCall.queue 0).putters = [] ∧
    (pCall.queue 0).getters = [] ∧ (sOf tA).ready 0x110 tA = true ∧ tA.ut = false ∧
    ({ tA with pend := [.copydone 5 8] } : Thread).pend = .copydone 5 8 :: [] ∧
    ({ tA with pend := [.childfault 8] } : Thread).pend = .childfault 8 :: [] := by decide +kernel

theorem witness_SystemCalls_waited : tCall.waited .all := ⟨rfl, rfl, rfl, rfl, rfl, rfl⟩

/-- A core with a meter whose job is open. -/
def mtr (n : Nat) (b r : Bool) : Meter := { owner := 0, job := true, meter := n, bsent := b, rsent := r }
def kMeter (m : Meter) : Core := { meters := [m], retired := [(0, 0x110)] }

/-- An arbiter with owners 0, of level 2 with budgets 10, 20 and 30, and 1, of level 1 with a steward. -/
def arbA : Arbiter :=
  { owners := [(0, { level := 2, live := true, c := [10, 20, 30, 0], shpc := 0x100000400, share := 1 }),
               (1, { level := 1, live := true, c := [5, 5, 0, 0], sv := true, stid := 0x112 })] }

/-- The same module with a core and an arbiter as given. -/
def sArb (t : Thread) (k : Core) (a : Arbiter) : State := { sCore t k with arb := a }

theorem witness_MetersAndJobs : let s := fun n b r => sArb tA (kMeter (mtr n b r)) arbA
    ((s 5 false false).core 17).meterOf 0 = some (mtr 5 false false) ∧ (s 5 false false).weight 17 0 2 * 3 ≠ 0 ∧
    (mtr 5 false false).job = true ∧ ({ mtr 5 false false with job := false } : Meter).job = false ∧
    (s 31 false false).thread 0x110 = some tA ∧ ((s 31 false false).owner 0).budget 2 < 31 ∧ (mtr 31 true false).bsent = true ∧
    11 ≤ ((s 11 false false).owner 0).budget 2 ∧ ((s 11 false false).core 17).mode < ((s 11 false false).owner 0).level ∧
    ((s 11 false false).owner 0).budget 0 < 11 ∧ 10 ≤ ((s 10 false false).owner 0).budget 0 ∧
    0x110 < 2 ^ 18 ∧ ((s 5 false false).core 17).jobs = [] ∧ ((s 5 false false).core 17).retired = [(0, 0x110)] ∧
    (sCore tA { retired := [(0, 0x112), (0, 0x110)] }).core 17 = { retired := [(0, 0x112), (0, 0x110)] } ∧
    (sOf tA).vbusy 0x110 = false ∧ (sOf tA).mbusy 0x110 0xFF = false ∧ (sOf tA).xbusy 0x110 = false ∧
    (sCore tA { xq := [{ ins := .xcopy 1 2 0, uid := 0, ch := 0, seq := 1, tid := 0x110, owner := 0, part := 0, sec := false, priv := 0, regs := {}, cw := 0 }] }).xbusy 0x110 = true := by
  decide +kernel

/-- The charge stops with a checkpoint, and a form of the job waits while engine work is left. -/
theorem witness_MetersAndJobs_stopped : ({ kMeter (mtr 5 false false) with ckpt := true } : Core).ckpt = true ∧
    (sArb tA { kMeter (mtr 5 false false) with ckpt := true } arbA |>.core 17).meterOf 0 = some (mtr 5 false false) ∧
    (tA.rd 1).toNat % 2 ^ 32 ≠ 0 := by decide +kernel

theorem witness_HandlingEnds : (sOf tA).thread (sOf tA).cur = some tA ∧ tA.handling ≠ .shed ∧ tA.handling ≠ .resume ∧
    ({ tA with handling := .shed } : Thread).handling = .shed ∧ ({ tA with handling := .resume } : Thread).handling = .resume := by
  decide +kernel

theorem witness_OwnerForms : let s := sArb tA {} arbA
    s.thread s.cur = some tA ∧ 1 ≤ tA.priv ∧ tA.priv < 2 ∧ (s.owner 0).st ≠ .resuming ∧ (tTrap 2 false 0).priv = 2 ∧
    s.window 0 17 (tA.rd 2) = some (.lm 17 8) ∧ 8 + 64 ≤ 2 ^ 18 ∧ 8 % 8 = 0 ∧
    (∀ k < 8, s.locked (.lm 17) (8 + 8 * k) 8 false = false ∧ s.isPoisoned 17 (8 + 8 * k) = false) ∧
    4 ≤ (tA.rd 1).toNat ∧ (tA.rd 0).toNat < 4 ∧
    ({ arbA with ucfg := [⟨.thread 0x110 3, .arb 9⟩] } : Arbiter).ucfg = [⟨.thread 0x110 3, .arb 9⟩] ∧
    descriptorOk [0x100] = true ∧ descriptorOk [2 ^ 63] = false ∧ s.validOwner 0 (recordOf (s.owner 0) [0x100]) = true ∧
    (recordOf (s.owner 0) [0x100]).live = false ∧ s.ownerInUse 0 = true ∧ (s.owner 2).live = false := by decide +kernel

/-- An arbiter at mode 1, whose raise was long ago. -/
def arbFall : Arbiter := { arbA with mode := 1, dwell := 10 }

theorem witness_ArbiterRows : let s := sArb tA {} { arbA with raises := [(17, 0, 1)], reports := [1] }
    let f : State := { sArb tA {} arbFall with time := 1024 }
    (s.arb.owners.map Prod.fst).Nodup ∧ s.arb.raises = [(17, 0, 1)] ∧ s.arb.mode < 1 ∧ (1 : Nat) ≤ arbFall.mode ∧
    s.time % 1024 ≠ 0 ∧ f.fallPasses = true ∧ f.time % 1024 = 0 ∧ 0 < f.arb.mode ∧ f.arb.falling = false ∧
    f.arb.lastCheck ≠ some f.time ∧ 1 ∈ s.arb.reports ∧ (s.owner 1).st ≠ .resuming ∧
    ({ st := .resuming } : OwnerRec).st = .resuming := by decide +kernel

/-- An event of each kind that a core has still to apply. -/
theorem witness_ArbiterRows_apply : let s := fun l => sArb tA {} { arbA with log := [l] }
    (s [.shed 0 0 false]).todo 17 = [[.shed 0 0 false]] ∧ entryKind [.shed 0 0 false] = .shed ∧ entryKind [.readmit 0] = .readmit ∧
    entryKind [.mode 1 false 0] = .other ∧ (s [.shed 0 0 false]).resumesInOrder 17 [.shed 0 0 false] = true ∧
    (s []).owner 0 = { level := 2, live := true, c := [10, 20, 30, 0], shpc := 0x100000400, share := 1 } ∧
    (sCore tA { ostate := [(0, .suspended)] }).ostate 17 0 = .suspended ∧
    (sCore tA { ostate := [(0, .degraded)] }).ostate 17 0 = .degraded ∧ slotOf 0x110 ≠ 15 ∧ tCall.priv = 0 ∧
    tA.handling = .none := by decide +kernel

/-- A steward of owner 0 with something pending. -/
theorem witness_StewardTraps : let s := sArb tA {} arbA
    s.thread 0x110 = some tA ∧ s.ready 0x110 tA = true ∧ tA.ut = false ∧ tA.superPend = none ∧
    ({ tA with shedPend := some 5 } : Thread).shedPend = some 5 ∧ (s.owner tA.owner).shpc ≠ 0 ∧ (s.owner 1).shpc = 0 ∧
    ({ tA with superPend := some 5 } : Thread).superPend = some 5 ∧ ({ tA with resumePend := some 5 } : Thread).resumePend = some 5 ∧
    (sArb { tA with handling := .shed, counted := 256 } {} arbA).ready 0x110 { tA with handling := .shed, counted := 256 } = true ∧
    ({ tA with budgetPend := some 5 } : Thread).budgetPend = some 5 := by decide +kernel

/-- The issue of the slot that a position names, of a thread given. -/
def sTurn (t : Thread) : State := { sFetch with threads := [(0x1F0, t)] }

/-- Each event that a boundary may bring, with none that comes before it. -/
theorem witness_BoundaryOrder : let bp : State := { sTurn tFetch with cores := [(31, { sFetch.core 31 with dbg := { bp := [0xC000000040000000, 0, 0, 0] } })] }
    let st : State := { sTurn tFetch with cc := 32, cores := [(31, { sFetch.core 31 with dbg := { stops := [(0, 0)] } })] }
    let sus : State := { sTurn { tFetch with readyAt := 10 ^ 6 } with cores := [(31, sFetch.core 31)] }
    let dead : State := { sTurn tFetch with parts := [(0, { placedPartition with deadlock := some 7, svc := 31 })] }
    (sFetch.urgent = [] ∧ sFetch.turns = [.issue 31] ∧ sFetch.slotNow 31 = some 0x1F0 ∧ (sTurn tFetch).thread 0x1F0 = some tFetch) ∧
    st.stopNow 0x1F0 tFetch = true ∧ st.slotNow 31 = some 0x1F0 ∧ bp.stopNow 0x1F0 tFetch = false ∧ bp.bpDue 0x1F0 tFetch = true ∧
    sus.canIssue 0x1F0 { tFetch with readyAt := 10 ^ 6 } = false ∧ sus.bpDue 0x1F0 { tFetch with readyAt := 10 ^ 6 } = false ∧
    (∀ t ∈ [tFetch, { tFetch with handling := .shed, counted := 256 }, { tFetch with budgetPend := some 5 }, { tFetch with superPend := some 5 },
        { tFetch with shedPend := some 5 }, { tFetch with resumePend := some 5 }, { tFetch with pend := [.copydone 5 8] },
        { tFetch with pend := [.childfault 8] }],
      (sTurn t).stopNow 0x1F0 t = false ∧ (sTurn t).bpDue 0x1F0 t = false ∧ (sTurn t).canIssue 0x1F0 t = true ∧ t.ut = false ∧
      (sTurn t).deadlockFor 0x1F0 t = none) ∧
    dead.deadlockFor 0x1F0 tFetch = some 7 ∧ dead.canIssue 0x1F0 tFetch = true := by decide +kernel

/-- A core with a barrier at given values. -/
def kBar (b : Barrier) : Core := { bars := [(7, b)] }

theorem witness_BarrierForms : ({ target := 2, count := 1 } : Barrier).count + 1 = ({ target := 2, count := 1 } : Barrier).target ∧
    ({ target := 2 } : Barrier).count + 1 ≠ ({ target := 2 } : Barrier).target ∧ ({} : Barrier).target = 0 ∧
    (sOf tA).thread (sOf tA).cur = some tA ∧ tCall.priv = 0 ∧ ((63 : Word).extractLsb' 0 6).toNat = 63 ∧
    ((tA.rd 1).extractLsb' 0 6).toNat = 7 ∧ ((sOf tA).bar 17 7).setAt ≠ some (sOf tA).cc ∧
    ((sCore tA (kBar { setAt := some 100 })).bar 17 7).setAt = some 100 ∧ (sOf tA).podGranted 0 7 = false ∧
    ({ sOf tA with parts := [(0, { placedPartition with podIds := [7] })] } : State).podGranted 0 7 = true := by decide +kernel

/-- A barw that has issued and is looked at after the events of its cc. -/
theorem witness_BarrierWaits_soon : tA.block.isAwait = false ∧ ({ tA with block := .await .soon 0 } : Thread).block = .await .soon (sOf tA).ir ∧
    (sOf { tA with block := .await .soon 0 }).thread 0x110 = some { tA with block := .await .soon 0 } ∧
    (sCore { tTrap 1 false 8 with block := .await .soon 0 } (kBar { phase := true, lpois := true })).ir = 0 ∧
    (tTrap 1 false 8).handler ≠ 0 := by decide +kernel

/-- A thread whose request, with the words given, has come to the place of a location. -/
def tThere (t : Thread) (p : Place) (l : Loc) (ws : List Nat) : Thread := { t with block := .await (.here p l ws none) 0 }

theorem there_there (t : Thread) (p : Place) (l : Loc) (ws : List Nat) : (tThere t p l ws).there ws := ⟨p, l, none, 0, rfl⟩

/-- A thread that is blocked by nothing has no request that has come anywhere. -/
theorem not_there (x : List Nat) : ¬tA.there x := fun ⟨_, _, _, _, h⟩ => by
  have : (tA.block = .none) := rfl
  rw [this] at h; exact nomatch h

theorem witness_BarrierWaits_there : (tThere tA (.pantry 0) ⟨.share 0 0, 0x200008⟩ []).block =
      .await (.here (.pantry 0) ⟨.share 0 0, 0x200008⟩ [] none) 0 ∧
    (sOf (tThere tA (.pantry 0) ⟨.share 0 0, 0x200008⟩ [])).thread 0x110 = some (tThere tA (.pantry 0) ⟨.share 0 0, 0x200008⟩ []) ∧
    condHolds .eq 0 ((tThere tA (.pantry 0) ⟨.share 0 0, 0x200008⟩ []).rd 0) = true ∧ condHolds .eq 0 (tA.rd 1) = false := by decide +kernel

theorem witness_BarrierWaits_far : (sOf { tA with g := tA.g.set 5 0xC200000000200008 }).passes { tA with g := tA.g.set 5 0xC200000000200008 }
    (tA.rd 3) 8 .load false true (.far (.pantry 0) ⟨.share 0 0, 0x200008⟩ 1) := fun _ => rfl

theorem witness_BarrierWaits : (sOf tA).thread (sOf tA).cur = some tA ∧ barOf 17 (tA.rd 1) = (17, 7) ∧ (tA.rd 1).getLsbD 8 = false ∧
    ((sCore tA (kBar { phase := true })).bar 17 7).phase ≠ false ∧ ((sOf tA).bar 17 7).phase = false ∧
    ((sCore tA (kBar { phase := true, lpois := true })).bar 17 7).lpois = true ∧ ((sOf tA).clBar 1 7).phase = false ∧
    ({ sOf tA with clusters := [(1, { bars := [(7, { phase := true })] })] } : State).clBar 1 7 = { phase := true } ∧
    ({ tA with block := .barw false 17 7 false (some 0) 3 0 } : Thread).block = .barw false 17 7 false (some 0) 3 0 := by decide +kernel

/-- Core 17 lags TIME by at most 2 ns, whatever its lag is: limits that are reached and that are not. -/
theorem witness_BarrierWaits_limit : (0 : Word).toNat ≤ (sOf tA).timeAt 17 ∧ (sOf tA).timeAt 17 < (51 : Word).toNat :=
  ⟨Nat.zero_le _, Nat.lt_of_le_of_lt (Nat.le_trans (Nat.sub_le _ _) (Nat.sub_le _ _)) (by decide)⟩

theorem witness_BarrierWaits_room : ∀ p, (sOf tA).waiterCount p < 256 := fun _ => (by decide : 0 < 256)

/-- A registration that was refused 1 µs ago, and one that was refused just now. -/
theorem witness_BarrierWaits_retry : let w : Waiter :=
      { who := .thread 0x110 3, part := 0, place := .lm 17, loc := ⟨.lm 17, 8⟩, cond := .eq, operand := 0, refused := true }
    let s : State := { sOf tA with waiters := [w], time := 1000 }
    s.waiters = w :: [] ∧ w.refused = true ∧ w.who = .thread 0x110 3 ∧ w.sentAt + 1000 ≤ s.time ∧ (sOf tA).time < w.sentAt + 1000 := by
  decide +kernel

theorem witness_BarrierWaits_place : (sOf { tA with g := tA.g.set 5 0xC000000000000008 }).passes tA
    (tA.rd 2) 8 .load false true (.own ⟨.lm 17, 8⟩) := fun _ => rfl

theorem witness_RemoteArrivals : (sOf tA).thread (sOf tA).cur = some tA ∧ tA.vrec = [] ∧ tA.mrec = [] ∧ tA.priv ≠ 0 ∧
    (sOf tA).part 0 = some placedPartition ∧ placedPartition.hasCore 17 = true ∧ placedPartition.hasCore 7 = false ∧
    (sOf tA).podGranted 0 7 = false ∧
    ({ sOf tA with parts := [(0, { placedPartition with podIds := [7] })], pods := [(7, { target := 1 })] } : State).podGranted 0 7 = true ∧
    ({ target := 1 } : PodBar).count + 1 = ({ target := 1 } : PodBar).target ∧ ({ target := 2 } : PodBar).members = [] ∧
    (sOf tA).modId < 4096 := by decide +kernel

/-- A partition whose queue 0 is as given, and its handle in g1. -/
def pQueue (q : Queue) : Partition := { placedPartition with queues := [(0, q)] }
def tQueue : Thread := { tA with g := tA.g.set 1 0xC200000000160000 }
def sQueue (q : Queue) : State := { sOf tQueue with parts := [(0, pQueue q)] }

theorem witness_QueueForms : (sQueue { live := true, depth := 2 }).thread 0x110 = some tQueue ∧
    (sQueue { live := true, depth := 2 }).queueAt 0 17 (tQueue.rd 1) = some 0 ∧ (sQueue { depth := 2 }).queueAt 0 17 (tQueue.rd 1) = none ∧
    (sQueue { live := true, depth := 2 }).locked (.pantry 0) queueOff 8 true = false ∧
    ({ sQueue { live := true, depth := 2 } with cores := [(17, { locks := [{ space := .pantry 0, lo := queueOff, hi := queueOff + 1, w := true, uid := 1 }] })] } : State).locked
      (.pantry 0) queueOff 8 true = true ∧
    ({ live := true, depth := 2, closed := true } : Queue).closed = true ∧
    ({ live := true, depth := 2, items := [1] } : Queue).items.length < 2 ∧ 2 ≤ ({ live := true, depth := 2, items := [1, 2] } : Queue).items.length ∧
    ({ live := true, depth := 2 } : Queue).putters = [] ∧ ({ live := true, depth := 2 } : Queue).getters = [] ∧
    (sQueue { live := true, depth := 2 }).pendingTo 0x110 (.pantry 0) = false ∧ (pQueue {}).ringPut = [] ∧ tQueue.held = none ∧
    (pQueue { depth := 256 }).queue 0 = { depth := 256 } ∧ (pQueue { live := true, depth := 1 }).queue 0 = { live := true, depth := 1 } := by
  decide +kernel

/-- A queue form whose request has come to its queue. -/
theorem witness_QueueForms_there : let t := tThere tQueue (.pantry 0) ⟨.share 0 0, queueOff⟩ []
    (sQueue {}).queueAt 0 17 (t.rd 1) = none ∧ tQueue.block.isAwait = false ∧ (0x110 : Nat) < 2 ^ 18 ∧
    ({ sQueue { live := true, depth := 2 } with threads := [(0x110, t)] } : State).thread 0x110 = some t ∧
    ({ sQueue { live := true, depth := 2 } with threads := [(0x110, t)] } : State).queueAt 0 17 (t.rd 1) = some 0 := by decide +kernel

theorem witness_QueueForms_waited : tQueue.waited .all := ⟨rfl, rfl, rfl, rfl, rfl, rfl⟩

/-- Copy registers for 64 bytes from offset 0 to offset 256 of the own LM. -/
def cpA : CopyRegs := { xsrc := 0xC000000000000000, xdst := 0xC000000000000100, xlen := 64 }
def tCopy : Thread := { tA with cp := cpA }

/-- A transfer of it on channel 0, and the core that runs it. -/
def xA : Xfer :=
  { ins := .xcopy 1 2 0, uid := 5, ch := 0, seq := 1, tid := 0x110, owner := 0, part := 0, sec := false, priv := 1, regs := cpA, cw := 0x80 }
def kCopy (x : Xfer) : Core := { chans := [{ cur := some x }, {}, {}, {}] }

theorem witness_CopyFormsIssue : let s := sOf tCopy
    s.thread s.cur = some tCopy ∧ tCopy.priv ≠ 0 ∧
    names63 .copy 7 = false ∧ names63 .copy 0x7F = true ∧ s.xshape tCopy .copy cpA = none ∧
    (s.xshape tCopy .copy { cpA with xdst := 0xC000000000000101 }).isSome = true ∧
    (s.xrangesOk tCopy .copy cpA 0).toBool = true ∧
    (s.xrangesOk tCopy .copy { cpA with xdst := 0xC00000000003FFC4 } 0).toBool = false ∧
    (s.core 17).xq.length < 2 := by decide +kernel

theorem witness_CopyFormsIssue_rest : let s := sOf tCopy
    2 ≤ ({ xq := [xA, xA] } : Core).xq.length ∧
    s.window 0 17 (tCopy.rd 2) = some (.lm 17 8) ∧ 8 + 56 ≤ 2 ^ 18 ∧
    (∀ k < 7, s.locked (.lm 17) (8 + 8 * k) 8 false = false ∧ s.isPoisoned 17 (8 + 8 * k) = false) ∧
    (s.chan 17 0).xwp.toNat < (tCopy.rd 1).toNat ∧ s.chanActive 17 0 = false ∧ (sCore tCopy (kCopy xA)).chanActive 17 0 = true ∧
    ({ xA with moved := 64 } : Xfer).nextByte false = none ∧
    (s.threads.map Prod.fst).Nodup := by decide +kernel

theorem witness_CopyFormsIssue_names : copyOf tCopy (.xcopy 1 2 0) = some (.copy, 7, 2, 0, 0, 0) ∧ (sOf tCopy).xname 17 4 = .unknown ∧ (sCore tCopy (kCopy xA)).xname 17 4 = .live xA false ∧
    (sCore tCopy { chans := [{ hist := [(1, 0)] }, {}, {}, {}] }).xname 17 4 = .ended 0 ∧
    (sCore tCopy { xq := [xA] }).xname 17 4 = .live xA true := ⟨rfl, rfl, rfl, rfl, rfl⟩

/-- The ranges of that command fit the table of every core. -/
theorem witness_CopyFormsIssue_room : ∀ c, ((sOf tCopy).core c).lockCount +
    ((([] : List (Nat × Lock)).filter fun p => p.1 == c).length +
      if c = 17 then lockEntries ((sOf tCopy).xlocks 0 17 .copy cpA 0) else 0) ≤ 32 := by
  intro c
  have h : lockEntries ((sOf tCopy).xlocks 0 17 .copy cpA 0) ≤ 32 := by decide +kernel
  show 0 + (0 + _) ≤ 32
  split <;> omega

theorem witness_TransfersRun : let q := sCore tCopy { xq := [xA] }
    let o : Xfer := { xA with ins := .cout 1 2 4 0, root := 9 }
    let r := sCore tCopy (kCopy xA)
    let g := sCore tCopy (kCopy { xA with moved := 64 })
    (q.core 17).xq.find? (fun x => (q.chan 17 x.ch).cur.isNone) = some xA ∧ xA.ch < 4 ∧ (q.core 17).chans.length = 4 ∧ xA.form ≠ .out ∧
    o.form = .out ∧ (q.store 0).en = false ∧ q.homeFrozen 0 [9] = none ∧
    r.beatReady 17 0 = true ∧ (r.core 17).xrun ≠ some r.cc ∧ (r.chan 17 0).cur = some xA ∧ xA.form = .copy ∧
    xA.nextByte (r.xpaused 17 xA) = some (none, 0) ∧ xA.regs.xsrc = BitVec.ofNat 64 (0xC0 * 2 ^ 56 + 0) ∧
    xA.regs.xdst = BitVec.ofNat 64 (0xC0 * 2 ^ 56 + 0x100) ∧ 0x100 + xA.regs.len ≤ 2 ^ 18 ∧ xA.regs.len % 4 = 0 ∧
    (r.core 17).poisoned = [] ∧ (r.core 17).lost = false ∧ r.errors = [] ∧
    (g.chan 17 0).cur = some { xA with moved := 64 } ∧ ({ xA with moved := 64 } : Xfer).doneTo 0 64 = some 64 ∧ 64 = xA.regs.len ∧
    ({ xA with regs := { cpA with xlen := 512 }, moved := 256 } : Xfer).doneTo 0 256 = some 256 ∧ xA.kill = false ∧
    xA.cw.getLsbD 6 = false ∧ xA.cw.getLsbD 7 = true ∧ r.thread xA.tid = some tCopy ∧ (r.threads.map Prod.fst).Nodup ∧
    ({ tCopy with block := .xwait 0 1 3 } : Thread).block = .xwait xA.ch xA.seq 3 := by decide +kernel

/-- A range table that is full. -/
theorem witness_CopyFormsIssue_full : let s := sCore tCopy { locks := (numsFrom 1 32).map fun n => { space := .lm 17, lo := 0, hi := 8, w := false, uid := n } }
    32 < (s.core 17).lockCount + lockEntries (s.xlocks 0 17 .copy cpA 0) ∧ s.xshape tCopy .copy cpA = none ∧
    (s.xrangesOk tCopy .copy cpA 0).toBool = true := by decide +kernel

/-- A transfer that an xkill finds with beats still to grant, and one that has reached the boundary after it. -/
theorem witness_TransfersRun_kill : let x : Xfer := { xA with regs := { cpA with xlen := 512 }, moved := 320, comp := 256 }
    let k : Xfer := { xA with regs := { cpA with xlen := 512 }, moved := 256, kill := true }
    (sCore tCopy (kCopy x)).xname 17 4 = .live x false ∧ x.nextByte false ≠ none ∧ x.fail = none ∧ x.moved ≠ x.comp ∧
    k.kill = true ∧ k.doneTo k.comp k.moved = some 256 ∧ k.moved = 256 ∧ k.flights = [] := by
  refine ⟨rfl, ?_⟩
  decide +kernel

/-- A beat of a copy to the pantry, and words of one that have come to another core's LM. -/
theorem witness_TransfersRun_leaves : let y : Xfer := { xA with regs := { cpA with xdst := 0xC200000000200000 } }
    let r := sCore tCopy (kCopy y)
    let w : Flight := ⟨none, 0, [(⟨.lm 18, 8⟩, 5)], true, none⟩
    let z : Xfer := { xA with moved := 64, flights := [w] }
    r.beatReady 17 0 = true ∧ (r.core 17).xrun ≠ some r.cc ∧ y.flights = [] ∧ y.nextByte (r.xpaused 17 y) = some (none, 0) ∧
    (∀ k < 64, r.window 0 17 (y.regs.xdst + BitVec.ofNat 64 k) = some (.pantry 0 (0x200000 + k))) ∧ y.regs.len = 64 ∧
    y.regs.xdst.toNat + y.regs.len < 2 ^ 64 ∧ r.errors = [] ∧ z.landing = some w ∧ w.words = [(⟨.lm 18, 8⟩, 5)] ∧ w.home = none ∧ (r.core 18).lost = false ∧ (r.core 18).frozen = false ∧ ({ lost := true } : Core).lost = true ∧
    ({ frozen := true } : Core).frozen = true ∧
    ((sCore tCopy (kCopy z)).chan 17 0).cur = some z ∧ (sCore tCopy (kCopy z)).locHeld 17 z none ⟨.lm 18, 8⟩ true = false := by decide +kernel

/-- A cout of a crumb whose home is the thread's core: with no entry, with one, and with a home that is lost. -/
theorem witness_TransfersRun_cout : let o : Xfer := { xA with ins := .cout 1 2 4 0, root := 9 }
    let e : Crumb := ⟨9, 0, 1, 1, 1, true⟩
    let s := fun (l : List Crumb) (lost : Bool) =>
      ({ sCore tCopy { xq := [o], lost := lost } with
          parts := [(0, { placedPartition with store := { en := true, sbase := 1, nslot := 4, homes := [17], ib := 16, crumbs := l } })] } : State)
    o.form = .out ∧ ((s [] false).core 17).xq.find? (fun x => ((s [] false).chan 17 x.ch).cur.isNone) = some o ∧
    (s [] false).homeFrozen 0 [9] = none ∧ ((s [] false).store 0).homeOf 9 = 17 ∧ ((s [] false).store 0).liveEntry 9 = none ∧
    ((s [] true).core (((s [] true).store 0).homeOf 9)).lost = true ∧ ((s [e] false).store 0).liveEntry 9 = some e ∧
    (s [e] false).leafSlots 0 8 9 = ([0], none) ∧ 0 < o.regs.len ∧ e.count ≠ pinned ∧
    ({ s [] false with arrs := [(68, 17, 7, false), (69, 17, 7, true)] } : State).arrs = [(68, 17, 7, false), (69, 17, 7, true)] ∧ 68 < 69 := by decide +kernel

/-- A parcel of the thread with the access given, and a module in which it is on its way. -/
def pA (a : Access) (ctr : Nat) : Parcel :=
  { src := 0x112, seq := 0, part := 0, place := .lm 17, loc := ⟨.lm 17, 8⟩, acc := a, ctr := ctr, va := 0xC100000000040008 }
def sParcel (p : Parcel) (k : Core) : State := { sCore tA k with parcels := [p], time := 100000 }

theorem witness_AccessParcels_arriving : let p := pA (.store 8 5) 0
    let s := sParcel p {}
    (s.findParcel p.src p.seq = some p ∧ 1 ≤ p.copies ∧ p.held = false ∧ p.performed = false ∧ s.frozenAt p.place = false ∧
      s.lostAt p.place = false ∧ earlierPending p s.parcels = false ∧ (s.windowed p.place).length < 4096) ∧ p.ctr ≠ 3 ∧
    (s.landed p).lmMeets { p with copies := 0 } = false ∧ (s.landed p).lmPoisoned { p with copies := 0 } = false ∧
    (s.landed p).finds { p with copies := 0 } = false ∧ (pA (.load 8 .d 3) 3).src < 2 ^ 18 := by decide +kernel

/-- A request whose thread awaits its reply comes, of an instruction and of loads and updates. -/
theorem witness_AccessParcels_request : let p := { pA (.op 8 true [5]) 3 with src := 0x110 }
    let t : Thread := { tA with block := .reply .request }
    let s : State := { sParcel p {} with threads := [(0x110, t)] }
    (s.findParcel p.src p.seq = some p ∧ 1 ≤ p.copies ∧ p.held = false ∧ p.performed = false ∧ s.frozenAt p.place = false ∧
      s.lostAt p.place = false ∧ earlierPending p s.parcels = false ∧ (s.windowed p.place).length < 4096) ∧
    s.thread p.src = some t ∧ t.block = .reply .request ∧ (s.landed p).lmMeets { p with copies := 0 } = false ∧
    (s.landed p).lmPoisoned { p with copies := 0 } = false ∧ (s.landed p).finds { p with copies := 0 } = false ∧
    (pA (.red .add 8 5) 0).ctr ≠ 3 ∧ (pA (.amo .add 8 5 0 3) 3).src < 2 ^ 18 := by decide +kernel

theorem witness_AccessParcels_turned_away : let p := pA (.store 8 5) 0
    let met := sParcel p { locks := [{ space := .lm 17, lo := 8, hi := 9, w := true, uid := 1 }] }
    let bad := sParcel p { poisoned := [0] }
    let err : State := { sParcel p {} with errors := [⟨.lm 17, 0⟩] }
    (met.landed p).lmMeets { p with copies := 0 } = true ∧ (bad.landed p).lmPoisoned { p with copies := 0 } = true ∧
    (bad.landed p).lmMeets { p with copies := 0 } = false ∧ (err.landed p).finds { p with copies := 0 } = true ∧
    (err.landed p).lmPoisoned { p with copies := 0 } = false ∧
    earlierPending { p with seq := 1 } [p, { p with seq := 1 }] = true ∧ ({ p with performed := true } : Parcel).performed = true := by
  decide +kernel

/-- A parcel of source k that the place has performed and still keeps window state for. -/
def seen (k : Nat) : Parcel := { pA (.store 8 5) 0 with src := k, performed := true }

theorem windowed_seen (n : Nat) : ∀ (a : Nat) (acc : List Nat), (∀ x ∈ acc, x < a) →
    let w := (((numsFrom a n).map seen).filter fun q => q.place == Place.lm 17 && (q.held || (q.performed && q.ctr != 3))).foldl
      (fun acc q => if acc.contains q.src then acc else q.src :: acc) acc
    w.length = acc.length + n ∧ ∀ x ∈ w, x < a + n := by
  induction n with
  | zero => intro a acc h; exact ⟨rfl, h⟩
  | succ n ih =>
    intro a acc h
    have hs : (seen a).src = a := rfl
    have hc : acc.contains a = false := by simpa using fun hm => Nat.lt_irrefl a (h a hm)
    have := ih (a + 1) (a :: acc) (fun x hx => by
      rcases List.mem_cons.mp hx with rfl | hx
      · omega
      · exact Nat.lt_succ_of_lt (h x hx))
    simp only [numsFrom, List.map_cons, List.filter_cons, show ((seen a).place == Place.lm 17 && ((seen a).held || ((seen a).performed &&
      (seen a).ctr != 3))) = true from rfl, if_true, List.foldl_cons, hs, hc, Bool.false_eq_true, if_false]
    simp only [List.length_cons] at this
    exact ⟨by omega, fun x hx => by have := this.2 x hx; omega⟩

/-- n sources have window state at the place, and a parcel of a further one comes. -/
theorem windowed_full (n k : Nat) (hk : n ≤ k) :
    n ≤ (({ sOf tA with parcels := (numsFrom 0 n).map seen } : State).windowed (.lm 17)).length ∧
    (({ sOf tA with parcels := (numsFrom 0 n).map seen } : State).windowed (.lm 17)).contains k = false := by
  have h := windowed_seen n 0 [] (by simp)
  refine ⟨Nat.le_of_eq (h.1.trans (Nat.zero_add n)).symm, ?_⟩
  rw [Bool.eq_false_iff]
  exact fun hm => absurd (h.2 k (List.contains_iff_mem.mp hm)) (by omega)

theorem witness_AccessParcels_window :
    4096 ≤ (({ sOf tA with parcels := (numsFrom 0 4096).map seen } : State).windowed (.lm 17)).length ∧
    (({ sOf tA with parcels := (numsFrom 0 4096).map seen } : State).windowed (.lm 17)).contains 5000 = false :=
  windowed_full 4096 5000 (by omega)

theorem witness_AccessParcels_resent : let p := pA (.store 8 5) 0
    let s := sParcel p {}
    s.findParcel p.src p.seq = some p ∧ p.refused = false ∧ p.lastAt + 20000 ≤ s.time ∧ p.firstAt + 100000 ≤ s.time ∧ p.src < 2 ^ 19 ∧
    ({ p with refused := true } : Parcel).acc.isHandler = false ∧
    (Access.handler 17 { handler := 0x100000400, args := [1, 2, 3, 4], sender := 5, starter := 0, owner := 0, part := 0, sec := false }).isHandler = true ∧
    ({ p with acks := 1 } : Parcel).acks ≠ 0 ∧ ({ p with src := 0x110, acks := 1 } : Parcel).err = none ∧
    ({ p with err := some 2 } : Parcel).err = some 2 ∧ tA.errC = none ∧ (sOf tA).thread 0x110 = some tA := by decide +kernel

/-- A handler parcel, an arrival, a wake and an arrival of barr.cl on their way. -/
def hA : HandlerParcel :=
  { handler := 0x100000400, args := [1, 2, 3, 4], sender := 5, starter := 0, owner := 0, part := 0, sec := false, priv := 1 }

theorem witness_OtherParcels : (pA (.arrive 17 7) 0).ctr ≠ 3 ∧ (pA (.wake 0x110) 0).acc = .wake 0x110 ∧ (sOf tA).thread 0x110 = some tA ∧
    ({ tA with block := .sleep 9 3 } : Thread).block = .sleep 9 3 ∧ (pA (.handler 17 hA) 0).acc = .handler 17 hA ∧
    ((sOf tA).core 17).handlers.length < 16 ∧ hA.priv ≠ 0 ∧ ((sOf tA).core 17).handlers = [] ∧ (sOf tA).thread (16 * 17 + 15) = none ∧
    hA.args.length = 4 ∧ 16 ≤ ({ handlers := List.replicate 16 hA } : Core).handlers.length ∧
    (let p := { pA (.clArrive 1 7) 3 with src := 0x110 }
     let s := sParcel p {}
     (s.findParcel p.src p.seq = some p ∧ 1 ≤ p.copies ∧ p.held = false ∧ p.performed = false ∧ s.frozenAt p.place = false ∧
      s.lostAt p.place = false ∧ earlierPending p s.parcels = false ∧ (s.windowed p.place).length < 4096)) ∧
    ({ tA with block := .barr 3 } : Thread).block = .barr 3 := by decide +kernel

theorem witness_WalksAndMigration : let t : Thread := { tA with block := .walk 1 }
    let s : State := { sOf t with hearths := [(0, { walks := [⟨0, 1, [0x110]⟩] })] }
    let m : Thread := { tA with block := .migrate 18 (.form 3 1) }
    ((s.hearth 0).walks = [⟨0, 1, [0x110]⟩] ∧ s.thread 0x110 = some t ∧ t.block = .walk 1) ∧
    ((sOf m).thread 0x110 = some m ∧ m.block = .migrate 18 (.form 3 1) ∧ (sOf m).xbusy 0x110 = false ∧
      ((sOf m).core 18).frozen = false ∧ ((sOf m).core 17).frozen = false ∧ (sOf m).grantFor 18 m = some 0x120 ∧
      ((sOf m).core 18).lost = false ∧ ({ lost := true } : Core).lost = true) ∧
    ({ sOf tA with moving := [⟨tA, .form 3 1, 0x120, 0x110⟩] } : State).moving.find? (fun m => m.origin == 0x110) =
      some ⟨tA, .form 3 1, 0x120, 0x110⟩ := by decide +kernel

/-- A core on which the thread holds a vector context. -/
def kVec : Core := { vctx := [{ holder := some 0x110 }, {}, {}, {}] }
/-- A vector command of the thread. -/
def vA (i : Instr) (x : Word) : VCmd := { ins := i, word := 0, uid := 5, tid := 0x110, owner := 0, priv := 1, x := x }

/-- A thread with a context holds all that a form asks but vacc, which asks its tile too. -/
theorem witness_VectorFormsIssue_holds : (sCore tA kVec).holdsFor (.vadd 1 2 3 0 .i32) ∧ ¬(sCore tA kVec).holdsFor (.vacc 1 2 3 0 .i32) ∧
    (sCore tA { kVec with tiles := List.replicate 8 { holder := some 0x110 } }).holdsFor (.vacc 1 2 3 0 .i32) ∧
    ¬(sOf tA).holdsFor (.vadd 1 2 3 0 .i32) := by
  refine ⟨⟨by decide +kernel, fun _ _ _ _ _ h => nomatch h⟩, fun h => absurd (h.2 1 2 3 0 .i32 rfl) (by decide +kernel),
    ⟨by decide +kernel, fun d a j k ty h => ?_⟩, fun h => absurd h.1 (by decide +kernel)⟩
  injection h with h1 h2 h3
  subst h3
  decide +kernel

theorem witness_VectorFormsIssue_full : 32 ≤ ({ kVec with locks := (numsFrom 1 32).map fun n => { space := .lm 17, lo := 0, hi := 8, w := false, uid := n } } : Core).lockCount := by
  decide +kernel

theorem witness_VectorFormsIssue : let s := sCore tA kVec
    s.thread s.cur = some tA ∧ vectorOf (.vadd 1 2 3 0 .i32) = some (0, 0, false) ∧ vectorOf (.vld 1 2 0 .i8) = some (2, 0, false) ∧
    holdsCtx (s.core 17) 0x110 = true ∧ holdsCtx ((sOf tA).core 17) 0x110 = false ∧ (s.core 17).vq.length < 2 ∧
    (s.core 17).lockCount < 32 ∧ 2 ≤ ({ kVec with vq := [vA (.vadd 1 2 3 0 .i32) 0, vA (.vadd 1 2 3 0 .i32) 0] } : Core).vq.length ∧
    Instr.vmem (.vadd 1 2 3 0 .i32) = none ∧ Instr.vmem (.vld 1 2 0 .i8) = some (false, 0, 1, 0, .i8) ∧
    s.window tA.part 17 (tA.rd 2) = some (.lm 17 8) ∧ 8 % VType.bytes .i8 = 0 ∧ 8 + VType.bytes .i8 ≤ 2 ^ 18 ∧
    (∀ j, j < tA.fp.vl.toNat % 128 → s.window tA.part 17 (vaddr 0 (tA.rd 2) (tA.rd 0) .i8 j) = some (.lm 17 (8 + j)) ∧
      8 + j + VType.bytes .i8 ≤ 2 ^ 18) := by decide +kernel

/-- The range of an issue is found, and a base that is no LM address fails. -/
theorem witness_VectorFormsIssue_checked :
    (sCore tA kVec).vcheck tA ((sCore tA kVec |>.core 17).ctx 0x110) (.vld 1 2 0 .i8) (tA.rd 2) 0 = .ok (some (false, 8, 72)) ∧
    (sCore tA kVec).vcheck tA ((sCore tA kVec |>.core 17).ctx 0x110) (.vld 1 3 0 .i8) (tA.rd 3) 0 = .error (tA.rd 3) := ⟨rfl, rfl⟩

theorem witness_VectorElements : VType.isI6 .n16 = true ∧ 1 < VType.pack .n16 ∧
    vecInt (w := 16) (VType.signed .n16) (subEl 0x10002 16 1) (subEl 0x30004 16 1) (.vadd 1 2 3 0 .n16) = some (1, 2, 3, .n16, 4) ∧
    (64 : Nat) ≤ 64 := by decide +kernel

/-- A form of each statement about values, with its operands' codes at the special cases. -/
theorem witness_VectorElements_float : (∃ r : Nat → Nat × Nat, ∀ s < VType.pack .f16,
      vecFloat (vA (.vfma 1 2 3 0 .f16) 0) fp16 (subEl 0x3C003C00 16 s).toNat (subEl 0x40003C00 16 s).toNat (subEl 0 16 s).toNat =
        some (1, 2, 3, .f16, r s)) ∧ VType.pack .f16 = 2 ∧ VType.fmt .f16 = fp16 ∧ VType.bitsOf .f16 = 16 :=
  ⟨⟨_, fun _ _ => rfl⟩, rfl, rfl, rfl⟩

theorem witness_VectorElements_sfu : fp32 ∈ [fp32, fp16, bf16, e5m2] ∧ fp32.unpack 0x7FA00000 = .nan true ∧ fp32.unpack 0x7F800000 = .inf false ∧
    fp32.unpack 0xFF800000 = .inf true ∧ fp32.unpack 0x80000000 = .fin true 0 fp32.qmin ∧
    fp32.unpack 0xBF800000 = .fin true (2 ^ 23) (-23) ∧ fp32.bias * 2 ^ fp32.t = 0x3F800000 := by decide +kernel

theorem witness_VectorElements_forms : (vA (.vand 1 2 3 0) 0).ins = .vand 1 2 3 0 ∧ (vA (.vbc 1 2 0) 0).ins = .vbc 1 2 0 ∧
    (vA (.vrng 1 2 0 .f32) 0).ins = .vrng 1 2 0 .f32 ∧ (vA (.vacc 1 2 3 0 .f32) 0).ins = .vacc 1 2 3 0 .f32 ∧
    (vA (.vcvt 1 2 .f16 0 .f32) 0).ins = .vcvt 1 2 .f16 0 .f32 ∧ (vA (.vcvt 1 2 .f32 0 .i32) 0).ins = .vcvt 1 2 .f32 0 .i32 ∧
    (vA (.vcvt 1 2 .n8 0 .n32) 0).ins = .vcvt 1 2 .n8 0 .n32 ∧ (vA (.vpk 1 2 .f32 0 .e2m1x) 0).ins = .vpk 1 2 .f32 0 .e2m1x ∧
    (vA (.vrsum 1 2 0 .i32) 0).ins = .vrsum 1 2 0 .i32 ∧ (vA (.vrmax 1 2 0 .n32) 0).ins = .vrmax 1 2 0 .n32 ∧
    (vA (.vrsumF32 1 2 0) 0).ins = .vrsumF32 1 2 0 ∧ (vA (.vrmaxF32 1 2 0) 0).ins = .vrmaxF32 1 2 0 ∧
    (vA (.vfix 1 2 3 0) 0).ins = .vfix 1 2 3 0 ∧ (vA (.vunfix 1 2 3) 0).ins = .vunfix 1 2 3 ∧ (vA (.vfix 1 2 3 0) 0).vl ≤ 64 ∧
    e5m2.unpack 0x7C = .inf false ∧ e5m2.unpack 0x7D = .nan true ∧ e5m2.unpack 0x3C = .fin false 4 (-2) ∧ 0x7D < 2 * e5m2.signBit := by
  decide +kernel

/-- By hand: 1 + 2 in two neighbours of a sum (R73), 2.0 as an integer, and AND of a word with itself (R158). -/
theorem test_vector_values : let x : VCtx := { v := [(128, 0x3F800000), (129, 0x40000000)] }
    (({ vA (.vrsumF32 1 2 0) 0 with vl := 2 } : VCmd).finish x).1.el 1 0 = 0x40400000 ∧
    (vA (.vcvt 1 2 .f32 0 .i32) 0).elem x (fun _ => 0) 0 1 = some (1, 2, 0) ∧
    (vA (.vand 1 2 2 0) 0).elem x (fun _ => 0) 0 1 = some (1, 0x40000000, 0) := by decide +kernel

/-- The head of a queue may run its beat in this cc. -/
abbrev beatRuns (i : Instr) (x : Word) : Prop :=
  let s := sCore tA { kVec with vq := [vA i x] }
  (s.core 17).vq = vA i x :: [] ∧ (s.core 17).beatDue s.cc (vA i x) = true ∧ (s.core 17).engineHeld false = false ∧
  s.mustWait 17 5 = false ∧ s.vaccReady 17 (vA i x) = true ∧ holdsCtx (s.core 17) 0x110 = true ∧ (s.core 17).poisoned = []

theorem witness_VectorMemoryBeat : beatRuns (.vld 1 2 0 .i8) 0xC000000000000008 ∧
    Instr.vmem (.vld 1 2 0 .i8) = some (false, 0, 1, 0, .i8) ∧ (vA (.vld 1 2 0 .i8) 0xC000000000000008).vl ≤ 64 ∧
    (vA (.vld 1 2 0 .i8) 0xC000000000000008).pos < (vA (.vld 1 2 0 .i8) 0xC000000000000008).vl := by decide +kernel

theorem witness_VectorMasksAndMoves : beatRuns (.vadd 1 2 3 0 .i32) 0 ∧ beatRuns (.vcmpEq 1 2 3 0 .i32) 0 ∧
    beatRuns (.vmand 1 2 3) 0 ∧ (vA (.vmand 1 2 3) 0).vl ≤ 64 ∧
    Instr.vshape (.vadd 1 2 3 0 .i32) = .elems 16 ∧ Instr.vshape (.vcmpEq 1 2 3 0 .i32) = .elems 16 ∧
    Instr.vshape (.vld 1 2 0 .i8) = .elems 16 ∧ (vA (.vadd 1 2 3 0 .i32) 0).pos < (vA (.vadd 1 2 3 0 .i32) 0).vl ∧
    VType.isMem .i8 = true ∧ (vA (.vadd 1 2 3 0 .i32) 0).halting = false ∧ (1 : MReg) ≠ 0 := by decide +kernel

theorem witness_VectorMasksAndMoves_conditions : (∀ i, (vA (.vadd 1 2 3 0 .i32) 0).cond {} i = none) ∧
    ∀ i, ∃ b f, (vA (.vcmpEq 1 2 3 0 .i32) 0).cond {} i = some (1, b, f) := ⟨fun _ => rfl, fun _ => ⟨_, _, rfl⟩⟩

theorem witness_VectorMasksAndMoves_contexts : (sOf tA).thread (sOf tA).cur = some tA ∧ (∃ x ∈ ((sOf tA).core 17).vctx, x.holder = none) ∧
    (∀ x ∈ ({ vctx := List.replicate 4 { holder := some 0x111 } } : Core).vctx, x.holder ≠ none) ∧ (sOf tA).vbusy 0x110 = false ∧
    tA.vrec = [] ∧ (sCore tA { kVec with vq := [vA (.vadd 1 2 3 0 .i32) 0] }).vbusy 0x110 = true := by decide +kernel

/-- Every form enters under the same conditions: a plain one, and a load. -/
theorem witness_VectorFormsComplete : let s := sCore tA kVec
    s.thread s.cur = some tA ∧ vectorOf (.vadd 1 2 3 0 .i32) = some (0, 0, false) ∧ Instr.vmem (.vadd 1 2 3 0 .i32) = none ∧
    vectorOf (.vld 1 2 0 .i8) = some (2, 0, false) ∧ holdsCtx (s.core 17) s.cur = true ∧ (s.core 17).vq.length < 2 ∧
    (s.core 17).lockCount < 32 := by decide +kernel

/-- A thread at monitor privilege with the address of an image in g1; the image is the couche of reset, or has a byte that R79 refuses. -/
def tCch : Thread := { tA with priv := 2, g := tA.g.set 1 0xC000000000000020 }
def sCch (b : Byte) : State :=
  sCore tCch { lm := (32, b) :: ((numsFrom 33 31).zip (resetCouche.drop 1)).map fun x => (x.1, BitVec.ofNat 8 (128 + x.2.getD 0)) }
def imageOf (s : State) : Option (List (Option Nat)) := coucheOf ((numsFrom 0 32).map fun k => ((s.mem (.lm 17)).byte (32 + k)).toNat)

theorem witness_CouchesAndTranslations : let s := sCch 0x80
    s.thread s.cur = some tCch ∧ tA.priv ≠ 0 ∧ s.window 0 17 (tCch.rd 1) = some (.lm 17 32) ∧ 32 + 32 ≤ 2 ^ 18 ∧ 32 % 32 = 0 ∧
    (∀ k < 4, s.locked (.lm 17) (32 + 8 * k) 8 false = false ∧ s.isPoisoned 17 (32 + 8 * k) = false) ∧
    imageOf s = some resetCouche ∧ imageOf (sCch 0x10) = none ∧ coucheValid resetCouche = true ∧
    4 ≤ (resetCouche.filter fun x => x == some 15).length ∧ (imageOf (sCch 0x81)).map coucheValid = some false ∧
    (s.core 7).frozen = false ∧ ({ frozen := true } : Core).frozen = true ∧
    ({ staged := some (resetCouche, some 5) } : Core).staged = some (resetCouche, some 5) ∧
    ({ staged := some (resetCouche, none) } : Core).staged = some (resetCouche, none) ∧ 1 ≤ tCch.priv ∧ tCch.pcntC = 0 ∧ tCch.pcntH = 0 ∧
    tCch.pcntM = 0 ∧ tCch.errC = none ∧ tCch.block = .none ∧ s.parcels = [] ∧
    ({ tCch with block := .await (.homed 0 65536 1) 5 } : Thread).block = .await (.homed 0 65536 1) 5 := by decide +kernel

/-- The couche of reset has every slot at most once in four positions in a row (R78). -/
theorem witness_CouchesAndTranslations_legal : coucheLegal resetCouche := by
  have h : ∀ p < 32, ∀ d < 4, 1 ≤ d → resetCouche.getD p none = none ∨ resetCouche.getD p none ≠ resetCouche.getD ((p + d) % 32) none := by
    decide +kernel
  exact ⟨fun p d hp h1 h3 => h p hp d (by omega) h1, by decide +kernel⟩

/-- The target of a cch: the own core, another of the partition, none of it; the image when it has come to its core; and a couche that waits
for the start of a cc. -/
theorem witness_CouchesAndTranslations_target : let me : Thread := { tCch with g := tCch.g.set 5 0x40011 }
    let t := tThere { tA with priv := 1 } (.lm 17) ⟨.lm 17, 0⟩ ((numsFrom 0 32).map fun k => ((((sCch 0x80).mem (.lm 17)).byte (32 + k)).toNat))
    (me.rd 5).toNat % 2 ^ 14 = coreOf 0x110 ∧ (tCch.rd 1).toNat % 2 ^ 14 ≠ 17 ∧ placedPartition.hasCore 17 = true ∧
    placedPartition.hasCore 40 = false ∧ t.priv ≠ 2 ∧
    coucheOf ((numsFrom 0 32).map fun k => ((((sCch 0x80).mem (.lm 17)).byte (32 + k)).toNat)) = some resetCouche ∧
    ({ sOf tA with sets := [(17, 5)] } : State).sets = [(17, 5)] ∧ (sOf tA).turns = [] ∧ (sOf tA).starts = [] ∧ (sOf tA).drops = [] := by
  decide +kernel

/-- A core that has a line of the page, and an access of the partition to it that is on its way to a home. -/
theorem witness_CouchesAndTranslations_quiet : let p : Parcel :=
      { pA (.load 8 .d 3) 3 with place := .home 18, page := (0x10000, 2 ^ 16), va := 0x10008 }
    let t : Thread := { tCch with block := .await (.homed 0 0x10008 1) 0 }
    let s : State := { sCore t (kPage 18) with parcels := [p] }
    s.condMet 0x110 t (.homed 0 0x10008 1) = false ∧ (sCore t (kPage 18)).condMet 0x110 t (.homed 0 0x10008 1) = true ∧
    s.thread 0x110 = some t ∧ (pageAt 18).base < 0x10008 + 1 ∧ 0x10008 < (pageAt 18).base + (pageAt 18).leaf.size := by decide +kernel

/-- A core on which the thread holds tile 0, and a matrix command of the thread on that tile. -/
def kTile : Core := { tiles := { holder := some 0x110 } :: List.replicate 7 {} }
def mA (i : Instr) : MCmd :=
  { ins := i, word := 0, uid := 5, tid := 0x110, owner := 0, priv := 1, tile := 0, ga := 0xC000000000000008, gb := 0xC000000000000008 }

theorem witness_MatrixFormsIssue : let s := sCore tA kTile
    s.thread s.cur = some tA ∧ ((s.core 17).tiles.getD 0 {}).holder = some s.cur ∧ ((s.core 17).tiles.getD 1 {}).holder ≠ some s.cur ∧
    tA.mat.refusal false = 0 ∧ tA.mat.refusal true = 0 ∧ ({ mgeom := 0x00401000 } : MatRegs).refusal true = 3 ∧
    (s.core 17).mq.length < 2 ∧ 2 ≤ ({ mq := [mA (.mzero 0 0), mA (.mzero 0 0)] } : Core).mq.length ∧
    s.latchBusy 17 s.cur = false ∧ (s.core 17).latch = none ∧
    (sCore tA { kTile with latch := some ⟨{ mA (.mmulg 2 2 2 0) with tid := 0x111 }, [], none⟩ }).latchBusy 17 s.cur = true := by
  decide +kernel

/-- The ranges of a multiply pass and fit; those of one whose operand is no LM address fail; the rows of a gathered one are found. -/
theorem witness_MatrixFormsIssue_ranges : let s := sCore tA kTile
    let r := fun (n : Nat) => ({ space := .lm 17, lo := 8, hi := 1032, w := false, uid := 0, rng := n } : Lock)
    matrixOf (.mdrain 2 2 .i8 0) = some (0, 2, 2, 0, none, fun r => if r.badGeom then 3 else 0) ∧
    allOk (matrixRanges s tA (.mmul 2 2 0 0)) = .ok [r 0, r 1] ∧
    allOk (matrixRanges s tA (.mmul 3 2 0 0)) = .error (tA.rd 3) ∧ lockEntries [r 0, r 1] ≤ 32 ∧
    s.gatherCheck tA (tA.rd 2) (tA.rd 2) = .ok (List.replicate 16 8) ∧
    allOk (s.mrange tA (tA.rd 2) (tA.mat.n * (tA.mat.k * tA.mat.sideB.store / 8)) 8 false :: s.mvectors tA tA.mat) = .ok [r 0] :=
  ⟨rfl, rfl, rfl, by decide, rfl, rfl⟩

/-- A latch that waits for its rows, and one that serves the thread's instruction. -/
theorem witness_MatrixFormsIssue_latch : let t : Thread := { tA with block := .latch }
    let l : Latch := ⟨mA (.mmulg 2 2 2 0), [8], none⟩
    let s := sCore t { kTile with latch := some l }
    let c := (sOf tA).mcmd tA (.mmulg 2 2 2 0) 0 (tA.rd 2) (tA.rd 2) (tA.rd 2) none
    let full : Latch := ⟨c, [8], some []⟩
    (s.core 17).latch = some l ∧ l.data = none ∧ s.thread l.cmd.tid = some t ∧ t.block = .latch ∧ (s.core 17).frozen = false ∧
    (s.core 17).lost = false ∧ (∀ x ∈ (s.core 17).locks, x.w = false) ∧ (s.core 17).poisoned = [] ∧ l.serves c = false ∧
    full.serves c = true ∧ (sCore tA { kTile with latch := some full }).latchBusy 17 0x110 = false := by decide +kernel

theorem witness_PlanesSumToExactProducts : let qs : List (Int × Int) := [(-8, 7), (3, -5)]
    ∀ q ∈ qs, (-(2 ^ 3 : Nat) ≤ q.1 ∧ q.1 < (2 ^ 3 : Nat)) ∧ (-(2 ^ 3 : Nat) ≤ q.2 ∧ q.2 < (2 ^ 3 : Nat)) := by decide

/-- The engine of a core with one command at the head of its queue. -/
def sEng (c : MCmd) : State := sCore tA { kTile with mq := [c] }

theorem witness_MatrixCycles : let m := mA (.mmul 2 2 0 0)
    let on : MCmd := { m with begun := true, left := 2 }
    let last : MCmd := { m with begun := true, left := 1, fin := true }
    let b : MCmd := { mA (.mbias 2 0 0) with begun := true, done := 1 }
    m.isMul = true ∧ on.left > 1 ∧ last.left = 1 ∧ last.stopping = none ∧ last.tile < 8 ∧ m.regs.n ≤ 16 ∧
    (∀ c ∈ [m, on, last, b, mA (.mzero 0 0), mA (.mdrain 2 2 .i8 0)], (sEng c).mpick 17 = some c ∧
      ((sEng c).core 17).engineHeld c.begun = false ∧ ((sEng c).core 17).mrun ≠ some (sEng c).cc ∧ c.stopping = none ∧ c.tile < 8 ∧
      ((sEng c).core 17).tiles.length = 8 ∧ ((sEng c).core 17).poisoned = [] ∧ (∀ x ∈ ((sEng c).core 17).mq, x.halting = false)) ∧
    VType.isI6 .i8 = true ∧ (mA (.mdrain 2 2 .i8 0)).done < m.regs.m ∧ b.done = 1 := by decide +kernel

theorem witness_TileForms : let s := sCore tA kTile
    let t : Thread := { tA with g := tA.g.set 1 1 }
    let q := sEng { mA (.mmul 2 2 0 0) with begun := true, left := 2 }
    s.thread s.cur = some tA ∧ (s.core 17).tiles.length = 8 ∧
    (∀ n < 8, (7 : Nat).testBit n = true → ((s.core 17).tiles.getD n {}).holder = none ∨ ((s.core 17).tiles.getD n {}).holder = some s.cur) ∧
    (t.rd 1).toNat % 256 = 1 ∧ ({ holder := some 0x111 } : TileSt).holder ≠ none ∧ tA.poison = [] ∧ s.mopen s.cur 7 = false ∧
    q.mopen s.cur 7 = true ∧ s.window 0 17 (tA.rd 2) = some (.lm 17 8) ∧ 8 + 48 ≤ 2 ^ 18 ∧ (s.core 17).locks = [] ∧
    (s.core 17).poisoned = [] ∧ tA.mrec = [] ∧ ((s.core 17).mq.filter fun c => c.tid == s.cur) = [] ∧
    (sEng (mA (.mzero 0 0))).mopen s.cur 0xFF = true ∧ (mA (.mzero 0 0)).begun = false ∧
    ((q.core 17).mq.filter fun c => c.tid == s.cur) = [{ mA (.mmul 2 2 0 0) with begun := true, left := 2 }] ∧
    ({ tA with poison := [3] } : Thread).poison = 3 :: [] := by decide +kernel

/-- The entries of the matrix queue and of the range table that are in use, and a pass in its last cycle, charged to an open job. -/
theorem witness_MatrixFormsIssue_full : let q := sCore tA { kTile with mq := [mA (.mzero 0 0), mA (.mzero 0 0)] }
    let l := sCore tA { kTile with locks := (numsFrom 1 32).map fun n => { space := .lm 17, lo := 0, hi := 8, w := false, uid := n } }
    2 ≤ (q.core 17).mqUsed q.cc ∧ ((sCore tA kTile).core 17).mqUsed 100 < 2 ∧
    32 < (l.core 17).lockCount + lockEntries [({ space := .lm 17, lo := 8, hi := 1032, w := false, uid := 0 } : Lock)] := by decide +kernel

theorem witness_MatrixCycles_charge : let c : MCmd := { mA (.mmul 2 2 0 0) with begun := true, left := 1, fin := false, priv := 0 }
    let m : Meter := { owner := 0, job := true, meter := 5 }
    let s := sCore tA { kTile with mq := [c], meters := [m] }
    s.mpick 17 = some c ∧ c.isMul = true ∧ (s.core 17).engineHeld c.begun = false ∧ (s.core 17).mrun ≠ some s.cc ∧ c.stopping = none ∧
    (∀ x ∈ (s.core 17).mq, x.halting = false) ∧ (s.core 17).meterOf c.owner = some m ∧ (s.core 17).ckpt = false ∧ m.meter < 2 ^ 48 := by
  decide +kernel

/-- Partition 0 with its callable table: entry 0 is a LEAF of one thread, entry 2 a LEAF of more than the partition holds, and no other
entry is in use. -/
def callTable : Memory := [(0, 1), (2, 1), (4, 1), (256, 1), (258, 1), (260, 255), (261, 255)]
/-- A request of the thread for entry e. -/
def qA (e : Nat) (w : Bool) : ApplyReq :=
  { tid := some 0x110, entry := e, wait := w, d := 3, owner := 0, sec := false, start := 17, starter := 0 }
def sReq (p : Partition) : State :=
  { sOf tA with parts := [(0, p)], shares := [((0, 0), callTable)], arb := { owners := [(0, { live := true })] } }
def sPlace (q : ApplyReq) : State := sReq { placedPartition with applies := [q] }
/-- What reading a request's tree and reserving it give, as codes, 0 for neither's refusal. -/
def readCode (q : ApplyReq) : Nat :=
  match (sPlace q).readTree 0 q 8 [] none 0 q.entry [] with
  | .ok _ => 0
  | .error c => c
def reserveCode (q : ApplyReq) : Option Nat :=
  match (sPlace q).readTree 0 q 8 [] none 0 q.entry [] with
  | .ok tree => match (sPlace q).reserve 0 { q with tree := tree } with
    | .ok (s1, _) => if s1.placing 0 = (sPlace q).placing 0 then some 0 else none
    | .error c => some c
  | .error _ => none
/-- The nest of the thread in record 0. -/
def nA (done : Bool) : Nest := { record := 0, applier := some 0x110, owner := 0, sec := false, nodes := [], complete := done }
/-- A LOOP at the root of a nest over a LEAF, its verdict at 0x10008. -/
def nLoop : Nest :=
  { nA false with verdicts := [0], nodes := [{ parent := none, entry := 0, words := [7, 0, 0, 0x10008], children := [1] },
      { parent := some 0, entry := 1, words := [1] }] }
def sLoop (v : List (Nat × Byte)) : State :=
  { sOf tA with parts := [(0, { placedPartition with nests := [nLoop] })], cores := [(31, kPage 17)], hbm := v }

theorem witness_NestForms : let s := sPlace (qA 0 false)
    s.thread s.cur = some tA ∧ tA.pcntC = 0 ∧ (qA 0 false).tid = some 0x110 ∧ readCode (qA 1 false) = 5 ∧ readCode (qA 0 false) = 0 ∧
    reserveCode (qA 0 false) = some 0 ∧ ((reserveCode (qA 2 false)).getD 0 ≠ 0) ∧ (reserveCode (qA 2 true)).getD 0 ≠ 0 ∧
    placedPartition.released = false ∧ s.pendingTo s.cur (.pantry (s.placing 0)) = false ∧ s.readShare 0 0 (128 * 1) 8 % 8 = 0 ∧
    s.readShare 0 0 0 8 % 8 ≠ 0 ∧ s.nestAt 0 17 (tA.rd 1) = none ∧
    (∀ b ∈ [true, false], (sReq { placedPartition with nests := [nA b] }).nestAt 0 17 0xC300000000080000 = some (nA b)) := by
  decide +kernel

theorem witness_NestForms_verdict : let s := sLoop []
    (∀ b ∈ [[], [((0x20008, 5) : Nat × Byte)]], (sLoop b).nest 0 0 = some nLoop ∧ ((sLoop b).core 17).frozen = false) ∧
    (s.placerLoad 0 false 0x10008).toOption = some ((pageAt 17).leaf, 0) ∧
    ((sLoop [(0x20008, 5)]).placerLoad 0 false 0x10008).toOption = some ((pageAt 17).leaf, 5) ∧ nLoop.verdicts = [0] ∧
    nLoop.failed = 0 ∧ nLoop.joiners = [] ∧ nLoop.host = none ∧ nLoop.applier ≠ none ∧
    nLoop.nodes[0]? = some { parent := none, entry := 0, words := [7, 0, 0, 0x10008], children := [1] } ∧
    nLoop.nodes[1]? = some { parent := some 0, entry := 1, words := [1] } := by decide +kernel

/-- A thread of a coroutine with two live queues, 1 holding an item. -/
def tCoro : Thread :=
  { tA with team := some ⟨0, 0, 0, 0, 1, 0, 0, 0, 0xC200000000160040, 0xC200000000160000, true⟩ }
def pCoro : Partition :=
  { placedPartition with
    queues := [(0, { live := true, depth := 2 }), (1, { live := true, depth := 2, items := [9], senders := [0x111] })]
    nests := [{ nA false with nodes := [{ parent := none, entry := 0, words := [2], queues := [0, 1] }] }] }

theorem witness_ThreadForms : let s := sOf tA
    let c : State := { sOf tCoro with parts := [(0, pCoro)] }
    s.thread s.cur = some tA ∧ s.part 0 = some placedPartition ∧ placedPartition.worker 7 = false ∧ placedPartition.worker 18 = true ∧
    tA.pcnt (ctrFor 17 18) < 1024 ∧ slotOf s.cur ≠ 15 ∧ slotOf 0x11F = 15 ∧ tA.poison = [] ∧ tA.team = none ∧ tA.pop = none ∧
    s.vbusy s.cur = false ∧ (s.core 17).mq = [] ∧ (s.core 17).handlers = [] ∧
    (tCoro.team.map fun r => (r.coro, c.queueAt 0 17 r.outq, c.queueAt 0 17 r.inq)) = some (true, some 0, some 1) ∧
    (c.queue 0 0).closed = false ∧ (c.queue 0 0).items.length < (c.queue 0 0).depth ∧ (c.queue 0 1).items = 9 :: [] ∧
    (((c.nestAt 0 17 0xC300000000080000).bind fun n => n.nodes.head?).map fun x => (x.words.getD 0 0 % 8, x.queues)) =
      some (2, [0, 1]) ∧ ((s.nestAt 0 17 (tA.rd 1)).bind fun n => n.nodes.head?) = none := by decide +kernel

/-- Two ready threads on core 17 while the other cores of its cluster have none. -/
def sTwo : State := { sOf tA with threads := [(0x110, tA), (0x111, tA)], cc := 128 }

theorem witness_ThreadForms_balance : let on : Partition := { placedPartition with balancing := true }
    let b : State := { sTwo with parts := [(0, on)] }
    sTwo.cc % 128 = 0 ∧ sTwo.balanceTo 17 = some 16 ∧ (sOf tA).balanceTo 17 = none ∧ sTwo.balanceDue 17 = true ∧
    ({ sTwo with cores := [(17, { lastBal := some 50 })] } : State).balanceDue 17 = false ∧ sTwo.heavy 0x110 = false ∧
    (sCore tA kVec).heavy 0x110 = true ∧ b.onCore 17 = (0x110, tA) :: [(0x111, tA)] ∧
    (b.parts.any fun p => p.2.hasCore 17 && p.2.balancing) = true ∧ (b.cc - (b.core 17).base) % 32 = 0 ∧ b.balanceTo 17 = some 16 ∧
    b.ready 0x110 tA = true ∧ b.threadShed 0x110 tA = 0 := by decide +kernel

/-- A core samples TIME at most 2 ns late, whatever its lag and its phase are. -/
theorem lag_two {s : State} {c : Nat} : s.time - 2 ≤ s.timeAt c := by
  have := Nat.mod_lt (Config.timeLag c) (by decide : 2 > 0)
  unfold State.timeAt
  split <;> omega

theorem witness_ThreadForms_sleep : let t : Thread := { tA with block := .sleep 40 3 }
    let two : State := { sOf tA with threads := [(0x110, tA), (0x111, t)] }
    tA.ep = false ∧ ({ tA with ep := true } : Thread).ep = true ∧ placedPartition.hasCore 0 = false ∧ placedPartition.hasCore 18 = true ∧
    coreOf 0x120 = 18 ∧ coreOf 0x111 = 17 ∧ two.thread 0x111 = some t ∧ t.block = .sleep 40 3 ∧ (40 : Word).toNat ≤ two.timeAt 17 ∧
    (two.timeAt 17 < (99 : Word).toNat) ∧ (sOf tA).thread 0x110 = some tA := by
  refine ⟨rfl, rfl, by decide +kernel, by decide +kernel, rfl, rfl, by decide +kernel, rfl, ?_, ?_, by decide +kernel⟩
  · exact Nat.le_trans (by decide) lag_two
  · exact Nat.lt_of_le_of_lt (Nat.le_trans (Nat.sub_le _ _) (Nat.sub_le _ _)) (by decide)

/-- A thread that is parked with fault record 3, and its record's verdict. -/
def sPark (v : Byte) : State :=
  { sOf { tA with block := .parked 3 } with parts := [(0, { placedPartition with faults := [(3, 0x110)] })],
                                            shares := [((0, 0), if v = 0 then [] else [(0xC0180, v)])] }

theorem witness_FaultsResolved : let t : Thread := { tA with block := .parked 3 }
    let p : Partition := { placedPartition with faults := [(3, 0x110)] }
    let d : State := { sOf tA with threads := [(0x1F0, tA)] }
    p.faults.look 3 = some 0x110 ∧ p.faultWait = [] ∧ t.block = .parked 3 ∧
    (∀ v ∈ [(0 : Nat), 1, 2, 3], let s := sPark (BitVec.ofNat 8 v)
      s.part 0 = some p ∧ s.thread 0x110 = some t ∧ (s.core 17).lost = false ∧
      BitVec.ofNat 64 ((s.mem (.share 0 p.placing)).read (0xC0000 + 128 * 3) 8) = BitVec.ofNat 64 v) ∧
    ({ t with trap := { tvec := 4 } } : Thread).handler ≠ 0 ∧ t.ut = false ∧ t.team = none ∧ t.pop = none ∧ slotOf 0x110 ≠ 15 ∧
    placedPartition.deadRaised = false ∧ d.deadlocked 0 placedPartition = true ∧ d.onCore placedPartition.svc = (0x1F0, tA) :: [] ∧
    (d.workers 0 placedPartition).length < 2 ^ 32 ∧ (sOf tA).deadlocked 0 placedPartition = false ∧
    (sCore tA { frozen := true }).core 17 = { frozen := true } ∧ ((sOf tA).cluster 1).spareUsed = false ∧
    ({ spareUsed := true } : Cluster).spareUsed = true ∧ (sOf tA).onCore 18 = [] ∧ (sOf tA).moving = [] ∧
    ((sOf tA).core 18).lost = false ∧ ((sOf tA).core 18).frozen = false := by decide +kernel

/-- A form on the callable table and one of a coroutine whose request has come to the pantry. -/
theorem witness_NestForms_there : let t := tThere tA (.pantry 0) ⟨.share 0 0, 128⟩ []
    ({ sPlace (qA 0 false) with threads := [(0x110, t)] } : State).thread 0x110 = some t ∧ tA.block.isAwait = false ∧
    (let c := tThere tCoro (.pantry 0) ⟨.share 0 0, 0x160000⟩ []
     let s : State := { sOf c with parts := [(0, pCoro)] }
     s.thread 0x110 = some c ∧ c.pcntC = 0 ∧ c.errC = none ∧ s.queueAt 0 17 0xC200000000160040 = some 1) := by decide +kernel

/-- A DEADLOCK that is pending, for a thread of the service core and for another; a core that loses a slot's state. -/
theorem witness_FaultsResolved_pending : let p : Partition := { placedPartition with deadlock := some 7 }
    let s : State := { sOf tA with parts := [(0, p)], threads := [(0x1F0, tA), (0x110, tA)] }
    s.part 0 = some p ∧ s.thread 0x1F0 = some tA ∧ coreOf 0x1F0 = p.svc ∧ coreOf 0x110 ≠ p.svc ∧ tA.ut = false ∧ p.deadlock = some 7 ∧
    p.deadRaised = false ∧ (sCore tA { frozen := true }).thread (16 * 17 + 0) = some tA ∧ 5 < 4096 ∧ (0 : Nat) < 16 := by decide +kernel

/-- Partition 0 with a crumb store of four slots from 0x10000 on, core 17 its home, which holds the entries given. -/
def pStore (l : List Crumb) : Partition :=
  { placedPartition with store := { en := true, sbase := 1, nslot := 4, homes := [17], ib := 16, crumbs := l } }
/-- The page of its slots, at both the home and the service core, and bytes of HBM. -/
def sStore (l : List Crumb) (m : Memory) : State :=
  { sOf tA with parts := [(0, pStore l)], cores := [(17, kPage 17), (31, kPage 17)], hbm := m }
/-- An entry of a leaf in slot 0. -/
def cA (name count : Nat) : Crumb := ⟨name, 0, 1, 1, count, true⟩

theorem witness_CrumbForms_counts : let off : State := sOf tA
    let ready := fun (s : State) (n : Nat) => (s.store 0).en = true ∧ (n ≠ 0 → s.homeUp ((s.store 0).homeOf n))
    off.thread off.cur = some tA ∧ (off.store 0).en = false ∧
    (ready (sStore [] []) 0 ∧ ((sStore [] []).store 0).liveEntry 0 = none) ∧
    (ready (sStore [cA 0 1] []) 0 ∧ ((sStore [cA 0 1] []).store 0).liveEntry 0 = some (cA 0 1)) ∧
    ready (sStore [] []) 5 ∧ (cA 0 (2 ^ 32 - 1)).count = 2 ^ 32 - 1 ∧ 1 < (cA 0 2).count ∧ (cA 0 2).count < 2 ^ 32 - 1 :=
  ⟨by decide +kernel, rfl, ⟨⟨rfl, fun h => absurd rfl h⟩, rfl⟩, ⟨⟨rfl, fun h => absurd rfl h⟩, rfl⟩, ⟨rfl, fun _ => ⟨rfl, rfl⟩⟩, rfl,
    by decide, by decide⟩

/-- 256 bytes of zeros in own LM, whose name as a leaf is not null; no entry has it, or one has. -/
def zeroName (cls : Nat) : Nat := crumbHash ((sStore [] []).lmWords 8) cls * 256

theorem witness_CrumbForms_put : let s := sStore [] []
    s.window 0 17 (tA.rd 2) = some (.lm 17 8) ∧ 8 + 256 ≤ 2 ^ 18 ∧ (s.core 17).locks = [] ∧ (s.core 17).poisoned = [] ∧
    (∀ c ∈ childNames (s.lmWords 8), c = 0) ∧ zeroName 1 ≠ 0 ∧ zeroName 2 ≠ 0 ∧
    (s.store 0).room ((s.store 0).homeNo (zeroName 1)) = some 0 ∧ s.slotLoc 0 0 = some ⟨.phys 0, 0x20000⟩ ∧
    (pStore [cA (zeroName 1) 1]).store.crumbs.find? (fun x => x.name == zeroName 1) = some (cA (zeroName 1) 1) ∧
    s.slotWords 0 0 = s.lmWords 8 := by decide +kernel

/-- A node whose first child has no entry. -/
theorem witness_CrumbForms_node : let s : State := { sStore [] [] with cores := [(17, { kPage 17 with lm := [(8, 9)] }), (31, kPage 17)] }
    (childNames (s.lmWords 8)).filter (fun c => c != 0) = [9] ∧ (s.store 0).liveEntry 9 = none ∧ (s.store 0).homes = [17] ∧
    (s.core 17).frozen = false ∧ (s.core 17).lost = false := by decide +kernel

/-- A thread with a root cell's address in g1 and the name 5 in g6 and g7. -/
def tRoot : Thread := { tA with g := ((tA.g.set 1 0x10010).set 6 5) }
def sRoot (l : List Crumb) (m : Memory) : State := { sStore l m with threads := [(0x110, tRoot)] }

/-- An access to a page whose home is the thread's own core passes where each check of R124 does. -/
theorem passes_global {s : State} {t : Thread} {va : Word} {n a : Nat} {kind : AccessKind} {w u : Bool} {e : TlbEntry}
    (h1 : s.window t.part (coreOf s.cur) va = some (.global a)) (h2 : va.toNat % n = 0)
    (h3 : s.tlbFind (coreOf s.cur) t.part a = some e) (h4 : (s.looked (coreOf s.cur) t.part a).leafReason t.part t.sec kind e.leaf (a - e.base) = 0)
    (h5 : (s.looked (coreOf s.cur) t.part a).locked .global a n w = false) (h6 : e.leaf.exists_ (a - e.base) = true) (h7 : e.leaf.home = coreOf s.cur) :
    s.passes t va n kind w u (.own ⟨.phys e.leaf.tier, e.leaf.pa + (a - e.base)⟩) := by
  intro k
  simp [State.access, State.translate, State.seen, h1, h2, h3, h4, h5, h6, h7]

theorem passes_root (kw : AccessKind × Bool × Bool) (hk : kw ∈ [(.load, false, true), (.store, true, false)]) (m : Memory)
    (hm : m ∈ [[], [(0x20010, 5)]]) : (sRoot [] m).passes tRoot (tRoot.rd 1) 16 kw.1 kw.2.1 kw.2.2 (.own ⟨.phys 0, 0x20010⟩) := by
  have h : ∀ m ∈ [([] : Memory), [(0x20010, 5)]], ∀ kw ∈ [(AccessKind.load, false, true), (.store, true, false)], let s := sRoot [] m
      s.window tRoot.part (coreOf s.cur) (tRoot.rd 1) = some (.global 0x10010) ∧ (tRoot.rd 1).toNat % 16 = 0 ∧
      s.tlbFind (coreOf s.cur) tRoot.part 0x10010 = some (pageAt 17) ∧
      (s.looked (coreOf s.cur) tRoot.part 0x10010).leafReason tRoot.part tRoot.sec kw.1 (pageAt 17).leaf (0x10010 - (pageAt 17).base) = 0 ∧
      (s.looked (coreOf s.cur) tRoot.part 0x10010).locked .global 0x10010 16 kw.2.1 = false ∧ (pageAt 17).leaf.exists_ (0x10010 - (pageAt 17).base) = true ∧
      (pageAt 17).leaf.home = coreOf s.cur := by decide +kernel
  obtain ⟨h1, h2, h3, h4, h5, h6, h7⟩ := h m hm kw hk
  exact passes_global h1 h2 h3 h4 h5 h6 h7

theorem witness_CrumbForms_root : let l : Loc := ⟨.phys 0, 0x20010⟩
    (sRoot [] []).readLoc l 16 = 0 ∧ (sRoot [] [(0x20010, 5)]).readLoc l 16 = 5 ∧ ((sRoot [] []).store 0).liveEntry 5 = none ∧
    ((sRoot [cA 5 1] []).store 0).liveEntry 5 = some (cA 5 1) ∧ (tRoot.rd 6).toNat + 2 ^ 64 * (tRoot.rd (hiReg 6)).toNat = 5 ∧
    (tRoot.rd 8).toNat + 2 ^ 64 * (tRoot.rd (hiReg 8)).toNat = 0 ∧ ((sRoot [] []).store 0).homes.length ≤ (tA.rd 1).toNat % 8 ∧
    (tRoot.rd 1).toNat % 8 < ((sRoot [] []).store 0).homes.length := by decide +kernel

/-- A home that is frozen, and one that is lost. -/
theorem witness_CrumbForms_home : let s := fun (k : Core) => ({ sRoot [] [] with cores := [(17, k)] } : State)
    ((s { frozen := true }).store 0).homeOf 5 = 17 ∧ ((s { frozen := true }).core 17).frozen = true ∧
    ((s { lost := true }).core 17).frozen = false ∧ ((s { lost := true }).core 17).lost = true ∧ (5 : Nat) ≠ 0 := by decide +kernel

/-- A descriptor with EN set whose region is mapped as crumb-store pages, the same with no index bits, and with EN clear. -/
def sDesc (p : Partition) (w : Memory) : State :=
  { sOf tA with
    parts := [(0, p)]
    cores := [(31, { tlb := [{ pageAt 17 with leaf := { (pageAt 17).leaf with cls := 2 } }] })]
    shares := [((0, 0), w)] }
def descriptor : Memory := [(0x144012, 1), (0x144018, 4), (0x14401F, 0x80), (0x144028, 16), (0x144030, 18)]

theorem witness_CrumbForms_rows : let dying : Crumb := ⟨7, 0, 1, 1, 0, false⟩
    let node : Crumb := ⟨7, 0, 2, 2, 0, false⟩
    let s := sStore [node, ⟨5, 1, 1, 1, 2, true⟩] [(0x20000, 5)]
    placedPartition.store.en = false ∧ (pStore []).store.en = true ∧
    ((sDesc placedPartition descriptor).mem (.share 0 0)).read 0x144018 8 / 2 ^ 63 % 2 = 1 ∧
    ((sDesc placedPartition []).mem (.share 0 0)).read 0x144018 8 / 2 ^ 63 % 2 ≠ 1 ∧
    (sDesc placedPartition descriptor).capture 0 placedPartition = some { en := true, sbase := 1, nslot := 4, homes := [18], ib := 16 } ∧
    (sDesc placedPartition [(0x14401F, 0x80)]).capture 0 placedPartition = none ∧
    (pStore [dying]).store.crumbs[0]? = some dying ∧ dying.live = false ∧ dying.cls = 1 ∧ node.cls = 2 ∧ (cA 5 1).live = true ∧
    (childNames (s.slotWords 0 node.slot)).filter (fun c => c != 0) = [5] ∧ (s.core 17).frozen = false ∧
    (s.store 0).liveEntry 5 = some ⟨5, 1, 1, 1, 2, true⟩ := by decide +kernel

/-- A crumb form whose request has come to its home with the words it carries: none, or 256 bytes of zeros. -/
theorem witness_CrumbForms_there : let t := tThere tA (.home 17) ⟨.lm 17, 8⟩ []
    let ws := List.replicate 32 0
    let s : State := { sStore [cA 0 1] [] with threads := [(0x110, t)] }
    s.thread 0x110 = some t ∧ t.block = .await (.here (.home 17) ⟨.lm 17, 8⟩ [] none) 0 ∧ tA.block.isAwait = false ∧ 8 + 256 ≤ 2 ^ 18 ∧
    8 % 8 = 0 ∧ (0x110 : Nat) < 2 ^ 18 ∧ ws.length = 32 ∧ (∀ w ∈ ws, w < 2 ^ 64) ∧ (∀ c ∈ childNames ws, c = 0) ∧ crumbHash ws 1 * 256 ≠ 0 ∧
    (pStore []).store.crumbs.find? (fun x => x.name == crumbHash ws 1 * 256) = none ∧ s.slotLoc 0 0 = some ⟨.phys 0, 0x20000⟩ ∧
    (childNames (9 :: List.replicate 31 0)).filter (fun c => c != 0) = [9] := by decide +kernel

theorem witness_CrumbForms_there_at : (tThere tA (.home 17) ⟨.lm 17, 8⟩ []).thereAt ⟨.lm 17, 8⟩ [] := ⟨_, _, _, rfl⟩

/-- A root cell at another core's home, and a home that is lost behind a DYING entry. -/
theorem witness_CrumbForms_far : (sCore tRoot (kPage 18)).passes tRoot (tRoot.rd 1) 16 .load false true (.far (.home 18) ⟨.phys 0, 0x20010⟩ 0) ∧
    (sCore tRoot (kPage 18)).passes tRoot (tRoot.rd 1) 16 .store true false (.far (.home 18) ⟨.phys 0, 0x20010⟩ 0) ∧
    ({ sRoot [⟨7, 0, 1, 1, 0, false⟩] [] with cores := [(17, { lost := true })] } : State).homeUp 16 ∧
    (({ sRoot [⟨7, 0, 1, 1, 0, false⟩] [] with cores := [(17, { lost := true })] } : State).core 17).lost = true ∧
    (pStore [⟨7, 0, 1, 1, 0, false⟩]).store.homeOf 7 = 17 := ⟨fun _ => rfl, fun _ => rfl, ⟨rfl, rfl⟩, rfl, rfl⟩

/-- A thread at service privilege with the address of an image in g1, the number of another thread in g6 and of a core in g7, and another
thread of its partition. -/
def tCtx : Thread := { tA with g := ((tA.g.set 1 0xC300000004000000).set 6 0x120).set 7 18 }
def pCtx : Partition := { placedPartition with shares := [(0, 0x400000), (1, 0x400000)] }
def sCtx (u : Thread) (m : Memory) (arb : Arbiter) : State :=
  { sOf tCtx with parts := [(0, pCtx)], threads := [(0x110, tCtx), (0x120, u)], shares := [((0, 1), m)], arb := arb }
/-- An image of a thread whose registers are zero. -/
def image0 : Memory := [(0, 1), (5, 4)]

/-- The range of an image in a pantry window passes where it fits the share. -/
theorem imageRange_pantry {s : State} {t : Thread} {va : Word} {n h off : Nat} {kind : AccessKind} (h1 : bits va 0 10 = 0)
    (h2 : s.window t.part (coreOf s.cur) va = some (.pantry h off)) (h3 : off + n ≤ min (s.shareSize t.part h) (2 ^ 26)) :
    ∀ k, s.imageRange t va n kind k = k := by
  intro k
  simp only [State.imageRange, h1, ne_eq, not_true_eq_false, if_false, h2, if_pos h3]

theorem passes_image_store : ∀ k, (sCtx tA [] {}).imageRange tCtx (tCtx.rd 1) 107520 .store k = k :=
  imageRange_pantry (h := 1) (off := 0) (by decide +kernel) (by decide +kernel) (by decide +kernel)
theorem passes_image_load : ∀ k, (sCtx tA image0 { owners := [(0, { live := true })] }).imageRange tCtx (tCtx.rd 1) 1024 .load k = k :=
  imageRange_pantry (h := 1) (off := 0) (by decide +kernel) (by decide +kernel) (by decide +kernel)

theorem witness_ContextForms_legal : let t : Thread := { tA with g := tA.g.set 0 0 }
    t.priv < 4 ∧ t.part < 2 ^ 7 ∧ t.owner < 2 ^ 8 ∧ t.trap.tcause &&& 0x1FFFF = t.trap.tcause ∧
    t.trap.tvec &&& ~~~3#64 = t.trap.tvec ∧ t.trap.tstat2 &&& 0x2FFFFFFFF = t.trap.tstat2 ∧
    1 ≤ t.fp.vl.toNat ∧ t.fp.vl.toNat ≤ 64 ∧ t.fp.vpos.toNat < 64 ∧ t.fp.frm.toNat < 16 ∧ t.fp.frm.toNat % 8 < 5 ∧
    t.fp.fflags.toNat < 32 ∧ t.mstat &&& 0xFF03FF = t.mstat ∧ t.cp.xlen.toNat < 2 ^ 32 ∧ t.cp.xdim.toNat < 2 ^ 20 ∧
    t.cp.xmask.toNat < 2 ^ 16 ∧ t.stageNo < 8 ∧ ∀ k < 6, t.mat.get k &&& matMask k = t.mat.get k := by decide +kernel

theorem witness_ContextForms_save : let s := sCtx tA [] {}
    let u : Thread := { tA with block := .saving }
    let v := sCtx u [] {}
    s.thread s.cur = some tCtx ∧ tCtx.priv ≠ 0 ∧ tA.priv ≠ 0 ∧ (tCtx.rd 6).toNat % 2 ^ 18 = 0x120 ∧ s.thread 0x120 = some tA ∧
    s.thread 7 = none ∧ tA.part = tCtx.part ∧ (0x120 : Nat) % 16 ≠ 15 ∧ tA.block = .none ∧ tA.stop = .none ∧ s.quiet 0x120 = true ∧
    ({ tA with block := .halted } : Thread).block = .halted ∧ v.thread 0x120 = some u ∧ v.drained 0x120 u = true ∧
    (v.stopWork 0x120).noWork 0x120 = true ∧ v.window 0 17 (tCtx.rd 1) = some (.pantry 1 0) ∧
    107520 ≤ min (v.shareSize 0 1) (2 ^ 26) ∧ (1 : Nat) ≠ v.placing 0 := by decide +kernel

theorem witness_ContextForms_restore : let s := fun (m : Memory) (live : Bool) => sCtx tA m { owners := [(0, { live := live })] }
    let words := fun (n : Nat) => (s image0 true).readImage 17 tCtx (tCtx.rd 1).toNat n
    (((s [] true).readImage 17 tCtx (tCtx.rd 1).toNat 1).getD 0 0).toNat % 256 ≠ 1 ∧ ((words 1).getD 0 0).toNat = 1 + 2 ^ 32 * 1024 ∧
    1024 = imageSize false 0 ∧ imageClean (1 + 2 ^ 32 * 1024) false 0 (words 128) = true ∧
    imageClean (1 + 2 ^ 32 * 1024) false 0 ([1, 0, 0] ++ List.replicate 98 0 ++ [1]) = false ∧
    pCtx.worker 18 = true ∧ pCtx.worker 7 = false ∧ ((s [] true).core 18).frozen = false ∧
    (s image0 false).grantFor 18 (threadOf (words 128) 0) = none ∧ (s image0 true).grantFor 18 (threadOf (words 128) 0) = some 0x121 := by
  decide +kernel

/-- The kernel on the service core of the partition, and a thread of the partition on another core. -/
def sKern : State := { sOf tA with cur := 0x1F0, threads := [(0x1F0, tA), (0x110, tA)] }

theorem witness_ContextForms_reset : let t : Thread := { tA with g := tA.g.set 1 0 }
    sKern.thread sKern.cur = some tA ∧ (t.rd 1).toNat % 2 ^ 7 = t.part ∧ (tA.rd 1).toNat % 2 ^ 7 ≠ tA.part ∧ tA.priv = 1 ∧
    tA.pcntC = 0 ∧ tA.pcntH = 0 ∧ tA.pcntM = 0 ∧ tA.errC = none ∧ tA.errH = none ∧ tA.errM = none ∧ tA.block = .none ∧ sKern.moving = [] ∧
    sKern.part 0 = some placedPartition ∧ coreOf sKern.cur = placedPartition.svc ∧ sKern.part 7 = none := by decide +kernel

/-- A crest to a core that is lost. -/
theorem witness_ContextForms_lost : let s : State := { sCtx tA image0 { owners := [(0, { live := true })] } with cores := [(18, { lost := true })] }
    (s.core 18).lost = true ∧ (s.core 18).frozen = false ∧ pCtx.worker 18 = true := by decide +kernel

/-- A request of another thread of the partition is on its way to the pantry when the kernel resets it. -/
theorem witness_ContextForms_carried : let q : Parcel := { pA (.op 8 true []) 3 with src := 0x110, place := .pantry 0, loc := ⟨.share 0 0, 0x200008⟩ }
    let u : Thread := { tA with block := .reply .request }
    let s : State := { sKern with threads := [(0x1F0, tA), (0x110, u)], parcels := [q] }
    (s.carryOps 0 (fun x => (s.resetThreads 0 placedPartition false).any fun q => q.1 == x) (.await s.cur)).isSome = true ∧
    q.acc.isOp = true ∧ (∀ q ∈ sKern.parcels, q.acc.isOp = false) := by decide +kernel

/-- The debug block of core 17 as given, with the thread, running or stopped, in slot 0. -/
def sDbg (stop : Stop) (d : Debug) : State := sCore { tA with stop := stop } { dbg := d }

theorem witness_DebugForms_retire : let s := fun (on : Bool) (k : Core) => ({ sCore tA k with spEn := on } : State)
    (s false {}).spEn = false ∧ (s true {}).spEn = true ∧ ((s true {}).core 17).marks.length < 4 ∧
    4 ≤ ((s true { marks := List.replicate 4 (0, 0) }).core 17).marks.length ∧ tA.priv ≠ 0 ∧ ((s true {}).core 17).dbg.uread = false ∧
    (tA.rd 1).extractLsb' 7 1 = 0 ∧ (0x80 : Word).extractLsb' 7 1 = 1 ∧ ({ armbrk := true } : Debug).armbrk = true ∧
    ((s true {}).core 17).dbg.armbrk = false := by decide +kernel

theorem witness_DebugForms_stop : let on := sDbg .none { bp := [0xC000000040000000, 0, 0, 0] }
    let off := sDbg .stopped {}
    (off.core 17).dbg.stops.look 0 = none ∧ off.thread 0x110 = some { tA with stop := .stopped } ∧ tA.vrec = [] ∧ tA.mrec = [] ∧
    on.ready 0x110 tA = true ∧ off.ready 0x110 { tA with stop := .stopped } = false ∧
    0xC000000040000000 ∈ (on.core 17).dbg.bp ∧ (0xC000000040000000 : Word).extractLsb' 63 1 = 1 ∧
    (0xC000000040000000 : Word).extractLsb' 62 1 = 1 ∧ (0xC000000040000000 : Word).toNat % 2 ^ 44 = tA.pc.toNat / 4 % 2 ^ 44 ∧
    tA.pc.toNat < 2 ^ 46 ∧ (off.core 17).dbg.bp = [0, 0, 0, 0] ∧ (0 : Word).extractLsb' 63 1 = 0 := by decide +kernel

/-- A breakpoint is due in slot 0, for a thread at a boundary, and none is due where the thread waits or comes later. -/
theorem witness_DebugForms_breakpoint : let on := sDbg .none { bp := [0xC000000040000000, 0, 0, 0] }
    on.thread 0x110 = some { tA with stop := .none } ∧ tA.block = .none ∧ tA.readyAt ≤ on.cc ∧ (on.core 17).ckpt = false ∧
    (on.core 17).frozen = false ∧ (on.core 17).lost = false ∧ on.cc < ({ tA with readyAt := 10 ^ 6 } : Thread).readyAt := by decide +kernel

theorem witness_DebugForms_halt : let off := sDbg .stopped {}
    let halted := sDbg .halted { halt := true, haltAt := 50 }
    (off.core 17).dbg.halt = false ∧ (off.core 17).dbg.held = false ∧
    (halted.core 17).dbg.halt = true ∧ (halted.core 17).dbg.haltAt < halted.cc ∧
    (∀ p ∈ halted.onCore 17, p.2.block ≠ .reply .load) ∧ (halted.core 17).vq = [] ∧ (halted.core 17).mq = [] ∧
    (halted.core 17).latch = none ∧ (halted.core 17).xq = [] ∧ (∀ k ∈ (halted.core 17).chans, k.cur = none) := by decide +kernel

theorem witness_DebugForms_data : let s := fun (sel : Word) => ({ sDbg .stopped { sel := sel } with fw := { ctl := some 2 } } : State)
    (s 1).thread (16 * 17 + 1) = none ∧ (s 0x50000).thread 0x110 = some { tA with stop := .stopped } ∧
    (0x50000 : Word).extractLsb' 31 1 = 0 ∧ (0x50000 : Word).toNat / 2 ^ 16 % 2 ^ 12 = (5 : GReg).val ∧
    (0x200000 : Word).toNat / 2 ^ 16 % 2 ^ 12 = 32 ∧ 32 < (0x210000 : Word).toNat / 2 ^ 16 % 2 ^ 12 ∧ (s 0).fw.ctl = some 2 ∧
    (sOf tA).fw.ctl ≠ some 2 := by decide +kernel

theorem witness_DebugForms_pulse : let s := fun (h : Hearth) (n : Nat) => ({ sOf tA with hearths := [(0, h)], spEn := true, time := n } : State)
    (s {} 50).time / 2 ^ (s {} 50).spP * 2 ^ (s {} 50).spP ≤ (s {} 50).spLast ∧
    (s {} 70000).spLast < (s {} 70000).time / 2 ^ (s {} 70000).spP * 2 ^ (s {} 70000).spP ∧ ((s {} 50).hearth 0).srlen = 0 ∧
    ((((s { srlen := 4096, srrd := 8 } 50).hearth 0).srrd : Int) - 0 - 1) % 4096 < 16 ∧
    16 + 8 * ((s { srlen := 4096 } 50).pulseEntries 0 false).length ≤ ((-1 : Int) % 4096).toNat ∧ 0 + 8 ≤ 4096 := by decide +kernel

/-- A core whose TIME has reached the tick of 2^16 ns, and its hearth. -/
theorem witness_DebugForms_tick : let s : State := { sOf tA with spEn := true, time := 70000 }
    s.spLast < s.timeAt 17 / 2 ^ s.spP * 2 ^ s.spP ∧ (s.core 17).spTick < s.timeAt 17 / 2 ^ s.spP * 2 ^ s.spP ∧
    s.spLast < (s.time - 2) / 2 ^ s.spP * 2 ^ s.spP ∧ (s.hearth 0).spDone < (s.time - 2) / 2 ^ s.spP * 2 ^ s.spP ∧
    (sOf tA).timeAt 17 / 2 ^ (sOf tA).spP * 2 ^ (sOf tA).spP ≤ (sOf tA).spLast := by
  have h := lag_two (s := { sOf tA with spEn := true, time := 70000 }) (c := 17)
  have g : (sOf tA).timeAt 17 ≤ 50 := Nat.le_trans (Nat.sub_le _ _) (Nat.sub_le _ _)
  have h : 69998 ≤ ({ sOf tA with spEn := true, time := 70000 } : State).timeAt 17 := h
  show 0 < ({ sOf tA with spEn := true, time := 70000 } : State).timeAt 17 / 65536 * 65536 ∧
    0 < ({ sOf tA with spEn := true, time := 70000 } : State).timeAt 17 / 65536 * 65536 ∧ 0 < (70000 - 2) / 65536 * 65536 ∧
    0 < (70000 - 2) / 65536 * 65536 ∧ (sOf tA).timeAt 17 / 65536 * 65536 ≤ 0
  omega

theorem witness_DebugForms_cells : let cell : Cell := { cfg := 0xC0008000, run := 3 }
    let s := sDbg .none { cells := cell :: List.replicate 15 {} }
    (s.core 17).dbg.cells[0]? = some cell ∧ (s.core 17).dbg.cells.length = 16 ∧ (s.core 17).dbg.bp.length = 4 ∧
    cell.cfg.extractLsb' 15 1 = 1 ∧ cell.cfg.toNat / 2 ^ 30 % 4 = 3 ∧ s.cellE 17 0 cell = false ∧ cell.run ≠ 0 ∧
    ({} : Cell).cfg.extractLsb' 15 1 = 0 ∧ 17 < 16384 ∧ (s.threads.map Prod.fst).Nodup ∧
    s.thread (16 * 17 + 0) = some tA ∧ s.thread (16 * 17 + 1) = none := by decide +kernel

/-- The host 2 controls, and function 1 of partition 0 runs or not. -/
def sHost (run : Bool) (p : Partition) : State :=
  { sOf tA with parts := [(0, p)], fw := { ctl := some 2, hosts := [2, 3], vfs := [(1, { vcpaddr := 0x1000, run := run })] } }

theorem witness_HostRegisters : let s := sHost true placedPartition
    s.fw.ctl = some 2 ∧ (3 : Nat) ∈ s.fw.hosts ∧ (4 : Nat) ≠ 2 ∧ (4 : Nat) ∉ s.fw.hosts ∧
    ({ s.fw with lossAt := some 5 } : Firmware).lossAt = some 5 ∧ 5 + 100000000 ≤ ({ s with time := 100000005 } : State).time ∧
    s.time < 5 + 100000000 ∧ s.fw.lossAt = none ∧ s.fw.boot ≠ 3 ∧ ({ boot := 3 } : Firmware).boot = 3 ∧ (s.fw.fn 1).run = true ∧
    ((sHost false placedPartition).fw.fn 1).run = false ∧ 64512 ≤ (0xFFFF : BitVec 16).toNat ∧
    63 < ((64 : BitVec 16).toNat + 64512 - (s.fw.fn 1).cidx) % 64512 ∧ (63 + 64512 - (s.fw.fn 1).cidx) % 64512 ≤ 63 ∧
    (63 : BitVec 16).toNat ≠ (s.fw.fn 1).cidx ∧ s.hostLost = false ∧
    ({ s with host := [((s.fw.fn 1).slot, 3)] } : State).host.read (s.fw.fn 1).slot 8 % 256 = 3 ∧ s.part 0 = some placedPartition ∧
    placedPartition.flock = true ∧ ({ placedPartition with flock := false } : Partition).flock = false ∧ (s.fw.fn 1).cidx < 64512 ∧
    placedPartition.svc < 2 ^ 14 ∧ placedPartition.clusters.length < 2 ^ 10 ∧ (sOf tA).fw.ctl = none ∧
    tableFormed s.fw.flashA s.fw.version = false ∧ tableFormed s.fw.flashB s.fw.version = false := by decide +kernel

/-- A range of the HDM range whose first granule is exported to the host and whose second is not. -/
theorem witness_HostRegisters_hdm : let s : State := { parts := [], fw := { exports := [(0, 2)] } }
    let a := 2 ^ 21 - 1
    a + 2 ≤ hbmSize ∧ (s.fw.exports.contains ((a + 0) / 2 ^ 21, 2) = true ∧ s.secureAt a = false) ∧
    s.fw.exports.contains ((a + 1) / 2 ^ 21, 2) = false := by decide +kernel

/-- What `State.holdsCommand` asks, as a test. -/
def commandAt (s : State) (fn : Nat) (d : List Nat) : Bool :=
  let v := s.fw.fn fn
  v.run && decide (v.cidx < 64512) && decide (v.pidx = (v.cidx + 1) % 64512) && decide (v.opened = []) && !s.hostLost &&
    decide (d.length = 8) && (List.range 8).all fun k => s.host.read (v.slot + 8 * k) 8 == d.getD k 0

theorem holds_commandAt {s : State} {fn : Nat} {d : List Nat} (h : commandAt s fn d = true) : s.holdsCommand fn d := by
  simp only [commandAt, Bool.and_eq_true, decide_eq_true_eq, Bool.not_eq_true', List.all_eq_true, List.mem_range,
    beq_iff_eq] at h
  obtain ⟨⟨⟨⟨⟨⟨h1, h2⟩, h3⟩, h4⟩, h5⟩, h6⟩, h7⟩ := h
  exact ⟨h1, h2, h3, h4, h5, h6, h7⟩

/-- Doublewords of host memory from an address on. -/
def putWords (a : Nat) : List Nat → Memory → Memory
  | [], m => m
  | v :: l, m => putWords (a + 8) l (m.write a 8 v)

/-- Function 1 of partition 0, and the physical function, each with the command d to read; host memory has m besides. -/
def sCmd (p : Partition) (d : List Nat) (m : Memory) : State :=
  let v : VF := { vcpaddr := 0x1000, run := true, pidx := 1 }
  { sOf tA with parts := [(0, p)], host := putWords 0x1040 d m, fw := { vfs := [(1, v)], pf := v },
                arb := { owners := [(0, { live := true })] } }

/-- LAUNCH of quota threads of owner 0 on core 1 of the partition. -/
def launchOf (quota : Nat) : List Nat := [1, 0x100000400, 1 + 2 ^ 16 + quota * 2 ^ 32, 0, 0, 0, 0, 0]

/-- The commands of a partition's function that the witnesses below take. -/
def commands : List (List Nat) :=
  [launchOf 0, launchOf 2, [2, 0, 0, 0, 0, 0, 0, 0], [3, 5, 0, 0, 0, 0, 0, 0], [4, 0x10000, 0x20000, 64, 0, 0, 0, 0],
    [4, 0x10000, 0x20000, 6, 0, 0, 0, 0], [5, 0, 0x110, 0, 0, 0, 0, 0], [5, 0, 0, 0, 0, 0, 0, 0], [5, 1, 5, 1, 0, 0, 0, 0],
    [5, 1, 63, 1, 0, 0, 0, 0], [5, 2, 0xC300000000200000, 9, 0, 0, 0, 0], [5, 2, 0x10008, 9, 0, 0, 0, 0], [5, 2, 1, 9, 0, 0, 0, 0],
    [6, 0xC300000000200000, 9, 0, 0, 0, 0, 0], [7, 1, 0, 0, 0, 0, 0, 0], [8, 0, 0, 0, 0, 0, 0, 0]]

theorem witness_HostCommands_held : ∀ d ∈ commands, ∀ f ∈ [true, false],
    (sCmd { placedPartition with flock := f } d []).holdsCommand 1 d := by
  have h : ∀ d ∈ commands, ∀ f ∈ [true, false], commandAt (sCmd { placedPartition with flock := f } d []) 1 d = true := by decide +kernel
  exact fun d hd f hf => holds_commandAt (h d hd f hf)

theorem witness_HostCommands : let s := sCmd placedPartition (launchOf 2) []
    s.part 0 = some placedPartition ∧ s.fw.copies = [] ∧ s.fw.ckpts = [] ∧ s.fw.boot ≠ 3 ∧ placedPartition.coreList[1]? = some 17 ∧
    2 ≤ (s.popSlots 17).length ∧ s.canMeter 17 0 = true ∧ (s.core 17).lost = false ∧ ({ s with arb := {} } : State).canMeter 17 0 = false ∧
    64 % 4 = 0 ∧ 6 % 4 ≠ 0 ∧ placedPartition.hasCore (coreOf 0x110) = true ∧ placedPartition.hasCore (coreOf 0) = false ∧
    placedPartition.coreList[99]? = none ∧ s.firmwareBusy 0 = false ∧
    ({ s with parcels := [{ pA (.store 8 5) 3 with src := firmwareSrc 0 }] } : State).firmwareBusy 0 = true ∧
    (s.hostTarget 0 placedPartition 0xC300000000200000 .store).toOption = some (.pantry 0, ⟨.share 0 0, 0x200000⟩) ∧
    (s.hostTarget 0 placedPartition 0x10008 .store).toOption = none ∧ wcondOf? 0 = some .eq ∧
    placedPartition.facc.extractLsb' 4 1 = 1 ∧ (1 : Word).extractLsb' 4 1 = 0 ∧ lowestFree (placedPartition.wakes.map Prod.fst) 0 16 = some 0 ∧
    lowestFree (numsFrom 0 16) 0 16 = none ∧ s.waiters = [] ∧ placedPartition.svc < 16384 ∧ s.moving = [] := by decide +kernel

theorem witness_HostCommands_untranslated : ∃ r, (sCmd placedPartition [] []).hostTarget 0 placedPartition 0x10008 .store =
    .error (some r) := by
  have h : (match (sCmd placedPartition [] []).hostTarget 0 placedPartition 0x10008 .store with
    | .error (some _) => true
    | _ => false) = true := by decide +kernel
  revert h
  cases (sCmd placedPartition [] []).hostTarget 0 placedPartition 0x10008 .store with
  | ok a => intro h; cases h
  | error r => cases r with
    | none => intro h; cases h
    | some r => exact fun _ => ⟨r, rfl⟩

/-- A copy in progress, and an armed wake whose condition has held or not. -/
theorem witness_HostCommands_open : let w : HostWake := ⟨0x1040, 4⟩
    let x : HostCopy := { part := 0, w := w, src := 0x10000, dst := 0x20000, len := 128, srcHost := true, dstHost := true }
    let s : State := { sCmd placedPartition [] [] with fw := { vfs := [(1, { opened := [(w, none)] })], copies := [x] } }
    let p : Partition := { placedPartition with wakes := [(0, w)] }
    let k : Waiter := { who := .host 0 0, part := 0, place := .pantry 0, loc := ⟨.share 0 0, 0x200000⟩, cond := .eq, operand := 9 }
    s.fw.copies = [x] ∧ x.part = 0 ∧ (s.fw.fn (0 + 1)).opened = [(x.w, none)] ∧ x.moved < x.len ∧
    x.moved + min (x.len - x.moved) (min (64 - (x.src + BitVec.ofNat 64 x.moved).toNat % 64) (64 - (x.dst + BitVec.ofNat 64 x.moved).toNat % 64)) < x.len ∧
    ({ x with moved := 64 } : HostCopy).moved + 64 = x.len ∧ x.flight = none ∧
    ({ x with flight := some (List.replicate 64 7) } : HostCopy).flight = some (List.replicate 64 7) ∧ (List.replicate 64 7).length = 64 ∧
    (∀ k ∈ List.replicate 64 7, k < 256) ∧ p.wakes.look 0 = some w ∧ k.who = .host 0 0 ∧ k.refused = false ∧
    k.fired = none ∧ ({ k with fired := some 9 } : Waiter).fired = some 9 := by decide +kernel

/-- A second COPY behind one that moves bytes, and a request of the partition that is carried before a reset. -/
theorem witness_HostCommands_second : let w : HostWake := ⟨0x2000, 4⟩
    let x : HostCopy := { part := 0, w := w, src := 0x10000, dst := 0x20000, len := 128, srcHost := true, dstHost := true }
    let s : State := { sCmd placedPartition [4, 0x10000, 0x20000, 64, 0, 0, 0, 0] [] with threads := [] }
    let s : State := { s with fw := { s.fw with copies := [x] } }
    let s1 := s.copyStep placedPartition x
    s.part 0 = some placedPartition ∧ s.fw.copies = [x] ∧ s1.part 0 = some placedPartition ∧ s1.hostLost = false ∧
    ((s1.head 1).map fun c => (c.op, c.arg 0 % 2 ^ 15, (List.range 3).map fun k => c.arg (4 + k))) = some (4, 4, [0, 0, 0]) := by
  decide +kernel

theorem witness_HostCommands_carried : let q : Parcel := { pA (.op 8 true []) 3 with src := 0x110, place := .pantry 0, loc := ⟨.share 0 0, 0x200008⟩ }
    let u : Thread := { tA with block := .reply .request }
    let s : State := { sOf u with parcels := [q] }
    (s.carryOps 0 (fun x => match s.thread x with
      | some t => t.part == 0
      | none => false) (.again 0 0)).isSome = true ∧ (∀ q ∈ (sOf tA).parcels, q.acc.isOp = false) := by decide +kernel

/-- A line of host memory in an L1. -/
theorem witness_HostRegisters_snoop : let l : Line := { tier := 2, pa := 0x10000, pages := [(0, 0x10000, 2 ^ 16)] }
    l ∈ ((sCore tA { l1 := [l] }).core 17).l1 ∧ l.pa = 0x10020 / 64 * 64 ∧ l.pa ≠ 0x10040 / 64 * 64 := by decide +kernel

/-- Host memory with a mask of clusters at 0x2000 and a table of shares, 4 MiB in hearth 0, at 0x3000. -/
def tables (mask : Byte) : Memory := [(0x2000, mask), (0x3000, 4)]
def moduleCommands : List (List Nat) :=
  [[0x10, 5, 0x2000, 0, 0x100000400, 0, 0x3000, 0], [0x10, 0, 0x2000, 0, 0x100000400, 0, 0x3000, 0], [0x12, 0, 0, 0, 0, 0, 0, 0],
    [0x12, 5, 0, 0, 0, 0, 0, 0], [0x11, 0, 0x2000, 0, 0, 0, 0, 0], [0x13, 0, 0x2000, 0, 0, 0, 0, 0], [0x14, 1, 0, 0, 0, 0, 0, 0],
    [0x15, 1, 0, 0, 0, 0, 0, 0]]

theorem witness_ModuleCommands_held : ∀ d ∈ moduleCommands, (sCmd placedPartition d (tables 10)).holdsCommand 0 d := by
  have h : ∀ d ∈ moduleCommands, commandAt (sCmd placedPartition d (tables 10)) 0 d = true := by decide +kernel
  exact fun d hd => holds_commandAt (h d hd)

theorem witness_ModuleCommands_partitions : let s := sCmd placedPartition [0x10, 5, 0x2000, 0, 0x100000400, 0, 0x3000, 0] [(0x2008, 1), (0x3008, 4)]
    s.fw.boot ≠ 3 ∧ s.maskClusters 0x2000 = [64] ∧ s.part 5 = none ∧ s.clustersFree 5 [64] = true ∧
    s.sharesOk 5 [64] (s.shareTable 0x3000) = true ∧ s.part 0 = some placedPartition ∧ s.moving = [] := by decide +kernel

theorem witness_ModuleCommands_resize : let s := sCmd placedPartition [0x11, 0, 0x2000, 0, 0, 0, 0, 0] (tables 10)
    let w : HostWake := ⟨0x1040, 0x11⟩
    let x : Resize := { part := 0, w := w, clusters := [1], shares := [(0, 0x400000)], start := 0, low := 0 }
    let r : State := { s with fw := { pf := { opened := [(w, none)] }, resizes := [x] }, parts := [(0, { placedPartition with clusters := [1, 3] })], threads := [] }
    s.fw.resizes = [] ∧ s.maskClusters 0x2000 = [1, 3] ∧ [1, 3].head? = some (clusterOf placedPartition.svc) ∧
    s.clustersFree 0 [1, 3] = true ∧ [3].head? ≠ some (clusterOf placedPartition.svc) ∧ r.fw.resizes = [x] ∧ (r.fw.fn 0).run = false ∧ x.images = 0 ∧
    (r.fw.fn 0).opened = [(x.w, none)] ∧ r.threads = [] ∧ r.cores = [] := by decide +kernel

/-- A resize that has not ended after 10 ms, with a thread that is leaving a removed core. -/
theorem witness_ModuleCommands_busy : let w : HostWake := ⟨0x1040, 0x11⟩
    let x : Resize := { part := 0, w := w, clusters := [1], shares := [(0, 0x400000)], start := 0, low := 0 }
    let u : Thread := { tA with block := .saving }
    let r : State := { sOf tA with
      fw := { pf := { opened := [(w, none)] }, resizes := [x] }, parts := [(0, { placedPartition with clusters := [1, 3] })]
      threads := [(0x300, u)], time := 10 ^ 7 }
    r.fw.resizes = [x] ∧ x.images = 0 ∧ (r.fw.fn 0).opened = [(x.w, none)] ∧ (r.fw.fn 0).run = false ∧
    clusterOf (coreOf 0x300) ∈ [1, 3] ∧ clusterOf (coreOf 0x300) ∉ x.clusters ∧ r.onCore (coreOf 0x300) ≠ [] ∧
    x.start + 10 ^ 7 ≤ r.time ∧ r.thread 0x300 = some u ∧ u.block = .saving ∧ r.savedBy 0x300 = false := by decide +kernel

theorem witness_ModuleCommands_rest : let s := sCmd placedPartition [] []
    let w : HostWake := ⟨0x1040, 0x13⟩
    let x : CkptReq := { fn := 1, w := w, slot := 1, halt := false, parts := [0] }
    s.arb.relay = [] ∧ s.arb.ucfg = [] ∧ ({ s.arb with relay := (.host w, 1, 0) :: [] } : Arbiter).relay = (.host w, 1, 0) :: [] ∧
    ({ s with cores := [(17, {})] } : State).appliedTo 1 = false ∧ s.appliedTo 0 = true ∧ s.fw.ckpts = [] ∧ x.fn = 1 ∧ x.slot < 2 ∧ x.parts = [0] ∧
    s.ckptDrained 0 = true ∧ ({ s with threads := [(0x110, { tA with pcntC := 1 })] } : State).ckptDrained 0 = false ∧
    (s.fw.slots.getD 1 {}).valid = false ∧
    (let v : CkptSlot := { valid := true, parts := [(0, placedPartition)], lms := [(17, [(8, 1)])] }
     v.valid = true ∧ s.slotMatches v = true ∧ (v.lms.map Prod.fst).Nodup) ∧
    s.slotMatches { valid := true, parts := [(5, placedPartition)] } = false := by decide +kernel

/-- Module m of the pod, whose link 1 is as given. -/
def sMod (m : Nat) (x : Link) : State :=
  { sOf tA with modId := m, links := [{}, x, {}, {}, {}, {}] }

theorem witness_TimeAcrossAPod : let x : Link := { up := true, high := some 0 }
    let s : State := { sMod 1 x with parts := [], time := 2 ^ 21, ns := 2 ^ 20 }
    let L := fun (v : Word) => (v.toNat % 2 ^ 48 + (s.links.getD 1 {}).delay) % 2 ^ 48
    let ahead := fun (n : Nat) => (n + 2 ^ 48 - s.time % 2 ^ 48) % 2 ^ 48
    s.links[1]? = some x ∧ x.up = true ∧ x.lowAt + 2 ^ 10 ≤ s.ns ∧ x.highAt + 2 ^ 20 ≤ s.ns ∧ (sMod 1 x).ns < x.lowAt + 2 ^ 10 ∧
    (0x7000000000000005 : Word).toNat / 2 ^ 60 = 7 ∧ (0x3000000000200010 : Word).toNat / 2 ^ 60 = 3 ∧ s.modId ≠ s.master ∧
    (s.hop s.modId s.master).map Prod.fst = some 1 ∧ s.timeSet = false ∧ s.parts = [] ∧ (s.links.getD 1 {}).high = some 0 ∧
    (sMod 1 x).parts ≠ [] ∧ ({ s with timeSet := true } : State).timeSet = true ∧ s.timeAdj + 64 ≤ s.time ∧
    ahead (L 0x3000000000200010) = 16 ∧ ahead (L 0x3000000000200000) = 0 ∧ 2 ^ 47 ≤ ahead (L 0x30000000001FFFF0) := by decide +kernel

/-- A location in an LM, and one in HBM for the completion doubleword. -/
theorem witness_NetworkMessages_end : let s : State := { sOf tA with cores := [(0, kPage 17)] }
    let l : Loc := ⟨.lm 17, 56⟩
    (s.unitLoc 0 17 .store ((0xC000000000000008 : Word).toNat + 48)).toOption = some l ∧ (1 : Nat) < 2 ^ 63 ∧ (0x10010 : Word) ≠ 0 ∧
    ((s.writeLoc l 8 (2 ^ 63 + 1)).unitLoc 0 17 .store (0x10010 : Word).toNat).toOption = some ⟨.phys 0, 0x20010⟩ ∧
    Space.phys 0 ≠ Space.lm 17 := by decide +kernel

/-- Endpoint 0 of partition 0 on core 17: its flags, a buffer of 64 bytes at 0x100 of that core's LM, queue 0, every module allowed. -/
def endpoint0 (flags : Byte) : Memory :=
  [(0x150000, 17), (0x150007, flags), (0x150009, 1), (0x15000F, 0xC0), (0x150010, 64), (0x150022, 0x16), (0x150027, 0xC2),
    (0x15002A, 0xFF), (0x15002B, 0x0F)]

/-- Module 1 with that endpoint, a descriptor at 8 of the LM of core 17 in its queue. -/
def sNet (flags : Byte) (desc : Memory) : State :=
  { sMod 1 { up := true } with
    shares := [((0, 0), endpoint0 flags)]
    cores := [(17, { lm := desc })]
    parts := [(0, { placedPartition with queues := [(0, { live := true, depth := 2, items := [0xC000000000000008], senders := [0x110] })] })] }

/-- 64 bytes from 0x100 of the LM; the same with no source; with SIGF and no bytes; and with a word that must be zero. -/
def descOk : Memory := [(17, 1), (23, 0xC0), (24, 64)]
def descNone : Memory := [(24, 64)]
def descSig : Memory := [(48, 1)]
def descBad : Memory := [(17, 1), (23, 0xC0), (24, 64), (64, 1)]

/-- The descriptor that the unit takes, with the result of reading the source: whether it succeeds. -/
def takes (m : Memory) : Option (Word × List Byte × Bool × Bool) :=
  match (sNet 0x80 m).qPop 0 0 with
  | none => none
  | some (va, s1) =>
    match s1.unitLoc 0 17 .store va.toNat, s1.unitBytes 0 17 va.toNat 64 with
    | .ok _, .ok b => some (va, b, (s1.unitBytes 0 17 (leBytes b 8 8) (leBytes b 16 4)).toBool, s1.time == (sNet 0x80 m).time)
    | _, _ => none

theorem witness_NetworkMessages_descriptor : let s := sNet 0x80 descOk
    let x := s.endpoint 0 0
    let w := fun (m : Memory) (k : Nat) => ((takes m).map fun r => leBytes r.2.1 (8 * k) 8).getD 99
    x.v = true ∧ x.trig = false ∧ x.txq ≠ 0 ∧ ((sNet 0 descOk).endpoint 0 0).v = false ∧ s.queueAt 0 placedPartition.svc x.txq = some 0 ∧
    (takes descOk).map (fun r => (r.1, r.2.2)) = some (0xC000000000000008, true, true) ∧
    (takes descNone).map (fun r => r.2.2.1) = some false ∧ (takes descBad).map (fun r => r.2.2.1) = some true ∧
    w descOk 0 / 2 ^ 12 = 0 ∧ w descOk 2 = 64 ∧ w descOk 3 = 0 ∧ w descOk 5 = 0 ∧ w descOk 7 = 0 ∧ w descSig 5 = 1 ∧ w descSig 2 = 0 ∧
    w descBad 7 = 1 ∧ (s.hop s.modId 0).map Prod.fst = some 1 ∧ s.links[1]? = some { up := true } := by decide +kernel

theorem witness_NetworkMessages_packets : let s := sNet 0x80 []
    let t := sNet 0xC0 []
    let m : Message := { sending := false, id := 5, peer := 2, part := 0, ep := 0, len := 8, tag := 0, roff := 0, placed := [(0, 4)] }
    (2 : Nat) ≠ s.modId ∧ [1, 2, 3, (4 : Byte)].length % 4 = 0 ∧ (2, 5) ∉ s.heard ∧
    (s.msgs.find? fun y => !y.sending && y.peer == 2 && y.id == 5) = none ∧
    (({ s with msgs := [m] } : State).msgs.find? fun y => !y.sending && y.peer == 2 && y.id == 5) = some m ∧
    s.endpointOk 2 0 0 = true ∧ s.endpointOk 2 0 1 = false ∧ (s.endpoint 0 0).blen = 64 ∧ t.endpointOk 2 0 0 = true ∧
    (t.endpoint 0 0).trig = true ∧ (s.endpoint 0 0).core = 17 ∧ placedPartition.hasCore 17 = true ∧
    (∀ i < 1, (s.unitLoc 0 17 .store ((s.endpoint 0 0).buf.toNat + 0 + 0 + 4 * i)).toOption = some ⟨.lm 17, 0x100 + 4 * i⟩) := by
  decide +kernel

theorem witness_NetworkMessages_reports : let m : Message := { sending := true, id := 5, peer := 2, part := 0, ep := 0, len := 8, tag := 0, roff := 0 }
    let s : State := { sMod 1 {} with msgs := [m] }
    s.sentMsg 5 = some m ∧ s.sentMsg 6 = none ∧ m.peer ≠ s.modId ∧ ({ m with peer := 1 } : Message).peer = s.modId ∧
    ({ m with code := some 1 } : Message).code = some 1 ∧ m.trig = none ∧ m.sentAt + 1000000 ≤ ({ s with time := 1000000 } : State).time ∧
    s.time < m.sentAt + 1000000 ∧ m.code = none := by decide +kernel

/-- An endpoint whose buffer lies in a page of the far tier, and a handler parcel of a message to the own module that is not queued yet. -/
theorem witness_NetworkMessages_far : let e : TlbEntry := { pageAt 17 with leaf := { (pageAt 17).leaf with tier := 1 } }
    let s : State := { sNet 0x80 [] with
      shares := [((0, 0), [(0x150000, 17), (0x150007, 0x80), (0x15000A, 1), (0x150010, 64), (0x15002A, 0xFF), (0x15002B, 0x0F)])]
      cores := [(0, { tlb := [e] })] }
    let m : Message := { sending := true, id := 5, peer := 1, part := 0, ep := 0, len := 8, tag := 0, roff := 0, code := some 0, trig := some 3 }
    s.endpointOk 2 0 0 = true ∧ 0 + 8 ≤ (s.endpoint 0 0).blen ∧
    (s.unitLoc 0 (s.endpoint 0 0).core .store ((s.endpoint 0 0).buf.toNat + 0 + 0)).toOption = some ⟨.phys 1, 0x20000⟩ ∧
    m.trig ≠ none ∧ m.peer = s.modId := by decide +kernel

/-- A pod barrier of modules 0, 1 and 2, of which 0 is the root and 2 sends through 1; and one of which 1 is no member. -/
def podA (l : List Nat) : PodBar := { members := l, local_ := true, waiting := [(0x110, 3)] }
def sPod (m : Nat) (b : PodBar) : State := { sMod m { up := true } with pods := [(0, b)] }

theorem witness_SignalFlits : let s := sPod 1 (podA [0, 1, 2])
    let r := sPod 0 (podA [0, 1, 2])
    let n := sPod 1 (podA [0, 2])
    let child := fun (v : Word) => v.toNat / 2 ^ 48 % 2 ^ 12
    (0x1002000000000000 : Word).toNat / 2 ^ 60 = 1 ∧ child 0x1002000000000000 = 2 ∧ child 0x1001000000000000 = 1 ∧
    (s.podMembers (s.pod 0)).contains s.modId = true ∧ (n.podMembers (n.pod 0)).contains n.modId = false ∧
    n.podUpLink (n.pod 0) n.modId = some 1 ∧ s.podKids (s.pod 0) s.modId = [2] ∧ s.podUpLink (s.pod 0) s.modId = some 1 ∧
    (s.pod 0).local_ = true ∧ (s.pod 0).sent = false ∧ s.links[1]? = some { up := true } ∧ r.podKids (r.pod 0) r.modId = [1] ∧
    r.podUpLink (r.pod 0) r.modId = none ∧ (0x2000000000000100 : Word).toNat / 2 ^ 60 = 2 ∧ s.pods = [(0, podA [0, 1, 2])] ∧
    (0x5001000000000001 : Word).toNat / 2 ^ 60 = 5 ∧ s.podHolds (podA [0, 1, 2]) 1 1 = true ∧
    s.podHolds (podA [0, 1, 2]) 1 2 = false := by decide +kernel

theorem witness_SignalFlits_triggers : let s := sNet 0xC0 []
    let dest := fun (head : Word) => head.toNat / 2 ^ 48 % 2 ^ 12
    (0x4001000000010000 : Word).toNat / 2 ^ 60 = 4 ∧ (0x6001000000000009 : Word).toNat / 2 ^ 60 = 6 ∧ dest 0x4001000000010000 = s.modId ∧
    dest 0x6001000000000009 = dest 0x4001000000010000 ∧ dest 0x4000000000010000 ≠ s.modId ∧
    (s.hop s.modId 0).map Prod.fst = some 1 ∧ s.links[1]? = some { up := true } ∧
    (0x4001000000010000 : Word).toNat / 2 ^ 8 % 2 ^ 7 = 0 ∧ (0x4001000000010000 : Word).toNat / 2 ^ 15 % 2 ^ 12 = 2 ∧
    s.endpointOk 2 0 0 = true ∧ s.endpointOk 2 0 1 = false ∧ (s.endpoint 0 0).trig = true ∧ placedPartition.hasCore 17 = true := by
  decide +kernel

/-! ### Clauses at further values -/

/-- An access that is presented again: with a translation, and with the reason of a walk that has failed. -/
theorem witness_AccessSequence_again : let r : Thread := { tA with walkRes := some (1, 3) }
    (sCore tA (kPage 17)).tlbFind (coreOf 0x110) tA.part 0x10008 = some (pageAt 17) ∧
    (sOf r).tlbFind (coreOf 0x110) r.part 0x10008 = none ∧ r.walkRes = some (0x10008 / 2 ^ 16, 3) := by decide +kernel

/-- A hearth with two walks, of which the second serves two threads. -/
theorem witness_WalksAndMigration_two : let t : Thread := { tA with block := .walk 2 }
    let s : State := { sOf t with threads := [(0x110, t), (0x111, { tA with block := .walk 1 }), (0x120, t)]
                                  hearths := [(0, { walks := [⟨0, 1, [0x111]⟩, ⟨0, 2, [0x110, 0x120]⟩] })] }
    (s.hearth 0).walks[1]? = some ⟨0, 2, [0x110, 0x120]⟩ ∧ (s.hearth 0).walks[0]? = some ⟨0, 1, [0x111]⟩ ∧ (0 : Nat) ≠ 1 ∧
    s.thread 0x110 = some t ∧ s.thread 0x120 = some t ∧ t.block = .walk 2 := by decide +kernel

/-- A granted beat of a copy to a home, whose page the pages of a tlbi meet or not, and a line that two pages have used. -/
theorem witness_CouchesAndTranslations_beats : let f : Flight := ⟨none, 0, [(⟨.phys 0, 0x20000⟩, 5)], true, some (18, 0x10000, 2 ^ 16)⟩
    let s := sCore tCopy (kCopy { xA with flights := [f] })
    let l : Line := { tier := 0, pa := 0x20000, pages := [(0, 0x10000, 2 ^ 16), (0, 0x50000, 2 ^ 16)] }
    (s.chan 17 0).cur = some { xA with flights := [f] } ∧ f.granted = true ∧ f.home = some (18, 0x10000, 2 ^ 16) ∧ xA.part = tCch.part ∧
    s.homesQuiet 0 0x10008 1 = false ∧ s.homesQuiet 0 0x20000 1 = true ∧ l ∈ ((sCore tA { l1 := [l] }).core 17).l1 ∧ l.pages.length = 2 := by
  decide +kernel

/-- Registers of the owner, the core and the cluster, a record that is valid and one that is not, and the privilege that KCOUCHE asks. -/
theorem witness_StateRegisters_owner : let t : Thread := { tA with priv := 2 }
    let s := sArb t {} arbA
    s.thread s.cur = some t ∧ t.priv = 2 ∧ 1 ≤ tA.priv ∧ tCall.priv = 0 ∧ (s.owner 0).c.length = 4 ∧ (s.owner 1).c.length = 4 ∧
    (0x481, { s.owner 0 with table := 3 }) ∈ ownerWritten (s.owner 0) 3 ∧
    (0x485, { s.owner 0 with c := [10, 7, 30, 0] }) ∈ ownerWritten (s.owner 0) 7 ∧
    (0x487, { s.owner 0 with c := [10, 20, 30, 0] }) ∈ ownerWritten (s.owner 0) 7 ∧
    s.validOwner 0 { s.owner 0 with table := 3 } = true ∧ s.validOwner 1 { s.owner 1 with sv := true, stid := 7 } = false ∧
    (0x481, (0 : Word)) ∈ sharedValues s t ∧ (0x485, (20 : Word)) ∈ sharedValues s t ∧ (0x480, (0x404010002 : Word)) ∈ sharedValues s t ∧
    (0x5C0, couchePositions resetCouche) ∈ sharedValues (sCore tA { couche := resetCouche }) tA ∧
    (0x208, (0x210 : Word)) ∈ sharedValues s t ∧ (0x207, (0 : Word)) ∈ sharedValues s t ∧ (0x402, (0 : Word)) ∈ sharedValues s t := by
  decide +kernel

/-- Jobs that are noted in a cc, with work of their owner and without. -/
theorem witness_MetersAndJobs_ends : let j : JobOp := { owner := 0, tid := 0x110, close := none }
    (sCore tA { retired := [(0, 0x112), (0, 0x110)], jobs := [j] }).core 17 = { retired := [(0, 0x112), (0, 0x110)], jobs := [j] } ∧
    (sCore tA { jobs := [j] }).core 17 = { jobs := [j] } ∧ [j] ≠ [] := by decide +kernel

/-- A copy from the pantry of the hearth to own LM, and a gather of words of 4 bytes from it. -/
theorem witness_TransfersRun_ahead : let y : Xfer := { xA with regs := { cpA with xsrc := 0xC200000000200000 } }
    let g : Xfer := { xA with ins := .xgat 1 2 3 0, idx := 0xC000000000000200, regs := { cpA with xsrc := 0xC200000000200000, xdim := 0x20002 } }
    let r := fun (x : Xfer) => sCore tCopy (kCopy x)
    (∀ x ∈ [y, g], (r x).beatReady 17 0 = true ∧ ((r x).chan 17 0).cur = some x ∧ x.ch < 4 ∧ x.ch = 0 ∧ ((r x).core 17).chans.length = 4 ∧
      x.flights = [] ∧ x.nextByte ((r x).xpaused 17 x) = some (none, 0) ∧ x.regs.xdst = BitVec.ofNat 64 (0xC0 * 2 ^ 56 + 0x100) ∧
      0x100 + x.bytes ≤ 2 ^ 18 ∧ ((r x).core 17).poisoned = [] ∧ ((r x).core 17).lost = false ∧ (r x).errors = [] ∧ x.priv ≠ 0) ∧
    y.form = .copy ∧ y.regs.len % 4 = 0 ∧ y.regs.xsrc.toNat + y.regs.len < 2 ^ 64 ∧
    (∀ k < 64, (r y).window y.part 17 (y.regs.xsrc + BitVec.ofNat 64 k) = some (.pantry 0 (0x200000 + k))) ∧ (0x200000 + 0) % 64 = 0 ∧
    g.form = .gat ∧ g.regs.esz = 2 ∧ 0 < g.bytes ∧
    (∀ k < g.bytes, ((r g).window g.part 17 (BitVec.ofNat 64 ((r g).xsrcAt 17 g k))).isSome = true) ∧
    (r g).window g.part 17 (BitVec.ofNat 64 ((r g).xsrcAt 17 g 0)) = some (.pantry 0 0x200000) := by decide +kernel

/-- Two requests that wait for a reservation: the second does not fit, and neither does the first of another pair. -/
def qTree (e : Nat) : ApplyReq :=
  match (sPlace (qA e true)).readTree 0 (qA e true) 8 [] none 0 e [] with
  | .ok tree => { qA e true with tree := tree }
  | .error _ => qA e true
def pWait (l : List ApplyReq) : Partition := { placedPartition with released := true, waiting := l }

/-- The first of them reserved: the placing hearth then, who waits still, and whether the second fits too. -/
def secondFits (s : State) : Option (Nat × Option (List ApplyReq) × Bool) :=
  match s.reserve 0 (qTree 0) with
  | .ok (s1, rec) =>
    let s3 : State := { s1 with replies := s1.replies ++ [{ tid := 0x110, writes := [(3, BitVec.ofNat 64 rec)] }] }
    some (s1.placing 0, (s1.part 0).map Partition.waiting, ((s3.modPart 0 fun p => { p with waiting := [] }).reserve 0 (qTree 2)).toBool)
  | .error _ => none

theorem witness_NestForms_waiting : let p := pWait [qTree 0, qTree 2]
    let s2 := fun (l : List ApplyReq) => ((sReq p).setPart 0 { p with released := false }).setPart 0 { p with released := false, waiting := l }
    p.released = true ∧ (qTree 0).wait = true ∧ (qTree 2).wait = true ∧ (qTree 0).tid = some 0x110 ∧
    ((s2 []).reserve 0 (qTree 2)).toBool = false ∧
    secondFits (s2 [qTree 2]) = some ((sReq p).placing 0, some [qTree 2], false) := by decide +kernel

/-- A thread whose restart record still waits for room, and one of a population whose join word stands in the pantry. -/
theorem witness_ThreadForms_ends : let v : Thread := { tA with vrec := [vA (.vadd 1 2 3 0 .i32) 0] }
    let p : Thread := { tA with pop := some ⟨0, 2, 0xC200000000200008⟩ }
    ¬((sOf v).vbusy 0x110 = false ∧ v.vrec = []) ∧ (sOf p).vbusy 0x110 = false ∧ p.vrec = [] ∧
    (p.pop.map PopRef.join) = some 0xC200000000200008 ∧
    (sOf p).window p.part 17 0xC200000000200008 = some (.pantry 0 0x200008) := by decide +kernel

theorem passes_join : let p : Thread := { tA with pop := some ⟨0, 2, 0xC200000000200008⟩ }
    (sOf p).passes p 0xC200000000200008 8 .store true false (.far (.pantry 0) ⟨.share 0 0, 0x200008⟩ 1) := fun _ => rfl

/-- The probes of 256 bytes of zeros: past a DYING entry to a name that is free, in a store that is full, and to an entry with the bytes. -/
theorem witness_CrumbForms_probes : let ws := List.replicate 32 0
    let n := crumbHash ws 1 * 256
    let dying : Crumb := ⟨n, 0, 1, 1, 0, false⟩
    let p := fun (l : List Crumb) => (pStore (dying :: l)).store
    let full := [1, 2, 3].map fun k => (⟨9, k, 1, 1, 1, true⟩ : Crumb)
    let find := fun (l : List Crumb) (name : Nat) => (p l).crumbs.find? fun x => x.name == name
    n ≠ 0 ∧ n + 1 ≠ 0 ∧ find [] n = some dying ∧ dying.live = false ∧ find [] (n + 1) = none ∧ (p []).room ((p []).homeNo (n + 1)) = some 1 ∧
    find full (n + 1) = none ∧ (p full).room ((p full).homeNo (n + 1)) = none ∧
    find [⟨n + 1, 1, 1, 1, 1, true⟩] (n + 1) = some ⟨n + 1, 1, 1, 1, 1, true⟩ ∧ (sStore [] []).slotWords 0 1 = ws := by decide +kernel

/-- Every probe finds other contents: all 255 names are DYING. -/
theorem witness_CrumbForms_collide (n p : Nat) (h : p < 255) :
    ∃ x, ((List.range 255).map fun k => (⟨n + k, k, 1, 1, 0, false⟩ : Crumb)).find? (fun x => x.name == n + p) = some x ∧ x.live = false := by
  have hm : (⟨n + p, p, 1, 1, 0, false⟩ : Crumb) ∈ (List.range 255).map fun k => (⟨n + k, k, 1, 1, 0, false⟩ : Crumb) :=
    List.mem_map.mpr ⟨p, List.mem_range.mpr h, rfl⟩
  cases he : ((List.range 255).map fun k => (⟨n + k, k, 1, 1, 0, false⟩ : Crumb)).find? (fun x => x.name == n + p) with
  | none => exact absurd (List.find?_eq_none.mp he _ hm) (by simp)
  | some x =>
    obtain ⟨k, _, hk⟩ := List.mem_map.mp (List.mem_of_find?_eq_some he)
    exact ⟨x, rfl, hk ▸ rfl⟩

/-- A DYING name of which the hearth has a copy and of which it has none, a saturated count, and a cell whose old name counts two. -/
theorem witness_CrumbForms_copies : let s := sStore [⟨5, 0, 1, 1, 0, false⟩] []
    let c : State := { s with hearths := [(0, { crumbs := [(0, 5, 0)] })] }
    let r := sRoot [⟨5, 0, 1, 1, 2, true⟩, ⟨6, 1, 1, 1, 1, true⟩] [(0x20010, 5)]
    hearthOf 17 = 0 ∧ (s.store 0).liveEntry 5 = none ∧ ((s.hearth 0).crumbs.find? fun x => x.1 == 0 && x.2.1 == 5) = none ∧
    ((c.hearth 0).crumbs.find? fun x => x.1 == 0 && x.2.1 == 5) = some (0, 5, 0) ∧
    ((sRoot [cA 5 (2 ^ 32 - 1)] []).store 0).liveEntry 5 = some (cA 5 (2 ^ 32 - 1)) ∧ r.readLoc ⟨.phys 0, 0x20010⟩ 16 = 5 ∧
    (r.store 0).liveEntry 5 = some ⟨5, 0, 1, 1, 2, true⟩ ∧ (r.store 0).liveEntry 6 = some ⟨6, 1, 1, 1, 1, true⟩ ∧ (6 : Nat) ≠ 5 := by
  decide +kernel

/-- The homes that each form looks at, one frozen or lost. -/
theorem witness_CrumbForms_homes : let t := tThere tRoot (.home 17) ⟨.phys 0, 0x20010⟩ []
    let s := fun (k : Core) => ({ sRoot [] [(0x20010, 5)] with threads := [(0x110, t)], cores := [(17, k)] } : State)
    let ws := List.replicate 32 0
    (s {}).thread 0x110 = some t ∧ ((s {}).store 0).en = true ∧
    (∀ i ∈ [Instr.cref 4 6, .cdrop 4 6, .cget 2 4 6, .croot 1 4 8, .cswap 1 8 6, .cstat 6 3, .cstatHome 0 3],
      crumbCores (s {}) t ⟨.phys 0, 0x20010⟩ [] i = [17]) ∧
    crumbCores (s {}) t ⟨.phys 0, 0x20010⟩ [] (.cswap 1 6 8) = [] ∧
    crumbCores (s {}) t ⟨.lm 17, 8⟩ ws (.cput 2 4 6) = [17] ∧ crumbCores (s {}) t ⟨.lm 17, 8⟩ (9 :: List.replicate 31 0) (.cnode 2 4 6) = [17, 17] ∧
    ([17].find? fun c => ((s { frozen := true }).core c).frozen) = some 17 ∧
    ([17].find? fun c => ((s { lost := true }).core c).frozen) = none ∧ (17 ∈ [17] ∧ ((s { lost := true }).core 17).lost = true) := by
  decide +kernel

/-- An endpoint on a core outside its partition, and a pair of flits for it. -/
theorem witness_SignalFlits_outside : let s : State := { sNet 0xC0 [] with
      shares := [((0, 0), (endpoint0 0xC0).map fun p => if p.1 = 0x150000 then (p.1, 40) else p)] }
    s.endpointOk 2 0 0 = true ∧ (s.endpoint 0 0).core = 40 ∧ placedPartition.hasCore 40 = false ∧ (s.endpoint 0 0).trig = true := by
  decide +kernel

/-! ### Single steps -/

/-- SHA-384 of "abc", as FIPS 180-4 gives it in its example. -/
theorem test_sha384_abc : sha384 [0x61, 0x62, 0x63] = 0xCB00753F45A35E8BB5A03D699AC65007272C32AB0EDED1631A8B605A43FF5BED8086072BA1E7CC2358BAECA134C825A7 := by
  decide +kernel

/-- What an instruction leaves in the running thread, if it goes on. -/
def ran (i : Instr) (s : State) : Option Thread :=
  match exec i s with
  | .next s' => s'.thread s.cur
  | _ => none

/-- The manual's example of a constant built from `li` and `lsh` (R41). -/
theorem test_lsh_builds_constant : (ran (.lsh 5 5 0xBCDE) (sOf { tA with g := tA.g.set 5 0x123456789A })).map (fun t => t.rd 5) =
    some 0x123456789ABCDE := by decide +kernel

/-- The manual's examples of `fcvt.i64.f32` (R104): 2.5 gives 2 and NX, plus infinity gives 2^63 - 1 and NV. -/
theorem test_fcvt_rounds : (ran (.fcvtI64F32 5 6) (sOf { tA with g := tA.g.set 6 0x40200000 })).map (fun t => (t.rd 5, t.fp.fflags)) =
    some (2, 1) := by decide +kernel
theorem test_fcvt_saturates : (ran (.fcvtI64F32 5 6) (sOf { tA with g := tA.g.set 6 0x7F800000 })).map (fun t => (t.rd 5, t.fp.fflags)) =
    some (0x7FFFFFFFFFFFFFFF, 16) := by decide +kernel

/-- Addition wraps, a source being the destination, and the pc moves on by 4 (R92). -/
theorem test_add_wraps : (ran (.add 1 1 1) (sOf { tA with g := tA.g.set 1 0x8000000000000001 })).map (fun t => (t.rd 1, t.pc)) =
    some (2, 0x100000004) := by decide +kernel

/-- A store of a byte to own LM leaves its neighbour alone (R110). -/
theorem test_store_byte : (match exec (.st 1 2 .b .no 1) (sOf tA) with
    | .next s' => some ((s'.mem (.lm 17)).read 8 4)
    | _ => none) = some 0x700 := by decide +kernel

end Sys2Proof.Tests
end

section

/-! SUPPORT. The family of the machine's statements (01_machine.md): the canonical form of the memories and the turns of a clock cycle. -/

namespace Sys2Proof.Machine

set_option Elab.async false

/-! ### The canonical form of memories and of their tables (R8) -/

theorem shareMem_wf {l : List ((Nat × Nat) × Memory)} (h : ∀ x ∈ l, Memory.wf x.2 = true) (a : Nat × Nat) :
    (shareMem l a).wf = true := by
  induction l with
  | nil => rfl
  | cons x l ih =>
    obtain ⟨hx, hl⟩ := List.forall_mem_cons.mp h
    simp only [shareMem]
    split
    · exact hx
    · exact ih hl

theorem setShareMem_wf {l : List ((Nat × Nat) × Memory)} (h : ∀ x ∈ l, Memory.wf x.2 = true) (a : Nat × Nat) {m : Memory}
    (hm : m.wf = true) : ∀ x ∈ setShareMem l a m, Memory.wf x.2 = true := by
  induction l with
  | nil => simpa [setShareMem] using hm
  | cons x l ih =>
    obtain ⟨hx, hl⟩ := List.forall_mem_cons.mp h
    simp only [setShareMem]
    split
    · exact List.forall_mem_cons.mpr ⟨hm, hl⟩
    · exact List.forall_mem_cons.mpr ⟨hx, ih hl⟩

theorem Map.mem_of_look {α : Type} {m : Map α} {a : Nat} {x : α} (h : Map.look m a = some x) : (a, x) ∈ m := by
  induction m with
  | nil => simp [Map.look] at h
  | cons p m ih =>
    obtain ⟨k, v⟩ := p
    simp only [Map.look] at h
    split at h
    · next hk =>
      obtain rfl := hk
      obtain rfl := Option.some.inj h
      exact List.mem_cons_self ..
    · exact List.mem_cons_of_mem _ (ih h)

/-- Words written one behind the other, as `writeFault` writes a record. -/
theorem foldl_write_wf {words : List Word} {q : Memory × Nat} (h : q.1.wf = true) :
    (words.foldl (fun (q : Memory × Nat) w => (q.1.write q.2 8 w.toNat, q.2 + 8)) q).1.wf = true := by
  induction words generalizing q with
  | nil => exact h
  | cons w l ih => exact ih (Memory.wf_write _ _ _ h)

/-- Ranges cleared one after the other, as `restoreSlot` clears the pages of a slot. -/
theorem foldl_clear_wf {l : List (Nat × Nat)} {m : Memory} (hm : m.wf = true) :
    (l.foldl (fun (m : Memory) p => m.clear p.1 (p.1 + p.2)) m).wf = true := by
  induction l generalizing m with
  | nil => exact hm
  | cons p l ih => exact ih (Memory.wf_filter _ hm)

theorem foldl_setByte_wf {l : List Host.Cell} {m : Memory} (hm : m.wf = true) :
    (l.foldl (fun (m : Memory) c => m.setByte c.1 c.2) m).wf = true := by
  induction l generalizing m with
  | nil => exact hm
  | cons c l ih => exact ih (Memory.wf_setByte _ _ hm)

/-! ### The canonical form of the whole state: what is read of it, and the updates that reach a memory -/

/-- What a checkpoint slot holds of shares and LMs is canonical. -/
def CkptSlot.memOk (k : CkptSlot) : Prop := (∀ x ∈ k.shares, Memory.wf x.2 = true) ∧ ∀ x ∈ k.lms, Memory.wf x.2 = true

section
variable {s : State} (h : s.memOk)
include h

theorem State.memOk.slot : ∀ k ∈ s.fw.slots, k.memOk := h.2.2.2.2.2

theorem State.memOk.slotAt (n : Nat) : (s.fw.slots.getD n {}).memOk := by
  rw [List.getD_eq_getElem?_getD]
  cases e : s.fw.slots[n]? with
  | none => exact ⟨List.forall_mem_nil _, List.forall_mem_nil _⟩
  | some k => exact h.slot k (List.mem_of_getElem? e)

theorem State.memOk.lm (c : Nat) : (s.core c).lm.wf = true := by
  obtain ⟨-, -, -, -, cores, -⟩ := h
  unfold State.core
  cases hc : s.cores.look c with
  | none => rfl
  | some k => exact cores _ (Map.mem_of_look hc)

theorem State.memOk.mem (sp : Space) : (s.mem sp).wf = true := by
  have lm := h.lm
  obtain ⟨hbm, far, host, shares, -, -⟩ := h
  cases sp with
  | lm c => exact lm c
  | share p k => exact shareMem_wf shares _
  | phys t =>
    simp only [State.mem]
    split
    · exact hbm
    · split
      · exact far
      · exact host

theorem State.memOk.modCore {c f} (hf : ∀ k : Core, k.lm.wf = true → (f k).lm.wf = true) : (s.modCore c f).memOk := by
  have lm := hf _ (h.lm c)
  obtain ⟨hbm, far, host, shares, cores, slots⟩ := h
  refine ⟨hbm, far, host, shares, fun y hy => ?_, slots⟩
  rcases Map.mem_put hy with rfl | hy
  · exact lm
  · exact cores y hy

theorem State.memOk.overCores {f} (hf : ∀ c (k : Core), k.lm.wf = true → (f c k).lm.wf = true) :
    State.memOk { s with cores := s.cores.over f } := by
  obtain ⟨hbm, far, host, shares, cores, slots⟩ := h
  refine ⟨hbm, far, host, shares, fun y hy => ?_, slots⟩
  obtain ⟨x, hx, rfl⟩ := List.mem_map.mp hy
  exact hf _ _ (cores x hx)

theorem State.memOk.ckptSlot (parts : List Nat) : (s.ckptSlot parts).memOk := by
  refine ⟨fun x hx => ?_, fun x hx => ?_⟩
  · obtain ⟨q, -, hx⟩ := List.mem_flatMap.mp hx
    obtain ⟨k, -, rfl⟩ := List.mem_map.mp hx
    exact h.mem (.share q.1 k.1)
  · obtain ⟨c, -, rfl⟩ := List.mem_map.mp hx
    exact h.lm c

theorem State.memOk.modFw {f} (hf : (∀ k ∈ s.fw.slots, k.memOk) → ∀ k ∈ (f s.fw).slots, k.memOk) : (s.modFw f).memOk := by
  obtain ⟨hbm, far, host, shares, cores, slots⟩ := h
  exact ⟨hbm, far, host, shares, cores, hf slots⟩

theorem State.memOk.setMem {sp m} (hm : Memory.wf m = true) : (s.setMem sp m).memOk := by
  cases sp with
  | lm c => exact h.modCore fun _ _ => hm
  | share p k =>
    obtain ⟨hbm, far, host, shares, cores, slots⟩ := h
    exact ⟨hbm, far, host, setShareMem_wf shares _ hm, cores, slots⟩
  | phys t =>
    obtain ⟨hbm, far, host, shares, cores, slots⟩ := h
    simp only [State.setMem]
    split
    · exact ⟨hm, far, host, shares, cores, slots⟩
    · split
      · exact ⟨hbm, hm, host, shares, cores, slots⟩
      · exact ⟨hbm, far, hm, shares, cores, slots⟩

end

/-! ### What the operations keep

One lemma for each operation of the model, named after it: from a state that keeps the canonical form and the clock it gives one
that does. `M` says whether the canonical form is followed (`StepKeepsMemoryCanonical` asks for it, `TurnsOfACycle` does not), `P`
what is known of the clock. -/

/-- The counts of the clock (R9). -/
structure Clock where
  cc : Nat
  time : Nat
  tphase : Nat
  ns : Nat
  timeOmit : Bool

def State.clock (s : State) : Clock := ⟨s.cc, s.time, s.tphase, s.ns, s.timeOmit⟩

/-- The memories are canonical, where `M` asks for it, and the clock is as `P` says. -/
def State.keeps (M : Prop) (P : Clock → Prop) (s : State) : Prop := (M → s.memOk) ∧ P s.clock

/-- The same of the state that a step answers, if it answers one. -/
inductive outKeeps (M : Prop) (P : Clock → Prop) : Out → Prop
  | next {s : State} (h : s.keeps M P) : outKeeps M P (.next s)
  | fault (f : Fault) : outKeeps M P (.fault f)
  | refused (r : Refusal) : outKeeps M P (.refused r)

section
variable {M : Prop} {P : Clock → Prop}

theorem State.keeps.ite {p : Prop} {_ : Decidable p} {a b : State} (ha : a.keeps M P) (hb : b.keeps M P) :
    (if p then a else b).keeps M P := by
  split
  · exact ha
  · exact hb

theorem State.keeps.iteFst {p : Prop} {_ : Decidable p} {β : Type} {a b : State × β} (ha : a.1.keeps M P) (hb : b.1.keeps M P) :
    (if p then a else b).1.keeps M P := by
  split
  · exact ha
  · exact hb

theorem outKeeps.ite {p : Prop} {_ : Decidable p} {a b : Out} (ha : outKeeps M P a) (hb : outKeeps M P b) :
    outKeeps M P (if p then a else b) := by
  split
  · exact ha
  · exact hb

/-- Fields that are neither memory nor clock may change. -/
theorem State.keeps.upd {s s' : State} (h : s.keeps M P)
    (e : (s'.hbm, s'.far, s'.host, s'.shares, s'.cores, s'.fw.slots, s'.clock) =
      (s.hbm, s.far, s.host, s.shares, s.cores, s.fw.slots, s.clock) := by rfl) : s'.keeps M P := by
  simp only [Prod.mk.injEq] at e
  obtain ⟨e1, e2, e3, e4, e5, e6, e7⟩ := e
  unfold State.keeps State.memOk
  rw [e1, e2, e3, e4, e5, e6, e7]
  exact h

theorem State.keeps.foldl {α : Type} {s : State} {f : State → α → State} {l : List α} (h : s.keeps M P)
    (hf : ∀ s x, s.keeps M P → (f s x).keeps M P) : (l.foldl f s).keeps M P := by
  induction l generalizing s with
  | nil => exact h
  | cons x l ih => exact ih (hf s x h)

/-- A fold whose elements are known to be of the list. -/
theorem State.keeps.foldlMem {α : Type} {s : State} {f : State → α → State} {l : List α} (h : s.keeps M P)
    (hf : ∀ s x, x ∈ l → s.keeps M P → (f s x).keeps M P) : (l.foldl f s).keeps M P := by
  induction l generalizing s with
  | nil => exact h
  | cons x l ih => exact ih (hf s x (List.mem_cons_self ..) h) fun s y hy => hf s y (List.mem_cons_of_mem _ hy)

/-- A fold that carries something beside the state. -/
theorem State.keeps.foldlFst {α β : Type} {q : State × β} {f : State × β → α → State × β} {l : List α} (h : q.1.keeps M P)
    (hf : ∀ q x, q.1.keeps M P → (f q x).1.keeps M P) : (l.foldl f q).1.keeps M P := by
  induction l generalizing q with
  | nil => exact h
  | cons x l ih => exact ih (hf q x h)

theorem outKeeps.onThread {s : State} {k : Thread → Out} (hk : ∀ t, outKeeps M P (k t)) : outKeeps M P (s.onThread k) := by
  unfold State.onThread
  split
  · exact hk _
  · exact .fault _

theorem outKeeps.afterRetire {o f} (ho : outKeeps M P o) (hf : ∀ s, s.keeps M P → (f s).keeps M P) :
    outKeeps M P (afterRetire o f) := by
  cases ho with
  | next h => exact .next (hf _ h)
  | fault _ => exact .fault _
  | refused _ => exact .refused _

theorem Core.refill_lm (k : Core) (c : MCmd) : (k.refill c).lm = k.lm := by
  unfold Core.refill
  split <;> rfl

theorem Firmware.bootFrom_slots (f : Firmware) : f.bootFrom.slots = f.slots := by
  unfold Firmware.bootFrom
  split
  · rfl
  · split <;> rfl

section
variable {s : State} (h : s.keeps M P)
include h

/-! #### One field of the state -/

theorem State.keeps.withTurns {x} : State.keeps M P { s with turns := x } := h
theorem State.keeps.withSignals {x} : State.keeps M P { s with signals := x } := h
theorem State.keeps.withSets {x} : State.keeps M P { s with sets := x } := h
theorem State.keeps.withWaiters {x} : State.keeps M P { s with waiters := x } := h
theorem State.keeps.withStarts {x} : State.keeps M P { s with starts := x } := h
theorem State.keeps.withMsgs {x} : State.keeps M P { s with msgs := x } := h
theorem State.keeps.withCur {x} : State.keeps M P { s with cur := x } := h
theorem State.keeps.withThreads {x} : State.keeps M P { s with threads := x } := h
theorem State.keeps.withArrs {x} : State.keeps M P { s with arrs := x } := h
theorem State.keeps.withHearths {x} : State.keeps M P { s with hearths := x } := h
theorem State.keeps.withParcels {x} : State.keeps M P { s with parcels := x } := h
theorem State.keeps.withFresh {x} : State.keeps M P { s with fresh := x } := h
theorem State.keeps.withSpEn {x} : State.keeps M P { s with spEn := x } := h
theorem State.keeps.withMoving {x} : State.keeps M P { s with moving := x } := h
theorem State.keeps.withTimeSet {x} : State.keeps M P { s with timeSet := x } := h
theorem State.keeps.withParts {x} : State.keeps M P { s with parts := x } := h

/-! #### Operations on the state -/

theorem State.keeps.setCluster {c x} : (s.setCluster c x).keeps M P := h

theorem State.keeps.setHearth {n x} : (s.setHearth n x).keeps M P := h

theorem State.keeps.setPart {p x} : (s.setPart p x).keeps M P := h

theorem State.keeps.setThread {tid t} : (s.setThread tid t).keeps M P := h

theorem State.keeps.modThread {tid f} : (s.modThread tid f).keeps M P := by
  unfold State.modThread
  split
  · exact h.setThread
  · exact h

/-- A core is changed: where the change leaves its LM alone, nothing is to be shown. -/
theorem State.keeps.modCore {c f} (hf : ∀ k : Core, k.lm.wf = true → (f k).lm.wf = true := by exact fun _ h => h) :
    (s.modCore c f).keeps M P := ⟨fun hM => (h.1 hM).modCore hf, h.2⟩

theorem State.keeps.overCores {f} (hf : ∀ c (k : Core), k.lm.wf = true → (f c k).lm.wf = true := by exact fun _ _ h => h) :
    State.keeps M P { s with cores := s.cores.over f } := ⟨fun hM => (h.1 hM).overCores hf, h.2⟩

theorem State.keeps.modPart {p f} : (s.modPart p f).keeps M P := by
  unfold State.modPart
  split
  · exact h.setPart
  · exact h

theorem State.keeps.modArb {f} : (s.modArb f).keeps M P := h

theorem State.keeps.modFw {f} (hf : (∀ k ∈ s.fw.slots, k.memOk) → ∀ k ∈ (f s.fw).slots, k.memOk := by exact fun h => h) :
    (s.modFw f).keeps M P := ⟨fun hM => (h.1 hM).modFw hf, h.2⟩

theorem State.keeps.nextUid : s.nextUid.keeps M P := h

theorem State.keeps.allThreads {f} : (s.allThreads f).keeps M P := h

/-- A memory is replaced: a write to it keeps its form. -/
theorem State.keeps.setMem {sp m} (hm : (s.mem sp).wf = true → Memory.wf m = true := by exact Memory.wf_write _ _ _) :
    (s.setMem sp m).keeps M P := by
  refine ⟨fun hM => (h.1 hM).setMem (hm ((h.1 hM).mem sp)), ?_⟩
  cases sp with
  | lm c => exact h.2
  | share p k => exact h.2
  | phys t =>
    simp only [State.setMem]
    split
    · exact h.2
    · split
      · exact h.2
      · exact h.2

theorem State.keeps.sig {core k} : (s.sig core k).keeps M P := h

theorem State.keeps.looked {core part va} : (s.looked core part va).keeps M P := by
  unfold State.looked
  split
  · exact .sig h.modCore
  · exact h

theorem State.keeps.throughL1 {core part page l} : (s.throughL1 core part page l).keeps M P := by
  unfold State.throughL1
  split
  · exact .modCore (.ite h h.sig)
  · exact h

theorem State.keeps.reach {t va l} : (s.reach t va l).keeps M P := by
  unfold State.reach
  split
  · exact h.sig
  · exact h.throughL1

theorem State.keeps.allocMeter {core o} : (s.allocMeter core o).keeps M P := .ite h h.modCore

theorem State.keeps.noteMeter {core m} : (s.noteMeter core m).keeps M P := h.modArb

theorem State.keeps.sweepMeters {core} : (s.sweepMeters core).keeps M P := by
  unfold State.sweepMeters
  extract_lets gone s1
  have h1 : s1.keeps M P := .foldl h fun _ _ h => .ite h.noteMeter h
  exact .ite h1 h1.modCore

theorem State.keeps.accrue {core o n} : (s.accrue core o n).keeps M P := by
  unfold State.accrue
  dsimp only
  split
  · exact .ite (.noteMeter h.modCore) h
  · exact h

theorem State.keeps.charge {core o priv entry n} : (s.charge core o priv entry n).keeps M P := .ite h.accrue h

theorem State.keeps.checkMeter {core o tid} : (s.checkMeter core o tid).keeps M P := by
  unfold State.checkMeter
  dsimp only
  split
  · exact h
  · exact .ite (.ite (.ite h (.modThread h.modCore)) (.ite (.modArb h.modCore) h)) h

theorem State.keeps.noteRetired {core o priv tid} : (s.noteRetired core o priv tid).keeps M P := .ite h.modCore h

theorem State.keeps.retireN {tid entry n} : (s.retireN tid entry n).keeps M P := by
  unfold State.retireN
  split
  · exact .noteRetired h.charge
  · exact h

theorem State.keeps.retire {tid entry} : (s.retire tid entry).keeps M P := h.retireN

theorem outKeeps.finish {t entry} : outKeeps M P (s.finish t entry) := .next (.retire h.setThread)

theorem outKeeps.write {t d v entry} : outKeeps M P (s.write t d v entry) := .finish h

theorem outKeeps.jump {t pc} : outKeeps M P (s.jump t pc) := .next (.retire h.setThread)

theorem outKeeps.wait {t b} : outKeeps M P (s.wait t b) := .next h.setThread

theorem State.keeps.noIssue {t} : (s.noIssue t).keeps M P := .ite h h.sig

theorem outKeeps.hold {t b} : outKeeps M P (s.hold t b) := .next (.setThread h.noIssue)

theorem outKeeps.until {t c} : outKeeps M P (s.until t c) := .hold h

theorem outKeeps.await {t c} : outKeeps M P (s.await t c) := .wait h

theorem outKeeps.bubble : outKeeps M P s.bubble := .next h.sig

theorem State.keeps.complete {tid entry f} : (s.complete tid entry f).keeps M P := by
  unfold State.complete
  dsimp only
  split
  · exact .retire h.setThread
  · exact h

theorem State.keeps.unblock {tid} : (s.unblock tid).keeps M P := h.modThread

theorem State.keeps.reply {r} : (s.reply r).keeps M P := h

theorem outKeeps.loadHere {t writes} : outKeeps M P (s.loadHere t writes) := .wait h.reply

theorem State.keeps.fireBy {read l n} : (s.fireBy read l n).keeps M P := h

theorem State.keeps.writeFault {p x f tid t code sub tval tpc tstat2} :
    (s.writeFault p x f tid t code sub tval tpc tstat2).keeps M P := by
  unfold State.writeFault
  dsimp only
  exact .fireBy (.setMem h fun hm => foldl_write_wf hm)

theorem State.keeps.park {tid t code sub tval tpc tstat2} : (s.park tid t code sub tval tpc tstat2).keeps M P := by
  unfold State.park
  split
  · exact h.setThread
  · split
    · exact .setPart h.setThread
    · exact .setThread (.writeFault h.setPart)

theorem State.keeps.serviceTrap {tid t code sub tval tpc tstat2} : (s.serviceTrap tid t code sub tval tpc tstat2).keeps M P :=
  .ite h.park (.ite h.setThread (.modFw h.setThread))

theorem State.keeps.noteTrap {tid code} : (s.noteTrap tid code).keeps M P := .ite h.sig h

theorem State.keeps.trapAt {tid t i tpc insn after} : (s.trapAt tid t i tpc insn after).keeps M P := by
  unfold State.trapAt
  extract_lets s1
  have h1 : s1.keeps M P := h.noteTrap
  exact .ite (.ite h1.serviceTrap (.ite h1.serviceTrap h1.setThread)) h1.serviceTrap

theorem outKeeps.trap {t code tval sub} : outKeeps M P (s.trap t code tval sub) := .next h.trapAt

theorem outKeeps.illegal {t} : outKeeps M P (s.illegal t) := .trap h

theorem outKeeps.priv {t} : outKeeps M P (s.priv t) := .trap h

theorem outKeeps.addr {t a} : outKeeps M P (s.addr t a) := .trap h

theorem outKeeps.pageFault {t a reason} : outKeeps M P (s.pageFault t a reason) := .trap h

theorem outKeeps.waitCounters {t c n m k} (hk : ∀ x0, outKeeps M P (k x0)) : outKeeps M P (s.waitCounters t c n m k) := by
  unfold State.waitCounters
  split
  · exact .trap h
  · exact .ite (hk _) (.until h)

theorem outKeeps.release {t k} (hk : ∀ x0, outKeeps M P (k x0)) : outKeeps M P (s.release t k) := .waitCounters h hk

theorem outKeeps.waitWt {t w k} (hk : ∀ x0, outKeeps M P (k x0)) : outKeeps M P (s.waitWt t w k) := by
  unfold State.waitWt
  split
  · exact hk _
  · exact .waitCounters h hk
  · exact .waitCounters h hk
  · exact .release h hk

theorem State.keeps.emit {p} : (s.emit p).keeps M P := .sig (.upd h)

theorem outKeeps.post {t place loc acc k va fin} (hfin : ∀ x0 s, s.keeps M P → outKeeps M P (fin x0 s)) :
    outKeeps M P (s.post t place loc acc k va fin) :=
  .ite (hfin _ _ h.emit) (.until h)

theorem outKeeps.ask {t place loc acc va b} : outKeeps M P (s.ask t place loc acc va b) := .wait h.emit

theorem outKeeps.request {t place loc acc va k} : outKeeps M P (s.request t place loc acc va k) := .ask h

theorem outKeeps.atPlace {t place loc acc va k go} (hgo : ∀ x0 x1, outKeeps M P (go x0 x1)) :
    outKeeps M P (s.atPlace t place loc acc va k go) := by
  unfold State.atPlace
  split
  · exact hgo _ _
  · exact .request h

theorem State.keeps.addLocks {core ord ls} : (s.addLocks core ord ls).keeps M P := h.modCore

theorem State.keeps.moveLocks {core uid f} : (s.moveLocks core uid f).keeps M P := h.modCore

theorem State.keeps.freeLocks {core uid} : (s.freeLocks core uid).keeps M P := h.moveLocks

theorem State.keeps.setBar {core b x} : (s.setBar core b x).keeps M P := h.modCore

theorem State.keeps.setClBar {cl b x} : (s.setClBar cl b x).keeps M P := h.setCluster

theorem State.keeps.endBarw {tid d v poison insn} : (s.endBarw tid d v poison insn).keeps M P := by
  unfold State.endBarw
  dsimp only
  split
  · exact .trapAt h.complete
  · exact h.complete

theorem State.keeps.wakeBarw {cl unit b oldPhase lpois l} : (wakeBarw cl unit b oldPhase lpois l s).keeps M P := by
  induction l generalizing s with
  | nil => exact h
  | cons p l ih =>
    refine ih ?_
    split
    · exact .ite h.endBarw h
    · exact h

theorem State.keeps.discardPoisoned {core b} : (s.discardPoisoned core b).keeps M P :=
  .ite h (.sweepMeters (.foldl (.allThreads h.modCore) fun _ _ h => .modThread h.freeLocks))

theorem State.keeps.arriveBar {core b poison} : (s.arriveBar core b poison).keeps M P := by
  unfold State.arriveBar
  extract_lets old r s1 s2 s3 s4 s5 s6
  have h1 : s1.keeps M P := h.setBar
  have h3 : s3.keeps M P := .ite (.modCore h1.sig) h1.sig
  have h6 : s6.keeps M P := .discardPoisoned (.allThreads h3.modCore)
  exact .ite h6.wakeBarw h1

theorem State.keeps.noteArrival {order core b poison} : (s.noteArrival order core b poison).keeps M P := h

theorem State.keeps.applyArrivals : s.applyArrivals.keeps M P := .foldl (.upd h) fun _ _ h => h.arriveBar

theorem State.keeps.arriveClBar {cl b} : (s.arriveClBar cl b).keeps M P := .ite (.wakeBarw h.setClBar) h.setClBar

theorem State.keeps.unwait {tid} : (s.unwait tid).keeps M P := h

theorem State.keeps.orphan {tid} : (s.orphan tid).keeps M P := h

theorem State.keeps.forget {tid} : (s.forget tid).keeps M P := .overCores (.orphan h.unwait)

theorem State.keeps.freeCtx {tid} : (s.freeCtx tid).keeps M P := h.modCore

theorem State.keeps.freeTiles {tid mask} : (s.freeTiles tid mask).keeps M P := h.modCore

theorem State.keeps.freeSlot {tid} : (s.freeSlot tid).keeps M P := .sweepMeters (.withThreads h.forget)

/-! #### Translation, accesses and stores -/

theorem State.keeps.tlbFill {core e} : (s.tlbFill core e).keeps M P := .setCluster h.modCore

theorem State.keeps.joinWalk {tid part page s'} (e : s.joinWalk tid part page = some s') : s'.keeps M P := by
  unfold State.joinWalk at e
  dsimp only at e
  split at e
  · cases e
    exact h.setHearth
  · split at e
    · cases e
      exact .sig h.setHearth
    · cases e

theorem outKeeps.startWalk {t va} : outKeeps M P (s.startWalk t va) := by
  unfold State.startWalk
  dsimp only
  split
  · next e => exact .hold (h.sig.joinWalk e)
  · exact .hold h.sig

theorem outKeeps.translate {t va k} (hk : ∀ s x1, s.keeps M P → outKeeps M P (k s x1)) : outKeeps M P (s.translate t va k) := by
  unfold State.translate
  split
  · exact hk _ _ h.looked
  · split
    · exact .ite (hk _ _ h) (.startWalk h)
    · exact .startWalk h

theorem State.keeps.fire {l n} : (s.fire l n).keeps M P := h.fireBy

theorem State.keeps.afterStore {part hearth off n} : (s.afterStore part hearth off n).keeps M P := by
  unfold State.afterStore
  dsimp only
  split
  · exact h
  · exact .ite h (.ite (.ite h h) (.ite (.ite h h) (.ite (.ite h (.ite h h)) h)))

theorem State.keeps.storeQueue {part p off n v} : (s.storeQueue part p off n v).keeps M P := by
  unfold State.storeQueue
  dsimp only
  split
  · exact .ite h h.setPart
  · exact .ite h (.ite h (.ite h h))
  · exact h

theorem State.keeps.writeLoc {l n v} : (s.writeLoc l n v).keeps M P := by
  unfold State.writeLoc
  dsimp only
  split
  · refine .ite ?_ (.ite h (.afterStore (.fire h.setMem)))
    split
    · refine .ite (.fire h.storeQueue) ?_
      split
      · exact .fire (.storeQueue h.storeQueue)
      · exact h.storeQueue
    · exact h
  · exact .fire h.setMem

theorem outKeeps.access {t va n kind write userLoad k} (hk : ∀ s x1, s.keeps M P → outKeeps M P (k s x1)) :
    outKeeps M P (s.access t va n kind write userLoad k) := by
  unfold State.access
  dsimp only
  split
  · exact .addr h
  · refine .ite (.addr h) ?_
    split
    · exact .ite (.ite (.trap h) (.ite (.trap h) (hk _ _ h))) (.ite (.trap h) (.ite (.trap h) (hk _ _ h)))
    · exact .ite (.addr h) (.ite (.trap h) (hk _ _ h))
    · refine .translate h fun _ _ h => ?_
      split
      · exact .pageFault h
      · exact .ite (.pageFault h) (.ite (.trap h) (.ite (.fault _) (.ite (hk _ _ h) (.ite (.trap h) (hk _ _ h)))))

theorem outKeeps.lmAccess {t va n al write k} (hk : ∀ s x1, s.keeps M P → outKeeps M P (k s x1)) :
    outKeeps M P (s.lmAccess t va n al write k) := by
  unfold State.lmAccess
  split
  · exact .addr h
  · split
    · exact .trap h
    · split
      · exact .trap h
      · exact hk _ _ h.sig

theorem State.keeps.doAmo {k l n b e} : (s.doAmo k l n b e).1.keeps M P := .ite h.writeLoc h

theorem State.keeps.doRed {k l n b} : (s.doRed k l n b).keeps M P := h.writeLoc

/-! #### The vector unit -/

theorem State.keeps.engineTouch {core tid ranges} : (s.engineTouch core tid ranges).keeps M P := by
  unfold State.engineTouch
  dsimp only
  split
  · exact .modThread (.ite h h.sig)
  · exact .ite h h.sig

theorem State.keeps.engineStore {core tid ws} : (s.engineStore core tid ws).keeps M P :=
  .foldl (.engineTouch h.modCore) fun _ _ h => h.writeLoc

theorem State.keeps.retireEngine {core owner priv tid uid} : (s.retireEngine core owner priv tid uid).keeps M P :=
  .sweepMeters (.noteRetired h.freeLocks)

theorem State.keeps.recordV {tid f} : (s.recordV tid f).keeps M P := .ite h (.ite h.modCore (.modThread h.modCore))

theorem State.keeps.vmemBeat {core c els} : (s.vmemBeat core c els).keeps M P := by
  unfold State.vmemBeat
  dsimp only
  split
  · exact h
  · exact .ite h.engineStore (.modCore h.engineTouch)

theorem State.keeps.vectorBeat {core} : (s.vectorBeat core).keeps M P := by
  unfold State.vectorBeat
  extract_lets k s1
  have h1 : s1.keeps M P := h.modCore
  split
  · exact h
  · refine .ite h ?_
    extract_lets x tl res
    split
    · extract_lets els r hi last y s2 s3 s4 s5 s6
      have h5 : s5.keeps M P := .charge (.modThread (.vmemBeat h1.modCore))
      exact .recordV (.ite (.retireEngine h5.modCore) h5.modCore)
    · extract_lets total els s2 s3 s4 s5 s6 s7
      have h3 : s3.keeps M P := .modThread h1.charge
      have h5 : s5.keeps M P := .modThread h3.modCore
      have h6 : s6.keeps M P := by
        unfold s6
        split
        · exact .ite h5 h5.charge
        · exact h5
      refine .ite h3.modCore ?_
      split
      · exact .complete h6.retireEngine
      · exact h6.retireEngine

theorem outKeeps.execVectorBeat {core} : outKeeps M P (execVectorBeat core s) := .next h.vectorBeat

theorem outKeeps.vectorForm {ins ga gi blocks} : outKeeps M P (s.vectorForm ins ga gi blocks) := by
  unfold State.vectorForm
  refine .onThread fun _ => ?_
  dsimp only
  refine .ite (.illegal h) ?_
  split
  · exact .addr h
  · exact .ite (.bubble h) (.ite (.wait (.nextUid (.modCore h.addLocks))) (.next (.setThread (.nextUid (.modCore h.addLocks)))))

theorem outKeeps.execVclaim {ra} : outKeeps M P (execVclaim ra s) := by
  unfold Machine.execVclaim
  refine .onThread fun _ => ?_
  dsimp only
  refine .ite (.write h) ?_
  split
  · exact .write h
  · exact .write h.modCore

theorem outKeeps.execVrel : outKeeps M P (execVrel s) := .onThread fun _ => .ite (.await h) (.finish h.freeCtx)

theorem outKeeps.execVacc {rd ra im k t} : outKeeps M P (execVacc rd ra im k t s) := .onThread fun _ => .ite (.vectorForm h) (.illegal h)

/-! #### The matrix unit -/

theorem State.keeps.mflag {tid fl} : (s.mflag tid fl).keeps M P := h.modThread

theorem State.keeps.recordM {tid f} : (s.recordM tid f).keeps M P :=
  .ite h (.ite h.modCore (.modThread (.modCore (.foldl h fun _ _ h => .ite h.modCore h))))

theorem State.keeps.mretire {core c cancelled} : (s.mretire core c cancelled).keeps M P := by
  unfold State.mretire
  extract_lets s1
  have h1 : s1.keeps M P := .retireEngine h.modCore
  split
  · exact h1
  · extract_lets v s2
    have h2 : s2.keeps M P := .ite h1 h1.mflag
    split
    · exact .ite h2.complete h2
    · exact h2

theorem State.keeps.mcancel {core c} : (s.mcancel core c).keeps M P := .sweepMeters (.freeLocks h.modCore)

theorem State.keeps.passEnd {core c} : (s.passEnd core c).keeps M P := by
  have h1 := h.charge (core := core) (o := c.owner) (priv := c.priv) (entry := 5) (n := c.regs.blk / 64)
  exact .recordM (.ite (.mretire (.mflag h1.modCore)) (.ite (.mretire h1.modCore) h1.modCore))

theorem State.keeps.passCycle {core c} : (s.passCycle core c).keeps M P := .ite h.passEnd h.modCore

theorem State.keeps.passStart {core c0} : (s.passStart core c0).keeps M P := by
  have h := h.modCore (c := core) (f := fun k => k.refill c0) fun k hk => by rwa [Core.refill_lm]
  exact .passCycle (.ite (.engineTouch h.mflag) h.mflag)

theorem State.keeps.planePass {core} : (s.planePass core).keeps M P := by
  unfold State.planePass
  dsimp only
  split
  · exact h
  · exact .ite h (.ite (.passStart (.withSignals h.modCore)) (.passCycle (.withSignals h.modCore)))

theorem outKeeps.execMatrixPlanePass {core} : outKeeps M P (execMatrixPlanePass core s) := .next h.planePass

theorem State.keeps.drainRow {core c t i} : (s.drainRow core c t i).keeps M P := .mflag h.engineStore

theorem State.keeps.matrixCycle {core} : (s.matrixCycle core).keeps M P := by
  unfold State.matrixCycle
  extract_lets k s1
  split
  · exact h
  · refine .ite h ?_
    extract_lets tl step s2
    have hs : (step s1).keeps M P := .modCore (.charge h.modCore)
    split
    · exact .mretire hs.modCore
    · exact .ite hs (.mretire (.mflag (.modCore hs.engineTouch)))
    · extract_lets s3
      have h3 : s3.keeps M P := .ite hs.drainRow hs
      exact .ite h3 h3.mretire
    · exact h.modCore

theorem outKeeps.execMatrixCommandCycle {core} : outKeeps M P (execMatrixCommandCycle core s) := .next h.matrixCycle

theorem outKeeps.poisonFirst {t k} (hk : ∀ x0, outKeeps M P (k x0)) : outKeeps M P (s.poisonFirst t k) := by
  unfold State.poisonFirst
  split
  · exact .trap h
  · exact hk _

theorem outKeeps.mrefuse {t code} : outKeeps M P (s.mrefuse t code) := .finish h

theorem outKeeps.menter {t c locks} : outKeeps M P (s.menter t c locks) :=
  .ite (.bubble h) (.next (.nextUid (.setThread (.modCore h.addLocks))))

theorem outKeeps.matrixForm {ins tile refusal ga gb gd gate ranges} :
    outKeeps M P (s.matrixForm ins tile refusal ga gb gd gate ranges) := by
  unfold State.matrixForm
  refine .onThread fun _ => ?_
  refine .ite (.illegal h) ?_
  refine .ite (.mrefuse h) ?_
  split
  · exact .addr h
  · exact .menter h

theorem outKeeps.execMmulg {ra rb rd t} : outKeeps M P (execMmulg ra rb rd t s) := by
  unfold Machine.execMmulg
  refine .onThread fun _ => ?_
  dsimp only
  refine .ite (.illegal h) ?_
  refine .ite (.bubble h) ?_
  split
  · exact .menter h
  · refine .ite (.mrefuse h) ?_
    split
    · exact .addr h
    · exact .addr h
    · exact .hold (.nextUid h.modCore)

theorem outKeeps.execOperandLatchFilled {core} : outKeeps M P (execOperandLatchFilled core s) := by
  unfold Machine.execOperandLatchFilled
  dsimp only
  split
  · exact .next h
  · exact .ite (.next h) (.next (.modThread (.modCore h.engineTouch)))

theorem outKeeps.execMclaim {ra rd} : outKeeps M P (execMclaim ra rd s) := .onThread fun _ => .ite (.write h.modCore) (.write h)

theorem outKeeps.execMrel {ra} : outKeeps M P (execMrel ra s) :=
  .onThread fun _ => .poisonFirst h fun _ => .ite (.await h) (.finish h.freeTiles)

theorem outKeeps.execMget {ra} : outKeeps M P (execMget ra s) :=
  .onThread fun _ => .lmAccess h fun _ _ h => .finish (.foldl h fun _ _ h => h.writeLoc)

theorem outKeeps.execMwait {rd} : outKeeps M P (execMwait rd s) := .onThread fun _ => .poisonFirst h fun _ => .ite (.await h) (.write h)

theorem outKeeps.execMstop {rd} : outKeeps M P (execMstop rd s) := by
  refine .onThread fun _ => .poisonFirst h fun t => ?_
  extract_lets me mine ended queued s1 t1
  have h1 : s1.keeps M P := .foldl h fun _ _ h => h.mcancel
  split
  · exact .afterRetire (.wait h1.modCore) fun _ h => h.sweepMeters
  · exact .afterRetire (.write h1) fun _ h => h.sweepMeters

/-! #### Owners and the arbiter -/

theorem State.keeps.setAny {tid t} : (s.setAny tid t).keeps M P := .ite h.setThread h

theorem State.keeps.recordThread {tid f} : (s.recordThread tid f).keeps M P := .recordM h.recordV

theorem State.keeps.recordShed {tid} : (s.recordShed tid).keeps M P := h.recordThread

theorem State.keeps.registerRecords {tid f s'} (e : s.registerRecords tid f = some s') : s'.keeps M P := by
  unfold State.registerRecords at e
  dsimp only at e
  split at e
  · cases e
  · split at e
    · cases e
      exact h
    · split at e
      · cases e
        exact h.addLocks
      · cases e

theorem State.keeps.reenterAll {core tids f} : (s.reenterAll core tids f).keeps M P := by
  refine .foldl (.modCore (.foldlFst h fun q _ h => ?_)) fun _ _ h => h.modThread
  split
  · next e => exact h.registerRecords e
  · exact h

theorem State.keeps.reenterOn {core tids f} : (s.reenterOn core tids f).keeps M P := .ite h.reenterAll h

theorem State.keeps.reenterHeld {core tids} : (s.reenterHeld core tids).keeps M P := h.reenterOn

theorem State.keeps.reenterLeft {core} : (s.reenterLeft core).keeps M P := h.reenterHeld

theorem State.keeps.resumeCopies {core f} : (s.resumeCopies core f).keeps M P := h.modCore

theorem State.keeps.resumeCore {core} : (s.resumeCore core).keeps M P := .ite h (.resumeCopies h.reenterHeld)

theorem State.keeps.endHandling {tid byAllowance} : (s.endHandling tid byAllowance).keeps M P := by
  unfold State.endHandling
  dsimp only
  split
  · exact h
  · exact .ite h (.recordShed (.ite (.modArb h.setAny) h.setAny))

theorem State.keeps.applyShed {core o raiser cfg} : (s.applyShed core o raiser cfg).keeps M P := by
  unfold State.applyShed
  extract_lets r s1 tval s2 s3
  have h1 : s1.keeps M P := h.modCore
  have h2 : s2.keeps M P := by
    unfold s2
    split
    · exact h1
    · exact .ite (.endHandling h1.setAny) (.ite h1.setAny h1.setAny)
  exact .sig (.ite h2 (.foldl h2 fun _ _ h => h.recordShed))

theorem State.keeps.applyResume {core o cfg} : (s.applyResume core o cfg).keeps M P := by
  unfold State.applyResume
  dsimp only
  split
  · exact .ite (.modArb h.modCore) h.modCore
  · exact .ite (.endHandling (.setAny h.modCore)) (.resumeCopies (.reenterOn (.setAny h.modCore)))

theorem State.keeps.applyReadmit {core o} : (s.applyReadmit core o).keeps M P := by
  unfold State.applyReadmit
  extract_lets was shed s1 s2 s3 s4
  have h3 : s3.keeps M P := .reenterOn (.foldl h.modCore fun _ _ h => h.modThread)
  exact .sig (.ite h3 h3.resumeCopies)

theorem State.keeps.applyChange {core x} : (s.applyChange core x).keeps M P := by
  unfold State.applyChange
  split
  · exact h.modCore
  · exact h.applyShed
  · exact h.applyResume
  · exact h.applyReadmit
  · exact h.modCore
  · exact h
  · exact h

theorem State.keeps.relayDone : s.relayDone.keeps M P := .foldl h.modArb fun _ _ h => h.complete

theorem State.keeps.applyEntry {core l} : (s.applyEntry core l).keeps M P := .foldl h.modCore fun _ _ h => h.applyChange

theorem State.keeps.applyNext {core} : (s.applyNext core).keeps M P := by
  unfold State.applyNext
  split
  · exact h
  · exact .ite (.relayDone h.applyEntry) h

theorem State.keeps.syncCore {core} : (s.syncCore core).keeps M P := .ite h (.foldl h fun _ _ h => h.applyEntry)

theorem State.keeps.setOwner {o r} : (s.setOwner o r).keeps M P := h.modArb

theorem State.keeps.relayAll {l} : (s.relayAll l).keeps M P := h.modArb

theorem State.keeps.raiseTo {o m} : (s.raiseTo o m).keeps M P := .ite h (.relayAll h.modArb)

theorem outKeeps.execRaise : outKeeps M P (execRaise s) := .next (.foldl h.modArb fun _ _ h => h.raiseTo)

theorem State.keeps.fallStep : s.fallStep.keeps M P := .relayAll h.modArb

theorem outKeeps.execFallCheck : outKeeps M P (execFallCheck s) := .ite (.next (.ite (.fallStep h.modArb) h.modArb)) (.next h)

theorem State.keeps.endFalling : s.endFalling.keeps M P := .ite (.relayAll h.modArb) h

theorem outKeeps.execReadmissionReport {owner} : outKeeps M P (execReadmissionReport owner s) :=
  .ite (.ite (.next (.endFalling (.relayAll (.setOwner h.modArb)))) (.next h.modArb)) (.next h)

theorem State.keeps.applyOf {core k} : (s.applyOf core k).keeps M P := by
  unfold State.applyOf
  split
  · exact .ite h.applyNext h
  · exact h

theorem State.keeps.reportFor {o ended} : (s.reportFor o ended).keeps M P := .ite h.modArb h

theorem State.keeps.writeOwner {o r} : (s.writeOwner o r).keeps M P := by
  unfold State.writeOwner
  extract_lets old m put
  have hp : ∀ st l, (put st l).keeps M P := fun _ _ => .endFalling (.reportFor (.relayAll h.setOwner))
  exact .ite (.ite (hp _ _) (hp _ _)) (.ite (hp _ _) (.ite (.ite (hp _ _) (hp _ _)) (hp _ _)))

theorem State.keeps.ucfgOwner {o d} : (s.ucfgOwner o d).1.keeps M P := .iteFst h (.iteFst h h.writeOwner)

theorem State.keeps.answerUcfg {r} : (s.answerUcfg r).keeps M P := by
  unfold State.answerUcfg
  dsimp only
  split
  · exact .modArb h.ucfgOwner
  · exact .modArb h.relayAll
  · exact .modArb (.relayAll h.modArb)

theorem State.keeps.answerAll : s.answerAll.keeps M P := .relayDone (.foldl h.modArb fun _ _ h => h.answerUcfg)

theorem State.keeps.changeMeter {core o f} : (s.changeMeter core o f).keeps M P := by
  unfold State.changeMeter
  split
  · exact .noteMeter h.modCore
  · exact h

theorem State.keeps.jobOp {core j} : (s.jobOp core j).keeps M P := by
  unfold State.jobOp
  split
  · exact h.changeMeter
  · exact .changeMeter h.modThread

theorem State.keeps.endCore {core} : (s.endCore core).keeps M P := by
  unfold State.endCore
  extract_lets k s1 s2
  have h2 : s2.keeps M P := .foldl (.foldl h fun _ _ h => h.checkMeter) fun _ _ h => h.jobOp
  exact .ite h2 h2.modCore

theorem State.keeps.endMeters : s.endMeters.keeps M P := .foldl h fun _ _ h => h.endCore

theorem State.keeps.dropSteward {tid} : (s.dropSteward tid).keeps M P := by
  unfold State.dropSteward
  dsimp only
  split
  · exact h
  · exact .ite (.reportFor (.setOwner h.endHandling)) h.endHandling

theorem State.keeps.place {tid t} : (s.place tid t).keeps M P := .setThread (.ite (.allocMeter h.syncCore) h.syncCore)

/-! #### Loads, stores and atomics -/

theorem outKeeps.loadForm {t d z w va} : outKeeps M P (s.loadForm t d z w va) := by
  unfold State.loadForm
  refine .waitWt h fun _ => ?_
  refine .access h fun _ _ h => ?_
  split
  · exact .loadHere h.reach
  · exact .request h

theorem outKeeps.storeForm {t v z w va} : outKeeps M P (s.storeForm t v z w va) := by
  unfold State.storeForm
  refine .waitWt h fun _ => ?_
  refine .access h fun _ _ h => ?_
  split
  · exact .finish (.writeLoc h.reach)
  · exact .post h fun _ _ h => .finish h

theorem outKeeps.amoForm {k rd ra rb z w} : outKeeps M P (s.amoForm k rd ra rb z w) := by
  unfold State.amoForm
  refine .onThread fun _ => ?_
  refine .waitWt h fun _ => ?_
  refine .access h fun _ _ h => ?_
  dsimp only
  split
  · exact .write (.doAmo h.reach)
  · split
    · exact .ite (.request h) (.release h fun _ => .hold h)
    · exact .request h

theorem outKeeps.redForm {k t va n v w} : outKeeps M P (s.redForm k t va n v w) := by
  unfold State.redForm
  refine .waitWt h fun _ => ?_
  refine .access h fun _ _ h => ?_
  split
  · exact .finish (.doRed h.reach)
  · exact .post h fun _ _ h => .finish h

theorem outKeeps.migTo {t d target} : outKeeps M P (s.migTo t d target) := .ite (.write h) (.ite (.write h) (.ite (.write h) (.wait h)))

theorem outKeeps.execMig {rd ra} : outKeeps M P (execMig rd ra s) := by
  unfold Machine.execMig
  refine .onThread fun _ => ?_
  refine .release h fun _ => ?_
  dsimp only
  refine .ite (.until h) ?_
  split
  · exact .addr h
  · refine .translate h fun _ _ h => ?_
    split
    · exact .pageFault h
    · exact .ite (.pageFault h) (.ite (.write h) (.migTo h))
  · exact .write h

theorem outKeeps.execMigc {rd ra} : outKeeps M P (execMigc rd ra s) := .onThread fun _ => .release h fun _ => .ite (.until h) (.migTo h)

theorem outKeeps.fenceForm {c n m} : outKeeps M P (s.fenceForm c n m) := by
  unfold State.fenceForm
  refine .onThread fun _ => ?_
  split
  · exact .trap h
  · exact .ite (.finish h) (.await h)

theorem outKeeps.execFenceCore : outKeeps M P (execFenceCore s) := .onThread fun _ => .finish h

theorem State.keeps.lookedFor {part a} : (s.lookedFor part a).keeps M P := by
  have h1 := h.looked (core := coreOf s.cur) (part := part) (va := a)
  exact .ite h1 (.ite h1.sig h1.sig.sig)

theorem outKeeps.execPfl {ra} : outKeeps M P (execPfl ra s) := by
  refine .onThread fun t => ?_
  extract_lets s1
  have h1 : s1.keeps M P := by
    unfold s1
    split
    · exact h.lookedFor
    · exact h
  split
  · exact .finish (.modCore (.ite h1 h1.sig))
  · exact .finish h1

theorem outKeeps.execXlat {rd ra} : outKeeps M P (execXlat rd ra s) := by
  unfold Machine.execXlat
  refine .onThread fun _ => ?_
  split
  · exact .write h
  · refine .translate h fun _ _ h => ?_
    split
    · exact .write h
    · exact .write h
  · exact .write h

/-! #### State registers -/

theorem State.keeps.writeOwnerReg {o n v} : (s.writeOwnerReg o n v).keeps M P := .ite h.writeOwner h

theorem State.keeps.writePriv {t v} : (s.writePriv t v).1.keeps M P := .iteFst h (.ite h.allocMeter h)

theorem State.keeps.csrWrite {t n v} : (s.csrWrite t n v).1.keeps M P := by
  unfold State.csrWrite
  dsimp only
  split
  case h_6 => exact h.writePriv
  case h_26 | h_27 | h_28 | h_29 | h_30 | h_31 => exact h.writeOwnerReg
  all_goals exact h

theorem outKeeps.csrAccess {n write k} (hk : ∀ x0, outKeeps M P (k x0)) : outKeeps M P (s.csrAccess n write k) := by
  unfold State.csrAccess
  refine .onThread fun _ => ?_
  split
  · exact .illegal h
  · refine .ite (.illegal h) ?_
    refine .ite (.priv h) ?_
    split
    · exact hk _
    · exact .ite (.await h) (hk _)
    · exact .poisonFirst h fun _ => .ite (.await h) (hk _)

theorem outKeeps.execCsrr {rd n} : outKeeps M P (execCsrr rd n s) := .csrAccess h fun _ => .write h

theorem outKeeps.execCsrw {ra n} : outKeeps M P (execCsrw ra n s) := .csrAccess h fun _ => .finish h.csrWrite

theorem outKeeps.execCsrx {rd ra n} : outKeeps M P (execCsrx rd ra n s) := .csrAccess h fun _ => .write h.csrWrite

/-! #### Urgency -/

theorem outKeeps.execJbeg : outKeeps M P (execJbeg s) := .onThread fun _ => .finish h.modCore

theorem outKeeps.execJend {rd} : outKeeps M P (execJend rd s) := .onThread fun _ => .ite (.await h) (.finish h.modCore)

theorem outKeeps.execUchg {ra rd} : outKeeps M P (execUchg ra rd s) := .onThread fun _ => .write (.ite h.accrue h)

theorem outKeeps.execUown {ra rd} : outKeeps M P (execUown ra rd s) :=
  .onThread fun _ => .ite (.priv h) (.ite (.write h) (.ite (.write h) (.ite (.afterRetire (.write h.allocMeter) fun _ h => h.sweepMeters)
    (.write h))))

theorem outKeeps.execUownSt {rd} : outKeeps M P (execUownSt rd s) :=
  .onThread fun _ => .ite (.write h) (.ite (.write h) (.ite (.write h) (.write (.reportFor h.setOwner))))

theorem outKeeps.sendUcfg {t d w} : outKeeps M P (s.sendUcfg t d w) := .wait h.modArb

theorem outKeeps.execUcfgOwn {ra rb rd} : outKeeps M P (execUcfgOwn ra rb rd s) :=
  .onThread fun _ => .ite (.priv h) (.lmAccess h fun _ _ h => .sendUcfg h)

theorem outKeeps.execUcfgTab {ra rb rd} : outKeeps M P (execUcfgTab ra rb rd s) :=
  .onThread fun _ => .ite (.priv h) (.lmAccess h fun _ _ h => .ite (.write h) (.sendUcfg h))

theorem outKeeps.execUcfgArb {ra rd} : outKeeps M P (execUcfgArb ra rd s) := .onThread fun _ => .ite (.priv h) (.sendUcfg h)

theorem State.keeps.enterHandler {tid t code tpc tstat2 tval r} : (s.enterHandler tid t code tpc tstat2 tval r).keeps M P := h.setThread

theorem outKeeps.execShed {tid} : outKeeps M P (execShed tid s) := by
  unfold Machine.execShed
  split
  · exact .next h
  · refine .ite (.next h) ?_
    split
    · exact .next h.enterHandler
    · exact .next h.enterHandler
    · exact .next h

theorem outKeeps.execResumeTrap {tid} : outKeeps M P (execResumeTrap tid s) := by
  unfold Machine.execResumeTrap
  split
  · exact .next h
  · refine .ite (.next h) ?_
    split
    · exact .next h.enterHandler
    · exact .next h

theorem outKeeps.execAllowanceExpiry {tid} : outKeeps M P (execAllowanceExpiry tid s) := by
  unfold Machine.execAllowanceExpiry
  split
  · exact .next h
  · exact .next (.ite h.endHandling h)

theorem outKeeps.execBudget {tid} : outKeeps M P (execBudget tid s) := by
  unfold Machine.execBudget
  split
  · exact .next h
  · refine .ite (.next h) ?_
    split
    · exact .next h.serviceTrap
    · exact .next h

/-! #### Queues -/

theorem State.keeps.modQueue {part q f} : (s.modQueue part q f).keeps M P := .fire h.modPart

theorem outKeeps.atQueue {t handle write w k} (hk : ∀ x0, outKeeps M P (k x0)) : outKeeps M P (s.atQueue t handle write w k) := by
  unfold State.atQueue
  split
  · exact .addr h
  · exact .ite (.trap h) (.atPlace h fun _ _ => hk _)

theorem State.keeps.qServed {part p} : (s.qServed part p).keeps M P := by
  unfold State.qServed
  split
  · exact h.reply
  · exact h.modQueue

theorem State.keeps.qRun {n part q} : (State.qRun n s part q).keeps M P := by
  induction n generalizing s q with
  | zero => exact h
  | succ n ih =>
    unfold State.qRun
    dsimp only
    split
    · split
      · exact ih (.reply h.modQueue)
      · split
        · refine ih ?_
          split
          · exact ih (.qServed h.modQueue)
          · exact .qServed h.modQueue
        · split
          · exact ih (.reply h.modQueue)
          · exact h
    · exact ih (.reply h.modQueue)
    · exact .ite (ih (.reply h.modQueue)) h
    · exact h

theorem State.keeps.qServe {part q} : (s.qServe part q).keeps M P := h.qRun

theorem State.keeps.qClose {part q} : (s.qClose part q).keeps M P := .qServe h.modQueue

theorem State.keeps.qPush {part q item s'} (e : s.qPush part q item = some s') : s'.keeps M P := by
  unfold State.qPush at e
  dsimp only at e
  split at e
  · cases e
    exact .qServe h.modQueue
  · cases e

theorem State.keeps.qPop {part q v s'} (e : s.qPop part q = some (v, s')) : s'.keeps M P := by
  unfold State.qPop at e
  split at e
  · cases e
    exact .qServe h.modQueue
  · cases e

theorem State.keeps.ringDrain {n part} : (State.ringDrain n s part).keeps M P := by
  induction n generalizing s with
  | zero => exact h
  | succ n ih =>
    unfold State.ringDrain
    split
    · split
      · exact h
      · split
        · next e => exact ih (h.qPush e).modPart
        · exact h
    · exact h

theorem outKeeps.answer {t k writes} : outKeeps M P (s.answer t k writes) := .afterRetire (.wait h) fun _ h => h.reply

theorem outKeeps.execQput {ra rb rd f} : outKeeps M P (execQput ra rb rd f s) := by
  unfold Machine.execQput
  refine .onThread fun _ => ?_
  refine .release h fun _ => ?_
  refine .atQueue h fun _ => ?_
  dsimp only
  split
  · exact .answer (.ite h h.qClose)
  · exact .ite (.answer h) (.ite (.answer h) (.answer (.qServe h.modQueue)))
  · exact .afterRetire (.wait h) fun _ h => .qServe h.modQueue

theorem outKeeps.execQget {ra rb rd n} : outKeeps M P (execQget ra rb rd n s) :=
  .onThread fun _ => .atQueue h fun _ => .ite (.answer h) (.afterRetire (.wait h) fun _ h => .ringDrain (.qServe h.modQueue))

theorem outKeeps.execQstat {ra rd} : outKeeps M P (execQstat ra rd s) := .onThread fun _ => .atQueue h fun _ => .answer h

theorem outKeeps.execQueueCreate {part q} : outKeeps M P (execQueueCreate part q s) := .ite (.next h) (.next (.ringDrain h.modQueue))

theorem outKeeps.execQueueRemove {part q} : outKeeps M P (execQueueRemove part q s) :=
  .ite (.next h) (.next (.modQueue (.qClose h.modQueue)))

/-! #### Traps and system calls -/

theorem outKeeps.execTrap {c} : outKeeps M P (execTrap c s) := .onThread fun _ => .next (.retire h.trapAt)

theorem outKeeps.execTret : outKeeps M P (execTret s) :=
  .onThread fun _ => .ite (.illegal h) (.afterRetire (.jump h) fun _ h => .ite h.endHandling h)

theorem outKeeps.execBrk {c} : outKeeps M P (execBrk c s) := .onThread fun _ => .ite (.finish h) (.trap h)

theorem outKeeps.execUnassignedEncoding {w} : outKeeps M P (execUnassignedEncoding w s) := .onThread fun _ => .illegal (.upd h)

theorem State.keeps.pipeWrite {part off ws} : (s.pipeWrite part off ws).keeps M P :=
  .foldlFst h fun _ _ h => h.writeLoc

theorem State.keeps.postCall {part e tid t call} : (s.postCall part e tid t call).keeps M P := .ringDrain (.pipeWrite h.modPart)

theorem outKeeps.callForm {ra full} (hfull : ∀ x0, outKeeps M P (full x0)) : outKeeps M P (s.callForm ra full) := by
  unfold State.callForm
  refine .onThread fun _ => ?_
  refine .ite (.illegal h) ?_
  refine .release h fun _ => ?_
  refine .atPlace h fun _ _ => ?_
  split
  · exact hfull _
  · split
    · exact .afterRetire (.wait h) fun _ h => h.postCall
    · exact hfull _

theorem outKeeps.execSysc {ra} : outKeeps M P (execSysc ra s) := .callForm h fun _ => .afterRetire (.wait h) fun _ h => h.modPart

theorem outKeeps.execSyscNb {ra} : outKeeps M P (execSyscNb ra s) := .callForm h fun _ => .answer h

theorem State.keeps.serveRing {part} : (s.serveRing part).keeps M P := by
  unfold State.serveRing
  dsimp only
  split
  · exact h
  · split
    · split
      · exact .postCall (.setThread h.setPart)
      · exact h.setPart
    · exact h

theorem outKeeps.execSyscallComplete {part entry} : outKeeps M P (execSyscallComplete part entry s) := by
  unfold Machine.execSyscallComplete
  split
  · exact .next h
  · split
    · exact .next h
    · extract_lets m g1 g2 s1 s2
      have h1 : s1.keeps M P := .pipeWrite h.setPart
      have h2 : s2.keeps M P := by
        unfold s2
        split
        · exact .ite h1.reply h1
        · exact h1
      split
      · exact .next h
      · exact .next h2.serveRing

theorem outKeeps.execFaultQueuePut {part} : outKeeps M P (execFaultQueuePut part s) := by
  unfold Machine.execFaultQueuePut
  split
  · split
    · exact .next h
    · split
      · next e => exact .next (h.qPush e).modPart
      · exact .next h
  · exact .next h

theorem State.keeps.freeFault {part f} : (s.freeFault part f).keeps M P := by
  unfold State.freeFault
  dsimp only
  split
  · exact h
  · split
    · exact h.setPart
    · split
      · split
        · exact .park h.setPart
        · exact h.setPart
      · exact h.setPart

theorem outKeeps.execCopydone {tid} : outKeeps M P (execCopydone tid s) := by
  unfold Machine.execCopydone
  dsimp only
  split
  · exact .next h
  · refine .ite (.next h) ?_
    split
    · exact .ite (.next h.setThread) (.next h.setThread)
    · exact .next h

theorem outKeeps.execChildfault {tid} : outKeeps M P (execChildfault tid s) := by
  unfold Machine.execChildfault
  dsimp only
  split
  · exact .next h
  · refine .ite (.next h) ?_
    split
    · exact .ite (.next h.setThread) (.next h.setThread)
    · exact .next h

theorem State.keeps.takeMcheck {tid t i insn} : (s.takeMcheck tid t i insn).keeps M P := h.trapAt

theorem State.keeps.takeDeadlock {tid t v} : (s.takeDeadlock tid t v).keeps M P := .serviceTrap h.modPart

theorem State.keeps.deliver {r} : (s.deliver r).keeps M P := by
  unfold State.deliver
  dsimp only
  split
  · exact h
  · split
    · exact h.trapAt
    · exact h.complete

theorem outKeeps.execReplyArrival {tid} : outKeeps M P (execReplyArrival tid s) := by
  unfold Machine.execReplyArrival
  split
  · exact .next h
  · exact .next (.deliver (.upd h))

theorem outKeeps.execWaitwWake {tid} : outKeeps M P (execWaitwWake tid s) := by
  unfold Machine.execWaitwWake
  split
  · exact .next h
  · exact .next (.deliver (.upd h))

theorem outKeeps.execDivideResult {tid} : outKeeps M P (execDivideResult tid s) := by
  unfold Machine.execDivideResult
  split
  · exact .next h
  · split
    · exact .ite (.next h.complete) (.next h)
    · exact .next h

theorem State.keeps.stage {core image n} : (s.stage core image n).keeps M P := .withSets h.modCore

theorem outKeeps.execCch {ra rb rd} : outKeeps M P (execCch ra rb rd s) := by
  unfold Machine.execCch
  refine .onThread fun _ => ?_
  dsimp only
  split
  · exact .answer h.stage
  · refine .ite (.priv h) ?_
    refine .lmAccess h fun _ _ h => ?_
    split
    · exact .write h
    · exact .ite (.write h) (.ite (.write h) (.ite (.write h.stage) (.request h)))

theorem outKeeps.execCoucheInForce {core} : outKeeps M P (execCoucheInForce core s) := by
  unfold Machine.execCoucheInForce
  dsimp only
  split
  · exact .ite (.next h.modCore) (.next h)
  · exact .next h

theorem State.keeps.dropPages {part lo n} : (s.dropPages part lo n).keeps M P := h.overCores

theorem outKeeps.tlbiForm {t lo n} : outKeeps M P (s.tlbiForm t lo n) := by
  unfold State.tlbiForm
  dsimp only
  split
  · exact .finish h.dropPages
  · exact .release h fun _ => .ite (.finish h.dropPages) (.await h.dropPages)

/-! #### Parcels, walks and migration -/

theorem State.keeps.setParcel {p} : (s.setParcel p).keeps M P := h

theorem State.keeps.dropParcel {p} : (s.dropParcel p).keeps M P := h

theorem State.keeps.performed {p err} : (s.performed p err).keeps M P := .ite h.dropParcel h.setParcel

theorem State.keeps.answered {p r} : (s.answered p r).keeps M P := .ite (.reply h.dropParcel) h.dropParcel

theorem State.keeps.arrived {p} : (s.arrived p).keeps M P := by
  unfold State.arrived
  split
  · exact h.sig
  · exact h

theorem outKeeps.arrive {src seq want k} (hk : ∀ x0 s, s.keeps M P → (k x0 s).keeps M P) : outKeeps M P (s.arrive src seq want k) := by
  unfold State.arrive
  split
  · exact .next h
  · refine .ite (.next h) ?_
    extract_lets fresh p s1
    have h1 : s1.keeps M P := .ite h.arrived h
    exact .ite (.next h1.setParcel) (.ite (.next h1.setParcel) (.ite (.next h1.setParcel) (.next (hk _ _ h1.setParcel))))

theorem State.keeps.reachParcel {p} : (s.reachParcel p).keeps M P := by
  unfold State.reachParcel
  split
  · exact h.throughL1
  · exact h.sig
  · exact h

theorem State.keeps.performOp {p data} : (s.performOp p data).keeps M P := by
  unfold State.performOp
  dsimp only
  split
  · split
    · exact .withTurns (.setThread h.dropParcel)
    · exact h.dropParcel
  · split
    · exact .withTurns (.setThread h.dropParcel)
    · exact h.dropParcel

theorem State.keeps.performAccess {p} : (performAccess p s).keeps M P := by
  unfold Machine.performAccess
  dsimp only
  refine .ite (.ite h.answered h.performed) ?_
  refine .ite (.ite h.answered h.setParcel) ?_
  refine .ite (.ite h.answered h.performed) ?_
  refine .ite (.ite h.answered h.performed) ?_
  split
  · exact .performOp h.reachParcel
  · exact .performed (.writeLoc h.reachParcel)
  · exact .performed (.doRed h.reachParcel)
  · exact .answered h.reachParcel
  · exact .answered (.doAmo h.reachParcel)
  · exact h.reachParcel

theorem outKeeps.execArrivalParcel {src seq} : outKeeps M P (execArrivalParcel src seq s) := by
  unfold Machine.execArrivalParcel
  refine .arrive h fun _ _ h => ?_
  split
  · exact .ite h.performed (.performed h.noteArrival)
  · exact h

theorem outKeeps.execClusterBarrierArrival {src seq} : outKeeps M P (execClusterBarrierArrival src seq s) := by
  unfold Machine.execClusterBarrierArrival
  refine .arrive h fun _ _ h => ?_
  dsimp only
  split
  · split
    · split
      · exact .complete (.dropParcel h.arriveClBar)
      · exact .dropParcel h.arriveClBar
    · exact .dropParcel h.arriveClBar
  · exact h

theorem State.keeps.startHandler {core} : (s.startHandler core).keeps M P := by
  unfold State.startHandler
  split
  · exact .modCore h.place
  · exact h

theorem State.keeps.handlerQueued {p} : (s.handlerQueued p).keeps M P := h

theorem State.keeps.performHandler {p} : (performHandler p s).keeps M P := by
  unfold Machine.performHandler
  dsimp only
  split
  · exact .ite h.performed (.ite h.setParcel (.startHandler (.performed (.handlerQueued (.modCore (.ite h.allocMeter h))))))
  · exact h

theorem outKeeps.execHandlerParcel {src seq} : outKeeps M P (execHandlerParcel src seq s) := .arrive h fun _ _ h => h.performHandler

theorem State.keeps.wakeSlot {tid} : (s.wakeSlot tid).keeps M P := by
  unfold State.wakeSlot
  split
  · exact h
  · split
    · exact h.complete
    · exact .ite h h.setThread

theorem outKeeps.execWakeParcel {src seq} : outKeeps M P (execWakeParcel src seq s) := by
  unfold Machine.execWakeParcel
  refine .arrive h fun _ _ h => ?_
  split
  · exact .ite h.performed (.performed h.wakeSlot)
  · exact h

theorem outKeeps.execAcknowledgement {src seq} : outKeeps M P (execAcknowledgement src seq s) := by
  unfold Machine.execAcknowledgement
  dsimp only
  split
  · exact .next h
  · exact .ite (.next h) (.next (.modThread h.dropParcel))

theorem State.keeps.resend {p} : (s.resend p).keeps M P := .setParcel (.ite h.sig h)

theorem outKeeps.execParcelResend {src seq} : outKeeps M P (execParcelResend src seq s) := by
  unfold Machine.execParcelResend
  split
  · exact .ite (.next h.resend) (.next h)
  · exact .next h

theorem outKeeps.execCorrectableLinkError {src seq} : outKeeps M P (execCorrectableLinkError src seq s) := by
  unfold Machine.execCorrectableLinkError
  split
  · exact .ite (.next h) (.next h.resend)
  · exact .next h

theorem outKeeps.execParcelRefusedResend {src seq} : outKeeps M P (execParcelRefusedResend src seq s) := by
  unfold Machine.execParcelRefusedResend
  split
  · exact .ite (.next h.resend) (.next h)
  · exact .next h

theorem outKeeps.execHandlerResend {src seq} : outKeeps M P (execHandlerResend src seq s) := by
  unfold Machine.execHandlerResend
  split
  · exact .ite (.next h.resend) (.next h)
  · exact .next h

theorem outKeeps.lateParcel {src seq} : outKeeps M P (s.lateParcel src seq) := by
  unfold State.lateParcel
  split
  · exact .ite (.next h) (.ite (.next h.answered) (.next h.performed))
  · exact .next h

theorem State.keeps.serveWalkWait {n} : (s.serveWalkWait n).keeps M P := by
  refine .foldl h fun _ _ h => ?_
  split
  · split
    · next e => exact (h.joinWalk e).modThread
    · exact h
  · exact h

theorem outKeeps.execWalkComplete {hearth k} : outKeeps M P (execWalkComplete hearth k s) := by
  unfold Machine.execWalkComplete
  dsimp only
  split
  · exact .next h
  · refine .next ?_
    refine .serveWalkWait ?_
    refine .foldl h.setHearth fun _ _ h => ?_
    split
    · exact h
    · split
      · exact h.setThread
      · exact .setThread h.tlbFill
      · exact h

theorem State.keeps.moveApplier {part old new} : (s.moveApplier part old new).keeps M P := h.modPart

theorem State.keeps.leaveFor {tid slot t why} : (s.leaveFor tid slot t why).keeps M P := by
  unfold State.leaveFor
  extract_lets s1 s2 owner s3 m
  have h2 : s2.keeps M P := .ite h.syncCore.allocMeter h.syncCore
  have h3 : s3.keeps M P := .ite h2.setOwner h2
  exact .sig (.sig (.freeSlot (.withMoving h3.moveApplier)))

theorem outKeeps.execMigrationRequest {tid} : outKeeps M P (execMigrationRequest tid s) := by
  unfold Machine.execMigrationRequest
  split
  · exact .next h
  · split
    · refine .ite (.next h) ?_
      split
      · exact .ite (.next h) (.next h.trapAt)
      · split
        · exact .next h.leaveFor
        · split
          · exact .next h.complete
          · exact .next h.setThread
          · exact .next h.unblock
    · exact .next h

theorem State.keeps.land {m} : (s.land m).keeps M P := by
  unfold State.land
  extract_lets s1 m1 s2
  have h2 : s2.keeps M P := .sig (.place (.withMoving h.syncCore))
  split
  · exact h2.complete
  · exact h2

theorem outKeeps.execMigrationParcel {tid} : outKeeps M P (execMigrationParcel tid s) := by
  unfold Machine.execMigrationParcel
  split
  · exact .ite (.next h) (.next h.land)
  · exact .next h

/-! #### The crumb store -/

theorem State.keeps.modStore {part f} : (s.modStore part f).keeps M P := h.modPart

theorem State.keeps.crumbRef {part name} : (s.crumbRef part name).1.keeps M P := by
  unfold State.crumbRef
  split
  · exact h
  · exact .iteFst h h.modStore

theorem State.keeps.crumbDrop {part name} : (s.crumbDrop part name).1.keeps M P := by
  unfold State.crumbDrop
  split
  · exact h
  · exact .iteFst h (.iteFst h h.modStore)

theorem State.keeps.unitDrop {part name} : (s.unitDrop part name).keeps M P := .ite h (.ite h h.crumbDrop)

theorem State.keeps.heldDrops : s.heldDrops.keeps M P := .foldl (.upd h) fun _ _ h => h.unitDrop

theorem State.keeps.dropSlotLines {part slot} : (s.dropSlotLines part slot).keeps M P := by
  unfold State.dropSlotLines
  split
  · exact h.overCores
  · exact h

theorem State.keeps.dropCopies {part name} : (s.dropCopies part name).keeps M P := h

theorem State.keeps.takeCopy {n part name slot} : (s.takeCopy n part name slot).keeps M P := .ite h h.setHearth

theorem State.keeps.freeCrumb {part x} : (s.freeCrumb part x).keeps M P :=
  .modStore (.dropSlotLines (.dropCopies (.foldl h fun _ _ h => h.unitDrop)))

theorem outKeeps.execCrumbFree {part k} : outKeeps M P (execCrumbFree part k s) := by
  unfold Machine.execCrumbFree
  split
  · exact .next (.ite h h.freeCrumb)
  · exact .next h

/-! #### The copy engine -/

theorem State.keeps.modChan {core ch f} : (s.modChan core ch f).keeps M P := h.modCore

theorem State.keeps.wakeXwp {core ch} : (s.wakeXwp core ch).keeps M P := by
  unfold State.wakeXwp
  refine .foldl h fun _ _ h => ?_
  split
  · exact .ite h.complete h
  · exact h

theorem State.keeps.wakeXwait {core ch seq code} : (s.wakeXwait core ch seq code).keeps M P := by
  unfold State.wakeXwait
  refine .foldl h fun _ _ h => ?_
  split
  · exact .ite h.complete h
  · exact h

theorem State.keeps.copyArrive {core ch target b poison} : (s.copyArrive core ch target b poison).keeps M P := h.noteArrival

theorem State.keeps.endXfer {core x status reason} : (s.endXfer core x status reason).keeps M P := by
  unfold State.endXfer
  extract_lets s1 s2 s3 s4 s5 id s6 s7 s8
  have h3 : s3.keeps M P := .foldl (.freeLocks (.modChan h.modCore)) fun _ _ h => h.freeLocks
  have h4 : s4.keeps M P := .ite h3.unitDrop h3
  have h5 : s5.keeps M P := .ite h4.copyArrive h4
  have h6 : s6.keeps M P := .ite h5.modThread h5
  have h7 : s7.keeps M P := .ite h6.charge h6
  exact .sweepMeters (.wakeXwp (.wakeXwait h7.noteRetired))

theorem outKeeps.copyForm {f ins ra rd ch idx root} : outKeeps M P (s.copyForm f ins ra rd ch idx root) := by
  unfold State.copyForm
  refine .onThread fun _ => ?_
  dsimp only
  refine .ite (.priv h) ?_
  split
  · exact .addr h
  · split
    · exact .addr h
    · exact .ite (.bubble h) (.next (.setThread (.nextUid (.modCore (.modChan (.foldl h.addLocks fun _ _ h => h.addLocks))))))

theorem State.keeps.startXfer {core x} : (s.startXfer core x).keeps M P := .wakeXwp h.modChan

theorem State.keeps.startOut {core x} : (s.startOut core x).keeps M P := by
  unfold State.startOut
  extract_lets refuse leaves more x1 s1
  have hr : ∀ status, (refuse status).keeps M P := fun _ => .endXfer h.startXfer
  have h1 : s1.keeps M P := .startXfer h.crumbRef
  exact .ite (hr 1) (.ite (hr 2) (.ite (hr 1) (.ite h1.endXfer h1)))

theorem outKeeps.execCopyDispatch {core} : outKeeps M P (execCopyDispatch core s) := by
  unfold Machine.execCopyDispatch
  dsimp only
  split
  · exact .next h
  · exact .ite (.next h) (.next (.ite (.startOut h.modCore) (.startXfer h.modCore)))

theorem State.keeps.clearLine {l} : (s.clearLine l).keeps M P := by
  unfold State.clearLine
  split
  · exact h.modCore
  · exact h

theorem State.keeps.writeWords {ws} : (s.writeWords ws).keeps M P := .foldl h fun _ _ h => .writeLoc (.ite h.clearLine h)

theorem State.keeps.sigLms {l} : (s.sigLms l).keeps M P := .foldl h fun _ _ h => h.sig

theorem State.keeps.landWords {ws} : (s.landWords ws).keeps M P :=
  .foldl (.sigLms (.withWaiters (.writeWords (.upd h)))) fun _ _ h => h.fire

theorem State.keeps.failWords {ws} : (s.failWords ws).keeps M P :=
  .foldl h fun _ _ h => .withFresh (.ite h (.foldl h fun _ _ h => .ite h.writeLoc h))

theorem State.keeps.failGranule {core x recv} : (s.failGranule core x recv).keeps M P := h.failWords

theorem State.keeps.grantBeat {core ch} : (s.grantBeat core ch).keeps M P := h.modCore

theorem State.keeps.putXfer {core x} : (s.putXfer core x).keeps M P := h.modChan

theorem State.keeps.failAt {core x recv e} : (s.failAt core x recv e).keeps M P := h.modChan

theorem State.keeps.moveWords {core x recv i ws} : (s.moveWords core x recv i ws).keeps M P :=
  .ite (.grantBeat (.putXfer h.landWords)) (.grantBeat h.putXfer)

theorem State.keeps.readBeat {core x recv i} : (s.readBeat core x recv i).keeps M P := .putXfer h.sigLms

theorem State.keeps.beat {core x recv i} : (s.beat core x recv i).keeps M P := by
  unfold State.beat
  dsimp only
  split
  · exact h.failAt
  · split
    · exact .ite h.moveWords h.readBeat
    · exact .ite (.moveWords h.sigLms) h.readBeat

theorem outKeeps.execCopyBeat {core ch} : outKeeps M P (execCopyBeat core ch s) := by
  unfold Machine.execCopyBeat
  split
  · split
    · exact .ite (.next h.beat) (.next h)
    · exact .next h
  · exact .next h

theorem State.keeps.chargeGranule {core x b} : (s.chargeGranule core x b).keeps M P := h.charge

theorem State.keeps.shrink {core x n} : (s.shrink core x n).keeps M P := by
  unfold State.shrink
  dsimp only
  split
  · exact h
  · exact h
  · exact h.moveLocks

theorem State.keeps.granuleDone {core x g} : (s.granuleDone core x g).keeps M P := by
  unfold State.granuleDone
  extract_lets s1 x1 s2
  have h2 : s2.keeps M P := .shrink (.modChan h.chargeGranule)
  exact .ite h2.endXfer (.ite h2.endXfer h2.wakeXwp)

theorem State.keeps.granuleDoneMc {core x r g} : (s.granuleDoneMc core x r g).keeps M P := by
  unfold State.granuleDoneMc
  extract_lets s1 x1 s2 s3 s4
  have h2 : s2.keeps M P := .shrink (.modChan h.chargeGranule)
  have h4 : s4.keeps M P := .ite (.ite h2.moveLocks.copyArrive h2.moveLocks) h2
  exact .ite h4.endXfer (.ite h4.endXfer h4.wakeXwp)

theorem State.keeps.failXfer {core x} : (s.failXfer core x).keeps M P := by
  unfold State.failXfer
  split
  · exact .ite (.endXfer h.failGranule) h
  · exact h

theorem State.keeps.stopGranule {core x recv} : (s.stopGranule core x recv).keeps M P := .endXfer h.failWords

theorem State.keeps.landFlight {core x f} : (s.landFlight core x f).keeps M P := .ite h.stopGranule (.ite h (.putXfer h.landWords))

theorem outKeeps.execGranuleComplete {core ch} : outKeeps M P (execGranuleComplete core ch s) := by
  unfold Machine.execGranuleComplete
  split
  · exact .next h
  · split
    · exact .next h.landFlight
    · split
      · split
        · exact .next h.granuleDoneMc
        · exact .next h
      · exact .next h.failXfer
    · split
      · exact .next h.granuleDone
      · exact .next h.failXfer

theorem State.keeps.renewXfers : s.renewXfers.keeps M P := h.overCores

theorem State.keeps.lateXfer {core ch} : (s.lateXfer core ch).keeps M P := by
  unfold State.lateXfer
  split
  · exact .ite h.stopGranule h
  · exact h

theorem outKeeps.execTargetUnreachable {src seq} : outKeeps M P (execTargetUnreachable src seq s) := .ite (.next h.lateXfer) (.lateParcel h)

theorem outKeeps.execXwait {ra rd} : outKeeps M P (execXwait ra rd s) := by
  unfold Machine.execXwait
  refine .onThread fun _ => ?_
  split
  · exact .write h
  · exact .write h
  · exact .wait h

theorem State.keeps.killXfer {core x queued} : (s.killXfer core x queued).keeps M P := .ite h.endXfer (.ite h (.ite h.endXfer h.modChan))

theorem outKeeps.execXkill {ra rd} : outKeeps M P (execXkill ra rd s) := by
  unfold Machine.execXkill
  refine .onThread fun _ => ?_
  split
  · exact .write h
  · exact .write h
  · exact .afterRetire (.wait h) fun _ h => h.killXfer

/-! #### Barriers and waits -/

theorem State.keeps.setPod {id b} : (s.setPod id b).keeps M P := h

theorem State.keeps.sendFlit {link f} : (s.sendFlit link f).keeps M P := h

theorem State.keeps.podRelease {id result} : (s.podRelease id result).keeps M P := .setPod (.foldl h fun _ _ h => h.reply)

theorem State.keeps.podDown {b f} : (s.podDown b f).keeps M P := .foldl h fun _ _ h => h.sendFlit

theorem State.keeps.podTry {id} : (s.podTry id).keeps M P := by
  unfold State.podTry
  dsimp only
  refine .ite ?_ h
  split
  · exact .podRelease h.podDown
  · exact .ite h (.sendFlit h.setPod)

theorem State.keeps.podArrive {id} : (s.podArrive id).keeps M P := .ite (.podTry h.setPod) h.setPod

theorem State.keeps.bsetBar {core b n} : (s.bsetBar core b n).keeps M P := .ite h h.setBar

theorem outKeeps.execBset {ra rb z} : outKeeps M P (execBset ra rb z s) := by
  unfold Machine.execBset
  refine .onThread fun _ => ?_
  dsimp only
  split
  · exact .ite (.priv h) (.finish h.bsetBar)
  · exact .finish h.setClBar
  · exact .ite (.priv h) (.ite (.finish h.setPod) (.finish h))

theorem outKeeps.execBarr {ra rd z} : outKeeps M P (execBarr ra rd z s) := by
  unfold Machine.execBarr
  refine .onThread fun _ => ?_
  dsimp only
  split
  · exact .ite (.priv h) (.release h fun _ => .afterRetire (.write h) fun _ h => h.arriveBar)
  · exact .release h fun _ => .ask h
  · exact .illegal h

theorem outKeeps.barwNow {t d poison} : outKeeps M P (s.barwNow t d poison) := by
  unfold State.barwNow
  refine .afterRetire (.write h) fun _ h => ?_
  split
  · exact h.trapAt
  · exact h

theorem outKeeps.barwForm {t ra rd limit z} : outKeeps M P (s.barwForm t ra rd limit z) := by
  unfold State.barwForm
  extract_lets v me late
  split
  · exact .illegal h
  · exact .await h
  · exact .ite (.barwNow h) (.ite (.write h) (.wait h))
  · exact .ite (.barwNow h) (.ite (.write h) (.wait h))

theorem outKeeps.execBarwTimeout {tid} : outKeeps M P (execBarwTimeout tid s) := by
  unfold Machine.execBarwTimeout
  split
  · exact .next h
  · split
    · exact .ite (.next h.complete) (.next h)
    · exact .next h

theorem outKeeps.execBstat {ra rd z} : outKeeps M P (execBstat ra rd z s) := by
  unfold Machine.execBstat
  refine .onThread fun _ => ?_
  dsimp only
  split
  · exact .write h
  · exact .write h
  · exact .write h

theorem outKeeps.arrivalForm {t ra rb rd} : outKeeps M P (s.arrivalForm t ra rb rd) := .ite (.write h) (.post h fun _ _ h => .write h)

theorem outKeeps.execRarr {ra rb rd} : outKeeps M P (execRarr ra rb rd s) :=
  .onThread fun _ => .ite (.priv h) (.release h fun _ => .arrivalForm h)

theorem outKeeps.execXack {ra rb rd} : outKeeps M P (execXack ra rb rd s) :=
  .onThread fun _ => .ite (.priv h) (.release h fun _ => .ite (.arrivalForm h) (.until h))

theorem outKeeps.execPbar {ra rd} : outKeeps M P (execPbar ra rd s) :=
  .onThread fun _ => .release h fun _ => .ite (.afterRetire (.wait h) fun _ h => .podArrive h.setPod) (.write h)

theorem State.keeps.register {w} : (s.register w).keeps M P := .ite h (.fire (.upd h))

theorem outKeeps.execWaitw {ra rb rd c} : outKeeps M P (execWaitw ra rb rd c s) := by
  unfold Machine.execWaitw
  refine .onThread fun _ => ?_
  dsimp only
  split
  · exact .afterRetire (.wait h) fun _ h => h.register
  · refine .access h fun _ _ h => ?_
    split
    · exact .afterRetire (.wait h.reach) fun _ h => h.register
    · exact .request h

theorem outKeeps.execWaitwRetry {tid} : outKeeps M P (execWaitwRetry tid s) := by
  unfold Machine.execWaitwRetry
  dsimp only
  split
  · exact .next h
  · exact .ite (.next h) (.next (.register (.upd h)))

/-! #### Nests -/

theorem State.keeps.modFn {n g} : (s.modFn n g).keeps M P := by
  refine .modFw h fun h => ?_
  split <;> exact h

theorem State.keeps.writeResult {fn w status detail} : (s.writeResult fn w status detail).keeps M P := .ite (.modFw h.writeLoc) h.writeLoc

theorem State.keeps.hostResult {fn w status detail} : (s.hostResult fn w status detail).keeps M P :=
  .ite (.foldl h.modFn fun _ _ h => h.writeResult) h.writeResult

theorem State.keeps.modNest {part rec f} : (s.modNest part rec f).keeps M P := h.modPart

theorem State.keeps.modNode {part rec i f} : (s.modNode part rec i f).keeps M P := h.modNest

theorem State.keeps.openQueues {part x} : (s.openQueues part x).keeps M P := .foldl h fun _ _ h => h.modQueue

theorem State.keeps.writeTeam {part rec i} : (s.writeTeam part rec i).keeps M P := by
  unfold State.writeTeam
  dsimp only
  split
  · exact .withStarts h.pipeWrite
  · exact h

theorem State.keeps.placeTeam {part rec i} : (s.placeTeam part rec i).keeps M P := by
  unfold State.placeTeam
  dsimp only
  split
  · exact .ite h (.foldl (.foldl h fun _ _ h => h.setBar) fun _ _ h => .modThread h.place)
  · exact h

theorem State.keeps.placerWrites : s.placerWrites.keeps M P :=
  .upd (.foldl (.foldl h fun _ _ h => h.placeTeam) fun _ _ h => .arriveBar h.setBar)

theorem State.keeps.startNode {n part rec i iter stage inq outq} : (startNode n s part rec i iter stage inq outq).keeps M P := by
  induction n generalizing s i iter stage inq outq with
  | zero => exact h
  | succ n ih =>
    unfold Machine.startNode
    split
    · exact h
    · extract_lets s1 _ _ s2 s3 go
      have h3 : s3.keeps M P := .foldl (.modNode h.openQueues) fun _ _ h => h.modNode
      split
      · exact h3.writeTeam
      · exact h3.writeTeam
      · split
        · exact ih h3
        · exact h3
      · exact .foldl h3 fun _ _ h => ih h
      · split
        · exact ih h3
        · exact h3
      · exact .foldl h3 fun _ _ h => ih h

theorem State.keeps.freeNest {part rec} : (s.freeNest part rec).keeps M P := by
  unfold State.freeNest
  dsimp only
  split
  · exact h
  · exact .modPart (.foldl h fun _ _ h => .modQueue (.qClose h.modQueue))

theorem State.keeps.nestDone {part rec code} : (s.nestDone part rec code).keeps M P := by
  unfold State.nestDone
  split
  · exact h
  · extract_lets w s1 s2 s3 s4 s5
    have h2 : s2.keeps M P := .foldl h.pipeWrite.pipeWrite fun _ _ h => h.reply
    have h3 : s3.keeps M P := by
      unfold s3
      split
      · exact h2.hostResult
      · exact h2
    have h5 : s5.keeps M P := .modPart h3.modNest
    exact .ite h5.freeNest h5

theorem State.keeps.closeHandle {part n} : (s.closeHandle part n).keeps M P := by
  unfold State.closeHandle
  split
  · exact .ite h h.qClose
  · exact h

theorem State.keeps.nodeDone {n part rec i} : (nodeDone n s part rec i).keeps M P := by
  induction n generalizing s i with
  | zero => exact h
  | succ n ih =>
    unfold Machine.nodeDone
    split
    · exact h
    · extract_lets s1 s2
      have h2 : s2.keeps M P := .ite (.closeHandle h.modNode) h.modNode
      split
      · exact h2.nestDone
      · split
        · exact h2
        · extract_lets ended
          split
          · split
            · exact h2.startNode
            · exact ih h2
          · exact h2.modNest
          · exact .ite (ih h2.closeHandle) h2.closeHandle
          · exact .ite (ih h2) h2

theorem State.keeps.countDown {part rec i by_} : (s.countDown part rec i by_).keeps M P := by
  unfold State.countDown
  dsimp only
  split
  · exact h
  · exact .ite (.nodeDone h.pipeWrite) h.pipeWrite

theorem State.keeps.reserve {part q s' n} (e : s.reserve part q = .ok (s', n)) : s'.keeps M P := by
  unfold State.reserve at e
  dsimp only at e
  split at e
  · cases e
  · split at e
    · cases e
    · split at e
      · split at e <;> cases e
      · split at e
        · cases e
        · split at e
          · cases e
          · obtain ⟨rfl, -⟩ := Prod.mk.inj (Except.ok.inj e)
            exact .startNode (.pipeWrite (.foldl h.modPart fun _ _ h => h.openQueues))

theorem State.keeps.applyAnswer {part q r} : (s.applyAnswer part q r).keeps M P := by
  unfold State.applyAnswer
  split
  · exact h.reply
  · split
    · exact .ite h h.hostResult
    · exact h.hostResult
  · exact h

theorem State.keeps.tryApply {part q s'} (e : s.tryApply part q = some s') : s'.keeps M P := by
  unfold State.tryApply at e
  split at e
  · next er =>
    cases e
    exact (h.reserve er).applyAnswer
  · split at e
    · cases e
    · cases e
      exact h.applyAnswer

theorem outKeeps.execNestPlacerRequest {part} : outKeeps M P (execNestPlacerRequest part s) := by
  unfold Machine.execNestPlacerRequest
  split
  · exact .next h
  · split
    · exact .next h
    · dsimp only
      split
      · exact .next (.applyAnswer h.setPart)
      · refine .ite (.next (.modPart h.setPart)) ?_
        split
        · next e => exact .next (h.setPart.tryApply e)
        · exact .next (.modPart h.setPart)

theorem State.keeps.applyRetry {n part} : (applyRetry n s part).keeps M P := by
  induction n generalizing s with
  | zero => exact h
  | succ n ih =>
    unfold Machine.applyRetry
    split
    · split
      · next e => exact ih (h.modPart.tryApply e)
      · exact h
    · exact h

theorem outKeeps.execApplyWRetry {part} : outKeeps M P (execApplyWRetry part s) := by
  unfold Machine.execApplyWRetry
  split
  · exact .next h
  · exact .ite (.next (.applyRetry h.setPart)) (.next h)

theorem State.keeps.cancelWork {tid} : (s.cancelWork tid).keeps M P :=
  .modThread (.modCore (.foldl (.foldl (.foldl h fun _ _ h => h.freeLocks) fun _ _ h => h.freeLocks) fun _ _ h => h.mcancel))

theorem State.keeps.killAll {tid} : (s.killAll tid).keeps M P := by
  unfold State.killAll
  refine .foldl (.foldl h fun _ _ h => h.killXfer) fun _ _ h => ?_
  split
  · exact .ite h.killXfer h
  · exact h

theorem State.keeps.reap {part} : (s.reap part).keeps M P := by
  unfold State.reap
  split
  · exact h
  · exact .foldl h fun _ _ h => h.freeNest

theorem State.keeps.vacate {tid} : (s.vacate tid).keeps M P := by
  unfold State.vacate
  split
  · exact h
  · extract_lets s1
    have h1 : s1.keeps M P := .reap (.freeSlot (.freeTiles (.freeCtx h.dropSteward)))
    exact .ite h1.startHandler h1

theorem State.keeps.endThread {tid} : (s.endThread tid).keeps M P := .vacate (.killAll h.cancelWork)

theorem State.keeps.popDown {tid t} : (s.popDown tid t).keeps M P := by
  unfold State.popDown
  dsimp only
  split
  · exact h
  · refine .ite h ?_
    split
    · exact .sig (.upd h)
    · split
      · exact .ite (.doRed h.throughL1) (.sig (.upd h))
      · exact h
    · exact h

theorem State.keeps.landTeam {part rec node} : (s.landTeam part rec node).keeps M P := .foldl h fun _ _ h => h.land

theorem State.keeps.childfault {n entry tid cause abort requeued} : (s.childfault n entry tid cause abort requeued).keeps M P := by
  unfold State.childfault
  dsimp only
  split
  · exact h
  · exact .withMoving h.modThread

theorem State.keeps.abortNest {part rec} : (s.abortNest part rec).keeps M P := by
  unfold State.abortNest
  refine .nestDone ?_
  refine .foldl (.landTeam h.modNest) fun _ _ h => ?_
  split
  · exact .countDown h.endThread
  · exact h

theorem State.keeps.dropSaved {part rec i} : (s.dropSaved part rec i).keeps M P := h.modNest

theorem State.keeps.containTeam {part rec i} : (s.containTeam part rec i).keeps M P :=
  .countDown (.modNest (.modNode (.dropSaved (.foldl h.landTeam fun _ _ h => h.endThread))))

theorem State.keeps.requeue {part items} : (s.requeue part items).keeps M P := .foldl h fun _ _ h => h.modQueue

theorem State.keeps.retryTeam {part rec i n entry tid cause} : (s.retryTeam part rec i n entry tid cause).keeps M P := by
  unfold State.retryTeam
  extract_lets s1 m held fresh again qs s2 s3
  have h2 : s2.keeps M P := .childfault h.landTeam
  have h3 : s3.keeps M P := .foldl h2 fun _ _ h => h.endThread
  exact .ite (.foldl (.containTeam h2.requeue) fun _ _ h => h.qServe)
    (.foldl (.writeTeam (.dropSaved h3.requeue)) fun _ _ h => h.qServe)

theorem State.keeps.failThread {tid cause} : (s.failThread tid cause).keeps M P := by
  unfold State.failThread
  dsimp only
  split
  · exact h
  · split
    · exact .endThread h.popDown
    · split
      · split
        · exact .containTeam h.childfault
        · exact h.retryTeam
        · exact .abortNest (.modNest h.childfault)
      · exact h.endThread

theorem outKeeps.execLoopVerdictLoad {part nest} : outKeeps M P (execLoopVerdictLoad part nest s) := by
  unfold Machine.execLoopVerdictLoad
  dsimp only
  split
  · exact .next h
  · split
    · exact .next h
    · split
      · exact .next h
      · split
        · exact .next (.abortNest h.childfault)
        · refine .ite (.next h) ?_
          refine .ite (.next (.nodeDone h.modNest)) ?_
          split
          · exact .next (.startNode (.modNode h.modNest))
          · exact .next (.modNode h.modNest)

/-! #### Threads -/

theorem outKeeps.applyForm {ra rd w} : outKeeps M P (s.applyForm ra rd w) :=
  .onThread fun _ => .release h fun _ => .afterRetire (.wait h) fun _ h => h.modPart

theorem outKeeps.atEntry {t ra write w k} (hk : ∀ x0, outKeeps M P (k x0)) : outKeeps M P (s.atEntry t ra write w k) :=
  .atPlace h fun _ _ => hk _

theorem outKeeps.execPatch {ra rb rd} : outKeeps M P (execPatch ra rb rd s) :=
  .onThread fun _ => .atEntry h fun _ => .ite (.answer h) (.answer h.pipeWrite)

theorem outKeeps.execCread {ra rd} : outKeeps M P (execCread ra rd s) := .onThread fun _ => .atEntry h fun _ => .answer h

theorem outKeeps.execJoin {ra rd} : outKeeps M P (execJoin ra rd s) := by
  unfold Machine.execJoin
  refine .onThread fun _ => ?_
  split
  · exact .write h
  · exact .ite (.afterRetire (.write h) fun _ h => h.freeNest) (.afterRetire (.wait h) fun _ h => h.modNest)

theorem outKeeps.execSend {ra rb rd n} : outKeeps M P (execSend ra rb rd n s) :=
  .onThread fun _ => .ite (.write h) (.post h fun _ _ h => .write h)

theorem outKeeps.endForm {t} : outKeeps M P (s.endForm t) := by
  refine .poisonFirst h fun t => ?_
  extract_lets me mine queued s1
  have h1 : s1.keeps M P := .foldl h fun _ _ h => h.mcancel
  refine .ite (.until h1) ?_
  split
  · exact .until h1.modCore
  · refine .afterRetire (.finish h1) fun s h => ?_
    extract_lets s2 s3
    have h3 : s3.keeps M P := .vacate h.popDown.cancelWork
    split
    · exact h3.countDown
    · exact h3

theorem outKeeps.execHret : outKeeps M P (execHret s) := .onThread fun _ => .ite (.illegal h) (.release h fun _ => .endForm h)

theorem outKeeps.execExit : outKeeps M P (execExit s) := by
  unfold Machine.execExit
  refine .onThread fun _ => ?_
  refine .ite (.illegal h) ?_
  refine .release h fun _ => ?_
  split
  · exact .endForm h
  · exact .ite (.endForm h) (.access h fun _ _ h => .endForm h)

theorem outKeeps.putTake {t out inq item b d k} : outKeeps M P (s.putTake t out inq item b d k) :=
  .atPlace h fun _ _ => .afterRetire (.wait h) fun _ h => .qServe h.modQueue

theorem outKeeps.execYield {ra rb rd} : outKeeps M P (execYield ra rb rd s) := by
  unfold Machine.execYield
  refine .onThread fun _ => ?_
  split
  · exact .write h
  · refine .ite (.write h) ?_
    refine .release h fun _ => ?_
    split
    · exact .addr h
    · exact .addr h
    · exact .putTake h

theorem outKeeps.execResume {ra rb rd} : outKeeps M P (execResume ra rb rd s) := by
  unfold Machine.execResume
  refine .onThread fun _ => ?_
  split
  · exact .write h
  · split
    · exact .release h fun _ => .putTake h
    · exact .write h

theorem outKeeps.execKloadRefresh {cluster} : outKeeps M P (execKloadRefresh cluster s) := .ite (.next h) (.next h.setCluster)

theorem State.keeps.balanced {core} : (s.balanced core).keeps M P := h.modCore

theorem outKeeps.execBal {rd} : outKeeps M P (execBal rd s) := by
  unfold Machine.execBal
  refine .onThread fun _ => ?_
  dsimp only
  refine .ite (.write h) ?_
  split
  · exact .write h.balanced
  · exact .ite (.write h.balanced) (.release h fun _ => .wait h.balanced)

theorem outKeeps.execBalanceCheck {core} : outKeeps M P (execBalanceCheck core s) := by
  unfold Machine.execBalanceCheck
  dsimp only
  refine .ite (.next h) ?_
  split
  · exact .next (.setThread h.balanced)
  · exact .next h.balanced

theorem outKeeps.execSleepTimeout {tid} : outKeeps M P (execSleepTimeout tid s) := by
  unfold Machine.execSleepTimeout
  split
  · exact .next h
  · split
    · exact .ite (.next h.complete) (.next h)
    · exact .next h

theorem outKeeps.execWake {ra rd} : outKeeps M P (execWake ra rd s) :=
  .onThread fun _ => .ite (.write h) (.ite (.afterRetire (.write h) fun _ h => h.wakeSlot) (.post h fun _ _ h => .write h))

/-! #### Faults and lost cores -/

theorem State.keeps.reflect {part f tid t} : (s.reflect part f tid t).keeps M P := h.setThread

theorem State.keeps.resumeFrom {part f tid t} : (s.resumeFrom part f tid t).keeps M P := h.setThread

theorem outKeeps.execVerdictAction {part record} : outKeeps M P (execVerdictAction part record s) := by
  unfold Machine.execVerdictAction
  dsimp only
  split
  · exact .next h
  · split
    · exact .next h
    · exact .ite (.next h) (.next (.freeFault (.ite h.failThread (.ite h.resumeFrom (.ite h.failThread h.reflect)))))

theorem outKeeps.execDeadlock {part} : outKeeps M P (execDeadlock part s) := by
  unfold Machine.execDeadlock
  split
  · exact .next h
  · exact .ite (.next h) (.next h.setPart)

theorem State.keeps.watchReady : s.watchReady.keeps M P := h

theorem State.keeps.pendMcheck {tid sub} : (s.pendMcheck tid sub).keeps M P := .withFresh h.modThread

theorem State.keeps.loseXfer {core x} : (s.loseXfer core x).keeps M P := by
  unfold State.loseXfer
  extract_lets s1 s2 s3 s4
  have h3 : s3.keeps M P := .modChan (.modCore (.foldl h.freeLocks fun _ _ h => h.freeLocks))
  have h4 : s4.keeps M P := .ite h3.unitDrop h3
  exact .wakeXwp h4.wakeXwait

theorem State.keeps.loseCommands {core uids} : (s.loseCommands core uids).keeps M P :=
  .sweepMeters (.foldl (.modCore (.foldl (.foldl (.foldl h fun _ _ h => h.freeLocks) fun _ _ h => h.mcancel) fun _ _ h => h.loseXfer)) fun
    _ _ h => h.pendMcheck)

theorem State.keeps.loseThread {tid} : (s.loseThread tid).keeps M P := by
  unfold State.loseThread
  split
  · exact h
  · extract_lets v s1
    have h1 : s1.keeps M P := .orphan (.unwait (.upd h))
    split
    · exact h1.writeFault
    · exact h1.setThread
    · exact h1.park

theorem State.keeps.loseCore {core} : (s.loseCore core).keeps M P := .foldl (.foldl h.modCore fun _ _ h => h.land) fun _ _ h => h.loseThread

theorem outKeeps.execCoreFreeze {core lostSlots lostLines lostEngines} :
    outKeeps M P (execCoreFreeze core lostSlots lostLines lostEngines s) :=
  .ite (.next h) (.ite (.next h.modCore) (.ite (.next (.loseCore h.modCore)) (.next (.modCore (.loseCommands (.foldl (.setCluster
    h.modCore) fun _ _ h => h.pendMcheck))))))

/-! #### Saved contexts -/

theorem outKeeps.pagesOk {t kind k l} (hk : outKeeps M P k) : outKeeps M P (s.pagesOk t kind k l) := by
  induction l generalizing s with
  | nil => exact hk
  | cons a l ih =>
    refine .translate h fun s r h => ?_
    split
    · exact .pageFault h
    · exact .ite (.pageFault h) (.ite (.fault _) (ih h))

theorem outKeeps.imageRange {t va n kind k} (hk : outKeeps M P k) : outKeeps M P (s.imageRange t va n kind k) := by
  unfold State.imageRange
  dsimp only
  refine .ite (.addr h) ?_
  split
  · exact .ite hk (.addr h)
  · exact .ite (.pagesOk h hk) (.addr h)
  · exact .addr h

theorem State.keeps.writeImage {core t va l} : (s.writeImage core t va l).keeps M P := by
  induction l generalizing s va with
  | nil => exact h
  | cons w l ih =>
    refine ih ?_
    split
    · exact h.writeLoc
    · exact h

theorem State.keeps.dropWait {tid t} : (s.dropWait tid t).keeps M P := by
  unfold State.dropWait
  refine .unwait ?_
  split
  · exact .modThread (.modCore h.freeLocks)
  · exact h.modCore
  · exact h

theorem State.keeps.killPaused {tid} : (s.killPaused tid).keeps M P := .foldl (.foldl h fun _ _ h => h.endXfer) fun _ _ h => h.endXfer

theorem State.keeps.startSaving {tid t} : (s.startSaving tid t).keeps M P := .killPaused (.modThread h.dropWait)

theorem State.keeps.unload {tid t} : (s.unload tid t).keeps M P :=
  .freeSlot (.moveApplier (.freeTiles (.freeCtx (.modCore (.foldl h fun _ _ h => h.freeLocks)))))

theorem State.keeps.stopWork {tid} : (s.stopWork tid).keeps M P := .recordThread (.dropSteward h.killPaused)

theorem State.keeps.keepHeld {t} : (s.keepHeld t).keeps M P := by
  unfold State.keepHeld
  split
  · exact h.modNest
  · exact h

theorem State.keeps.takeHeld {t} : (s.takeHeld t).1.keeps M P := by
  unfold State.takeHeld
  split
  · exact h
  · split
    · exact h.modNest
    · exact h

theorem State.keeps.saveThread {tid} : (s.saveThread tid).1.keeps M P := by
  unfold State.saveThread
  split
  · exact .keepHeld h.unload
  · exact h

theorem outKeeps.saveOn {t x u va done} (hdone : ∀ s x1, s.keeps M P → outKeeps M P (done s x1)) :
    outKeeps M P (s.saveOn t x u va done) := by
  unfold State.saveOn
  dsimp only
  refine .ite (.await h) ?_
  split
  · exact hdone _ _ (.writeImage (.saveThread h.stopWork))
  · exact .await h.stopWork
  · exact .next h.stopWork

theorem outKeeps.execCsave {ra rb rd} : outKeeps M P (execCsave ra rb rd s) := by
  unfold Machine.execCsave
  refine .onThread fun _ => ?_
  dsimp only
  refine .ite (.priv h) ?_
  split
  · exact .write h
  · exact .ite (.write h) (.imageRange h (.ite (.write h) (.ite (.saveOn h fun _ _ h => .next h) (.ite (.saveOn h fun _ _ h => .write h)
    (.ite (.await h.startSaving) (.await h))))))

theorem State.keeps.loadImage {tid w vec mask} : (s.loadImage tid w vec mask).keeps M P := by
  unfold State.loadImage
  extract_lets core
  split
  next s1 t e =>
  have h1 : s1.keeps M P := by simpa only [e] using h.takeHeld (t := s.restand (threadOf w s.fresh) w)
  extract_lets s2 s3 s4 m v s5 s6
  have h3 : s3.keeps M P := .ite (.modCore (.upd h1)) (.upd h1)
  have h4 : s4.keeps M P := .foldl h3 fun _ _ h => h.modCore
  exact .discardPoisoned (.place (.moveApplier (.upd h4)))

theorem outKeeps.execCrest {ra rb rd} : outKeeps M P (execCrest ra rb rd s) := by
  unfold Machine.execCrest
  refine .onThread fun _ => ?_
  dsimp only
  refine .ite (.priv h) ?_
  refine .imageRange h ?_
  refine .ite (.write h) ?_
  refine .imageRange h ?_
  refine .ite (.write h) ?_
  refine .ite (.write h) ?_
  refine .ite (.until h) ?_
  refine .ite (.trap (.upd h)) ?_
  split
  · exact .ite (.write h) (.write h.loadImage)
  · exact .write h

/-! #### Resets -/

theorem State.keeps.drainBeats {core} : (s.drainBeats core).keeps M P := .foldl h fun _ _ h => .foldl h fun _ _ h => h.landWords

theorem State.keeps.drainParcel {q} : (s.drainParcel q).keeps M P := by
  unfold State.drainParcel
  refine .ite h ?_
  split
  · exact h.writeLoc
  · exact h.doRed
  · exact h.doAmo
  · exact h
  · exact h.noteArrival
  · exact h.arriveClBar
  · exact h
  · exact h.wakeSlot
  · exact h

theorem State.keeps.carryOps {part ended again s'} (e : s.carryOps part ended again = some s') : s'.keeps M P := by
  unfold State.carryOps at e
  dsimp only at e
  split at e
  · cases e
  · cases e
    exact .foldl (.foldl h fun _ _ h => h.performAccess) fun _ _ h => h.performAccess

theorem State.keeps.freeDying {n part} : (freeDying n s part).keeps M P := by
  induction n generalizing s with
  | zero => exact h
  | succ n ih =>
    unfold Machine.freeDying
    split
    · exact h
    · exact ih h.freeCrumb

theorem State.keeps.stopTransfers {core} : (s.stopTransfers core).keeps M P :=
  .foldl (.foldl (.foldl h fun _ _ h => .foldl h fun _ _ h => h.freeLocks) fun _ _ h => .ite h.unitDrop h) fun _ _ h => h.modChan

theorem State.keeps.resetCore {core} : (s.resetCore core).keeps M P :=
  .modCore (.withArrs (.foldl h.stopTransfers fun _ _ h => .ite h.noteMeter h)) fun _ _ => rfl

theorem State.keeps.scrubShares {part p monitor} : (s.scrubShares part p monitor).keeps M P := by
  refine .foldl h fun s k h => .setMem h fun hm => ?_
  split
  · rfl
  · have hb := Memory.wf_below 0x200000 hm
    split
    · exact Memory.wf_filter _ (Memory.wf_filter _ hb)
    · exact hb

theorem State.keeps.dropNumbers {part k gone} : (s.dropNumbers part k gone).keeps M P := by
  unfold State.dropNumbers
  split
  · exact .qServe h.modQueue
  · exact h

theorem State.keeps.dropHostWork {part} : (s.dropHostWork part).keeps M P :=
  .modFw (.foldl (.foldl (.foldl h fun _ _ h => h.hostResult) fun _ _ h => h.hostResult) fun _ _ h => h.hostResult)

theorem State.keeps.report {sender id code} : (s.report sender id code).keeps M P := .ite h h

theorem State.keeps.dropMessages {part goes} : (s.dropMessages part goes).keeps M P := .withMsgs (.foldl (.upd h) fun _ _ h => h.report)

theorem State.keeps.scrubTables {part p monitor ended} : (s.scrubTables part p monitor ended).keeps M P := by
  unfold State.scrubTables
  extract_lets goneF goneR s1 s2 s3 s4 s5
  have h1 : s1.keeps M P := by
    refine .foldl h fun _ _ h => .freeNest ?_
    split
    · exact h.hostResult
    · exact h
  have h2 : s2.keeps M P := by
    refine .foldl h1 fun _ _ h => ?_
    split
    · exact h.hostResult
    · exact h
  have h3 : s3.keeps M P := .foldl h2 fun _ _ h => h.pipeWrite
  have h5 : s5.keeps M P := .modPart h3.dropNumbers.dropNumbers
  exact .dropMessages (.dropHostWork (.foldl h5.modPart fun _ _ h => h.hostResult))

theorem State.keeps.resetOwners {part p} : (s.resetOwners part p).keeps M P :=
  .allThreads (.foldl (.endFalling (.modArb (.foldl h fun _ _ h => .ite (.relayAll h.setOwner) h.setOwner))) fun _ _ h => .ite
    h.changeMeter h)

theorem State.keeps.startKernel {part} : (s.startKernel part).keeps M P := by
  unfold State.startKernel
  split
  · exact h
  · exact h.place

theorem State.keeps.landAll {part} : (s.landAll part).keeps M P := .foldl h fun _ _ h => h.land

theorem State.keeps.drainUcfg {ended} : (s.drainUcfg ended).keeps M P := .modArb (.foldl h.modArb fun _ _ h => h.answerUcfg)

theorem State.keeps.resetPart {part monitor} : (s.resetPart part monitor).1.keeps M P := by
  unfold State.resetPart
  split
  · exact h
  · extract_lets here s' gone ended count s1 s2 s3 s4 s5 s6 s7 s8 s9 s10 s11 s12 s13
    have h1 : s1.keeps M P := .drainUcfg h.landAll
    have h3 : s3.keeps M P := .foldl (.withThreads h1) fun _ _ h => h.drainParcel
    have h5 : s5.keeps M P := .freeDying (.foldl h3 fun _ _ h => h.drainBeats)
    have h7 : s7.keeps M P := .foldl (.upd h5) fun _ _ h => h.unwait
    have h10 : s10.keeps M P := .foldl (.foldl (.withHearths h7) fun _ _ h => h.serveWalkWait) fun _ _ h => h.resetCore
    have h12 : s12.keeps M P := .scrubShares (.scrubTables (.foldl h10 fun _ _ h => h.setCluster))
    exact .resetOwners h12.overCores

theorem outKeeps.execPrst {ra rd} : outKeeps M P (execPrst ra rd s) := by
  refine .onThread fun t => .ite (.priv h) (.release h fun _ => .ite (.write h) ?_)
  extract_lets ended r s1
  split
  · next e => exact .await (h.carryOps e)
  · have h1 : s1.keeps M P := .ite (.startKernel h.resetPart) h.resetPart
    split
    · exact .write h1
    · exact .next h1

/-! #### Crumb forms -/

theorem State.keeps.putWords {l ws} : (s.putWords l ws).keeps M P := .foldlFst h fun _ _ h => h.writeLoc

theorem State.keeps.putSlot {part slot ws} : (s.putSlot part slot ws).keeps M P := by
  unfold State.putSlot
  split
  · exact h.putWords
  · exact h

theorem State.keeps.probe {part hash ws cls depth n p} : (s.probe part hash ws cls depth n p).1.keeps M P := by
  induction n generalizing p with
  | zero => exact h
  | succ n ih =>
    unfold State.probe
    dsimp only
    split
    · exact ih
    · split
      · split
        · exact h
        · exact .modStore h.putSlot
      · split
        · exact h.modStore
        · exact ih

theorem State.keeps.intern {part ws cls depth} : (s.intern part ws cls depth).1.keeps M P := h.probe

theorem State.keeps.takeRefs {part l got} : (takeRefs part l s got).1.keeps M P := by
  induction l generalizing s got with
  | nil => exact h
  | cons c l ih =>
    have h' := h.crumbRef (part := part) (name := c)
    unfold Machine.takeRefs
    split
    · exact h
    · next e =>
      rw [e] at h'
      exact ih h'

theorem State.keeps.dropRefs {part l} : (dropRefs part l s).keeps M P := .foldl h fun _ _ h => h.crumbDrop

theorem State.keeps.internNode {part ws} : (s.internNode part ws).1.keeps M P := by
  have h := h.takeRefs (part := part) (l := (childNames ws).filter fun c => c != 0) (got := [])
  unfold State.internNode
  dsimp only
  split
  · exact h.dropRefs
  · split
    · exact h.dropRefs
    · split
      · exact h.intern
      · exact .dropRefs h.intern

theorem outKeeps.crumbAnswer {t writes} : outKeeps M P (s.crumbAnswer t writes) := .afterRetire (.wait h) fun _ h => h.reply

theorem outKeeps.lostHome {t} : outKeeps M P (s.lostHome t) := .trap (.upd h)

theorem outKeeps.atHomes {t homes k} (hk : outKeeps M P k) : outKeeps M P (s.atHomes t homes k) := by
  unfold State.atHomes
  split
  · split
    · exact .await h
    · exact .until h
  · exact .ite (.lostHome h) hk

theorem outKeeps.withStore {t names off k} (hk : outKeeps M P k) : outKeeps M P (s.withStore t names off k) :=
  .ite (.crumbAnswer h) (.atHomes h hk)

theorem outKeeps.atCrumb {t name write l data off go} (hgo : ∀ x0 x1, outKeeps M P (go x0 x1)) :
    outKeeps M P (s.atCrumb t name write l data off go) := by
  unfold State.atCrumb
  dsimp only
  split
  · exact hgo _ _
  · exact .ite (.crumbAnswer h) (.atPlace (.upd h) hgo)

theorem outKeeps.execCput {ra rb rd} : outKeeps M P (execCput ra rb rd s) := by
  unfold Machine.execCput
  refine .onThread fun _ => ?_
  dsimp only
  split
  · exact .withStore h (.crumbAnswer h.intern)
  · exact .lmAccess h fun _ _ h => .atCrumb h fun _ _ => .withStore h (.crumbAnswer h.intern)

theorem outKeeps.execCnode {ra rb rd} : outKeeps M P (execCnode ra rb rd s) := by
  unfold Machine.execCnode
  refine .onThread fun _ => ?_
  dsimp only
  split
  · exact .withStore h (.crumbAnswer h.internNode)
  · exact .lmAccess h fun _ _ h => .atCrumb h fun _ _ => .withStore h (.crumbAnswer h.internNode)

theorem State.keeps.cgetSlot {part hearth name} : (s.cgetSlot part hearth name).1.keeps M P := by
  unfold State.cgetSlot
  split
  · exact h.takeCopy
  · exact h
  · exact h

theorem outKeeps.execCget {ra rb rd} : outKeeps M P (execCget ra rb rd s) := by
  refine .onThread fun t => ?_
  extract_lets go
  have hgo : ∀ s l, s.keeps M P → outKeeps M P (go s l) := by
    intro s l h
    have h' := h.cgetSlot (part := t.part) (hearth := hearthOf (coreOf (s.cur % 2 ^ 20))) (name := t.pair rd)
    refine .withStore h ?_
    split
    · next e => rw [e] at h'; exact .crumbAnswer h'
    · next e => rw [e] at h'; exact .crumbAnswer (.ite h'.putWords h')
  split
  · exact hgo s _ h
  · exact .lmAccess h fun _ _ h => .atCrumb h fun _ _ => hgo _ _ h

theorem outKeeps.execCref {rb rd} : outKeeps M P (execCref rb rd s) :=
  .onThread fun _ => .atCrumb h fun _ _ => .withStore h (.crumbAnswer h.crumbRef)

theorem outKeeps.execCdrop {rb rd} : outKeeps M P (execCdrop rb rd s) :=
  .onThread fun _ => .atCrumb h fun _ _ => .withStore h (.crumbAnswer h.crumbDrop)

theorem outKeeps.cellForm {t va write k} (hk : ∀ s x1, s.keeps M P → outKeeps M P (k s x1)) :
    outKeeps M P (s.cellForm t va write k) := by
  unfold State.cellForm
  split
  · exact hk _ _ h
  · refine .access h fun _ _ h => ?_
    split
    · exact hk _ _ h.reach
    · exact .request h

theorem outKeeps.execCroot {ra rb rd} : outKeeps M P (execCroot ra rb rd s) :=
  .onThread fun _ => .cellForm h fun _ _ h => .withStore h (.ite (.crumbAnswer h) (.ite (.crumbAnswer h) (.crumbAnswer h.crumbRef)))

theorem State.keeps.swapCell {part l v w} : (s.swapCell part l v w).1.keeps M P :=
  .iteFst h (.ite (.writeLoc (.iteFst h h.crumbRef)) (.crumbDrop (.writeLoc (.iteFst h h.crumbRef))))

theorem outKeeps.execCswap {ra rb rd} : outKeeps M P (execCswap ra rb rd s) :=
  .onThread fun _ => .cellForm h fun _ _ h => .withStore h (.ite (.crumbAnswer h) (.crumbAnswer h.swapCell))

theorem outKeeps.execCrumbStoreEnable {part} : outKeeps M P (execCrumbStoreEnable part s) := by
  unfold Machine.execCrumbStoreEnable
  dsimp only
  split
  · exact .next h
  · refine .ite (.next h) ?_
    split
    · exact .next (.dropCopies h.setPart)
    · exact .next h.setMem

theorem outKeeps.execCrumbStoreDisable {part} : outKeeps M P (execCrumbStoreDisable part s) := by
  unfold Machine.execCrumbStoreDisable
  dsimp only
  split
  · exact .next h
  · exact .ite (.next h.setPart) (.next h)

/-! #### Debug and counters -/

theorem State.keeps.modDbg {core f} : (s.modDbg core f).keeps M P := h.modCore

theorem State.keeps.applyStop {tid} : (s.applyStop tid).keeps M P := .ite (.recordThread h.modThread) h.modThread

theorem outKeeps.execDebugStop {tid} : outKeeps M P (execDebugStop tid s) := .next h.modDbg

theorem outKeeps.execDebugRelease {tid} : outKeeps M P (execDebugRelease tid s) := by
  unfold Machine.execDebugRelease
  dsimp only
  split
  · exact .next h.modDbg
  · exact .ite (.next h.modDbg) (.ite (.next (.setThread h.modDbg)) (.next (.reenterHeld (.setThread h.modDbg))))

theorem outKeeps.execBreakpoint {tid} : outKeeps M P (execBreakpoint tid s) := by
  unfold Machine.execBreakpoint
  split
  · exact .ite (.next h.setThread) (.next h)
  · exact .next h

theorem State.keeps.haltCore {core} : (s.haltCore core).keeps M P := .ite (.foldl h.modDbg fun _ _ h => h.recordThread) h.modDbg

theorem State.keeps.unhaltCore {core} : (s.unhaltCore core).keeps M P := .ite (.resumeCore (.allThreads h.modDbg)) (.allThreads h.modDbg)

theorem outKeeps.execCoreHalt {core} : outKeeps M P (execCoreHalt core s) := .next h.haltCore

theorem outKeeps.execCoreUnhalt {core} : outKeeps M P (execCoreUnhalt core s) := .next h.unhaltCore

theorem outKeeps.execSettled {core} : outKeeps M P (execSettled core s) := .next (.ite h.modDbg h)

theorem State.keeps.debugWrite {tid t csr idx v} : (s.debugWrite tid t csr idx v).keeps M P :=
  .ite (.withCur (.setThread (.csrWrite (.upd h)))) (.ite h.setThread h.setThread)

theorem State.keeps.rdataAccess {core data} : (s.rdataAccess core data).keeps M P := by
  unfold State.rdataAccess
  dsimp only
  split
  · exact h.modDbg
  · refine .ite h.modDbg ?_
    split
    · exact h.modDbg
    · split
      · exact .debugWrite h.modDbg
      · exact h.modDbg

theorem outKeeps.execDebugRegisterAccess {host core data} : outKeeps M P (execDebugRegisterAccess host core data s) :=
  .ite (.next h) (.next h.rdataAccess)

theorem State.keeps.ringWrite {base len off l} : (s.ringWrite base len off l).keeps M P := by
  induction l generalizing s off with
  | nil => exact h
  | cons w l ih =>
    unfold State.ringWrite
    exact ih (.foldl h fun _ _ h => h.writeLoc)

theorem State.keeps.pulseHearth {tick n} : (s.pulseHearth tick n).keeps M P := .ite h (.ite h.setHearth (.setHearth h.ringWrite))

theorem State.keeps.latchCore {core} : (s.latchCore core).keeps M P := .ite h (.withSignals h.modCore)

theorem State.keeps.collect {n} : (s.collect n).keeps M P := .ite h (.pulseHearth h.setHearth)

theorem outKeeps.execScorePulseTick : outKeeps M P (execScorePulseTick s) :=
  .ite (.next h) (.next (.foldl (.foldl h fun _ _ h => h.latchCore) fun _ _ h => h.collect))

theorem outKeeps.execCounterCellCycle {core activity} : outKeeps M P (execCounterCellCycle core activity s) := .next h.modDbg

theorem State.keeps.modCell {core k f} : (s.modCell core k f).keeps M P := h.modDbg

theorem State.keeps.hearthWrite {n off v} : (s.hearthWrite n off v).keeps M P := by
  unfold State.hearthWrite
  split
  · extract_lets x en p new s1 s2
    have h1 : s1.keeps M P := .ite h h
    have h2 : s2.keeps M P := .ite (.foldl h1 fun _ _ h => h.setHearth) h1
    exact .ite h h2.withSpEn
  · exact h.setHearth
  · exact h.setHearth
  · exact h.setHearth
  · exact h

theorem State.keeps.coreWrite {core off v} : (s.coreWrite core off v).keeps M P := by
  unfold State.coreWrite
  extract_lets was s1
  have h1 : s1.keeps M P := h.modDbg
  refine .ite (.ite h1.haltCore (.ite h1.unhaltCore h1)) (.ite (.ite h ?_)
    (.ite h.modDbg (.ite h.modDbg (.ite h.rdataAccess (.ite h.modCell (.ite h.modCell (.ite h.modCell h)))))))
  have ho : outKeeps M P (if bits v 63 1 = 1 then execDebugStop (bits v 0 18) s else execDebugRelease (bits v 0 18) s) :=
    .ite (.execDebugStop h) (.execDebugRelease h)
  split
  · next e => rw [e] at ho; cases ho with | next h => exact h
  · exact h

theorem outKeeps.execDebugControlWrite {host off v} : outKeeps M P (execDebugControlWrite host off v s) :=
  .ite (.next h) (.ite (.next h.hearthWrite) (.ite (.next h.coreWrite) (.next h)))

theorem outKeeps.execMark {ra} : outKeeps M P (execMark ra s) :=
  .onThread fun _ => .finish (.ite h (.modCore h fun _ h => by split <;> exact h))

theorem outKeeps.execDbrk {rd} : outKeeps M P (execDbrk rd s) := .onThread fun _ => .ite (.write h) (.write h)

theorem outKeeps.execSmpl {ra rd} : outKeeps M P (execSmpl ra rd s) := .onThread fun _ => .ite (.priv h) (.write h)

/-! #### The fabric -/

theorem State.keeps.sendTrigger {part e sender roff len tag} : (s.sendTrigger part e sender roff len tag).1.keeps M P := by
  unfold State.sendTrigger
  dsimp only
  split
  · exact h
  · exact .iteFst h (.withParcels h.nextUid)

theorem State.keeps.endMessage {part core desc cw code} : (s.endMessage part core desc cw code).keeps M P := by
  unfold State.endMessage
  extract_lets s1
  have h1 : s1.keeps M P := by
    unfold s1
    split
    · exact h.writeLoc
    · exact h
  refine .ite h1 ?_
  split
  · exact h1.doRed
  · exact h1

theorem State.keeps.finishMsg {m code} : (s.finishMsg m code).keeps M P := .endMessage (.upd h)

theorem State.keeps.sendTowards {dest f} : (s.sendTowards dest f).keeps M P := by
  unfold State.sendTowards
  split
  · exact h.sendFlit
  · exact h

theorem outKeeps.execSendDescriptor {part endpoint} : outKeeps M P (execSendDescriptor part endpoint s) := by
  unfold Machine.execSendDescriptor
  dsimp only
  split
  · exact .next h
  · split
    · exact .next h
    · split
      · exact .next h
      · next e =>
        have h := h.qPop e
        split
        · refine .ite (.next h.endMessage) (.ite (.next (.sendTowards (.sendTowards (.upd h)))) ?_)
          split
          · exact .next h.endMessage
          · exact .next (.upd h)
        · exact .next h

theorem State.keeps.placeBytes {part core va l s'} (e : s.placeBytes part core va l = some s') : s'.keeps M P := by
  fun_induction State.placeBytes s part core va l
  next ih => exact ih h.writeLoc e
  next => cases e
  next => cases e; exact h

theorem State.keeps.placePacket {m off data} : (s.placePacket m off data).keeps M P := by
  refine .ite h ?_
  extract_lets x
  split
  · exact h
  · next e =>
    have h := h.placeBytes e
    exact .ite (.report (.sendTrigger (.upd h))) h

theorem State.keeps.refuse {sender id code} : (s.refuse sender id code).keeps M P := .report (.upd h)

theorem State.keeps.takePacket {m off data} : (s.takePacket m off data).keeps M P := by
  unfold State.takePacket
  refine .ite h ?_
  split
  · exact h.placePacket
  · exact .ite h.refuse (.ite h.refuse (.placePacket (.upd h)))

theorem outKeeps.execPacketPlacement {sender msg part ep roff len tag off data} :
    outKeeps M P (execPacketPlacement sender msg part ep roff len tag off data s) := by
  unfold Machine.execPacketPlacement
  dsimp only
  refine .ite ?_ (.next h.takePacket)
  split
  · exact .next (.ite h.takePacket h)
  · exact .next h

theorem outKeeps.execMessageStatus {msg code} : outKeeps M P (execMessageStatus msg code s) := by
  unfold Machine.execMessageStatus
  split
  · exact .next h
  · exact .ite (.next h) (.next h.finishMsg)

theorem outKeeps.execLinkTimeout {msg} : outKeeps M P (execLinkTimeout msg s) := by
  unfold Machine.execLinkTimeout
  split
  · exact .next h
  · exact .ite (.next h.finishMsg) (.next h)

theorem outKeeps.execPacketLossResend {x x'} : outKeeps M P (execPacketLossResend x x' s) := .next h

theorem outKeeps.execTriggerFlits {head tail} : outKeeps M P (execTriggerFlits head tail s) := by
  unfold Machine.execTriggerFlits
  dsimp only
  refine .ite (.next h) ?_
  refine .ite (.next (.sendTowards h.sendTowards)) ?_
  refine .next ?_
  split
  · exact .iteFst h.sendTrigger h
  · exact .iteFst h.sendTrigger h

theorem outKeeps.execBarrierArrivalFlit {x flit} : outKeeps M P (execBarrierArrivalFlit x flit s) := by
  unfold Machine.execBarrierArrivalFlit
  dsimp only
  refine .ite (.next h) ?_
  refine .ite ?_ (.ite (.next h) (.next (.podTry h.setPod)))
  refine .next ?_
  split
  · exact h.sendFlit
  · exact h

theorem outKeeps.execBarrierReleaseFlit {x flit} : outKeeps M P (execBarrierReleaseFlit x flit s) :=
  .ite (.next h) (.ite (.next h.podDown) (.next (.podRelease h.podDown)))

theorem State.keeps.failPods {mod link from_ f} : (s.failPods mod link from_ f).keeps M P := by
  refine .foldl h fun s q h => .ite ?_ h
  extract_lets out s1
  have h1 : s1.keeps M P := .foldl h fun _ _ h => h.sendFlit
  exact .ite h1.podRelease h1

theorem outKeeps.execLinkDown {link flit} : outKeeps M P (execLinkDown link flit s) := .ite (.next h) (.next h.failPods)

theorem outKeeps.execSignalFabricLinkFailure {link} : outKeeps M P (execSignalFabricLinkFailure link s) := .next (.failPods (.upd h))

theorem State.keeps.modLink {link f} : (s.modLink link f).keeps M P := h

theorem outKeeps.execTimeFlitSend {link} : outKeeps M P (execTimeFlitSend link s) := .next (.ite (.sendFlit h.modLink) h)

theorem State.keeps.sendHigh {link} : (s.sendHigh link).keeps M P := .sendFlit h.modLink

theorem outKeeps.execTimeHighFlitSend {link} : outKeeps M P (execTimeHighFlitSend link s) := .next (.ite h.sendHigh h)

theorem outKeeps.execLinkTraining {link delay} : outKeeps M P (execLinkTraining link delay s) := .next (.sendHigh h.modLink)

/-! #### Host commands -/

theorem State.keeps.attach {host} : (s.attach host).keeps M P := h.modFw

theorem State.keeps.watchLinks : s.watchLinks.keeps M P := h.modFw

theorem outKeeps.execClaim {host} : outKeeps M P (execClaim host s) := .next (.watchLinks (.modFw h.attach))

theorem outKeeps.execHandover {host dest} : outKeeps M P (execHandover host dest s) := .next (.ite (.watchLinks (.modFw h.attach)) h.attach)

theorem outKeeps.execControlLoss : outKeeps M P (execControlLoss s) := by
  unfold Machine.execControlLoss
  refine .next ?_
  split
  · exact .ite h.modFw h
  · exact h

theorem outKeeps.execBoardThermalLimit {hot} : outKeeps M P (execBoardThermalLimit hot s) := .next h.modFw

theorem State.keeps.pageLost {fn} : (s.pageLost fn).keeps M P := .ite h.modFn h

theorem State.keeps.accept {c} : (s.accept c).keeps M P := h.modFn

theorem State.keeps.skipUnowned {n fn} : (skipUnowned n s fn).keeps M P := by
  induction n generalizing s with
  | zero => exact h
  | succ n ih =>
    unfold Machine.skipUnowned
    split
    · exact h
    · refine .ite (ih (.ite (.hostResult (.modFw h.accept fun h => ?_)) (.hostResult h.accept))) ?_
      · rwa [Firmware.bootFrom_slots]
      · split
        · exact ih (.hostResult h.accept)
        · exact h

theorem State.keeps.badArg : (badArg s).1.keeps M P := h

theorem State.keeps.failed {detail} : (failed s detail).1.keeps M P := h

theorem State.keeps.okay {detail} : (okay s detail).1.keeps M P := h

theorem outKeeps.command {fn want k} (hk : ∀ c s, s.keeps M P → (k c s).1.keeps M P) : outKeeps M P (s.command fn want k) := by
  unfold State.command
  extract_lets s1
  have h1 : s1.keeps M P := h.pageLost
  split
  · exact .next h1
  · refine .ite (.next h1) ?_
    extract_lets s2 r s3
    have h2 : s2.keeps M P := h1.accept
    have hr : r.1.keeps M P := .iteFst h2 (hk _ _ h2)
    refine .next (.skipUnowned (s := s3) ?_)
    unfold s3
    split
    · exact hr.hostResult
    · exact hr

theorem outKeeps.partCommand {part want k} (hk : ∀ x0 x1 s, s.keeps M P → (k x0 x1 s).1.keeps M P) :
    outKeeps M P (s.partCommand part want k) := by
  unfold State.partCommand
  refine .command h fun _ _ h => ?_
  split
  · exact hk _ _ _ h
  · exact h

theorem State.keeps.runOn {vf} : (s.runOn vf).keeps M P := h.modFn

theorem State.keeps.runOff {vf} : (s.runOff vf).keeps M P := h.modFn

theorem outKeeps.execRunStart {host vf} : outKeeps M P (execRunStart host vf s) := .next (.ite (.runOn h.attach) h.attach)

theorem outKeeps.execRunStop {host vf} : outKeeps M P (execRunStop host vf s) := .next (.ite (.runOff h.attach) h.attach)

theorem State.keeps.notified {vf p} : (s.notified vf p).keeps M P := .ite h.modFn (.ite h (.skipUnowned (.pageLost h.modFn)))

theorem outKeeps.execNotify {host vf p} : outKeeps M P (execNotify host vf p s) := .next (.ite h.attach (.notified h.attach))

theorem State.keeps.lockFeatures {part} : (s.lockFeatures part).keeps M P := h.modPart

theorem outKeeps.execFlock {host vf} : outKeeps M P (execFlock host vf s) := .next (.ite (.lockFeatures h.attach) h.attach)

theorem State.keeps.writeFacc {part v} : (s.writeFacc part v).keeps M P := h.modPart

theorem outKeeps.execRegisterWrite {host vf off v} : outKeeps M P (execRegisterWrite host vf off v s) := by
  unfold Machine.execRegisterWrite
  dsimp only
  refine .ite (.next h.attach) ?_
  refine .ite (.execClaim h.attach) ?_
  refine .ite (.next h.attach) ?_
  split
  · exact .next (.modFn h.attach)
  · exact .next (.notified h.attach)
  · exact .next (.ite (.modFn h.attach) (.ite (.runOn (.modFn h.attach)) (.runOff (.modFn h.attach))))
  · exact .next (.ite (.writeFacc h.attach) h.attach)
  · exact .next (.ite (.lockFeatures h.attach) h.attach)
  · exact .ite (.execHandover h.attach) (.next h.attach)
  · exact .next (.ite (.modFw h.attach) h.attach)
  · exact .next h.attach

theorem outKeeps.execHdmAccess {host addr n data} : outKeeps M P (execHdmAccess host addr n data s) := by
  unfold Machine.execHdmAccess
  extract_lets s1 a n' open' s2
  have h1 : s1.keeps M P := h.attach
  have h2 : s2.keeps M P := .ite h1 h1.modFw
  refine .ite (.next h1) ?_
  split
  · exact .next (.ite h2.writeLoc h2)
  · exact .next h2.modFw

theorem outKeeps.execHostSnoop {host addr} : outKeeps M P (execHostSnoop host addr s) := .next (.overCores h.attach)

theorem State.keeps.firmwareSend {part place loc acc va page} : (s.firmwareSend part place loc acc va page).keeps M P :=
  .withParcels h.nextUid

theorem State.keeps.launch {part p c} : (s.launch part p c).1.keeps M P := by
  unfold State.launch
  dsimp only
  refine .iteFst h.badArg ?_
  refine .iteFst h.failed ?_
  refine .okay ?_
  split
  · exact .ite (.foldl h fun _ _ h => .modThread h.place) (.setOwner (.foldl h fun _ _ h => .modThread h.place))
  · exact .foldl h fun _ _ h => .modThread h.place

theorem outKeeps.execLaunch {part} : outKeeps M P (execLaunch part s) := .partCommand h fun _ _ _ h => h.launch

theorem outKeeps.execApplyCommand {part} : outKeeps M P (execApplyCommand part s) :=
  .partCommand h fun _ _ _ h => .iteFst h.badArg h.setPart

theorem outKeeps.execSetstarter {part} : outKeeps M P (execSetstarter part s) :=
  .partCommand h fun _ _ _ h => .iteFst h.badArg (.okay h.setPart)

theorem State.keeps.landBytes {l v} : (s.landBytes l v).keeps M P := .fire (.withWaiters (.foldl (.upd h) fun _ _ h => h.writeLoc))

theorem State.keeps.copyStep {p x} : (s.copyStep p x).keeps M P := by
  unfold State.copyStep
  dsimp only
  split
  · split
    · exact h.modFw
    · exact .ite (.hostResult (.modFw h.landBytes)) (.modFw h.landBytes)
  · exact .hostResult h.modFw
  · exact .hostResult h.modFw
  · exact .hostResult h.modFw

theorem outKeeps.execCopy {part} : outKeeps M P (execCopy part s) := by
  unfold Machine.execCopy
  refine .partCommand ?_ fun _ _ _ h => .iteFst h.badArg h.modFw
  split
  · exact h.copyStep
  · exact h

theorem outKeeps.execSignalWake {part} : outKeeps M P (execSignalWake part s) :=
  .partCommand h fun _ _ _ h => .iteFst h.badArg (.okay h.firmwareSend)

theorem outKeeps.execSignalArrival {part} : outKeeps M P (execSignalArrival part s) := by
  unfold Machine.execSignalArrival
  refine .partCommand h fun _ _ _ h => ?_
  split
  · exact .okay h.firmwareSend
  · exact h.badArg

theorem outKeeps.execSignalStore {part} : outKeeps M P (execSignalStore part s) := by
  unfold Machine.execSignalStore
  refine .partCommand h fun _ _ _ h => ?_
  dsimp only
  refine .iteFst h.badArg ?_
  split
  · exact .okay h.firmwareSend
  · exact h.failed
  · exact h.badArg

theorem outKeeps.execWakeCommand {part} : outKeeps M P (execWakeCommand part s) := by
  unfold Machine.execWakeCommand
  refine .partCommand h fun _ _ _ h => ?_
  dsimp only
  refine .iteFst h ?_
  refine .iteFst h.badArg ?_
  split
  · exact h.badArg
  · exact h.badArg
  · exact h.failed
  · split
    · exact h
    · exact .register h.setPart

theorem outKeeps.execHostWakeComplete {part k} : outKeeps M P (execHostWakeComplete part k s) := by
  unfold Machine.execHostWakeComplete
  dsimp only
  split
  · refine .ite (.next (.ite (.register (.upd h)) h)) ?_
    split
    · exact .next (.hostResult (.modPart (.upd h)))
    · exact .next h
  · exact .next h

theorem State.keeps.writeShadow {part} : (s.writeShadow part).keeps M P := by
  unfold State.writeShadow
  dsimp only
  split
  · exact h
  · exact .ite h (.foldl h fun _ _ h => h.writeLoc)

theorem State.keeps.fullReset {part} : (s.fullReset part).1.keeps M P := .writeShadow (.startKernel h.resetPart)

theorem outKeeps.afterOps {part row k} (hk : ∀ s, s.keeps M P → outKeeps M P (k s)) : outKeeps M P (s.afterOps part row k) := by
  unfold State.afterOps
  dsimp only
  split
  · next e => exact .next (h.carryOps e)
  · exact hk s h

theorem outKeeps.execReset {part} : outKeeps M P (execReset part s) :=
  .afterOps h fun _ h => .partCommand h fun _ _ _ h => .iteFst h.badArg (.okay h.fullReset)

theorem outKeeps.execFunctionLevelReset {part} : outKeeps M P (execFunctionLevelReset part s) :=
  .afterOps h fun _ h => .next (.fullReset h.runOff)

theorem State.keeps.freshCores {clusters} : (s.freshCores clusters).keeps M P := .foldl h fun _ _ h => h.modCore

theorem State.keeps.startPartition {part p} : (s.startPartition part p).keeps M P :=
  .writeShadow (.startKernel (.pipeWrite (.freshCores h.setPart)))

theorem outKeeps.execPcreate : outKeeps M P (execPcreate s) := .command h fun _ _ h => .iteFst h.badArg (.okay h.startPartition)

theorem outKeeps.execPdestroy : outKeeps M P (execPdestroy s) := by
  refine .afterOps h fun _ h => .command h fun _ _ h => ?_
  exact .iteFst h.badArg (.okay (.withParts h.resetPart))

theorem outKeeps.execOwner : outKeeps M P (execOwner s) := by
  unfold Machine.execOwner
  refine .command ?_ fun _ _ h => .iteFst h.badArg h.modArb
  split
  · exact .ite (.hostResult h.modArb) h
  · exact h

theorem State.keeps.resizeMove {tid t g} : (s.resizeMove tid t g).keeps M P := .place (.freeSlot (.moveApplier (.ite h.setOwner h)))

theorem State.keeps.resizeSave {p r tid x} (e : s.resizeSave p r tid = some x) : x.1.keeps M P := by
  unfold State.resizeSave at e
  dsimp only at e
  split at e
  · cases e
  · cases e
    exact .pipeWrite h.saveThread

theorem State.keeps.leaveRotation {tid t} : (s.leaveRotation tid t).keeps M P := .modThread h.dropWait

theorem State.keeps.resizeThread {p r tid t x} (e : s.resizeThread p r tid t = some x) : x.1.keeps M P := by
  unfold State.resizeThread at e
  dsimp only at e
  split at e
  · cases e
    exact h
  · cases e
    exact h
  · cases e
    exact h
  · split at e
    · cases e
      exact h
    · split at e
      · split at e
        · cases e
          exact h
        · cases e
          exact h.resizeMove
      · split at e
        · exact h.stopWork.resizeSave e
        · cases e
          exact h.stopWork
  · split at e
    · cases e
      exact h
    · cases e
      exact .ite h.leaveRotation h

theorem State.keeps.tellImages {p r} : (s.tellImages p r).keeps M P := .ite h (.firmwareSend (.upd h))

theorem State.keeps.rejoin {cores} : (s.rejoin cores).keeps M P := .foldl h fun _ _ h => .ite h h.modThread

theorem State.keeps.endResize {p r ok} : (s.endResize p r ok).keeps M P := by
  unfold State.endResize
  extract_lets cores s1 s2 later clusters
  have h1 : s1.keeps M P := h.modFw.tellImages
  have h2 : s2.keeps M P := .foldl h1 fun _ _ h => .setMem h (Memory.wf_below _)
  exact .ite (.hostResult h1.rejoin) (.hostResult h2.modPart)

theorem State.keeps.resizeStep {p r} : (s.resizeStep p r).keeps M P := by
  unfold State.resizeStep
  split
  · exact h.endResize
  · extract_lets x s1
    have hx : x.1.keeps M P := by
      refine .foldlFst h fun q _ h => ?_
      split
      · exact h
      · split
        · next e => exact h.resizeThread e
        · exact h
    have h1 : s1.keeps M P := hx.modFw
    exact .ite h.endResize (.ite h1.endResize h1)

theorem State.keeps.resizesOn : s.resizesOn.keeps M P := by
  unfold State.resizesOn
  refine .foldl h fun _ _ h => ?_
  refine .ite h ?_
  split
  · exact h.resizeStep
  · exact h.modFw

theorem outKeeps.execPresize : outKeeps M P (execPresize s) := by
  unfold Machine.execPresize
  refine .command h.resizesOn fun _ _ h => ?_
  dsimp only
  split
  · exact h.badArg
  · exact .iteFst h.badArg (.modFw (.freshCores h.setPart))

theorem State.keeps.ckptStop {part} : (s.ckptStop part).keeps M P := by
  unfold State.ckptStop
  dsimp only
  split
  · exact h
  · exact .foldl (.foldl h fun _ _ h => h.modCore) fun _ _ h => h.recordThread

theorem State.keeps.ckptContinue {halt part} : (s.ckptContinue halt part).keeps M P := by
  unfold State.ckptContinue
  split
  · exact h
  · exact .ite h.setPart (.ite h (.foldl h fun _ _ h => .resumeCore h.modCore))

theorem State.keeps.ckptStep {x} : (s.ckptStep x).keeps M P := by
  unfold State.ckptStep
  extract_lets slot s1
  have h1 : s1.keeps M P := by
    refine ⟨fun hM => (h.1 hM).modFw fun _ => ?_, h.2⟩
    have hslot := (h.1 hM).ckptSlot x.parts
    dsimp only
    split
    · exact List.forall_mem_cons.mpr ⟨hslot, List.forall_mem_singleton.mpr ((h.1 hM).slotAt 1)⟩
    · exact List.forall_mem_cons.mpr ⟨(h.1 hM).slotAt 0, List.forall_mem_singleton.mpr hslot⟩
  exact .ite h (.hostResult (.foldl h1 fun _ _ h => h.ckptContinue))

theorem outKeeps.ckptRow {fn op parts} : outKeeps M P (s.ckptRow fn op parts) := by
  unfold State.ckptRow
  refine .command ?_ fun _ _ h => .iteFst h.badArg (.foldl h.modFw fun _ _ h => h.ckptStop)
  split
  · exact h.ckptStep
  · exact h

theorem State.keeps.restoreThread {tid w} : (s.restoreThread tid w).keeps M P := h.loadImage

theorem State.keeps.restoreSlot {x : CkptSlot} (hx : M → x.memOk) : (s.restoreSlot x).keeps M P := by
  unfold State.restoreSlot
  extract_lets s1 clean s2 s3 s4 s5
  have h1 : s1.keeps M P := .foldl h fun _ _ h => h.resetPart
  have h2 : s2.keeps M P := h1.setMem (sp := .phys 0) fun hm => foldl_setByte_wf (foldl_clear_wf hm)
  have h3 : s3.keeps M P := .foldlMem h2 fun _ l hl h => ⟨fun hM => (h.1 hM).modCore fun _ _ => (hx hM).2 l hl, h.2⟩
  have h4 : s4.keeps M P := .foldlMem h3 fun _ l hl h => ⟨fun hM => (h.1 hM).setMem ((hx hM).1 l hl), h.2⟩
  have h5 : s5.keeps M P := .foldl h4 fun _ _ h => h.modPart
  exact .foldl h5 fun _ _ h => h.restoreThread

theorem outKeeps.execRestore : outKeeps M P (execRestore s) :=
  .command h fun _ _ h => .iteFst h.badArg (.iteFst (.okay (.restoreSlot h fun hM => (h.1 hM).slotAt _)) h.failed)

/-! #### Scalar forms -/

theorem outKeeps.rrr {d a b f} : outKeeps M P (s.rrr d a b f) := .onThread fun _ => .write h

theorem outKeeps.rr {d a f} : outKeeps M P (s.rr d a f) := .onThread fun _ => .write h

theorem outKeeps.divide {t d v n} : outKeeps M P (s.divide t d v n) := .wait h

theorem outKeeps.branch {ra rb off c} : outKeeps M P (s.branch ra rb off c) := .onThread fun _ => .jump h

theorem outKeeps.jumpReg {t a link} : outKeeps M P (s.jumpReg t a link) := .ite (.addr h) (.jump h)

/-! #### Scalar floating point -/

theorem outKeeps.writeF {t d r} : outKeeps M P (s.writeF t d r) := .write h

theorem outKeeps.fpForm {d a b f} : outKeeps M P (s.fpForm d a b f) := .onThread fun _ => .writeF h

theorem outKeeps.cvtForm {d a f} : outKeeps M P (s.cvtForm d a f) := .onThread fun _ => .writeF h

theorem outKeeps.cvtInt {d a f} : outKeeps M P (s.cvtInt d a f) := .onThread fun _ => .write h

theorem outKeeps.cmpForm {cond d a b} : outKeeps M P (s.cmpForm cond d a b) := .fpForm h

theorem outKeeps.signForm {d a b f} : outKeeps M P (s.signForm d a b f) := .fpForm h

/-! #### The turns -/

theorem outKeeps.fetch {t k} (hk : ∀ x0, outKeeps M P (k x0)) : outKeeps M P (s.fetch t k) := by
  unfold State.fetch
  dsimp only
  split
  · refine .ite (.addr h) ?_
    refine .translate h fun _ _ h => ?_
    split
    · exact .pageFault h
    · exact .ite (.pageFault h) (.ite (.fault _) (hk _))
  · exact .addr h

theorem State.keeps.lay : s.lay.keeps M P := by
  unfold State.lay
  dsimp only
  split
  · exact .upd (.watchReady (.placerWrites h.heldDrops))
  · exact .withTurns (.watchReady (.placerWrites h.heldDrops))

theorem State.keeps.releaseWaits : s.releaseWaits.keeps M P := h.allThreads

theorem State.keeps.lookWaits : s.lookWaits.keeps M P := .withTurns (.foldl h.releaseWaits fun _ _ h => h.reenterLeft)

theorem State.keeps.goneOp {tid} : (s.goneOp tid).keeps M P := .withThreads h.unwait

end

/-! ### What moves the clock, and the step

TIME flits, a module's reset and the end of a cc write the clock. They, and what may run them up to the step itself, keep the
canonical form; of the clock nothing is asked. -/

/-- Nothing is asked of the clock. -/
def anyClock : Clock → Prop := fun _ => True

section
variable {s : State} (h : s.keeps M anyClock)
include h

theorem State.keeps.setTime {t} : (s.setTime t).keeps M anyClock := ⟨fun hM => (h.1 hM).overCores fun _ _ h => h, trivial⟩

theorem outKeeps.execTimeFlit {link flit} : outKeeps M anyClock (execTimeFlit link flit s) := by
  unfold Machine.execTimeFlit
  extract_lets x L ahead
  refine .ite (.next h) (.ite ?_ (.ite (.next h) (.ite (.next h) (.ite (.next ⟨h.1, trivial⟩) (.next ⟨h.1, trivial⟩)))))
  split
  · exact .ite (.next h.setTime.withTimeSet) (.next h)
  · exact .next h

theorem outKeeps.execTimeHighFlit {link flit} : outKeeps M anyClock (execTimeHighFlit link flit s) := .ite (.next h) (.next (.upd h))

theorem outKeeps.execModuleReset : outKeeps M anyClock (execModuleReset s) := by
  refine .next ⟨fun hM => ?_, trivial⟩
  have slots := (h.1 hM).slot
  obtain ⟨hbm, far, host, -, -, -⟩ := h.1 hM
  refine ⟨hbm, far, host, List.forall_mem_nil _, List.forall_mem_nil _, ?_⟩
  dsimp only
  rw [Firmware.bootFrom_slots]
  exact slots

/-- Every row: where rows share a form, by the form's lemma; the others by their own. -/
theorem outKeeps.exec {i} : outKeeps M anyClock (exec i s) := by
  unfold Machine.exec
  cases i with
  | add | sub | mul | mulh | mulhn | and | or | xor | andn | orn | sll | srl | sra | rol | ror | slt | sltn | seq | sne | min | max
  | minn | maxn | bfx => exact .rrr h
  | div | divn | rem | remn => exact .onThread fun _ => .divide h
  | clz | ctz | pop | bswap | brev | sext | zext | addi | andi | ori | xori | shiSll | shiSrl | shiSra | shiRol | shiRor | slti
  | sltni | lsh => exact .rr h
  | sel | bfi | li | vsetl | tid | stage => exact .onThread fun _ => .write h
  | bEq | bNe | bLt | bGe | bLtn | bGen | bBs => exact .branch h
  | j | jal => exact .onThread fun _ => .jump h
  | jr | jalr => exact .onThread fun _ => .jumpReg h
  | ld | ldx => exact .onThread fun _ => .loadForm h
  | st | stx => exact .onThread fun _ => .storeForm h
  | amoAdd | amoAnd | amoOr | amoXor | amoMin | amoMax | amoMinn | amoMaxn | amoSwap | amoCas => exact .amoForm h
  | redAdd | redAnd | redOr | redXor | redMin | redMax | redAddW128 => exact .onThread fun _ => .redForm h
  | fenceCluster | fenceHearth | fenceModule => exact .fenceForm h
  | fadd | fsub | fmul | fmin | fmax => exact .fpForm h
  | fma | fnma | fclass => exact .onThread fun _ => .writeF h
  | fdiv | fsqrt => exact .onThread fun _ => .wait h
  | fcmpEq | fcmpLt | fcmpLe | fcmpUn => exact .cmpForm h
  | fcvtF32I64 | fcvtF32N64 | fcvtF32I32 | fcvtF16F32 | fcvtF32F16 | fcvtBf16F32 | fcvtF32Bf16 => exact .cvtForm h
  | fcvtI64F32 | fcvtN64F32 | fcvtI64F32Rtz | fcvtN64F32Rtz | fcvtI32F32 => exact .cvtInt h
  | fsgnj | fsgnjN | fsgnjX => exact .signForm h
  | vadd | vsub | vmul | vmulh | vmin | vmax | vand | vor | vxor | vsll | vsrl | vsra | vadds | vsubs | vcmpEq | vcmpNe | vcmpLt
  | vcmpLe | vsel | vmand | vmor | vmxor | vmandn | vrsum | vrmax | vperm | vfadd | vfsub | vfmul | vfma | vfmin | vfmax | vfcmpEq
  | vfcmpLt | vfcmpLe | vfcmpUn | vcvt | vpk | vex2 | vlg2 | vrcp | vrsq | vsqrt | vsin | vcos | vrsumF32 | vrmaxF32 | vld | vst
  | vlds | vsts | vldg | vstg | vbc | vmovgv | vmovvg | vmovvgD | vrng | vfix | vunfix | vslide | vmpop => exact .vectorForm h
  | mset | xset => exact .onThread fun _ => .lmAccess h fun _ _ h => .loadHere h
  | mzero | mbias | mmul | mdrain => exact .matrixForm h
  | xcopy | xstr | xmc => exact .copyForm h
  | xgat | cout => exact .onThread fun _ => .copyForm h
  | xwp | sleep => exact .onThread fun _ => .ite (.write h) (.wait h)
  | barw | barwT => exact .onThread fun _ => .barwForm h
  | cstat | cstatHome => exact .onThread fun _ => .ite (.answer h) (.atCrumb h fun _ _ => .atHomes h (.answer h))
  | apply | applyW => exact .applyForm h
  | shdone | rsdone => exact .onThread fun _ => .afterRetire (.finish h) fun _ h => .ite h.endHandling h
  | tlbi | tlbiAll => exact .onThread fun _ => .ite (.priv h) (.tlbiForm h)
  | accessParcel | atomicRequestParcel => exact .arrive h fun _ _ h => h.performAccess
  | shedApply | readmissionApply | modeChangeApply => exact .next h.applyOf
  | checkpoint | moduleCheckpoint => exact .ckptRow h
  | backingLinkDown | backingLinkUp => exact .next (.watchLinks (.upd h))
  | mig => exact .execMig h
  | migc => exact .execMigc h
  | fenceCore => exact .execFenceCore h
  | pfl => exact .execPfl h
  | xlat => exact .execXlat h
  | vclaim => exact .execVclaim h
  | vrel => exact .execVrel h
  | vacc => exact .execVacc h
  | mclaim => exact .execMclaim h
  | mrel => exact .execMrel h
  | mget => exact .execMget h
  | mmulg => exact .execMmulg h
  | mwait => exact .execMwait h
  | mstop => exact .execMstop h
  | xack => exact .execXack h
  | xwait => exact .execXwait h
  | xkill => exact .execXkill h
  | bset => exact .execBset h
  | barr => exact .execBarr h
  | bstat => exact .execBstat h
  | rarr => exact .execRarr h
  | pbar => exact .execPbar h
  | waitw => exact .execWaitw h
  | qput => exact .execQput h
  | qget => exact .execQget h
  | qstat => exact .execQstat h
  | cput => exact .execCput h
  | cget => exact .execCget h
  | cnode => exact .execCnode h
  | cref => exact .execCref h
  | cdrop => exact .execCdrop h
  | croot => exact .execCroot h
  | cswap => exact .execCswap h
  | patch => exact .execPatch h
  | cread => exact .execCread h
  | join => exact .execJoin h
  | send => exact .execSend h
  | hret => exact .execHret h
  | exit => exact .execExit h
  | yield => exact .execYield h
  | resume => exact .execResume h
  | bal => exact .execBal h
  | wake => exact .execWake h
  | jbeg => exact .execJbeg h
  | jend => exact .execJend h
  | uchg => exact .execUchg h
  | uown => exact .execUown h
  | uownSt => exact .execUownSt h
  | ucfgOwn => exact .execUcfgOwn h
  | ucfgTab => exact .execUcfgTab h
  | ucfgArb => exact .execUcfgArb h
  | csrr => exact .execCsrr h
  | csrw => exact .execCsrw h
  | csrx => exact .execCsrx h
  | trap => exact .execTrap h
  | tret => exact .execTret h
  | sysc => exact .execSysc h
  | syscNb => exact .execSyscNb h
  | brk => exact .execBrk h
  | cch => exact .execCch h
  | csave => exact .execCsave h
  | crest => exact .execCrest h
  | prst => exact .execPrst h
  | mark => exact .execMark h
  | dbrk => exact .execDbrk h
  | smpl => exact .execSmpl h
  | unassignedEncoding => exact .execUnassignedEncoding h
  | divideResult => exact .execDivideResult h
  | replyArrival => exact .execReplyArrival h
  | coucheInForce => exact .execCoucheInForce h
  | acknowledgement => exact .execAcknowledgement h
  | parcelResend => exact .execParcelResend h
  | parcelRefusedResend => exact .execParcelRefusedResend h
  | targetUnreachable => exact .execTargetUnreachable h
  | walkComplete => exact .execWalkComplete h
  | migrationRequest => exact .execMigrationRequest h
  | migrationParcel => exact .execMigrationParcel h
  | vectorBeat => exact .execVectorBeat h
  | matrixPlanePass => exact .execMatrixPlanePass h
  | operandLatchFilled => exact .execOperandLatchFilled h
  | copyDispatch => exact .execCopyDispatch h
  | copyBeat => exact .execCopyBeat h
  | granuleComplete => exact .execGranuleComplete h
  | copydone => exact .execCopydone h
  | arrivalParcel => exact .execArrivalParcel h
  | barwTimeout => exact .execBarwTimeout h
  | clusterBarrierArrival => exact .execClusterBarrierArrival h
  | waitwWake => exact .execWaitwWake h
  | waitwRetry => exact .execWaitwRetry h
  | queueCreate => exact .execQueueCreate h
  | queueRemove => exact .execQueueRemove h
  | nestPlacerRequest => exact .execNestPlacerRequest h
  | applyWRetry => exact .execApplyWRetry h
  | loopVerdictLoad => exact .execLoopVerdictLoad h
  | childfault => exact .execChildfault h
  | handlerParcel => exact .execHandlerParcel h
  | handlerResend => exact .execHandlerResend h
  | kloadRefresh => exact .execKloadRefresh h
  | balanceCheck => exact .execBalanceCheck h
  | wakeParcel => exact .execWakeParcel h
  | sleepTimeout => exact .execSleepTimeout h
  | faultQueuePut => exact .execFaultQueuePut h
  | verdictAction => exact .execVerdictAction h
  | syscallComplete => exact .execSyscallComplete h
  | deadlock => exact .execDeadlock h
  | coreFreeze => exact .execCoreFreeze h
  | crumbFree => exact .execCrumbFree h
  | crumbStoreEnable => exact .execCrumbStoreEnable h
  | crumbStoreDisable => exact .execCrumbStoreDisable h
  | raise => exact .execRaise h
  | fallCheck => exact .execFallCheck h
  | readmissionReport => exact .execReadmissionReport h
  | shed => exact .execShed h
  | resumeTrap => exact .execResumeTrap h
  | allowanceExpiry => exact .execAllowanceExpiry h
  | budget => exact .execBudget h
  | moduleReset => exact .execModuleReset h
  | boardThermalLimit => exact .execBoardThermalLimit h
  | hdmAccess => exact .execHdmAccess h
  | notify => exact .execNotify h
  | runStart => exact .execRunStart h
  | runStop => exact .execRunStop h
  | flock => exact .execFlock h
  | claim => exact .execClaim h
  | handover => exact .execHandover h
  | controlLoss => exact .execControlLoss h
  | registerWrite => exact .execRegisterWrite h
  | launch => exact .execLaunch h
  | applyCommand => exact .execApplyCommand h
  | setstarter => exact .execSetstarter h
  | copy => exact .execCopy h
  | signalWake => exact .execSignalWake h
  | signalArrival => exact .execSignalArrival h
  | signalStore => exact .execSignalStore h
  | wakeCommand => exact .execWakeCommand h
  | hostWakeComplete => exact .execHostWakeComplete h
  | reset => exact .execReset h
  | functionLevelReset => exact .execFunctionLevelReset h
  | pcreate => exact .execPcreate h
  | presize => exact .execPresize h
  | pdestroy => exact .execPdestroy h
  | owner => exact .execOwner h
  | restore => exact .execRestore h
  | sendDescriptor => exact .execSendDescriptor h
  | packetPlacement => exact .execPacketPlacement h
  | messageStatus => exact .execMessageStatus h
  | linkTimeout => exact .execLinkTimeout h
  | triggerFlits => exact .execTriggerFlits h
  | barrierArrivalFlit => exact .execBarrierArrivalFlit h
  | barrierReleaseFlit => exact .execBarrierReleaseFlit h
  | linkDown => exact .execLinkDown h
  | timeFlit => exact .execTimeFlit h
  | timeHighFlit => exact .execTimeHighFlit h
  | timeFlitSend => exact .execTimeFlitSend h
  | debugStop => exact .execDebugStop h
  | debugRelease => exact .execDebugRelease h
  | breakpoint => exact .execBreakpoint h
  | coreHalt => exact .execCoreHalt h
  | coreUnhalt => exact .execCoreUnhalt h
  | settled => exact .execSettled h
  | debugRegisterAccess => exact .execDebugRegisterAccess h
  | scorePulseTick => exact .execScorePulseTick h
  | matrixCommandCycle => exact .execMatrixCommandCycle h
  | correctableLinkError => exact .execCorrectableLinkError h
  | signalFabricLinkFailure => exact .execSignalFabricLinkFailure h
  | linkTraining => exact .execLinkTraining h
  | timeHighFlitSend => exact .execTimeHighFlitSend h
  | hostSnoop => exact .execHostSnoop h
  | packetLossResend => exact .execPacketLossResend h
  | counterCellCycle => exact .execCounterCellCycle h
  | debugControlWrite => exact .execDebugControlWrite h

theorem outKeeps.boundary {tid t o} (e : s.boundary tid t = some o) : outKeeps M anyClock o := by
  unfold State.boundary at e
  split at e
  · exact Option.some.inj e ▸ .exec h
  · split at e
    · exact Option.some.inj e ▸ .exec h
    · split at e
      · exact Option.some.inj e ▸ .exec h
      · split at e
        · exact Option.some.inj e ▸ .exec h
        · split at e
          · exact Option.some.inj e ▸ .next h.takeDeadlock
          · split at e
            · split at e <;> exact Option.some.inj e ▸ .exec h
            · cases e

theorem outKeeps.runWord {t w} : outKeeps M anyClock (s.runWord t w) := by
  unfold State.runWord
  split
  · exact .next (.takeMcheck (.upd h))
  · exact .exec (.upd h)

theorem outKeeps.issueThread {tid t} : outKeeps M anyClock (s.issueThread tid t) := by
  have h := h.modCore (c := coreOf tid) (f := fun c => { c with lastIssue := some s.cc })
  exact .fetch (.upd h) fun _ => .runWord (.upd h)

theorem outKeeps.issue {core} : outKeeps M anyClock (s.issue core) := by
  unfold State.issue
  split
  · exact .next h
  · split
    · exact .next h
    · refine .ite (.next h.applyStop) (.ite (.exec h) (.ite (.next h) ?_))
      split
      · next e => exact outKeeps.boundary (.upd h) e
      · exact .issueThread h

theorem outKeeps.resumeAwait {tid} : outKeeps M anyClock (s.resumeAwait tid) := by
  unfold State.resumeAwait
  split
  · exact .next h
  · split
    · exact .ite (.exec (.upd h)) (.next h)
    · exact .next h

theorem State.keeps.endCc : s.endCc.keeps M anyClock := by
  have h1 := h.endMeters.renewXfers
  exact .ite ⟨h1.1, trivial⟩ ⟨h1.1, trivial⟩

theorem outKeeps.act {a} : outKeeps M anyClock (s.act a) := by
  unfold State.act
  split
  · exact .issue h
  · exact .ite (.exec h) (.next h)
  · exact .resumeAwait h
  · exact .next h.goneOp
  · exact .exec h
  · exact .next h.lookWaits
  · exact .next (.upd h)
  · exact .next h.applyArrivals
  · exact .exec h
  · exact .next h.answerAll
  · exact .next h.endCc

theorem outKeeps.stepOnce : outKeeps M anyClock s.stepOnce := by
  unfold State.stepOnce
  split
  · exact .exec (.upd h)
  · split
    · exact .act (.upd h)
    · exact .next h.lay

end
end

/-! ### The clock between two ends of a cc -/

section
variable (s : State)

theorem State.lay_clock : s.lay.clock = s.clock :=
  (State.keeps.lay (M := False) (P := (· = s.clock)) ⟨False.elim, rfl⟩).2

/-- What the end of a cc does before it moves the clock leaves the clock as it is. -/
theorem State.renewXfers_endMeters_clock : s.endMeters.renewXfers.clock = s.clock :=
  (State.keeps.renewXfers (M := False) (P := (· = s.clock)) (.endMeters ⟨False.elim, rfl⟩)).2

end

/-! ### The turns of a cc (R83) -/

theorem mem_insertAct {a b : Act} {l : List Act} : a ∈ insertAct b l ↔ a = b ∨ a ∈ l := by
  induction l with
  | nil => simp [insertAct]
  | cons c l ih =>
    simp only [insertAct]
    split
    · simp
    · simp only [List.mem_cons, ih, or_left_comm]

theorem mem_foldl_insertAct {a : Act} {l acc : List Act} :
    a ∈ l.foldl (fun acc a => insertAct a acc) acc ↔ a ∈ acc ∨ a ∈ l := by
  induction l generalizing acc with
  | nil => simp
  | cons b l ih => simp only [List.foldl_cons, ih, mem_insertAct, List.mem_cons, or_assoc, or_left_comm]

/-- Ordering the turns loses none and adds none. -/
theorem mem_inOrderOfRank {a : Act} {l : List Act} : a ∈ inOrderOfRank l ↔ a ∈ l := by
  simp [inOrderOfRank, mem_foldl_insertAct]

section
variable {s : State}

theorem State.mem_peopled {tid : Nat} {t : Thread} (h : s.thread tid = some t) : coreOf tid ∈ s.peopled :=
  List.mem_eraseDups.mpr (List.mem_map_of_mem (f := fun q => coreOf q.1) (Map.mem_of_look h))

theorem State.tick_mem_cycle (come : List Instr) : Act.tick ∈ s.cycle come := by
  simp [State.cycle, mem_inOrderOfRank]

/-- Every core that holds a thread has its turn to issue. -/
theorem State.issue_mem_cycle {tid : Nat} {t : Thread} (h : s.thread tid = some t) (come : List Instr) :
    Act.issue (coreOf tid) ∈ s.cycle come := by
  simp [State.cycle, mem_inOrderOfRank, s.mem_peopled h]

end

/-! ### What is written at the start of a cc leaves the threads -/

/-- Two states with the same threads and the same work for the placer. -/
def State.samePlaces (s s' : State) : Prop := s'.threads = s.threads ∧ s'.starts = s.starts ∧ s'.sets = s.sets

section
variable {s s' : State}

theorem State.samePlaces.modPart (h : s.samePlaces s') (p : Nat) (f : Partition → Partition) : s.samePlaces (s'.modPart p f) := by
  unfold State.modPart
  split
  · exact h
  · exact h

theorem State.samePlaces.unitDrop (h : s.samePlaces s') (part name : Nat) : s.samePlaces (s'.unitDrop part name) := by
  have crumb : s.samePlaces (s'.crumbDrop part name).1 := by
    unfold State.crumbDrop
    split
    · exact h
    · split
      · exact h
      · split
        · exact h
        · exact h.modPart ..
  unfold State.unitDrop
  dsimp only
  split
  · exact h
  · split
    · exact h
    · exact crumb

theorem State.samePlaces.foldl_unitDrop {l : List (Nat × Nat)} (h : s.samePlaces s') :
    s.samePlaces (l.foldl (fun s d => s.unitDrop d.1 d.2) s') := by
  induction l generalizing s' with
  | nil => exact h
  | cons d l ih => exact ih (h.unitDrop d.1 d.2)

theorem State.heldDrops_samePlaces : s.samePlaces s.heldDrops :=
  State.samePlaces.foldl_unitDrop ⟨rfl, rfl, rfl⟩

theorem State.placerWrites_threads (starts : s.starts = []) (sets : s.sets = []) : s.placerWrites.threads = s.threads := by
  simp [State.placerWrites, starts, sets]

/-- The state in which the turns of a cc are laid down: what units have to write is written. -/
def State.written (s : State) : State := s.heldDrops.placerWrites.watchReady

theorem State.lay_threads : s.lay.threads = s.written.threads := by
  unfold State.lay State.written
  dsimp only
  split <;> rfl

theorem State.lay_turns : ∃ come, s.lay.turns = s.written.cycle come := by
  unfold State.lay State.written
  dsimp only
  split
  · dsimp only
    exact ⟨_, rfl⟩
  · dsimp only
    exact ⟨_, rfl⟩

theorem State.written_threads (starts : s.starts = []) (sets : s.sets = []) : s.written.threads = s.threads := by
  obtain ⟨threads, starts', sets'⟩ := s.heldDrops_samePlaces
  calc
    s.written.threads = s.heldDrops.placerWrites.threads := rfl
    _ = s.heldDrops.threads := State.placerWrites_threads (starts'.trans starts) (sets'.trans sets)
    _ = s.threads := threads

theorem State.tick_mem_lay_turns : Act.tick ∈ s.lay.turns := by
  obtain ⟨come, turns⟩ := s.lay_turns
  exact turns ▸ s.written.tick_mem_cycle come

theorem State.issue_mem_lay_turns {tid : Nat} {t : Thread} (h : s.lay.thread tid = some t) :
    Act.issue (coreOf tid) ∈ s.lay.turns := by
  obtain ⟨come, turns⟩ := s.lay_turns
  unfold State.thread at h
  rw [s.lay_threads] at h
  exact turns ▸ s.written.issue_mem_cycle h come

end

/-! ### The step and its turns -/

section
variable {s : State}

theorem step_of_turn {a : Act} {l : List Act} (urgent : s.urgent = []) (turns : s.turns = a :: l) :
    step s = ({ s with turns := l } : State).act a := by
  simp only [step, State.stepOnce, urgent, turns]

theorem step_of_no_turn (urgent : s.urgent = []) (turns : s.turns = []) : step s = .next s.lay := by
  simp only [step, State.stepOnce, urgent, turns]

theorem stepTakesTheNextTurn : StepTakesTheNextTurn := by
  intro s urgent
  refine ⟨fun a l turns => step_of_turn urgent turns, fun turns => ⟨s.lay, step_of_no_turn urgent turns, ?_, ?_, ?_, ?_⟩⟩
  · exact congrArg Clock.cc s.lay_clock
  · exact fun starts sets => s.lay_threads.trans (State.written_threads starts sets)
  · exact s.tick_mem_lay_turns
  · rintro core tid t ht rfl
    exact State.issue_mem_lay_turns ht

theorem State.resumeAwait_of_not_met {tid : Nat} {t : Thread} {c : Cond} {w : BitVec 32} (thread : s.thread tid = some t)
    (block : t.block = .await c w) (met : s.condMet tid t c = false) : s.resumeAwait tid = .next s := by
  simp only [State.resumeAwait, thread, block, met, Bool.false_eq_true, if_false]

theorem State.resumeAwait_of_met {tid : Nat} {t : Thread} {c : Cond} {w : BitVec 32} (thread : s.thread tid = some t)
    (block : t.block = .await c w) (met : s.condMet tid t c = true) :
    s.resumeAwait tid = exec (s.instrOf t w) { s with cur := tid, ir := w } := by
  simp only [State.resumeAwait, thread, block, met, if_true]

theorem State.instrOf_of_featured {t : Thread} {w : BitVec 32} {i : Instr} (dec : decode w = .ok i) (feat : s.featured t i = true) :
    s.instrOf t w = i := by
  simp only [State.instrOf, dec, feat, if_true]

theorem awaitedInstructionCompletes : AwaitedInstructionCompletes := by
  intro s tid t c w i thread block
  refine ⟨fun met => s.resumeAwait_of_not_met thread block met, fun met dec feat => ?_⟩
  rw [← s.instrOf_of_featured dec feat]
  exact s.resumeAwait_of_met thread block met

/-- 5 ns take 18 cc, as R9 gives them: a cc adds 5 eighteenths of one. -/
theorem State.endCc_clock : s.endCc.clock =
    if 18 ≤ s.tphase + 5 then
      ⟨s.cc + 1, if s.timeOmit then s.time else s.time + 1, s.tphase + 5 - 18, s.ns + 1, false⟩
    else ⟨s.cc + 1, s.time, s.tphase + 5, s.ns, s.timeOmit⟩ := by
  have e := s.renewXfers_endMeters_clock
  simp only [State.clock, Clock.mk.injEq] at e
  obtain ⟨cc, time, tphase, ns, omit'⟩ := e
  simp only [State.endCc, State.nsEnds, State.clock, decide_eq_true_eq, cc, time, tphase, ns, omit']
  split <;> rfl

theorem tickMovesTime : TickMovesTime := by
  intro s
  have e := s.endCc_clock
  refine ⟨s.endCc, rfl, ?_, fun lt => ?_, fun le => ?_⟩
  · split at e <;> exact congrArg Clock.cc e
  · rw [if_neg (by omega)] at e
    exact ⟨congrArg Clock.tphase e, congrArg Clock.time e, congrArg Clock.ns e⟩
  · rw [if_pos le] at e
    exact ⟨congrArg Clock.tphase e, congrArg Clock.time e, congrArg Clock.ns e⟩

end

/-! ### The obligations -/

theorem outOk_of_outKeeps {P : Clock → Prop} {o : Out} (h : outKeeps True P o) : outOk o := by
  cases h with
  | next h => exact h.1 trivial
  | fault _ => trivial
  | refused _ => trivial

/-- Settles O10: at reset every memory is empty, and so is what the two checkpoint slots hold. -/
theorem resetMemoryCanonical : Obligations.ResetMemoryCanonical := by
  refine ⟨rfl, rfl, rfl, List.forall_mem_nil _, List.forall_mem_nil _, fun k hk => ?_⟩
  obtain rfl : k = {} := List.eq_of_mem_replicate (n := 2) hk
  exact ⟨List.forall_mem_nil _, List.forall_mem_nil _⟩

/-- Settles O11: every row and every turn writes memory only through operations that keep the canonical form. -/
theorem stepKeepsMemoryCanonical : Obligations.StepKeepsMemoryCanonical := fun _ h =>
  outOk_of_outKeeps (outKeeps.stepOnce ⟨fun _ => h, trivial⟩)

/-- Settles O13: the three parts are `stepTakesTheNextTurn`, `awaitedInstructionCompletes` and `tickMovesTime`. -/
theorem turnsOfACycle : Obligations.TurnsOfACycle :=
  ⟨stepTakesTheNextTurn, awaitedInstructionCompletes, tickMovesTime⟩

end Sys2Proof.Machine

end

section

/-! SUPPORT. The family of the conventions' statements (02_conventions.md): the encodings, the fetch of a word, module reset and the state
registers. -/

namespace Sys2Proof.Machine

/-! ### From an instruction to its word and back (R23 to R36) -/

/-- Every word that an instruction has decodes to it; the rows without one are the events. -/
theorem encode_decodes (i : Instr) : Laws.Encoded.Statement i := by
  cases i with
  | add d a b => exact Laws.Encoded.add d a b
  | sub d a b => exact Laws.Encoded.sub d a b
  | mul d a b => exact Laws.Encoded.mul d a b
  | mulh d a b => exact Laws.Encoded.mulh d a b
  | mulhn d a b => exact Laws.Encoded.mulhn d a b
  | div d a b => exact Laws.Encoded.div d a b
  | divn d a b => exact Laws.Encoded.divn d a b
  | rem d a b => exact Laws.Encoded.rem d a b
  | remn d a b => exact Laws.Encoded.remn d a b
  | and d a b => exact Laws.Encoded.and d a b
  | or d a b => exact Laws.Encoded.or d a b
  | xor d a b => exact Laws.Encoded.xor d a b
  | andn d a b => exact Laws.Encoded.andn d a b
  | orn d a b => exact Laws.Encoded.orn d a b
  | sll d a b => exact Laws.Encoded.sll d a b
  | srl d a b => exact Laws.Encoded.srl d a b
  | sra d a b => exact Laws.Encoded.sra d a b
  | rol d a b => exact Laws.Encoded.rol d a b
  | ror d a b => exact Laws.Encoded.ror d a b
  | slt d a b => exact Laws.Encoded.slt d a b
  | sltn d a b => exact Laws.Encoded.sltn d a b
  | seq d a b => exact Laws.Encoded.seq d a b
  | sne d a b => exact Laws.Encoded.sne d a b
  | min d a b => exact Laws.Encoded.min d a b
  | max d a b => exact Laws.Encoded.max d a b
  | minn d a b => exact Laws.Encoded.minn d a b
  | maxn d a b => exact Laws.Encoded.maxn d a b
  | clz d a => exact Laws.Encoded.clz d a
  | ctz d a => exact Laws.Encoded.ctz d a
  | pop d a => exact Laws.Encoded.pop d a
  | bswap d a => exact Laws.Encoded.bswap d a
  | brev d a => exact Laws.Encoded.brev d a
  | sext d a w => exact Laws.Encoded.sext d a w
  | zext d a w => exact Laws.Encoded.zext d a w
  | sel d a b => exact Laws.Encoded.sel d a b
  | bfx d a b => exact Laws.Encoded.bfx d a b
  | bfi d a b => exact Laws.Encoded.bfi d a b
  | addi d a i => exact Laws.Encoded.addi d a i
  | andi d a i => exact Laws.Encoded.andi d a i
  | ori d a i => exact Laws.Encoded.ori d a i
  | xori d a i => exact Laws.Encoded.xori d a i
  | shiSll d a n => exact Laws.Encoded.shiSll d a n
  | shiSrl d a n => exact Laws.Encoded.shiSrl d a n
  | shiSra d a n => exact Laws.Encoded.shiSra d a n
  | shiRol d a n => exact Laws.Encoded.shiRol d a n
  | shiRor d a n => exact Laws.Encoded.shiRor d a n
  | slti d a i => exact Laws.Encoded.slti d a i
  | sltni d a i => exact Laws.Encoded.sltni d a i
  | li d i => exact Laws.Encoded.li d i
  | lsh d a i => exact Laws.Encoded.lsh d a i
  | bEq a b o => exact Laws.Encoded.bEq a b o
  | bNe a b o => exact Laws.Encoded.bNe a b o
  | bLt a b o => exact Laws.Encoded.bLt a b o
  | bGe a b o => exact Laws.Encoded.bGe a b o
  | bLtn a b o => exact Laws.Encoded.bLtn a b o
  | bGen a b o => exact Laws.Encoded.bGen a b o
  | bBs a b o => exact Laws.Encoded.bBs a b o
  | j o => exact Laws.Encoded.j o
  | jal o => exact Laws.Encoded.jal o
  | jr a => exact Laws.Encoded.jr a
  | jalr d a => exact Laws.Encoded.jalr d a
  | ld d a z w o => exact Laws.Encoded.ld d a z w o
  | st d a z w o => exact Laws.Encoded.st d a z w o
  | ldx d a b z w => exact Laws.Encoded.ldx d a b z w
  | stx d a b z w => exact Laws.Encoded.stx d a b z w
  | amoAdd d a b z w => exact Laws.Encoded.amoAdd d a b z w
  | amoAnd d a b z w => exact Laws.Encoded.amoAnd d a b z w
  | amoOr d a b z w => exact Laws.Encoded.amoOr d a b z w
  | amoXor d a b z w => exact Laws.Encoded.amoXor d a b z w
  | amoMin d a b z w => exact Laws.Encoded.amoMin d a b z w
  | amoMax d a b z w => exact Laws.Encoded.amoMax d a b z w
  | amoMinn d a b z w => exact Laws.Encoded.amoMinn d a b z w
  | amoMaxn d a b z w => exact Laws.Encoded.amoMaxn d a b z w
  | amoSwap d a b z w => exact Laws.Encoded.amoSwap d a b z w
  | amoCas d a b z w => exact Laws.Encoded.amoCas d a b z w
  | redAdd a b z w => exact Laws.Encoded.redAdd a b z w
  | redAnd a b z w => exact Laws.Encoded.redAnd a b z w
  | redOr a b z w => exact Laws.Encoded.redOr a b z w
  | redXor a b z w => exact Laws.Encoded.redXor a b z w
  | redMin a b z w => exact Laws.Encoded.redMin a b z w
  | redMax a b z w => exact Laws.Encoded.redMax a b z w
  | redAddW128 a b w => exact Laws.Encoded.redAddW128 a b w
  | mig d a => exact Laws.Encoded.mig d a
  | migc d a => exact Laws.Encoded.migc d a
  | fenceCore => exact Laws.Encoded.fenceCore
  | fenceCluster => exact Laws.Encoded.fenceCluster
  | fenceHearth => exact Laws.Encoded.fenceHearth
  | fenceModule => exact Laws.Encoded.fenceModule
  | pfl a => exact Laws.Encoded.pfl a
  | xlat d a => exact Laws.Encoded.xlat d a
  | fadd d a b => exact Laws.Encoded.fadd d a b
  | fsub d a b => exact Laws.Encoded.fsub d a b
  | fmul d a b => exact Laws.Encoded.fmul d a b
  | fma d a b => exact Laws.Encoded.fma d a b
  | fnma d a b => exact Laws.Encoded.fnma d a b
  | fdiv d a b => exact Laws.Encoded.fdiv d a b
  | fsqrt d a => exact Laws.Encoded.fsqrt d a
  | fmin d a b => exact Laws.Encoded.fmin d a b
  | fmax d a b => exact Laws.Encoded.fmax d a b
  | fcmpEq d a b => exact Laws.Encoded.fcmpEq d a b
  | fcmpLt d a b => exact Laws.Encoded.fcmpLt d a b
  | fcmpLe d a b => exact Laws.Encoded.fcmpLe d a b
  | fcmpUn d a b => exact Laws.Encoded.fcmpUn d a b
  | fclass d a => exact Laws.Encoded.fclass d a
  | fcvtF32I64 d a => exact Laws.Encoded.fcvtF32I64 d a
  | fcvtF32N64 d a => exact Laws.Encoded.fcvtF32N64 d a
  | fcvtI64F32 d a => exact Laws.Encoded.fcvtI64F32 d a
  | fcvtN64F32 d a => exact Laws.Encoded.fcvtN64F32 d a
  | fcvtI64F32Rtz d a => exact Laws.Encoded.fcvtI64F32Rtz d a
  | fcvtN64F32Rtz d a => exact Laws.Encoded.fcvtN64F32Rtz d a
  | fcvtF32I32 d a => exact Laws.Encoded.fcvtF32I32 d a
  | fcvtI32F32 d a => exact Laws.Encoded.fcvtI32F32 d a
  | fcvtF16F32 d a => exact Laws.Encoded.fcvtF16F32 d a
  | fcvtF32F16 d a => exact Laws.Encoded.fcvtF32F16 d a
  | fcvtBf16F32 d a => exact Laws.Encoded.fcvtBf16F32 d a
  | fcvtF32Bf16 d a => exact Laws.Encoded.fcvtF32Bf16 d a
  | fsgnj d a b => exact Laws.Encoded.fsgnj d a b
  | fsgnjN d a b => exact Laws.Encoded.fsgnjN d a b
  | fsgnjX d a b => exact Laws.Encoded.fsgnjX d a b
  | vadd d a b k t => exact Laws.Encoded.vadd d a b k t
  | vsub d a b k t => exact Laws.Encoded.vsub d a b k t
  | vmul d a b k t => exact Laws.Encoded.vmul d a b k t
  | vmulh d a b k t => exact Laws.Encoded.vmulh d a b k t
  | vmin d a b k t => exact Laws.Encoded.vmin d a b k t
  | vmax d a b k t => exact Laws.Encoded.vmax d a b k t
  | vand d a b k => exact Laws.Encoded.vand d a b k
  | vor d a b k => exact Laws.Encoded.vor d a b k
  | vxor d a b k => exact Laws.Encoded.vxor d a b k
  | vsll d a b k t => exact Laws.Encoded.vsll d a b k t
  | vsrl d a b k t => exact Laws.Encoded.vsrl d a b k t
  | vsra d a b k t => exact Laws.Encoded.vsra d a b k t
  | vadds d a b k t => exact Laws.Encoded.vadds d a b k t
  | vsubs d a b k t => exact Laws.Encoded.vsubs d a b k t
  | vcmpEq d a b k t => exact Laws.Encoded.vcmpEq d a b k t
  | vcmpNe d a b k t => exact Laws.Encoded.vcmpNe d a b k t
  | vcmpLt d a b k t => exact Laws.Encoded.vcmpLt d a b k t
  | vcmpLe d a b k t => exact Laws.Encoded.vcmpLe d a b k t
  | vsel d a b k => exact Laws.Encoded.vsel d a b k
  | vmand d a b => exact Laws.Encoded.vmand d a b
  | vmor d a b => exact Laws.Encoded.vmor d a b
  | vmxor d a b => exact Laws.Encoded.vmxor d a b
  | vmandn d a b => exact Laws.Encoded.vmandn d a b
  | vrsum d a k t => exact Laws.Encoded.vrsum d a k t
  | vrmax d a k t => exact Laws.Encoded.vrmax d a k t
  | vperm d a b k => exact Laws.Encoded.vperm d a b k
  | vfadd d a b k t => exact Laws.Encoded.vfadd d a b k t
  | vfsub d a b k t => exact Laws.Encoded.vfsub d a b k t
  | vfmul d a b k t => exact Laws.Encoded.vfmul d a b k t
  | vfma d a b k t => exact Laws.Encoded.vfma d a b k t
  | vfmin d a b k t => exact Laws.Encoded.vfmin d a b k t
  | vfmax d a b k t => exact Laws.Encoded.vfmax d a b k t
  | vfcmpEq d a b k => exact Laws.Encoded.vfcmpEq d a b k
  | vfcmpLt d a b k => exact Laws.Encoded.vfcmpLt d a b k
  | vfcmpLe d a b k => exact Laws.Encoded.vfcmpLe d a b k
  | vfcmpUn d a b k => exact Laws.Encoded.vfcmpUn d a b k
  | vcvt d a z k t => exact Laws.Encoded.vcvt d a z k t
  | vpk d a z k t => exact Laws.Encoded.vpk d a z k t
  | vex2 d a k t => exact Laws.Encoded.vex2 d a k t
  | vlg2 d a k t => exact Laws.Encoded.vlg2 d a k t
  | vrcp d a k t => exact Laws.Encoded.vrcp d a k t
  | vrsq d a k t => exact Laws.Encoded.vrsq d a k t
  | vsqrt d a k t => exact Laws.Encoded.vsqrt d a k t
  | vsin d a k t => exact Laws.Encoded.vsin d a k t
  | vcos d a k t => exact Laws.Encoded.vcos d a k t
  | vrsumF32 d a k => exact Laws.Encoded.vrsumF32 d a k
  | vrmaxF32 d a k => exact Laws.Encoded.vrmaxF32 d a k
  | vld d a k t => exact Laws.Encoded.vld d a k t
  | vst d a k t => exact Laws.Encoded.vst d a k t
  | vlds d a i k t => exact Laws.Encoded.vlds d a i k t
  | vsts d a i k t => exact Laws.Encoded.vsts d a i k t
  | vldg d a i k t => exact Laws.Encoded.vldg d a i k t
  | vstg d a i k t => exact Laws.Encoded.vstg d a i k t
  | vclaim a => exact Laws.Encoded.vclaim a
  | vrel => exact Laws.Encoded.vrel
  | vsetl a => exact Laws.Encoded.vsetl a
  | vbc d a k => exact Laws.Encoded.vbc d a k
  | vmovgv d a i => exact Laws.Encoded.vmovgv d a i
  | vmovvg a i t => exact Laws.Encoded.vmovvg a i t
  | vmovvgD a i => exact Laws.Encoded.vmovvgD a i
  | vrng d i k t => exact Laws.Encoded.vrng d i k t
  | vfix d a i k => exact Laws.Encoded.vfix d a i k
  | vunfix d a i => exact Laws.Encoded.vunfix d a i
  | vslide d a i k => exact Laws.Encoded.vslide d a i k
  | vmpop a i => exact Laws.Encoded.vmpop a i
  | vacc d a i k t => exact Laws.Encoded.vacc d a i k t
  | mclaim a d => exact Laws.Encoded.mclaim a d
  | mrel a => exact Laws.Encoded.mrel a
  | mset a => exact Laws.Encoded.mset a
  | mget a => exact Laws.Encoded.mget a
  | mzero d t => exact Laws.Encoded.mzero d t
  | mbias a d t => exact Laws.Encoded.mbias a d t
  | mmul a b d t => exact Laws.Encoded.mmul a b d t
  | mmulg a b d t => exact Laws.Encoded.mmulg a b d t
  | mdrain a b d t => exact Laws.Encoded.mdrain a b d t
  | mwait d => exact Laws.Encoded.mwait d
  | mstop d => exact Laws.Encoded.mstop d
  | xset a => exact Laws.Encoded.xset a
  | xcopy a d c => exact Laws.Encoded.xcopy a d c
  | xstr a d c => exact Laws.Encoded.xstr a d c
  | xgat a b d c => exact Laws.Encoded.xgat a b d c
  | xmc a d c => exact Laws.Encoded.xmc a d c
  | xack a b d => exact Laws.Encoded.xack a b d
  | xwp a d c => exact Laws.Encoded.xwp a d c
  | xwait a d => exact Laws.Encoded.xwait a d
  | xkill a d => exact Laws.Encoded.xkill a d
  | bset a b z => exact Laws.Encoded.bset a b z
  | barr a d z => exact Laws.Encoded.barr a d z
  | barw a d z => exact Laws.Encoded.barw a d z
  | barwT a b d z => exact Laws.Encoded.barwT a b d z
  | bstat a d z => exact Laws.Encoded.bstat a d z
  | rarr a b d => exact Laws.Encoded.rarr a b d
  | pbar a d => exact Laws.Encoded.pbar a d
  | waitw a b d c => exact Laws.Encoded.waitw a b d c
  | qput a b d f => exact Laws.Encoded.qput a b d f
  | qget a b d n => exact Laws.Encoded.qget a b d n
  | qstat a d => exact Laws.Encoded.qstat a d
  | cput a b d => exact Laws.Encoded.cput a b d
  | cget a b d => exact Laws.Encoded.cget a b d
  | cnode a b d => exact Laws.Encoded.cnode a b d
  | cref b d => exact Laws.Encoded.cref b d
  | cdrop b d => exact Laws.Encoded.cdrop b d
  | croot a b d => exact Laws.Encoded.croot a b d
  | cswap a b d => exact Laws.Encoded.cswap a b d
  | cout a b d c => exact Laws.Encoded.cout a b d c
  | cstat b d => exact Laws.Encoded.cstat b d
  | cstatHome a d => exact Laws.Encoded.cstatHome a d
  | apply a d => exact Laws.Encoded.apply a d
  | applyW a d => exact Laws.Encoded.applyW a d
  | patch a b d => exact Laws.Encoded.patch a b d
  | cread a d => exact Laws.Encoded.cread a d
  | join a d => exact Laws.Encoded.join a d
  | send a b d n => exact Laws.Encoded.send a b d n
  | hret => exact Laws.Encoded.hret
  | exit => exact Laws.Encoded.exit
  | yield a b d => exact Laws.Encoded.yield a b d
  | resume a b d => exact Laws.Encoded.resume a b d
  | tid d z => exact Laws.Encoded.tid d z
  | stage d z => exact Laws.Encoded.stage d z
  | bal d => exact Laws.Encoded.bal d
  | sleep a d => exact Laws.Encoded.sleep a d
  | wake a d => exact Laws.Encoded.wake a d
  | jbeg => exact Laws.Encoded.jbeg
  | jend d => exact Laws.Encoded.jend d
  | shdone => exact Laws.Encoded.shdone
  | rsdone => exact Laws.Encoded.rsdone
  | uchg a d => exact Laws.Encoded.uchg a d
  | uown a d => exact Laws.Encoded.uown a d
  | uownSt d => exact Laws.Encoded.uownSt d
  | ucfgOwn a b d => exact Laws.Encoded.ucfgOwn a b d
  | ucfgTab a b d => exact Laws.Encoded.ucfgTab a b d
  | ucfgArb a d => exact Laws.Encoded.ucfgArb a d
  | csrr d n => exact Laws.Encoded.csrr d n
  | csrw a n => exact Laws.Encoded.csrw a n
  | csrx d a n => exact Laws.Encoded.csrx d a n
  | trap c => exact Laws.Encoded.trap c
  | tret => exact Laws.Encoded.tret
  | sysc a => exact Laws.Encoded.sysc a
  | syscNb a => exact Laws.Encoded.syscNb a
  | brk c => exact Laws.Encoded.brk c
  | cch a b d => exact Laws.Encoded.cch a b d
  | csave a b d => exact Laws.Encoded.csave a b d
  | crest a b d => exact Laws.Encoded.crest a b d
  | tlbi a => exact Laws.Encoded.tlbi a
  | tlbiAll => exact Laws.Encoded.tlbiAll
  | prst a d => exact Laws.Encoded.prst a d
  | mark a => exact Laws.Encoded.mark a
  | dbrk d => exact Laws.Encoded.dbrk d
  | smpl a d => exact Laws.Encoded.smpl a d
  | _ => exact Laws.Encoded.none_encoded rfl

theorem decode_of_encode {i : Instr} {w : BitVec 32} (wf : i.wf = true) (encoded : encode i = [w]) : decode w = .ok i :=
  encode_decodes i wf w (encoded ▸ List.mem_singleton_self w)

/-! ### The operand codes (R24, R27, R32, R247, R252, R284): each is read from its own number alone -/

@[simp] theorem szOf?_eq_some {n : Nat} {z : Sz} : szOf? n = some z ↔ szCode z = n := by
  refine ⟨fun h => ?_, fun h => h ▸ szOf_szCode z⟩
  unfold szOf? at h
  split at h <;> cases h <;> rfl

@[simp] theorem wtOf?_eq_some {n : Nat} {z : Wt} : wtOf? n = some z ↔ wtCode z = n := by
  refine ⟨fun h => ?_, fun h => h ▸ wtOf_wtCode z⟩
  unfold wtOf? at h
  split at h <;> cases h <;> rfl

@[simp] theorem xwOf?_eq_some {n : Nat} {z : XWidth} : xwOf? n = some z ↔ xwCode z = n := by
  refine ⟨fun h => ?_, fun h => h ▸ xwOf_xwCode z⟩
  unfold xwOf? at h
  split at h <;> cases h <;> rfl

@[simp] theorem vtOf?_eq_some {n : Nat} {z : VType} : vtOf? n = some z ↔ vtCode z = n := by
  refine ⟨fun h => ?_, fun h => h ▸ vtOf_vtCode z⟩
  unfold vtOf? at h
  split at h <;> cases h <;> rfl

@[simp] theorem scopeOf?_eq_some {n : Nat} {z : Scope} : scopeOf? n = some z ↔ scopeCode z = n := by
  refine ⟨fun h => ?_, fun h => h ▸ scopeOf_scopeCode z⟩
  unfold scopeOf? at h
  split at h <;> cases h <;> rfl

@[simp] theorem wcondOf?_eq_some {n : Nat} {z : WCond} : wcondOf? n = some z ↔ wcondCode z = n := by
  refine ⟨fun h => ?_, fun h => h ▸ wcondOf_wcondCode z⟩
  unfold wcondOf? at h
  split at h <;> cases h <;> rfl

@[simp] theorem qmodeOf?_eq_some {n : Nat} {z : QMode} : qmodeOf? n = some z ↔ qmodeCode z = n := by
  refine ⟨fun h => ?_, fun h => h ▸ qmodeOf_qmodeCode z⟩
  unfold qmodeOf? at h
  split at h <;> cases h <;> rfl

@[simp] theorem boolOf?_eq_some {n : Nat} {z : Bool} : boolOf? n = some z ↔ boolCode z = n := by
  refine ⟨fun h => ?_, fun h => h ▸ boolOf_boolCode z⟩
  unfold boolOf? at h
  split at h <;> cases h <;> rfl

@[simp] theorem fin5Of?_eq_some {n : Nat} {z : Fin 5} : fin5Of? n = some z ↔ z.val = n := by
  refine ⟨fun h => ?_, fun h => h ▸ fin5Of_val z⟩
  unfold fin5Of? at h
  split at h <;> cases h <;> rfl

@[simp] theorem fin3Of?_eq_some {n : Nat} {z : Fin 3} : fin3Of? n = some z ↔ z.val = n := by
  refine ⟨fun h => ?_, fun h => h ▸ fin3Of_val z⟩
  unfold fin3Of? at h
  split at h <;> cases h <;> rfl


/-! ### The fields of a word -/

@[simp] theorem gAt_val (w lo : Nat) : (gAt w lo).val = fld w lo 5 := rfl
@[simp] theorem vAt_val (w lo : Nat) : (vAt w lo).val = fld w lo 4 := rfl
@[simp] theorem mAt_val (w lo : Nat) : (mAt w lo).val = fld w lo 3 := rfl
@[simp] theorem cAt_val (w lo : Nat) : (cAt w lo).val = fld w lo 2 := rfl
@[simp] theorem toNat_ofNat_fld (w lo n : Nat) : (BitVec.ofNat n (fld w lo n)).toNat = fld w lo n := by
  simp [fld]

theorem fld_split (w lo a b : Nat) : fld w lo (a + b) = fld w lo a + 2 ^ a * fld w (lo + a) b := by
  simp only [fld, Nat.pow_add, ← Nat.div_div_eq_div_mul]
  exact Nat.mod_mul

/-- The number that fields of the given widths, one above the other from bit lo on, are part of. -/
def fieldSum (w : Nat) : Nat → List Nat → Nat
  | _, [] => 0
  | lo, n :: l => 2 ^ lo * fld w lo n + fieldSum w (lo + n) l

theorem fieldSum_eq (w : Nat) : ∀ (lo : Nat) (l : List Nat), fieldSum w lo l = 2 ^ lo * fld w lo l.sum
  | lo, [] => by simp [fieldSum, fld, Nat.mod_one]
  | lo, n :: l => by
    rw [fieldSum, fieldSum_eq w (lo + n) l, List.sum_cons, fld_split, Nat.mul_add, Nat.pow_add, Nat.mul_assoc]

/-- A word is the sum of its fields, however it is cut into fields. -/
theorem eq_fieldSum {w : Nat} (hw : w < 2 ^ 32) (l : List Nat) (hl : l.sum = 32) : w = fieldSum w 0 l := by
  simpa [fieldSum_eq, hl, fld] using (Nat.mod_eq_of_lt hw).symm

/-! ### From a word to its instruction and back -/

/-- `r`, what is read of the word numbered w, is no instruction or one that w encodes. -/
def Reads (w : Nat) (r : Except Reject Instr) : Prop := ∀ i, r = .ok i → encodeNat i = some w

section
variable {w : Nat}

@[simp] theorem reads_ok {i : Instr} : Reads w (.ok i) ↔ encodeNat i = some w :=
  ⟨fun h => h i rfl, fun h _ e => Except.ok.inj e ▸ h⟩

@[simp] theorem reads_error {e : Reject} : Reads w (.error e) := fun _ h => nomatch h

@[simp] theorem reads_zero {n : Nat} {i : Instr} : Reads w (zero n i) ↔ (n = 0 → encodeNat i = some w) := by
  unfold zero
  split <;> simp [*]

@[simp] theorem reads_sel {α : Type} {o : Option α} {k : α → Except Reject Instr} :
    Reads w (sel o k) ↔ ∀ x, o = some x → Reads w (k x) := by
  cases o <;> simp [sel]

end

/-! Each major: the operands and the fixed bits are the fields of the word, as the format cuts it. -/

section
variable {w : Nat} (hw : w < 2 ^ 32)
include hw

theorem decInt_reads (major : fld w 26 6 = 1) : Reads w (decInt w) := by
  have cut := eq_fieldSum hw [5, 6, 5, 5, 5, 6] rfl
  have fine := eq_fieldSum hw [2, 3, 6, 5, 5, 5, 6] rfl
  simp only [fieldSum, Nat.reduceAdd] at cut fine
  unfold decInt
  split
  all_goals simp only [reads_error, reads_zero, reads_sel, xwOf?_eq_some]
  all_goals
    intros
    refine congrArg some ?_
    simp only [encA, gAt_val]
    omega

theorem decShi_reads (major : fld w 26 6 = 6) : Reads w (decShi w) := by
  have cut := eq_fieldSum hw [6, 2, 3, 5, 5, 5, 6] rfl
  simp only [fieldSum, Nat.reduceAdd] at cut
  unfold decShi
  split
  all_goals simp only [reads_error, reads_zero]
  all_goals
    intros
    refine congrArg some ?_
    simp only [encI, gAt_val, toNat_ofNat_fld]
    omega

theorem decB_reads (major : fld w 26 6 = 12) : Reads w (decB w) := by
  have cut := eq_fieldSum hw [13, 5, 5, 3, 6] rfl
  simp only [fieldSum, Nat.reduceAdd] at cut
  unfold decB
  split
  all_goals simp only [reads_ok, reads_error]
  all_goals
    refine congrArg some ?_
    simp only [encB, gAt_val, toNat_ofNat_fld]
    omega

theorem decJr_reads (major : fld w 26 6 = 15) : Reads w (decJr w) := by
  have cut := eq_fieldSum hw [11, 5, 5, 5, 6] rfl
  simp only [fieldSum, Nat.reduceAdd] at cut
  unfold decJr
  split
  all_goals simp only [reads_error, reads_zero]
  all_goals
    intros
    refine congrArg some ?_
    simp only [encA, gAt_val]
    omega

theorem decLd_reads (major : fld w 26 6 = 16) : Reads w (decLd w) := by
  have cut := eq_fieldSum hw [11, 2, 3, 5, 5, 6] rfl
  simp only [fieldSum, Nat.reduceAdd] at cut
  unfold decLd
  simp only [reads_ok, reads_sel, szOf?_eq_some, wtOf?_eq_some]
  intros
  refine congrArg some ?_
  simp only [encM, gAt_val, toNat_ofNat_fld]
  omega

theorem decSt_reads (major : fld w 26 6 = 17) : Reads w (decSt w) := by
  have cut := eq_fieldSum hw [11, 2, 3, 5, 5, 6] rfl
  simp only [fieldSum, Nat.reduceAdd] at cut
  unfold decSt
  simp only [reads_ok, reads_sel, szOf?_eq_some, wtOf?_eq_some]
  intros
  refine congrArg some ?_
  simp only [encM, gAt_val, toNat_ofNat_fld]
  omega

theorem decLdx_reads (major : fld w 26 6 = 18) : Reads w (decLdx w) := by
  have cut := eq_fieldSum hw [5, 2, 3, 1, 5, 5, 5, 6] rfl
  simp only [fieldSum, Nat.reduceAdd] at cut
  unfold decLdx
  split
  all_goals simp only [reads_error, reads_zero, reads_sel, szOf?_eq_some, wtOf?_eq_some]
  all_goals
    intros
    refine congrArg some ?_
    simp only [encA, gAt_val]
    omega

theorem decAmo_reads (major : fld w 26 6 = 19) : Reads w (decAmo w) := by
  have cut := eq_fieldSum hw [2, 2, 3, 4, 5, 5, 5, 6] rfl
  simp only [fieldSum, Nat.reduceAdd] at cut
  unfold decAmo
  split
  all_goals simp only [reads_error, reads_zero, reads_sel, szOf?_eq_some, wtOf?_eq_some]
  all_goals
    intros
    refine congrArg some ?_
    simp only [encA, gAt_val]
    omega

theorem decRed_reads (major : fld w 26 6 = 20) : Reads w (decRed w) := by
  have cut := eq_fieldSum hw [3, 2, 3, 3, 5, 5, 5, 6] rfl
  simp only [fieldSum, Nat.reduceAdd] at cut
  unfold decRed
  repeat' split
  all_goals simp only [reads_error, reads_zero, reads_sel, szOf?_eq_some, wtOf?_eq_some]
  all_goals
    intros
    refine congrArg some ?_
    simp only [encA, gAt_val]
    omega

theorem decMemc_reads (major : fld w 26 6 = 21) : Reads w (decMemc w) := by
  have cut := eq_fieldSum hw [4, 7, 5, 5, 5, 6] rfl
  have coarse := eq_fieldSum hw [4, 7, 15, 6] rfl
  simp only [fieldSum, Nat.reduceAdd] at cut coarse
  unfold decMemc
  repeat' split
  all_goals simp only [reads_error, reads_zero]
  all_goals
    intros
    refine congrArg some ?_
    simp only [encA, gAt_val]
    omega

theorem decFps_reads (major : fld w 26 6 = 22) : Reads w (decFps w) := by
  have cut := eq_fieldSum hw [6, 5, 5, 5, 5, 6] rfl
  have fine := eq_fieldSum hw [2, 4, 5, 5, 5, 5, 6] rfl
  simp only [fieldSum, Nat.reduceAdd] at cut fine
  unfold decFps
  repeat' split
  all_goals simp only [reads_error, reads_zero]
  all_goals
    intros
    refine congrArg some ?_
    simp only [encA, gAt_val]
    omega

theorem decVint_reads (major : fld w 26 6 = 24) : Reads w (decVint w) := by
  have cut := eq_fieldSum hw [5, 6, 3, 4, 4, 4, 6] rfl
  have mask := eq_fieldSum hw [5, 6, 3, 4, 4, 3, 1, 6] rfl
  have masks := eq_fieldSum hw [5, 6, 3, 3, 1, 3, 1, 3, 1, 6] rfl
  simp only [fieldSum, Nat.reduceAdd] at cut mask masks
  unfold decVint
  split
  all_goals simp only [reads_ok, reads_error, reads_zero, reads_sel, vtOf?_eq_some]
  all_goals
    intros
    refine congrArg some ?_
    simp only [encV, vAt_val, mAt_val]
    omega

theorem decVfp_reads (major : fld w 26 6 = 25) : Reads w (decVfp w) := by
  have cut := eq_fieldSum hw [5, 6, 3, 4, 4, 4, 6] rfl
  have mask := eq_fieldSum hw [5, 6, 3, 4, 4, 3, 1, 6] rfl
  simp only [fieldSum, Nat.reduceAdd] at cut mask
  unfold decVfp
  repeat' split
  all_goals simp only [reads_ok, reads_error, reads_zero, reads_sel, vtOf?_eq_some]
  all_goals
    intros
    refine congrArg some ?_
    simp only [encV, vAt_val, mAt_val]
    omega

theorem decVmem_reads (major : fld w 26 6 = 26) : Reads w (decVmem w) := by
  have cut := eq_fieldSum hw [5, 5, 3, 4, 5, 4, 6] rfl
  simp only [fieldSum, Nat.reduceAdd] at cut
  unfold decVmem
  split
  all_goals simp only [reads_ok, reads_error, reads_zero, reads_sel, vtOf?_eq_some]
  all_goals
    intros
    refine congrArg some ?_
    simp only [encVM, gAt_val, vAt_val, mAt_val]
    omega

theorem decVspc_reads (major : fld w 26 6 = 27) : Reads w (decVspc w) := by
  have cut := eq_fieldSum hw [5, 5, 3, 4, 5, 4, 6] rfl
  have coarse := eq_fieldSum hw [5, 5, 7, 5, 4, 6] rfl
  have mask := eq_fieldSum hw [5, 5, 3, 3, 1, 5, 4, 6] rfl
  have bare := eq_fieldSum hw [5, 5, 16, 6] rfl
  simp only [fieldSum, Nat.reduceAdd] at cut coarse mask bare
  unfold decVspc
  repeat' split
  all_goals simp only [reads_ok, reads_error, reads_zero, reads_sel, vtOf?_eq_some]
  all_goals
    intros
    refine congrArg some ?_
    simp only [encVM, gAt_val, vAt_val, mAt_val]
    omega

theorem decMat_reads (major : fld w 26 6 = 28) : Reads w (decMat w) := by
  have cut := eq_fieldSum hw [3, 5, 5, 5, 8, 6] rfl
  have low := eq_fieldSum hw [13, 5, 8, 6] rfl
  have mid := eq_fieldSum hw [3, 5, 10, 8, 6] rfl
  simp only [fieldSum, Nat.reduceAdd] at cut low mid
  unfold decMat
  split
  all_goals simp only [reads_ok, reads_error, reads_zero, reads_sel, vtOf?_eq_some]
  all_goals
    intros
    refine congrArg some ?_
    simp only [encE, gAt_val, mAt_val]
    omega

theorem decCopy_reads (major : fld w 26 6 = 29) : Reads w (decCopy w) := by
  have cut := eq_fieldSum hw [3, 5, 5, 5, 8, 6] rfl
  have chan := eq_fieldSum hw [2, 1, 5, 5, 5, 8, 6] rfl
  have low := eq_fieldSum hw [13, 5, 8, 6] rfl
  simp only [fieldSum, Nat.reduceAdd] at cut chan low
  unfold decCopy
  split
  all_goals simp only [reads_error, reads_zero]
  all_goals
    intros
    refine congrArg some ?_
    simp only [encE, gAt_val, cAt_val]
    omega

theorem decSync_reads (major : fld w 26 6 = 30) : Reads w (decSync w) := by
  have cut := eq_fieldSum hw [3, 5, 5, 5, 8, 6] rfl
  have scope := eq_fieldSum hw [2, 1, 5, 5, 5, 8, 6] rfl
  have bset := eq_fieldSum hw [2, 6, 5, 5, 8, 6] rfl
  have qget := eq_fieldSum hw [1, 2, 5, 5, 5, 8, 6] rfl
  simp only [fieldSum, Nat.reduceAdd] at cut scope bset qget
  unfold decSync
  split
  all_goals simp only [reads_ok, reads_error, reads_zero, reads_sel, scopeOf?_eq_some, wcondOf?_eq_some, qmodeOf?_eq_some, boolOf?_eq_some]
  all_goals
    intros
    refine congrArg some ?_
    simp only [encE, gAt_val]
    omega

theorem decCrumb_reads (major : fld w 26 6 = 31) : Reads w (decCrumb w) := by
  have cut := eq_fieldSum hw [3, 5, 5, 5, 8, 6] rfl
  have chan := eq_fieldSum hw [2, 1, 5, 5, 5, 8, 6] rfl
  simp only [fieldSum, Nat.reduceAdd] at cut chan
  unfold decCrumb
  repeat' split
  all_goals simp only [reads_error, reads_zero]
  all_goals
    intros
    refine congrArg some ?_
    simp only [encE, gAt_val, cAt_val]
    omega

theorem decThrd_reads (major : fld w 26 6 = 32) : Reads w (decThrd w) := by
  have cut := eq_fieldSum hw [3, 5, 5, 5, 8, 6] rfl
  have mid := eq_fieldSum hw [3, 5, 10, 8, 6] rfl
  have bare := eq_fieldSum hw [18, 8, 6] rfl
  simp only [fieldSum, Nat.reduceAdd] at cut mid bare
  unfold decThrd
  repeat' split
  all_goals simp only [reads_ok, reads_error, reads_zero, reads_sel, fin5Of?_eq_some, fin3Of?_eq_some]
  all_goals
    intros
    refine congrArg some ?_
    simp only [encE, gAt_val, mAt_val]
    omega

theorem decUrg_reads (major : fld w 26 6 = 33) : Reads w (decUrg w) := by
  have cut := eq_fieldSum hw [3, 5, 5, 5, 8, 6] rfl
  have mid := eq_fieldSum hw [3, 5, 10, 8, 6] rfl
  have bare := eq_fieldSum hw [18, 8, 6] rfl
  simp only [fieldSum, Nat.reduceAdd] at cut mid bare
  unfold decUrg
  repeat' split
  all_goals simp only [reads_ok, reads_error, reads_zero]
  all_goals
    intros
    refine congrArg some ?_
    simp only [encE, gAt_val]
    omega

theorem decSys_reads (major : fld w 26 6 = 34) : Reads w (decSys w) := by
  have cut := eq_fieldSum hw [4, 12, 5, 5, 6] rfl
  have high := eq_fieldSum hw [4, 12, 10, 6] rfl
  have bare := eq_fieldSum hw [4, 22, 6] rfl
  simp only [fieldSum, Nat.reduceAdd] at cut high bare
  unfold decSys
  split
  all_goals simp only [reads_ok, reads_error, reads_zero]
  all_goals
    intros
    refine congrArg some ?_
    simp only [encC, gAt_val, toNat_ofNat_fld]
    omega

theorem decPriv_reads (major : fld w 26 6 = 35) : Reads w (decPriv w) := by
  have cut := eq_fieldSum hw [3, 5, 5, 5, 8, 6] rfl
  have mid := eq_fieldSum hw [3, 10, 5, 8, 6] rfl
  have bare := eq_fieldSum hw [3, 15, 8, 6] rfl
  simp only [fieldSum, Nat.reduceAdd] at cut mid bare
  unfold decPriv
  repeat' split
  all_goals simp only [reads_error, reads_zero]
  all_goals
    intros
    refine congrArg some ?_
    simp only [encE, gAt_val]
    omega

theorem decDbg_reads (major : fld w 26 6 = 36) : Reads w (decDbg w) := by
  have cut := eq_fieldSum hw [3, 5, 5, 5, 8, 6] rfl
  have low := eq_fieldSum hw [13, 5, 8, 6] rfl
  have mid := eq_fieldSum hw [3, 5, 10, 8, 6] rfl
  simp only [fieldSum, Nat.reduceAdd] at cut low mid
  unfold decDbg
  split
  all_goals simp only [reads_error, reads_zero]
  all_goals
    intros
    refine congrArg some ?_
    simp only [encE, gAt_val]
    omega

/-- A word of format I that has no selector. -/
theorem reads_encI {i : Instr} {m : Nat} (major : fld w 26 6 = m)
    (hi : encodeNat i = some (encI (m * 2 ^ 26) (gAt w 21).val (gAt w 16).val (BitVec.ofNat 16 (fld w 0 16)).toNat)) :
    Reads w (.ok i) := by
  have cut := eq_fieldSum hw [16, 5, 5, 6] rfl
  simp only [fieldSum, Nat.reduceAdd] at cut
  refine reads_ok.mpr (hi.trans (congrArg some ?_))
  simp only [encI, gAt_val, toNat_ofNat_fld]
  omega

theorem decLi_reads (major : fld w 26 6 = 9) : Reads w (decLi w) := by
  have cut := eq_fieldSum hw [21, 5, 6] rfl
  simp only [fieldSum, Nat.reduceAdd] at cut
  refine reads_ok.mpr (congrArg some ?_)
  simp only [encL, gAt_val, toNat_ofNat_fld]
  omega

/-- A word of format J. -/
theorem reads_encJ {i : Instr} {m : Nat} (major : fld w 26 6 = m)
    (hi : encodeNat i = some (encJ (m * 2 ^ 26) (BitVec.ofNat 26 (fld w 0 26)).toNat)) : Reads w (.ok i) := by
  have cut := eq_fieldSum hw [26, 6] rfl
  simp only [fieldSum, Nat.reduceAdd] at cut
  refine reads_ok.mpr (hi.trans (congrArg some ?_))
  simp only [encJ, toNat_ofNat_fld]
  omega

theorem rawDecode_reads : Reads w (rawDecode w) := by
  unfold rawDecode
  split
  · next h => exact decInt_reads hw h
  · next h => exact reads_encI hw h rfl
  · next h => exact reads_encI hw h rfl
  · next h => exact reads_encI hw h rfl
  · next h => exact reads_encI hw h rfl
  · next h => exact decShi_reads hw h
  · next h => exact reads_encI hw h rfl
  · next h => exact reads_encI hw h rfl
  · next h => exact decLi_reads hw h
  · next h => exact reads_encI hw h rfl
  · next h => exact decB_reads hw h
  · next h => exact reads_encJ hw h rfl
  · next h => exact reads_encJ hw h rfl
  · next h => exact decJr_reads hw h
  · next h => exact decLd_reads hw h
  · next h => exact decSt_reads hw h
  · next h => exact decLdx_reads hw h
  · next h => exact decAmo_reads hw h
  · next h => exact decRed_reads hw h
  · next h => exact decMemc_reads hw h
  · next h => exact decFps_reads hw h
  · next h => exact decVint_reads hw h
  · next h => exact decVfp_reads hw h
  · next h => exact decVmem_reads hw h
  · next h => exact decVspc_reads hw h
  · next h => exact decMat_reads hw h
  · next h => exact decCopy_reads hw h
  · next h => exact decSync_reads hw h
  · next h => exact decCrumb_reads hw h
  · next h => exact decThrd_reads hw h
  · next h => exact decUrg_reads hw h
  · next h => exact decSys_reads hw h
  · next h => exact decPriv_reads hw h
  · next h => exact decDbg_reads hw h
  · exact reads_error

end

theorem rawDecode_of_decodeNat {n : Nat} {i : Instr} (h : decodeNat n = .ok i) : rawDecode n = .ok i := by
  unfold decodeNat at h
  split at h
  · next hr =>
    split at h
    · split at h
      · exact hr.trans h
      · cases h
    · cases h
  · cases h

theorem encode_of_encodeNat {i : Instr} {n : Nat} (h : encodeNat i = some n) : encode i = [BitVec.ofNat 32 n] := by
  simp only [encode, h]

/-! ### From a position to the instruction of its word (R36) -/

/-- A look for a translation changes the TLB of a core and its signals alone (R114). -/
theorem State.looked_rest (s : State) (core part va : Nat) :
    { s.looked core part va with cores := s.cores, signals := s.signals } = s := by
  unfold State.looked
  split <;> rfl

theorem State.looked_leafReason (s : State) (core part va p : Nat) (sec : Bool) (k : AccessKind) (l : Leaf) (off : Nat) :
    (s.looked core part va).leafReason p sec k l off = s.leafReason p sec k l off :=
  (congrArg (fun s : State => s.leafReason p sec k l off) (s.looked_rest core part va) :)

theorem State.looked_phys (s : State) (core part va k : Nat) : (s.looked core part va).mem (.phys k) = s.mem (.phys k) :=
  (congrArg (fun s : State => s.mem (.phys k)) (s.looked_rest core part va) :)

/-- The fetch of a thread at an address that a TLB translates to a page of which it may fetch (R99): what follows runs on the word. -/
theorem State.fetch_of_mapped {s : State} {t : Thread} {va : Nat} {e : TlbEntry} (k : BitVec 32 → Out)
    (window : s.window t.part (coreOf s.cur) t.pc = some (.global va)) (aligned : va % 4 = 0)
    (tlb : s.tlbFind (coreOf s.cur) t.part va = some e)
    (allowed : s.leafReason t.part t.sec .fetch e.leaf (va - e.base) = 0) (backed : e.leaf.exists_ (va - e.base) = true) :
    s.fetch t k = k (BitVec.ofNat 32 ((s.mem (.phys e.leaf.tier)).read (e.leaf.pa + (va - e.base)) 4)) := by
  simp [State.fetch, State.translate, State.looked_leafReason, State.looked_phys, window, aligned, tlb, allowed, backed]

theorem State.runWord_of_decoded {s : State} {t : Thread} {w : BitVec 32} {i : Instr} (mcheck : t.mcheck = [])
    (dec : decode w = .ok i) (feat : s.featured t i = true) : s.runWord t w = exec i { s with ir := w } := by
  simp only [State.runWord, mcheck, State.instrOf_of_featured dec feat]

/-- A turn of a core in which the thread `t` of its position fetches the word `w`, which the TLB entry `e` translates: it may issue, and
nothing is due at its boundary (R36). -/
structure State.fetches (s : State) (core tid : Nat) (l : List Act) (t : Thread) (va : Nat) (e : TlbEntry) (w : BitVec 32) : Prop where
  urgent : s.urgent = []
  turns : s.turns = .issue core :: l
  slot : s.slotNow core = some tid
  thread : s.thread tid = some t
  stop : s.stopNow tid t = false
  bp : s.bpDue tid t = false
  may : s.canIssue tid t = true
  boundary : s.boundary tid t = none
  here : coreOf tid = core
  mcheck : t.mcheck = []
  window : s.window t.part core t.pc = some (.global va)
  aligned : va % 4 = 0
  tlb : s.tlbFind core t.part va = some e
  allowed : s.leafReason t.part t.sec .fetch e.leaf (va - e.base) = 0
  backed : e.leaf.exists_ (va - e.base) = true
  word : w = BitVec.ofNat 32 ((s.mem (.phys e.leaf.tier)).read (e.leaf.pa + (va - e.base)) 4)

/-- The state in which the thread of a core's position has issued and its word is not yet there. -/
def State.issuing (s : State) (core tid : Nat) (l : List Act) : State :=
  { ({ s with turns := l } : State).modCore core fun c => { c with lastIssue := some s.cc } with cur := tid, ir := 0 }

theorem State.issuing_tlbFind (s : State) (core tid : Nat) (l : List Act) (part va : Nat) :
    (s.issuing core tid l).tlbFind core part va = s.tlbFind core part va := by
  have own : ((s.issuing core tid l).core core).tlb = (s.core core).tlb :=
    (congrArg Core.tlb (State.core_modCore_same { s with turns := l } core fun c => { c with lastIssue := some s.cc }) :)
  simp only [State.tlbFind, own]
  rfl

section
variable {s : State} {core tid : Nat} {l : List Act} {t : Thread} {va : Nat} {e : TlbEntry} {w : BitVec 32}
  (h : s.fetches core tid l t va e w)
include h

theorem State.fetches.issue : ({ s with turns := l } : State).issue core = ({ s with turns := l } : State).issueThread tid t := by
  have slot : ({ s with turns := l } : State).slotNow core = some tid := h.slot
  have thread : ({ s with turns := l } : State).thread tid = some t := h.thread
  have stop : ({ s with turns := l } : State).stopNow tid t = false := h.stop
  have bp : ({ s with turns := l } : State).bpDue tid t = false := h.bp
  have may : ({ s with turns := l } : State).canIssue tid t = true := h.may
  have boundary := h.boundary
  simp [State.issue, slot, thread, stop, bp, may, ← h.turns, boundary]

theorem State.fetches.fetch (k : BitVec 32 → Out) : (s.issuing core tid l).fetch t k = k w := by
  obtain rfl := h.here
  have tlb := (s.issuing_tlbFind (coreOf tid) tid l t.part va).trans h.tlb
  rw [State.fetch_of_mapped k h.window h.aligned tlb h.allowed h.backed, h.word]
  rfl

/-- The word that the position's thread fetches runs, on the state as it was before the look for the translation: what the look changes,
the core's TLB and its signals, is lost. -/
theorem State.fetches.step_eq {i : Instr} (dec : decode w = .ok i) (feat : s.featured t i = true) :
    step s = exec i { s.issuing core tid l with ir := w } :=
  calc
    step s = ({ s with turns := l } : State).issue core := step_of_turn h.urgent h.turns
    _ = ({ s with turns := l } : State).issueThread tid t := h.issue
    _ = (s.issuing core tid l).fetch t ((s.issuing core tid l).runWord t) := by rw [← h.here]; rfl
    _ = (s.issuing core tid l).runWord t w := h.fetch _
    _ = exec i { s.issuing core tid l with ir := w } := State.runWord_of_decoded h.mcheck dec feat

end

/-! ### The word that `withFetchWord` places (R17) -/

theorem featureOf_le (i : Instr) : featureOf i ≤ 2 := by
  have ofZone (z : Scope) : (if z = .pod then 2 else 0) ≤ 2 := by cases z <;> decide
  unfold featureOf
  split
  case h_12 | h_13 => exact ofZone _
  all_goals decide

/-- A partition that has accepted every feature and locked them has every form (R371). -/
theorem featured_of_features {s : State} {t : Thread} {p : Partition} {i : Instr} (part : s.part t.part = some p)
    (all : (p.accepts 1 && p.accepts 2) = true) : s.featured t i = true := by
  obtain ⟨crumb, pod⟩ := Bool.and_eq_true_iff.mp all
  have le := featureOf_le i
  simp only [State.featured, part]
  interval_cases featureOf i
  · rfl
  · simp [crumb]
  · simp [pod]

/-- The thread that `withFetchWord` puts in the service core's slot 0. -/
def firstThread : Thread := { pc := 0x100000000, priv := 1 }

/-- The kernel's page as the TLB of that thread's core has it. -/
def firstPage : TlbEntry :=
  ⟨0, 0x100000000,
    { part := 0, home := 0, tier := 0, cls := 1, r := true, w := false, x := true, sec := false, pa := 0x10000, size := 2 ^ 16 }⟩

theorem withFetchWord_hbm (w : BitVec 32) : (State.reset.withFetchWord 32 w.toNat).hbm = Memory.write [] 0x10000 4 w.toNat := by
  have e : BitVec.ofNat 32 (w.toNat % 2 ^ 32) = w := by
    rw [Nat.mod_eq_of_lt w.isLt, BitVec.ofNat_toNat, BitVec.setWidth_eq]
  exact congrArg (fun w : BitVec 32 => Memory.write [] 0x10000 4 w.toNat) e

theorem withFetchWord_read (w : BitVec 32) : (State.reset.withFetchWord 32 w.toNat).hbm.read 0x10000 4 = w.toNat := by
  rw [withFetchWord_hbm, Memory.read_write_same]
  exact Nat.mod_eq_of_lt w.isLt

theorem withFetchWord_fetches (w : BitVec 32) :
    (State.reset.withFetchWord 32 w.toNat).fetches 31 0x1F0 [] firstThread 0x100000000 firstPage w where
  urgent := rfl
  turns := rfl
  slot := rfl
  thread := rfl
  stop := rfl
  bp := rfl
  may := rfl
  boundary := rfl
  here := rfl
  mcheck := rfl
  window := rfl
  aligned := rfl
  tlb := rfl
  allowed := rfl
  backed := rfl
  word := by
    have e := congrArg (BitVec.ofNat 32) (withFetchWord_read w)
    rw [BitVec.ofNat_toNat, BitVec.setWidth_eq] at e
    exact e.symm

/-! ### A look that fills a core's TLB from its cluster's (R114) -/

/-- A placed word that decodes to `sub`, with its translation in the cluster's TLB and not in the core's: the look for it fills the core's
TLB and raises the signal of a miss. -/
def byCluster : State :=
  let s := State.reset.withFetchWord 32 0x04642820
  { s.modCore 31 fun c => { c with tlb := [] } with clusters := [(1, { tlb := [firstPage] })] }

theorem byCluster_fetches : byCluster.fetches 31 0x1F0 [] firstThread 0x100000000 firstPage 0x04642820 where
  urgent := rfl
  turns := rfl
  slot := rfl
  thread := rfl
  stop := rfl
  bp := rfl
  may := rfl
  boundary := rfl
  here := rfl
  mcheck := rfl
  window := rfl
  aligned := rfl
  tlb := rfl
  allowed := rfl
  backed := rfl
  word := rfl

/-- The signals that the next state holds. -/
def Out.signals : Out → List (Nat × Nat)
  | .next s => s.signals
  | _ => []

/-! ### Module reset (R19, R80, R379) -/

theorem moduleResetState : ModuleResetState :=
  ⟨rfl, rfl, rfl, rfl, rfl, rfl, rfl, rfl, rfl, rfl, rfl, rfl, rfl, rfl,
    fun _ => ⟨rfl, rfl, rfl, rfl, rfl, fun _ => ⟨rfl, rfl⟩, fun _ => rfl⟩⟩

theorem freshThread : FreshThread := by
  refine ⟨fun r => ?_, rfl, rfl, rfl, rfl, rfl, rfl, rfl, rfl, rfl, rfl, rfl, rfl, rfl, rfl⟩
  simp [Thread.rd]

theorem registerZero : RegisterZero := by
  intro t r v
  refine ⟨t.rd_zero, rfl, fun h => ?_, fun r' h => ?_⟩
  · rw [Thread.rd_wr]; simp [h]
  · rw [Thread.rd_wr]
    split
    · next h0 => rw [h0, Thread.rd_zero]
    · rfl

/-! ### The checks of a state register's access (R20, R21, R313) -/

/-- ACC, bits 7:6 of a register's number. -/
theorem acc_eq (n : BitVec 12) : n.toNat / 64 % 4 = (n.extractLsb' 6 2).toNat := by
  simp [BitVec.extractLsb'_toNat, Nat.shiftRight_eq_div_pow]

theorem accLevel_read {n : BitVec 12} (acc : n.extractLsb' 6 2 = 3) : accLevel n.toNat false = 1 := by
  simp [accLevel, acc_eq, acc]

theorem accLevel_write_service {n : BitVec 12} (acc : n.extractLsb' 6 2 = 1 ∨ n.extractLsb' 6 2 = 3) : accLevel n.toNat true = 1 := by
  rcases acc with acc | acc <;> simp [accLevel, acc_eq, acc]

theorem accLevel_write_monitor {n : BitVec 12} (acc : n.extractLsb' 6 2 = 2) : accLevel n.toNat true = 2 := by
  simp [accLevel, acc_eq, acc]

section
variable {s : State} {t : Thread} {n : Nat} {write : Bool} {k : Thread → Out} (thread : s.thread s.cur = some t)
include thread

theorem State.csrAccess_none (none : csrOf n = none) : s.csrAccess n write k = s.illegal t := by
  simp only [State.csrAccess, State.onThread_eq thread, none]

section
variable {r : Csr} (reg : csrOf n = some r)
include reg

theorem State.csrAccess_readOnly (ro : r.ro = true) : s.csrAccess n true k = s.illegal t := by
  simp [State.csrAccess, State.onThread_eq thread, reg, ro]

variable (may : (write && r.ro) = false)
include may

theorem State.csrAccess_priv (acc : t.priv < accLevel n write) : s.csrAccess n write k = s.priv t := by
  simp [State.csrAccess, State.onThread_eq thread, reg, may, acc]

theorem State.csrAccess_now (acc : accLevel n write ≤ t.priv) (now : r.how = .now) : s.csrAccess n write k = k t := by
  simp [State.csrAccess, State.onThread_eq thread, reg, may, Nat.not_lt.mpr acc, now]

/-- An access is performed at once where no engine command of the thread delays it (R149, R180). -/
theorem State.csrAccess_idle (acc : accLevel n write ≤ t.priv) (vector : s.vbusy s.cur = false) (matrix : s.mbusy s.cur 0xFF = false)
    (poison : t.poison = []) : s.csrAccess n write k = k t := by
  simp only [State.csrAccess, State.onThread_eq thread, reg, may, Nat.not_lt.mpr acc, Bool.false_eq_true, if_false]
  split
  · rfl
  · simp [vector]
  · simp [State.poisonFirst, poison, matrix]

end

end

theorem csrChecks : CsrChecks := by
  intro s t d a n thread
  refine ⟨fun none => ⟨State.csrAccess_none thread none, State.csrAccess_none thread none, State.csrAccess_none thread none⟩, ?_⟩
  intro r reg
  refine ⟨fun ro => ?_, fun acc priv => ?_, fun ro acc priv => ?_, fun ro acc priv => ?_⟩
  · exact ⟨State.csrAccess_readOnly thread reg ro, State.csrAccess_readOnly thread reg ro⟩
  · exact State.csrAccess_priv thread reg rfl (accLevel_read acc ▸ priv)
  · have priv := accLevel_write_service acc ▸ priv
    exact ⟨State.csrAccess_priv thread reg ro priv, State.csrAccess_priv thread reg ro priv⟩
  · have priv := accLevel_write_monitor acc ▸ priv
    exact ⟨State.csrAccess_priv thread reg ro priv, State.csrAccess_priv thread reg ro priv⟩

/-! ### How an access retires -/

theorem State.retiresIn_of_finish {s s1 : State} {i : Instr} {t : Thread} {e : Nat} (cur : s1.cur = s.cur)
    (run : exec i s = s1.finish t e) : s.retiresIn s1 i t (t.pc + 4) := by
  unfold State.retiresIn
  rw [run, ← cur]
  exact s1.finish_answers t e

theorem State.retiresIn_of_write {s s1 : State} {i : Instr} {t : Thread} {d : GReg} {v : Word} {e : Nat} (cur : s1.cur = s.cur)
    (run : exec i s = s1.write t d v e) : s.retiresIn s1 i (t.wr d v) (t.pc + 4) := by
  unfold State.retiresIn
  rw [run, ← cur]
  exact s1.write_answers t d v e

/-- csrw and csrx, once they may write: they retire in the state that the write leaves. -/
theorem State.retires_of_csrWrite {s : State} {t : Thread} {d a : GReg} {n : BitVec 12}
    (access : ∀ k, s.csrAccess n.toNat true k = k t) (cur : (s.csrWrite t n.toNat (t.rd a)).1.cur = s.cur) :
    let r := s.csrWrite t n.toNat (t.rd a)
    s.retiresIn r.1 (.csrw a n) r.2 (r.2.pc + 4) ∧
      s.retiresIn r.1 (.csrx d a n) (r.2.wr d (s.csrRead s.cur t n.toNat)) (r.2.pc + 4) :=
  ⟨retiresIn_of_finish cur (access _), retiresIn_of_write cur (access _)⟩

/-! ### What a read gives (R22) -/

theorem bit_mul (b : Bool) (n : Nat) : bit b * n = if b then n else 0 := by cases b <;> simp [bit]

theorem Meter.umtr_eq (m : Meter) : m.umtr = BitVec.ofNat 64
    ((if m.job then 2 ^ 63 else 0) + (if m.rsent then 2 ^ 62 else 0) + (if m.bsent then 2 ^ 61 else 0) + m.meter % 2 ^ 48) := by
  simp only [Meter.umtr, bit_mul]

theorem OwnerRec.ulvl_eq (o : OwnerRec) : o.ulvl = BitVec.ofNat 64
    (o.mcap * 2 ^ 32 + o.xbw * 2 ^ 24 + o.share * 2 ^ 16 + (if o.pol then 2 ^ 8 else 0) + o.level) := by
  simp only [OwnerRec.ulvl, bit_mul]

theorem modeWord_eq (s : State) (t : Thread) : modeWord s t = s.umode s.cur t := by
  simp only [modeWord, State.umode, bit_mul, State.isSteward, Bool.and_eq_true, beq_iff_eq]
  rfl

/-- The numbers of the registers of a thread. -/
def threadCsrs : List (BitVec 12) :=
  [0x000, 0x001, 0x002, 0x003, 0x004, 0x005, 0x006, 0x007, 0x040, 0x100, 0x101, 0x102, 0x103, 0x140, 0x200, 0x201, 0x202, 0x203, 0x204,
   0x205, 0x206, 0x300, 0x301, 0x302, 0x303, 0x304, 0x305, 0x306]

/-- The numbers of the registers of the core, the cluster, the owner and the module. -/
def sharedCsrs : List (BitVec 12) :=
  [0x308, 0x309, 0x30A, 0x30B, 0x207, 0x208, 0x400, 0x401, 0x402, 0x480, 0x481, 0x484, 0x485, 0x486, 0x487, 0x500, 0x5C0, 0x600, 0x601]

/-- A register's number with what it reads as. -/
def State.reading (s : State) (t : Thread) (n : BitVec 12) : BitVec 12 × Word := (n, s.csrRead s.cur t n.toNat)

theorem csrValues_eq (s : State) (t : Thread) : csrValues s t = threadCsrs.map (s.reading t) := by
  simp only [threadCsrs, List.map_cons, List.map_nil, State.reading, BitVec.reduceToNat]
  rfl

theorem sharedValues_eq (s : State) (t : Thread) : sharedValues s t = sharedCsrs.map (s.reading t) := by
  simp only [sharedValues, ← Meter.umtr_eq, ← OwnerRec.ulvl_eq, modeWord_eq, sharedCsrs, List.map_cons, List.map_nil, State.reading,
    BitVec.reduceToNat]
  rfl

theorem State.mem_readings {s : State} {t : Thread} {l : List (BitVec 12)} {n : BitVec 12} {v : Word} :
    (n, v) ∈ l.map (s.reading t) ↔ n ∈ l ∧ s.csrRead s.cur t n.toNat = v := by
  simp [State.reading]

/-- Every listed register is one of R22, and ACC asks a privilege for reading KCOUCHE alone. -/
theorem csr_readable : (threadCsrs ++ sharedCsrs).all (fun n =>
    (csrOf n.toNat).isSome && accLevel n.toNat false == if n = 0x5C0 then 1 else 0) = true := by decide +kernel

theorem csrReads : CsrReads := by
  intro s t d n v thread mem kcouche vector matrix poison
  rw [csrValues_eq, sharedValues_eq, ← List.map_append, State.mem_readings] at mem
  obtain ⟨listed, rfl⟩ := mem
  obtain ⟨known, acc⟩ := Bool.and_eq_true_iff.mp (List.all_eq_true.mp csr_readable n listed)
  obtain ⟨r, reg⟩ := Option.isSome_iff_exists.mp known
  have may : accLevel n.toNat false ≤ t.priv := by
    rw [eq_of_beq acc]
    split
    · next h => exact kcouche h
    · exact Nat.zero_le _
  have access : exec (.csrr d n) s = s.write t d (s.csrRead s.cur t n.toNat) 0 :=
    State.csrAccess_idle thread reg rfl may vector matrix poison
  exact State.retiresIn_of_write rfl access

/-! ### What a write leaves (R313) -/

/-- The numbers of the registers that `csrSets` lists. -/
def writtenCsrs : List (BitVec 12) :=
  [0x000, 0x001, 0x002, 0x003, 0x004, 0x103, 0x140, 0x300, 0x301, 0x302, 0x303, 0x304, 0x305, 0x306, 0x100, 0x101, 0x102, 0x200, 0x201,
   0x202, 0x203, 0x204, 0x205, 0x206]

theorem csrSets_fst (t : Thread) (v : Word) : (csrSets t v).map Prod.fst = writtenCsrs := rfl

/-- The written registers have fields that are no RO fields, and ACC asks a privilege for writing STARTER alone. -/
theorem csr_writable : writtenCsrs.all (fun n =>
    (csrOf n.toNat).any (fun r => !r.ro) && accLevel n.toNat true == if n = 0x140 then 1 else 0) = true := by decide +kernel

theorem Thread.writeVpos_eq (t : Thread) (v : Word) :
    t.writeVpos v = { t with vrec := (t.writeVpos v).vrec, fp := { t.fp with vpos := (t.writeVpos v).fp.vpos } } := by
  unfold Thread.writeVpos
  split <;> rfl

/-- A write of v to the register n of the thread t changes no other state, no g register, not the pc and no other register. -/
structure State.csrFrame (s : State) (t : Thread) (v : Word) (n : Nat) : Prop where
  state : (s.csrWrite t n v).1 = s
  g : (s.csrWrite t n v).2.g = t.g
  pc : (s.csrWrite t n v).2.pc = t.pc
  others : (csrValues s (s.csrWrite t n v).2).filter (fun x => x.1.toNat != n) = (csrValues s t).filter fun x => x.1.toNat != n

/-- VPOS (0x101) is held with a restart record alone (R145): `writeVpos` changes the record too, which no register reads. -/
theorem State.csrFrame_vpos (s : State) (t : Thread) (v : Word) : s.csrFrame t v 0x101 := by
  have e : s.csrWrite t 0x101 v = (s, { t with vrec := (t.writeVpos v).vrec, fp := { t.fp with vpos := (t.writeVpos v).fp.vpos } }) :=
    congrArg (Prod.mk s) (t.writeVpos_eq v)
  constructor
  case others => rw [e]; rfl
  all_goals rw [e]

theorem State.csrWrite_frame (s : State) (t : Thread) (v : Word) : ∀ n ∈ writtenCsrs, s.csrFrame t v n.toNat := by
  simp only [writtenCsrs, List.forall_mem_cons, BitVec.reduceToNat, s.csrFrame_vpos t v, true_and, List.not_mem_nil,
    false_implies, implies_true, and_true]
  and_intros
  all_goals exact ⟨rfl, rfl, rfl, rfl⟩

theorem and_not_zero (v : Word) : v &&& ~~~0#64 = v := by
  rw [show ~~~0#64 = BitVec.allOnes 64 from rfl, BitVec.and_allOnes]

theorem bits_zero (v : Word) (n : Nat) : bits v 0 n = v.toNat % 2 ^ n := by
  rw [bits, Nat.pow_zero, Nat.div_one]

theorem vlOf_eq (v : Word) : vlOf v = if v = 0 then 1 else if 64 ≤ v.toNat then 64 else v := by
  unfold vlOf
  split
  · next h => rw [if_neg (by rintro rfl; exact absurd h (by decide))]
  · rfl

theorem frmWrite_eq (old v : Word) : frmWrite old v = if v.toNat % 8 < 5 then v &&& 15 else (v &&& 8) ||| (old &&& 7) := by
  simp only [frmWrite, bits_zero, Nat.reducePow, ← Nat.not_le, ite_not]

theorem Thread.writeVpos_vpos (t : Thread) (v : Word) : (t.writeVpos v).fp.vpos = if t.vrec = [] then t.fp.vpos else v &&& 63 := by
  unfold Thread.writeVpos
  split <;> simp [*]

theorem writeMstat_eq (m v : Word) :
    writeMstat m v = m &&& ~~~(v &&& 0x3FF) &&& if v.getLsbD 8 then ~~~0xFF0000#64 else ~~~0 := by
  have e : v &&& 0x100 = 0 ↔ v.getLsbD 8 = false := by
    rw [show (0x100 : Word) = BitVec.twoPow 64 8 from rfl, BitVec.and_twoPow]
    cases v.getLsbD 8 <;> decide
  unfold writeMstat
  simp only [e]
  cases v.getLsbD 8
  · exact (and_not_zero _).symm
  · rfl

/-- What `csrSets` lists for a register is what it reads as after the write. -/
theorem State.csrRead_csrWrite (s : State) (t : Thread) (v : Word) :
    ∀ x ∈ csrSets t v, s.csrRead s.cur (s.csrWrite t x.1.toNat v).2 x.1.toNat = x.2 := by
  have whole : v &&& ~~~0 = v := and_not_zero v
  have mscale : s.csrRead s.cur (s.csrWrite t 0x204 v).2 0x204 = v := whole
  simp only [csrSets, csrMasks, List.map_cons, List.map_nil, List.cons_append, List.nil_append, List.forall_mem_cons, BitVec.reduceToNat,
    ← vlOf_eq, ← frmWrite_eq, ← Thread.writeVpos_vpos, ← writeMstat_eq, whole, mscale,
    List.not_mem_nil, false_implies, implies_true, true_and, and_true]
  and_intros
  all_goals rfl

theorem csrWrites : CsrWrites := by
  intro s t d a n w thread mem vector matrix poison starter
  have listed : n ∈ writtenCsrs := csrSets_fst t (t.rd a) ▸ List.mem_map_of_mem mem
  have frame := s.csrWrite_frame t (t.rd a) n listed
  obtain ⟨known, acc⟩ := Bool.and_eq_true_iff.mp (List.all_eq_true.mp csr_writable n listed)
  obtain ⟨r, reg, ro⟩ := (Option.any_eq_true _ _).mp known
  have may : accLevel n.toNat true ≤ t.priv := by
    rw [eq_of_beq acc]
    split
    · next h => exact starter h
    · exact Nat.zero_le _
  have access (k : Thread → Out) : s.csrAccess n.toNat true k = k t :=
    State.csrAccess_idle thread reg (by simpa using ro) may vector matrix poison
  have retires := State.retires_of_csrWrite (d := d) access (congrArg State.cur frame.state)
  simp only [frame.state, frame.pc] at retires
  refine ⟨_, s.csrRead_csrWrite t (t.rd a) (n, w) mem, frame.g, frame.pc, fun n' v mem' ne => ?_, retires⟩
  have kept : (n', v) ∈ (csrValues s t).filter fun x => x.1.toNat != n.toNat :=
    List.mem_filter.mpr ⟨mem', by simpa [← BitVec.toNat_inj] using ne⟩
  rw [← frame.others, csrValues_eq] at kept
  exact (State.mem_readings.mp (List.mem_of_mem_filter kept)).2

/-! ### The owner's registers (R338, R351) -/

theorem State.reportFor_cur (s : State) (o : Nat) (ended : Bool) : (s.reportFor o ended).cur = s.cur :=
  (apply_ite State.cur _ _ _).trans (ite_self _)

theorem State.endFalling_cur (s : State) : s.endFalling.cur = s.cur := by
  unfold State.endFalling
  split <;> rfl

theorem State.writeOwner_cur (s : State) (o : Nat) (r : OwnerRec) : (s.writeOwner o r).cur = s.cur := by
  unfold State.writeOwner
  dsimp only
  split_ifs <;> simp only [State.endFalling_cur, State.reportFor_cur] <;> rfl

theorem getD_setAt {α : Type} (l : List α) (j k : Nat) (x d : α) (h : j < l.length) :
    (setAt l j x).getD k d = if k = j then x else l.getD k d := by
  induction l generalizing j k with
  | nil => simp at h
  | cons y l ih =>
    cases j with
    | zero => cases k <;> simp [setAt]
    | succ j =>
      cases k with
      | zero => simp [setAt]
      | succ k => simpa [setAt] using ih j k (by simpa using h)

/-- The registers of a thread's owner that may be written. -/
def ownerCsrs : List (BitVec 12) := [0x480, 0x481, 0x484, 0x485, 0x486, 0x487]

theorem toNat_extractLsb'_eq_bits (v : Word) (lo n : Nat) : (v.extractLsb' lo n).toNat = bits v lo n := by
  rw [BitVec.extractLsb'_toNat, Nat.shiftRight_eq_div_pow, bits]

theorem getLsbD_eq_bits (v : Word) (k : Nat) : v.getLsbD k = (bits v k 1 == 1) := by
  rw [BitVec.getLsbD, Nat.testBit_eq_decide_div_mod_eq, bits, Nat.pow_one]
  rfl

theorem OwnerRec.writeReg_budget (r : OwnerRec) (v : Word) (j : Nat) (four : r.c.length = 4) (below : j < 4) :
    r.writeReg (0x484 + j) v =
      { r with c := (numsFrom 0 4).map fun k => if k ≤ r.level then if k = j then bits v 0 48 else r.c.getD k 0 else 0 } := by
  have hj : j < r.c.length := four ▸ below
  interval_cases j <;>
  · simp only [OwnerRec.writeReg, Nat.reduceAdd, Nat.reduceSub, getD_setAt _ _ _ _ _ hj]

theorem ownerWritten_eq (r : OwnerRec) (v : Word) (four : r.c.length = 4) :
    ownerWritten r v = ownerCsrs.map fun n => (n, r.writeReg n.toNat v) := by
  have level : v.toNat % 4 = bits v 0 2 := (bits_zero v 2).symm
  simp only [ownerWritten, toNat_extractLsb'_eq_bits, getLsbD_eq_bits, level, ← bits_zero v 48, ownerCsrs, List.map_cons, List.map_nil,
    BitVec.reduceToNat,
    show r.writeReg 0x484 v = _ from r.writeReg_budget v 0 four (by decide),
    show r.writeReg 0x485 v = _ from r.writeReg_budget v 1 four (by decide),
    show r.writeReg 0x486 v = _ from r.writeReg_budget v 2 four (by decide),
    show r.writeReg 0x487 v = _ from r.writeReg_budget v 3 four (by decide)]
  rfl

/-- The owner's registers have fields that are no RO fields, no engine command delays them, and ACC asks monitor privilege for writing them. -/
theorem csr_owner : ownerCsrs.all (fun n =>
    (csrOf n.toNat).any (fun r => !r.ro && r.how == .now) && accLevel n.toNat true == 2) = true := by decide +kernel

theorem State.csrWrite_owner (s : State) (t : Thread) (v : Word) :
    ∀ n ∈ ownerCsrs, s.csrWrite t n.toNat v = (s.writeOwnerReg t.owner n.toNat v, t) := by
  simp only [ownerCsrs, List.forall_mem_cons, BitVec.reduceToNat, List.not_mem_nil, false_implies, implies_true, and_true]
  exact ⟨rfl, rfl, rfl, rfl, rfl, rfl⟩

theorem State.writeOwnerReg_cur (s : State) (o n : Nat) (v : Word) : (s.writeOwnerReg o n v).cur = s.cur := by
  unfold State.writeOwnerReg
  dsimp only
  split
  · exact s.writeOwner_cur o _
  · rfl

theorem ownerRegisterWrites : OwnerRegisterWrites := by
  intro s t a d n r v thread monitor four written old
  rw [ownerWritten_eq _ _ four] at written
  obtain ⟨n, listed, e⟩ := List.mem_map.mp written
  obtain ⟨rfl, rfl⟩ := Prod.mk.inj e
  rw [sharedValues_eq, State.mem_readings] at old
  obtain ⟨-, rfl⟩ := old
  obtain ⟨known, acc⟩ := Bool.and_eq_true_iff.mp (List.all_eq_true.mp csr_owner n listed)
  obtain ⟨r, reg, how⟩ := (Option.any_eq_true _ _).mp known
  obtain ⟨ro, now⟩ := Bool.and_eq_true_iff.mp how
  have access (k : Thread → Out) : s.csrAccess n.toNat true k = k t :=
    State.csrAccess_now thread reg (by simpa using ro) (by rw [eq_of_beq acc, monitor]) (eq_of_beq now)
  have write := s.csrWrite_owner t (t.rd a) n listed
  have retires := State.retires_of_csrWrite (d := d) access (by rw [write]; exact s.writeOwnerReg_cur t.owner _ _)
  rw [write] at retires
  exact retires

/-! ### TSTAT (R296) -/

theorem State.allocMeter_threads (s : State) (core o : Nat) : (s.allocMeter core o).threads = s.threads :=
  (apply_ite State.threads _ _ _).trans (ite_self _)

theorem State.allocMeter_cur (s : State) (core o : Nat) : (s.allocMeter core o).cur = s.cur :=
  (apply_ite State.cur _ _ _).trans (ite_self _)

theorem State.writePriv_thread (s : State) (t : Thread) (v : Word) :
    (s.writePriv t v).2 = { t with priv := if t.priv < v.toNat % 4 then t.priv else v.toNat % 4 } := by
  have low : bits v 0 2 = v.toNat % 4 := bits_zero v 2
  simp only [State.writePriv, low]
  split <;> rfl

theorem State.writePriv_state (s : State) (t : Thread) (v : Word) :
    (s.writePriv t v).1 = s ∨ (s.writePriv t v).1 = s.allocMeter (coreOf s.cur) t.owner := by
  simp only [State.writePriv]
  split
  · exact .inl rfl
  · split
    · exact .inr rfl
    · exact .inl rfl

theorem privilegeOnlyFalls : PrivilegeOnlyFalls := by
  intro s t a d thread service r t1
  have thread1 : r.2 = t1 := s.writePriv_thread t (t.rd a)
  obtain ⟨threads, cur⟩ : r.1.threads = s.threads ∧ r.1.cur = s.cur := by
    rcases s.writePriv_state t (t.rd a) with e | e
    · exact ⟨congrArg State.threads e, congrArg State.cur e⟩
    · exact ⟨(congrArg State.threads e).trans (s.allocMeter_threads _ _), (congrArg State.cur e).trans (s.allocMeter_cur _ _)⟩
  have access (k : Thread → Out) : s.csrAccess 0x040 true k = k t :=
    State.csrAccess_now thread rfl rfl (accLevel_write_service (n := 0x040) (.inl rfl) ▸ service) rfl
  have retires := State.retires_of_csrWrite (n := 0x040) (d := d) access cur
  have pc : r.2.pc = t.pc := by rw [thread1]
  refine ⟨thread1, threads, ?_⟩
  rw [← thread1, ← pc]
  exact retires

/-! ### The obligations -/

/-- Settles O6: the lemmas of `Laws.Encoded`, one for each row that has a word. -/
theorem encodedWordDecodes : Obligations.EncodedWordDecodes := encode_decodes

/-- Settles O7: each format's decoder gives an instruction only for a word whose remaining fields are the ones that the encoder writes. -/
theorem decodedWordEncodes : Obligations.DecodedWordEncodes := by
  intro w i h
  have encoded : encodeNat i = some w.toNat := rawDecode_reads w.isLt i (rawDecode_of_decodeNat h)
  refine ⟨?_, decodeNat_wf h⟩
  rw [encode_of_encodeNat encoded, BitVec.ofNat_toNat, BitVec.setWidth_eq]

/-- Settles O8: each word is the one that the encoder writes for its instruction. -/
theorem wordsDecode : Obligations.WordsDecode :=
  ⟨decode_of_encode rfl rfl, decode_of_encode rfl rfl, decode_of_encode rfl rfl, decode_of_encode rfl rfl, decode_of_encode rfl rfl,
    decode_of_encode rfl rfl, decode_of_encode rfl rfl, decode_of_encode rfl rfl, decode_of_encode rfl rfl, decode_of_encode rfl rfl, rfl⟩

/-- Settles O9: the three parts are `moduleResetState`, `freshThread` and `registerZero`. -/
theorem resetState : Obligations.ResetState := ⟨moduleResetState, freshThread, registerZero⟩

/-- Settles O14: the state that `withFetchWord` makes from reset is one in which the position's thread fetches the word, which leaves no
core's TLB to fill. -/
theorem placedWordRuns : Obligations.PlacedWordRuns := by
  intro w i dec
  have h := withFetchWord_fetches w
  exact ⟨rfl, h.turns, h.urgent, h.slot, rfl, withFetchWord_read w, h.step_eq dec (featured_of_features rfl rfl)⟩

/-- Settles O24: the five parts are `csrChecks`, `csrReads`, `csrWrites`, `ownerRegisterWrites` and `privilegeOnlyFalls`. -/
theorem stateRegisters : Obligations.StateRegisters :=
  ⟨csrChecks, csrReads, csrWrites, ownerRegisterWrites, privilegeOnlyFalls⟩

/-- Refutes O12: the word runs on the state before the look for its translation (`State.fetches.step_eq`), so the signal of a miss in the
core's TLB that the cluster's serves, which the looked state of the statement holds, is in no next state. -/
theorem not_stepRunsTheDecodedInstruction : ¬ Obligations.StepRunsTheDecodedInstruction := by
  intro h
  have f := byCluster_fetches
  have dec : decode 0x04642820 = .ok (.sub 3 4 5) := rfl
  have feat : byCluster.featured firstThread (.sub 3 4 5) = true := rfl
  have e := h byCluster _ 31 0x1F0 [] firstThread 0x100000000 firstPage (.sub 3 4 5) 0x04642820 f.urgent f.turns rfl f.slot f.thread
    f.stop f.bp f.may f.boundary f.here f.mcheck f.window f.aligned f.tlb f.allowed f.backed f.word dec feat
  rw [f.step_eq dec feat] at e
  have signals := congrArg Out.signals e
  exact absurd signals (by decide +kernel)

end Sys2Proof.Machine

end

section

/-! SUPPORT. The family of the numbers' statements (03_numbers.md): rounding and the formats' codes, the planes of the matrix engine and
its cycles. -/

namespace Sys2Proof.Machine

/-! ### Rounding (R54) -/

/-- Whether a mode takes the upper of the two multiples around a value (R54), by the unit, the lower one's number and what the value
has above it. -/
def roundsUp (rm : Nat) (neg : Bool) (unit hi lo : Nat) : Bool :=
  match rm with
  | 0 => decide (unit < 2 * lo) || (decide (2 * lo = unit) && decide (hi % 2 = 1))
  | 1 => false
  | 2 => neg && decide (lo ≠ 0)
  | 3 => !neg && decide (lo ≠ 0)
  | _ => decide (unit ≤ 2 * lo)

/-- How many units a magnitude of m at that unit is rounded to. -/
def roundedUnits (rm : Nat) (neg : Bool) (unit m : Nat) : Nat :=
  if roundsUp rm neg unit (m / unit) (m % unit) then m / unit + 1 else m / unit

/-- A value in units of at most its own exponent is a multiple of the unit. -/
theorem roundAt_of_le (rm : Nat) (neg : Bool) (m : Nat) {e q : Int} (h : q ≤ e) :
    roundAt rm neg m e q = (m * 2 ^ (e - q).toNat, false) := by
  unfold roundAt
  rw [if_pos h]

/-- In larger units it goes to one of the two multiples around it, and is inexact where it is not the lower one itself. -/
theorem roundAt_of_lt (rm : Nat) (neg : Bool) (m : Nat) {e q : Int} (h : e < q) :
    roundAt rm neg m e q = (roundedUnits rm neg (2 ^ (q - e).toNat) m, decide (m % 2 ^ (q - e).toNat ≠ 0)) := by
  unfold roundAt
  rw [if_neg (by omega)]
  rfl

section
variable {neg : Bool} {unit m : Nat}

theorem roundedUnits_eq_or (rm : Nat) (neg : Bool) (unit m : Nat) :
    roundedUnits rm neg unit m = m / unit ∨ roundedUnits rm neg unit m = m / unit + 1 := by
  unfold roundedUnits
  split
  · exact .inr rfl
  · exact .inl rfl

/-- No mode moves a multiple of the unit. -/
theorem roundedUnits_exact (rm : Nat) (neg : Bool) (pos : 0 < unit) (multiple : m % unit = 0) : roundedUnits rm neg unit m * unit = m := by
  have stays : roundsUp rm neg unit (m / unit) 0 = false := by
    unfold roundsUp
    split <;> simp <;> omega
  rw [roundedUnits, multiple, stays, if_neg Bool.false_ne_true, Nat.div_mul_cancel (Nat.dvd_of_mod_eq_zero multiple)]

/-- RTZ always, RDN of a positive value and RUP of a negative one take the multiple nearer to zero. -/
theorem roundedUnits_toward_zero {rm : Nat} (h : rm = 1 ∨ rm = 2 ∧ neg = false ∨ rm = 3 ∧ neg = true) :
    roundedUnits rm neg unit m = m / unit := by
  rcases h with rfl | ⟨rfl, rfl⟩ | ⟨rfl, rfl⟩ <;> rfl

/-- RDN of a negative value and RUP of a positive one give no smaller magnitude. -/
theorem le_roundedUnits_away {rm : Nat} (h : rm = 2 ∧ neg = true ∨ rm = 3 ∧ neg = false) (pos : 0 < unit) :
    m ≤ roundedUnits rm neg unit m * unit := by
  by_cases multiple : m % unit = 0
  · exact (roundedUnits_exact rm neg pos multiple).ge
  · have away : roundedUnits rm neg unit m = m / unit + 1 := by
      rcases h with ⟨rfl, rfl⟩ | ⟨rfl, rfl⟩ <;> simp [roundedUnits, roundsUp, multiple]
    rw [away]
    exact (Nat.lt_div_mul_add pos).le.trans_eq (Nat.succ_mul ..).symm

/-- What RNE and RMM give is at most half a unit away: they take the upper multiple from the middle on at the earliest, and the lower
one up to the middle at the latest. -/
theorem roundedUnits_nearest {rm : Nat} (neg : Bool) (pos : 0 < unit) (m : Nat) (h : rm = 0 ∨ rm = 4) :
    2 * (roundedUnits rm neg unit m * unit) ≤ 2 * m + unit ∧ 2 * m ≤ 2 * (roundedUnits rm neg unit m * unit) + unit := by
  have parts := Nat.div_add_mod' m unit
  have rest := Nat.mod_lt m pos
  have half : if roundsUp rm neg unit (m / unit) (m % unit) = true then unit ≤ 2 * (m % unit) else 2 * (m % unit) ≤ unit := by
    unfold roundsUp
    rcases h with rfl | rfl <;> simp only [Bool.or_eq_true, Bool.and_eq_true, decide_eq_true_eq] <;> split_ifs <;> omega
  unfold roundedUnits
  generalize m / unit = hi at *
  split_ifs at half ⊢
  · rw [Nat.succ_mul hi unit]; omega
  · omega

/-- In the middle RNE takes the even multiple. -/
theorem roundedUnits_tie_even (tie : 2 * (m % unit) = unit) : roundedUnits 0 neg unit m % 2 = 0 := by
  unfold roundedUnits roundsUp
  simp only [tie, lt_irrefl, decide_false, decide_true, Bool.false_or, Bool.true_and, decide_eq_true_eq]
  generalize m / unit = hi
  split_ifs <;> omega

/-- In the middle RMM takes the multiple away from zero. -/
theorem roundedUnits_tie_away (tie : 2 * (m % unit) = unit) : roundedUnits 4 neg unit m = m / unit + 1 := by
  simp [roundedUnits, roundsUp, tie]

end

theorem roundingModes : RoundingModes := by
  intro neg m e q h u r
  have value (rm : Nat) : r rm = roundedUnits rm neg u m := congrArg Prod.fst (roundAt_of_lt rm neg m h)
  have inexact (rm : Nat) : (roundAt rm neg m e q).2 = decide (m % u ≠ 0) := congrArg Prod.snd (roundAt_of_lt rm neg m h)
  have pos : 0 < u := Nat.two_pow_pos _
  obtain ⟨even, even'⟩ := roundedUnits_nearest (rm := 0) neg pos m (.inl rfl)
  obtain ⟨away, away'⟩ := roundedUnits_nearest (rm := 4) neg pos m (.inr rfl)
  simp only [value, inexact, decide_eq_true_iff]
  refine ⟨fun rm => ⟨trivial, roundedUnits_exact rm neg pos, roundedUnits_eq_or rm neg u m⟩, ?_,
    fun n => roundedUnits_toward_zero (.inr (.inl ⟨rfl, n⟩)), fun n => roundedUnits_toward_zero (.inr (.inr ⟨rfl, n⟩)),
    fun n => le_roundedUnits_away (.inl ⟨rfl, n⟩) pos, fun n => le_roundedUnits_away (.inr ⟨rfl, n⟩) pos,
    even, even', roundedUnits_tie_even, away, away', roundedUnits_tie_away⟩
  rw [roundedUnits_toward_zero (.inl rfl)]
  exact Nat.div_mul_le_self m u

/-! ### Codes of a format (R51) -/

/-- A code below twice the sign bit is made of its sign, exponent and fraction fields. -/
theorem Fmt.signed_fields (f : Fmt) {c : Nat} (lt : c < 2 * f.signBit) :
    f.signed (decide (c / f.signBit % 2 = 1)) (c / 2 ^ f.t % 2 ^ f.eb * 2 ^ f.t + c % 2 ^ f.t) = c := by
  have fields : c / 2 ^ f.t % 2 ^ f.eb * 2 ^ f.t + c % 2 ^ f.t = c % f.signBit := by
    rw [Fmt.signBit, Nat.add_comm f.eb, Nat.pow_add, Nat.mod_mul, Nat.mul_comm, Nat.add_comm]
  have parts := Nat.mod_add_div c f.signBit
  have sign : c / f.signBit < 2 := Nat.div_lt_of_lt_mul (by omega)
  rw [fields, Fmt.signed]
  rcases Nat.le_one_iff_eq_zero_or_eq_one.mp (Nat.lt_succ_iff.mp sign) with h | h <;> simp [h] at parts ⊢ <;> omega

/-- Exponent and fraction fields that are neither an infinity's nor a NaN's make a code of at most the largest finite one. -/
theorem Fmt.fields_le_maxCode (f : Fmt) {E F : Nat} (hE : E < 2 ^ f.eb) (hF : F < 2 ^ f.t) (special : ¬(E = 2 ^ f.eb - 1 ∧ f.inf = true))
    (nan : ¬(E = 2 ^ f.eb - 1 ∧ F = 2 ^ f.t - 1)) : E * 2 ^ f.t + F ≤ f.maxCode := by
  unfold Fmt.maxCode Fmt.infCode
  rw [Nat.pow_add, Nat.sub_mul, Nat.one_mul]
  have step : E + 1 < 2 ^ f.eb → (E + 1) * 2 ^ f.t + 2 ^ f.t ≤ 2 ^ f.eb * 2 ^ f.t := fun h => by
    rw [← Nat.succ_mul]; exact Nat.mul_le_mul_right _ h
  have last : E + 1 = 2 ^ f.eb → (E + 1) * 2 ^ f.t = 2 ^ f.eb * 2 ^ f.t := fun h => by rw [h]
  rw [Nat.add_one_mul] at step last
  generalize 2 ^ f.t = T at *
  split_ifs with inf
  · have notOnes : E ≠ 2 ^ f.eb - 1 := fun e => special ⟨e, inf⟩
    have := step (by omega)
    omega
  · by_cases h : E + 1 = 2 ^ f.eb
    · have := last h; omega
    · have := step (by omega); omega

/-- A magnitude that the format holds to its last bit is packed as it is: its exponent is that of the smallest subnormal, or it has a
fraction's bits below its top one. -/
theorem Fmt.pack_exact (f : Fmt) (frm : Word) (neg : Bool) {m : Nat} {k : Nat} (pos : m ≠ 0)
  (width : Nat.log2 m = f.t ∨ k = 0 ∧ Nat.log2 m ≤ f.t) (finite : k * 2 ^ f.t + m ≤ f.maxCode) :
    f.pack frm neg m (f.qmin + k) = (f.signed neg (k * 2 ^ f.t + m), 0) := by
  have unit : max ((Nat.log2 m : Int) + (f.qmin + k) - f.t) f.qmin = f.qmin + k := by omega
  have rounded : roundAt (rmOf frm) neg m (f.qmin + k) (f.qmin + k) = (m, false) := by
    rw [roundAt_of_le _ _ _ le_rfl]; simp
  unfold Fmt.pack
  simp only [unit, rounded, if_neg pos]
  rw [add_sub_cancel_left, Int.toNat_natCast, if_neg (Nat.not_lt.mpr finite)]
  simp [flagIf]

/-- Rounding the datum of a finite code to its format gives the code back and raises no flag. -/
theorem Fmt.pack_unpack (f : Fmt) {c : Nat} (frm : Word) {neg : Bool} {m : Nat} {e : Int} (lt : c < 2 * f.signBit) (pos : 1 ≤ f.eb)
    (fin : f.unpack c = .fin neg m e) : f.pack frm neg m e = (c, 0) := by
  have code := f.signed_fields lt
  have fraction : c % 2 ^ f.t < 2 ^ f.t := Nat.mod_lt _ (Nat.two_pow_pos _)
  have exponent : c / 2 ^ f.t % 2 ^ f.eb < 2 ^ f.eb := Nat.mod_lt _ (Nat.two_pow_pos _)
  unfold Fmt.unpack at fin
  dsimp only at fin
  generalize c % 2 ^ f.t = F at *
  generalize c / 2 ^ f.t % 2 ^ f.eb = E at *
  generalize decide (c / f.signBit % 2 = 1) = sign at *
  have finite := f.fields_le_maxCode exponent fraction
  split at fin
  case isTrue subnormal =>
    obtain ⟨rfl, rfl, rfl⟩ := FVal.fin.inj fin
    subst subnormal
    have notOnes : 0 ≠ 2 ^ f.eb - 1 := by
      have := Nat.pow_le_pow_right (n := 2) (by omega) pos
      omega
    have finite := finite (fun e => notOnes e.1) (fun e => notOnes e.1)
    by_cases zero : F = 0
    · subst zero
      simpa [Fmt.pack] using code
    · have packed := f.pack_exact frm sign zero (k := 0) (.inr ⟨rfl, ((Nat.log2_lt zero).mpr fraction).le⟩) finite
      rwa [code, Nat.cast_zero, add_zero] at packed
  case isFalse normal =>
    split at fin
    · split at fin <;> cases fin
    · next special =>
      split at fin
      · cases fin
      · next nan =>
        obtain ⟨rfl, rfl, rfl⟩ := FVal.fin.inj fin
        have finite := finite special nan
        have lead : (E - 1) * 2 ^ f.t + (2 ^ f.t + F) = E * 2 ^ f.t + F := by
          rw [← Nat.add_assoc, ← Nat.succ_mul, Nat.succ_eq_add_one, Nat.sub_add_cancel (Nat.pos_of_ne_zero normal)]
        have width : Nat.log2 (2 ^ f.t + F) = f.t := (Nat.log2_eq_iff (by omega)).mpr ⟨by omega, by rw [Nat.pow_succ]; omega⟩
        rw [f.pack_exact frm _ (by omega) (.inl width) (lead ▸ finite), lead, code]

theorem formatCodesAreExact : FormatCodesAreExact := by
  intro f hf c frm s m e lt fin
  have pos : ∀ f ∈ [fp32, fp16, bf16, e4m3, e5m2], 1 ≤ f.eb := by decide
  exact f.pack_unpack frm lt (pos f hf) fin

/-- Settles O5: `roundingModes` and `formatCodesAreExact`. -/
theorem floatRounding : Obligations.FloatRounding := ⟨roundingModes, formatCodesAreExact⟩

/-! ### Planes (R69, R193) -/

theorem numsFrom_eq_range' (a n : Nat) : numsFrom a n = List.range' a n := by
  induction n generalizing a with
  | zero => rfl
  | succ n ih => simp only [numsFrom, List.range'_succ, ih]

theorem numsFrom_zero_eq_range (n : Nat) : numsFrom 0 n = List.range n := by
  rw [numsFrom_eq_range', List.range_eq_range']

theorem mem_numsFrom {n i : Nat} : i ∈ numsFrom 0 n ↔ i < n := by rw [numsFrom_zero_eq_range, List.mem_range]

/-- What plane p of an element's sign and pattern adds, before its weight. -/
def planeUnit (p : Nat) (v : Bool × Nat) : Int := if v.2.testBit p then (if v.1 then -1 else 1) else 0

/-- The planes of a pass reach both operands alone: each element's product is that of the two operands' plane units. -/
theorem planeDot_map {α : Type} (pa pb : Nat) (f g : α → Bool × Nat) (l : List α) :
    planeDot pa pb (l.map f) (l.map g) = (l.map fun x => planeUnit pa (f x) * planeUnit pb (g x)).sum := by
  have unit (u v : Bool × Nat) : (if u.2.testBit pa && v.2.testBit pb then (if u.1 = v.1 then 1 else -1) else 0 : Int) =
      planeUnit pa u * planeUnit pb v := by
    obtain ⟨su, u⟩ := u
    obtain ⟨sv, v⟩ := v
    unfold planeUnit
    cases u.testBit pa <;> cases v.testBit pb <;> cases su <;> cases sv <;> rfl
  induction l with
  | nil => rfl
  | cons x l ih => simp only [List.map_cons, planeDot, List.sum_cons, ih, unit]

/-- A sum over all pairs of planes of sums over elements is the sum over elements of the products of their two sums over planes. -/
theorem sum_pairs_mul {α : Type} (A B : List Nat) (f g : Nat → Int) (x y : Nat → α → Int) (l : List α) :
    (A.map fun a => (B.map fun b => f a * g b * (l.map fun q => x a q * y b q).sum).sum).sum =
      (l.map fun q => (A.map fun a => f a * x a q).sum * (B.map fun b => g b * y b q).sum).sum := by
  induction l with
  | nil => simp
  | cons q l ih =>
    have split (a b : Nat) : f a * g b * (x a q * y b q) = f a * x a q * (g b * y b q) := by ring
    simp only [List.map_cons, List.sum_cons, mul_add, List.sum_map_add, ih, split, List.sum_map_mul_left, List.sum_map_mul_right]

/-- The set bits below n, with their weights, are the number modulo 2^n. -/
theorem sum_bits_eq_mod (a n : Nat) : ((List.range n).map fun p => if a.testBit p then 2 ^ p else 0).sum = a % 2 ^ n := by
  induction n with
  | zero => simp [Nat.mod_one]
  | succ n ih =>
    have bit : (if a.testBit n then 2 ^ n else 0) = 2 ^ n * (a / 2 ^ n % 2) := by
      rw [Nat.testBit_eq_decide_div_mod_eq]
      rcases Nat.mod_two_eq_zero_or_one (a / 2 ^ n) with h | h <;> simp [h]
    rw [List.sum_range_succ, ih, bit, Nat.mod_pow_succ]

/-- The operands that a plane count takes (R67, R69): two's complement, unsigned, and sign and magnitude. -/
def planeFits (m w : Nat) (q : Int) : Prop :=
  if m = 0 then -(2 ^ (w - 1) : Nat) ≤ q ∧ q < (2 ^ (w - 1) : Nat)
  else if m = 1 then 0 ≤ q ∧ q < (2 ^ w : Nat) else q.natAbs < 2 ^ w

/-- The bit n of a number below 2^(n+1) is set from 2^n on, and the bits below it are the rest. -/
theorem top_bit_of_lt {a n : Nat} (lt : a < 2 ^ (n + 1)) :
    a.testBit n = decide (2 ^ n ≤ a) ∧ a % 2 ^ n = if 2 ^ n ≤ a then a - 2 ^ n else a := by
  rw [Nat.pow_succ] at lt
  by_cases h : 2 ^ n ≤ a
  · have one : a / 2 ^ n = 1 := Nat.div_eq_of_lt_le (by omega) (by omega)
    have rest : a % 2 ^ n = a - 2 ^ n := by rw [Nat.mod_eq_sub_mod h, Nat.mod_eq_of_lt (by omega)]
    simp [Nat.testBit_eq_decide_div_mod_eq, one, h, rest]
  · simp [Nat.testBit_lt_two_pow (Nat.lt_of_not_le h), h, Nat.mod_eq_of_lt (Nat.lt_of_not_le h)]

/-- The weighted planes of a pattern below 2^(n+1), none left out, sum to it; in two's complement the top one counts against it. -/
theorem sum_planeWt (m n a : Nat) (s : Bool) (lt : a < 2 ^ (n + 1)) :
    ((numsFrom 0 (n + 1)).map fun p => planeWt m (n + 1) (n + 1) p * planeUnit p (s, a)).sum =
      (if s then -1 else 1) * (if m = 0 ∧ 2 ^ n ≤ a then (a : Int) - 2 ^ (n + 1) else a) := by
  have weight (p : Nat) (h : p ∈ List.range n) : planeWt m (n + 1) (n + 1) p * planeUnit p (s, a) =
      (if s then -1 else 1) * ((if a.testBit p then 2 ^ p else 0 : Nat) : Int) := by
    have below : p ≠ n := Nat.ne_of_lt (List.mem_range.mp h)
    unfold planeWt planeUnit
    cases s <;> cases a.testBit p <;> simp [below]
  have low : ((List.range n).map fun p => planeWt m (n + 1) (n + 1) p * planeUnit p (s, a)).sum =
      (if s then -1 else 1) * ((a % 2 ^ n : Nat) : Int) := by
    rw [List.map_congr_left weight, List.sum_map_mul_left, ← sum_bits_eq_mod, Nat.cast_list_sum, List.map_map]
    rfl
  obtain ⟨top, rest⟩ := top_bit_of_lt lt
  rw [numsFrom_zero_eq_range, List.sum_range_succ, low, rest]
  unfold planeWt planeUnit
  simp only [top, decide_eq_true_eq]
  by_cases h : 2 ^ n ≤ a
  · by_cases hm : m = 0 <;> cases s <;> simp [h, hm] <;> ring
  · simp [h]

/-- The weighted planes of a sign and magnitude sum to it. -/
theorem sum_planes_magnitude {m n : Nat} {q : Int} (mode : 2 ≤ m) (fits : q.natAbs < 2 ^ (n + 1)) :
    ((numsFrom 0 (n + 1)).map fun p => planeWt m (n + 1) (n + 1) p * planeUnit p (planeOf m (n + 1) (n + 1) q)).sum = q := by
  have notTwos : m ≠ 0 := by omega
  have plane : planeOf m (n + 1) (n + 1) q = (decide (q < 0), q.natAbs) := by simp [planeOf, mode]
  rw [plane, sum_planeWt m n _ _ fits]
  rcases lt_or_ge q 0 with neg | pos
  · simp [notTwos, neg, abs_of_neg neg]
  · simp [notTwos, pos, abs_of_nonneg pos]

/-- The weighted planes of the low bits of an integer sum to them, read by the mode: signed in two's complement, else unsigned. -/
theorem sum_planes_lowBits {m n : Nat} (q : Int) (mode : m < 2) :
    ((numsFrom 0 (n + 1)).map fun p => planeWt m (n + 1) (n + 1) p * planeUnit p (planeOf m (n + 1) (n + 1) q)).sum =
      if m = 0 ∧ (2 : Int) ^ n ≤ q % 2 ^ (n + 1) then q % 2 ^ (n + 1) - 2 ^ (n + 1) else q % 2 ^ (n + 1) := by
  have nonneg : 0 ≤ q % 2 ^ (n + 1) := Int.emod_nonneg _ (by positivity)
  have below : q % 2 ^ (n + 1) < 2 ^ (n + 1) := Int.emod_lt_of_pos _ (by positivity)
  obtain ⟨a, ha⟩ := Int.eq_ofNat_of_zero_le nonneg
  have plane : planeOf m (n + 1) (n + 1) q = (false, a) := by simp [planeOf, Nat.not_le.mpr mode, lowBits, ha]
  have lt : a < 2 ^ (n + 1) := by rw [ha] at below; exact_mod_cast below
  rw [plane, sum_planeWt m n _ _ lt, ha]
  norm_cast
  simp

/-- The weighted planes of an operand sum to it. -/
theorem sum_planes_eq {m w : Nat} {q : Int} (pos : 1 ≤ w) (fits : planeFits m w q) :
    ((numsFrom 0 w).map fun p => planeWt m w w p * planeUnit p (planeOf m w w q)).sum = q := by
  obtain ⟨n, rfl⟩ : ∃ n, w = n + 1 := ⟨w - 1, by omega⟩
  unfold planeFits at fits
  split_ifs at fits with twos unsigned
  · rw [sum_planes_lowBits q (by omega)]
    obtain ⟨lo, hi⟩ := fits
    have double : (2 : Int) ^ (n + 1) = 2 * 2 ^ n := pow_succ' ..
    push_cast [Nat.add_sub_cancel] at lo hi
    rcases lt_or_ge q 0 with neg | nonneg
    · have wrap : q % 2 ^ (n + 1) = q + 2 ^ (n + 1) := by
        rw [← Int.add_emod_right, Int.emod_eq_of_lt (by omega) (by omega)]
      rw [wrap, if_pos ⟨twos, by omega⟩]
      ring
    · rw [Int.emod_eq_of_lt nonneg (by omega), if_neg (by omega)]
  · rw [sum_planes_lowBits q (by omega), if_neg fun e => twos e.1]
    obtain ⟨lo, hi⟩ := fits
    exact Int.emod_eq_of_lt lo (by exact_mod_cast hi)
  · exact sum_planes_magnitude (by omega) fits

/-- Settles O46: the sums over the planes of the two sides multiply element by element, and each gives its operand back. -/
theorem planesSumToExactProducts : Obligations.PlanesSumToExactProducts := by
  intro ma mb wa wb qs _ _ posA posB fits mem
  have sides : ∀ q ∈ qs, planeFits ma wa q.1 ∧ planeFits mb wb q.2 := mem
  simp only [planeDot_map]
  refine (sum_pairs_mul _ _ _ _ (fun p (q : Int × Int) => planeUnit p (planeOf ma wa wa q.1))
    (fun p q => planeUnit p (planeOf mb wb wb q.2)) qs).trans (congrArg List.sum (List.map_congr_left fun q hq => ?_))
  obtain ⟨a, b⟩ := sides q hq
  rw [sum_planes_eq posA a, sum_planes_eq posB b]

/-! ### The accumulator modes (R71) -/

/-- The value of the low bits is that of the bit vector of their number. -/
theorem sx_eq_toInt (v : Nat) {n : Nat} (pos : 0 < n) : sx v n = (BitVec.ofNat n v).toInt := by
  have double : 2 ^ n = 2 * 2 ^ (n - 1) := by rw [← Nat.pow_succ', Nat.succ_eq_add_one, Nat.sub_add_cancel pos]
  rw [sx, BitVec.toInt_eq_toNat_cond, BitVec.toNat_ofNat]
  split_ifs <;> omega

theorem lowBits_eq_toNat (v : Int) (n : Nat) : lowBits v n = (BitVec.ofInt n v).toNat := (BitVec.toNat_ofInt v).symm

theorem sx_lowBits (v : Int) {n : Nat} (pos : 0 < n) : sx (lowBits v n) n = (BitVec.ofInt n v).toInt := by
  rw [sx_eq_toInt _ pos, lowBits_eq_toNat, BitVec.ofNat_toNat, BitVec.setWidth_eq]

theorem satI_eq_max_min {lo hi : Int} (v : Int) (le : lo ≤ hi) : satI v lo hi = max lo (min hi v) := by
  unfold satI
  split_ifs <;> omega

/-- Saturation changes the values outside its range. -/
theorem satI_bne (v lo hi : Int) : (satI v lo hi != v) = true ↔ v < lo ∨ hi < v := by
  rw [bne_iff_ne]
  unfold satI
  split_ifs <;> omega

theorem accumulatorModes : AccumulatorModes := by
  intro v
  refine ⟨sx_lowBits v (by decide), sx_lowBits v (by decide), ?_, ?_, rfl, rfl, (satI_bne v _ _).trans ?_,
    (satI_bne v _ _).trans ?_⟩
  · exact (satI_eq_max_min v (by decide)).trans (congrArg _ (min_comm _ _))
  · exact (satI_eq_max_min v (by decide)).trans (congrArg _ (min_comm _ _))
  · omega
  · omega

/-! ### What an engine's cycle leaves of its core -/

/-- The matrix queue, the tiles and the LM of a core are as before. -/
structure Core.matrixAs (k k' : Core) : Prop where
  mq : k'.mq = k.mq
  tiles : k'.tiles = k.tiles
  lm : k'.lm = k.lm

theorem Core.matrixAs.trans {a b c : Core} (h : a.matrixAs b) (h' : b.matrixAs c) : a.matrixAs c :=
  ⟨h'.mq.trans h.mq, h'.tiles.trans h.tiles, h'.lm.trans h.lm⟩

theorem State.core_of_cores_eq {s s' : State} (h : s'.cores = s.cores) (core : Nat) : s'.core core = s.core core := by
  simp only [State.core, h]

@[simp] theorem State.core_modThread (s : State) (tid : Nat) (f : Thread → Thread) (core : Nat) :
    (s.modThread tid f).core core = s.core core := by
  simp [State.core]

@[simp] theorem State.core_mflag (s : State) (tid fl core : Nat) : (s.mflag tid fl).core core = s.core core :=
  State.core_modThread ..

theorem State.accrue_matrixAs (s : State) (core o n : Nat) : (s.core core).matrixAs ((s.accrue core o n).core core) := by
  unfold State.accrue
  split
  · split
    · have noted (s : State) (m : Meter) : (s.noteMeter core m).core core = s.core core := rfl
      rw [noted, State.core_modCore_same]
      exact ⟨rfl, rfl, rfl⟩
    · exact ⟨rfl, rfl, rfl⟩
  · exact ⟨rfl, rfl, rfl⟩

theorem State.charge_matrixAs (s : State) (core o priv e n : Nat) :
    (s.core core).matrixAs ((s.charge core o priv e n).core core) := by
  unfold State.charge
  split
  · exact s.accrue_matrixAs ..
  · exact ⟨rfl, rfl, rfl⟩

/-- A meter that is found among those of the owners kept is the one that was found among all. -/
theorem find?_filter_owner {l : List Meter} {keep : Nat → Bool} {o : Nat} {m : Meter}
    (found : (l.filter fun m => keep m.owner).find? (fun m => m.owner == o) = some m) : l.find? (fun m => m.owner == o) = some m := by
  have owner : m.owner = o := by simpa using List.find?_some found
  have kept : keep o = true := by
    have := List.mem_filter.mp (List.mem_of_find?_eq_some found)
    rw [← owner]; exact this.2
  rw [List.find?_filter] at found
  rw [← found]
  congr 1
  funext x
  by_cases h : x.owner = o <;> simp [h, kept]

/-- A sweep frees meters of whole owners and leaves the rest of the core. -/
theorem State.sweepMeters_core (s : State) (core : Nat) : (s.core core).matrixAs ((s.sweepMeters core).core core) ∧
    ∃ keep : Nat → Bool, ((s.sweepMeters core).core core).meters = (s.core core).meters.filter fun m => keep m.owner := by
  unfold State.sweepMeters
  extract_lets gone s1
  have noted : s1.core core = s.core core := by
    refine State.core_of_cores_eq (List.foldlRecOn gone _ (motive := fun s' : State => s'.cores = s.cores) rfl fun s' h m _ => ?_) core
    split <;> exact h
  split
  · rw [noted]
    exact ⟨⟨rfl, rfl, rfl⟩, fun _ => true, by simp⟩
  · rw [State.core_modCore_same, noted]
    exact ⟨⟨rfl, rfl, rfl⟩, fun o => !gone.any fun g => g.owner == o, rfl⟩

/-- The release of a command's ranges and the note of its retirement are no part of the queue, the tiles, the LM and the meters. -/
theorem State.freeLocks_noteRetired_core (s : State) (core o priv tid uid : Nat) :
    let k := ((s.freeLocks core uid).noteRetired core o priv tid).core core
    (s.core core).matrixAs k ∧ k.meters = (s.core core).meters := by
  unfold State.noteRetired State.freeLocks State.moveLocks
  split
  · rw [State.core_modCore_same, State.core_modCore_same]
    exact ⟨⟨rfl, rfl, rfl⟩, rfl⟩
  · rw [State.core_modCore_same]
    exact ⟨⟨rfl, rfl, rfl⟩, rfl⟩

/-- An engine command that retires leaves the queue, the tiles and the LM, and a meter that the core still has is as it was. -/
theorem State.retireEngine_core (s : State) (core o priv tid uid : Nat) :
    (s.core core).matrixAs ((s.retireEngine core o priv tid uid).core core) ∧
      ∀ w m, ((s.retireEngine core o priv tid uid).core core).meterOf w = some m → (s.core core).meterOf w = some m := by
  obtain ⟨noted, meters⟩ := s.freeLocks_noteRetired_core core o priv tid uid
  obtain ⟨swept, keep, kept⟩ := ((s.freeLocks core uid).noteRetired core o priv tid).sweepMeters_core core
  refine ⟨noted.trans swept, fun w m found => ?_⟩
  unfold State.retireEngine Core.meterOf at found
  rw [kept, meters] at found
  exact find?_filter_owner found

/-- A command that no `mstop` waits for leaves the queue as it retires. -/
theorem State.mretire_core (s : State) (core : Nat) {c : MCmd} (cancelled : Bool) (running : c.stopping = none) :
    let k := s.core core
    let k' := (s.mretire core c cancelled).core core
    k'.mq = k.mq.filter (fun x => x.uid != c.uid) ∧ k'.tiles = k.tiles ∧ k'.lm = k.lm ∧
      ∀ w m, k'.meterOf w = some m → k.meterOf w = some m := by
  obtain ⟨same, meters⟩ := (s.modCore core fun k => k.dropM c.uid).retireEngine_core core c.owner c.priv c.tid c.uid
  rw [State.core_modCore_same] at same meters
  unfold State.mretire
  rw [running]
  exact ⟨same.mq, same.tiles, same.lm, meters⟩

theorem State.engineTouch_core (s : State) (core tid : Nat) (ranges : List (Nat × Nat)) :
    (s.engineTouch core tid ranges).core core = s.core core := by
  unfold State.engineTouch
  extract_lets s1
  have same : s1.core core = s.core core := by
    unfold s1
    split <;> rfl
  split
  · rw [State.core_modThread, same]
  · exact same

/-- A write by an engine to its core's LM. -/
theorem State.writeLoc_lm (s : State) (core a n v : Nat) :
    ((s.writeLoc ⟨.lm core, a⟩ n v).core core).lm = (s.core core).lm.write a n v :=
  congrArg Core.lm (State.core_modCore_same s core fun k => { k with lm := (s.core core).lm.write a n v })

/-- The stores of an engine, in order. -/
theorem State.engineStore_lm (s : State) (core tid : Nat) (ws : List (Nat × Nat × Nat)) :
    ((s.engineStore core tid ws).core core).lm = ws.foldl (fun m w => m.write w.1 w.2.1 w.2.2) (s.core core).lm := by
  unfold State.engineStore
  extract_lets ranges s1 s2
  have start : (s2.core core).lm = (s.core core).lm := by
    unfold s2 s1
    rw [State.engineTouch_core, State.core_modCore_same]
  rw [← start]
  exact (List.foldl_hom (fun s : State => (s.core core).lm) fun s w => (s.writeLoc_lm core w.1 w.2.1 w.2.2).symm).symm

/-- Recording changes nothing of a core that has no command to record. -/
theorem State.recordM_core (s : State) (tid core : Nat) (f : MCmd → Bool) (quiet : ∀ x ∈ (s.core core).mq, f x = false) :
    (s.recordM tid f).core core = s.core core := by
  unfold State.recordM
  extract_lets here k goes go
  by_cases same : here = core
  · have empty : go = [] := by
      subst same
      exact List.filter_eq_nil_iff.mpr fun x hx => by simp [goes, quiet x hx]
    simp [empty]
  · have other (s' : State) (g : Core → Core) : (s'.modCore here g).core core = s'.core core :=
      State.core_modCore_ne _ _ (Ne.symm same)
    split
    · rfl
    · split
      · exact other ..
      · rw [State.core_modThread, other]
        refine List.foldlRecOn go _ (motive := fun s' : State => s'.core core = s.core core) rfl fun s' h x _ => ?_
        split
        · rw [other, h]
        · exact h

/-! ### The command that runs (R194) -/

theorem State.mem_of_mfirst (s : State) (core : Nat) {seen : List Nat} {l : List MCmd} {c : MCmd} (h : s.mfirst core seen l = some c) :
    c ∈ l := by
  induction l generalizing seen with
  | nil => cases h
  | cons x l ih =>
    unfold State.mfirst at h
    split at h
    · exact List.mem_cons_of_mem _ (ih h)
    · split at h
      · cases h
      · exact Option.some.inj h ▸ List.mem_cons_self ..

theorem State.mem_of_mpick {s : State} {core : Nat} {c : MCmd} (h : s.mpick core = some c) : c ∈ (s.core core).mq := by
  unfold State.mpick at h
  split at h
  · next found => exact Option.some.inj h ▸ List.mem_of_find?_eq_some found
  · exact s.mem_of_mfirst core h

theorem Core.setM_halting {k : Core} {c : MCmd} (quiet : ∀ x ∈ k.mq, x.halting = false) (self : c.halting = false) :
    ∀ x ∈ (k.setM c).mq, x.halting = false := by
  intro x hx
  obtain ⟨y, hy, rfl⟩ := List.mem_map.mp hx
  split
  · exact self
  · exact quiet y hy

/-! ### What a command leaves of its tile (R178, R193) -/

/-- Elements stored one after the other, those under one key with one value. -/
theorem look_foldl_store {α : Type} {l : List α} {key : α → Nat} {val : α → Word} (m : Map Word) {p : α} (mem : p ∈ l)
    (inj : ∀ q ∈ l, key q = key p → val q = val p) :
    ((l.foldl (fun (m : Map Word) q => m.store (key q) (val q) 0) m).look (key p)).getD 0 = val p := by
  suffices h : ∀ m : Map Word, ((l.foldl (fun (m : Map Word) q => m.store (key q) (val q) 0) m).look (key p)).getD 0 =
      if ∃ q ∈ l, key q = key p then val p else (m.look (key p)).getD 0 by
    rw [h, if_pos ⟨p, mem, rfl⟩]
  clear mem
  induction l with
  | nil => simp
  | cons x l ih =>
    obtain ⟨here, later⟩ := List.forall_mem_cons.mp inj
    intro m
    rw [List.foldl_cons, ih later, Map.look_store]
    by_cases hl : ∃ q ∈ l, key q = key p
    · simp [hl]
    · by_cases hx : key x = key p
      · simp [hx, here hx]
      · simp [hl, hx]

/-- What `accumulate` writes: every element through the mode function, with the exponent and the mode beside. -/
theorem TileSt.accumulate_el (x : TileSt) (r : MatRegs) (f : Nat → Nat → Int) (columns : r.n ≤ 16) {i n : Nat} (hi : i < r.m)
    (hn : n < r.n) : ((x.accumulate r f).1.el.look (16 * i + n)).getD 0 =
      BitVec.ofInt 64 (accMode r.mode (((x.el.look (16 * i + n)).getD 0).toInt + f i n)).1 := by
  unfold TileSt.accumulate
  extract_lets els q
  have mem (p : Nat × Nat) : p ∈ els ↔ p.1 < r.m ∧ p.2 < r.n := by
    simp only [els, List.mem_flatten, List.mem_map, mem_numsFrom]
    constructor
    · rintro ⟨_, ⟨i, hi, rfl⟩, hp⟩
      obtain ⟨n, hn, rfl⟩ := List.mem_map.mp hp
      exact ⟨hi, mem_numsFrom.mp hn⟩
    · rintro ⟨hi, hn⟩
      exact ⟨_, ⟨p.1, hi, rfl⟩, List.mem_map.mpr ⟨p.2, mem_numsFrom.mpr hn, rfl⟩⟩
  have fst : q.1 = els.foldl (fun (m : Map Word) p => m.store (16 * p.1 + p.2) (BitVec.ofInt 64
      (accMode r.mode (((x.el.look (16 * p.1 + p.2)).getD 0).toInt + f p.1 p.2)).1) 0) x.el :=
    (List.foldl_hom Prod.fst fun _ _ => rfl).symm
  dsimp only
  rw [fst]
  refine look_foldl_store (key := fun p : Nat × Nat => 16 * p.1 + p.2) (p := (i, n)) x.el ((mem _).mpr ⟨hi, hn⟩) ?_
  rintro ⟨j, k⟩ hq same
  have := (mem _).mp hq
  obtain ⟨rfl, rfl⟩ : j = i ∧ k = n := by
    dsimp only at same this
    omega
  rfl

/-- A tile with the totals of a multiply added under the mode of MACC, and no totals left to continue from. -/
def TileSt.totalled (x : TileSt) (r : MatRegs) (t : Map Int) : TileSt :=
  { (x.accumulate r fun i n => (t.look (16 * i + n)).getD 0).1 with contT := [], contS := [] }

theorem TileSt.totalled_macc (x : TileSt) (r : MatRegs) (t : Map Int) :
    (x.totalled r t).eacc = r.macc.toNat % 256 ∧ (x.totalled r t).mode = r.macc.toNat / 256 % 4 ∧ (x.totalled r t).contT = [] ∧
      (x.totalled r t).contS = [] :=
  ⟨bits_zero r.macc 8, rfl, rfl, rfl⟩

theorem TileSt.totalled_el (x : TileSt) (r : MatRegs) (t : Map Int) (columns : r.n ≤ 16) {i n : Nat} (hi : i < r.m) (hn : n < r.n) :
    ((x.totalled r t).el.look (16 * i + n)).getD 0 =
      BitVec.ofInt 64 (accMode r.mode (((x.el.look (16 * i + n)).getD 0).toInt + (t.look (16 * i + n)).getD 0)).1 :=
  x.accumulate_el r (fun i n => (t.look (16 * i + n)).getD 0) columns hi hn

/-- A tile that is replaced reads back. -/
theorem Core.getD_setTile (k : Core) {n : Nat} (x : TileSt) (h : n < 8) (tiles : k.tiles.length = 8) :
    (k.setTile n x).tiles.getD n {} = x := by
  rw [Core.setTile, getD_setAt _ _ _ _ _ (tiles ▸ h), if_pos rfl]

/-! ### The meter of an owner (R340, R341) -/

theorem Core.meterOf_setMeter {k : Core} {m m' : Meter} (h : k.meterOf m'.owner = some m) : (k.setMeter m').meterOf m'.owner = some m' := by
  have owner : m.owner = m'.owner := by simpa using List.find?_some h
  have same : ((fun x : Meter => x.owner == m'.owner) ∘ fun x => if x.owner = m'.owner then m' else x) = fun x => x.owner == m'.owner := by
    funext x
    dsimp only [Function.comp]
    split
    · next e => rw [e]
    · rfl
  unfold Core.meterOf at h ⊢
  rw [Core.setMeter, List.find?_map, same, h, Option.map_some, if_pos owner]

/-- A charge of an owner whose job is open adds to its meter, up to the meter's largest value. -/
theorem State.charge_meterOf {s : State} {core o e n : Nat} {m : Meter} (found : (s.core core).meterOf o = some m) (job : m.job = true)
    (runs : (s.core core).ckpt = false) (range : m.meter < 2 ^ 48) :
    ∃ m', ((s.charge core o 0 e n).core core).meterOf o = some m' ∧ m'.meter = min (m.meter + s.weight core o e * n) (2 ^ 48 - 1) := by
  have owner : m.owner = o := by simpa using List.find?_some found
  unfold State.charge State.accrue
  rw [if_pos rfl, found]
  dsimp only
  by_cases zero : s.weight core o e * n = 0
  · rw [if_neg (by simp [zero])]
    exact ⟨m, found, by omega⟩
  · rw [if_pos (by simp [job, runs, zero])]
    refine ⟨{ m with meter := min (m.meter + s.weight core o e * n) (2 ^ 48 - 1), last := some s.cc }, ?_, rfl⟩
    have noted (s : State) (m : Meter) : (s.noteMeter core m).core core = s.core core := rfl
    rw [noted, State.core_modCore_same]
    subst owner
    exact Core.meterOf_setMeter found

/-! ### The passes of a multiply (R193 to R195) -/

/-- The state in a cc in which the engine of the core runs a pass. -/
def State.passRun (s : State) (core : Nat) : State :=
  { s.modCore core fun k => { k with mrun := some s.cc } with signals := s.signals ++ [(core, 31)] }

theorem State.passRun_core (s : State) (core : Nat) : (s.passRun core).core core = { s.core core with mrun := some s.cc } :=
  State.core_modCore_same s core fun k => { k with mrun := some s.cc }

theorem State.passRun_weight (s : State) (core o e : Nat) : (s.passRun core).weight core o e = s.weight core o e := by
  unfold State.weight
  rw [s.passRun_core]
  rfl

section
variable {s : State} {core : Nat} {c : MCmd}

/-- The engine runs at most one cycle in a cc. -/
theorem State.planePass_ran (pick : s.mpick core = some c) (ran : (s.core core).mrun = some s.cc) : s.planePass core = s := by
  unfold State.planePass
  rw [pick]
  simp [ran]

/-- A cycle of a pass in progress. -/
theorem State.planePass_running (pick : s.mpick core = some c) (mul : c.isMul = true) (free : (s.core core).engineHeld c.begun = false)
    (idle : (s.core core).mrun ≠ some s.cc) (left : c.left ≠ 0) :
    s.planePass core = (s.passRun core).passCycle core { c with left := c.left - 1 } := by
  unfold State.planePass
  rw [pick]
  dsimp only
  rw [if_neg (by simp [mul, idle, free]), if_neg left]
  rfl

/-- The end of a pass that is not the command's last. -/
theorem State.passEnd_core (fin : c.fin = false) (stays : c.stopping = none) (self : c.halting = false)
    (quiet : ∀ x ∈ (s.core core).mq, x.halting = false) :
    (s.passEnd core c).core core = ((s.charge core c.owner c.priv 5 (c.regs.blk / 64)).core core).setM c := by
  have queue := (s.charge_matrixAs core c.owner c.priv 5 (c.regs.blk / 64)).mq
  unfold State.passEnd
  rw [fin, stays]
  dsimp only
  rw [if_neg Bool.false_ne_true, if_neg (by simp), State.recordM_core, State.core_modCore_same]
  rw [State.core_modCore_same]
  exact Core.setM_halting (queue ▸ quiet) self

/-- The end of the command's last pass: the command leaves the queue, the totals go to the tile, and a meter that the core still has is
as the charge left it. -/
theorem State.passEnd_fin_core (fin : c.fin = true) (stays : c.stopping = none) (quiet : ∀ x ∈ (s.core core).mq, x.halting = false) :
    let charged := (s.charge core c.owner c.priv 5 (c.regs.blk / 64)).core core
    let k' := (s.passEnd core c).core core
    k'.mq = (s.core core).mq.filter (fun x => x.uid != c.uid) ∧
      k'.tiles = (charged.setTile c.tile (((s.core core).tiles.getD c.tile {}).totalled c.regs c.t)).tiles ∧
      ∀ w m, k'.meterOf w = some m → charged.meterOf w = some m := by
  intro charged k'
  have same := s.charge_matrixAs core c.owner c.priv 5 (c.regs.blk / 64)
  unfold k' State.passEnd
  rw [fin]
  extract_lets s1 tl r _ s2 s3
  have retired : s3 = (s2.mflag c.tid r.2).mretire core c false := if_pos rfl
  obtain ⟨mq, tiles, -, meters⟩ := (s2.mflag c.tid r.2).mretire_core core false stays
  have s2_core : (s2.mflag c.tid r.2).core core = charged.setTile c.tile (tl.totalled c.regs c.t) := by
    rw [State.core_mflag]
    exact State.core_modCore_same s1 core fun k => k.setTile c.tile (tl.totalled c.regs c.t)
  rw [← retired, s2_core] at mq tiles meters
  have mq : (s3.core core).mq = (s.core core).mq.filter (fun x => x.uid != c.uid) := mq.trans (congrArg _ same.mq)
  have tl_eq : tl = (s.core core).tiles.getD c.tile {} := congrArg (fun l => l.getD c.tile {}) same.tiles
  rw [State.recordM_core s3 _ _ _ fun x hx => quiet x (List.mem_filter.mp (mq ▸ hx)).1]
  rw [tl_eq] at tiles
  exact ⟨mq, tiles, meters⟩

end

theorem planePassCycles : PlanePassCycles := by
  intro s core c pick mul free
  have here := State.mem_of_mpick pick
  have run_core := s.passRun_core core
  have run_mq : ((s.passRun core).core core).mq = (s.core core).mq := by rw [run_core]
  have run_tiles : ((s.passRun core).core core).tiles = (s.core core).tiles := by rw [run_core]
  refine ⟨fun ran => congrArg _ (State.planePass_ran pick ran), fun idle _ more => ⟨s.planePass core, rfl, ?_⟩,
    fun idle _ last fin stays quiet => ⟨s.planePass core, rfl, ?_⟩,
    fun idle _ last fin stays tile tiles columns quiet => ⟨s.planePass core, rfl, ?_⟩⟩
  · rw [State.planePass_running pick mul free idle (by omega), State.passCycle, if_neg (Nat.sub_ne_zero_of_lt more)]
    refine ⟨?_, fun _ => rfl⟩
    rw [State.core_modCore_same, run_core]
  · rw [State.planePass_running pick mul free idle (by omega), last, State.passCycle, if_pos rfl]
    exact State.passEnd_core (c := { c with left := 0 }) fin stays (quiet c here) (run_mq ▸ quiet)
  · rw [State.planePass_running pick mul free idle (by omega), last, State.passCycle, if_pos rfl]
    obtain ⟨mq, tl', meters⟩ := State.passEnd_fin_core (c := { c with left := 0 }) fin stays (run_mq ▸ quiet)
    have length : (((s.passRun core).charge core c.owner c.priv 5 (c.regs.blk / 64)).core core).tiles.length = 8 := by
      rw [((s.passRun core).charge_matrixAs core c.owner c.priv 5 (c.regs.blk / 64)).tiles, run_tiles, tiles]
    have tl' := (congrArg (fun l => l.getD c.tile {}) tl').trans (Core.getD_setTile _ _ tile length)
    rw [run_tiles] at tl'
    dsimp only at tl' mq meters ⊢
    rw [tl', mq]
    generalize (s.core core).tiles.getD c.tile {} = tl
    obtain ⟨eacc, mode, contT, contS⟩ := tl.totalled_macc c.regs c.t
    refine ⟨fun c' hc => ?_, fun m m' found user job runs range found' => ?_, eacc, mode, contT, contS, fun i n hi hn =>
      tl.totalled_el c.regs c.t columns hi hn⟩
    · simpa using (List.mem_filter.mp hc).2
    · have found : ((s.passRun core).core core).meterOf c.owner = some m := by rw [run_core]; exact found
      have charged := meters _ _ found'
      obtain ⟨m2, found2, eq⟩ := State.charge_meterOf (e := 5) (n := c.regs.blk / 64) found job (by rw [run_core]; exact runs) range
      rw [user, found2] at charged
      rw [← Option.some.inj charged, eq, s.passRun_weight]

/-! ### The cycles of the other commands (R204, R205, R207) -/

/-- The state after a command of one row has had the cycle of this cc counted and charged. -/
def State.cycleCounted (s : State) (core : Nat) (c : MCmd) : State :=
  ((s.modCore core fun k => { k with mrun := some s.cc }).charge core c.owner c.priv 5 1).modCore core fun k =>
    k.setM { c with begun := true, done := c.done + 1 }

theorem State.cycleCounted_core (s : State) (core : Nat) (c : MCmd) :
    ((s.cycleCounted core c).core core).tiles = (s.core core).tiles ∧ ((s.cycleCounted core c).core core).lm = (s.core core).lm := by
  have same := (s.modCore core fun k => { k with mrun := some s.cc }).charge_matrixAs core c.owner c.priv 5 1
  rw [State.core_modCore_same] at same
  rw [State.cycleCounted, State.core_modCore_same]
  exact ⟨same.tiles, same.lm⟩

section
variable {s : State} {core : Nat} {c : MCmd} (pick : s.mpick core = some c) (free : (s.core core).engineHeld c.begun = false)
  (idle : (s.core core).mrun ≠ some s.cc)
include pick free idle

theorem State.matrixCycle_mzero {d : GReg} {t : Tile} (ins : c.ins = .mzero d t) : s.matrixCycle core =
    ((s.cycleCounted core c).modCore core fun k => k.setTile c.tile { (s.core core).tiles.getD c.tile {} with
      el := [], eacc := bits c.regs.macc 0 8, mode := c.regs.mode, contT := [], contS := [] }).mretire core c false := by
  have notMul : c.isMul = false := by rw [MCmd.isMul, ins]
  unfold State.matrixCycle
  rw [pick]
  dsimp only
  rw [if_neg (by simp [notMul, idle, free])]
  cases c
  cases ins
  rfl

theorem State.matrixCycle_mbias {a d : GReg} {t : Tile} (ins : c.ins = .mbias a d t) (second : c.done ≠ 0) : s.matrixCycle core =
    let k := s.core core
    let r := (k.tiles.getD c.tile {}).accumulate c.regs fun _ n => sx (k.lm.read (bits c.ga 0 18 + 8 * n) 8) 64
    ((((s.cycleCounted core c).engineTouch core c.tid [(bits c.ga 0 18, 8 * c.regs.n)]).modCore core fun k =>
      k.setTile c.tile r.1).mflag c.tid r.2).mretire core c false := by
  have notMul : c.isMul = false := by rw [MCmd.isMul, ins]
  unfold State.matrixCycle
  rw [pick]
  dsimp only
  rw [if_neg (by simp [notMul, idle, free])]
  cases c
  cases ins
  dsimp only at second ⊢
  rw [if_neg second]
  rfl

theorem State.matrixCycle_mdrain {a b : GReg} {t : Tile} {y : VType} (ins : c.ins = .mdrain a b y t) (row : c.done < c.regs.m) :
    s.matrixCycle core = (s.cycleCounted core c).drainRow core c y c.done := by
  have notMul : c.isMul = false := by rw [MCmd.isMul, ins]
  unfold State.matrixCycle
  rw [pick]
  dsimp only
  rw [if_neg (by simp [notMul, idle, free])]
  cases c
  cases ins
  dsimp only at row ⊢
  rw [if_pos row, if_pos (by omega)]
  rfl

end

/-- Elements stored side by side in memory read back, each its own low bytes. -/
theorem Memory.read_foldl_write {l : List Nat} (base b : Nat) (val : Nat → Nat) (m : Memory) {n : Nat} (mem : n ∈ l) :
    (l.foldl (fun (m : Memory) i => m.write (base + i * b) b (val i)) m).read (base + n * b) b = val n % 256 ^ b := by
  suffices h : ∀ m : Memory, (l.foldl (fun (m : Memory) i => m.write (base + i * b) b (val i)) m).read (base + n * b) b =
      if n ∈ l then val n % 256 ^ b else m.read (base + n * b) b by rw [h, if_pos mem]
  clear mem
  induction l with
  | nil => intro m; rfl
  | cons i l ih =>
    intro m
    rw [List.foldl_cons, ih]
    by_cases later : n ∈ l
    · simp [later]
    · by_cases here : n = i
      · subst here
        simp [later, Memory.read_write_same]
      · have apart : base + n * b + b ≤ base + i * b ∨ base + i * b + b ≤ base + n * b := by
          have le {x y : Nat} (h : x < y) : base + x * b + b ≤ base + y * b := by
            have := Nat.mul_le_mul_right b h
            rw [Nat.succ_mul] at this
            omega
          rcases Nat.lt_or_gt_of_ne here with h | h
          · exact .inl (le h)
          · exact .inr (le h)
        simp [later, here, Memory.read_write_ne _ _ _ _ _ _ apart]

theorem lo_le_hi (t : VType) : t.lo ≤ t.hi := by
  unfold VType.lo VType.hi
  have := Nat.two_pow_pos (t.bitsOf - 1)
  have := Nat.two_pow_pos t.bitsOf
  split_ifs <;> omega

/-- What `mdrain` gives for an element (R207). -/
theorem drainOne_eq (t : VType) (acc bias mult : Int) (shift : Nat) (zp : Int) :
    (drainOne t acc bias mult shift zp).1 = max t.lo (min t.hi (rneShift ((acc + bias) * mult) (-(shift : Int)) + zp)) :=
  satI_eq_max_min _ (lo_le_hi t)

/-- What `mdrain` stores for the element of row i and column n. -/
def State.drainElem (s : State) (core : Nat) (c : MCmd) (t : VType) (i n : Nat) : Int × Bool :=
  let k := s.core core
  let d := bits c.gb 0 18 + 16 * n
  drainOne t (((k.tiles.getD c.tile {}).el.look (16 * i + n)).getD 0).toInt (sx (k.lm.read d 8) 64) (sx (k.lm.read (d + 8) 4) 32)
    (k.lm.read (d + 12) 1 % 64) (sx (k.lm.read (d + 14) 2) 16)

/-- The row of `mdrain` stands in LM, element by element. -/
theorem State.drainRow_read (s : State) (core : Nat) (c : MCmd) (t : VType) (i : Nat) {n : Nat} (hn : n < c.regs.n) :
    ((s.drainRow core c t i).mem (.lm core)).read (bits c.ga 0 18 + (i * c.regs.n + n) * t.bytes) t.bytes =
      (BitVec.ofInt (8 * t.bytes) (s.drainElem core c t i n).1).toNat := by
  have stores : ((s.drainRow core c t i).core core).lm = (numsFrom 0 c.regs.n).foldl (fun (m : Memory) n =>
      m.write (bits c.ga 0 18 + i * c.regs.n * t.bytes + n * t.bytes) t.bytes (lowBits (s.drainElem core c t i n).1 (8 * t.bytes)))
        (s.core core).lm := by
    unfold State.drainRow
    extract_lets k tl N r ws
    have ws_eq : ws = (numsFrom 0 N).map fun n => (bits c.ga 0 18 + (i * N + n) * t.bytes, t.bytes,
        lowBits (s.drainElem core c t i n).1 (8 * t.bytes)) := by
      unfold ws r
      rw [← List.map_prod_right_eq_zip, List.map_map]
      rfl
    rw [State.core_mflag, State.engineStore_lm, ws_eq, List.foldl_map]
    simp only [N, Nat.add_mul, Nat.add_assoc]
  have place : bits c.ga 0 18 + (i * c.regs.n + n) * t.bytes = bits c.ga 0 18 + i * c.regs.n * t.bytes + n * t.bytes := by
    rw [Nat.add_mul, Nat.add_assoc]
  have small := (BitVec.ofInt (8 * t.bytes) (s.drainElem core c t i n).1).isLt
  rw [State.mem, stores, place, Memory.read_foldl_write _ _ (fun n => lowBits (s.drainElem core c t i n).1 (8 * t.bytes)) _
    (mem_numsFrom.mpr hn), lowBits_eq_toNat]
  exact Nat.mod_eq_of_lt (by rwa [Nat.pow_mul] at small)

/-- A command that retires as it replaces its tile leaves the queue, and the tile reads back. -/
theorem State.mretire_setTile {s : State} {core : Nat} {c : MCmd} {k : Core} {x : TileSt} (replaced : s.core core = k.setTile c.tile x)
    (stays : c.stopping = none) (tile : c.tile < 8) (tiles : k.tiles.length = 8) :
    (∀ c' ∈ ((s.mretire core c false).core core).mq, c'.uid ≠ c.uid) ∧
      ((s.mretire core c false).core core).tiles.getD c.tile {} = x := by
  obtain ⟨mq, kept, -, -⟩ := s.mretire_core core false stays
  rw [mq, kept, replaced]
  exact ⟨fun c' hc => by simpa using (List.mem_filter.mp hc).2, k.getD_setTile x tile tiles⟩

theorem matrixCommandCycles : MatrixCommandCycles := by
  intro s core c pick free idle stays tile tiles _ columns tl
  obtain ⟨counted_tiles, counted_lm⟩ := s.cycleCounted_core core c
  have length : ((s.cycleCounted core c).core core).tiles.length = 8 := by rw [counted_tiles, tiles]
  refine ⟨fun d t ins => ⟨s.matrixCycle core, rfl, ?_⟩, fun a d t ins second => ⟨s.matrixCycle core, rfl, ?_⟩,
    fun a b y t ins _ row => ⟨s.matrixCycle core, rfl, ?_⟩⟩
  · rw [State.matrixCycle_mzero pick free idle ins]
    obtain ⟨mq, tl'⟩ := State.mretire_setTile (State.core_modCore_same _ core fun k => k.setTile c.tile _) stays tile length
    exact ⟨mq, by rw [tl'], by rw [tl']; exact bits_zero _ _, by rw [tl']; rfl, by rw [tl']⟩
  · rw [State.matrixCycle_mbias pick free idle ins (by omega)]
    extract_lets k r
    have replaced : ((((s.cycleCounted core c).engineTouch core c.tid [(bits c.ga 0 18, 8 * c.regs.n)]).modCore core fun k =>
        k.setTile c.tile r.1).mflag c.tid r.2).core core = ((s.cycleCounted core c).core core).setTile c.tile r.1 := by
      rw [State.core_mflag, State.core_modCore_same, State.engineTouch_core]
    obtain ⟨mq, tl'⟩ := State.mretire_setTile replaced stays tile length
    refine ⟨mq, ?_⟩
    dsimp only
    intro i n hi hn
    rw [tl', TileSt.accumulate_el _ _ _ columns hi hn, sx_eq_toInt _ (by decide), bits_zero]
    rfl
  · rw [State.matrixCycle_mdrain pick free idle ins row]
    intro n hn
    have elem : (s.cycleCounted core c).drainElem core c y c.done n = s.drainElem core c y c.done n := by
      unfold State.drainElem
      dsimp only
      rw [counted_tiles, counted_lm]
    have read := (s.cycleCounted core c).drainRow_read core c y c.done hn
    rw [elem, State.drainElem, drainOne_eq, sx_eq_toInt _ (by decide), sx_eq_toInt _ (by decide), sx_eq_toInt _ (by decide), bits_zero,
      bits_zero] at read
    exact read

/-- Settles O47: `planePassCycles`, `accumulatorModes` and `matrixCommandCycles`. -/
theorem matrixCycles : Obligations.MatrixCycles := ⟨planePassCycles, accumulatorModes, matrixCommandCycles⟩

end Sys2Proof.Machine

end

section

/-! SUPPORT. The family of the scalar statements (04_scalar.md): integer and floating-point forms, the divide unit, control flow, system
calls, couches and translations. -/

namespace Sys2Proof.Machine

/-! ### What the integer forms compute (R92 to R95): the model's functions are those of the library -/

theorem toNat_append_eq_add {m n : Nat} (x : BitVec m) (y : BitVec n) : (x ++ y).toNat = x.toNat * 2 ^ n + y.toNat := by
  rw [BitVec.toNat_append, ← Nat.shiftLeft_add_eq_or_of_lt y.isLt, Nat.shiftLeft_eq]

theorem mulHigh_eq (a b : Word) : mulHigh a b = (a.signExtend 128 * b.signExtend 128).extractLsb' 64 64 := by
  have product : a.signExtend 128 * b.signExtend 128 = BitVec.ofInt 128 (a.toInt * b.toInt) := (BitVec.ofInt_mul _ _).symm
  apply BitVec.eq_of_toNat_eq
  rw [product, BitVec.extractLsb'_toNat, Nat.shiftRight_eq_div_pow, mulHigh, BitVec.toNat_ofInt, BitVec.toNat_ofInt]
  omega

theorem mulHighN_eq (a b : Word) : mulHighN a b = (a.setWidth 128 * b.setWidth 128).extractLsb' 64 64 := by
  have fits : a.toNat * b.toNat < 2 ^ 128 := (Nat.mul_lt_mul'' a.isLt b.isLt).trans_eq (by norm_num)
  apply BitVec.eq_of_toNat_eq
  rw [BitVec.extractLsb'_toNat, Nat.shiftRight_eq_div_pow, mulHighN, BitVec.toNat_ofNat, BitVec.toNat_mul,
    BitVec.toNat_setWidth_of_le (by decide), BitVec.toNat_setWidth_of_le (by decide), Nat.mod_eq_of_lt fits]

theorem amt_eq (b : Word) : amt b = (b.extractLsb' 0 6).toNat := by
  rw [toNat_extractLsb'_eq_bits, bits_zero]
  rfl

theorem flag_slt (a b : Word) : flag (a.slt b) = if a.toInt < b.toInt then 1 else 0 := by
  simp only [flag, BitVec.slt_iff_toInt_lt]

theorem flag_ult (a b : Word) : flag (a.ult b) = if a.toNat < b.toNat then 1 else 0 := by
  simp only [flag, BitVec.ult_iff_toNat_lt]

theorem flag_beq (a b : Word) : flag (a == b) = if a = b then 1 else 0 := by
  simp only [flag, beq_iff_eq]

theorem flag_bne (a b : Word) : flag (a != b) = if a = b then 0 else 1 := by
  simp only [flag, bne_iff_ne, ite_not]

/-- Whichever way a signed comparison counts equal words, the smaller word and the larger are the same. -/
theorem ite_slt {a b x y : Word} (tie : a = b → x = y) : (if a.slt b then x else y) = if a.toInt ≤ b.toInt then x else y := by
  by_cases e : a = b
  · simp only [tie e, ite_self]
  · simp only [BitVec.slt_iff_toInt_lt, Int.le_iff_lt_or_eq, BitVec.toInt_inj, e, or_false]

/-- The same of an unsigned comparison. -/
theorem ite_ult {a b x y : Word} (tie : a = b → x = y) : (if a.ult b then x else y) = if a.toNat ≤ b.toNat then x else y := by
  by_cases e : a = b
  · simp only [tie e, ite_self]
  · simp only [BitVec.ult_iff_toNat_lt, Nat.le_iff_lt_or_eq, BitVec.toNat_inj, e, or_false]

theorem clzAuxRec_eq {w : Nat} (x : BitVec w) : ∀ n < w, x.clzAuxRec n = BitVec.ofNat w (w - 1 - n + clzN x.toNat (n + 1))
  | 0, h => by
    by_cases bit : x.toNat.testBit 0
    · simp [BitVec.clzAuxRec, BitVec.getLsbD, clzN, bit]
    · simp [BitVec.clzAuxRec, BitVec.getLsbD, clzN, bit, Nat.sub_add_cancel (by omega : 1 ≤ w)]
  | n + 1, h => by
    rw [BitVec.clzAuxRec, clzN]
    by_cases bit : x.toNat.testBit (n + 1)
    · simp [BitVec.getLsbD, bit]
    · rw [clzAuxRec_eq x n (by omega), BitVec.getLsbD, if_neg bit, if_neg bit]
      congr 1
      omega

theorem clzN_eq (a : Word) : BitVec.ofNat 64 (clzN a.toNat 64) = a.clz := by
  rw [BitVec.clz, clzAuxRec_eq a _ (by decide), Nat.sub_self, Nat.zero_add]

/-- The trailing zeros from bit i on are the leading zeros of the reversed word below the bit that i goes to. -/
theorem ctzN_eq_clzN_reverse {w : Nat} (x : BitVec w) : ∀ i n, i + n = w → ctzN x.toNat i n = clzN x.reverse.toNat n
  | _, 0, _ => rfl
  | i, n + 1, h => by
    have bit : x.reverse.toNat.testBit n = x.toNat.testBit i := by
      have := x.getLsbD_reverse (i := n)
      rwa [BitVec.getMsbD, show w - 1 - n = i by omega, decide_eq_true (by omega : n < w), Bool.true_and] at this
    rw [ctzN, clzN, bit, ctzN_eq_clzN_reverse x (i + 1) n (by omega)]

theorem ctzN_eq (a : Word) : BitVec.ofNat 64 (ctzN a.toNat 0 64) = a.ctz := by
  rw [ctzN_eq_clzN_reverse a 0 64 rfl, clzN_eq]
  rfl

theorem popN_eq_cpopNatRec {w : Nat} (x : BitVec w) : ∀ n, popN x.toNat n = x.cpopNatRec n 0
  | 0 => rfl
  | n + 1 => by
    rw [popN, popN_eq_cpopNatRec x n, BitVec.cpopNatRec_succ, BitVec.cpopNatRec_eq, Nat.zero_add, Nat.add_comm, BitVec.getLsbD]
    cases x.toNat.testBit n
    · rfl
    · exact BitVec.cpopNatRec_eq 1 |>.symm

theorem popN_eq (a : Word) : BitVec.ofNat 64 (popN a.toNat 64) = a.cpop := by
  rw [popN_eq_cpopNatRec]
  rfl

theorem bswapW_eq (a : Word) : bswapW a =
    a.extractLsb' 0 8 ++ a.extractLsb' 8 8 ++ a.extractLsb' 16 8 ++ a.extractLsb' 24 8 ++
      a.extractLsb' 32 8 ++ a.extractLsb' 40 8 ++ a.extractLsb' 48 8 ++ a.extractLsb' 56 8 := by
  have bytes : (numsFrom 0 8).foldl (fun acc i => acc * 256 + a.toNat / 256 ^ i % 256) 0 =
      (a.extractLsb' 0 8 ++ a.extractLsb' 8 8 ++ a.extractLsb' 16 8 ++ a.extractLsb' 24 8 ++
        a.extractLsb' 32 8 ++ a.extractLsb' 40 8 ++ a.extractLsb' 48 8 ++ a.extractLsb' 56 8).toNat := by
    simp only [toNat_append_eq_add, toNat_extractLsb'_eq_bits, bits, numsFrom, List.foldl_cons, List.foldl_nil]
    norm_num
  rw [bswapW, bytes, BitVec.ofNat_toNat]
  exact BitVec.setWidth_eq _

/-- A word reversed is its bits taken from bit 0 on. -/
theorem toNat_reverse : ∀ {w : Nat} (x : BitVec w),
    x.reverse.toNat = (List.range w).foldl (fun acc i => acc * 2 + x.toNat / 2 ^ i % 2) 0
  | 0, x => by simp [BitVec.reverse, BitVec.eq_nil x]
  | w + 1, x => by
    have low : ∀ i ∈ List.range w, (x.truncate w).toNat / 2 ^ i % 2 = x.toNat / 2 ^ i % 2 := by
      intro i hi
      rw [BitVec.truncate_eq_setWidth, BitVec.toNat_setWidth, ← Nat.toNat_testBit, ← Nat.toNat_testBit, Nat.testBit_mod_two_pow,
        decide_eq_true (List.mem_range.mp hi), Bool.true_and]
    have top : x.msb.toNat = x.toNat / 2 ^ w % 2 := by
      rw [BitVec.msb_eq_getLsbD_last, BitVec.getLsbD, Nat.toNat_testBit, Nat.add_sub_cancel]
    rw [BitVec.reverse, BitVec.toNat_concat, toNat_reverse, List.range_succ, List.foldl_append, List.foldl_cons, List.foldl_nil, top]
    congr 2
    exact List.foldl_ext _ _ _ fun acc i hi => by rw [low i hi]

theorem brevW_eq (a : Word) : brevW a = a.reverse := by
  have bits : (numsFrom 0 64).foldl (fun acc i => acc * 2 + a.toNat / 2 ^ i % 2) 0 = a.reverse.toNat := by
    rw [numsFrom_zero_eq_range]
    exact (toNat_reverse a).symm
  rw [brevW, bits]
  exact BitVec.ofNat_toNat 64 a.reverse |>.trans (BitVec.setWidth_eq _)

theorem xwBits_pos (n : XWidth) : 0 < xwBits n := by cases n <;> decide

theorem sextW_eq (a : Word) {n : Nat} (pos : 0 < n) : sextW a.toNat n = (a.setWidth n).signExtend 64 := by
  rw [sextW, sx_eq_toInt _ pos, BitVec.ofNat_toNat]
  rfl

theorem zext_eq (a : Word) (n : Nat) : BitVec.ofNat 64 (a.toNat % 2 ^ n) = (a.setWidth n).setWidth 64 := by
  rw [← BitVec.toNat_setWidth, BitVec.ofNat_toNat]

theorem bits_lt (v : Word) (lo n : Nat) : bits v lo n < 2 ^ n := Nat.mod_lt _ (Nat.two_pow_pos n)

/-- The low k + 1 bits set. -/
theorem toNat_lowMask {k : Nat} (h : k < 64) : (BitVec.allOnes 64 >>> (63 - k)).toNat = 2 ^ (k + 1) - 1 := by
  have split : 2 ^ 64 = 2 ^ (63 - k) * 2 ^ (k + 1) := by rw [← Nat.pow_add]; congr 1; omega
  rw [BitVec.toNat_ushiftRight, BitVec.toNat_allOnes, Nat.shiftRight_eq_div_pow, split]
  simpa using Nat.mul_sub_div 0 (2 ^ (63 - k)) (2 ^ (k + 1)) (by positivity)

theorem bfxW_eq (a b : Word) : bfxW a b =
    (a >>> (b.extractLsb' 0 6).toNat) &&& (BitVec.allOnes 64 >>> (63 - (b.extractLsb' 8 6).toNat)) := by
  apply BitVec.eq_of_toNat_eq
  rw [BitVec.toNat_and, toNat_extractLsb'_eq_bits, toNat_extractLsb'_eq_bits, toNat_lowMask (bits_lt b 8 6), Nat.and_two_pow_sub_one_eq_mod,
    BitVec.toNat_ushiftRight, Nat.shiftRight_eq_div_pow, bfxW, BitVec.toNat_ofNat]
  exact Nat.mod_eq_of_lt (lt_of_le_of_lt (Nat.mod_le _ _) (lt_of_le_of_lt (Nat.div_le_self _ _) a.isLt))

theorem bfiW_eq (g a b : Word) : bfiW g a b =
    let pos := (b.extractLsb' 0 6).toNat
    let mask : Word := (BitVec.allOnes 64 >>> (63 - (b.extractLsb' 8 6).toNat)) <<< pos
    (g &&& ~~~mask) ||| ((a <<< pos) &&& mask) := by
  have mask : BitVec.ofNat 64 ((2 ^ (bits b 8 6 + 1) - 1) * 2 ^ (bits b 0 6)) =
      (BitVec.allOnes 64 >>> (63 - (b.extractLsb' 8 6).toNat)) <<< (b.extractLsb' 0 6).toNat := by
    apply BitVec.eq_of_toNat_eq
    rw [BitVec.toNat_shiftLeft, toNat_extractLsb'_eq_bits, toNat_extractLsb'_eq_bits, toNat_lowMask (bits_lt b 8 6), Nat.shiftLeft_eq,
      BitVec.toNat_ofNat]
  simp only [bfiW, mask, toNat_extractLsb'_eq_bits]

theorem divW_eq (a b : Word) : divW a b = if b = 0 then BitVec.allOnes 64 else a.sdiv b := by
  have quotient : BitVec.ofInt 64 (a.toInt.tdiv b.toInt) = a.sdiv b :=
    BitVec.eq_of_toInt_eq (by rw [BitVec.toInt_ofInt, BitVec.toInt_sdiv])
  rw [divW, quotient]

theorem remW_eq (a b : Word) : remW a b = if b = 0 then a else a.srem b := by
  rw [remW, ← BitVec.toInt_srem, BitVec.ofInt_toInt]

theorem divnW_eq (a b : Word) : divnW a b = if b = 0 then BitVec.allOnes 64 else a / b := by
  rw [divnW, ← BitVec.toNat_udiv, BitVec.ofNat_toNat, BitVec.setWidth_eq]

theorem remnW_eq (a b : Word) : remnW a b = if b = 0 then a else a % b := by
  rw [remnW, ← BitVec.toNat_umod, BitVec.ofNat_toNat, BitVec.setWidth_eq]

/-! ### How a form of register class runs (R91) -/

/-- A form that writes one value of its thread writes the one that its table gives. -/
theorem State.onThread_write {s : State} {t : Thread} {d d' : GReg} {v v' : Word} {value : Thread → Word}
    (thread : s.thread s.cur = some t) (row : some (d', v') = some (d, v)) (run : value t = v') :
    (s.onThread fun t => s.write t d' (value t) 0) = s.write t d v 0 := by
  obtain ⟨rfl, rfl⟩ := Prod.mk.inj (Option.some.inj row)
  rw [State.onThread_eq thread, run]

/-- Each integer form writes the value of its table. -/
theorem exec_of_intResult {s : State} {t : Thread} {i : Instr} {d : GReg} {v : Word} (thread : s.thread s.cur = some t)
    (row : intResult t i = some (d, v)) : exec i s = s.write t d v 0 := by
  cases i with
  | add => exact State.onThread_write thread row rfl
  | sub => exact State.onThread_write thread row rfl
  | mul => exact State.onThread_write thread row rfl
  | mulh => exact State.onThread_write thread row (mulHigh_eq _ _)
  | mulhn => exact State.onThread_write thread row (mulHighN_eq _ _)
  | and => exact State.onThread_write thread row rfl
  | or => exact State.onThread_write thread row rfl
  | xor => exact State.onThread_write thread row rfl
  | andn => exact State.onThread_write thread row rfl
  | orn => exact State.onThread_write thread row rfl
  | sll _ a b => exact State.onThread_write thread row (congrArg (t.rd a <<< ·) (amt_eq (t.rd b)))
  | srl _ a b => exact State.onThread_write thread row (congrArg (t.rd a >>> ·) (amt_eq (t.rd b)))
  | sra _ a b => exact State.onThread_write thread row (congrArg (t.rd a).sshiftRight (amt_eq (t.rd b)))
  | rol _ a b => exact State.onThread_write thread row (congrArg (t.rd a).rotateLeft (amt_eq (t.rd b)))
  | ror _ a b => exact State.onThread_write thread row (congrArg (t.rd a).rotateRight (amt_eq (t.rd b)))
  | slt => exact State.onThread_write thread row (flag_slt _ _)
  | sltn => exact State.onThread_write thread row (flag_ult _ _)
  | seq => exact State.onThread_write thread row (flag_beq _ _)
  | sne => exact State.onThread_write thread row (flag_bne _ _)
  | min => exact State.onThread_write thread row (ite_slt id)
  | max => exact State.onThread_write thread row (ite_slt Eq.symm)
  | minn => exact State.onThread_write thread row (ite_ult id)
  | maxn => exact State.onThread_write thread row (ite_ult Eq.symm)
  | bfx => exact State.onThread_write thread row (bfxW_eq _ _)
  | clz => exact State.onThread_write thread row (clzN_eq _)
  | ctz => exact State.onThread_write thread row (ctzN_eq _)
  | pop => exact State.onThread_write thread row (popN_eq _)
  | bswap => exact State.onThread_write thread row (bswapW_eq _)
  | brev => exact State.onThread_write thread row (brevW_eq _)
  | sext => exact State.onThread_write thread row (sextW_eq _ (xwBits_pos _))
  | zext => exact State.onThread_write thread row (zext_eq _ _)
  | addi => exact State.onThread_write thread row rfl
  | andi => exact State.onThread_write thread row rfl
  | ori => exact State.onThread_write thread row rfl
  | xori => exact State.onThread_write thread row rfl
  | lsh => exact State.onThread_write thread row rfl
  | shiSll => exact State.onThread_write thread row rfl
  | shiSrl => exact State.onThread_write thread row rfl
  | shiSra => exact State.onThread_write thread row rfl
  | shiRol => exact State.onThread_write thread row rfl
  | shiRor => exact State.onThread_write thread row rfl
  | slti => exact State.onThread_write thread row (flag_slt _ _)
  | sltni => exact State.onThread_write thread row (flag_ult _ _)
  | sel => exact State.onThread_write thread row (ite_not _ _ _)
  | bfi => exact State.onThread_write thread row (bfiW_eq _ _ _)
  | li => exact State.onThread_write thread row rfl
  | _ => cases row

/-- Settles O1: each form writes the value of its table (`exec_of_intResult`), and what writes one register retires. -/
theorem integerFormsCompute : Obligations.IntegerFormsCompute := fun _ _ _ _ _ thread row =>
  State.retiresIn_of_write rfl (exec_of_intResult thread row)

/-! ### The divide unit (R85, R93, R101) -/

/-- A form that leaves its result to the divide unit leaves the one that its table gives. -/
theorem State.onThread_divide {s : State} {t : Thread} {d d' : GReg} {v v' : Word} {fl fl' n n' e e' : Nat} {value : Thread → Word}
    {flags : Thread → Nat} (thread : s.thread s.cur = some t) (row : some (d', v', fl', n', e') = some (d, v, fl, n, e))
    (run : value t = v') (raised : flags t = fl') :
    (s.onThread fun t => s.wait t (.divide (s.cc + n') d' (value t) (flags t) e')) = s.wait t (.divide (s.cc + n) d v fl e) := by
  cases row
  rw [State.onThread_eq thread, run, raised]

theorem exec_of_divideResult {s : State} {t : Thread} {i : Instr} {d : GReg} {v : Word} {fl n e : Nat}
    (thread : s.thread s.cur = some t) (row : divideResult t i = some (d, v, fl, n, e)) :
    exec i s = s.wait t (.divide (s.cc + n) d v fl e) := by
  cases i with
  | div => exact State.onThread_divide (flags := fun _ => 0) thread row (divW_eq _ _) rfl
  | divn => exact State.onThread_divide (flags := fun _ => 0) thread row (divnW_eq _ _) rfl
  | rem => exact State.onThread_divide (flags := fun _ => 0) thread row (remW_eq _ _) rfl
  | remn => exact State.onThread_divide (flags := fun _ => 0) thread row (remnW_eq _ _) rfl
  | fdiv => exact State.onThread_divide thread row rfl rfl
  | fsqrt => exact State.onThread_divide thread row rfl rfl
  | _ => cases row

theorem divideFormsIssue : DivideFormsIssue := by
  intro s t i d v fl n e thread row
  unfold State.blocks
  rw [exec_of_divideResult thread row, State.wait_eq]

section
variable (s : State) (k : Nat)

/-- The charge and the note of a retirement go by the slot that retires, whatever slot is the current one. -/
theorem State.accrue_withCur (core o n : Nat) : ({ s with cur := k } : State).accrue core o n = { s.accrue core o n with cur := k } := by
  have meter : ({ s with cur := k } : State).core core = s.core core := rfl
  unfold State.accrue
  rw [meter]
  split
  · split <;> rfl
  · rfl

theorem State.charge_withCur (core o priv e n : Nat) :
    ({ s with cur := k } : State).charge core o priv e n = { s.charge core o priv e n with cur := k } := by
  unfold State.charge
  split
  · exact s.accrue_withCur k core o _
  · rfl

theorem State.noteRetired_withCur (core o priv tid : Nat) :
    ({ s with cur := k } : State).noteRetired core o priv tid = { s.noteRetired core o priv tid with cur := k } := by
  unfold State.noteRetired
  split <;> rfl

theorem State.retire_withCur (tid e : Nat) : ({ s with cur := k } : State).retire tid e = { s.retire tid e with cur := k } := by
  have same : ({ s with cur := k } : State).thread tid = s.thread tid := rfl
  unfold State.retire State.retireN
  rw [same]
  cases s.thread tid with
  | none => rfl
  | some t =>
    dsimp only
    rw [State.charge_withCur, State.noteRetired_withCur]

end

theorem State.complete_eq {s : State} {tid : Nat} {t : Thread} (thread : s.thread tid = some t) (e : Nat) (f : Thread → Thread) :
    s.complete tid e f = (s.setThread tid ((f t).completed s.cc)).retire tid e := by
  unfold State.complete
  rw [thread]
  rfl

/-- The completion of a blocked instruction: the frame, and what it leaves of its thread. -/
theorem State.complete_answers {s : State} {tid : Nat} {t : Thread} (thread : s.thread tid = some t) (e : Nat) (f : Thread → Thread) :
    ({ s with cur := tid } : State).elsewhere { s.complete tid e f with cur := tid } ∧
      (s.complete tid e f).thread tid = some ((f t).completed s.cc) := by
  have run : (({ s with cur := tid } : State).setThread tid ((f t).completed s.cc)).retire tid e =
      { s.complete tid e f with cur := tid } := by
    rw [State.complete_eq thread]
    exact (s.setThread tid ((f t).completed s.cc)).retire_withCur tid tid e
  obtain ⟨frame, left⟩ := State.setRetire { s with cur := tid } ((f t).completed s.cc) e
  rw [run] at frame left
  exact ⟨frame, left⟩

theorem divideResultArrives : DivideResultArrives := by
  intro s t tid due fl e d v thread block ready
  have run : exec (.divideResult tid) s = .next (s.complete tid e fun t => (t.raiseF fl).wr d v) := by
    change execDivideResult tid s = _
    unfold execDivideResult
    simp only [thread, block, ready, if_true]
  obtain ⟨frame, left⟩ := State.complete_answers thread e fun t => (t.raiseF fl).wr d v
  refine ⟨_, run, frame, left.trans ?_⟩
  simp only [Thread.completed, Thread.wr, Thread.raiseF]
  split <;> rfl

/-- Settles O2: `divideFormsIssue` and `divideResultArrives`. -/
theorem divideForms : Obligations.DivideForms := ⟨divideFormsIssue, divideResultArrives⟩

/-! ### Control flow (R96 to R98) -/

/-- The word of format B (R23), as the encoder sums its fields. -/
theorem word_formatB (m : BitVec 6) (c : BitVec 3) (a b : GReg) (o : BitVec 13) :
    m ++ c ++ BitVec.ofNat 5 a ++ BitVec.ofNat 5 b ++ o =
      BitVec.ofNat 32 (encB (2 ^ 26 * m.toNat + 2 ^ 23 * c.toNat) a.val b.val o.toNat) := by
  apply BitVec.eq_of_toNat_eq
  simp only [toNat_append_eq_add, BitVec.toNat_ofNat, encB, Nat.mod_eq_of_lt a.isLt, Nat.mod_eq_of_lt b.isLt]
  have := m.isLt
  have := c.isLt
  have := o.isLt
  omega

theorem word_formatJ (m : BitVec 6) (o : BitVec 26) : m ++ o = BitVec.ofNat 32 (encJ (2 ^ 26 * m.toNat) o.toNat) := by
  apply BitVec.eq_of_toNat_eq
  simp only [toNat_append_eq_add, BitVec.toNat_ofNat, encJ]
  have := m.isLt
  have := o.isLt
  omega

theorem word_formatA (m : BitVec 6) (d a b : GReg) (fn : BitVec 11) :
    m ++ BitVec.ofNat 5 d ++ BitVec.ofNat 5 a ++ BitVec.ofNat 5 b ++ fn =
      BitVec.ofNat 32 (encA (2 ^ 26 * m.toNat) d.val a.val b.val fn.toNat) := by
  apply BitVec.eq_of_toNat_eq
  simp only [toNat_append_eq_add, BitVec.toNat_ofNat, encA, Nat.mod_eq_of_lt d.isLt, Nat.mod_eq_of_lt a.isLt, Nat.mod_eq_of_lt b.isLt]
  have := m.isLt
  have := fn.isLt
  omega

/-- The selector 7 is no branch. -/
theorem decode_selector_seven (a b : GReg) (o : BitVec 13) (i : Instr) :
    decode ((0x0C : BitVec 6) ++ (7 : BitVec 3) ++ BitVec.ofNat 5 a ++ BitVec.ofNat 5 b ++ o) ≠ .ok i := by
  intro decoded
  obtain ⟨major, lt, -, selector, -, -⟩ := fieldsB (n := encB 0x33800000 a.val b.val o.toNat) 12 7 a.val b.val o.toNat
    (by simp only [encB]; omega) (by decide) (by decide) a.isLt b.isLt o.isLt
  have word : ((0x0C : BitVec 6) ++ (7 : BitVec 3) ++ BitVec.ofNat 5 a ++ BitVec.ofNat 5 b ++ o).toNat =
      encB 0x33800000 a.val b.val o.toNat :=
    (congrArg BitVec.toNat (word_formatB 0x0C 7 a b o)).trans (Nat.mod_eq_of_lt lt)
  have raw := rawDecode_of_decodeNat decoded
  rw [word, rawDecode, major] at raw
  change decB _ = _ at raw
  rw [decB, selector] at raw
  cases raw

/-- A word decodes to an instruction when its fields are those that the encoder writes, and only then. -/
theorem decode_iff_encoded {w : BitVec 32} {i : Instr} {n k : Nat} (word : w = BitVec.ofNat 32 n) (wf : i.wf = true)
    (encoded : encodeNat i = some k) (hn : n < 2 ^ 32) (hk : k < 2 ^ 32) : decode w = .ok i ↔ n = k := by
  subst word
  constructor
  · intro decoded
    obtain ⟨word, -⟩ := decodedWordEncodes _ _ decoded
    have same := congrArg BitVec.toNat (List.singleton_inj.mp ((encode_of_encodeNat encoded).symm.trans word))
    rw [BitVec.toNat_ofNat, BitVec.toNat_ofNat, Nat.mod_eq_of_lt hn, Nat.mod_eq_of_lt hk] at same
    exact same.symm
  · rintro rfl
    exact decode_of_encode wf (encode_of_encodeNat encoded)

theorem controlFlowEncodings : ControlFlowEncodings := by
  refine ⟨fun a b o => ?_, fun o => ⟨?_, ?_⟩, fun d a b => ⟨?_, ?_⟩⟩
  · have decodes : ∀ (c : BitVec 3) (i : Instr), i.wf = true →
        encodeNat i = some (encB (2 ^ 26 * (0x0C : BitVec 6).toNat + 2 ^ 23 * c.toNat) a.val b.val o.toNat) →
        decode ((0x0C : BitVec 6) ++ c ++ BitVec.ofNat 5 a ++ BitVec.ofNat 5 b ++ o) = .ok i := fun c i wf encoded =>
      decode_of_encode wf ((encode_of_encodeNat encoded).trans (congrArg ([·]) (word_formatB 0x0C c a b o).symm))
    exact ⟨decodes 0 _ rfl rfl, decodes 1 _ rfl rfl, decodes 2 _ rfl rfl, decodes 3 _ rfl rfl, decodes 4 _ rfl rfl, decodes 5 _ rfl rfl,
      decodes 6 _ rfl rfl, decode_selector_seven a b o⟩
  · exact decode_of_encode rfl (congrArg ([·]) (word_formatJ 0x0D o).symm)
  · exact decode_of_encode rfl (congrArg ([·]) (word_formatJ 0x0E o).symm)
  · refine (decode_iff_encoded (i := .jr a) (n := encA 0x3C000000 d.val a.val b.val 0) (word_formatA 0x0F d a b 0) rfl rfl ?_ ?_).trans ?_
    all_goals
      simp only [encA, Fin.ext_iff]
      omega
  · refine (decode_iff_encoded (i := .jalr d a) (n := encA 0x3C000000 d.val a.val b.val 1) (word_formatA 0x0F d a b 1) rfl rfl
      ?_ ?_).trans ?_
    all_goals
      simp only [encA, Fin.ext_iff]
      omega

/-- A form that jumps by its thread jumps where the table says. -/
theorem State.onThread_branch {s : State} {t : Thread} {c c' : Bool} {o o' : BitVec 13} {cond : Thread → Bool}
    (thread : s.thread s.cur = some t) (row : some (c', o') = some (c, o)) (run : cond t = c') :
    (s.onThread fun t => s.jump t (if cond t then t.pc + 4 * o'.signExtend 64 else t.pc + 4)) =
      s.jump t (if c then t.pc + 4 * o.signExtend 64 else t.pc + 4) := by
  cases row
  rw [State.onThread_eq thread, run]

theorem bne_eq_decide_ne (a b : Word) : (a != b) = decide (a ≠ b) := by
  rw [Bool.eq_iff_iff, bne_iff_ne, decide_eq_true_iff]

theorem not_slt (a b : Word) : (!a.slt b) = decide (b.toInt ≤ a.toInt) := by
  simp only [BitVec.slt_eq_decide, ← decide_not, Int.not_lt]

theorem not_ult (a b : Word) : (!a.ult b) = decide (b.toNat ≤ a.toNat) := by
  simp only [BitVec.ult_eq_decide, ← decide_not, Nat.not_lt]

theorem exec_of_branchOf {s : State} {t : Thread} {i : Instr} {c : Bool} {o : BitVec 13} (thread : s.thread s.cur = some t)
    (row : branchOf t i = some (c, o)) : exec i s = s.jump t (if c then t.pc + 4 * o.signExtend 64 else t.pc + 4) := by
  cases i with
  | bEq => exact State.onThread_branch thread row rfl
  | bNe => exact State.onThread_branch thread row (bne_eq_decide_ne _ _)
  | bLt => exact State.onThread_branch thread row rfl
  | bGe => exact State.onThread_branch thread row (not_slt _ _)
  | bLtn => exact State.onThread_branch thread row rfl
  | bGen => exact State.onThread_branch thread row (not_ult _ _)
  | bBs => exact State.onThread_branch thread row rfl
  | _ => cases row

theorem State.retires_of_jump {s : State} {i : Instr} {t : Thread} {pc : Word} (run : exec i s = s.jump t pc) : s.retires i t pc := by
  unfold State.retires State.retiresIn
  rw [run]
  exact s.jump_answers t pc

theorem branchesRetire : BranchesRetire := fun _ _ _ _ _ thread row => State.retires_of_jump (exec_of_branchOf thread row)

section
variable {s : State} {t : Thread} (thread : s.thread s.cur = some t)
include thread

/-- jr and jalr take ADDR at an address that is no multiple of 4, and jump to one that is. -/
theorem exec_jr (a : GReg) : exec (.jr a) s = if (t.rd a).toNat % 4 ≠ 0 then s.addr t (t.rd a) else s.jump t (t.rd a) :=
  State.onThread_eq thread _

theorem exec_jalr (d a : GReg) :
    exec (.jalr d a) s = if (t.rd a).toNat % 4 ≠ 0 then s.addr t (t.rd a) else s.jump (t.wr d (t.pc + 4)) (t.rd a) :=
  State.onThread_eq thread _

end

theorem jumpsRetire : JumpsRetire := by
  intro s t thread
  refine ⟨fun o => ?_, fun o => ?_, fun a aligned => ?_, fun d a aligned => ?_⟩
  · exact State.retires_of_jump (State.onThread_eq thread _)
  · exact State.retires_of_jump (State.onThread_eq thread _)
  · exact State.retires_of_jump ((exec_jr thread a).trans (if_neg (not_not.mpr aligned)))
  · exact State.retires_of_jump ((exec_jalr thread d a).trans (if_neg (not_not.mpr aligned)))

theorem misalignedJumpTraps : MisalignedJumpTraps := fun _ _ a thread misaligned =>
  ⟨(exec_jr thread a).trans (if_pos misaligned), fun d => (exec_jalr thread d a).trans (if_pos misaligned)⟩

/-- Settles O3: the four parts are `controlFlowEncodings`, `branchesRetire`, `jumpsRetire` and `misalignedJumpTraps`. -/
theorem controlFlowForms : Obligations.ControlFlowForms :=
  ⟨controlFlowEncodings, branchesRetire, jumpsRetire, misalignedJumpTraps⟩

/-! ### Scalar floating point (R100 to R105) -/

section
variable {s : State} {t : Thread} {d d' : GReg} {v v' : Word} {fl fl' : Nat} (thread : s.thread s.cur = some t)
include thread

/-- A form that writes a code and its flags writes the value and the flags that its table gives. -/
theorem State.onThread_writeF {code : Thread → Nat × Nat} (row : some (d', v', fl') = some (d, v, fl))
    (run : BitVec.ofNat 64 (code t).1 = v') (raised : (code t).2 = fl') :
    (s.onThread fun t => s.writeF t d' (code t)) = s.write (t.raiseF fl) d v 2 := by
  cases row
  rw [State.onThread_eq thread, State.writeF, run, raised]

/-- So where the table gives the code itself. -/
theorem State.onThread_code {code : Thread → Nat × Nat} {r : Nat × Nat}
    (row : some (d', BitVec.ofNat 64 r.1, r.2) = some (d, v, fl)) (run : code t = r) :
    (s.onThread fun t => s.writeF t d' (code t)) = s.write (t.raiseF fl) d v 2 :=
  State.onThread_writeF thread row (congrArg (BitVec.ofNat 64 ·.1) run) (congrArg Prod.snd run)

/-- A conversion to an integer. -/
theorem State.onThread_int {int : Thread → Int × Nat} (row : some (d', BitVec.ofInt 64 (int t).1, (int t).2) = some (d, v, fl)) :
    (s.onThread fun t => s.write (t.raiseF (int t).2) d' (BitVec.ofInt 64 (int t).1) 2) = s.write (t.raiseF fl) d v 2 := by
  cases row
  rw [State.onThread_eq thread]

end

theorem ofNat_bit (b : Bool) : BitVec.ofNat 64 (bit b) = if b then 1 else 0 := by cases b <;> rfl

/-- The low half of an operand (R104). -/
theorem bits_half (a : Word) : bits a 0 16 = lo32 a % 2 ^ 16 := by
  rw [lo32, bits_zero, bits_zero, Nat.mod_mod_of_dvd _ (by decide)]

theorem sx_word (a : Word) : sx a.toNat 32 = (a.setWidth 32).toInt := by
  rw [sx_eq_toInt _ (by decide), BitVec.ofNat_toNat]

theorem testBit_lo32 (a : Word) : (lo32 a).testBit 31 = a.getLsbD 31 := by
  rw [lo32, bits_zero, Nat.testBit_mod_two_pow]
  rfl

/-- Bits 30:0 with a sign put on them (R105). -/
theorem signed_eq (a : Word) {b b' : Bool} (sign : b = b') : BitVec.ofNat 64 (lo32 a % 2 ^ 31 + bit b * 2 ^ 31) =
    (a.setWidth 31).setWidth 64 ||| (if b' then 0x80000000#64 else 0) := by
  subst sign
  have low : ((a.setWidth 31).setWidth 64).toNat = lo32 a % 2 ^ 31 := by
    rw [BitVec.toNat_setWidth_of_le (by decide), BitVec.toNat_setWidth, lo32, bits_zero, Nat.mod_mod_of_dvd _ (by decide)]
  have lt : lo32 a % 2 ^ 31 < 2 ^ 31 := Nat.mod_lt _ (by decide)
  apply BitVec.eq_of_toNat_eq
  rw [BitVec.toNat_or, low, BitVec.toNat_ofNat]
  cases b
  · exact (Nat.mod_eq_of_lt (lt.trans (by decide))).trans (Nat.or_zero _).symm
  · rw [Nat.or_comm, bit, if_pos rfl, if_pos rfl, Nat.one_mul, Nat.add_comm, Nat.mod_eq_of_lt (by omega)]
    exact Nat.two_pow_add_eq_or_of_lt lt 1

theorem exec_of_fpResult {s : State} {t : Thread} {i : Instr} {d : GReg} {v : Word} {fl : Nat} (thread : s.thread s.cur = some t)
    (row : fpResult t i = some (d, v, fl)) : exec i s = s.write (t.raiseF fl) d v 2 := by
  cases i with
  | fadd => exact State.onThread_code thread row rfl
  | fsub => exact State.onThread_code thread row rfl
  | fmul => exact State.onThread_code thread row rfl
  | fma => exact State.onThread_code thread row rfl
  | fnma => exact State.onThread_code thread row rfl
  | fmin => exact State.onThread_code thread row rfl
  | fmax => exact State.onThread_code thread row rfl
  | fcmpEq => exact State.onThread_writeF thread row (ofNat_bit _) rfl
  | fcmpLt => exact State.onThread_writeF thread row (ofNat_bit _) rfl
  | fcmpLe => exact State.onThread_writeF thread row (ofNat_bit _) rfl
  | fcmpUn => exact State.onThread_writeF thread row (ofNat_bit _) rfl
  | fclass => exact State.onThread_code thread row rfl
  | fcvtF32I64 => exact State.onThread_code thread row rfl
  | fcvtF32N64 => exact State.onThread_code thread row rfl
  | fcvtI64F32 => exact State.onThread_int thread row
  | fcvtN64F32 => exact State.onThread_int thread row
  | fcvtI64F32Rtz => exact State.onThread_int thread row
  | fcvtN64F32Rtz => exact State.onThread_int thread row
  | fcvtF32I32 => exact State.onThread_code thread row (congrArg (cvtIF fp32 t.fp.frm) (sx_word _))
  | fcvtI32F32 => exact State.onThread_int thread row
  | fcvtF16F32 => exact State.onThread_code thread row rfl
  | fcvtF32F16 => exact State.onThread_code thread row (congrArg (cvtFF fp16 fp32 t.fp.frm) (bits_half _))
  | fcvtBf16F32 => exact State.onThread_code thread row rfl
  | fcvtF32Bf16 => exact State.onThread_code thread row (congrArg (cvtFF bf16 fp32 t.fp.frm) (bits_half _))
  | fsgnj => exact State.onThread_writeF thread row (signed_eq _ (testBit_lo32 _)) rfl
  | fsgnjN => exact State.onThread_writeF thread row (signed_eq _ (congrArg Bool.not (testBit_lo32 _))) rfl
  | fsgnjX =>
    exact State.onThread_writeF thread row (signed_eq _ (congrArg₂ bne (testBit_lo32 _) (testBit_lo32 _))) rfl
  | _ => cases row

/-- Settles O4: each form writes the value and raises the flags of its table (`exec_of_fpResult`). -/
theorem scalarFpFormsCompute : Obligations.ScalarFpFormsCompute := fun _ _ _ _ _ _ thread row =>
  State.retiresIn_of_write rfl (exec_of_fpResult thread row)

/-! ### What the frame of an instruction says of the rest of the state -/

section
variable {s s' : State} (h : s.elsewhere s')
include h

theorem State.elsewhere.replies_eq : s'.replies = s.replies := by
  have rest := congrArg State.replies h.rest
  exact rest
theorem State.elsewhere.wakes_eq : s'.wakes = s.wakes := by
  have rest := congrArg State.wakes h.rest
  exact rest
theorem State.elsewhere.clusters_eq : s'.clusters = s.clusters := by
  have rest := congrArg State.clusters h.rest
  exact rest

end

/-! ### Calls that wait for the counters and act at a place (R116, R118) -/

/-- A release goes on once the counters are zero and hold no error mark. -/
theorem State.release_of_waited {t : Thread} (waited : t.waited .all) (s : State) (k : Thread → Out) : s.release t k = k t := by
  obtain ⟨errC, errH, errM, pcntC, pcntH, pcntM⟩ := waited
  simp [State.release, State.waitCounters, Thread.takeMark, Thread.zeroed, errC, errH, errM, pcntC, pcntH, pcntM]

theorem State.atPlace_of_leaving {t : Thread} (leaving : t.block.isAwait = false) (s : State) (p : Place) (l : Loc) (a : Access) (va : Word)
    (k : WaitKind) (go : Loc → List Nat → Out) : s.atPlace t p l a va k go = s.request t p l a va k := by
  unfold State.atPlace
  split
  · next block => rw [block] at leaving; cases leaving
  · rfl

theorem Thread.there.isAwait {t : Thread} {data : List Nat} (there : t.there data) : t.block.isAwait = true := by
  obtain ⟨p, l, h, w, block⟩ := there
  rw [block]
  rfl

/-- What a form does at its place, where it does the same at every location. -/
theorem State.atPlace_of_there {t : Thread} {data : List Nat} (there : t.there data) (s : State) (p : Place) (l : Loc) (a : Access)
    (va : Word) (k : WaitKind) (go : List Nat → Out) : (s.atPlace t p l a va k fun _ data => go data) = go data := by
  obtain ⟨p', l', h, w, block⟩ := there
  unfold State.atPlace
  rw [block]

@[simp] theorem Thread.issued_g (t : Thread) : t.issued.g = t.g := by unfold Thread.issued; split <;> rfl
@[simp] theorem Thread.issued_pc (t : Thread) : t.issued.pc = t.pc := by unfold Thread.issued; split <;> rfl

/-! ### What leaves the threads and a partition's ring as they are

Queues, waiters and stores: one lemma for each operation, named after it. -/

/-- The threads are those of s, and so are the ring entries in use of the partition. -/
def State.ringAs (part : Nat) (s s' : State) : Prop :=
  s'.threads = s.threads ∧ (s'.part part).map Partition.ring = (s.part part).map Partition.ring

theorem State.ringAs.refl (part : Nat) (s : State) : s.ringAs part s := ⟨rfl, rfl⟩

section
variable {s s' : State} {part : Nat} (h : State.ringAs part s s')
include h

theorem State.ringAs.setPart {p : Nat} {x y : Partition} (found : s'.part p = some x) (ring : y.ring = x.ring) :
    s.ringAs part (s'.setPart p y) := by
  obtain ⟨threads, entries⟩ := h
  refine ⟨threads, ?_⟩
  rw [← entries]
  by_cases e : part = p
  · subst e
    rw [State.part_setPart_same, found, Option.map_some, Option.map_some, ring]
  · rw [State.part_setPart_ne _ _ e]

theorem State.ringAs.modPart {p : Nat} {f : Partition → Partition} (ring : ∀ x, (f x).ring = x.ring) : s.ringAs part (s'.modPart p f) := by
  unfold State.modPart
  split
  · next found => exact h.setPart found (ring _)
  · exact h

theorem State.ringAs.fire {l : Loc} {n : Nat} : s.ringAs part (s'.fire l n) := h

theorem State.ringAs.reply {r : Reply} : s.ringAs part (s'.reply r) := h

theorem State.ringAs.setMem {sp : Space} {m : Memory} : s.ringAs part (s'.setMem sp m) := by
  cases sp with
  | lm c => exact h
  | share p k => exact h
  | phys n =>
    simp only [State.setMem]
    split
    · exact h
    · split <;> exact h

theorem State.ringAs.afterStore {p k off n : Nat} : s.ringAs part (s'.afterStore p k off n) := by
  unfold State.afterStore
  split
  · exact h
  · split
    · exact h
    · dsimp only
      split_ifs <;> exact h

theorem State.ringAs.storeQueue {p off n v : Nat} {x : Partition} (found : s'.part p = some x) :
    s.ringAs part (s'.storeQueue p x off n v) := by
  unfold State.storeQueue
  dsimp only
  split
  · split
    · exact h
    · exact h.setPart found rfl
  · split_ifs <;> exact h
  · exact h

theorem State.ringAs.writeLoc {l : Loc} {n v : Nat} : s.ringAs part (s'.writeLoc l n v) := by
  unfold State.writeLoc
  split
  · split
    · split
      · next found =>
        split
        · exact (h.storeQueue found).fire
        · dsimp only
          split
          · next found' => exact ((h.storeQueue found).storeQueue found').fire
          · exact h.storeQueue found
      · exact h
    · split
      · exact h
      · exact h.setMem.fire.afterStore
  · exact h.setMem.fire

theorem State.ringAs.pipeWrite {p off : Nat} {ws : List Word} : s.ringAs part (s'.pipeWrite p off ws) := by
  unfold State.pipeWrite
  induction ws generalizing s' off with
  | nil => exact h
  | cons w ws ih => exact ih h.writeLoc

theorem State.ringAs.modQueue {p q : Nat} {f : Queue → Queue} : s.ringAs part (s'.modQueue p q f) :=
  State.ringAs.fire (h.modPart (f := fun p => { p with queues := p.queues.put q (f (p.queue q)) }) fun _ => rfl)

theorem State.ringAs.qServed {p : Nat} {w : QWait} : s.ringAs part (s'.qServed p w) := by
  unfold State.qServed
  split
  · exact h.reply
  · exact h.modQueue

theorem State.ringAs.qRun {n p q : Nat} : s.ringAs part (State.qRun n s' p q) := by
  induction n generalizing s' q with
  | zero => exact h
  | succ n ih =>
    unfold State.qRun
    dsimp only
    split
    · split
      · exact ih h.modQueue.reply
      · split
        · refine ih ?_
          split
          · exact ih h.modQueue.qServed
          · exact h.modQueue.qServed
        · split
          · exact ih h.modQueue.reply
          · exact h
    · exact ih h.modQueue.reply
    · split
      · exact ih h.modQueue.reply
      · exact h
    · exact h

theorem State.ringAs.qPush {p q : Nat} {item : Word} {s'' : State} (pushed : s'.qPush p q item = some s'') : s.ringAs part s'' := by
  unfold State.qPush at pushed
  dsimp only at pushed
  split at pushed
  · cases pushed
    exact h.modQueue.qRun
  · cases pushed

theorem State.ringAs.ringDrain {n p : Nat} : s.ringAs part (State.ringDrain n s' p) := by
  induction n generalizing s' with
  | zero => exact h
  | succ n ih =>
    unfold State.ringDrain
    split
    · split
      · exact h
      · split
        · next pushed => exact ih ((h.qPush pushed).modPart fun _ => rfl)
        · exact h
    · exact h

end

theorem State.part_modPart_same {s : State} {p : Nat} {x : Partition} (found : s.part p = some x) (f : Partition → Partition) :
    (s.modPart p f).part p = some (f x) := by
  rw [State.modPart, found]
  exact State.part_setPart_same _ _ _

/-- A posted call: the threads stay, and the ring has the caller at its entry. -/
theorem State.postCall_ring {s : State} {part : Nat} {p : Partition} (found : s.part part = some p) (e tid : Nat) (t : Thread) (call : Word) :
    (s.postCall part e tid t call).threads = s.threads ∧
      ∃ p', (s.postCall part e tid t call).part part = some p' ∧ p'.ring = p.ring.put e tid := by
  obtain ⟨threads, ring⟩ : State.ringAs part (s.modPart part fun p => { p with ring := p.ring.put e tid, ringPut := p.ringPut ++ [e] })
    (s.postCall part e tid t call) := (State.ringAs.refl part _).pipeWrite.ringDrain
  rw [State.part_modPart_same found, Option.map_some] at ring
  exact ⟨threads.trans (State.modPart_threads _ _ _), Option.map_eq_some_iff.mp ring⟩

/-! ### System calls (R302) -/

section
variable {s : State} {t : Thread} (thread : s.thread s.cur = some t) {a : GReg} {full : Thread → Out}
include thread

theorem State.callForm_of_privileged (priv : t.priv ≠ 0) (leaving : t.block.isAwait = false) : s.callForm a full = s.illegal t := by
  rw [State.callForm, State.onThread_eq thread, if_pos ⟨priv, leaving⟩]

section
variable (user : t.priv = 0) (waited : t.waited .all)
include user waited

/-- A caller's request leaves for the pantry of the ring. -/
theorem State.callForm_of_leaving (leaving : t.block.isAwait = false) : s.callForm a full =
    (s.requestOf t (.pantry (s.placing t.part)) ⟨.share t.part (s.placing t.part), 0x140000⟩ (.op 8 true []) (t.rd a)).wait
      t.sent (.reply .sysc) := by
  rw [State.callForm, State.onThread_eq thread, if_neg fun privileged => privileged.1 user, State.release_of_waited waited,
    State.atPlace_of_leaving leaving]
  rfl

section
variable (there : t.there []) {p : Partition} (found : s.part t.part = some p)
include there found

/-- At the pantry of the ring a call takes the lowest free entry. -/
theorem State.callForm_of_there : s.callForm a full = p.freeRing.elim (full t) fun e =>
    afterRetire (s.wait t (.reply .sysc)) fun s => s.postCall t.part e s.cur t (t.rd a) := by
  rw [State.callForm, State.onThread_eq thread, if_neg fun privileged => privileged.1 user, State.release_of_waited waited,
    State.atPlace_of_there there, found]
  dsimp only
  cases p.freeRing <;> rfl

theorem State.callForm_of_free {e : Nat} (free : p.freeRing = some e) : s.callForm a full =
    afterRetire (s.wait t (.reply .sysc)) fun s => s.postCall t.part e s.cur t (t.rd a) := by
  rw [State.callForm_of_there thread user waited there found, free, Option.elim_some]

theorem State.callForm_of_full (none : p.freeRing = none) : s.callForm a full = full t := by
  rw [State.callForm_of_there thread user waited there found, none, Option.elim_none]

end
end
end

theorem systemCallForms : SystemCallForms := by
  intro s t a p thread
  refine ⟨fun priv leaving => ?_, fun user waited leaving i mem => ?_, fun user waited there found => ⟨?_, ?_, ?_, ?_⟩⟩
  · exact ⟨State.callForm_of_privileged thread priv leaving, State.callForm_of_privileged thread priv leaving⟩
  · rcases List.mem_pair.mp mem with rfl | rfl
    · exact State.callForm_of_leaving thread user waited leaving
    · exact State.callForm_of_leaving thread user waited leaving
  · intro e free
    refine ⟨_, State.callForm_of_free thread user waited there found free, { t.issued with block := .reply .sysc }, ?_⟩
    obtain ⟨threads, ring⟩ := State.postCall_ring (s := s.setThread s.cur { t.issued with block := .reply .sysc }) found e s.cur t (t.rd a)
    refine ⟨?_, rfl, t.issued_g, t.issued_pc, ring⟩
    exact (congrArg (Map.look · s.cur) threads).trans (State.thread_setThread_same _ _ _)
  · intro e free
    exact (State.callForm_of_free thread user waited there found free).trans (State.callForm_of_free thread user waited there found free).symm
  · exact State.callForm_of_full thread user waited there found
  · intro none
    refine ⟨_, State.callForm_of_full thread user waited there found none, { t.issued with block := .reply .ringFull }, ?_, rfl, ?_⟩
    · exact (congrArg (Map.look · s.cur) (State.modPart_threads _ _ _)).trans (State.thread_setThread_same _ _ _)
    · exact ⟨_, State.part_modPart_same (s := s.setThread s.cur _) found _, rfl⟩

/-! ### The completion of a call (R302) -/

/-- A store to a ring entry is performed as it stands. -/
theorem State.writeLoc_ringEntry (s : State) (part e v : Nat) (lt : e < 256) :
    s.writeLoc ⟨.share part (s.placing part), ringOff e⟩ 8 v =
      ((s.setMem (.share part (s.placing part)) ((s.mem (.share part (s.placing part))).write (ringOff e) 8 v)).fire
        ⟨.share part (s.placing part), ringOff e⟩ 8).afterStore part (s.placing part) (ringOff e) 8 := by
  have low : ¬(queueOff ≤ ringOff e) := by unfold queueOff ringOff; omega
  have kept : reservedOff (ringOff e) = false := by
    unfold reservedOff ringOff
    simp only [Bool.or_eq_false_iff, Bool.and_eq_false_iff, decide_eq_false_iff_not]
    omega
  unfold State.writeLoc
  simp [low, kept]

theorem shareMem_setShareMem (l : List ((Nat × Nat) × Memory)) (a : Nat × Nat) (m : Memory) : shareMem (setShareMem l a m) a = m := by
  induction l with
  | nil => simp [setShareMem, shareMem]
  | cons x l ih =>
    simp only [setShareMem]
    split
    · next e => simp [shareMem, e]
    · next ne => simp [shareMem, ne, ih]

/-- The effects of a store in its cc are still to come. -/
theorem State.afterStore_urgent (s : State) (p k off n : Nat) :
    s.afterStore p k off n = { s with urgent := (s.afterStore p k off n).urgent } := by
  unfold State.afterStore
  split
  · rfl
  · split
    · rfl
    · dsimp only
      split_ifs <;> rfl

/-- After a store of 0 to the first word of a ring entry it reads 0; replies, threads and partitions are as before. -/
theorem State.clearRing_eq (s : State) (part e : Nat) (lt : e < 256) :
    let s' := s.pipeWrite part (ringOff e) [0]
    s'.replies = s.replies ∧ s'.threads = s.threads ∧ s'.parts = s.parts ∧
      (s'.mem (.share part (s.placing part))).read (ringOff e) 8 = 0 := by
  have run : s.pipeWrite part (ringOff e) [0] = s.writeLoc ⟨.share part (s.placing part), ringOff e⟩ 8 0 := rfl
  intro s'
  unfold s'
  rw [run, State.writeLoc_ringEntry s part e 0 lt, State.afterStore_urgent]
  refine ⟨rfl, rfl, rfl, ?_⟩
  change (shareMem (setShareMem _ _ _) _).read _ _ = _
  rw [shareMem_setShareMem, Memory.read_write_same]
  rfl

/-- With no caller parked a free entry stays free. -/
theorem State.serveRing_of_quiet {s : State} {part : Nat} {p : Partition} (found : s.part part = some p) (quiet : p.ringWait = []) :
    s.serveRing part = s := by
  simp only [State.serveRing, found, quiet]

/-- The state after a ring entry of the partition p has been freed and its STATE cleared. -/
def State.freedEntry (s : State) (part : Nat) (p : Partition) (e : Nat) : State :=
  (s.setPart part { p with ring := p.ring.drop e }).pipeWrite part (ringOff e) [0]

theorem State.freedEntry_eq {s : State} {part e : Nat} (p : Partition) (lt : e < 256) :
    (s.freedEntry part p e).replies = s.replies ∧ (s.freedEntry part p e).threads = s.threads ∧
      (s.freedEntry part p e).part part = some { p with ring := p.ring.drop e } ∧
      ((s.freedEntry part p e).mem (.share part p.placing)).read (ringOff e) 8 = 0 := by
  have freed : (s.setPart part { p with ring := p.ring.drop e }).part part = some { p with ring := p.ring.drop e } :=
    State.part_setPart_same ..
  have placing : (s.setPart part { p with ring := p.ring.drop e }).placing part = p.placing := by
    rw [State.placing, freed]
    rfl
  obtain ⟨replies, threads, parts, cleared⟩ := (s.setPart part { p with ring := p.ring.drop e }).clearRing_eq part e lt
  rw [placing] at cleared
  exact ⟨replies, threads, (congrArg (Map.look · part) parts).trans freed, cleared⟩

/-- The reply that brings a caller G1 and G2 of its ring entry. -/
def callReply (m : Memory) (e tid : Nat) : Reply :=
  { tid := tid, writes := [(1, BitVec.ofNat 64 (m.read (ringOff e + 24) 8)), (2, BitVec.ofNat 64 (m.read (ringOff e + 32) 8))] }

theorem execSyscallComplete_eq {s : State} {part e tid : Nat} {p : Partition} {t : Thread} (found : s.part part = some p)
    (entry : p.ring.look e = some tid) (lt : e < 256) (quiet : p.ringWait = []) (thread : s.thread tid = some t)
    (block : t.block = .reply .sysc) (done : (s.mem (.share part p.placing)).read (ringOff e) 8 = 2) :
    execSyscallComplete part e s = .next ((s.freedEntry part p e).reply (callReply (s.mem (.share part p.placing)) e tid)) := by
  obtain ⟨-, threads, freed, -⟩ := State.freedEntry_eq (s := s) (part := part) p lt
  have waits : (s.freedEntry part p e).thread tid = some t := (congrArg (Map.look · tid) threads).trans thread
  unfold State.freedEntry at waits freed ⊢
  simp only [execSyscallComplete, found, entry, done, ne_eq, not_true_eq_false, if_false, waits, block, if_true]
  rw [State.serveRing_of_quiet (s := State.reply _ _) freed quiet]
  rfl

theorem syscallCompletes : SyscallCompletes := by
  intro s part e tid p t found entry lt quiet thread block m done
  obtain ⟨replies, -, freed, cleared⟩ := State.freedEntry_eq (s := s) (part := part) p lt
  exact ⟨_, execSyscallComplete_eq found entry lt quiet thread block done, ⟨_, freed, rfl⟩, cleared,
    congrArg (· ++ [callReply m e tid]) replies⟩

/-! ### The fault queue (R300) -/

/-- With nobody waiting at it a queue serves nobody. -/
theorem State.qRun_of_idle {s : State} {part q : Nat} (putters : (s.queue part q).putters = []) (getters : (s.queue part q).getters = []) :
    ∀ n, State.qRun n s part q = s
  | 0 => rfl
  | n + 1 => by
    unfold State.qRun
    dsimp only
    rw [putters, getters]

/-- An item that a unit puts. -/
def Queue.put (x : Queue) (item : Word) : Queue := { x with items := x.items ++ [item], senders := x.senders ++ [2 ^ 18] }

/-- A unit's item goes to the tail of an open queue with room at which nobody waits. -/
theorem State.qPush_of_idle {s : State} {part q : Nat} {p : Partition} (item : Word) (found : s.part part = some p)
    (live : (p.queue q).live = true) (opened : (p.queue q).closed = false) (room : (p.queue q).items.length < (p.queue q).depth)
    (putters : (p.queue q).putters = []) (getters : (p.queue q).getters = []) :
    ∃ s', s.qPush part q item = some s' ∧ s'.part part = some { p with queues := p.queues.put q ((p.queue q).put item) } := by
  have here : s.queue part q = p.queue q := by rw [State.queue, found]
  have put : (s.modQueue part q (·.put item)).part part = some { p with queues := p.queues.put q ((p.queue q).put item) } :=
    State.part_modPart_same found _
  have queued : (s.modQueue part q (·.put item)).queue part q = (p.queue q).put item := by
    rw [State.queue, put]
    exact congrArg (fun x => Option.getD x {}) (Map.look_put_same p.queues q _)
  have idle : (s.modQueue part q (·.put item)).qServe part q = s.modQueue part q (·.put item) :=
    State.qRun_of_idle (by rw [queued]; exact putters) (by rw [queued]; exact getters) _
  refine ⟨s.modQueue part q (·.put item), ?_, put⟩
  unfold State.qPush
  rw [here, if_pos (by simp [live, opened, room])]
  exact congrArg some idle

theorem faultQueuePut : FaultQueuePut := by
  intro s part f q l p found due queue opened room live putters getters
  obtain ⟨s1, pushed, put⟩ := State.qPush_of_idle (BitVec.ofNat 64 f) found live opened room putters getters
  have run : exec (.faultQueuePut part) s = .next (s1.modPart part fun p => { p with faultPut := l }) := by
    change execFaultQueuePut part s = _
    simp only [execFaultQueuePut, found, queue, due, pushed]
  refine ⟨_, run, _, State.part_modPart_same put _, rfl, ?_⟩
  exact congrArg (fun x => (Option.getD x {}).items) (Map.look_put_same p.queues q _)

/-! ### Replies (R85, R252) -/

theorem State.deliver_of_trap {s : State} {r : Reply} {t : Thread} {i : TrapInfo} (thread : s.thread r.tid = some t) (trap : r.trap = some i) :
    s.deliver r =
      s.trapAt r.tid { t with block := .none, walkRes := none, noMig := false, readyAt := s.cc + 1 } i t.pc r.insn false := by
  rw [State.deliver, thread]
  dsimp only
  rw [trap]

/-- What a thread has when a reply has come: the registers that it carries, and what it holds. -/
def Reply.carried (r : Reply) (t : Thread) : Thread := { t.wrs r.writes with held := r.held.or t.held }

theorem State.deliver_of_no_trap {s : State} {r : Reply} {t : Thread} (thread : s.thread r.tid = some t) (trap : r.trap = none) :
    s.deliver r = s.complete r.tid r.entry r.carried := by
  have held : (fun t : Thread => { t.wrs r.writes with held := match r.held with | some h => some h | none => t.held }) = r.carried := by
    funext t
    unfold Reply.carried
    cases r.held <;> rfl
  rw [State.deliver, thread]
  dsimp only
  rw [trap]
  exact congrArg (s.complete r.tid r.entry) held

/-- A reply without a trap completes the instruction of its thread, and neither replies nor wakes change. -/
theorem State.deliver_answers {s : State} {r : Reply} {t : Thread} (thread : s.thread r.tid = some t) (trap : r.trap = none) :
    (s.deliver r).replies = s.replies ∧ (s.deliver r).wakes = s.wakes ∧ (s.deliver r).thread r.tid = some ((r.carried t).completed s.cc) := by
  rw [State.deliver_of_no_trap thread trap]
  obtain ⟨frame, left⟩ := State.complete_answers thread r.entry r.carried
  exact ⟨frame.replies_eq, frame.wakes_eq, left⟩

theorem repliesComplete : RepliesComplete := by
  intro s tid r t thread rfl
  refine ⟨fun found => ⟨fun trap => ?_, fun i trap => ?_⟩, fun found trap => ?_⟩
  · have run : exec (.replyArrival r.tid) s = .next (State.deliver { s with replies := s.replies.erase r } r) := by
      change execReplyArrival r.tid s = _
      rw [execReplyArrival, found]
    obtain ⟨replies, -, left⟩ := State.deliver_answers (s := { s with replies := s.replies.erase r }) thread trap
    exact ⟨_, run, replies, left⟩
  · change execReplyArrival r.tid s = _
    rw [execReplyArrival, found]
    dsimp only
    rw [State.deliver_of_trap (s := { s with replies := s.replies.erase r }) thread trap]
  · have run : exec (.waitwWake r.tid) s = .next (State.deliver { s with wakes := s.wakes.erase r } r) := by
      change execWaitwWake r.tid s = _
      rw [execWaitwWake, found]
    obtain ⟨-, wakes, left⟩ := State.deliver_answers (s := { s with wakes := s.wakes.erase r }) thread trap
    exact ⟨_, run, wakes, left⟩

/-! ### Pending traps (R228, R274, R298) -/

/-- Entry to a user-level handler by an asynchronous trap: the resume address is the pc, AFTER is 1. -/
theorem Thread.enter_entered (t : Thread) (h tpc tval : Word) (code sub : Nat) (insn : BitVec 32) (after : Bool) (hc : code < 256)
    (hs : sub < 256) (r : Running) :
    t.entered (t.enter h tpc (tcauseOf code sub false) tval (tstat2Of insn after) r) h tpc code sub tval insn after := by
  refine ⟨rfl, rfl, rfl, ?_, rfl, ?_, rfl, rfl, rfl, rfl, rfl, rfl, rfl, rfl⟩
  · change tcauseOf code sub false = _
    rw [tcauseOf, Nat.mod_eq_of_lt hc, Nat.mod_eq_of_lt hs, bit_mul, if_neg Bool.false_ne_true, Nat.add_zero]
  · change tstat2Of insn after = _
    rw [tstat2Of, bit_mul]

section
variable {s : State} {tid : Nat} {t : Thread} {l : List Pending} (thread : s.thread tid = some t) (ready : s.ready tid t = true)
  (user : t.ut = false)
include thread ready user

theorem execCopydone_eq {id h : Word} (pend : t.pend = .copydone id h :: l) : execCopydone tid s =
    .next (s.setThread tid (if h = 0 then { t with pend := l }
      else ({ t with pend := l } : Thread).enter h t.pc (tcauseOf 1 0 false) id (tstat2Of 0 true) .other)) := by
  have due : s.pendDue tid t = true := by simp [State.pendDue, ready, user, pend]
  simp only [execCopydone, thread, due, pend, Bool.not_true, Bool.false_eq_true, if_false]
  split <;> rfl

theorem execChildfault_eq {v : Word} (pend : t.pend = .childfault v :: l) : execChildfault tid s =
    .next (s.setThread tid (if t.handler = 0 then { t with pend := l }
      else ({ t with pend := l } : Thread).enter t.handler t.pc (tcauseOf 5 0 false) v (tstat2Of 0 true) .other)) := by
  have due : s.pendDue tid t = true := by simp [State.pendDue, ready, user, pend]
  have same : ({ t with pend := l } : Thread).handler = t.handler := rfl
  simp only [execChildfault, thread, due, pend, Bool.not_true, Bool.false_eq_true, if_false, same]
  split <;> rfl

end

theorem pendingTrapsTaken : PendingTrapsTaken := by
  intro s tid t l thread ready user
  refine ⟨fun id h pend => ⟨fun none => ?_, fun some => ?_⟩, fun v pend => ⟨fun none => ?_, fun some => ?_⟩⟩
  · exact (execCopydone_eq thread ready user pend).trans (by rw [if_pos none])
  · exact ⟨_, (execCopydone_eq thread ready user pend).trans (by rw [if_neg some]), rfl,
      Thread.enter_entered { t with pend := l } h t.pc id 1 0 0 true (by decide) (by decide) .other⟩
  · exact (execChildfault_eq thread ready user pend).trans (by rw [if_pos none])
  · exact ⟨_, (execChildfault_eq thread ready user pend).trans (by rw [if_neg some]), rfl,
      Thread.enter_entered { t with pend := l } t.handler t.pc v 5 0 0 true (by decide) (by decide) .other⟩

/-- Settles O25: the parts are `systemCallForms`, `syscallCompletes`, `faultQueuePut`, `repliesComplete` and `pendingTrapsTaken`. -/
theorem systemCalls : Obligations.SystemCalls :=
  ⟨systemCallForms, syscallCompletes, faultQueuePut, repliesComplete, pendingTrapsTaken⟩

/-! ### Couches (R78, R79, R315) -/

/-- The model's check of R78 is what R78 says. -/
theorem coucheValid_iff (c : List (Option Nat)) : coucheValid c = true ↔ coucheLegal c := by
  simp only [coucheValid, coucheLegal, Bool.and_eq_true, List.all_eq_true, Bool.or_eq_true, Option.isNone_iff_eq_none, bne_iff_ne,
    decide_eq_true_eq]
  refine and_congr_left' ⟨fun h p d hp low high => h p (mem_numsFrom.mpr hp) d ?_, fun h p hp d hd => ?_⟩
  · rw [numsFrom_eq_range', List.mem_range'_1]
    omega
  · rw [numsFrom_eq_range', List.mem_range'_1] at hd
    exact h p d (mem_numsFrom.mp hp) hd.1 (by omega)

/-- An operand that lies wholly in the own LM. -/
theorem State.ownLm_of_window {s : State} {part core off n al : Nat} {va : Word} (window : s.window part core va = some (.lm core off))
    (fits : off + n ≤ 2 ^ 18) (aligned : off % al = 0) : s.ownLm part core va n al = some off := by
  unfold State.ownLm
  rw [window]
  exact if_pos ⟨rfl, fits, aligned⟩

/-- Bytes of the own LM that no range of another engine and no poison covers are read at once. -/
theorem State.lmAccess_of_free {s : State} {t : Thread} {va : Word} {n al off : Nat} {write : Bool} {k : State → Nat → Out}
    (own : s.ownLm t.part (coreOf s.cur) va n al = some off)
    (free : ∀ i < n / 8, s.locked (.lm (coreOf s.cur)) (off + 8 * i) 8 write = false ∧ s.isPoisoned (coreOf s.cur) (off + 8 * i) = false) :
    s.lmAccess t va n al write k = k (s.sig (coreOf s.cur) 31) off := by
  have unlocked : (numsFrom 0 (n / 8)).find? (fun i => s.locked (.lm (coreOf s.cur)) (off + 8 * i) 8 write) = none :=
    List.find?_eq_none.mpr fun i hi => by simp [(free i (mem_numsFrom.mp hi)).1]
  have clean : (numsFrom 0 (n / 8)).find? (fun i => s.isPoisoned (coreOf s.cur) (off + 8 * i)) = none :=
    List.find?_eq_none.mpr fun i hi => by simp [(free i (mem_numsFrom.mp hi)).2]
  unfold State.lmAccess
  rw [own]
  dsimp only
  rw [unlocked]
  dsimp only
  rw [clean]

theorem State.stage_eq (s : State) (core n : Nat) {image : List Nat} {c : List (Option Nat)} (couche : coucheOf image = some c) :
    s.stage core image n = s.stagedAt core c ((n + 1) % 65536) := by
  unfold State.stage State.stagedAt
  rw [couche]
  rfl

/-- A core that the thread may give a couche: one of its partition, or any for monitor privilege. -/
def State.mayStage (s : State) (t : Thread) (core : Nat) : Bool :=
  t.priv == 2 || (s.part t.part).any (·.hasCore core)

theorem State.mayStage_iff (s : State) (t : Thread) (core : Nat) :
    s.mayStage t core = true ↔ t.priv = 2 ∨ ∃ p, s.part t.part = some p ∧ p.hasCore core = true := by
  simp [State.mayStage, Option.any_eq_true]

/-- What cch does with the image that it has read (R315). -/
def State.cchImage (s : State) (t : Thread) (b d : GReg) (image : List Nat) : Out :=
  let target := bits (t.rd b) 0 14
  (coucheOf image).elim (s.write t d 1 0) fun c =>
    if !coucheValid c then s.write t d 1 0
    else if !s.mayStage t target then s.write t d 3 0
    else if target = coreOf s.cur then (s.stage target image (bits (t.rd b) 16 16)).write t d 0 0
    else s.request t (.lm target) ⟨.lm target, 0⟩ (.op 0 true image) (t.rd b) .unit

section
variable {s : State} {t : Thread} (thread : s.thread s.cur = some t) {a b d : GReg}
include thread

/-- cch where its thread is: the privilege, then the image. -/
theorem execCch_of_leaving (leaving : ∀ l, ¬t.there l) : exec (.cch a b d) s =
    if t.priv < 1 then s.priv t
    else s.lmAccess t (t.rd a) 32 32 false fun s off =>
      s.cchImage t b d ((numsFrom 0 32).map fun k => ((s.mem (.lm (coreOf s.cur))).byte (off + k)).toNat) := by
  change execCch a b d s = _
  rw [execCch, State.onThread_eq thread]
  dsimp only
  split
  · next block => exact absurd ⟨_, _, _, _, block⟩ (leaving _)
  · refine if_congr Iff.rfl rfl (congrArg _ ?_)
    funext s off
    unfold State.cchImage State.mayStage
    dsimp only
    cases s.part t.part <;> cases coucheOf _ <;> rfl

/-- cch at its target stages the couche and answers 0. -/
theorem execCch_of_there {image : List Nat} (there : t.there image) : exec (.cch a b d) s =
    (s.stage (bits (t.rd b) 0 14) image (bits (t.rd b) 16 16)).answer t .unit [(d.val, 0)] := by
  obtain ⟨p, l, h, w, block⟩ := there
  change execCch a b d s = _
  rw [execCch, State.onThread_eq thread]
  dsimp only
  rw [block]

end

/-- cch reads its 32 bytes of own LM where no range and no poison covers them. -/
theorem execCch_of_free {s : State} {t : Thread} {a b d : GReg} {off : Nat} (thread : s.thread s.cur = some t)
    (leaving : ∀ l, ¬t.there l) (priv : 1 ≤ t.priv) (own : s.ownLm t.part (coreOf s.cur) (t.rd a) 32 32 = some off)
    (free : ∀ k < 4, s.locked (.lm (coreOf s.cur)) (off + 8 * k) 8 false = false ∧ s.isPoisoned (coreOf s.cur) (off + 8 * k) = false) :
    exec (.cch a b d) s = (s.sig (coreOf s.cur) 31).cchImage t b d
      ((numsFrom 0 32).map fun k => ((s.mem (.lm (coreOf s.cur))).byte (off + k)).toNat) := by
  rw [execCch_of_leaving thread leaving, if_neg (by omega), State.lmAccess_of_free own free]
  rfl

section
variable {s : State} {t : Thread} {b d : GReg} {image : List Nat} {c : List (Option Nat)}

theorem State.cchImage_of_broken (broken : coucheOf image = none) : s.cchImage t b d image = s.write t d 1 0 := by
  simp only [State.cchImage, broken, Option.elim_none]

theorem State.cchImage_of_illegal (couche : coucheOf image = some c) (illegal : ¬coucheLegal c) :
    s.cchImage t b d image = s.write t d 1 0 := by
  simp [State.cchImage, couche, coucheValid_iff, illegal]

/-- A couche that obeys R78: whether the thread may give it to the core, and whether that is its own. -/
theorem State.cchImage_of_legal (couche : coucheOf image = some c) (legal : coucheLegal c) : s.cchImage t b d image =
    if !s.mayStage t ((t.rd b).toNat % 2 ^ 14) then s.write t d 3 0
    else if (t.rd b).toNat % 2 ^ 14 = coreOf s.cur then
      (s.stage ((t.rd b).toNat % 2 ^ 14) image ((t.rd b).toNat / 2 ^ 16 % 2 ^ 16)).write t d 0 0
    else s.request t (.lm ((t.rd b).toNat % 2 ^ 14)) ⟨.lm ((t.rd b).toNat % 2 ^ 14), 0⟩ (.op 0 true image) (t.rd b) .unit := by
  simp only [State.cchImage, couche, Option.elim_some, bits_zero, (coucheValid_iff c).mpr legal, Bool.not_true, Bool.false_eq_true,
    if_false]
  rfl

theorem State.cchImage_of_foreign (couche : coucheOf image = some c) (legal : coucheLegal c)
    (foreign : s.mayStage t ((t.rd b).toNat % 2 ^ 14) = false) : s.cchImage t b d image = s.write t d 3 0 := by
  rw [State.cchImage_of_legal couche legal, foreign]
  rfl

theorem State.cchImage_of_own (couche : coucheOf image = some c) (legal : coucheLegal c)
    (may : s.mayStage t ((t.rd b).toNat % 2 ^ 14) = true) (own : (t.rd b).toNat % 2 ^ 14 = coreOf s.cur) : s.cchImage t b d image =
      (s.stagedAt (coreOf s.cur) c (((t.rd b).toNat / 2 ^ 16 % 2 ^ 16 + 1) % 65536)).write t d 0 0 := by
  rw [State.cchImage_of_legal couche legal, may, if_pos own, State.stage_eq _ _ _ couche, own]
  rfl

theorem State.cchImage_of_other (couche : coucheOf image = some c) (legal : coucheLegal c)
    (may : s.mayStage t ((t.rd b).toNat % 2 ^ 14) = true) (other : (t.rd b).toNat % 2 ^ 14 ≠ coreOf s.cur) : s.cchImage t b d image =
      s.request t (.lm ((t.rd b).toNat % 2 ^ 14)) ⟨.lm ((t.rd b).toNat % 2 ^ 14), 0⟩ (.op 0 true image) (t.rd b) .unit := by
  rw [State.cchImage_of_legal couche legal, may, if_neg other]
  rfl

end

/-! ### Barrier 63 at the start of a cc (R241, R315) -/

/-- The barriers of every core are those of s. -/
def State.barsAs (s s' : State) : Prop := ∀ c, (s'.core c).bars = (s.core c).bars

section
variable {s s' : State} (h : s.barsAs s')
include h

theorem State.barsAs.modCore {core : Nat} {f : Core → Core} (bars : ∀ k, (f k).bars = k.bars) : s.barsAs (s'.modCore core f) := by
  intro c
  by_cases e : c = core
  · subst e
    rw [State.core_modCore_same, bars, h]
  · rw [State.core_modCore_ne _ _ e, h]

theorem State.barsAs.modThread {tid : Nat} {f : Thread → Thread} : s.barsAs (s'.modThread tid f) := fun c => by
  rw [State.core_modThread, h]

theorem State.barsAs.setThread {tid : Nat} {t : Thread} : s.barsAs (s'.setThread tid t) := h

theorem State.barsAs.noteMeter {core : Nat} {m : Meter} : s.barsAs (s'.noteMeter core m) := h

theorem State.barsAs.freeLocks {core uid : Nat} : s.barsAs (s'.freeLocks core uid) := h.modCore fun _ => rfl

theorem State.barsAs.accrue {core o n : Nat} : s.barsAs (s'.accrue core o n) := by
  unfold State.accrue
  dsimp only
  split
  · split
    · refine State.barsAs.noteMeter ?_
      exact State.barsAs.modCore h fun _ => rfl
    · exact h
  · exact h

theorem State.barsAs.retire {tid e : Nat} : s.barsAs (s'.retire tid e) := by
  unfold State.retire State.retireN State.charge State.noteRetired
  split
  · split
    · exact h.accrue.modCore fun _ => rfl
    · exact h
  · exact h

theorem State.barsAs.complete {tid e : Nat} {f : Thread → Thread} : s.barsAs (s'.complete tid e f) := by
  unfold State.complete
  split
  · exact h.setThread.retire
  · exact h

theorem State.barsAs.foldl {α : Type} {f : State → α → State} {l : List α} (step : ∀ {s' x}, s.barsAs s' → s.barsAs (f s' x)) :
    s.barsAs (l.foldl f s') := by
  induction l generalizing s' with
  | nil => exact h
  | cons x l ih => exact ih (step h)

theorem State.barsAs.sweepMeters {core : Nat} : s.barsAs (s'.sweepMeters core) := by
  unfold State.sweepMeters
  extract_lets gone s1
  have noted : s.barsAs s1 := h.foldl fun h => by
    split
    · exact h.noteMeter
    · exact h
  split
  · exact noted
  · exact noted.modCore fun _ => rfl

theorem State.barsAs.setMem {sp : Space} {m : Memory} : s.barsAs (s'.setMem sp m) := by
  cases sp with
  | lm c => exact h.modCore fun _ => rfl
  | share p k => exact h
  | phys n =>
    simp only [State.setMem]
    split
    · exact h
    · split <;> exact h

theorem State.barsAs.park {tid : Nat} {t : Thread} {code sub : Nat} {tval tpc tstat2 : Word} :
    s.barsAs (s'.park tid t code sub tval tpc tstat2) := by
  unfold State.park
  split
  · exact h
  · split
    · exact h
    · exact State.barsAs.setMem (s' := State.setPart _ _ _) h

theorem State.barsAs.serviceTrap {tid : Nat} {t : Thread} {code sub : Nat} {tval tpc tstat2 : Word} :
    s.barsAs (s'.serviceTrap tid t code sub tval tpc tstat2) := by
  unfold State.serviceTrap
  split
  · exact h.park
  · split <;> exact h

theorem State.barsAs.trapAt {tid : Nat} {t : Thread} {i : TrapInfo} {tpc : Word} {insn : BitVec 32} {after : Bool} :
    s.barsAs (s'.trapAt tid t i tpc insn after) := by
  have noted : s.barsAs (s'.noteTrap tid i.code) := by
    unfold State.noteTrap
    split <;> exact h
  unfold State.trapAt
  dsimp only
  split_ifs
  · exact noted.serviceTrap
  · exact noted.serviceTrap
  · exact noted
  · exact noted.serviceTrap

theorem State.barsAs.endBarw {tid : Nat} {d : GReg} {v : Word} {poison : Option Nat} {insn : BitVec 32} :
    s.barsAs (s'.endBarw tid d v poison insn) := by
  unfold State.endBarw
  dsimp only
  split
  · exact h.complete.trapAt
  · exact h.complete

theorem State.barsAs.wakeBarw {cl : Bool} {unit b : Nat} {ph lpois : Bool} {l : List (Nat × Thread)} :
    s.barsAs (Machine.wakeBarw cl unit b ph lpois l s') := by
  induction l generalizing s' with
  | nil => exact h
  | cons q l ih =>
    refine ih ?_
    split
    · split
      · exact h.endBarw
      · exact h
    · exact h

theorem State.barsAs.allThreads {g : Nat → Thread → Thread} : s.barsAs (s'.allThreads g) := h

theorem State.barsAs.sig {core k : Nat} : s.barsAs (s'.sig core k) := h

theorem State.barsAs.discardPoisoned {core b : Nat} : s.barsAs (s'.discardPoisoned core b) := by
  unfold State.discardPoisoned
  dsimp only
  split
  · exact h
  · refine State.barsAs.sweepMeters (State.barsAs.foldl ?_ fun h => h.freeLocks.modThread)
    refine State.barsAs.allThreads ?_
    exact State.barsAs.modCore h fun _ => rfl

end

/-- An arrival leaves its barrier as R241 says, whatever it wakes. -/
theorem State.arriveBar_bar (s : State) (core b : Nat) (poison : Bool) :
    (s.arriveBar core b poison).bar core b = ((s.bar core b).arrive poison).1 := by
  have written : (s.setBar core b ((s.bar core b).arrive poison).1).bar core b = ((s.bar core b).arrive poison).1 := by
    unfold State.bar State.setBar
    rw [State.core_modCore_same, Map.look_put_same]
    rfl
  have same : ∀ {s1 s2 : State}, s1.barsAs s2 → s2.bar core b = s1.bar core b := fun h => by
    rw [State.bar, h]
    rfl
  refine Eq.trans (same ?_) written
  unfold State.arriveBar
  dsimp only
  have refl : (s.setBar core b ((s.bar core b).arrive poison).1).barsAs (s.setBar core b ((s.bar core b).arrive poison).1) := fun _ => rfl
  split
  · refine State.barsAs.wakeBarw (State.barsAs.discardPoisoned ?_)
    refine State.barsAs.allThreads ?_
    refine State.barsAs.modCore ?_ fun _ => rfl
    split
    · exact State.barsAs.modCore refl.sig fun _ => rfl
    · exact refl.sig
  · exact refl

/-- What is laid down leaves the cores as the writes of the units do, and no set of a barrier is left. -/
theorem State.lay_cores (s : State) : s.lay.cores = s.heldDrops.placerWrites.cores ∧ s.lay.sets = [] := by
  unfold State.lay
  dsimp only
  split <;> exact ⟨rfl, rfl⟩

/-- Barrier 63 is set for a couche that has come to its core, and one arrival is applied (R315). -/
def State.setCouche (s : State) (core target : Nat) : State :=
  (s.setBar core 63 { (s.bar core 63).set target with setAt := some s.cc }).arriveBar core 63 false

theorem State.setCouche_bar (s : State) (core target : Nat) : (s.setCouche core target).bar core 63 =
    ((({ phase := (s.bar core 63).phase, target := target, setAt := some s.cc } : Barrier).arrive false).1) := by
  refine (State.arriveBar_bar _ core 63 false).trans ?_
  unfold State.bar State.setBar
  rw [State.core_modCore_same, Map.look_put_same]
  rfl

section
variable {s : State} {core target : Nat} (starts : s.starts = []) (sets : s.sets = [(core, target)]) (drops : s.drops = [])
include starts sets drops

theorem State.lay_cores_of_set : s.lay.cores = (({ s with drops := [] } : State).setCouche core target).cores := by
  have held : s.heldDrops = { s with drops := [] } := by
    unfold State.heldDrops
    rw [drops]
    rfl
  rw [s.lay_cores.1, held]
  unfold State.placerWrites
  dsimp only
  rw [starts, sets]
  rfl

/-- A barrier that a cch has asked for is set and arrived at when the turns of the next cc are laid down. -/
theorem State.lay_bar : s.lay.bar core 63 =
    ((({ phase := (s.bar core 63).phase, target := target, setAt := some s.cc } : Barrier).arrive false).1) := by
  rw [State.bar, State.core_of_cores_eq (State.lay_cores_of_set starts sets drops)]
  exact ({ s with drops := [] } : State).setCouche_bar core target

end

theorem coucheForm : CoucheForm := by
  refine ⟨fun s t a b d off thread =>
      ⟨fun user leaving => ?_, fun priv leaving window fits aligned free => ?_, fun image c there couche => ?_⟩,
    fun s core target urgent turns starts sets drops => ?_⟩
  · rw [execCch_of_leaving thread leaving, if_pos (by omega)]
  · intro image s1
    have run := execCch_of_free (b := b) (d := d) thread leaving priv (State.ownLm_of_window window fits aligned) free
    refine ⟨fun broken => ?_, fun c couche =>
      ⟨fun illegal => ?_, fun legal foreign => ?_, fun legal ours mine => ?_, fun legal ours other => ?_⟩⟩
    · exact State.retiresIn_of_write rfl (run.trans (State.cchImage_of_broken broken))
    · exact State.retiresIn_of_write rfl (run.trans (State.cchImage_of_illegal couche illegal))
    · have refused := Bool.eq_false_iff.mpr fun may => foreign (((s.sig (coreOf s.cur) 31).mayStage_iff t _).mp may)
      exact State.retiresIn_of_write rfl (run.trans (State.cchImage_of_foreign couche legal refused))
    · have may := ((s.sig (coreOf s.cur) 31).mayStage_iff t _).mpr ours
      exact State.retiresIn_of_write rfl (run.trans (State.cchImage_of_own couche legal may mine))
    · have may := ((s.sig (coreOf s.cur) 31).mayStage_iff t _).mpr ours
      exact run.trans (State.cchImage_of_other couche legal may other)
  · rw [execCch_of_there thread there, State.stage_eq _ _ _ couche, bits_zero]
    rfl
  · exact ⟨_, step_of_no_turn urgent turns, congrArg Clock.cc s.lay_clock, s.lay_cores.2, State.lay_bar starts sets drops⟩

theorem coucheComesIntoForce : CoucheComesIntoForce := by
  intro s core c
  refine ⟨fun staged => ?_, fun n staged => ?_⟩
  · change execCoucheInForce core s = _
    simp only [execCoucheInForce, staged]
  · change execCoucheInForce core s = _
    simp only [execCoucheInForce, staged]
    rfl

/-! ### Translations that are dropped (R112, R113, R316) -/

/-- The page of that base and size meets n bytes from lo. -/
def pageMeets (lo n base size : Nat) : Prop := base < lo + n ∧ lo < base + size

/-- In s' the translations of the partition's pages that meet n bytes from lo are gone from every TLB, and their lines from every L1; all
others of s stand. -/
structure State.pagesDropped (s : State) (part lo n : Nat) (s' : State) : Prop where
  cores : ∀ c e, e ∈ (s'.core c).tlb ↔ e ∈ (s.core c).tlb ∧ ¬(e.part = part ∧ pageMeets lo n e.base e.leaf.size)
  clusters : ∀ c e, e ∈ (s'.cluster c).tlb ↔ e ∈ (s.cluster c).tlb ∧ ¬(e.part = part ∧ pageMeets lo n e.base e.leaf.size)
  lines : ∀ c x, x ∈ (s'.core c).l1 ↔ x ∈ (s.core c).l1 ∧ ∀ q ∈ x.pages, ¬(q.1 = part ∧ pageMeets lo n q.2.1 q.2.2)

/-- The model's test of a page and its partition. -/
theorem meets_iff (part lo n p base size : Nat) :
    (p == part && (decide (base < lo + n) && decide (lo < base + size))) = true ↔ p = part ∧ pageMeets lo n base size := by
  simp [pageMeets]

/-- What is kept of a TLB where pages are dropped. -/
def keptTlb (part lo n : Nat) (l : List TlbEntry) : List TlbEntry :=
  l.filter fun e => !(e.part == part && (decide (e.base < lo + n) && decide (lo < e.base + e.leaf.size)))

/-- What is kept of an L1 where pages are dropped. -/
def keptLines (part lo n : Nat) (l : List Line) : List Line :=
  l.filter fun x => x.pages.all fun q => q.1 != part || !(decide (q.2.1 < lo + n) && decide (lo < q.2.1 + q.2.2))

theorem mem_keptTlb {part lo n : Nat} {l : List TlbEntry} {e : TlbEntry} :
    e ∈ keptTlb part lo n l ↔ e ∈ l ∧ ¬(e.part = part ∧ pageMeets lo n e.base e.leaf.size) := by
  rw [keptTlb, List.mem_filter, Bool.not_eq_true', Bool.eq_false_iff, Ne, meets_iff]

theorem mem_keptLines {part lo n : Nat} {l : List Line} {x : Line} :
    x ∈ keptLines part lo n l ↔ x ∈ l ∧ ∀ q ∈ x.pages, ¬(q.1 = part ∧ pageMeets lo n q.2.1 q.2.2) := by
  simp only [keptLines, List.mem_filter, List.all_eq_true, ← meets_iff, bne, ← Bool.not_and, Bool.not_eq_true', Bool.not_eq_true]

theorem State.core_dropPages (s : State) (part lo n c : Nat) : (s.dropPages part lo n).core c =
    { s.core c with tlb := keptTlb part lo n (s.core c).tlb, l1 := keptLines part lo n (s.core c).l1 } := by
  unfold State.core State.dropPages
  dsimp only
  rw [Map.look_over]
  cases s.cores.look c <;> rfl

theorem State.cluster_dropPages (s : State) (part lo n c : Nat) : (s.dropPages part lo n).cluster c =
    { s.cluster c with tlb := keptTlb part lo n (s.cluster c).tlb } := by
  unfold State.cluster State.dropPages
  dsimp only
  rw [Map.look_over]
  cases s.clusters.look c <;> rfl

theorem State.dropPages_dropped (s : State) (part lo n : Nat) : s.pagesDropped part lo n (s.dropPages part lo n) := by
  refine ⟨fun c e => ?_, fun c e => ?_, fun c x => ?_⟩
  · rw [State.core_dropPages]
    exact mem_keptTlb
  · rw [State.cluster_dropPages]
    exact mem_keptTlb
  · rw [State.core_dropPages]
    exact mem_keptLines

/-- What the retirement of an instruction or its waiting changes are no translations and no lines. -/
theorem State.pagesDropped.elsewhere {s s1 s' : State} {part lo n : Nat} (h : s.pagesDropped part lo n s1) (frame : s1.elsewhere s') :
    s.pagesDropped part lo n s' := by
  have tlb : ∀ c, (s'.core c).tlb = (s1.core c).tlb := fun c => by
    have same := congrArg Core.tlb (frame.cores c)
    exact same
  have l1 : ∀ c, (s'.core c).l1 = (s1.core c).l1 := fun c => by
    have same := congrArg Core.l1 (frame.cores c)
    exact same
  have clusters : ∀ c, s'.cluster c = s1.cluster c := fun c => by rw [State.cluster, frame.clusters_eq]; rfl
  refine ⟨fun c e => ?_, fun c e => ?_, fun c x => ?_⟩
  · rw [tlb]
    exact h.cores c e
  · rw [clusters]
    exact h.clusters c e
  · rw [l1]
    exact h.lines c x

/-- No access of the partition to those pages is on its way to a home: neither a parcel nor a granted beat of a copy. -/
def State.homesFree (s : State) (part lo n : Nat) : Prop :=
  (∀ p ∈ s.parcels, p.part = part → (∃ h, p.place = .home h) → ¬pageMeets lo n p.page.1 p.page.2) ∧
  ∀ c ∈ s.cores, ∀ k ∈ c.2.chans, ∀ x, k.cur = some x → x.part = part → ∀ f ∈ x.flights, f.granted = true →
    ∀ h, f.home = some h → ¬pageMeets lo n h.2.1 h.2.2

theorem pageQuiet_iff (lo n base size : Nat) :
    (!(decide (base < lo + n) && decide (lo < base + size))) = true ↔ ¬pageMeets lo n base size := by
  simp [pageMeets, imp_iff_not_or]

/-- The model's test of a parcel. -/
theorem parcelQuiet_iff (part lo n : Nat) (p : Parcel) :
    (match p.place with
      | .home _ => p.part != part || !(decide (p.page.1 < lo + n) && decide (lo < p.page.1 + p.page.2))
      | _ => true) = true ↔ (p.part = part → (∃ h, p.place = .home h) → ¬pageMeets lo n p.page.1 p.page.2) := by
  cases p.place with
  | home h =>
    rw [Bool.or_eq_true, pageQuiet_iff, bne_iff_ne]
    simp [imp_iff_not_or]
  | _ => simp

/-- The model's test of a beat of a copy. -/
theorem flightQuiet_iff (lo n : Nat) (f : Flight) :
    (match f.home with
      | some h => !f.granted || !(decide (h.2.1 < lo + n) && decide (lo < h.2.1 + h.2.2))
      | none => true) = true ↔ (f.granted = true → ∀ h, f.home = some h → ¬pageMeets lo n h.2.1 h.2.2) := by
  cases f.home with
  | none => simp
  | some h =>
    rw [Bool.or_eq_true, pageQuiet_iff, Bool.not_eq_true']
    simp only [Option.some.injEq, forall_eq']
    rw [imp_iff_not_or, Bool.not_eq_true]

theorem State.homesQuiet_iff (s : State) (part lo n : Nat) : s.homesQuiet part lo n = true ↔ s.homesFree part lo n := by
  unfold State.homesQuiet State.homesFree
  dsimp only
  rw [Bool.and_eq_true, List.all_eq_true, List.all_eq_true]
  refine and_congr (forall₂_congr fun p _ => parcelQuiet_iff part lo n p) (forall₂_congr fun c _ => ?_)
  rw [List.all_eq_true]
  refine forall₂_congr fun k _ => ?_
  cases k.cur with
  | none => simp
  | some x =>
    simp only [Option.some.injEq, forall_eq']
    rw [Bool.or_eq_true, bne_iff_ne, List.all_eq_true]
    exact imp_iff_not_or.symm.trans (imp_congr_right fun _ => forall₂_congr fun f _ => flightQuiet_iff lo n f)

/-- Dropping translations moves no access. -/
theorem State.homesQuiet_dropPages (s : State) (part lo n : Nat) : (s.dropPages part lo n).homesQuiet part lo n = s.homesQuiet part lo n := by
  unfold State.homesQuiet State.dropPages Map.over
  simp only [List.all_map, Function.comp_def]

section
variable {s : State} {t : Thread} {lo n : Nat}

/-- What is dropped where the form is presented first; it retires if no access is on its way, and else waits. -/
theorem State.tlbiForm_first (waited : t.waited .all) (block : t.block = .none) :
    s.tlbiForm t lo n = if s.homesQuiet t.part lo n then (s.dropPages t.part lo n).finish t 0
      else (s.dropPages t.part lo n).await t (.homed t.part lo n) := by
  unfold State.tlbiForm
  rw [block]
  dsimp only
  rw [State.release_of_waited waited, State.homesQuiet_dropPages]

theorem State.tlbiForm_again {w : BitVec 32} (block : t.block = .await (.homed t.part lo n) w) :
    s.tlbiForm t lo n = (s.dropPages t.part lo n).finish t 0 := by
  unfold State.tlbiForm
  rw [block]

/-- The pages are dropped and the form retires. -/
theorem State.dropFinish_answers (s : State) (t : Thread) (lo n : Nat) :
    answers ((s.dropPages t.part lo n).finish t 0) fun s' =>
      s.pagesDropped t.part lo n s' ∧ s'.thread s.cur = some (t.retired (t.pc + 4)) := by
  obtain ⟨s', run, frame, retired⟩ := (s.dropPages t.part lo n).finish_answers t 0
  exact ⟨s', run, (s.dropPages_dropped t.part lo n).elsewhere frame, retired⟩

/-- The pages are dropped and the form waits. -/
theorem State.dropAwait_answers (s : State) (t : Thread) (lo n : Nat) (c : Cond) :
    answers ((s.dropPages t.part lo n).await t c) fun s' =>
      s.pagesDropped t.part lo n s' ∧ s'.thread s.cur = some { t.issued with block := .await c s.ir } :=
  ⟨_, rfl, (s.dropPages_dropped t.part lo n).elsewhere (State.elsewhere_setThread _ _), State.thread_setThread_same _ _ _⟩

end

section
variable {s : State} {t : Thread} (thread : s.thread s.cur = some t) {a : GReg}
include thread

theorem tlbForm_of_user (user : t.priv = 0) : exec (.tlbi a) s = s.priv t ∧ exec .tlbiAll s = s.priv t := by
  constructor
  · change execTlbi a s = _
    rw [execTlbi, State.onThread_eq thread, if_pos (by omega)]
  · change execTlbiAll s = _
    rw [execTlbiAll, State.onThread_eq thread, if_pos (by omega)]

/-- Both forms are one, on what they name. -/
theorem tlbForm_eq (priv : 1 ≤ t.priv) {i : Instr} {lo n : Nat}
    (form : (i, lo, n) ∈ [(Instr.tlbi a, (t.rd a).toNat, 1), (.tlbiAll, 0, 2 ^ 63)]) : exec i s = s.tlbiForm t lo n := by
  simp only [List.mem_cons, Prod.mk.injEq, List.not_mem_nil, or_false] at form
  obtain ⟨rfl, rfl, rfl⟩ | ⟨rfl, rfl, rfl⟩ := form
  · change execTlbi a s = _
    rw [execTlbi, State.onThread_eq thread, if_neg (by omega)]
  · change execTlbiAll s = _
    rw [execTlbiAll, State.onThread_eq thread, if_neg (by omega)]

end

theorem tlbForms : TlbForms := by
  intro s t a thread
  refine ⟨fun user => tlbForm_of_user thread user, fun priv i lo n form => ?_⟩
  rw [tlbForm_eq thread priv form]
  refine ⟨fun waited block => ?_, fun w block => ⟨s.homesQuiet_iff t.part lo n, fun _ => ?_⟩⟩
  · rw [State.tlbiForm_first waited block]
    by_cases quiet : s.homesQuiet t.part lo n = true
    · rw [if_pos quiet]
      obtain ⟨s', run, dropped, retired⟩ := s.dropFinish_answers t lo n
      exact ⟨s', run, ⟨dropped.cores, dropped.clusters, dropped.lines⟩, fun _ => retired,
        fun busy => absurd ((s.homesQuiet_iff t.part lo n).mp quiet) busy⟩
    · rw [if_neg quiet]
      obtain ⟨s', run, dropped, waits⟩ := s.dropAwait_answers t lo n (.homed t.part lo n)
      exact ⟨s', run, ⟨dropped.cores, dropped.clusters, dropped.lines⟩,
        fun free => absurd ((s.homesQuiet_iff t.part lo n).mpr free) quiet, fun _ => waits⟩
  · rw [State.tlbiForm_again block]
    obtain ⟨s', run, dropped, retired⟩ := s.dropFinish_answers t lo n
    exact ⟨s', run, ⟨dropped.cores, dropped.clusters, dropped.lines⟩, retired⟩

/-- Settles O26: the forms are assembled from what cch does with the image it reads, what a set and an arrival leave of barrier 63, and
what the drop of a page's translations keeps. -/
theorem couchesAndTranslations : Obligations.CouchesAndTranslations :=
  ⟨coucheForm, coucheComesIntoForce, tlbForms⟩

end Sys2Proof.Machine

end

section

/-! SUPPORT. The family of the memory statements (05_memory.md): the access sequence, loads, stores, atomics and updates, fences and
translations, and what refutes the statements of stores in pantry shares, of update parcels and of migrations. -/

namespace Sys2Proof.Machine

/-! ### What changes the caches alone (R112, R114, R115) -/

/-- s' is s but for the TLBs and the L1s of its cores, and for what the counter cells see of them. -/
structure State.cachesOnly (s s' : State) : Prop where
  rest : { s' with cores := s.cores, signals := s.signals } = s
  cores : ∀ c, { s'.core c with tlb := (s.core c).tlb, l1 := (s.core c).l1 } = s.core c

theorem State.cachesOnly.refl (s : State) : s.cachesOnly s := ⟨rfl, fun _ => rfl⟩

section
variable {s s' : State} (h : s.cachesOnly s')
include h

theorem State.cachesOnly.sig {c k : Nat} : s.cachesOnly (s'.sig c k) := ⟨h.rest, h.cores⟩

theorem State.cachesOnly.modCore {c : Nat} {f : Core → Core}
    (same : ∀ k : Core, { f k with tlb := k.tlb, l1 := k.l1 } = k) : s.cachesOnly (s'.modCore c f) := by
  refine ⟨h.rest, fun d => ?_⟩
  by_cases e : d = c
  · subst e
    rw [State.core_modCore_same]
    have own := congrArg (fun k : Core => { k with tlb := (s.core d).tlb, l1 := (s.core d).l1 }) (same (s'.core d))
    exact own.trans (h.cores d)
  · rw [State.core_modCore_ne _ _ e]
    exact h.cores d

theorem State.cachesOnly.looked {c part va : Nat} : s.cachesOnly (s'.looked c part va) := by
  unfold State.looked
  split
  · refine .sig (h.modCore ?_)
    exact fun _ => rfl
  · exact h

theorem State.cachesOnly.seen {t : Thread} {va : Word} : s.cachesOnly (s'.seen t va) := by
  unfold State.seen
  split
  · exact h.looked
  · exact h

theorem State.cachesOnly.throughL1 {c part : Nat} {page : Nat × Nat} {l : Loc} : s.cachesOnly (s'.throughL1 c part page l) := by
  unfold State.throughL1
  split
  · refine .modCore ?_ fun _ => rfl
    split
    · exact h
    · exact h.sig
  · exact h

theorem State.cachesOnly.reach {t : Thread} {va : Word} {l : Loc} : s.cachesOnly (s'.reach t va l) := by
  unfold State.reach
  split
  · exact h.sig
  · exact h.throughL1

theorem State.cachesOnly.lookedFor {part a : Nat} : s.cachesOnly (s'.lookedFor part a) := by
  unfold State.lookedFor
  dsimp only
  split_ifs
  · exact h.looked
  · exact h.looked.sig
  · exact h.looked.sig.sig

theorem State.cachesOnly.cur_eq : s'.cur = s.cur := (congrArg State.cur h.rest :)
theorem State.cachesOnly.ir_eq : s'.ir = s.ir := (congrArg State.ir h.rest :)
theorem State.cachesOnly.part_eq (p : Nat) : s'.part p = s.part p := (congrArg (fun s => State.part s p) h.rest :)
theorem State.cachesOnly.lm_eq (c : Nat) : (s'.core c).lm = (s.core c).lm := (congrArg Core.lm (h.cores c) :)

theorem State.cachesOnly.readLoc_eq (l : Loc) (n : Nat) : s'.readLoc l n = s.readLoc l n :=
  State.readLoc_congr h.lm_eq (congrArg State.parts h.rest :) (congrArg State.shares h.rest :) (congrArg State.hbm h.rest :)
    (congrArg State.far h.rest :) (congrArg State.host h.rest :) l n

theorem State.cachesOnly.leafReason_eq (p : Nat) (sec : Bool) (k : AccessKind) (l : Leaf) (off : Nat) :
    s'.leafReason p sec k l off = s.leafReason p sec k l off :=
  (congrArg (fun s : State => s.leafReason p sec k l off) h.rest :)

theorem State.cachesOnly.heavy_eq (tid : Nat) : s'.heavy tid = s.heavy tid :=
  (congrArg (fun k : Core => holdsCtx k tid || holdsTile k tid) (h.cores (coreOf tid)) :)

theorem State.cachesOnly.canMeter_eq (core o : Nat) : s'.canMeter core o = s.canMeter core o := by
  have meters : (s'.core core).meters = (s.core core).meters := (congrArg Core.meters (h.cores core) :)
  have reserved : s'.reservedBy core = s.reservedBy core := (congrArg (fun s => State.reservedBy s core) h.rest :)
  have owner : s'.owner o = s.owner o := (congrArg (fun s => State.owner s o) h.rest :)
  rw [State.canMeter, State.canMeter, meters, reserved, owner]

theorem State.cachesOnly.freeSlotOn_eq (core : Nat) : s'.freeSlotOn core = s.freeSlotOn core := by
  have names : (s'.core core).names = (s.core core).names := (congrArg Core.names (h.cores core) :)
  have thread : s'.thread = s.thread := (congrArg State.thread h.rest :)
  have granted : s'.granted = s.granted := (congrArg State.granted h.rest :)
  have reserved : s'.reserved = s.reserved := (congrArg State.reserved h.rest :)
  rw [State.freeSlotOn, State.freeSlotOn, names, thread, granted, reserved]

theorem State.cachesOnly.grantFor_eq (core : Nat) (t : Thread) : s'.grantFor core t = s.grantFor core t := by
  rw [State.grantFor, State.grantFor, h.freeSlotOn_eq, h.canMeter_eq]

end

/-- The look for the translation of a thread's address. -/
theorem State.seen_cachesOnly (s : State) (t : Thread) (va : Word) : s.cachesOnly (s.seen t va) := (State.cachesOnly.refl s).seen

/-- An access of the thread that is performed at issue, up to the L1. -/
theorem State.reach_cachesOnly (s : State) (t : Thread) (va : Word) (l : Loc) : s.cachesOnly ((s.seen t va).reach t va l) :=
  (s.seen_cachesOnly t va).reach

/-! ### The access sequence (R106, R107, R124) -/

section
variable {s : State} {t : Thread} {va : Word}

theorem State.seen_of_global {a : Nat} (window : s.window t.part (coreOf s.cur) va = some (.global a)) :
    s.seen t va = s.looked (coreOf s.cur) t.part a := by
  unfold State.seen
  rw [window]

theorem State.seen_of_lm {c off : Nat} (window : s.window t.part (coreOf s.cur) va = some (.lm c off)) : s.seen t va = s := by
  unfold State.seen
  rw [window]

/-- A cached translation: the access goes on with it. -/
theorem State.translate_of_cached {a : Nat} {e : TlbEntry} (cached : s.tlbFind (coreOf s.cur) t.part a = some e)
    (k : State → Except Nat TlbEntry → Out) : s.translate t a k = k (s.looked (coreOf s.cur) t.part a) (.ok e) := by
  unfold State.translate
  rw [cached]

variable (n : Nat) (kind : AccessKind) (write user : Bool) (k : State → Target → Out)

theorem State.access_of_noWindow (window : s.window t.part (coreOf s.cur) va = none) : s.access t va n kind write user k = s.addr t va := by
  unfold State.access
  dsimp only
  rw [window]

theorem State.access_of_misaligned (aligned : va.toNat % n ≠ 0) : s.access t va n kind write user k = s.addr t va := by
  unfold State.access
  dsimp only
  split
  · rfl
  · rw [if_pos aligned]

variable {n} (aligned : va.toNat % n = 0)
include aligned

theorem State.access_ownLm {off : Nat} (window : s.window t.part (coreOf s.cur) va = some (.lm (coreOf s.cur) off)) :
    s.access t va n kind write user k =
      if s.locked (.lm (coreOf s.cur)) off n write then s.trap t 0x02 va
      else if s.isPoisoned (coreOf s.cur) off then s.trap t 0x15 va 4 else k s (.own ⟨.lm (coreOf s.cur), off⟩) := by
  unfold State.access
  dsimp only
  rw [window]
  dsimp only
  rw [if_neg (not_not.mpr aligned), if_pos rfl]

theorem State.access_otherLm {c off : Nat} (other : c ≠ coreOf s.cur) (window : s.window t.part (coreOf s.cur) va = some (.lm c off)) :
    s.access t va n kind write user k =
      if s.locked (.lm c) off n write then s.trap t 0x02 va
      else if (s.core c).lost then s.trap t 0x15 va 5 else k s (.far (.lm c) ⟨.lm c, off⟩ 0) := by
  unfold State.access
  dsimp only
  rw [window]
  dsimp only
  rw [if_neg (not_not.mpr aligned), if_neg other]

theorem State.access_pantry {h off : Nat} (window : s.window t.part (coreOf s.cur) va = some (.pantry h off)) :
    s.access t va n kind write user k =
      if t.priv = 0 ∧ s.closed t.part h off user = true then s.addr t va
      else if s.locked (.pantry h) off n write then s.trap t 0x02 va
      else k s (.far (.pantry h) ⟨.share t.part h, off⟩ (if h = hearthOf (coreOf s.cur) then 1 else 2)) := by
  unfold State.access
  dsimp only
  rw [window]
  dsimp only
  rw [if_neg (not_not.mpr aligned)]

theorem State.access_global {a : Nat} {e : TlbEntry} (window : s.window t.part (coreOf s.cur) va = some (.global a))
    (cached : s.tlbFind (coreOf s.cur) t.part a = some e) (backed : e.leaf.exists_ (a - e.base) = true) :
    s.access t va n kind write user k =
      let s' := s.seen t va
      let reason := s'.leafReason t.part t.sec kind e.leaf (a - e.base)
      let l : Loc := ⟨.phys e.leaf.tier, e.leaf.pa + (a - e.base)⟩
      if reason ≠ 0 then s'.pageFault t va reason
      else if s'.locked .global a n write then s'.trap t 0x02 va
      else if e.leaf.cls ≠ 0 ∨ e.leaf.home = coreOf s.cur then k s' (.own l)
      else if (s'.core e.leaf.home).lost then s'.trap t 0x15 va 5
      else k s' (.far (.home e.leaf.home) l (ctrFor (coreOf s.cur) e.leaf.home)) := by
  unfold State.access
  dsimp only
  rw [window]
  dsimp only
  rw [if_neg (not_not.mpr aligned), State.translate_of_cached cached, State.seen_of_global window]
  dsimp only
  rw [backed, Bool.not_true, if_neg (c := false = true) Bool.false_ne_true]

end

theorem accessSequenceOrder : AccessSequenceOrder := by
  intro s t va n kind write user k
  exact ⟨State.access_of_noWindow n kind write user k, State.access_of_misaligned n kind write user k,
    fun _ window aligned => State.access_ownLm kind write user k aligned window,
    fun _ _ other window aligned => State.access_otherLm kind write user k aligned other window,
    fun _ _ window aligned => State.access_pantry kind write user k aligned window,
    fun _ _ window aligned cached backed => State.access_global kind write user k aligned window cached backed⟩

/-! ### Walks (R108 to R111, R114) -/

theorem State.malformed_congr {s s' : State} (parts : s'.parts = s.parts) : s'.malformed = s.malformed := by
  unfold State.malformed State.part
  rw [parts]

theorem State.walkFrom_congr {s s' : State} (parts : s'.parts = s.parts) (hbm : s'.hbm = s.hbm) (part va n l table : Nat) :
    s'.walkFrom part va n l table = s.walkFrom part va n l table := by
  induction n generalizing l table with
  | zero => rfl
  | succ n ih => simp only [State.walkFrom, hbm, State.malformed_congr parts, ih]

/-- What serves a page is read from the partition's root and from HBM alone. -/
theorem State.walkServes_congr {s s' : State} (parts : s'.parts = s.parts) (hbm : s'.hbm = s.hbm) (part va : Nat) :
    s'.walkServes part va = s.walkServes part va := by
  have tables : s'.walkTables part va = s.walkTables part va := by
    simp only [State.walkTables, State.part, parts, State.walkFrom_congr parts hbm]
  have page : s'.walkPage part va = s.walkPage part va := by
    unfold State.walkPage
    rw [tables]
  unfold State.walkServes
  rw [page]

/-- A well-formed leaf entry is one of a level that has pages (R110). -/
theorem State.malformed_of_noPage {s : State} {part l : Nat} {e : Pte} (leaf : bitAt e.lo 62 = true) (none : (levelOf l).2.2.2 = 0) :
    s.malformed part l e = true := by
  simp [State.malformed, leaf, Pte.toLeaf, none]

theorem State.walkFrom_covers {s : State} {part va n l table base : Nat} {leaf : Leaf}
    (walked : s.walkFrom part va n l table = .leaf base leaf) : base ≤ va ∧ va < base + leaf.size := by
  induction n generalizing l table with
  | zero => cases walked
  | succ n ih =>
    simp only [State.walkFrom] at walked
    split at walked
    · cases walked
    · split at walked
      · cases walked
      · split at walked
        · cases walked
        · next sound =>
          split at walked
          · next isLeaf =>
            cases walked
            have page : 0 < (levelOf l).2.2.2 :=
              Nat.pos_of_ne_zero fun none => sound (State.malformed_of_noPage isLeaf none)
            exact ⟨Nat.div_mul_le_self va _, Nat.lt_div_mul_add page⟩
          · exact ih walked

/-- The page of a walk holds the address walked for. -/
theorem State.walkPage_covers (s : State) (part va : Nat) :
    (s.walkPage part va).1 ≤ va ∧ va < (s.walkPage part va).1 + (s.walkPage part va).2 := by
  unfold State.walkPage
  split
  · next walked =>
    unfold State.walkTables at walked
    split at walked
    · exact State.walkFrom_covers walked
    · cases walked
  · exact ⟨Nat.div_mul_le_self va _, Nat.lt_div_mul_add (Nat.two_pow_pos 16)⟩

theorem State.walkServes_own (s : State) (part page : Nat) (tids : List Nat) :
    s.walkServes part (page * 2 ^ 16) ⟨part, page, tids⟩ = true := by
  obtain ⟨low, high⟩ := s.walkPage_covers part (page * 2 ^ 16)
  simp only [State.walkServes, beq_self_eq_true, Bool.true_and, Bool.and_eq_true, decide_eq_true_eq]
  exact ⟨low, high⟩

/-- A thread's walk begins: one of the hearth's walks serves the page and has the thread, or none does and all 512 are busy. -/
theorem State.joinWalk_cases (s : State) (tid part page : Nat) :
    (∃ s', s.joinWalk tid part page = some s' ∧ s'.cur = s.cur ∧
      ∃ w ∈ (s'.hearth (hearthOf (coreOf tid))).walks, s.walkServes part (page * 2 ^ 16) w = true ∧ tid ∈ w.tids) ∨
    (s.joinWalk tid part page = none ∧ 512 ≤ (s.hearth (hearthOf (coreOf tid))).walks.length) := by
  unfold State.joinWalk
  dsimp only
  split
  · next some_ =>
    obtain ⟨w, mem, serves⟩ := List.any_eq_true.mp some_
    refine .inl ⟨_, rfl, rfl, { w with tids := w.tids ++ [tid] }, ?_, serves, List.mem_append_right _ (List.mem_singleton_self _)⟩
    rw [State.hearth_setHearth_same]
    exact List.mem_map.mpr ⟨w, mem, if_pos serves⟩
  · split
    · refine .inl ⟨_, rfl, rfl, ⟨part, page, [tid]⟩, ?_, s.walkServes_own part page _, List.mem_singleton_self _⟩
      have put := State.hearth_setHearth_same s (hearthOf (coreOf tid))
        { s.hearth (hearthOf (coreOf tid)) with walks := (s.hearth (hearthOf (coreOf tid))).walks ++ [⟨part, page, [tid]⟩] }
      exact (congrArg Hearth.walks put).symm ▸ List.mem_append_right _ (List.mem_singleton_self _)
    · next busy => exact .inr ⟨rfl, Nat.not_lt.mp busy⟩

/-- A thread that is held is in its slot with the reason, and the walks are as they were. -/
theorem State.hold_answers (s : State) (t : Thread) (b : Block) :
    answers (s.hold t b) fun s' => s'.thread s.cur = some { t with block := b } ∧ ∀ h, s'.hearth h = s.hearth h := by
  refine ⟨_, rfl, State.thread_setThread_same _ _ _, fun h => ?_⟩
  unfold State.noIssue
  split <;> rfl

/-- A walk is started for the thread, which waits for it or for one of the hearth's walks. -/
theorem State.startWalk_answers (s : State) (t : Thread) (va : Nat) :
    let h := hearthOf (coreOf s.cur)
    let page := va / 2 ^ 16
    answers (s.startWalk t va) fun s' => ∃ b, s'.thread s.cur = some { t with block := b } ∧
      ((b = .walk page ∧ ∃ w ∈ (s'.hearth h).walks, s.walkServes t.part (page * 2 ^ 16) w = true ∧ s.cur ∈ w.tids) ∨
        (b = .walkWait page ∧ s'.hearth h = s.hearth h ∧ 512 ≤ (s.hearth h).walks.length)) := by
  intro h page
  have start : s.startWalk t va = match (s.sig (coreOf s.cur) 22).joinWalk s.cur t.part page with
      | some s => s.hold t (.walk page)
      | none => (s.sig (coreOf s.cur) 22).hold t (.walkWait page) := rfl
  rw [start]
  obtain ⟨joined, run, cur, served⟩ | ⟨run, busy⟩ := (s.sig (coreOf s.cur) 22).joinWalk_cases s.cur t.part page
  · rw [run]
    obtain ⟨s', held, thread, hearth⟩ := joined.hold_answers t (.walk page)
    rw [cur] at thread
    refine ⟨s', held, .walk page, thread, .inl ⟨rfl, ?_⟩⟩
    rw [hearth, ← State.walkServes_congr (s := s) (s' := s.sig (coreOf s.cur) 22) rfl rfl]
    exact served
  · rw [run]
    obtain ⟨s', held, thread, hearth⟩ := (s.sig (coreOf s.cur) 22).hold_answers t (.walkWait page)
    exact ⟨s', held, .walkWait page, thread, .inr ⟨rfl, hearth h, busy⟩⟩

theorem missStartsWalk : MissStartsWalk := by
  intro s t va k h page
  refine ⟨fun uncached fresh => ?_, fun _ cached => State.translate_of_cached cached k, fun r uncached left => ?_⟩
  · obtain ⟨s', run, b, thread, waits⟩ := s.startWalk_answers t va
    refine ⟨s', ?_, _, thread, rfl, rfl, waits⟩
    rw [← run, State.translate, uncached, fresh]
  · rw [State.translate, uncached, left]
    exact if_pos rfl

/-- Settles O15: the access takes the branch of each check (`State.access_ownLm` and its like), and a miss starts or joins a walk
(`State.startWalk_answers`). -/
theorem accessSequence : Obligations.AccessSequence := ⟨accessSequenceOrder, missStartsWalk⟩

/-! ### Waits for the posted counters, and the fences (R24, R118, R130) -/

/-- A wait that finds its counters zero, with no error mark, is over at once. -/
theorem State.waitWt_of_waited {t : Thread} {w : Wt} (waited : t.waited w) (s : State) (k : Thread → Out) : s.waitWt t w k = k t := by
  cases w with
  | no => rfl
  | cluster =>
    obtain ⟨errC, pcntC⟩ := waited
    simp [State.waitWt, State.waitCounters, Thread.takeMark, Thread.zeroed, errC, pcntC]
  | hearth =>
    obtain ⟨errH, pcntH⟩ := waited
    simp [State.waitWt, State.waitCounters, Thread.takeMark, Thread.zeroed, errH, pcntH]
  | all => exact State.release_of_waited waited s k

theorem counterWait : CounterWait := by
  intro s t c h m k
  unfold State.waitCounters
  refine ⟨fun clean zero => ?_, fun clean busy => ?_, fun e t' mark => ?_⟩
  · rw [clean]
    exact if_pos zero
  · rw [clean]
    exact if_neg (by rw [busy]; exact Bool.false_ne_true)
  · rw [mark]

section
variable {s : State} {t : Thread} (thread : s.thread s.cur = some t) {c h m : Bool} (clean : t.takeMark c h m = none)
include thread clean

theorem State.fenceForm_of_zeroed (zero : t.zeroed c h m = true) : s.fenceForm c h m = s.finish t 1 := by
  rw [State.fenceForm, State.onThread_eq thread, clean]
  exact if_pos zero

theorem State.fenceForm_of_busy (busy : t.zeroed c h m = false) : s.fenceForm c h m = s.await t (.counters c h m) := by
  rw [State.fenceForm, State.onThread_eq thread, clean]
  exact if_neg (by rw [busy]; exact Bool.false_ne_true)

end

/-- The fences that wait are one form, on their scopes. -/
theorem exec_fence {s : State} {i : Instr} {c h m : Bool}
    (row : (i, c, h, m) ∈ [(Instr.fenceCluster, true, false, false), (.fenceHearth, true, true, false), (.fenceModule, true, true, true)]) :
    exec i s = s.fenceForm c h m := by
  simp only [List.mem_cons, Prod.mk.injEq, List.not_mem_nil, or_false] at row
  obtain ⟨rfl, rfl, rfl, rfl⟩ | ⟨rfl, rfl, rfl, rfl⟩ | ⟨rfl, rfl, rfl, rfl⟩ := row <;> rfl

theorem fencesRetire : FencesRetire := by
  intro s t thread
  refine ⟨State.retiresIn_of_finish rfl (State.onThread_eq thread _), fun i c h m row clean => ⟨fun zero => ?_, fun busy => ?_⟩⟩
  · exact State.retiresIn_of_finish rfl ((exec_fence row).trans (State.fenceForm_of_zeroed thread clean zero))
  · unfold State.blocks
    rw [exec_fence row, State.fenceForm_of_busy thread clean busy, State.await, State.wait_eq]

/-- Settles O20: `counterWait` and `fencesRetire`. -/
theorem fencesComplete : Obligations.FencesComplete := ⟨counterWait, fencesRetire⟩

/-! ### Loads (R125, R126) -/

theorem szBytes_eq (z : Sz) : szBytes z = accessBytes z := by cases z <;> rfl

theorem accessBytes_le (z : Sz) : accessBytes z ≤ 8 := by cases z <;> decide

theorem accessBytes_pos (z : Sz) : 0 < accessBytes z := by cases z <;> decide

/-- The low bits of a number, sign-extended (R18). -/
theorem sextW_ofNat (v : Nat) {n : Nat} (pos : 0 < n) : sextW v n = (BitVec.ofNat n v).signExtend 64 := by
  rw [sextW, sx_eq_toInt _ pos]
  rfl

theorem loadValue_eq (z : Sz) (v : Nat) : loadValue z v = loaded z v := by
  cases z with
  | b => exact sextW_ofNat v (by decide)
  | h => exact sextW_ofNat v (by decide)
  | w => exact sextW_ofNat v (by decide)
  | d | bn | hn | wn => rfl

theorem exec_of_loadOf {s : State} {t : Thread} {i : Instr} {d : GReg} {z : Sz} {w : Wt} {va : Word} (thread : s.thread s.cur = some t)
    (row : loadOf t i = some (d, z, w, va)) : exec i s = s.loadForm t d z w va := by
  unfold loadOf at row
  split at row
  · cases row
    rw [← szBytes_eq]
    exact State.onThread_eq thread _
  · cases row
    rw [← szBytes_eq]
    exact State.onThread_eq thread _
  · cases row

/-- Settles O16: the form is an access (`exec_of_loadOf`), and what it does at its target is read from the access that passes. -/
theorem loadsComplete : Obligations.LoadsComplete := by
  intro s t i d z w va thread row waited
  rw [exec_of_loadOf thread row, State.loadForm, State.waitWt_of_waited waited, szBytes_eq]
  refine ⟨fun l own => ?_, fun p l k far => ?_⟩
  · rw [own]
    dsimp only
    rw [State.loadHere, loadValue_eq, (s.seen_cachesOnly t va).readLoc_eq, (s.reach_cachesOnly t va l).cur_eq,
      (s.reach_cachesOnly t va l).ir_eq]
  · rw [far]
    rfl

/-! ### Stores (R117, R125, R126) -/

/-- The thread that issues is that of the slot `tid`. A predicate of its own, so that the lemmas below follow the operations of a store
and no equation of a field evaluates them. -/
def State.turnOf (tid : Nat) (s : State) : Prop := s.cur = tid

section
variable {s : State} {tid : Nat} (h : s.turnOf tid)
include h

theorem State.turnOf.setMem {sp : Space} {m : Memory} : (s.setMem sp m).turnOf tid := by
  cases sp with
  | lm c => exact h
  | share p k => exact h
  | phys k =>
    simp only [State.setMem]
    split_ifs <;> exact h

theorem State.turnOf.fire {l : Loc} {n : Nat} : (s.fire l n).turnOf tid := h

theorem State.turnOf.afterStore {p k off n : Nat} : (s.afterStore p k off n).turnOf tid := by
  rw [State.afterStore_urgent]
  exact h

theorem State.turnOf.storeQueue {p off n v : Nat} {x : Partition} : (s.storeQueue p x off n v).turnOf tid := by
  unfold State.storeQueue
  dsimp only
  split
  · split <;> exact h
  · split_ifs <;> exact h
  · exact h

/-- A store leaves the thread that issues the one that issues. -/
theorem State.turnOf.writeLoc {l : Loc} {n v : Nat} : (s.writeLoc l n v).turnOf tid := by
  unfold State.writeLoc
  split
  · split
    · split
      · split
        · exact h.storeQueue.fire
        · dsimp only
          split
          · exact h.storeQueue.storeQueue.fire
          · exact h.storeQueue
      · exact h
    · split
      · exact h
      · exact h.setMem.fire.afterStore
  · exact h.setMem.fire

end

theorem Thread.setPcnt_pc (t : Thread) (k v : Nat) : (t.setPcnt k v).pc = t.pc := by
  unfold Thread.setPcnt
  split_ifs <;> rfl

theorem exec_of_storeOf {s : State} {t : Thread} {i : Instr} {v : Word} {z : Sz} {w : Wt} {va : Word} (thread : s.thread s.cur = some t)
    (row : storeOf t i = some (v, z, w, va)) : exec i s = s.storeForm t v z w va := by
  unfold storeOf at row
  split at row
  · cases row
    rw [← szBytes_eq]
    exact State.onThread_eq thread _
  · cases row
    rw [← szBytes_eq]
    exact State.onThread_eq thread _
  · cases row

section
variable {s : State} {i : Instr} {t : Thread}

/-- A form that stores at its own place and retires. -/
theorem State.retiresIn_of_store {va : Word} {l : Loc} {n v : Nat}
    (run : exec i s = (((s.seen t va).reach t va l).writeLoc l n v).finish t 1) :
    s.retiresIn (((s.seen t va).reach t va l).writeLoc l n v) i t (t.pc + 4) :=
  State.retiresIn_of_finish (State.turnOf.writeLoc (s.reach_cachesOnly t va l).cur_eq) run

/-- A form that sends a counted parcel, with room in its counter. -/
theorem State.retiresIn_of_post {p : Place} {l : Loc} {a : Access} {k : Nat} {va : Word} (room : t.pcnt k < 1024)
    (run : exec i s = (s.seen t va).post t p l a k va fun t s => s.finish t 1) :
    s.retiresIn ((s.seen t va).sentOf t p l a k va) i (t.sent.setPcnt k (t.pcnt k + 1)) (t.pc + 4) := by
  rw [State.post, if_pos room] at run
  have retires := State.retiresIn_of_finish (s1 := (s.seen t va).sentOf t p l a k va) (s.seen_cachesOnly t va).cur_eq run
  rwa [Thread.setPcnt_pc] at retires

end

theorem storesRetire : StoresRetire := by
  intro s t i v z w va thread row waited
  have run := exec_of_storeOf thread row
  rw [State.storeForm, State.waitWt_of_waited waited, szBytes_eq] at run
  refine ⟨fun l own => ?_, fun p l k far => ?_⟩
  · rw [own] at run
    exact State.retiresIn_of_store run
  · rw [far] at run
    refine ⟨fun room => State.retiresIn_of_post room run, fun full => ?_⟩
    rw [run]
    exact if_neg (Nat.not_lt.mpr full)

/-- An aligned address in the own LM that no range and no poison covers passes the checks. -/
theorem State.passes_ownLm {s : State} {t : Thread} {va : Word} {n off : Nat} {kind : AccessKind} {write user : Bool}
    (window : s.window t.part (coreOf s.cur) va = some (.lm (coreOf s.cur) off)) (aligned : va.toNat % n = 0)
    (free : s.locked (.lm (coreOf s.cur)) off n write = false) (sound : s.isPoisoned (coreOf s.cur) off = false) :
    s.passes t va n kind write user (.own ⟨.lm (coreOf s.cur), off⟩) := by
  intro k
  rw [State.access_ownLm kind write user k aligned window, State.seen_of_lm window, free, sound]
  rfl

/-- What a form that retires after a store to the own LM leaves there. -/
theorem State.retiresIn.lm {s s1 : State} {i : Instr} {t : Thread} {pc : Word} (retires : s.retiresIn s1 i t pc) (core : Nat) :
    ∃ s', exec i s = .next s' ∧ (s'.core core).lm = (s1.core core).lm ∧ s'.thread s.cur = some (t.retired pc) := by
  obtain ⟨s', run, frame, thread⟩ := retires
  exact ⟨s', run, (congrArg Core.lm (frame.cores core) :), thread⟩

theorem storesToOwnLm : StoresToOwnLm := by
  intro s t d a b z w o va off me n thread waited window aligned free sound
  have stores : ∀ i, storeOf t i = some (t.rd d, z, w, va) →
      ∃ s', exec i s = .next s' ∧ (s'.core me).lm = (s.core me).lm.write off n (t.rd d).toNat ∧
        s'.thread s.cur = some (t.retired (t.pc + 4)) := by
    intro i row
    obtain ⟨own, -⟩ := storesRetire s t i (t.rd d) z w va thread row waited
    have retires := own _ (State.passes_ownLm window aligned free sound)
    obtain ⟨s', run, lm, retired⟩ := retires.lm me
    refine ⟨s', run, ?_, retired⟩
    rw [lm, State.writeLoc_lm, (s.reach_cachesOnly t va _).lm_eq]
  exact ⟨fun address => stores _ (by rw [address]; rfl), fun address => stores _ (by rw [address]; rfl)⟩

/-- Settles O17: `storesToOwnLm` and `storesRetire`. -/
theorem storesComplete : Obligations.StoresComplete := ⟨storesToOwnLm, storesRetire⟩

/-! ### What is read of n bytes, and how it is combined (R127, R128) -/

theorem Memory.read_lt (m : Memory) (a n : Nat) : m.read a n < 256 ^ n := by
  induction n generalizing a with
  | zero => exact Nat.one_pos
  | succ n ih =>
    have byte := (m.byte a).isLt
    have rest := ih (a + 1)
    rw [Memory.read, Nat.pow_succ]
    omega

theorem maskedRead_lt (m : Memory) (off n : Nat) : maskedRead m off n < 256 ^ n := by
  induction n generalizing off with
  | zero => exact Nat.one_pos
  | succ n ih =>
    have byte : (m.byte off).toNat &&& controlMask off < 256 := Nat.lt_of_le_of_lt Nat.and_le_left (m.byte off).isLt
    have rest := ih (off + 1)
    rw [maskedRead, Nat.pow_succ]
    omega

theorem State.readShare_lt (s : State) (part hearth off : Nat) {n : Nat} (le : n ≤ 8) : s.readShare part hearth off n < 256 ^ n := by
  have pos : 0 < 256 ^ n := Nat.pow_pos (by decide)
  unfold State.readShare
  split
  · split
    · exact Nat.mod_lt _ pos
    · exact pos
  · split
    · exact pos
    · split
      · exact maskedRead_lt _ _ _
      · exact Memory.read_lt _ _ _

/-- Up to 8 bytes read as a number of that many. -/
theorem State.readLoc_lt (s : State) (l : Loc) {n : Nat} (le : n ≤ 8) : s.readLoc l n < 2 ^ (8 * n) := by
  rw [Nat.pow_mul]
  unfold State.readLoc
  split
  · exact s.readShare_lt _ _ _ le
  · exact Memory.read_lt _ _ _

theorem amoNew_add (n a b e : Nat) : amoNew .add n a b e = atomicNew .add n a b e :=
  (BitVec.toNat_ofNat _ _).symm.trans (congrArg BitVec.toNat (BitVec.ofNat_add a b))

section
variable {n a : Nat} (small : a < 2 ^ (8 * n))
include small

/-- On n bytes that are a number of n bytes, the two ways of writing the exact arithmetic agree. -/
theorem amoNew_eq (pos : 0 < n) (k : AmoKind) (b e : Nat) : amoNew k n a b e = atomicNew k n a b e := by
  have own : a % 2 ^ (8 * n) = a := Nat.mod_eq_of_lt small
  have bits : 0 < 8 * n := by omega
  cases k with
  | add => exact amoNew_add n a b e
  | and => simp only [amoNew, atomicNew, BitVec.toNat_and, BitVec.toNat_ofNat, own]
  | or => simp only [amoNew, atomicNew, BitVec.toNat_or, BitVec.toNat_ofNat, own]
  | xor => simp only [amoNew, atomicNew, BitVec.toNat_xor, BitVec.toNat_ofNat, own]
  | min => simp only [amoNew, atomicNew, sx_eq_toInt _ bits, BitVec.toNat_ofNat, own]
  | max => simp only [amoNew, atomicNew, sx_eq_toInt _ bits, BitVec.toNat_ofNat, own]
  | minn => simp only [amoNew, atomicNew, BitVec.toNat_ofNat, own]; exact Nat.min_def
  | maxn => simp only [amoNew, atomicNew, BitVec.toNat_ofNat, own]; exact Nat.max_def
  | swap => simp only [amoNew, atomicNew, BitVec.toNat_ofNat]
  | cas => simp only [amoNew, atomicNew, ← BitVec.toNat_inj, BitVec.toNat_ofNat, own]

/-- An atomic that writes is any but a cas that does not find what it expects. -/
theorem amoWrites_iff (k : AmoKind) (e : Nat) :
    amoWrites k n a e = true ↔ ¬(k = .cas ∧ BitVec.ofNat (8 * n) a ≠ BitVec.ofNat (8 * n) e) := by
  have own : a % 2 ^ (8 * n) = a := Nat.mod_eq_of_lt small
  simp only [amoWrites, ne_eq, ← BitVec.toNat_inj, BitVec.toNat_ofNat, own, Bool.or_eq_true, bne_iff_ne, beq_iff_eq]
  tauto

end

theorem redNew_eq (k : RedKind) (n a b : Nat) : redNew k n a b = amoNew k.atomic n a b 0 := by cases k <;> rfl

/-! ### Updates (R128) -/

section
variable {s : State} {t : Thread} {i : Instr} {k : RedKind} {b n : Nat} {w : Wt} {va : Word}

theorem exec_of_redOf (thread : s.thread s.cur = some t) (row : redOf t i = some (k, b, n, w, va)) : exec i s = s.redForm k t va n b w := by
  cases i with
  | redAdd | redAnd | redOr | redXor | redMin | redMax =>
    cases row
    rw [← szBytes_eq]
    exact State.onThread_eq thread _
  | redAddW128 =>
    cases row
    exact State.onThread_eq thread _
  | _ => cases row

/-- An update is of one of the access sizes; red.add.w128 alone is of 16 bytes. -/
theorem size_of_redOf (row : redOf t i = some (k, b, n, w, va)) : (0 < n ∧ n ≤ 8) ∨ k = .add := by
  cases i with
  | redAdd | redAnd | redOr | redXor | redMin | redMax =>
    cases row
    exact .inl ⟨accessBytes_pos _, accessBytes_le _⟩
  | redAddW128 =>
    cases row
    exact .inr rfl
  | _ => cases row

end

theorem updatesComplete : UpdatesComplete := by
  intro s t i k b n w va thread row waited
  have run := exec_of_redOf thread row
  rw [State.redForm, State.waitWt_of_waited waited] at run
  refine ⟨fun l own => ?_, fun p l c far room => ?_⟩
  · have new : redNew k n (s.readLoc l n) b = atomicNew k.atomic n (s.readLoc l n) b 0 := by
      rw [redNew_eq]
      obtain ⟨pos, le⟩ | rfl := size_of_redOf row
      · exact amoNew_eq (s.readLoc_lt l le) pos _ _ _
      · exact amoNew_add _ _ _ _
    rw [own] at run
    dsimp only at run
    rw [State.doRed, (s.reach_cachesOnly t va l).readLoc_eq, new] at run
    exact State.retiresIn_of_store run
  · rw [far] at run
    exact State.retiresIn_of_post room run

/-! ### Atomics (R121, R127) -/

/-- The ten atomics are one form, on their registers. -/
theorem exec_of_amoOf {t : Thread} {i : Instr} {k : AmoKind} {d : GReg} {b e : Word} {z : Sz} {w : Wt} {va : Word}
    (row : amoOf t i = some (k, d, b, e, z, w, va)) :
    ∃ ra rb, b = t.rd rb ∧ e = t.rd d ∧ va = t.rd ra ∧ ∀ s, exec i s = s.amoForm k d ra rb z w := by
  unfold amoOf at row
  split at row <;> cases row
  all_goals exact ⟨_, _, rfl, rfl, rfl, fun _ => rfl⟩

/-- An atomic performed at its place gives the old value, and stores the new one unless it is a cas that finds another than it expects. -/
theorem State.doAmo_eq (s : State) (k : AmoKind) (l : Loc) {n : Nat} (pos : 0 < n) (le : n ≤ 8) (b e : Nat) :
    s.doAmo k l n b e =
      (if k = .cas ∧ BitVec.ofNat (8 * n) (s.readLoc l n) ≠ BitVec.ofNat (8 * n) e then s
        else s.writeLoc l n (atomicNew k n (s.readLoc l n) b e), s.readLoc l n) := by
  have small := s.readLoc_lt l le
  unfold State.doAmo
  dsimp only
  rw [amoNew_eq small pos]
  by_cases fails : k = .cas ∧ BitVec.ofNat (8 * n) (s.readLoc l n) ≠ BitVec.ofNat (8 * n) e
  · rw [if_pos fails, if_neg ((amoWrites_iff small k e).not.mpr (not_not.mpr fails))]
  · rw [if_neg fails, if_pos ((amoWrites_iff small k e).mpr fails)]

section
variable {s : State} {t : Thread} {i : Instr} {k : AmoKind} {d ra rb : GReg} {z : Sz} {w : Wt} (thread : s.thread s.cur = some t)
  (form : exec i s = s.amoForm k d ra rb z w) (waited : t.waited w)
include thread form waited

theorem State.amo_own {l : Loc} (own : s.passes t (t.rd ra) (accessBytes z) .store true false (.own l)) :
    let n := accessBytes z
    let old := s.readLoc l n
    let s0 := (s.seen t (t.rd ra)).reach t (t.rd ra) l
    let s1 := if k = .cas ∧ BitVec.ofNat (8 * n) old ≠ BitVec.ofNat (8 * n) (t.rd d).toNat then s0
      else s0.writeLoc l n (atomicNew k n old (t.rd rb).toNat (t.rd d).toNat)
    s.retiresIn s1 i (t.wr d ((BitVec.ofNat (8 * n) old).signExtend 64)) (t.pc + 4) := by
  intro n old s0 s1
  have reached := s.reach_cachesOnly t (t.rd ra) l
  have cur : s1.cur = s.cur := by
    unfold s1
    split
    · exact reached.cur_eq
    · exact State.turnOf.writeLoc reached.cur_eq
  rw [State.amoForm, State.onThread_eq thread, State.waitWt_of_waited waited, szBytes_eq, own] at form
  dsimp only at form
  rw [State.doAmo_eq _ _ _ (accessBytes_pos z) (accessBytes_le z), reached.readLoc_eq,
    sextW_ofNat _ (Nat.mul_pos (by decide) (accessBytes_pos z))] at form
  exact State.retiresIn_of_write cur form

variable {p : Place} {l : Loc} {c : Nat} (far : s.passes t (t.rd ra) (accessBytes z) .store true false (.far p l c))
include far

/-- At a place that is no home, and where the thread or the home refuses the migration, a request parcel leaves. -/
theorem State.amo_asks (asks : (∀ h, p ≠ .home h) ∨ s.heavy s.cur = true ∨ slotOf s.cur = 15 ∨ t.noMig = true ∨
      (∀ h, p = .home h → s.grantFor h t = none)) :
    exec i s = ((s.seen t (t.rd ra)).requestOf t p l (.amo k (accessBytes z) (t.rd rb).toNat (t.rd d).toNat d) (t.rd ra)).wait t.sent
      (.reply .atomic) := by
  have caches := s.seen_cachesOnly t (t.rd ra)
  rw [form, State.amoForm, State.onThread_eq thread, State.waitWt_of_waited waited, szBytes_eq, far]
  dsimp only
  cases p with
  | lm c => rfl
  | pantry h => rfl
  | home h =>
    have refused : (s.heavy s.cur || slotOf s.cur == 15 || t.noMig || (s.grantFor h t).isNone) = true := by
      simp only [Bool.or_eq_true, beq_iff_eq, Option.isNone_iff_eq_none]
      obtain other | heavy | slot | no | none := asks
      · exact absurd rfl (other h)
      · exact .inl (.inl (.inl heavy))
      · exact .inl (.inl (.inr slot))
      · exact .inl (.inr no)
      · exact .inr (none h rfl)
    dsimp only
    rw [caches.cur_eq, caches.heavy_eq, caches.grantFor_eq, if_pos refused]
    rfl

theorem State.amo_migrates {h : Nat} (home : p = .home h) (light : s.heavy s.cur = false) (slot : slotOf s.cur ≠ 15)
    (free : t.noMig = false) (grant : s.grantFor h t ≠ none) (quiet : t.waited .all) :
    exec i s = (s.seen t (t.rd ra)).hold t (.migrate h .atomic) := by
  subst home
  have caches := s.seen_cachesOnly t (t.rd ra)
  have goes : (s.heavy s.cur || slotOf s.cur == 15 || t.noMig || (s.grantFor h t).isNone) = false := by
    simp [light, slot, free, Option.isSome_iff_ne_none, grant]
  rw [form, State.amoForm, State.onThread_eq thread, State.waitWt_of_waited waited, szBytes_eq, far]
  dsimp only
  rw [caches.cur_eq, caches.heavy_eq, caches.grantFor_eq, goes, if_neg Bool.false_ne_true, State.release_of_waited quiet]

end

theorem atomicsComplete : AtomicsComplete := by
  intro s t i k d b e z w va thread row _ waited n
  obtain ⟨ra, rb, rfl, rfl, rfl, form⟩ := exec_of_amoOf row
  exact ⟨fun _ own => State.amo_own thread (form s) waited own, fun _ _ _ far => ⟨State.amo_asks thread (form s) waited far,
    fun _ => State.amo_migrates thread (form s) waited far⟩⟩

/-- Settles O19: `atomicsComplete` and `updatesComplete`. -/
theorem atomicForms : Obligations.AtomicForms := ⟨atomicsComplete, updatesComplete⟩

/-! ### Migration, prefetch and translation (R120, R129, R131, R132) -/

/-- mig and migc, once they know their target. -/
theorem migResult_of_migTo {s s1 : State} {t : Thread} {d : GReg} {i : Instr} {target : Nat} (caches : s.cachesOnly s1)
    (run : exec i s = s1.migTo t d target) : migResult s s1 t d i target := by
  have cur := caches.cur_eq
  rw [State.migTo, caches.part_eq, cur, caches.heavy_eq] at run
  unfold migResult
  cases part : s.part t.part with
  | none =>
    rw [part] at run
    exact State.retiresIn_of_write cur run
  | some p =>
    rw [part] at run
    dsimp only at run ⊢
    cases worker : p.worker target with
    | false =>
      rw [if_pos (by rw [worker]; rfl)] at run
      exact State.retiresIn_of_write cur run
    | true =>
      rw [if_neg (by rw [worker]; exact Bool.false_ne_true)] at run
      rw [if_neg (by decide)]
      split
      · next here =>
        rw [if_pos here] at run
        exact State.retiresIn_of_write cur run
      · next away =>
        rw [if_neg away] at run
        split
        · next stays =>
          rw [if_pos (by simpa using stays)] at run
          exact State.retiresIn_of_write cur run
        · next leaves =>
          rw [if_neg (by simpa using leaves), State.wait_eq, cur] at run
          exact run

theorem migrationFormsRetire : MigrationFormsRetire := by
  intro s t d a thread quiet idle
  have go : ∀ k : Out, (if s.xbusy s.cur then s.until t .transfers else k) = k := fun k => by rw [idle]; rfl
  refine ⟨migResult_of_migTo (.refl s) ?_, fun va e window cached allowed => ?_⟩
  · rw [← bits_zero]
    exact (State.onThread_eq thread _).trans ((State.release_of_waited quiet s _).trans (go _))
  · have caches := s.seen_cachesOnly t (t.rd a)
    have run : exec (.mig d a) s =
        if e.leaf.cls ≠ 0 then (s.seen t (t.rd a)).write t d 3 1 else (s.seen t (t.rd a)).migTo t d e.leaf.home := by
      refine (State.onThread_eq thread _).trans ((State.release_of_waited quiet s _).trans ((go _).trans ?_))
      rw [window]
      dsimp only
      rw [State.translate_of_cached cached, ← State.seen_of_global window]
      dsimp only
      rw [caches.leafReason_eq, allowed]
      rfl
    dsimp only
    split
    · next replicated =>
      rw [if_pos replicated] at run
      exact State.retiresIn_of_write caches.cur_eq run
    · next home =>
      rw [if_neg home] at run
      exact migResult_of_migTo caches run

section
variable {s : State} {t : Thread} (thread : s.thread s.cur = some t) {d a : GReg}
include thread

theorem pfl_retires :
    let s0 := match s.window t.part (coreOf s.cur) (t.rd a) with
      | some (.global va) => s.lookedFor t.part va
      | _ => s
    let s1 := fun (c : Nat) (l : Line) =>
      if (s0.core c).holdsLine l = true then s0 else { s0 with signals := s0.signals ++ [(c, 21)] }
    s.retiresIn (match s0.lineOf t (t.rd a) with
      | some (c, l) => (s1 c l).modCore c fun k => k.fillLine l
      | none => s0) (.pfl a) t (t.pc + 4) := by
  intro s0 s1
  have caches : s.cachesOnly s0 := by
    unfold s0
    split
    · exact (State.cachesOnly.refl s).lookedFor
    · exact .refl s
  have run : exec (.pfl a) s = match s0.lineOf t (t.rd a) with
      | some (c, l) => ((s1 c l).modCore c fun k => k.fillLine l).finish t 1
      | none => s0.finish t 1 := State.onThread_eq thread _
  cases line : s0.lineOf t (t.rd a) with
  | none =>
    rw [line] at run
    exact State.retiresIn_of_finish caches.cur_eq run
  | some x =>
    obtain ⟨c, l⟩ := x
    rw [line] at run
    refine State.retiresIn_of_finish ?_ run
    have cur : (s1 c l).cur = s0.cur := by
      unfold s1
      split <;> rfl
    exact cur.trans caches.cur_eq

end

theorem pflXlatRetire : PflXlatRetire := by
  intro s t d a thread
  have run : ∀ {s1 : State} {v : Word}, s1.cur = s.cur → execXlat d a s = s1.write t d v 1 → s.retiresIn s1 (.xlat d a) (t.wr d v) (t.pc + 4) :=
    fun cur run => State.retiresIn_of_write cur run
  refine ⟨pfl_retires thread, fun window => run rfl ?_, fun c off window => run rfl ?_, fun h off window => run rfl ?_,
    fun va e window cached => run (s.seen_cachesOnly t (t.rd a)).cur_eq ?_⟩ <;> rw [execXlat, State.onThread_eq thread, window]
  · rfl
  · rfl
  · dsimp only
    rw [State.translate_of_cached cached, ← State.seen_of_global window]
    dsimp only
    rw [(s.seen_cachesOnly t (t.rd a)).leafReason_eq]

/-- Settles O21: `migrationFormsRetire` and `pflXlatRetire`. -/
theorem translationForms : Obligations.TranslationForms := ⟨migrationFormsRetire, pflXlatRetire⟩

/-! ### Sizes between 8 and 16 bytes at the queue descriptors (R254)

The model reads and writes the descriptors of queues by whole doublewords: one of more than 8 bytes is of two of them. -/

/-- A module with the placed partition, whose queue 2 is not live and has depth 0. -/
def placedModule : State := { parts := [(0, placedPartition)] }

/-- Refutes O18: a store of 9 bytes from the last doubleword of queue 1 writes D0 of queue 2 whole, so the depth in its byte 4, which is
outside the bytes stored, becomes 1. -/
theorem not_storeFrame : ¬ Obligations.StoreFrame := by
  intro h
  obtain ⟨frame, -⟩ := h placedModule ⟨.share 0 0, queueOff + 120⟩ 9 (2 ^ 96) (fun _ e => nomatch e)
  have kept := frame ⟨.share 0 0, queueOff + 132⟩ (fun _ e => nomatch e) (.inr (.inr (by decide)))
  exact absurd kept (by decide +kernel)

/-- An update of 9 bytes from the last doubleword of queue 0, on its way to the pantry. -/
def wideUpdate : Parcel :=
  { src := 0, seq := 0, part := 0, place := .pantry 0, loc := ⟨.share 0 0, queueOff + 56⟩, acc := .red .or 9 0, ctr := 0, va := 0 }

/-- The module with the update, whose queue 1 is not live and has depth 1. -/
def updatedModule : State :=
  { parts := [(0, { placedPartition with queues := [(1, { depth := 1 })] })], parcels := [wideUpdate] }

theorem wideUpdate_arriving : updatedModule.arriving wideUpdate := by
  unfold State.arriving
  decide +kernel

/-- The partitions that the next state holds. -/
def Out.parts : Out → Map Partition
  | .next s => s.parts
  | _ => []

/-- Refutes O37: the model reads two doublewords for an update of 9 bytes at the descriptors, and its or with 0 leaves the depth of queue 1;
the exact arithmetic on 9 bytes of the statement has dropped the bytes of that depth, and stores depth 0. -/
theorem not_accessParcels : ¬ Obligations.AccessParcels := by
  rintro ⟨performed, -⟩
  obtain ⟨-, updates, -⟩ := performed updatedModule wideUpdate wideUpdate_arriving
  have next := updates .or 9 0 rfl (by decide) (by decide +kernel)
  have parts := congrArg Out.parts next
  exact absurd parts (by decide +kernel)

/-! ### A steward that is shed on its way (R120, R345, R346) -/

/-- The steward of owner 0 on its way to slot 1 of core 17. -/
def stewardMove : Move := ⟨{}, .form 3 1, 0x111, 0x100⟩

/-- A module in which it is on its way, and the shedding of its owner is still to be applied by core 17, on which no work stands. -/
def shedModule : State :=
  { moving := [stewardMove], arb := { owners := [(0, { sv := true, stid := 0x111, shpc := 0x1000 })], log := [[.shed 0 0 false]] } }

/-- The handling of a thread in the next state. -/
def Out.handlingOf (tid : Nat) : Out → Option Handling
  | .next s => (s.thread tid).map Thread.handling
  | _ => none

theorem shedModule_arrival : Out.handlingOf stewardMove.slot (exec (.migrationParcel 0x100) shedModule) = some .shed := by decide +kernel

/-- Refutes O39: the target core applies what it has still to apply before the thread is written to it, so a steward whose owner is shed
while it is on its way arrives in shed handling, and not as the thread that left with its form completed. -/
theorem not_walksAndMigration : ¬ Obligations.WalksAndMigration := by
  rintro ⟨-, -, -, arrives⟩
  obtain ⟨s', run, completes, -⟩ := arrives shedModule 0x100 stewardMove rfl rfl
  have shed := shedModule_arrival
  rw [run, Out.handlingOf, completes 3 1 rfl] at shed
  cases shed

end Sys2Proof.Machine

end

section

/-! SUPPORT. The family of the vector statements (07_vector.md): what refutes the statements of the forms' issue, the elements and masks of
a context, the beats, the context forms, loads and stores, and the values of the elements. -/

namespace Sys2Proof.Machine

/-! ### A table with more ranges than it has entries (R155, R216) -/

/-- A core that holds 33 ranges, one more than its table has entries, and lends a context to the thread in slot 0. -/
def crowdedCore : Core :=
  { vctx := [{ holder := some 0 }]
    locks := (List.range 33).map fun n => { space := .lm 0, lo := 64 * n, hi := 64 * n + 64, w := false, uid := n } }

/-- A module with that core and a thread in its slot 0. -/
def crowdedModule : State := { cur := 0, cores := [(0, crowdedCore)], threads := [(0, {})] }

theorem crowdedCore_lockCount : crowdedCore.lockCount = 33 := by decide +kernel

/-- A form without a range is a bubble too while the table holds more ranges than it has entries. -/
theorem State.vectorForm_of_crowded {s : State} {t : Thread} {ins : Instr} {a y : GReg} {blocks : Bool} (thread : s.thread s.cur = some t)
    (holds : holdsCtx (s.core (coreOf s.cur)) s.cur = true) (noMemory : Instr.vmem ins = none)
    (crowded : 32 < (s.core (coreOf s.cur)).lockCount) : s.vectorForm ins a y blocks = s.bubble := by
  rw [State.vectorForm, State.onThread_eq thread]
  simp [holds, State.vcheck, noMemory, crowded]

theorem crowdedModule_bubble : crowdedModule.isBubble (.vand 0 0 0 0) := by
  have crowded : 32 < (crowdedModule.core (coreOf crowdedModule.cur)).lockCount := lt_of_lt_of_eq (by decide) crowdedCore_lockCount.symm
  exact State.vectorForm_of_crowded (s := crowdedModule) (ins := .vand 0 0 0 0) (a := 0) (y := 0) (blocks := false) rfl rfl rfl crowded

theorem crowdedModule_holdsFor : crowdedModule.holdsFor (.vand 0 0 0 0) := ⟨rfl, fun _ _ _ _ _ e => nomatch e⟩

/-- Refutes O40: a form that touches no memory does not always complete. While the table holds 33 ranges it is a bubble, and the thread
stays at its word. -/
theorem not_vectorFormsComplete : ¬ Obligations.VectorFormsComplete := by
  intro h
  obtain ⟨free, -⟩ := h crowdedModule {} (.vand 0 0 0 0) 0 0 false rfl rfl crowdedModule_holdsFor (by decide)
  obtain ⟨s', run, after⟩ := free rfl
  rw [crowdedModule_bubble] at run
  cases run
  exact absurd after (by decide +kernel)

/-- Refutes O41: nor does it then enter the queue, which has room for it. -/
theorem not_vectorFormsIssue : ¬ Obligations.VectorFormsIssue := by
  intro h
  obtain ⟨-, issues⟩ := h crowdedModule {} (.vand 0 0 0 0) 0 0 false rfl rfl
  obtain ⟨-, enters⟩ := issues crowdedModule_holdsFor
  obtain ⟨s', run, ⟨c, queue, -⟩, -⟩ := (enters none rfl).2 (by decide) (.inl rfl)
  rw [crowdedModule_bubble] at run
  cases run
  exact absurd queue (by simp [State.core, Map.look, crowdedModule, crowdedCore])

/-! ### Elements and masks of a context (R142) -/

theorem VCtx.el_lt (x : VCtx) (k i : Nat) : x.el k i < 2 ^ 32 := BitVec.isLt _

theorem VCtx.ofNat_el_toNat (x : VCtx) (k i : Nat) : (BitVec.ofNat 32 (x.el k i)).toNat = x.el k i :=
  Nat.mod_eq_of_lt (x.el_lt k i)

theorem VCtx.el_setEl (x : VCtx) (d i v k j : Nat) :
    (x.setEl d i v).el k j = if 64 * d + i = 64 * k + j then v % 2 ^ 32 else x.el k j := by
  unfold VCtx.el VCtx.setEl
  rw [Map.look_store]
  split <;> simp

@[simp] theorem VCtx.el_setEl_same (x : VCtx) (d i v : Nat) : (x.setEl d i v).el d i = v % 2 ^ 32 := by simp [VCtx.el_setEl]

theorem VCtx.el_setEl_ne (x : VCtx) {d i k j : Nat} (v : Nat) (hi : i < 64) (hj : j < 64) (ne : k ≠ d ∨ j ≠ i) :
    (x.setEl d i v).el k j = x.el k j := by
  rw [VCtx.el_setEl, if_neg (by omega)]

@[simp] theorem VCtx.m_setEl (x : VCtx) (d i v : Nat) : (x.setEl d i v).m = x.m := rfl
@[simp] theorem VCtx.holder_setEl (x : VCtx) (d i v : Nat) : (x.setEl d i v).holder = x.holder := rfl

theorem VCtx.mask_setMask (x : VCtx) {d : Nat} (w : Word) (ne : d ≠ 0) (k : Nat) :
    (x.setMask d w).mask k = if k = d then w else x.mask k := by
  unfold VCtx.setMask VCtx.mask
  rw [if_neg ne]
  by_cases zero : k = 0
  · rw [if_pos zero, if_neg (by omega), if_pos zero]
  · rw [if_neg zero, if_neg zero, Map.look_store]
    simp only [eq_comm]

theorem VCtx.mask_setMask_same (x : VCtx) {d : Nat} (w : Word) (ne : d ≠ 0) : (x.setMask d w).mask d = w := by
  rw [x.mask_setMask w ne, if_pos rfl]

@[simp] theorem VCtx.el_setMask (x : VCtx) (d : Nat) (w : Word) (k i : Nat) : (x.setMask d w).el k i = x.el k i := by
  unfold VCtx.setMask
  split <;> rfl

@[simp] theorem VCtx.holder_setMask (x : VCtx) (d : Nat) (w : Word) : (x.setMask d w).holder = x.holder := by
  unfold VCtx.setMask
  split <;> rfl

/-! ### Writing elements one after the other -/

/-- The elements that f names a register and a value for are written, each into that register. -/
def VCtx.writes (f : Nat → Option (Nat × Nat)) (x : VCtx) (l : List Nat) : VCtx :=
  l.foldl (fun y i => match f i with
    | some (d, v) => y.setEl d i v
    | none => y) x

section
variable {f : Nat → Option (Nat × Nat)} {l : List Nat} (x : VCtx)

theorem VCtx.writes_m : (x.writes f l).m = x.m := by
  refine List.foldlRecOn l _ (motive := fun y : VCtx => y.m = x.m) rfl fun y h i _ => ?_
  split
  · rw [VCtx.m_setEl, h]
  · exact h

theorem VCtx.writes_holder : (x.writes f l).holder = x.holder := by
  refine List.foldlRecOn l _ (motive := fun y : VCtx => y.holder = x.holder) rfl fun y h i _ => ?_
  split
  · rw [VCtx.holder_setEl, h]
  · exact h

variable (small : ∀ i ∈ l, i < 64)
include small

theorem VCtx.writes_el_kept {k j : Nat} (hj : j < 64) (other : j ∈ l → ∀ v, f j ≠ some (k, v)) : (x.writes f l).el k j = x.el k j := by
  refine List.foldlRecOn l _ (motive := fun y : VCtx => y.el k j = x.el k j) rfl fun y h i hi => ?_
  split
  · next d v e =>
    rw [y.el_setEl_ne v (small i hi) hj ?_, h]
    by_contra same
    obtain ⟨rfl, rfl⟩ : k = d ∧ j = i := by omega
    exact other hi v e
  · exact h

theorem VCtx.writes_el_written {d i v : Nat} (hi : i ∈ l) (some_ : f i = some (d, v)) : (x.writes f l).el d i = v % 2 ^ 32 := by
  unfold VCtx.writes
  induction l generalizing x with
  | nil => cases hi
  | cons j l ih =>
    obtain ⟨hj, later⟩ := List.forall_mem_cons.mp small
    rw [List.foldl_cons]
    by_cases again : i ∈ l
    · exact ih _ later again
    · obtain rfl : i = j := (List.mem_cons.mp hi).resolve_right again
      rw [some_]
      refine (VCtx.writes_el_kept _ later hj fun h => absurd h again).trans ?_
      exact x.el_setEl_same d i v

end

/-- Writing elements of one register, the chosen ones of a list. -/
theorem VCtx.foldl_setEl_eq_writes (x : VCtx) (d : Nat) (p : Nat → Bool) (v : Nat → Nat) (l : List Nat) :
    l.foldl (fun y i => if p i then y.setEl d i (v i) else y) x = x.writes (fun i => if p i then some (d, v i) else none) l := by
  unfold VCtx.writes
  congr 1
  funext y i
  by_cases h : p i = true <;> simp [h]

/-- An element of the register written holds its value where it was chosen, and the rest is as before. -/
theorem VCtx.foldl_setEl_el (x : VCtx) (d : Nat) (p : Nat → Bool) (v : Nat → Nat) {l : List Nat} (small : ∀ i ∈ l, i < 64) {i : Nat}
    (hi : i ∈ l) : (l.foldl (fun y i => if p i then y.setEl d i (v i) else y) x).el d i = if p i then v i % 2 ^ 32 else x.el d i := by
  rw [VCtx.foldl_setEl_eq_writes]
  by_cases h : p i = true
  · rw [if_pos h]
    exact x.writes_el_written small hi (by simp [h])
  · rw [if_neg h]
    exact x.writes_el_kept small (small i hi) fun _ => by simp [h]

theorem numsFrom_zero_small {n : Nat} (le : n ≤ 64) : ∀ i ∈ numsFrom 0 n, i < 64 := fun _ hi => (mem_numsFrom.mp hi).trans_le le

/-! ### Sub-elements as integers (R154) -/

theorem bitsOf_pos (t : VType) : 0 < t.bitsOf := by cases t <;> decide

/-- A sub-element's integer, by the sign of its type. -/
theorem int_eq_intOf (t : VType) (v : Nat) : t.int v = intOf t.signed (BitVec.ofNat t.bitsOf v) := by
  unfold VType.int intOf
  split
  · exact sx_eq_toInt v (bitsOf_pos t)
  · rw [BitVec.toNat_ofNat]

/-! ### The forms that run whole (R161, R173, R174) -/

theorem finish_maskForms (c : VCmd) (x : VCtx) (d a b : MReg) (ne : d ≠ 0) :
    (c.ins = .vmand d a b → ((c.finish x).1.mask d) = x.mask a &&& x.mask b) ∧
      (c.ins = .vmor d a b → ((c.finish x).1.mask d) = x.mask a ||| x.mask b) ∧
      (c.ins = .vmxor d a b → ((c.finish x).1.mask d) = x.mask a ^^^ x.mask b) ∧
      (c.ins = .vmandn d a b → ((c.finish x).1.mask d) = x.mask a &&& ~~~x.mask b) := by
  have pos : d.val ≠ 0 := fun h => ne (Fin.ext h)
  refine ⟨fun ins => ?_, fun ins => ?_, fun ins => ?_, fun ins => ?_⟩ <;> rw [VCmd.finish, ins] <;> exact x.mask_setMask_same _ pos

section
variable {c : VCmd} (x : VCtx)

theorem finish_vmovgv {d : VReg} {g : GReg} {i : VReg} (ins : c.ins = .vmovgv d g i) :
    (c.finish x).1 = x.setEl d (c.y.toNat % 64) (c.x.toNat % 2 ^ 32) := by
  rw [VCmd.finish, ins]
  simp only [bits_zero]
  rfl

theorem finish_vmovvg {g : GReg} {i : VReg} {t : VType} (ins : c.ins = .vmovvg g i t) :
    (c.finish x).2.2 = some (g, BitVec.ofInt 64 (t.int (x.el i (c.x.toNat % 64)))) := by
  rw [VCmd.finish, ins]
  simp only [bits_zero]
  rfl

theorem finish_vmovvgD {g : GReg} {i : VReg} (ins : c.ins = .vmovvgD g i) :
    let k := c.x.toNat % 64 / 2 * 2
    (c.finish x).2.2 = some (g, BitVec.ofNat 32 (x.el i (k + 1)) ++ BitVec.ofNat 32 (x.el i k)) := by
  intro k
  have pair : BitVec.ofNat 64 (x.el i k + 2 ^ 32 * x.el i (k + 1)) = BitVec.ofNat 32 (x.el i (k + 1)) ++ BitVec.ofNat 32 (x.el i k) := by
    refine BitVec.eq_of_toNat_eq ?_
    rw [toNat_append_eq_add, x.ofNat_el_toNat, x.ofNat_el_toNat, BitVec.toNat_ofNat]
    have := x.el_lt i k
    have := x.el_lt i (k + 1)
    omega
  rw [VCmd.finish, ins, ← pair]
  simp only [bits_zero]
  rfl

/-- The ones among the low bits, counted one by one. -/
theorem foldl_bit_eq_popN (v n : Nat) : (numsFrom 0 n).foldl (fun m j => m + bit (v.testBit j)) 0 = popN v n := by
  rw [numsFrom_zero_eq_range]
  induction n with
  | zero => rfl
  | succ n ih => rw [List.range_succ, List.foldl_append, ih, popN, Nat.add_comm]; rfl

theorem popN_mod_two_pow (v k n : Nat) : popN (v % 2 ^ k) n = popN v (min n k) := by
  induction n with
  | zero => simp [popN]
  | succ n ih =>
    rw [popN, ih, Nat.testBit_mod_two_pow]
    by_cases h : n < k
    · rw [min_eq_left (by omega), min_eq_left (by omega), popN]
      simp [h]
    · rw [min_eq_right (by omega), min_eq_right (by omega)]
      simp [h, bit]

theorem finish_vmpop {g : GReg} {m : MReg} (vl : c.vl ≤ 64) (ins : c.ins = .vmpop g m) :
    (c.finish x).2.2 = some (g, (((x.mask m).setWidth c.vl).setWidth 64).cpop) := by
  have low : (((x.mask m).setWidth c.vl).setWidth 64).toNat = (x.mask m).toNat % 2 ^ c.vl := by
    rw [BitVec.toNat_setWidth, BitVec.toNat_setWidth, Nat.mod_eq_of_lt]
    exact (Nat.mod_lt _ (Nat.two_pow_pos _)).trans_le (Nat.pow_le_pow_right (by decide) vl)
  rw [VCmd.finish, ins, ← popN_eq, low, popN_mod_two_pow, min_eq_right vl, ← foldl_bit_eq_popN]

theorem finish_vperm {d a b : VReg} {k : MReg} (ins : c.ins = .vperm d a b k) {i : Nat} (hi : i < 64) :
    (c.finish x).1.el d i = if c.active x i then x.el a (x.el b i % 64) else x.el d i := by
  rw [VCmd.finish, ins]
  dsimp only
  rw [x.foldl_setEl_el d (c.active x) (fun i => x.el a (x.el b i % 64)) (numsFrom_zero_small le_rfl) (mem_numsFrom.mpr hi),
    Nat.mod_eq_of_lt (x.el_lt _ _)]

theorem finish_vslide {d : VReg} {g : GReg} {a : VReg} {k : MReg} (ins : c.ins = .vslide d g a k) {i : Nat} (hi : i < 64) :
    (c.finish x).1.el d i = if c.active x i then
      (if 0 ≤ (i : Int) + c.x.toInt ∧ (i : Int) + c.x.toInt ≤ 63 then x.el a ((i : Int) + c.x.toInt).toNat else 0) else x.el d i := by
  rw [VCmd.finish, ins]
  dsimp only
  rw [x.foldl_setEl_el d (c.active x)
    (fun i => if 0 ≤ (i : Int) + c.x.toInt ∧ (i : Int) + c.x.toInt ≤ 63 then x.el a ((i : Int) + c.x.toInt).toNat else 0)
    (numsFrom_zero_small le_rfl) (mem_numsFrom.mpr hi), Nat.mod_eq_of_lt (by split; exacts [x.el_lt _ _, by decide])]

end

theorem vectorWholeForms : VectorWholeForms := by
  intro c x vl
  refine ⟨finish_maskForms c x, fun d g i ins => ?_, fun g i ins => ?_, fun g i ins => ?_, fun g i ins => finish_vmovvgD x ins,
    fun g m ins => finish_vmpop x vl ins, fun d a b k i ins => finish_vperm x ins, fun d g a k i ins => finish_vslide x ins⟩
  · rw [finish_vmovgv x ins]
    exact ⟨by simp, fun k j hj ne => x.el_setEl_ne _ (Nat.mod_lt _ (by decide)) hj ne⟩
  · rw [finish_vmovvg x ins, int_eq_intOf]
    rfl
  · rw [finish_vmovvg x ins, int_eq_intOf]
    congr 2
    exact (BitVec.ofInt_natCast ..).trans (BitVec.ofNat_toNat ..)

/-! ### The context forms (R144, R177) -/

/-- An element that is put into a list where no other satisfies p is found there. -/
theorem find?_setAt {α : Type} {p : α → Bool} {x : α} (l : List α) {n : Nat} (lt : n < l.length) (others : ∀ y ∈ l, p y = false)
    (found : p x = true) : (setAt l n x).find? p = some x := by
  induction l generalizing n with
  | nil => cases lt
  | cons y l ih =>
    obtain ⟨no, others⟩ := List.forall_mem_cons.mp others
    cases n with
    | zero => simp [setAt, found]
    | succ n => simpa [setAt, no] using ih (Nat.lt_of_succ_lt_succ lt) others

/-- A core whose list of contexts has one of a thread lends it that one. -/
theorem Core.ctx_of_find? {k : Core} {tid : Nat} {x : VCtx} (found : k.vctx.find? (fun v => v.holder == some tid) = some x) :
    k.ctx tid = x ∧ holdsCtx k tid = true :=
  ⟨congrArg (fun o : Option VCtx => o.getD {}) found,
    List.any_eq_true.mpr ⟨x, List.mem_of_find?_eq_some found, List.find?_some (p := fun v : VCtx => v.holder == some tid) found⟩⟩

/-- The core with a free context lent to a thread. -/
def Core.lend (k : Core) (n tid : Nat) : Core := { k with vctx := setAt k.vctx n { holder := some tid } }

theorem Core.lend_ctx {k : Core} {n tid : Nat} (lt : n < k.vctx.length) (none_ : holdsCtx k tid = false) :
    (k.lend n tid).ctx tid = { holder := some tid } ∧ holdsCtx (k.lend n tid) tid = true :=
  Core.ctx_of_find? (find?_setAt k.vctx lt (fun y hy => Bool.eq_false_iff.mpr (List.any_eq_false.mp none_ y hy)) (beq_self_eq_true _))

theorem Core.holdsCtx_free (k : Core) (tid : Nat) :
    holdsCtx { k with vctx := k.vctx.map fun v => if v.holder = some tid then {} else v } tid = false := by
  refine List.any_eq_false.mpr fun v hv => ?_
  obtain ⟨y, -, rfl⟩ := List.mem_map.mp hv
  split
  · simp
  · next h => simpa using h

section
variable {s : State} {t : Thread} (thread : s.thread s.cur = some t) {a : GReg}
include thread

theorem vclaim_of_held (held : holdsCtx (s.core (coreOf s.cur)) s.cur = true) : s.retires (.vclaim a) (t.wr a 1) (t.pc + 4) := by
  refine State.retiresIn_of_write (e := 0) rfl ((State.onThread_eq thread _).trans ?_)
  dsimp only
  rw [held]
  rfl

theorem vclaim_of_none (held : holdsCtx (s.core (coreOf s.cur)) s.cur = false)
    (lent : ∀ x ∈ (s.core (coreOf s.cur)).vctx, x.holder ≠ none) : s.retires (.vclaim a) (t.wr a 0) (t.pc + 4) := by
  have none_ : (s.core (coreOf s.cur)).vctx.findIdx? (fun v => v.holder.isNone) = none := by
    simpa [List.findIdx?_eq_none_iff, Option.isSome_iff_ne_none] using lent
  refine State.retiresIn_of_write (e := 0) rfl ((State.onThread_eq thread _).trans ?_)
  dsimp only
  rw [held, none_]
  rfl

theorem vclaim_of_free (held : holdsCtx (s.core (coreOf s.cur)) s.cur = false)
    (free : ∃ x ∈ (s.core (coreOf s.cur)).vctx, x.holder = none) : answers (exec (.vclaim a) s) fun s' =>
      holdsCtx (s'.core (coreOf s.cur)) s.cur = true ∧ (s'.core (coreOf s.cur)).ctx s.cur = { holder := some s.cur } ∧
        s'.thread s.cur = some ((t.wr a 1).retired (t.pc + 4)) := by
  obtain ⟨n, first⟩ : ∃ n, (s.core (coreOf s.cur)).vctx.findIdx? (fun v => v.holder.isNone) = some n := by
    rw [← Option.isSome_iff_exists, List.findIdx?_isSome]
    simpa using free
  obtain ⟨lt, -⟩ := List.findIdx?_eq_some_iff_getElem.mp first
  have run : exec (.vclaim a) s = (s.modCore (coreOf s.cur) fun k => k.lend n s.cur).write t a 1 0 := by
    refine (State.onThread_eq thread _).trans ?_
    dsimp only
    rw [held, first]
    rfl
  obtain ⟨s', next, frame, thread'⟩ := State.write_answers (s.modCore (coreOf s.cur) fun k => k.lend n s.cur) t a 1 0
  have vctx : (s'.core (coreOf s.cur)).vctx = ((s.core (coreOf s.cur)).lend n s.cur).vctx := by
    have core := congrArg Core.vctx (frame.cores (coreOf s.cur))
    rwa [State.core_modCore_same] at core
  obtain ⟨ctx, holds⟩ := Core.lend_ctx lt held
  refine ⟨s', run.trans next, ?_, ?_, thread'⟩
  · rwa [holdsCtx, vctx]
  · rwa [Core.ctx, vctx]

theorem vrel_of_idle (idle : s.vbusy s.cur = false) (empty : t.vrec = []) : answers (exec .vrel s) fun s' =>
    holdsCtx (s'.core (coreOf s.cur)) s.cur = false ∧ s'.thread s.cur = some (t.retired (t.pc + 4)) := by
  have run : exec .vrel s = (s.freeCtx s.cur).finish t 0 := by
    refine (State.onThread_eq thread _).trans ?_
    rw [idle, empty]
    rfl
  obtain ⟨s', next, frame, thread'⟩ := State.finish_answers (s.freeCtx s.cur) t 0
  refine ⟨s', run.trans next, ?_, thread'⟩
  have core := congrArg Core.vctx (frame.cores (coreOf s.cur))
  rw [State.freeCtx, State.core_modCore_same] at core
  have freed := (s.core (coreOf s.cur)).holdsCtx_free s.cur
  rw [holdsCtx] at freed ⊢
  rwa [← core] at freed

theorem vrel_of_busy (busy : s.vbusy s.cur = true ∨ t.vrec ≠ []) : s.blocks .vrel t (.await .vgone s.ir) := by
  refine (State.onThread_eq thread _).trans ?_
  rw [if_pos (by simpa using busy)]
  exact State.wait_eq s t _

theorem vsetl_retires : s.retires (.vsetl a) ({ t with fp := { t.fp with vl := vlOf (t.rd a) } }.wr a (vlOf (t.rd a))) (t.pc + 4) :=
  State.retiresIn_of_write (e := 0) (t := { t with fp := { t.fp with vl := vlOf (t.rd a) } }) rfl (State.onThread_eq thread _)

end

theorem vectorContextForms : VectorContextForms := by
  intro s t a thread
  refine ⟨vclaim_of_held thread, vclaim_of_none thread, vclaim_of_free thread, vrel_of_idle thread, vrel_of_busy thread, ?_⟩
  have retires := vsetl_retires thread (a := a)
  rwa [vlOf_eq] at retires

/-! ### What a beat changes beside elements, masks and memory (R150 to R152) -/

/-- s' is s but for its threads, what the arbiter notes, and the meters, the noted retirements and the range locks of its cores. -/
structure State.tallies (s s' : State) : Prop where
  rest : { s' with threads := s.threads, cores := s.cores, arb := s.arb } = s
  cores : ∀ d, { s'.core d with meters := (s.core d).meters, retired := (s.core d).retired, locks := (s.core d).locks } = s.core d

theorem State.tallies.refl (s : State) : s.tallies s := ⟨rfl, fun _ => rfl⟩

section
variable {s s' : State} (h : s.tallies s')
include h

theorem State.tallies.modThread {tid : Nat} {f : Thread → Thread} : s.tallies (s'.modThread tid f) := by
  unfold State.modThread
  split
  · exact ⟨h.rest, h.cores⟩
  · exact h

theorem State.tallies.modCore {core : Nat} {f : Core → Core}
    (same : ∀ k : Core, { f k with meters := k.meters, retired := k.retired, locks := k.locks } = k) : s.tallies (s'.modCore core f) := by
  refine ⟨h.rest, fun d => ?_⟩
  by_cases e : d = core
  · subst e
    rw [State.core_modCore_same]
    exact (congrArg (fun k : Core => { k with meters := (s.core d).meters, retired := (s.core d).retired, locks := (s.core d).locks })
      (same (s'.core d))).trans (h.cores d)
  · rw [State.core_modCore_ne _ _ e]
    exact h.cores d

theorem State.tallies.noteMeter {core : Nat} {m : Meter} : s.tallies (s'.noteMeter core m) := ⟨h.rest, h.cores⟩

theorem State.tallies.charge {core o priv e n : Nat} : s.tallies (s'.charge core o priv e n) := by
  unfold State.charge State.accrue
  split
  · split
    · split
      · refine (h.modCore ?_).noteMeter
        exact fun _ => rfl
      · exact h
    · exact h
  · exact h

theorem State.tallies.sweepMeters {core : Nat} : s.tallies (s'.sweepMeters core) := by
  unfold State.sweepMeters
  extract_lets gone noted
  have kept : s.tallies noted := by
    refine List.foldlRecOn gone _ (motive := fun x : State => s.tallies x) h fun x hx m _ => ?_
    split
    · exact hx.noteMeter
    · exact hx
  split
  · exact kept
  · exact kept.modCore fun _ => rfl

theorem State.tallies.retireEngine {core o priv tid uid : Nat} : s.tallies (s'.retireEngine core o priv tid uid) := by
  have freed : s.tallies (s'.freeLocks core uid) := by
    unfold State.freeLocks State.moveLocks
    refine h.modCore ?_
    exact fun _ => rfl
  refine State.tallies.sweepMeters ?_
  unfold State.noteRetired
  split
  · exact freed.modCore fun _ => rfl
  · exact freed

end

/-- The contexts and the LM of every core, and what else the bytes of memory depend on, are the same. -/
structure State.dataAs (s s' : State) : Prop where
  vctx : ∀ d, (s'.core d).vctx = (s.core d).vctx
  lm : ∀ d, (s'.core d).lm = (s.core d).lm
  parts : s'.parts = s.parts
  shares : s'.shares = s.shares
  hbm : s'.hbm = s.hbm
  far : s'.far = s.far
  host : s'.host = s.host

theorem State.dataAs.trans {s s' s'' : State} (h : s.dataAs s') (h' : s'.dataAs s'') : s.dataAs s'' :=
  ⟨fun d => (h'.vctx d).trans (h.vctx d), fun d => (h'.lm d).trans (h.lm d), h'.parts.trans h.parts, h'.shares.trans h.shares,
    h'.hbm.trans h.hbm, h'.far.trans h.far, h'.host.trans h.host⟩

theorem State.dataAs.readLoc {s s' : State} (h : s.dataAs s') (l : Loc) (n : Nat) : s'.readLoc l n = s.readLoc l n :=
  State.readLoc_congr h.lm h.parts h.shares h.hbm h.far h.host l n

theorem State.dataAs.ctx {s s' : State} (h : s.dataAs s') (d tid : Nat) : (s'.core d).ctx tid = (s.core d).ctx tid := by
  rw [Core.ctx, Core.ctx, h.vctx]

theorem State.tallies.dataAs {s s' : State} (h : s.tallies s') : s.dataAs s' :=
  ⟨fun d => (congrArg Core.vctx (h.cores d) :), fun d => (congrArg Core.lm (h.cores d) :), (congrArg State.parts h.rest :),
    (congrArg State.shares h.rest :), (congrArg State.hbm h.rest :), (congrArg State.far h.rest :), (congrArg State.host h.rest :)⟩

theorem State.dataAs_modCore (s : State) {core : Nat} {f : Core → Core} (vctx : ∀ k, (f k).vctx = k.vctx) (lm : ∀ k, (f k).lm = k.lm) :
    s.dataAs (s.modCore core f) := by
  refine ⟨fun d => ?_, fun d => ?_, rfl, rfl, rfl, rfl, rfl⟩ <;> by_cases e : d = core
  · subst e
    rw [State.core_modCore_same, vctx]
  · rw [State.core_modCore_ne _ _ e]
  · subst e
    rw [State.core_modCore_same, lm]
  · rw [State.core_modCore_ne _ _ e]

/-! ### Moving commands into a restart record (R152) -/

section
variable (s : State) (tid : Nat) (f : VCmd → Bool)

/-- What becomes of a core: its vector queue loses commands that are meant, or has them marked. -/
theorem State.recordV_core (d : Nat) : ∃ vq, (s.recordV tid f).core d = { s.core d with vq := vq } ∧
    (∀ v ∈ vq, ∃ v' ∈ (s.core d).vq, v'.uid = v.uid) ∧ ∀ v ∈ (s.core d).vq, f v = false → v ∈ vq := by
  have moved (q : List VCmd → List VCmd) (stood : ∀ l, ∀ v ∈ q l, ∃ v' ∈ l, v'.uid = v.uid)
      (stays : ∀ l, ∀ v ∈ l, f v = false → v ∈ q l) :
      ∃ vq, (s.modCore (coreOf tid) fun k => { k with vq := q k.vq }).core d = { s.core d with vq := vq } ∧
        (∀ v ∈ vq, ∃ v' ∈ (s.core d).vq, v'.uid = v.uid) ∧ ∀ v ∈ (s.core d).vq, f v = false → v ∈ vq := by
    by_cases e : d = coreOf tid
    · subst e
      exact ⟨_, State.core_modCore_same .., stood _, stays _⟩
    · exact ⟨_, State.core_modCore_ne _ _ e, fun v hv => ⟨v, hv, rfl⟩, fun v hv _ => hv⟩
  unfold State.recordV
  extract_lets core k goes go
  have left {v : VCmd} (h : f v = false) : goes v = false := by simp [goes, h]
  split
  · exact ⟨_, rfl, fun v hv => ⟨v, hv, rfl⟩, fun v hv _ => hv⟩
  · split
    · refine moved (fun l => l.map fun c => if goes c then { c with halting := true } else c) (fun l v hv => ?_) fun l v hv h =>
        List.mem_map.mpr ⟨v, hv, by simp [left h]⟩
      obtain ⟨v', mem, rfl⟩ := List.mem_map.mp hv
      exact ⟨v', mem, by split <;> rfl⟩
    · rw [State.core_modThread]
      exact moved (fun l => l.filter fun c => !goes c) (fun l v hv => ⟨v, List.mem_of_mem_filter hv, rfl⟩) fun l v hv h =>
        List.mem_filter.mpr ⟨hv, by simp [left h]⟩

theorem State.recordV_dataAs : s.dataAs (s.recordV tid f) := by
  have rest : ∃ threads cores, s.recordV tid f = { s with threads := threads, cores := cores } := by
    unfold State.recordV State.modThread
    extract_lets core k goes go
    split
    · exact ⟨_, _, rfl⟩
    · split
      · exact ⟨_, _, rfl⟩
      · split <;> exact ⟨_, _, rfl⟩
  have core (d : Nat) : ((s.recordV tid f).core d).vctx = (s.core d).vctx ∧ ((s.recordV tid f).core d).lm = (s.core d).lm := by
    obtain ⟨vq, same, -⟩ := s.recordV_core tid f d
    rw [same]
    exact ⟨rfl, rfl⟩
  obtain ⟨threads, cores, same⟩ := rest
  exact ⟨fun d => (core d).1, fun d => (core d).2, by rw [same], by rw [same], by rw [same], by rw [same], by rw [same]⟩

end

/-! ### A beat of a form that runs element by element (R150 to R152) -/

/-- The core's vector engine runs a beat of the command at the head of its queue in this cc. -/
structure State.beatRuns (s : State) (core : Nat) (c : VCmd) (l : List VCmd) : Prop where
  queue : (s.core core).vq = c :: l
  due : (s.core core).beatDue s.cc c = true
  free : (s.core core).engineHeld c.begun = false
  clear : s.mustWait core c.uid = false
  ready : s.vaccReady core c = true

/-- The elements of the command's next beat, with `per` elements in a beat. -/
def VCmd.beatEls (c : VCmd) (per : Nat) : List Nat := numsFrom c.pos (min per (c.vl - c.pos))

theorem VCmd.mem_beatEls {c : VCmd} {per i : Nat} : i ∈ c.beatEls per ↔ c.pos ≤ i ∧ i < min (c.pos + per) c.vl := by
  rw [VCmd.beatEls, numsFrom_eq_range', List.mem_range'_1]
  omega

theorem VCmd.beatEls_small {c : VCmd} {per : Nat} (vl : c.vl ≤ 64) : ∀ i ∈ c.beatEls per, i < 64 := fun _ hi =>
  (VCmd.mem_beatEls.mp hi).2.trans_le ((min_le_right _ _).trans vl)

theorem VCmd.pos_add_beatEls {c : VCmd} (per : Nat) (lt : c.pos < c.vl) : c.pos + (c.beatEls per).length = min (c.pos + per) c.vl := by
  rw [VCmd.beatEls, numsFrom_eq_range', List.length_range']
  omega

/-- The tile that a `vacc` reads. -/
def Core.beatTile (k : Core) (c : VCmd) : TileSt :=
  match c.ins with
  | .vacc _ _ i _ _ => k.tiles.getD i {}
  | _ => {}

/-- The context and the flags that the elements of a beat leave. -/
def Core.beatRun (k : Core) (c : VCmd) (els : List Nat) : VCtx × Nat :=
  c.runEls (k.ctx c.tid) (fun j => ((k.beatTile c).el.look j).getD 0) (k.beatTile c).eacc els (k.ctx c.tid, 0)

/-- The context after a beat: the last beat of a comparison also clears the mask bits from VL on. -/
def Core.beatCtx (k : Core) (c : VCmd) (els : List Nat) : VCtx :=
  let y := (k.beatRun c els).1
  match c.cond (k.ctx c.tid) 0 with
  | some (d, _, _) => if c.vl ≤ c.pos + els.length then y.setMask d (y.mask d &&& BitVec.ofNat 64 (2 ^ c.vl - 1)) else y
  | none => y

/-- The state of the cc in which the core's engine has run the registers' part of a beat. -/
def State.beatDone (s : State) (core : Nat) (c : VCmd) (y : VCtx) : State :=
  (s.modCore core fun k => { k with vrun := some s.cc }).modCore core fun k => k.setCtx c.tid y

/-- What follows a beat up to element hi: its flags and its charge, and the command retires or stands at hi; then what waited for a beat
in progress goes into its restart record. -/
def State.beatEnd (s : State) (core : Nat) (c : VCmd) (flags units hi : Nat) : State :=
  let s := s.modThread c.tid fun t => { t.raiseF flags with fp := { (t.raiseF flags).fp with vpos := 0 } }
  let s := s.charge core c.owner c.priv (Instr.vcharge c.ins) units
  let s := if c.vl ≤ hi then (s.modCore core fun k => k.dropV c.uid).retireEngine core c.owner c.priv c.tid c.uid
    else s.modCore core fun k => k.setV { c with pos := hi, begun := true, beats := c.beats + 1 }
  s.recordV c.tid fun x => x.halting

theorem State.vectorBeat_elems {s : State} {core per : Nat} {c : VCmd} {l : List VCmd} (runs : s.beatRuns core c l)
    (shape : Instr.vshape c.ins = .elems per) : s.vectorBeat core =
      let k := s.core core
      let els := c.beatEls per
      ((s.beatDone core c (k.beatCtx c els)).vmemBeat core c els).beatEnd core c (k.beatRun c els).2
        (c.charged (k.ctx c.tid) els) (c.pos + els.length) := by
  obtain ⟨queue, due, free, clear, ready⟩ := runs
  unfold State.vectorBeat
  dsimp only
  rw [queue]
  dsimp only
  rw [if_neg (by simp [due, free, clear, ready]), shape]
  simp only [decide_eq_true_eq]
  rfl

section
variable (s : State) (core : Nat) (c : VCmd) (flags units hi : Nat)

/-- The end of a beat leaves contexts and memory as they are. -/
theorem State.beatEnd_dataAs : s.dataAs (s.beatEnd core c flags units hi) := by
  unfold State.beatEnd
  extract_lets s1 s2 s3
  have charged : s.tallies s2 := ((State.tallies.refl s).modThread).charge
  have left : s2.dataAs s3 := by
    unfold s3
    split
    · have dropped := s2.dataAs_modCore (core := core) (f := fun k => k.dropV c.uid) (fun _ => rfl) fun _ => rfl
      exact dropped.trans (State.tallies.refl _).retireEngine.dataAs
    · exact s2.dataAs_modCore (f := fun k => k.setV { c with pos := hi, begun := true, beats := c.beats + 1 }) (fun _ => rfl) fun _ => rfl
  exact (charged.dataAs.trans left).trans (s3.recordV_dataAs _ _)

/-- A command whose last beat it was has left the queue. -/
theorem State.beatEnd_retires (last : c.vl ≤ hi) : ∀ c' ∈ ((s.beatEnd core c flags units hi).core core).vq, c'.uid ≠ c.uid := by
  unfold State.beatEnd
  extract_lets s1 s2 s3
  have gone : (s3.core core).vq = (s2.core core).vq.filter fun x => x.uid != c.uid := by
    have retired := (State.tallies.refl (s2.modCore core fun k => k.dropV c.uid)).retireEngine (core := core) (o := c.owner)
      (priv := c.priv) (tid := c.tid) (uid := c.uid)
    have vq := congrArg Core.vq (retired.cores core)
    rw [State.core_modCore_same] at vq
    unfold s3
    rw [if_pos last]
    exact vq
  obtain ⟨vq, same, stood, -⟩ := s3.recordV_core c.tid (fun x => x.halting) core
  rw [same]
  intro c' mem
  obtain ⟨v, mem', uid⟩ := stood c' mem
  rw [gone] at mem'
  rw [← uid]
  simpa using (List.mem_filter.mp mem').2

/-- A command that has a beat to come stands in the queue at the element it has reached. -/
theorem State.beatEnd_stays (more : hi < c.vl) (self : c.halting = false) (mem : c ∈ (s.core core).vq) :
    ∃ c' ∈ ((s.beatEnd core c flags units hi).core core).vq, c'.uid = c.uid ∧ c'.pos = hi ∧ c'.begun = true := by
  unfold State.beatEnd
  extract_lets s1 s2 s3
  have charged : s.tallies s2 := ((State.tallies.refl s).modThread).charge
  have here : { c with pos := hi, begun := true, beats := c.beats + 1 } ∈ (s3.core core).vq := by
    have mem2 : c ∈ (s2.core core).vq := (congrArg Core.vq (charged.cores core) :) ▸ mem
    unfold s3
    rw [if_neg (by omega), State.core_modCore_same]
    exact List.mem_map.mpr ⟨c, mem2, if_pos rfl⟩
  obtain ⟨vq, same, -, stays⟩ := s3.recordV_core c.tid (fun x => x.halting) core
  rw [same]
  have mem' := stays _ here
  exact ⟨_, mem' self, rfl, rfl, rfl⟩

end

/-! ### The context of a thread (R142) -/

theorem Core.find?_of_holdsCtx {k : Core} {tid : Nat} (holds : holdsCtx k tid = true) :
    k.vctx.find? (fun v => v.holder == some tid) = some (k.ctx tid) ∧ (k.ctx tid).holder = some tid := by
  obtain ⟨x, found⟩ := Option.isSome_iff_exists.mp (List.find?_isSome.trans (List.any_eq_true.symm) |>.mpr holds)
  have ctx : k.ctx tid = x := congrArg (fun o : Option VCtx => o.getD {}) found
  rw [ctx]
  exact ⟨found, by simpa using List.find?_some found⟩

/-- A context that is replaced reads back. -/
theorem Core.ctx_setCtx {k : Core} {tid : Nat} (holds : holdsCtx k tid = true) {y : VCtx} (own : y.holder = some tid) :
    (k.setCtx tid y).ctx tid = y ∧ holdsCtx (k.setCtx tid y) tid = true := by
  refine Core.ctx_of_find? ?_
  have same : ((fun v : VCtx => v.holder == some tid) ∘ fun v => if v.holder = some tid then y else v) = fun v => v.holder == some tid := by
    funext v
    dsimp only [Function.comp]
    split
    · next h => rw [own, h]
    · rfl
  obtain ⟨found, holder⟩ := Core.find?_of_holdsCtx holds
  rw [Core.setCtx, List.find?_map, same, found, Option.map_some, if_pos holder]

/-- The registers' part of a beat leaves the context it has computed, and every byte of memory. -/
theorem State.beatDone_ctx {s : State} {core : Nat} {c : VCmd} {y : VCtx} (holds : holdsCtx (s.core core) c.tid = true)
    (own : y.holder = some c.tid) :
    ((s.beatDone core c y).core core).ctx c.tid = y ∧ holdsCtx ((s.beatDone core c y).core core) c.tid = true := by
  rw [State.beatDone, State.core_modCore_same, State.core_modCore_same]
  exact Core.ctx_setCtx (k := { s.core core with vrun := some s.cc }) holds own

theorem State.beatDone_lm (s : State) (core : Nat) (c : VCmd) (y : VCtx) (d : Nat) :
    ((s.beatDone core c y).core d).lm = (s.core d).lm := by
  by_cases e : d = core
  · subst e
    rw [State.beatDone, State.core_modCore_same, State.core_modCore_same]
    rfl
  · rw [State.beatDone, State.core_modCore_ne _ _ e, State.core_modCore_ne _ _ e]

theorem State.beatDone_readLoc (s : State) (core : Nat) (c : VCmd) (y : VCtx) (l : Loc) (n : Nat) :
    (s.beatDone core c y).readLoc l n = s.readLoc l n :=
  State.readLoc_congr (s.beatDone_lm core c y) rfl rfl rfl rfl rfl l n

theorem State.beatDone_vq (s : State) (core : Nat) (c : VCmd) (y : VCtx) : ((s.beatDone core c y).core core).vq = (s.core core).vq := by
  rw [State.beatDone, State.core_modCore_same, State.core_modCore_same]
  rfl

/-! ### Elements written by a beat (R151) -/

/-- The register and the value that a form which writes elements has for element i, if it is active. -/
def VCmd.written (c : VCmd) (x : VCtx) (tile : Nat → Word) (eacc i : Nat) : Option (Nat × Nat) :=
  if c.active x i then (c.elem x tile eacc i).map fun r => (r.1, r.2.1) else none

theorem VCmd.runEls_eq_writes {c : VCmd} {x0 : VCtx} (noCond : ∀ i, c.cond x0 i = none) (noSel : ∀ d a b k, c.ins ≠ .vsel d a b k)
    (tile : Nat → Word) (eacc : Nat) (l : List Nat) (r : VCtx × Nat) :
    (c.runEls x0 tile eacc l r).1 = r.1.writes (c.written x0 tile eacc) l := by
  induction l generalizing r with
  | nil => rfl
  | cons i l ih =>
    obtain ⟨x, fl⟩ := r
    rw [VCmd.runEls, ih, noCond]
    dsimp only
    unfold VCtx.writes
    rw [List.foldl_cons]
    congr 1
    unfold VCmd.written
    split
    · next ins => exact (noSel _ _ _ _ ins).elim
    · by_cases act : c.active x0 i = true
      · rw [if_pos act, if_pos act]
        cases c.elem x0 tile eacc i <;> rfl
      · rw [if_neg act, if_neg act]

theorem State.vmemBeat_of_none {s : State} {core : Nat} {c : VCmd} {els : List Nat} (none_ : Instr.vmem c.ins = none) :
    s.vmemBeat core c els = s := by
  unfold State.vmemBeat
  rw [none_]

theorem vectorBeatWritesElements : VectorBeatWritesElements := by
  intro s core per c l queue due free clear ready shape noMem holds vl lt noSel self x tl result hi noCond
  have runs : s.beatRuns core c l := ⟨queue, due, free, clear, ready⟩
  refine ⟨s.vectorBeat core, rfl, ?_⟩
  rw [State.vectorBeat_elems runs shape]
  extract_lets k els
  have hi_eq : c.pos + els.length = hi := VCmd.pos_add_beatEls per lt
  have mem {i : Nat} : i ∈ els ↔ c.pos ≤ i ∧ i < hi := VCmd.mem_beatEls
  have small : ∀ i ∈ els, i < 64 := VCmd.beatEls_small vl
  have y_eq : k.beatCtx c els = x.writes (c.written x (fun j => (tl.el.look j).getD 0) tl.eacc) els := by
    unfold Core.beatCtx
    rw [noCond]
    exact VCmd.runEls_eq_writes noCond noSel _ _ els (x, 0)
  have own : (k.beatCtx c els).holder = some c.tid := by
    rw [y_eq, VCtx.writes_holder]
    exact (Core.find?_of_holdsCtx holds).2
  rw [State.vmemBeat_of_none noMem, hi_eq]
  generalize done : s.beatDone core c (k.beatCtx c els) = s1
  have data := s1.beatEnd_dataAs core c (k.beatRun c els).2 (c.charged (k.ctx c.tid) els) hi
  have ctx : (s1.core core).ctx c.tid = k.beatCtx c els := done ▸ (State.beatDone_ctx holds own).1
  have vq : (s1.core core).vq = c :: l := by rw [← done, State.beatDone_vq, queue]
  dsimp only
  rw [data.ctx, ctx, y_eq]
  refine ⟨fun i d v f lo up act res _ => ?_, fun j i hi64 other => ?_, x.writes_m, fun l => ?_, fun last => ?_, fun more => ?_⟩
  · exact x.writes_el_written small (mem.mpr ⟨lo, up⟩) (by rw [VCmd.written, if_pos act]; exact congrArg (Option.map _) res)
  · refine x.writes_el_kept small hi64 fun here v some_ => ?_
    obtain ⟨lo, up⟩ := mem.mp here
    unfold VCmd.written at some_
    split at some_
    · next act =>
      obtain ⟨⟨d', v', f'⟩, res, eq⟩ := Option.map_eq_some_iff.mp some_
      obtain ⟨rfl, rfl⟩ := Prod.mk.inj eq
      rcases other with h | h | h | h
      · omega
      · omega
      · exact absurd (h.symm.trans act) Bool.false_ne_true
      · exact h _ _ res
    · cases some_
  · rw [data.readLoc, ← done, State.beatDone_readLoc]
  · exact s1.beatEnd_retires core c _ _ hi last.ge
  · exact s1.beatEnd_stays core c _ _ hi more self (vq ▸ List.mem_cons_self ..)

/-! ### Comparisons (R160) -/

/-- One bit set or cleared. -/
theorem testBit_setBit (m : Word) (i : Nat) (b : Bool) {j : Nat} (hj : j < 64) :
    (if b then m ||| BitVec.ofNat 64 (2 ^ i) else m &&& ~~~BitVec.ofNat 64 (2 ^ i)).toNat.testBit j =
      if i = j then b else m.toNat.testBit j := by
  have one : (BitVec.ofNat 64 (2 ^ i)).getLsbD j = decide (i = j) := by
    rw [BitVec.getLsbD_ofNat, Nat.testBit_two_pow, decide_eq_true hj, Bool.true_and]
  have bit (w : Word) : w.toNat.testBit j = w.getLsbD j := BitVec.testBit_toNat w
  rw [bit, bit]
  generalize BitVec.ofNat 64 (2 ^ i) = p at one ⊢
  rw [BitVec.getLsbD_eq_getElem hj] at one
  by_cases e : i = j
  · cases b <;> simp [one, e, hj]
  · cases b <;> simp [one, e, hj]

/-- The bits below n. -/
theorem testBit_and_low (m : Word) (n j : Nat) :
    (m &&& BitVec.ofNat 64 (2 ^ n - 1)).toNat.testBit j = (m.toNat.testBit j && decide (j < n)) := by
  by_cases hj : j < 64
  · rw [BitVec.toNat_and, Nat.testBit_and, BitVec.toNat_ofNat, Nat.testBit_mod_two_pow, Nat.testBit_two_pow_sub_one]
    simp [hj]
  · rw [BitVec.testBit_toNat, BitVec.testBit_toNat, BitVec.getLsbD_of_ge _ _ (by omega), BitVec.getLsbD_of_ge _ _ (by omega)]
    rfl

/-- What a comparison of a beat leaves of the context, as far as element j and mask d are concerned. -/
structure VCmd.compared (c : VCmd) (x0 : VCtx) (d : Nat) (els : List Nat) (x y : VCtx) : Prop where
  bits : ∀ j, j < 64 → (y.mask d).toNat.testBit j =
    if j ∈ els then c.active x0 j && (match c.cond x0 j with | some (_, b, _) => b | none => false) else (x.mask d).toNat.testBit j
  masks : ∀ k, k ≠ d → y.mask k = x.mask k
  el : ∀ k i, y.el k i = x.el k i
  holder : y.holder = x.holder

theorem VCmd.runEls_compared {c : VCmd} {x0 : VCtx} {d : Nat} (ne : d ≠ 0) (cond : ∀ i, ∃ b f, c.cond x0 i = some (d, b, f))
    (tile : Nat → Word) (eacc : Nat) (l : List Nat) (r : VCtx × Nat) :
    c.compared x0 d l r.1 (c.runEls x0 tile eacc l r).1 := by
  induction l generalizing r with
  | nil => exact ⟨fun _ _ => rfl, fun _ _ => rfl, fun _ _ => rfl, rfl⟩
  | cons i l ih =>
    obtain ⟨x, fl⟩ := r
    obtain ⟨b, f, here⟩ := cond i
    rw [VCmd.runEls, here]
    dsimp only
    obtain ⟨bits, masks, el, holder⟩ := ih
      (x.setMask d (if c.active x0 i && b then x.mask d ||| BitVec.ofNat 64 (2 ^ i) else x.mask d &&& ~~~BitVec.ofNat 64 (2 ^ i)),
        fl ||| (if c.active x0 i then f else 0))
    refine ⟨fun j hj => ?_, fun k hk => ?_, fun k i => ?_, ?_⟩
    · rw [bits j hj, x.mask_setMask_same _ ne, testBit_setBit _ _ _ hj]
      by_cases again : j ∈ l
      · simp [again]
      · by_cases e : i = j
        · subst e
          simp [again, here]
        · simp [again, e, Ne.symm e]
    · rw [masks k hk, x.mask_setMask _ ne, if_neg hk]
    · rw [el, VCtx.el_setMask]
    · rw [holder, VCtx.holder_setMask]

/-- A form that accesses memory writes no element, compares nothing and selects nothing by itself. -/
theorem VCmd.of_vmem {c : VCmd} {r : Bool × Nat × Nat × Nat × VType} (mem : Instr.vmem c.ins = some r) :
    (∀ x i, c.cond x i = none) ∧ (∀ x tile eacc i, c.elem x tile eacc i = none) ∧ ∀ d a b k, c.ins ≠ .vsel d a b k := by
  unfold Instr.vmem at mem
  split at mem
  case h_7 => cases mem
  all_goals
    next ins =>
      refine ⟨fun x i => ?_, fun x tile eacc i => ?_, fun d a b k e => ?_⟩
      · rw [VCmd.cond, ins]
      · rw [VCmd.elem, ins]
      · rw [ins] at e
        cases e

section
variable {k : Core} {c : VCmd} {els : List Nat} {d : Nat} (cond : ∀ i, ∃ b f, c.cond (k.ctx c.tid) i = some (d, b, f))
include cond

theorem Core.beatCtx_of_cond : k.beatCtx c els = if c.vl ≤ c.pos + els.length then
    (k.beatRun c els).1.setMask d ((k.beatRun c els).1.mask d &&& BitVec.ofNat 64 (2 ^ c.vl - 1)) else (k.beatRun c els).1 := by
  obtain ⟨b, f, first⟩ := cond 0
  unfold Core.beatCtx
  rw [first]

variable (ne : d ≠ 0)
include ne

/-- Bit j after a beat of a comparison: that of the elements' part of the beat, and cleared from VL on by the last beat. -/
theorem Core.beatCtx_testBit (j : Nat) : ((k.beatCtx c els).mask d).toNat.testBit j =
    (((k.beatRun c els).1.mask d).toNat.testBit j && (decide (c.pos + els.length < c.vl) || decide (j < c.vl))) := by
  rw [Core.beatCtx_of_cond cond]
  split
  · next last => rw [VCtx.mask_setMask_same _ _ ne, testBit_and_low, decide_eq_false (Nat.not_lt.mpr last), Bool.false_or]
  · next more => rw [decide_eq_true (Nat.lt_of_not_le more), Bool.true_or, Bool.and_true]

/-- The rest of the context is as the elements' part left it. -/
theorem Core.beatCtx_kept : (∀ m, m ≠ d → (k.beatCtx c els).mask m = (k.beatRun c els).1.mask m) ∧
    (∀ m i, (k.beatCtx c els).el m i = (k.beatRun c els).1.el m i) ∧ (k.beatCtx c els).holder = (k.beatRun c els).1.holder := by
  rw [Core.beatCtx_of_cond cond]
  split
  · exact ⟨fun m other => by rw [VCtx.mask_setMask _ _ ne, if_neg other], fun _ _ => VCtx.el_setMask .., VCtx.holder_setMask ..⟩
  · exact ⟨fun _ _ => rfl, fun _ _ => rfl, rfl⟩

end

theorem vectorCompareBeat : VectorCompareBeat := by
  intro s core c l d queue ne due free clear ready shape holds vl lt x hi cond
  have runs : s.beatRuns core c l := ⟨queue, due, free, clear, ready⟩
  have pos : d.val ≠ 0 := fun h => ne (Fin.ext h)
  refine ⟨s.vectorBeat core, rfl, ?_⟩
  rw [State.vectorBeat_elems runs shape]
  extract_lets k els
  have hi_eq : c.pos + els.length = hi := VCmd.pos_add_beatEls 16 lt
  have mem {i : Nat} : i ∈ els ↔ c.pos ≤ i ∧ i < hi := VCmd.mem_beatEls
  have hi_le : hi ≤ c.vl := min_le_right _ _
  have ran : c.compared x d els x (k.beatRun c els).1 := VCmd.runEls_compared pos cond _ _ els (x, 0)
  have bit := Core.beatCtx_testBit (els := els) cond pos
  obtain ⟨masks, el, holder⟩ := Core.beatCtx_kept (els := els) cond pos
  have own : (k.beatCtx c els).holder = some c.tid := (holder.trans ran.holder).trans (Core.find?_of_holdsCtx holds).2
  have noMem : Instr.vmem c.ins = none := by
    obtain ⟨b, f, first⟩ := cond 0
    by_contra memory
    obtain ⟨r, memory⟩ := Option.ne_none_iff_exists'.mp memory
    exact absurd (((VCmd.of_vmem memory).1 x 0).symm.trans first) nofun
  rw [State.vmemBeat_of_none noMem, hi_eq]
  rw [hi_eq] at bit
  generalize done : s.beatDone core c (k.beatCtx c els) = s1
  have data := s1.beatEnd_dataAs core c (k.beatRun c els).2 (c.charged (k.ctx c.tid) els) hi
  have ctx : (s1.core core).ctx c.tid = k.beatCtx c els := done ▸ (State.beatDone_ctx holds own).1
  dsimp only
  rw [data.ctx, ctx]
  refine ⟨fun i b f lo up here => ?_, fun i hi64 out => ?_, fun last i lo hi64 => ?_, fun j _ other => ?_, fun j i => ?_⟩
  · have inside : i < c.vl := up.trans_le hi_le
    rw [bit, ran.bits i (by omega), if_pos (mem.mpr ⟨lo, up⟩), here, decide_eq_true inside, Bool.or_true, Bool.and_true]
  · have outside : i ∉ els := fun h => by have := mem.mp h; omega
    have kept : (decide (hi < c.vl) || decide (i < c.vl)) = true := by simp; omega
    rw [bit, ran.bits i hi64, if_neg outside, kept, Bool.and_true]
  · rw [bit, decide_eq_false (by omega : ¬hi < c.vl), decide_eq_false (by omega : ¬i < c.vl), Bool.or_false, Bool.and_false]
  · exact (masks j other).trans (ran.masks j other)
  · exact (el j i).trans (ran.el j i)

/-- Settles O43: `vectorCompareBeat`, `vectorWholeForms` and `vectorContextForms`. -/
theorem vectorMasksAndMoves : Obligations.VectorMasksAndMoves := ⟨vectorCompareBeat, vectorWholeForms, vectorContextForms⟩

/-! ### Loads and stores (R175) -/

/-- The offset in LM of element i. -/
def VCmd.memOff (c : VCmd) (x : VCtx) (kind iv : Nat) (t : VType) (i : Nat) : Nat :=
  if kind = 2 then gatherOff c.x (x.el iv i) t else (vaddr kind c.x c.y t i).toNat % 2 ^ 18

/-- The datum of a type read from memory, extended to an element. -/
theorem lowBits_int_eq {t : VType} (mem : t.isMem = true) (v : Nat) : lowBits (t.int v) 32 =
    (if t.signed then (subEl v (8 * t.bytes) 0).signExtend 32 else (subEl v (8 * t.bytes) 0).setWidth 32).toNat := by
  have width : 8 * t.bytes = t.bitsOf := by
    cases t with
    | i32 | n32 | f32 | i16 | n16 | i8 | n8 => rfl
    | f16 | bf16 | e4m3 | e5m2 | e2m1x => cases mem
  rw [width, lowBits_eq_toNat, int_eq_intOf, subEl, Nat.mul_zero, Nat.pow_zero, Nat.div_one, intOf]
  split
  · rfl
  · congr 1
    exact (BitVec.ofInt_natCast ..).trans (BitVec.ofNat_toNat ..)

section
variable {l : List Nat} {off : Nat → Nat} {val : Nat → Nat} {n : Nat}

/-- Stores leave the bytes outside their places. -/
theorem Memory.byte_foldl_write (m : Memory) {a : Nat} (outside : ∀ i ∈ l, a < off i ∨ off i + n ≤ a) :
    (l.foldl (fun m i => Memory.write m (off i) n (val i)) m).byte a = m.byte a := by
  refine List.foldlRecOn l _ (motive := fun m' : Memory => m'.byte a = m.byte a) rfl fun m' h i hi => ?_
  have := outside i hi
  rw [Memory.byte_write, if_neg (by omega), h]

/-- Of stores in ascending order, one that no later one overlaps reads back. -/
theorem Memory.read_foldl_write_last (m : Memory) (sorted : l.Pairwise (· < ·)) {i : Nat} (hi : i ∈ l)
    (last : ∀ j ∈ l, i < j → off i + n ≤ off j ∨ off j + n ≤ off i) :
    (l.foldl (fun m i => Memory.write m (off i) n (val i)) m).read (off i) n = val i % 256 ^ n := by
  induction l generalizing m with
  | nil => cases hi
  | cons k l ih =>
    obtain ⟨after, sorted⟩ := List.pairwise_cons.mp sorted
    rw [List.foldl_cons]
    by_cases later : i ∈ l
    · exact ih _ sorted later fun j hj => last j (List.mem_cons_of_mem _ hj)
    · obtain rfl : i = k := (List.mem_cons.mp hi).resolve_right later
      rw [← Memory.read_write_same m (off i) n (val i)]
      refine List.foldlRecOn l _ (motive := fun m' : Memory => m'.read (off i) n = (m.write (off i) n (val i)).read (off i) n) rfl
        fun m' h j hj => ?_
      have apart := last j (List.mem_cons_of_mem _ hj) (after j hj)
      rw [Memory.read_write_ne _ _ _ _ _ _ apart, h]

end

/-- An engine's stores leave the contexts of its core. -/
theorem State.engineStore_vctx (s : State) (core tid : Nat) (ws : List (Nat × Nat × Nat)) :
    ((s.engineStore core tid ws).core core).vctx = (s.core core).vctx := by
  unfold State.engineStore
  extract_lets ranges s1 s2
  have start : (s2.core core).vctx = (s.core core).vctx := by
    unfold s2 s1
    rw [State.engineTouch_core, State.core_modCore_same]
  refine List.foldlRecOn ws _ (motive := fun s' : State => (s'.core core).vctx = (s.core core).vctx) start fun s' h w _ => ?_
  exact (congrArg Core.vctx (State.core_modCore_same s' core fun k => { k with lm := (s'.core core).lm.write w.1 w.2.1 w.2.2 })).trans h

section
variable {s : State} {core : Nat} {c : VCmd} {els : List Nat} {kind d iv : Nat} {t : VType}

/-- A load gives each active element its datum, and writes nothing to LM. -/
theorem State.vmemBeat_load (memory : Instr.vmem c.ins = some (false, kind, d, iv, t)) (holds : holdsCtx (s.core core) c.tid = true)
    (small : ∀ i ∈ els, i < 64) :
    let x := (s.core core).ctx c.tid
    let s' := s.vmemBeat core c els
    (s'.core core).lm = (s.core core).lm ∧ ∀ i ∈ els, c.active x i = true →
      ((s'.core core).ctx c.tid).el d i = lowBits (t.int ((s.core core).lm.read (c.memOff x kind iv t i) t.bytes)) 32 := by
  intro x s'
  have core_eq : s'.core core = (s.core core).setCtx c.tid (els.foldl (fun y i => if c.active x i then
      y.setEl d i (lowBits (t.int ((s.core core).lm.read (c.memOff x kind iv t i) t.bytes)) 32) else y) x) := by
    unfold s' State.vmemBeat
    rw [memory]
    dsimp only
    rw [if_neg Bool.false_ne_true, State.core_modCore_same, State.mem, State.engineTouch_core, List.foldl_filter]
    rfl
  rw [VCtx.foldl_setEl_eq_writes] at core_eq
  rw [core_eq]
  refine ⟨rfl, fun i hi act => ?_⟩
  rw [(Core.ctx_setCtx holds (x.writes_holder.trans (Core.find?_of_holdsCtx holds).2)).1, x.writes_el_written small hi (if_pos act)]
  exact Nat.mod_eq_of_lt (by rw [lowBits_eq_toNat]; exact BitVec.isLt _)

/-- A store writes the active elements to LM in ascending order, and leaves the contexts. -/
theorem State.vmemBeat_store (memory : Instr.vmem c.ins = some (true, kind, d, iv, t)) :
    let x := (s.core core).ctx c.tid
    let s' := s.vmemBeat core c els
    (s'.core core).vctx = (s.core core).vctx ∧ (s'.core core).lm =
      (els.filter (c.active x)).foldl (fun m i => Memory.write m (c.memOff x kind iv t i) t.bytes (x.el d i)) (s.core core).lm := by
  intro x s'
  have run : s' = s.engineStore core c.tid ((els.filter (c.active x)).map fun i => (c.memOff x kind iv t i, t.bytes, x.el d i)) := by
    unfold s' State.vmemBeat
    rw [memory]
    rfl
  rw [run]
  exact ⟨s.engineStore_vctx .., by rw [State.engineStore_lm, List.foldl_map]⟩

end

theorem VCmd.beatEls_sorted (c : VCmd) (per : Nat) : (c.beatEls per).Pairwise (· < ·) := by
  rw [VCmd.beatEls, numsFrom_eq_range']
  exact List.pairwise_lt_range'

/-- Settles O44: what a load's beat gives and a store's beat writes stands after the end of the beat. -/
theorem vectorMemoryBeat : Obligations.VectorMemoryBeat := by
  intro s core per kind d iv c l store t queue due free clear ready shape memory types holds vl lt _ x hi off
  have runs : s.beatRuns core c l := ⟨queue, due, free, clear, ready⟩
  obtain ⟨noCond, noElem, noSel⟩ := VCmd.of_vmem memory
  refine ⟨s.vectorBeat core, rfl, ?_⟩
  rw [State.vectorBeat_elems runs shape]
  extract_lets k els
  have mem {i : Nat} : i ∈ els ↔ c.pos ≤ i ∧ i < hi := VCmd.mem_beatEls
  have y_eq : k.beatCtx c els = x := by
    have unwritten (tile : Nat → Word) (eacc : Nat) : c.written x tile eacc = fun _ => none :=
      funext fun i => by rw [VCmd.written, noElem]; exact ite_self _
    unfold Core.beatCtx
    rw [noCond]
    refine (VCmd.runEls_eq_writes (noCond x) noSel _ _ els (x, 0)).trans ?_
    rw [unwritten]
    exact List.foldl_fixed ..
  have off_eq : off = c.memOff x kind iv t := by
    funext i
    unfold VCmd.memOff gatherOff
    rw [bits_zero]
    rfl
  rw [y_eq, off_eq]
  generalize done : s.beatDone core c x = s1
  obtain ⟨ctx, holds1⟩ : (s1.core core).ctx c.tid = x ∧ holdsCtx (s1.core core) c.tid = true :=
    done ▸ State.beatDone_ctx holds (Core.find?_of_holdsCtx holds).2
  have lm : (s1.core core).lm = (s.core core).lm := done ▸ s.beatDone_lm core c x core
  have data := (s1.vmemBeat core c els).beatEnd_dataAs core c (k.beatRun c els).2 (c.charged (k.ctx c.tid) els) (c.pos + els.length)
  simp only [data.ctx, State.mem, data.lm]
  cases store
  · obtain ⟨same, loaded⟩ := State.vmemBeat_load memory holds1 (VCmd.beatEls_small vl : ∀ i ∈ els, i < 64)
    rw [ctx, lm] at loaded
    refine ⟨fun _ => ⟨same.trans lm, fun i lo up act => ?_⟩, nofun⟩
    rw [loaded i (mem.mpr ⟨lo, up⟩) act, lowBits_int_eq types]
  · obtain ⟨vctx, stored⟩ := State.vmemBeat_store (s := s1) (core := core) (els := els) memory
    rw [ctx, lm] at stored
    have active {i : Nat} : i ∈ els.filter (c.active x) ↔ (c.pos ≤ i ∧ i < hi) ∧ c.active x i = true := by rw [List.mem_filter, mem]
    refine ⟨nofun, fun _ => ⟨fun m i => ?_, fun a outside => ?_, fun i lo up act last => ?_⟩⟩
    · rw [Core.ctx, vctx, ← Core.ctx, ctx]
    · rw [stored]
      exact Memory.byte_foldl_write _ fun i hi => outside i (active.mp hi).1.1 (active.mp hi).1.2 (active.mp hi).2
    · rw [stored, Nat.pow_mul]
      refine Memory.read_foldl_write_last (val := fun i => x.el d i) _ ((c.beatEls_sorted per).filter _) (active.mpr ⟨⟨lo, up⟩, act⟩)
        fun j hj later => ?_
      obtain ⟨⟨_, up'⟩, act'⟩ := active.mp hj
      exact last j later up' act'

/-! ### Packed sub-elements (R57, R154) -/

theorem pack_mul_bitsOf (t : VType) : t.bitsOf * t.pack = 32 := by cases t <;> rfl

theorem sub_eq_toNat (v w s : Nat) : sub v w s = (subEl v w s).toNat := (BitVec.toNat_ofNat ..).symm

/-- Fields of w bits put side by side: they stay below the next field, and each reads back. -/
theorem fields_side_by_side (w : Nat) (f : Nat → Nat) (n : Nat) :
    let v := ((List.range n).map fun s => f s % 2 ^ w * 2 ^ (w * s)).sum
    v < 2 ^ (w * n) ∧ ∀ s < n, v / 2 ^ (w * s) % 2 ^ w = f s % 2 ^ w := by
  intro v
  induction n with
  | zero => exact ⟨Nat.two_pow_pos _, nofun⟩
  | succ n ih =>
    obtain ⟨below, reads⟩ := ih
    have v_eq : v = ((List.range n).map fun s => f s % 2 ^ w * 2 ^ (w * s)).sum + f n % 2 ^ w * 2 ^ (w * n) := List.sum_range_succ ..
    generalize ((List.range n).map fun s => f s % 2 ^ w * 2 ^ (w * s)).sum = u at *
    have field : f n % 2 ^ w < 2 ^ w := Nat.mod_lt _ (Nat.two_pow_pos w)
    rw [v_eq]
    refine ⟨?_, fun s hs => ?_⟩
    · calc u + f n % 2 ^ w * 2 ^ (w * n) < (f n % 2 ^ w + 1) * 2 ^ (w * n) := by rw [Nat.succ_mul]; omega
        _ ≤ 2 ^ w * 2 ^ (w * n) := Nat.mul_le_mul_right _ field
        _ = 2 ^ (w * (n + 1)) := by rw [← Nat.pow_add, Nat.mul_succ, Nat.add_comm]
    · rcases Nat.lt_succ_iff_lt_or_eq.mp hs with lt | rfl
      · obtain ⟨m, rfl⟩ := Nat.exists_eq_add_of_lt lt
        have above : 2 ^ (w * (s + m + 1)) = 2 ^ (w * s) * (2 ^ w * 2 ^ (w * m)) := by
          rw [← Nat.pow_add, ← Nat.pow_add]
          ring_nf
        rw [above, Nat.mul_left_comm, Nat.add_mul_div_left _ _ (Nat.two_pow_pos _), Nat.mul_left_comm, Nat.add_mul_mod_self_left,
          reads s lt]
      · rw [Nat.add_mul_div_right _ _ (Nat.two_pow_pos _), Nat.div_eq_of_lt below, Nat.zero_add, Nat.mod_mod]

/-- Flags that are gathered: a bit is set where it was or where one of them sets it. -/
theorem testBit_foldl_or {α : Type} (g : α → Nat) (l : List α) (a n : Nat) :
    (l.foldl (fun acc j => acc ||| g j) a).testBit n = true ↔ a.testBit n = true ∨ ∃ j ∈ l, (g j).testBit n = true := by
  induction l generalizing a with
  | nil => simp
  | cons j l ih => simp [ih, or_assoc]

/-- An element computed from sub-elements: each in its place, and the flags of all. -/
theorem packed_eq (t : VType) (f : Nat → Nat × Nat) : packed t f =
    (((List.range t.pack).map fun s => (f s).1 % 2 ^ t.bitsOf * 2 ^ (t.bitsOf * s)).sum,
      (List.range t.pack).foldl (fun acc s => acc ||| (f s).2) 0) := by
  unfold packed
  rw [numsFrom_zero_eq_range]
  generalize List.range t.pack = l
  suffices h : ∀ v fl,
      l.foldl (fun (acc : Nat × Nat) s => (acc.1 + (f s).1 % 2 ^ t.bitsOf * 2 ^ (t.bitsOf * s), acc.2 ||| (f s).2)) (v, fl) =
      (v + (l.map fun s => (f s).1 % 2 ^ t.bitsOf * 2 ^ (t.bitsOf * s)).sum, l.foldl (fun acc s => acc ||| (f s).2) fl) by
    simpa using h 0 0
  induction l with
  | nil => simp
  | cons s l ih => intro v fl; simp [ih, Nat.add_assoc]

theorem packed_lt (t : VType) (f : Nat → Nat × Nat) : (packed t f).1 < 2 ^ 32 := by
  have lt := (fields_side_by_side t.bitsOf (fun s => (f s).1) t.pack).1
  rw [pack_mul_bitsOf] at lt
  rw [packed_eq]
  exact lt

theorem subEl_packed (t : VType) (f : Nat → Nat × Nat) {s : Nat} (hs : s < t.pack) :
    subEl (packed t f).1 t.bitsOf s = BitVec.ofNat t.bitsOf (f s).1 := by
  refine BitVec.eq_of_toNat_eq ?_
  rw [subEl, BitVec.toNat_ofNat, BitVec.toNat_ofNat, packed_eq]
  exact (fields_side_by_side t.bitsOf (fun s => (f s).1) t.pack).2 s hs

theorem testBit_packed (t : VType) (f : Nat → Nat × Nat) (n : Nat) :
    (packed t f).2.testBit n = true ↔ ∃ s < t.pack, (f s).2.testBit n = true := by
  rw [packed_eq, testBit_foldl_or]
  simp

theorem packed_flags_zero (t : VType) (f : Nat → Nat) : (packed t fun s => (f s, 0)).2 = 0 := by
  refine Nat.eq_of_testBit_eq fun n => ?_
  rw [Nat.zero_testBit, Bool.eq_false_iff, Ne, testBit_packed]
  simp

/-! ### Integer elements (R158) -/

theorem ofInt_intOf (signed : Bool) {w : Nat} (p : BitVec w) : BitVec.ofInt w (intOf signed p) = p := by
  unfold intOf
  split
  · exact BitVec.ofInt_toInt
  · exact (BitVec.ofInt_natCast ..).trans (BitVec.ofNat_toNat ..) |>.trans (BitVec.setWidth_eq _)

/-- An element of t whose sub-elements are r, with no flag. -/
def intElement (t : VType) (r : Nat → BitVec t.bitsOf) (v : Nat × Nat) : Prop :=
  v.2 = 0 ∧ v.1 < 2 ^ 32 ∧ ∀ s < t.pack, subEl v.1 t.bitsOf s = r s

theorem intOp_element (t : VType) (f : Int → Int → Int) (a b : Nat) : intElement t (fun s =>
    BitVec.ofInt t.bitsOf (f (intOf t.signed (subEl a t.bitsOf s)) (intOf t.signed (subEl b t.bitsOf s)))) (intOp t f a b) := by
  refine ⟨packed_flags_zero .., packed_lt .., fun s hs => ?_⟩
  rw [intOp, subEl_packed _ _ hs, lowBits_eq_toNat, BitVec.ofNat_toNat, BitVec.setWidth_eq, int_eq_intOf, int_eq_intOf,
    sub_eq_toNat, sub_eq_toNat]
  simp only [BitVec.ofNat_toNat, BitVec.setWidth_eq]

theorem shiftOp_element (t : VType) (f : Nat → Nat → Nat) (a b : Nat) : intElement t (fun s =>
    BitVec.ofNat t.bitsOf (f (subEl a t.bitsOf s).toNat ((subEl b t.bitsOf s).toNat % t.bitsOf))) (shiftOp t f a b) := by
  refine ⟨packed_flags_zero .., packed_lt .., fun s hs => ?_⟩
  rw [shiftOp, subEl_packed _ _ hs, sub_eq_toNat, sub_eq_toNat]

theorem intElement.exists {t : VType} {r : Nat → BitVec t.bitsOf} {v : Nat × Nat} {c : VCmd} {x : VCtx} {tile : Nat → Word}
    {eacc i s d : Nat} (h : intElement t r v) (run : c.elem x tile eacc i = some (d, v)) (hs : s < t.pack) {q : BitVec t.bitsOf} (same : r s = q) :
    ∃ v, c.elem x tile eacc i = some (d, v, 0) ∧ v < 2 ^ 32 ∧ subEl v t.bitsOf s = q := by
  obtain ⟨v, fl⟩ := v
  obtain ⟨rfl, lt, sub⟩ := h
  exact ⟨v, run, lt, (sub s hs).trans same⟩

theorem satI_eq_satTo (t : VType) (v : Int) : BitVec.ofInt t.bitsOf (satI v t.lo t.hi) = satTo t.bitsOf t.signed v := by
  rw [satI_eq_max_min v (lo_le_hi t), satTo, VType.lo, VType.hi, min_comm]
  split <;> rfl

/-! The results of the forms on one sub-element of w bits. -/

section
variable {w : Nat} (signed : Bool) (p q : BitVec w)

theorem ofInt_add_intOf : BitVec.ofInt w (intOf signed p + intOf signed q) = p + q := by
  rw [BitVec.ofInt_add, ofInt_intOf, ofInt_intOf]

theorem ofInt_sub_intOf : BitVec.ofInt w (intOf signed p - intOf signed q) = p - q := by
  rw [Int.sub_eq_add_neg, BitVec.ofInt_add, BitVec.ofInt_neg, ofInt_intOf, ofInt_intOf, BitVec.sub_eq_add_neg]

theorem ofInt_mul_intOf : BitVec.ofInt w (intOf signed p * intOf signed q) = p * q := by
  rw [BitVec.ofInt_mul, ofInt_intOf, ofInt_intOf]

theorem ofInt_min_intOf : BitVec.ofInt w (min (intOf signed p) (intOf signed q)) = if intOf signed p ≤ intOf signed q then p else q := by
  rw [min_def]
  split <;> exact ofInt_intOf signed _

theorem ofInt_max_intOf : BitVec.ofInt w (max (intOf signed p) (intOf signed q)) = if intOf signed p ≤ intOf signed q then q else p := by
  rw [max_def]
  split <;> exact ofInt_intOf signed _

theorem ofNat_mul_two_pow (n : Nat) : BitVec.ofNat w (p.toNat * 2 ^ n) = p <<< n :=
  BitVec.eq_of_toNat_eq (by rw [BitVec.toNat_ofNat, BitVec.toNat_shiftLeft, Nat.shiftLeft_eq])

theorem ofNat_div_two_pow (n : Nat) : BitVec.ofNat w (p.toNat / 2 ^ n) = p >>> n := by
  refine BitVec.eq_of_toNat_eq ?_
  rw [BitVec.toNat_ofNat, BitVec.toNat_ushiftRight, Nat.shiftRight_eq_div_pow]
  exact Nat.mod_eq_of_lt ((Nat.div_le_self ..).trans_lt p.isLt)

theorem ofNat_sx_div_two_pow (pos : 0 < w) (n : Nat) :
    BitVec.ofNat w (lowBits (sx p.toNat w / (2 ^ n : Nat)) w) = p.sshiftRight n := by
  rw [lowBits_eq_toNat, sx_eq_toInt _ pos, BitVec.ofNat_toNat, BitVec.ofNat_toNat, BitVec.setWidth_eq, BitVec.setWidth_eq,
    BitVec.sshiftRight, Int.shiftRight_eq_div_pow]

end

theorem vectorIntegerElements : VectorIntegerElements := by
  intro c x tile eacc i s t d a b r _ hs _ row
  have int (f : Int → Int → Int) := intOp_element t f (x.el a i) (x.el b i)
  have shift (f : Nat → Nat → Nat) := shiftOp_element t f (x.el a i) (x.el b i)
  unfold vecInt at row
  split at row <;> cases row
  case h_1 ins => exact (int fun p q => p + q).exists (by rw [VCmd.elem, ins]) hs (ofInt_add_intOf ..)
  case h_2 ins => exact (int fun p q => p - q).exists (by rw [VCmd.elem, ins]) hs (ofInt_sub_intOf ..)
  case h_3 ins => exact (int fun p q => p * q).exists (by rw [VCmd.elem, ins]) hs (ofInt_mul_intOf ..)
  case h_4 ins => exact (int fun p q => p * q / (2 ^ t.bitsOf : Nat)).exists (by rw [VCmd.elem, ins]) hs rfl
  case h_5 ins => exact (int fun p q => min p q).exists (by rw [VCmd.elem, ins]) hs (ofInt_min_intOf ..)
  case h_6 ins => exact (int fun p q => max p q).exists (by rw [VCmd.elem, ins]) hs (ofInt_max_intOf ..)
  case h_7 ins => exact (shift fun v n => v * 2 ^ n).exists (by rw [VCmd.elem, ins]) hs (ofNat_mul_two_pow ..)
  case h_8 ins => exact (shift fun v n => v / 2 ^ n).exists (by rw [VCmd.elem, ins]) hs (ofNat_div_two_pow ..)
  case h_9 ins =>
    exact (shift fun v n => lowBits (sx v t.bitsOf / (2 ^ n : Nat)) t.bitsOf).exists (by rw [VCmd.elem, ins]) hs
      (ofNat_sx_div_two_pow _ (bitsOf_pos t) _)
  case h_10 ins => exact (int fun p q => satI (p + q) t.lo t.hi).exists (by rw [VCmd.elem, ins]) hs (satI_eq_satTo ..)
  case h_11 ins => exact (int fun p q => satI (p - q) t.lo t.hi).exists (by rw [VCmd.elem, ins]) hs (satI_eq_satTo ..)

/-! ### Floating-point elements (R57, R159, R164) -/

/-- An element whose sub-elements are the codes r, with the flags of all of them. -/
theorem floatOp_element {c : VCmd} {x : VCtx} {tile : Nat → Word} {eacc i d : Nat} {t : VType} {f : Nat → Nat × Nat} {r : Nat → Nat × Nat}
    (run : c.elem x tile eacc i = some (d, packed t f)) (same : ∀ s < t.pack, f s = r s) :
    ∃ v fl, c.elem x tile eacc i = some (d, v, fl) ∧ v < 2 ^ 32 ∧
      (∀ s < t.pack, subEl v t.bitsOf s = BitVec.ofNat t.bitsOf (r s).1) ∧
      ∀ n, fl.testBit n = true ↔ ∃ s < t.pack, (r s).2.testBit n = true := by
  refine ⟨(packed t f).1, (packed t f).2, run, packed_lt t f, fun s hs => by rw [subEl_packed t f hs, same s hs], fun n => ?_⟩
  rw [testBit_packed]
  exact exists_congr fun s => and_congr_right fun hs => by rw [same s hs]

theorem pack_pos (t : VType) : 0 < t.pack := by cases t <;> decide

theorem vectorFloatElements : VectorFloatElements := by
  intro c x tile eacc i t d a b r row
  have first := row 0 (pack_pos t)
  unfold vecFloat at first
  split at first
  case h_14 => cases first
  all_goals
    next ins =>
      simp only [Option.some.injEq, Prod.mk.injEq] at first
      obtain ⟨rfl, rfl, rfl, rfl, -⟩ := first
      refine floatOp_element (by rw [VCmd.elem, ins]; rfl) fun s hs => ?_
      have code := row s hs
      rw [vecFloat, ins] at code
      simpa only [Option.some.injEq, Prod.mk.injEq, true_and, sub_eq_toNat] using code

/-! ### Values that a format holds exactly (R51, R54) -/

/-- The unit in which a value of magnitude m at exponent e is packed. -/
def Fmt.unitOf (f : Fmt) (m : Nat) (e : Int) : Int := max ((Nat.log2 m : Int) + e - f.t) f.qmin

/-- A value that is a multiple of its unit is packed as it is, with no flag. -/
theorem Fmt.pack_of_multiple (f : Fmt) (frm : Word) (neg : Bool) {m : Nat} {e : Int} (pos : m ≠ 0) (exact_ : f.unitOf m e ≤ e)
    (finite : (f.unitOf m e - f.qmin).toNat * 2 ^ f.t + m * 2 ^ (e - f.unitOf m e).toNat ≤ f.maxCode) :
    f.pack frm neg m e =
      (f.signed neg ((f.unitOf m e - f.qmin).toNat * 2 ^ f.t + m * 2 ^ (e - f.unitOf m e).toNat), 0) := by
  unfold Fmt.pack
  simp only [if_neg pos]
  rw [← Fmt.unitOf, roundAt_of_le _ _ _ exact_, if_neg (Nat.not_lt.mpr finite)]
  simp [flagIf]

/-- A code whose exponent field is 0 is that multiple of the smallest subnormal. -/
theorem Fmt.unpack_subnormal (f : Fmt) {c : Nat} (field : c / 2 ^ f.t % 2 ^ f.eb = 0) :
    f.unpack c = .fin (decide (c / f.signBit % 2 = 1)) (c % 2 ^ f.t) f.qmin := by
  unfold Fmt.unpack
  exact if_pos field

/-- A code whose exponent field is neither 0 nor all ones has a leading one. -/
theorem Fmt.unpack_normal (f : Fmt) {c : Nat} (field : c / 2 ^ f.t % 2 ^ f.eb ≠ 0) (finite : c / 2 ^ f.t % 2 ^ f.eb ≠ 2 ^ f.eb - 1) :
    f.unpack c = .fin (decide (c / f.signBit % 2 = 1)) (2 ^ f.t + c % 2 ^ f.t) (f.qmin + (c / 2 ^ f.t % 2 ^ f.eb - 1 : Nat)) := by
  unfold Fmt.unpack
  dsimp only
  rw [if_neg field, if_neg fun h => finite h.1, if_neg fun h => finite h.1]

/-- The datum of an FP32 code below the infinities, by its sign, the number of its unit and its magnitude in that unit. -/
theorem fp32_unpack_signed (neg : Bool) {k m : Nat} (finite : k ≤ 253) (width : m < 2 ^ 24) (normal : k = 0 ∨ 2 ^ 23 ≤ m) :
    fp32.unpack (fp32.signed neg (k * 2 ^ 23 + m)) = .fin neg m (k - 149) := by
  have code : fp32.signed neg (k * 2 ^ 23 + m) = 2 ^ 31 * bit neg + (k * 2 ^ 23 + m) := by
    cases neg
    · exact (Nat.zero_add _).symm
    · rfl
  generalize fp32.signed neg (k * 2 ^ 23 + m) = c at *
  have sign : decide (c / fp32.signBit % 2 = 1) = neg := by
    change decide (c / 2 ^ 31 % 2 = 1) = neg
    cases neg
    · exact decide_eq_false (by simp only [bit, Bool.false_eq_true, if_false] at code; omega)
    · exact decide_eq_true (by simp only [bit, if_true] at code; omega)
  have fraction : c % 2 ^ fp32.t = m % 2 ^ 23 := by
    change c % 2 ^ 23 = _
    omega
  have exponent : c / 2 ^ fp32.t % 2 ^ fp32.eb = k + m / 2 ^ 23 := by
    change c / 2 ^ 23 % 2 ^ 8 = _
    omega
  have least : fp32.qmin = -149 := rfl
  have ones : 2 ^ fp32.eb - 1 = 255 := rfl
  have lead : 2 ^ fp32.t = 2 ^ 23 := rfl
  by_cases small : m < 2 ^ 23
  · rw [fp32.unpack_subnormal (by omega), sign, fraction, least]
    congr 1 <;> omega
  · rw [fp32.unpack_normal (by omega) (by omega), sign, fraction, exponent, least, lead]
    congr 1 <;> omega

/-- FP32's code of a magnitude of at most 24 bits at one of its exponents. -/
def fp32Code (m : Nat) (e : Int) : Nat := (fp32.unitOf m e + 149).toNat * 2 ^ 23 + m * 2 ^ (e - fp32.unitOf m e).toNat

section
variable {m : Nat} {e : Int} (pos : m ≠ 0) (width : Nat.log2 m ≤ 23) (low : -149 ≤ e)
include pos width low

/-- In units of its last place the magnitude has 24 bits, or at most 23 at the exponent of the subnormals. -/
theorem fp32_magnitude : let q := fp32.unitOf m e
    q ≤ e ∧ -149 ≤ q ∧ m * 2 ^ (e - q).toNat < 2 ^ 24 ∧ (q = -149 ∨ 2 ^ 23 ≤ m * 2 ^ (e - q).toNat) := by
  intro q
  have q_eq : q = max ((Nat.log2 m : Int) + e - 23) (-149) := rfl
  have below : m < 2 ^ (Nat.log2 m + 1) := Nat.lt_log2_self
  have above : 2 ^ Nat.log2 m ≤ m := Nat.log2_self_le pos
  generalize Nat.log2 m = L at *
  refine ⟨by omega, by omega, ?_, ?_⟩
  · have shift : L + 1 + (e - q).toNat ≤ 24 := by omega
    calc m * 2 ^ (e - q).toNat < 2 ^ (L + 1) * 2 ^ (e - q).toNat := Nat.mul_lt_mul_of_pos_right below (Nat.two_pow_pos _)
      _ = 2 ^ (L + 1 + (e - q).toNat) := (Nat.pow_add ..).symm
      _ ≤ 2 ^ 24 := Nat.pow_le_pow_right (by decide) shift
  · by_cases least : q = -149
    · exact .inl least
    · right
      have shift : L + (e - q).toNat = 23 := by omega
      calc 2 ^ 23 = 2 ^ L * 2 ^ (e - q).toNat := by rw [← Nat.pow_add, shift]
        _ ≤ m * 2 ^ (e - q).toNat := Nat.mul_le_mul_right _ above

variable (high : (Nat.log2 m : Int) + e ≤ 127)
include high

theorem fp32_pack (frm : Word) (neg : Bool) : fp32.pack frm neg m e = (fp32.signed neg (fp32Code m e), 0) := by
  obtain ⟨exact_, low', lt, -⟩ := fp32_magnitude pos width low
  have least : fp32.qmin = -149 := rfl
  have q_eq : fp32.unitOf m e = max ((Nat.log2 m : Int) + e - 23) (-149) := rfl
  refine (fp32.pack_of_multiple frm neg pos exact_ ?_).trans (by rw [least]; rfl)
  have max_ : fp32.maxCode = 254 * 2 ^ 23 + (2 ^ 23 - 1) := rfl
  have unit : (fp32.unitOf m e + 149).toNat ≤ 253 := by omega
  rw [least, sub_neg_eq_add, max_]
  change _ * 2 ^ 23 + _ ≤ _
  omega

theorem fp32_unpack (neg : Bool) :
    fp32.unpack (fp32.signed neg (fp32Code m e)) = .fin neg (m * 2 ^ (e - fp32.unitOf m e).toNat) (fp32.unitOf m e) := by
  obtain ⟨-, low', lt, normal⟩ := fp32_magnitude pos width low
  have q_eq : fp32.unitOf m e = max ((Nat.log2 m : Int) + e - 23) (-149) := rfl
  rw [fp32Code, fp32_unpack_signed neg (by omega) lt (normal.imp_left fun h => by omega)]
  congr 1
  omega

end

/-! ### The forms on one word (R158, R169, R174, R176) -/

/-- The starter mix on 32-bit words (R169). -/
def starterHash (key : Word) (c : BitVec 32) : BitVec 32 :=
  let h1 := (c ^^^ key.setWidth 32) * 0x7FEB352D#32
  let h2 := ((h1 ^^^ (h1 >>> 16)) ^^^ (key >>> 32).setWidth 32) * 0x846CA68B#32
  h2 ^^^ (h2 >>> 15)

theorem toNat_ushiftRight_eq_div {w : Nat} (p : BitVec w) (n : Nat) : (p >>> n).toNat = p.toNat / 2 ^ n := by
  rw [BitVec.toNat_ushiftRight, Nat.shiftRight_eq_div_pow]

theorem toNat_mul_literal (p : BitVec 32) {k : Nat} (small : k < 2 ^ 32) : (p * BitVec.ofNat 32 k).toNat = p.toNat * k % 2 ^ 32 := by
  rw [BitVec.toNat_mul, BitVec.toNat_ofNat, Nat.mod_eq_of_lt small]

theorem starterMix_eq (key : Word) (c : BitVec 32) : starterMix key c.toNat = (starterHash key c).toNat := by
  have low : bits key 0 32 = (key.setWidth 32).toNat := by rw [BitVec.toNat_setWidth, bits_zero]
  have high : bits key 32 32 = ((key >>> 32).setWidth 32).toNat := by
    rw [BitVec.toNat_setWidth, toNat_ushiftRight_eq_div]
    rfl
  unfold starterMix starterHash
  dsimp only
  rw [low, high, ← BitVec.toNat_xor, ← toNat_mul_literal _ (by decide), ← toNat_ushiftRight_eq_div, ← BitVec.toNat_xor, ← BitVec.toNat_xor,
    ← toNat_mul_literal _ (by decide), ← toNat_ushiftRight_eq_div, ← BitVec.toNat_xor]

/-- A multiple of 2^-24 below 1 as FP32. -/
theorem fp32_pack_fraction {n : Nat} (lt : n < 2 ^ 24) (pos : n ≠ 0) :
    fp32.pack 0 false n (-24) = ((Nat.log2 n + 102) * 2 ^ 23 + n * 2 ^ (23 - Nat.log2 n), 0) := by
  have width : Nat.log2 n ≤ 23 := Nat.le_of_lt_succ ((Nat.log2_lt pos).mpr lt)
  have unit : fp32.unitOf n (-24) = (Nat.log2 n : Int) - 47 := by
    change max ((Nat.log2 n : Int) + -24 - 23) (-149) = _
    omega
  have exponent : (fp32.unitOf n (-24) + 149).toNat = Nat.log2 n + 102 := by omega
  have shift : (-24 - fp32.unitOf n (-24)).toNat = 23 - Nat.log2 n := by omega
  rw [fp32_pack pos width (by decide) (by omega), fp32Code, exponent, shift]
  generalize (Nat.log2 n + 102) * 2 ^ 23 + n * 2 ^ (23 - Nat.log2 n) = code
  rfl

theorem vectorWordElements : VectorWordElements := by
  intro c x tile eacc i is el
  have word (r : VReg) : (el r).toNat = x.el r i := x.ofNat_el_toNat r i
  refine ⟨fun d a b k => ⟨fun ins => ?_, fun ins => ?_, fun ins => ?_⟩, fun d g k ins => ?_, fun d r k t ins => ?_, fun d g j k => ?_⟩
  · rw [BitVec.toNat_and, word, word]
    simp only [is, VCmd.elem, ins]
  · rw [BitVec.toNat_or, word, word]
    simp only [is, VCmd.elem, ins]
  · rw [BitVec.toNat_xor, word, word]
    simp only [is, VCmd.elem, ins]
  · rw [BitVec.toNat_setWidth]
    simp only [is, VCmd.elem, ins, bits_zero]
  · intro h1 h2 h n
    have mix : starterMix c.starter (x.el r i) = h.toNat := by rw [← word r, starterMix_eq]; rfl
    have n_eq : h.toNat / 256 = n := (toNat_ushiftRight_eq_div h 8).symm
    have n_lt : n < 2 ^ 24 := by rw [← n_eq]; have := h.isLt; omega
    simp only [is, VCmd.elem, ins, mix, n_eq]
    refine ⟨?_, ?_, ?_⟩
    · rintro rfl
      rfl
    · rintro rfl zero
      rw [if_pos rfl, zero]
      rfl
    · rintro rfl pos
      rw [if_pos rfl, fp32_pack_fraction n_lt pos]
  · intro A
    have row : 64 * bits c.x 0 2 + i = 64 * (c.x.toNat % 4) + i := by rw [bits_zero]; rfl
    refine ⟨fun ins => ?_, fun ins => ?_⟩
    · simp only [is, VCmd.elem, ins, row]
      rw [if_neg (by decide), lowBits_eq_toNat]
      exact congrArg (fun v : BitVec 32 => some (d.val, v.toNat, 0)) (satI_eq_satTo .i32 A)
    · simp only [VCmd.elem, ins, row]
      simp only [if_true]
      rw [sx_eq_toInt _ (by decide)]

/-! ### Conversions (R61, R62, R162) -/

/-- What a finite datum's fields can be. -/
theorem Fmt.unpack_fin_bounds {f : Fmt} {n : Nat} {s : Bool} {m : Nat} {e : Int} (wide : 2 ≤ f.eb) (fin : f.unpack n = .fin s m e) :
    m < 2 ^ (f.t + 1) ∧ f.qmin ≤ e ∧ e ≤ f.qmin + (2 ^ f.eb - if f.inf then 3 else 2 : Nat) := by
  have fraction : n % 2 ^ f.t < 2 ^ f.t := Nat.mod_lt _ (Nat.two_pow_pos _)
  have exponent : n / 2 ^ f.t % 2 ^ f.eb < 2 ^ f.eb := Nat.mod_lt _ (Nat.two_pow_pos _)
  have four : 2 ^ 2 ≤ 2 ^ f.eb := Nat.pow_le_pow_right (by decide) wide
  rw [Nat.pow_succ]
  unfold Fmt.unpack at fin
  dsimp only at fin
  generalize n % 2 ^ f.t = F at *
  generalize n / 2 ^ f.t % 2 ^ f.eb = E at *
  split at fin
  · obtain ⟨-, rfl, rfl⟩ := FVal.fin.inj fin
    omega
  · split at fin
    · split at fin <;> cases fin
    · next special =>
      split at fin
      · cases fin
      · obtain ⟨-, rfl, rfl⟩ := FVal.fin.inj fin
        refine ⟨by omega, by omega, ?_⟩
        split
        · have : E ≠ 2 ^ f.eb - 1 := fun h => special ⟨h, ‹_›⟩
          omega
        · omega

theorem log2_le_of_lt {m t : Nat} (pos : m ≠ 0) (lt : m < 2 ^ (t + 1)) : Nat.log2 m ≤ t :=
  Nat.le_of_lt_succ ((Nat.log2_lt pos).mpr lt)

theorem fp32_unpack_zero (neg : Bool) : fp32.unpack (fp32.signed neg 0) = .fin neg 0 fp32.qmin :=
  fp32_unpack_signed (k := 0) (m := 0) neg (by decide) (by decide) (.inl rfl)

theorem Fmt.unitOf_fp32_le {m : Nat} {e : Int} (width : Nat.log2 m ≤ 23) (low : -149 ≤ e) : fp32.unitOf m e ≤ e := by
  change max ((Nat.log2 m : Int) + e - 23) (-149) ≤ e
  omega

/-- A finite datum of a format of at most 16 bits fits FP32: its magnitude, and its exponent. -/
theorem small_format_bounds {f : Fmt} (mem : f ∈ [fp16, bf16, e4m3, e5m2]) {n : Nat} {s : Bool} {m : Nat} {e : Int}
    (fin : f.unpack n = .fin s m e) (pos : m ≠ 0) : Nat.log2 m ≤ 23 ∧ -149 ≤ e ∧ (Nat.log2 m : Int) + e ≤ 127 := by
  simp only [List.mem_cons, List.not_mem_nil, or_false] at mem
  rcases mem with rfl | rfl | rfl | rfl
  · obtain ⟨lt, low, high⟩ := Fmt.unpack_fin_bounds (by decide) fin
    have width : Nat.log2 m ≤ 10 := log2_le_of_lt pos lt
    change (-24 : Int) ≤ e at low
    change e ≤ (5 : Int) at high
    omega
  · obtain ⟨lt, low, high⟩ := Fmt.unpack_fin_bounds (by decide) fin
    have width : Nat.log2 m ≤ 7 := log2_le_of_lt pos lt
    change (-133 : Int) ≤ e at low
    change e ≤ (120 : Int) at high
    omega
  · obtain ⟨lt, low, high⟩ := Fmt.unpack_fin_bounds (by decide) fin
    have width : Nat.log2 m ≤ 3 := log2_le_of_lt pos lt
    change (-9 : Int) ≤ e at low
    change e ≤ (5 : Int) at high
    omega
  · obtain ⟨lt, low, high⟩ := Fmt.unpack_fin_bounds (by decide) fin
    have width : Nat.log2 m ≤ 2 := log2_le_of_lt pos lt
    change (-16 : Int) ≤ e at low
    change e ≤ (13 : Int) at high
    omega

/-- Widening a finite datum to FP32 is exact. -/
theorem cvtFF_widen_fin {f : Fmt} (mem : f ∈ [fp16, bf16, e4m3, e5m2]) (frm : Word) {n : Nat} {s : Bool} {m : Nat} {e : Int}
    (fin : f.unpack n = .fin s m e) : ∃ m' e', fp32.unpack (cvtFF f fp32 frm n).1 = .fin s m' e' ∧ (cvtFF f fp32 frm n).2 = 0 ∧
      m' * 2 ^ (e' - min e e').toNat = m * 2 ^ (e - min e e').toNat := by
  have packs : cvtFF f fp32 frm n = fp32.pack frm s m e := by rw [cvtFF, fin]
  rw [packs]
  by_cases zero : m = 0
  · subst zero
    exact ⟨0, fp32.qmin, fp32_unpack_zero s, rfl, by simp only [Nat.zero_mul]⟩
  · obtain ⟨width, low, high⟩ := small_format_bounds mem fin zero
    rw [fp32_pack zero width low high]
    refine ⟨_, _, fp32_unpack zero width low high s, rfl, ?_⟩
    rw [min_eq_right (Fmt.unitOf_fp32_le width low), Int.sub_self, Int.toNat_zero, Nat.pow_zero, Nat.mul_one]

theorem elem_vcvt {c : VCmd} {d a : VReg} {k : MReg} {z t : VType} (ins : c.ins = .vcvt d a z k t) (x : VCtx) (tile : Nat → Word)
    (eacc i : Nat) : c.elem x tile eacc i =
      some (d.val, vcvtOne t z c.frm (subEl (x.el a (i / z.pack)) z.bitsOf (i % z.pack)).toNat) := by
  rw [← sub_eq_toNat, VCmd.elem, ins]

theorem VType.int_toNat (z : VType) (q : BitVec z.bitsOf) : z.int q.toNat = intOf z.signed q := by
  rw [int_eq_intOf, BitVec.ofNat_toNat, BitVec.setWidth_eq]

theorem unpackE2m1_fin (n : Nat) : ∃ s m, unpackE2m1 n = .fin s m (-1) ∧ m < 2 ^ 4 := by
  refine ⟨_, _, rfl, ?_⟩
  split <;> decide

/-- Every value of E2M1X is one of FP32. -/
theorem fp32_pack_e2m1 (frm : Word) (s : Bool) {m : Nat} (pos : m ≠ 0) (lt : m < 2 ^ 4) : ∃ v, fp32.pack frm s m (-1) = (v, 0) ∧
    fp32.unpack v = .fin s (m * 2 ^ (23 - Nat.log2 m)) ((Nat.log2 m : Int) - 24) := by
  have width : Nat.log2 m ≤ 3 := log2_le_of_lt pos lt
  have unit : fp32.unitOf m (-1) = (Nat.log2 m : Int) - 24 := by
    change max ((Nat.log2 m : Int) + -1 - 23) (-149) = _
    omega
  have shift : (-1 - fp32.unitOf m (-1)).toNat = 23 - Nat.log2 m := by omega
  refine ⟨_, fp32_pack pos (by omega) (by decide) (by omega) frm s, ?_⟩
  rw [fp32_unpack pos (by omega) (by decide) (by omega), shift, unit]

theorem vectorConversions : VectorConversions := by
  intro c x tile eacc i d a k z t ins q is
  have run : is (vcvtOne t z c.frm q.toNat) := elem_vcvt ins x tile eacc i
  clear_value q
  refine ⟨?_, ?_, ?_, ?_, fun f mem frm n _ => ⟨fun s m e => cvtFF_widen_fin mem frm, fun s inf => ?_, fun sig nan => ?_⟩⟩
  · rintro rfl
    refine ⟨?_, ?_, fun mem => ?_, ?_⟩
    · rintro rfl
      rwa [vcvtOne, show sx q.toNat 32 = q.toInt from VType.int_toNat .i32 q] at run
    · rintro rfl
      exact run
    · simp only [List.mem_cons, List.not_mem_nil, or_false] at mem
      rcases mem with rfl | rfl | rfl | rfl <;> exact run
    · rintro rfl
      obtain ⟨s, m, datum, lt⟩ := unpackE2m1_fin q.toNat
      simp only [vcvtOne, datum] at run
      rw [datum]
      rcases m with _ | m
      · exact ⟨_, run, fp32_unpack_zero s⟩
      · obtain ⟨v, value, exact_⟩ := fp32_pack_e2m1 c.frm s m.succ_ne_zero lt
        exact ⟨v, value ▸ run, exact_⟩
  · rintro rfl
    constructor <;> (rintro rfl; simpa only [vcvtOne, lowBits_eq_toNat] using run)
  · rintro rfl narrow
    have extended : is (lowBits (z.int q.toNat) 32, 0) := by rcases narrow with rfl | rfl <;> exact run
    rw [VType.int_toNat, lowBits_eq_toNat] at extended
    rcases narrow with rfl | rfl <;> exact extended
  · rintro rfl narrow
    have extended : is (lowBits (z.int q.toNat) 32, 0) := by rcases narrow with rfl | rfl <;> exact run
    have unsigned : intOf z.signed q = (q.toNat : Int) := by rcases narrow with rfl | rfl <;> rfl
    rwa [VType.int_toNat, lowBits_eq_toNat, unsigned, BitVec.ofInt_natCast, BitVec.ofNat_toNat] at extended
  · rw [cvtFF, inf]; rfl
  · rw [cvtFF, nan]; rfl

/-! ### The special cases of the seven functions (R164 to R168) -/

/-- FP32 has evaluations of its own only for finite operands. -/
theorem Fmt.sfu_of_not_fin {f : Fmt} {c : Nat} (special : ∀ s m e, f.unpack c ≠ .fin s m e) (frm : Word) (op : Nat) :
    f.sfu frm op c = f.sfuExact frm op c := by
  unfold Fmt.sfu
  split
  · split
    iterate 4 next fin => exact (special _ _ _ fin).elim
    · rfl
  · rfl

section
variable {f : Fmt} {c : Nat} {s : Bool} {m : Nat} {e : Int} (fin : f.unpack c = .fin s m e) (frm : Word)
include fin

/-- Reciprocal, reciprocal square root and square root are correctly rounded in every format. -/
theorem Fmt.sfu_rounded {op : Nat} (rounded : op = 2 ∨ op = 3 ∨ op = 4) : f.sfu frm op c = f.sfuExact frm op c := by
  unfold Fmt.sfu
  rw [fin]
  split
  · rcases rounded with rfl | rfl | rfl <;> rfl
  · rfl

theorem Fmt.sfu_lg2_not_positive (not_positive : m = 0 ∨ s = true) : f.sfu frm 1 c = f.sfuExact frm 1 c := by
  unfold Fmt.sfu
  rw [fin]
  split
  · exact if_pos not_positive
  · rfl

end

theorem Fmt.sfu_sin_zero {f : Fmt} {c : Nat} {s : Bool} {e : Int} (fin : f.unpack c = .fin s 0 e) (frm : Word) :
    f.sfu frm 5 c = (f.signed s 0, 0) := by
  unfold Fmt.sfu Fmt.sfuExact
  rw [fin]
  split
  · next single => rw [single]; rfl
  · rfl

theorem lg2F32_one : lg2F32 (2 ^ 23) (-23) = (0, 0) := by decide +kernel

/-- The code of 1, whose logarithm is +0. -/
theorem Fmt.sfu_lg2_one {f : Fmt} (mem : f ∈ [fp32, fp16, bf16, e5m2]) (frm : Word) : f.sfu frm 1 (f.bias * 2 ^ f.t) = (0, 0) := by
  simp only [List.mem_cons, List.not_mem_nil, or_false] at mem
  rcases mem with rfl | rfl | rfl | rfl
  · exact lg2F32_one
  · rfl
  · rfl
  · rfl

theorem sfuSpecialCases : SfuSpecialCases := by
  intro f mem frm c is inf
  have infs : f.inf = true := by
    simp only [List.mem_cons, List.not_mem_nil, or_false] at mem
    rcases mem with rfl | rfl | rfl | rfl <;> rfl
  refine ⟨fun sig nan op lt => ?_, fun pinf => ?_, fun ninf => ?_, fun neg e zero => ?_, fun m e negative pos => ?_, fun one => ?_⟩
  · change f.sfu frm op c = _
    rw [Fmt.sfu_of_not_fin (by simp [nan]), Fmt.sfuExact, nan]
    rfl
  · have exact_ (op) := Fmt.sfu_of_not_fin (f := f) (c := c) (by simp [pinf]) frm op
    refine ⟨?_, ?_, ?_, ?_, ?_, ?_, ?_⟩ <;>
    · simp only [is]
      rw [exact_, Fmt.sfuExact, pinf]
      rfl
  · have exact_ (op) := Fmt.sfu_of_not_fin (f := f) (c := c) (by simp [ninf]) frm op
    refine ⟨?_, ?_, ?_, ?_, ?_, ?_, ?_⟩ <;>
    · simp only [is]
      rw [exact_, Fmt.sfuExact, ninf]
      rfl
  · refine ⟨?_, ?_, ?_, ?_, ?_⟩
    · simp only [is]
      rw [Fmt.sfu_lg2_not_positive zero frm (.inl rfl), Fmt.sfuExact, zero]
      simp [infs, inf]
    · simp only [is]
      rw [Fmt.sfu_rounded zero frm (by decide), Fmt.sfuExact, zero]
      simp [infs, inf]
    · simp only [is]
      rw [Fmt.sfu_rounded zero frm (by decide), Fmt.sfuExact, zero]
      simp [infs, inf]
    · simp only [is]
      rw [Fmt.sfu_rounded zero frm (by decide), Fmt.sfuExact, zero]
      rfl
    · exact Fmt.sfu_sin_zero zero frm
  · refine ⟨?_, ?_, ?_⟩
    · simp only [is]
      rw [Fmt.sfu_lg2_not_positive negative frm (.inr rfl), Fmt.sfuExact, negative]
      simp [pos, Fmt.mkNan, flagIf]
    · simp only [is]
      rw [Fmt.sfu_rounded negative frm (by decide), Fmt.sfuExact, negative]
      simp [pos, Fmt.mkNan, flagIf]
    · simp only [is]
      rw [Fmt.sfu_rounded negative frm (by decide), Fmt.sfuExact, negative]
      simp [pos, Fmt.sqrtV, Fmt.mkNan, flagIf]
  · subst one
    exact Fmt.sfu_lg2_one mem frm

/-! ### The pack form (R163) -/

theorem vpk_count_le {vl : Nat} (le : vl ≤ 64) (t : VType) : (vl + t.pack - 1) / t.pack ≤ 64 := by
  have pos := pack_pos t
  exact Nat.div_le_of_le_mul (by omega)

theorem foldl_setEl_flags (r : Nat → Nat × Nat) (d : Nat) (l : List Nat) (x : VCtx) (fl : Nat) :
    l.foldl (fun (acc : VCtx × Nat × Option (GReg × Word)) j => (acc.1.setEl d j (r j).1, acc.2.1 ||| (r j).2, none)) (x, fl, none) =
      (x.writes (fun j => some (d, (r j).1)) l, l.foldl (fun acc j => acc ||| (r j).2) fl, none) := by
  induction l generalizing x fl with
  | nil => rfl
  | cons j l ih => exact ih ..

/-- The last beat of a pack form writes its elements, each once, and gathers their flags. -/
theorem finish_vpk {c : VCmd} {d a : VReg} {z t : VType} {k : MReg} (ins : c.ins = .vpk d a z k t) (x : VCtx) :
    let l := numsFrom 0 ((c.vl + t.pack - 1) / t.pack)
    (c.finish x).1 = x.writes (fun j => some (d.val, (c.packEl x a t j).1)) l ∧
      (c.finish x).2.1 = l.foldl (fun acc j => acc ||| (c.packEl x a t j).2) 0 := by
  intro l
  have run : c.finish x = l.foldl (fun (acc : VCtx × Nat × Option (GReg × Word)) j =>
      (acc.1.setEl d j (c.packEl x a t j).1, acc.2.1 ||| (c.packEl x a t j).2, none)) (x, 0, none) := by rw [VCmd.finish, ins]
  rw [run, foldl_setEl_flags]
  exact ⟨rfl, rfl⟩

/-- The places of n groups of p fields. -/
theorem exists_lt_mul_iff {n p : Nat} {P : Nat → Prop} : (∃ j < n, ∃ s < p, P (p * j + s)) ↔ ∃ i < n * p, P i := by
  constructor
  · rintro ⟨j, hj, s, hs, h⟩
    exact ⟨p * j + s, by calc p * j + s < p * (j + 1) := by rw [Nat.mul_succ]; omega
                          _ ≤ n * p := by rw [Nat.mul_comm n]; exact Nat.mul_le_mul_left p hj, h⟩
  · rintro ⟨i, hi, h⟩
    have pos : 0 < p := Nat.pos_of_mul_pos_left (Nat.zero_lt_of_lt hi)
    exact ⟨i / p, Nat.div_lt_of_lt_mul (Nat.mul_comm n p ▸ hi), i % p, Nat.mod_lt _ pos, by rwa [Nat.div_add_mod]⟩

/-- A 32-bit element saturated to an integer type. -/
theorem vpk_integer (t : VType) {v : Nat} (lt : v < 2 ^ 32) : lowBits (satI (if t.signed then sx v 32 else (v : Int)) t.lo t.hi) t.bitsOf =
    (satTo t.bitsOf t.signed (intOf t.signed (BitVec.ofNat 32 v))).toNat := by
  have value : (if t.signed then sx v 32 else (v : Int)) = intOf t.signed (BitVec.ofNat 32 v) := by
    rw [intOf, sx_eq_toInt _ (by decide), BitVec.toNat_ofNat, Nat.mod_eq_of_lt lt]
  rw [lowBits_eq_toNat, satI_eq_satTo, value]

theorem vectorPacks : VectorPacks := by
  intro c x d a z k t vl ins n of r
  obtain ⟨ctx, flags⟩ := finish_vpk ins x
  have small := numsFrom_zero_small (vpk_count_le vl t)
  have packs (j : Nat) : c.packEl x a t j = packed t fun s => r (t.pack * j + s) := by
    have one (i : Nat) : vpkOne t c.frm (x.el a i) = of (x.el a i) := by
      have integer := vpk_integer t (x.el_lt a i)
      cases t
      case f16 | bf16 | e4m3 | e5m2 | e2m1x => rfl
      all_goals exact congrArg (·, 0) integer
    simp only [VCmd.packEl, one]
    rfl
  rw [ctx, flags]
  refine ⟨fun j s hj hs => ?_, fun g j hj other => ?_, x.writes_m, fun b => ?_⟩
  · rw [x.writes_el_written small (mem_numsFrom.mpr hj) rfl, packs, Nat.mod_eq_of_lt (packed_lt ..), subEl_packed _ _ hs]
  · refine x.writes_el_kept small hj fun hi v eq => ?_
    have := mem_numsFrom.mp hi
    simp only [Option.some.injEq, Prod.mk.injEq] at eq
    omega
  · rw [testBit_foldl_or]
    simp only [mem_numsFrom, packs, testBit_packed, Nat.zero_testBit, Bool.false_eq_true, false_or]
    exact exists_lt_mul_iff (P := fun i => (r i).2.testBit b = true)

/-! ### Reductions (R73, R170) -/

/-- Two positions of a reduction combined: one operand alone is the result and raises no flag. -/
def combined (f : Nat → Nat → Nat × Nat) : Option Nat → Option Nat → Option Nat × Nat
  | some a, some b => (some (f a b).1, (f a b).2)
  | some a, none => (some a, 0)
  | none, r => (r, 0)

section
variable (f : Nat → Nat → Nat × Nat)

theorem treeLevel_pair (p q : Option Nat) (l : List (Option Nat)) : treeLevel f (p :: q :: l) =
    ((combined f p q).1 :: (treeLevel f l).1, (combined f p q).2 ||| (treeLevel f l).2) := by
  rcases p with _ | a <;> rcases q with _ | b <;> simp [treeLevel, combined]

theorem pairTree_succ (leaf : Nat → Option Nat) (n i : Nat) :
    let p := pairTree f leaf n (2 * i)
    let q := pairTree f leaf n (2 * i + 1)
    pairTree f leaf (n + 1) i = ((combined f p.1 q.1).1, p.2 ||| q.2 ||| (combined f p.1 q.1).2) := by
  intro p q
  rw [pairTree]
  change (match p.1, q.1 with
    | some a, some b => (some (f a b).1, p.2 ||| q.2 ||| (f a b).2)
    | some a, none => (some a, p.2 ||| q.2)
    | none, r => (r, p.2 ||| q.2)) = _
  rcases p.1 with _ | a <;> rcases q.1 with _ | b <;> simp [combined]

theorem treeLevel_append (m : Nat) (l₁ l₂ : List (Option Nat)) (even : l₁.length = 2 * m) : treeLevel f (l₁ ++ l₂) =
    ((treeLevel f l₁).1 ++ (treeLevel f l₂).1, (treeLevel f l₁).2 ||| (treeLevel f l₂).2) := by
  induction m generalizing l₁ with
  | zero => rw [List.length_eq_zero_iff.mp even]; simp [treeLevel]
  | succ m ih =>
    obtain ⟨p, q, l, rfl⟩ : ∃ p q l, l₁ = p :: q :: l := by
      rcases l₁ with _ | ⟨p, _ | ⟨q, l⟩⟩
      · simp at even
      · simp at even; omega
      · exact ⟨p, q, l, rfl⟩
    rw [List.cons_append, List.cons_append, treeLevel_pair, treeLevel_pair, ih l (by simp at even; omega)]
    simp [Nat.or_assoc]

theorem length_treeLevel (m : Nat) (l : List (Option Nat)) (even : l.length = 2 * m) : (treeLevel f l).1.length = m := by
  induction m generalizing l with
  | zero => rw [List.length_eq_zero_iff.mp even]; rfl
  | succ m ih =>
    rcases l with _ | ⟨p, _ | ⟨q, l⟩⟩
    · simp at even
    · simp at even; omega
    · rw [treeLevel_pair, List.length_cons, ih l (by simp at even; omega)]

theorem tree_succ (n : Nat) (l : List (Option Nat)) : tree f (n + 1) l =
    ((tree f n (treeLevel f l).1).1, (treeLevel f l).2 ||| (tree f n (treeLevel f l).1).2) := rfl

/-- The tree over two halves combines their trees. -/
theorem tree_append (n : Nat) (l₁ l₂ : List (Option Nat)) (left : l₁.length = 2 ^ n) (right : l₂.length = 2 ^ n) :
    let p := tree f n l₁
    let q := tree f n l₂
    tree f (n + 1) (l₁ ++ l₂) = ((combined f p.1 q.1).1, p.2 ||| q.2 ||| (combined f p.1 q.1).2) := by
  induction n generalizing l₁ l₂ with
  | zero =>
    obtain ⟨p, rfl⟩ := List.length_eq_one_iff.mp left
    obtain ⟨q, rfl⟩ := List.length_eq_one_iff.mp right
    simp [tree, treeLevel_pair, treeLevel]
  | succ n ih =>
    rw [Nat.pow_succ'] at left right
    have upper := ih _ _ (length_treeLevel f _ l₁ left) (length_treeLevel f _ l₂ right)
    intro p q
    rw [tree_succ, treeLevel_append f _ l₁ l₂ left, upper]
    simp only [p, q, tree_succ]
    congr 1
    ac_rfl

end

/-- The elements under position i of level n + 1 are those under positions 2i and 2i + 1 of level n. -/
theorem range'_halves (n i : Nat) : List.range' (2 ^ (n + 1) * i) (2 ^ (n + 1)) =
    List.range' (2 ^ n * (2 * i)) (2 ^ n) ++ List.range' (2 ^ n * (2 * i + 1)) (2 ^ n) := by
  have join := List.range'_append (s := 2 ^ n * (2 * i)) (m := 2 ^ n) (n := 2 ^ n) (step := 1)
  rw [Nat.one_mul] at join
  rw [Nat.mul_succ, join, Nat.pow_succ]
  congr 1 <;> ring

section
variable (f : Nat → Nat → Nat × Nat)

/-- Position i of level n is the tree over its 2^n elements. -/
theorem pairTree_eq_tree (leaf : Nat → Option Nat) (n i : Nat) :
    pairTree f leaf n i = tree f n ((List.range' (2 ^ n * i) (2 ^ n)).map leaf) := by
  induction n generalizing i with
  | zero => simp [pairTree, tree]
  | succ n ih =>
    rw [pairTree_succ, ih, ih, range'_halves, List.map_append, tree_append] <;> simp

end

/-- The elements that take part in a reduction. -/
def VCmd.leaf (c : VCmd) (x : VCtx) (a : VReg) (i : Nat) : Option Nat := if c.active x i then some (x.el a i) else none

theorem reduce_eq (c : VCmd) (x : VCtx) (a : VReg) (f : Nat → Nat → Nat × Nat) (absent : Nat) :
    c.reduce x a f absent = ((pairTree f (c.leaf x a) 6 0).1.getD absent, (pairTree f (c.leaf x a) 6 0).2) := by
  rw [VCmd.reduce, pairTree_eq_tree, numsFrom_zero_eq_range, List.range_eq_range']
  rfl

/-- An addition modulo 2^32 reduces to the sum. -/
theorem pairTree_sum {f : Nat → Nat → Nat × Nat} (add : ∀ p q, (f p q).1 % 2 ^ 32 = (p + q) % 2 ^ 32) (leaf : Nat → Option Nat)
    (n i : Nat) : (pairTree f leaf n i).1.getD 0 % 2 ^ 32 = ((List.range' (2 ^ n * i) (2 ^ n)).map fun k => (leaf k).getD 0).sum % 2 ^ 32 := by
  induction n generalizing i with
  | zero => simp [pairTree]
  | succ n ih =>
    have both (p q : Option Nat) : (combined f p q).1.getD 0 % 2 ^ 32 = (p.getD 0 + q.getD 0) % 2 ^ 32 := by
      rcases p with _ | a
      · rw [combined, Option.getD_none, Nat.zero_add]
      · rcases q with _ | b
        · rfl
        · exact add a b
    rw [pairTree_succ, both, Nat.add_mod, ih, ih, ← Nat.add_mod, range'_halves, List.map_append, List.sum_append]

/-- An operand alone is among the values, and none of them is greater; without values there is no operand. -/
def Greatest (int : Nat → Int) (values : Nat → Prop) (r : Option Nat) : Prop :=
  (∀ v, values v → ∃ w, r = some w ∧ int v ≤ int w) ∧ ∀ w, r = some w → values w

section
variable {f : Nat → Nat → Nat × Nat} {int : Nat → Int} (choice : ∀ p q, (f p q).1 = if int p < int q then q else p)
include choice

theorem combined_greatest {P Q : Nat → Prop} {p q : Option Nat} (left : Greatest int P p) (right : Greatest int Q q) :
    Greatest int (fun v => P v ∨ Q v) (combined f p q).1 := by
  obtain ⟨left, left_mem⟩ := left
  obtain ⟨right, right_mem⟩ := right
  rcases p with _ | a
  · refine ⟨fun v hv => hv.elim (fun h => ?_) (right v), fun w hw => .inr (right_mem w hw)⟩
    obtain ⟨w, none_, -⟩ := left v h
    cases none_
  · rcases q with _ | b
    · refine ⟨fun v hv => hv.elim (left v) fun h => ?_, fun w hw => .inl (left_mem w hw)⟩
      obtain ⟨w, none_, -⟩ := right v h
      cases none_
    · have least (v : Nat) (hv : P v ∨ Q v) : int v ≤ int a ∨ int v ≤ int b := by
        refine hv.imp (fun h => ?_) fun h => ?_
        · obtain ⟨w, same, le⟩ := left v h
          exact Option.some.inj same ▸ le
        · obtain ⟨w, same, le⟩ := right v h
          exact Option.some.inj same ▸ le
      have result : (combined f (some a) (some b)).1 = some (if int a < int b then b else a) := congrArg some (choice a b)
      rw [result]
      split
      · exact ⟨fun v hv => ⟨b, rfl, (least v hv).elim (by omega) id⟩, fun w hw => .inr (right_mem w hw)⟩
      · exact ⟨fun v hv => ⟨a, rfl, (least v hv).elim id (by omega)⟩, fun w hw => .inl (left_mem w hw)⟩

/-- A choice of the greater operand reduces to a greatest element. -/
theorem pairTree_greatest (leaf : Nat → Option Nat) (n i : Nat) :
    Greatest int (fun v => ∃ k ∈ List.range' (2 ^ n * i) (2 ^ n), leaf k = some v) (pairTree f leaf n i).1 := by
  induction n generalizing i with
  | zero =>
    have only (v : Nat) : (∃ k ∈ List.range' (2 ^ 0 * i) (2 ^ 0), leaf k = some v) ↔ leaf i = some v := by simp
    simp only [only, pairTree]
    exact ⟨fun v hv => ⟨v, hv, le_refl _⟩, fun w hw => hw⟩
  | succ n ih =>
    have both := combined_greatest choice (ih (2 * i)) (ih (2 * i + 1))
    rw [pairTree_succ, range'_halves]
    simpa only [List.mem_append, or_and_right, exists_or] using both

end

/-- Addition of 32-bit elements, signed or not. -/
theorem int_add_mod {t : VType} (ty : t = .i32 ∨ t = .n32) (p q : Nat) : lowBits (t.int p + t.int q) 32 % 2 ^ 32 = (p + q) % 2 ^ 32 := by
  have wide : lowBits (t.int p + t.int q) t.bitsOf = (p + q) % 2 ^ t.bitsOf := by
    rw [lowBits_eq_toNat, int_eq_intOf, int_eq_intOf, ofInt_add_intOf, ← BitVec.ofNat_add, BitVec.toNat_ofNat]
  rcases ty with rfl | rfl <;> exact (congrArg (· % 2 ^ 32) wide).trans (Nat.mod_mod ..)

/-- The greatest active element, or the value for none. -/
theorem reduce_greatest (c : VCmd) (x : VCtx) (a : VReg) (t : VType) (absent : Nat) :
    let r := (c.reduce x a (fun p q => (if t.int p < t.int q then q else p, 0)) absent).1
    (∃ i < 64, c.active x i = true ∧ r = x.el a i ∧ ∀ j < 64, c.active x j = true → t.int (x.el a j) ≤ t.int r) ∨
      (∀ i < 64, c.active x i = false) ∧ r = absent := by
  intro r
  have r_eq : r = _ := congrArg Prod.fst (reduce_eq c x a _ absent)
  obtain ⟨above, among⟩ := pairTree_greatest (f := fun p q => (if t.int p < t.int q then q else p, 0)) (int := t.int) (fun _ _ => rfl)
    (c.leaf x a) 6 0
  have values (v : Nat) : (∃ k ∈ List.range' (2 ^ 6 * 0) (2 ^ 6), c.leaf x a k = some v) ↔
      ∃ i < 64, c.active x i = true ∧ x.el a i = v := by
    simp [VCmd.leaf]
  simp only [values] at above among
  rcases result : (pairTree _ (c.leaf x a) 6 0).1 with _ | w
  · right
    rw [result] at above r_eq
    refine ⟨fun i hi => ?_, r_eq⟩
    by_contra active
    obtain ⟨w, none_, -⟩ := above _ ⟨i, hi, eq_true_of_ne_false active, rfl⟩
    cases none_
  · left
    rw [result] at above r_eq
    obtain ⟨i, hi, active, el⟩ := among w result
    refine ⟨i, hi, active, r_eq.trans el.symm, fun j hj active' => ?_⟩
    obtain ⟨w', same, le⟩ := above _ ⟨j, hj, active', rfl⟩
    rwa [← Option.some.inj same, ← show r = w from r_eq] at le

theorem int_word {t : VType} (ty : t = .i32 ∨ t = .n32) (v : Nat) : intOf t.signed (BitVec.ofNat 32 v) = t.int v := by
  rw [int_eq_intOf]
  rcases ty with rfl | rfl <;> rfl

theorem least_word {t : VType} (ty : t = .i32 ∨ t = .n32) : lowBits t.lo 32 = if t.signed then 2 ^ 31 else 0 := by
  rcases ty with rfl | rfl <;> decide

/-- A reduction writes element 0 of its destination. -/
theorem reduction_frame (x : VCtx) (d : VReg) (v : Nat) : (x.setEl d 0 v).m = x.m ∧
    ∀ g j, j < 64 → g ≠ d.val ∨ j ≠ 0 → (x.setEl d 0 v).el g j = x.el g j :=
  ⟨rfl, fun _ _ hj other => x.el_setEl_ne v (by decide) hj other⟩

theorem vectorReductions : VectorReductions := by
  intro c x d a k _ y others leaf tree sum
  have frame (v : Nat) (run : y = x.setEl d 0 v) : others := by
    simp only [others, run]
    exact reduction_frame x d v
  have zero (v : Nat) (run : y = x.setEl d 0 v) : y.el d 0 = v % 2 ^ 32 := by
    rw [run, x.el_setEl_same]
  have trees (f : Nat → Nat → Nat × Nat) (absent : Nat) (value : y = x.setEl d 0 (c.reduce x a f absent).1)
      (flags : (c.finish x).2.1 = (c.reduce x a f absent).2) : tree f absent := by
    refine ⟨?_, ?_, frame _ value⟩
    · rw [zero _ value, reduce_eq]; rfl
    · rw [flags, reduce_eq]; rfl
  refine ⟨fun t ty ins => ?_, fun t ty ins => ?_, fun ins => ?_, fun ins => ?_⟩
  · have run : y = x.setEl d 0 (c.reduce x a (fun p q => (lowBits (t.int p + t.int q) 32, 0)) 0).1 := by simp only [y, VCmd.finish, ins]
    refine ⟨?_, by rw [VCmd.finish, ins], frame _ run⟩
    rw [zero _ run, reduce_eq, pairTree_sum (int_add_mod ty)]
    simp only [sum, List.range_eq_range']
    congr 3
    funext i
    unfold VCmd.leaf
    split <;> rfl
  · have run : y = x.setEl d 0 (c.reduce x a (fun p q => (if t.int p < t.int q then q else p, 0)) (lowBits t.lo 32)).1 := by
      simp only [y, VCmd.finish, ins]
    have flags : (c.finish x).2.1 = 0 := by rw [VCmd.finish, ins]
    simp only [int_word ty]
    rcases reduce_greatest c x a t (lowBits t.lo 32) with ⟨i, hi, active, value, greatest⟩ | ⟨none_, value⟩
    · have result : y.el d 0 = x.el a i := by rw [zero _ run, value, Nat.mod_eq_of_lt (x.el_lt a i)]
      rw [value, ← result] at greatest
      exact ⟨greatest, flags, frame _ run, .inl ⟨i, hi, active, result⟩⟩
    · refine ⟨fun i hi active => absurd (none_ i hi) (by rw [active]; decide), flags, frame _ run, .inr ⟨none_, ?_⟩⟩
      rw [zero _ run, value, least_word ty]
      split <;> rfl
  · exact trees _ _ (by simp only [y, VCmd.finish, ins]) (by rw [VCmd.finish, ins])
  · exact trees _ _ (by simp only [y, VCmd.finish, ins]) (by rw [VCmd.finish, ins])

/-! ### Fixed point (R74, R171, R172) -/

/-- The 128-bit number in four elements. -/
theorem limbs_bits (x : VCtx) (k : Nat) : BitVec.ofNat 32 (x.el k 3) ++ BitVec.ofNat 32 (x.el k 2) ++ BitVec.ofNat 32 (x.el k 1) ++
    BitVec.ofNat 32 (x.el k 0) = BitVec.ofNat 128 (x.limbs k) := by
  have low := x.el_lt k
  refine BitVec.eq_of_toNat_eq ?_
  rw [toNat_append_eq_add, toNat_append_eq_add, toNat_append_eq_add, x.ofNat_el_toNat, x.ofNat_el_toNat, x.ofNat_el_toNat, x.ofNat_el_toNat,
    BitVec.toNat_ofNat, VCtx.limbs]
  have := low 0
  have := low 1
  have := low 2
  have := low 3
  omega

theorem setLimbs_eq_writes (x : VCtx) (k v : Nat) : x.setLimbs k v = x.writes (fun j => some (k, v / 2 ^ (32 * j))) (numsFrom 0 4) := by
  change _ = (((x.setEl k 0 (v / 1)).setEl k 1 (v / 2 ^ 32)).setEl k 2 (v / 2 ^ 64)).setEl k 3 (v / 2 ^ 96)
  rw [Nat.div_one]
  rfl

theorem limbs_setLimbs (x : VCtx) (k v : Nat) : (x.setLimbs k v).limbs k = v % 2 ^ 128 := by
  have written (j : Nat) (hj : j < 4) : (x.setLimbs k v).el k j = v / 2 ^ (32 * j) % 2 ^ 32 := by
    rw [setLimbs_eq_writes]
    exact x.writes_el_written (numsFrom_zero_small (by decide)) (mem_numsFrom.mpr hj) rfl
  rw [VCtx.limbs, written 0 (by decide), written 1 (by decide), written 2 (by decide), written 3 (by decide)]
  omega

/-- A fixed-point addition writes elements 0 to 3. -/
theorem setLimbs_frame (x : VCtx) (k v : Nat) : (x.setLimbs k v).m = x.m ∧
    ∀ r j, j < 64 → r ≠ k ∨ 4 ≤ j → (x.setLimbs k v).el r j = x.el r j := by
  rw [setLimbs_eq_writes]
  refine ⟨x.writes_m, fun r j hj other => x.writes_el_kept (numsFrom_zero_small (by decide)) hj fun hi w same => ?_⟩
  have below := mem_numsFrom.mp hi
  simp only [Option.some.injEq, Prod.mk.injEq] at same
  omega

/-- A conditional sum with its flags. -/
theorem foldl_add_flags (p : Nat → Bool) (q : Nat → Int × Nat) (l : List Nat) (a : Int) (fl : Nat) :
    l.foldl (fun (acc : Int × Nat) j => if p j then (acc.1 + (q j).1, acc.2 ||| (q j).2) else acc) (a, fl) =
      (a + (l.map fun j => if p j then (q j).1 else 0).sum, l.foldl (fun acc j => acc ||| if p j then (q j).2 else 0) fl) := by
  induction l generalizing a fl with
  | nil => simp
  | cons j l ih => by_cases h : p j = true <;> simp [h, ih, Int.add_assoc]

theorem exponent_eq (w : Word) : sx (bits w 0 16) 16 = (w.setWidth 16).toInt := by
  rw [sx_eq_toInt _ (by decide), bits_zero]
  congr 1
  exact BitVec.eq_of_toNat_eq (by rw [BitVec.toNat_ofNat, BitVec.toNat_setWidth, Nat.mod_mod])

/-- What vfix adds: the fixed-point values of the active elements. -/
def VCmd.fixedSum (c : VCmd) (x : VCtx) (a : VReg) (E : Int) : Int :=
  ((List.range 64).map fun i => if c.active x i then (toFix E (x.el a i)).1 else 0).sum

/-- The flags of the conversions to fixed point. -/
def VCmd.fixedFlags (c : VCmd) (x : VCtx) (a : VReg) (E : Int) : Nat :=
  (List.range 64).foldl (fun acc i => acc ||| if c.active x i then (toFix E (x.el a i)).2 else 0) 0

theorem finish_vfix {c : VCmd} {d a : VReg} {g : GReg} {k : MReg} (ins : c.ins = .vfix d g a k) (x : VCtx) :
    let E := (c.x.setWidth 16).toInt
    c.finish x = (x.setLimbs d (lowBits (x.limbs d + c.fixedSum x a E) 128), c.fixedFlags x a E, none) := by
  rw [VCmd.finish, ins]
  simp only [foldl_add_flags, exponent_eq, numsFrom_zero_eq_range]
  rfl

theorem testBit_fixedFlags (c : VCmd) (x : VCtx) (a : VReg) (E : Int) (b : Nat) : (c.fixedFlags x a E).testBit b = true ↔
    ∃ i < 64, c.active x i = true ∧ (toFix E (x.el a i)).2.testBit b = true := by
  have one (i : Nat) : (if c.active x i then (toFix E (x.el a i)).2 else 0).testBit b = true ↔
      c.active x i = true ∧ (toFix E (x.el a i)).2.testBit b = true := by
    by_cases active : c.active x i = true <;> simp [active]
  rw [VCmd.fixedFlags, testBit_foldl_or]
  simp only [one, List.mem_range, Nat.zero_testBit, Bool.false_eq_true, false_or]

theorem vectorFixedPoint : VectorFixedPoint := by
  intro c x _ y big E
  have number (x : VCtx) (r : VReg) : big x r = BitVec.ofNat 128 (x.limbs r) := limbs_bits x r
  refine ⟨fun d g a k ins => ?_, fun d g a ins => ?_⟩
  · obtain ⟨masks, others⟩ := setLimbs_frame x d (lowBits (x.limbs d + c.fixedSum x a E) 128)
    simp only [y, finish_vfix ins x]
    refine ⟨?_, testBit_fixedFlags c x a E, masks, others⟩
    rw [number, number, limbs_setLimbs, lowBits_eq_toNat, Nat.mod_eq_of_lt (BitVec.isLt _), BitVec.ofNat_toNat, BitVec.setWidth_eq,
      BitVec.ofInt_add, BitVec.ofInt_natCast]
    rfl
  · intro q r
    have run : c.finish x = (x.setEl d 0 r.1, r.2, none) := by
      rw [VCmd.finish, ins]
      simp only [exponent_eq, sx_eq_toInt _ (show 0 < 128 by decide), ← number]
      rfl
    simp only [y, run, true_and]
    exact ⟨x.el_setEl_same d 0 r.1, reduction_frame x d r.1⟩

/-- Settles O42: part by part, the integer, word, floating-point and SFU elements, the conversions and packs, the reductions and the fixed
point, and the beat that writes elements one by one. -/
theorem vectorElements : Obligations.VectorElements :=
  ⟨vectorIntegerElements, vectorWordElements, vectorFloatElements, sfuSpecialCases, vectorConversions, vectorPacks, vectorReductions,
    vectorFixedPoint, vectorBeatWritesElements⟩

end Sys2Proof.Machine

end

section

/-! SUPPORT. The family of the matrix statements (08_matrix.md): the tiles, the shadow format registers, the waits of the matrix unit, and
the issue of its commands. -/

namespace Sys2Proof.Machine

/-! ### Tiles (R178, R201, R202) -/

/-- A list of eight, each with its number: what is read of a map over them. -/
theorem getD_map_zip_numsFrom {α β : Type} {l : List α} (eight : l.length = 8) (f : α × Nat → β) (a : α) (b : β) {n : Nat}
    (lt : n < 8) :
    ((l.zip (numsFrom 0 8)).map f).getD n b = f (l.getD n a, n) := by
  rw [numsFrom_zero_eq_range]
  simp [List.getD_eq_getElem?_getD, eight, lt]

/-- A test of each of eight with its number. -/
theorem all_zip_numsFrom {α : Type} {l : List α} (eight : l.length = 8) (p : α × Nat → Bool) (a : α) :
    (l.zip (numsFrom 0 8)).all p = true ↔ ∀ n < 8, p (l.getD n a, n) = true := by
  rw [numsFrom_zero_eq_range, List.all_eq_true, List.forall_mem_iff_getElem]
  simp only [List.length_zip, eight, List.length_range, min_self, List.getElem_zip, List.getElem_range]
  refine forall₂_congr fun n lt => ?_
  rw [List.getD_eq_getElem _ _ (eight ▸ lt)]

/-- A retirement leaves the matrix queue, the tiles and the LM of every core. -/
theorem State.elsewhere.matrixAs {s s' : State} (h : s.elsewhere s') (core : Nat) : (s.core core).matrixAs (s'.core core) :=
  ⟨(congrArg Core.mq (h.cores core) :), (congrArg Core.tiles (h.cores core) :), (congrArg Core.lm (h.cores core) :)⟩

/-- The core with the free tiles of a mask lent to a thread, each cleared. -/
def Core.lendTiles (k : Core) (tid mask : Nat) : Core :=
  { k with tiles := (k.tiles.zip (numsFrom 0 8)).map fun p =>
      if mask.testBit p.2 && p.1.holder.isNone then { holder := some tid } else p.1 }

theorem Core.lendTiles_getD {k : Core} (eight : k.tiles.length = 8) (tid mask : Nat) {n : Nat} (lt : n < 8) :
    (k.lendTiles tid mask).tiles.getD n {} =
      if mask.testBit n = true ∧ (k.tiles.getD n {}).holder = none then { holder := some tid } else k.tiles.getD n {} := by
  rw [Core.lendTiles, getD_map_zip_numsFrom eight _ {} _ lt]
  simp only [Bool.and_eq_true, Option.isNone_iff_eq_none]

theorem State.freeTiles_getD {s : State} {tid : Nat} (eight : (s.core (coreOf tid)).tiles.length = 8) (mask : Nat) {n : Nat} (lt : n < 8) :
    ((s.freeTiles tid mask).core (coreOf tid)).tiles.getD n {} =
      if mask.testBit n = true ∧ ((s.core (coreOf tid)).tiles.getD n {}).holder = some tid then {}
      else (s.core (coreOf tid)).tiles.getD n {} := by
  rw [State.freeTiles, State.core_modCore_same, getD_map_zip_numsFrom eight _ {} _ lt]
  simp only [and_comm]

/-- A form that takes a pending POISON trap first, and has none, goes on. -/
theorem State.poisonFirst_of_nil {t : Thread} (clean : t.poison = []) (s : State) (k : Thread → Out) : s.poisonFirst t k = k t := by
  rw [State.poisonFirst, clean]

theorem State.poisonFirst_of_cons {t : Thread} {b : Nat} {l : List Nat} (pending : t.poison = b :: l) (s : State) (k : Thread → Out) :
    s.poisonFirst t k = s.trap { t with poison := l } 0x06 (BitVec.ofNat 64 b) := by
  rw [State.poisonFirst, pending]

section
variable {s : State} {t : Thread} (thread : s.thread s.cur = some t) {a d : GReg}
include thread

/-- mclaim takes all the tiles that its mask names, or none. -/
theorem exec_mclaim (eight : (s.core (coreOf s.cur)).tiles.length = 8) :
    exec (.mclaim a d) s = if ∀ n < 8, ((t.rd a).toNat % 256).testBit n = true →
        ((s.core (coreOf s.cur)).tiles.getD n {}).holder = none ∨ ((s.core (coreOf s.cur)).tiles.getD n {}).holder = some s.cur
      then (s.modCore (coreOf s.cur) fun k => k.lendTiles s.cur ((t.rd a).toNat % 256)).write t d (BitVec.ofNat 64 ((t.rd a).toNat % 256)) 0
      else s.write t d 0 0 := by
  refine (State.onThread_eq thread _).trans ?_
  rw [bits_zero]
  refine if_congr ((all_zip_numsFrom eight _ {}).trans (forall₂_congr fun n _ => ?_)) rfl rfl
  cases ((t.rd a).toNat % 256).testBit n <;> simp

theorem exec_mrel (clean : t.poison = []) :
    exec (.mrel a) s = if s.mopen s.cur ((t.rd a).toNat % 256) = true then s.await t (.mdone ((t.rd a).toNat % 256))
      else (s.freeTiles s.cur ((t.rd a).toNat % 256)).finish t 0 := by
  refine (State.onThread_eq thread _).trans ?_
  rw [State.poisonFirst_of_nil clean, bits_zero]
  rfl

end

/-- A form that has issued and waits for a condition. -/
theorem State.blocks_of_await {s : State} {t : Thread} {i : Instr} {c : Cond} (run : exec i s = s.await t c) :
    s.blocks i t (.await c s.ir) := run.trans (State.wait_eq s t _)

theorem tileClaims : TileClaims := by
  intro s t a d thread eight me mask held k
  refine ⟨fun free => ?_, fun ⟨n, lt, named, taken, other⟩ => ?_, fun clean done => ?_, fun clean busy => ?_, fun b l pending => ?_⟩
  · obtain ⟨s', run, frame, retired⟩ := State.write_answers (s.modCore me fun k => k.lendTiles s.cur mask) t d (BitVec.ofNat 64 mask) 0
    refine ⟨s', ((exec_mclaim thread eight).trans (if_pos free)).trans run, fun n lt => ?_, retired⟩
    rw [(frame.matrixAs me).tiles, State.core_modCore_same, Core.lendTiles_getD eight _ _ lt]
  · refine State.retiresIn_of_write rfl ((exec_mclaim thread eight).trans (if_neg fun free => ?_))
    exact (free n lt named).elim taken other
  · obtain ⟨s', run, frame, retired⟩ := State.finish_answers (s.freeTiles s.cur mask) t 0
    refine ⟨s', ((exec_mrel thread clean).trans (if_neg (by rw [done]; exact Bool.false_ne_true))).trans run, fun n lt => ?_, retired⟩
    rw [(frame.matrixAs me).tiles, State.freeTiles_getD eight _ lt]
  · exact State.blocks_of_await ((exec_mrel thread clean).trans (if_pos busy))
  · exact (State.onThread_eq thread _).trans (State.poisonFirst_of_cons pending s _)

/-! ### The shadow format registers (R180 to R186, R203) -/

section
variable {s : State} {t : Thread} {a : GReg} {off : Nat} (own : s.ownLm t.part (coreOf s.cur) (t.rd a) 48 8 = some off)
  (unlocked : (s.core (coreOf s.cur)).locks = []) (sound : (s.core (coreOf s.cur)).poisoned = [])
include own unlocked sound

/-- Six doublewords of the own LM, over which no range and no poison lies. -/
theorem State.lmAccess_of_clear (write : Bool) (k : State → Nat → Out) :
    s.lmAccess t (t.rd a) 48 8 write k = k s.ownLmSeen off :=
  State.lmAccess_of_free own fun i _ => ⟨by simp [State.locked, State.lockHit, unlocked], by simp [State.isPoisoned, sound]⟩

variable (thread : s.thread s.cur = some t)
include thread

/-- Each register takes its doubleword, under the bits that it holds. -/
theorem exec_mset : let w := fun k => BitVec.ofNat 64 ((s.mem (.lm (coreOf s.cur))).read (off + 8 * k) 8)
    exec (.mset a) s = (s.ownLmSeen.reply { tid := s.cur, writes := [], insn := s.ir, entry := 1, own := true }).wait
      { t with mat := ⟨w 0 &&& 0xFF0F, w 1 &&& 0x3FFFF, w 2 &&& 0xFFFF1F1F, w 3 &&& 0x1FFF, w 4, w 5 &&& 0x3FF⟩ } (.reply .load) := by
  intro w
  refine (State.onThread_eq thread _).trans ?_
  rw [State.lmAccess_of_clear own unlocked sound]
  have whole : w 4 &&& 0xFFFFFFFFFFFFFFFF = w 4 := BitVec.and_allOnes
  have registers : (numsFrom 0 6).foldl (fun (r : MatRegs) k => r.set k (w k)) t.mat =
      ⟨w 0 &&& 0xFF0F, w 1 &&& 0x3FFFF, w 2 &&& 0xFFFF1F1F, w 3 &&& 0x1FFF, w 4 &&& 0xFFFFFFFFFFFFFFFF, w 5 &&& 0x3FF⟩ := rfl
  rw [whole] at registers
  exact congrArg (fun r => s.ownLmSeen.loadHere { t with mat := r } []) registers

/-- The state with the six registers stored, one after the other. -/
def State.storeRegs (s : State) (r : MatRegs) (off : Nat) : State :=
  (numsFrom 0 6).foldl (fun (s : State) k => s.writeLoc ⟨.lm (coreOf s.cur), off + 8 * k⟩ 8 (r.get k).toNat) s

theorem exec_mget : exec (.mget a) s = (s.ownLmSeen.storeRegs t.mat off).finish t 1 := by
  refine (State.onThread_eq thread _).trans ?_
  rw [State.lmAccess_of_clear own unlocked sound]
  rfl

end

theorem State.storeRegs_cur (s : State) (r : MatRegs) (off : Nat) : (s.storeRegs r off).cur = s.cur :=
  List.foldlRecOn (numsFrom 0 6) _ (motive := fun x : State => x.cur = s.cur) rfl fun _ h _ _ => State.turnOf.writeLoc h

theorem State.storeRegs_lm (s : State) (r : MatRegs) (off : Nat) : ((s.storeRegs r off).core (coreOf s.cur)).lm =
    (numsFrom 0 6).foldl (fun m k => Memory.write m (off + 8 * k) 8 (r.get k).toNat) (s.core (coreOf s.cur)).lm := by
  suffices h : ∀ (l : List Nat) (x : State), x.cur = s.cur →
      ((l.foldl (fun (s : State) k => s.writeLoc ⟨.lm (coreOf s.cur), off + 8 * k⟩ 8 (r.get k).toNat) x).core (coreOf s.cur)).lm =
        l.foldl (fun m k => Memory.write m (off + 8 * k) 8 (r.get k).toNat) (x.core (coreOf s.cur)).lm from h _ s rfl
  intro l
  induction l with
  | nil => exact fun _ _ => rfl
  | cons k l ih =>
    intro x cur
    rw [List.foldl_cons, ih _ (State.turnOf.writeLoc cur), cur, State.writeLoc_lm]
    rfl

theorem State.storeRegs_read (s : State) (r : MatRegs) (off : Nat) {k : Nat} (lt : k < 6) :
    ((s.storeRegs r off).core (coreOf s.cur)).lm.read (off + 8 * k) 8 = (r.get k).toNat := by
  have apart := Memory.read_foldl_write_last (l := numsFrom 0 6) (off := fun i => off + 8 * i) (val := fun i => (r.get i).toNat) (n := 8)
    (s.core (coreOf s.cur)).lm (by decide) (mem_numsFrom.mpr lt) fun j _ later => .inl (by omega)
  rw [State.storeRegs_lm, apart]
  exact Nat.mod_eq_of_lt (BitVec.isLt _)

theorem State.storeRegs_byte (s : State) (r : MatRegs) (off : Nat) {x : Nat} (outside : x < off ∨ off + 48 ≤ x) :
    ((s.storeRegs r off).core (coreOf s.cur)).lm.byte x = (s.core (coreOf s.cur)).lm.byte x := by
  rw [State.storeRegs_lm]
  refine Memory.byte_foldl_write _ fun i hi => ?_
  have := mem_numsFrom.mp hi
  omega

theorem shadowRegisterForms : ShadowRegisterForms := by
  intro s t a off thread me window fits aligned unlocked sound w r
  have own := State.ownLm_of_window window fits aligned
  refine ⟨exec_mset own unlocked sound thread, ?_⟩
  have retires := State.retiresIn_of_finish (s := s) (s.ownLmSeen.storeRegs_cur t.mat off) (exec_mget own unlocked sound thread)
  obtain ⟨s', run, lm, retired⟩ := retires.lm me
  have registers : ∀ p ∈ [(0, t.mat.mprec), (1, t.mat.mfmt), (2, t.mat.mgeom), (3, t.mat.mblk), (4, t.mat.mscale), (5, t.mat.macc)],
      p.1 < 6 ∧ p.2 = t.mat.get p.1 := by simp [MatRegs.get]
  refine ⟨s', run, fun k v mem => ?_, fun x outside => ?_, retired⟩
  · obtain ⟨lt, (rfl : v = t.mat.get k)⟩ := registers _ mem
    rw [State.mem, lm]
    exact s.ownLmSeen.storeRegs_read t.mat off lt
  · rw [State.mem, lm]
    exact s.ownLmSeen.storeRegs_byte t.mat off outside

/-! ### Waiting and stopping (R198, R208) -/

theorem State.sweepMeters_threads (s : State) (core : Nat) :
    (s.sweepMeters core).threads = s.threads ∧ (s.sweepMeters core).cur = s.cur := by
  unfold State.sweepMeters
  extract_lets gone noted
  have kept : noted.threads = s.threads ∧ noted.cur = s.cur := by
    refine List.foldlRecOn gone _ (motive := fun x : State => x.threads = s.threads ∧ x.cur = s.cur) ⟨rfl, rfl⟩ fun x hx m _ => ?_
    split <;> exact hx
  split <;> exact kept

/-- A sweep of the meters of the core of `cur` is in the frame of an instruction. -/
theorem State.sweepMeters_elsewhere (s : State) : s.elsewhere (s.sweepMeters (coreOf s.cur)) := by
  unfold State.sweepMeters
  extract_lets gone noted
  have kept : s.elsewhere noted := by
    refine List.foldlRecOn gone _ (motive := fun x : State => s.elsewhere x) (.refl s) fun x hx m _ => ?_
    split
    · exact hx.trans (x.elsewhere_arb _ fun _ => rfl)
    · exact hx
  split
  · exact kept
  · rw [← kept.cur_eq]
    exact kept.trans (noted.elsewhere_core _ fun _ => rfl)

/-- A retirement, with the sweep of meters after it. -/
theorem State.write_sweep_answers {s s1 : State} (cur : s1.cur = s.cur) (t : Thread) (d : GReg) (v : Word) :
    answers (afterRetire (s1.write t d v 0) fun s' => s'.sweepMeters (coreOf s.cur)) fun s' =>
      s1.elsewhere s' ∧ s'.thread s.cur = some ((t.wr d v).retired (t.pc + 4)) := by
  obtain ⟨s', run, frame, retired⟩ := s1.write_answers t d v 0
  have same : s'.cur = s.cur := frame.cur_eq.trans cur
  refine ⟨_, congrArg (afterRetire · _) run, same ▸ frame.trans s'.sweepMeters_elsewhere, ?_⟩
  rw [State.thread, (s'.sweepMeters_threads _).1, ← cur]
  exact retired

theorem State.mcancel_mq (s : State) (core : Nat) (c : MCmd) :
    ((s.mcancel core c).core core).mq = (s.core core).mq.filter fun x => x.uid != c.uid := by
  rw [State.mcancel, (State.sweepMeters_core _ core).1.mq, State.freeLocks, State.moveLocks, State.core_modCore_same,
    State.core_modCore_same]
  rfl

/-- The commands are cancelled, one after the other. -/
def State.cancelAll (s : State) (core : Nat) (l : List MCmd) : State := l.foldl (fun s c => s.mcancel core c) s

theorem State.cancelAll_mq (s : State) (core : Nat) (l : List MCmd) :
    ((s.cancelAll core l).core core).mq = (s.core core).mq.filter fun x => l.all fun c => x.uid != c.uid := by
  induction l generalizing s with
  | nil => exact (List.filter_true _).symm
  | cons c l ih =>
    rw [State.cancelAll, List.foldl_cons, ← State.cancelAll, ih, State.mcancel_mq, List.filter_filter]
    simp only [List.all_cons, Bool.and_comm]

theorem State.cancelAll_cur (s : State) (core : Nat) (l : List MCmd) : (s.cancelAll core l).cur = s.cur :=
  List.foldlRecOn l _ (motive := fun x : State => x.cur = s.cur) rfl fun _ h _ _ => (State.sweepMeters_threads _ _).2.trans h

/-- The commands of the thread in `cur` that stand in its core's matrix queue. -/
def State.mine (s : State) : List MCmd := (s.core (coreOf s.cur)).mq.filter fun c => c.tid == s.cur

/-- The pass of a command has ended in this cc, and is not its last. -/
def State.passOver (s : State) (c : MCmd) : Bool := c.left == 0 && !c.fin && (s.core (coreOf s.cur)).mrun == some s.cc

/-- No command of the thread is left once all of them are cancelled. -/
theorem State.mine_cancelAll (s : State) (rec : List MCmd) :
    ((s.cancelAll (coreOf s.cur) (rec ++ s.mine)).core (coreOf s.cur)).mq.filter (fun c => c.tid == s.cur) = [] := by
  rw [State.cancelAll_mq, List.filter_filter]
  refine List.filter_eq_nil_iff.mpr fun x hx both => ?_
  obtain ⟨own, kept⟩ := Bool.and_eq_true_iff.mp both
  have gone := List.all_eq_true.mp kept x (List.mem_append_right _ (List.mem_filter.mpr ⟨hx, own⟩))
  exact absurd gone (by simp)

/-- The one command of the thread that is not cancelled, and that is replaced by c', is all that is left of them. -/
theorem State.mine_stopping {s : State} {rec l : List MCmd} {c c' : MCmd} (mine : s.mine = c :: l) (uid : c'.uid = c.uid)
    (tid : c'.tid = c.tid) (unique : ((rec ++ (s.core (coreOf s.cur)).mq).map fun x => x.uid).Nodup) :
    (((s.cancelAll (coreOf s.cur) (rec ++ l)).core (coreOf s.cur)).setM c').mq.filter (fun x => x.tid == s.cur) = [c'] := by
  have sub : (c :: l).Sublist (s.core (coreOf s.cur)).mq := mine ▸ List.filter_sublist
  have mem : c ∈ (s.core (coreOf s.cur)).mq := sub.subset (List.mem_cons_self ..)
  rw [List.map_append] at unique
  obtain ⟨-, queue, apart⟩ := List.nodup_append.mp unique
  have kept : (rec ++ l).all (fun x => c.uid != x.uid) = true := by
    have others := (List.nodup_cons.mp ((sub.map fun x => x.uid).nodup queue)).1
    refine List.all_eq_true.mpr fun x hx => bne_iff_ne.mpr fun same => ?_
    rcases List.mem_append.mp hx with hx | hx
    · exact apart _ (List.mem_map_of_mem hx) _ (List.mem_map_of_mem mem) same.symm
    · exact others (List.mem_map.mpr ⟨x, hx, same.symm⟩)
  have dropped : ∀ x ∈ l, (rec ++ l).all (fun y => x.uid != y.uid) ≠ true := fun x hx all =>
    absurd (List.all_eq_true.mp all x (List.mem_append_right _ hx)) (by simp)
  have left : ((s.core (coreOf s.cur)).mq.filter fun x => (rec ++ l).all fun y => x.uid != y.uid).filter (fun x => x.tid == s.cur) =
      [c] := by
    rw [List.filter_comm, ← State.mine, mine,
      List.filter_cons_of_pos (p := fun x : MCmd => (rec ++ l).all fun y => x.uid != y.uid) kept, List.filter_eq_nil_iff.mpr dropped]
  rw [Core.setM, State.cancelAll_mq, List.filter_map]
  have tids : ∀ x ∈ (s.core (coreOf s.cur)).mq, (if x.uid = c'.uid then c' else x).tid = x.tid := by
    intro x hx
    split
    · next same => rw [List.inj_on_of_nodup_map queue hx mem (same.trans uid), tid]
    · rfl
  rw [List.filter_congr (q := fun x => x.tid == s.cur) fun x hx => by simp [tids x (List.mem_filter.mp hx).1], left, List.map_singleton,
    if_pos uid.symm]

section
variable {s : State} {t : Thread} (thread : s.thread s.cur = some t) (clean : t.poison = []) {d : GReg}
include thread clean

theorem exec_mwait :
    exec (.mwait d) s = if s.mopen s.cur 0xFF = true then s.await t (.mdone 0xFF) else s.write t d t.mstat 0 :=
  (State.onThread_eq thread _).trans (State.poisonFirst_of_nil clean s _)

/-- None of the thread's commands runs: all are cancelled, in the record and in the queue, and mstop retires. -/
theorem exec_mstop_of_waiting (waiting : ∀ c ∈ s.mine, c.begun = false) : exec (.mstop d) s =
    afterRetire ((s.cancelAll (coreOf s.cur) (t.mrec ++ s.mine)).write
      (if (t.mrec ++ s.mine).isEmpty then { t with mrec := [] } else { t with mrec := [], mstat := t.mstat ||| 0x80 }) d
      (BitVec.ofNat 64 (t.mrec ++ s.mine).length) 0) fun s' => s'.sweepMeters (coreOf s.cur) := by
  have queued (p : MCmd → Bool) : s.mine.filter (fun c => !c.begun || p c) = s.mine :=
    List.filter_eq_self.mpr fun c hc => by simp [waiting c hc]
  have running (p : MCmd → Bool) : s.mine.find? (fun c => c.begun && p c) = none :=
    List.find?_eq_none.mpr fun c hc => by simp [waiting c hc]
  refine (State.onThread_eq thread _).trans ((State.poisonFirst_of_nil clean s _).trans ?_)
  dsimp only
  rw [← State.mine, queued, running]
  rfl

/-- One of them runs, in a pass that has cycles left: it is told to end with the pass, the others are cancelled, and the thread waits. -/
theorem exec_mstop_of_running {c : MCmd} {l : List MCmd} (mine : s.mine = c :: l) (begun : c.begun = true) (left : c.left ≠ 0)
    (others : ∀ x ∈ l, x.begun = false) : exec (.mstop d) s =
    afterRetire (((s.cancelAll (coreOf s.cur) (t.mrec ++ l)).modCore (coreOf s.cur) fun k =>
      k.setM { c with stopping := some (d, (t.mrec ++ l).length) }).wait { t with mrec := [] } (.reply .unit))
      fun s' => s'.sweepMeters (coreOf s.cur) := by
  have unended : s.passOver c = false := by simp [State.passOver, left]
  have queued : s.mine.filter (fun c => !c.begun || s.passOver c) = l := by
    rw [mine, List.filter_cons_of_neg (by simp [begun, unended])]
    exact List.filter_eq_self.mpr fun x hx => by simp [others x hx]
  have running : s.mine.find? (fun c => c.begun && !s.passOver c) = some c := by
    rw [mine, List.find?_cons_of_pos (by simp [begun, unended])]
  unfold State.passOver at queued running
  refine (State.onThread_eq thread _).trans ((State.poisonFirst_of_nil clean s _).trans ?_)
  dsimp only
  rw [← State.mine, queued, running]
  rfl

end

theorem matrixWaitForms : MatrixWaitForms := by
  intro s t d thread me mine
  refine ⟨fun b l pending => ?_, fun clean done => ?_, fun clean busy => ?_, fun clean (none_ : s.mine = []) empty => ?_,
    fun clean (some_ : t.mrec ++ s.mine ≠ []) waiting => ?_, fun c l clean queue begun left others unique => ?_⟩
  · exact ⟨(State.onThread_eq thread _).trans (State.poisonFirst_of_cons pending s _),
      (State.onThread_eq thread _).trans (State.poisonFirst_of_cons pending s _)⟩
  · exact State.retiresIn_of_write rfl ((exec_mwait thread clean).trans (if_neg (by rw [done]; exact Bool.false_ne_true)))
  · exact State.blocks_of_await ((exec_mwait thread clean).trans (if_pos busy))
  · have run := exec_mstop_of_waiting thread clean (d := d) (none_ ▸ fun _ h => nomatch h)
    rw [none_, empty] at run
    unfold State.retires State.retiresIn
    rw [run]
    have same : { t with mrec := [] } = t := by rw [← empty]
    exact same ▸ State.write_sweep_answers rfl { t with mrec := [] } d 0
  · obtain ⟨s', run, frame, retired⟩ := State.write_sweep_answers (s.cancelAll_cur me (t.mrec ++ mine))
      { t with mrec := [], mstat := t.mstat ||| 0x80 } d (BitVec.ofNat 64 (t.mrec ++ mine).length)
    refine ⟨s', ?_, ?_, ?_⟩
    · rw [exec_mstop_of_waiting thread clean waiting, if_neg (by simpa using some_)]
      exact run
    · rw [(frame.matrixAs me).mq]
      exact s.mine_cancelAll t.mrec
    · exact retired
  · refine ⟨_, exec_mstop_of_running thread clean queue begun left others, ?_, ?_⟩
    · rw [(State.sweepMeters_core _ me).1.mq, State.core_setThread, State.core_modCore_same]
      exact State.mine_stopping queue rfl rfl unique
    · rw [State.thread, (State.sweepMeters_threads _ me).1, State.setThread_threads, State.modCore_cur, State.cancelAll_cur]
      exact Map.look_put_same _ _ _

/-- Settles O48: tiles (`exec_mclaim`, `exec_mrel`), registers (`exec_mset`, `exec_mget`) and waits (`exec_mwait`, `exec_mstop_of_waiting`,
`exec_mstop_of_running`). -/
theorem tileForms : Obligations.TileForms := ⟨tileClaims, shadowRegisterForms, matrixWaitForms⟩

/-! ### Entering the matrix queue (R86, R191, R197) -/

theorem mem_insertLock {x y : Lock} {l : List Lock} : y ∈ insertLock x l ↔ y = x ∨ y ∈ l := by
  induction l with
  | nil => exact List.mem_cons
  | cons z l ih =>
    unfold insertLock
    split
    · exact List.mem_cons
    · rw [List.mem_cons, ih, List.mem_cons, or_left_comm]

theorem mem_foldl_insertLock {y : Lock} {new old : List Lock} :
    y ∈ new.foldl (fun acc l => insertLock l acc) old ↔ y ∈ new ∨ y ∈ old := by
  induction new generalizing old with
  | nil => simp
  | cons x new ih => rw [List.foldl_cons, ih, mem_insertLock, List.mem_cons, or_left_comm, or_assoc]

/-- A range that is registered, and holds bytes, is in the table with its bounds. -/
theorem State.mem_addLocks (s : State) (core ord : Nat) {ls : List Lock} {l : Lock} (mem : l ∈ ls) (bytes : l.lo < l.hi) :
    ∃ x ∈ ((s.addLocks core ord ls).core core).locks, x.space = l.space ∧ x.lo = l.lo ∧ x.hi = l.hi ∧ x.w = l.w ∧ x.uid = l.uid := by
  rw [State.addLocks, State.core_modCore_same]
  have new := List.mem_map_of_mem (f := fun l : Lock => { l with at_ := s.cc, lo0 := 0, hi0 := 0, reg := s.cc, ord := ord })
    (List.mem_filter (p := fun l : Lock => decide (l.lo < l.hi)).mpr ⟨mem, decide_eq_true bytes⟩)
  exact ⟨_, mem_foldl_insertLock.mpr (.inl new), rfl, rfl, rfl, rfl, rfl⟩

section
variable {s : State} (t : Thread) (c : MCmd) {ls : List Lock}

/-- A command without room in the queue or in the table leaves its position a bubble. -/
theorem State.menter_of_full
    (full : 2 ≤ (s.core (coreOf s.cur)).mqUsed s.cc ∨ 32 < (s.core (coreOf s.cur)).lockCount + lockEntries ls) :
    s.menter t c ls = s.bubble := if_pos full

/-- What else a command that enters leaves of its core: its ranges in the table, and the operand latch as it was. -/
theorem State.menter_answers_core (room : (s.core (coreOf s.cur)).mqUsed s.cc < 2)
    (entries : (s.core (coreOf s.cur)).lockCount + lockEntries ls ≤ 32) :
    ∃ s', s.menter t c ls = .next s' ∧ (s'.core (coreOf s.cur)).mq = (s.core (coreOf s.cur)).mq ++ [{ c with entered := s.cc }] ∧
      (∀ l ∈ ls, l.lo < l.hi → ∃ x ∈ (s'.core (coreOf s.cur)).locks,
        x.space = l.space ∧ x.lo = l.lo ∧ x.hi = l.hi ∧ x.w = l.w ∧ x.uid = l.uid) ∧
      (s'.core (coreOf s.cur)).tiles = (s.core (coreOf s.cur)).tiles ∧ (s'.core (coreOf s.cur)).lm = (s.core (coreOf s.cur)).lm ∧
      (s'.core (coreOf s.cur)).latch = (s.core (coreOf s.cur)).latch ∧ s'.thread s.cur = some (t.retired (t.pc + 4)) := by
  obtain ⟨s', run, queue, tiles, lm, retired⟩ := State.menter_answers (c := c) (t := t) room entries
  have next := run
  rw [State.menter, if_neg (by omega)] at next
  cases next
  refine ⟨_, run, queue, ?_, tiles, lm, ?_, retired⟩ <;> rw [State.core_nextUid, State.core_setThread, State.core_modCore_same]
  · exact fun l mem bytes => s.mem_addLocks _ 0 mem bytes
  · rw [State.addLocks, State.core_modCore_same]

end

/-! ### The issue of matrix commands (R179, R187, R188, R191) -/

theorem refuse_eq (m : Word) (code : Nat) : refuse m code = refusedStat m code := by
  have flag : m &&& 0x100 = if m.getLsbD 8 then 0x100 else 0 := BitVec.and_twoPow m 8
  unfold refuse refusedStat
  rw [flag]
  cases m.getLsbD 8 <;> rfl

theorem gateOf_eq (s : State) (t : Thread) (g : GReg) : s.gateOf t g =
    if g = 0 then none else some ⟨(t.rd g).toNat % 64, (s.bar (coreOf s.cur) ((t.rd g).toNat % 64)).phase⟩ := by
  rw [State.gateOf, bits_zero]
  rfl

section
variable {s : State} {t : Thread} {i : Instr} {tile : Tile} {a b d : GReg} {gate : Option GReg} {ref : MatRegs → Nat}
  (thread : s.thread s.cur = some t) (row : matrixOf i = some (tile, a, b, d, gate, ref))
include row

/-- The forms that enter the queue at issue are one form, on the tile, the operands and the ranges of their tables. -/
theorem exec_of_matrixOf : exec i s = s.matrixForm i tile ref a b d gate fun t => matrixRanges s t i := by
  cases i with
  | mzero | mbias | mmul | mdrain => cases row; rfl
  | _ => cases row

include thread

theorem exec_matrix_of_unheld (unheld : ((s.core (coreOf s.cur)).tiles.getD tile {}).holder ≠ some s.cur) : exec i s = s.illegal t := by
  rw [exec_of_matrixOf row, State.matrixForm, State.onThread_eq thread, if_pos unheld]

variable (held : ((s.core (coreOf s.cur)).tiles.getD tile {}).holder = some s.cur)
include held

theorem exec_matrix_of_refused (refused : ref t.mat ≠ 0) : exec i s = s.mrefuse t (ref t.mat) := by
  rw [exec_of_matrixOf row, State.matrixForm, State.onThread_eq thread, if_neg (not_not.mpr held), if_pos refused]

theorem exec_matrix_of_addr (sound : ref t.mat = 0) {v : Word} (fails : allOk (matrixRanges s t i) = .error v) :
    exec i s = s.addr t v := by
  rw [exec_of_matrixOf row, State.matrixForm, State.onThread_eq thread, if_neg (not_not.mpr held), if_neg (not_not.mpr sound), fails]

theorem exec_matrix_of_ranges (sound : ref t.mat = 0) {ls : List Lock} (ranges : allOk (matrixRanges s t i) = .ok ls) :
    exec i s = s.menter t (s.mcmd t i tile (t.rd a) (t.rd b) (t.rd d) (gate.bind (s.gateOf t))) ls := by
  rw [exec_of_matrixOf row, State.matrixForm, State.onThread_eq thread, if_neg (not_not.mpr held), if_neg (not_not.mpr sound), ranges]
  cases gate <;> rfl

end

/-- A refused command retires with the refusal in MSTAT. -/
theorem State.retires_of_mrefuse {s : State} {t : Thread} {i : Instr} {code : Nat} (run : exec i s = s.mrefuse t code) :
    s.retires i { t with mstat := refusedStat t.mstat code } (t.pc + 4) := by
  rw [← refuse_eq]
  exact State.retiresIn_of_finish (t := { t with mstat := Machine.refuse t.mstat code }) rfl run

theorem matrixCommandsIssue : MatrixCommandsIssue := by
  intro s t i tile a b d gate ref thread row me k held
  refine ⟨exec_matrix_of_unheld thread row, fun held refused => ?_, fun held sound => ⟨fun v => ?_, fun ls ranges => ?_⟩⟩
  · exact State.retires_of_mrefuse (exec_matrix_of_refused thread row held refused)
  · exact exec_matrix_of_addr thread row held sound
  · have run := exec_matrix_of_ranges thread row held sound ranges
    refine ⟨fun full => run.trans (State.menter_of_full t _ full), fun room entries => ?_⟩
    obtain ⟨s', next, queue, locks, tiles, lm, -, retired⟩ := State.menter_answers_core t
      (s.mcmd t i tile (t.rd a) (t.rd b) (t.rd d) (gate.bind (s.gateOf t))) room entries
    refine ⟨s', run.trans next, ⟨_, queue, rfl, rfl, rfl, rfl, rfl, rfl, rfl, rfl, rfl, rfl, rfl, rfl, rfl, ?_⟩, locks, tiles, lm,
      retired⟩
    cases gate with
    | none => rfl
    | some g => exact gateOf_eq s t g

/-! ### The gathered multiply (R206) -/

/-- The command of a gathered multiply as it is presented. -/
def State.gathered (s : State) (t : Thread) (a b d : GReg) (tile : Tile) : MCmd :=
  s.mcmd t (.mmulg a b d tile) tile (t.rd a) (t.rd b) (t.rd d) none

/-- The ranges that it takes at its entry: those of B and of the vectors. -/
def State.gatherRanges (s : State) (t : Thread) (b : GReg) : Except Word (List Lock) :=
  allOk (s.mrange t (t.rd b) (t.mat.n * (t.mat.k * t.mat.sideB.store / 8)) 8 false :: s.mvectors t t.mat)

/-- Its checks, in order, and the latch that it takes when they pass. -/
def State.takeLatch (s : State) (t : Thread) (a b d : GReg) (tile : Tile) : Out :=
  if t.mat.refusal true ≠ 0 then s.mrefuse t (t.mat.refusal true)
  else
    match s.gatherCheck t (t.rd a) (t.rd d), s.gatherRanges t b with
    | .error v, _ => s.addr t v
    | .ok _, .error v => s.addr t v
    | .ok rows, .ok _ => (s.modCore (coreOf s.cur) fun k =>
        { k with latch := some { cmd := s.gathered t a b d tile, rows := rows } }).nextUid.hold t .latch

section
variable {s : State} {t : Thread} {a b d : GReg} {tile : Tile} (thread : s.thread s.cur = some t)
  (held : ((s.core (coreOf s.cur)).tiles.getD tile {}).holder = some s.cur)
include thread held

theorem exec_mmulg_of_busy (busy : s.latchBusy (coreOf s.cur) s.cur = true) : exec (.mmulg a b d tile) s = s.bubble := by
  refine (State.onThread_eq thread _).trans ?_
  rw [if_neg (not_not.mpr held), if_pos busy]

variable (free : s.latchBusy (coreOf s.cur) s.cur = false)
include free

/-- Presented with the latch filled for it, the command enters with its ranges, under the number that the latch gave it. -/
theorem exec_mmulg_of_filled {l : Latch} {ls : List Lock} (latch : (s.core (coreOf s.cur)).latch = some l)
    (serves : l.serves (s.gathered t a b d tile) = true) (ranges : s.gatherRanges t b = .ok ls) :
    exec (.mmulg a b d tile) s =
      s.menter t { s.gathered t a b d tile with uid := l.cmd.uid } (ls.map fun x => { x with uid := l.cmd.uid }) := by
  have filled : (s.core (coreOf s.cur)).latch.filter (fun l => l.serves (s.gathered t a b d tile)) = some l := by
    rw [latch]
    exact if_pos serves
  refine (State.onThread_eq thread _).trans ?_
  rw [if_neg (not_not.mpr held), if_neg (by rw [free]; exact Bool.false_ne_true)]
  unfold State.gathered at filled
  unfold State.gatherRanges at ranges
  dsimp only
  rw [filled, ranges]
  rfl

/-- Presented without, it goes through its checks. -/
theorem exec_mmulg_of_unfilled
    (unfilled : ¬∃ l, (s.core (coreOf s.cur)).latch = some l ∧ l.serves (s.gathered t a b d tile) = true) :
    exec (.mmulg a b d tile) s = s.takeLatch t a b d tile := by
  have none_ : (s.core (coreOf s.cur)).latch.filter (fun l => l.serves (s.gathered t a b d tile)) = none :=
    Option.filter_eq_none_iff.mpr fun l latch serves => unfilled ⟨l, latch, serves⟩
  refine (State.onThread_eq thread _).trans ?_
  rw [if_neg (not_not.mpr held), if_neg (by rw [free]; exact Bool.false_ne_true)]
  unfold State.gathered at none_
  dsimp only
  rw [none_]
  rfl

end

/-- A thread that is held is in its slot with the reason, and the cores are as they were. -/
theorem State.hold_core (s : State) (t : Thread) (b : Block) :
    answers (s.hold t b) fun s' => s'.thread s.cur = some { t with block := b } ∧ ∀ c, s'.core c = s.core c := by
  refine ⟨_, rfl, State.thread_setThread_same _ _ _, fun c => ?_⟩
  unfold State.noIssue
  split <;> rfl

theorem gatheredMultiply : GatheredMultiply := by
  intro s t a b d tile thread me k i c held vectors filled
  refine ⟨exec_mmulg_of_busy thread held, fun free unfilled refused => ?_, fun v free unfilled sound fails => ?_,
    fun rows ls free unfilled sound gathers (ranges : s.gatherRanges t b = .ok ls) => ?_,
    fun l ls free latch serves ranges => ⟨fun full => ?_, fun room => ?_⟩⟩
  · exact State.retires_of_mrefuse ((exec_mmulg_of_unfilled thread held free unfilled).trans (if_pos refused))
  · rw [exec_mmulg_of_unfilled thread held free unfilled, State.takeLatch, if_neg (not_not.mpr sound), fails]
  · obtain ⟨s', next, waits, core⟩ := State.hold_core (s.modCore me fun k => { k with latch := some { cmd := c, rows := rows } }).nextUid
      t .latch
    refine ⟨s', Eq.trans ?_ next, ?_, ?_, waits⟩
    · rw [exec_mmulg_of_unfilled thread held free unfilled, State.takeLatch, if_neg (not_not.mpr sound), gathers, ranges]
      rfl
    all_goals rw [core, State.core_nextUid, State.core_modCore_same]
  · exact (exec_mmulg_of_filled thread held free latch serves ranges).trans (State.menter_of_full t _ full)
  · obtain ⟨queue, entries⟩ := not_or.mp room
    obtain ⟨s', next, queued, -, -, -, kept, retired⟩ := State.menter_answers_core t { c with uid := l.cmd.uid } (Nat.not_le.mp queue)
      (Nat.not_lt.mp entries)
    exact ⟨s', (exec_mmulg_of_filled thread held free latch serves ranges).trans next, queued, kept.trans latch, retired⟩

/-- An engine's access to lines that hold no poison changes neither the threads nor the time. -/
theorem State.engineTouch_sound {s : State} {core : Nat} (sound : (s.core core).poisoned = []) (tid : Nat) (ranges : List (Nat × Nat)) :
    (s.engineTouch core tid ranges).threads = s.threads ∧ (s.engineTouch core tid ranges).cc = s.cc := by
  unfold State.engineTouch
  extract_lets touched
  have same : (touched.core core).poisoned = [] ∧ touched.threads = s.threads ∧ touched.cc = s.cc := by
    unfold touched
    split
    · exact ⟨sound, rfl, rfl⟩
    · exact ⟨sound, rfl, rfl⟩
  rw [same.1]
  exact same.2

/-- The state with the rows of a latch read into it. -/
def State.latchRead (s : State) (core : Nat) (l : Latch) : State :=
  (s.engineTouch core l.cmd.tid (l.rows.map fun o => (o, l.cmd.ra))).modCore core fun k =>
    { k with latch := some { l with data := some (k.gatherRows l.cmd.ra l.rows) } }

theorem State.latchRead_core (s : State) (core : Nat) (l : Latch) : (s.latchRead core l).core core =
    { s.core core with latch := some { l with data := some ((s.core core).gatherRows l.cmd.ra l.rows) } } := by
  rw [State.latchRead, State.core_modCore_same, State.engineTouch_core]

theorem State.latchRead_sound {s : State} {core : Nat} (sound : (s.core core).poisoned = []) (l : Latch) :
    (s.latchRead core l).threads = s.threads ∧ (s.latchRead core l).cc = s.cc :=
  State.engineTouch_sound sound l.cmd.tid _

/-- A latch without data, over whose rows no W range lies, is filled. -/
theorem exec_operandLatchFilled {s : State} {core : Nat} {l : Latch} (latch : (s.core core).latch = some l) (empty : l.data = none)
    (running : (s.core core).frozen = false) (present : (s.core core).lost = false) (reads : ∀ x ∈ (s.core core).locks, x.w = false) :
    exec (.operandLatchFilled core) s = .next ((s.latchRead core l).modThread l.cmd.tid fun t =>
      if t.block = .latch then { t with block := .none, readyAt := (s.latchRead core l).cc + 1 } else t) := by
  have unmet (p : Lock → Bool) : ((s.core core).locks.any fun x => x.w && p x) = false :=
    List.any_eq_false.mpr fun x hx => by simp [reads x hx]
  change execOperandLatchFilled core s = _
  unfold execOperandLatchFilled
  dsimp only
  rw [latch]
  dsimp only
  rw [empty, running, present]
  simp only [Bool.and_assoc, unmet]
  rfl

theorem latchFilled : LatchFilled := by
  intro s core l t latch empty thread block running present reads sound
  obtain ⟨threads, cc⟩ := State.latchRead_sound sound l
  have slot : (s.latchRead core l).thread l.cmd.tid = some t := by rw [State.thread, threads, ← State.thread, thread]
  refine ⟨_, exec_operandLatchFilled latch empty running present reads, ?_, ?_, ?_⟩
  · rw [State.core_modThread, State.latchRead_core]
  · rw [State.core_modThread, State.latchRead_core]
    rfl
  · rw [State.modThread, slot, cc]
    dsimp only
    rw [if_pos block]
    exact State.thread_setThread_same _ _ _

/-- Settles O45: the commands that enter at issue (`exec_of_matrixOf`), the gathered multiply (`exec_mmulg_of_filled`,
`exec_mmulg_of_unfilled`) and its latch. -/
theorem matrixFormsIssue : Obligations.MatrixFormsIssue := ⟨matrixCommandsIssue, gatheredMultiply, latchFilled⟩

end Sys2Proof.Machine

end

section

/-! SUPPORT. The family of the statements of copies and synchronisation (10_copy_sync.md): waits at barriers and on join words, remote
arrivals, pod barriers, queues, and what refutes the statements of barrier arrivals, copy commands, transfers and other parcels. -/

namespace Sys2Proof.Machine

/-! ### Forms that wait -/

theorem State.blocks_of_wait {s : State} {t : Thread} {i : Instr} {b : Block} (run : exec i s = s.wait t b) : s.blocks i t b :=
  run.trans (s.wait_eq t b)

theorem peerBar_eq_barOf (me : Nat) (v : Word) : peerBar me v = barOf me v := by
  simp only [peerBar, barOf, toNat_extractLsb'_eq_bits, getLsbD_eq_bits, beq_iff_eq]

theorem opPhase_eq_getLsbD (v : Word) : opPhase v = v.getLsbD 8 := (getLsbD_eq_bits v 8).symm

/-! ### barw and barw.t (R242, R243) -/

/-- What barw and barw.t do at a barrier with the phase `phase` when they are evaluated: `ph` is the phase that they name, `poison` the
number of the barrier where its last phase was poisoned, `b` the wait. -/
def State.barwAt (s : State) (t : Thread) (d : GReg) (limit : Option Word) (phase ph : Bool) (poison : Option Nat) (b : Block) : Out :=
  if phase ≠ ph then s.barwNow t d poison
  else if (match limit with
    | some l => decide (l.toNat ≤ s.timeAt (coreOf s.cur))
    | none => false) = true then s.write t d 1 0
  else s.wait t b

section
variable {s : State} {t : Thread} {d : GReg} {limit : Option Word} {phase ph : Bool} {poison : Option Nat} {b : Block}

theorem State.barwAt_of_complete (complete : phase ≠ ph) : s.barwAt t d limit phase ph poison b = s.barwNow t d poison := if_pos complete

theorem State.barwAt_of_late {l : Word} (pending : phase = ph) (late : l.toNat ≤ s.timeAt (coreOf s.cur)) :
    s.barwAt t d (some l) phase ph poison b = s.write t d 1 0 :=
  (if_neg (not_not.mpr pending)).trans (if_pos (decide_eq_true late))

theorem State.barwAt_of_early {l : Word} (pending : phase = ph) (early : s.timeAt (coreOf s.cur) < l.toNat) :
    s.barwAt t d (some l) phase ph poison b = s.wait t b :=
  (if_neg (not_not.mpr pending)).trans (if_neg (by simpa using early))

theorem State.barwAt_of_pending (pending : phase = ph) : s.barwAt t d none phase ph poison b = s.wait t b :=
  (if_neg (not_not.mpr pending)).trans (if_neg Bool.false_ne_true)

end

section
variable {s : State} {t : Thread} (thread : s.thread s.cur = some t) (a b d : GReg)
include thread

theorem exec_barw (z : Scope) : exec (.barw a d z) s = s.barwForm t a d none z := State.onThread_eq thread _

theorem exec_barwT (z : Scope) : exec (.barwT a b d z) s = s.barwForm t a d (some (t.rd b)) z := State.onThread_eq thread _

omit thread in
theorem State.barwForm_of_issue (issues : t.block.isAwait = false) (limit : Option Word) {z : Scope} (row : z = .core ∨ z = .cluster) :
    s.barwForm t a d limit z = s.await t .soon := by
  obtain rfl | rfl := row <;> simp only [State.barwForm, issues]

omit thread in
theorem State.barwForm_core (issued : t.block.isAwait = true) (limit : Option Word) :
    let x := barOf (coreOf s.cur) (t.rd a)
    let ph := (t.rd a).getLsbD 8
    s.barwForm t a d limit .core = s.barwAt t d limit (s.bar x.1 x.2).phase ph (if (s.bar x.1 x.2).lpois then some x.2 else none)
      (.barw false x.1 x.2 ph limit d s.ir) := by
  simp only [State.barwForm, issued, peerBar_eq_barOf, opPhase_eq_getLsbD]
  rfl

omit thread in
theorem State.barwForm_cluster (issued : t.block.isAwait = true) (limit : Option Word) :
    let cl := clusterOf (coreOf s.cur)
    let c := ((t.rd a).extractLsb' 0 4).toNat
    let ph := (t.rd a).getLsbD 8
    s.barwForm t a d limit .cluster = s.barwAt t d limit (s.clBar cl c).phase ph none (.barw true cl c ph limit d s.ir) := by
  simp only [State.barwForm, issued, opPhase_eq_getLsbD, toNat_extractLsb'_eq_bits]
  rfl

end

/-- A trap that a thread takes to its user-level handler, with UT = 0 (R297, R298). -/
theorem State.trapAt_entered {s : State} {tid : Nat} {t : Thread} {code sub : Nat} {tval tpc : Word} {insn : BitVec 32} {after : Bool}
    (user : userCode code = true) (sub_lt : sub < 256) (ut : t.ut = false) (handler : t.handler ≠ 0) : ∃ t',
    (s.trapAt tid t ⟨code, sub, tval⟩ tpc insn after).thread tid = some t' ∧ t.entered t' t.handler tpc code sub tval insn after := by
  have code_lt : code < 256 := lt_trans (of_decide_eq_true user) (by decide)
  refine ⟨_, ?_, Thread.enter_entered t t.handler tpc tval code sub insn after code_lt sub_lt .other⟩
  rw [State.trapAt]
  dsimp only
  rw [if_pos user, if_neg (by rw [ut]; exact Bool.false_ne_true), if_neg handler]
  exact State.thread_setThread_same _ _ _

/-- A phase that has completed poisoned is POISON after the instruction (R243). -/
theorem State.barwNow_poisoned (s : State) {t : Thread} (d : GReg) (n : Nat) (user : t.ut = false) (handler : t.handler ≠ 0) :
    answers (s.barwNow t d (some n)) fun s' => ∃ t', s'.thread s.cur = some t' ∧
      (t.wr d 0).entered t' (t.trap.tvec &&& ~~~3#64) (t.pc + 4) 6 0 (BitVec.ofNat 64 n) s.ir true := by
  obtain ⟨s1, run, frame, retired⟩ := s.write_answers t d 0 0
  have cur : s1.cur = s.cur := frame.cur_eq
  have ir : s1.ir = s.ir := (congrArg State.ir frame.rest :)
  have sameUt : (t.wr d 0).ut = t.ut := by unfold Thread.wr; split <;> rfl
  have sameTrap : (t.wr d 0).trap = t.trap := by unfold Thread.wr; split <;> rfl
  have sameHandler : (t.wr d 0).handler = t.handler := by rw [Thread.handler, sameTrap]; rfl
  let u := (t.wr d 0).retired (t.pc + 4)
  obtain ⟨t', entered, fields⟩ := State.trapAt_entered (s := s1) (tid := s.cur) (t := u) (code := 6) (sub := 0)
    (tval := BitVec.ofNat 64 n) (tpc := t.pc + 4) (insn := s.ir) (after := true) rfl (by decide) (sameUt.trans user)
    (by rw [show u.handler = (t.wr d 0).handler from rfl, sameHandler]; exact handler)
  refine ⟨_, by rw [State.barwNow, run]; rfl, t', ?_, ?_⟩
  · dsimp only
    rw [cur, retired, ir]
    exact entered
  · rw [show u.handler = t.handler from sameHandler] at fields
    exact fields

/-- BARW_TIMEOUT (R242). -/
theorem barwTimesOut {s : State} {tid unit n : Nat} {t : Thread} {cl ph : Bool} {l : Word} {d : GReg} {w : BitVec 32}
    (thread : s.thread tid = some t) (block : t.block = .barw cl unit n ph (some l) d w) :
    (l.toNat ≤ s.timeAt (coreOf tid) → answers (exec (.barwTimeout tid) s) fun s' =>
        s'.thread tid = some ((t.wr d 1).completed s.cc)) ∧
      (s.timeAt (coreOf tid) < l.toNat → exec (.barwTimeout tid) s = .next s) := by
  have run : exec (.barwTimeout tid) s =
      if l.toNat ≤ s.timeAt (coreOf tid) then .next (s.complete tid 0 fun t => t.wr d 1) else .next s := by
    change execBarwTimeout tid s = _
    simp only [execBarwTimeout, thread, block]
  refine ⟨fun late => ⟨_, run.trans (if_pos late), ?_⟩, fun early => run.trans (if_neg (Nat.not_le.mpr early))⟩
  exact (State.complete_answers thread 0 fun t => t.wr d 1).2

theorem barwForms : BarwForms := by
  intro s t a b d thread me x c ph
  refine ⟨fun issues z row => ⟨?_, ?_⟩, fun block => ?_, fun cl unit n ph l d' w tid t' found waits => barwTimesOut found waits⟩
  · exact State.blocks_of_await ((exec_barw thread a d z).trans (State.barwForm_of_issue a d issues none row))
  · exact State.blocks_of_await ((exec_barwT thread a b d z).trans (State.barwForm_of_issue a d issues _ row))
  · have issued : t.block.isAwait = true := by rw [block]; rfl
    have core : exec (.barw a d .core) s = _ := (exec_barw thread a d .core).trans (State.barwForm_core a d issued none)
    have coreT : exec (.barwT a b d .core) s = _ := (exec_barwT thread a b d .core).trans (State.barwForm_core a d issued _)
    have cluster : exec (.barw a d .cluster) s = _ := (exec_barw thread a d .cluster).trans (State.barwForm_cluster a d issued none)
    have clusterT : exec (.barwT a b d .cluster) s = _ := (exec_barwT thread a b d .cluster).trans (State.barwForm_cluster a d issued _)
    have clean : ∀ {i : Instr}, exec i s = s.barwNow t d none → s.retires i (t.wr d 0) (t.pc + 4) :=
      fun run => State.retiresIn_of_write rfl run
    refine ⟨fun complete sound => ?_, fun complete poisoned user handler => ?_, fun pending => ⟨?_, fun early => ?_, fun late => ?_⟩,
      fun complete => ⟨?_, ?_⟩, fun pending => ⟨?_, fun early => ?_, fun late => ?_⟩⟩
    · rw [show barOf (coreOf s.cur) (t.rd a) = x from rfl, sound] at core coreT
      exact ⟨clean (core.trans (State.barwAt_of_complete complete)), clean (coreT.trans (State.barwAt_of_complete complete))⟩
    · rw [show barOf (coreOf s.cur) (t.rd a) = x from rfl, poisoned] at core
      rw [core.trans (State.barwAt_of_complete complete)]
      exact s.barwNow_poisoned d x.2 user handler
    · exact State.blocks_of_wait (core.trans (State.barwAt_of_pending pending))
    · exact State.blocks_of_wait (coreT.trans (State.barwAt_of_early pending early))
    · exact State.retiresIn_of_write rfl (coreT.trans (State.barwAt_of_late pending late))
    · exact clean (cluster.trans (State.barwAt_of_complete complete))
    · exact clean (clusterT.trans (State.barwAt_of_complete complete))
    · exact State.blocks_of_wait (cluster.trans (State.barwAt_of_pending pending))
    · exact State.blocks_of_wait (clusterT.trans (State.barwAt_of_early pending early))
    · exact State.retiresIn_of_write rfl (clusterT.trans (State.barwAt_of_late pending late))

/-! ### waitw (R252) -/

/-- The waiter that a waitw registers. -/
def State.waiterOf (s : State) (t : Thread) (b d : GReg) (c : WCond) (p : Place) (l : Loc) : Waiter :=
  { who := .thread s.cur d, part := t.part, place := p, loc := l, cond := c, operand := t.rd b }

/-- waitw at its place: the thread waits, and the waiter is registered. -/
def State.waitwAt (s : State) (t : Thread) (b d : GReg) (c : WCond) (p : Place) (l : Loc) : Out :=
  afterRetire (s.wait t (.reply .waitw)) fun s' => s'.register (s.waiterOf t b d c p l)

theorem overlaps_self (l : Loc) : overlaps l l 8 = true := by simp [overlaps]

/-- A waiter with an entry free, whose thread's condition holds of what is there: the wake leaves. -/
theorem State.register_wakes {s : State} {w : Waiter} {tid : Nat} {d : GReg} (free : s.waiterCount w.place < 256)
    (who : w.who = .thread tid d) (fresh : w.fired = none) (holds : condHolds w.cond (BitVec.ofNat 64 (s.readLoc w.loc 8)) w.operand = true) :
    ∃ r ∈ (s.register w).wakes, r.tid = tid ∧ r.writes = [(d.val, BitVec.ofNat 64 (s.readLoc w.loc 8))] := by
  refine ⟨{ tid := tid, writes := [(d.val, BitVec.ofNat 64 (s.readLoc w.loc 8))] }, ?_, rfl, rfl⟩
  rw [State.register, if_neg (Nat.not_le.mpr free)]
  refine List.mem_append_right _ (List.mem_filterMap.mpr ⟨{ w with refused := false }, List.mem_filter.mpr ⟨?_, ?_⟩, ?_⟩)
  · exact List.mem_append_right _ (List.mem_singleton_self _)
  · simp only [fresh, overlaps_self, Option.isNone_none, Bool.not_false, Bool.true_and]
    exact holds
  · dsimp only
    rw [who]
    rfl

/-- Where the condition does not hold the waiter stands at the place. -/
theorem State.register_stands {s : State} {w : Waiter} (free : s.waiterCount w.place < 256)
    (fresh : w.fired = none) (fails : condHolds w.cond (BitVec.ofNat 64 (s.readLoc w.loc 8)) w.operand = false) :
    { w with refused := false } ∈ (s.register w).waiters := by
  rw [State.register, if_neg (Nat.not_le.mpr free)]
  have value : condHolds w.cond (BitVec.ofNat 64 (State.readLoc { s with waiters := s.waiters ++ [{ w with refused := false }] } w.loc 8))
    w.operand = false := fails
  refine List.mem_filter.mpr ⟨List.mem_map.mpr ⟨{ w with refused := false }, List.mem_append_right _ (List.mem_singleton_self _), ?_⟩, ?_⟩
  · simp [value]
  · simp [fresh]

theorem State.register_threads (s : State) (w : Waiter) : (s.register w).threads = s.threads := by
  unfold State.register
  split <;> rfl

/-- What a waitw at its place leaves, with a waiter entry free. -/
theorem State.waitwAt_answers {s : State} (free : ∀ p, s.waiterCount p < 256) (t : Thread) (b d : GReg) (c : WCond) (p : Place) (l : Loc) :
    answers (s.waitwAt t b d c p l) fun s' =>
      (∃ t', s'.thread s.cur = some t' ∧ t'.block = .reply .waitw ∧ t'.pc = t.pc ∧ t'.g = t.g) ∧
      (condHolds c (BitVec.ofNat 64 (s.readLoc l 8)) (t.rd b) = true →
        ∃ r ∈ s'.wakes, r.tid = s.cur ∧ r.writes = [(d.val, BitVec.ofNat 64 (s.readLoc l 8))]) ∧
      (condHolds c (BitVec.ofNat 64 (s.readLoc l 8)) (t.rd b) = false → ∃ w ∈ s'.waiters, w.who = .thread s.cur d ∧ w.loc = l ∧
        w.cond = c ∧ w.operand = t.rd b ∧ w.refused = false) := by
  refine ⟨_, rfl, ?_, fun holds => ?_, fun fails => ?_⟩
  · refine ⟨{ t.issued with block := .reply .waitw }, ?_, rfl, Thread.issued_pc t, Thread.issued_g t⟩
    rw [State.thread, State.register_threads]
    exact State.thread_setThread_same _ _ _
  · exact State.register_wakes (s := s.setThread s.cur _) (free p) rfl rfl holds
  · exact ⟨_, State.register_stands (s := s.setThread s.cur _) (free p) rfl fails, rfl, rfl, rfl, rfl, rfl⟩

section
variable {s : State} {t : Thread} (thread : s.thread s.cur = some t) (a b d : GReg) (c : WCond)
include thread

/-- A waitw whose request has not come to a place is an access. -/
theorem execWaitw_of_leaving (leaving : ∀ l, ¬t.there l) : exec (.waitw a b d c) s =
    s.access t (t.rd a) 8 .load false true fun s tg => match tg with
      | .own l => (s.reach t (t.rd a) l).waitwAt t b d c (match l.space with
          | .lm core => .lm core
          | _ => .home (coreOf s.cur)) l
      | .far p l _ => s.request t p l (.op 8 false []) (t.rd a) .waitw := by
  refine (State.onThread_eq thread _).trans ?_
  dsimp only
  split
  · next p l x h w block => exact absurd ⟨p, l, h, w, block⟩ (leaving x)
  · rfl

theorem execWaitw_of_there {p : Place} {l : Loc} {x : List Nat} {h : Option Nat} {w : BitVec 32} (there : t.block = .await (.here p l x h) w) :
    exec (.waitw a b d c) s = s.waitwAt t b d c p l := by
  refine (State.onThread_eq thread _).trans ?_
  dsimp only
  rw [there]
  rfl

end

/-- The waiter is a registration of the thread in slot tid that was refused. -/
def Waiter.refusedTo (w : Waiter) (tid : Nat) : Bool :=
  w.refused && match w.who with
    | .thread x _ => x == tid
    | .host _ _ => false

theorem Waiter.refusedTo_of_thread {w : Waiter} {tid : Nat} {d : GReg} (refused : w.refused = true) (who : w.who = .thread tid d) :
    w.refusedTo tid = true := by simp [Waiter.refusedTo, refused, who]

theorem Waiter.refusedTo_of_other {w : Waiter} {tid : Nat} (other : ∀ d, w.who ≠ .thread tid d) : w.refusedTo tid = false := by
  unfold Waiter.refusedTo
  cases who : w.who with
  | host part slot => simp
  | thread x d =>
    have ne : x ≠ tid := fun e => other d (e ▸ who)
    simp [ne]

/-- A registration that was refused is sent again 1 µs after it was sent. -/
theorem execWaitwRetry_of_refused {s : State} {tid : Nat} {d : GReg} {w : Waiter} {ws : List Waiter} (waiters : s.waiters = w :: ws)
    (refused : w.refused = true) (who : w.who = .thread tid d) (others : ∀ x ∈ ws, ∀ d', x.who ≠ .thread tid d') :
    exec (.waitwRetry tid) s = if s.time < w.sentAt + 1000 then .next s else .next (State.register { s with waiters := ws } w) := by
  have mine : w.refusedTo tid = true := Waiter.refusedTo_of_thread refused who
  have found : s.waiters.find? (Waiter.refusedTo · tid) = some w := by
    rw [waiters]
    exact List.find?_cons_of_pos mine
  have rest : s.waiters.filter (fun x => !x.refusedTo tid) = ws := by
    rw [waiters, List.filter_cons_of_neg (by rw [mine]; exact Bool.false_ne_true)]
    exact List.filter_eq_self.mpr fun x mem => by rw [Waiter.refusedTo_of_other (others x mem)]; rfl
  have run : execWaitwRetry tid s = if s.time < w.sentAt + 1000 then .next s
      else .next (State.register { s with waiters := s.waiters.filter fun x => !x.refusedTo tid } w) := by
    refine Eq.trans (b := match s.waiters.find? (Waiter.refusedTo · tid) with
      | none => .next s
      | some w => if s.time < w.sentAt + 1000 then .next s
          else .next (State.register { s with waiters := s.waiters.filter fun x => !x.refusedTo tid } w)) rfl ?_
    rw [found]
  rw [rest] at run
  exact run

theorem waitwForm : WaitwForm := by
  intro s t a b d c thread registers
  have leaves : (∀ x, ¬t.there x) → exec (.waitw a b d c) s = _ := execWaitw_of_leaving thread a b d c
  refine ⟨fun l leaving own free => ?_, fun p l k leaving far => ?_, fun p l x h w there free => ?_,
    fun tid w ws waiters refused who others => ?_⟩
  · rw [leaves leaving, own]
    have caches := s.reach_cachesOnly t (t.rd a) l
    have free' : ∀ p, ((s.seen t (t.rd a)).reach t (t.rd a) l).waiterCount p < 256 := fun p =>
      lt_of_eq_of_lt (congrArg (fun s => State.waiterCount s p) caches.rest :) (free p)
    have run := State.waitwAt_answers free' t b d c (match l.space with
      | .lm core => .lm core
      | _ => .home (coreOf (s.seen t (t.rd a)).cur)) l
    rw [caches.cur_eq, caches.readLoc_eq] at run
    exact run
  · rw [leaves leaving, far]
    rfl
  · rw [execWaitw_of_there thread a b d c there]
    exact State.waitwAt_answers free t b d c p l
  · have run := execWaitwRetry_of_refused waiters refused who others
    exact ⟨fun due => run.trans (if_neg (Nat.not_lt.mpr due)), fun early => run.trans (if_pos early)⟩

/-- Settles O32: `barwForms` and `waitwForm`. -/
theorem barrierWaits : Obligations.BarrierWaits := ⟨barwForms, waitwForm⟩

/-! ### rarr and xack (R237, R246) -/

section
variable {s : State} {t : Thread} (a b d : GReg)

theorem State.arrivalForm_of_foreign (foreign : ∀ p, s.part t.part = some p → p.hasCore ((t.rd a).extractLsb' 0 14).toNat = false) :
    s.arrivalForm t a b d = s.write t d 3 0 := by
  rw [toNat_extractLsb'_eq_bits] at foreign
  unfold State.arrivalForm
  cases found : s.part t.part with
  | none => rfl
  | some p => simp [foreign p found]

/-- An arrival at a core of the partition, with room in its counter. -/
theorem State.arrivalForm_of_own {p : Partition} (found : s.part t.part = some p) (own : p.hasCore ((t.rd a).extractLsb' 0 14).toNat = true) :
    let c := ((t.rd a).extractLsb' 0 14).toNat
    let k := ctrFor (coreOf s.cur) c
    t.pcnt k < 1024 → s.arrivalForm t a b d =
      (s.sentOf t (.lm c) ⟨.lm c, 0⟩ (.arrive c ((t.rd b).extractLsb' 0 6).toNat) k (t.rd a)).write (t.sent.setPcnt k (t.pcnt k + 1)) d 0 0 := by
  intro c k room
  have target : bits (t.rd a) 0 14 = c := (toNat_extractLsb'_eq_bits _ _ _).symm
  unfold State.arrivalForm
  rw [target, ← toNat_extractLsb'_eq_bits (t.rd b), found]
  dsimp only
  rw [own]
  exact if_pos room

end

theorem Thread.pcnt_of_waited {t : Thread} (waited : t.waited .all) (k : Nat) : t.pcnt k = 0 := by
  obtain ⟨-, -, -, c, h, m⟩ := waited
  unfold Thread.pcnt
  split_ifs
  · exact c
  · exact h
  · exact m

/-- rarr and xack are one form, once the thread's engine commands have retired. -/
theorem exec_of_arrival {s : State} {t : Thread} {a b d : GReg} {i : Instr} (thread : s.thread s.cur = some t)
    (row : i = .rarr a b d ∨
      (i = .xack a b d ∧ s.vbusy s.cur = false ∧ s.mbusy s.cur 0xFF = false ∧ t.vrec = [] ∧ t.mrec = [])) :
    let n := ((t.rd b).extractLsb' 0 6).toNat
    (t.priv = 0 ∧ n = 63 → exec i s = s.priv t) ∧
    (¬(t.priv = 0 ∧ n = 63) → t.waited .all → exec i s = s.arrivalForm t a b d) := by
  intro n
  have barrier : n = bits (t.rd b) 0 6 := toNat_extractLsb'_eq_bits _ _ _
  rw [barrier]
  obtain rfl | ⟨rfl, vector, matrix, vrec, mrec⟩ := row
  · refine ⟨fun priv => (State.onThread_eq thread _).trans (if_pos priv), fun may waited => ?_⟩
    exact (State.onThread_eq thread _).trans ((if_neg may).trans (State.release_of_waited waited s _))
  · have met : s.condMet s.cur t .engines = true := by simp [State.condMet, vector, matrix, vrec, mrec]
    refine ⟨fun priv => (State.onThread_eq thread _).trans (if_pos priv), fun may waited => ?_⟩
    exact (State.onThread_eq thread _).trans ((if_neg may).trans ((State.release_of_waited waited s _).trans (if_pos met)))

theorem arrivalForms : ArrivalForms := by
  intro s t a b d i thread row c n k
  obtain ⟨privileged, form⟩ := exec_of_arrival thread row
  refine ⟨fun user barrier => privileged ⟨user, barrier⟩, fun may waited => ?_⟩
  have run := form (by rintro ⟨user, barrier⟩; exact may.elim (· user) (· barrier)) waited
  have zero : t.pcnt k = 0 := Thread.pcnt_of_waited waited k
  refine ⟨fun foreign => ?_, fun p found own => ?_⟩
  · exact State.retiresIn_of_write rfl (run.trans (State.arrivalForm_of_foreign a b d foreign))
  · have sent := State.arrivalForm_of_own a b d found own (lt_of_eq_of_lt zero (by decide))
    rw [show t.pcnt (ctrFor (coreOf s.cur) c) = 0 from zero, Nat.zero_add] at sent
    have retires : s.retiresIn (s.sentOf t (.lm c) ⟨.lm c, 0⟩ (.arrive c n) k (t.rd a)) i ((t.sent.setPcnt k 1).wr d 0) _ :=
      State.retiresIn_of_write rfl (run.trans sent)
    rwa [Thread.setPcnt_pc] at retires

/-! ### pbar (R245, R251, R399) -/

@[simp] theorem State.pod_setPod_same (s : State) (id : Nat) (b : PodBar) : (s.setPod id b).pod id = b := by
  simp [State.pod, State.setPod]

/-- A barrier of the module alone: it has no other member, and the module is the root. -/
theorem State.podTree_of_alone {s : State} {b : PodBar} (alone : b.members = []) (module : s.modId < 4096) :
    s.podKids b s.modId = [] ∧ s.podUpLink b s.modId = none ∧ s.podDownLinks b s.modId = [] := by
  have members : s.podMembers b = [s.modId] := by rw [State.podMembers, if_pos alone]
  have root : s.podRoot b = s.modId := by
    rw [State.podRoot, members]
    exact Nat.min_eq_right (by omega)
  have stays : s.hop s.modId s.modId = none := by simp [State.hop, numsFrom]
  have path : s.podPath b s.modId = [] := by
    rw [State.podPath, root, State.pathTo, stays]
  refine ⟨by simp [State.podKids, members, path], by simp [State.podUpLink, root, stays], ?_⟩
  have nodes : s.podNodes b = [s.modId] := by
    rw [State.podNodes, members]
    simp [path, List.eraseDups_cons]
  simp [State.podDownLinks, nodes, root, stays]

theorem State.reply_foldl (l : List (Nat × GReg)) (v : Word) (s : State) :
    l.foldl (fun s w => s.reply { tid := w.1, writes := [(w.2.val, v)] }) s =
      { s with replies := s.replies ++ l.map fun w => { tid := w.1, writes := [(w.2.val, v)] } } := by
  induction l generalizing s with
  | nil => simp
  | cons w l ih =>
    rw [List.foldl_cons, ih]
    simp [State.reply]

/-- The last arrival at a barrier of the module alone releases its waiters. -/
theorem State.podArrive_of_last {s : State} {id : Nat} (last : (s.pod id).count + 1 = (s.pod id).target) (alone : (s.pod id).members = [])
    (module : s.modId < 4096) : s.podArrive id = (s.setPod id { s.pod id with count := 0, local_ := true }).podRelease id 0 := by
  let b : PodBar := { s.pod id with count := 0, local_ := true }
  obtain ⟨kids, up, down⟩ := State.podTree_of_alone (s := s.setPod id b) (b := b) alone module
  have complete : (b.local_ && ((s.setPod id b).podKids b (s.setPod id b).modId).all fun m => b.arrived.contains m) = true := by
    rw [kids]
    rfl
  rw [State.podArrive]
  dsimp only
  rw [if_pos last, State.podTry, State.pod_setPod_same]
  dsimp only
  rw [if_pos complete, up]
  dsimp only
  rw [State.podDown, down]
  rfl

theorem State.threads_sendFlits (l : List Nat) (f : Word) (s : State) : (l.foldl (fun s x => s.sendFlit x f) s).threads = s.threads := by
  induction l generalizing s with
  | nil => rfl
  | cons x l ih => exact ih _

/-- Every waiter of a pod barrier that is released is answered, and nobody waits at it any more. -/
theorem State.podRelease_answers (s : State) (id : Nat) : let s' := s.podRelease id 0
    (s'.pod id).waiting = [] ∧ (s'.pod id).count = (s.pod id).count ∧ s'.threads = s.threads ∧
      ∀ w ∈ (s.pod id).waiting, ∃ r ∈ s'.replies, r.tid = w.1 ∧ r.writes = [(w.2.val, 0)] := by
  intro s'
  have released : s' = State.setPod { s with
        replies := s.replies ++ (s.pod id).waiting.map fun w => { tid := w.1, writes := [(w.2.val, 0)] } } id
      { s.pod id with local_ := false, sent := false, arrived := [], waiting := [] } := by
    unfold s' State.podRelease
    dsimp only
    rw [State.reply_foldl]
    rfl
  rw [released]
  refine ⟨?_, ?_, rfl, fun w mem => ⟨{ tid := w.1, writes := [(w.2.val, 0)] }, ?_, rfl, rfl⟩⟩
  · rw [State.pod_setPod_same]
  · rw [State.pod_setPod_same]
  · exact List.mem_append_right _ (List.mem_map.mpr ⟨w, mem, rfl⟩)

theorem State.podArrive_threads (s : State) (id : Nat) : (s.podArrive id).threads = s.threads := by
  unfold State.podArrive
  dsimp only
  split
  · unfold State.podTry
    dsimp only
    split
    · split
      · exact (State.podRelease_answers _ id).2.2.1.trans (State.threads_sendFlits _ _ _)
      · split <;> rfl
    · rfl
  · rfl

theorem podBarrier : PodBarrier := by
  intro s t a d thread waited id b
  have number : bits (t.rd a) 0 6 = id := (toNat_extractLsb'_eq_bits _ _ _).symm
  let waits : PodBar := { b with waiting := b.waiting ++ [(s.cur, d)] }
  let s1 := (s.setThread s.cur { t.issued with block := .reply .pbar }).setPod id waits
  have here : s1.pod id = waits := State.pod_setPod_same _ _ _
  have run : exec (.pbar a d) s = if s.podGranted t.part id then .next (s1.podArrive id) else s.write t d 3 0 := by
    refine (State.onThread_eq thread _).trans ((State.release_of_waited waited s _).trans ?_)
    rw [number]
    rfl
  refine ⟨fun foreign => ?_, fun granted => ?_⟩
  · exact State.retiresIn_of_write rfl (run.trans (if_neg (by rw [foreign]; exact Bool.false_ne_true)))
  · refine ⟨_, run.trans (if_pos granted), ?_, fun more => ?_, fun last alone module => ?_⟩
    · refine ⟨{ t.issued with block := .reply .pbar }, ?_, rfl, Thread.issued_pc t⟩
      exact (congrArg (Map.look · s.cur) (s1.podArrive_threads id)).trans (State.thread_setThread_same _ _ _)
    · have counted : s1.podArrive id = s1.setPod id { waits with count := b.count + 1 } := by
        rw [State.podArrive, here]
        exact if_neg more
      rw [counted]
      exact ⟨State.pod_setPod_same _ _ _, rfl⟩
    · have released := State.podArrive_of_last (s := s1) (id := id) (by rw [here]; exact last) (by rw [here]; exact alone) module
      obtain ⟨waiting, count, -, answered⟩ := (s1.setPod id { s1.pod id with count := 0, local_ := true }).podRelease_answers id
      rw [released]
      refine ⟨waiting, count.trans (by rw [State.pod_setPod_same]), fun w mem => answered w ?_⟩
      rw [State.pod_setPod_same, here]
      exact mem

/-- Settles O33: `arrivalForms` and `podBarrier`. -/
theorem remoteArrivals : Obligations.RemoteArrivals := ⟨arrivalForms, podBarrier⟩

/-! ### The queue that an operation reaches (R253) -/

theorem State.queue_of_part {s : State} {part : Nat} {p : Partition} (found : s.part part = some p) (q : Nat) :
    s.queue part q = p.queue q := by
  rw [State.queue, found]

theorem State.part_modQueue {s : State} {part : Nat} {p : Partition} (found : s.part part = some p) (q : Nat) (f : Queue → Queue) :
    (s.modQueue part q f).part part = some { p with queues := p.queues.put q (f (p.queue q)) } := State.part_modPart_same found _

theorem State.queue_modQueue {s : State} {part : Nat} {p : Partition} (found : s.part part = some p) (q : Nat) (f : Queue → Queue) :
    (s.modQueue part q f).queue part q = f (s.queue part q) := by
  rw [State.queue_of_part (State.part_modQueue found q f), State.queue_of_part found]
  exact congrArg (fun x => Option.getD x {}) (Map.look_put_same p.queues q _)

theorem State.replies_modPart (s : State) (part : Nat) (f : Partition → Partition) : (s.modPart part f).replies = s.replies := by
  unfold State.modPart
  split <;> rfl

theorem State.replies_modQueue (s : State) (part q : Nat) (f : Queue → Queue) : (s.modQueue part q f).replies = s.replies :=
  s.replies_modPart part _

theorem State.cur_modQueue (s : State) (part q : Nat) (f : Queue → Queue) : (s.modQueue part q f).cur = s.cur := by
  change (s.modPart part _).cur = s.cur
  unfold State.modPart
  split <;> rfl

/-- A handle that names a queue names one of a partition. -/
theorem State.part_of_queueAt {s : State} {part core q : Nat} {va : Word} (found : s.queueAt part core va = some q) :
    ∃ p, s.part part = some p := by
  cases none : s.part part with
  | some p => exact ⟨p, rfl⟩
  | none =>
    have dead : ∀ q, (s.queue part q).live = false := fun q => by rw [State.queue, none]
    unfold State.queueAt at found
    split at found
    · simp [dead] at found
    · cases found

/-! ### Replies that stay on their way -/

/-- Every reply of s is a reply of s'. -/
def State.repliesKept (s s' : State) : Prop := ∀ r ∈ s.replies, r ∈ s'.replies

section
variable {s s' : State} (h : s.repliesKept s')
include h

theorem State.repliesKept.reply {r : Reply} : s.repliesKept (s'.reply r) := fun x mem => List.mem_append_left _ (h x mem)

theorem State.repliesKept.modPart {p : Nat} {f : Partition → Partition} : s.repliesKept (s'.modPart p f) := by
  unfold State.repliesKept
  rw [State.replies_modPart]
  exact h

theorem State.repliesKept.modQueue {p q : Nat} {f : Queue → Queue} : s.repliesKept (s'.modQueue p q f) := h.modPart

theorem State.repliesKept.qServed {p : Nat} {w : QWait} : s.repliesKept (s'.qServed p w) := by
  unfold State.qServed
  split
  · exact h.reply
  · exact h.modQueue

theorem State.repliesKept.qRun {n p q : Nat} : s.repliesKept (State.qRun n s' p q) := by
  induction n generalizing s' q with
  | zero => exact h
  | succ n ih =>
    unfold State.qRun
    dsimp only
    split
    · split
      · exact ih h.modQueue.reply
      · split
        · refine ih ?_
          split
          · exact ih h.modQueue.qServed
          · exact h.modQueue.qServed
        · split
          · exact ih h.modQueue.reply
          · exact h
    · exact ih h.modQueue.reply
    · split
      · exact ih h.modQueue.reply
      · exact h
    · exact h

theorem State.repliesKept.qPush {p q : Nat} {item : Word} {s'' : State} (pushed : s'.qPush p q item = some s'') : s.repliesKept s'' := by
  unfold State.qPush at pushed
  dsimp only at pushed
  split at pushed
  · cases pushed
    exact h.modQueue.qRun
  · cases pushed

theorem State.repliesKept.ringDrain {n p : Nat} : s.repliesKept (State.ringDrain n s' p) := by
  induction n generalizing s' with
  | zero => exact h
  | succ n ih =>
    unfold State.ringDrain
    split
    · split
      · exact h
      · split
        · next pushed => exact ih (h.qPush pushed).modPart
        · exact h
    · exact h

end

theorem State.repliesKept.refl (s : State) : s.repliesKept s := fun _ mem => mem

/-- No call waits for room in the system-call queue. -/
theorem State.ringDrain_of_quiet {s : State} {part : Nat} {p : Partition} (found : s.part part = some p) (quiet : p.ringPut = []) (n : Nat) :
    State.ringDrain n s part = s := by
  cases n with
  | zero => rfl
  | succ n =>
    unfold State.ringDrain
    rw [found]
    cases s.controlQueue part 1 with
    | none => rfl
    | some q =>
      dsimp only
      rw [quiet]

/-! ### Serving the waiters of a queue (R255) -/

section
variable {s : State} {part q : Nat} {p : Partition} (found : s.part part = some p)
include found

/-- The only waiter, a putter, has room: its item goes to the tail, and it is answered 0. -/
theorem State.qRun_putter {w : QWait} (putters : (s.queue part q).putters = [w]) (getters : (s.queue part q).getters = [])
    (opened : (s.queue part q).closed = false) (room : (s.queue part q).items.length < (s.queue part q).depth) (once : w.next = none) (n : Nat) :
    State.qRun (n + 1) s part q = (s.modQueue part q fun x =>
      { x with putters := [], items := x.items ++ [w.item], senders := x.senders ++ [w.tid] }).reply (w.done 0 none none) := by
  conv_lhs => unfold State.qRun
  dsimp only
  rw [putters]
  dsimp only
  rw [if_neg (by rw [opened]; exact Bool.false_ne_true), if_pos room, State.qServed, once]
  dsimp only
  have left := State.queue_modQueue found q fun x => { x with putters := [], items := x.items ++ [w.item], senders := x.senders ++ [w.tid] }
  refine State.qRun_of_idle ?_ ?_ n
  · exact congrArg Queue.putters left
  · exact (congrArg Queue.getters left).trans getters

omit found in
/-- The only waiter, a putter, finds the queue full: it stays. -/
theorem State.qRun_of_full {w : QWait} (putters : (s.queue part q).putters = [w]) (getters : (s.queue part q).getters = [])
    (opened : (s.queue part q).closed = false) (full : (s.queue part q).depth ≤ (s.queue part q).items.length) (n : Nat) :
    State.qRun n s part q = s := by
  cases n with
  | zero => rfl
  | succ n =>
    conv_lhs => unfold State.qRun
    dsimp only
    rw [putters, getters]
    dsimp only
    rw [if_neg (by rw [opened]; exact Bool.false_ne_true), if_neg (Nat.not_lt.mpr full)]

/-- The only waiter, a getter, takes the head item. -/
theorem State.qRun_getter {w : QWait} {v : Word} {l : List Word} (putters : (s.queue part q).putters = [])
    (getters : (s.queue part q).getters = [w]) (items : (s.queue part q).items = v :: l) (n : Nat) : ∃ x h,
    x.items = l ∧ State.qRun (n + 1) s part q = (s.modQueue part q fun _ => x).reply (w.done 0 (some v) h) := by
  let x : Queue := { s.queue part q with
    items := l, senders := (s.queue part q).senders.drop 1, requeued := (s.queue part q).requeued.drop 1, getters := [] }
  have head : (s.queue part q).takeHead = some (v, !(s.queue part q).requeued.isEmpty, { s.queue part q with
    items := l, senders := (s.queue part q).senders.drop 1, requeued := (s.queue part q).requeued.drop 1 }) := by
    rw [Queue.takeHead, items]
  refine ⟨x, s.holdOf part q w v (!(s.queue part q).requeued.isEmpty), rfl, ?_⟩
  conv_lhs => unfold State.qRun
  dsimp only
  rw [head, putters, getters]
  dsimp only
  have left : (s.modQueue part q fun _ => x).queue part q = x := State.queue_modQueue found q fun _ => x
  refine State.qRun_of_idle ?_ ?_ n
  · exact (congrArg Queue.putters left).trans putters
  · exact congrArg Queue.getters left

omit found in
/-- The only waiter, a getter, finds an open queue empty: it stays. -/
theorem State.qRun_of_empty {w : QWait} (putters : (s.queue part q).putters = []) (getters : (s.queue part q).getters = [w])
    (opened : (s.queue part q).closed = false) (items : (s.queue part q).items = []) (n : Nat) : State.qRun n s part q = s := by
  cases n with
  | zero => rfl
  | succ n =>
    have head : (s.queue part q).takeHead = none := by rw [Queue.takeHead, items]
    conv_lhs => unfold State.qRun
    dsimp only
    rw [head, putters, getters]
    dsimp only
    exact if_neg (by rw [opened]; exact Bool.false_ne_true)

/-- Every waiter that the queue has in s is answered 2 in s', and the queue is as deep as it was. -/
structure State.dismisses (part q : Nat) (s s' : State) : Prop where
  kept : s.repliesKept s'
  placed : ∃ p, s'.part part = some p
  depth : (s'.queue part q).depth = (s.queue part q).depth
  answered : ∀ w, w ∈ (s.queue part q).getters ∨ w ∈ (s.queue part q).putters → w.done 2 none none ∈ s'.replies

/-- It is enough to answer one waiter w, where f leaves the others, and then those. -/
theorem State.dismisses.of_one {s' : State} {w : QWait} {f : Queue → Queue}
    (h : State.dismisses part q ((s.modQueue part q f).reply (w.done 2 none none)) s') (depth : ∀ x, (f x).depth = x.depth)
    (others : ∀ y, y ∈ (s.queue part q).getters ∨ y ∈ (s.queue part q).putters →
      y = w ∨ y ∈ (f (s.queue part q)).getters ∨ y ∈ (f (s.queue part q)).putters) : State.dismisses part q s s' := by
  have left : ((s.modQueue part q f).reply (w.done 2 none none)).queue part q = f (s.queue part q) := State.queue_modQueue found q f
  obtain ⟨kept, placed, deep, answered⟩ := h
  rw [left] at deep answered
  refine ⟨fun r mem => kept r ((State.repliesKept.refl s).modQueue.reply r mem), placed, deep.trans (depth _), fun y mem => ?_⟩
  rcases others y mem with rfl | rest
  · exact kept _ (List.mem_append_right _ (List.mem_singleton_self _))
  · exact answered y rest

/-- A closed queue without items dismisses its waiters. -/
theorem State.qRun_of_closed (closed : (s.queue part q).closed = true) (items : (s.queue part q).items = []) {n : Nat}
    (enough : (s.queue part q).putters.length + (s.queue part q).getters.length ≤ n) :
    State.dismisses part q s (State.qRun n s part q) := by
  induction n generalizing s p with
  | zero =>
    have putters := List.length_eq_zero_iff.mp (by omega : (s.queue part q).putters.length = 0)
    have getters := List.length_eq_zero_iff.mp (by omega : (s.queue part q).getters.length = 0)
    exact ⟨.refl s, ⟨p, found⟩, rfl, fun w mem => by simp [putters, getters] at mem⟩
  | succ n ih =>
    have empty : (s.queue part q).takeHead = none := by rw [Queue.takeHead, items]
    unfold State.qRun
    dsimp only
    cases putters : (s.queue part q).putters with
    | cons w ps =>
      rw [putters, List.length_cons] at enough
      dsimp only
      rw [if_pos closed]
      have left : (State.reply (s.modQueue part q fun y => { y with putters := ps }) (w.done 2 none none)).queue part q =
        { s.queue part q with putters := ps } := State.queue_modQueue found q fun y => { y with putters := ps }
      refine State.dismisses.of_one (f := fun y => { y with putters := ps }) found
        (ih (State.part_modQueue found q fun y => { y with putters := ps }) ?_ ?_ ?_) (fun _ => rfl) fun y mem => ?_
      · rw [left]
        exact closed
      · rw [left]
        exact items
      · rw [left]
        change ps.length + (s.queue part q).getters.length ≤ n
        omega
      · rw [putters, List.mem_cons] at mem
        tauto
    | nil =>
      rw [putters, List.length_nil] at enough
      cases getters : (s.queue part q).getters with
      | cons w gs =>
        rw [getters, List.length_cons] at enough
        rw [empty]
        dsimp only
        rw [if_pos closed]
        have left : (State.reply (s.modQueue part q fun y => { y with getters := gs }) (w.done 2 none none)).queue part q =
          { s.queue part q with getters := gs } := State.queue_modQueue found q fun y => { y with getters := gs }
        refine State.dismisses.of_one (f := fun y => { y with getters := gs }) found
          (ih (State.part_modQueue found q fun y => { y with getters := gs }) ?_ ?_ ?_) (fun _ => rfl) fun y mem => ?_
        · rw [left]
          exact closed
        · rw [left]
          exact items
        · rw [left]
          change (s.queue part q).putters.length + gs.length ≤ n
          rw [putters, List.length_nil]
          omega
        · rw [getters, List.mem_cons] at mem
          tauto
      | nil => exact ⟨.refl s, ⟨p, found⟩, rfl, fun w mem => by simp [putters, getters] at mem⟩

end

/-- The bound of services covers the waiters of every queue. -/
theorem State.waits_ge {s : State} {part q : Nat} {p : Partition} {x : Queue} (found : s.part part = some p) (look : p.queues.look q = some x) :
    x.putters.length + x.getters.length + 1 ≤ s.waits part := by
  have grows : ∀ (l : Map Queue) (n : Nat), n ≤ l.foldl (fun n q => n + 2 * q.2.putters.length + q.2.getters.length) n := by
    intro l
    induction l with
    | nil => exact fun n => le_rfl
    | cons y l ih => exact fun n => le_trans (by simp only; omega) (ih _)
  have counts : ∀ (l : Map Queue) (n : Nat), l.look q = some x →
      n + x.putters.length + x.getters.length ≤ l.foldl (fun n q => n + 2 * q.2.putters.length + q.2.getters.length) n := by
    intro l
    induction l with
    | nil => exact fun n look => nomatch look
    | cons y l ih =>
      obtain ⟨k, y⟩ := y
      intro n look
      rw [Map.look] at look
      split at look
      · cases look
        exact le_trans (by simp only; omega) (grows l _)
      · exact le_trans (by simp only; omega) (ih _ look)
  have bound := counts p.queues 2 look
  rw [State.waits, found]
  simp only
  omega

/-- So does it for a queue that has just changed. -/
theorem State.waits_modQueue {s : State} {part : Nat} {p : Partition} (found : s.part part = some p) (q : Nat) (f : Queue → Queue) :
    let s' := s.modQueue part q f
    (s'.queue part q).putters.length + (s'.queue part q).getters.length + 1 ≤ s'.waits part := by
  have here := State.part_modQueue found q f
  have look := Map.look_put_same p.queues q (f (p.queue q))
  dsimp only
  rw [State.queue_of_part here, Partition.queue, look]
  exact State.waits_ge here look

/-! ### The request to a queue (R213, R253, R255) -/

section
variable {s : State} {t : Thread} {va : Word} {write : Bool} {k : WaitKind} {go : Nat → Out}

theorem State.atQueue_of_none (none : s.queueAt t.part (coreOf s.cur) va = none) : s.atQueue t va write k go = s.addr t va := by
  rw [State.atQueue, none]

theorem State.atQueue_of_locked {q : Nat} (found : s.queueAt t.part (coreOf s.cur) va = some q) (leaving : t.block.isAwait = false)
    (locked : s.locked (.pantry (s.placing t.part)) (queueOff + 64 * q) 8 write = true) :
    s.atQueue t va write k go = s.trap t 0x02 va := by
  rw [State.atQueue, found]
  exact if_pos (by rw [leaving, locked]; rfl)

theorem State.atQueue_of_leaving {q : Nat} (found : s.queueAt t.part (coreOf s.cur) va = some q) (leaving : t.block.isAwait = false)
    (free : s.locked (.pantry (s.placing t.part)) (queueOff + 64 * q) 8 write = false) :
    s.atQueue t va write k go = (s.requestOf t (.pantry (s.placing t.part)) ⟨.share t.part (s.placing t.part), queueOff + 64 * q⟩
      (.op 8 write []) va).wait t.sent (.reply k) := by
  rw [State.atQueue, found]
  dsimp only
  rw [if_neg (by rw [leaving, free]; exact Bool.false_ne_true)]
  exact State.atPlace_of_leaving leaving s _ _ _ _ _ _

theorem State.atQueue_of_there {q : Nat} (found : s.queueAt t.part (coreOf s.cur) va = some q) (there : t.there []) :
    s.atQueue t va write k go = go q := by
  rw [State.atQueue, found]
  dsimp only
  rw [if_neg (by rw [there.isAwait]; exact Bool.false_ne_true)]
  exact State.atPlace_of_there there s _ _ _ _ _ fun _ => go q

/-- The clauses of a queue form that is presented, where its meaning is that of `atQueue`. -/
theorem State.queueRequest_of_atQueue {i : Instr} (run : exec i s = s.atQueue t va write k go) : s.queueRequest t i va write k :=
  ⟨fun none => run.trans (State.atQueue_of_none none), fun _ found leaving =>
    ⟨fun locked => run.trans (State.atQueue_of_locked found leaving locked),
      fun free => run.trans (State.atQueue_of_leaving found leaving free)⟩⟩

end

/-! ### qput (R255) -/

/-- A qput where its request has come to the queue. -/
def State.qputAt (s : State) (t : Thread) (b d : GReg) (f : QMode) (q : Nat) : Out :=
  let x := s.queue t.part q
  match f with
  | .close => (if x.closed then s else s.qClose t.part q).answer t .request [(d.val, if x.closed then 2 else 0)]
  | .nb =>
    if x.closed then s.answer t .request [(d.val, 2)]
    else if decide (x.depth ≤ x.items.length) then s.answer t .request [(d.val, 1)]
    else ((s.modQueue t.part q fun x => { x with items := x.items ++ [t.rd b], senders := x.senders ++ [s.cur] }).qServe t.part q).answer t
      .request [(d.val, 0)]
  | .block =>
    afterRetire (s.wait t (.reply .qput)) fun s =>
      (s.modQueue t.part q fun x =>
        { x with putters := x.putters ++ [{ tid := s.cur, item := t.rd b, d := d, kind := .qput }] }).qServe t.part q

theorem exec_qput {s : State} {t : Thread} (thread : s.thread s.cur = some t) (waited : t.waited .all) (a b d : GReg) (f : QMode) :
    exec (.qput a b d f) s = s.atQueue t (t.rd a) true (if f = .block then .qput else .request) (s.qputAt t b d f) :=
  (State.onThread_eq thread _).trans (State.release_of_waited waited s _)

/-- What an answered form leaves of its thread, and its reply. -/
theorem State.answer_answers (s : State) (t : Thread) (k : WaitKind) (writes : List (Nat × Word)) : answers (s.answer t k writes) fun s' =>
    s'.parts = s.parts ∧ (∃ r ∈ s'.replies, r.tid = s.cur ∧ r.writes = writes) ∧
      ∃ t', s'.thread s.cur = some t' ∧ t'.pc = t.pc ∧ t'.g = t.g :=
  ⟨_, rfl, rfl, ⟨_, List.mem_append_right _ (List.mem_singleton_self _), rfl, rfl⟩, { t.issued with block := .reply k },
    State.thread_setThread_same _ _ _, Thread.issued_pc t, Thread.issued_g t⟩

section
variable {s : State} {t : Thread} (b d : GReg) {q : Nat} {p : Partition} (found : s.part t.part = some p)
  (opened : (s.queue t.part q).closed = false) (idle : (s.queue t.part q).idle)
include found opened idle

theorem State.qputAt_nb (room : (s.queue t.part q).items.length < (s.queue t.part q).depth) :
    answers (s.qputAt t b d .nb q) fun s' => (s'.queue t.part q).items = (s.queue t.part q).items ++ [t.rd b] ∧
      (∃ r ∈ s'.replies, r.tid = s.cur ∧ r.writes = [(d.val, 0)]) ∧ ∃ t', s'.thread s.cur = some t' ∧ t'.pc = t.pc ∧ t'.g = t.g := by
  obtain ⟨putters, getters⟩ := idle
  let s1 := s.modQueue t.part q fun x => { x with items := x.items ++ [t.rd b], senders := x.senders ++ [s.cur] }
  have left : s1.queue t.part q = _ := State.queue_modQueue found q _
  have served : s1.qServe t.part q = s1 :=
    State.qRun_of_idle ((congrArg Queue.putters left).trans putters) ((congrArg Queue.getters left).trans getters) _
  have cur : s1.cur = s.cur := s.cur_modQueue _ _ _
  obtain ⟨s', run, parts, reply, thread⟩ := s1.answer_answers t .request [(d.val, 0)]
  refine ⟨s', ?_, ?_, cur ▸ reply, cur ▸ thread⟩
  · rw [State.qputAt]
    rw [if_neg (by rw [opened]; exact Bool.false_ne_true), if_neg (by simpa using room)]
    exact (congrArg (fun s : State => s.answer t .request [(d.val, 0)]) served).trans run
  · rw [show s'.queue t.part q = s1.queue t.part q by simp only [State.queue, State.part, parts]]
    exact congrArg Queue.items left

/-- The queue and the thread after a blocking form has joined those that wait: what it does from there is to serve the queue. -/
theorem State.qputAt_block_room (room : (s.queue t.part q).items.length < (s.queue t.part q).depth) :
    answers (s.qputAt t b d .block q) fun s' => (s'.queue t.part q).items = (s.queue t.part q).items ++ [t.rd b] ∧
      (∃ r ∈ s'.replies, r.tid = s.cur ∧ r.writes = [(d.val, 0)]) ∧ ∃ t', s'.thread s.cur = some t' ∧ t'.pc = t.pc ∧ t'.g = t.g := by
  obtain ⟨putters, getters⟩ := idle
  let w : QWait := { tid := s.cur, item := t.rd b, d := d, kind := .qput }
  let s1 := s.setThread s.cur { t.issued with block := .reply .qput }
  let s2 := s1.modQueue t.part q fun x => { x with putters := x.putters ++ [w] }
  have here : s2.part t.part = _ := State.part_modQueue (s := s1) found q _
  have left : s2.queue t.part q = { s.queue t.part q with putters := (s.queue t.part q).putters ++ [w] } :=
    State.queue_modQueue (s := s1) found q _
  have one : (s2.queue t.part q).putters = [w] := by rw [left, putters]; rfl
  obtain ⟨n, services⟩ := Nat.exists_eq_add_of_le' (le_trans (Nat.le_add_left 1 _) (State.waits_modQueue (s := s1) found q _))
  have run := State.qRun_putter here one (by rw [left]; exact getters) (by rw [left]; exact opened) (by rw [left]; exact room) rfl n
  rw [← services] at run
  refine ⟨_, congrArg Host.Outcome.next run, ?_, ⟨w.done 0 none none, List.mem_append_right _ (List.mem_singleton_self _), rfl, rfl⟩, ?_⟩
  · have put := State.queue_modQueue here q fun x => { x with putters := [], items := x.items ++ [w.item], senders := x.senders ++ [w.tid] }
    exact (congrArg Queue.items put).trans (by rw [left])
  · have threads : State.ringAs t.part s1 (s2.modQueue t.part q fun x =>
        { x with putters := [], items := x.items ++ [w.item], senders := x.senders ++ [w.tid] }) := (State.ringAs.refl t.part s1).modQueue.modQueue
    refine ⟨{ t.issued with block := .reply .qput }, ?_, Thread.issued_pc t, Thread.issued_g t⟩
    exact (congrArg (Map.look · s.cur) threads.1).trans (State.thread_setThread_same _ _ _)

theorem State.qputAt_block_full (full : (s.queue t.part q).depth ≤ (s.queue t.part q).items.length) :
    answers (s.qputAt t b d .block q) fun s' => (s'.queue t.part q).items = (s.queue t.part q).items ∧ s'.replies = s.replies ∧
      (∃ w, (s'.queue t.part q).putters = [w] ∧ w.tid = s.cur ∧ w.item = t.rd b) ∧
      ∃ t', s'.thread s.cur = some t' ∧ t'.block = .reply .qput := by
  obtain ⟨putters, getters⟩ := idle
  let w : QWait := { tid := s.cur, item := t.rd b, d := d, kind := .qput }
  let s1 := s.setThread s.cur { t.issued with block := .reply .qput }
  let s2 := s1.modQueue t.part q fun x => { x with putters := x.putters ++ [w] }
  have left : s2.queue t.part q = { s.queue t.part q with putters := (s.queue t.part q).putters ++ [w] } :=
    State.queue_modQueue (s := s1) found q _
  have one : (s2.queue t.part q).putters = [w] := by rw [left, putters]; rfl
  have run := State.qRun_of_full one (by rw [left]; exact getters) (by rw [left]; exact opened) (by rw [left]; exact full) (s2.waits t.part)
  refine ⟨s2, congrArg Host.Outcome.next run, by rw [left], s1.replies_modQueue t.part q _, ⟨w, one, rfl, rfl⟩,
    { t.issued with block := .reply .qput }, ?_, rfl⟩
  exact (congrArg (Map.look · s.cur) (State.ringAs.refl t.part s1).modQueue.1).trans (State.thread_setThread_same _ _ _)

end

theorem qputForms : QputForms := by
  intro s t a b d thread waited
  have run := exec_qput thread waited a b d
  refine ⟨fun f => State.queueRequest_of_atQueue (run f), fun q queue there => ?_⟩
  have here : ∀ f, exec (.qput a b d f) s = s.qputAt t b d f q := fun f => (run f).trans (State.atQueue_of_there queue there)
  obtain ⟨p, found⟩ := State.part_of_queueAt queue
  refine ⟨fun closed => ⟨?_, ?_⟩, fun opened => ?_, fun opened full => ?_, fun opened room idle f row => ?_, fun opened full idle => ?_⟩
  · rw [here, State.qputAt, closed]
    rfl
  · rw [here, State.qputAt, closed]
    rfl
  · rw [here, State.qputAt, opened]
    rfl
  · rw [here, State.qputAt]
    rw [if_neg (by rw [opened]; exact Bool.false_ne_true), if_pos (decide_eq_true full)]
  · rw [here]
    obtain rfl | rfl := row
    · exact State.qputAt_nb b d found opened idle room
    · exact State.qputAt_block_room b d found opened idle room
  · rw [here]
    exact State.qputAt_block_full b d found opened idle full

/-! ### qget and qstat (R255, R269) -/

/-- The thread of a qget lets go of the item that it held from the queue. -/
def Thread.letGo (t : Thread) (q : Nat) : Thread :=
  match t.held with
  | some h => if h.queue = q then { t with held := none } else t
  | none => t

theorem Thread.letGo_of_none {t : Thread} (none : t.held = none) (q : Nat) : t.letGo q = t := by
  rw [Thread.letGo, none]

/-- A qget where its request has come to the queue. -/
def State.qgetAt (s : State) (t : Thread) (b d : GReg) (n : Bool) (q : Nat) : Out :=
  if decide (2 ^ 18 ≤ s.cur) || (n && (s.queue t.part q).items.isEmpty) then
    s.answer (t.letGo q) .request [(b.val, if (s.queue t.part q).closed then 2 else 1)]
  else
    afterRetire (s.wait (t.letGo q) (.reply .qget)) fun s =>
      ((s.modQueue t.part q fun x =>
        { x with getters := x.getters ++ [{ tid := s.cur, d := d, b := b, kind := .qget }] }).qServe t.part q).ringDrain 257 t.part

theorem Thread.letGo_part (t : Thread) (q : Nat) : (t.letGo q).part = t.part := by
  unfold Thread.letGo
  split
  · split <;> rfl
  · rfl

theorem exec_qget {s : State} {t : Thread} (thread : s.thread s.cur = some t) (a b d : GReg) (n : Bool) :
    exec (.qget a b d n) s = s.atQueue t (t.rd a) true (if n then .request else .qget) (s.qgetAt t b d n) := by
  refine (State.onThread_eq thread _).trans ?_
  refine congrArg (s.atQueue t (t.rd a) true _) (funext fun q => ?_)
  change (if _ then _ else afterRetire _ fun s : State =>
    ((s.modQueue (t.letGo q).part q _).qServe (t.letGo q).part q).ringDrain 257 (t.letGo q).part) = _
  rw [t.letGo_part q]
  rfl

theorem exec_qstat {s : State} {t : Thread} (thread : s.thread s.cur = some t) (a d : GReg) :
    exec (.qstat a d) s = s.atQueue t (t.rd a) false .request
      fun q => s.answer t .request [(d.val, BitVec.ofNat 64 (s.queue t.part q).d0)] := State.onThread_eq thread _

section
variable {s : State} {t : Thread} (b d : GReg) {q : Nat} {p : Partition} (found : s.part t.part = some p) (slot : s.cur < 2 ^ 18)
  (idle : (s.queue t.part q).idle)
include found slot idle

/-- A qget takes the head item. -/
theorem State.qgetAt_takes {v : Word} {l : List Word} (items : (s.queue t.part q).items = v :: l) (n : Bool) :
    answers (s.qgetAt t b d n q) fun s' => (∃ r ∈ s'.replies, r.tid = s.cur ∧ r.writes = [(d.val, v), (b.val, 0)]) ∧
      (p.ringPut = [] → (s'.queue t.part q).items = l) := by
  obtain ⟨putters, getters⟩ := idle
  let w : QWait := { tid := s.cur, d := d, b := b, kind := .qget }
  let s1 := s.setThread s.cur { (t.letGo q).issued with block := .reply .qget }
  let s2 := s1.modQueue t.part q fun x => { x with getters := x.getters ++ [w] }
  have here : s2.part t.part = _ := State.part_modQueue (s := s1) found q _
  have left : s2.queue t.part q = { s.queue t.part q with getters := (s.queue t.part q).getters ++ [w] } :=
    State.queue_modQueue (s := s1) found q _
  have one : (s2.queue t.part q).getters = [w] := by rw [left, getters]; rfl
  obtain ⟨k, services⟩ := Nat.exists_eq_add_of_le' (le_trans (Nat.le_add_left 1 _) (State.waits_modQueue (s := s1) found q _))
  obtain ⟨x, h, rest, run⟩ := State.qRun_getter here (by rw [left]; exact putters) one (by rw [left]; exact items) k
  rw [← services] at run
  let s3 := (s2.modQueue t.part q fun _ => x).reply (w.done 0 (some v) h)
  have busy : ¬(decide (2 ^ 18 ≤ s.cur) || (n && (s.queue t.part q).items.isEmpty)) = true := by
    simp only [items, List.isEmpty_cons, Bool.and_false, Bool.or_false, decide_eq_true_eq]
    omega
  have ran : s.qgetAt t b d n q = .next (State.ringDrain 257 s3 t.part) := by
    rw [State.qgetAt, if_neg busy]
    exact congrArg (fun s : State => Host.Outcome.next (State.ringDrain 257 s t.part)) run
  refine ⟨_, ran, ⟨w.done 0 (some v) h, ?_, rfl, rfl⟩, fun quiet => ?_⟩
  · exact (State.repliesKept.refl s3).ringDrain _ (List.mem_append_right _ (List.mem_singleton_self _))
  · have drained : State.ringDrain 257 s3 t.part = s3 := State.ringDrain_of_quiet (s := s3) (State.part_modQueue here q fun _ => x) quiet 257
    rw [drained]
    exact (congrArg Queue.items (State.queue_modQueue here q fun _ => x)).trans rest

/-- A blocking qget waits at an open queue without items. -/
theorem State.qgetAt_waits (items : (s.queue t.part q).items = []) (opened : (s.queue t.part q).closed = false) (quiet : p.ringPut = []) :
    answers (s.qgetAt t b d false q) fun s' => s'.replies = s.replies ∧
      (∃ w, (s'.queue t.part q).getters = [w] ∧ w.tid = s.cur) ∧ ∃ t', s'.thread s.cur = some t' ∧ t'.block = .reply .qget := by
  obtain ⟨putters, getters⟩ := idle
  let w : QWait := { tid := s.cur, d := d, b := b, kind := .qget }
  let s1 := s.setThread s.cur { (t.letGo q).issued with block := .reply .qget }
  let s2 := s1.modQueue t.part q fun x => { x with getters := x.getters ++ [w] }
  have here : s2.part t.part = _ := State.part_modQueue (s := s1) found q _
  have left : s2.queue t.part q = { s.queue t.part q with getters := (s.queue t.part q).getters ++ [w] } :=
    State.queue_modQueue (s := s1) found q _
  have one : (s2.queue t.part q).getters = [w] := by rw [left, getters]; rfl
  have run := State.qRun_of_empty (by rw [left]; exact putters) one (by rw [left]; exact opened) (by rw [left]; exact items) (s2.waits t.part)
  have drained : State.ringDrain 257 s2 t.part = s2 := State.ringDrain_of_quiet here quiet 257
  have ran : s.qgetAt t b d false q = .next s2 := by
    rw [State.qgetAt, if_neg (by simpa using slot)]
    exact congrArg Host.Outcome.next ((congrArg (fun s : State => State.ringDrain 257 s t.part) run).trans drained)
  refine ⟨s2, ran, s1.replies_modQueue t.part q _, ⟨w, one, rfl⟩,
    { (t.letGo q).issued with block := .reply .qget }, ?_, rfl⟩
  exact (congrArg (Map.look · s.cur) (State.ringAs.refl t.part s1).modQueue.1).trans (State.thread_setThread_same _ _ _)

end

theorem qgetQstatForms : QgetQstatForms := by
  intro s t a b d thread
  have get := exec_qget thread a b d
  refine ⟨fun n => State.queueRequest_of_atQueue (get n), State.queueRequest_of_atQueue (exec_qstat thread a d), fun q queue there slot => ?_⟩
  have here : ∀ n, exec (.qget a b d n) s = s.qgetAt t b d n q := fun n => (get n).trans (State.atQueue_of_there queue there)
  obtain ⟨p, found⟩ := State.part_of_queueAt queue
  refine ⟨?_, fun v l n items idle => ?_, fun items free => ?_, fun items opened idle quiet => ?_⟩
  · rw [exec_qstat thread, State.atQueue_of_there queue there, Queue.d0, bit_mul]
  · rw [here]
    obtain ⟨s', run, reply, rest⟩ := State.qgetAt_takes b d found slot idle items n
    exact ⟨s', run, reply, fun quiet => rest (quiet p found)⟩
  · rw [here, State.qgetAt, items, Thread.letGo_of_none free, if_pos (by simp)]
  · rw [here]
    exact State.qgetAt_waits b d found slot idle items opened (quiet p found)

/-! ### A queue that is created or removed (R254) -/

theorem queuesCreatedRemoved : QueuesCreatedRemoved := by
  intro s part q p found x
  have named : s.queue part q = x := State.queue_of_part found q
  refine ⟨fun dead single some bound quiet => ?_, fun live single => ?_⟩
  · let s1 := s.modQueue part q fun x => { live := true, depth := x.depth }
    have run : exec (.queueCreate part q) s = .next (State.ringDrain 257 s1 part) := by
      change execQueueCreate part q s = _
      rw [execQueueCreate, named, if_neg (by simp [dead, single]; omega)]
    refine ⟨_, run, ?_⟩
    rw [State.ringDrain_of_quiet (State.part_modQueue found q _) quiet]
    exact (State.queue_modQueue found q _).trans (by rw [named])
  · let s1 := s.modQueue part q fun x => { x with items := [], senders := [], requeued := [] }
    let s2 := s1.modQueue part q fun x => { x with closed := true }
    have here : s1.part part = _ := State.part_modQueue found q _
    have left : s2.queue part q = { x with items := [], senders := [], requeued := [], closed := true } :=
      (State.queue_modQueue here q _).trans (by rw [State.queue_modQueue found, named])
    have dismissed : State.dismisses part q s2 (s2.qServe part q) := State.qRun_of_closed (State.part_modQueue here q _) (by rw [left])
      (by rw [left]) (Nat.le_of_succ_le (State.waits_modQueue here q _))
    obtain ⟨-, ⟨p', found'⟩, depth, answered⟩ := dismissed
    have run : exec (.queueRemove part q) s = .next ((s2.qServe part q).modQueue part q fun x => { depth := x.depth }) := by
      change execQueueRemove part q s = _
      rw [execQueueRemove, named]
      dsimp only
      rw [if_neg (by simp [live, single])]
      rfl
    refine ⟨_, run, ?_, fun w waits => ⟨w.done 2 none none, ?_, rfl, ?_⟩⟩
    · rw [State.queue_modQueue found', depth, left]
    · rw [State.replies_modQueue]
      exact answered w (by rw [left]; exact waits)
    · simp only [QWait.done]
      split <;> rfl

/-- Settles O34: `qputForms`, `qgetQstatForms` and `queuesCreatedRemoved`. -/
theorem queueForms : Obligations.QueueForms := ⟨qputForms, qgetQstatForms, queuesCreatedRemoved⟩

/-! ### Tables that list a slot twice

The keys of a table rise in every state that a run reaches. The statements speak of every state, also of one whose table of threads lists
a slot twice: the slot then holds the first of the two threads, and the model goes through both where it looks for those that wait. -/

/-- The thread that a slot holds in the next state. -/
def Out.thread (tid : Nat) : Out → Option Thread
  | .next s => s.thread tid
  | _ => none

/-- Slot 0 is listed again with a thread that waits for the phase of barrier 0, which one more arrival completes. -/
def barwListedAgain : State :=
  { cur := 0
    threads := [(0, {}), (0, { block := .barw false 0 0 false none 0 0 })]
    cores := [(0, { bars := [(0, { target := 1 })] })] }

/-- Refutes O31: the arrival of the barr wakes the thread listed again, and the slot's thread, which has retired, moves on by a second
word. -/
theorem not_barrierForms : ¬ Obligations.BarrierForms := by
  rintro ⟨-, -, barr, -⟩
  obtain ⟨-, arrives, -⟩ := barr barwListedAgain {} 0 0 rfl
  obtain ⟨s', run, -, t', thread, pc, -⟩ := arrives ⟨rfl, rfl, rfl, rfl, rfl, rfl⟩ (.inr (by decide))
  have twice : (Out.thread 0 (exec (.barr 0 0 .core) barwListedAgain)).map Thread.pc = some 8 := by decide +kernel
  rw [run] at twice
  obtain ⟨t'', found, eight⟩ := Option.map_eq_some_iff.mp twice
  cases thread.symm.trans found
  exact absurd (eight.symm.trans pc) (by decide)

/-- The queued transfer 1 of channel 0, which has moved nothing. -/
def queuedCopy : Xfer :=
  { ins := .xcopy 0 0 0, uid := 0, ch := 0, seq := 1, tid := 0, owner := 0, part := 0, sec := false, priv := 0, regs := {}, cw := 0 }

/-- A thread that names the transfer in g1, out of rotation for the transfer's end. -/
def copyWaiter : Thread := { g := (Vector.replicate 32 0).set 1 4, block := .xwait 0 1 0 }

/-- No slot is listed twice, but the slots do not rise: what is written to slot 0 comes before slot 1, and the thread at the end stays. -/
def slotsFall : State := { cur := 0, threads := [(1, {}), (0, copyWaiter)], cores := [(0, { xq := [queuedCopy] })] }

/-- Refutes O35: the end of the transfer answers the xkill at both places that the table then lists for slot 0, and its thread moves on by
two words. -/
theorem not_copyFormsIssue : ¬ Obligations.CopyFormsIssue := by
  rintro ⟨-, -, waits⟩
  obtain ⟨-, -, -, -, live⟩ := waits slotsFall copyWaiter 1 2 0 rfl
  obtain ⟨-, -, -, ends⟩ := live queuedCopy true (by decide +kernel)
  obtain ⟨s', run, -, t', thread, -, pc, -⟩ := ends rfl (by decide)
  have twice : (Out.thread 0 (exec (.xkill 1 2) slotsFall)).map Thread.pc = some 8 := by decide +kernel
  rw [run] at twice
  obtain ⟨t'', found, eight⟩ := Option.map_eq_some_iff.mp twice
  cases thread.symm.trans found
  exact absurd (eight.symm.trans pc) (by decide)

/-- The arrival of a barr.cl of slot 0 at barrier 0 of its cluster. -/
def clusterArrival : Parcel :=
  { src := 0, seq := 0, part := 0, place := .lm 0, loc := ⟨.lm 0, 0⟩, acc := .clArrive 0 0, ctr := 3, va := 0 }

/-- Slot 0 is listed again with a thread that waits for the phase of the cluster's barrier, which the arrival completes. -/
def clusterListedAgain : State :=
  { threads := [(0, { block := .barr 1 }), (0, { block := .barw true 0 0 true none 2 0 })]
    clusters := [(0, { bars := [(0, { phase := true, target := 1 })] })]
    parcels := [clusterArrival] }

theorem clusterArrival_arriving : clusterListedAgain.arriving clusterArrival := by
  unfold State.arriving
  decide +kernel

/-- Refutes O38: the completed phase wakes the thread listed again, and the slot's thread ends its barr.cl without the PHASE in its
register. -/
theorem not_otherParcels : ¬ Obligations.OtherParcels := by
  rintro ⟨-, performed⟩
  obtain ⟨s', run, -, t', thread, -, -, g⟩ := performed clusterListedAgain clusterArrival 0 0 _ 1 clusterArrival_arriving rfl rfl rfl
  have other : (Out.thread 0 (exec (.clusterBarrierArrival 0 0) clusterListedAgain)).map Thread.g = some (Vector.replicate 32 0) := by
    decide +kernel
  rw [show exec (.clusterBarrierArrival 0 0) clusterListedAgain = .next s' from run] at other
  obtain ⟨t'', found, zero⟩ := Option.map_eq_some_iff.mp other
  cases thread.symm.trans found
  exact absurd (g.symm.trans zero) (by decide +kernel)

/-! ### A queued command that has moved bytes (R224, R334) -/

/-- A queued cout of a leaf, by which 4 bytes have been granted already. -/
def movedOut : Xfer :=
  { ins := .cout 0 0 0 0, uid := 0, ch := 0, seq := 1, tid := 0, owner := 0, part := 0, sec := false, priv := 0, regs := { xlen := 4 }
    cw := 0, root := 1, moved := 4 }

/-- The leaf in the store of partition 0. -/
def storedLeaf : Crumb := { name := 1, slot := 0, cls := 1, depth := 0, count := 1, live := true }

/-- A module that holds the leaf and the command. -/
def outModule : State :=
  { parts := [(0, { sec := false, clusters := [0], svc := 0, root := 0, kernel := 0, shares := []
                    store := { en := true, homes := [0], crumbs := [storedLeaf] } })]
    cores := [(0, { xq := [movedOut] })] }

/-- The transfer that runs in a channel of a core in the next state. -/
def Out.running (core ch : Nat) : Out → Option Xfer
  | .next s => (s.chan core ch).cur
  | _ => none

/-- Refutes O36: a command takes its channel with the bytes that it has been granted, so a queued cout with 4 of them starts with 4, and
not with none. Every command enters the queue with none. -/
theorem not_transfersRun : ¬ Obligations.TransfersRun := by
  rintro ⟨dispatched, -⟩
  obtain ⟨-, out⟩ := dispatched outModule 0 movedOut (by decide +kernel) (by decide) rfl
  obtain ⟨-, -, starts⟩ := out rfl (by decide +kernel)
  obtain ⟨-, live⟩ := starts rfl rfl
  obtain ⟨s', run, ⟨y, started, -, -, -, none⟩, -⟩ := live storedLeaf (by decide +kernel) (by decide +kernel) (by decide)
  have moved : (Out.running 0 0 (exec (.copyDispatch 0) outModule)).map Xfer.moved = some 4 := by decide +kernel
  rw [run] at moved
  obtain ⟨y', found, four⟩ := Option.map_eq_some_iff.mp moved
  cases started.symm.trans found
  exact absurd (four.symm.trans none) (by decide)

end Sys2Proof.Machine

end

section

/-! SUPPORT. The family of the statements of threads and nests (11_threads.md): callable entries and the placer, nests and their verdicts,
the ends of threads, coroutines, balancing, sleep and wake. -/

namespace Sys2Proof.Machine

/-! ### What stores and queues leave as it is

A store, and an operation on a queue, changes no thread, no parcel, no queued handler and no nest: one lemma for each operation,
named after it. -/

/-- Threads, parcels, queued handlers and the nests of every partition are those of s. -/
structure State.nestsAs (s s' : State) : Prop where
  threads : s'.threads = s.threads
  parcels : s'.parcels = s.parcels
  handlers : ∀ c, (s'.core c).handlers = (s.core c).handlers
  nests : ∀ part, (s'.part part).map Partition.nests = (s.part part).map Partition.nests

theorem State.nestsAs.refl (s : State) : s.nestsAs s := ⟨rfl, rfl, fun _ => rfl, fun _ => rfl⟩

/-- A core is changed, and its queued handlers are not. -/
theorem State.handlers_modCore (s : State) (core : Nat) {f : Core → Core} (same : ∀ k, (f k).handlers = k.handlers) (c : Nat) :
    ((s.modCore core f).core c).handlers = (s.core c).handlers := by
  by_cases e : c = core
  · subst e
    rw [State.core_modCore_same, same]
  · rw [State.core_modCore_ne _ _ e]

section
variable {s s' : State} (h : s.nestsAs s')
include h

theorem State.nestsAs.setPart {p : Nat} {x y : Partition} (found : s'.part p = some x) (nests : y.nests = x.nests) :
    s.nestsAs (s'.setPart p y) := by
  obtain ⟨threads, parcels, handlers, same⟩ := h
  refine ⟨threads, parcels, handlers, fun part => ?_⟩
  rw [← same]
  by_cases e : part = p
  · subst e
    rw [State.part_setPart_same, found, Option.map_some, Option.map_some, nests]
  · rw [State.part_setPart_ne _ _ e]

theorem State.nestsAs.modPart {p : Nat} {f : Partition → Partition} (nests : ∀ x, (f x).nests = x.nests) : s.nestsAs (s'.modPart p f) := by
  unfold State.modPart
  split
  · next found => exact h.setPart found (nests _)
  · exact h

theorem State.nestsAs.fire {l : Loc} {n : Nat} : s.nestsAs (s'.fire l n) := ⟨h.threads, h.parcels, h.handlers, h.nests⟩

theorem State.nestsAs.reply {r : Reply} : s.nestsAs (s'.reply r) := ⟨h.threads, h.parcels, h.handlers, h.nests⟩

theorem State.nestsAs.setMem {sp : Space} {m : Memory} : s.nestsAs (s'.setMem sp m) := by
  obtain ⟨threads, parcels, handlers, nests⟩ := h
  cases sp with
  | lm c => exact ⟨threads, parcels, fun k => (s'.handlers_modCore c (f := fun x => { x with lm := m }) (fun _ => rfl) k).trans (handlers k), nests⟩
  | share p k => exact ⟨threads, parcels, handlers, nests⟩
  | phys n =>
    simp only [State.setMem]
    split_ifs <;> exact ⟨threads, parcels, handlers, nests⟩

theorem State.nestsAs.afterStore {p k off n : Nat} : s.nestsAs (s'.afterStore p k off n) := by
  rw [State.afterStore_urgent]
  exact ⟨h.threads, h.parcels, h.handlers, h.nests⟩

theorem State.nestsAs.storeQueue {p off n v : Nat} {x : Partition} (found : s'.part p = some x) :
    s.nestsAs (s'.storeQueue p x off n v) := by
  unfold State.storeQueue
  dsimp only
  split
  · split
    · exact h
    · exact h.setPart found rfl
  · split_ifs
    · exact h
    · exact ⟨h.threads, h.parcels, h.handlers, h.nests⟩
    · exact ⟨h.threads, h.parcels, h.handlers, h.nests⟩
    · exact h
  · exact h

theorem State.nestsAs.writeLoc {l : Loc} {n v : Nat} : s.nestsAs (s'.writeLoc l n v) := by
  unfold State.writeLoc
  split
  · split
    · split
      · next found =>
        split
        · exact (h.storeQueue found).fire
        · dsimp only
          split
          · next found' => exact ((h.storeQueue found).storeQueue found').fire
          · exact h.storeQueue found
      · exact h
    · split
      · exact h
      · exact h.setMem.fire.afterStore
  · exact h.setMem.fire

theorem State.nestsAs.pipeWrite {p off : Nat} {ws : List Word} : s.nestsAs (s'.pipeWrite p off ws) := by
  unfold State.pipeWrite
  induction ws generalizing s' off with
  | nil => exact h
  | cons w ws ih => exact ih h.writeLoc

theorem State.nestsAs.modQueue {p q : Nat} {f : Queue → Queue} : s.nestsAs (s'.modQueue p q f) :=
  State.nestsAs.fire (h.modPart (f := fun p => { p with queues := p.queues.put q (f (p.queue q)) }) fun _ => rfl)

theorem State.nestsAs.qServed {p : Nat} {w : QWait} : s.nestsAs (s'.qServed p w) := by
  unfold State.qServed
  split
  · exact h.reply
  · exact h.modQueue

theorem State.nestsAs.qRun {n p q : Nat} : s.nestsAs (State.qRun n s' p q) := by
  induction n generalizing s' q with
  | zero => exact h
  | succ n ih =>
    unfold State.qRun
    dsimp only
    split
    · split
      · exact ih h.modQueue.reply
      · split
        · refine ih ?_
          split
          · exact ih h.modQueue.qServed
          · exact h.modQueue.qServed
        · split
          · exact ih h.modQueue.reply
          · exact h
    · exact ih h.modQueue.reply
    · split
      · exact ih h.modQueue.reply
      · exact h
    · exact h

theorem State.nestsAs.qClose {p q : Nat} : s.nestsAs (s'.qClose p q) := h.modQueue.qRun

theorem State.nestsAs.foldl {α : Type} {f : State → α → State} {l : List α} (step : ∀ {s' x}, s.nestsAs s' → s.nestsAs (f s' x)) :
    s.nestsAs (l.foldl f s') := by
  induction l generalizing s' with
  | nil => exact h
  | cons x l ih => exact ih (step h)

theorem State.nestsAs.openQueues {p : Nat} {x : Node} : s.nestsAs (s'.openQueues p x) := h.foldl fun h => h.modQueue

theorem State.nestsAs.withStarts {x : List (Nat × Nat × Nat)} : s.nestsAs { s' with starts := x } :=
  ⟨h.threads, h.parcels, h.handlers, h.nests⟩

theorem State.nestsAs.writeTeam {p rec i : Nat} : s.nestsAs (s'.writeTeam p rec i) := by
  unfold State.writeTeam
  split
  · exact h.pipeWrite.withStarts
  · exact h

theorem State.nestsAs.nest_eq (p rec : Nat) : s'.nest p rec = s.nest p rec := by
  have bound : ∀ o : Option Partition, (o.bind fun p => p.nests.find? fun n => n.record == rec) =
      (o.map Partition.nests).bind fun l => l.find? fun n => n.record == rec := fun o => by cases o <;> rfl
  unfold State.nest
  rw [bound, bound, h.nests]

theorem State.nestsAs.node_eq (p rec i : Nat) : s'.node p rec i = s.node p rec i := by
  unfold State.node
  rw [h.nest_eq]

end

/-! ### Nests and their nodes (R257, R272) -/

theorem setAt_eq_set {α : Type} (l : List α) (n : Nat) (x : α) : setAt l n x = l.set n x := by
  induction l generalizing n with
  | nil => rfl
  | cons y l ih =>
    cases n with
    | zero => rfl
    | succ n => exact congrArg (y :: ·) (ih n)

section
variable {s : State} {part rec : Nat} {n : Nest} (found : s.nest part rec = some n)
include found

/-- A nest that is found is one of a partition, under its record. -/
theorem State.nest_mem : ∃ p, s.part part = some p ∧ p.nests.find? (fun n => n.record == rec) = some n ∧ n.record = rec := by
  obtain ⟨p, here, first⟩ := Option.bind_eq_some_iff.mp found
  exact ⟨p, here, first, by simpa using List.find?_some first⟩

theorem State.nest_modNest {f : Nest → Nest} (record : ∀ n, (f n).record = n.record) :
    (s.modNest part rec f).nest part rec = some (f n) := by
  obtain ⟨p, here, first, same⟩ := State.nest_mem found
  have test : (fun n : Nest => n.record == rec) ∘ (fun n => if n.record = rec then f n else n) = fun n => n.record == rec := by
    funext m
    simp only [Function.comp_apply]
    split <;> simp [record]
  rw [State.nest, State.modNest, State.part_modPart_same here, Option.bind_some, List.find?_map, test, first, Option.map_some, if_pos same]

theorem State.node_of_nest (i : Nat) : s.node part rec i = n.nodes[i]? := by rw [State.node, found, Option.bind_some]

theorem State.nest_modNode {i : Nat} {x : Node} (node : n.nodes[i]? = some x) (f : Node → Node) :
    (s.modNode part rec i f).nest part rec = some { n with nodes := n.nodes.set i (f x) } := by
  rw [State.modNode, State.nest_modNest found, node]
  · dsimp only
    rw [setAt_eq_set]
  · exact fun _ => rfl

/-- What a change of a node leaves of the nodes. -/
theorem State.node_modNode {i : Nat} {x : Node} (node : n.nodes[i]? = some x) (f : Node → Node) (j : Nat) :
    (s.modNode part rec i f).node part rec j = if i = j then some (f x) else n.nodes[j]? := by
  rw [State.node_of_nest (State.nest_modNode found node f), List.getElem?_set]
  obtain ⟨lt, -⟩ := List.getElem?_eq_some_iff.mp node
  rw [if_pos lt]

end

/-- A nest that has been freed is found no more. -/
theorem State.nest_freeNest (s : State) (part rec : Nat) : (s.freeNest part rec).nest part rec = none := by
  unfold State.freeNest
  split
  · assumption
  · extract_lets s1
    cases here : s1.part part with
    | none => rw [State.nest, State.modPart, here, here, Option.bind_none]
    | some p =>
      rw [State.nest, State.part_modPart_same here, Option.bind_some, List.find?_eq_none]
      intro n mem
      simpa using (List.mem_filter.mp mem).2

/-- Freeing a nest changes, beside queues and waiters, its partition. -/
theorem State.freeNest_rest (s : State) (part rec : Nat) : (s.freeNest part rec).threads = s.threads ∧
    (s.freeNest part rec).parcels = s.parcels ∧ ∀ c, ((s.freeNest part rec).core c).handlers = (s.core c).handlers := by
  unfold State.freeNest
  split
  · exact ⟨rfl, rfl, fun _ => rfl⟩
  · extract_lets s1
    have removed : s.nestsAs s1 := (State.nestsAs.refl s).foldl fun h => h.modQueue.qClose.modQueue
    have cores : ∀ f c, (s1.modPart part f).core c = s1.core c := fun f c => by rw [State.core, State.modPart_cores, State.core]
    exact ⟨(s1.modPart_threads part _).trans removed.threads, (s1.modPart_parcels part _).trans removed.parcels,
      fun c => (congrArg Core.handlers (cores _ c)).trans (removed.handlers c)⟩

/-! ### A verdict (R270, R272) -/

/-- What a nest is once it has completed. -/
def Nest.completed (n : Nest) : Nest :=
  { n with complete := true, slots := [], bars := [], records := [], joiners := [], host := none, verdicts := [] }

/-- A nest without joiners and without a host's command, whose applier stands, completes: it stays, and what it had reserved is
released. -/
theorem State.nestDone_of_quiet {s : State} {part rec : Nat} {n : Nest} (found : s.nest part rec = some n) (joiners : n.joiners = [])
    (host : n.host = none) (applier : n.applier ≠ none) (code : Nat) : ∃ n', (s.nestDone part rec code).nest part rec = some n' ∧
      n'.complete = true ∧ n'.slots = [] ∧ n'.bars = [] ∧ n'.records = [] := by
  let s1 := (s.pipeWrite part (recordOff rec + 8) [BitVec.ofNat 64 (code + 2 ^ 16 * min n.failed 65535)]).pipeWrite part (recordOff rec) [0]
  have here : s1.nest part rec = some n := by
    rw [State.nestsAs.nest_eq (State.nestsAs.refl s).pipeWrite.pipeWrite, found]
  have stands : ¬(n.applier.isNone || !([] : List (Nat × GReg)).isEmpty) = true := by
    cases e : n.applier with
    | none => exact absurd e applier
    | some _ => simp
  have kept := (State.nestsAs.refl (s1.modNest part rec Nest.completed)).modPart (p := part) (f := fun p => { p with released := true })
    fun _ => rfl
  unfold State.nestDone
  rw [found]
  dsimp only
  rw [joiners, host, if_neg stands]
  exact ⟨n.completed, (kept.nest_eq part rec).trans (State.nest_modNest here fun _ => rfl), rfl, rfl, rfl, rfl⟩

/-- The root of a nest completes, and the nest with it. -/
theorem nodeDone_of_root {s : State} {part rec i : Nat} {n : Nest} {x : Node} (found : s.nest part rec = some n)
    (node : n.nodes[i]? = some x) (root : x.parent = none) (kind : x.kind ≠ 2) (k : Nat) : ∃ code,
    nodeDone (k + 1) s part rec i =
      (s.modNode part rec i fun x => { x with st := if x.bad then .failed else .done }).nestDone part rec code := by
  rw [nodeDone, State.node_of_nest found, node]
  dsimp only
  rw [if_neg kind, root]
  exact ⟨_, rfl⟩

/-- What the start of a node leaves of it. -/
def Node.started (x : Node) (iter stage : Nat) (inq outq : Word) : Node :=
  { x with st := .running, iter := if x.kind = 7 then 0 else iter, stage := stage, inq := inq, outq := outq, bad := false }

/-- A leaf starts: it runs, with the iteration given, and its team is written. -/
theorem startNode_of_leaf {s : State} {part rec i : Nat} {n : Nest} {x : Node} (found : s.nest part rec = some n)
    (node : n.nodes[i]? = some x) (leaf : x.kind = 1) (children : x.children = []) (k iter stage : Nat) (inq outq : Word) :
    ∃ inq' outq', startNode (k + 1) s part rec i iter stage inq outq =
      ((s.openQueues part x).modNode part rec i fun y => y.started iter stage inq' outq').writeTeam part rec i := by
  rw [startNode, State.node_of_nest found, node]
  dsimp only
  rw [leaf, children]
  exact ⟨_, _, rfl⟩

section
variable {s : State} {part rec i : Nat} {n : Nest} {x : Node} {l : List Nat} {e : Leaf} {v : Word} (found : s.nest part rec = some n)
  (verdicts : n.verdicts = i :: l) (node : n.nodes[i]? = some x) (loaded : s.placerLoad part n.sec (x.words.getD 3 0) = .ok (e, v))
  (runs : (s.core e.home).frozen = false)
include found verdicts node loaded runs

/-- A verdict that is not 0 ends its loop. -/
theorem exec_loopVerdictLoad_of_ending (ends : v ≠ 0) : exec (.loopVerdictLoad part rec) s =
    .next (nodeDone 9 (s.modNest part rec fun n => { n with verdicts := l }) part rec i) := by
  change execLoopVerdictLoad part rec s = _
  rw [execLoopVerdictLoad, found]
  dsimp only
  rw [verdicts]
  dsimp only
  rw [node]
  dsimp only
  rw [loaded]
  dsimp only
  rw [if_neg (by rw [runs]; exact Bool.false_ne_true), if_pos ends]

/-- A verdict of 0 starts the next iteration of the loop's body. -/
theorem exec_loopVerdictLoad_of_again {c : Nat} {cs : List Nat} {y : Node} (again : v = 0) (children : x.children = c :: cs)
    (next : ((s.modNest part rec fun n => { n with verdicts := l }).modNode part rec i fun y => { y with iter := y.iter + 1 }).node
      part rec i = some y) : exec (.loopVerdictLoad part rec) s =
    .next (startNode 9 ((s.modNest part rec fun n => { n with verdicts := l }).modNode part rec i fun y => { y with iter := y.iter + 1 })
      part rec c y.iter y.stage y.inq y.outq) := by
  change execLoopVerdictLoad part rec s = _
  rw [execLoopVerdictLoad, found]
  dsimp only
  rw [verdicts]
  dsimp only
  rw [node]
  dsimp only
  rw [loaded]
  dsimp only
  rw [if_neg (by rw [runs]; exact Bool.false_ne_true), if_neg (not_not.mpr again), next, children]

end

theorem loopVerdict : LoopVerdict := by
  intro s part rec i n x l e v found verdicts node loaded runs
  let s1 := s.modNest part rec fun n => { n with verdicts := l }
  have here : s1.nest part rec = some { n with verdicts := l } := State.nest_modNest found fun _ => rfl
  refine ⟨fun ends root bad kind failed joiners host applier => ?_, fun c y again children other body leaf none => ?_⟩
  · have loop : x.kind ≠ 2 := by rw [Node.kind, field, Nat.pow_zero, Nat.div_one]; omega
    obtain ⟨code, done⟩ := nodeDone_of_root here node root loop 8
    refine ⟨_, (exec_loopVerdictLoad_of_ending found verdicts node loaded runs ends).trans (congrArg Host.Outcome.next done), ?_⟩
    exact State.nestDone_of_quiet (State.nest_modNode here node _) joiners host applier code
  · let s2 := s1.modNode part rec i fun y => { y with iter := y.iter + 1 }
    have nest2 : s2.nest part rec = some _ := State.nest_modNode here node _
    have node2 : s2.node part rec i = some { x with iter := x.iter + 1 } := by
      rw [State.node_modNode here node, if_pos rfl]
    have body2 : (n.nodes.set i { x with iter := x.iter + 1 })[c]? = some y := by rw [List.getElem?_set_ne (Ne.symm other), body]
    have kind : y.kind = 1 := by rw [Node.kind, field, Nat.pow_zero, Nat.div_one]; exact leaf
    obtain ⟨inq, outq, starts⟩ := startNode_of_leaf nest2 body2 kind none 8 (x.iter + 1) x.stage x.inq x.outq
    let s3 := s2.openQueues part y
    have nest3 : s3.nest part rec = some _ := ((State.nestsAs.refl s2).openQueues.nest_eq part rec).trans nest2
    let s4 := s3.modNode part rec c fun y => y.started (x.iter + 1) x.stage inq outq
    have nodes : ∀ j, (s4.writeTeam part rec c).node part rec j = _ := fun j =>
      ((State.nestsAs.refl s4).writeTeam.node_eq part rec j).trans (State.node_modNode nest3 body2 _ j)
    refine ⟨s4.writeTeam part rec c, ?_, ⟨{ x with iter := x.iter + 1 }, ?_, rfl⟩,
      ⟨y.started (x.iter + 1) x.stage inq outq, (nodes c).trans (if_pos rfl), rfl, ?_⟩⟩
    · exact (exec_loopVerdictLoad_of_again found verdicts node loaded runs again children node2).trans (congrArg Host.Outcome.next starts)
    · rw [nodes, if_neg other]
      exact List.getElem?_set_self (List.getElem?_eq_some_iff.mp node).1
    · exact if_neg (by omega)

/-! ### apply and apply.w (R285) -/

/-- The request of apply, or with `wait` of apply.w. -/
def State.applyReq (s : State) (t : Thread) (a d : GReg) (wait : Bool) : ApplyReq :=
  { tid := some s.cur, entry := (t.rd a).toNat % 4096, wait := wait, d := d, owner := t.owner, sec := t.sec, start := coreOf s.cur,
    starter := t.fp.starter, mprec := t.mat.mprec, mfmt := t.mat.mfmt, mscale := t.mat.mscale }

/-- A field that begins at bit 0. -/
theorem bits_low (w : Word) (len : Nat) : bits w 0 len = w.toNat % 2 ^ len := by rw [bits, Nat.pow_zero, Nat.div_one]

theorem applyForms : ApplyForms := by
  intro s t a d p thread waited found w
  let s1 := s.setThread s.cur { t.issued with block := .reply (if w then .applyW else .unit) }
  have form : s.applyForm a d w = .next (s1.modPart t.part fun p => { p with applies := p.applies ++ [s.applyReq t a d w] }) := by
    rw [State.applyForm, State.onThread_eq thread, State.release_of_waited waited, bits_low]
    rfl
  have run : exec (if w then .applyW a d else .apply a d) s = s.applyForm a d w := by cases w <;> rfl
  refine ⟨_, run.trans form, ⟨_, State.part_modPart_same (s := s1) found _, rfl⟩, { t.issued with block := _ }, ?_, rfl, t.issued_pc, t.issued_g⟩
  rw [State.thread, State.modPart_threads]
  exact State.thread_setThread_same _ _ _

/-! ### The placer (R265, R270, R285) -/

section
variable {s : State} {part : Nat} {q : ApplyReq}

/-- A request that finds its reservation is answered the nest's handle. -/
theorem State.tryApply_of_reserved {s1 : State} {rec : Nat} (reserved : s.reserve part q = .ok (s1, rec)) :
    s.tryApply part q = some (s1.applyAnswer part q (.ok rec)) := by rw [State.tryApply, reserved]

/-- A request of apply that finds none is answered the code. -/
theorem State.tryApply_of_refused {c : Nat} (refused : s.reserve part q = .error c) (once : q.wait = false) :
    s.tryApply part q = some (s.applyAnswer part q (.error c)) := by
  rw [State.tryApply, refused]
  exact if_neg (by rw [once]; exact Bool.false_ne_true)

/-- One of apply.w that finds none does not fit. -/
theorem State.tryApply_of_waiting {c : Nat} (refused : s.reserve part q = .error c) (waits : q.wait = true) : s.tryApply part q = none := by
  rw [State.tryApply, refused]
  exact if_pos waits

section
variable {tid : Nat} (who : q.tid = some tid)
include who

theorem State.applyAnswer_code (c : Nat) :
    s.applyAnswer part q (.error c) = s.reply { tid := tid, writes := [(q.d.val, BitVec.ofNat 64 c)] } := by
  rw [State.applyAnswer, who]

theorem State.applyAnswer_handle (rec : Nat) : s.applyAnswer part q (.ok rec) = s.reply { tid := tid, writes := [(q.d.val,
    BitVec.ofNat 64 (0xC3 * 2 ^ 56 + s.placing part * 2 ^ 26 + 0x80000 + 64 * rec))] } := by
  rw [State.applyAnswer, who]
  dsimp only
  rw [recordVa, recordOff, ← Nat.add_assoc]

end

section
variable {p : Partition} {l : List ApplyReq} (found : s.part part = some p) (first : p.applies = q :: l)
include found first

theorem exec_nestPlacerRequest_of_unread {c : Nat}
    (unread : (s.setPart part { p with applies := l }).readTree part q 8 [] none 0 q.entry [] = .error c) :
    exec (.nestPlacerRequest part) s = .next ((s.setPart part { p with applies := l }).applyAnswer part q (.error c)) := by
  change execNestPlacerRequest part s = _
  rw [execNestPlacerRequest, found]
  dsimp only
  rw [first]
  dsimp only
  rw [unread]

/-- A request whose tree has been read is tried, and is held where it does not fit or comes behind one that waits. -/
theorem exec_nestPlacerRequest_of_read {tree : List Node}
    (read : (s.setPart part { p with applies := l }).readTree part q 8 [] none 0 q.entry [] = .ok tree) :
    exec (.nestPlacerRequest part) s =
      let s0 := s.setPart part { p with applies := l }
      let q' := { q with tree := tree }
      let held := s0.setPart part { p with applies := l, waiting := p.waiting ++ [q'] }
      .next (if q.wait && !p.waiting.isEmpty then held else (s0.tryApply part q').getD held) := by
  have held : ∀ f : Partition → Partition, (s.setPart part { p with applies := l }).modPart part f =
      (s.setPart part { p with applies := l }).setPart part (f { p with applies := l }) := fun f => by
    rw [State.modPart, State.part_setPart_same]
  change execNestPlacerRequest part s = _
  rw [execNestPlacerRequest, found]
  dsimp only
  rw [first]
  dsimp only
  rw [read]
  dsimp only
  rw [held]
  split
  · rfl
  · cases State.tryApply _ part { q with tree := tree } <;> rfl

end

/-- A request that waits goes on when it fits. -/
theorem applyRetry_of_fitting {s1 : State} {l : List ApplyReq} {rec : Nat} (waiting : (s.part part).map Partition.waiting = some (q :: l))
    (reserved : (s.modPart part fun p => { p with waiting := l }).reserve part q = .ok (s1, rec)) (n : Nat) :
    applyRetry (n + 1) s part = applyRetry n (s1.applyAnswer part q (.ok rec)) part := by
  rw [applyRetry]
  rw [show (s.part part).map (fun p => p.waiting) = some (q :: l) from waiting]
  dsimp only
  rw [State.tryApply_of_reserved reserved]

/-- The first that does not fit ends the retry. -/
theorem applyRetry_of_refused {l : List ApplyReq} {c : Nat} (waiting : (s.part part).map Partition.waiting = some (q :: l))
    (waits : q.wait = true) (refused : (s.modPart part fun p => { p with waiting := l }).reserve part q = .error c) (n : Nat) :
    applyRetry (n + 1) s part = s := by
  rw [applyRetry]
  rw [show (s.part part).map (fun p => p.waiting) = some (q :: l) from waiting]
  dsimp only
  rw [State.tryApply_of_waiting refused waits]

theorem applyRetry_of_none (none : ∀ p, s.part part = some p → p.waiting = []) (n : Nat) : applyRetry n s part = s := by
  cases n with
  | zero => rfl
  | succ n =>
    rw [applyRetry]
    cases found : s.part part with
    | none => rfl
    | some p =>
      rw [Option.map_some, none p found]

/-- The retry once a reservation has been released. -/
theorem exec_applyWRetry {p : Partition} (found : s.part part = some p) (released : p.released = true) :
    exec (.applyWRetry part) s = .next (applyRetry (p.waiting.length + 1) (s.setPart part { p with released := false }) part) := by
  change execApplyWRetry part s = _
  rw [execApplyWRetry, found]
  exact if_pos released

end

theorem placerAnswers : PlacerAnswers := by
  intro s part tid p q l found who
  have retry := exec_applyWRetry (s := s) (part := part) (p := p) found
  let s2 := s.setPart part { p with released := false }
  have here : s2.part part = some { p with released := false } := State.part_setPart_same ..
  have taken : ∀ l, (s2.modPart part fun p => { p with waiting := l }).reserve part q =
      (s2.setPart part { p with released := false, waiting := l }).reserve part q := fun l => by rw [State.modPart, here]
  have waiting : (s2.part part).map Partition.waiting = some p.waiting := by rw [here, Option.map_some]
  refine ⟨fun first => ⟨fun c unread => ?_, fun tree read => ?_⟩, fun kept => ?_, fun released alone _ => ?_, fun released waits r l2 => ?_⟩
  · exact ⟨_, (exec_nestPlacerRequest_of_unread found first unread).trans (congrArg Host.Outcome.next (State.applyAnswer_code who c)), rfl⟩
  · have run := exec_nestPlacerRequest_of_read found first read
    have placed : ∀ (s : State) (x : Partition), (s.setPart part x).part part = some x := fun s x => State.part_setPart_same ..
    refine ⟨fun waits behind => ?_, fun c refused once => ?_, fun c refused waits => ?_, fun s1 rec reserved free same => ?_⟩
    · have held : (q.wait && !p.waiting.isEmpty) = true := by simp [waits, behind]
      exact ⟨_, run.trans (congrArg Host.Outcome.next (if_pos held)), _, placed _ _, rfl, rfl, rfl⟩
    · have tried : ¬(q.wait && !p.waiting.isEmpty) = true := by simp [once]
      refine ⟨_, run.trans (congrArg Host.Outcome.next (if_neg tried)), ?_⟩
      rw [State.tryApply_of_refused refused once, Option.getD_some, State.applyAnswer_code (q := { q with tree := tree }) who]
      rfl
    · dsimp only at run
      rw [State.tryApply_of_waiting refused waits, Option.getD_none, ite_self] at run
      exact ⟨_, run, _, placed _ _, rfl, rfl⟩
    · have tried : ¬(q.wait && !p.waiting.isEmpty) = true := by
        simp only [Bool.and_eq_true, Bool.not_eq_true', not_and, Bool.not_eq_false]
        intro waits
        rw [free waits]
        rfl
      refine ⟨_, run.trans (congrArg Host.Outcome.next (if_neg tried)), ?_⟩
      rw [State.tryApply_of_reserved reserved, Option.getD_some, State.applyAnswer_handle (q := { q with tree := tree }) who, same]
      rfl
  · change execApplyWRetry part s = _
    rw [execApplyWRetry, found]
    exact if_neg (by rw [kept]; exact Bool.false_ne_true)
  · intro _ s1 rec reserved same none
    rw [alone] at waiting
    have run := retry released
    rw [applyRetry_of_fitting waiting ((taken _).trans reserved), State.applyAnswer_handle who, alone,
      applyRetry_of_none (s := s1.reply _) none, same] at run
    exact ⟨_, run, rfl⟩
  · refine ⟨fun several c refused => ?_, fun several again s1 rec c reserved same left stands refused => ?_⟩
    · rw [several] at waiting
      have run := retry released
      rw [applyRetry_of_refused waiting waits ((taken _).trans refused)] at run
      exact run
    · rw [several] at waiting
      obtain ⟨p1, here1⟩ := Option.isSome_iff_exists.mp stands
      have waiting1 : (s1.part part).map Partition.waiting = some (r :: l2) := by rw [here1, Option.map_some, left p1 here1]
      have run := retry released
      rw [applyRetry_of_fitting waiting ((taken _).trans reserved), State.applyAnswer_handle who, same, several, List.length_cons,
        applyRetry_of_refused (s := s1.reply _) waiting1 again refused] at run
      exact ⟨_, run, rfl, p1, here1, left p1 here1⟩

/-! ### The callable table (R259, R286, R287) -/

theorem State.getD_entryWords (s : State) (part e : Nat) {k : Nat} (lt : k < 16) :
    (s.entryWords part e).getD k 0 = s.readShare part (s.placing part) (128 * e + 8 * k) 8 := by
  rw [State.entryWords, numsFrom_zero_eq_range, List.getD_eq_getElem?_getD, List.getElem?_map, List.getElem?_range lt, Option.map_some,
    Option.getD_some]

/-- KIND of an entry as it is read. -/
theorem State.field_entryWords (s : State) (part e : Nat) :
    field (s.entryWords part e) 0 0 3 = s.readShare part (s.placing part) (128 * e) 8 % 8 := by
  rw [field, s.getD_entryWords part e (by decide), Nat.mul_zero, Nat.add_zero, Nat.pow_zero, Nat.div_one]
  rfl

/-- A doubleword that the pipe writes into the callable table or a record is performed as it stands. -/
theorem State.pipeWrite_low (s : State) (part : Nat) {off : Nat} (low : off < 0xC0000) (w : Word) :
    (s.pipeWrite part off [w]).cur = s.cur ∧
      ((s.pipeWrite part off [w]).mem (.share part (s.placing part))).read off 8 = w.toNat := by
  have run : s.pipeWrite part off [w] = s.writeLoc ⟨.share part (s.placing part), off⟩ 8 w.toNat := rfl
  have plain : ¬queueOff ≤ off := by unfold queueOff; omega
  have kept : reservedOff off = false := by
    unfold reservedOff
    simp only [Bool.or_eq_false_iff, Bool.and_eq_false_iff, decide_eq_false_iff_not]
    omega
  rw [run]
  refine ⟨State.turnOf.writeLoc (s := s) rfl, ?_⟩
  unfold State.writeLoc
  simp only [plain, kept, false_and, and_false, if_false, Bool.false_eq_true]
  rw [State.afterStore_urgent]
  change (shareMem (setShareMem _ _ _) _).read _ _ = _
  rw [shareMem_setShareMem, Memory.read_write_same]
  exact Nat.mod_eq_of_lt w.isLt

/-- A form that is answered leaves the memories, and its thread waits for the reply. -/
theorem State.answer_waits (s : State) (t : Thread) (k : WaitKind) (writes : List (Nat × Word)) : answers (s.answer t k writes) fun s' =>
    (∀ sp, s'.mem sp = s.mem sp) ∧ (∃ r ∈ s'.replies, r.tid = s.cur ∧ r.writes = writes) ∧
      ∃ t', s'.thread s.cur = some t' ∧ t'.block = .reply k ∧ t'.pc = t.pc ∧ t'.g = t.g := by
  refine ⟨_, rfl, fun sp => ?_, ⟨_, List.mem_append_right _ (List.mem_singleton_self _), rfl, rfl⟩, { t.issued with block := .reply k },
    State.thread_setThread_same _ _ _, rfl, t.issued_pc, t.issued_g⟩
  cases sp <;> rfl

theorem tableForms : TableForms := by
  intro s t a b d thread
  dsimp only
  set e := (t.rd a).toNat % 4096 with entry
  have low : e < 4096 := Nat.mod_lt _ (by decide)
  have named : bits (t.rd a) 0 12 = e := bits_low _ _
  have patch : exec (.patch a b d) s = s.atEntry t a true .request fun e =>
      if field (s.entryWords t.part e) 0 0 3 = 0 then s.answer t .request [(d.val, 5)]
      else (s.pipeWrite t.part (128 * e + 64 + 8 * bits (t.rd a) 16 3) [t.rd b]).answer t .request [(d.val, 0)] :=
    State.onThread_eq thread _
  have cread : exec (.cread a d) s = s.atEntry t a false .load fun e =>
      s.answer t .load [(d.val, BitVec.ofNat 64 (if field (s.entryWords t.part e) 0 0 3 = 0 then 0
        else (s.entryWords t.part e).getD (bits (t.rd a) 16 4) 0))] := State.onThread_eq thread _
  have argument : bits (t.rd a) 16 3 = (t.rd a).toNat / 2 ^ 16 % 8 := rfl
  have word : bits (t.rd a) 16 4 = (t.rd a).toNat / 2 ^ 16 % 16 := rfl
  rw [State.atEntry, named] at patch cread
  rw [argument] at patch
  rw [word] at cread
  refine ⟨fun leaving => ⟨?_, ?_⟩, fun there => ?_⟩
  · exact patch.trans (State.atPlace_of_leaving leaving s _ _ _ _ _ _)
  · exact cread.trans (State.atPlace_of_leaving leaving s _ _ _ _ _ _)
  · rw [State.atPlace_of_there there s _ _ _ _ _ fun _ => _, State.field_entryWords] at patch cread
    refine ⟨fun empty => patch.trans (if_pos empty), fun filled => ?_, ?_⟩
    · let off := 128 * e + 64 + 8 * ((t.rd a).toNat / 2 ^ 16 % 8)
      let s1 := s.pipeWrite t.part off [t.rd b]
      obtain ⟨cur, stored⟩ := s.pipeWrite_low t.part (off := off) (by omega) (t.rd b)
      obtain ⟨s', answered, memory, reply, thread'⟩ := s1.answer_waits t .request [(d.val, 0)]
      refine ⟨s', patch.trans ((if_neg filled).trans answered), ?_, cur ▸ reply, cur ▸ thread'⟩
      rw [memory]
      exact stored
    · rw [State.getD_entryWords s t.part e (Nat.mod_lt _ (by decide))] at cread
      exact cread

/-! ### join (R288) -/

/-- The nest that an address names is found under its record. -/
theorem State.nest_of_nestAt {s : State} {part core : Nat} {va : Word} {n : Nest} (named : s.nestAt part core va = some n) :
    s.nest part n.record = some n := by
  unfold State.nestAt at named
  split at named
  · split at named
    · obtain ⟨-, -, -, record⟩ := State.nest_mem named
      rw [record, named]
    · cases named
  · cases named

theorem joinForm : JoinForm := by
  intro s t a d thread
  have run : exec (.join a d) s = _ := State.onThread_eq thread _
  refine ⟨fun none => ?_, fun n named => ?_⟩
  · rw [none] at run
    exact State.retiresIn_of_write rfl run
  · rw [named] at run
    have found := State.nest_of_nestAt named
    refine ⟨fun complete => ?_, fun pending => ?_⟩
    · obtain ⟨s1, wrote, frame, retired⟩ := s.write_answers t d
        (BitVec.ofNat 64 (s.readShare t.part (s.placing t.part) (recordOff n.record + 8) 8)) 0
      refine ⟨s1.freeNest t.part n.record, run.trans ((if_pos complete).trans (congrArg (afterRetire · _) wrote)), s1.nest_freeNest _ _, ?_⟩
      rw [State.thread, (s1.freeNest_rest _ _).1]
      exact retired
    · let s1 := s.setThread s.cur { t.issued with block := .reply .join }
      have found1 : s1.nest t.part n.record = some n := found
      refine ⟨s1.modNest t.part n.record fun n => { n with joiners := n.joiners ++ [(s.cur, d)] },
        run.trans (if_neg (by rw [pending]; exact Bool.false_ne_true)), ⟨_, State.nest_modNest found1 fun _ => rfl, rfl⟩,
        { t.issued with block := .reply .join }, ?_, rfl, t.issued_pc, t.issued_g⟩
      rw [State.thread, State.modNest, State.modPart_threads]
      exact State.thread_setThread_same _ _ _

/-- Settles O49: `applyForms`, `placerAnswers`, `tableForms`, `joinForm` and `loopVerdict`. -/
theorem nestForms : Obligations.NestForms := ⟨applyForms, placerAnswers, tableForms, joinForm, loopVerdict⟩

/-! ### send (R289) -/

theorem map_rdN_numsFrom (t : Thread) (n : Fin 5) :
    (numsFrom 1 n.val).map t.rdN = [t.rd 1, t.rd 2, t.rd 3, t.rd 4].take n.val := by
  fin_cases n <;> rfl

/-- A form that answers 0 and sends a counted parcel, with room in its counter. -/
theorem State.retiresIn_of_post_write {s : State} {t : Thread} {i : Instr} {p : Place} {l : Loc} {x : Access} {k : Nat} {va : Word} {d : GReg}
    (room : t.pcnt k < 1024) (run : exec i s = s.post t p l x k va fun t s => s.write t d 0 0) :
    s.retiresIn (s.sentOf t p l x k va) i ((t.sent.setPcnt k (t.pcnt k + 1)).wr d 0) (t.pc + 4) := by
  rw [State.post, if_pos room] at run
  have retires := State.retiresIn_of_write (s := s) (s1 := s.sentOf t p l x k va) rfl run
  rwa [Thread.setPcnt_pc] at retires

/-- A property that a partition has, or that none is there to have. -/
theorem State.getD_map_part_eq_false {s : State} {part : Nat} {P : Partition → Bool} (none : ∀ p, s.part part = some p → P p = false) :
    ((s.part part).map P).getD false = false := by
  cases found : s.part part with
  | none => rfl
  | some p => exact none p found

/-- send posts its parcel where the target is a worker core of the partition. -/
theorem exec_send {s : State} {t : Thread} (thread : s.thread s.cur = some t) (a b d : GReg) (n : Fin 5) :
    exec (.send a b d n) s =
      let c := (t.rd a).toNat % 2 ^ 14
      if !((s.part t.part).map fun p => p.worker c).getD false then s.write t d 3 0
      else s.post t (.lm c) ⟨.lm c, 0⟩ (.handler c
        { handler := t.rd b, args := [t.rd 1, t.rd 2, t.rd 3, t.rd 4].take n.val, sender := BitVec.ofNat 64 s.cur,
          starter := t.fp.starter, owner := t.owner, part := t.part, sec := t.sec, priv := t.priv })
        (ctrFor (coreOf s.cur) c) (t.rd a) fun t s => s.write t d 0 0 := by
  have run : exec (.send a b d n) s = _ := State.onThread_eq thread _
  rw [map_rdN_numsFrom, bits_low] at run
  rw [run]
  cases s.part t.part <;> rfl

theorem sendForm : SendForm := by
  intro s t a b d n thread
  have run := exec_send thread a b d n
  dsimp only at run ⊢
  refine ⟨fun other => ?_, fun p found worker room => ?_⟩
  · rw [State.getD_map_part_eq_false other] at run
    exact State.retiresIn_of_write rfl run
  · rw [found, Option.map_some, Option.getD_some, worker] at run
    exact State.retiresIn_of_post_write room run

/-! ### tid and stage (R292) -/

theorem teamForms : TeamForms := by
  intro s t d thread
  have tid : ∀ (z : Fin 8) (v : Word), s.tidValue s.cur t z.val = v → s.retires (.tid d z) (t.wr d v) (t.pc + 4) :=
    fun z v value => State.retiresIn_of_write rfl ((State.onThread_eq thread _).trans (by rw [value]))
  have stage : ∀ (z : Fin 3) (v : Word), t.stageValue z.val = v → s.retires (.stage d z) (t.wr d v) (t.pc + 4) :=
    fun z v value => State.retiresIn_of_write rfl ((State.onThread_eq thread _).trans (by rw [value]))
  have va : ∀ n, recordVa (s.placing t.part) n = BitVec.ofNat 64 (0xC3 * 2 ^ 56 + s.placing t.part * 2 ^ 26 + 0x80000 + 64 * n) :=
    fun n => by rw [recordVa, recordOff, ← Nat.add_assoc]
  refine ⟨tid 0 _ ?_, stage 0 _ ?_, fun r team => ?_, fun team => ?_⟩
  · unfold State.tidValue
    cases t.team <;> rfl
  · unfold Thread.stageValue
    cases t.team <;> rfl
  · simp only [State.tidValue, Thread.stageValue, team] at tid stage
    exact ⟨tid 1 _ rfl, tid 2 _ rfl, tid 3 _ (va _), tid 4 _ (va _), tid 5 _ rfl, tid 6 _ rfl, tid 7 _ rfl, stage 1 _ rfl, stage 2 _ rfl⟩
  · simp only [State.tidValue, Thread.stageValue, team] at tid stage
    refine ⟨tid 3 _ rfl, tid 4 _ rfl, tid 5 _ rfl, tid 6 _ rfl, tid 7 _ rfl, stage 1 _ rfl, stage 2 _ rfl, fun pop => ?_, fun p pop => ?_⟩
    · rw [pop] at tid
      exact ⟨tid 1 _ rfl, tid 2 _ rfl⟩
    · rw [pop] at tid
      exact ⟨tid 1 _ rfl, tid 2 _ rfl⟩

/-! ### KLOAD and the core to balance to (R280, R281) -/

/-- Nibbles that are added up, each at its place, are read back. -/
theorem nibble_of_foldl {f : Nat → Nat} (small : ∀ k, f k < 16) (n : Nat) :
    let v := (numsFrom 0 n).foldl (fun acc k => acc + f k * 16 ^ k) 0
    v < 16 ^ n ∧ ∀ k < n, v / 16 ^ k % 16 = f k := by
  induction n with
  | zero => exact ⟨Nat.one_pos, fun k lt => absurd lt (Nat.not_lt_zero k)⟩
  | succ n ih =>
    obtain ⟨below, read⟩ := ih
    rw [numsFrom_zero_eq_range] at below read ⊢
    rw [List.range_succ, List.foldl_append, List.foldl_cons, List.foldl_nil]
    generalize (List.range n).foldl (fun acc k => acc + f k * 16 ^ k) 0 = v at below read
    refine ⟨?_, fun k lt => ?_⟩
    · have top := Nat.mul_le_mul_right (16 ^ n) (Nat.le_of_lt_succ (small n))
      rw [Nat.pow_succ]
      omega
    · rcases Nat.lt_succ_iff_lt_or_eq.mp lt with lower | rfl
      · obtain ⟨m, rfl⟩ : ∃ m, n = k + (m + 1) := ⟨n - k - 1, by omega⟩
        rw [show f (k + (m + 1)) * 16 ^ (k + (m + 1)) = 16 ^ k * (16 * (f (k + (m + 1)) * 16 ^ m)) by ring,
          Nat.add_mul_div_left _ _ (Nat.pow_pos (by decide)), Nat.add_mul_mod_self_left]
        exact read k lower
      · rw [Nat.add_mul_div_right _ _ (Nat.pow_pos (by decide)), Nat.div_eq_of_lt below, Nat.zero_add, Nat.mod_eq_of_lt (small k)]

/-- RDYk of a KLOAD word. -/
def kloadNibble (w : Word) (k : Nat) : Nat := w.toNat / 16 ^ k % 16

/-- A core, after the look at the next number, is the better one to balance to: the other core with the lowest nibble so far. -/
def betterCore (w : Word) (cl core : Nat) (acc : Option (Nat × Nat)) (k : Nat) : Option (Nat × Nat) :=
  if 16 * cl + k = core then acc
  else match acc with
    | none => some (k, bits w (4 * k) 4)
    | some (j, n) => if bits w (4 * k) 4 < n then some (k, bits w (4 * k) 4) else some (j, n)

theorem bits_nibble (w : Word) (k : Nat) : bits w (4 * k) 4 = kloadNibble w k := by
  rw [bits, kloadNibble, Nat.pow_mul]
  rfl

/-- The core found among the first n: none where each is the core itself, else the lowest of the lowest nibbles. -/
theorem foldl_betterCore (w : Word) (cl core n : Nat) :
    let found := (numsFrom 0 n).foldl (betterCore w cl core) none
    (found = none → ∀ j < n, 16 * cl + j = core) ∧
      ∀ k m, found = some (k, m) → k < n ∧ 16 * cl + k ≠ core ∧ m = kloadNibble w k ∧
        ∀ j < n, 16 * cl + j ≠ core → m ≤ kloadNibble w j ∧ (kloadNibble w j = m → k ≤ j) := by
  induction n with
  | zero => exact ⟨fun _ j lt => absurd lt (Nat.not_lt_zero j), fun _ _ none => nomatch none⟩
  | succ n ih =>
    obtain ⟨ih0, ih1⟩ := ih
    dsimp only at ih0 ih1 ⊢
    rw [numsFrom_zero_eq_range] at ih0 ih1 ⊢
    rw [List.range_succ, List.foldl_append, List.foldl_cons, List.foldl_nil]
    generalize (List.range n).foldl (betterCore w cl core) none = acc at ih0 ih1 ⊢
    unfold betterCore
    rw [bits_nibble]
    split
    · next own =>
      refine ⟨fun none j lt => ?_, fun k m is => ?_⟩
      · rcases Nat.lt_succ_iff_lt_or_eq.mp lt with lower | rfl
        · exact ih0 none j lower
        · exact own
      · obtain ⟨lt, ne, value, lowest⟩ := ih1 k m is
        refine ⟨by omega, ne, value, fun j lt other => lowest j ?_ other⟩
        exact (Nat.lt_succ_iff_lt_or_eq.mp lt).resolve_right fun e => other (e ▸ own)
    · next other =>
      cases acc with
      | none =>
        refine ⟨fun none => (nomatch none), fun k m is => ?_⟩
        cases is
        refine ⟨Nat.lt_succ_self n, other, rfl, fun j lt ne => ?_⟩
        rcases Nat.lt_succ_iff_lt_or_eq.mp lt with lower | rfl
        · exact absurd (ih0 rfl j lower) ne
        · exact ⟨le_rfl, fun _ => le_rfl⟩
      | some best =>
        obtain ⟨i, m0⟩ := best
        obtain ⟨lt0, ne0, value0, lowest⟩ := ih1 i m0 rfl
        dsimp only
        split
        · next less =>
          refine ⟨fun none => (nomatch none), fun k m is => ?_⟩
          cases is
          refine ⟨Nat.lt_succ_self n, other, rfl, fun j lt ne => ?_⟩
          rcases Nat.lt_succ_iff_lt_or_eq.mp lt with lower | rfl
          · have least := (lowest j lower ne).1
            exact ⟨by omega, fun e => by omega⟩
          · exact ⟨le_rfl, fun _ => le_rfl⟩
        · next more =>
          refine ⟨fun none => (nomatch none), fun k m is => ?_⟩
          cases is
          refine ⟨by omega, ne0, value0, fun j lt ne => ?_⟩
          rcases Nat.lt_succ_iff_lt_or_eq.mp lt with lower | rfl
          · exact lowest j lower ne
          · exact ⟨by omega, fun _ => by omega⟩

theorem State.balanceTo_eq (s : State) (core : Nat) : s.balanceTo core =
    match (numsFrom 0 16).foldl (betterCore (s.cluster (clusterOf core)).kload (clusterOf core) core) none with
    | some (k, n) => if 2 ≤ s.readyCount core ∧ n + 2 ≤ s.readyCount core then some (16 * clusterOf core + k) else none
    | none => none := rfl

theorem balanceTargets : BalanceTargets := by
  refine ⟨fun s cl due => ?_, fun s core => ?_⟩
  · have small : ∀ k, s.rdy cl k < 16 := fun k => by
      unfold State.rdy
      dsimp only
      split <;> omega
    obtain ⟨below, read⟩ := nibble_of_foldl small 16
    have fits : _ < 2 ^ 64 := below
    refine ⟨_, if_neg (not_not.mpr due), fun k lt => ?_⟩
    rw [State.cluster_setCluster_same, BitVec.toNat_ofNat, Nat.mod_eq_of_lt fits, read k lt]
    rfl
  · obtain ⟨alone, best⟩ := foldl_betterCore (s.cluster (clusterOf core)).kload (clusterOf core) core 16
    have run := s.balanceTo_eq core
    generalize (numsFrom 0 16).foldl (betterCore (s.cluster (clusterOf core)).kload (clusterOf core) core) none = acc at alone best run
    cases acc with
    | none =>
      have own := alone rfl
      exact absurd ((own 0 (by decide)).trans (own 1 (by decide)).symm) (by omega)
    | some found =>
      obtain ⟨k, m⟩ := found
      obtain ⟨lt, other, rfl, lowest⟩ := best k m rfl
      dsimp only at run
      split at run
      · next least =>
        refine ⟨fun c is => ?_, fun none => nomatch none.symm.trans run⟩
        obtain rfl := Option.some.inj (run.symm.trans is)
        exact ⟨k, lt, rfl, other, least.2, lowest⟩
      · next more =>
        refine ⟨fun c is => (nomatch is.symm.trans run), fun _ j lt ne => ?_⟩
        have least := (lowest j lt ne).1
        change _ < kloadNibble _ j + 2
        omega

/-! ### bal and BALANCE_CHECK (R281, R293) -/

section
variable {s : State} {t : Thread} (thread : s.thread s.cur = some t) (d : GReg)
include thread

theorem exec_bal_of_early (early : s.balanceDue (coreOf s.cur) = false) : exec (.bal d) s = s.write t d 5 0 :=
  (State.onThread_eq thread _).trans (if_pos (by rw [early]; rfl))

variable (due : s.balanceDue (coreOf s.cur) = true)
include due

theorem exec_bal_of_none (none : s.balanceTo (coreOf s.cur) = none) : exec (.bal d) s = (s.balanced (coreOf s.cur)).write t d 4 0 := by
  refine (State.onThread_eq thread _).trans ((if_neg (by rw [due]; exact Bool.false_ne_true)).trans ?_)
  rw [none]

theorem exec_bal_of_some {c : Nat} (aim : s.balanceTo (coreOf s.cur) = some c) : exec (.bal d) s =
    if s.heavy s.cur || slotOf s.cur == 15 then (s.balanced (coreOf s.cur)).write t d 1 0
    else s.release t fun t => (s.balanced (coreOf s.cur)).wait t (.migrate c (.form d 0)) := by
  refine (State.onThread_eq thread _).trans ((if_neg (by rw [due]; exact Bool.false_ne_true)).trans ?_)
  rw [aim]

end

/-- At a rotation boundary of a core whose interval is over, the first ready light thread of a partition with the policy on migrates. -/
theorem exec_balanceCheck_of_first {s : State} {core tid c : Nat} {t : Thread} {l : List (Nat × Thread)}
    (first : s.onCore core = (tid, t) :: l) (on : (s.parts.any fun p => p.2.hasCore core && p.2.balancing) = true)
    (boundary : (s.cc - (s.core core).base) % 32 = 0) (due : s.balanceDue core = true) (aim : s.balanceTo core = some c)
    (can : (slotOf tid != 15 && s.ready tid t && !s.heavy tid && s.threadShed tid t == 0) = true) :
    exec (.balanceCheck core) s = .next ((s.balanced core).setThread tid { t with block := .migrate c .balance }) := by
  have go : ¬(!(s.parts.any fun p => p.2.hasCore core && p.2.balancing) || (s.cc - (s.core core).base) % 32 != 0 ||
      !s.balanceDue core) = true := by simp [on, boundary, due]
  refine (if_neg go).trans ?_
  rw [aim, first, List.find?_cons]
  dsimp only
  rw [can]

theorem balanceForms : BalanceForms := by
  intro s t d thread
  refine ⟨fun early => ?_, fun due stays => ?_, fun c due aim kept => ?_, fun c due aim light slot waited => ?_,
    fun core tid c t2 l first on boundary due aim slot ready light free => ?_⟩
  · exact State.retiresIn_of_write rfl (exec_bal_of_early thread d early)
  · exact State.retiresIn_of_write (s1 := s.balanced (coreOf s.cur)) rfl (exec_bal_of_none thread d due stays)
  · have run := exec_bal_of_some thread d due aim
    rw [if_pos (by simpa using kept)] at run
    exact State.retiresIn_of_write (s1 := s.balanced (coreOf s.cur)) rfl run
  · have run := exec_bal_of_some thread d due aim
    rw [if_neg (by simp [light, slot]), State.release_of_waited waited] at run
    refine ⟨_, run, ?_, { t.issued with block := .migrate c (.form d 0) }, State.thread_setThread_same _ _ _, rfl, t.issued_pc, t.issued_g⟩
    rw [State.core_setThread, State.balanced, State.core_modCore_same]
  · refine ⟨_, exec_balanceCheck_of_first first on boundary due aim (by simp [slot, ready, light, free]), ?_, State.thread_setThread_same _ _ _⟩
    rw [State.core_setThread, State.balanced, State.core_modCore_same]

/-! ### sleep and wake (R294) -/

/-- wake posts its parcel where the target is on another core of the partition, and acts at once on its own. -/
theorem exec_wake {s : State} {t : Thread} (thread : s.thread s.cur = some t) (a d : GReg) :
    exec (.wake a d) s =
      let x := (t.rd a).toNat % 2 ^ 18
      if !((s.part t.part).map fun p => p.hasCore (coreOf x)).getD false then s.write t d 3 0
      else if coreOf x = coreOf s.cur then afterRetire (s.write t d 0 0) fun s => s.wakeSlot x
      else s.post t (.lm (coreOf x)) ⟨.lm (coreOf x), 0⟩ (.wake x) (ctrFor (coreOf s.cur) (coreOf x)) (t.rd a)
        fun t s => s.write t d 0 0 := by
  have run : exec (.wake a d) s = _ := State.onThread_eq thread _
  rw [bits_low] at run
  rw [run]
  cases s.part t.part <;> rfl

theorem State.wakeSlot_of_sleeping {s : State} {tid : Nat} {t : Thread} {l : Word} {e : GReg} (thread : s.thread tid = some t)
    (asleep : t.block = .sleep l e) : s.wakeSlot tid = s.complete tid 0 fun t => t.wr e 0 := by
  rw [State.wakeSlot, thread]
  dsimp only
  rw [asleep]

theorem State.wakeSlot_of_awake {s : State} {tid : Nat} {t : Thread} (thread : s.thread tid = some t)
    (awake : ∀ l e, t.block ≠ .sleep l e) :
    s.wakeSlot tid = if t.sleptAt = some s.cc then s else s.setThread tid { t with ep := true } := by
  rw [State.wakeSlot, thread]
  dsimp only
  split
  · next asleep => exact absurd asleep (awake _ _)
  · rfl

theorem State.complete_threads_ne {s : State} {tid x : Nat} {t : Thread} (thread : s.thread tid = some t) (ne : x ≠ tid) (e : Nat)
    (f : Thread → Thread) : (s.complete tid e f).thread x = s.thread x :=
  (s.complete_answers thread e f).1.threads x ne

/-- A wake leaves every thread but that of its slot. -/
theorem State.thread_wakeSlot_ne {s : State} {tid x : Nat} (ne : x ≠ tid) : (s.wakeSlot tid).thread x = s.thread x := by
  cases thread : s.thread tid with
  | none => rw [State.wakeSlot, thread]
  | some t =>
    by_cases asleep : ∃ l e, t.block = .sleep l e
    · obtain ⟨l, e, asleep⟩ := asleep
      rw [State.wakeSlot_of_sleeping thread asleep]
      exact State.complete_threads_ne thread ne 0 _
    · rw [State.wakeSlot_of_awake thread fun l e same => asleep ⟨l, e, same⟩]
      split
      · rfl
      · exact State.thread_setThread_ne _ _ ne

/-- The limit of a sleep. -/
theorem exec_sleepTimeout_of_sleeping {s : State} {tid : Nat} {t : Thread} {l : Word} {e : GReg} (thread : s.thread tid = some t)
    (asleep : t.block = .sleep l e) : exec (.sleepTimeout tid) s =
      if l ≠ 0 ∧ l.toNat ≤ s.timeAt (coreOf tid) then .next (s.complete tid 0 fun t => t.wr e 1) else .next s := by
  change execSleepTimeout tid s = _
  rw [execSleepTimeout, thread]
  dsimp only
  rw [asleep]

theorem sleepForms : SleepForms := by
  intro s t a d thread
  have sleep : exec (.sleep a d) s =
      if t.ep then s.write { t with ep := false, sleptAt := some s.cc } d 0 0 else s.wait t (.sleep (t.rd a) d) := State.onThread_eq thread _
  have wake := exec_wake thread a d
  dsimp only at wake ⊢
  refine ⟨fun ep => State.retiresIn_of_write rfl (sleep.trans (if_pos ep)), fun ep => ?_, fun other => ?_, fun p found ours => ?_,
    fun tid l e t2 thread2 asleep => ?_⟩
  · exact State.blocks_of_wait (sleep.trans (if_neg (by rw [ep]; exact Bool.false_ne_true)))
  · rw [State.getD_map_part_eq_false other] at wake
    exact State.retiresIn_of_write rfl wake
  · rw [found, Option.map_some, Option.getD_some, ours] at wake
    refine ⟨fun away room => ?_, fun t2 here ne thread2 => ?_⟩
    · rw [if_neg away] at wake
      exact State.retiresIn_of_post_write room wake
    · rw [if_pos here] at wake
      obtain ⟨s1, wrote, frame, retired⟩ := s.write_answers t d 0 0
      rw [wrote] at wake
      have target := (frame.threads _ ne).trans thread2
      have rest := congrArg State.cc frame.rest
      have cc : s1.cc = s.cc := rest
      refine ⟨s1.wakeSlot _, wake, (State.thread_wakeSlot_ne ne.symm).trans retired, fun awake => ?_, fun l e asleep => ?_⟩
      · rw [State.wakeSlot_of_awake target awake, cc]
        split
        · exact target
        · exact State.thread_setThread_same _ _ _
      · rw [State.wakeSlot_of_sleeping target asleep, ← cc]
        exact (s1.complete_answers target 0 _).2
  · have run := exec_sleepTimeout_of_sleeping thread2 asleep
    refine ⟨fun some reached => ?_, fun rest => ?_⟩
    · exact ⟨_, run.trans (if_pos ⟨some, reached⟩), (s.complete_answers thread2 0 _).2⟩
    · exact run.trans (if_neg fun ended => rest.elim ended.1 fun early => absurd ended.2 (by omega))

/-! ### yield and resume (R291) -/

theorem State.queue_modQueue_ne (s : State) (part : Nat) {q r : Nat} (ne : r ≠ q) (f : Queue → Queue) :
    (s.modQueue part q f).queue part r = s.queue part r := by
  cases found : s.part part with
  | none =>
    change (s.modPart part _).queue part r = _
    rw [State.modPart, found]
  | some p =>
    rw [State.queue_of_part (State.part_modQueue found q f), State.queue_of_part found]
    exact congrArg (fun x => Option.getD x {}) (Map.look_put_ne p.queues _ ne)

/-- The only waiter, a putter that takes from another queue, has room: its item goes to the tail, and it waits at that queue. -/
theorem State.qRun_putter_next {s : State} {part o i : Nat} {w : QWait} (putters : (s.queue part o).putters = [w])
    (opened : (s.queue part o).closed = false) (room : (s.queue part o).items.length < (s.queue part o).depth) (next : w.next = some i) (n : Nat) :
    State.qRun (n + 1) s part o = State.qRun n (State.qRun n ((s.modQueue part o fun x =>
      { x with putters := [], items := x.items ++ [w.item], senders := x.senders ++ [w.tid] }).modQueue part i fun y =>
        { y with getters := y.getters ++ [{ w with next := none }] }) part i) part o := by
  conv_lhs => unfold State.qRun
  dsimp only
  rw [putters]
  dsimp only
  rw [if_neg (by rw [opened]; exact Bool.false_ne_true), if_pos room, State.qServed, next]

theorem State.queue_reply (s : State) (r : Reply) (part q : Nat) : (s.reply r).queue part q = s.queue part q := rfl

theorem State.mem_reply (s : State) (r : Reply) : r ∈ (s.reply r).replies := List.mem_append_right _ (List.mem_singleton_self _)

/-- The registers that a getter with a status writes when it has taken an item. -/
theorem QWait.writes_done_item {w : QWait} (kind : w.kind ≠ .qput) (status : Nat) (v : Word) (held : Option HeldItem) :
    (w.done status (some v) held).writes = [(w.d.val, v), (w.b.val, BitVec.ofNat 64 status)] := by
  rw [QWait.done]
  dsimp only
  rw [if_neg kind, if_neg kind]

section
variable {s : State} {t : Thread} (o i : Nat) (item : Word) (b d : GReg) (k : WaitKind)

theorem State.putTake_of_leaving (leaving : t.block.isAwait = false) : s.putTake t o i item b d k =
    (s.requestOf t (.pantry (s.placing t.part)) ⟨.share t.part (s.placing t.part), queueOff + 64 * o⟩ (.op 8 true [])
      (queueHandle (s.placing t.part) o)).wait t.sent (.reply k) := State.atPlace_of_leaving leaving s _ _ _ _ _ _

/-- What a yield or resume waits with at the queue that it puts into. -/
def State.putTakeWait (s : State) (i : Nat) (item : Word) (b d : GReg) (k : WaitKind) : QWait :=
  { tid := s.cur, item := item, d := d, b := b, next := some i, kind := k }

theorem State.putTake_of_there (there : t.there []) : s.putTake t o i item b d k =
    .next (((s.setThread s.cur { t.issued with block := .reply k }).modQueue t.part o fun x =>
      { x with putters := x.putters ++ [s.putTakeWait i item b d k] }).qServe t.part o) :=
  State.atPlace_of_there there s _ _ _ _ _ fun _ => _

/-- At the pantry of both queues the item goes into one that has room, and the head item of the other comes back with status 0. -/
theorem State.putTake_swaps {p : Partition} {v : Word} {l : List Word} (found : s.part t.part = some p) (ne : o ≠ i) (there : t.there [])
    (opened : (s.queue t.part o).closed = false) (room : (s.queue t.part o).items.length < (s.queue t.part o).depth)
    (idleOut : (s.queue t.part o).idle) (idleIn : (s.queue t.part i).idle) (items : (s.queue t.part i).items = v :: l) (kind : k ≠ .qput) :
    answers (s.putTake t o i item b d k) fun s' => (s'.queue t.part o).items = (s.queue t.part o).items ++ [item] ∧
      (s'.queue t.part i).items = l ∧ ∃ r ∈ s'.replies, r.tid = s.cur ∧ r.writes = [(d.val, v), (b.val, 0)] := by
  obtain ⟨puttersOut, gettersOut⟩ := idleOut
  obtain ⟨puttersIn, gettersIn⟩ := idleIn
  let w := s.putTakeWait i item b d k
  let s1 := s.setThread s.cur { t.issued with block := .reply k }
  let s2 := s1.modQueue t.part o fun x => { x with putters := x.putters ++ [w] }
  have here2 : s2.part t.part = _ := State.part_modQueue (s := s1) found o _
  have out2 : s2.queue t.part o = { s.queue t.part o with putters := [w] } :=
    (State.queue_modQueue (s := s1) found o _).trans (by rw [show s1.queue t.part o = s.queue t.part o from rfl, puttersOut]; rfl)
  have in2 : s2.queue t.part i = s.queue t.part i := State.queue_modQueue_ne s1 t.part ne.symm _
  let s3 := s2.modQueue t.part o fun x => { x with putters := [], items := x.items ++ [w.item], senders := x.senders ++ [w.tid] }
  have here3 : s3.part t.part = _ := State.part_modQueue here2 o _
  have out3 : s3.queue t.part o = _ := State.queue_modQueue here2 o _
  have in3 : s3.queue t.part i = s.queue t.part i := (State.queue_modQueue_ne s2 t.part ne.symm _).trans in2
  let s4 := s3.modQueue t.part i fun y => { y with getters := y.getters ++ [{ w with next := none }] }
  have here4 : s4.part t.part = _ := State.part_modQueue here3 i _
  have out4 : s4.queue t.part o = s3.queue t.part o := State.queue_modQueue_ne s3 t.part ne _
  have in4 : s4.queue t.part i = { s.queue t.part i with getters := [{ w with next := none }] } :=
    (State.queue_modQueue here3 i _).trans (by rw [in3, gettersIn]; rfl)
  have one : (s2.queue t.part o).putters = [w] := congrArg Queue.putters out2
  have two : 2 ≤ s2.waits t.part := by
    have bound : (s2.queue t.part o).putters.length + _ + 1 ≤ s2.waits t.part := State.waits_modQueue (s := s1) found o _
    rw [one, List.length_singleton] at bound
    omega
  obtain ⟨n, services⟩ := Nat.exists_eq_add_of_le' two
  obtain ⟨x, h, rest, taken⟩ := State.qRun_getter here4 (by rw [in4]; exact puttersIn) (congrArg Queue.getters in4)
    (by rw [in4]; exact items) n
  let s5 := (s4.modQueue t.part i fun _ => x).reply (({ w with next := none } : QWait).done 0 (some v) h)
  have in5 : s5.queue t.part i = x := (State.queue_reply _ _ _ _).trans (State.queue_modQueue here4 i fun _ => x)
  have out5 : s5.queue t.part o = s3.queue t.part o := (State.queue_reply _ _ _ _).trans ((State.queue_modQueue_ne s4 t.part ne fun _ => x).trans out4)
  have done : s2.qServe t.part o = s5 := by
    rw [State.qServe, services, State.qRun_putter_next one (by rw [out2]; exact opened) (by rw [out2]; exact room) rfl]
    refine (congrArg (fun s => State.qRun (n + 1) s t.part o) taken).trans (State.qRun_of_idle ?_ ?_ _)
    · exact congrArg Queue.putters (out5.trans out3)
    · exact (congrArg Queue.getters (out5.trans out3)).trans (by rw [out2]; exact gettersOut)
  refine ⟨s5, (State.putTake_of_there o i item b d k there).trans (congrArg Host.Outcome.next done), ?_, ?_,
    ({ w with next := none } : QWait).done 0 (some v) h, State.mem_reply _ _, rfl, ?_⟩
  · exact (congrArg Queue.items (out5.trans out3)).trans (by rw [out2]; rfl)
  · exact (congrArg Queue.items in5).trans rest
  · exact QWait.writes_done_item (w := { w with next := none }) kind 0 v h

end

section
variable {s : State} {t : Thread} (thread : s.thread s.cur = some t) (a b d : GReg)
include thread

theorem exec_yield_of_other (other : ∀ r, t.team = some r → r.coro = false) : exec (.yield a b d) s = s.write t b 3 0 := by
  refine (State.onThread_eq thread _).trans ?_
  cases team : t.team with
  | none => rfl
  | some r => exact if_pos (by rw [other r team]; rfl)

theorem exec_yield_of_coro {r : TeamRef} {o i : Nat} (team : t.team = some r) (coro : r.coro = true) (waited : t.waited .all)
    (out : s.queueAt t.part (coreOf s.cur) r.outq = some o) (inq : s.queueAt t.part (coreOf s.cur) r.inq = some i) :
    exec (.yield a b d) s = s.putTake t o i (t.rd a) b d .yield := by
  refine (State.onThread_eq thread _).trans ?_
  rw [team]
  dsimp only
  rw [if_neg (by rw [coro]; exact Bool.false_ne_true), State.release_of_waited waited, out, inq]

theorem exec_resume_of_none (none : ((s.nestAt t.part (coreOf s.cur) (t.rd a)).bind fun n => n.nodes.head?) = none) :
    exec (.resume a b d) s = s.write t b 3 0 := by
  refine (State.onThread_eq thread _).trans ?_
  rw [none]

theorem exec_resume_of_coro {x : Node} {o i : Nat} (head : ((s.nestAt t.part (coreOf s.cur) (t.rd a)).bind fun n => n.nodes.head?) = some x)
    (coro : x.words.getD 0 0 % 8 = 2) (queues : x.queues = [o, i]) (waited : t.waited .all) :
    exec (.resume a b d) s = s.putTake t o i (t.rd b) b d .resume := by
  have kind : x.kind = 2 := by rw [Node.kind, field, Nat.pow_zero, Nat.div_one]; exact coro
  refine (State.onThread_eq thread _).trans ?_
  rw [head]
  dsimp only
  rw [kind, queues]
  exact State.release_of_waited waited s _

end

theorem coroutineForms : CoroutineForms := by
  intro s t a b d o i v l thread
  refine ⟨fun other => ?_, fun r team coro out inq => ⟨fun waited leaving => ?_, ?_⟩, fun none => ?_,
    fun x p head kind queues found => ⟨fun waited leaving => ?_, ?_⟩⟩
  · exact State.retiresIn_of_write rfl (exec_yield_of_other thread a b d other)
  · exact (exec_yield_of_coro thread a b d team coro waited out inq).trans (State.putTake_of_leaving o i _ b d _ leaving)
  · rintro ⟨ne, waited, there, opened, room, idleOut, idleIn, items⟩
    obtain ⟨p, found⟩ := State.part_of_queueAt out
    rw [exec_yield_of_coro thread a b d team coro waited out inq]
    exact State.putTake_swaps o i _ b d _ found ne there opened room idleOut idleIn items (by decide)
  · exact State.retiresIn_of_write rfl (exec_resume_of_none thread a b d none)
  · exact (exec_resume_of_coro thread a b d head kind queues waited).trans (State.putTake_of_leaving o i _ b d _ leaving)
  · rintro ⟨ne, waited, there, opened, room, idleOut, idleIn, items⟩
    rw [exec_resume_of_coro thread a b d head kind queues waited]
    exact State.putTake_swaps o i _ b d _ found ne there opened room idleOut idleIn items (by decide)

/-! ### What the end of a thread leaves as it is (R142, R272, R290)

One lemma for each operation that ends a thread, named after it. -/

/-- No thread but tid has changed, the queued handlers are those of s, and every parcel goes on to its place. -/
structure State.endsOnly (tid : Nat) (s s' : State) : Prop where
  threads : ∀ x, x ≠ tid → s'.thread x = s.thread x
  handlers : ∀ c, (s'.core c).handlers = (s.core c).handlers
  parcels : ∀ q ∈ s.parcels, ∃ q' ∈ s'.parcels, q'.place = q.place ∧ q'.loc = q.loc ∧ q'.acc = q.acc

theorem State.endsOnly.refl (tid : Nat) (s : State) : State.endsOnly tid s s := ⟨fun _ _ => rfl, fun _ => rfl, fun q mem => ⟨q, mem, rfl, rfl, rfl⟩⟩

theorem State.endsOnly.trans {tid : Nat} {s s1 s2 : State} (h : State.endsOnly tid s s1) (h' : State.endsOnly tid s1 s2) :
    State.endsOnly tid s s2 := by
  refine ⟨fun x ne => (h'.threads x ne).trans (h.threads x ne), fun c => (h'.handlers c).trans (h.handlers c), fun q mem => ?_⟩
  obtain ⟨q1, mem1, place1, loc1, acc1⟩ := h.parcels q mem
  obtain ⟨q2, mem2, place2, loc2, acc2⟩ := h'.parcels q1 mem1
  exact ⟨q2, mem2, place2.trans place1, loc2.trans loc1, acc2.trans acc1⟩

/-- Where the threads, parcels and queued handlers are the same, nothing has ended. -/
theorem State.endsOnly.of_same {tid : Nat} {s s' : State} (threads : s'.threads = s.threads) (parcels : s'.parcels = s.parcels)
    (handlers : ∀ c, (s'.core c).handlers = (s.core c).handlers) : State.endsOnly tid s s' :=
  ⟨fun x _ => congrArg (Map.look · x) threads, handlers, fun q mem => ⟨q, parcels ▸ mem, rfl, rfl, rfl⟩⟩

theorem handlers_look_over (m : Map Core) {f : Nat → Core → Core} (same : ∀ c k, (f c k).handlers = k.handlers) (c : Nat) :
    ((Map.look (Map.over m f) c).getD {}).handlers = ((Map.look m c).getD {}).handlers := by
  rw [Map.look_over]
  cases Map.look m c with
  | none => rfl
  | some k => exact same c k

theorem State.cores_forget (s : State) (tid : Nat) :
    ∃ f, (s.forget tid).cores = s.cores.over f ∧ ∀ c k, (f c k).handlers = k.handlers := by
  refine ⟨fun _ c => { c with
    retired := c.retired.map fun x => if x.2 = tid then (x.1, tid + 2 ^ 20) else x
    xq := c.xq.map fun x => if x.tid = tid then { x with tid := tid + 2 ^ 20 } else x
    chans := c.chans.map fun k => { k with cur := k.cur.map fun x => if x.tid = tid then { x with tid := tid + 2 ^ 20 } else x } }, rfl, ?_⟩
  exact fun _ _ => rfl

section
variable {tid : Nat} {s s' : State} (h : State.endsOnly tid s s')
include h

theorem State.endsOnly.nestsAs {s'' : State} (same : s'.nestsAs s'') : State.endsOnly tid s s'' :=
  h.trans (.of_same same.threads same.parcels same.handlers)

theorem State.endsOnly.cachesOnly {s'' : State} (same : s'.cachesOnly s'') : State.endsOnly tid s s'' := by
  have threads := congrArg State.threads same.rest
  have parcels := congrArg State.parcels same.rest
  have handlers := fun c => congrArg Core.handlers (same.cores c)
  exact h.trans (.of_same threads parcels handlers)

theorem State.endsOnly.modArb {f : Arbiter → Arbiter} : State.endsOnly tid s (s'.modArb f) := ⟨h.threads, h.handlers, h.parcels⟩

theorem State.endsOnly.withMoving {x : List Move} : State.endsOnly tid s { s' with moving := x } := ⟨h.threads, h.handlers, h.parcels⟩

theorem State.endsOnly.modPart {p : Nat} {f : Partition → Partition} : State.endsOnly tid s (s'.modPart p f) :=
  h.trans (.of_same (State.modPart_threads _ _ _) (State.modPart_parcels _ _ _) fun c => by
    rw [State.core, State.modPart_cores, State.core])

theorem State.endsOnly.setThread {t : Thread} : State.endsOnly tid s (s'.setThread tid t) :=
  ⟨fun x ne => (State.thread_setThread_ne _ _ ne).trans (h.threads x ne), h.handlers, h.parcels⟩

theorem State.endsOnly.modThread {f : Thread → Thread} : State.endsOnly tid s (s'.modThread tid f) := by
  unfold State.modThread
  split
  · exact h.setThread
  · exact h

theorem State.endsOnly.modCore {c : Nat} {f : Core → Core} (same : ∀ k, (f k).handlers = k.handlers) :
    State.endsOnly tid s (s'.modCore c f) := h.trans (.of_same rfl rfl (s'.handlers_modCore c same))

theorem State.endsOnly.foldl {α : Type} {f : State → α → State} {l : List α}
    (step : ∀ {s' x}, State.endsOnly tid s s' → State.endsOnly tid s (f s' x)) : State.endsOnly tid s (l.foldl f s') := by
  induction l generalizing s' with
  | nil => exact h
  | cons x l ih => exact ih (step h)

theorem State.endsOnly.freeLocks {core uid : Nat} : State.endsOnly tid s (s'.freeLocks core uid) := by
  unfold State.freeLocks State.moveLocks
  refine State.endsOnly.modCore h ?_
  exact fun _ => rfl

theorem State.endsOnly.sweepMeters {core : Nat} : State.endsOnly tid s (s'.sweepMeters core) := by
  unfold State.sweepMeters
  extract_lets gone s1
  have noted : State.endsOnly tid s s1 := h.foldl fun h => by
    split
    · exact h.modArb
    · exact h
  split
  · exact noted
  · exact noted.modCore fun _ => rfl

theorem State.endsOnly.mcancel {core : Nat} {c : MCmd} : State.endsOnly tid s (s'.mcancel core c) := by
  unfold State.mcancel
  refine (State.endsOnly.modCore h ?_).freeLocks.sweepMeters
  exact fun _ => rfl

theorem State.endsOnly.recordV {f : VCmd → Bool} : State.endsOnly tid s (s'.recordV tid f) := by
  unfold State.recordV
  extract_lets core k goes go
  split
  · exact h
  · split
    · exact h.modCore fun _ => rfl
    · refine State.endsOnly.modThread (State.endsOnly.modCore h ?_)
      exact fun _ => rfl

theorem State.endsOnly.recordM {f : MCmd → Bool} : State.endsOnly tid s (s'.recordM tid f) := by
  unfold State.recordM
  extract_lets core k goes go stored
  split
  · exact h
  · split
    · exact h.modCore fun _ => rfl
    · have kept : State.endsOnly tid s stored := h.foldl fun h => by
        split
        · exact h.modCore fun _ => rfl
        · exact h
      refine State.endsOnly.modThread (State.endsOnly.modCore kept ?_)
      exact fun _ => rfl

theorem State.endsOnly.recordShed : State.endsOnly tid s (s'.recordShed tid) := h.recordV.recordM

theorem State.endsOnly.setAny {t : Thread} : State.endsOnly tid s (s'.setAny tid t) := by
  unfold State.setAny
  split
  · exact h.setThread
  · exact h.withMoving

theorem State.endsOnly.endHandling {byAllowance : Bool} : State.endsOnly tid s (s'.endHandling tid byAllowance) := by
  unfold State.endHandling
  split
  · exact h
  · dsimp only
    split
    · exact h
    · split
      · exact h.setAny.modArb.recordShed
      · exact h.setAny.recordShed

theorem State.endsOnly.reportFor {o : Nat} {ended : Bool} : State.endsOnly tid s (s'.reportFor o ended) := by
  unfold State.reportFor
  dsimp only
  split_ifs
  · exact h.modArb
  · exact h

theorem State.endsOnly.dropSteward : State.endsOnly tid s (s'.dropSteward tid) := by
  unfold State.dropSteward
  split
  · exact h
  · dsimp only
    split
    · exact State.endsOnly.reportFor (State.endsOnly.modArb h.endHandling)
    · exact h.endHandling

theorem State.endsOnly.freeCtx : State.endsOnly tid s (s'.freeCtx tid) := h.modCore fun _ => rfl

theorem State.endsOnly.freeTiles {mask : Nat} : State.endsOnly tid s (s'.freeTiles tid mask) := h.modCore fun _ => rfl

theorem State.endsOnly.forget : State.endsOnly tid s (s'.forget tid) := by
  refine h.trans ⟨fun _ _ => rfl, fun c => ?_, fun q mem => ⟨_, List.mem_map_of_mem mem, ?_⟩⟩
  · obtain ⟨f, cores, same⟩ := s'.cores_forget tid
    rw [State.core, cores]
    exact handlers_look_over s'.cores same c
  · split <;> exact ⟨rfl, rfl, rfl⟩

theorem State.endsOnly.freeSlot : State.endsOnly tid s (s'.freeSlot tid) := by
  unfold State.freeSlot
  refine State.endsOnly.sweepMeters ?_
  obtain ⟨threads, handlers, parcels⟩ := h.forget
  refine ⟨fun x ne => ?_, handlers, parcels⟩
  exact ((Map.look_drop _ _ _).trans (if_neg ne.symm)).trans (threads x ne)

theorem State.endsOnly.freeNest {p rec : Nat} : State.endsOnly tid s (s'.freeNest p rec) := by
  obtain ⟨threads, parcels, handlers⟩ := s'.freeNest_rest p rec
  exact h.trans (.of_same threads parcels handlers)

theorem State.endsOnly.reap {p : Nat} : State.endsOnly tid s (s'.reap p) := by
  unfold State.reap
  split
  · exact h
  · exact h.foldl fun h => h.freeNest

theorem State.endsOnly.cancelWork : State.endsOnly tid s (s'.cancelWork tid) := by
  unfold State.cancelWork
  dsimp only
  refine State.endsOnly.modThread (State.endsOnly.modCore (State.endsOnly.foldl (State.endsOnly.foldl (State.endsOnly.foldl h ?_) ?_) ?_) ?_)
  · exact fun h => h.freeLocks
  · exact fun h => h.freeLocks
  · exact fun h => h.mcancel
  · exact fun _ => rfl

end

/-! ### hret and exit (R141, R290) -/

theorem State.window_congr {s s' : State} (parts : s'.parts = s.parts) (part core : Nat) (va : Word) :
    s'.window part core va = s.window part core va := by
  have same : s'.shareSize = s.shareSize := by
    funext p h
    rw [State.shareSize, State.shareSize, State.part, State.part, parts]
  rw [State.window, State.window, same]

theorem State.elsewhere.parts_eq {s s' : State} (h : s.elsewhere s') : s'.parts = s.parts := by
  have rest := congrArg State.parts h.rest
  exact rest

/-- A join word in a pantry is counted down by a parcel that goes there. -/
theorem State.popDown_of_pantry {s : State} {tid : Nat} {t : Thread} {p : PopRef} {h off : Nat} (pop : t.pop = some p) (join : p.join ≠ 0)
    (window : s.window t.part (coreOf tid) p.join = some (.pantry h off)) : ∃ x : Parcel,
      x.place = .pantry h ∧ x.loc = ⟨.share t.part h, off⟩ ∧ x.acc = .red .add 8 (2 ^ 64 - 1) ∧
      s.popDown tid t = ({ s with parcels := s.parcels ++ [x] } : State).sig (coreOf tid) 25 := by
  rw [State.popDown, pop]
  dsimp only
  rw [if_neg join, window]
  exact ⟨_, rfl, rfl, rfl, rfl⟩

theorem State.endsOnly_parcel (tid : Nat) (s : State) (x : Parcel) (core k : Nat) :
    State.endsOnly tid s (({ s with parcels := s.parcels ++ [x] } : State).sig core k) :=
  ⟨fun _ _ => rfl, fun _ => rfl, fun q mem => ⟨q, List.mem_append_left _ mem, rfl, rfl, rfl⟩⟩

/-- The count of a join word changes memory or sends a parcel. -/
theorem State.endsOnly_popDown (tid : Nat) (s : State) (t : Thread) : State.endsOnly tid s (s.popDown tid t) := by
  unfold State.popDown
  split
  · exact .refl tid s
  · extract_lets me send
    have sent : ∀ place loc page, State.endsOnly tid s (send place loc page) := fun place loc page => s.endsOnly_parcel tid _ _ _
    split
    · exact .refl tid s
    · split
      · exact sent _ _ _
      · split
        · extract_lets l
          split
          · exact ((State.endsOnly.refl tid s).cachesOnly (State.cachesOnly.refl s).throughL1).nestsAs (State.nestsAs.refl _).writeLoc
          · exact sent _ _ _
        · exact .refl tid s
      · exact .refl tid s

theorem State.cur_popDown (s : State) (tid : Nat) (t : Thread) : (s.popDown tid t).cur = s.cur := by
  unfold State.popDown
  split
  · rfl
  · dsimp only
    split
    · rfl
    · split
      · rfl
      · split
        · split
          · exact State.turnOf.writeLoc (State.cachesOnly.refl s).throughL1.cur_eq
          · rfl
        · rfl
      · rfl

theorem State.threads_reap (s : State) (part : Nat) : (s.reap part).threads = s.threads := by
  unfold State.reap
  split
  · rfl
  · exact List.foldlRecOn _ _ (motive := fun x : State => x.threads = s.threads) rfl fun x same n _ => (x.freeNest_rest _ _).1.trans same

theorem State.startHandler_of_none {s : State} {core : Nat} (none : (s.core core).handlers = []) : s.startHandler core = s := by
  unfold State.startHandler
  rw [none]
  split
  · next queued => cases queued
  · rfl

/-- The slot of a thread that is vacated is empty, and no handler starts in it where none is queued. -/
theorem State.vacate_empties {s : State} {tid : Nat} (quiet : slotOf tid = 15 → (s.core (coreOf tid)).handlers = []) :
    (s.vacate tid).thread tid = none ∧ State.endsOnly tid s (s.vacate tid) := by
  cases thread : s.thread tid with
  | none =>
    have run : s.vacate tid = s := by rw [State.vacate, thread]
    rw [run]
    exact ⟨thread, .refl tid s⟩
  | some t =>
  let s1 := ((s.dropSteward tid).freeCtx tid).freeTiles tid 0xFF
  let s2 := (s1.freeSlot tid).reap t.part
  have empty : s2.thread tid = none := by
    rw [State.thread, State.threads_reap, State.freeSlot, (State.sweepMeters_threads _ _).1]
    exact (Map.look_drop _ _ _).trans (if_pos rfl)
  have left : State.endsOnly tid s s2 := (State.endsOnly.refl tid s).dropSteward.freeCtx.freeTiles.freeSlot.reap
  have run : s.vacate tid = s2 := by
    unfold State.vacate
    rw [thread]
    dsimp only
    split
    · next slot => exact State.startHandler_of_none ((left.handlers _).trans (quiet slot))
    · rfl
  rw [run]
  exact ⟨empty, left⟩

/-- The thread in `cur` is gone, and no other has changed. -/
def State.curGone (s s' : State) : Prop := s'.thread s.cur = none ∧ ∀ tid, tid ≠ s.cur → s'.thread tid = s.thread tid

section
variable {s : State} {t : Thread} (poison : t.poison = []) (unqueued : ∀ c ∈ (s.core (coreOf s.cur)).mq, c.tid ≠ s.cur)
  (team : t.team = none)
include poison unqueued team

/-- A thread of no team without matrix commands in the queue ends, or waits for its vector commands. -/
theorem State.endForm_of_unqueued : s.endForm t =
    if s.vbusy s.cur || !t.vrec.isEmpty then s.until t .vgone
    else afterRetire (s.finish t 0) fun s =>
      let s := s.popDown s.cur t
      (s.cancelWork s.cur).vacate s.cur := by
  have mine : ((s.core (coreOf s.cur)).mq.filter fun c => c.tid == s.cur) = [] :=
    List.filter_eq_nil_iff.mpr fun c mem => by simpa using unqueued c mem
  rw [State.endForm, State.poisonFirst, poison]
  dsimp only
  rw [mine, team]
  rfl

theorem State.endForm_of_busy (busy : ¬(s.vbusy s.cur = false ∧ t.vrec = [])) : s.endForm t = s.until t .vgone := by
  rw [State.endForm_of_unqueued poison unqueued team]
  refine if_pos ?_
  cases vbusy : s.vbusy s.cur with
  | true => rfl
  | false => simpa using fun empty => busy ⟨vbusy, empty⟩

/-- A thread of no team without commands is gone, and what the count of its join word has sent goes on. -/
theorem State.endForm_of_idle (idle : s.vbusy s.cur = false ∧ t.vrec = [])
    (quiet : slotOf s.cur = 15 → (s.core (coreOf s.cur)).handlers = []) : ∃ s1 s', s.elsewhere s1 ∧ s.endForm t = .next s' ∧
      s.curGone s' ∧ State.endsOnly s.cur (s1.popDown s.cur t) s' := by
  obtain ⟨s1, finished, frame, -⟩ := s.finish_answers t 0
  let s2 := s1.popDown s.cur t
  let s3 := s2.cancelWork s.cur
  have down : State.endsOnly s.cur s1 s2 := s1.endsOnly_popDown s.cur t
  have cancelled : State.endsOnly s.cur s2 s3 := (State.endsOnly.refl s.cur s2).cancelWork
  have quiet3 : slotOf s.cur = 15 → (s3.core (coreOf s.cur)).handlers = [] := fun slot => by
    rw [(down.trans cancelled).handlers, ← quiet slot]
    have same := congrArg Core.handlers (frame.cores (coreOf s.cur))
    exact same
  obtain ⟨empty, left⟩ := State.vacate_empties quiet3
  have others := (down.trans (cancelled.trans left)).threads
  refine ⟨s1, s3.vacate s.cur, frame, ?_, ⟨empty, fun tid ne => (others tid ne).trans (frame.threads tid ne)⟩, cancelled.trans left⟩
  rw [State.endForm_of_unqueued poison unqueued team, if_neg (by simp [idle]), finished]
  dsimp only [afterRetire]
  rw [State.cur_popDown, frame.cur_eq]

end

section
variable {s : State} {t : Thread} (thread : s.thread s.cur = some t)
include thread

theorem exec_hret_of_worker (worker : slotOf s.cur ≠ 15) : exec .hret s = s.illegal t := (State.onThread_eq thread _).trans (if_pos worker)

theorem exec_exit_of_handler (handler : slotOf s.cur = 15) : exec .exit s = s.illegal t :=
  (State.onThread_eq thread _).trans (if_pos handler)

variable (waited : t.waited .all)
include waited

theorem exec_hret_of_handler (handler : slotOf s.cur = 15) : exec .hret s = s.endForm t :=
  ((State.onThread_eq thread _).trans (if_neg (not_not.mpr handler))).trans (State.release_of_waited waited s _)

theorem exec_exit_of_worker (worker : slotOf s.cur ≠ 15) (pop : t.pop = none) : exec .exit s = s.endForm t := by
  refine ((State.onThread_eq thread _).trans (if_neg worker)).trans ((State.release_of_waited waited s _).trans ?_)
  rw [pop]

/-- exit of a population thread goes on where its join word in a pantry passes as that of a `red.add.d` would. -/
theorem exec_exit_of_population {r : PopRef} {h off k : Nat} (worker : slotOf s.cur ≠ 15) (pop : t.pop = some r) (join : r.join ≠ 0)
    (window : s.window t.part (coreOf s.cur) r.join = some (.pantry h off))
    (passes : s.passes t r.join 8 .store true false (.far (.pantry h) ⟨.share t.part h, off⟩ k)) : exec .exit s = s.endForm t := by
  refine ((State.onThread_eq thread _).trans (if_neg worker)).trans ((State.release_of_waited waited s _).trans ?_)
  rw [pop]
  dsimp only
  rw [if_neg join, passes, State.seen, window]

end

theorem endForms : EndForms := by
  intro s t thread
  refine ⟨exec_hret_of_worker thread, exec_exit_of_handler thread, fun waited poison team unqueued => ?_⟩
  have gone : s.vbusy s.cur = false ∧ t.vrec = [] → (slotOf s.cur = 15 → (s.core (coreOf s.cur)).handlers = []) →
      answers (s.endForm t) s.curGone := fun idle quiet => by
    obtain ⟨-, s', -, run, ended, -⟩ := State.endForm_of_idle poison unqueued team idle quiet
    exact ⟨s', run, ended⟩
  have waits := State.endForm_of_busy poison unqueued team
  refine ⟨fun pop worker => ⟨fun idle => ?_, fun busy => ?_⟩, fun handler => ⟨fun idle quiet => ?_, fun busy => ?_⟩,
    fun r h off k pop join worker idle window passes => ?_⟩
  · rw [exec_exit_of_worker thread waited worker pop]
    exact gone idle fun handler => absurd handler worker
  · rw [exec_exit_of_worker thread waited worker pop, waits busy]
  · rw [exec_hret_of_handler thread waited handler]
    exact gone idle fun _ => quiet
  · rw [exec_hret_of_handler thread waited handler, waits busy]
  · obtain ⟨s1, s', frame, run, ended, left⟩ := State.endForm_of_idle poison unqueued team idle fun handler => absurd handler worker
    have window1 := (State.window_congr frame.parts_eq t.part (coreOf s.cur) r.join).trans window
    obtain ⟨x, place, loc, acc, sent⟩ := State.popDown_of_pantry pop join window1
    obtain ⟨q, mem, place', loc', acc'⟩ := left.parcels x (by rw [sent]; exact List.mem_append_right _ (List.mem_singleton_self _))
    exact ⟨s', (exec_exit_of_population thread waited worker pop join window passes).trans run, ended, q, mem, place'.trans place, loc'.trans loc, acc'.trans acc⟩

/-- Settles O50: `sendForm`, `endForms`, `coroutineForms`, `teamForms`, `balanceTargets`, `balanceForms` and `sleepForms`. -/
theorem threadForms : Obligations.ThreadForms :=
  ⟨sendForm, endForms, coroutineForms, teamForms, balanceTargets, balanceForms, sleepForms⟩

end Sys2Proof.Machine

end
